-- ==== Sys2Proof/Word.lean ====
section
/-! DEFINITION. The word types of the C4 and their plainest arithmetic (R26, R51). -/
namespace Sys2Proof

/-- A byte of memory. -/
abbrev Byte := BitVec 8
/-- A halfword of code (R26). -/
abbrev HWord := BitVec 16
/-- A 64-bit scalar register or CSR value (R51). -/
abbrev Word := BitVec 64
/-- A vector register image of 2048 bits (R159). -/
abbrev VWord := BitVec 2048
/-- A tile register of 1 KiB (R178). -/
abbrev TileWord := BitVec 8192
/-- An accumulator of 16 x 16 x 64 bits (R178). -/
abbrev AccWord := BitVec 16384

/-- The six kinds of stream, numbered as R60 numbers them. -/
inductive StreamId where
  | cs | vs | ts | as | ws | xs
  deriving DecidableEq, Repr

namespace StreamId

/-- The number of R60. -/
def num : StreamId → Nat
  | cs => 0 | vs => 1 | ts => 2 | as => 3 | ws => 4 | xs => 5

/-- The stream of a number of R60; numbers above 5 read as XS. -/
def ofNum : Nat → StreamId
  | 0 => cs | 1 => vs | 2 => ts | 3 => as | 4 => ws | _ => xs

/-- The stream's place in a core's six. -/
def fin : StreamId → Fin 6
  | cs => 0 | vs => 1 | ts => 2 | as => 3 | ws => 4 | xs => 5

@[simp] theorem ofNum_num (k : StreamId) : ofNum k.num = k := by cases k <;> rfl
@[simp] theorem num_lt (k : StreamId) : k.num < 6 := by cases k <;> decide
@[simp] theorem fin_val (k : StreamId) : (k.fin : Nat) = k.num := by cases k <;> rfl

end StreamId

end Sys2Proof
end

