-- ==== Sys2Proof/Machine/Num.lean ====
section
/-! DEFINITION. Number formats and exact arithmetic (R127 to R143): values as integers times powers of two, rounding, flags, conversion,
the stochastic generator, and the exact sums of products that the tile engine and the wavefront arrays form (R145, R146). -/
namespace Sys2Proof.Machine

/-! Flags and rounding modes. -/

/-- The five flags of R142, NV in bit 0 to NX in bit 4. -/
abbrev Flags := BitVec 5
def fNV : Flags := 1
def fDZ : Flags := 2
def fOF : Flags := 4
def fUF : Flags := 8
def fNX : Flags := 16

/-- Rounding modes (R136); codes above 4 read as SR. -/
inductive RMode where
  | rne | rz | ru | rd | sr
  deriving DecidableEq, Repr
def RMode.ofCode : Nat → RMode
  | 0 => .rne | 1 => .rz | 2 => .ru | 3 => .rd | _ => .sr

/-! The generator (R138). -/

/-- One step of the Galois register. -/
def lfsrStep (s : BitVec 32) : BitVec 32 := if s.getLsbD 0 then (s >>> 1) ^^^ 0x80200003 else s >>> 1
def lfsrSteps : Nat → BitVec 32 → BitVec 32
  | 0, s => s
  | n + 1, s => lfsrSteps n (lfsrStep s)
/-- A draw: 32 steps. -/
def lfsrDraw (s : BitVec 32) : BitVec 32 := lfsrSteps 32 s
/-- Setting the state: 0 stores 1. -/
def seedOf (v : BitVec 32) : BitVec 32 := if v = 0 then 1 else v

/-! Formats (R127, R128). -/

/-- What the all-ones exponent holds. -/
inductive Top where
  | ieee | e4 | none
  deriving DecidableEq, Repr

/-- A floating-point format: exponent and fraction bits, bias, the meaning of the all-ones exponent, and whether its NaNs are
divided into quiet and signalling. -/
structure Fmt where
  eb : Nat
  fb : Nat
  bias : Nat
  top : Top
  quiets : Bool
  deriving DecidableEq, Repr

def f64 : Fmt := ⟨11, 52, 1023, .ieee, true⟩
def f32 : Fmt := ⟨8, 23, 127, .ieee, true⟩
def f16 : Fmt := ⟨5, 10, 15, .ieee, true⟩
def bf16 : Fmt := ⟨8, 7, 127, .ieee, true⟩
def e5m2 : Fmt := ⟨5, 2, 15, .ieee, false⟩
def e4m3 : Fmt := ⟨4, 3, 7, .e4, false⟩
def e2m1 : Fmt := ⟨2, 1, 1, .none, false⟩

def Fmt.width (f : Fmt) : Nat := 1 + f.eb + f.fb
/-- Exponent of the last place of subnormals. -/
def Fmt.emin (f : Fmt) : Int := 1 - (f.bias : Int) - f.fb
/-- Largest finite magnitude, as an integer and an exponent. -/
def Fmt.max (f : Fmt) : Int × Int :=
  match f.top with
  | .ieee => ((2 : Int) ^ (f.fb + 1) - 1, ((2 : Int) ^ f.eb - 2) - f.bias - f.fb)
  | .e4 => ((2 : Int) ^ (f.fb + 1) - 2, ((2 : Int) ^ f.eb - 1) - f.bias - f.fb)
  | .none => ((2 : Int) ^ (f.fb + 1) - 1, ((2 : Int) ^ f.eb - 1) - f.bias - f.fb)
/-- The code of the largest finite magnitude. -/
def Fmt.maxCode (f : Fmt) : Nat :=
  match f.top with
  | .ieee => (2 ^ f.eb - 1) * 2 ^ f.fb - 1
  | .e4 => 2 ^ (f.eb + f.fb) - 2
  | .none => 2 ^ (f.eb + f.fb) - 1
def Fmt.signBit (f : Fmt) (neg : Bool) : Nat := if neg then 2 ^ (f.eb + f.fb) else 0
/-- The code of an infinity, of a format that has them. -/
def Fmt.infCode (f : Fmt) (neg : Bool) : Nat := f.signBit neg + (2 ^ f.eb - 1) * 2 ^ f.fb
/-- Default NaN (R129). -/
def Fmt.nan (f : Fmt) : Nat :=
  match f.top with
  | .ieee => (2 ^ f.eb - 1) * 2 ^ f.fb + 2 ^ (f.fb - 1)
  | .e4 => 2 ^ (f.eb + f.fb) - 1
  | .none => 0

/-- A value read from a code: a NaN with its fraction, an infinity, or a number (-1)^neg * n * 2^e. -/
inductive FVal where
  | nan (neg signalling : Bool) (frac fb : Nat) (small : Bool)
  | inf (neg : Bool)
  | num (neg : Bool) (n : Nat) (e : Int)
  deriving DecidableEq, Repr

/-- Reading a code (R127, R128). -/
def Fmt.read (f : Fmt) (c : Nat) : FVal :=
  let neg := c.testBit (f.eb + f.fb)
  let e := c / 2 ^ f.fb % 2 ^ f.eb
  let m := c % 2 ^ f.fb
  let fin : FVal := if e = 0 then .num neg m f.emin else .num neg (m + 2 ^ f.fb) (f.emin + e - 1)
  let nan : FVal := .nan neg (f.quiets && !m.testBit (f.fb - 1)) m f.fb (!f.quiets)
  if e + 1 = 2 ^ f.eb then
    match f.top with
    | .ieee => if m = 0 then .inf neg else nan
    | .e4 => if m + 1 = 2 ^ f.fb then nan else fin
    | .none => fin
  else fin

def FVal.isNan : FVal → Bool
  | .nan _ _ _ _ _ => true
  | .inf _ | .num _ _ _ => false
def FVal.isSnan : FVal → Bool
  | .nan _ q _ _ _ => q
  | .inf _ | .num _ _ _ => false
def FVal.neg : FVal → Bool
  | .nan s _ _ _ _ => s
  | .inf s => s
  | .num s _ _ => s
def FVal.negate : FVal → FVal
  | .nan s q m b x => .nan (!s) q m b x
  | .inf s => .inf (!s)
  | .num s n e => .num (!s) n e
def FVal.isZero : FVal → Bool
  | .num _ 0 _ => true
  | _ => false

/-- The NaN of R129 in a target format: the sign is kept, the quiet bit set, the rest of the fraction the source's highest
remaining bits. -/
def Fmt.nanOf (f : Fmt) : FVal → Nat
  | .nan neg _ m fb small =>
    match f.top with
    | .ieee =>
      if !f.quiets then f.signBit neg + 2 ^ (f.eb + f.fb) - 2
      else if small then f.signBit neg + f.nan
      else
        let rest := m % 2 ^ (fb - 1)
        f.signBit neg + f.nan + (if fb ≤ f.fb then rest * 2 ^ (f.fb - fb) else rest / 2 ^ (fb - f.fb))
    | .e4 => f.signBit neg + f.nan
    | .none => 0
  | .inf _ | .num _ _ _ => f.nan

/-! Exact values and rounding (R136). -/

/-- An exact finite value n * 2^e with the sign that a zero takes. -/
structure Ex where
  neg : Bool
  n : Int
  e : Int
  deriving DecidableEq, Repr

/-- 2^k for a non-negative exponent given as an integer. -/
def pow2 (k : Int) : Int := (2 : Int) ^ k.toNat

/-- A value rounded to a multiple of 2^q: the multiple, and whether it is inexact. A draw decides under SR. -/
def roundQ (mode : RMode) (draw : Nat) (n e q : Int) : Int × Bool :=
  if q ≤ e then (n * pow2 (e - q), false) else
  let d := pow2 (q - e)
  let a := n / d
  let r := n % d
  if r = 0 then (a, false) else
  (match mode with
   | .rne => if 2 * r < d then a else if d < 2 * r then a + 1 else if a % 2 = 0 then a else a + 1
   | .rz => if n < 0 then a + 1 else a
   | .ru => a + 1
   | .rd => a
   | .sr => if 2 ^ 32 ≤ r * 2 ^ 32 / d + draw then a + 1 else a, true)

/-- Floor(log2) of a magnitude. -/
def ilog (n e : Int) : Int := (Nat.log2 n.natAbs : Int) + e

/-- A value so far below the last place that only its sign matters is replaced by one that rounds alike. -/
def Fmt.clamp (f : Fmt) (n e : Int) : Int × Int :=
  if ilog n e < f.emin - 64 then (if n < 0 then -1 else 1, f.emin - 64) else (n, e)

/-- Round to a format with an unbounded range upward: multiple and exponent of the last place, inexact or not. -/
def Fmt.roundUnb (f : Fmt) (mode : RMode) (draw : Nat) (n0 e0 : Int) : Int × Int × Bool :=
  let (n, e) := f.clamp n0 e0
  let q := Max.max (ilog n e - f.fb) f.emin
  let r := roundQ mode draw n e q
  (r.1, q, r.2)

/-- The code of k * 2^q, which the format holds. -/
def Fmt.encode (f : Fmt) (neg : Bool) (k q : Int) : Nat :=
  let m := k.natAbs
  if m = 0 then f.signBit neg
  else
    let l := Nat.log2 m
    let ex : Int := q + l
    if ex < 1 - (f.bias : Int) then f.signBit neg + (m * pow2 (q - f.emin)).natAbs
    else
      let frac := if l ≤ f.fb then m * 2 ^ (f.fb - l) else m / 2 ^ (l - f.fb)
      f.signBit neg + (ex + f.bias).toNat * 2 ^ f.fb + (frac - 2 ^ f.fb)

/-- |k| * 2^q above the largest finite magnitude? -/
def Fmt.exceeds (f : Fmt) (k q : Int) : Bool :=
  if k = 0 then false
  else if ilog k q > ilog f.max.1 f.max.2 then true
  else
    let lo := min q f.max.2
    decide (f.max.1 * pow2 (f.max.2 - lo) < (k.natAbs : Int) * pow2 (q - lo))

/-- Below the smallest normal magnitude, before rounding (R143)? -/
def Fmt.tiny (f : Fmt) (n e : Int) : Bool := n ≠ 0 && decide (ilog n e < 1 - (f.bias : Int))

/-- Round (R136) with its flags (R143), for a format with infinities. -/
def Fmt.round (f : Fmt) (mode : RMode) (draw : Nat) (x : Ex) : Nat × Flags :=
  if x.n = 0 then (f.signBit x.neg, 0) else
  let neg := decide (x.n < 0)
  let (k, q, inex) := f.roundUnb mode draw x.n x.e
  if f.exceeds k q then
    let toInf := match mode with
      | .rne | .sr => true
      | .rz => false
      | .ru => !neg
      | .rd => neg
    (if toInf then f.infCode neg else f.signBit neg + f.maxCode, fOF ||| fNX)
  else (f.encode neg k q, (if inex then fNX else 0) ||| (if inex && f.tiny x.n x.e then fUF else 0))

/-! Conversion (R141). -/

/-- The formats that conversions know (R150, R135). -/
inductive NumTy where
  | int (signed : Bool) (w : Nat)
  | flt (f : Fmt)
  | hs (w : Nat)
  | tk8
  deriving DecidableEq, Repr

def NumTy.width : NumTy → Nat
  | .int _ w => w
  | .flt f => f.width
  | .hs w => w
  | .tk8 => 8

/-- Type codes of VCVT (R150); 0 to 12 are those of R41. -/
def NumTy.ofCode : Nat → NumTy
  | 0 => .int false 8 | 1 => .int true 8 | 2 => .int false 16 | 3 => .int true 16 | 4 => .int false 32
  | 5 => .int true 32 | 6 => .int true 64 | 7 => .flt f16 | 8 => .flt bf16 | 9 => .flt f32 | 10 => .flt f64
  | 11 => .flt e4m3 | 12 => .flt e5m2 | 13 => .hs 4 | 14 => .hs 8 | _ => .tk8

/-- A code read as two's complement. -/
def signedOf (w c : Nat) : Int := if c.testBit (w - 1) then (c : Int) - (2 : Int) ^ w else c
/-- An integer as a code of w bits. -/
def codeOf (w : Nat) (v : Int) : Nat := (v % (2 : Int) ^ w).toNat

/-- The value of a code. -/
def NumTy.read (t : NumTy) (c : Nat) : FVal :=
  let ofInt (v e : Int) : FVal := .num (decide (v < 0)) v.natAbs e
  match t with
  | .int sg w => ofInt (if sg then signedOf w c else c) 0
  | .flt f => f.read c
  | .hs w => ofInt (2 * signedOf w c + 1) (-1)
  | .tk8 => if c = 255 then .inf false else ofInt c 0

/-- A number as an exact value. -/
def FVal.ex : FVal → Ex
  | .num neg n e => ⟨neg, if neg then -(n : Int) else n, e⟩
  | .inf neg => ⟨neg, 0, 0⟩
  | .nan neg _ _ _ _ => ⟨neg, 0, 0⟩

/-- Does the target hold every value of a source that has infinities (R141)? -/
def widens (src : NumTy) (f : Fmt) : Bool :=
  match src with
  | .flt g => f.top == .ieee && decide (g.fb ≤ f.fb) && decide (g.eb ≤ f.eb) && g != f && decide (f.emin ≤ g.emin)
  | .tk8 => f.top == .ieee && decide (7 ≤ f.fb)
  | .int _ _ | .hs _ => false

/-- A bounded integer target: rounding, then saturation. -/
def toInt (lo hi : Int) (mode : RMode) (draw : Nat) (x : Ex) : Int × Flags :=
  let (y, inex) := roundQ mode draw x.n x.e 0
  if hi < y then (hi, fOF ||| fNX) else if y < lo then (lo, fOF ||| fNX) else (y, if inex then fNX else 0)

/-- The level of a half-step grid (R131, R136): levels are c + 1/2 for every integer c. -/
def toHs (mode : RMode) (draw : Nat) (x : Ex) : Int × Bool :=
  -- c nearest to x - 1/2
  let e := min x.e (-1)
  let n := x.n * pow2 (x.e - e) - pow2 (-1 - e)
  let a := n / pow2 (-e)
  match mode with
  | .rz =>
    if n % pow2 (-e) = 0 then (a, false)
    else if a = -1 then (if x.n < 0 || (x.n = 0 && x.neg) then -1 else 0, true)
    else (if x.n < 0 then a + 1 else a, true)
  | .rne | .ru | .rd | .sr => roundQ mode draw n e 0

/-- Convert (R141) of a value read from a format. -/
def NumTy.convert (src dst : NumTy) (mode : RMode) (draw : Nat) (code : Nat) : Nat × Flags :=
  if src = dst then (code, 0) else
  let x := src.read code
  match dst with
  | .flt f =>
    match x with
    | .nan _ sn _ _ _ => (f.nanOf x, if sn then fNV else 0)
    | .inf neg => if widens src f then (f.infCode neg, 0) else (f.signBit neg + f.maxCode, fOF ||| fNX)
    | .num _ _ _ =>
      let v := x.ex
      if v.n = 0 then (f.signBit v.neg, 0) else
      let neg := decide (v.n < 0)
      let (k, q, inex) := f.roundUnb mode draw v.n v.e
      if f.exceeds k q then (f.signBit neg + f.maxCode, fOF ||| fNX)
      else (f.encode neg k q, (if inex then fNX else 0) ||| (if inex && f.tiny v.n v.e then fUF else 0))
  | .int sg w =>
    let lo : Int := if sg then -((2 : Int) ^ (w - 1)) else 0
    let hi : Int := if sg then (2 : Int) ^ (w - 1) - 1 else (2 : Int) ^ w - 1
    match x with
    | .nan _ _ _ _ _ => (0, fNV)
    | .inf neg => (codeOf w (if neg then lo else hi), fOF ||| fNX)
    | .num _ _ _ =>
      let r := toInt lo hi mode draw x.ex
      (codeOf w r.1, r.2)
  | .hs w =>
    let lo : Int := -((2 : Int) ^ (w - 1))
    let hi : Int := (2 : Int) ^ (w - 1) - 1
    match x with
    | .nan _ _ _ _ _ => (0, fNV)
    | .inf neg => (codeOf w (if neg then lo else hi), fOF ||| fNX)
    | .num _ _ _ =>
      let r := toHs mode draw x.ex
      if hi < r.1 then (codeOf w hi, fOF ||| fNX) else if r.1 < lo then (codeOf w lo, fOF ||| fNX)
      else (codeOf w r.1, if r.2 then fNX else 0)
  | .tk8 =>
    match x with
    | .nan _ _ _ _ _ => (0, fNV)
    | .inf neg => if neg then (0, fNX) else (255, 0)
    | .num _ _ _ =>
      let v := x.ex
      if v.n < 0 then (0, fNX)
      else
        let (y, inex) := roundQ mode draw v.n v.e 0
        if 255 ≤ y then (255, 0) else (y.toNat, if inex then fNX else 0)

/-! Exact arithmetic. -/

/-- Sum of two exact values; an exact zero sum takes its sign by R165. -/
def Ex.add (mode : RMode) (a b : Ex) : Ex :=
  let e := min a.e b.e
  let n := a.n * pow2 (a.e - e) + b.n * pow2 (b.e - e)
  let neg := if a.n = 0 && b.n = 0 && a.neg == b.neg then a.neg else mode == .rd
  ⟨if n = 0 then neg else decide (n < 0), n, e⟩

def Ex.mul (a b : Ex) : Ex := ⟨a.neg != b.neg, a.n * b.n, a.e + b.e⟩

/-- The bit width of an integer square root's argument decides the steps. -/
def isqrtGo : Nat → Nat → Nat → Nat
  | 0, _, r => r
  | k + 1, n, r =>
    let t := r + 2 ^ k
    isqrtGo k n (if t * t ≤ n then t else r)
/-- Floor of the square root. -/
def isqrt (n : Nat) : Nat := isqrtGo (Nat.log2 n / 2 + 1) n 0

/-- A truncated magnitude with the bit that says something was cut off: the value rounds as the untruncated one
(DEDUCED, log entry 38). -/
def stickyEx (neg : Bool) (m : Nat) (e : Int) (exact : Bool) : Ex :=
  let n : Int := if exact then m else 2 * m + 1
  ⟨neg, if neg then -n else n, if exact then e else e - 1⟩

/-- Bits that a truncated result keeps beyond the operands': enough for FP64 and the 32 bits of SR. -/
def extraBits : Nat := 128

/-- a / b for magnitudes, b not 0 (DEDUCED, log entry 38). -/
def exDiv (neg : Bool) (a : Nat) (ea : Int) (b : Nat) (eb : Int) : Ex :=
  let s := Nat.log2 b + extraBits
  let q := a * 2 ^ s / b
  stickyEx neg q (ea - eb - s) (q * b == a * 2 ^ s)

/-- The square root of a magnitude (DEDUCED, log entry 38). -/
def exSqrt (a : Nat) (ea : Int) : Ex :=
  let odd : Int := ea % 2
  let m := (a * pow2 odd).natAbs * 2 ^ (2 * extraBits)
  let r := isqrt m
  stickyEx false r ((ea - odd) / 2 - extraBits) (r * r == m)

/-- 1 / sqrt of a magnitude, not 0 (DEDUCED, log entry 38). -/
def exRsqrt (a : Nat) (ea : Int) : Ex :=
  let odd : Int := ea % 2
  let m := (a * pow2 odd).natAbs
  let s := Nat.log2 m + 1 + extraBits
  let r := isqrt (2 ^ (2 * s) / m)
  stickyEx false r (-((ea - odd) / 2) - s) (r * r * m == 2 ^ (2 * s))

/-! exp2 and log2 by fixed point with 384 fraction bits. -/

def fixBits : Nat := 384
def fixOne : Nat := 2 ^ fixBits

/-- Sum of z^(2k+1) / (2k+1): the inverse hyperbolic tangent of a fixed-point z. -/
def atanhGo (z2 : Nat) : Nat → Nat → Nat → Nat → Nat
  | 0, _, _, acc => acc
  | fuel + 1, k, p, acc => atanhGo z2 fuel (k + 2) (p * z2 / fixOne) (acc + p / k)
/-- ln 2 = 2 atanh(1/3) (DEDUCED, log entry 38). -/
def fixLn2 : Nat :=
  let z := fixOne / 3
  2 * atanhGo (z * z / fixOne) 128 1 z 0

/-- Sum of x^k / k!. -/
def expGo (x : Nat) : Nat → Nat → Nat → Nat → Nat
  | 0, _, _, acc => acc
  | fuel + 1, k, t, acc => expGo x fuel (k + 1) (t * x / fixOne / k) (acc + t)
/-- 2^f for a fixed-point fraction f (DEDUCED, log entry 38). -/
def fixExp2 (f : Nat) : Nat := expGo (f * fixLn2 / fixOne) 96 1 fixOne 0

/-- 2^x: exact for an integer. Beyond 2^20 in magnitude only the direction matters (DEDUCED, log entry 38). -/
def exExp2 (neg : Bool) (n : Nat) (e : Int) : Ex :=
  if 20 < ilog n e then ⟨false, 1, if neg then -(2 ^ 20) else 2 ^ 20⟩
  else if 0 ≤ e then ⟨false, 1, (if neg then -(n : Int) else n) * pow2 e⟩
  else
    let v : Int := if neg then -(n : Int) else n
    let (w, k) : Int × Int := if e < -fixBits then (if neg then -1 else 0, -fixBits) else (v, e)
    let d := pow2 (-k)
    let fl := w / d
    let fr := (w % d).toNat
    if fr = 0 && !decide (e < -fixBits) then ⟨false, 1, fl⟩
    else stickyEx false (fixExp2 (fr * 2 ^ (fixBits - (-k).toNat))) (fl - fixBits) false

/-- log2 of a magnitude, not 0: exact for a power of two (DEDUCED, log entry 38). -/
def exLog2 (n : Nat) (e : Int) : Ex :=
  let l := Nat.log2 n
  let ex : Int := e + l
  if n = 2 ^ l then ⟨false, ex, 0⟩
  else
    -- n = 2^l * m with 1 < m < 2; log2 m = 2 atanh((m - 1)/(m + 1)) / ln 2
    let p := 2 ^ l
    let z := (n - p) * fixOne / (n + p)
    let f := 2 * atanhGo (z * z / fixOne) 160 1 z 0 * fixOne / fixLn2
    if 0 ≤ ex then stickyEx false (ex.toNat * fixOne + f) (-fixBits) false
    else stickyEx true ((-ex).toNat * fixOne - f - 1) (-fixBits) false

/-! Values under exact sums. -/

/-- Bits of a number from a position on. -/
def bitsAt (n lo w : Nat) : Nat := n / 2 ^ lo % 2 ^ w

/-- The default NaN as a value. -/
def defaultNan : FVal := .nan false false (2 ^ 22) 23 false

/-- A value times a power of two. -/
def FVal.scale (x : FVal) (k : Int) : FVal :=
  match x with
  | .num neg n e => .num neg n (e + k)
  | .inf neg => .inf neg
  | .nan neg q m fb sm => .nan neg q m fb sm

/-! Sums (R145, R182): without flags; the NaN of a sum is its first in the order in which the rule writes its operands. -/

/-- An exact product. -/
def mulVal (a b : FVal) : FVal :=
  match a, b with
  | .nan s q m fb sm, _ => .nan s q m fb sm
  | _, .nan s q m fb sm => .nan s q m fb sm
  | .inf s, y => if y.isZero then defaultNan else .inf (s != y.neg)
  | x, .inf s => if x.isZero then defaultNan else .inf (s != x.neg)
  | .num s n e, .num t m d => .num (s != t) (n * m) (e + d)

/-- An exact sum. -/
def addVal (a b : FVal) : FVal :=
  match a, b with
  | .nan s q m fb sm, _ => .nan s q m fb sm
  | _, .nan s q m fb sm => .nan s q m fb sm
  | .inf s, .inf t => if s == t then .inf s else defaultNan
  | .inf s, _ => .inf s
  | _, .inf s => .inf s
  | x, y => let r := x.ex.add .rne y.ex; .num r.neg r.n.natAbs r.e

/-- A value rounded to a format by RNE. -/
def roundVal (f : Fmt) (x : FVal) : Nat :=
  match x with
  | .nan _ _ _ _ _ => f.nanOf x
  | .inf neg => f.infCode neg
  | .num _ _ _ => (f.round .rne 0 x.ex).1

/-- +0. -/
def posZero : FVal := .num false 0 0

/-- Is a value a number? -/
def FVal.isNum : FVal → Bool
  | .num _ _ _ => true
  | .inf _ | .nan _ _ _ _ _ => false
/-- A value without its sign. -/
def FVal.abs : FVal → FVal
  | .num _ n e => .num false n e
  | .inf _ => .inf false
  | .nan s q m fb sm => .nan s q m fb sm
/-- An exact difference; a NaN keeps its sign. -/
def subVal (a b : FVal) : FVal := addVal a (if b.isNan then b else b.negate)

/-- a ≤ b for exact values. -/
def exLe (a b : Ex) : Bool :=
  let e := min a.e b.e
  decide (a.n * pow2 (a.e - e) ≤ b.n * pow2 (b.e - e))

/-- Does a difference lie within a number of ulps of the FP32 sum of magnitudes (R227, R192)? Where no magnitude is left there is none,
and an infinite sum allows every difference. -/
def withinUlps (tol : Nat) (diff mag : FVal) : Bool :=
  match f32.read (f32.round .ru 0 mag.ex).1 with
  | .num _ m e =>
    if m = 0 then diff.ex.n == 0 else exLe ⟨false, diff.ex.n.natAbs, diff.ex.e⟩ ⟨false, tol, ilog m e - 23⟩
  | .inf _ | .nan _ _ _ _ _ => true

/-- The exact sum of products, in order (DEDUCED, log entry 39). -/
def dotVal : List (FVal × FVal) → FVal
  | [] => posZero
  | x :: t => t.foldl (fun acc y => addVal acc (mulVal y.1 y.2)) (mulVal x.1 x.2)

/-- A code of a format plus a value, with one rounding (DEDUCED, log entry 39). -/
def accAdd (f : Fmt) (acc : Nat) (x : FVal) : Nat := roundVal f (addVal (f.read acc) x)

end Sys2Proof.Machine
end

