-- ==== Sys2Proof/Config.lean ====
section
/-! DEFINITION. What the manual leaves open: free values, each an opaque function that nothing can evaluate. Where a value is
drawn more than once, the argument is the state's draw counter (log entry 3). -/
namespace Sys2Proof.Config

/-- Which of two permitted values an access reads, or whether a permitted event (an eviction) happens now: one draw. -/
opaque freeBit : Nat → Bool
/-- A choice among a number of permitted candidates: one draw, to be reduced to the candidates' range. -/
opaque freeChoice : Nat → Nat
/-- Slots that a result of variable latency takes beyond the least that the manual gives: one draw. -/
opaque freeDelay : Nat → Nat
/-- For each member of a group at once, which of two permitted things happens: one draw. -/
opaque freeAt : Nat → Nat → Bool
/-- A 64-bit value that the manual leaves undefined: one draw. -/
opaque freeWord : Nat → Word
/-- A whole vector register of undefined bits: one draw. -/
opaque freeVec : Nat → VWord
/-- Byte `off` of the image of a ticket, where the manual gives an image no layout (R231, R424). -/
opaque imageByte (ticket off : Nat) : Byte
/-- What a section of an array image whose layout the manual does not give says as its field `i` (R231). -/
opaque imageField (bytes : List Byte) (i : Nat) : Nat
/-- The identity key that a die derives from its physically unclonable function with an identity seed (R456). -/
opaque identityKey (die : Nat) (seed : List Byte) : BitVec 384
/-- The public halves of the identity key pairs derived under an identity key (R460). -/
opaque publicKeys : BitVec 384 → List Byte
/-- Byte `i` of the two signatures over a report with the key pairs of an identity key (R460). -/
opaque signature : BitVec 384 → List Byte → Nat → Byte
/-- The fixed input data, the tenant identity among them, of the derivation of a tenant key (R454): their encoding is not given. -/
opaque kdfFixed (tenant : Word) : List Byte
/-- How many words lie between the code and the job table of the section that Hazel makes of a portable section (R450, R453): the manual does
not say where in the section the table stands. -/
opaque hazelGap : List Byte → Nat

end Sys2Proof.Config
end

