-- ==== Sys2Proof/Syntax.lean ====
section
/-! DEFINITION. The instructions and events of the C4 as syntax: the operand fields of each format (R33 to R43) and one
constructor per row of the opcode table. Register numbers and X-word fields are kept as the manual lays them out, and
the accessors below name the parts of an X word. -/
namespace Sys2Proof

/-- What every instruction carries beside its operands: the guard (R34), the stall count (R92; the count of a NOP16, R43),
the semaphore halves of an engine command's extension word (R42) and the three steps of an INC word,
sb in [10:8], sa in [7:4], sd in [3:0] (R43, R44). A format leaves what it has not zero. -/
structure Head where
  g : BitVec 4
  st : BitVec 3
  se : Bool
  we : Bool
  ssem : BitVec 8
  wsem : BitVec 8
  step : BitVec 11
  deriving DecidableEq, Repr

/-- The head of an instruction with no guard, no stall and no semaphore. -/
def Head.zero : Head := ⟨0, 0, false, false, 0, 0, 0⟩

/-- Three register fields (R36). -/
structure RRR where
  b : BitVec 5
  a : BitVec 5
  d : BitVec 5
  deriving DecidableEq, Repr

/-- A signed 5-bit immediate and two register fields (R36). -/
structure RI where
  imm : BitVec 5
  a : BitVec 5
  d : BitVec 5
  deriving DecidableEq, Repr

/-- Three register fields and a 32-bit extension word (R27, R36). -/
structure RX where
  b : BitVec 5
  a : BitVec 5
  d : BitVec 5
  x : BitVec 32
  deriving DecidableEq, Repr

/-- A memory instruction with its M extension (R40). -/
structure M where
  b : BitVec 5
  a : BitVec 5
  d : BitVec 5
  sc : BitVec 3
  cnt : BitVec 5
  mod : BitVec 4
  ty : BitVec 4
  off : BitVec 16
  deriving DecidableEq, Repr

/-- An engine command with its E extension (R42); `op` is X[31:18]. -/
structure E where
  b : BitVec 5
  a : BitVec 5
  d : BitVec 5
  op : BitVec 14
  deriving DecidableEq, Repr

/-- The branch format (R37). -/
structure B where
  imm : BitVec 17
  deriving DecidableEq, Repr

/-- The predicate-logic format (R38). -/
structure PL where
  pa : BitVec 7
  pd : BitVec 7
  deriving DecidableEq, Repr

/-- The predicate-transfer format (R39). -/
structure P3 where
  b : BitVec 3
  a : BitVec 5
  pd : BitVec 7
  deriving DecidableEq, Repr

/-- One constructor for each row of the opcode table: the instructions, each with its operand fields, and the events, whose
operands stand in the state. A row whose whole operand is one of a few codes has one constructor per code (TCKS, FENCE).
An instruction without operand fields of its own is a bare constructor. -/
inductive Instr where
  /-- FQRY (R111) Writes the feature word whose index is in s[A], or 0 for an index of 8 or more. -/
  | fqry (f : RRR)
  /-- BR (R113) Transfers to the block header at a signed 17-bit halfword offset from its own address. -/
  | br (f : B)
  /-- BRI (R114) Transfers to the header at s[A] and writes the link address to s[D] in one event. -/
  | bri (f : RRR)
  /-- CALL (R115) Transfers to the header at a signed 32-bit halfword offset and writes the link address to s31. -/
  | call (f : RX)
  /-- RET (R114) Transfers to the header at s[A] as BRI with D = 0, marked as a return for prediction. -/
  | ret (f : RRR)
  /-- MCALL (R116) Issues the operations of control-store macro slot m in order in the calling stream. -/
  | mcall (f : RI)
  /-- MDEF (R117) Reads and checks a control-store image from G and installs it in one macro slot in one event. -/
  | mdef (f : RX)
  /-- NEST (R118) Loads nest descriptor nI from five scalar registers and an offset. -/
  | nest (f : RX)
  /-- WLIMSET (R119) Sets the stream's wait limit from s[A], clamped to 32 bits, and returns the old limit. -/
  | wlimset (f : RRR)
  /-- MOV16 (R43) Compact copy s[d] <- s[a]. -/
  | mov16 (a d : BitVec 5)
  /-- ADD16 (R43) Compact add s[d] <- s[d] + s[a], wrapping to 64 bits. -/
  | add16 (a d : BitVec 5)
  /-- ADDI16 (R43) Compact add of a signed 6-bit immediate to s[d]. -/
  | addi16 (imm : BitVec 6) (d : BitVec 5)
  /-- BR16 (R43) Compact branch by a signed 11-bit halfword offset to a block header. -/
  | br16 (imm : BitVec 11)
  /-- TOK16_PUSH (R43) Compact form of TOKP on token queue k. -/
  | tok16Push (k : BitVec 3)
  /-- TOK16_WAIT (R43) Compact form of TOKW on token queue k. -/
  | tok16Wait (k : BitVec 3)
  /-- CONT (R85) Enqueues the continuation record at s[A] if its join counter is 0, after performing earlier accesses as a release. -/
  | cont (f : RRR)
  /-- PRIO (R86) Sets the job's base priority, clamped to its dispatch priority, and returns the old value. -/
  | prio (f : RI)
  /-- DOMAIN (R87) Waits for outstanding barrier phases, then sets the job's DMR and resets BIB. -/
  | domain (f : RRR)
  /-- JOINI (R88) Atomically adds a signed value to a record's join counter and enqueues the record when it reaches 0. -/
  | joini (f : RX)
  /-- SELF (R89) Returns the address of the ring slot from which the job was dispatched. -/
  | self (f : RRR)
  /-- TRCREC (R90) Starts or stops dispatch-trace recording on the executing die. -/
  | trcrec (f : RRR)
  /-- TRCRPL (R90) Starts or stops dispatch-trace replay on the executing die. -/
  | trcrpl (f : RRR)
  /-- TRCSTAT (R91) Returns the die's trace mode, FULL, DIV and NEXT. -/
  | trcstat (f : RRR)
  /-- ADD (R120) s[D] <- s[A] + s[B], wrapping to 64 bits. -/
  | add (f : RRR)
  /-- SUB (R120) s[D] <- s[A] - s[B], wrapping to 64 bits. -/
  | sub (f : RRR)
  /-- AND (R120) Bitwise AND of s[A] and s[B]. -/
  | and (f : RRR)
  /-- OR (R120) Bitwise OR of s[A] and s[B]. -/
  | or (f : RRR)
  /-- XOR (R120) Bitwise XOR of s[A] and s[B]. -/
  | xor (f : RRR)
  /-- ANDN (R120) s[A] AND NOT s[B]. -/
  | andn (f : RRR)
  /-- SHL (R120) Shifts s[A] left by s[B]<5:0>. -/
  | shl (f : RRR)
  /-- SHR (R120) Shifts s[A] right logically by s[B]<5:0>. -/
  | shr (f : RRR)
  /-- SRA (R120) Shifts s[A] right arithmetically by s[B]<5:0>. -/
  | sra (f : RRR)
  /-- ROTR (R120) Rotates s[A] right by s[B]<5:0>. -/
  | rotr (f : RRR)
  /-- MIN (R120) Signed minimum of s[A] and s[B]. -/
  | min (f : RRR)
  /-- MAX (R120) Signed maximum of s[A] and s[B]. -/
  | max (f : RRR)
  /-- MINU (R120) Unsigned minimum of s[A] and s[B]. -/
  | minu (f : RRR)
  /-- MAXU (R120) Unsigned maximum of s[A] and s[B]. -/
  | maxu (f : RRR)
  /-- CLZ (R120) Counts the leading zeros of s[A]. -/
  | clz (f : RRR)
  /-- POPC (R120) Counts the one bits of s[A]. -/
  | popc (f : RRR)
  /-- MUL (R120) Low 64 bits of s[A] times s[B]. -/
  | mul (f : RRR)
  /-- MULH (R120) High 64 bits of the signed 128-bit product. -/
  | mulh (f : RRR)
  /-- MULHU (R120) High 64 bits of the unsigned 128-bit product. -/
  | mulhu (f : RRR)
  /-- DIV (R121) Signed division rounding toward zero, with defined results for zero divisors and overflow. -/
  | div (f : RRR)
  /-- DIVU (R121) Unsigned division with all ones for a zero divisor. -/
  | divu (f : RRR)
  /-- REM (R121) Signed remainder with the sign of s[A]. -/
  | rem (f : RRR)
  /-- REMU (R121) Unsigned remainder. -/
  | remu (f : RRR)
  /-- SEL (R122) Selects s[A] or s[B] by the predicate named in the G field. -/
  | sel (f : RRR)
  /-- ADDI (R120) Adds a signed 5-bit immediate to s[A]. -/
  | addi (f : RI)
  /-- ANDI (R120) ANDs s[A] with a sign-extended 5-bit immediate. -/
  | andi (f : RI)
  /-- ORI (R120) ORs s[A] with a sign-extended 5-bit immediate. -/
  | ori (f : RI)
  /-- SHLI (R120) Shifts s[A] left by an unsigned 5-bit immediate. -/
  | shli (f : RI)
  /-- LI (R120) Loads a sign-extended 32-bit immediate. -/
  | li (f : RX)
  /-- LIH (R120) Replaces the high 32 bits of s[D] with an immediate. -/
  | lih (f : RX)
  /-- MOV (R120) Copies s[A] to s[D]. -/
  | mov (f : RRR)
  /-- LEA (R120) Computes a base plus shifted index plus offset address without accessing memory. -/
  | lea (f : RX)
  /-- CMPEQ (R123) Writes p[D] <- s[A] = s[B]. -/
  | cmpeq (f : RRR)
  /-- CMPNE (R123) Writes p[D] <- s[A] != s[B]. -/
  | cmpne (f : RRR)
  /-- CMPLT (R123) Writes p[D] <- signed s[A] < s[B]. -/
  | cmplt (f : RRR)
  /-- CMPLTU (R123) Writes p[D] <- unsigned s[A] < s[B]. -/
  | cmpltu (f : RRR)
  /-- CMPGE (R123) Writes p[D] <- signed s[A] >= s[B]. -/
  | cmpge (f : RRR)
  /-- CMPGEU (R123) Writes p[D] <- unsigned s[A] >= s[B]. -/
  | cmpgeu (f : RRR)
  /-- CMPEQI (R123) Writes p[D] <- s[A] equals a sign-extended 5-bit immediate. -/
  | cmpeqi (f : RI)
  /-- CMPLTI (R123) Writes p[D] <- signed s[A] < a sign-extended 5-bit immediate. -/
  | cmplti (f : RI)
  /-- PLOG_AND (R38) p[Pd] <- p[Pd] AND p[Pa]. -/
  | plogAnd (f : PL)
  /-- PLOG_OR (R38) p[Pd] <- p[Pd] OR p[Pa]. -/
  | plogOr (f : PL)
  /-- PLOG_XOR (R38) p[Pd] <- p[Pd] XOR p[Pa]. -/
  | plogXor (f : PL)
  /-- PLOG_ANDN (R38) p[Pd] <- p[Pd] AND NOT p[Pa]. -/
  | plogAndn (f : PL)
  /-- PLOG_ORN (R38) p[Pd] <- p[Pd] OR NOT p[Pa]. -/
  | plogOrn (f : PL)
  /-- PLOG_NOT (R38) p[Pd] <- NOT p[Pa]. -/
  | plogNot (f : PL)
  /-- PLOG_MOV (R38) p[Pd] <- p[Pa]. -/
  | plogMov (f : PL)
  /-- PLOG_CLR (R38) p[Pd] <- false. -/
  | plogClr (f : PL)
  /-- PGET (R125) Copies the lanes of predicate Pd into the bits of s[A]. -/
  | pget (f : P3)
  /-- PPUT (R125) Sets the lanes of predicate Pd from the bits of s[A]. -/
  | pput (f : P3)
  /-- PCNT (R125) Counts the true lanes of predicate Pd. -/
  | pcnt (f : P3)
  /-- PFIRST (R125) Finds the lowest true lane of Pd at or above s[B]<5:0>, or 64. -/
  | pfirst (f : P3)
  /-- VADD (R165) Element-wise addition under VTYPE. -/
  | vadd (f : RRR)
  /-- VSUB (R165) Element-wise subtraction under VTYPE. -/
  | vsub (f : RRR)
  /-- VMUL (R165) Element-wise multiplication under VTYPE. -/
  | vmul (f : RRR)
  /-- VFMA (R165) Element-wise fused multiply-add into v[D] with one rounding. -/
  | vfma (f : RRR)
  /-- VMIN (R166) Element-wise minimum. -/
  | vmin (f : RRR)
  /-- VMAX (R166) Element-wise maximum. -/
  | vmax (f : RRR)
  /-- VABS (R166) Element-wise absolute value. -/
  | vabs (f : RRR)
  /-- VNEG (R166) Element-wise negation. -/
  | vneg (f : RRR)
  /-- VDIV (R167) Element-wise correctly rounded division. -/
  | vdiv (f : RRR)
  /-- VSQRT (R167) Element-wise correctly rounded square root. -/
  | vsqrt (f : RRR)
  /-- VRSQ (R167) Element-wise correctly rounded reciprocal square root. -/
  | vrsq (f : RRR)
  /-- VREC (R167) Element-wise correctly rounded reciprocal. -/
  | vrec (f : RRR)
  /-- VEXP2 (R167) Element-wise correctly rounded power of two. -/
  | vexp2 (f : RRR)
  /-- VLOG2 (R167) Element-wise correctly rounded base-2 logarithm. -/
  | vlog2 (f : RRR)
  /-- VAND (R168) Element-wise bitwise AND. -/
  | vand (f : RRR)
  /-- VOR (R168) Element-wise bitwise OR. -/
  | vor (f : RRR)
  /-- VXOR (R168) Element-wise bitwise XOR. -/
  | vxor (f : RRR)
  /-- VNOT (R168) Element-wise bitwise NOT. -/
  | vnot (f : RRR)
  /-- VSHL (R168) Element-wise left shift. -/
  | vshl (f : RRR)
  /-- VSHR (R168) Element-wise logical right shift. -/
  | vshr (f : RRR)
  /-- VSRA (R168) Element-wise arithmetic right shift. -/
  | vsra (f : RRR)
  /-- VCLZ (R168) Element-wise count of leading zeros. -/
  | vclz (f : RRR)
  /-- VCMPEQ (R169) Element-wise equality compare into predicate lanes. -/
  | vcmpeq (f : RRR)
  /-- VCMPNE (R169) Element-wise inequality compare into predicate lanes. -/
  | vcmpne (f : RRR)
  /-- VCMPLT (R169) Element-wise less-than compare into predicate lanes. -/
  | vcmplt (f : RRR)
  /-- VCMPLE (R169) Element-wise less-or-equal compare into predicate lanes. -/
  | vcmple (f : RRR)
  /-- VCMPUN (R169) Marks the lanes where either operand is NaN. -/
  | vcmpun (f : RRR)
  /-- VCLASS (R155) Writes a one-hot class code for each element. -/
  | vclass (f : RRR)
  /-- VSEL (R170) Selects each element from v[A] or v[B] by a predicate named in the G field. -/
  | vsel (f : RRR)
  /-- VMOV (R171) Copies the enabled elements of v[A]. -/
  | vmov (f : RRR)
  /-- VBCAST (R171) Broadcasts the low bits of s[A] into every enabled element. -/
  | vbcast (f : RRR)
  /-- VLANE (R171) Writes start + e x step into each enabled element. -/
  | vlane (f : RX)
  /-- VEXT (R172) Extracts one element of v[A] into s[D]. -/
  | vext (f : RX)
  /-- VINS (R172) Inserts s[A] into one element of v[D]. -/
  | vins (f : RX)
  /-- VPERM (R173) Permutes the elements of v[A] by the indices in v[B]. -/
  | vperm (f : RRR)
  /-- VSLIDE (R173) Slides or rotates the elements of v[A] by a signed amount. -/
  | vslide (f : RX)
  /-- VRED (R175) Reduces the elements of v[A] over a fixed pairwise tree. -/
  | vred (f : RX)
  /-- VSCAN (R176) Forms prefix combinations of v[A] over a fixed doubling tree. -/
  | vscan (f : RX)
  /-- VDOT (R177) Accumulates per-lane dot products of narrow elements into 32-bit lanes. -/
  | vdot (f : RRR)
  /-- VSETT (R156) Sets VTYPE and returns the old value. -/
  | vsett (f : RX)
  /-- VGETF (R157) Reads FFLAGS and clears the flags named in s[A]. -/
  | vgetf (f : RRR)
  /-- VSETF (R157) Reads FFLAGS and sets it from s[A]. -/
  | vsetf (f : RRR)
  /-- VSEED (R158) Reads and reseeds the VS stochastic-rounding generator. -/
  | vseed (f : RRR)
  /-- VCVT (R150) Converts one part of the elements of v[A] between formats with saturation. -/
  | vcvt (f : RX)
  /-- VPACK (R152) Packs 64 FP32 lanes into shared-exponent or microscaling blocks. -/
  | vpack (f : RX)
  /-- VUNPK (R153) Unpacks shared-exponent or microscaling blocks into 64 FP32 lanes. -/
  | vunpk (f : RX)
  /-- VSCALE (R154) Scales each element by a power of two taken from v[B]. -/
  | vscale (f : RRR)
  /-- TAWIN (R268) Sets the temporal tick window TWIN and returns the old value. -/
  | tawin (f : RI)
  /-- TAMODE (R269) Sets the column-mode word of one or all planes. -/
  | tamode (f : RX)
  /-- TARST (R270) Returns named planes to Ready, discarding held results. -/
  | tarst (f : RI)
  /-- TADLY (R271) Writes the delays of a four-row group and clears its error mark. -/
  | tadly (f : RX)
  /-- TALNCH (R272) Launches up to four Ready planes with launch vectors from v[A]. -/
  | talnch (f : RX)
  /-- TACAP (R273) Waits for and writes the captured column times and winners of up to four planes. -/
  | tacap (f : RX)
  /-- TASTAT (R274) Returns the plane states and TWIN. -/
  | tastat (f : RRR)
  /-- TLD (R196) Loads 16 operand lines into a tile register from L or C, possibly by multicast. -/
  | tld (f : E)
  /-- TST (R197) Converts and stores the enabled elements of an accumulator to L, C or G. -/
  | tst (f : E)
  /-- TZERO (R198) Zeroes the enabled elements of an accumulator. -/
  | tzero (f : E)
  /-- TMOV (R198) Copies a tile register or an accumulator. -/
  | tmov (f : E)
  /-- TMMA (R199) Adds the masked product of two tiles into an accumulator. -/
  | tmma (f : E)
  /-- TMMAS (R199) Adds the masked product of two tiles, skipping blocks marked zero, into an accumulator. -/
  | tmmas (f : E)
  /-- TTRN (R200) Transposes a tile of 16 x 16 elements. -/
  | ttrn (f : E)
  /-- TCVT (R201) Converts an accumulator into an operand tile. -/
  | tcvt (f : E)
  /-- TFMT (R202) Sets the tile operand formats and rounding mode. -/
  | tfmt (f : E)
  /-- WBANK_SEL (R247) Selects a claimed bank as current bank with a presented handle. -/
  | wbankSel (f : E)
  /-- WBANK_CLAIM (R247) Claims an unclaimed bank for the ASID and handle and selects it. -/
  | wbankClaim (f : E)
  /-- WBANK_REL (R247) Waits for the bank's wavefronts and releases its claim, undefining its regions. -/
  | wbankRel (f : E)
  /-- WREGN_DEF (R248) Defines or redefines a region of the current bank. -/
  | wregnDef (f : E)
  /-- WREGN_REM (R248) Removes a region of the current bank. -/
  | wregnRem (f : E)
  /-- WLDW (R249) Loads a region's resident weights from memory and makes it Loaded. -/
  | wldw (f : E)
  /-- WSTW (R249) Stores a region's weights or gradient accumulators to memory. -/
  | wstw (f : E)
  /-- WADMIT (R250) Checks a wavefront at the head, reads its inputs and places it in an edge queue. -/
  | wadmit (f : E)
  /-- WCOLL (R251) Waits for and collects a delivered wavefront output into L. -/
  | wcoll (f : E)
  /-- WVER (R253) Reads a collected version range or a region's state, optionally clearing NF. -/
  | wver (f : E)
  /-- WOPT (R254) Sets a region's learning rate, gradient scale, rounding mode and strict flag. -/
  | wopt (f : E)
  /-- WCKS (R255) Sets a region's checksum enable. -/
  | wcks (f : E)
  /-- WSAVE (R256) Writes the image of the named banks to G. -/
  | wsave (f : E)
  /-- WREST (R257) Restores an array image from G and resumes its in-flight wavefronts. -/
  | wrest (f : E)
  /-- LDL (R301) Loads from the core's own scratchpad. -/
  | ldl (f : M)
  /-- STL (R301) Stores to the core's own scratchpad. -/
  | stl (f : M)
  /-- LDC (R301) Loads from a scratchpad of the cluster over the cluster network. -/
  | ldc (f : M)
  /-- STC (R301) Stores to a scratchpad of the cluster over the cluster network. -/
  | stc (f : M)
  /-- MSTC (R302) Stores the same bytes to the scratchpads of a set of cluster cores in one event. -/
  | mstc (f : M)
  /-- LDG (R301) Loads from global virtual memory through L1 and L2. -/
  | ldg (f : M)
  /-- STG (R301) Stores to global virtual memory. -/
  | stg (f : M)
  /-- LDGQ (R303) Loads from G into a queue entry, optionally locking the lines. -/
  | ldgq (f : M)
  /-- PFG (R306) Prefetches a line into L1 or L2 without architectural effect. -/
  | pfg (f : M)
  /-- VGATH (R305) Gathers vector elements from G by per-lane indices. -/
  | vgath (f : M)
  /-- VSCAT (R305) Scatters vector elements to G by per-lane indices. -/
  | vscat (f : M)
  /-- GATHQ (R304) Pops an index from a queue and loads through it into another queue. -/
  | gathq (f : M)
  /-- LDK (R301) Loads through the read-only K path. -/
  | ldk (f : M)
  /-- LDKQ (R303) Loads through the K path into a queue entry. -/
  | ldkq (f : M)
  /-- LDH (R301) Loads from host memory. -/
  | ldh (f : M)
  /-- STH (R301) Stores to host memory through the core's host write buffer. -/
  | sth (f : M)
  /-- HFLSH (R307) Sends earlier host stores to the lines and waits for acknowledgement. -/
  | hflsh (f : M)
  /-- HINV (R307) Discards cached host lines in the L1. -/
  | hinv (f : M)
  /-- LDP (R301) Loads from a peer device's memory. -/
  | ldp (f : M)
  /-- STP (R301) Stores to a peer device's memory. -/
  | stp (f : M)
  /-- SPCFG (R308) Changes the core's scratchpad/L1 split after draining accesses to changing granules. -/
  | spcfg (f : M)
  /-- CINV (R307) Writes back dirty lines and evicts unlocked lines of a range from L1 and the K cache. -/
  | cinv (f : M)
  /-- CFLSH (R307) Writes back dirty lines of a range to physical memory. -/
  | cflsh (f : M)
  /-- CLKR (R307) Releases queue locks on the lines of a range. -/
  | clkr (f : M)
  /-- AADD (R321) Atomic integer add returning the old value. -/
  | aadd (sp : BitVec 2) (f : M)
  /-- AFADD (R321) Atomic floating add returning the old value. -/
  | afadd (sp : BitVec 2) (f : M)
  /-- AMIN (R321) Atomic minimum returning the old value. -/
  | amin (sp : BitVec 2) (f : M)
  /-- AMAX (R321) Atomic maximum returning the old value. -/
  | amax (sp : BitVec 2) (f : M)
  /-- AAND (R321) Atomic AND returning the old value. -/
  | aand (sp : BitVec 2) (f : M)
  /-- AOR (R321) Atomic OR returning the old value. -/
  | aor (sp : BitVec 2) (f : M)
  /-- AXOR (R321) Atomic XOR returning the old value. -/
  | axor (sp : BitVec 2) (f : M)
  /-- AXCHG (R321) Atomic exchange returning the old value. -/
  | axchg (sp : BitVec 2) (f : M)
  /-- ACAS (R321) Atomic compare-and-swap returning the old value. -/
  | acas (sp : BitVec 2) (f : M)
  /-- ARED (R322) Atomic add of a scalar or vector source with no returned value. -/
  | ared (sp : BitVec 2) (f : M)
  /-- XSHD_ALLOC (R329) Allocates a publish pair and zeroes its selector word. -/
  | xshdAlloc (f : E)
  /-- XSHD_FREE (R329) Waits for the pair's copies and frees a publish pair. -/
  | xshdFree (f : E)
  /-- XCOPY (R330) Copies bytes into the shadow buffer of a publish pair asynchronously. -/
  | xcopy (f : E)
  /-- XFILL (R330) Fills a range of the shadow buffer with a 64-bit pattern asynchronously. -/
  | xfill (f : E)
  /-- XPUB (R331) Publishes a pair's completed copies and flips its selector in one event. -/
  | xpub (f : E)
  /-- SEMW (R358) Waits on a semaphore and consumes one unit. -/
  | semw (f : RX)
  /-- SEMS (R359) Adds to a semaphore as a release and serves waiters. -/
  | sems (f : RX)
  /-- SEMI (R359) Sets a semaphore's counter as a release and serves waiters. -/
  | semi (f : RX)
  /-- SEMRD (R359) Returns a semaphore's counter. -/
  | semrd (f : RX)
  /-- BAR (R360) Arrives at a barrier slot and waits for its phase to complete. -/
  | bar (f : RRR)
  /-- BARA (R360) Arrives at a barrier slot as a release. -/
  | bara (f : RRR)
  /-- BARW (R360) Waits until the job's pending arrival at a barrier slot has completed. -/
  | barw (f : RRR)
  /-- BIBSET (R361) Advances or sets the barrier base and optionally changes BDEPTH. -/
  | bibset (f : RRR)
  /-- LOCK (R362) Acquires a lock word in G or waits for a grant. -/
  | lock (f : RRR)
  /-- UNLOCK (R363) Releases a lock the stream owns, granting it to the next waiter. -/
  | unlock (f : RRR)
  /-- TRYLK (R362) Acquires a lock word if free, without waiting. -/
  | trylk (f : RRR)
  /-- WREG (R368) Registers a non-blocking wait on an object for detection and inheritance. -/
  | wreg (f : RX)
  /-- WDEREG (R368) Removes the stream's explicit registration. -/
  | wdereg (f : RX)
  /-- WHOLD (R369) Declares or withdraws the stream as a holder of an object. -/
  | whold (f : RX)
  /-- WQRY (R370) Returns wait-for table figures for the job, an object or the table. -/
  | wqry (f : RX)
  /-- QPUSH (R364) Appends a scalar or vector value to a bound queue, waiting for room. -/
  | qpush (f : RX)
  /-- QPOP (R365) Removes the head entry of a bound queue, waiting for one. -/
  | qpop (f : RX)
  /-- QPEEK (R365) Reads the head entry of a bound queue without removing it. -/
  | qpeek (f : RX)
  /-- QSTAT (R366) Returns a queue's binding, occupancy and ended state. -/
  | qstat (f : RX)
  /-- TOKP (R367) Adds a token to a token queue, waiting while it holds 64. -/
  | tokp (f : RI)
  /-- TOKW (R367) Removes a token from a token queue, waiting while it is empty. -/
  | tokw (f : RI)
  /-- XTREE (R388) Checks a tree descriptor and loads a tree slot by handshake with every member. -/
  | xtree (f : E)
  /-- XRED (R389) Contributes a vector to a fixed-order tree reduction, delivering at the root or all members. -/
  | xred (f : E)
  /-- XBCAST (R390) Broadcasts the root's words down the tree to every member. -/
  | xbcast (f : E)
  /-- XRSTAT (R391) Returns a tree slot's status or missing-member bitmap. -/
  | xrstat (f : E)
  /-- LSEND (R409) Sends bytes, or a compressed gradient, as messages to a peer's post. -/
  | lsend (f : E)
  /-- LARM (R409) Arms a send to fire when a link counter reaches a threshold. -/
  | larm (f : E)
  /-- LARM_DIS (R409) Disarms every armed trigger of the ASID on a counter. -/
  | larmDis (f : E)
  /-- LRECV (R410) Opens or closes a receive post with its buffer, chunk size and counter. -/
  | lrecv (f : E)
  /-- LCTR_RD (R411) Reads a link counter. -/
  | lctrRd (f : E)
  /-- LCTR_WAIT (R411) Waits until a link counter reaches a value. -/
  | lctrWait (f : E)
  /-- LCTR_SET (R411) Sets a link counter as a release, firing triggers. -/
  | lctrSet (f : E)
  /-- LCTR_ADD (R411) Adds to a link counter as a release, firing triggers. -/
  | lctrAdd (f : E)
  /-- LSTEP (R412) Waits until the global step counter reaches a value. -/
  | lstep (f : E)
  /-- LSTAT (R413) Returns link, post or trigger-table status. -/
  | lstat (f : E)
  /-- TRAP (R431) Raises TRAPI with a number and a register value, serving as a supervisor call without a handler. -/
  | trap (f : RI)
  /-- SETH (R433) Sets the trapping stream's resume point to a block header. -/
  | seth (f : RRR)
  /-- CSRR (R434) Reads a control and status register. -/
  | csrr (f : RX)
  /-- CSRW (R434) Writes a control and status register without a behaviour of its own. -/
  | csrw (f : RX)
  /-- CSRW_DMR (R87) A write of DMR acts as DOMAIN. -/
  | csrwDmr (f : RX)
  /-- CSRW_BIB (R361) A write of BIB sets it to the value mod BDEPTH without advancing it. -/
  | csrwBib (f : RX)
  /-- CSRW_BDEPTH (R361) A write of BDEPTH checks and waits as BIBSET, then sets the depth and reduces BIB. -/
  | csrwBdepth (f : RX)
  /-- CSRW_BPRIO (R86) A write of BPRIO clamps to the dispatch priority and recomputes EPRIO. -/
  | csrwBprio (f : RX)
  /-- ASET (R435) Writes an ASID directory entry and invalidates that ASID's translations. -/
  | aset (f : RRR)
  /-- TLBI (R435) Invalidates TLB entries package-wide and waits for accesses using them. -/
  | tlbi (f : RRR)
  /-- CTXSV (R436) Saves a supervisor-stopped job to a context image and idles its core. -/
  | ctxsv (f : RRR)
  /-- CTXRS (R436) Restores a context image onto an idle core of the die. -/
  | ctxrs (f : RRR)
  /-- PRQ (R437) Posts pre-emption, resumes, terminates or revokes the lease of a job. -/
  | prq (f : RRR)
  /-- WFTSP (R438) Installs the die's wait-for-table spill area. -/
  | wftsp (f : RRR)
  /-- ERRLOG (R439) Reads a word or the status of the job's or die's error log. -/
  | errlog (f : RRR)
  /-- INJ (R440) Injects a correctable, uncorrectable, checker or vertical-bus fault. -/
  | inj (f : RX)
  /-- MIGR (R441) Moves a 64 KiB page to a new frame with held writes and one switch event. -/
  | migr (f : RRR)
  /-- ARES (R442) Resumes an access stream halted by PAGE. -/
  | ares (f : RRR)
  /-- NOP (R110) Has no effect and issues in one slot followed by its ST idle slots. -/
  | nop
  /-- WAITE (R112) Settles the stream and drains until every engine command it issued has completed with its accesses performed at job scope. -/
  | waite
  /-- NOP16 (R43) Compact no-operation occupying 1 + n slots. -/
  | nop16
  /-- INC (R44) Steps the register fields or offset of the preceding 32-bit instruction on each pass of a repeated block. -/
  | inc
  /-- RDV (R83) Ends the stream after completing its register writes, queue loads and engine drains; the last RDV retires the job. -/
  | rdv
  /-- NODE (R84) Arrives at the stream's next node boundary and waits for every used stream to arrive. -/
  | node
  /-- PLANE_CAPTURE (R261) At ceil((W+8)/4) slots after launch the race result is captured and the plane becomes Held. -/
  | planeCapture
  /-- TSTART (R193) Snapshots tile state and opens a replayable command window. -/
  | tstart
  /-- TCKS (R202) Sets the tile checksum enable. -/
  | tcksOff
  /-- TCKS (R202) Sets the tile checksum enable. -/
  | tcksOn
  /-- WLEASE (R245) Requests the cluster's array lease and waits until granted. -/
  | wlease
  /-- WRLS (R246) Waits until earlier admissions are made and releases the array lease. -/
  | wrls
  /-- WDRAIN (R252) Waits until every earlier WADMIT of the job has completed. -/
  | wdrain
  /-- WDRAIN_DISCARD (R252) Ends every in-flight wavefront of a frozen array with failed status and unfreezes it. -/
  | wdrainDiscard
  /-- WAVEFRONT_ADMISSION (R239) A queued wavefront enters its region in the first slot its fences, phases, not-before value and lease permit. -/
  | wavefrontAdmission
  /-- WAVEFRONT_CELL_ARRIVAL (R214) A wavefront reaching a cell performs its product, stash write or weight update there. -/
  | wavefrontCellArrival
  /-- WAVEFRONT_DELIVERY (R212) At its delivery slot a wavefront's checked outputs enter the admitting core's output buffer. -/
  | wavefrontDelivery
  /-- APPLY_COMMIT (R221) An A wavefront commits after its last cell and advances the bank's optimizer step counter. -/
  | applyCommit
  /-- QUEUE_LOAD_ARRIVAL (R291) The data of a queue-destination load arrives and its reserved entry becomes poppable in issue order. -/
  | queueLoadArrival
  /-- WRITE_TAKES_EFFECT (R95) A pending register write takes effect at issue slot + L_arch or at the arrival of a variable-latency result. -/
  | writeTakesEffect
  /-- FENCE (R324) Waits until the stream's earlier accesses are performed at the named scope. -/
  | fenceStream
  /-- FENCE (R324) Waits until the stream's earlier accesses are performed at the named scope. -/
  | fenceJob
  /-- FENCE (R324) Waits until the stream's earlier accesses are performed at the named scope. -/
  | fenceCluster
  /-- FENCE (R324) Waits until the stream's earlier accesses are performed at the named scope. -/
  | fenceDevice
  /-- FENCE (R324) Waits until the stream's earlier accesses are performed at the named scope. -/
  | fenceSystem
  /-- EFENCE (R325) Acts as a system fence, waits for ECC checks and raises the oldest pending error. -/
  | efence
  /-- KSYNC (R326) Waits for earlier stores and advances the stream's K horizon. -/
  | ksync
  /-- COPY_COMPLETION (R330) A copy engine command finishes its writes and applies its signal. -/
  | copyCompletion
  /-- DEADLOCK_SWEEP (R349) A background sweep begun every 4096 slots finds closed sets and raises DEADLOCK at one member. -/
  | deadlockSweep
  /-- WAIT_LIMIT (R354) A stream's wait counter exceeding WLIM withdraws the wait and raises WAIT_LIMIT. -/
  | waitLimit
  /-- RED_TIMEOUT (R380) A member's collective timer passing XTLIM fails the epoch for the whole tree. -/
  | redTimeout
  /-- LINK_MESSAGE_ARRIVAL (R399) An arriving message is checked and writes its bytes into a posted buffer in one event. -/
  | linkMessageArrival
  /-- PEER_ACCESS_ARRIVAL (R393) A peer's space-P access arrives, is checked against the peer table and is performed. -/
  | peerAccessArrival
  /-- SEND_ACKNOWLEDGED (R399) All messages of a send are performed and the send completes with its signal. -/
  | sendAcknowledged
  /-- GO_BACK_REPLAY (R397) A flit group with a CRC error or out of sequence is discarded and resent from the retransmit buffer. -/
  | goBackReplay
  /-- LINK_DOWN (R398) A link without acknowledgement for 1,048,576 slots goes down and fails its sends and accesses. -/
  | linkDown
  /-- POST_WAIT_TIMEOUT (R399) A message waiting 1,048,576 slots for a closed post has its send refused. -/
  | postWaitTimeout
  /-- LINK_TRAINING (R392) A link trains and learns the CHIP identity of the module at its other end. -/
  | linkTraining
  /-- GSC_STEP (R405) Every STEPLEN slots the global step counter adds 1 and releases step waits. -/
  | gscStep
  /-- GSC_JOIN (R405) Joining domains take the largest GSC value among them, jumping lower counts forward. -/
  | gscJoin
  /-- TRET (R418) Ends handler mode and resumes the trapping stream at its resume point. -/
  | tret
  /-- UDECL (R432) Escalates the handled trap to the supervisor. -/
  | udecl
  /-- CHECKER_COMPARE (R425) The checker's re-executed command is compared with the control core's, a mismatch raising CHECKER. -/
  | checkerCompare
  /-- VBUS_LANE_FAULT (R428) A vertical-bus lane fault is repaired under a freeze of at most 512 slots. -/
  | vbusLaneFault
  /-- PREEMPT (R423) The PLIM count reaching PLIM before a node boundary raises PREEMPT to the supervisor. -/
  | preempt
  /-- DISTRIBUTOR_SELECTION (R77) Once per slot the distributor selects the candidate queue of highest effective level and a core. -/
  | distributorSelection
  /-- REPLAY_DIVERGE (R82) No matching record within RLIM slots of a decision point ends the replay. -/
  | replayDiverge
  /-- DISPATCH (R62) Fetches the record, header and frame, configures the core and starts the job's streams. -/
  | dispatch
  /-- JOB_RETIREMENT (R66) After every stream ends and its work completes, the job releases resources, decrements its parent and writes status. -/
  | jobRetirement
  /-- HOST_TAIL_WRITE (R446) The host writes a host-fed queue's TAIL, adding records to the ring or being ignored and logged. -/
  | hostTailWrite
  /-- QUEUE_DESCRIPTOR_WRITE (R75) A write to a continuation queue descriptor field, accepted only while disabled and valid. -/
  | queueDescriptorWrite
  /-- QUEUE_DISABLE_WRITE (R75) A write of the EN word that clears EN while enabled disables the queue. -/
  | queueDisableWrite
  /-- HOSTIRQ_CLEAR (R447) Writing 1 to a HOSTIRQ bit clears it. -/
  | hostirqClear
  /-- LAYERPWR_WRITE (R462) A write of LAYERPWR bit 0 requests DRAM layer 1 on or off. -/
  | layerpwrWrite
  /-- PEERDATA_WRITE (R445) Writes a peer table entry of the selected ASID, or is ignored and logged. -/
  | peerdataWrite
  /-- NCTR_WRITE (R445) Sets an ASID's link counter window and trigger quota, disarming triggers when lowered. -/
  | nctrWrite
  /-- WINDOW_WRITE (R445) A write to a register-window register that has no row of its own. -/
  | windowWrite
  /-- HOST_COHERENT_ACCESS (R443) The host die reads or writes device memory through the coherent path. -/
  | hostCoherentAccess
  /-- LAYER1_POWER_OFF (R462) Firmware compacts layer 1 into layer 0 by migration and removes its power. -/
  | layer1PowerOff
  /-- LAYER1_POWER_ON (R462) Firmware powers and zeroes layer 1, then makes its range memory again. -/
  | layer1PowerOn
  /-- POWER_ON (R458) The host die applies power and releases reset, and the boot ROM runs. -/
  | powerOn
  /-- FIRMWARE_IMAGE_DELIVERY (R457) The delivered firmware image's two signatures are checked. -/
  | firmwareImageDelivery
  /-- CONFIGURATION_IMAGE_DELIVERY (R458) The configuration image is checked, repair maps applied, keys derived and the die enters Spring. -/
  | configurationImageDelivery
  /-- SUMMER_TRANSITION (R459) After calibration the clocks move to 940 MHz and all clusters and memory come into service. -/
  | summerTransition
  /-- POWER_REMOVAL (R461) The host die removes power and all device state is lost. -/
  | powerRemoval
  /-- DIE_RESET (R448) On reset every taken but unfinished record gets status 0x09. -/
  | dieReset
  /-- ATTESTATION_REQUEST (R460) The host die requests a doubly signed attestation report with a nonce. -/
  | attestationRequest
  /-- HAZEL_TRANSLATION (R453) Hazel translates a portable section into a generation-4 native section, using its tenant cache. -/
  | hazelTranslation
  /-- UNCORRECTABLE_ERROR (R427) A natural upset leaves a word of scratchpad, cache, DRAM, array cell or delay SRAM uncorrectable, poisoning the line, marking the temporal row group or freezing the wavefront array. -/
  | uncorrectableError
  /-- HOST_ERROR_ON_STORE (R297) The host returns an error for a buffered host store, dropping that store's line and leaving HOST_ERR pending for the stream. -/
  | hostErrorOnStore
  /-- SUPERVISOR_DEBUG_STOP (R229) A supervisor debug stop freezes the wavefront array like an array-raised trap. -/
  | supervisorDebugStop
  /-- RETURN_TO_WINTER_THROUGH_FAULT (R448) A die returns to Winter through a fault, and every taken but unfinished record receives status 0x09. -/
  | returnToWinterThroughFault
  deriving DecidableEq, Repr

end Sys2Proof
end

