-- ==== Sys2Proof/WellFormed.lean ====
section
/-! DEFINITION. Well-formedness of instructions: the decode checks that need only the instruction's own bits
(R36, R40 to R42, R49 and the refusals of each entry), and the ranges of the units an event may name. -/
namespace Sys2Proof

/-! The accessors of a field: register fields that must be zero, and bits of an extension word. -/
def RRR.b0 (f : RRR) : Bool := f.b == 0
def RRR.a0 (f : RRR) : Bool := f.a == 0
def RRR.d0 (f : RRR) : Bool := f.d == 0
def RI.a0 (f : RI) : Bool := f.a == 0
def RI.d0 (f : RI) : Bool := f.d == 0
def RX.b0 (f : RX) : Bool := f.b == 0
def RX.a0 (f : RX) : Bool := f.a == 0
def RX.d0 (f : RX) : Bool := f.d == 0
def M.b0 (f : M) : Bool := f.b == 0
def E.b0 (f : E) : Bool := f.b == 0
def E.a0 (f : E) : Bool := f.a == 0
def E.d0 (f : E) : Bool := f.d == 0

/-- Bits [lo + w - 1 : lo] of the X word. -/
def RX.xf (f : RX) (lo w : Nat) : Nat := (f.x.extractLsb' lo w).toNat
/-- Bits [31 : n] of the X word are zero. -/
def RX.xz (f : RX) (n : Nat) : Bool := f.x.toNat < 2 ^ n
/-- Bits of the operation field X[31:18], counted from bit 18. -/
def E.of (f : E) (lo w : Nat) : Nat := (f.op.extractLsb' lo w).toNat
/-- R36: t0 to t15 use the low four bits, a0 to a7 the low three. -/
def E.dTile (f : E) : Bool := f.d.toNat < 16
def E.aTile (f : E) : Bool := f.a.toNat < 16
def E.bTile (f : E) : Bool := f.b.toNat < 16
def E.dAcc (f : E) : Bool := f.d.toNat < 8
def E.aAcc (f : E) : Bool := f.a.toNat < 8

/-- Bytes of an element of a type code of R41 (codes 13 to 15 are no elements and give 0). -/
def elemBytes : Nat → Nat
  | 0 | 1 | 11 | 12 => 1
  | 2 | 3 | 7 | 8 => 2
  | 4 | 5 | 9 => 4
  | 6 | 10 => 8
  | _ => 0

/-- Element width in bits of a conversion type code of R150. -/
def cvtBits : Nat → Nat
  | 0 | 1 | 11 | 12 | 14 | 15 => 8
  | 2 | 3 | 7 | 8 => 16
  | 4 | 5 | 9 => 32
  | 6 | 10 => 64
  | _ => 4

/-- VCVT's checks (R150): bits above 14 zero, no rounding code 5 or 6, and the part number below the width ratio. -/
def RX.vcvtOk (f : RX) : Bool :=
  let wf := cvtBits (f.xf 0 4)
  let wt := cvtBits (f.xf 4 4)
  f.xz 15 && f.xf 8 3 != 5 && f.xf 8 3 != 6 && f.xf 11 4 < max wf wt / min wf wt

/-- Bytes of an image of "Packed formats" (R151). -/
def packSize : Nat → Nat
  | 0 | 5 => 32
  | 1 => 48
  | 2 => 72
  | _ => 64

/-- VPACK's and VUNPK's checks (R151). -/
def RX.packOk (f : RX) : Bool :=
  f.xz 16 && f.xf 7 1 == 0 && f.xf 0 4 <= 6 && f.xf 4 3 != 5 && f.xf 4 3 != 6 &&
  f.xf 8 8 + packSize (f.xf 0 4) <= 256 && (f.xf 0 4 > 2 || f.b0)

/-- TLD's checks (R196). -/
def E.tldOk (f : E) : Bool :=
  f.dTile && f.of 0 5 <= 16 && (f.of 0 5 != 0 || f.d.toNat % 2 == 0) &&
  (f.of 5 1 == 1 || (f.of 6 3 == 0 && f.of 9 1 == 0 && f.of 10 4 == 0)) &&
  (f.of 9 1 == 1 || f.of 10 4 == 0) && (f.of 0 5 < 10 || f.of 0 5 > 13 || f.a != 31)

/-- TST's checks (R187, R197). -/
def E.tstOk (f : E) : Bool :=
  f.dAcc && f.of 0 4 <= 12 && f.of 4 2 != 3 && (f.of 6 3 == 0 || f.of 4 2 == 1) && f.of 9 5 != 31

/-- The memory types a wavefront weight transfer accepts (R243): FP16, BF16, FP32, E4, E5, HS4. -/
def E.wtypeOk (f : E) : Bool :=
  let t := f.of 7 4
  t == 7 || t == 8 || t == 9 || t == 11 || t == 12 || t == 13

/-- A vector count: cnt 1 to 9 with at most 256 bytes (R276). -/
def M.vecCnt (f : M) : Bool :=
  1 <= f.cnt.toNat && f.cnt.toNat <= 9 && 2 ^ (f.cnt.toNat - 1) * elemBytes f.ty.toNat <= 256
/-- The transfer shapes of loads and stores that some stream accepts (R276); the stream's own are checked at issue. -/
def M.shape (f : M) : Bool :=
  (f.ty.toNat <= 10 && (f.cnt == 0 || f.vecCnt)) || (f.ty == 14 && f.cnt == 0)
/-- A shift needs an index register (R40). -/
def M.idx (f : M) : Bool := f.b != 0 || f.sc == 0
/-- mod has only the given bits. -/
def M.modIn (f : M) (bits : Nat) : Bool := f.mod &&& ~~~(BitVec.ofNat 4 bits) == 0
/-- Space C: with .p the core bits are zero (R281). -/
def M.modC (f : M) : Bool := f.mod.toNat <= 8
/-- A queue destination (R40, R303): D = 0, cnt names q0 to q15, scalar types for q0 to q7 and .vr for q8 to q15. -/
def M.qdest (f : M) : Bool :=
  f.d == 0 && f.cnt.toNat < 16 && (if f.cnt.toNat < 8 then f.ty.toNat <= 10 else f.ty == 14)
/-- PFG: a line, no destination (R276). -/
def M.lnShape (f : M) : Bool := f.d == 0 && f.ty == 13 && f.cnt == 0
/-- Maintenance (R307): type .ln, and with .all no operands. -/
def M.maint (f : M) : Bool :=
  f.lnShape && f.sc == 0 && f.modIn 1 && (f.mod == 0 || (f.a == 0 && f.b == 0 && f.off == 0))
def M.xzero (f : M) : Bool := f.sc == 0 && f.cnt == 0 && f.mod == 0 && f.ty == 0 && f.off == 0
/-- The mod bits of an atomic by space (R320). -/
def M.modA (f : M) (sp : BitVec 2) : Bool :=
  match sp.toNat with
  | 1 => f.mod.toNat <= 8
  | 3 => true
  | _ => f.mod == 0
/-- ARED's count: scalar or a vector count (R322). -/
def M.cntOk (f : M) : Bool := f.cnt == 0 || f.vecCnt

/-- The CSR numbers of R429. -/
def csrKnown (n : Nat) : Bool := n <= 0x14 || (0x100 <= n && n <= 0x109)
/-- The CSRs that CSRW may name (R429): all but the read-only ones. -/
def csrWritable (n : Nat) : Bool :=
  csrKnown n && !(n <= 3 || n == 8 || n == 0x102 || n == 0x109)
/-- The CSRs whose write has a row of its own in the opcode table: DMR, BIB, BDEPTH, BPRIO. -/
def csrwHasRow (n : Nat) : Bool := 4 <= n && n <= 7


/-- The decode checks on an instruction's own fields (R49, and each entry's refusals): what fails here raises ILL_FIELD.
Checks that need the stream, the mode or the block are made at issue. -/
def Instr.wf : Instr → Bool
  | .fqry f => f.b0
  | .br _ => true
  | .bri f => f.b0
  | .call f => f.b0 && f.a0 && f.d0
  | .ret f => f.b0 && f.d0
  | .mcall f => f.a0 && f.imm.extractLsb' 1 4 == 0
  | .mdef f => f.b0 && f.d0 && f.xz 6
  | .nest f => f.b0 && f.d.extractLsb' 3 2 == 0 && f.a.toNat <= 27
  | .wlimset f => f.b0
  | .mov16 _ _ => true
  | .add16 _ _ => true
  | .addi16 _ _ => true
  | .br16 _ => true
  | .tok16Push _ => true
  | .tok16Wait _ => true
  | .cont f => f.b0
  | .prio f => f.a0 && f.imm.toNat < 8
  | .domain f => f.b0
  | .joini f => f.b0
  | .self f => f.b0 && f.a0
  | .trcrec f => f.b0 && f.d0
  | .trcrpl f => f.b0 && f.d0
  | .trcstat f => f.b0 && f.a0
  | .add _ => true
  | .sub _ => true
  | .and _ => true
  | .or _ => true
  | .xor _ => true
  | .andn _ => true
  | .shl _ => true
  | .shr _ => true
  | .sra _ => true
  | .rotr _ => true
  | .min _ => true
  | .max _ => true
  | .minu _ => true
  | .maxu _ => true
  | .clz f => f.b0
  | .popc f => f.b0
  | .mul _ => true
  | .mulh _ => true
  | .mulhu _ => true
  | .div _ => true
  | .divu _ => true
  | .rem _ => true
  | .remu _ => true
  | .sel _ => true
  | .addi _ => true
  | .andi _ => true
  | .ori _ => true
  | .shli _ => true
  | .li f => f.b0 && f.a0
  | .lih f => f.b0 && f.a0
  | .mov f => f.b0
  | .lea _ => true
  | .cmpeq _ => true
  | .cmpne _ => true
  | .cmplt _ => true
  | .cmpltu _ => true
  | .cmpge _ => true
  | .cmpgeu _ => true
  | .cmpeqi _ => true
  | .cmplti _ => true
  | .plogAnd _ => true
  | .plogOr _ => true
  | .plogXor _ => true
  | .plogAndn _ => true
  | .plogOrn _ => true
  | .plogNot _ => true
  | .plogMov _ => true
  | .plogClr f => f.pa == 0
  | .pget f => f.b == 0
  | .pput f => f.b == 0
  | .pcnt f => f.b == 0
  | .pfirst _ => true
  | .vadd _ => true
  | .vsub _ => true
  | .vmul _ => true
  | .vfma _ => true
  | .vmin _ => true
  | .vmax _ => true
  | .vabs f => f.b0
  | .vneg f => f.b0
  | .vdiv _ => true
  | .vsqrt f => f.b0
  | .vrsq f => f.b0
  | .vrec f => f.b0
  | .vexp2 f => f.b0
  | .vlog2 f => f.b0
  | .vand _ => true
  | .vor _ => true
  | .vxor _ => true
  | .vnot f => f.b0
  | .vshl _ => true
  | .vshr _ => true
  | .vsra _ => true
  | .vclz f => f.b0
  | .vcmpeq _ => true
  | .vcmpne _ => true
  | .vcmplt _ => true
  | .vcmple _ => true
  | .vcmpun _ => true
  | .vclass f => f.b0
  | .vsel _ => true
  | .vmov f => f.b0
  | .vbcast f => f.b0
  | .vlane f => f.b0 && f.a0
  | .vext f => f.xz 16
  | .vins f => f.xz 16
  | .vperm _ => true
  | .vslide f => f.xz 17
  | .vred f => f.b0 && f.xz 5 && f.xf 0 4 <= 5
  | .vscan f => f.b0 && f.xz 5 && f.xf 0 4 <= 5
  | .vdot _ => true
  | .vsett f => f.b0 && f.a0 && f.xz 7 && f.xf 0 4 <= 10 && f.xf 4 3 <= 4
  | .vgetf f => f.b0
  | .vsetf f => f.b0
  | .vseed f => f.b0
  | .vcvt f => f.b0 && f.vcvtOk
  | .vpack f => f.packOk
  | .vunpk f => f.packOk && f.xf 4 3 == 0
  | .vscale _ => true
  | .tawin _ => true
  | .tamode f => f.b0 && f.d0 && f.xz 5 && (f.xf 4 1 == 0 || f.xf 0 4 == 0)
  | .tarst f => f.d0 && f.imm.toNat < 16 && (f.a0 || f.imm == 0)
  | .tadly f => f.b0 && f.d0 && f.xz 9 && (f.xf 8 1 == 0 || f.xf 0 4 == 0)
  | .talnch f => f.b0 && f.d0 && f.xz 6 && f.xf 0 4 != 0
  | .tacap f => f.a0 && f.xz 7 && f.xf 0 4 != 0 && (if f.xf 6 1 == 0 then f.b0 else f.b != f.d)
  | .tastat f => f.b0 && f.a0
  | .tld f => f.tldOk
  | .tst f => f.tstOk
  | .tzero f => f.b0 && f.a0 && f.dAcc && f.of 5 9 == 0 && f.of 0 5 != 31
  | .tmov f => f.b0 && f.of 1 13 == 0 && (if f.of 0 1 == 0 then f.dTile && f.aTile else f.dAcc && f.aAcc)
  | .tmma f => f.dAcc && f.aTile && f.bTile && f.of 5 9 == 0 && f.of 0 5 != 31
  | .tmmas f => f.dAcc && f.aTile && f.bTile && f.of 10 4 == 0 && f.of 0 5 != 31
  | .ttrn f => f.b0 && f.dTile && f.aTile && f.of 2 12 == 0 && f.of 0 2 != 3 && (f.of 0 2 != 2 || (f.d.toNat % 2 == 0 && f.a.toNat % 2 == 0))
  | .tcvt f => f.b0 && f.dTile && f.aAcc && f.of 8 6 == 0 && f.of 0 5 <= 9 && f.of 5 3 != 5 && f.of 5 3 != 6 && (f.of 0 5 != 0 || f.d.toNat % 2 == 0)
  | .tfmt f => f.b0 && f.d0 && f.op == 0
  | .wbankSel f => f.b0 && f.d0 && f.of 2 12 == 0 && f.of 0 2 == 0
  | .wbankClaim f => f.b0 && f.d0 && f.of 2 12 == 0 && f.of 0 2 == 1
  | .wbankRel f => f.b0 && f.d0 && f.of 2 12 == 0 && f.of 0 2 == 2
  | .wregnDef f => f.b0 && f.d0 && f.of 5 9 == 0 && f.of 4 1 == 0
  | .wregnRem f => f.b0 && f.a0 && f.d0 && f.of 5 9 == 0 && f.of 4 1 == 1
  | .wldw f => f.d0 && f.of 12 2 < 2 && f.wtypeOk && f.of 4 3 <= 4
  | .wstw f => f.d0 && f.of 12 2 < 2 && f.wtypeOk && f.of 5 2 == 0 && (f.of 4 1 == 0 || (f.of 7 4 != 11 && f.of 7 4 != 12 && f.of 7 4 != 13))
  | .wadmit f => f.d0 && f.of 11 3 <= 4 && f.of 8 3 <= 4 && (f.of 8 3 != 4 || (f.of 11 3 == 0 && f.of 4 4 == 0 && f.a0))
  | .wcoll f => f.b0 && f.of 9 5 == 0 && (f.of 5 4 == 7 || f.of 5 4 == 8 || f.of 5 4 == 9)
  | .wver f => f.b0 && f.a0 && f.of 7 7 == 0 && f.of 5 2 != 3 && (f.of 5 2 == 0 || f.of 4 1 == 0)
  | .wopt f => f.b0 && f.d0 && f.of 8 6 == 0 && (f.of 4 3 == 0 || f.of 4 3 == 4)
  | .wcks f => f.b0 && f.a0 && f.d0 && f.of 5 9 == 0
  | .wsave f => f.b0 && f.d0 && f.of 4 10 == 0 && f.of 0 4 != 0
  | .wrest f => f.b0 && f.d0 && f.op == 0
  | .ldl f => f.shape && f.idx && f.mod == 0
  | .stl f => f.shape && f.idx && f.mod == 0
  | .ldc f => f.shape && f.idx && f.modC
  | .stc f => f.shape && f.idx && f.modC
  | .mstc f => f.shape && f.sc == 0 && f.mod == 0
  | .ldg f => f.shape && f.idx && f.modIn 5
  | .stg f => f.shape && f.idx && f.modIn 4
  | .ldgq f => f.qdest && f.idx && f.modIn 7
  | .pfg f => f.lnShape && f.idx && f.modIn 4
  | .vgath f => f.ty.toNat <= 10 && f.cnt == 0 && f.modIn 5
  | .vscat f => f.ty.toNat <= 10 && f.cnt == 0 && f.modIn 4
  | .gathq f => f.qdest && f.b.toNat < 8 && f.modIn 5
  | .ldk f => f.shape && f.idx && f.modIn 1
  | .ldkq f => f.qdest && f.idx && f.modIn 1
  | .ldh f => f.shape && f.idx && f.modIn 4
  | .sth f => f.shape && f.idx && f.mod == 0
  | .hflsh f => f.maint
  | .hinv f => f.maint
  | .ldp f => f.shape && f.idx
  | .stp f => f.shape && f.idx
  | .spcfg f => f.b0 && f.xzero
  | .cinv f => f.maint
  | .cflsh f => f.maint
  | .clkr f => f.maint
  | .aadd sp f => f.sc == 0 && f.cnt == 0 && f.modA sp && (f.ty == 4 || f.ty == 5 || f.ty == 6)
  | .afadd sp f => sp != 2 && f.sc == 0 && f.cnt == 0 && f.modA sp && (f.ty == 9 || f.ty == 10)
  | .amin sp f => f.sc == 0 && f.cnt == 0 && f.modA sp && (f.ty == 4 || f.ty == 5 || f.ty == 6)
  | .amax sp f => f.sc == 0 && f.cnt == 0 && f.modA sp && (f.ty == 4 || f.ty == 5 || f.ty == 6)
  | .aand sp f => f.sc == 0 && f.cnt == 0 && f.modA sp && (f.ty == 4 || f.ty == 5 || f.ty == 6)
  | .aor sp f => f.sc == 0 && f.cnt == 0 && f.modA sp && (f.ty == 4 || f.ty == 5 || f.ty == 6)
  | .axor sp f => f.sc == 0 && f.cnt == 0 && f.modA sp && (f.ty == 4 || f.ty == 5 || f.ty == 6)
  | .axchg sp f => f.sc == 0 && f.cnt == 0 && f.modA sp && (f.ty == 4 || f.ty == 5 || f.ty == 6 || f.ty == 9 || f.ty == 10)
  | .acas sp f => f.sc == 0 && f.cnt == 0 && f.modA sp && (f.ty == 4 || f.ty == 5 || f.ty == 6)
  | .ared sp f => sp != 2 && f.sc == 0 && f.b0 && f.modA sp && f.cntOk && (f.ty == 4 || f.ty == 5 || f.ty == 6 || f.ty == 9 || f.ty == 10)
  | .xshdAlloc f => f.b0 && f.of 1 13 == 0 && f.a.toNat <= 28 && f.of 0 1 == 0
  | .xshdFree f => f.b0 && f.d0 && f.of 1 13 == 0 && f.of 0 1 == 1
  | .xcopy f => f.of 11 3 == 0
  | .xfill f => f.of 10 4 == 0
  | .xpub f => f.b0 && f.a0 && f.d0 && f.of 10 4 == 0
  | .semw f => f.b0 && f.a0 && f.xz 8
  | .sems f => f.a0 && f.xz 8
  | .semi f => f.a0 && f.xz 8
  | .semrd f => f.b0 && f.a0 && f.xz 8
  | .bar f => f.b0
  | .bara f => f.b0
  | .barw f => f.b0
  | .bibset _ => true
  | .lock f => f.b0
  | .unlock f => f.b0
  | .trylk f => f.b0
  | .wreg f => f.b0 && f.xz 4 && (f.xf 0 4 == 0 || f.xf 0 4 == 8 || f.xf 0 4 == 10)
  | .wdereg f => f.b0 && f.a0 && f.xz 0
  | .whold f => f.b0 && f.xz 5 && (f.xf 0 4 == 0 || f.xf 0 4 == 8 || f.xf 0 4 == 10)
  | .wqry f => f.b0 && f.xz 8 && f.xf 2 2 == 0 && f.xf 0 2 != 3 && f.xf 4 4 <= 12 && (f.xf 0 2 == 1 || (f.xf 4 4 == 0 && f.a0))
  | .qpush f => f.b0 && f.d0 && f.xz 4
  | .qpop f => f.b0 && f.a0 && f.xz 4
  | .qpeek f => f.b0 && f.a0 && f.xz 4
  | .qstat f => f.b0 && f.a0 && f.xz 4
  | .tokp f => f.a0 && f.d0 && f.imm.toNat < 8
  | .tokw f => f.a0 && f.d0 && f.imm.toNat < 8
  | .xtree f => f.b0 && f.d0 && f.of 0 12 == 0
  | .xred f => f.d0 && f.of 9 3 <= 5 && f.of 7 2 != 3 && (f.of 9 3 < 3 || f.of 7 2 != 0)
  | .xbcast f => f.d0 && f.of 6 6 == 0
  | .xrstat f => f.b0 && f.a0 && f.of 1 11 == 0
  | .lsend f => f.of 8 6 == 0 && (f.of 6 1 == 0 || f.d != 31)
  | .larm f => f.of 7 7 == 0 && f.of 6 1 == 0
  | .larmDis f => f.b0 && f.a0 && f.of 7 7 == 0 && f.of 0 6 == 0 && f.of 6 1 == 1
  | .lrecv f => f.d0 && f.of 6 8 == 0
  | .lctrRd f => f.of 2 12 == 0 && f.of 0 2 == 0
  | .lctrWait f => f.of 2 12 == 0 && f.of 0 2 == 1
  | .lctrSet f => f.of 2 12 == 0 && f.of 0 2 == 2
  | .lctrAdd f => f.of 2 12 == 0 && f.of 0 2 == 3
  | .lstep f => f.b0 && f.op == 0
  | .lstat f => f.b0 && f.of 2 12 == 0 && f.of 0 2 != 3 && (f.of 0 2 != 2 || f.a0)
  | .trap f => f.d0 && f.imm.toNat < 16
  | .seth f => f.b0
  | .csrr f => f.b0 && f.a0 && f.xz 12 && csrKnown (f.xf 0 12)
  | .csrw f => f.b0 && f.d0 && f.xz 12 && csrWritable (f.xf 0 12) && !csrwHasRow (f.xf 0 12)
  | .csrwDmr f => f.b0 && f.d0 && f.xz 12 && f.xf 0 12 == 4
  | .csrwBib f => f.b0 && f.d0 && f.xz 12 && f.xf 0 12 == 5
  | .csrwBdepth f => f.b0 && f.d0 && f.xz 12 && f.xf 0 12 == 6
  | .csrwBprio f => f.b0 && f.d0 && f.xz 12 && f.xf 0 12 == 7
  | .aset _ => true
  | .tlbi f => f.d0
  | .ctxsv _ => true
  | .ctxrs _ => true
  | .prq _ => true
  | .wftsp _ => true
  | .errlog f => f.b0
  | .inj f => f.b0 && f.d0 && f.xz 4 && f.xf 0 4 <= 3
  | .migr _ => true
  | .ares f => f.b0
  | .nop => true
  | .waite => true
  | .nop16 => true
  | .inc => true
  | .rdv => true
  | .node => true
  | .planeCapture => true
  | .tstart => true
  | .tcksOff => true
  | .tcksOn => true
  | .wlease => true
  | .wrls => true
  | .wdrain => true
  | .wdrainDiscard => true
  | .wavefrontAdmission => true
  | .wavefrontCellArrival => true
  | .wavefrontDelivery => true
  | .applyCommit => true
  | .queueLoadArrival => true
  | .writeTakesEffect => true
  | .fenceStream => true
  | .fenceJob => true
  | .fenceCluster => true
  | .fenceDevice => true
  | .fenceSystem => true
  | .efence => true
  | .ksync => true
  | .copyCompletion => true
  | .deadlockSweep => true
  | .waitLimit => true
  | .redTimeout => true
  | .linkMessageArrival => true
  | .peerAccessArrival => true
  | .sendAcknowledged => true
  | .goBackReplay => true
  | .linkDown => true
  | .postWaitTimeout => true
  | .linkTraining => true
  | .gscStep => true
  | .gscJoin => true
  | .tret => true
  | .udecl => true
  | .checkerCompare => true
  | .vbusLaneFault => true
  | .preempt => true
  | .distributorSelection => true
  | .replayDiverge => true
  | .dispatch => true
  | .jobRetirement => true
  | .hostTailWrite => true
  | .queueDescriptorWrite => true
  | .queueDisableWrite => true
  | .hostirqClear => true
  | .layerpwrWrite => true
  | .peerdataWrite => true
  | .nctrWrite => true
  | .windowWrite => true
  | .hostCoherentAccess => true
  | .layer1PowerOff => true
  | .layer1PowerOn => true
  | .powerOn => true
  | .firmwareImageDelivery => true
  | .configurationImageDelivery => true
  | .summerTransition => true
  | .powerRemoval => true
  | .dieReset => true
  | .attestationRequest => true
  | .hazelTranslation => true
  | .uncorrectableError => true
  | .hostErrorOnStore => true
  | .supervisorDebugStop => true
  | .returnToWinterThroughFault => true

/-- The kinds of head (R34, R42, R43). -/
inductive HeadKind where
  /-- A 32-bit word: guard and stall count. -/
  | plain
  /-- An engine command: guard, stall count and the semaphore halves. -/
  | sem
  /-- A NOP16: its count alone. -/
  | count
  /-- An INC: its steps alone. -/
  | inc
  /-- The other 16-bit words and the events. -/
  | bare
  deriving DecidableEq, Repr

/-- The kind of head each instruction carries. -/
def Instr.headKind : Instr → HeadKind
  | .tld _ | .tst _ | .tzero _ | .tmov _ | .tmma _ | .tmmas _ | .ttrn _ | .tcvt _ | .tfmt _ | .wbankSel _
  | .wbankClaim _ | .wbankRel _ | .wregnDef _ | .wregnRem _ | .wldw _ | .wstw _ | .wadmit _ | .wcoll _
  | .wopt _ | .wcks _ | .wsave _ | .wrest _ | .xcopy _ | .xfill _ | .xpub _ | .xtree _ | .xred _ | .xbcast _
  | .lsend _ | .larm _ | .larmDis _ | .lrecv _ | .tstart | .tcksOff | .tcksOn | .wlease | .wrls | .wdrain
  | .wdrainDiscard => .sem
  | .nop16 => .count
  | .inc => .inc
  | .mov16 _ _ | .add16 _ _ | .addi16 _ _ | .br16 _ | .tok16Push _ | .tok16Wait _ | .planeCapture
  | .wavefrontAdmission | .wavefrontCellArrival | .wavefrontDelivery | .applyCommit | .queueLoadArrival
  | .writeTakesEffect | .copyCompletion | .deadlockSweep | .waitLimit | .redTimeout | .linkMessageArrival
  | .peerAccessArrival | .sendAcknowledged | .goBackReplay | .linkDown | .postWaitTimeout | .linkTraining
  | .gscStep | .gscJoin | .checkerCompare | .vbusLaneFault | .preempt | .distributorSelection | .replayDiverge
  | .dispatch | .jobRetirement | .hostTailWrite | .queueDescriptorWrite | .queueDisableWrite | .hostirqClear
  | .layerpwrWrite | .peerdataWrite | .nctrWrite | .windowWrite | .hostCoherentAccess | .layer1PowerOff
  | .layer1PowerOn | .powerOn | .firmwareImageDelivery | .configurationImageDelivery | .summerTransition
  | .powerRemoval | .dieReset | .attestationRequest | .hazelTranslation | .uncorrectableError
  | .hostErrorOnStore | .supervisorDebugStop | .returnToWinterThroughFault => .bare
  | .fqry _ | .br _ | .bri _ | .call _ | .ret _ | .mcall _ | .mdef _ | .nest _ | .wlimset _ | .cont _ | .prio _
  | .domain _ | .joini _ | .self _ | .trcrec _ | .trcrpl _ | .trcstat _ | .add _ | .sub _ | .and _ | .or _
  | .xor _ | .andn _ | .shl _ | .shr _ | .sra _ | .rotr _ | .min _ | .max _ | .minu _ | .maxu _ | .clz _
  | .popc _ | .mul _ | .mulh _ | .mulhu _ | .div _ | .divu _ | .rem _ | .remu _ | .sel _ | .addi _ | .andi _
  | .ori _ | .shli _ | .li _ | .lih _ | .mov _ | .lea _ | .cmpeq _ | .cmpne _ | .cmplt _ | .cmpltu _ | .cmpge _
  | .cmpgeu _ | .cmpeqi _ | .cmplti _ | .plogAnd _ | .plogOr _ | .plogXor _ | .plogAndn _ | .plogOrn _
  | .plogNot _ | .plogMov _ | .plogClr _ | .pget _ | .pput _ | .pcnt _ | .pfirst _ | .vadd _ | .vsub _
  | .vmul _ | .vfma _ | .vmin _ | .vmax _ | .vabs _ | .vneg _ | .vdiv _ | .vsqrt _ | .vrsq _ | .vrec _
  | .vexp2 _ | .vlog2 _ | .vand _ | .vor _ | .vxor _ | .vnot _ | .vshl _ | .vshr _ | .vsra _ | .vclz _
  | .vcmpeq _ | .vcmpne _ | .vcmplt _ | .vcmple _ | .vcmpun _ | .vclass _ | .vsel _ | .vmov _ | .vbcast _
  | .vlane _ | .vext _ | .vins _ | .vperm _ | .vslide _ | .vred _ | .vscan _ | .vdot _ | .vsett _ | .vgetf _
  | .vsetf _ | .vseed _ | .vcvt _ | .vpack _ | .vunpk _ | .vscale _ | .tawin _ | .tamode _ | .tarst _
  | .tadly _ | .talnch _ | .tacap _ | .tastat _ | .wver _ | .ldl _ | .stl _ | .ldc _ | .stc _ | .mstc _
  | .ldg _ | .stg _ | .ldgq _ | .pfg _ | .vgath _ | .vscat _ | .gathq _ | .ldk _ | .ldkq _ | .ldh _ | .sth _
  | .hflsh _ | .hinv _ | .ldp _ | .stp _ | .spcfg _ | .cinv _ | .cflsh _ | .clkr _ | .aadd _ _ | .afadd _ _
  | .amin _ _ | .amax _ _ | .aand _ _ | .aor _ _ | .axor _ _ | .axchg _ _ | .acas _ _ | .ared _ _
  | .xshdAlloc _ | .xshdFree _ | .semw _ | .sems _ | .semi _ | .semrd _ | .bar _ | .bara _ | .barw _
  | .bibset _ | .lock _ | .unlock _ | .trylk _ | .wreg _ | .wdereg _ | .whold _ | .wqry _ | .qpush _ | .qpop _
  | .qpeek _ | .qstat _ | .tokp _ | .tokw _ | .xrstat _ | .lctrRd _ | .lctrWait _ | .lctrSet _ | .lctrAdd _
  | .lstep _ | .lstat _ | .trap _ | .seth _ | .csrr _ | .csrw _ | .csrwDmr _ | .csrwBib _ | .csrwBdepth _
  | .csrwBprio _ | .aset _ | .tlbi _ | .ctxsv _ | .ctxrs _ | .prq _ | .wftsp _ | .errlog _ | .inj _ | .migr _
  | .ares _ | .nop | .waite | .rdv | .node | .fenceStream | .fenceJob | .fenceCluster | .fenceDevice
  | .fenceSystem | .efence | .ksync | .tret | .udecl => .plain

/-- The decode checks on a head: a semaphore number needs its enable bit (R42), and a format without the halves or without
guard and stall count leaves them zero. -/
def Head.wf (k : HeadKind) (h : Head) : Bool :=
  let noSem := !h.we && !h.se && h.wsem == 0 && h.ssem == 0
  match k with
  | .plain => noSem && h.step == 0
  | .sem => (h.we || h.wsem == 0) && (h.se || h.ssem == 0) && h.step == 0
  | .count => noSem && h.g == 0 && h.step == 0
  | .inc => noSem && h.g == 0 && h.st == 0
  | .bare => noSem && h.g == 0 && h.st == 0 && h.step == 0

/-- An instruction with its head. -/
structure Code where
  head : Head
  instr : Instr
  deriving DecidableEq, Repr

/-- A well-formed instruction word. -/
def Code.wf (w : Code) : Bool := w.instr.wf && w.head.wf w.instr.headKind

/-- What an INC word may step in an instruction (R44, R45): nothing at all (`none`: the INC is refused whatever it holds), or
the register fields D, A, B it uses, or the offset. -/
inductive IncUse where
  | none
  | regs (d a b : Bool)
  | off (elemBytes : Nat)
  deriving DecidableEq, Repr

/-- Bytes of every element type code of R41 (0 for the reserved code). -/
def typeBytes : Nat → Nat
  | 13 => 64
  | 14 => 256
  | n => elemBytes n

/-- The fields an INC word may step in each instruction (R44); not the descriptor number of NEST (DESIGN CHOICE, log entry 63). -/
def Instr.incUse : Instr → IncUse
  | .fqry _ | .bri _ | .wlimset _ | .cont _ | .domain _ | .joini _ | .clz _ | .popc _ | .addi _ | .andi _
  | .ori _ | .shli _ | .mov _ | .cmpeqi _ | .cmplti _ | .vabs _ | .vneg _ | .vsqrt _ | .vrsq _ | .vrec _
  | .vexp2 _ | .vlog2 _ | .vnot _ | .vclz _ | .vclass _ | .vmov _ | .vbcast _ | .vred _ | .vscan _ | .vgetf _
  | .vsetf _ | .vseed _ | .vcvt _ | .tawin _ => .regs true true false
  | .br _ | .mov16 _ _ | .add16 _ _ | .addi16 _ _ | .br16 _ | .tok16Push _ | .tok16Wait _ | .plogAnd _
  | .plogOr _ | .plogXor _ | .plogAndn _ | .plogOrn _ | .plogNot _ | .plogMov _ | .plogClr _ | .pget _
  | .pput _ | .pcnt _ | .pfirst _ | .tld _ | .tst _ | .tzero _ | .tmov _ | .tmma _ | .tmmas _ | .ttrn _
  | .tcvt _ | .tfmt _ | .wbankSel _ | .wbankClaim _ | .wbankRel _ | .wregnDef _ | .wregnRem _ | .wldw _
  | .wstw _ | .wadmit _ | .wcoll _ | .wver _ | .wopt _ | .wcks _ | .wsave _ | .wrest _ | .xshdAlloc _
  | .xshdFree _ | .xcopy _ | .xfill _ | .xpub _ | .semw _ | .sems _ | .semi _ | .semrd _ | .bar _ | .bara _
  | .barw _ | .bibset _ | .lock _ | .unlock _ | .trylk _ | .wreg _ | .wdereg _ | .whold _ | .wqry _ | .qpush _
  | .qpop _ | .qpeek _ | .qstat _ | .tokp _ | .tokw _ | .xtree _ | .xred _ | .xbcast _ | .xrstat _ | .lsend _
  | .larm _ | .larmDis _ | .lrecv _ | .lctrRd _ | .lctrWait _ | .lctrSet _ | .lctrAdd _ | .lstep _ | .lstat _
  | .trap _ | .seth _ | .csrr _ | .csrw _ | .csrwDmr _ | .csrwBib _ | .csrwBdepth _ | .csrwBprio _ | .aset _
  | .tlbi _ | .ctxsv _ | .ctxrs _ | .prq _ | .wftsp _ | .errlog _ | .inj _ | .migr _ | .ares _ | .nop16 | .inc
  | .planeCapture | .tstart | .tcksOff | .tcksOn | .wlease | .wrls | .wdrain | .wdrainDiscard
  | .wavefrontAdmission | .wavefrontCellArrival | .wavefrontDelivery | .applyCommit | .queueLoadArrival
  | .writeTakesEffect | .copyCompletion | .deadlockSweep | .waitLimit | .redTimeout | .linkMessageArrival
  | .peerAccessArrival | .sendAcknowledged | .goBackReplay | .linkDown | .postWaitTimeout | .linkTraining
  | .gscStep | .gscJoin | .tret | .udecl | .checkerCompare | .vbusLaneFault | .preempt | .distributorSelection
  | .replayDiverge | .dispatch | .jobRetirement | .hostTailWrite | .queueDescriptorWrite | .queueDisableWrite
  | .hostirqClear | .layerpwrWrite | .peerdataWrite | .nctrWrite | .windowWrite | .hostCoherentAccess
  | .layer1PowerOff | .layer1PowerOn | .powerOn | .firmwareImageDelivery | .configurationImageDelivery
  | .summerTransition | .powerRemoval | .dieReset | .attestationRequest | .hazelTranslation
  | .uncorrectableError | .hostErrorOnStore | .supervisorDebugStop | .returnToWinterThroughFault => .none
  | .call _ | .mcall _ | .spcfg _ | .nop | .waite | .rdv | .node | .fenceStream | .fenceJob | .fenceCluster
  | .fenceDevice | .fenceSystem | .efence | .ksync => .regs false false false
  | .ret _ | .mdef _ | .nest _ | .trcrec _ | .trcrpl _ | .tamode _ | .tadly _ | .talnch _ => .regs false true false
  | .tarst f => .regs false (f.a != 0) false
  | .prio _ | .self _ | .trcstat _ | .li _ | .lih _ | .vlane _ | .vsett _ | .tastat _ => .regs true false false
  | .add _ | .sub _ | .and _ | .or _ | .xor _ | .andn _ | .shl _ | .shr _ | .sra _ | .rotr _ | .min _ | .max _
  | .minu _ | .maxu _ | .mul _ | .mulh _ | .mulhu _ | .div _ | .divu _ | .rem _ | .remu _ | .sel _ | .lea _
  | .cmpeq _ | .cmpne _ | .cmplt _ | .cmpltu _ | .cmpge _ | .cmpgeu _ | .vadd _ | .vsub _ | .vmul _ | .vfma _
  | .vmin _ | .vmax _ | .vdiv _ | .vand _ | .vor _ | .vxor _ | .vshl _ | .vshr _ | .vsra _ | .vcmpeq _
  | .vcmpne _ | .vcmplt _ | .vcmple _ | .vcmpun _ | .vsel _ | .vext _ | .vins _ | .vperm _ | .vslide _
  | .vdot _ | .vscale _ => .regs true true true
  | .vpack f | .vunpk f => .regs true true (decide (3 ≤ f.xf 0 4))
  | .tacap f => .regs true false (f.xf 6 1 == 1)
  | .ldl f | .stl f | .ldc f | .stc f | .mstc f | .ldg f | .stg f | .ldgq f | .pfg f | .vgath f | .vscat f
  | .gathq f | .ldk f | .ldkq f | .ldh f | .sth f | .ldp f | .stp f | .aadd _ f | .afadd _ f | .amin _ f
  | .amax _ f | .aand _ f | .aor _ f | .axor _ f | .axchg _ f | .acas _ f | .ared _ f => .off (typeBytes f.ty.toNat)
  | .hflsh f | .hinv f | .cinv f | .cflsh f | .clkr f =>
    if f.mod == 0 then .off (typeBytes f.ty.toNat) else .regs false false false

end Sys2Proof
end

