-- ==== Sys2Proof/Machine/State.lean ====
section
/-! DEFINITION. The state of one C4 package as plain data: every piece of state the manual names, with the few fields of the
model's own (the schedule, the input list, the draw counter; log entries 1 to 3), the state after reset, and the reasons a
step can stop. -/
namespace Sys2Proof.Machine

/-- Bytes at addresses: addresses strictly rising, no entry equal to 0, which is what an unlisted address reads as. -/
abbrev Memory := List Host.Cell

/-- The number of a core: 0 to 127 are the cores by COREID (R11), 128 + 4 * die + n the system cores (R21, R420). -/
abbrev CoreId := Fin 136

/-! What the events of the input list carry. -/

/-- A message arriving on a link (R396, R399): the sender's module and ASID, the target ASID, the post, the byte offset in
it, the bytes, and the extent of the whole send, which the receiver checks at the first message. -/
structure LinkMsg where
  chip : Nat
  sasid : Nat
  rdie : Nat
  asid : Nat
  post : Nat
  off : Nat
  bytes : List Byte
  extOff : Nat
  extLen : Nat
  deriving DecidableEq, Repr

/-- A space-P access arriving from a peer (R393): a load of `size` bytes, or a store of `bytes`, or an atomic of the given
opcode (0x50 to 0x59) with operand and expected value. -/
structure PeerAcc where
  chip : Nat
  sasid : Nat
  rdie : Nat
  asid : Nat
  va : Nat
  size : Nat
  write : Option (List Byte)
  atomic : Option (Nat × Nat × Nat × Nat)
  deriving DecidableEq, Repr

/-- What a natural upset hits (R427): a line of physical memory, a scratchpad line of a core, a cell of a wavefront
array, a row group of a temporal plane, or tile SRAM. -/
inductive Upset where
  | line (pa : Nat)
  | spad (core off : Nat)
  | cell (arr bank row col : Nat)
  | delay (core plane group : Nat)
  /-- a tile register (0 to 15), an accumulator (16 to 23) or the engine's own SRAM (24) of a core (R194) -/
  | tile (core reg : Nat)
  deriving DecidableEq, Repr

/-- A delivered firmware image (R457): its digest, whether each of its two signatures verifies against the keys in the boot
ROM, and the Hazel version it carries (R109). -/
structure FirmwareImage where
  digest : BitVec 384
  rsaOk : Bool
  slhOk : Bool
  hazel : BitVec 32
  deriving DecidableEq, Repr

/-- A delivered configuration image (R456): as a firmware image, with repair maps, clock trims, STEPLEN, the CHIP identity and the
identity seed, and whether identity derivation and training succeed (step 4 of R458). -/
structure ConfigImage where
  digest : BitVec 384
  rsaOk : Bool
  slhOk : Bool
  repairs : List Byte
  trims : List Byte
  steplen : Nat
  chip : BitVec 16
  seed : List Byte
  trained : Bool
  deriving DecidableEq, Repr

/-- The data an event may carry beside its numbers. -/
inductive EvData where
  | none
  | bytes (bs : List Byte)
  | msg (m : LinkMsg)
  | peer (p : PeerAcc)
  | upset (u : Upset)
  | firmware (f : FirmwareImage)
  | config (c : ConfigImage)
  | nonce (n : BitVec 384)
  /-- a code object that the loader is to place at a virtual address for its code and one for its data (R452) -/
  | object (o : List Byte) (code data : Nat)
  deriving DecidableEq, Repr

/-- The operands of an event: the unit it happens at (a core, die, array or link, as the event's entry names), a number
within it (a stream, queue, plane, field, offset), two values, a flag, data, and the UCIe module that carries it (R443). -/
structure EvArgs where
  unit : Nat
  sub : Nat
  val : Nat
  val2 : Nat
  flag : Bool
  data : EvData
  via : Option (Fin 4)
  deriving DecidableEq, Repr

/-! Streams. -/

/-- A nest descriptor (R104): bounds, strides, address register, offset. -/
structure Nest where
  b : Vector (BitVec 16) 6
  d : Vector (BitVec 32) 6
  r : BitVec 5
  o : BitVec 32
  deriving DecidableEq, Repr

/-- The block a stream is in (R28, R100, R104, R105): header address and fields, the copied descriptor and B0, the pass,
and the loop buffer of a repeated block. -/
structure Block where
  hdr : Word
  len : Nat
  rep : Nat
  lm : Bool
  nx : Bool
  nest : Nest
  b0 : Word
  pass : Nat
  buf : Option (List HWord)
  deriving DecidableEq, Repr

/-- A macro being run (R116): the slot's operations as read at issue, the next operation's index, and MCALL's stall count. -/
structure Macro where
  ops : List (List HWord)
  idx : Nat
  st : Nat
  /-- halfwords of the MCALL -/
  len : Nat
  deriving DecidableEq, Repr

/-- The destination of a register write. -/
inductive Dest where
  | s (n : BitVec 5)
  | p (n : BitVec 7)
  | v (n : BitVec 5)
  | nest (n : BitVec 3)
  deriving DecidableEq, Repr

/-- A register write that has yet to take effect, as R421 keeps it: the stream slot at which it does so (of a result of variable
latency: the slot of the clock), the slot of the clock at which it was issued, the destination, the enabled bits (of a predicate:
lanes), the value, the flags it raises (R144), and whether older results of its destination land before it (R94, R234). -/
structure Pend where
  due : Nat
  issued : Nat
  dest : Dest
  mask : VWord
  val : VWord
  flags : BitVec 5
  behind : Bool
  deriving DecidableEq, Repr

/-- The kinds of object that a wait may name (R346). -/
inductive WaitKind where
  | sem | bar | lock | queue | token | node | lease | mcast | link | spcfg | expl | lklim | opn
  deriving DecidableEq, Repr

/-- A registered wait (R345), or one of the waits the manual calls unregistered (`reg` false): kind and identity as the
waiter names it, a lock's physical address, registration order, the wait counter of R354, the value that an event which
satisfied the wait left for the waiter (R333, R335, R339), how far the instruction came before it (BAR counts its arrival first,
R360), the slot in which the wait began, and the limit that governs it (R119). -/
structure Wait where
  kind : WaitKind
  obj : Nat
  phys : Nat
  seq : Nat
  count : Nat
  grant : Option Word
  stage : Nat
  reg : Bool
  since : Nat
  limit : Nat
  deriving DecidableEq, Repr

/-- A fault left pending (R294, R297, R330, R406): cause, the consuming instruction, address, access kind and space, and
the detail words of its record. -/
structure PendFault where
  cause : Nat
  pc : Word
  addr : Word
  kind : Nat
  space : Nat
  detail : List Word
  /-- the slot of the clock in which the consuming instruction or command issued: program order within its stream -/
  ord : Nat
  deriving DecidableEq, Repr

/-- A trap record (R415): its fields, and the detail words from byte 64. -/
structure TrapRec where
  cause : Nat
  strm : StreamId
  precise : Bool
  esc : Bool
  nest : Bool
  recf : Bool
  eng : Bool
  midx : Nat
  inmac : Bool
  pc : Word
  jobid : Word
  addr : Word
  kind : Nat
  space : Nat
  halted : Bool
  slots : Nat
  gsc : Word
  core : Nat
  detail : List Word
  deriving DecidableEq, Repr

/-- A P access that waits for the peer's response (R298, R398): its link, the slot in which the response is there, and whether the
link has failed before it. -/
structure PeerWait where
  link : Nat
  due : Nat
  failed : Bool
  deriving DecidableEq, Repr

/-- A P store that the peer has not acknowledged (R324): its link, the slot in which the acknowledgement is there, whether the link
has failed before it, and the fault that a fence then raises. -/
structure PeerStore where
  link : Nat
  due : Nat
  failed : Bool
  fault : PendFault
  deriving DecidableEq, Repr

/-- One stream of a core (R12, R51, R64). -/
structure Strm where
  /-- the job uses the stream -/
  used : Bool
  /-- its RDV has completed (R83) -/
  ended : Bool
  /-- halted by a fault (R290) -/
  halted : Bool
  /-- arrived at its next node boundary (R70) -/
  arrived : Bool
  pc : Word
  /-- stream-slot count (R92) -/
  slots : Nat
  s : Vector Word 32
  /-- p0 to p127, a lane mask each; lane 0 outside the VS -/
  p : Vector (BitVec 64) 128
  nests : Vector Nest 8
  blk : Option Block
  /-- the header to enter next was reached by a taken transfer (R32) -/
  taken : Bool
  /-- LM of the block last executed (R97) -/
  lastLM : Option Bool
  mac : Option Macro
  pending : List Pend
  /-- the INC word that the last issued instruction steps by (R44) -/
  armed : Option Word
  wlim : BitVec 32
  wait : Option Wait
  /-- generator of stochastic rounding (R138) -/
  seed : BitVec 32
  faults : List PendFault
  /-- explicit registration (R368) -/
  expl : Option Wait
  /-- K horizon: the place in the store order from which K loads must see stores (R313), and the places used by earlier
  K loads, by byte address -/
  horizon : Nat
  kseen : List (Nat × Nat)
  /-- stands at an instruction that waits for its engines (R348) -/
  draining : Bool
  /-- idle stream slots still to pass before the next issue (R35, R92, R116) -/
  idle : Nat
  /-- the slot of the clock from which the stream may go on, and from which it may issue (refill, R103) -/
  readyAt : Nat
  fetchAt : Nat
  /-- results of variable latency that have not arrived: writes due at a slot of the clock (R96, R280) -/
  arriving : List Pend
  /-- the P access under way, and the P stores without an acknowledgement, oldest first -/
  peerWait : Option PeerWait
  peerStores : List PeerStore
  deriving DecidableEq, Repr

/-! Engines and cores. -/

/-- The command queues of a core: tile engine (R183), wavefront array (R233), collectives (R375), links (R404), copy engine
(R328); and the WS's own outstanding instructions, which complete behind the ones it goes on to issue: WCOLLs, in order, and the two
kinds of WVER, which wait for different things (R234). -/
inductive Eng where
  | tile | arr | coll | link | copy | out | rng | ver
  deriving DecidableEq, Repr

/-- A command in an engine's queue: the instruction, where it stands, the operands read at issue, and what it has done
while at the head: its semaphore unit (R42), its wait, its progress. -/
structure Cmd where
  code : Code
  pc : Word
  midx : Nat
  inmac : Bool
  sa : Word
  sb : Word
  sd : Word
  /-- further scalar operands, in the order of the command's entry -/
  more : List Word
  slot : Nat
  /-- the checker has produced the same command (R13) -/
  checked : Bool
  unit : Bool
  wait : Option Wait
  stage : Nat
  /-- stands trapped at the head until its trap is resolved (R416, R418) -/
  trapped : Bool
  /-- completes as failed once its trap is resolved (R382) -/
  failing : Bool
  /-- order of issue -/
  ord : Nat
  /-- a collective's timer, 1 when it starts, and the XTLIM it latched (R379, R380), its partial result or descriptor and the next
  child to combine (R376) -/
  timer : Nat
  limit : Nat
  acc : List (BitVec 32)
  next : Nat
  deriving DecidableEq, Repr

/-- A scalar or vector queue (R12, R343): bindings, and entries with whether their data has arrived and the slot at which
a load's data arrives (R291, R280). Scalar entries use the low 64 bits. -/
structure QEntry where
  val : VWord
  arrived : Bool
  due : Nat
  deriving DecidableEq, Repr

structure Queue where
  prod : Option StreamId
  cons : Option StreamId
  entries : List QEntry
  deriving DecidableEq, Repr

/-- A token queue (R343). -/
structure Tokens where
  prod : Option StreamId
  cons : Option StreamId
  count : Nat
  deriving DecidableEq, Repr

/-- The interrupted CS while it is in handler mode (R417). -/
structure Frame where
  pc : Word
  blk : Option Block
  taken : Bool
  lastLM : Option Bool
  mac : Option Macro
  pending : List Pend
  slots : Nat
  /-- a wait that was satisfied and not yet completed (R355) -/
  wait : Option Wait
  armed : Option Word
  idle : Nat
  fetchAt : Nat
  deriving DecidableEq, Repr

/-- Handler mode (R416 to R418): the record, the frame, and the block that SETH named. -/
structure Handler where
  record : TrapRec
  frame : Frame
  seth : Option Word
  deriving DecidableEq, Repr

/-- An error log (R294, R426): entries of four words, newest first, OVF, and the count appended. -/
structure ErrLog where
  entries : List (Vector Word 4)
  ovf : Bool
  appended : Nat
  deriving DecidableEq, Repr

/-- A host store that the write buffer holds (R297, R314): its bytes, the stream and the instruction that made it. -/
structure HostStore where
  addr : Nat
  bytes : List Byte
  strm : StreamId
  pc : Word
  ord : Nat
  deriving DecidableEq, Repr

/-- A line locked by LDGQ.lk (R292): the line's physical address, the queue and which of its entries holds it, counted
from the head, and whether an L1 could hold the line, so that the lock keeps it there. -/
structure LockedLine where
  line : Nat
  queue : Nat
  entry : Nat
  held : Bool
  deriving DecidableEq, Repr

/-- A pre-emption request (R79, R422, R423): the queue that caused it (none for PRQ), the slots since it was posted, the ring slot
count of the record that caused it with the level of its queue, and whether its PLIM count has had its effect. -/
structure Request where
  queue : Option Nat
  count : Nat
  record : Nat
  level : Nat
  spent : Bool
  deriving DecidableEq, Repr

/-- The node checkpoint (R71): each used stream's program counter after its NODE, with the block it stands in, and CS s1 to s7;
and whether a checker mismatch has used it (R425). -/
structure Checkpoint where
  pcs : List (Option (Word × Option Block))
  regs : List Word
  used : Bool
  deriving DecidableEq, Repr

/-- The command window of a tile engine (R193, R194): the snapshot, the count, the commands retained since it, each with the TFMT under
which it executed, and the TFMTs of those that a replay has yet to execute again (R202). -/
structure TileWindow where
  t : Vector TileWord 16
  a : Vector AccWord 8
  tfmt : BitVec 13
  seed : BitVec 32
  count : Nat
  cmds : List (Cmd × BitVec 13)
  replay : List (BitVec 13)
  deriving DecidableEq, Repr

/-- Tile state (R178, R179), with what an upset has left uncorrectable (R194): tile registers 0 to 15, accumulators from 16
on, the engine's SRAM at 24. -/
structure Tile where
  t : Vector TileWord 16
  a : Vector AccWord 8
  tfmt : BitVec 13
  cke : Bool
  window : Option TileWindow
  bad : List Nat
  deriving DecidableEq, Repr

/-- State of a temporal plane (R263); a launch that read an error mark ends in held with error. -/
inductive PlaneState where
  | ready
  | running (due : Nat) (error : Bool)
  | held (error : Bool)
  deriving DecidableEq, Repr

/-- A plane of a temporal array (R258): delays (byte 64k + j is d[k][j]), column modes, state, the window and launch vector
of its last launch, the held times and winners, and the error marks of its row groups. -/
structure Plane where
  delays : BitVec 32768
  mode : Word
  state : PlaneState
  win : Nat
  launch : BitVec 512
  times : BitVec 512
  winners : BitVec 512
  marks : BitVec 16
  deriving DecidableEq, Repr

/-- A TACAP that has issued and not yet written (R264): group, mask, destinations, the slot before which it writes nothing, and what it
has found so far: quarter, times and winners of the planes held (R263), and the planes that fail it, with whether they were Ready. It
keeps the place of its instruction, for a trap at a plane's capture (R273), whether it stands trapped, and whether it issued in an
exposed block; in a scoreboard block an older TACAP's write of its destinations goes first (R94). -/
structure Tacap where
  g : Nat
  mask : BitVec 4
  d : BitVec 5
  b : BitVec 5
  win : Bool
  due : Nat
  got : List (Nat × BitVec 512 × BitVec 512)
  bad : List (Nat × Bool)
  pc : Word
  midx : Nat
  inmac : Bool
  trapped : Bool
  lm : Bool
  deriving DecidableEq, Repr

/-- An entry of a wavefront output buffer (R240): false is the F direction. -/
structure WOut where
  tag : Nat
  dir : Bool
  failed : Bool
  nf : Bool
  replays : Nat
  range : Nat × Nat
  vals : List (BitVec 32)
  deriving DecidableEq, Repr

/-- A tree slot (R371, R382): the descriptor it holds, the member index, the epoch count, the failures since its load, latest first
(epoch, cause, bitmap), and the number of the load that filled it, the same at every member. -/
structure Tree where
  loaded : Bool
  desc : List Byte
  member : Nat
  epoch : Nat
  fails : List (Nat × Nat × Word)
  load : Nat
  deriving DecidableEq, Repr

/-- A copy that its engine has accepted (R330): the pair, the pattern of a fill, whether its source is the scratchpad, the source
address, the pieces of memory read and written, the 8-byte words still to do, the poisoned source lines met (as the log
names them), whether it covers the whole shadow, its semaphore and its program counter. -/
structure Copy where
  pair : Nat
  fill : Option Word
  pad : Bool
  va : Nat
  src : List (Nat × Nat)
  dst : List (Nat × Nat)
  left : List Nat
  bad : List (Word × Word)
  whole : Bool
  sem : Option (BitVec 8)
  pc : Word
  /-- the slot and the order of its issue, and the slot of its acceptance -/
  slot : Nat
  ord : Nat
  since : Nat
  deriving DecidableEq, Repr

/-- One core with the job on it (R12, R64, R429). -/
structure Core where
  /-- a job is bound to the core; of a system core: its CS runs -/
  active : Bool
  /-- lost for dispatch until the next bring-up (R428) -/
  lost : Bool
  jobid : Word
  asid : BitVec 13
  /-- dispatch: queue, ring slot, record's frame pointer, parent, trace flag (R57, R64) -/
  queue : Nat
  slot : Nat
  /-- the core to which the record was dispatched, which its status words name (R76) -/
  dispatched : CoreId
  /-- virtual addresses of the ring slot and of the status slot -/
  raddr : Word
  saddr : Word
  fp : Word
  parent : Word
  dprio : BitVec 3
  bprio : BitVec 3
  eprio : BitVec 3
  dmr : Word
  bib : Nat
  bdepth : Nat
  /-- pending bits of the barrier slots (R335) -/
  barPend : BitVec 16
  utvec : Word
  utrec : Word
  lodcnt : Word
  fflags : BitVec 5
  vtype : BitVec 7
  twin : BitVec 8
  cktol : BitVec 16
  xtlim : BitVec 32
  streams : Vector Strm 6
  v : Vector VWord 32
  sems : Vector (BitVec 32) 256
  queues : Vector Queue 16
  /-- command queues: tile engine (R183), wavefront array (R233), collectives (R375), links (R404), copy engine (R328) -/
  tileQ : List Cmd
  arrQ : List Cmd
  collQ : List Cmd
  linkQ : List Cmd
  copyQ : List Cmd
  /-- WCOLLs, WVERs of a range and WVERs of a region that have issued and not yet completed (R234) -/
  outQ : List Cmd
  rngQ : List Cmd
  verQ : List Cmd
  /-- copies under way (R330) -/
  copies : List Copy
  tile : Tile
  planes : Vector Plane 16
  tacaps : List Tacap
  /-- the slot of the clock from which the divide and square-root unit accepts an instruction (R162) -/
  divFree : Nat
  /-- current bank and presented handle (R237) -/
  bank : Option Nat
  handle : BitVec 32
  /-- output buffer, oldest first, and the entries reserved beyond those delivered (R240) -/
  wouts : List WOut
  wroom : Nat
  /-- version range last collected of a tag and direction (R251) -/
  wranges : List (Nat × Bool × Nat × Nat)
  trees : Vector Tree 4
  tokens : Vector Tokens 8
  /-- control store: the operations of each macro slot (R106) -/
  macros : Vector (List (List HWord)) 64
  spad : Memory
  split : Nat
  /-- FRAME and FUSE of the job's header (R59, R63, R308) -/
  frame : Nat
  fuse : Nat
  /-- poisoned scratchpad lines -/
  spadPoison : List Nat
  locked : List LockedLine
  hostBuf : List HostStore
  /-- .c copies of host lines (R297): line address and bytes -/
  hostCopies : List (Nat × List Byte)
  /-- K horizons by CINV: physical address, bytes, place (R313) -/
  khor : List (Nat × Nat × Nat)
  log : ErrLog
  handler : Option Handler
  /-- traps held for the job, oldest first (R416, R419) -/
  held : List TrapRec
  /-- stopped by a supervisor trap (R420): the record, and whether it has reached the supervisor's ring -/
  stopped : Option TrapRec
  /-- the slot in which an instruction of the job raised the trap that freezes it: its other streams still issue in that slot (R419) -/
  trapSlot : Option Nat
  /-- the slot in which ARES let the halted AS go on: the waits that it holds do not count in it yet (R442) -/
  aresSlot : Option Nat
  checkpoint : Checkpoint
  request : Option Request
  /-- the next engine command mismatches at the checker (R440) -/
  mismatch : Bool
  /-- DOMAIN, SPCFG and other waits' progress is in the stream's wait; the SPCFG under way, if any (R299): new split -/
  spcfg : Option Nat
  /-- slots of vertical-bus freeze left (R428) -/
  freeze : Nat
  /-- a full save has stopped the job's engines (R424) -/
  saving : Bool
  deriving DecidableEq, Repr

/-- A continuation queue (R75). -/
structure CQueue where
  en : Bool
  src : Bool
  asid : BitVec 13
  qprio : BitVec 3
  log2cap : BitVec 5
  base : BitVec 48
  sbase : BitVec 48
  head : BitVec 32
  tail : BitVec 32
  aff : BitVec 64
  pass : BitVec 16
  deriving DecidableEq, Repr

/-- Dispatch trace state of a die (R81, R82, R90). -/
structure Trace where
  mode : Nat
  next : Nat
  full : Bool
  div : Bool
  base : Nat
  len : Nat
  /-- slot of the decision point of the next entry -/
  decision : Option Nat
  deriving DecidableEq, Repr

/-- A declaration by WHOLD (R369): job, stream, object. -/
structure Holding where
  jobid : Word
  strm : StreamId
  kind : WaitKind
  obj : Nat
  asid : BitVec 13
  core : Nat
  deriving DecidableEq, Repr

/-- A lock held (R338, R345): the physical address of its word and the owner; `since` orders it against checkpoints. -/
structure LockHeld where
  phys : Nat
  asid : BitVec 13
  va : Nat
  jobid : Word
  strm : StreamId
  sinceNode : Bool
  deriving DecidableEq, Repr

/-- A barrier domain's slot counts (R335): ASID, LEVEL, DOMID, cluster or die it lies in, and the 16 counts. -/
structure Barrier where
  asid : BitVec 13
  level : Nat
  domid : Nat
  place : Nat
  counts : Vector Nat 16
  deriving DecidableEq, Repr

/-- A saved job: by node-boundary pre-emption, in a pool slot (R422), or by CTXSV, at an address (R424). -/
structure Saved where
  node : Bool
  /-- the core it ran on -/
  origin : CoreId
  /-- pool slot, or physical address of the image -/
  place : Nat
  die : Nat
  ticket : Nat
  unresolved : Bool
  core : Core
  deriving DecidableEq, Repr

/-- A peer entry of an ASID (R392). -/
structure Peer where
  asid : BitVec 13
  n : Nat
  v : Bool
  link : Nat
  chip : BitVec 16
  rdie : Bool
  rasid : BitVec 13
  deriving DecidableEq, Repr

/-- What the supervisor has granted an ASID on a die: link counters and triggers (R394, R400), and its tenant identity
(R445). -/
structure Grant where
  asid : BitVec 13
  nctr : Nat
  trigq : Nat
  tenant : Word
  deriving DecidableEq, Repr

/-- A link counter that is not 0 (R394). -/
structure LinkCtr where
  asid : BitVec 13
  n : Nat
  val : Nat
  deriving DecidableEq, Repr

/-- An open post (R395): buffer, length, chunk size, counter, and the byte counts of the chunks that hold some. -/
structure Post where
  asid : BitVec 13
  n : Nat
  buf : Nat
  len : Nat
  chunk : Nat
  ctr : Nat
  counts : List (Nat × Nat)
  deriving DecidableEq, Repr

/-- A send that has executed (R396, R404): its place in the transmit order, its link, who sent it, from where and when, what it names
at the peer, its source (in the scratchpad, or in G, or an image formed at execution), the bytes that have become messages
and those acknowledged, and its semaphore. -/
structure Send where
  ord : Nat
  link : Nat
  core : CoreId
  jobid : Word
  asid : BitVec 13
  pc : Word
  slot : Nat
  peer : Peer
  post : Nat
  trig : Bool
  pad : Bool
  src : Nat
  image : Option (List Byte)
  roff : Nat
  len : Nat
  sent : Nat
  acked : Nat
  sem : Option (BitVec 8)
  deriving DecidableEq, Repr

/-- An armed trigger (R400): counter, threshold, the send's command, and the arming job and core. -/
structure Trigger where
  asid : BitVec 13
  ctr : Nat
  thr : Nat
  cmd : Cmd
  jobid : Word
  core : CoreId
  seq : Nat
  deriving DecidableEq, Repr

/-- A partial result that a member's router holds for one of its children (R375, R376): the tree's load, the member whose router it is
and the child, by member index, the epoch, what the contribution says of itself, and the values. -/
structure Partial where
  load : Nat
  router : Nat
  child : Nat
  epoch : Nat
  sig : Nat
  vals : List (BitVec 32)
  deriving DecidableEq, Repr

/-- A result on its way down to a member (R378). -/
structure Down where
  load : Nat
  member : Nat
  epoch : Nat
  sig : Nat
  vals : List (BitVec 32)
  deriving DecidableEq, Repr

/-- A load of a tree that failed (R374, R388): its cause and, of a time-out, its bitmap, with the members that have not yet completed
their XTREE. -/
structure BadLoad where
  asid : BitVec 13
  tag : Nat
  cores : List CoreId
  cause : Nat
  bitmap : Word
  deriving DecidableEq, Repr

/-- One die (R7, R429, R445). -/
structure Die where
  queues : Vector CQueue 64
  rr : BitVec 6
  /-- selections that took a record, for JOBID (R64) -/
  selections : Nat
  trace : Trace
  /-- fusion state of each cluster (R63) -/
  fused : BitVec 8
  log : ErrLog
  /-- wait-for table: WHOLD declarations and lock holdings; waits stand in the streams and commands (R345) -/
  holds : List Holding
  locks : List LockHeld
  barriers : List Barrier
  stvec : Word
  ptroot : Word
  spill : Word
  /-- capacity of the spill area in entries (R438) -/
  spillCap : Nat
  plim : BitVec 32
  trcbase : Word
  trclen : Word
  errcfg : Word
  leasemax : BitVec 32
  rlim : BitVec 32
  /-- service state: 0 Winter, 1 Spring, 2 Summer; READY (R429) -/
  state : BitVec 2
  ready : Bool
  hostirq : BitVec 64
  irqen : BitVec 64
  /-- completion interrupts raised to the host die (R447) -/
  irqs : Nat
  /-- link unit (R392 to R400): entries not listed are not configured, nothing granted, counters 0, posts closed -/
  peers : List Peer
  grants : List Grant
  ctrs : List LinkCtr
  posts : List Post
  triggers : List Trigger
  /-- register window: its base on the host bus once the host die has assigned one, and its selectors (R445) -/
  window : Option Nat
  asidsel : BitVec 13
  peersel : BitVec 4
  /-- LAYERPWR: layer 1 requested on, layer 1 on, transition in progress (R445, R462) -/
  layerReq : Bool
  layerOn : Bool
  layerMove : Bool
  /-- BOOTSTAT: bring-up step and failure code (R445, R458) -/
  bootStep : Nat
  bootCode : Nat
  /-- supervisor records waiting for room in the ring (R420) -/
  records : List TrapRec
  /-- slot of the release from reset, from which sweeps are counted, and the slot at which the sweep under way ends (R349) -/
  released : Nat
  sweepEnd : Option Nat
  /-- router state of the trees (R375, R378) and failed loads (R374) -/
  partials : List Partial
  downs : List Down
  badLoads : List BadLoad
  /-- digests of the images in use (R460) -/
  firmware : BitVec 384
  config : BitVec 384
  /-- repair maps and clock trims applied, and the identity key derived, at bring-up (R456) -/
  repairs : List Byte
  trims : List Byte
  identity : BitVec 384
  deriving DecidableEq, Repr

/-- A cell of a bank (R204): weight word, accumulator, version. -/
structure WCell where
  w : BitVec 16
  g : BitVec 32
  v : BitVec 16
  deriving DecidableEq, Repr

/-- Region states (R207). -/
inductive RegState where
  | undef | defined | loaded | poisoned
  deriving DecidableEq, Repr

/-- What an F of a tag leaves for the strict check (R220): UC, and whether a BU was in flight. -/
structure WRecord where
  tag : Nat
  uc : BitVec 32
  bu : Bool
  deriving DecidableEq, Repr

/-- A region (R206): stashes that are valid, by tag, one FP32 word per row. -/
structure Region where
  state : RegState
  row0 : Nat
  col0 : Nat
  rows : Nat
  cols : Nat
  fmt : Nat
  eta : BitVec 32
  gscale : BitVec 32
  sr : Bool
  strict : Bool
  cks : Bool
  nf : Bool
  stashes : List (Nat × List (BitVec 32))
  uc : BitVec 32
  records : List WRecord
  deriving DecidableEq, Repr

/-- A bank (R204, R206, R221, R226): its claim, its step counter, its regions, the cells that are not all 0 (by 256 row + col)
and the cells marked poisoned. -/
structure Bank where
  claim : Option (BitVec 13 × BitVec 32)
  steps : Word
  regions : Vector Region 16
  cells : List (Nat × WCell)
  poison : List Nat
  deriving DecidableEq, Repr

/-- A wavefront: one that waits in an edge queue, one in flight, or one of the admission buffer (R209, R228, R238 to R240).
`age` counts slots from its admission, none while it waits. -/
structure Wave where
  core : CoreId
  jobid : Word
  /-- its command, which returns to the command queue where a rule says so -/
  cmd : Cmd
  kind : Nat
  bank : Nat
  region : Nat
  tag : Nat
  afmt : Nat
  inputs : List (BitVec 32)
  /-- not-before value, base bit, skip flag (R250), the slot in which it entered the edge queue, its place of issue -/
  nb : Nat
  base : Bool
  skip : Bool
  entered : Nat
  /-- the region as it stood at admission: geometry, format, settings (R250) -/
  reg : Region
  draw : BitVec 32
  cktol : Nat
  age : Option Nat
  uc : BitVec 32
  bu : Bool
  range : Option (Nat × Nat)
  replays : Nat
  /-- partial sums by logical column or row (R146), with the exact run of a narrow format -/
  sums : List (BitVec 32)
  runs : List FVal
  /-- the exact sums of a check (R227) -/
  chk : FVal
  mag : FVal
  nf : Bool
  failed : Bool
  /-- restored by WREST, without an entry reserved for its output yet (R257) -/
  restored : Bool
  owed : Bool
  deriving DecidableEq, Repr

/-- A wavefront array (R203, R223, R224, R228, R229, R239). -/
structure WArray where
  /-- the core whose job holds the lease (R223) -/
  lease : Option CoreId
  /-- JOBID of the lessee of a frozen array while that job is saved: the lease stays with it (R229) -/
  keeper : Option Word
  /-- standing requests with their order, the schedule base, the admissions of the lease -/
  requests : List (CoreId × Nat)
  base : Nat
  admissions : Nat
  /-- jobs whose lease was taken away by force (R236) -/
  forced : List Word
  frozen : Bool
  /-- traps raised while no job held the lease, cause and detail, for the next lessee (R229) -/
  traps : List (Nat × List Word)
  /-- the lease ends with this slot: 1 by WRLS (R246), 2 by LEASEMAX (R224) -/
  ending : Nat
  banks : Vector Bank 4
  fwd : List Wave
  bwd : List Wave
  flying : List Wave
  /-- the last 8 admissions, newest first (R228) -/
  recent : List Wave
  deriving DecidableEq, Repr

/-- A device link (R20, R392, R397, R398): up, the CHIP identity learnt at training, step marks aligned (R405), go-back replays. -/
structure Link where
  up : Bool
  chip : BitVec 16
  aligned : Bool
  replays : Nat
  /-- messages sent and not yet performed by the peer, oldest first (R399) -/
  wire : List LinkMsg
  /-- flits in the retransmit buffer (R397), and slots since a group of them was last acknowledged (R398) -/
  unacked : Nat
  idle : Nat
  /-- slots for which a message that may be transmitted has not been (R74) -/
  held : Nat
  /-- messages that have arrived and are held back, oldest first, and the slots the first has waited (R399) -/
  arrived : List LinkMsg
  waited : Nat
  /-- the message for which the send that arrives has been refused: its later messages are too (R399) -/
  refused : Option LinkMsg
  deriving DecidableEq, Repr

/-- The memory that a peer exports over a link (R298, R393): the die and address space at the other end, its bytes, whether it
accepts this sender, and the 64 KiB pages that its translation refuses. It stands outside this package (log entry 7). -/
structure Remote where
  link : Nat
  rdie : Bool
  asid : BitVec 13
  mem : Memory
  accepts : Bool
  bad : List Nat
  /-- lines with an uncorrectable error -/
  poison : List Nat
  deriving DecidableEq, Repr

/-- A store as the K path may skip it (R313): its place in the order, where, what the bytes held before, and the JOBID it was
made by (0 for any other agent). -/
structure KStore where
  pos : Nat
  pa : Nat
  old : List Byte
  job : Word
  deriving DecidableEq, Repr

/-- A publish pair (R327), and the log entry of the line that poisoned it (R330). -/
structure Pair where
  asid : BitVec 13
  n : Nat
  b0 : Nat
  b1 : Nat
  len : Nat
  sel : Nat
  poisoned : Option (Vector Word 4)
  deriving DecidableEq, Repr

/-- A word that a copy engine has written and no XPUB has published (R316): its pair, where it stands, what the copy has put there, by
which job, and whether that job's own loads surely return it. Memory holds what stands there in the order of stores. -/
structure Unpub where
  asid : BitVec 13
  pair : Nat
  pa : Nat
  new : List Byte
  job : Word
  sure : Bool
  deriving DecidableEq, Repr

/-- An image that CTXSV or WSAVE has made (R424, R256): its length and the ticket from which its bytes that the manual does not
give are drawn, with what it holds. -/
structure CtxImage where
  ticket : Nat
  /-- the lengths of its sections, and where in it the unresolved record stands (R424) -/
  sizes : List Nat
  record : Nat
  saved : Saved
  deriving DecidableEq, Repr
structure ArrImage where
  ticket : Nat
  banks : List (Nat × Bank)
  flying : List Wave
  recent : List Wave
  deriving DecidableEq, Repr

/-- An entry of Hazel's cache (R454): tenant, key, and where in device memory it stands: its tag, then `len` bytes of Hazel's output.
The tag is of the die whose Hazel made the entry. Entries are listed in the order of their last use. -/
structure HazelEntry where
  die : Fin 2
  tenant : Word
  key : BitVec 384
  addr : Nat
  len : Nat
  deriving DecidableEq, Repr

/-- The region of device memory that the supervisor has assigned to a tenant for its entries (R454). -/
structure HazelRegion where
  tenant : Word
  base : Nat
  size : Nat
  deriving DecidableEq, Repr

/-- What the package has answered outward: to the host die, to a peer over a link, to a loader. -/
inductive Reply where
  | data (bs : List Byte)
  /-- the completion of a host write (R444) -/
  | written
  | error
  | performed (link : Nat)
  | refused (link code : Nat)
  /-- the line of an access from a peer holds an uncorrectable error (R321) -/
  | poisoned (link : Nat)
  | report (bs : List Byte)
  | loader (code : Nat) (section_ : List Byte)
  deriving DecidableEq, Repr

/-- An answer, with the UCIe module over which the host die is given it (R444). -/
structure Answer where
  via : Option (Fin 4)
  reply : Reply
  deriving DecidableEq, Repr

/-- The TLBs (R288): a stream's own, its cluster's, its die's. -/
inductive TlbPlace where
  | strm (c : CoreId) (i : StreamId)
  | cluster (n : Nat)
  | die (d : Fin 2)
  deriving DecidableEq, Repr

/-- An entry of a TLB (R288): where it stands, its ASID, the leaf entry with the address it stands at, whether it is a block of
512 MiB, its virtual page or block number, and the physical address of the page or block. -/
structure TlbEntry where
  place : TlbPlace
  asid : BitVec 13
  pte : Word
  entry : Nat
  block : Bool
  vpn : Nat
  pa : Nat
  deriving DecidableEq, Repr

/-- The context of the meaning being executed: whose instruction it is, its head, its length in halfwords, the step of a stepped offset (R44), and the operands of an event. -/
structure Ctx where
  core : CoreId
  strm : StreamId
  head : Head
  len : Nat
  incOff : Int
  ev : EvArgs
  /-- the address of the engine command being executed and the slot of its issue, if it is one -/
  cmd : Option (Word × Nat)
  deriving DecidableEq, Repr

/-- An event of the input list or the agenda, with its operands. -/
structure Event where
  what : Instr
  args : EvArgs
  deriving DecidableEq, Repr

/-- A transfer that the host die has sent over a UCIe module, with the slot from which it may be performed (R444). -/
structure Transfer where
  due : Nat
  event : Event
  deriving DecidableEq, Repr

/-- An input: an event from outside, with the slot and the place in the slot's order at which it comes. -/
structure Input where
  slot : Nat
  turn : Nat
  event : Event
  deriving DecidableEq, Repr

/-- The whole package. -/
structure State where
  cores : Vector Core 136
  dies : Vector Die 2
  arrays : Vector WArray 16
  links : Vector Link 12
  remotes : List Remote
  /-- physical memory (R18) -/
  mem : Memory
  /-- poisoned physical lines (R294) -/
  poison : List Nat
  /-- lines with one correctable error injected (R440) -/
  correctable : List Nat
  tlb : List TlbEntry
  /-- stores that K loads may skip, newest first, and the next place in their order (R313) -/
  glog : List KStore
  gpos : Nat
  /-- host memory (R297) -/
  host : Memory
  /-- host lines that answer with an error (R297) -/
  hostErr : List Nat
  /-- host supervisor mailbox (R420, R449) -/
  mailbox : List TrapRec
  saved : List Saved
  images : List CtxImage
  arrImages : List ArrImage
  pairs : List Pair
  unpub : List Unpub
  sends : List Send
  hazelCache : List HazelEntry
  hazelRegions : List HazelRegion
  /-- transfers under way on the four UCIe modules, oldest first (R443, R444) -/
  ucie : Vector (List Transfer) 4
  /-- answers to the outside, newest first -/
  outbox : List Answer
  /-- STEPLEN, and the slots since the last step boundary (R405) -/
  steplen : Nat
  phase : Nat
  /-- slots of the slot clock (R9) -/
  clock : Nat
  gsc : Word
  /-- this module's CHIP identity (R392, R456) -/
  chipid : BitVec 16
  /-- version of the loaded Hazel, major in [31:16], minor in [15:0] (R109); 0 while none is loaded -/
  hazel : BitVec 32
  /-- the model's own: registration order, draws of free values, whose turn it is, due events, inputs, context -/
  seq : Nat
  draws : Nat
  turn : Nat
  agenda : List Event
  inbox : List Input
  ctx : Ctx
  deriving DecidableEq, Repr

/-- Why a step stops with a fault. -/
inductive Fault where
  /-- An event of the input list names a core, die, array, link, plane or queue that the package does not have; raised by
  the events' meanings. Safe: no such event exists. -/
  | noSuchUnit
  deriving DecidableEq, Repr

/-- Why a step is refused. -/
inductive Refusal where
  /-- An instruction without a meaning yet; raised by exec's arms only. Safe. -/
  | notModelled (mnemonic : String)
  deriving DecidableEq, Repr

/-! The state after reset. -/

def Nest.zero : Nest := ⟨Vector.replicate 6 0, Vector.replicate 6 0, 0, 0⟩

/-- A stream before any dispatch: what R64 gives a stream that starts, with no job (log entry 4). -/
def Strm.reset : Strm where
  used := false
  ended := false
  halted := false
  arrived := false
  pc := 0
  slots := 0
  s := Vector.replicate 32 0
  p := (Vector.replicate 128 0).set 0 (BitVec.allOnes 64)
  nests := Vector.replicate 8 Nest.zero
  blk := none
  taken := true
  lastLM := none
  mac := none
  pending := []
  armed := none
  wlim := 0
  wait := none
  seed := 1
  faults := []
  expl := none
  horizon := 0
  kseen := []
  draining := false
  idle := 0
  readyAt := 0
  fetchAt := 0
  arriving := []
  peerWait := none
  peerStores := []

def Queue.empty : Queue := ⟨none, none, []⟩
def Tokens.empty : Tokens := ⟨none, none, 0⟩
def ErrLog.empty : ErrLog := ⟨[], false, 0⟩
def Checkpoint.empty : Checkpoint := ⟨[], [], false⟩

/-- A temporal plane at dispatch (R259): every delay NEVER, every column MIN, Ready. -/
def Plane.reset : Plane := ⟨BitVec.allOnes 32768, 0, .ready, 0x20, 0, 0, 0, 0⟩
/-- Tile state at reset (R179). -/
def Tile.reset : Tile := ⟨Vector.replicate 16 0, Vector.replicate 8 0, 0x21, false, none, []⟩
def Tree.reset : Tree := ⟨false, [], 0, 0, [], 0⟩

/-- A core with no job (R64, R148, R227, R262, R379). -/
def Core.reset : Core where
  active := false
  lost := false
  jobid := 0
  asid := 0
  queue := 0
  slot := 0
  dispatched := 0
  raddr := 0
  saddr := 0
  fp := 0
  parent := 0
  dprio := 0
  bprio := 0
  eprio := 0
  dmr := 0x10000
  bib := 0
  bdepth := 1
  barPend := 0
  utvec := 0
  utrec := 0
  lodcnt := 0
  fflags := 0
  vtype := 0x9
  twin := 0x20
  cktol := 0x10
  xtlim := 0x10000
  streams := Vector.replicate 6 Strm.reset
  v := Vector.replicate 32 0
  sems := Vector.replicate 256 0
  queues := Vector.replicate 16 Queue.empty
  tileQ := []
  arrQ := []
  collQ := []
  linkQ := []
  copyQ := []
  outQ := []
  rngQ := []
  verQ := []
  copies := []
  tile := Tile.reset
  planes := Vector.replicate 16 Plane.reset
  tacaps := []
  divFree := 0
  bank := none
  handle := 0
  wouts := []
  wroom := 0
  wranges := []
  trees := Vector.replicate 4 Tree.reset
  tokens := Vector.replicate 8 Tokens.empty
  macros := Vector.replicate 64 []
  spad := []
  split := 0
  frame := 0
  fuse := 0
  spadPoison := []
  locked := []
  hostBuf := []
  hostCopies := []
  khor := []
  log := ErrLog.empty
  handler := none
  held := []
  stopped := none
  trapSlot := none
  aresSlot := none
  checkpoint := Checkpoint.empty
  request := none
  mismatch := false
  spcfg := none
  freeze := 0
  saving := false

/-- A queue after bring-up (R75). -/
def CQueue.reset : CQueue := ⟨false, false, 0, 0, 4, 0, 0, 0, 0, 0, 0⟩

/-- A die at reset: Winter, nothing installed (R75, R429, R448). -/
def Die.reset : Die where
  queues := Vector.replicate 64 CQueue.reset
  rr := 0
  selections := 0
  trace := ⟨0, 0, false, false, 0, 0, none⟩
  fused := 0
  log := ErrLog.empty
  holds := []
  locks := []
  barriers := []
  stvec := 0
  ptroot := 0
  spill := 0
  spillCap := 0
  plim := 0x10000
  trcbase := 0
  trclen := 0
  errcfg := 0x100
  leasemax := 0
  rlim := 0x100000
  state := 0
  ready := false
  hostirq := 0
  irqen := 0
  irqs := 0
  peers := []
  grants := []
  ctrs := []
  posts := []
  triggers := []
  window := none
  asidsel := 0
  peersel := 0
  layerReq := true
  layerOn := false
  layerMove := false
  bootStep := 0
  bootCode := 0
  records := []
  released := 0
  sweepEnd := none
  partials := []
  downs := []
  badLoads := []
  firmware := 0
  config := 0
  repairs := []
  trims := []
  identity := 0

/-- An Undefined region; what its settings hold until a definition is the model's choice (log entry 4). -/
def Region.undef : Region := ⟨.undef, 0, 0, 1, 1, 0, 0, 0x3F800000, false, false, false, false, [], 0, []⟩
def Bank.reset : Bank := ⟨none, 0, Vector.replicate 16 Region.undef, [], []⟩
def WArray.reset : WArray := ⟨none, none, [], 0, 0, [], false, [], 0, Vector.replicate 4 Bank.reset, [], [], [], []⟩

def Link.reset : Link := ⟨false, 0, false, 0, [], 0, 0, 0, [], 0, none⟩

def EvArgs.zero : EvArgs := ⟨0, 0, 0, 0, false, .none, none⟩

def Ctx.zero : Ctx := ⟨0, .cs, Head.zero, 0, 0, EvArgs.zero, none⟩

/-- The machine right after reset: both dies in Winter, no job on any core, every list empty. -/
def State.reset : State where
  cores := Vector.replicate 136 Core.reset
  dies := Vector.replicate 2 Die.reset
  arrays := Vector.replicate 16 WArray.reset
  links := Vector.replicate 12 Link.reset
  remotes := []
  mem := []
  poison := []
  correctable := []
  tlb := []
  glog := []
  gpos := 0
  host := []
  hostErr := []
  mailbox := []
  saved := []
  images := []
  arrImages := []
  pairs := []
  unpub := []
  sends := []
  hazelCache := []
  hazelRegions := []
  ucie := Vector.replicate 4 []
  outbox := []
  steplen := 1024
  phase := 0
  clock := 0
  gsc := 0
  chipid := 0
  hazel := 0
  seq := 0
  draws := 0
  turn := 0
  agenda := []
  inbox := []
  ctx := Ctx.zero

end Sys2Proof.Machine
end

