-- ==== Sys2Proof/Machine/Mem.lean ====
section
/-! DEFINITION. Memory as canonical lists of bytes, the physical address map (R18), and translation (R285 to R288). -/
namespace Sys2Proof.Machine

/-! Memory. -/

/-- The byte at an address; an unlisted address reads 0 (DESIGN CHOICE, log entry 5). -/
def Memory.read : Memory → Nat → Byte
  | [], _ => 0
  | (k, v) :: t, a => if k = a then v else Memory.read t a

/-- One byte written; writing 0 removes the entry (DESIGN CHOICE, log entry 5). -/
def Memory.write : Memory → Nat → Byte → Memory
  | [], a, b => if b = 0 then [] else [(a, b)]
  | (k, v) :: t, a, b =>
    if a < k then (if b = 0 then (k, v) :: t else (a, b) :: (k, v) :: t)
    else if a = k then (if b = 0 then t else (a, b) :: t)
    else (k, v) :: Memory.write t a b

/-- An address lies above a bound, if there is one. -/
def above : Option Nat → Nat → Bool
  | none, _ => true
  | some l, a => decide (l < a)

/-- Every entry's address is above `lo`, addresses rise strictly, and no entry holds 0. -/
def Memory.wfFrom : Option Nat → Memory → Bool
  | _, [] => true
  | lo, (k, v) :: t => above lo k && v != 0 && Memory.wfFrom (some k) t

/-- The canonical form (DESIGN CHOICE, log entry 5). -/
def Memory.wf (m : Memory) : Bool := Memory.wfFrom none m

/-- `n` bytes from an address on. -/
def Memory.readN (m : Memory) (a : Nat) : Nat → List Byte
  | 0 => []
  | n + 1 => m.read a :: Memory.readN m (a + 1) n

/-- Bytes written from an address on (DESIGN CHOICE, log entry 5). -/
def Memory.writeN (m : Memory) (a : Nat) : List Byte → Memory
  | [] => m
  | b :: t => Memory.writeN (m.write a b) (a + 1) t

/-- A range set to 0 (DESIGN CHOICE, log entry 5). -/
def Memory.clear (m : Memory) (a n : Nat) : Memory := m.filter (fun c => c.1 < a || a + n <= c.1)

/-- A range copied to another place: what the source lists, at the new addresses (DESIGN CHOICE, log entry 5). -/
def Memory.move (m : Memory) (src dst n : Nat) : Memory :=
  m.filter (fun c => c.1 < dst) ++
    (m.filter (fun c => src ≤ c.1 && c.1 < src + n)).map (fun c => (dst + (c.1 - src), c.2)) ++
    m.filter (fun c => dst + n ≤ c.1)

/-- Little-endian value of bytes. -/
def leNat : List Byte → Nat
  | [] => 0
  | b :: t => b.toNat + 256 * leNat t

/-- The low `n` bytes of a value, low first. -/
def leBytes (v : Nat) : Nat → List Byte
  | 0 => []
  | n + 1 => BitVec.ofNat 8 v :: leBytes (v / 256) n

/-- Bytes written over a long range: the range cut out, and its bytes that are not 0 put in (DESIGN CHOICE, log entry 5). -/
def Memory.splice (m : Memory) (a : Nat) (bs : List Byte) : Memory :=
  m.filter (fun c => c.1 < a) ++
    (bs.zipIdx.filterMap fun b => if b.1 = 0 then none else some (a + b.2, b.1)) ++
    m.filter (fun c => a + bs.length ≤ c.1)

/-! Physical memory (R18, R10, R459, R462). -/

/-- The layer that a stacked-DRAM or LPDDR address lies in: its die and what must be powered; none where R18 lists none. -/
inductive Tier where
  | layer0 (die : Fin 2)
  | layer1 (die : Fin 2)
  | lpddr (die : Fin 2)
  deriving DecidableEq, Repr

/-- Physical address map (R18). -/
def tierOf (pa : Nat) : Option Tier :=
  if pa < 0xC_0000_0000 then some (.layer0 0)
  else if pa < 0x18_0000_0000 then some (.layer1 0)
  else if pa < 0x20_0000_0000 then none
  else if pa < 0x2C_0000_0000 then some (.layer0 1)
  else if pa < 0x38_0000_0000 then some (.layer1 1)
  else if pa < 0x1000_0000_0000 then none
  else if pa < 0x1080_0000_0000 then some (.lpddr 0)
  else if pa < 0x1100_0000_0000 then none
  else if pa < 0x1180_0000_0000 then some (.lpddr 1)
  else none

/-- Is there memory at a physical address in the present service state (R10, R18, R459, R462)? -/
def State.physOk (s : State) (pa : Nat) : Bool :=
  match tierOf pa with
  | some (.layer0 d) => s.dies[d].state != 0
  | some (.layer1 d) => s.dies[d].state == 2 && s.dies[d].layerOn
  | some (.lpddr d) => s.dies[d].state == 2
  | none => false

/-- The die that homes a physical address (R17, R18); die 0 for an address without memory. -/
def homeDie (pa : Nat) : Fin 2 :=
  match tierOf pa with
  | some (.layer0 d) | some (.layer1 d) | some (.lpddr d) => d
  | none => 0

/-- An 8-byte read of physical memory, little-endian. -/
def State.pread8 (s : State) (pa : Nat) : Word := BitVec.ofNat 64 (leNat (s.mem.readN pa 8))

/-- A word that a copy has written and no XPUB has published meets a range of physical memory. -/
def Unpub.meets (u : Unpub) (pa n : Nat) : Bool := decide (pa < u.pa + 8) && decide (u.pa < pa + n)
/-- The same word after a store to a range: where they meet, the job's own loads may return either. -/
def Unpub.stored (pa n : Nat) (u : Unpub) : Unpub := if u.meets pa n then { u with sure := false } else u

/-- Physical bytes written by a job (JOBID) or another agent (0): one place in the order of stores (R309, R313); a line
written whole loses its poison (R294). -/
def State.pwriteN (s : State) (job : Word) (pa : Nat) (bs : List Byte) : State :=
  let n := bs.length
  { s with
    mem := s.mem.writeN pa bs
    poison := s.poison.filter (fun l => !(pa <= l && l + 64 <= pa + n))
    unpub := s.unpub.map (Unpub.stored pa n)
    glog := ⟨s.gpos, pa, s.mem.readN pa n, job⟩ :: s.glog
    gpos := s.gpos + 1 }

def State.pwrite8 (s : State) (pa : Nat) (v : Word) : State := s.pwriteN 0 pa (leBytes v.toNat 8)

/-! Translation. -/

/-- Kinds of access as permission and record know them (R286, R415). -/
inductive Acc where
  | load | store | atomic | fetch
  deriving DecidableEq, Repr

/-- The access kind of a trap record (R415). -/
def Acc.code : Acc → Nat
  | .load => 0 | .store => 1 | .atomic => 2 | .fetch => 3

/-- Trap causes (R414). -/
def cILLOP : Nat := 0x01
def cILLFIELD : Nat := 0x02
def cILLSTREAM : Nat := 0x03
def cPRIV : Nat := 0x04
def cILLTARGET : Nat := 0x05
def cILLBLOCK : Nat := 0x06
def cILLINC : Nat := 0x07
def cALIGN : Nat := 0x08
def cPAGE : Nat := 0x10
def cPROT : Nat := 0x11
def cSPRANGE : Nat := 0x12
def cHOSTERR : Nat := 0x13
def cPEERERR : Nat := 0x14
def cWAITLIMIT : Nat := 0x20
def cDEADLOCK : Nat := 0x21
def cWFTFULL : Nat := 0x22
def cLEASEREVOKED : Nat := 0x23
def cREDTIMEOUT : Nat := 0x24
def cLINKTIMEOUT : Nat := 0x25
def cREPLAYDIVERGE : Nat := 0x26
def cWFAVERSION : Nat := 0x30
def cWFAIMAGE : Nat := 0x31
def cWFAREGION : Nat := 0x32
def cCKSFAIL : Nat := 0x33
def cTASTATE : Nat := 0x34
def cMEMUE : Nat := 0x40
def cCHECKER : Nat := 0x41
def cVBUSFAIL : Nat := 0x42
def cTRAPI : Nat := 0x50
def cPREEMPT : Nat := 0x51

/-- A leaf found by a walk: the entry, where it stands, and the physical address of the byte. -/
structure Leaf where
  pte : Word
  entry : Nat
  pa : Nat
  block : Bool
  deriving DecidableEq, Repr

/-- Bits of a PTE (R285). -/
def pteV (e : Word) : Bool := e.getLsbD 0
def pteT (e : Word) : Bool := e.getLsbD 1
def pteR (e : Word) : Bool := e.getLsbD 2
def pteW (e : Word) : Bool := e.getLsbD 3
def pteX (e : Word) : Bool := e.getLsbD 4
def pteU (e : Word) : Bool := e.getLsbD 5
def pteG (e : Word) : Bool := e.getLsbD 6
def pteA (e : Word) : Bool := e.getLsbD 7
def pteD (e : Word) : Bool := e.getLsbD 8
def pteACC (e : Word) : Bool := e.getLsbD 9
def pteNC (e : Word) : Bool := e.getLsbD 10
def pteRsv (e : Word) : Bool := (e.extractLsb' 11 5) != 0
def pteFrame (e : Word) : Nat := (e.extractLsb' 16 32).toNat

/-- The root table's entry of the ASID directory (R429). -/
def dirRoot (e : Word) : Nat := (e.extractLsb' 9 39).toNat * 512

/-- The page walk (R285); PMem reads outside memory raise PROT. -/
def State.walk (s : State) (ptroot : Nat) (asid : Nat) (va : Nat) : Except Nat Leaf :=
  let rd (pa : Nat) (k : Word → Except Nat Leaf) : Except Nat Leaf :=
    if s.physOk pa then k (s.pread8 pa) else .error cPROT
  rd (ptroot + 8 * asid) fun dir =>
  if !pteV dir then .error cPAGE else
  rd (dirRoot dir + 8 * (va / 2 ^ 42 % 64)) fun e1 =>
  if !pteV e1 then .error cPAGE else
  if !pteT e1 || pteRsv e1 then .error cPROT else
  let a2 := pteFrame e1 * 65536 + 8 * (va / 2 ^ 29 % 8192)
  rd a2 fun e2 =>
  if !pteV e2 then .error cPAGE else
  if pteRsv e2 then .error cPROT else
  if !pteT e2 then
    if pteFrame e2 % 8192 != 0 then .error cPROT
    else .ok ⟨e2, a2, pteFrame e2 * 65536 + va % 2 ^ 29, true⟩
  else
    let a3 := pteFrame e2 * 65536 + 8 * (va / 2 ^ 16 % 8192)
    rd a3 fun e3 =>
    if !pteV e3 then .error cPAGE else
    if pteT e3 || pteRsv e3 then .error cPROT
    else .ok ⟨e3, a3, pteFrame e3 * 65536 + va % 65536, false⟩

/-! TLBs (R288). -/

/-- A system core (R21): it runs in supervisor mode (DEDUCED, log entry 41). -/
def isSystem (c : CoreId) : Bool := decide (128 ≤ c.val)
/-- The die of a core (R11). -/
def dieOf (c : CoreId) : Fin 2 :=
  if c.val < 64 then 0 else if c.val < 128 then 1 else if c.val < 132 then 0 else 1
/-- The cluster of the package that a core lies in: 8 * die + cluster (R11). -/
def clusterOf (c : CoreId) : Nat := c.val / 8

/-- Who translates: a stream of a core, with its engines' commands, or a unit of a die. -/
inductive Walker where
  | strm (c : CoreId) (i : StreamId)
  | die (d : Fin 2)
  deriving DecidableEq, Repr

def Walker.home : Walker → Fin 2
  | .strm c _ => dieOf c
  | .die d => d

/-- The TLBs that a walker looks in and fills (R12, R288). -/
def Walker.tlbs : Walker → List TlbPlace
  | .strm c i => .strm c i :: ((if isSystem c then [] else [.cluster (clusterOf c)]) ++ [.die (dieOf c)])
  | .die d => [.die d]

/-- Entries that a TLB holds (R12, R288). -/
def TlbPlace.size : TlbPlace → Nat
  | .strm _ .cs => 128
  | .strm _ _ => 64
  | .cluster _ => 2048
  | .die _ => 4096

/-- Does an entry cover an address of an ASID? A G entry matches every ASID. -/
def TlbEntry.covers (t : TlbEntry) (asid va : Nat) : Bool :=
  (t.asid.toNat == asid || pteG t.pte) && t.vpn == (if t.block then va / 2 ^ 29 else va / 65536)

/-- The translation that an entry gives of an address it covers. -/
def TlbEntry.leaf (t : TlbEntry) (va : Nat) : Leaf :=
  ⟨t.pte, t.entry, t.pa + (if t.block then va % 2 ^ 29 else va % 65536), t.block⟩

/-- A leaf as a TLB keeps it. -/
def Leaf.entryFor (l : Leaf) (p : TlbPlace) (asid va : Nat) : TlbEntry :=
  let n := if l.block then 2 ^ 29 else 65536
  ⟨p, BitVec.ofNat 13 asid, l.pte, l.entry, l.block, va / n, l.pa - va % n⟩

/-- An entry put into its TLB; a full TLB loses one of its entries, which one being a free choice (DEDUCED, log entry 9). -/
def State.tlbFill (s : State) (e : TlbEntry) : State :=
  if s.tlb.contains e then s else
  let mates := s.tlb.filter fun t => t.place == e.place
  if mates.length < e.place.size then { s with tlb := e :: s.tlb } else
  match mates[Config.freeChoice s.draws % mates.length]? with
  | some x => { s with tlb := e :: s.tlb.erase x, draws := s.draws + 1 }
  | none => { s with tlb := e :: s.tlb }

/-- A translation that a walker has used is in its TLBs, whatever becomes of the access. -/
def State.tlbNote (s : State) (w : Walker) (asid va : Nat) (l : Leaf) : State :=
  w.tlbs.foldl (fun s p => s.tlbFill (l.entryFor p asid va)) s

/-- The entry's content without the A and D bits. -/
def pteKey (e : Word) : Word := e &&& ~~~(0x180 : Word)

/-- Does an entry give another translation than the tables now do? An A or D bit that the tables have and the entry lacks makes
no difference. -/
def TlbEntry.differs (t : TlbEntry) (va : Nat) : Except Nat Leaf → Bool
  | .error _ => true
  | .ok l =>
    !(pteKey t.pte == pteKey l.pte && t.entry == l.entry && t.block == l.block && (t.leaf va).pa == l.pa &&
      t.pte &&& ~~~l.pte == 0)

/-- Entries of a walker's TLBs for an address that differ from what the tables now hold (R288) (DEDUCED, log entry 9). -/
def State.stale (s : State) (w : Walker) (asid va : Nat) (fresh : Except Nat Leaf) : List TlbEntry :=
  s.tlb.filter fun t => w.tlbs.contains t.place && t.covers asid va && t.differs va fresh

/-- The translation that an access to one page uses: the tables', or an older one that a TLB of the walker holds (a free choice,
R288) (DEDUCED, log entry 9). -/
def State.lookup (s : State) (w : Walker) (asid va : Nat) : State × Except Nat Leaf :=
  let fresh := s.walk s.dies[w.home].ptroot.toNat asid va
  let used : State × Except Nat Leaf :=
    match s.stale w asid va fresh with
    | [] => (s, fresh)
    | old =>
      ({ s with draws := s.draws + 1 },
        match old[Config.freeChoice s.draws % (old.length + 1)]? with
        | some t => .ok (t.leaf va)
        | none => fresh)
  match used with
  | (s1, .ok l) => (s1.tlbNote w asid va l, .ok l)
  | (s1, .error e) => (s1, .error e)

/-- An engine stream's TLB looks ahead to the page after those of an access (R288); this marks nothing (R287). -/
def State.lookAhead (s : State) (w : Walker) (asid va : Nat) : State :=
  match w with
  | .strm _ .cs | .die _ => s
  | .strm _ _ =>
    if 2 ^ 48 ≤ va then s else
    match s.walk s.dies[w.home].ptroot.toNat asid va with
    | .ok l => s.tlbNote w asid va l
    | .error _ => s

/-- May the access use the leaf (R285, R286)? Prefetches check as loads. -/
def permits (user : Bool) (acc : Acc) (e : Word) : Bool :=
  (!user || pteU e) && !(pteACC e && pteNC e) &&
  (match acc with
   | .load => pteR e
   | .store => pteW e
   | .atomic => pteR e && pteW e
   | .fetch => pteX e)

/-- A translated piece of an access: virtual and physical address, length within one page, and the leaf. -/
structure Piece where
  va : Nat
  pa : Nat
  len : Nat
  leaf : Leaf
  deriving DecidableEq, Repr

/-- The pieces of an access, page by page; the first page that fails decides (cause and address). -/
def State.pieces (w : Walker) (asid : Nat) (user : Bool) (acc : Acc) :
    Nat → State → Nat → Nat → State × Except (Nat × Nat) (List Piece)
  | 0, s, _, _ => (s, .ok [])
  | fuel + 1, s, va, n =>
    if n = 0 then (s, .ok []) else
    let m := min n (65536 - va % 65536)
    match s.lookup w asid va with
    | (s1, .error c) => (s1, .error (c, va))
    | (s1, .ok l) =>
      if !permits user acc l.pte || !s1.physOk l.pa then (s1, .error (cPROT, va)) else
      match State.pieces w asid user acc fuel s1 (va + m) (n - m) with
      | (s2, .error e) => (s2, .error e)
      | (s2, .ok t) => (s2, .ok (⟨va, l.pa, m, l⟩ :: t))

/-- The bits that an access sets in a leaf entry (R287). -/
def Acc.marks : Acc → Word
  | .store | .atomic => 0x180
  | .load | .fetch => 0x80

/-- A and D set for a translation that lacks them (R287): by an OR into the entry where the walk found it, and in the walker's
TLBs. -/
def State.markLeaf (s : State) (w : Walker) (acc : Acc) (l : Leaf) : State :=
  let bits := acc.marks
  if l.pte &&& bits = bits then s else
  let now := s.pread8 l.entry
  let s1 := if now &&& bits = bits then s else s.pwrite8 l.entry (now ||| bits)
  { s1 with tlb := s1.tlb.map fun t =>
      if w.tlbs.contains t.place && t.entry == l.entry && t.pte == l.pte then { t with pte := t.pte ||| bits } else t }

/-- A and D set in the leaf entries of an access that has passed every check (R287). -/
def State.mark (s : State) (w : Walker) (acc : Acc) (ps : List Piece) : State :=
  ps.foldl (fun s p => s.markLeaf w acc p.leaf) s

/-- Translate an access of `n` bytes in an ASID of the walker's die (R279, steps 2 and 3): range, then every page. -/
def State.xlate (s : State) (w : Walker) (asid : Nat) (user : Bool) (acc : Acc) (va : Int) (n : Nat) :
    State × Except (Nat × Nat) (List Piece) :=
  if va < 0 ∨ (2 : Int) ^ 48 < va + n then (s, .error (cPROT, (va % (2 : Int) ^ 64).toNat))
  else
    match s.pieces w asid user acc (n / 65536 + 2) va.toNat n with
    | (s1, .ok ps) => (s1.lookAhead w asid ((va.toNat + n + 65535) / 65536 * 65536), .ok ps)
    | (s1, .error e) => (s1, .error e)

/-- The bytes of translated pieces. -/
def State.readPieces (s : State) : List Piece → List Byte
  | [] => []
  | p :: t => s.mem.readN p.pa p.len ++ s.readPieces t

/-- Bytes written over translated pieces. -/
def State.writePieces (job : Word) : State → List Piece → List Byte → State
  | s, [], _ => s
  | s, p :: t, bs => State.writePieces job (s.pwriteN job p.pa (bs.take p.len)) t (bs.drop p.len)

end Sys2Proof.Machine
end

