-- ==== Sys2Proof/Machine/Ops.lean ====
section
/-! DEFINITION. The named operations over a core's and a stream's state: registers and their writes in both latency modes
(R51, R93 to R96), the advance of a stream, header checks (R32), taking a trap and returning from one (R414 to R421). -/
namespace Sys2Proof.Machine

/-! Access paths. -/

def State.core (s : State) (c : CoreId) : Core := s.cores[c]
def State.setCore (s : State) (c : CoreId) (k : Core) : State := { s with cores := s.cores.set c k }
def Core.strm (k : Core) (i : StreamId) : Strm := k.streams[i.fin]
def Core.setStrm (k : Core) (i : StreamId) (t : Strm) : Core := { k with streams := k.streams.set i.fin t }
def State.strm (s : State) (c : CoreId) (i : StreamId) : Strm := (s.core c).strm i
def State.setStrm (s : State) (c : CoreId) (i : StreamId) (t : Strm) : State := s.setCore c ((s.core c).setStrm i t)
def State.die (s : State) (d : Fin 2) : Die := s.dies[d]
def State.setDie (s : State) (d : Fin 2) (x : Die) : State := { s with dies := s.dies.set d x }

/-- The core whose instruction is executing. -/
def State.me (s : State) : Core := s.core s.ctx.core
def State.setMe (s : State) (k : Core) : State := s.setCore s.ctx.core k
/-- The stream whose instruction is executing. -/
def State.str (s : State) : Strm := s.me.strm s.ctx.strm
def State.setStr (s : State) (t : Strm) : State := s.setMe (s.me.setStrm s.ctx.strm t)

/-- The number of a core within its die. -/
def localOf (c : CoreId) : Nat := if c.val < 128 then c.val % 64 else (c.val - 128) % 4
/-- COREID as trap records and CSRs give it (R11, R429); a system core, to which R11 gives no number, reads as 64 * die + n
(DESIGN CHOICE, log entry 41). -/
def coreid (c : CoreId) : Nat := if c.val < 128 then c.val else 64 * ((c.val - 128) / 4) + (c.val - 128) % 4
/-- Core `i` of a die. -/
def coreAt (d : Fin 2) (i : Nat) : CoreId := ⟨64 * d.val + i % 64, by omega⟩
/-- System core `i` of a die. -/
def systemAt (d : Fin 2) (i : Nat) : CoreId := ⟨128 + 4 * d.val + i % 4, by omega⟩
/-- A core's position in its cluster (R11). -/
def posOf (c : CoreId) : Nat := c.val % 8

/-- The address of the instruction or engine command that makes an access. -/
def State.accPc (s : State) (c : CoreId) (i : StreamId) : Word :=
  match s.ctx.cmd with
  | some x => x.1
  | none => (s.strm c i).pc

/-- The slot in which the instruction or engine command that makes an access issued: program order in its stream. -/
def State.accSlot (s : State) : Nat :=
  match s.ctx.cmd with
  | some x => x.2
  | none => s.clock

def State.myDie (s : State) : Die := s.die (dieOf s.ctx.core)
def State.setMyDie (s : State) (x : Die) : State := s.setDie (dieOf s.ctx.core) x
/-- The executing code runs in supervisor mode (R420, R430) (DEDUCED, log entry 41). -/
def State.sup (s : State) : Bool := isSystem s.ctx.core

/-- The executing stream as a walker. -/
def State.walker (s : State) : Walker := .strm s.ctx.core s.ctx.strm

/-! Registers. -/

/-- Does the executing stream run an exposed block (R95)? -/
def State.exposed (s : State) : Bool :=
  match s.str.blk with
  | some b => b.lm
  | none => false

/-- s[n]; s0 reads 0 (R51). -/
def State.getS (s : State) (n : BitVec 5) : Word := if n = 0 then 0 else s.str.s[n.toFin]
/-- All lanes that a stream has in a predicate: 64 in the VS, lane 0 elsewhere (R51, R125). -/
def laneMask (i : StreamId) : BitVec 64 :=
  match i with
  | .vs => BitVec.allOnes 64
  | .cs | .ts | .as | .ws | .xs => 1
/-- p[n], a lane mask; p0 reads true (R51). -/
def State.getP (s : State) (n : BitVec 7) : BitVec 64 :=
  if n = 0 then laneMask s.ctx.strm else s.str.p[n.toFin]
/-- v[n] of the core (R159). -/
def State.getV (s : State) (n : BitVec 5) : VWord := s.me.v[n.toFin]

def Strm.putS (t : Strm) (n : BitVec 5) (v : Word) : Strm := if n = 0 then t else { t with s := t.s.set n.toFin v }
def Strm.putP (t : Strm) (n : BitVec 7) (v : BitVec 64) : Strm := if n = 0 then t else { t with p := t.p.set n.toFin v }

/-- A word with the masked bits replaced. -/
def merge {w : Nat} (old val mask : BitVec w) : BitVec w := (old &&& ~~~mask) ||| (val &&& mask)

/-- The descriptor that five registers and an offset describe (R118), packed as a pending write keeps it: the registers in
order from bit 0, the offset above them. -/
def nestPack (x0 x1 x2 x3 x4 : Word) (o : BitVec 32) : VWord :=
  (o ++ x4 ++ x3 ++ x2 ++ x1 ++ x0 : BitVec 352).setWidth 2048
def nestUnpack (v : VWord) : Nest where
  b := #v[v.extractLsb' 0 16, v.extractLsb' 16 16, v.extractLsb' 32 16, v.extractLsb' 48 16, v.extractLsb' 64 16,
    v.extractLsb' 80 16]
  d := #v[v.extractLsb' 128 32, v.extractLsb' 160 32, v.extractLsb' 192 32, v.extractLsb' 224 32, v.extractLsb' 256 32,
    v.extractLsb' 288 32]
  r := v.extractLsb' 96 5
  o := v.extractLsb' 320 32

/-- A register write taking effect on a core: the destination's masked bits, and the flags it raises (R95, R144). -/
def Core.apply (k : Core) (i : StreamId) (w : Pend) : Core :=
  let k1 := { k with fflags := k.fflags ||| w.flags }
  let t := k1.strm i
  match w.dest with
  | .s n => k1.setStrm i (t.putS n (w.val.setWidth 64))
  | .p n => k1.setStrm i (t.putP n (merge t.p[n.toFin] (w.val.setWidth 64) (w.mask.setWidth 64)))
  | .v n => { k1 with v := k1.v.set n.toFin (merge k1.v[n.toFin] w.val w.mask) }
  | .nest n => k1.setStrm i { t with nests := t.nests.set n.toFin (nestUnpack w.val) }

/-- A write put into its place among others: by the slot at which they take effect, then by issue (R95). -/
def insertDue (w : Pend) : List Pend → List Pend
  | [] => [w]
  | x :: t => if w.due < x.due || (w.due == x.due && w.issued < x.issued) then w :: x :: t else x :: insertDue w t

def inDueOrder (l : List Pend) : List Pend := l.foldl (fun acc w => insertDue w acc) []

/-- The destination of an instruction that the WS executes itself (R234). -/
def Cmd.dest (x : Cmd) : Dest :=
  match x.code.instr with
  | .wcoll f | .wver f => .s f.d
  | _ => .s 0

/-- A result that has arrived is held back: one of the WS's own instructions that issued before it has the same destination and has not
completed (R94, R234). -/
def Core.heldBack (k : Core) (w : Pend) : Bool :=
  w.behind && (k.outQ ++ k.rngQ ++ k.verQ).any fun (x : Cmd) => x.dest == w.dest && decide (x.slot < w.issued)

/-- Has a result landed by a slot of the clock? -/
def Core.landed (k : Core) (clock : Nat) (w : Pend) : Bool := decide (w.due ≤ clock) && !k.heldBack w

/-- The writes of a stream that take effect now, in their order: results that arrived in earlier slots of the clock; then the writes
due at the stream's slot and the results that arrive in this slot of the clock, by issue (R95, R96). -/
def Core.dueWrites (k : Core) (i : StreamId) (clock : Nat) : List Pend :=
  let t := k.strm i
  let here := t.arriving.filter (k.landed clock)
  inDueOrder (here.filter fun w => w.due < clock) ++
  inDueOrder ((t.pending.filter fun w => w.due ≤ t.slots) ++
    (here.filter fun w => w.due == clock).map fun w => { w with due := t.slots })

/-- The stream with the writes still to come after those. -/
def Core.laterWrites (k : Core) (i : StreamId) (clock : Nat) : Strm :=
  let t := k.strm i
  { t with pending := t.pending.filter fun w => t.slots < w.due, arriving := t.arriving.filter fun w => !k.landed clock w }

/-- The writes of a stream that are due take effect (R95, R96). -/
def Core.applyDue (k : Core) (i : StreamId) (clock : Nat) : Core :=
  (k.dueWrites i clock).foldl (fun k w => k.apply i w) (k.setStrm i (k.laterWrites i clock))

/-- A register write of a fixed-latency instruction: at once in a scoreboard block (R94), at its stream slot in an exposed
one (R95). -/
def State.put (s : State) (lat : Nat) (dest : Dest) (mask val : VWord) (flags : BitVec 5) : State :=
  let w : Pend := ⟨s.str.slots + lat, s.clock, dest, mask, val, flags, false⟩
  if s.exposed then s.setStr { s.str with pending := s.str.pending ++ [w] }
  else s.setMe (s.me.apply s.ctx.strm w)

/-- s[n] written with a latency. -/
def State.putS (s : State) (lat : Nat) (n : BitVec 5) (v : Word) : State :=
  s.put lat (.s n) (BitVec.allOnes 2048) (v.setWidth 2048) 0
/-- One draw of a free value is used up (DESIGN CHOICE, log entry 3). -/
def State.drawn (s : State) : State := { s with draws := s.draws + 1 }

/-- Slots within which a result of variable latency arrives (DESIGN CHOICE, log entry 8). -/
def latencyBound : Nat := 2 ^ 20

/-- The write of a variable-latency instruction (R93, R96, R280): it arrives `least` slots of the clock from now or later, after
a free number of slots. -/
def State.arrive (s : State) (least : Nat) (dest : Dest) (mask val : VWord) (flags : BitVec 5) : State :=
  let w : Pend := ⟨s.clock + least + Config.freeDelay s.draws % latencyBound, s.clock, dest, mask, val, flags, false⟩
  (s.setStr { s.str with arriving := s.str.arriving ++ [w] }).drawn

/-- A result put among those that are to land in the order of their issue: none lands before an older one of its destination
(R94, R234). -/
def insertBehind (w : Pend) (l : List Pend) : List Pend :=
  let mate (x : Pend) : Bool := x.behind && x.dest == w.dest
  let due := l.foldl (fun n x => if mate x && decide (x.issued ≤ w.issued) then max n x.due else n) w.due
  (l.map fun x => if mate x && decide (w.issued < x.issued) then { x with due := max x.due due } else x) ++ [{ w with due := due }]

/-- The write of s[n] by an instruction of the WS that issued in a slot and completes now (R234): it arrives after a free number of
slots, in a scoreboard block behind the older ones of its destination (R94). -/
def State.arriveOwn (s : State) (slot : Nat) (lm : Bool) (n : BitVec 5) (v : Word) : State :=
  let w : Pend :=
    ⟨s.clock + 1 + Config.freeDelay s.draws % latencyBound, slot, .s n, BitVec.allOnes 2048, v.setWidth 2048, 0, !lm⟩
  (s.setStr { s.str with arriving := if lm then s.str.arriving ++ [w] else insertBehind w s.str.arriving }).drawn
/-- s[n] written by a variable-latency instruction. -/
def State.arriveS (s : State) (n : BitVec 5) (v : Word) : State :=
  s.arrive 1 (.s n) (BitVec.allOnes 2048) (v.setWidth 2048) 0
/-- p[n] written in the given lanes; lanes a stream lacks stay false (R125). -/
def State.putP (s : State) (lat : Nat) (n : BitVec 7) (mask v : BitVec 64) : State :=
  s.put lat (.p n) ((mask &&& laneMask s.ctx.strm).setWidth 2048) (v.setWidth 2048) 0
/-- v[n] written under a bit mask, with the flags the operation raises. -/
def State.putV (s : State) (lat : Nat) (n : BitVec 5) (mask v : VWord) (flags : BitVec 5) : State :=
  s.put lat (.v n) mask v flags
/-- v[n] written by a variable-latency instruction under a bit mask, with the flags it raises. -/
def State.arriveV (s : State) (n : BitVec 5) (mask v : VWord) (flags : BitVec 5) : State :=
  s.arrive 1 (.v n) mask v flags

/-- The guard (R34): lane 0 of p[G], which is what the VS evaluates for its other instructions too. -/
def State.guard (s : State) : Bool := (s.getP (s.ctx.head.g.setWidth 7)).getLsbD 0
/-- The guard as a lane mask, for vector instructions (R34, R160). -/
def State.lanes (s : State) : BitVec 64 := s.getP (s.ctx.head.g.setWidth 7)

/-! Advancing. -/

/-- The stream moves past an instruction of `len` halfwords with a stall count: it advances one slot, and its idle slots follow
(R92); inside a macro the next operation is next, and after the last one MCALL's own idle slots follow (R116). -/
def Strm.advance (t : Strm) (clock len st : Nat) : Strm :=
  let t1 := { t with
    slots := t.slots + 1, idle := st, readyAt := clock + 1, wait := none, draining := false, peerWait := none }
  match t.mac with
  | none => { t1 with pc := t.pc + BitVec.ofNat 64 (2 * len) }
  | some m =>
    if m.idx + 1 < m.ops.length then { t1 with mac := some { m with idx := m.idx + 1 } }
    else { t1 with mac := none, pc := t.pc + BitVec.ofNat 64 (2 * m.len), idle := st + m.st }

/-- One idle stream slot (R92): a stall count's, or one of a settle (R97). -/
def Strm.idleSlot (t : Strm) (clock : Nat) : Strm :=
  { t with slots := t.slots + 1, idle := t.idle - 1, readyAt := clock + 1 }

/-- The executing instruction has issued and completed. -/
def State.retire (s : State) : State :=
  s.setStr (s.str.advance s.clock s.ctx.len s.ctx.head.st.toNat)

/-- A taken transfer (R101, R103): the block is left; the target's first word issues 3 slots later at the earliest. -/
def State.transfer (s : State) (target : Word) : State :=
  let t := s.str
  s.setStr { t with
    pc := target, blk := none, taken := true, mac := none, slots := t.slots + 1, idle := s.ctx.head.st.toNat
    readyAt := s.clock + 1, fetchAt := s.clock + 3, wait := none, draining := false, peerWait := none }

/-! Code fetch and headers. -/

/-- Bytes of code at a virtual address of a core's job (R285, R286). -/
def State.fetch (s : State) (c : CoreId) (i : StreamId) (va : Nat) (n : Nat) : State × Except (Nat × Nat) (List Byte) :=
  match s.xlate (.strm c i) (s.core c).asid.toNat (!isSystem c) .fetch va n with
  | (s1, .error e) => (s1, .error e)
  | (s1, .ok ps) =>
    let s2 := s1.mark (.strm c i) .fetch ps
    (s2, .ok (s2.readPieces ps))

/-- Step 1 of R32: bits of a valid block header. -/
def headerBits (h : BitVec 32) : Bool := h.extractLsb' 0 8 == 1

/-- A header read for a transfer's target (R31): its 32 bits, or the fault. An odd target, and bits that fail step 1, raise
ILL_TARGET. -/
def State.target (s : State) (c : CoreId) (i : StreamId) (va : Word) : State × Except (Nat × Nat) (BitVec 32) :=
  if va.getLsbD 0 then (s, .error (cILLTARGET, va.toNat)) else
  match s.fetch c i va.toNat 4 with
  | (s1, .error e) => (s1, .error e)
  | (s1, .ok bs) =>
    let h := BitVec.ofNat 32 (leNat bs)
    (s1, if headerBits h then .ok h else .error (cILLTARGET, va.toNat))

/-! Traps. -/

/-- What an instruction or command says of the trap it raises. -/
structure TrapSpec where
  cause : Nat
  addr : Word := 0
  kind : Nat := 0
  space : Nat := 0
  precise : Bool := true
  eng : Bool := false
  pc : Option Word := none
  /-- the record takes the place in a macro from here: of a queued command, or of an instruction that its stream has gone on past -/
  own : Bool := false
  midx : Nat := 0
  inmac : Bool := false
  detail : List Word := []
  deriving DecidableEq, Repr

/-- The record of a trap of a stream (R415). -/
def State.mkRecord (s : State) (c : CoreId) (i : StreamId) (t : TrapSpec) : TrapRec :=
  let k := s.core c
  let x := k.strm i
  { cause := t.cause
    strm := i
    precise := t.precise
    esc := false
    nest := false
    recf := false
    eng := t.eng
    midx := if t.eng || t.own then t.midx else match x.mac with | some m => m.idx | none => 0
    inmac := if t.eng || t.own then t.inmac else x.mac.isSome
    pc := t.pc.getD x.pc
    jobid := k.jobid
    addr := t.addr
    kind := t.kind
    space := t.space
    halted := i == .as && t.precise && (t.cause == cPAGE || t.cause == cPROT || t.cause == cALIGN || t.cause == cSPRANGE ||
      t.cause == cHOSTERR || t.cause == cPEERERR || t.cause == cMEMUE || t.cause == cLINKTIMEOUT)
    slots := x.slots
    gsc := s.gsc
    core := coreid c
    detail := t.detail }

/-- The 128 bytes of a record (R415). -/
def TrapRec.words (r : TrapRec) : List Word :=
  let b (x : Bool) (n : Nat) : Nat := if x then 2 ^ n else 0
  let w0 := r.cause % 256 + r.strm.num * 256 + b r.precise 11 + b r.esc 12 + b r.nest 13 + b r.recf 14 + b r.eng 15 +
    r.midx % 32 * 65536 + b r.inmac 21
  let w4 := r.kind % 4 + r.space % 8 * 4 + b r.halted 5
  [BitVec.ofNat 64 w0, r.pc, r.jobid, r.addr, BitVec.ofNat 64 w4, BitVec.ofNat 64 r.slots, r.gsc,
    BitVec.ofNat 64 (r.core % 128)] ++ (r.detail ++ List.replicate 8 0).take 8

def TrapRec.bytes (r : TrapRec) : List Byte := r.words.flatMap fun w => leBytes w.toNat 8

/-- Causes that go to the supervisor first (R414). -/
def supervisorFirst (cause : Nat) : Bool :=
  cause == cPAGE || cause == cREPLAYDIVERGE || cause == cCHECKER || cause == cVBUSFAIL || cause == cPREEMPT

/-- An idle system core of the die starts at ENTRY with s1 naming the record's slot (R420) (DEDUCED, log entry 41). -/
def State.startSystem (s : State) (d : Fin 2) (entry slot : Word) : State :=
  match (List.range 4).find? fun i => !(s.core (systemAt d i)).active && (s.core (systemAt d i)).stopped.isNone with
  | none => s
  | some i =>
    let c := systemAt d i
    let k := s.core c
    let t := k.strm .cs
    s.setCore c ({ k with active := true }.setStrm .cs ({ t with
      used := true, ended := false, halted := false, arrived := false, pc := entry, blk := none, taken := true
      lastLM := none, mac := none, pending := [], arriving := [], armed := none, wait := none, idle := 0, fetchAt := 0
      peerWait := none, readyAt := s.clock + 1 }.putS 1 slot))

/-- Records that wait for the die's supervisor are written to its ring while it has room (R420). -/
def State.flushRecords (d : Fin 2) : List TrapRec → State → State
  | [], s => s
  | r :: t, s =>
    let vec := (s.die d).stvec.toNat
    let n := (s.pread8 (vec + 16)).toNat % 2 ^ 17
    let wc := (s.pread8 (vec + 24)).toNat
    let ack := (s.pread8 (vec + 48)).toNat
    if vec = 0 then State.flushRecords d t { s with mailbox := s.mailbox ++ [r] }
    else if n = 0 || n <= (wc + 2 ^ 64 - ack) % 2 ^ 64 then s.setDie d { s.die d with records := r :: t }
    else
      let slot := (s.pread8 (vec + 8)).toNat + 128 * (wc % n)
      let s1 := (s.pwriteN 0 slot r.bytes).pwrite8 (vec + 24) (BitVec.ofNat 64 (wc + 1))
      State.flushRecords d t (s1.startSystem d (s1.pread8 vec) (BitVec.ofNat 64 slot))

/-- A record sent to the die's supervisor (R420): to its ring, or to the host's mailbox while no vector is installed. -/
def State.postSupervisor (s : State) (d : Fin 2) (r : TrapRec) : State :=
  let rs := (s.die d).records ++ [r]
  State.flushRecords d rs (s.setDie d { s.die d with records := [] })

/-- The stream's wait is withdrawn; its instruction stays unexecuted, and a stream at a NODE has not arrived (R350, R84). -/
def Strm.withdraw (t : Strm) : Strm := { t with wait := none, draining := false, arrived := false, peerWait := none }

/-- A job stopped by a supervisor trap (R420). -/
def State.stopJob (s : State) (c : CoreId) (r : TrapRec) : State :=
  (s.setCore c { s.core c with stopped := some r }).postSupervisor (dieOf c) r

/-- An entry popped by mistake goes back to the head of its queue; what LDGQ.lk locked for the entries behind it moves with them. -/
def Core.unpop (k : Core) (n : Nat) (v : VWord) : Core :=
  let q := k.queues.toList[n]?.getD Queue.empty
  { k with
    queues := k.queues.setIfInBounds n { q with entries := ⟨v, true, 0⟩ :: q.entries }
    locked := k.locked.map fun l => if l.queue == n then { l with entry := l.entry + 1 } else l }

/-- What a withdrawn wait has done so far is undone (R350, R304, R299): the index that GATHQ popped returns to the head of its
queue (`phys` holds the index, above it the queue), and an SPCFG under way is given up. -/
def Core.undoWait (k : Core) : Option Wait → Core
  | none => k
  | some w =>
    match w.kind with
    | .queue => if w.stage = 0 then k else k.unpop (w.phys / 2 ^ 64) (BitVec.ofNat 2048 (w.phys % 2 ^ 64))
    | .spcfg => { k with spcfg := none }
    | .sem | .bar | .lock | .token | .node | .lease | .mcast | .link | .expl | .lklim | .opn => k

/-- A wait that an event has satisfied and whose instruction has yet to complete (R355). -/
def settledWait : Option Wait → Option Wait
  | none => none
  | some w => if w.grant.isSome then some w else none

/-- The CS enters handler mode at UTVEC (R416, R417): writes that are due have taken effect, the pending ones are kept (R421); results
of variable latency go on to arrive, and the handler interlocks on them (R94, R96). -/
def Core.enterHandler (k0 : Core) (r : TrapRec) (clock : Nat) : Core :=
  let k := k0.applyDue .cs clock
  let t := k.strm .cs
  let f : Frame := ⟨t.pc, t.blk, t.taken, t.lastLM, t.mac, t.pending, t.slots, settledWait t.wait, t.armed, t.idle, t.fetchAt⟩
  { if f.wait.isSome then k else k.undoWait t.wait with handler := some ⟨r, f, none⟩ }.setStrm .cs { t with
    pc := k.utvec, blk := none, taken := true, lastLM := none, mac := none, pending := [], slots := 0, wait := none, armed := none, idle := 0
    fetchAt := 0, arrived := false, draining := false, peerWait := none, readyAt := clock + 1 }

/-- A user trap is delivered (R416): the first case that applies escalates it, else its record is written at UTREC and the CS
enters handler mode. -/
def State.userTrap (s : State) (c : CoreId) (r : TrapRec) : State :=
  let k := s.core c
  if (k.strm .cs).ended then s.stopJob c r
  else if k.utvec = 0 then s.stopJob c r
  else if k.utrec = 0 then s.stopJob c { r with recf := true }
  else
    match s.xlate (.strm c .cs) k.asid.toNat true .store k.utrec.toNat 128 with
    | (s1, .error _) => s1.stopJob c { r with recf := true }
    | (s1, .ok ps) =>
      let s2 := State.writePieces k.jobid (s1.mark (.strm c .cs) .store ps) ps r.bytes
      match s2.target c .cs k.utvec with
      | (s3, .error _) => s3.stopJob c r
      | (s3, .ok _) => s3.setCore c ((s3.core c).enterHandler r s3.clock)

/-- The request of a core's job has stood for PLIM slots, and this has had no effect yet (R423) (DEDUCED, log entry 32). -/
def State.plimReached (s : State) (c : CoreId) : Bool :=
  let k := s.core c
  let lim := (s.die (dieOf c)).plim.toNat
  k.active && !isSystem c && k.stopped.isNone && lim != 0 && k.request.any fun r => !r.spent && decide (lim ≤ r.count)

/-- Taking a trap of stream `i` of core `c` (R416, R419, R420, R290, R449). The trapping stream keeps its program counter
and loses its wait. A supervisor's own trap goes to the host's mailbox and its core stops. A trap of a stopped job is held. A
supervisor-first cause stops the job at once, handler mode or not, but a PAGE of the AS halts the AS alone. Any other cause is
held while a trap of the job is being handled (one raised by the handler itself escalates with NEST), and in a slot in which PREEMPT
is to be taken (R423); and else goes to the user. -/
def State.deliver (s : State) (c : CoreId) (i : StreamId) (r : TrapRec) : State :=
  let k := s.core c
  if isSystem c then
    { s.setCore c { k with stopped := some r, active := false } with mailbox := s.mailbox ++ [r] }
  else if k.stopped.isSome then s.setCore c { k with held := k.held ++ [r] }
  else if supervisorFirst r.cause then
    let r1 := { r with nest := k.handler.isSome }
    if r.cause = cPAGE && i = .as then
      (s.setStrm c i { s.strm c i with halted := true }).postSupervisor (dieOf c) r1
    else s.stopJob c r1
  else match k.handler with
    | some _ =>
      if i = .cs && !r.eng then s.stopJob c { r with nest := true }
      else s.setCore c { k with held := k.held ++ [r] }
    | none => if s.plimReached c then s.setCore c { k with held := k.held ++ [r] } else s.userTrap c r

/-- A stream's wait is withdrawn (R350). -/
def State.withdraw (s : State) (c : CoreId) (i : StreamId) : State :=
  let k := (s.core c).undoWait (s.strm c i).wait
  s.setCore c (k.setStrm i (k.strm i).withdraw)

/-- A trap is raised (R416): the instruction has no effect, its stream's wait is withdrawn, its record is made
(DEDUCED, log entry 17). -/
def State.raise (s : State) (c : CoreId) (i : StreamId) (t : TrapSpec) : State :=
  let r := s.mkRecord c i t
  (s.withdraw c i).deliver c i r

/-- A trap of the instruction that a stream issues: the job's other streams still issue in this slot, so that several may trap in
it (R419) (DEDUCED, log entry 17). -/
def State.raiseOwn (s : State) (c : CoreId) (i : StreamId) (t : TrapSpec) : State :=
  let k := s.core c
  let s1 := s.raise c i t
  if k.handler.isSome || k.stopped.isSome then s1 else
    let k1 := s1.core c
    let t := k1.strm i
    s1.setCore c { k1.setStrm i { t with readyAt := max t.readyAt (s.clock + 1) } with trapSlot := some s.clock }

/-- Held traps are raised, oldest first, as far as they can be (R418, R419). -/
def State.raiseHeld (s : State) (c : CoreId) : State :=
  match (s.core c).held with
  | [] => s
  | r :: t => (s.setCore c { s.core c with held := t }).deliver c r.strm r

/-- Every stream of a core issues again from a slot on. -/
def Core.thaw (k : Core) (slot : Nat) : Core :=
  { k with streams := k.streams.map fun t => { t with readyAt := max t.readyAt slot } }

/-- The trapping stream is placed at its resume point (R418): the block SETH named; after a TRAP the next word; otherwise
the trapping instruction. SETH's block starts at pass 0 with the loop state cleared (R433). -/
def Strm.resumeAt (t : Strm) (seth : Option Word) (cause : Nat) : Strm :=
  match seth with
  | some a => { t with pc := a, blk := none, taken := true, mac := none, armed := none, idle := 0, fetchAt := 0 }
  | none =>
    if cause = cTRAPI then
      match t.mac with
      | none => { t with pc := t.pc + 4 }
      | some m =>
        if m.idx + 1 < m.ops.length then { t with mac := some { m with idx := m.idx + 1 } }
        else { t with mac := none, pc := t.pc + BitVec.ofNat 64 (2 * m.len), idle := m.st }
    else t

/-- The CS takes back its handler frame (R418): the handler's own pending writes take effect (DEDUCED, log entry 17). -/
def Core.restoreFrame (k0 : Core) (f : Frame) : Core :=
  let k := (inDueOrder (k0.strm .cs).pending).foldl (fun k w => k.apply .cs w) k0
  let t := k.strm .cs
  k.setStrm .cs { t with
    pc := f.pc, blk := f.blk, taken := f.taken, lastLM := f.lastLM, mac := f.mac, pending := f.pending, slots := f.slots
    wait := f.wait, armed := f.armed, idle := f.idle, fetchAt := f.fetchAt, draining := false }

/-- The head command that a record names stands trapped no longer; SETH's block leaves out an instruction of the WS or a TACAP that
was still outstanding (R234, R264, R433). -/
def Core.untrap (k : Core) (r : TrapRec) (seth : Bool) : Core :=
  let free (l : List Cmd) : List Cmd := l.map fun x => if x.trapped && x.pc == r.pc then { x with trapped := false } else x
  let out (l : List Cmd) : List Cmd :=
    match l with
    | [] => []
    | x :: t => if x.trapped && x.pc == r.pc then (if seth then t else { x with trapped := false } :: t) else x :: t
  if r.eng then
    { k with tileQ := if r.strm == .ts then free k.tileQ else k.tileQ
             arrQ := if r.strm == .ws then free k.arrQ else k.arrQ
             collQ := if r.strm == .xs then free k.collQ else k.collQ
             linkQ := if r.strm == .xs then free k.linkQ else k.linkQ
             copyQ := if r.strm == .as then free k.copyQ else k.copyQ }
  else if r.strm == .ws then { k with outQ := out k.outQ, rngQ := out k.rngQ, verQ := out k.verQ }
  else if r.strm == .vs then
    let names (t : Tacap) : Bool := t.trapped && t.pc == r.pc
    { k with tacaps := if seth then k.tacaps.filter fun t => !names t else k.tacaps.map fun t => if names t then { t with trapped := false } else t }
  else k

/-- Ending handler mode (R418), in one event: the frame restored, the trapping stream at its resume point, every stream
unfrozen in the next slot, then the held traps. -/
def State.leaveHandler (s : State) (c : CoreId) : State :=
  match (s.core c).handler with
  | none => s
  | some h =>
    let k := { s.core c with handler := none }.restoreFrame h.frame
    let k1 := if h.record.eng then k else k.setStrm h.record.strm ((k.strm h.record.strm).resumeAt h.seth h.record.cause)
    (s.setCore c ((k1.untrap h.record h.seth.isSome).thaw (s.clock + 1))).raiseHeld c

end Sys2Proof.Machine
end

