-- ==== Sys2Proof/Machine/Waits.lean ====
section
/-! DEFINITION. The wait-for table (R345 to R356): who waits, who holds, closed sets, effective priorities, and registration
of a wait. Waits stand in the streams and at the heads of the engine queues; the table is what these functions read off. -/
namespace Sys2Proof.Machine

def WaitKind.code : WaitKind → Nat
  | .sem => 0 | .bar => 1 | .lock => 2 | .queue => 3 | .token => 4 | .node => 5 | .lease => 6 | .mcast => 7
  | .link => 8 | .spcfg => 9 | .expl => 10 | .lklim => 11 | .opn => 12

/-- The kind of a code of R346; codes above 12 read as .open. -/
def WaitKind.ofCode : Nat → WaitKind
  | 0 => .sem | 1 => .bar | 2 => .lock | 3 => .queue | 4 => .token | 5 => .node | 6 => .lease | 7 => .mcast
  | 8 => .link | 9 => .spcfg | 10 => .expl | 11 => .lklim | _ => .opn

/-- All cores and all streams, in order. -/
def allCores : List CoreId := List.finRange 136
def allStreams : List StreamId := [.cs, .vs, .ts, .as, .ws, .xs]

/-- The command queues that a stream feeds (R183, R233, R328, R375, R404). -/
def engsOf : StreamId → List Eng
  | .cs | .vs => []
  | .ts => [.tile]
  | .as => [.copy]
  | .ws => [.arr, .out, .rng, .ver]
  | .xs => [.coll, .link]
/-- The stream that feeds a queue. -/
def Eng.strm : Eng → StreamId
  | .tile => .ts | .arr => .ws | .coll => .xs | .link => .xs | .copy => .as | .out => .ws | .rng => .ws | .ver => .ws
/-- The queues in the order of the streams that feed them: those of the TS and the AS, then those of the WS and the XS (R419). -/
def lowEngs : List Eng := [.tile, .copy]
def highEngs : List Eng := [.arr, .out, .rng, .ver, .coll, .link]
def allEngs : List Eng := lowEngs ++ highEngs
def Eng.num : Eng → Nat
  | .tile => 0 | .arr => 1 | .coll => 2 | .link => 3 | .copy => 4 | .out => 5 | .rng => 6 | .ver => 7
def Eng.ofNum : Nat → Eng
  | 0 => .tile | 1 => .arr | 2 => .coll | 3 => .link | 4 => .copy | 5 => .out | 6 => .rng | _ => .ver
/-- Instructions that the WS executes itself, whose trap is the stream's own (R234). -/
def Eng.own : Eng → Bool
  | .out | .rng | .ver => true
  | .tile | .arr | .coll | .link | .copy => false

/-- A command queue, its head first. -/
def Core.cmds (k : Core) : Eng → List Cmd
  | .tile => k.tileQ | .arr => k.arrQ | .coll => k.collQ | .link => k.linkQ | .copy => k.copyQ | .out => k.outQ
  | .rng => k.rngQ | .ver => k.verQ
def Core.setCmds (k : Core) (e : Eng) (l : List Cmd) : Core :=
  match e with
  | .tile => { k with tileQ := l }
  | .arr => { k with arrQ := l }
  | .coll => { k with collQ := l }
  | .link => { k with linkQ := l }
  | .copy => { k with copyQ := l }
  | .out => { k with outQ := l }
  | .rng => { k with rngQ := l }
  | .ver => { k with verQ := l }
/-- The head command of a queue. -/
def Core.headCmd (k : Core) (e : Eng) : Option Cmd := (k.cmds e).head?
/-- The head command changed. -/
def Core.mapHead (k : Core) (e : Eng) (f : Cmd → Cmd) : Core :=
  match k.cmds e with
  | [] => k
  | x :: t => k.setCmds e (f x :: t)

/-- The registered waits that the engine commands of a stream make (R348). -/
def Core.engineWaits (k : Core) (i : StreamId) : List (Eng × Wait) :=
  (engsOf i).filterMap fun e => ((k.headCmd e).bind (·.wait)).map fun w => (e, w)

/-- Every command queue that a stream feeds is empty, and no capture that it waits for is outstanding (R97); a settle waits for an
outstanding TACAP or WCOLL without advancing the stream's count (DESIGN CHOICE, log entry 18). -/
def Core.enginesIdle (k : Core) (i : StreamId) : Bool :=
  ((engsOf i).all fun e => (k.cmds e).isEmpty) && (i != .vs || k.tacaps.isEmpty)

/-- Every engine command of a stream but the copy engine's has performed its accesses (R324). -/
def Core.enginesFenced (k : Core) (i : StreamId) : Bool := i == .as || i == .vs || k.enginesIdle i

/-- A wait with the one who waits. -/
structure Waiter where
  core : CoreId
  strm : StreamId
  /-- the engine whose head command waits; none: the stream itself -/
  eng : Option Eng
  w : Wait
  deriving DecidableEq, Repr

/-- Room and contents of a queue (R343). -/
def queueDepth (q : Nat) : Nat := if q < 8 then 16 else 4

/-- Has an event made the wait's condition true (R355)? A granted wait, and a queue, token or barrier wait whose object now
lets it go on. -/
def Core.satisfied (k : Core) (w : Wait) : Bool :=
  w.grant.isSome ||
  match w.kind with
  | .queue =>
    let q := k.queues.toList[w.obj / 2]?.getD Queue.empty
    if w.obj % 2 = 0 then !q.entries.isEmpty
    else q.entries.length < queueDepth (w.obj / 2)
  | .token =>
    let t := k.tokens.toList[w.obj / 2]?.getD Tokens.empty
    if w.obj % 2 = 0 then 0 < t.count else t.count < 64
  | .bar => !k.barPend.getLsbD w.obj
  | .node => allStreams.all fun i => let t := k.strm i; !t.used || t.ended || t.arrived
  | .sem | .lock | .lease | .mcast | .link | .spcfg | .expl | .lklim | .opn => false

/-- The registered waits of one core that stand unsatisfied: the streams', their explicit registrations, and those of their
engine commands. -/
def Core.waiters (k : Core) (c : CoreId) : List Waiter :=
  if !k.active then [] else
  allStreams.flatMap fun i =>
    let t := k.strm i
    let own := (t.wait.toList.filter fun w => w.reg && !k.satisfied w).map fun w => (⟨c, i, none, w⟩ : Waiter)
    let ex := if t.ended then [] else t.expl.toList.map fun w => (⟨c, i, none, w⟩ : Waiter)
    let en := ((k.engineWaits i).filter fun x => x.2.reg && !k.satisfied x.2).map fun x => (⟨c, i, some x.1, x.2⟩ : Waiter)
    if t.used then own ++ ex ++ en else []

def State.waiters (s : State) : List Waiter := allCores.flatMap fun c => (s.core c).waiters c

/-- One who can end a wait: a stream or a job on a core, or a saved job (by its place in the list) or a stream of it. -/
inductive Holder where
  | strm (c : CoreId) (i : StreamId)
  | job (c : CoreId)
  | saved (n : Nat) (i : Option StreamId)
  deriving DecidableEq, Repr

/-- Which of its holders a wait needs (R346). -/
inductive Needs where
  | one | any | all | opn
  deriving DecidableEq, Repr

/-- Level and domain number of a DMR (R73). -/
def dmrLevel (d : Word) : Nat := (d.extractLsb' 0 2).toNat
def dmrDomid (d : Word) : Nat := (d.extractLsb' 8 8).toNat
def dmrCount (d : Word) : Nat := (d.extractLsb' 16 16).toNat

/-- "DMR layout" (R73): reserved bits zero and COUNT in its level's range. -/
def dmrOk (d : Word) : Bool :=
  let n := dmrCount d
  d.extractLsb' 32 32 == 0 && d.extractLsb' 2 6 == 0 && 1 <= n &&
  n <= (match dmrLevel d with | 0 => 1 | 1 => 8 | 2 => 64 | _ => 128)

/-- Where a domain of a level lies for a job on a core: the job alone, the cluster, the die, the package (R73). -/
def domainPlace (level : Nat) (c : CoreId) : Nat :=
  match level with
  | 0 => c.val
  | 1 => clusterOf c
  | 2 => (dieOf c).val
  | _ => 0

/-- Two jobs are members of one domain (R73). -/
def sameDomain (k1 : Core) (c1 : CoreId) (k2 : Core) (c2 : CoreId) : Bool :=
  k1.asid == k2.asid && dmrLevel k1.dmr == dmrLevel k2.dmr && dmrDomid k1.dmr == dmrDomid k2.dmr &&
  domainPlace (dmrLevel k1.dmr) c1 == domainPlace (dmrLevel k2.dmr) c2

/-- A job by its JOBID, wherever it is: on a core, or saved. -/
inductive JobPlace where
  | core (c : CoreId)
  | saved (n : Nat)
  | gone
  deriving DecidableEq, Repr

def State.jobPlace (s : State) (jobid : Word) : JobPlace :=
  match allCores.find? fun c => (s.core c).active && !isSystem c && (s.core c).jobid == jobid with
  | some c => .core c
  | none =>
    match (s.saved.zipIdx).find? fun x => x.1.core.jobid == jobid with
    | some x => .saved x.2
    | none => .gone

/-- A change to a job wherever it is. -/
def State.onJob (s : State) (jobid : Word) (f : Core → Core) : State :=
  match s.jobPlace jobid with
  | .core c => s.setCore c (f (s.core c))
  | .saved n => { s with saved := s.saved.mapIdx fun m x => if m = n then { x with core := f x.core } else x }
  | .gone => s

/-- The job's core, or its saved form. -/
def State.jobCore (s : State) (jobid : Word) : Option Core :=
  match s.jobPlace jobid with
  | .core c => some (s.core c)
  | .saved n => (s.saved[n]?).map (·.core)
  | .gone => none

/-- A stream of a job by JOBID, wherever the job is. -/
def State.holderOf (s : State) (jobid : Word) (i : StreamId) : Option Holder :=
  match allCores.find? fun c => (s.core c).active && !isSystem c && (s.core c).jobid == jobid with
  | some c => some (.strm c i)
  | none => ((s.saved.zipIdx).find? fun x => x.1.core.jobid == jobid).map fun x => .saved x.2 (some i)

/-- The live stream that a held lock's word names (R338, R340). -/
def State.lockOwner (s : State) (word : Word) : Option Holder :=
  if !word.getLsbD 63 then none else
  let i := (word.extractLsb' 48 3).toNat
  if 6 ≤ i then none else
  match s.holderOf ((word.extractLsb' 0 41).setWidth 64) (StreamId.ofNum i) with
  | some (.strm c k) => if (s.strm c k).used && !(s.strm c k).ended then some (.strm c k) else none
  | h => h

/-- Declarations (R369) that name an object of a job on a core: a semaphore is that of one job; a link counter or a value is shared
by the jobs of an ASID on the die (R346). -/
def State.declarations (s : State) (k : Core) (c : CoreId) (kind : WaitKind) (obj : Nat) : List Holding :=
  (s.die (dieOf c)).holds.filter fun h =>
    h.kind == kind && h.obj == obj && (if kind == .sem then h.jobid == k.jobid else h.asid == k.asid)

/-- Streams that declared themselves holders of an object (R369). -/
def State.declared (s : State) (k : Core) (c : CoreId) (kind : WaitKind) (obj : Nat) : List Holder :=
  (s.declarations k c kind obj).filterMap fun h => s.holderOf h.jobid h.strm

/-- The core whose job holds the lease of its cluster's array (R223). -/
def State.lessee (s : State) (c : CoreId) : Option CoreId :=
  match s.arrays.toList[clusterOf c]? with
  | some a => a.lease
  | none => none

/-- Does a command read for a multicast of a tag (R191)? -/
def Cmd.isMcast (x : Cmd) (tag : Nat) : Bool :=
  match x.code.instr with
  | .tld f => f.of 9 1 == 1 && f.of 10 4 == tag
  | _ => false

/-- Members of the multicast at a core's head that have not issued their TLD of the tag (R191). -/
def State.mcastMissing (s : State) (c : CoreId) (tag : Nat) : List CoreId :=
  match ((s.core c).tileQ.head?) with
  | none => []
  | some cmd =>
    if !cmd.isMcast tag then [] else
    let set := cmd.more.head?.getD 0
    (List.range 8).filterMap fun p =>
      if h : 8 * clusterOf c + p < 136 then
        let c' : CoreId := ⟨8 * clusterOf c + p, h⟩
        if set.getLsbD p && !(((s.core c').tileQ.head?).any fun x => x.stage == 16 + tag) && c' != c then some c' else none
      else none

/-- The holders of a wait of a job and what it needs of them (R346); `own` names the job's streams as holders. -/
def State.holdersOf (s : State) (k : Core) (c : CoreId) (own : StreamId → Holder) (w : Wait) : Needs × List Holder :=
  let orOpen (l : List Holder) : Needs × List Holder := if l.isEmpty then (.opn, []) else (.any, l)
  let bound (b : Option StreamId) : Needs × List Holder :=
    match b with
    | some i => (.one, [own i])
    | none => (.opn, [])
  match w.kind with
  | .sem => orOpen (s.declared k c .sem w.obj)
  | .link => orOpen (s.declared k c .link w.obj)
  | .expl => orOpen (s.declared k c .expl w.obj)
  | .bar =>
    let live := allCores.filterMap fun c' =>
      let k' := s.core c'
      if k'.active && !isSystem c' && sameDomain k c k' c' && !k'.barPend.getLsbD w.obj then some (Holder.job c') else none
    let off := (s.saved.zipIdx).filterMap fun x =>
      if sameDomain k c x.1.core x.1.origin && !x.1.core.barPend.getLsbD w.obj then some (Holder.saved x.2 none) else none
    (.all, live ++ off)
  | .lock =>
    match s.lockOwner (s.pread8 w.phys) with
    | some h => (.one, [h])
    | none => (.opn, [])
  | .queue =>
    let q := k.queues.toList[w.obj / 2]?.getD Queue.empty
    bound (if w.obj % 2 = 0 then q.prod else q.cons)
  | .token =>
    let t := k.tokens.toList[w.obj / 2]?.getD Tokens.empty
    bound (if w.obj % 2 = 0 then t.prod else t.cons)
  | .node => (.all, (allStreams.filter fun i => let t := k.strm i; t.used && !t.ended && !t.arrived).map own)
  | .lease =>
    match s.lessee c with
    | some c' => if c' == c then (.opn, []) else (.one, [.job c'])
    | none =>
      match ((s.arrays.toList[clusterOf c]?).bind (·.keeper)).bind fun j => s.holderOf j .ws with
      | some (.strm c' _) => (.one, [.job c'])
      | some h => (.one, [h])
      | none => (.opn, [])
  | .mcast => (.all, (s.mcastMissing c w.obj).map fun c' => Holder.strm c' .ts)
  | .lklim => orOpen ((k.locked.filterMap fun l => (k.queues.toList[l.queue]?.getD Queue.empty).cons).map own)
  | .spcfg | .opn => (.opn, [])

/-- The holders of a wait on a core. -/
def State.holders (s : State) (c : CoreId) (w : Wait) : Needs × List Holder := s.holdersOf (s.core c) c (.strm c) w

/-- A stream is frozen by a trap of its job (R416, R420). -/
def Core.frozen (k : Core) (i : StreamId) : Bool := k.stopped.isSome || (k.handler.isSome && i != .cs)

/-- The current waits of a stream among a set: its own or its explicit registration, or in a drain its engine commands'
(R347, R348). -/
def State.stuck (s : State) (set : List Waiter) (c : CoreId) (i : StreamId) : Bool :=
  let k := s.core c
  let t := k.strm i
  k.active && t.used && !t.ended && !t.halted && !k.frozen i &&
  (if t.draining then
     let es := (k.engineWaits i).filter fun x => x.2.reg && !k.satisfied x.2
     !es.isEmpty && es.all fun x => set.contains ⟨c, i, some x.1, x.2⟩
   else
     set.any fun x => x.core == c && x.strm == i && x.eng.isNone)

def State.holderStuck (s : State) (set : List Waiter) : Holder → Bool
  | .strm c i => s.stuck set c i
  | .job c =>
    (s.core c).active &&
    allStreams.all fun i => let t := (s.core c).strm i; !t.used || t.ended || s.stuck set c i
  | .saved _ _ => false

/-- The rule of a wait's kind within a set (R347). -/
def State.closedAt (s : State) (set : List Waiter) (x : Waiter) : Bool :=
  let (needs, hs) := s.holders x.core x.w
  match needs with
  | .one => hs.any (s.holderStuck set)
  | .any => hs.all (s.holderStuck set)
  | .all => hs.any (s.holderStuck set)
  | .opn => false

/-- The largest closed subset of a set of waits: waits that break their rule are taken out until none does
(DEDUCED, log entry 15). -/
def State.closedSubset (s : State) : Nat → List Waiter → List Waiter
  | 0, set => set
  | fuel + 1, set =>
    let next := set.filter (s.closedAt set)
    if next.length = set.length then set else State.closedSubset s fuel next

/-- The waits of a holder. -/
def State.waitsOf (s : State) (all : List Waiter) : Holder → List Waiter
  | .strm c i => all.filter fun x => x.core == c && x.strm == i && (x.eng.isSome == (s.strm c i).draining)
  | .job c => all.filter fun x => x.core == c && (x.eng.isSome == (s.strm c x.strm).draining)
  | .saved _ _ => []

/-- The waits reached from some waits within a number of holder steps, in walk order (R349, R351) (DEDUCED, log entry 15). -/
def State.reached (s : State) (all : List Waiter) : Nat → List Waiter → List Waiter → List Waiter
  | 0, _, acc => acc
  | fuel + 1, front, acc =>
    let next := (front.flatMap fun x => (s.holders x.core x.w).2.flatMap (s.waitsOf all)).foldl
      (fun l x => if acc.contains x || l.contains x then l else l ++ [x]) []
    if next.isEmpty then acc else State.reached s all fuel next (acc ++ next)

/-- The closed set that contains a wait, within the reach of a registration (R349); empty when there is none
(DEDUCED, log entry 14; DEDUCED, log entry 15). -/
def State.closedSet (s : State) (x : Waiter) : List Waiter :=
  match (s.holders x.core x.w).1 with
  | .opn => []
  | .one | .any | .all =>
    let all := s.waiters
    let reach := s.reached all 64 [x] [x]
    let set := s.closedSubset reach.length reach
    if set.contains x then set else []

/-- Word 0 of a member entry (R351). -/
def memberWord (jobid : Word) (i kind : Nat) : Word :=
  BitVec.ofNat 64 (jobid.toNat % 2 ^ 41 + i % 8 * 2 ^ 48 + kind % 16 * 2 ^ 56)

/-- The detail of a DEADLOCK record (R351): the set's members in walk order, the first three of them. -/
def State.deadlockDetail (s : State) (set : List Waiter) (sweep ended : Bool) : List Word :=
  let n := min 3 set.length
  let head := n + (if 3 < set.length then 256 else 0) + (if sweep then 512 else 0) + (if ended then 1024 else 0)
  BitVec.ofNat 64 head ::
    (set.take 3).flatMap fun x =>
      [memberWord (s.core x.core).jobid x.strm.num x.w.kind.code, BitVec.ofNat 64 x.w.obj]

/-- The detail of a WAIT_LIMIT record (R351). -/
def State.waitLimitDetail (s : State) (x : Waiter) : List Word :=
  let first := (s.holders x.core x.w).2.head?
  let hw : Word × Word := match first with
    | none => (0, 0)
    | some (.strm c i) =>
      let t := s.strm c i
      (memberWord (s.core c).jobid i.num (match t.wait with | some w => w.kind.code | none => 0), t.pc)
    | some (.job c) =>
      let t := s.strm c .cs
      (memberWord (s.core c).jobid 0 (match t.wait with | some w => w.kind.code | none => 0), t.pc)
    | some (.saved n i) =>
      match s.saved[n]? with
      | some x => (memberWord x.core.jobid (i.getD .cs).num 0, (x.core.strm (i.getD .cs)).pc)
      | none => (0, 0)
  [BitVec.ofNat 64 x.w.kind.code, BitVec.ofNat 64 x.w.obj, BitVec.ofNat 64 x.w.count, hw.1, hw.2]

/-- The explicit registrations of saved jobs, which their saves keep (R356): the job's place in the list, and the wait. -/
def State.savedWaits (s : State) : List (Nat × Saved × Wait) :=
  s.saved.zipIdx.flatMap fun x =>
    allStreams.filterMap fun i =>
      let t := x.1.core.strm i
      if t.used && !t.ended then t.expl.map fun w => (x.2, x.1, w) else none

/-- Entries of a die's table in use (R345, R353): waits, declarations, lock holdings, and what saves keep. -/
def State.tableUsed (s : State) (d : Fin 2) : Nat :=
  ((allCores.filter fun c => dieOf c == d).map fun c => ((s.core c).waiters c).length).sum +
  (s.savedWaits.filter fun x => dieOf x.2.1.origin == d).length +
  (s.die d).holds.length + (s.die d).locks.length

/-- Is the die's table, spill area included, full (R353)? -/
def State.tableFull (s : State) (d : Fin 2) : Bool := decide (4096 + (s.die d).spillCap ≤ s.tableUsed d)

/-- The single holder of a queue or token wait that has ended (R344). -/
def State.endedHolder (s : State) (c : CoreId) (w : Wait) : Option (CoreId × StreamId) :=
  match w.kind, (s.holders c w).2 with
  | .queue, [.strm c' i] | .token, [.strm c' i] => if (s.strm c' i).ended then some (c', i) else none
  | _, _ => none

/-- Detection at a new registration (R349, R350, R344): the trap that it raises, if it does, in the state with the wait made. -/
def State.register (s : State) (c : CoreId) (i : StreamId) (eng : Option Eng) (w : Wait) : Option TrapSpec :=
  let x : Waiter := ⟨c, i, eng, w⟩
  if (s.endedHolder c w).isSome then some { cause := cDEADLOCK, detail := s.deadlockDetail [x] false true } else
  match s.closedSet x with
  | [] => none
  | set => some { cause := cDEADLOCK, detail := s.deadlockDetail set false false }

/-- A wait that begins now, under its stream's limit (R119, R345, R354). -/
def State.newWait (s : State) (c : CoreId) (i : StreamId) (kind : WaitKind) (obj phys stage : Nat) (reg : Bool) : Wait :=
  ⟨kind, obj, phys, s.seq, 0, none, stage, reg, s.clock, (s.strm c i).wlim.toNat⟩

/-- A wait stands already, and no event has satisfied it. -/
def Wait.is (w : Wait) (kind : WaitKind) (obj stage : Nat) (reg : Bool) : Bool :=
  w.kind == kind && w.obj == obj && w.stage == stage && w.reg == reg && w.grant.isNone

/-- A wait of the executing stream: kept when it stands already; else registered, which withdraws the stream's explicit
registration first (R368); a drain that came before it is over (R348). A full table refuses it (R353). Answers the state and the trap
that the registration raises, if it does. -/
def State.block (s : State) (kind : WaitKind) (obj phys stage : Nat) (reg : Bool) : State × Option TrapSpec :=
  let t := s.str
  if t.wait.any fun w => w.is kind obj stage reg then (s, none) else
  let w := s.newWait s.ctx.core s.ctx.strm kind obj phys stage reg
  let s1 := { s with seq := s.seq + 1 }
  let t1 := { t with wait := some w, expl := none, draining := false }
  if !reg then (s1.setStr t1, none) else
  if (s1.setStr { t1 with wait := none }).tableFull (dieOf s.ctx.core) then
    (s, some { cause := cWFTFULL })
  else
    let placed := s1.setStr t1
    (placed, placed.register s.ctx.core s.ctx.strm none w)

/-! Effective priority (R80, R352). -/

/-- E_(k+1) from E_k: each job takes the largest of its base priority and those of the jobs that wait on it. -/
def eprioStep (base : Nat → Nat) (edges : List (Nat × Nat)) (e : Nat → Nat) (j : Nat) : Nat :=
  (edges.filter fun x => x.2 == j).foldl (fun m x => max m (e x.1)) (base j)

/-- E_k of every job, as a list by job index (DEDUCED, log entry 15). -/
def eprioIter (base : List Nat) (edges : List (Nat × Nat)) : Nat → List Nat
  | 0 => base
  | k + 1 =>
    let e := eprioIter base edges k
    (List.range base.length).map fun j => eprioStep (fun i => base[i]?.getD 0) edges (fun i => e[i]?.getD 0) j

/-- The job index of a holder: cores first, saved jobs after them. -/
def Holder.job? : Holder → Nat
  | .strm c _ => c.val
  | .job c => c.val
  | .saved n _ => 136 + n

/-- Who waits on whom, by job index: what waits on cores, and the explicit registrations of saved jobs. -/
def State.holderEdges (s : State) : List (Nat × Nat) :=
  (s.waiters.flatMap fun x => (s.holders x.core x.w).2.map fun h => (x.core.val, h.job?)) ++
  s.savedWaits.flatMap fun x =>
    (s.holdersOf x.2.1.core x.2.1.origin (fun i => .saved x.1 (some i)) x.2.2).2.map fun h => (136 + x.1, h.job?)

/-- EPRIO of every job recomputed: E_16 over the registered waits (DEDUCED, log entry 15). -/
def State.updateEprio (s : State) : State :=
  let base := (allCores.map fun c => (s.core c).bprio.toNat) ++ s.saved.map fun x => x.core.bprio.toNat
  let edges := s.holderEdges
  let e := if edges.isEmpty then base else eprioIter base edges 16
  { s with
    cores := s.cores.mapFinIdx fun n k _ => { k with eprio := BitVec.ofNat 3 (e[n]?.getD 0) }
    saved := s.saved.mapIdx fun n x => { x with core := { x.core with eprio := BitVec.ofNat 3 (e[136 + n]?.getD 0) } } }

/-! Semaphores. -/

def Core.sem (k : Core) (n : Nat) : Nat := (k.sems.toList[n]?.getD 0).toNat
def Core.setSem (k : Core) (n : Nat) (v : Nat) : Core := { k with sems := k.sems.setIfInBounds n (BitVec.ofNat 32 v) }

/-- A waiter on a semaphore: a stream, or the head command of an engine. -/
inductive SemWaiter where
  | strm (i : StreamId)
  | eng (e : Eng)
  deriving DecidableEq, Repr

/-- The waiters on a semaphore with their registration numbers (R333). -/
def Core.semWaiters (k : Core) (n : Nat) : List (Nat × SemWaiter) :=
  let is (w : Option Wait) : Option Nat :=
    match w with
    | some w => if w.kind == .sem && w.obj == n && w.grant.isNone then some w.seq else none
    | none => none
  let strms := allStreams.filterMap fun i => (is (k.strm i).wait).map fun q => (q, SemWaiter.strm i)
  strms ++ allEngs.filterMap fun e => ((k.headCmd e).bind fun c => is c.wait).map fun q => (q, SemWaiter.eng e)

/-- The earliest of some registrations. -/
def earliest : List (Nat × SemWaiter) → Option (Nat × SemWaiter)
  | [] => none
  | x :: t =>
    match earliest t with
    | none => some x
    | some y => if x.1 ≤ y.1 then some x else some y

/-- Units of a semaphore serve its waiters in order of registration, in the event that raised it (R333). -/
def Core.serveSem (k : Core) (n : Nat) : Nat → Core
  | 0 => k
  | fuel + 1 =>
    if k.sem n = 0 then k else
    match earliest (k.semWaiters n) with
    | none => k
    | some (_, x) =>
      let old := k.sem n
      let k1 := k.setSem n (old - 1)
      let k2 := match x with
        | .strm i =>
          let t := k1.strm i
          k1.setStrm i { t with wait := t.wait.map (fun (w : Wait) => { w with grant := some (BitVec.ofNat 64 old) }) }
        | .eng e => k1.mapHead e fun (x : Cmd) => { x with unit := true, wait := none }
      k2.serveSem n fuel

/-- A semaphore raised, saturating (R332), and its waiters served. -/
def Core.signal (k : Core) (n amount : Nat) : Core :=
  (k.setSem n (min (k.sem n + amount) 0xFFFF_FFFF)).serveSem n 16

end Sys2Proof.Machine
end

