-- ==== Sys2Proof/Machine/Issue.lean ====
section
/-! DEFINITION. How an instruction ends: completed, a transfer, a wait, a drain, a trap; and the guard that decides whether
it has an effect (R34). Every meaning is a function to such an end, closed by these operations. -/
namespace Sys2Proof.Machine

/-- The outcome of a step of this machine. -/
abbrev Out := Host.Outcome State Fault Refusal

/-- How the body of an instruction ends. -/
inductive Res where
  /-- It has completed; the stream moves past it. -/
  | done (s : State)
  /-- A taken transfer to a block header. -/
  | goto (s : State) (target : Word)
  /-- It waits on an object (R345); it is tried again on the stream's later turns. -/
  | wait (s : State) (kind : WaitKind) (obj phys stage : Nat) (reg : Bool)
  /-- It waits for the stream's own engines (R348). -/
  | drain (s : State)
  /-- The state has changed, the stream stands where it stood (a settle's idle slots; an ended stream). -/
  | stay (s : State)
  /-- It raises a trap (R416); the state is that of the trap's event. -/
  | trap (s : State) (t : TrapSpec)

/-- The state after an end of an instruction that began in `s0`, to which it goes back where a full table refuses a wait: the
instruction then has no effect (R353). -/
def Res.finish (s0 : State) : Res → Out
  | .done s => .next s.retire
  | .goto s a => .next (s.transfer a)
  | .wait s kind obj phys stage reg =>
    match s.block kind obj phys stage reg with
    | (s1, none) => .next s1
    | (s1, some t) => .next ((if t.cause = cWFTFULL then s0 else s1).raiseOwn s1.ctx.core s1.ctx.strm t)
  | .drain s => .next (s.setStr { s.str with draining := true })
  | .stay s => .next s
  | .trap s t => .next (s.raiseOwn s.ctx.core s.ctx.strm t)

/-- An instruction under its guard (R34): with a false guard it has no effect but its slots. -/
def State.issue (s : State) (body : State → Res) : Out :=
  if s.guard then (body s).finish s else .next s.retire

/-- An instruction that always executes: a vector instruction, whose guard is a lane mask, SEL and VSEL. -/
def State.always (s : State) (body : State → Res) : Out := (body s).finish s

/-- A wait the manual counts among the open waits (R346). -/
def Res.open (s : State) (stage : Nat) : Res := .wait s .opn 0 0 stage true

/-! Settling (R97). -/

/-- One idle slot of a settle (R97). -/
def State.settle (s : State) (c : CoreId) (i : StreamId) : State := s.setStrm c i ((s.strm c i).idleSlot s.clock)

/-- An instruction that settles first (NODE, RDV, WAITE): an idle slot while writes are pending; then a stall, without advancing its
slot count, until its results of variable latency have arrived, and a drain until the engine queues that the stream feeds are empty;
then its own effect (DEDUCED, log entry 18). -/
def State.settled (s : State) (body : State → Res) : Res :=
  if !s.str.pending.isEmpty then .stay (s.settle s.ctx.core s.ctx.strm)
  else if !s.str.arriving.isEmpty then .stay s
  else if !s.me.enginesIdle s.ctx.strm then .drain s
  else body s

/-- A step that takes no issue slot: the stream may issue in the same slot. -/
def State.noSlot (s : State) : State := { s with turn := 6 * s.ctx.core.val + s.ctx.strm.num }

end Sys2Proof.Machine
end

