-- ==== Sys2Proof/Machine/Access.lean ====
section
/-! DEFINITION. Accesses of a stream to global memory and scratchpads: the checks of R279 in their order, poison (R294), and the
error logs (R426). -/
namespace Sys2Proof.Machine

/-- How an access ends: performed, with the bytes read, or the trap it raises. -/
inductive Accessed where
  | ok (s : State) (bs : List Byte)
  | trap (s : State) (t : TrapSpec)
  /-- held at its issue by a change of the split (R299), or it waits for a peer's response (R298) -/
  | hold (s : State)

/-- Line addresses of `n` bytes at an address. -/
def linesOf (a n : Nat) : List Nat :=
  if n = 0 then [] else (List.range ((a + n - 1) / 64 - a / 64 + 1)).map fun i => (a / 64 + i) * 64

/-! Error logs. -/

/-- A log entry appended, newest first, to a log of a capacity (R426). -/
def ErrLog.append (l : ErrLog) (cap : Nat) (e : Vector Word 4) : ErrLog :=
  ⟨(e :: l.entries).take cap, l.ovf || decide (cap ≤ l.entries.length), l.appended + 1⟩

def Core.logErr (k : Core) (e : Vector Word 4) : Core := { k with log := k.log.append 16 e }
def Die.logErr (d : Die) (e : Vector Word 4) : Die := { d with log := d.log.append 256 e }
/-- An entry of "Die log causes" (R426) (DEDUCED, log entry 30). -/
def State.dieLog (s : State) (d : Fin 2) (cause : Nat) (w1 w2 w3 : Word) : State :=
  s.setDie d ((s.die d).logErr #v[BitVec.ofNat 64 cause, w1, w2, w3])

/-- The entry of a poisoned line (R294). -/
def poisonEntry (zf pending : Bool) (i : StreamId) (space : Nat) (addr w2 pc : Word) : Vector Word 4 :=
  #v[BitVec.ofNat 64 (0x40 + (if zf then 256 else 0) + (if pending then 512 else 0) + i.num * 1024 + space * 65536), addr,
    w2, pc]

/-- Entries for poisoned lines, one for each line (R294), in the job's log; what a system core consumes is outside any job and
goes to the die's (R426). -/
def State.logPoison (s : State) (c : CoreId) (es : List (Vector Word 4)) : State :=
  let es := es.eraseDups
  if isSystem c then s.setDie (dieOf c) (es.foldl Die.logErr (s.die (dieOf c)))
  else s.setCore c (es.foldl Core.logErr (s.core c))

/-- Poisoned lines consumed by a load (R294): with .pz logged alone; under precise reporting a trap; else logged and left
pending. `bad` gives each line as the access names it and word 2 of its entry. -/
def State.consume (s : State) (c : CoreId) (i : StreamId) (pz : Bool) (space : Nat) (pc : Word)
    (bad : List (Word × Word)) : State × Option TrapSpec :=
  match bad with
  | [] => (s, none)
  | (a, w2) :: _ =>
    let precise := (s.die (dieOf c)).errcfg.getLsbD i.num && !pz
    let entry (x : Word × Word) : Vector Word 4 := poisonEntry pz (!pz && !precise) i space x.1 x.2 pc
    let s1 := s.logPoison c (bad.map entry)
    let e := entry (a, w2)
    if pz then (s1, none)
    else if precise then (s1, some { cause := cMEMUE, addr := a, space := space, detail := e.toList })
    else
      let f : PendFault := ⟨cMEMUE, pc, a, 0, space, e.toList, s.accSlot⟩
      (s1.setStrm c i { s1.strm c i with faults := (s1.strm c i).faults ++ [f] }, none)

/-- Poisoned lines met by an access that raises MEM_UE whatever ERRCFG holds (R321): all are logged, the first is reported. -/
def State.poisonTrap (s : State) (c : CoreId) (i : StreamId) (acc : Acc) (space : Nat) (pc : Word)
    (bad : List (Word × Word)) : State × Option TrapSpec :=
  match bad with
  | [] => (s, none)
  | (a, w2) :: _ =>
    let entry (x : Word × Word) : Vector Word 4 := poisonEntry false false i space x.1 x.2 pc
    (s.logPoison c (bad.map entry),
      some { cause := cMEMUE, addr := a, kind := acc.code, space := space, detail := (entry (a, w2)).toList })

/-! Global memory. -/

/-- Poisoned lines under translated pieces, as the access names them. -/
def State.badLines (s : State) (ps : List Piece) : List (Word × Word) :=
  ps.flatMap fun p => ((linesOf p.pa p.len).filter fun l => s.poison.contains l).map fun l =>
    (BitVec.ofNat 64 (p.va / 64 * 64 + (l - p.pa / 64 * 64)), BitVec.ofNat 64 l)

/-- Bytes with those of poisoned lines read as zero (R294). -/
def State.readClean (s : State) (ps : List Piece) : List Byte :=
  if s.poison.isEmpty then s.readPieces ps else
  ps.flatMap fun p => (List.range p.len).map fun j =>
    if s.poison.contains ((p.pa + j) / 64 * 64) then 0 else s.mem.read (p.pa + j)

/-- What a copy has written laid over bytes at a physical address. -/
def Unpub.lay (u : Unpub) (pa : Nat) (bs : List Byte) : List Byte :=
  bs.zipIdx.map fun b => if u.pa ≤ pa + b.2 then u.new[pa + b.2 - u.pa]?.getD b.1 else b.1

/-- Bytes at a physical address as a job's load sees them: of words that a copy engine has written and no XPUB has published, the
old value or the new one, by a free choice for each; the new one for the job itself once the copy has completed (R316)
(DEDUCED, log entry 11). -/
def State.seen (s : State) (job : Word) (pa : Nat) (bs : List Byte) : State × List Byte :=
  match s.unpub.filter fun u => u.meets pa bs.length with
  | [] => (s, bs)
  | us =>
    ({ s with draws := s.draws + 1 }, us.reverse.zipIdx.foldl (fun bs u =>
      if (u.1.sure && u.1.job == job) || Config.freeAt s.draws u.2 then u.1.lay pa bs else bs) bs)

/-- The bytes of translated pieces as a job's load sees them (DEDUCED, log entry 11). -/
def State.readSeen (job : Word) : List Piece → State → State × List Byte
  | [], s => (s, [])
  | p :: t, s =>
    match s.seen job p.pa (s.readClean [p]) with
    | (s1, bs) =>
      match State.readSeen job t s1 with
      | (s2, rest) => (s2, bs ++ rest)

/-- A trap of a translation or range failure (R415). -/
def accFault (acc : Acc) (space : Nat) (e : Nat × Nat) : TrapSpec :=
  { cause := e.1, addr := BitVec.ofNat 64 e.2, kind := acc.code, space := space }

/-- The user bit a core's accesses are checked with (R286) (DEDUCED, log entry 41). -/
def userOf (c : CoreId) : Bool := !isSystem c

/-- Translated pieces of several ranges, all ranges checked before any translation (R279). -/
def State.xlateAll (s : State) (c : CoreId) (i : StreamId) (acc : Acc) (rs : List (Int × Nat)) :
    State × Except (Nat × Nat) (List Piece) :=
  match rs.find? fun r => r.1 < 0 || (2 : Int) ^ 48 < r.1 + r.2 with
  | some r => (s, .error (cPROT, (r.1 % (2 : Int) ^ 64).toNat))
  | none =>
    rs.foldl (fun acc' r =>
      match acc' with
      | (s, .error e) => (s, .error e)
      | (s, .ok ps) =>
        match s.xlate (.strm c i) (s.core c).asid.toNat (userOf c) acc r.1 r.2 with
        | (s1, .error e) => (s1, .error e)
        | (s1, .ok qs) => (s1, .ok (ps ++ qs))) (s, .ok [])

/-- A load from G by stream `i` of core `c` over some ranges (R301): checks, marks (R287), poison, bytes in order. -/
def State.loadRanges (s : State) (c : CoreId) (i : StreamId) (pz : Bool) (rs : List (Int × Nat)) : Accessed :=
  match s.xlateAll c i .load rs with
  | (s1, .error e) => .trap s1 (accFault .load 2 e)
  | (s1, .ok ps) =>
    let s2 := s1.mark (.strm c i) .load ps
    match State.readSeen (s.core c).jobid ps s2 with
    | (s3, bs) =>
      match s3.consume c i pz 2 (s.accPc c i) (s2.badLines ps) with
      | (s4, some t) => .trap s4 t
      | (s4, none) => .ok s4 bs

/-- A load of `n` bytes from G. -/
def State.loadG (s : State) (c : CoreId) (i : StreamId) (pz : Bool) (va : Int) (n : Nat) : Accessed :=
  s.loadRanges c i pz [(va, n)]

/-- A store to G over some ranges, the bytes in order (R301). -/
def State.storeRanges (s : State) (c : CoreId) (i : StreamId) (rs : List (Int × Nat)) (bs : List Byte) : Accessed :=
  match s.xlateAll c i .store rs with
  | (s1, .error e) => .trap s1 (accFault .store 2 e)
  | (s1, .ok ps) => .ok (State.writePieces (s.core c).jobid (s1.mark (.strm c i) .store ps) ps bs) []

def State.storeG (s : State) (c : CoreId) (i : StreamId) (va : Int) (bs : List Byte) : Accessed :=
  s.storeRanges c i [(va, bs.length)] bs

/-- The checks of an atomic on an element of `n` bytes of G (R321): alignment, range, translation with R and W, poison. -/
def State.atomCheck (s : State) (c : CoreId) (i : StreamId) (va : Int) (n : Nat) :
    State × Except TrapSpec (List Piece) :=
  if va % n ≠ 0 then (s, .error (accFault .atomic 2 (cALIGN, (va % (2 : Int) ^ 64).toNat))) else
  match s.xlate (.strm c i) (s.core c).asid.toNat (userOf c) .atomic va n with
  | (s1, .error e) => (s1, .error (accFault .atomic 2 e))
  | (s1, .ok ps) =>
    match s1.poisonTrap c i .atomic 2 (s1.accPc c i) (s1.badLines ps) with
    | (s2, some t) => (s2, .error t)
    | (s2, none) => (s2, .ok ps)

/-! Scratchpads (R275, R282). -/

/-- Bytes of a core's scratchpad. -/
def Core.padSize (k : Core) : Nat := k.split * 2 ^ 18

/-- The scratchpad bytes of a range, those of poisoned lines read as zero. -/
def Core.padRead (k : Core) (a n : Nat) : List Byte :=
  if k.spadPoison.isEmpty then k.spad.readN a n else
  (List.range n).map fun j => if k.spadPoison.contains ((a + j) / 64 * 64) then 0 else k.spad.read (a + j)

/-- Bytes written to a scratchpad; a whole line written clears its poison (R294). -/
def Core.padWrite (k : Core) (a : Nat) (bs : List Byte) : Core :=
  { k with
    spad := k.spad.writeN a bs
    spadPoison := k.spadPoison.filter fun l => !(a <= l && l + 64 <= a + bs.length) }

/-- Is a range inside core `t`'s scratchpad, as core `c` reaches it (R275)? Another core needs a job of the same ASID. -/
def State.padOk (s : State) (c t : CoreId) (a : Int) (n : Nat) : Bool :=
  let k := s.core t
  decide (0 ≤ a) && decide (a + n ≤ (k.padSize : Int)) &&
  (t == c || (k.active && !isSystem t && k.asid == (s.core c).asid))

/-- Poisoned scratchpad lines in a range, with word 2 of their entries (R294). -/
def Core.padBad (k : Core) (t : CoreId) (a n : Nat) : List (Word × Word) :=
  ((linesOf a n).filter fun l => k.spadPoison.contains l).map fun l => (BitVec.ofNat 64 l, BitVec.ofNat 64 (coreid t))

/-- Does a range touch a granule whose role an SPCFG under way changes (R299)? -/
def Core.padHeld (k : Core) (rs : List (Int × Nat)) : Bool :=
  match k.spcfg with
  | none => false
  | some m =>
    rs.any fun r => decide (0 < r.2) && decide (r.1 < ((max m k.split * 2 ^ 18 : Nat) : Int)) &&
      decide (((min m k.split * 2 ^ 18 : Nat) : Int) < r.1 + r.2)

/-- A load from the scratchpad of core `t` (itself: space L; another position of the cluster: space C). -/
def State.loadPad (s : State) (c : CoreId) (i : StreamId) (t : CoreId) (space : Nat) (rs : List (Int × Nat)) : Accessed :=
  if (s.core t).padHeld rs then .hold s else
  match rs.find? fun r => !s.padOk c t r.1 r.2 with
  | some r => .trap s { cause := cSPRANGE, addr := BitVec.ofInt 64 r.1, kind := 0, space := space }
  | none =>
    let k := s.core t
    let bs := rs.flatMap fun r => k.padRead r.1.toNat r.2
    match s.consume c i false space (s.accPc c i) (rs.flatMap fun r => k.padBad t r.1.toNat r.2) with
    | (s1, some x) => .trap s1 x
    | (s1, none) => .ok s1 bs

/-- Bytes written over several ranges of a scratchpad. -/
def Core.padWriteAll (k : Core) : List (Int × Nat) → List Byte → Core
  | [], _ => k
  | r :: t, bs => Core.padWriteAll (k.padWrite r.1.toNat (bs.take r.2)) t (bs.drop r.2)

/-- A store to the scratchpad of core `t`. -/
def State.storePad (s : State) (c t : CoreId) (space : Nat) (rs : List (Int × Nat)) (bs : List Byte) : Accessed :=
  if (s.core t).padHeld rs then .hold s else
  match rs.find? fun r => !s.padOk c t r.1 r.2 with
  | some r => .trap s { cause := cSPRANGE, addr := BitVec.ofInt 64 r.1, kind := 1, space := space }
  | none => .ok (s.setCore t ((s.core t).padWriteAll rs bs)) []

end Sys2Proof.Machine
end

