-- ==== Sys2Proof/Machine/Operands.lean ====
section
/-! DEFINITION. Operand forms: what the fields of the formats name (R36 to R44), immediates, bit counts, and addresses (R275). -/
namespace Sys2Proof.Machine

/-- The signed immediate of RI (R36). -/
def imm5 (f : RI) : Word := f.imm.signExtend 64
/-- The X word as a signed immediate. -/
def immX (f : RX) : Word := f.x.signExtend 64
/-- A compare's destination: p0 to p31 (R36). -/
def predD (d : BitVec 5) : BitVec 7 := d.setWidth 7
/-- The register `k` places after a field's (R118). -/
def regPlus (a : BitVec 5) (k : Nat) : BitVec 5 := a + BitVec.ofNat 5 k
/-- A shift amount: the low six bits of s[B] (R120). -/
def shamt (w : Word) : Nat := w.toNat % 64

/-- All lanes true or false. -/
def spread (b : Bool) : BitVec 64 := if b then BitVec.allOnes 64 else 0

/-- Number of one bits. -/
def popcount (w : Word) : Nat := (List.range 64).foldl (fun n i => if w.getLsbD i then n + 1 else n) 0
/-- Leading zeros, 0 to 64. -/
def leadingZeros (w : Word) : Nat := if w = 0 then 64 else 63 - Nat.log2 w.toNat
/-- Lowest one bit at or above a position, 64 if there is none. -/
def firstFrom (w : Word) (lo : Nat) : Nat := ((List.range 64).find? fun i => decide (lo ≤ i) && w.getLsbD i).getD 64

def maxS (a b : Word) : Word := if a.slt b then b else a
def minS (a b : Word) : Word := if b.slt a then b else a
def maxU (a b : Word) : Word := if a.ult b then b else a
def minU (a b : Word) : Word := if b.ult a then b else a

/-- The divisions (R121). -/
def divS (a b : Word) : Word := if b = 0 then BitVec.allOnes 64 else a.sdiv b
def divU (a b : Word) : Word := if b = 0 then BitVec.allOnes 64 else a.udiv b
def remS (a b : Word) : Word := if b = 0 then a else a.srem b
def remU (a b : Word) : Word := if b = 0 then a else a.umod b
/-- High halves of the products (R120). -/
def mulHighS (a b : Word) : Word := BitVec.ofInt 64 (a.toInt * b.toInt / 2 ^ 64)
def mulHighU (a b : Word) : Word := BitVec.ofNat 64 (a.toNat * b.toNat / 2 ^ 64)
/-- LEA's address (R120). -/
def leaAddr (f : RX) (a b : Word) : Word := a + (b <<< f.xf 29 3) + (f.x.extractLsb' 0 29).signExtend 64

/-- The effective address of an M instruction from a base (R275): an unbounded integer. -/
def State.eaFrom (s : State) (f : M) (base : Nat) : Int :=
  base + (if f.b = 0 then 0 else ((s.getS f.b).toNat * 2 ^ f.sc.toNat : Nat)) + f.off.toInt + s.ctx.incOff
/-- The effective address with base s[A]. -/
def State.ea (s : State) (f : M) : Int := s.eaFrom f (s.getS f.a).toNat

/-! Shapes of a transfer (R276, R278). -/

end Sys2Proof.Machine

namespace Sys2Proof

/-- A vector shape. -/
def M.vec (f : M) : Bool := f.ty == 14 || f.cnt != 0
/-- Bytes of one element of the transfer; a .vr transfer has 64 elements of 4 bytes. -/
def M.eb (f : M) : Nat := if f.ty == 14 then 4 else elemBytes f.ty.toNat
/-- Elements of the transfer. -/
def M.count (f : M) : Nat := if f.ty == 14 then 64 else if f.cnt == 0 then 1 else 2 ^ (f.cnt.toNat - 1)
/-- The alignment that the access needs (R277). -/
def M.align (f : M) : Nat := if f.ty == 14 then 64 else elemBytes f.ty.toNat

end Sys2Proof

namespace Sys2Proof.Machine

/-- A loaded scalar (R278): sign-extended for types 1, 3 and 5. -/
def extendLoad (ty : Nat) (bs : List Byte) : Word :=
  let v := leNat bs
  let w := 8 * bs.length
  if (ty = 1 || ty = 3 || ty = 5) && v.testBit (w - 1) then BitVec.ofInt 64 ((v : Int) - (2 : Int) ^ w)
  else BitVec.ofNat 64 v

/-- Elements of `eb` bytes, `n` of them, that the lanes enable (R160). -/
def enabledElems (lanes : BitVec 64) (eb n : Nat) : List Nat :=
  (List.range n).filter fun e => lanes.getLsbD (e * eb / 4)

/-- Adjacent ranges joined. -/
def joinRanges : List (Int × Nat) → List (Int × Nat)
  | [] => []
  | r :: t =>
    match joinRanges t with
    | [] => [r]
    | q :: u => if r.1 + r.2 = q.1 then (r.1, r.2 + q.2) :: u else r :: q :: u

/-- A value with the bytes of the given elements, in order, and ones where they stand. -/
def placeElems (eb : Nat) : List Nat → List Byte → VWord × VWord
  | [], _ => (0, 0)
  | e :: t, bs =>
    let r := placeElems eb t (bs.drop eb)
    (r.1 ||| BitVec.ofNat 2048 (leNat (bs.take eb)) <<< (8 * e * eb), r.2 ||| BitVec.ofNat 2048 (2 ^ (8 * eb) - 1) <<< (8 * e * eb))

/-- The bytes of the given elements of a vector register. -/
def takeElems (v : VWord) (eb : Nat) (es : List Nat) : List Byte :=
  es.flatMap fun e => leBytes (v >>> (8 * e * eb)).toNat eb

end Sys2Proof.Machine
end

