-- ==== Sys2Proof/Machine/Lanes.lean ====
section
/-! DEFINITION. Elements of vector registers under VTYPE (R133, R159 to R161), and the element operations with their flags: floating
arithmetic (R164 to R167), integers, logic, compares (R168, R169). -/
namespace Sys2Proof.Machine

/-! VTYPE. -/

/-- VTYPE.ET and VTYPE.RM (R148). -/
def vtypeET (v : BitVec 7) : Nat := (v.extractLsb' 0 4).toNat
def vtypeRM (v : BitVec 7) : RMode := RMode.ofCode (v.extractLsb' 4 3).toNat
def State.et (s : State) : Nat := vtypeET s.me.vtype
def State.rm (s : State) : RMode := vtypeRM s.me.vtype

/-- Width in bits of an element type 0 to 10 (R159). -/
def etWidth (et : Nat) : Nat := 8 * elemBytes et
/-- The floating format of an element type, for codes 7 to 10. -/
def etFmt : Nat → Option Fmt
  | 7 => some f16 | 8 => some bf16 | 9 => some f32 | 10 => some f64 | _ => none
/-- A signed integer type (R159). -/
def etSigned (et : Nat) : Bool := et = 1 || et = 3 || et = 5 || et = 6

/-- Element `e` of `w` bits. -/
def velem (v : VWord) (w e : Nat) : Nat := (v.extractLsb' (w * e) w).toNat

/-- The elements that a lane mask enables (R160). -/
def laneElems (lanes : BitVec 64) (w : Nat) : List Nat :=
  (List.range (2048 / w)).filter fun e => lanes.getLsbD (e * w / 32)

/-! Running an operation over elements. -/

/-- What an element-wise instruction has formed so far: value and mask of the elements, flags, the generator. -/
structure LaneAcc where
  val : VWord
  mask : VWord
  flags : Flags
  seed : BitVec 32

/-- An operation over some elements in ascending order; under SR one draw each (R139). -/
def overElems (w : Nat) (sr : Bool) (op : Nat → Nat → Nat × Flags) : List Nat → LaneAcc → LaneAcc
  | [], acc => acc
  | e :: t, acc =>
    let draw := if sr then lfsrDraw acc.seed else acc.seed
    let r := op e draw.toNat
    overElems w sr op t
      ⟨acc.val ||| BitVec.ofNat 2048 (r.1 % 2 ^ w) <<< (w * e), acc.mask ||| BitVec.ofNat 2048 (2 ^ w - 1) <<< (w * e),
        acc.flags ||| r.2, draw⟩

/-- The operation over some elements, written to v[d] with a latency. -/
def State.putElems (s : State) (lat : Nat) (d : BitVec 5) (w : Nat) (sr : Bool) (es : List Nat)
    (op : Nat → Nat → Nat × Flags) : State :=
  let r := overElems w sr op es ⟨0, 0, 0, s.str.seed⟩
  (s.setStr { s.str with seed := r.seed }).putV lat d r.mask r.val r.flags

/-- A vector instruction (R34, R160, R161): nothing with no true lane; ILL_FIELD for a type outside its set. -/
def State.vector (s : State) (types : Nat → Bool) (body : State → Res) : Out :=
  s.always fun s =>
    if s.lanes = 0 then .done s
    else if !types s.et then .trap s { cause := cILLFIELD, addr := s.me.vtype.setWidth 64 }
    else body s

def anyType (et : Nat) : Bool := et ≤ 10
def floatType (et : Nat) : Bool := 7 ≤ et && et ≤ 10
def dotType (et : Nat) : Bool := et ≤ 3 || et = 7 || et = 8

/-! Floating operations (R164). -/

/-- The first NaN in order, or none. -/
def firstNan (l : List FVal) : Option FVal := l.find? FVal.isNan
/-- NV if any operand is a signalling NaN. -/
def snanFlag (l : List FVal) : Flags := if l.any FVal.isSnan then fNV else 0

/-- An operand list with a NaN gives R129's NaN; otherwise the body. -/
def withNan (f : Fmt) (l : List FVal) (body : Nat × Flags) : Nat × Flags :=
  match firstNan l with
  | some x => (f.nanOf x, snanFlag l)
  | none => body

/-- The invalid result. -/
def invalid (f : Fmt) : Nat × Flags := (f.nan, fNV)

/-- Addition of two values that are not NaN. -/
def fAddCore (f : Fmt) (mode : RMode) (draw : Nat) (a b : FVal) : Nat × Flags :=
  match a, b with
  | .inf x, .inf y => if x == y then (f.infCode x, 0) else invalid f
  | .inf x, _ => (f.infCode x, 0)
  | _, .inf y => (f.infCode y, 0)
  | a, b => f.round mode draw (a.ex.add mode b.ex)

def fAdd (f : Fmt) (mode : RMode) (draw : Nat) (a b : FVal) : Nat × Flags := withNan f [a, b] (fAddCore f mode draw a b)
/-- a + (-b); a NaN b keeps its sign. -/
def fSub (f : Fmt) (mode : RMode) (draw : Nat) (a b : FVal) : Nat × Flags :=
  withNan f [a, b] (fAddCore f mode draw a b.negate)

/-- The product of two values as an exact value; none for an infinite or invalid one. -/
def fMul (f : Fmt) (mode : RMode) (draw : Nat) (a b : FVal) : Nat × Flags :=
  withNan f [a, b] (
    let sg := a.neg != b.neg
    match a, b with
    | .inf _, y => if y.isZero then invalid f else (f.infCode sg, 0)
    | x, .inf _ => if x.isZero then invalid f else (f.infCode sg, 0)
    | x, y => f.round mode draw (x.ex.mul y.ex))

/-- A product of 0 and infinity. -/
def zeroInf : FVal → FVal → Bool
  | .inf _, y => y.isZero
  | x, .inf _ => x.isZero
  | _, _ => false

/-- d + a * b with one rounding (R165). -/
def fFma (f : Fmt) (mode : RMode) (draw : Nat) (a b d : FVal) : Nat × Flags :=
  if zeroInf a b then invalid f else
  withNan f [a, b, d] (
    let sg := a.neg != b.neg
    match a, b, d with
    | .inf _, _, .inf y | _, .inf _, .inf y => if sg == y then (f.infCode y, 0) else invalid f
    | .inf _, _, _ | _, .inf _, _ => (f.infCode sg, 0)
    | _, _, .inf y => (f.infCode y, 0)
    | x, y, z => f.round mode draw (z.ex.add mode (x.ex.mul y.ex)))

/-- Order of two values that are not NaN, -0 equal to +0. -/
def fLt (a b : FVal) : Bool :=
  match a, b with
  | .inf x, .inf y => x && !y
  | .inf x, _ => x
  | _, .inf y => !y
  | a, b =>
    let x := a.ex; let y := b.ex
    let e := min x.e y.e
    decide (x.n * pow2 (x.e - e) < y.n * pow2 (y.e - e))
def fEq (a b : FVal) : Bool := !fLt a b && !fLt b a

/-- Minimum (R166): NaNs by R164, -0 below +0. -/
def fMin (f : Fmt) (ca cb : Nat) : Nat × Flags :=
  let a := f.read ca; let b := f.read cb
  withNan f [a, b] (if fLt b a || (fEq a b && b.neg && !a.neg) then (cb, 0) else (ca, 0))
def fMax (f : Fmt) (ca cb : Nat) : Nat × Flags :=
  let a := f.read ca; let b := f.read cb
  withNan f [a, b] (if fLt a b || (fEq a b && a.neg && !b.neg) then (cb, 0) else (ca, 0))

/-- "Special operands" (R167). -/
def fDiv (f : Fmt) (mode : RMode) (draw : Nat) (a b : FVal) : Nat × Flags :=
  withNan f [a, b] (
    let sg := a.neg != b.neg
    match a, b with
    | .inf _, .inf _ => invalid f
    | .inf _, _ => (f.infCode sg, 0)
    | _, .inf _ => (f.signBit sg, 0)
    | .num _ n e, .num _ m d =>
      if m = 0 then (if n = 0 then invalid f else (f.infCode sg, fDZ))
      else if n = 0 then (f.signBit sg, 0)
      else f.round mode draw (exDiv sg n e m d)
    | _, _ => invalid f)

def fSqrt (f : Fmt) (mode : RMode) (draw : Nat) (a : FVal) : Nat × Flags :=
  withNan f [a] (match a with
    | .inf neg => if neg then invalid f else (f.infCode false, 0)
    | .num neg n e => if n = 0 then (f.signBit neg, 0) else if neg then invalid f else f.round mode draw (exSqrt n e)
    | .nan _ _ _ _ _ => invalid f)

def fRsq (f : Fmt) (mode : RMode) (draw : Nat) (a : FVal) : Nat × Flags :=
  withNan f [a] (match a with
    | .inf neg => if neg then invalid f else (0, 0)
    | .num neg n e =>
      if n = 0 then (f.infCode neg, fDZ) else if neg then invalid f else f.round mode draw (exRsqrt n e)
    | .nan _ _ _ _ _ => invalid f)

def fRec (f : Fmt) (mode : RMode) (draw : Nat) (a : FVal) : Nat × Flags :=
  withNan f [a] (match a with
    | .inf neg => (f.signBit neg, 0)
    | .num neg n e => if n = 0 then (f.infCode neg, fDZ) else f.round mode draw (exDiv neg 1 0 n e)
    | .nan _ _ _ _ _ => invalid f)

def fExp2 (f : Fmt) (mode : RMode) (draw : Nat) (a : FVal) : Nat × Flags :=
  withNan f [a] (match a with
    | .inf neg => (if neg then 0 else f.infCode false, 0)
    | .num neg n e => if n = 0 then f.round mode draw ⟨false, 1, 0⟩ else f.round mode draw (exExp2 neg n e)
    | .nan _ _ _ _ _ => invalid f)

def fLog2 (f : Fmt) (mode : RMode) (draw : Nat) (a : FVal) : Nat × Flags :=
  withNan f [a] (match a with
    | .inf neg => if neg then invalid f else (f.infCode false, 0)
    | .num neg n e =>
      if n = 0 then (f.infCode true, fDZ) else if neg then invalid f else f.round mode draw (exLog2 n e)
    | .nan _ _ _ _ _ => invalid f)

/-! Operations under an element type. -/

/-- A two-operand operation: its floating form, and its integer form on codes of `w` bits. -/
def byType (et : Nat) (fl : Fmt → FVal → FVal → Nat × Flags) (int : Nat → Nat → Nat) (a b : Nat) : Nat × Flags :=
  match etFmt et with
  | some f => fl f (f.read a) (f.read b)
  | none => (int a b % 2 ^ etWidth et, 0)

/-- An integer code read by its type. -/
def etInt (et c : Nat) : Int := if etSigned et then signedOf (etWidth et) c else c

def elAdd (et : Nat) (mode : RMode) (draw a b : Nat) : Nat × Flags :=
  byType et (fun f => fAdd f mode draw) (fun a b => a + b) a b
def elSub (et : Nat) (mode : RMode) (draw a b : Nat) : Nat × Flags :=
  byType et (fun f => fSub f mode draw) (fun a b => a + (2 ^ etWidth et - b)) a b
def elMul (et : Nat) (mode : RMode) (draw a b : Nat) : Nat × Flags :=
  byType et (fun f => fMul f mode draw) (fun a b => a * b) a b
def elFma (et : Nat) (mode : RMode) (draw a b d : Nat) : Nat × Flags :=
  match etFmt et with
  | some f => fFma f mode draw (f.read a) (f.read b) (f.read d)
  | none => ((d + a * b) % 2 ^ etWidth et, 0)
def elMin (et a b : Nat) : Nat × Flags :=
  match etFmt et with
  | some f => fMin f a b
  | none => (if etInt et b < etInt et a then b else a, 0)
def elMax (et a b : Nat) : Nat × Flags :=
  match etFmt et with
  | some f => fMax f a b
  | none => (if etInt et a < etInt et b then b else a, 0)
/-- A floating operation of one operand. -/
def elUn (et : Nat) (fl : Fmt → FVal → Nat × Flags) (a : Nat) : Nat × Flags :=
  match etFmt et with
  | some f => fl f (f.read a)
  | none => (0, 0)
/-- VABS and VNEG (R166). -/
def elAbs (et a : Nat) : Nat :=
  let w := etWidth et
  match etFmt et with
  | some _ => a % 2 ^ (w - 1)
  | none => if etSigned et && a.testBit (w - 1) then (2 ^ w - a) % 2 ^ w else a
def elNeg (et a : Nat) : Nat :=
  let w := etWidth et
  match etFmt et with
  | some _ => a ^^^ 2 ^ (w - 1)
  | none => (2 ^ w - a) % 2 ^ w

/-- Shifts and leading zeros on patterns of `w` bits (R168). -/
def elShl (w a n : Nat) : Nat := if w ≤ n then 0 else a * 2 ^ n % 2 ^ w
def elShr (w a n : Nat) : Nat := if w ≤ n then 0 else a / 2 ^ n
def elSra (w a n : Nat) : Nat := codeOf w (signedOf w a / (2 : Int) ^ min n (w - 1))
def elClz (w a : Nat) : Nat := if a = 0 then w else w - 1 - Nat.log2 a

/-- The compares (R169). -/
inductive Cmp where
  | eq | ne | lt | le | un
  deriving DecidableEq, Repr

def elCmp (k : Cmp) (et a b : Nat) : Bool × Flags :=
  match etFmt et with
  | some f =>
    let x := f.read a; let y := f.read b
    let nan := x.isNan || y.isNan
    let nv : Flags := match k with
      | .lt | .le => if nan then fNV else 0
      | .eq | .ne | .un => snanFlag [x, y]
    (match k with
     | .eq => !nan && fEq x y
     | .ne => nan || !fEq x y
     | .lt => !nan && fLt x y
     | .le => !nan && !fLt y x
     | .un => nan, nv)
  | none =>
    let x := etInt et a; let y := etInt et b
    (match k with
     | .eq => decide (x = y)
     | .ne => decide (x ≠ y)
     | .lt => decide (x < y)
     | .le => decide (x ≤ y)
     | .un => false, 0)

end Sys2Proof.Machine
end

