-- ==== Sys2Proof/Machine/Vector.lean ====
section
/-! DEFINITION. The vector instructions (R159 to R177). -/
namespace Sys2Proof.Machine

/-- Each enabled element of v[D] from the elements of v[A] and v[B] (R160). -/
def State.mapElems (s : State) (lat : Nat) (f : RRR) (rounds : Bool) (op : Nat → RMode → Nat → Nat → Nat → Nat × Flags) : State :=
  let et := s.et
  let w := etWidth et
  let a := s.getV f.a
  let b := s.getV f.b
  s.putElems lat f.d w (rounds && (etFmt et).isSome && s.rm == .sr) (laneElems s.lanes w) fun e draw =>
    op et s.rm draw (velem a w e) (velem b w e)

/-- An element-wise instruction (R160). -/
def State.elementwise (s : State) (types : Nat → Bool) (lat : Nat) (f : RRR) (rounds : Bool)
    (op : Nat → RMode → Nat → Nat → Nat → Nat × Flags) : Out :=
  s.vector types fun s => .done (s.mapElems lat f rounds op)

/-- Slots of the clock between two instructions that the divide and square-root unit accepts (R162). -/
def divideSlots : Nat := 4

/-- An instruction of the divide and square-root unit, which stalls while the unit is occupied (R162); one that is suppressed or traps
neither waits for the unit nor occupies it (DESIGN CHOICE, log entry 68). -/
def State.divided (s : State) (f : RRR) (op : Nat → RMode → Nat → Nat → Nat → Nat × Flags) : Out :=
  s.vector floatType fun s =>
    if s.clock < s.me.divFree then .stay s
    else
      let s1 := s.mapElems 16 f true op
      .done (s1.setMe { s1.me with divFree := s.clock + divideSlots })

/-- VADD (R165). -/
def execVadd (f : RRR) (s : State) : Out := s.elementwise anyType 2 f true elAdd
/-- VSUB (R165). -/
def execVsub (f : RRR) (s : State) : Out := s.elementwise anyType 2 f true elSub
/-- VMUL (R165). -/
def execVmul (f : RRR) (s : State) : Out := s.elementwise anyType 2 f true elMul
/-- VFMA (R165). -/
def execVfma (f : RRR) (s : State) : Out :=
  s.vector anyType fun s =>
    let et := s.et
    let w := etWidth et
    let a := s.getV f.a
    let b := s.getV f.b
    let d := s.getV f.d
    .done (s.putElems 4 f.d w ((etFmt et).isSome && s.rm == .sr) (laneElems s.lanes w) fun e draw =>
      elFma et s.rm draw (velem a w e) (velem b w e) (velem d w e))
/-- VMIN (R166). -/
def execVmin (f : RRR) (s : State) : Out := s.elementwise anyType 2 f false fun et _ _ a b => elMin et a b
/-- VMAX (R166). -/
def execVmax (f : RRR) (s : State) : Out := s.elementwise anyType 2 f false fun et _ _ a b => elMax et a b
/-- VABS (R166). -/
def execVabs (f : RRR) (s : State) : Out := s.elementwise anyType 2 f false fun et _ _ a _ => (elAbs et a, 0)
/-- VNEG (R166). -/
def execVneg (f : RRR) (s : State) : Out := s.elementwise anyType 2 f false fun et _ _ a _ => (elNeg et a, 0)
/-- VDIV (R167). -/
def execVdiv (f : RRR) (s : State) : Out :=
  s.divided f fun et m draw a b => byType et (fun g => fDiv g m draw) (fun _ _ => 0) a b
/-- VSQRT (R167). -/
def execVsqrt (f : RRR) (s : State) : Out :=
  s.divided f fun et m draw a _ => elUn et (fun g => fSqrt g m draw) a
/-- VRSQ (R167). -/
def execVrsq (f : RRR) (s : State) : Out :=
  s.divided f fun et m draw a _ => elUn et (fun g => fRsq g m draw) a
/-- VREC (R167). -/
def execVrec (f : RRR) (s : State) : Out :=
  s.divided f fun et m draw a _ => elUn et (fun g => fRec g m draw) a
/-- VEXP2 (R167). -/
def execVexp2 (f : RRR) (s : State) : Out :=
  s.elementwise floatType 8 f true fun et m draw a _ => elUn et (fun g => fExp2 g m draw) a
/-- VLOG2 (R167). -/
def execVlog2 (f : RRR) (s : State) : Out :=
  s.elementwise floatType 8 f true fun et m draw a _ => elUn et (fun g => fLog2 g m draw) a

/-- A pattern operation (R168). -/
def State.pattern (s : State) (f : RRR) (op : Nat → Nat → Nat → Nat) : Out :=
  s.elementwise anyType 2 f false fun et _ _ a b => (op (etWidth et) a b, 0)

/-- VAND (R168). -/
def execVand (f : RRR) (s : State) : Out := s.pattern f fun _ a b => a &&& b
/-- VOR (R168). -/
def execVor (f : RRR) (s : State) : Out := s.pattern f fun _ a b => a ||| b
/-- VXOR (R168). -/
def execVxor (f : RRR) (s : State) : Out := s.pattern f fun _ a b => a ^^^ b
/-- VNOT (R168). -/
def execVnot (f : RRR) (s : State) : Out := s.pattern f fun w a _ => 2 ^ w - 1 - a
/-- VSHL (R168). -/
def execVshl (f : RRR) (s : State) : Out := s.pattern f elShl
/-- VSHR (R168). -/
def execVshr (f : RRR) (s : State) : Out := s.pattern f elShr
/-- VSRA (R168). -/
def execVsra (f : RRR) (s : State) : Out := s.pattern f elSra
/-- VCLZ (R168). -/
def execVclz (f : RRR) (s : State) : Out := s.pattern f fun w a _ => elClz w a

/-! Compares (R169). -/

/-- The lanes that a compare writes, and their values, from the truth of each element. -/
def cmpLanes (w : Nat) (lanes : BitVec 64) (c : Nat → Bool) : BitVec 64 × BitVec 64 :=
  let mask : Nat → Bool := fun i => if w = 64 then lanes.getLsbD (i / 2 * 2) else lanes.getLsbD i
  let val : Nat → Bool := fun i =>
    if 32 ≤ w then c (i * 32 / w) else (List.range (32 / w)).all fun j => c (i * (32 / w) + j)
  let pack (p : Nat → Bool) : BitVec 64 := BitVec.ofNat 64 ((List.range 64).foldl (fun n i => if p i then n + 2 ^ i else n) 0)
  (pack mask, pack val)

/-- A compare into the lanes of p[D]. -/
def State.vcompare (s : State) (types : Nat → Bool) (k : Cmp) (f : RRR) : Out :=
  s.vector types fun s =>
    let et := s.et
    let w := etWidth et
    let a := s.getV f.a
    let b := s.getV f.b
    let r (e : Nat) : Bool × Flags := elCmp k et (velem a w e) (velem b w e)
    let flags := (laneElems s.lanes w).foldl (fun fl e => fl ||| (r e).2) 0
    let m := cmpLanes w s.lanes fun e => (r e).1
    .done (s.put 2 (.p (predD f.d)) (m.1.setWidth 2048) (m.2.setWidth 2048) flags)

/-- VCMPEQ (R169). -/
def execVcmpeq (f : RRR) (s : State) : Out := s.vcompare anyType .eq f
/-- VCMPNE (R169). -/
def execVcmpne (f : RRR) (s : State) : Out := s.vcompare anyType .ne f
/-- VCMPLT (R169). -/
def execVcmplt (f : RRR) (s : State) : Out := s.vcompare anyType .lt f
/-- VCMPLE (R169). -/
def execVcmple (f : RRR) (s : State) : Out := s.vcompare anyType .le f
/-- VCMPUN (R169, R161). -/
def execVcmpun (f : RRR) (s : State) : Out := s.vcompare floatType .un f

/-! Select, move, lane values. -/

/-- VSEL: always executes; every element is written (R170). -/
def execVsel (f : RRR) (s : State) : Out :=
  s.always fun s =>
    let w := etWidth s.et
    let a := s.getV f.a
    let b := s.getV f.b
    let sel := s.lanes
    .done (s.putElems 2 f.d w false (List.range (2048 / w)) fun e _ =>
      (if sel.getLsbD (e * w / 32) then velem a w e else velem b w e, 0))

/-- VMOV (R171). -/
def execVmov (f : RRR) (s : State) : Out := s.pattern f fun _ a _ => a

/-- VBCAST (R171). -/
def execVbcast (f : RRR) (s : State) : Out :=
  s.vector anyType fun s =>
    let w := etWidth s.et
    let v := (s.getS f.a).toNat % 2 ^ w
    .done (s.putElems 2 f.d w false (laneElems s.lanes w) fun _ _ => (v, 0))

/-- VLANE (R171): the floating form converts under RNE. -/
def execVlane (f : RX) (s : State) : Out :=
  s.vector anyType fun s =>
    let et := s.et
    let w := etWidth et
    let start := (f.x.extractLsb' 0 16).toInt
    let step := (f.x.extractLsb' 16 16).toInt
    .done (s.putElems 2 f.d w false (laneElems s.lanes w) fun e _ =>
      let v := start + e * step
      match etFmt et with
      | some g => NumTy.convert (.int true 64) (.flt g) .rne 0 (codeOf 64 v)
      | none => (codeOf w v, 0))

/-- The element index of VEXT and VINS (R172). -/
def State.elemIndex (s : State) (f : RX) (n : Nat) : Nat :=
  (((s.getS f.b).toNat : Int) + (f.x.extractLsb' 0 16).toInt) % (n : Int) |>.toNat

/-- VEXT (R172): a scalar result. -/
def execVext (f : RX) (s : State) : Out :=
  s.issue fun s =>
    let et := s.et
    let w := etWidth et
    let c := velem (s.getV f.a) w (s.elemIndex f (2048 / w))
    .done (s.putS 2 f.d (if etSigned et then BitVec.ofInt 64 (signedOf w c) else BitVec.ofNat 64 c))

/-- VINS (R172). -/
def execVins (f : RX) (s : State) : Out :=
  s.vector anyType fun s =>
    let w := etWidth s.et
    let j := s.elemIndex f (2048 / w)
    let v := (s.getS f.a).toNat
    .done (s.putElems 2 f.d w false ((laneElems s.lanes w).filter (· == j)) fun _ _ => (v, 0))

/-! Permutes and slides (R173). -/

/-- VPERM (R173). -/
def execVperm (f : RRR) (s : State) : Out :=
  s.vector anyType fun s =>
    let w := etWidth s.et
    let n := 2048 / w
    let a := s.getV f.a
    let b := s.getV f.b
    .done (s.putElems 2 f.d w false (laneElems s.lanes w) fun e _ => (velem a w (velem b w e % n), 0))

/-- VSLIDE (R173). -/
def execVslide (f : RX) (s : State) : Out :=
  s.vector anyType fun s =>
    let w := etWidth s.et
    let n : Int := ((2048 / w : Nat) : Int)
    let a := s.getV f.a
    let by_ := (s.getS f.b + (f.x.extractLsb' 0 16).signExtend 64).toInt
    .done (s.putElems 2 f.d w false (laneElems s.lanes w) fun e _ =>
      let k : Int := e + by_
      if f.x.getLsbD 16 then (velem a w (k % n).toNat, 0)
      else if 0 ≤ k ∧ k < n then (velem a w k.toNat, 0) else (0, 0))

/-! Reductions and scans (R174 to R176). -/

/-- The identity of an operator (R174). -/
def redIdentity (op et : Nat) : Nat :=
  let w := etWidth et
  match op with
  | 0 => match etFmt et with | some f => f.signBit true | none => 0
  | 1 => match etFmt et with
    | some f => f.infCode false
    | none => if etSigned et then 2 ^ (w - 1) - 1 else 2 ^ w - 1
  | 2 => match etFmt et with
    | some f => f.infCode true
    | none => if etSigned et then 2 ^ (w - 1) else 0
  | 3 => 2 ^ w - 1
  | _ => 0

/-- One combine: the lower-indexed operand on the left. -/
def redOp (op et : Nat) (mode : RMode) (draw a b : Nat) : Nat × Flags :=
  match op with
  | 0 => elAdd et mode draw a b
  | 1 => elMin et a b
  | 2 => elMax et a b
  | 3 => (a &&& b, 0)
  | 4 => (a ||| b, 0)
  | _ => (a ^^^ b, 0)

/-- Flags and generator carried along the nodes of a tree. -/
structure TreeAcc where
  flags : Flags
  seed : BitVec 32

/-- One node, with its draw under SR. -/
def treeNode (sr : Bool) (op : Nat → Nat → Nat → Nat × Flags) (acc : TreeAcc) (a b : Nat) : Nat × TreeAcc :=
  let draw := if sr then lfsrDraw acc.seed else acc.seed
  let r := op draw.toNat a b
  (r.1, ⟨acc.flags ||| r.2, draw⟩)

/-- One level of the pairwise tree. -/
def pairLevel (sr : Bool) (op : Nat → Nat → Nat → Nat × Flags) : List Nat → TreeAcc → List Nat × TreeAcc
  | a :: b :: t, acc =>
    let r := treeNode sr op acc a b
    let rest := pairLevel sr op t r.2
    (r.1 :: rest.1, rest.2)
  | l, acc => (l, acc)

/-- The levels of VRED's tree. -/
def pairTree (sr : Bool) (op : Nat → Nat → Nat → Nat × Flags) : Nat → List Nat → TreeAcc → List Nat × TreeAcc
  | 0, l, acc => (l, acc)
  | n + 1, l, acc =>
    let r := pairLevel sr op l acc
    pairTree sr op n r.1 r.2

/-- The elements that enter a tree: those not enabled give the identity. -/
def treeInputs (v : VWord) (w : Nat) (lanes : BitVec 64) (ident : Nat) : List Nat :=
  (List.range (2048 / w)).map fun e => if lanes.getLsbD (e * w / 32) then velem v w e else ident

/-- The end of a reduction, scan or dot product: its result and flags arrive (R96). -/
def State.treeDone (s : State) (acc : TreeAcc) (d : BitVec 5) (mask v : VWord) : Res :=
  .done ((s.setStr { s.str with seed := acc.seed }).arriveV d mask v acc.flags)

/-- VRED (R175). -/
def execVred (f : RX) (s : State) : Out :=
  s.vector anyType fun s =>
    let et := s.et
    let w := etWidth et
    let op := f.xf 0 4
    let sr := op = 0 && (etFmt et).isSome && s.rm == .sr
    let r := pairTree sr (redOp op et s.rm) (Nat.log2 (2048 / w)) (treeInputs (s.getV f.a) w s.lanes (redIdentity op et)) ⟨0, s.str.seed⟩
    let y := r.1.head?.getD 0
    let es := if f.x.getLsbD 4 then List.range (2048 / w) else [0]
    let o := overElems w false (fun _ _ => (y, 0)) es ⟨0, 0, 0, 0⟩
    s.treeDone r.2 f.d o.mask o.val

/-- One step of VSCAN's tree: elements from `d` on take their neighbour `d` below as left operand, ascending. -/
def scanStep (sr : Bool) (op : Nat → Nat → Nat → Nat × Flags) : List Nat → List Nat → TreeAcc → List Nat × TreeAcc
  | a :: ta, b :: tb, acc =>
    let r := treeNode sr op acc a b
    let rest := scanStep sr op ta tb r.2
    (r.1 :: rest.1, rest.2)
  | _, _, acc => ([], acc)

/-- The steps of VSCAN, distance doubling from `d`. -/
def scanTree (sr : Bool) (op : Nat → Nat → Nat → Nat × Flags) : Nat → Nat → List Nat → TreeAcc → List Nat × TreeAcc
  | 0, _, l, acc => (l, acc)
  | n + 1, d, l, acc =>
    let r := scanStep sr op l (l.drop d) acc
    scanTree sr op n (2 * d) (l.take d ++ r.1) r.2

/-- VSCAN (R176). Its flags are those of every node (DESIGN CHOICE, log entry 69). -/
def execVscan (f : RX) (s : State) : Out :=
  s.vector anyType fun s =>
    let et := s.et
    let w := etWidth et
    let n := 2048 / w
    let op := f.xf 0 4
    let sr := op = 0 && (etFmt et).isSome && s.rm == .sr
    let ident := redIdentity op et
    let r := scanTree sr (redOp op et s.rm) (Nat.log2 n) 1 (treeInputs (s.getV f.a) w s.lanes ident) ⟨0, s.str.seed⟩
    let out := if f.x.getLsbD 4 then ident :: r.1.take (n - 1) else r.1
    let v := out.zipIdx.foldl (fun (v : VWord) x => v ||| BitVec.ofNat 2048 (x.1 % 2 ^ w) <<< (w * x.2)) 0
    s.treeDone r.2 f.d (BitVec.allOnes 2048) v

/-! Dot products (R177). -/

/-- A lane's exact floating dot product: products, then the lane's own value. A product of an infinity and a zero gives the default NaN
and NV whatever NaN stands beside it (DESIGN CHOICE, log entry 58). -/
def dotFloat (mode : RMode) (draw : Nat) (ps : List (FVal × FVal)) (lane : FVal) : Nat × Flags :=
  let ops := ps.flatMap (fun x => [x.1, x.2]) ++ [lane]
  let bad := ps.any fun x => zeroInf x.1 x.2
  let infs := ps.filterMap fun x => match x.1, x.2 with
    | .inf _, _ | _, .inf _ => some (x.1.neg != x.2.neg)
    | _, _ => none
  let all := infs ++ (match lane with | .inf n => [n] | _ => [])
  if bad then (f32.nan, fNV)
  else withNan f32 ops (
    if all.contains true && all.contains false then (f32.nan, fNV)
    else match all with
      | n :: _ => (f32.infCode n, 0)
      | [] =>
        let xs := ps.map fun x => x.1.ex.mul x.2.ex
        let sum := match xs with
          | [p0, p1, p2, p3] => (p0.add mode p1).add mode (p2.add mode p3)
          | [p0, p1] => p0.add mode p1
          | _ => ⟨false, 0, 0⟩
        f32.round mode draw (lane.ex.add mode sum))

/-- VDOT (R177). -/
def execVdot (f : RRR) (s : State) : Out :=
  s.vector dotType fun s =>
    let et := s.et
    let w := etWidth et
    let k := 32 / w
    let a := s.getV f.a
    let b := s.getV f.b
    let d := s.getV f.d
    let sr := (etFmt et).isSome && s.rm == .sr
    let r := overElems 32 sr (fun i draw =>
      let js := (List.range k).map fun j => k * i + j
      let lane := velem d 32 i
      match etFmt et with
      | some g => dotFloat s.rm draw (js.map fun j => (g.read (velem a w j), g.read (velem b w j))) (f32.read lane)
      | none => (codeOf 32 (lane + (js.map fun j => etInt et (velem a w j) * etInt et (velem b w j)).sum), 0))
      (laneElems s.lanes 32) ⟨0, 0, 0, s.str.seed⟩
    s.treeDone ⟨r.flags, r.seed⟩ f.d r.mask r.val

end Sys2Proof.Machine
end

