-- ==== Sys2Proof/Machine/Convert.lean ====
section
/-! DEFINITION. The conversion and format-state instructions (R134, R135, R148 to R158): VCVT, VPACK, VUNPK, VSCALE, VCLASS, and the
state of VTYPE, FFLAGS and SEED. -/
namespace Sys2Proof.Machine

/-- The rounding mode of an rm field; 7 means VTYPE.RM (R150). -/
def State.rmField (s : State) (n : Nat) : RMode := if n = 7 then s.rm else RMode.ofCode n

/-- VCVT (R150). -/
def execVcvt (f : RX) (s : State) : Out :=
  s.always fun s =>
    if s.lanes = 0 then .done s else
    let src := NumTy.ofCode (f.xf 0 4)
    let dst := NumTy.ofCode (f.xf 4 4)
    let mode := s.rmField (f.xf 8 3)
    let q := f.xf 11 4
    let ws := src.width
    let wd := dst.width
    let n := 2048 / max ws wd
    let a := s.getV f.a
    let base := if wd < ws then q * n else 0
    let es := (List.range n).map (· + base) |>.filter fun e => s.lanes.getLsbD (e * wd / 32)
    .done (s.putElems 3 f.d wd (mode == .sr) es fun e draw =>
      let j := if ws < wd then e + q * n else e - base
      src.convert dst mode draw (velem a ws j))

/-! Packed formats (R134, R135, R151 to R153). -/

/-- RoundI: to an integer under a mode. -/
def roundI (mode : RMode) (draw : Nat) (x : Ex) : Int × Bool := roundQ mode draw x.n x.e 0

/-- Bits, flags and generator that a pack has formed so far. -/
structure PackAcc where
  flags : Flags
  seed : BitVec 32

/-- A draw where the mode takes one. -/
def PackAcc.draw (acc : PackAcc) (mode : RMode) : Nat × PackAcc :=
  if mode == .sr then let d := lfsrDraw acc.seed; (d.toNat, { acc with seed := d }) else (0, acc)

/-- An FP32 lane with an infinity replaced by the largest finite value, and the flags that raises. -/
def finiteLane (c : Nat) : Ex × Flags :=
  match f32.read c with
  | .inf neg => (⟨neg, if neg then -f32.max.1 else f32.max.1, f32.max.2⟩, fOF ||| fNX)
  | x => (x.ex, 0)

/-- The largest magnitude of some values, as an exact value; zero for none. -/
def largest (xs : List Ex) : Ex :=
  xs.foldl (fun m x =>
    let e := min m.e x.e
    if m.n.natAbs * (pow2 (m.e - e)).natAbs < x.n.natAbs * (pow2 (x.e - e)).natAbs then ⟨false, x.n.natAbs, x.e⟩ else m) ⟨false, 0, 0⟩

/-- One element of an SE group under its exponent and micro-exponent: the field and its flags. -/
def seElem (b : Nat) (E : Int) (m : Nat) (mode : RMode) (draw : Nat) (x : Ex) : Nat × Flags :=
  let r := roundI mode draw { x with e := x.e - (E - 127 - m - b + 1) }
  let mag := r.1.natAbs
  let top := 2 ^ b - 1
  let M := min mag top
  let beyond : Flags := if top < mag then fOF ||| fNX else 0
  (M + (if x.neg || x.n < 0 then 2 ^ b else 0),
    beyond ||| (if r.2 then fNX else 0) ||| (if x.n ≠ 0 && M = 0 then fUF else 0))

/-- The elements of one SE group in order, with draws. -/
def seElems (b : Nat) (E : Int) (ms : Nat → Nat) (mode : RMode) : List (Ex × Nat) → PackAcc → List Nat × PackAcc
  | [], acc => ([], acc)
  | (x, i) :: t, acc =>
    let (d, acc1) := acc.draw mode
    let r := seElem b E (ms (i / 2)) mode d x
    let rest := seElems b E ms mode t { acc1 with flags := acc1.flags ||| r.2 }
    (r.1 :: rest.1, rest.2)

/-- The exponent of an SE group (R152). -/
def seExp (b : Nat) (xs : List Ex) : Int :=
  let a := largest xs
  if a.n = 0 then 0 else
  let e0 := ilog a.n a.e + 127
  let r := roundI .rne 0 { a with e := a.e - (e0 - 127 - b + 1) }
  min (max (if r.1 = (2 : Int) ^ b then e0 + 1 else e0) 0) 254

/-- One SE group (R134, R152) as a number, from the codes of its sixteen lanes. -/
def sePack (b : Nat) (mode : RMode) (cs : List Nat) (acc : PackAcc) : Nat × PackAcc :=
  let vals := cs.map f32.read
  if vals.any FVal.isNan then
    let draws := if mode == .sr then lfsrSteps (32 * 16) acc.seed else acc.seed
    (255, ⟨acc.flags ||| snanFlag vals, draws⟩)
  else
    let fs := cs.map finiteLane
    let acc0 := { acc with flags := fs.foldl (fun g x => g ||| x.2) acc.flags }
    let xs := fs.map (·.1)
    let E := seExp b xs
    let ms (j : Nat) : Nat :=
      let pm := largest (xs.drop (2 * j) |>.take 2)
      let r := roundI .rne 0 { pm with e := pm.e - (E - 127 - b) }
      if 0 < pm.n && decide (r.1 ≤ (2 : Int) ^ b - 1) then 1 else 0
    let r := seElems b E ms mode xs.zipIdx acc0
    let mbits := (List.range 8).foldl (fun n j => n + ms j * 2 ^ j) 0
    (r.1.zipIdx.foldl (fun n x => n + x.1 * 2 ^ (16 + (b + 1) * x.2)) (E.toNat + mbits * 256), r.2)

/-- The elements of an MX block in order, with draws. -/
def mxElems (elem : NumTy) (mode : RMode) (shift : Int) : List Ex → PackAcc → List Nat × PackAcc
  | [], acc => ([], acc)
  | x :: t, acc =>
    let (d, acc1) := acc.draw mode
    let v : Ex := { x with e := x.e + shift }
    let r : Nat × Flags := match elem with
      | .flt f =>
        if v.n = 0 then (f.signBit v.neg, 0) else
        let neg := decide (v.n < 0)
        let (k, q, inex) := f.roundUnb mode d v.n v.e
        if f.exceeds k q then (f.signBit neg + f.maxCode, fOF ||| fNX)
        else (f.encode neg k q, (if inex then fNX else 0) ||| (if inex && f.tiny v.n v.e then fUF else 0))
      | _ => let y := toInt (-128) 127 mode d v; (codeOf 8 y.1, y.2)
    let uf : Flags := if x.n ≠ 0 && r.1 % 128 = 0 && elem.width = 8 || x.n ≠ 0 && r.1 % 8 = 0 && elem.width = 4 then fUF else 0
    let uf := match elem with
      | .int _ _ => if x.n ≠ 0 && r.1 = 0 then fUF else 0
      | _ => uf
    let rest := mxElems elem mode shift t { acc1 with flags := acc1.flags ||| r.2 ||| uf }
    (r.1 :: rest.1, rest.2)

/-- One MX block (R135, R152): its scale byte and its elements. -/
def mxPack (elem : NumTy) (emax : Int) (mode : RMode) (cs : List Nat) (acc : PackAcc) : Nat × List Nat × PackAcc :=
  let vals := cs.map f32.read
  if vals.any FVal.isNan then
    let draws := if mode == .sr then lfsrSteps (32 * 32) acc.seed else acc.seed
    (255, List.replicate 32 0, ⟨acc.flags ||| snanFlag vals, draws⟩)
  else
    let fs := cs.map finiteLane
    let acc0 := { acc with flags := fs.foldl (fun g x => g ||| x.2) acc.flags }
    let xs := fs.map (·.1)
    let a := largest xs
    let x : Int := if a.n = 0 then 0 else min (max (ilog a.n a.e - emax) (-127)) 127 + 127
    let shift : Int := match elem with | .int _ _ => 6 - (x - 127) | _ => -(x - 127)
    let r := mxElems elem mode shift xs acc0
    (x.toNat, r.1, r.2)

/-- "Packed formats" (R151): bytes of the image. -/
def packSize (fmt : Nat) : Nat :=
  match fmt with
  | 0 => 32 | 1 => 48 | 2 => 72 | 5 => 32 | _ => 64
/-- Magnitude bits of SE2, SE4, SE7 (R134). -/
def seBits (fmt : Nat) : Nat := match fmt with | 0 => 2 | 1 => 4 | _ => 7
/-- Element type and emax of an MX format (R135, R152). -/
def mxElem (fmt : Nat) : NumTy × Int :=
  match fmt with
  | 3 => (.flt e4m3, 8) | 4 => (.flt e5m2, 15) | 5 => (.flt e2m1, 2) | _ => (.int true 8, 0)

/-- The four groups of an SE image. -/
def seImage (b : Nat) (mode : RMode) (v : VWord) : List Nat → PackAcc → Nat × PackAcc
  | [], acc => (0, acc)
  | g :: t, acc =>
    let r := sePack b mode ((List.range 16).map fun i => velem v 32 (16 * g + i)) acc
    let rest := seImage b mode v t r.2
    (r.1 + rest.1 * 2 ^ (16 + 16 * (b + 1)), rest.2)

/-- VPACK (R152). -/
def execVpack (f : RX) (s : State) : Out :=
  s.issue fun s =>
    let fmt := f.xf 0 4
    let mode := s.rmField (f.xf 4 3)
    let pos := f.xf 8 8
    let size := packSize fmt
    let v := s.getV f.a
    let acc : PackAcc := ⟨0, s.str.seed⟩
    let mask : VWord := BitVec.ofNat 2048 (2 ^ (8 * size) - 1) <<< (8 * pos)
    let put (s : State) (image : Nat) (acc : PackAcc) : State :=
      (s.setStr { s.str with seed := acc.seed }).putV 2 f.d mask (BitVec.ofNat 2048 image <<< (8 * pos)) acc.flags
    if fmt < 3 then
      let r := seImage (seBits fmt) mode v [0, 1, 2, 3] acc
      .done (put s r.1 r.2)
    else
      let (elem, emax) := mxElem fmt
      let block (k : Nat) (acc : PackAcc) := mxPack elem emax mode ((List.range 32).map fun i => velem v 32 (32 * k + i)) acc
      let (x0, es0, acc0) := block 0 acc
      let (x1, es1, acc1) := block 1 acc0
      let image := (es0 ++ es1).zipIdx.foldl (fun n x => n + x.1 * 2 ^ (elem.width * x.2)) 0
      .done ((put s image acc1).putS 2 f.b (BitVec.ofNat 64 (x0 + x1 * 256)))

/-- One SE element as an exact value (R134). -/
def seValue (b : Nat) (group i : Nat) : Ex :=
  let E : Int := group % 256
  let m : Int := group / 256 / 2 ^ (i / 2) % 2
  let field := group / 2 ^ (16 + (b + 1) * i) % 2 ^ (b + 1)
  let M : Int := field % 2 ^ b
  let neg := field.testBit b
  ⟨neg, if neg then -M else M, E - 127 - m - b + 1⟩

/-- One element of a packed image as FP32 (R153). -/
def unpackElem (fmt : Nat) (image scales : Nat) (i : Nat) : Nat × Flags :=
  if fmt < 3 then
    let b := seBits fmt
    let group := image / 2 ^ (i / 16 * (16 + 16 * (b + 1))) % 2 ^ (16 + 16 * (b + 1))
    if group % 256 = 255 then (f32.nan, 0) else ((f32.round .rne 0 (seValue b group (i % 16))).1, 0)
  else
    let (elem, _) := mxElem fmt
    let x : Int := scales / 256 ^ (i / 32) % 256
    if x = 255 then (f32.nan, 0) else
    let c := image / 2 ^ (elem.width * i) % 2 ^ elem.width
    match elem.read c with
    | .nan neg a m fb sm => (f32.nanOf (.nan neg a m fb sm), 0)
    | .inf neg => (f32.signBit neg + f32.maxCode, fOF ||| fNX)
    | .num neg n e =>
      let shift : Int := match elem with | .int _ _ => x - 127 - 6 | _ => x - 127
      let v : Ex := ⟨neg, if neg then -(n : Int) else n, e + shift⟩
      if v.n = 0 then (f32.signBit neg, 0) else
      let (k, q, _) := f32.roundUnb .rne 0 v.n v.e
      if f32.exceeds k q then (f32.signBit neg + f32.maxCode, fOF ||| fNX) else (f32.encode neg k q, 0)

/-- VUNPK (R153). -/
def execVunpk (f : RX) (s : State) : Out :=
  s.issue fun s =>
    let fmt := f.xf 0 4
    let image := (s.getV f.a >>> (8 * f.xf 8 8)).toNat
    let scales := (s.getS f.b).toNat % 65536
    let r := overElems 32 false (fun i _ => unpackElem fmt image scales i) (List.range 64) ⟨0, 0, 0, 0⟩
    .done (s.putV 2 f.d r.mask r.val r.flags)

/-! Scaling and classes. -/

/-- One scaled element (R154). -/
def fScale (g : Fmt) (mode : RMode) (draw : Nat) (x : FVal) (n : Int) : Nat × Flags :=
  withNan g [x] (match x with
    | .inf neg => (g.infCode neg, 0)
    | .num neg m e => if m = 0 then (g.signBit neg, 0) else g.round mode draw ⟨neg, if neg then -(m : Int) else m, e + n⟩
    | .nan _ _ _ _ _ => (g.nan, 0))

/-- VSCALE (R154). -/
def execVscale (f : RRR) (s : State) : Out :=
  s.elementwise floatType 2 f true fun et mode draw a b =>
    match etFmt et with
    | some g => fScale g mode draw (g.read a) (signedOf g.width b)
    | none => (0, 0)

/-- "Class bits" (R155). -/
def classBit (g : Fmt) (c : Nat) : Nat :=
  match g.read c with
  | .nan _ sn _ _ _ => if sn then 8 else 9
  | .inf neg => if neg then 0 else 7
  | .num neg n e =>
    if n = 0 then (if neg then 3 else 4)
    else if g.tiny n e then (if neg then 2 else 5)
    else (if neg then 1 else 6)

/-- VCLASS (R155). -/
def execVclass (f : RRR) (s : State) : Out :=
  s.elementwise floatType 2 f false fun et _ _ a _ =>
    match etFmt et with
    | some g => (2 ^ classBit g a, 0)
    | none => (0, 0)

/-! Format state. -/

/-- VSETT: acts on every instruction issued after it (R149, R156). -/
def execVsett (f : RX) (s : State) : Out :=
  s.issue fun s =>
    .done ((s.setMe { s.me with vtype := f.x.setWidth 7 }).putS 1 f.d (s.me.vtype.setWidth 64))

/-- VGETF (R157). -/
def execVgetf (f : RRR) (s : State) : Out :=
  s.issue fun s =>
    let old := s.me.fflags
    .done ((s.setMe { s.me with fflags := old &&& ~~~((s.getS f.a).setWidth 5) }).putS 1 f.d (old.setWidth 64))

/-- VSETF (R157). -/
def execVsetf (f : RRR) (s : State) : Out :=
  s.issue fun s =>
    let old := s.me.fflags
    .done ((s.setMe { s.me with fflags := (s.getS f.a).setWidth 5 }).putS 1 f.d (old.setWidth 64))

/-- VSEED (R158). -/
def execVseed (f : RRR) (s : State) : Out :=
  s.issue fun s =>
    .done ((s.setStr { s.str with seed := seedOf ((s.getS f.a).setWidth 32) }).putS 1 f.d (s.str.seed.setWidth 64))

end Sys2Proof.Machine
end

