-- ==== Sys2Proof/Decode.lean ====
section
/-! DEFINITION. Decoding: from the halfwords of a stream's code to an instruction or a named rejection (R26 to R50), and the
encoder, both written from the encoding tables of the manual. -/
namespace Sys2Proof

/-- Why a word is no instruction. -/
inductive DecodeError where
  /-- Reserved OP, FN or OP16, OP 0x00 or 0x7F (R46). -/
  | illOp
  /-- A must-be-zero field is set or a field holds a refused value (R49). -/
  | illField
  /-- The halfwords end before the word or its X word does (R30). -/
  | truncated
  deriving DecidableEq, Repr

namespace Decode

/-- The major opcode, bits [7:1] (R33). -/
def opOf (w : BitVec 32) : Nat := (w.extractLsb' 1 7).toNat
/-- The minor function, bits [16:15] (R33). -/
def fnOf (w : BitVec 32) : Nat := (w.extractLsb' 15 2).toNat
/-- PLOG's operation, bits [31:29] (R38). -/
def plOp (w : BitVec 32) : Nat := (w.extractLsb' 29 3).toNat
/-- The minor function of a P3 word, bits [31:30] (R39). -/
def p3Fn (w : BitVec 32) : Nat := (w.extractLsb' 30 2).toNat
/-- A 32-bit word from its halfwords, low first (R26). -/
def word32 (lo hi : HWord) : BitVec 32 := hi ++ lo
/-- A halfword of the given value. -/
def half (n : Nat) : HWord := BitVec.ofNat 16 n

end Decode

/-! The fields of each format (R33 to R42). -/
def RRR.ofBits (w : BitVec 32) : RRR :=
  ⟨w.extractLsb' 27 5, w.extractLsb' 22 5, w.extractLsb' 17 5⟩
def RI.ofBits (w : BitVec 32) : RI :=
  ⟨w.extractLsb' 27 5, w.extractLsb' 22 5, w.extractLsb' 17 5⟩
def RX.ofBits (w x : BitVec 32) : RX :=
  ⟨w.extractLsb' 27 5, w.extractLsb' 22 5, w.extractLsb' 17 5, x⟩
def M.ofBits (w x : BitVec 32) : M :=
  ⟨w.extractLsb' 27 5, w.extractLsb' 22 5, w.extractLsb' 17 5,
    x.extractLsb' 29 3, x.extractLsb' 24 5, x.extractLsb' 20 4, x.extractLsb' 16 4, x.extractLsb' 0 16⟩
def E.ofBits (w x : BitVec 32) : E :=
  ⟨w.extractLsb' 27 5, w.extractLsb' 22 5, w.extractLsb' 17 5,
    x.extractLsb' 18 14⟩
def B.ofBits (w : BitVec 32) : B := ⟨w.extractLsb' 15 17⟩
def PL.ofBits (w : BitVec 32) : PL :=
  ⟨w.extractLsb' 22 7, w.extractLsb' 15 7⟩
def P3.ofBits (w : BitVec 32) : P3 :=
  ⟨w.extractLsb' 27 3, w.extractLsb' 22 5, w.extractLsb' 15 7⟩

/-- The head of a 32-bit word (R33): guard and stall count. -/
def Head.ofBits (w : BitVec 32) : Head := ⟨w.extractLsb' 11 4, w.extractLsb' 8 3, false, false, 0, 0, 0⟩
/-- The head of an engine command (R42). -/
def Head.ofBitsE (w x : BitVec 32) : Head :=
  ⟨w.extractLsb' 11 4, w.extractLsb' 8 3, x.getLsbD 17, x.getLsbD 16, x.extractLsb' 8 8, x.extractLsb' 0 8, 0⟩

namespace Decode

/-! The rows of one major opcode of "Opcode map" (R46): the minor function picks the instruction; rows that share a
word are told apart by the field their entry names. -/
/-- FENCE, by its scope code (R324); codes above 4 are caught as ILL_FIELD. -/
def fenceOf (imm : BitVec 5) : Instr :=
  match imm.toNat with
  | 0 => .fenceStream
  | 1 => .fenceJob
  | 2 => .fenceCluster
  | 3 => .fenceDevice
  | _ => .fenceSystem

def op01 (w : BitVec 32) : Option Instr :=
  match fnOf w with
  | 0 => some .nop
  | 1 => some (.fqry (RRR.ofBits w))
  | 2 => some .waite
  | _ => none

def op02 (w : BitVec 32) : Option Instr := some (.br (B.ofBits w))

def op03 (w x : BitVec 32) : Option Instr :=
  match fnOf w with
  | 0 => some (.bri (RRR.ofBits w))
  | 1 => some (.call (RX.ofBits w x))
  | 2 => some (.ret (RRR.ofBits w))
  | _ => none

def op04 (w x : BitVec 32) : Option Instr :=
  match fnOf w with
  | 0 => some (.mcall (RI.ofBits w))
  | 1 => some (.mdef (RX.ofBits w x))
  | 2 => some (.nest (RX.ofBits w x))
  | _ => none

def op05 (w : BitVec 32) : Option Instr :=
  match fnOf w with
  | 0 => some .rdv
  | 1 => some .node
  | 2 => some (.cont (RRR.ofBits w))
  | _ => some (.prio (RI.ofBits w))

def op06 (w x : BitVec 32) : Option Instr :=
  match fnOf w with
  | 0 => some (.domain (RRR.ofBits w))
  | 1 => some (.joini (RX.ofBits w x))
  | 2 => some (.self (RRR.ofBits w))
  | _ => some (.wlimset (RRR.ofBits w))

def op08 (w : BitVec 32) : Option Instr :=
  match fnOf w with
  | 0 => some (.add (RRR.ofBits w))
  | 1 => some (.sub (RRR.ofBits w))
  | 2 => some (.and (RRR.ofBits w))
  | _ => some (.or (RRR.ofBits w))

def op09 (w : BitVec 32) : Option Instr :=
  match fnOf w with
  | 0 => some (.xor (RRR.ofBits w))
  | 1 => some (.andn (RRR.ofBits w))
  | 2 => some (.shl (RRR.ofBits w))
  | _ => some (.shr (RRR.ofBits w))

def op0A (w : BitVec 32) : Option Instr :=
  match fnOf w with
  | 0 => some (.sra (RRR.ofBits w))
  | 1 => some (.rotr (RRR.ofBits w))
  | 2 => some (.min (RRR.ofBits w))
  | _ => some (.max (RRR.ofBits w))

def op0B (w : BitVec 32) : Option Instr :=
  match fnOf w with
  | 0 => some (.minu (RRR.ofBits w))
  | 1 => some (.maxu (RRR.ofBits w))
  | 2 => some (.clz (RRR.ofBits w))
  | _ => some (.popc (RRR.ofBits w))

def op0C (w : BitVec 32) : Option Instr :=
  match fnOf w with
  | 0 => some (.mul (RRR.ofBits w))
  | 1 => some (.mulh (RRR.ofBits w))
  | 2 => some (.mulhu (RRR.ofBits w))
  | _ => some (.div (RRR.ofBits w))

def op0D (w : BitVec 32) : Option Instr :=
  match fnOf w with
  | 0 => some (.divu (RRR.ofBits w))
  | 1 => some (.rem (RRR.ofBits w))
  | 2 => some (.remu (RRR.ofBits w))
  | _ => some (.sel (RRR.ofBits w))

def op0E (w : BitVec 32) : Option Instr :=
  match fnOf w with
  | 0 => some (.addi (RI.ofBits w))
  | 1 => some (.andi (RI.ofBits w))
  | 2 => some (.ori (RI.ofBits w))
  | _ => some (.shli (RI.ofBits w))

def op0F (w x : BitVec 32) : Option Instr :=
  match fnOf w with
  | 0 => some (.li (RX.ofBits w x))
  | 1 => some (.lih (RX.ofBits w x))
  | 2 => some (.mov (RRR.ofBits w))
  | _ => some (.lea (RX.ofBits w x))

def op10 (w : BitVec 32) : Option Instr :=
  match fnOf w with
  | 0 => some (.cmpeq (RRR.ofBits w))
  | 1 => some (.cmpne (RRR.ofBits w))
  | 2 => some (.cmplt (RRR.ofBits w))
  | _ => some (.cmpltu (RRR.ofBits w))

def op11 (w : BitVec 32) : Option Instr :=
  match fnOf w with
  | 0 => some (.cmpge (RRR.ofBits w))
  | 1 => some (.cmpgeu (RRR.ofBits w))
  | 2 => some (.cmpeqi (RI.ofBits w))
  | _ => some (.cmplti (RI.ofBits w))

def op16 (w : BitVec 32) : Option Instr :=
  let f := PL.ofBits w
  match plOp w with
  | 0 => some (.plogAnd f)
  | 1 => some (.plogOr f)
  | 2 => some (.plogXor f)
  | 3 => some (.plogAndn f)
  | 4 => some (.plogOrn f)
  | 5 => some (.plogNot f)
  | 6 => some (.plogMov f)
  | _ => some (.plogClr f)

def op17 (w : BitVec 32) : Option Instr :=
  let f := P3.ofBits w
  match p3Fn w with
  | 0 => some (.pget f)
  | 1 => some (.pput f)
  | 2 => some (.pcnt f)
  | _ => some (.pfirst f)

def op20 (w : BitVec 32) : Option Instr :=
  match fnOf w with
  | 0 => some (.vadd (RRR.ofBits w))
  | 1 => some (.vsub (RRR.ofBits w))
  | 2 => some (.vmul (RRR.ofBits w))
  | _ => some (.vfma (RRR.ofBits w))

def op21 (w : BitVec 32) : Option Instr :=
  match fnOf w with
  | 0 => some (.vmin (RRR.ofBits w))
  | 1 => some (.vmax (RRR.ofBits w))
  | 2 => some (.vabs (RRR.ofBits w))
  | _ => some (.vneg (RRR.ofBits w))

def op22 (w : BitVec 32) : Option Instr :=
  match fnOf w with
  | 0 => some (.vdiv (RRR.ofBits w))
  | 1 => some (.vsqrt (RRR.ofBits w))
  | 2 => some (.vrsq (RRR.ofBits w))
  | _ => some (.vrec (RRR.ofBits w))

def op23 (w : BitVec 32) : Option Instr :=
  match fnOf w with
  | 0 => some (.vexp2 (RRR.ofBits w))
  | 1 => some (.vlog2 (RRR.ofBits w))
  | _ => none

def op24 (w : BitVec 32) : Option Instr :=
  match fnOf w with
  | 0 => some (.vand (RRR.ofBits w))
  | 1 => some (.vor (RRR.ofBits w))
  | 2 => some (.vxor (RRR.ofBits w))
  | _ => some (.vnot (RRR.ofBits w))

def op25 (w : BitVec 32) : Option Instr :=
  match fnOf w with
  | 0 => some (.vshl (RRR.ofBits w))
  | 1 => some (.vshr (RRR.ofBits w))
  | 2 => some (.vsra (RRR.ofBits w))
  | _ => some (.vclz (RRR.ofBits w))

def op26 (w : BitVec 32) : Option Instr :=
  match fnOf w with
  | 0 => some (.vcmpeq (RRR.ofBits w))
  | 1 => some (.vcmpne (RRR.ofBits w))
  | 2 => some (.vcmplt (RRR.ofBits w))
  | _ => some (.vcmple (RRR.ofBits w))

def op27 (w : BitVec 32) : Option Instr :=
  match fnOf w with
  | 0 => some (.vcmpun (RRR.ofBits w))
  | 1 => some (.vclass (RRR.ofBits w))
  | _ => none

def op28 (w x : BitVec 32) : Option Instr :=
  match fnOf w with
  | 0 => some (.vsel (RRR.ofBits w))
  | 1 => some (.vmov (RRR.ofBits w))
  | 2 => some (.vbcast (RRR.ofBits w))
  | _ => some (.vlane (RX.ofBits w x))

def op29 (w x : BitVec 32) : Option Instr :=
  match fnOf w with
  | 0 => some (.vext (RX.ofBits w x))
  | 1 => some (.vins (RX.ofBits w x))
  | 2 => some (.vperm (RRR.ofBits w))
  | _ => some (.vslide (RX.ofBits w x))

def op2A (w x : BitVec 32) : Option Instr :=
  match fnOf w with
  | 0 => some (.vred (RX.ofBits w x))
  | 1 => some (.vscan (RX.ofBits w x))
  | 2 => some (.vdot (RRR.ofBits w))
  | _ => none

def op2B (w x : BitVec 32) : Option Instr :=
  match fnOf w with
  | 0 => some (.vsett (RX.ofBits w x))
  | 1 => some (.vgetf (RRR.ofBits w))
  | 2 => some (.vsetf (RRR.ofBits w))
  | _ => some (.vseed (RRR.ofBits w))

def op2C (w x : BitVec 32) : Option Instr :=
  match fnOf w with
  | 0 => some (.vcvt (RX.ofBits w x))
  | 1 => some (.vpack (RX.ofBits w x))
  | 2 => some (.vunpk (RX.ofBits w x))
  | _ => some (.vscale (RRR.ofBits w))

def op30 (w x : BitVec 32) : Option Instr :=
  match fnOf w with
  | 0 => some (.tawin (RI.ofBits w))
  | 1 => some (.tamode (RX.ofBits w x))
  | 2 => some (.tarst (RI.ofBits w))
  | _ => some (.tadly (RX.ofBits w x))

def op31 (w x : BitVec 32) : Option Instr :=
  match fnOf w with
  | 0 => some (.talnch (RX.ofBits w x))
  | 1 => some (.tacap (RX.ofBits w x))
  | 2 => some (.tastat (RRR.ofBits w))
  | _ => none

def op34 (w x : BitVec 32) : Option Instr :=
  match fnOf w with
  | 0 => some (.tld (E.ofBits w x))
  | 1 => some (.tst (E.ofBits w x))
  | 2 => some (.tzero (E.ofBits w x))
  | _ => some (.tmov (E.ofBits w x))

def op35 (w x : BitVec 32) : Option Instr :=
  match fnOf w with
  | 0 => some (.tmma (E.ofBits w x))
  | 1 => some (.tmmas (E.ofBits w x))
  | 2 => some (.ttrn (E.ofBits w x))
  | _ => some (.tcvt (E.ofBits w x))

def op36 (w x : BitVec 32) : Option Instr :=
  match fnOf w with
  | 0 => some (.tfmt (E.ofBits w x))
  | 1 => some .tstart
  | 2 => some (if x.getLsbD 18 then .tcksOn else .tcksOff)
  | _ => none

def op38 (w x : BitVec 32) : Option Instr :=
  match fnOf w with
  | 0 => some .wlease
  | 1 => some .wrls
  | 2 => match (x.extractLsb' 18 2).toNat with
    | 1 => some (.wbankClaim (E.ofBits w x))
    | 2 => some (.wbankRel (E.ofBits w x))
    | _ => some (.wbankSel (E.ofBits w x))
  | _ => match (x.extractLsb' 22 1).toNat with
    | 1 => some (.wregnRem (E.ofBits w x))
    | _ => some (.wregnDef (E.ofBits w x))

def op39 (w x : BitVec 32) : Option Instr :=
  match fnOf w with
  | 0 => some (.wldw (E.ofBits w x))
  | 1 => some (.wstw (E.ofBits w x))
  | 2 => some (.wadmit (E.ofBits w x))
  | _ => some (.wcoll (E.ofBits w x))

def op3A (w x : BitVec 32) : Option Instr :=
  match fnOf w with
  | 0 => match (x.extractLsb' 18 1).toNat with
    | 1 => some .wdrainDiscard
    | _ => some .wdrain
  | 1 => some (.wver (E.ofBits w x))
  | 2 => some (.wopt (E.ofBits w x))
  | _ => some (.wcks (E.ofBits w x))

def op3B (w x : BitVec 32) : Option Instr :=
  match fnOf w with
  | 0 => some (.wsave (E.ofBits w x))
  | 1 => some (.wrest (E.ofBits w x))
  | _ => none

def op40 (w x : BitVec 32) : Option Instr :=
  match fnOf w with
  | 0 => some (.ldl (M.ofBits w x))
  | 1 => some (.stl (M.ofBits w x))
  | _ => none

def op41 (w x : BitVec 32) : Option Instr :=
  match fnOf w with
  | 0 => some (.ldc (M.ofBits w x))
  | 1 => some (.stc (M.ofBits w x))
  | 2 => some (.mstc (M.ofBits w x))
  | _ => none

def op42 (w x : BitVec 32) : Option Instr :=
  match fnOf w with
  | 0 => some (.ldg (M.ofBits w x))
  | 1 => some (.stg (M.ofBits w x))
  | 2 => some (.ldgq (M.ofBits w x))
  | _ => some (.pfg (M.ofBits w x))

def op43 (w x : BitVec 32) : Option Instr :=
  match fnOf w with
  | 0 => some (.vgath (M.ofBits w x))
  | 1 => some (.vscat (M.ofBits w x))
  | 2 => some (.gathq (M.ofBits w x))
  | _ => none

def op44 (w x : BitVec 32) : Option Instr :=
  match fnOf w with
  | 0 => some (.ldk (M.ofBits w x))
  | 1 => some (.ldkq (M.ofBits w x))
  | _ => none

def op45 (w x : BitVec 32) : Option Instr :=
  match fnOf w with
  | 0 => some (.ldh (M.ofBits w x))
  | 1 => some (.sth (M.ofBits w x))
  | 2 => some (.hflsh (M.ofBits w x))
  | _ => some (.hinv (M.ofBits w x))

def op46 (w x : BitVec 32) : Option Instr :=
  match fnOf w with
  | 0 => some (.ldp (M.ofBits w x))
  | 1 => some (.stp (M.ofBits w x))
  | _ => none

def op47 (w x : BitVec 32) : Option Instr :=
  match fnOf w with
  | 0 => some (.spcfg (M.ofBits w x))
  | 1 => some (.cinv (M.ofBits w x))
  | 2 => some (.cflsh (M.ofBits w x))
  | _ => some (.clkr (M.ofBits w x))

def op4C (w x : BitVec 32) : Option Instr :=
  match fnOf w with
  | 0 => some (.xcopy (E.ofBits w x))
  | 1 => some (.xfill (E.ofBits w x))
  | 2 => match (x.extractLsb' 18 1).toNat with
    | 1 => some (.xshdFree (E.ofBits w x))
    | _ => some (.xshdAlloc (E.ofBits w x))
  | _ => some (.xpub (E.ofBits w x))

def op50 (w x : BitVec 32) : Option Instr :=
  some (.aadd (w.extractLsb' 15 2) (M.ofBits w x))

def op51 (w x : BitVec 32) : Option Instr :=
  if fnOf w = 2 then none else some (.afadd (w.extractLsb' 15 2) (M.ofBits w x))

def op52 (w x : BitVec 32) : Option Instr :=
  some (.amin (w.extractLsb' 15 2) (M.ofBits w x))

def op53 (w x : BitVec 32) : Option Instr :=
  some (.amax (w.extractLsb' 15 2) (M.ofBits w x))

def op54 (w x : BitVec 32) : Option Instr :=
  some (.aand (w.extractLsb' 15 2) (M.ofBits w x))

def op55 (w x : BitVec 32) : Option Instr :=
  some (.aor (w.extractLsb' 15 2) (M.ofBits w x))

def op56 (w x : BitVec 32) : Option Instr :=
  some (.axor (w.extractLsb' 15 2) (M.ofBits w x))

def op57 (w x : BitVec 32) : Option Instr :=
  some (.axchg (w.extractLsb' 15 2) (M.ofBits w x))

def op58 (w x : BitVec 32) : Option Instr :=
  some (.acas (w.extractLsb' 15 2) (M.ofBits w x))

def op59 (w x : BitVec 32) : Option Instr :=
  if fnOf w = 2 then none else some (.ared (w.extractLsb' 15 2) (M.ofBits w x))

def op5A (w : BitVec 32) : Option Instr :=
  match fnOf w with
  | 0 => some (fenceOf (w.extractLsb' 27 5))
  | 1 => some .efence
  | 2 => some .ksync
  | _ => none

def op5C (w x : BitVec 32) : Option Instr :=
  match fnOf w with
  | 0 => some (.semw (RX.ofBits w x))
  | 1 => some (.sems (RX.ofBits w x))
  | 2 => some (.semi (RX.ofBits w x))
  | _ => some (.semrd (RX.ofBits w x))

def op5D (w : BitVec 32) : Option Instr :=
  match fnOf w with
  | 0 => some (.bar (RRR.ofBits w))
  | 1 => some (.bara (RRR.ofBits w))
  | 2 => some (.barw (RRR.ofBits w))
  | _ => some (.bibset (RRR.ofBits w))

def op5E (w : BitVec 32) : Option Instr :=
  match fnOf w with
  | 0 => some (.lock (RRR.ofBits w))
  | 1 => some (.unlock (RRR.ofBits w))
  | 2 => some (.trylk (RRR.ofBits w))
  | _ => none

def op5F (w x : BitVec 32) : Option Instr :=
  match fnOf w with
  | 0 => some (.wreg (RX.ofBits w x))
  | 1 => some (.wdereg (RX.ofBits w x))
  | 2 => some (.whold (RX.ofBits w x))
  | _ => some (.wqry (RX.ofBits w x))

def op60 (w x : BitVec 32) : Option Instr :=
  match fnOf w with
  | 0 => some (.qpush (RX.ofBits w x))
  | 1 => some (.qpop (RX.ofBits w x))
  | 2 => some (.qpeek (RX.ofBits w x))
  | _ => some (.qstat (RX.ofBits w x))

def op61 (w : BitVec 32) : Option Instr :=
  match fnOf w with
  | 0 => some (.tokp (RI.ofBits w))
  | 1 => some (.tokw (RI.ofBits w))
  | _ => none

def op64 (w x : BitVec 32) : Option Instr :=
  match fnOf w with
  | 0 => some (.xred (E.ofBits w x))
  | 1 => some (.xbcast (E.ofBits w x))
  | 2 => some (.xtree (E.ofBits w x))
  | _ => some (.xrstat (E.ofBits w x))

def op65 (w x : BitVec 32) : Option Instr :=
  match fnOf w with
  | 0 => some (.lsend (E.ofBits w x))
  | 1 => match (x.extractLsb' 24 1).toNat with
    | 1 => some (.larmDis (E.ofBits w x))
    | _ => some (.larm (E.ofBits w x))
  | 2 => some (.lrecv (E.ofBits w x))
  | _ => match (x.extractLsb' 18 2).toNat with
    | 1 => some (.lctrWait (E.ofBits w x))
    | 2 => some (.lctrSet (E.ofBits w x))
    | 3 => some (.lctrAdd (E.ofBits w x))
    | _ => some (.lctrRd (E.ofBits w x))

def op66 (w x : BitVec 32) : Option Instr :=
  match fnOf w with
  | 0 => some (.lstep (E.ofBits w x))
  | 1 => some (.lstat (E.ofBits w x))
  | _ => none

def op70 (w : BitVec 32) : Option Instr :=
  match fnOf w with
  | 0 => some (.trap (RI.ofBits w))
  | 1 => some .tret
  | 2 => some .udecl
  | _ => some (.seth (RRR.ofBits w))

def op71 (w x : BitVec 32) : Option Instr :=
  match fnOf w with
  | 0 => some (.csrr (RX.ofBits w x))
  | 1 => match (x.extractLsb' 0 12).toNat with
    | 4 => some (.csrwDmr (RX.ofBits w x))
    | 5 => some (.csrwBib (RX.ofBits w x))
    | 6 => some (.csrwBdepth (RX.ofBits w x))
    | 7 => some (.csrwBprio (RX.ofBits w x))
    | _ => some (.csrw (RX.ofBits w x))
  | 2 => some (.aset (RRR.ofBits w))
  | _ => some (.tlbi (RRR.ofBits w))

def op72 (w : BitVec 32) : Option Instr :=
  match fnOf w with
  | 0 => some (.ctxsv (RRR.ofBits w))
  | 1 => some (.ctxrs (RRR.ofBits w))
  | 2 => some (.prq (RRR.ofBits w))
  | _ => some (.wftsp (RRR.ofBits w))

def op73 (w : BitVec 32) : Option Instr :=
  match fnOf w with
  | 0 => some (.trcrec (RRR.ofBits w))
  | 1 => some (.trcrpl (RRR.ofBits w))
  | 2 => some (.trcstat (RRR.ofBits w))
  | _ => some (.errlog (RRR.ofBits w))

def op74 (w x : BitVec 32) : Option Instr :=
  match fnOf w with
  | 0 => some (.inj (RX.ofBits w x))
  | 1 => some (.migr (RRR.ofBits w))
  | 2 => some (.ares (RRR.ofBits w))
  | _ => none

/-- The instruction that a 32-bit word with its X word encodes, by major opcode and minor function; none for ILL_OP (R46). -/
def decodeWord (w x : BitVec 32) : Option Instr :=
  match opOf w with
  | 0x01 => op01 w
  | 0x02 => op02 w
  | 0x03 => op03 w x
  | 0x04 => op04 w x
  | 0x05 => op05 w
  | 0x06 => op06 w x
  | 0x08 => op08 w
  | 0x09 => op09 w
  | 0x0A => op0A w
  | 0x0B => op0B w
  | 0x0C => op0C w
  | 0x0D => op0D w
  | 0x0E => op0E w
  | 0x0F => op0F w x
  | 0x10 => op10 w
  | 0x11 => op11 w
  | 0x16 => op16 w
  | 0x17 => op17 w
  | 0x20 => op20 w
  | 0x21 => op21 w
  | 0x22 => op22 w
  | 0x23 => op23 w
  | 0x24 => op24 w
  | 0x25 => op25 w
  | 0x26 => op26 w
  | 0x27 => op27 w
  | 0x28 => op28 w x
  | 0x29 => op29 w x
  | 0x2A => op2A w x
  | 0x2B => op2B w x
  | 0x2C => op2C w x
  | 0x30 => op30 w x
  | 0x31 => op31 w x
  | 0x34 => op34 w x
  | 0x35 => op35 w x
  | 0x36 => op36 w x
  | 0x38 => op38 w x
  | 0x39 => op39 w x
  | 0x3A => op3A w x
  | 0x3B => op3B w x
  | 0x40 => op40 w x
  | 0x41 => op41 w x
  | 0x42 => op42 w x
  | 0x43 => op43 w x
  | 0x44 => op44 w x
  | 0x45 => op45 w x
  | 0x46 => op46 w x
  | 0x47 => op47 w x
  | 0x4C => op4C w x
  | 0x50 => op50 w x
  | 0x51 => op51 w x
  | 0x52 => op52 w x
  | 0x53 => op53 w x
  | 0x54 => op54 w x
  | 0x55 => op55 w x
  | 0x56 => op56 w x
  | 0x57 => op57 w x
  | 0x58 => op58 w x
  | 0x59 => op59 w x
  | 0x5A => op5A w
  | 0x5C => op5C w x
  | 0x5D => op5D w
  | 0x5E => op5E w
  | 0x5F => op5F w x
  | 0x60 => op60 w x
  | 0x61 => op61 w
  | 0x64 => op64 w x
  | 0x65 => op65 w x
  | 0x66 => op66 w x
  | 0x70 => op70 w
  | 0x71 => op71 w x
  | 0x72 => op72 w
  | 0x73 => op73 w
  | 0x74 => op74 w x
  | _ => none

/-- Does an X word follow? Decided by the major opcode and the minor function (R27). -/
def hasX (w : BitVec 32) : Bool :=
  match opOf w with
  | 0x03 => fnOf w == 1
  | 0x04 => fnOf w == 1 || fnOf w == 2
  | 0x06 => fnOf w == 1
  | 0x0F => fnOf w == 0 || fnOf w == 1 || fnOf w == 3
  | 0x28 => fnOf w == 3
  | 0x29 => fnOf w == 0 || fnOf w == 1 || fnOf w == 3
  | 0x2A => fnOf w == 0 || fnOf w == 1
  | 0x2B => fnOf w == 0
  | 0x2C => fnOf w == 0 || fnOf w == 1 || fnOf w == 2
  | 0x30 => fnOf w == 1 || fnOf w == 3
  | 0x31 => fnOf w == 0 || fnOf w == 1
  | 0x34 => true
  | 0x35 => true
  | 0x36 => fnOf w == 0 || fnOf w == 1 || fnOf w == 2
  | 0x38 => true
  | 0x39 => true
  | 0x3A => true
  | 0x3B => fnOf w == 0 || fnOf w == 1
  | 0x40 => fnOf w == 0 || fnOf w == 1
  | 0x41 => fnOf w == 0 || fnOf w == 1 || fnOf w == 2
  | 0x42 => true
  | 0x43 => fnOf w == 0 || fnOf w == 1 || fnOf w == 2
  | 0x44 => fnOf w == 0 || fnOf w == 1
  | 0x45 => true
  | 0x46 => fnOf w == 0 || fnOf w == 1
  | 0x47 => true
  | 0x4C => true
  | 0x50 => true
  | 0x51 => fnOf w != 2
  | 0x52 => true
  | 0x53 => true
  | 0x54 => true
  | 0x55 => true
  | 0x56 => true
  | 0x57 => true
  | 0x58 => true
  | 0x59 => fnOf w != 2
  | 0x5C => true
  | 0x5F => true
  | 0x60 => true
  | 0x64 => true
  | 0x65 => true
  | 0x66 => fnOf w == 0 || fnOf w == 1
  | 0x71 => fnOf w == 0 || fnOf w == 1
  | 0x74 => fnOf w == 0
  | _ => false

/-- Is the extension word of E format (R42)? Decided by the major opcode. -/
def isE (w : BitVec 32) : Bool :=
  let o := opOf w
  (0x34 <= o && o <= 0x36) || (0x38 <= o && o <= 0x3B) || o == 0x4C || (0x64 <= o && o <= 0x66)

/-- The instruction that a 16-bit word encodes (R43), by its OP16; none for ILL_OP. -/
def decode16 (h : HWord) : Option Code :=
  match (h.extractLsb' 1 4).toNat with
  | 0 => some ⟨⟨0, h.extractLsb' 5 3, false, false, 0, 0, 0⟩, .nop16⟩
  | 1 => some ⟨Head.zero, .mov16 (h.extractLsb' 10 5) (h.extractLsb' 5 5)⟩
  | 2 => some ⟨Head.zero, .add16 (h.extractLsb' 10 5) (h.extractLsb' 5 5)⟩
  | 3 => some ⟨Head.zero, .addi16 (h.extractLsb' 10 6) (h.extractLsb' 5 5)⟩
  | 4 => some ⟨Head.zero, .br16 (h.extractLsb' 5 11)⟩
  | 5 =>
    some ⟨Head.zero, if h.getLsbD 5 then .tok16Wait (h.extractLsb' 6 3) else .tok16Push (h.extractLsb' 6 3)⟩
  | 15 => some ⟨⟨0, 0, false, false, 0, 0, h.extractLsb' 5 11⟩, .inc⟩
  | _ => none

/-- A 32-bit word with its head. -/
def decode32 (w x : BitVec 32) : Option Code :=
  match decodeWord w x with
  | some i => some ⟨if isE w then Head.ofBitsE w x else Head.ofBits w, i⟩
  | none => none

/-- The instruction at the head of a stream's halfwords, whatever its must-be-zero fields hold, and how many
halfwords it takes: the ILL_OP stage of R50. -/
def rawDecode : List HWord → Except DecodeError (Code × Nat)
  | [] => .error .truncated
  | h :: t =>
    if h.getLsbD 0 then
      match t with
      | [] => .error .truncated
      | h1 :: t1 =>
        let w := word32 h h1
        if hasX w then
          match t1 with
          | x0 :: x1 :: _ =>
            match decode32 w (word32 x0 x1) with
            | some i => .ok (i, 4)
            | none => .error .illOp
          | _ => .error .truncated
        else
          match decode32 w 0 with
          | some i => .ok (i, 2)
          | none => .error .illOp
    else
      match decode16 h with
      | some i => .ok (i, 1)
      | none => .error .illOp

/-! The encoder. -/

/-- The two halfwords of a 32-bit word, low first (R26). -/
def halves (w : BitVec 32) : List HWord := [w.extractLsb' 0 16, w.extractLsb' 16 16]

/-- The first word of the formats with three 5-bit fields (R33, R36). -/
def word3 (h : Head) (b a d : BitVec 5) (op fn : Nat) : BitVec 32 :=
  b ++ a ++ d ++ BitVec.ofNat 2 fn ++ h.g ++ h.st ++ BitVec.ofNat 7 op ++ (1 : BitVec 1)

end Decode

def RRR.enc (f : RRR) (h : Head) (op fn : Nat) : List HWord := Decode.halves (Decode.word3 h f.b f.a f.d op fn)
def RI.enc (f : RI) (h : Head) (op fn : Nat) : List HWord := Decode.halves (Decode.word3 h f.imm f.a f.d op fn)
def RX.enc (f : RX) (h : Head) (op fn : Nat) : List HWord :=
  Decode.halves (Decode.word3 h f.b f.a f.d op fn) ++ Decode.halves f.x
/-- The M extension (R40). -/
def M.xword (f : M) : BitVec 32 := f.sc ++ f.cnt ++ f.mod ++ f.ty ++ f.off
def M.enc (f : M) (h : Head) (op fn : Nat) : List HWord :=
  Decode.halves (Decode.word3 h f.b f.a f.d op fn) ++ Decode.halves f.xword
/-- The E extension (R42). -/
def E.xword (f : E) (h : Head) : BitVec 32 :=
  f.op ++ BitVec.ofBool h.se ++ BitVec.ofBool h.we ++ h.ssem ++ h.wsem
def E.enc (f : E) (h : Head) (op fn : Nat) : List HWord :=
  Decode.halves (Decode.word3 h f.b f.a f.d op fn) ++ Decode.halves (f.xword h)
def B.enc (f : B) (h : Head) : List HWord :=
  Decode.halves (f.imm ++ h.g ++ h.st ++ (2 : BitVec 7) ++ (1 : BitVec 1))
def PL.enc (f : PL) (h : Head) (op : Nat) : List HWord :=
  Decode.halves (BitVec.ofNat 3 op ++ f.pa ++ f.pd ++ h.g ++ h.st ++ (0x16 : BitVec 7) ++ (1 : BitVec 1))
def P3.enc (f : P3) (h : Head) (fn : Nat) : List HWord :=
  Decode.halves (BitVec.ofNat 2 fn ++ f.b ++ f.a ++ f.pd ++ h.g ++ h.st ++ (0x17 : BitVec 7) ++ (1 : BitVec 1))

namespace Decode

/-- The words of an instruction with its head, written from the encoding tables (R33 to R43); an event has none. -/
def encode (w : Code) : List HWord :=
  let h := w.head
  match w.instr with
  | .fqry f => f.enc h 0x01 1
  | .br f => f.enc h
  | .bri f => f.enc h 0x03 0
  | .call f => f.enc h 0x03 1
  | .ret f => f.enc h 0x03 2
  | .mcall f => f.enc h 0x04 0
  | .mdef f => f.enc h 0x04 1
  | .nest f => f.enc h 0x04 2
  | .wlimset f => f.enc h 0x06 3
  | .mov16 a d => [half (a.toNat * 1024 + d.toNat * 32 + 2)]
  | .add16 a d => [half (a.toNat * 1024 + d.toNat * 32 + 4)]
  | .addi16 imm d => [half (imm.toNat * 1024 + d.toNat * 32 + 6)]
  | .br16 imm => [half (imm.toNat * 32 + 8)]
  | .tok16Push k => [half (k.toNat * 64 + 10)]
  | .tok16Wait k => [half (k.toNat * 64 + 32 + 10)]
  | .cont f => f.enc h 0x05 2
  | .prio f => f.enc h 0x05 3
  | .domain f => f.enc h 0x06 0
  | .joini f => f.enc h 0x06 1
  | .self f => f.enc h 0x06 2
  | .trcrec f => f.enc h 0x73 0
  | .trcrpl f => f.enc h 0x73 1
  | .trcstat f => f.enc h 0x73 2
  | .add f => f.enc h 0x08 0
  | .sub f => f.enc h 0x08 1
  | .and f => f.enc h 0x08 2
  | .or f => f.enc h 0x08 3
  | .xor f => f.enc h 0x09 0
  | .andn f => f.enc h 0x09 1
  | .shl f => f.enc h 0x09 2
  | .shr f => f.enc h 0x09 3
  | .sra f => f.enc h 0x0A 0
  | .rotr f => f.enc h 0x0A 1
  | .min f => f.enc h 0x0A 2
  | .max f => f.enc h 0x0A 3
  | .minu f => f.enc h 0x0B 0
  | .maxu f => f.enc h 0x0B 1
  | .clz f => f.enc h 0x0B 2
  | .popc f => f.enc h 0x0B 3
  | .mul f => f.enc h 0x0C 0
  | .mulh f => f.enc h 0x0C 1
  | .mulhu f => f.enc h 0x0C 2
  | .div f => f.enc h 0x0C 3
  | .divu f => f.enc h 0x0D 0
  | .rem f => f.enc h 0x0D 1
  | .remu f => f.enc h 0x0D 2
  | .sel f => f.enc h 0x0D 3
  | .addi f => f.enc h 0x0E 0
  | .andi f => f.enc h 0x0E 1
  | .ori f => f.enc h 0x0E 2
  | .shli f => f.enc h 0x0E 3
  | .li f => f.enc h 0x0F 0
  | .lih f => f.enc h 0x0F 1
  | .mov f => f.enc h 0x0F 2
  | .lea f => f.enc h 0x0F 3
  | .cmpeq f => f.enc h 0x10 0
  | .cmpne f => f.enc h 0x10 1
  | .cmplt f => f.enc h 0x10 2
  | .cmpltu f => f.enc h 0x10 3
  | .cmpge f => f.enc h 0x11 0
  | .cmpgeu f => f.enc h 0x11 1
  | .cmpeqi f => f.enc h 0x11 2
  | .cmplti f => f.enc h 0x11 3
  | .plogAnd f => f.enc h 0
  | .plogOr f => f.enc h 1
  | .plogXor f => f.enc h 2
  | .plogAndn f => f.enc h 3
  | .plogOrn f => f.enc h 4
  | .plogNot f => f.enc h 5
  | .plogMov f => f.enc h 6
  | .plogClr f => f.enc h 7
  | .pget f => f.enc h 0
  | .pput f => f.enc h 1
  | .pcnt f => f.enc h 2
  | .pfirst f => f.enc h 3
  | .vadd f => f.enc h 0x20 0
  | .vsub f => f.enc h 0x20 1
  | .vmul f => f.enc h 0x20 2
  | .vfma f => f.enc h 0x20 3
  | .vmin f => f.enc h 0x21 0
  | .vmax f => f.enc h 0x21 1
  | .vabs f => f.enc h 0x21 2
  | .vneg f => f.enc h 0x21 3
  | .vdiv f => f.enc h 0x22 0
  | .vsqrt f => f.enc h 0x22 1
  | .vrsq f => f.enc h 0x22 2
  | .vrec f => f.enc h 0x22 3
  | .vexp2 f => f.enc h 0x23 0
  | .vlog2 f => f.enc h 0x23 1
  | .vand f => f.enc h 0x24 0
  | .vor f => f.enc h 0x24 1
  | .vxor f => f.enc h 0x24 2
  | .vnot f => f.enc h 0x24 3
  | .vshl f => f.enc h 0x25 0
  | .vshr f => f.enc h 0x25 1
  | .vsra f => f.enc h 0x25 2
  | .vclz f => f.enc h 0x25 3
  | .vcmpeq f => f.enc h 0x26 0
  | .vcmpne f => f.enc h 0x26 1
  | .vcmplt f => f.enc h 0x26 2
  | .vcmple f => f.enc h 0x26 3
  | .vcmpun f => f.enc h 0x27 0
  | .vclass f => f.enc h 0x27 1
  | .vsel f => f.enc h 0x28 0
  | .vmov f => f.enc h 0x28 1
  | .vbcast f => f.enc h 0x28 2
  | .vlane f => f.enc h 0x28 3
  | .vext f => f.enc h 0x29 0
  | .vins f => f.enc h 0x29 1
  | .vperm f => f.enc h 0x29 2
  | .vslide f => f.enc h 0x29 3
  | .vred f => f.enc h 0x2A 0
  | .vscan f => f.enc h 0x2A 1
  | .vdot f => f.enc h 0x2A 2
  | .vsett f => f.enc h 0x2B 0
  | .vgetf f => f.enc h 0x2B 1
  | .vsetf f => f.enc h 0x2B 2
  | .vseed f => f.enc h 0x2B 3
  | .vcvt f => f.enc h 0x2C 0
  | .vpack f => f.enc h 0x2C 1
  | .vunpk f => f.enc h 0x2C 2
  | .vscale f => f.enc h 0x2C 3
  | .tawin f => f.enc h 0x30 0
  | .tamode f => f.enc h 0x30 1
  | .tarst f => f.enc h 0x30 2
  | .tadly f => f.enc h 0x30 3
  | .talnch f => f.enc h 0x31 0
  | .tacap f => f.enc h 0x31 1
  | .tastat f => f.enc h 0x31 2
  | .tld f => f.enc h 0x34 0
  | .tst f => f.enc h 0x34 1
  | .tzero f => f.enc h 0x34 2
  | .tmov f => f.enc h 0x34 3
  | .tmma f => f.enc h 0x35 0
  | .tmmas f => f.enc h 0x35 1
  | .ttrn f => f.enc h 0x35 2
  | .tcvt f => f.enc h 0x35 3
  | .tfmt f => f.enc h 0x36 0
  | .wbankSel f => f.enc h 0x38 2
  | .wbankClaim f => f.enc h 0x38 2
  | .wbankRel f => f.enc h 0x38 2
  | .wregnDef f => f.enc h 0x38 3
  | .wregnRem f => f.enc h 0x38 3
  | .wldw f => f.enc h 0x39 0
  | .wstw f => f.enc h 0x39 1
  | .wadmit f => f.enc h 0x39 2
  | .wcoll f => f.enc h 0x39 3
  | .wver f => f.enc h 0x3A 1
  | .wopt f => f.enc h 0x3A 2
  | .wcks f => f.enc h 0x3A 3
  | .wsave f => f.enc h 0x3B 0
  | .wrest f => f.enc h 0x3B 1
  | .ldl f => f.enc h 0x40 0
  | .stl f => f.enc h 0x40 1
  | .ldc f => f.enc h 0x41 0
  | .stc f => f.enc h 0x41 1
  | .mstc f => f.enc h 0x41 2
  | .ldg f => f.enc h 0x42 0
  | .stg f => f.enc h 0x42 1
  | .ldgq f => f.enc h 0x42 2
  | .pfg f => f.enc h 0x42 3
  | .vgath f => f.enc h 0x43 0
  | .vscat f => f.enc h 0x43 1
  | .gathq f => f.enc h 0x43 2
  | .ldk f => f.enc h 0x44 0
  | .ldkq f => f.enc h 0x44 1
  | .ldh f => f.enc h 0x45 0
  | .sth f => f.enc h 0x45 1
  | .hflsh f => f.enc h 0x45 2
  | .hinv f => f.enc h 0x45 3
  | .ldp f => f.enc h 0x46 0
  | .stp f => f.enc h 0x46 1
  | .spcfg f => f.enc h 0x47 0
  | .cinv f => f.enc h 0x47 1
  | .cflsh f => f.enc h 0x47 2
  | .clkr f => f.enc h 0x47 3
  | .aadd sp f => f.enc h 0x50 sp.toNat
  | .afadd sp f => f.enc h 0x51 sp.toNat
  | .amin sp f => f.enc h 0x52 sp.toNat
  | .amax sp f => f.enc h 0x53 sp.toNat
  | .aand sp f => f.enc h 0x54 sp.toNat
  | .aor sp f => f.enc h 0x55 sp.toNat
  | .axor sp f => f.enc h 0x56 sp.toNat
  | .axchg sp f => f.enc h 0x57 sp.toNat
  | .acas sp f => f.enc h 0x58 sp.toNat
  | .ared sp f => f.enc h 0x59 sp.toNat
  | .xshdAlloc f => f.enc h 0x4C 2
  | .xshdFree f => f.enc h 0x4C 2
  | .xcopy f => f.enc h 0x4C 0
  | .xfill f => f.enc h 0x4C 1
  | .xpub f => f.enc h 0x4C 3
  | .semw f => f.enc h 0x5C 0
  | .sems f => f.enc h 0x5C 1
  | .semi f => f.enc h 0x5C 2
  | .semrd f => f.enc h 0x5C 3
  | .bar f => f.enc h 0x5D 0
  | .bara f => f.enc h 0x5D 1
  | .barw f => f.enc h 0x5D 2
  | .bibset f => f.enc h 0x5D 3
  | .lock f => f.enc h 0x5E 0
  | .unlock f => f.enc h 0x5E 1
  | .trylk f => f.enc h 0x5E 2
  | .wreg f => f.enc h 0x5F 0
  | .wdereg f => f.enc h 0x5F 1
  | .whold f => f.enc h 0x5F 2
  | .wqry f => f.enc h 0x5F 3
  | .qpush f => f.enc h 0x60 0
  | .qpop f => f.enc h 0x60 1
  | .qpeek f => f.enc h 0x60 2
  | .qstat f => f.enc h 0x60 3
  | .tokp f => f.enc h 0x61 0
  | .tokw f => f.enc h 0x61 1
  | .xtree f => f.enc h 0x64 2
  | .xred f => f.enc h 0x64 0
  | .xbcast f => f.enc h 0x64 1
  | .xrstat f => f.enc h 0x64 3
  | .lsend f => f.enc h 0x65 0
  | .larm f => f.enc h 0x65 1
  | .larmDis f => f.enc h 0x65 1
  | .lrecv f => f.enc h 0x65 2
  | .lctrRd f => f.enc h 0x65 3
  | .lctrWait f => f.enc h 0x65 3
  | .lctrSet f => f.enc h 0x65 3
  | .lctrAdd f => f.enc h 0x65 3
  | .lstep f => f.enc h 0x66 0
  | .lstat f => f.enc h 0x66 1
  | .trap f => f.enc h 0x70 0
  | .seth f => f.enc h 0x70 3
  | .csrr f => f.enc h 0x71 0
  | .csrw f => f.enc h 0x71 1
  | .csrwDmr f => f.enc h 0x71 1
  | .csrwBib f => f.enc h 0x71 1
  | .csrwBdepth f => f.enc h 0x71 1
  | .csrwBprio f => f.enc h 0x71 1
  | .aset f => f.enc h 0x71 2
  | .tlbi f => f.enc h 0x71 3
  | .ctxsv f => f.enc h 0x72 0
  | .ctxrs f => f.enc h 0x72 1
  | .prq f => f.enc h 0x72 2
  | .wftsp f => f.enc h 0x72 3
  | .errlog f => f.enc h 0x73 3
  | .inj f => f.enc h 0x74 0
  | .migr f => f.enc h 0x74 1
  | .ares f => f.enc h 0x74 2
  | .nop => halves (word3 h 0 0 0 0x01 0)
  | .waite => halves (word3 h 0 0 0 0x01 2)
  | .nop16 => [half (h.st.toNat * 32)]
  | .inc => [half (h.step.toNat * 32 + 30)]
  | .rdv => halves (word3 h 0 0 0 0x05 0)
  | .node => halves (word3 h 0 0 0 0x05 1)
  | .tstart => (⟨0, 0, 0, 0⟩ : E).enc h 0x36 1
  | .tcksOff => (⟨0, 0, 0, 0⟩ : E).enc h 0x36 2
  | .tcksOn => (⟨0, 0, 0, 1⟩ : E).enc h 0x36 2
  | .wlease => (⟨0, 0, 0, 0⟩ : E).enc h 0x38 0
  | .wrls => (⟨0, 0, 0, 0⟩ : E).enc h 0x38 1
  | .wdrain => (⟨0, 0, 0, 0⟩ : E).enc h 0x3A 0
  | .wdrainDiscard => (⟨0, 0, 0, 1⟩ : E).enc h 0x3A 0
  | .fenceStream => halves (word3 h 0 0 0 0x5A 0)
  | .fenceJob => halves (word3 h 1 0 0 0x5A 0)
  | .fenceCluster => halves (word3 h 2 0 0 0x5A 0)
  | .fenceDevice => halves (word3 h 3 0 0 0x5A 0)
  | .fenceSystem => halves (word3 h 4 0 0 0x5A 0)
  | .efence => halves (word3 h 0 0 0 0x5A 1)
  | .ksync => halves (word3 h 0 0 0 0x5A 2)
  | .tret => halves (word3 h 0 0 0 0x70 1)
  | .udecl => halves (word3 h 0 0 0 0x70 2)
  | .planeCapture | .wavefrontAdmission | .wavefrontCellArrival | .wavefrontDelivery | .applyCommit
  | .queueLoadArrival | .writeTakesEffect | .copyCompletion | .deadlockSweep | .waitLimit | .redTimeout
  | .linkMessageArrival | .peerAccessArrival | .sendAcknowledged | .goBackReplay | .linkDown | .postWaitTimeout
  | .linkTraining | .gscStep | .gscJoin | .checkerCompare | .vbusLaneFault | .preempt | .distributorSelection
  | .replayDiverge | .dispatch | .jobRetirement | .hostTailWrite | .queueDescriptorWrite | .queueDisableWrite
  | .hostirqClear | .layerpwrWrite | .peerdataWrite | .nctrWrite | .windowWrite | .hostCoherentAccess
  | .layer1PowerOff | .layer1PowerOn | .powerOn | .firmwareImageDelivery | .configurationImageDelivery
  | .summerTransition | .powerRemoval | .dieReset | .attestationRequest | .hazelTranslation
  | .uncorrectableError | .hostErrorOnStore | .supervisorDebugStop | .returnToWinterThroughFault => []

/-- The must-be-zero bits (R49): the operand fields the instruction uses and its head, encoded again, are all the word
holds. -/
def zerosOk (hs : List HWord) (w : Code) (n : Nat) : Bool := encode w == hs.take n

/-- The ILL_FIELD stage on the instruction's own bits. -/
def fieldsOk (hs : List HWord) (w : Code) (n : Nat) : Bool := w.wf && zerosOk hs w n

/-- The decoder, total on any halfwords: the instruction and the halfwords after it, or a named rejection. -/
def decode (hs : List HWord) : Except DecodeError (Code × List HWord) :=
  match rawDecode hs with
  | .error e => .error e
  | .ok (w, n) => if fieldsOk hs w n then .ok (w, hs.drop n) else .error .illField

/-- The halfwords of a row's bits, numbered as the opcode table numbers them: bit 0 is the least significant bit of the
first halfword. Zeros follow, enough for the longest instruction. -/
def tableHalves (w : Nat) : List HWord :=
  [half w, half (w / 2 ^ 16), half (w / 2 ^ 32), half (w / 2 ^ 48)]

end Decode

/-- The instruction the decoder reads from `nbits` bits `w`, every bit above them zero. -/
def decodeTableWord (nbits w : Nat) : Option Instr :=
  match Decode.decode (Decode.tableHalves (w % 2 ^ nbits)) with
  | .ok (i, _) => some i.instr
  | .error _ => none

end Sys2Proof
end

