-- ==== Sys2Proof/Machine/Interlock.lean ====
section
/-! DEFINITION. Interlocks on results of variable latency (R94, R96): the registers that an instruction reads and writes, held
against the destinations of its stream's outstanding results: loads, pops and the like (R280), TACAP (R264), WCOLL and WVER (R234). -/
namespace Sys2Proof.Machine

/-- Registers that an instruction reads and writes: scalar and vector. -/
structure Names where
  sr : List (BitVec 5)
  sw : List (BitVec 5)
  vr : List (BitVec 5)
  vw : List (BitVec 5)

/-- Scalar registers alone. -/
def Names.s (reads writes : List (BitVec 5)) : Names := ⟨reads, writes, [], []⟩
/-- Vector registers alone. -/
def Names.v (reads writes : List (BitVec 5)) : Names := ⟨[], [], reads, writes⟩
/-- `n` registers from one on. -/
def regsFrom (a : BitVec 5) (n : Nat) : List (BitVec 5) := (List.range n).map (regPlus a)

/-- A load: its address registers, and the destination, which is in `v` for a vector shape. -/
def loadNames (f : M) : Names := if f.vec then ⟨[f.a, f.b], [], [], [f.d]⟩ else ⟨[f.a, f.b], [f.d], [], []⟩
/-- A store: its address registers, and the register stored. -/
def storeNames (f : M) : Names := if f.vec then ⟨[f.a, f.b], [], [f.d], []⟩ else ⟨[f.a, f.b, f.d], [], [], []⟩
/-- The mask registers of a tile command (R187). -/
def maskNames (m z : Nat) : List (BitVec 5) :=
  (if m = 0 then [] else [BitVec.ofNat 5 m, BitVec.ofNat 5 (m + 1)]) ++ (if z = 0 then [] else [BitVec.ofNat 5 z])

/-- The registers of each instruction, as its entry names them. -/
def namesOf : Instr → Names
  | .fqry f | .bri f | .ret f | .wlimset f | .self f | .add f | .sub f | .and f | .or f | .xor f | .andn f | .shl f | .shr f
  | .sra f | .rotr f | .min f | .max f | .minu f | .maxu f | .clz f | .popc f | .mul f | .mulh f | .mulhu f | .div f | .divu f
  | .rem f | .remu f | .sel f | .mov f | .bar f | .bara f | .barw f | .bibset f | .lock f | .unlock f | .trylk f | .cont f
  | .domain f | .trcrec f | .trcrpl f | .trcstat f | .seth f | .aset f | .tlbi f | .ctxsv f | .ctxrs f | .prq f | .wftsp f
  | .errlog f | .migr f | .ares f | .tastat f | .vgetf f | .vsetf f | .vseed f => .s [f.a, f.b] [f.d]
  | .call _ => .s [] [31]
  | .mdef f => .s [f.a] []
  | .lea f | .semw f | .sems f | .semi f | .semrd f | .wreg f | .wdereg f | .whold f | .wqry f | .qstat f | .csrr f | .csrw f
  | .csrwDmr f | .csrwBib f | .csrwBdepth f | .csrwBprio f | .joini f | .li f | .inj f | .vsett f => .s [f.a, f.b] [f.d]
  | .lih f => .s [f.d] [f.d]
  | .nest f => .s (regsFrom f.a 5) []
  | .addi f | .andi f | .ori f | .shli f | .trap f | .prio f | .tawin f => .s [f.a] [f.d]
  | .tarst f => .s [f.a] []
  | .mov16 a d => .s [a] [d]
  | .add16 a d => .s [a, d] [d]
  | .addi16 _ d => .s [d] [d]
  | .cmpeq f | .cmpne f | .cmplt f | .cmpltu f | .cmpge f | .cmpgeu f => .s [f.a, f.b] []
  | .cmpeqi f | .cmplti f => .s [f.a] []
  | .pget f | .pcnt f => .s [] [f.a]
  | .pput f => .s [f.a] []
  | .pfirst f => .s [f.b.setWidth 5] [f.a]
  | .vadd f | .vsub f | .vmul f | .vmin f | .vmax f | .vdiv f | .vand f | .vor f | .vxor f | .vshl f | .vshr f | .vsra f
  | .vsel f | .vperm f | .vscale f => .v [f.a, f.b] [f.d]
  | .vfma f | .vdot f => .v [f.a, f.b, f.d] [f.d]
  | .vcmpeq f | .vcmpne f | .vcmplt f | .vcmple f | .vcmpun f => .v [f.a, f.b] []
  | .vabs f | .vneg f | .vsqrt f | .vrsq f | .vrec f | .vexp2 f | .vlog2 f | .vnot f | .vclz f | .vclass f | .vmov f =>
    .v [f.a] [f.d]
  | .vbcast f => ⟨[f.a], [], [], [f.d]⟩
  | .vlane f => .v [] [f.d]
  | .vext f => ⟨[f.b], [f.d], [f.a], []⟩
  | .vins f => ⟨[f.a, f.b], [], [], [f.d]⟩
  | .vslide f => ⟨[f.b], [], [f.a], [f.d]⟩
  | .vred f | .vscan f | .vcvt f => .v [f.a] [f.d]
  | .vpack f => ⟨[], if f.xf 0 4 < 3 then [] else [f.b], [f.a], [f.d]⟩
  | .vunpk f => ⟨if f.xf 0 4 < 3 then [] else [f.b], [], [f.a], [f.d]⟩
  | .tamode f => .s [f.a] []
  | .tadly f | .talnch f => .v [f.a] []
  | .tacap f => .v [] (if f.xf 6 1 = 1 then [f.d, f.b] else [f.d])
  | .tld f => .s [f.a, f.b, regPlus f.a 1] []
  | .tst f => .s ([f.a, f.b] ++ maskNames (f.of 9 5) 0) []
  | .tzero f | .tmma f => .s (maskNames (f.of 0 5) 0) []
  | .tmmas f => .s (maskNames (f.of 0 5) (f.of 5 5)) []
  | .tfmt f => .s [f.a] []
  | .tmov _ | .ttrn _ | .tcvt _ => .s [] []
  | .wcoll f | .wver f | .xrstat f | .lrecv f | .lctrRd f | .lctrWait f | .lctrSet f | .lctrAdd f | .lstep f | .lstat f =>
    .s [f.a, f.b] [f.d]
  | .xshdAlloc f => .s (regsFrom f.a 4) [f.d]
  | .wbankSel f | .wbankClaim f | .wbankRel f | .wregnDef f | .wregnRem f | .wldw f | .wstw f | .wadmit f | .wopt f | .wcks f
  | .wsave f | .wrest f | .xtree f | .xred f | .xbcast f | .xshdFree f => .s [f.a, f.b] []
  | .xcopy f | .xfill f | .xpub f => .s [f.a, f.b, f.d] []
  | .lsend f | .larm f | .larmDis f => .s [f.a, f.b, f.d, regPlus f.d 1] []
  | .ldl f | .ldc f | .ldg f | .ldk f | .ldh f | .ldp f => loadNames f
  | .stl f | .stc f | .mstc f | .stg f | .sth f | .stp f => storeNames f
  | .ldgq f | .pfg f | .gathq f | .ldkq f | .hflsh f | .hinv f | .spcfg f | .cinv f | .cflsh f | .clkr f => .s [f.a, f.b] []
  | .vgath f => ⟨[f.a], [], [f.b], [f.d]⟩
  | .vscat f => ⟨[f.a], [], [f.b, f.d], []⟩
  | .aadd _ f | .afadd _ f | .amin _ f | .amax _ f | .aand _ f | .aor _ f | .axor _ f | .axchg _ f => .s [f.a, f.b] [f.d]
  | .acas _ f => .s [f.a, f.b, f.d] [f.d]
  | .ared _ f => if f.cnt = 0 then .s [f.a, f.d] [] else ⟨[f.a], [], [f.d], []⟩
  | .qpush f => if f.xf 0 4 < 8 then .s [f.a] [] else .v [f.a] []
  | .qpop f | .qpeek f => if f.xf 0 4 < 8 then .s [] [f.d] else .v [] [f.d]
  | _ => .s [] []

/-- Does the instruction read the flags (R144), which results still to come may raise? It waits for those in both latency modes
(DESIGN CHOICE, log entry 67). -/
def readsFlags : Instr → Bool
  | .vgetf _ | .vsetf _ => true
  | .csrr f | .csrw f => f.xf 0 12 == 0x0C
  | _ => false

/-- The destinations of a stream's results still to come (R96), in one of its two files. -/
def Strm.coming (t : Strm) (vector : Bool) : List (BitVec 5) :=
  t.arriving.filterMap fun w =>
    match w.dest with
    | .s n => if vector then none else some n
    | .v n => if vector then some n else none
    | .p _ | .nest _ => none

/-- The s registers that a stream waits for: those of its loads and the like, and of outstanding WCOLL and WVER. -/
def Core.comingS (k : Core) (i : StreamId) : List (BitVec 5) :=
  ((k.strm i).coming false ++
    (if i == StreamId.ws then (k.outQ ++ k.rngQ ++ k.verQ).map fun (x : Cmd) => match x.code.instr with
      | .wcoll f | .wver f => f.d
      | _ => 0
    else [])).filter (· != 0)

/-- The v registers that a stream waits for: those of its loads and the like, and of outstanding TACAPs. -/
def Core.comingV (k : Core) (i : StreamId) : List (BitVec 5) :=
  (k.strm i).coming true ++
    (if i == StreamId.vs then k.tacaps.flatMap fun t => if t.win then [t.d, t.b] else [t.d] else [])

/-- The registers of an instruction meet destinations still to come: one that it reads, or one that it writes in a scoreboard
block. -/
def Names.held (n : Names) (lm : Bool) (ss vs : List (BitVec 5)) : Bool :=
  n.sr.any ss.contains || n.vr.any vs.contains || (!lm && (n.sw.any ss.contains || n.vw.any vs.contains))

/-- Instructions whose results come in the order of their issue: a WCOLL or WVER behind another, a TACAP behind another. -/
def inOrder : Instr → Bool
  | .wcoll _ | .wver _ | .tacap _ => true
  | _ => false

/-- Does the stream run a block of the exposed mode? -/
def Strm.exposed (t : Strm) : Bool :=
  match t.blk with
  | some b => b.lm
  | none => false

/-- Does an instruction interlock in its stream? In a scoreboard block, what comes in order anyway is held by what it reads, and by
what it writes of the stream's other results (DEDUCED, log entry 16). -/
def State.interlocked (s : State) (c : CoreId) (i : StreamId) (w : Instr) : Bool :=
  let k := s.core c
  let t := k.strm i
  (namesOf w).held (t.exposed || inOrder w) (k.comingS i) (k.comingV i) ||
  (inOrder w && (namesOf w).held t.exposed (t.coming false) (t.coming true)) ||
  (readsFlags w && t.arriving.any fun x => x.flags != 0)

/-- Is a scalar register still to come, for a reader, and in a scoreboard block for a writer (R94, R96)? -/
def Core.awaits (k : Core) (i : StreamId) (r : BitVec 5) : Bool := (k.comingS i).contains r

end Sys2Proof.Machine
end

