-- ==== Sys2Proof/Machine/Permit.lean ====
section
/-! DEFINITION. Which streams may execute an instruction (R47), which instructions are the supervisor's (R48), and the
transfer shapes of the streams (R276). -/
namespace Sys2Proof.Machine

/-- "Stream permissions" (R47). No stream executes an event. INC is permitted wherever its host is (DEDUCED, log entry 24). -/
def permitted (k : StreamId) : Instr → Bool
  | .mdef _ | .cont _ | .prio _ | .domain _ | .joini _ | .trcrec _ | .trcrpl _ | .trcstat _ | .spcfg _
  | .seth _ | .aset _ | .tlbi _ | .ctxsv _ | .ctxrs _ | .prq _ | .wftsp _ | .errlog _ | .inj _ | .migr _
  | .ares _ | .tret | .udecl => k == .cs
  | .vadd _ | .vsub _ | .vmul _ | .vfma _ | .vmin _ | .vmax _ | .vabs _ | .vneg _ | .vdiv _ | .vsqrt _
  | .vrsq _ | .vrec _ | .vexp2 _ | .vlog2 _ | .vand _ | .vor _ | .vxor _ | .vnot _ | .vshl _ | .vshr _
  | .vsra _ | .vclz _ | .vcmpeq _ | .vcmpne _ | .vcmplt _ | .vcmple _ | .vcmpun _ | .vclass _ | .vsel _
  | .vmov _ | .vbcast _ | .vlane _ | .vext _ | .vins _ | .vperm _ | .vslide _ | .vred _ | .vscan _ | .vdot _
  | .vsett _ | .vgetf _ | .vsetf _ | .vseed _ | .vcvt _ | .vpack _ | .vunpk _ | .vscale _ | .tawin _
  | .tamode _ | .tarst _ | .tadly _ | .talnch _ | .tacap _ | .tastat _ | .vgath _ | .vscat _ => k == .vs
  | .tld _ | .tst _ | .tzero _ | .tmov _ | .tmma _ | .tmmas _ | .ttrn _ | .tcvt _ | .tfmt _ | .tstart
  | .tcksOff | .tcksOn => k == .ts
  | .ldgq _ | .gathq _ | .ldkq _ | .xshdAlloc _ | .xshdFree _ | .xcopy _ | .xfill _ | .xpub _ => k == .as
  | .wbankSel _ | .wbankClaim _ | .wbankRel _ | .wregnDef _ | .wregnRem _ | .wldw _ | .wstw _ | .wadmit _
  | .wcoll _ | .wver _ | .wopt _ | .wcks _ | .wsave _ | .wrest _ | .wlease | .wrls | .wdrain | .wdrainDiscard => k == .ws
  | .xtree _ | .xred _ | .xbcast _ | .xrstat _ | .lsend _ | .larm _ | .larmDis _ | .lrecv _ | .lctrRd _
  | .lctrWait _ | .lctrSet _ | .lctrAdd _ | .lstep _ | .lstat _ => k == .xs
  | .ldl _ | .stl _ | .ldc _ | .stc _ | .mstc _ | .ldg _ | .stg _ | .pfg _ | .ldk _ | .ldh _ | .sth _ | .ldp _
  | .stp _ | .aadd _ _ | .afadd _ _ | .amin _ _ | .amax _ _ | .aand _ _ | .aor _ _ | .axor _ _ | .axchg _ _
  | .acas _ _ | .ared _ _ => k == .cs || k == .vs || k == .as
  | .hflsh _ | .hinv _ | .cinv _ | .cflsh _ | .clkr _ => k == .cs || k == .as
  | .planeCapture | .wavefrontAdmission | .wavefrontCellArrival | .wavefrontDelivery | .applyCommit
  | .queueLoadArrival | .writeTakesEffect | .copyCompletion | .deadlockSweep | .waitLimit | .redTimeout
  | .linkMessageArrival | .peerAccessArrival | .sendAcknowledged | .goBackReplay | .linkDown | .postWaitTimeout
  | .linkTraining | .gscStep | .gscJoin | .checkerCompare | .vbusLaneFault | .preempt | .distributorSelection
  | .replayDiverge | .dispatch | .jobRetirement | .hostTailWrite | .queueDescriptorWrite | .queueDisableWrite
  | .hostirqClear | .layerpwrWrite | .peerdataWrite | .nctrWrite | .windowWrite | .hostCoherentAccess
  | .layer1PowerOff | .layer1PowerOn | .powerOn | .firmwareImageDelivery | .configurationImageDelivery
  | .summerTransition | .powerRemoval | .dieReset | .attestationRequest | .hazelTranslation
  | .uncorrectableError | .hostErrorOnStore | .supervisorDebugStop | .returnToWinterThroughFault => false
  | .fqry _ | .br _ | .bri _ | .call _ | .ret _ | .mcall _ | .nest _ | .wlimset _ | .mov16 _ _ | .add16 _ _
  | .addi16 _ _ | .br16 _ | .tok16Push _ | .tok16Wait _ | .self _ | .add _ | .sub _ | .and _ | .or _ | .xor _
  | .andn _ | .shl _ | .shr _ | .sra _ | .rotr _ | .min _ | .max _ | .minu _ | .maxu _ | .clz _ | .popc _
  | .mul _ | .mulh _ | .mulhu _ | .div _ | .divu _ | .rem _ | .remu _ | .sel _ | .addi _ | .andi _ | .ori _
  | .shli _ | .li _ | .lih _ | .mov _ | .lea _ | .cmpeq _ | .cmpne _ | .cmplt _ | .cmpltu _ | .cmpge _
  | .cmpgeu _ | .cmpeqi _ | .cmplti _ | .plogAnd _ | .plogOr _ | .plogXor _ | .plogAndn _ | .plogOrn _
  | .plogNot _ | .plogMov _ | .plogClr _ | .pget _ | .pput _ | .pcnt _ | .pfirst _ | .semw _ | .sems _
  | .semi _ | .semrd _ | .bar _ | .bara _ | .barw _ | .bibset _ | .lock _ | .unlock _ | .trylk _ | .wreg _
  | .wdereg _ | .whold _ | .wqry _ | .qpush _ | .qpop _ | .qpeek _ | .qstat _ | .tokp _ | .tokw _ | .trap _
  | .csrr _ | .csrw _ | .csrwDmr _ | .csrwBib _ | .csrwBdepth _ | .csrwBprio _ | .nop | .waite | .nop16 | .inc
  | .rdv | .node | .fenceStream | .fenceJob | .fenceCluster | .fenceDevice | .fenceSystem | .efence | .ksync => true

/-- The CSRs of a stream (R429): FFLAGS, VTYPE and TWIN are the VS's; DMR, BPRIO, UTVEC and UTREC are written by the CS. -/
def csrStreamOk (k : StreamId) (n : Nat) (write : Bool) : Bool :=
  if n == 0x0C || n == 0x0D || n == 0x0F then k == .vs
  else if write && (n == 4 || n == 7 || n == 0x0A || n == 0x0B) then k == .cs
  else true

/-- The stream check on CSR numbers (R429), raised as ILL_STREAM. -/
def csrPermitted (k : StreamId) : Instr → Bool
  | .csrr f => csrStreamOk k (f.xf 0 12) false
  | .csrw f | .csrwDmr f | .csrwBib f | .csrwBdepth f | .csrwBprio f => csrStreamOk k (f.xf 0 12) true
  | _ => true

/-- Supervisor instructions and supervisor CSRs (R48). -/
def isPrivileged : Instr → Bool
  | .trcrec _ | .trcrpl _ | .trcstat _ | .aset _ | .tlbi _ | .ctxsv _ | .ctxrs _ | .prq _ | .wftsp _ | .inj _
  | .migr _ | .ares _ => true
  | .csrr f | .csrw f => 0x100 <= f.xf 0 12 && f.xf 0 12 <= 0x109
  | _ => false

/-- NODE, RDV, CTXSV and CTXRS do not run in handler mode; TRET, UDECL and SETH run only there (R417) (DEDUCED, log entry 24). -/
def handlerOk (inHandler : Bool) : Instr → Bool
  | .node | .rdv | .ctxsv _ | .ctxrs _ => !inHandler
  | .tret | .udecl | .seth _ => inHandler
  | _ => true

/-- A register transfer's shape in a stream (R276): vector counts and .vr only in the VS. -/
def shapeIn (f : M) (k : StreamId) : Bool := k == .vs || (f.cnt == 0 && f.ty.toNat <= 10)

/-- The stream's own transfer shapes (R276, R322): a shape of another stream is ILL_FIELD (DEDUCED, log entry 24). -/
def shapeOk (k : StreamId) : Instr → Bool
  | .ldl f | .stl f | .ldc f | .stc f | .mstc f | .ldg f | .stg f | .ldk f | .ldh f | .sth f | .ldp f | .stp f =>
    shapeIn f k
  | .ared _ f => k == .vs || f.cnt == 0
  | _ => true

end Sys2Proof.Machine
end

