-- ==== Sys2Proof/Machine/Fetch.lean ====
section
/-! DEFINITION. A stream's own steps: entering a block (R28 to R32, R100, R104), the end of a pass, fetching the next word of
a body, and the decode checks in their order (R30, R45, R50). -/
namespace Sys2Proof.Machine

/-! Nests (R104). -/

/-- Number of points of a nest. -/
def Nest.points (n : Nest) : Nat := n.b.toList.foldl (fun p b => p * b.toNat) 1

/-- Sum over the dimensions of index times stride, dimension 0 fastest. -/
def nestSum : List (BitVec 16 × BitVec 32) → Nat → Int
  | [], _ => 0
  | (b, d) :: t, k => (k % b.toNat : Nat) * d.toInt + nestSum t (k / b.toNat)

/-- The address of a point. -/
def Nest.addr (n : Nest) (b0 : Word) (k : Nat) : Word :=
  BitVec.ofInt 64 (b0.toNat + n.o.toInt + nestSum (n.b.toList.zip n.d.toList) k)

/-- Passes of a block. -/
def Block.passes (b : Block) : Nat := if b.nx then b.nest.points else b.rep + 1

/-- The nest's register write before the first word of a pass. -/
def Strm.startPass (t : Strm) (b : Block) : Strm :=
  let t1 := { t with blk := some b, pc := b.hdr + 4 }
  if b.nx then t1.putS b.nest.r (b.nest.addr b.b0 b.pass) else t1

/-! Headers (R28, R32). -/

def hdrLen (h : BitVec 32) : Nat := (h.extractLsb' 8 8).toNat
def hdrRep (h : BitVec 32) : Nat := (h.extractLsb' 16 10).toNat
def hdrNX (h : BitVec 32) : Bool := h.getLsbD 26
def hdrNI (h : BitVec 32) : BitVec 3 := h.extractLsb' 27 3
def hdrLM (h : BitVec 32) : Bool := h.getLsbD 30

/-- Halfwords of bytes, low first. -/
def toHalves : List Byte → List HWord
  | a :: b :: t => (b ++ a) :: toHalves t
  | _ => []

/-- Does a body hold a NODE or an RDV word (R32, step 5)? X words and INC words are passed over. -/
def holdsNode : Nat → List HWord → Bool
  | 0, _ => false
  | _, [] => false
  | fuel + 1, h :: t =>
    if !h.getLsbD 0 then holdsNode fuel t else
    match t with
    | [] => false
    | h1 :: t1 =>
      let w := Decode.word32 h h1
      (Decode.opOf w == 5 && (Decode.fnOf w == 0 || Decode.fnOf w == 1)) ||
      holdsNode fuel (if Decode.hasX w then t1.drop 2 else t1)

/-- Entering the block at the stream's program counter, by fall-through or transfer (R32): no issue slot. The stream settles
first when the block's mode differs from the last one's (R97) (DEDUCED, log entry 18). The address of a nest's first pass is written
here, so also before the ILL_INC of a body that begins with an INC (DESIGN CHOICE, log entry 64). -/
def State.enterBlock (s : State) (c : CoreId) (i : StreamId) : State :=
  let t := s.strm c i
  let bad (s : State) (cause : Nat) : State := s.raiseOwn c i { cause := cause, addr := t.pc }
  let badFetch (s : State) (e : Nat × Nat) : State :=
    s.raiseOwn c i { cause := e.1, addr := BitVec.ofNat 64 e.2, kind := 3, space := 2 }
  if t.pc.getLsbD 0 then bad s cILLTARGET else
  match s.fetch c i t.pc.toNat 4 with
  | (s1, .error e) => badFetch s1 e
  | (s1, .ok bs) =>
    let h := BitVec.ofNat 32 (leNat bs)
    let rpt := hdrNX h || hdrRep h != 0
    if !headerBits h then bad s1 (if t.taken then cILLTARGET else cILLBLOCK)
    else if hdrLen h = 0 then bad s1 cILLBLOCK
    else if h.getLsbD 31 || (hdrNX h && hdrRep h != 0) || (!hdrNX h && hdrNI h != 0) then bad s1 cILLFIELD
    else if rpt && 64 < hdrLen h then bad s1 cILLBLOCK
    else
      let loaded : State × Except (Nat × Nat) (Option (List HWord)) :=
        if rpt then
          match s1.fetch c i (t.pc.toNat + 4) (2 * hdrLen h) with
          | (s2, .error e) => (s2, .error e)
          | (s2, .ok b) => (s2, .ok (some (toHalves b)))
        else (s1, .ok none)
      match loaded with
      | (s2, .error e) => badFetch s2 e
      | (s2, .ok buf) =>
        if (match buf with | some hs => holdsNode 65 hs | none => false) then bad s2 cILLBLOCK else
        let t2 := s2.strm c i
        let stall (t : Strm) : State := s2.setStrm c i { t with readyAt := s2.clock + 1 }
        let differs := match t2.lastLM with | some m => m != hdrLM h | none => false
        let nest := t2.nests[(hdrNI h).toFin]
        if differs && !t2.pending.isEmpty then s2.settle c i
        else if differs && !t2.arriving.isEmpty then stall t2
        else if differs && !(s2.core c).enginesIdle i then stall { t2 with draining := true }
        else if hdrNX h && (s2.core c).awaits i nest.r then stall t2
        else
          let b0 : Word := if nest.r = 0 then 0 else t2.s[nest.r.toFin]
          let b : Block := ⟨t2.pc, hdrLen h, hdrRep h, hdrLM h, hdrNX h, nest, b0, 0, buf⟩
          let t3 := { t2 with taken := false, draining := false }
          if b.passes = 0 then s2.setStrm c i { t3 with pc := t2.pc + BitVec.ofNat 64 (4 + 2 * hdrLen h) }
          else s2.setStrm c i ({ t3 with lastLM := some (hdrLM h) }.startPass b)

/-- The end of a pass (R30, R100): the next pass, or the header after the body. No issue slot; the nest's write waits for an
outstanding result to its register, in both latency modes (R94, R104) (DEDUCED, log entry 18). -/
def State.endPass (s : State) (c : CoreId) (i : StreamId) (b : Block) : State :=
  let t := s.strm c i
  if b.pass + 1 < b.passes then
    if b.nx && (s.core c).awaits i b.nest.r then s.setStrm c i { t with readyAt := s.clock + 1 }
    else s.setStrm c i (t.startPass { b with pass := b.pass + 1 })
  else s.setStrm c i { t with blk := none, taken := false }

/-! Fetching a word. -/

/-- Halfwords of code in memory, as many as wanted, until one cannot be fetched, whose fault comes with them. Looking ahead
marks no page (R287); the word that is issued is fetched with its mark. -/
def State.fetchHalves (s : State) (c : CoreId) (i : StreamId) (va : Nat) : Nat → State × List HWord × Option (Nat × Nat)
  | 0 => (s, [], none)
  | n + 1 =>
    match s.xlate (.strm c i) (s.core c).asid.toNat (!isSystem c) .fetch va 2 with
    | (s1, .error e) => (s1, [], some e)
    | (s1, .ok ps) =>
      match State.fetchHalves s1 c i (va + 2) n with
      | (s2, hs, e) => (s2, toHalves (s1.readPieces ps) ++ hs, e)

/-- What the word fetched is: an instruction with its length and the INC behind it; or the trap to raise. -/
inductive Fetched where
  | code (w : Code) (len : Nat) (off : Int) (armed : Bool)
  | bad (t : TrapSpec)

/-- The step fields of an INC word (R43). -/
def incD (h : BitVec 11) : Int := (h.extractLsb' 0 4).toInt
def incA (h : BitVec 11) : Int := (h.extractLsb' 4 4).toInt
def incB (h : BitVec 11) : Int := (h.extractLsb' 8 3).toInt

/-- A 5-bit field stepped, modulo 32 (R44). -/
def stepField (w : BitVec 32) (lo : Nat) (n : Int) : BitVec 32 :=
  let f := w.extractLsb' lo 5 + BitVec.ofInt 5 n
  (w &&& ~~~((31 : BitVec 32) <<< lo)) ||| (f.setWidth 32 <<< lo)

/-- The first word of an instruction on pass k, its register fields stepped (R44) (DEDUCED, log entry 49). -/
def stepWord (w : BitVec 32) (h : BitVec 11) (k : Nat) : BitVec 32 :=
  stepField (stepField (stepField w 17 (k * incD h)) 22 (k * incA h)) 27 (k * incB h)

/-- May the INC step what it steps (R44, R45)? (DEDUCED, log entry 49). -/
def incFits (u : IncUse) (h : BitVec 11) : Bool :=
  match u with
  | .none => false
  | .regs d a b => (d || incD h == 0) && (a || incA h == 0) && (b || incB h == 0)
  | .off _ => true

/-- The INC word behind an instruction, if one stands there (DEDUCED, log entry 49). -/
def incBehind (hs : List HWord) (n : Nat) : Option (BitVec 11) :=
  match hs[n]? with
  | some h => if h.extractLsb' 0 5 == 0x1E then some (h.extractLsb' 5 11) else none
  | none => none

/-- The decode checks after ILL_OP, in the order of R50: ILL_STREAM, PRIV, ILL_FIELD (DEDUCED, log entry 18). -/
def decodeFault (s : State) (k : StreamId) (exposed inHandler : Bool) (hs : List HWord) (w : Code) (n : Nat) :
    Option Nat :=
  if !permitted k w.instr || !csrPermitted k w.instr || !handlerOk inHandler w.instr then some cILLSTREAM
  else if isPrivileged w.instr && !s.sup then some cPRIV
  else if !Decode.fieldsOk hs w n || !shapeOk k w.instr || (!exposed && w.instr.headKind != .count && w.head.st != 0) then
    some cILLFIELD
  else none

/-- A trap of a word of code (DEDUCED, log entry 18). -/
def badWord (cause : Nat) (pc : Word) : Fetched := .bad { cause := cause, pc := some pc }

/-- Decoding the halfwords at a program counter, of which the body still holds `room` (R30, R45, R50). -/
def decodeAt (s : State) (k : StreamId) (b : Block) (inHandler : Bool) (pc : Word) (hs : List HWord)
    (fault : Option (Nat × Nat)) (room : Nat) : Fetched :=
  let crossing : Fetched := .bad { cause := cILLBLOCK, pc := some pc, addr := b.hdr }
  let short : Fetched := match fault with
    | some e => .bad { cause := e.1, addr := BitVec.ofNat 64 e.2, kind := 3, space := 2 }
    | none => crossing
  match hs with
  | [] => short
  | h :: _ =>
    if h.getLsbD 0 && room < 2 then crossing else
    match Decode.rawDecode hs with
    | .error .illOp => badWord cILLOP pc
    | .error .illField => badWord cILLFIELD pc
    | .error .truncated => short
    | .ok (w, n) =>
      match decodeFault s k b.lm inHandler hs w n with
      | some cause => badWord cause pc
      | none =>
        if w.instr.headKind == .inc then .code w n 0 false else
        match incBehind hs n with
        | none => .code w n 0 false
        | some x =>
          let at_ := pc + BitVec.ofNat 64 (2 * n)
          if b.buf.isNone || !incFits w.instr.incUse x then badWord cILLINC at_
          else if (incBehind hs (n + 1)).isSome then badWord cILLINC (at_ + 2)
          else
            match w.instr.incUse, hs with
            | .off eb, _ => .code w n (b.pass * x.toInt * eb) true
            | _, h0 :: h1 :: t =>
              let v := stepWord (Decode.word32 h0 h1) x b.pass
              match Decode.rawDecode (v.extractLsb' 0 16 :: v.extractLsb' 16 16 :: t) with
              | .ok (w2, _) => if w2.wf then .code w2 n 0 true else badWord cILLFIELD pc
              | .error _ => badWord cILLOP pc
            | _, _ => short

/-- The next word of a stream: of the macro it runs (R116), else of its block's body. A halfword behind it that cannot be fetched is no
INC yet: the word issues, and the fetch faults at its turn (DESIGN CHOICE, log entry 64). -/
def State.fetchNext (s : State) (c : CoreId) (i : StreamId) (b : Block) (off : Nat) : State × Fetched :=
  let t := s.strm c i
  let inHandler := (s.core c).handler.isSome && i == .cs
  match t.mac with
  | some m =>
    let hs := m.ops[m.idx]?.getD []
    match Decode.rawDecode hs with
    | .error _ => (s, badWord cILLOP t.pc)
    | .ok (w, n) =>
      match decodeFault s i b.lm inHandler hs w n with
      | some cause => (s, badWord cause t.pc)
      | none => (s, .code w n 0 false)
  | none =>
    let room := b.len - off
    match b.buf with
    | some hs => (s, decodeAt s i b inHandler t.pc (hs.drop off) none room)
    | none =>
      match s.fetchHalves c i t.pc.toNat (min 6 room) with
      | (s1, hs, e) =>
        match decodeAt s1 i b inHandler t.pc hs e room with
        | .code w n x armed => ((s1.fetch c i t.pc.toNat (2 * n)).1, .code w n x armed)
        | .bad x => (s1, .bad x)

end Sys2Proof.Machine
end

