-- ==== Sys2Proof/Machine/Window.lean ====
section
/-! DEFINITION. The register window of a die (R445): its reads, its writes with the rules of R75, and host memory behind space H
(R297, R314). -/
namespace Sys2Proof.Machine

/-! Grants and peers (R392, R394, R400). -/

def Die.grant (d : Die) (asid : BitVec 13) : Grant :=
  (d.grants.find? fun g => g.asid == asid).getD ⟨asid, 0, 0, 0⟩
def Die.setGrant (d : Die) (g : Grant) : Die :=
  let rest := d.grants.filter fun x => x.asid != g.asid
  { d with grants := if g.nctr = 0 && g.trigq = 0 && g.tenant = 0 then rest else g :: rest }
def Die.peer (d : Die) (asid : BitVec 13) (n : Nat) : Peer :=
  (d.peers.find? fun p => p.asid == asid && p.n == n).getD ⟨asid, n, false, 0, 0, false, 0⟩
def Die.setPeer (d : Die) (p : Peer) : Die :=
  { d with peers := p :: d.peers.filter fun x => !(x.asid == p.asid && x.n == p.n) }

/-- The most recently armed triggers of an ASID beyond a quota are taken out (R400); triggers stand in arming order. -/
def keepQuota (asid : BitVec 13) : Nat → List Trigger → List Trigger
  | _, [] => []
  | q, t :: r =>
    if t.asid != asid then t :: keepQuota asid q r
    else match q with
      | 0 => keepQuota asid 0 r
      | n + 1 => t :: keepQuota asid n r

/-- NCTR and TRIGQ set (R394, R400): triggers on revoked counters are disarmed first, then those beyond the quota; revoked
counters lose their values. -/
def Die.setNctr (d : Die) (asid : BitVec 13) (nctr trigq : Nat) : Die :=
  let d1 := d.setGrant { d.grant asid with nctr := nctr, trigq := trigq }
  { d1 with
    triggers := keepQuota asid trigq (d1.triggers.filter fun t => !(t.asid == asid && nctr ≤ t.ctr))
    ctrs := d1.ctrs.filter fun c => !(c.asid == asid && nctr ≤ c.n) }

/-- "Peer data" (R445). -/
def Peer.data (p : Peer) : Word :=
  BitVec.ofNat 64 ((if p.v then 1 else 0) + p.link * 2 + p.chip.toNat * 2 ^ 5 + (if p.rdie then 2 ^ 21 else 0) +
    p.rasid.toNat * 2 ^ 22)
def Peer.ofData (asid : BitVec 13) (n : Nat) (w : Word) : Peer :=
  ⟨asid, n, w.getLsbD 0, (w.extractLsb' 1 4).toNat, w.extractLsb' 5 16, w.getLsbD 21, w.extractLsb' 22 13⟩

/-! Queue descriptors (R75). -/

/-- The word at offset +0 (R445). -/
def CQueue.ctl (q : CQueue) : Word :=
  BitVec.ofNat 64 ((if q.en then 1 else 0) + (if q.src then 2 else 0) + q.qprio.toNat * 16 + q.log2cap.toNat * 256)

/-- The occupancy of a queue (R75). -/
def CQueue.held (q : CQueue) : Nat := (q.tail - q.head).toNat

/-- Does a descriptor keep the rules that EN = 1 needs (R75)? -/
def CQueue.ok (q : CQueue) : Bool :=
  4 <= q.log2cap.toNat && q.log2cap.toNat <= 16 && q.base.toNat % 32 == 0 && q.sbase.toNat % 8 == 0

/-- A write of the word that holds EN (R75): none when it is to be ignored and logged. -/
def CQueue.writeCtl (q : CQueue) (v : Nat) : Option CQueue :=
  let n : CQueue := { q with
    en := v.testBit 0, src := v.testBit 1, qprio := BitVec.ofNat 3 (v / 16), log2cap := BitVec.ofNat 5 (v / 256) }
  if n.ctl.toNat != v then none
  else if q.en then
    if !n.en && n.src == q.src && n.qprio == q.qprio && n.log2cap == q.log2cap then some n else none
  else if n.log2cap.toNat < 4 || 16 < n.log2cap.toNat then none
  else if n.en && !n.ok then none
  else some n

/-- A write of another descriptor field by its offset (R75, R445); `none`: ignored and logged. -/
def CQueue.writeField (q : CQueue) (off v : Nat) : Option CQueue :=
  if off = 0 then q.writeCtl v
  else if off = 32 || off = 56 then some q
  else if q.en then none
  else if off = 8 then (if v < 2 ^ 13 then some { q with asid := BitVec.ofNat 13 v } else none)
  else if off = 16 then (if v < 2 ^ 48 && v % 32 == 0 then some { q with base := BitVec.ofNat 48 v } else none)
  else if off = 24 then (if v < 2 ^ 48 && v % 8 == 0 then some { q with sbase := BitVec.ofNat 48 v } else none)
  else if off = 48 then some { q with aff := BitVec.ofNat 64 v }
  else some q

/-- A TAIL write (R75): `none` when it would make the occupancy pass the capacity; of a device-fed queue TAIL is
read-only. -/
def CQueue.writeTail (q : CQueue) (v : Nat) : Option CQueue :=
  if !q.src then some q
  else if v < 2 ^ 32 && (BitVec.ofNat 32 v - q.head).toNat <= 2 ^ q.log2cap.toNat then
    some { q with tail := BitVec.ofNat 32 v }
  else none

def Die.queue (d : Die) (q : Nat) : CQueue := d.queues.toList[q]?.getD CQueue.reset
def Die.setQueue (d : Die) (q : Nat) (x : CQueue) : Die := { d with queues := d.queues.setIfInBounds q x }

/-- A TAIL write of queue `q` of a die. -/
def Die.tailWrite (d : Die) (q v : Nat) : Die :=
  match (d.queue q).writeTail v with
  | some x => d.setQueue q x
  | none => d.logErr #v[0x61, BitVec.ofNat 64 q, 0, 0]

/-- A descriptor write of queue `q` of a die. -/
def Die.descWrite (d : Die) (q off v : Nat) : Die :=
  match (d.queue q).writeField off v with
  | some x => d.setQueue q x
  | none => d.logErr #v[0x62, BitVec.ofNat 64 q, 0, 0]

/-- A write of PEERDATA (R445). -/
def Die.peerdataWrite (d : Die) (v : Word) : Die :=
  if 2 ^ 35 ≤ v.toNat || 11 < (v.extractLsb' 1 4).toNat then d.logErr #v[0x62, 0, 0, 0]
  else d.setPeer (Peer.ofData d.asidsel d.peersel.toNat v)

/-- A write of NCTR (R445). -/
def Die.nctrWrite (d : Die) (v : Word) : Die :=
  let n := (v.extractLsb' 0 9).toNat
  let t := (v.extractLsb' 16 9).toNat
  if v.toNat != n + t * 2 ^ 16 || 256 < n || 256 < t then d.logErr #v[0x62, 0, 0, 0]
  else d.setNctr d.asidsel n t

/-! The window. -/

def Die.stateWord (d : Die) : Word := BitVec.ofNat 64 (d.state.toNat + if d.ready then 256 else 0)

/-- A read of the register window (R445). -/
def State.windowRead (s : State) (i : Fin 2) (off : Nat) : Word :=
  let d := s.die i
  if off = 0x00 then d.stateWord
  else if off = 0x08 then BitVec.ofNat 64 (d.bootStep % 256 + d.bootCode % 256 * 256)
  else if off = 0x10 then
    BitVec.ofNat 64 ((if d.layerReq then 1 else 0) + (if d.layerOn then 256 else 0) + (if d.layerMove then 512 else 0))
  else if off = 0x18 then d.hostirq
  else if off = 0x20 then d.irqen
  else if off = 0x40 then d.asidsel.setWidth 64
  else if off = 0x48 then d.peersel.setWidth 64
  else if off = 0x50 then (d.peer d.asidsel d.peersel.toNat).data
  else if off = 0x58 then BitVec.ofNat 64 ((d.grant d.asidsel).nctr + (d.grant d.asidsel).trigq * 2 ^ 16)
  else if off = 0x60 then (d.grant d.asidsel).tenant
  else if off = 0x68 then s.chipid.setWidth 64
  else if 0x1000 ≤ off && off < 0x2000 then
    let q := d.queue ((off - 0x1000) / 64)
    match off % 64 with
    | 0 => q.ctl
    | 8 => q.asid.setWidth 64
    | 16 => q.base.setWidth 64
    | 24 => q.sbase.setWidth 64
    | 32 => q.head.setWidth 64
    | 40 => q.tail.setWidth 64
    | 48 => q.aff
    | 56 => q.pass.setWidth 64
    | _ => 0
  else 0

/-- A descriptor field of the window written: TAIL as R446 says, the others as R75 says. -/
def Die.fieldWrite (d : Die) (q off v : Nat) : Die := if off = 40 then d.tailWrite q v else d.descWrite q off v

/-- A write of the register window (R445). -/
def Die.windowWrite (d : Die) (off : Nat) (v : Word) : Die :=
  if off = 0x10 then { d with layerReq := v.getLsbD 0 }
  else if off = 0x18 then { d with hostirq := d.hostirq &&& ~~~v }
  else if off = 0x20 then { d with irqen := v }
  else if off = 0x40 then { d with asidsel := v.setWidth 13 }
  else if off = 0x48 then { d with peersel := v.setWidth 4 }
  else if off = 0x50 then d.peerdataWrite v
  else if off = 0x58 then d.nctrWrite v
  else if off = 0x60 then d.setGrant { d.grant d.asidsel with tenant := v }
  else if 0x1000 ≤ off && off < 0x2000 then
    d.fieldWrite ((off - 0x1000) / 64) (off % 64) v.toNat
  else d

/-! Space H. -/

/-- The die whose register window holds a host bus address, and the offset (R445). -/
def State.windowAt (s : State) (a : Nat) : Option (Fin 2 × Nat) :=
  (List.finRange 2).findSome? fun d =>
    match (s.die d).window with
    | some base => if base ≤ a && a < base + 65536 then some (d, a - base) else none
    | none => none

/-- Does an access of `n` bytes touch a register window? -/
def State.inWindow (s : State) (a n : Nat) : Bool :=
  s.dies.toList.any fun (d : Die) => d.window.any fun base => decide (a < base + 65536) && decide (base < a + n)
/-- An access of `n` bytes that touches a window but is no aligned access of 8 bytes to it (R445). -/
def State.offWindow (s : State) (a n : Nat) : Bool :=
  s.inWindow a n && !(n == 8 && (s.windowAt a).any fun w => w.2 % 8 == 0)

/-- A read at the host memory controller (R297): none for a host error (DESIGN CHOICE, log entry 6). -/
def State.hostRead (s : State) (a n : Nat) : Option (List Byte) :=
  if s.offWindow a n then none else
  match s.windowAt a with
  | some (d, off) => some (leBytes (s.windowRead d off).toNat 8)
  | none => if (linesOf a n).any fun l => s.hostErr.contains l then none else some (s.host.readN a n)

/-- A write at the host memory controller: none for a host error (DESIGN CHOICE, log entry 6). -/
def State.hostWrite (s : State) (a : Nat) (bs : List Byte) : Option State :=
  if s.offWindow a bs.length then none else
  match s.windowAt a with
  | some (d, off) => some (s.setDie d ((s.die d).windowWrite off (BitVec.ofNat 64 (leNat bs))))
  | none =>
    if (linesOf a bs.length).any fun l => s.hostErr.contains l then none
    else some { s with host := s.host.writeN a bs }

/-- The parts of some bytes that lie in one line each. -/
def lineParts : Nat → Nat → List Byte → List (Nat × List Byte)
  | 0, _, _ => []
  | fuel + 1, a, bs =>
    if bs.isEmpty then [] else
    let n := 64 - a % 64
    (a, bs.take n) :: lineParts fuel (a + n) (bs.drop n)

/-- One buffered store delivered to the host, line by line; a host error drops its line and leaves HOST_ERR pending for the
stream (R297). A store that a register window refuses is refused whole (R445). -/
def State.deliverStore (s : State) (c : CoreId) (x : HostStore) : State :=
  let parts := lineParts (x.bytes.length + 1) x.addr x.bytes
  let refused := s.offWindow x.addr x.bytes.length
  parts.foldl (fun s p =>
    match if refused then none else s.hostWrite p.1 p.2 with
    | some s1 => s1
    | none =>
      let t := s.strm c x.strm
      let f : PendFault := ⟨cHOSTERR, x.pc, BitVec.ofNat 64 (p.1 / 64 * 64), 1, 4, [], x.ord⟩
      s.setStrm c x.strm { t with faults := t.faults ++ [f] }) s

/-- Two buffered stores that keep their order: of one stream, or to some byte in common (R314, R319). -/
def HostStore.ordered (x y : HostStore) : Bool :=
  x.strm == y.strm || (decide (x.addr < y.addr + y.bytes.length) && decide (y.addr < x.addr + x.bytes.length))

/-- The buffered stores, oldest first, each with whether it goes out where those that `sel` picks do: so does every older one that
keeps its order with one that goes (DEDUCED, log entry 12). -/
def outgoing (sel : HostStore → Bool) (l : List HostStore) : List (HostStore × Bool) :=
  l.foldr (fun x acc => (x, sel x || acc.any fun y => y.2 && x.ordered y.1) :: acc) []

/-- The buffered stores that `sel` picks reach the host, in order, with those that must go before them (R314)
(DEDUCED, log entry 12). -/
def State.drainHost (s : State) (c : CoreId) (sel : HostStore → Bool) : State :=
  let k := s.core c
  let l := outgoing sel k.hostBuf
  (((l.filter (·.2)).map (·.1)).foldl (fun s x => s.deliverStore c x)
    (s.setCore c { k with hostBuf := (l.filter fun x => !x.2).map (·.1) }))

/-- The stores of a stream reach the host. -/
def State.drainStream (s : State) (c : CoreId) (i : StreamId) : State := s.drainHost c fun x => x.strm == i

/-- No LSEND that a core's XS has executed is unacknowledged (R406) (DEDUCED, log entry 23). -/
def State.sendsDone (s : State) (c : CoreId) : Bool :=
  !(s.sends.any fun x => !x.trig && x.jobid == (s.core c).jobid)

/-! Fences (R324). -/

/-- The P stores of a stream whose acknowledgement has come are done with. -/
def Strm.ackStores (t : Strm) (clock : Nat) : Strm :=
  { t with peerStores := t.peerStores.filter fun x => x.failed || clock < x.due }

/-- The trap of a P store whose acknowledgement cannot arrive: it names the access (R324). -/
def PeerStore.spec (x : PeerStore) : TrapSpec :=
  { cause := x.fault.cause, addr := x.fault.addr, kind := x.fault.kind, space := x.fault.space, detail := x.fault.detail }

/-- At system scope, the acknowledgements of the stream's P stores (R324): waited for, without registration; one that cannot arrive
raises LINK_TIMEOUT. -/
def State.peersAcked (s : State) (body : State → Res) : Res :=
  let t := s.str.ackStores s.clock
  match t.peerStores with
  | [] => body (s.setStr t)
  | x :: r => if x.failed then .trap (s.setStr { t with peerStores := r }) x.spec else .stay (s.setStr t)

/-- The part of a fence of a scope that a later effect rests on: the accesses of earlier engine commands are performed (a
drain), at cluster scope and wider the stream's host stores are delivered, and at system scope the sends of the XS are acknowledged
(R403), and the stream's P stores (R324) (DEDUCED, log entry 23). -/
def State.fenced (s : State) (scope : Nat) (body : State → Res) : Res :=
  if !s.me.enginesFenced s.ctx.strm || (scope == 4 && s.ctx.strm == .xs && !s.sendsDone s.ctx.core) then .drain s
  else if scope == 4 then s.peersAcked fun s => body (s.drainStream s.ctx.core s.ctx.strm)
  else body (if 2 ≤ scope then s.drainStream s.ctx.core s.ctx.strm else s)

end Sys2Proof.Machine
end

