-- ==== Sys2Proof/Machine/Sync.lean ====
section
/-! DEFINITION. The synchronisation instructions (R332 to R370): semaphores, barriers, locks, queues, tokens, explicit registrations,
declarations, the table's queries, the sweep and the wait limit. -/
namespace Sys2Proof.Machine

/-- The standing wait of the executing stream, if it is of a kind. -/
def State.standing (s : State) (kind : WaitKind) : Option Wait :=
  match s.str.wait with
  | some w => if w.kind == kind then some w else none
  | none => none

/-- What an event has granted to that wait. -/
def State.granted (s : State) (kind : WaitKind) : Option Word := (s.standing kind).bind (·.grant)

/-- A semaphore signal, a queue push or a token push of the XS goes behind its queued link commands, which stand as P accesses (R319,
R403): a drain (DEDUCED, log entry 46). -/
def State.afterLinks (s : State) (body : State → Res) : Res :=
  if s.ctx.strm == .xs && !s.me.linkQ.isEmpty then .drain s else body s

/-! Semaphores. -/

/-- SEMW (R358): a unit is consumed at once, or in the event that serves this waiter (R333). -/
def execSemw (f : RX) (s : State) : Out :=
  s.issue fun s =>
    let n := f.xf 0 8
    match s.standing .sem with
    | some w =>
      match w.grant with
      | some v => .done (s.arriveS f.d v)
      | none => .wait s .sem n 0 0 true
    | none =>
      if s.me.sem n = 0 then .wait s .sem n 0 0 true
      else .done ((s.setMe (s.me.setSem n (s.me.sem n - 1))).arriveS f.d (BitVec.ofNat 64 (s.me.sem n)))

/-- SEMS (R359). -/
def execSems (f : RX) (s : State) : Out :=
  s.issue fun s => s.afterLinks fun s =>
    let n := f.xf 0 8
    let old := BitVec.ofNat 64 (s.me.sem n)
    let amount := if f.b = 0 then 1 else (s.getS f.b).toNat % 2 ^ 32
    .done ((s.setMe (s.me.signal n amount)).arriveS f.d old)

/-- SEMI (R359). -/
def execSemi (f : RX) (s : State) : Out :=
  s.issue fun s => s.afterLinks fun s =>
    let n := f.xf 0 8
    let old := BitVec.ofNat 64 (s.me.sem n)
    let v := if f.b = 0 then 0 else (s.getS f.b).toNat % 2 ^ 32
    .done ((s.setMe ((s.me.setSem n v).serveSem n 16)).arriveS f.d old)

/-- SEMRD (R359). -/
def execSemrd (f : RX) (s : State) : Out :=
  s.issue fun s => .done (s.arriveS f.d (BitVec.ofNat 64 (s.me.sem (f.xf 0 8))))

/-! Barriers. -/

/-- The slot that a barrier instruction names (R335); a standing wait keeps the slot it was made on. -/
def State.barSlot (s : State) (a : BitVec 5) : Nat :=
  match s.standing .bar with
  | some w => w.obj
  | none => (s.me.bib + (s.getS a).toNat) % s.me.bdepth

/-- The die of a domain's barrier unit (R335). -/
def barrierDie (level : Nat) (c : CoreId) : Fin 2 := if level = 3 then 0 else dieOf c

def Die.barrier (d : Die) (asid : BitVec 13) (level domid place : Nat) : Barrier :=
  (d.barriers.find? fun b => b.asid == asid && b.level == level && b.domid == domid && b.place == place).getD
    ⟨asid, level, domid, place, Vector.replicate 16 0⟩
def Die.setBarrier (d : Die) (b : Barrier) : Die :=
  let rest := d.barriers.filter fun x => !(x.asid == b.asid && x.level == b.level && x.domid == b.domid && x.place == b.place)
  { d with barriers := if b.counts.toList.all (· == 0) then rest else b :: rest }

/-- A job's pending bit. -/
def Core.setPending (k : Core) (i : Nat) (v : Bool) : Core :=
  let bit : BitVec 16 := 1 <<< i
  { k with barPend := if v then k.barPend ||| bit else k.barPend &&& ~~~bit }

/-- A phase of slot `i` completes for a member job: its pending bit is cleared, and its waits on the slot are satisfied (R335). -/
def Core.endPhase (k : Core) (i : Nat) : Core :=
  { k.setPending i false with
    streams := k.streams.map fun t =>
      { t with wait := t.wait.map fun w => if w.kind == .bar && w.obj == i then { w with grant := some 0 } else w } }

/-- An arrival of the executing job at a slot (R335, R336): the phase completes when the count reaches this job's COUNT. -/
def State.barCount (s : State) (i : Nat) : State :=
  let c := s.ctx.core
  let k := s.me
  let level := dmrLevel k.dmr
  let d := barrierDie level c
  let b := (s.die d).barrier k.asid level (dmrDomid k.dmr) (domainPlace level c)
  let n := (b.counts.toList[i]?.getD 0) + 1
  let s1 := s.setMe (k.setPending i true)
  if n < dmrCount k.dmr then s1.setDie d ((s1.die d).setBarrier { b with counts := b.counts.setIfInBounds i n })
  else
    let s2 := s1.setDie d ((s1.die d).setBarrier { b with counts := b.counts.setIfInBounds i 0 })
    { s2 with
      cores := s2.cores.mapFinIdx fun m x h => if x.active && sameDomain k c x ⟨m, h⟩ then x.endPhase i else x
      saved := s2.saved.map fun x => if sameDomain k c x.core x.origin then { x with core := x.core.endPhase i } else x }

/-- The scope of a barrier's release (R337). -/
def barScope (dmr : Word) : Nat :=
  match dmrLevel dmr with
  | 0 => 1 | 1 => 2 | _ => 3

/-- The arrival half (R360). -/
def State.barArrive (s : State) (i : Nat) (go : State → Res) : Res :=
  if s.me.barPend.getLsbD i then .wait s .bar i 0 0 true
  else s.fenced (barScope s.me.dmr) fun s => go (s.barCount i)

/-- The waiting half (R360): over when the bit is clear, or when a completed phase has released it, though a later arrival has
set the bit again. -/
def State.barWait (s : State) (i : Nat) (d : BitVec 5) : Res :=
  let released := (s.standing .bar).any fun w => w.stage == 1 && w.grant.isSome
  if !released && s.me.barPend.getLsbD i then .wait s .bar i 0 1 true
  else .done (s.putS 1 d (BitVec.ofNat 64 i))

/-- BAR (R360). -/
def execBar (f : RRR) (s : State) : Out :=
  s.issue fun s =>
    let i := s.barSlot f.a
    match s.standing .bar with
    | some w => if w.stage = 1 then s.barWait i f.d else s.barArrive i fun s => s.barWait i f.d
    | none => s.barArrive i fun s => s.barWait i f.d

/-- BARA (R360). -/
def execBara (f : RRR) (s : State) : Out :=
  s.issue fun s =>
    let i := s.barSlot f.a
    s.barArrive i fun s => .done (s.putS 1 f.d (BitVec.ofNat 64 i))

/-- BARW (R360). -/
def execBarw (f : RRR) (s : State) : Out :=
  s.issue fun s => s.barWait (s.barSlot f.a) f.d

/-- A change of BDEPTH (R361): the check, and the wait for the job's barrier phases. -/
def State.newDepth (s : State) (d : Word) (go : State → Res) : Res :=
  if d.toNat < 1 ∨ 16 < d.toNat then .trap s { cause := cILLFIELD, addr := d }
  else if s.me.barPend ≠ 0 then Res.open s 0
  else go (s.setMe { s.me with bdepth := d.toNat })

/-- BIBSET (R361). -/
def execBibset (f : RRR) (s : State) : Out :=
  s.issue fun s =>
    let finish (s : State) : Res :=
      let k := s.me
      let bib := (if f.a = 0 then k.bib + 1 else (s.getS f.a).toNat) % k.bdepth
      .done ((s.setMe { k with bib := bib }).putS 1 f.d (BitVec.ofNat 64 k.bib))
    if f.b = 0 then finish s else s.newDepth (s.getS f.b) finish

/-! Locks. -/

/-- The word of a held lock (R338). -/
def lockWord (abandoned : Bool) (i : StreamId) (jobid : Word) : Word :=
  BitVec.ofNat 64 (2 ^ 63 + (if abandoned then 2 ^ 62 else 0) + i.num * 2 ^ 48 + jobid.toNat % 2 ^ 41)

/-- A stream waiting for a lock. -/
structure LockWaiter where
  core : CoreId
  strm : StreamId
  w : Wait
  deriving DecidableEq, Repr

/-- The streams that wait for the lock at a physical address. -/
def State.lockWaiters (s : State) (pa : Nat) : List LockWaiter :=
  allCores.flatMap fun c =>
    let k := s.core c
    if !k.active then [] else
    allStreams.filterMap fun i =>
      match (k.strm i).wait with
      | some w => if w.kind == .lock && w.phys == pa && w.grant.isNone then some ⟨c, i, w⟩ else none
      | none => none

/-- The waiter that a release serves (R339): the highest EPRIO, among equals the earliest registered. -/
def State.nextWaiter (s : State) : List LockWaiter → Option LockWaiter
  | [] => none
  | x :: t =>
    match State.nextWaiter s t with
    | none => some x
    | some y =>
      let ex := (s.core x.core).eprio.toNat
      let ey := (s.core y.core).eprio.toNat
      if ey < ex || (ex == ey && x.w.seq ≤ y.w.seq) then some x else some y

/-- A lock becomes held: its word, and its entry in the holder's table (R338, R345). -/
def State.holdLock (s : State) (c : CoreId) (i : StreamId) (pa va : Nat) (abandoned : Bool) : State :=
  let k := s.core c
  let d := s.die (dieOf c)
  let h : LockHeld := ⟨pa, k.asid, va, k.jobid, i, true⟩
  (s.pwriteN k.jobid pa (leBytes (lockWord abandoned i k.jobid).toNat 8)).setDie (dieOf c) { d with locks := h :: d.locks }

/-- The holding of a lock leaves the tables. -/
def State.dropLock (s : State) (pa : Nat) (jobid : Word) : State :=
  { s with dies := s.dies.map fun d => { d with locks := d.locks.filter fun h => !(h.phys == pa && h.jobid == jobid) } }

/-- A lock is released (R340): the grant word of the next waiter, who receives the free word; or the free word. `job` is the
JOBID of the agent that writes. -/
def State.releaseLock (s : State) (job : Word) (pa : Nat) (abandoned : Bool) : State :=
  let free : Word := if abandoned then 0x4000000000000000 else 0
  match s.nextWaiter (s.lockWaiters pa) with
  | none => s.pwriteN job pa (leBytes free.toNat 8)
  | some x =>
    let t := s.strm x.core x.strm
    (s.holdLock x.core x.strm pa x.w.obj abandoned).setStrm x.core x.strm { t with wait := some { x.w with grant := some free } }

/-- The acquiring part of LOCK and TRYLK at the word's home (R362). -/
def State.tryAcquire (s : State) (d : BitVec 5) (va pa : Nat) : Option Res :=
  let w := s.pread8 pa
  if w.getLsbD 63 then none
  else if s.tableFull (dieOf s.ctx.core) then some (.trap s { cause := cWFTFULL })
  else some (.done ((s.holdLock s.ctx.core s.ctx.strm pa va (w.getLsbD 62)).arriveS d w))

/-- LOCK (R362): at its registration it is checked and translated; a standing wait ends by its grant, or when a store by other
means has left the word free and no other waiter goes before it (R340) (DEDUCED, log entry 40). -/
def execLock (f : RRR) (s : State) : Out :=
  s.issue fun s =>
    let va := s.getS f.a
    match s.standing .lock with
    | some w =>
      match w.grant with
      | some v => .done (s.arriveS f.d v)
      | none =>
        let first := match s.nextWaiter (s.lockWaiters w.phys) with
          | some x => x.core == s.ctx.core && x.strm == s.ctx.strm
          | none => true
        if first && !(s.pread8 w.phys).getLsbD 63 then
          .done ((s.holdLock s.ctx.core s.ctx.strm w.phys w.obj ((s.pread8 w.phys).getLsbD 62)).arriveS f.d (s.pread8 w.phys))
        else .wait s .lock w.obj w.phys 0 true
    | none =>
      match s.atomCheck s.ctx.core s.ctx.strm va.toNat 8 with
      | (s1, .error t) => .trap s1 t
      | (s1, .ok ps) =>
        let pa := match ps with | p :: _ => p.pa | [] => 0
        let s2 := s1.mark s.walker .atomic ps
        (s2.tryAcquire f.d va.toNat pa).getD (.wait s2 .lock va.toNat pa 0 true)

/-- TRYLK (R362) (DEDUCED, log entry 40). -/
def execTrylk (f : RRR) (s : State) : Out :=
  s.issue fun s =>
    let va := s.getS f.a
    match s.atomCheck s.ctx.core s.ctx.strm va.toNat 8 with
    | (s1, .error t) => .trap s1 t
    | (s1, .ok ps) =>
      let pa := match ps with | p :: _ => p.pa | [] => 0
      let s2 := s1.mark s.walker .atomic ps
      (s2.tryAcquire f.d va.toNat pa).getD (.done (s2.arriveS f.d (s2.pread8 pa)))

/-- UNLOCK (R363); a fence of device scope stands before it (R341). -/
def execUnlock (f : RRR) (s : State) : Out :=
  s.issue fun s =>
    let va := s.getS f.a
    match s.atomCheck s.ctx.core s.ctx.strm va.toNat 8 with
    | (s1, .error t) => .trap s1 t
    | (s1, .ok ps) =>
      s1.fenced 3 fun s1 =>
        let pa := match ps with | p :: _ => p.pa | [] => 0
        let w := s1.pread8 pa
        let mine := w.getLsbD 63 && (w.extractLsb' 48 3).toNat == s.ctx.strm.num &&
          (w.extractLsb' 0 41).toNat == s.me.jobid.toNat % 2 ^ 41
        if !mine then .trap s1 (accFault .atomic 2 (cPROT, va.toNat)) else
        let s2 := (s1.mark s.walker .atomic ps).dropLock pa s.me.jobid
        .done ((s2.releaseLock s.me.jobid pa false).arriveS f.d w)

/-! Queues and tokens. -/

def Core.queueAt (k : Core) (q : Nat) : Queue := k.queues.toList[q]?.getD Queue.empty
def Core.setQueue (k : Core) (q : Nat) (x : Queue) : Core := { k with queues := k.queues.setIfInBounds q x }
def Core.tokensAt (k : Core) (q : Nat) : Tokens := k.tokens.toList[q]?.getD Tokens.empty
def Core.setTokens (k : Core) (q : Nat) (x : Tokens) : Core := { k with tokens := k.tokens.setIfInBounds q x }

/-- QPUSH (R364). The AS fills vector queues by its loads only (R343). -/
def execQpush (f : RX) (s : State) : Out :=
  s.issue fun s => s.afterLinks fun s =>
    let n := f.xf 0 4
    let q := s.me.queueAt n
    if q.prod ≠ some s.ctx.strm ∨ (8 ≤ n ∧ s.ctx.strm = .as) then .trap s { cause := cILLSTREAM }
    else if queueDepth n ≤ q.entries.length then .wait s .queue (2 * n + 1) 0 0 true
    else
      let v : VWord := if n < 8 then (s.getS f.a).setWidth 2048 else s.getV f.a
      .done (s.setMe (s.me.setQueue n { q with entries := q.entries ++ [⟨v, true, 0⟩] }))

/-- The pop of a queue that finds it empty counts in LODCNT once, in the AS (R293). -/
def State.countEmpty (s : State) (n : Nat) : State :=
  if s.ctx.strm = .as && (s.me.queueAt n).entries.isEmpty && (s.standing .queue).isNone &&
      (s.me.queueAt n).prod ≠ some .as then
    s.setMe { s.me with lodcnt := s.me.lodcnt + 1 }
  else s

/-- Locks of R292 held by the head entry of a queue end at its pop, and those of later entries move up. -/
def Core.popLocks (k : Core) (n : Nat) : Core :=
  { k with locked := (k.locked.filter fun l => !(l.queue == n && l.entry == 0)).map fun l =>
      if l.queue == n then { l with entry := l.entry - 1 } else l }

/-- The head of a queue for its consumer (R343, R365): a pop counts an empty queue in LODCNT (R293); an entry in flight is waited
for without registration (R348). -/
def State.takeHead (s : State) (n : Nat) (pop : Bool) (go : State → Queue → VWord → Res) : Res :=
  let q := s.me.queueAt n
  if q.cons ≠ some s.ctx.strm then .trap s { cause := cILLSTREAM } else
  match q.entries with
  | [] => .wait (if pop then s.countEmpty n else s) .queue (2 * n) 0 0 true
  | e :: t => if e.arrived then go s { q with entries := t } e.val else .wait s .queue (2 * n) 0 0 false

/-- The head delivered to s[D] or v[D]. -/
def State.deliverEntry (s : State) (n : Nat) (d : BitVec 5) (v : VWord) : State :=
  if n < 8 then s.arriveS d (v.setWidth 64) else s.arriveV d (BitVec.allOnes 2048) v 0

/-- QPOP (R365). -/
def execQpop (f : RX) (s : State) : Out :=
  s.issue fun s =>
    let n := f.xf 0 4
    s.takeHead n true fun s q v => .done ((s.setMe ((s.me.setQueue n q).popLocks n)).deliverEntry n f.d v)

/-- QPEEK (R365). -/
def execQpeek (f : RX) (s : State) : Out :=
  s.issue fun s =>
    let n := f.xf 0 4
    s.takeHead n false fun s _ v => .done (s.deliverEntry n f.d v)

/-- "QSTAT value" (R366). -/
def Core.qstat (k : Core) (n : Nat) : Word :=
  let q := k.queueAt n
  let code (x : Option StreamId) : Nat := match x with | some i => i.num | none => 15
  let ended (x : Option StreamId) : Bool := match x with | some i => (k.strm i).ended | none => false
  let held := q.entries.length
  BitVec.ofNat 64 ((if q.prod.isNone then 0 else held + (queueDepth n - held) * 2 ^ 8) + code q.prod * 2 ^ 16 +
    code q.cons * 2 ^ 20 + (if ended q.prod || ended q.cons then 2 ^ 24 else 0))

/-- QSTAT (R366). -/
def execQstat (f : RX) (s : State) : Out :=
  s.issue fun s => .done (s.putS 1 f.d (s.me.qstat (f.xf 0 4)))

/-- A token push (R367). -/
def State.tokenPush (s : State) (n : Nat) : Res := s.afterLinks fun s =>
  let t := s.me.tokensAt n
  if t.prod ≠ some s.ctx.strm then .trap s { cause := cILLSTREAM }
  else if 64 ≤ t.count then .wait s .token (2 * n + 1) 0 0 true
  else .done (s.setMe (s.me.setTokens n { t with count := t.count + 1 }))

/-- A token wait (R367). -/
def State.tokenWait (s : State) (n : Nat) : Res :=
  let t := s.me.tokensAt n
  if t.cons ≠ some s.ctx.strm then .trap s { cause := cILLSTREAM }
  else if t.count = 0 then .wait s .token (2 * n) 0 0 true
  else .done (s.setMe (s.me.setTokens n { t with count := t.count - 1 }))

/-- TOKP (R367). -/
def execTokp (f : RI) (s : State) : Out := s.issue fun s => s.tokenPush f.imm.toNat
/-- TOKW (R367). -/
def execTokw (f : RI) (s : State) : Out := s.issue fun s => s.tokenWait f.imm.toNat
/-- TOK16 push: TOKP (R43, R367). -/
def execTok16Push (k : BitVec 3) (s : State) : Out := s.always fun s => s.tokenPush k.toNat
/-- TOK16 wait: TOKW (R43, R367). -/
def execTok16Wait (k : BitVec 3) (s : State) : Out := s.always fun s => s.tokenWait k.toNat

/-! Explicit registrations and declarations. -/

/-- The identity that s[A] names for a kind (R346). -/
def identity (kind : Nat) (v : Word) : Nat :=
  match kind with
  | 0 => v.toNat % 256
  | 1 => v.toNat % 16
  | 3 => v.toNat % 32
  | 4 => v.toNat % 16
  | 7 => v.toNat % 16
  | 5 | 6 | 9 | 11 | 12 => 0
  | _ => v.toNat

/-- WREG (R368). -/
def execWreg (f : RX) (s : State) : Out :=
  s.issue fun s =>
    let kind := f.xf 0 4
    let w := s.newWait s.ctx.core s.ctx.strm (WaitKind.ofCode kind) (identity kind (s.getS f.a)) 0 0 true
    let s1 := { s with seq := s.seq + 1 }
    let placed := s1.setStr { s1.str with expl := some w }
    let full := (s1.setStr { s1.str with expl := none }).tableFull (dieOf s.ctx.core)
    if full then .trap s { cause := cWFTFULL } else
    let x : Waiter := ⟨s.ctx.core, s.ctx.strm, none, w⟩
    match placed.closedSet x with
    | [] => .done (placed.putS 1 f.d 0)
    | set => .trap s { cause := cDEADLOCK, detail := placed.deadlockDetail set false false }

/-- WDEREG (R368). -/
def execWdereg (f : RX) (s : State) : Out :=
  s.issue fun s =>
    .done ((s.setStr { s.str with expl := none }).putS 1 f.d (if s.str.expl.isSome then 1 else 0))

/-! Queries. -/

/-- The registered waits that block; WQRY counts these and not the explicit registrations. -/
def State.blocked (s : State) : List Waiter :=
  s.waiters.filter fun x => x.eng.isSome || (s.strm x.core x.strm).wait == some x.w

/-- Do a registered wait and an object of the executing job agree (R346)? -/
def State.onObject (s : State) (kind obj phys : Nat) (x : Waiter) : Bool :=
  let c := s.ctx.core
  x.w.kind.code == kind &&
  (match kind with
   | 1 => x.w.obj == obj && sameDomain s.me c (s.core x.core) x.core
   | 2 => x.w.phys == phys
   | 6 => clusterOf x.core == clusterOf c
   | 8 | 10 => x.w.obj == obj && (s.core x.core).asid == s.me.asid && dieOf x.core == dieOf c
   | _ => x.w.obj == obj && x.core == c)

/-- HOLDERS of "WQRY value" (R370) (DEDUCED, log entry 40). -/
def State.holderCount (s : State) (kind obj phys : Nat) : Nat :=
  let c := s.ctx.core
  let w := s.newWait c s.ctx.strm (WaitKind.ofCode kind) obj phys 0 true
  match kind with
  | 2 => if (s.pread8 phys).getLsbD 63 then 1 else 0
  | 3 | 4 =>
    match (s.holders c w).2 with
    | [.strm c' i] => if (s.strm c' i).ended then 0 else 1
    | _ => 0
  | 6 => if s.lessee c == some c then 1 else (s.holders c w).2.length
  | 9 | 12 => 0
  | 0 | 8 | 10 => (s.declarations s.me c w.kind obj).length
  | _ => (s.holders c w).2.eraseDups.length

/-- WQRY.job (R370) (DEDUCED, log entry 40). -/
def State.wqryJob (s : State) : Word :=
  let c := s.ctx.core
  let ws := s.blocked
  let mine := (ws.filter fun x => x.core == c).length
  let others := (ws.filter fun x => x.core != c && (s.holders x.core x.w).2.any fun h => h.job? == c.val).length
  BitVec.ofNat 64 (s.me.eprio.toNat + s.me.bprio.toNat * 16 + mine % 256 * 256 + others % 65536 * 65536)

/-- WQRY.obj (R370) (DEDUCED, log entry 40). -/
def State.wqryObj (s : State) (kind obj phys : Nat) : Word :=
  let ws := s.blocked.filter (s.onObject kind obj phys)
  let top := ws.foldl (fun m x => max m (s.core x.core).eprio.toNat) 0
  BitVec.ofNat 64 (ws.length % 65536 + s.holderCount kind obj phys % 65536 * 65536 + top * 2 ^ 32)

/-- WQRY.tab (R370). -/
def State.wqryTab (s : State) : Word :=
  let d := dieOf s.ctx.core
  let used := s.tableUsed d
  BitVec.ofNat 64 (min used 4096 + (used - 4096) % 2 ^ 32 * 65536 + (if s.tableFull d then 2 ^ 48 else 0))

/-- WQRY (R370). -/
def execWqry (f : RX) (s : State) : Out :=
  s.issue fun s =>
    let kind := f.xf 4 4
    match f.xf 0 2 with
    | 0 => .done (s.putS 1 f.d s.wqryJob)
    | 1 =>
      let v := s.getS f.a
      if kind = 2 then
        match s.xlate s.walker s.me.asid.toNat (userOf s.ctx.core) .load v.toNat 1 with
        | (s1, .error e) => .trap s1 (accFault .load 2 e)
        | (s1, .ok ps) =>
          let s2 := s1.mark s.walker .load ps
          .done (s2.putS 1 f.d (s2.wqryObj 2 v.toNat (match ps with | p :: _ => p.pa | [] => 0)))
      else .done (s.putS 1 f.d (s.wqryObj kind (identity kind v) 0))
    | _ => .done (s.putS 1 f.d s.wqryTab)

/-! The sweep and the wait limit. -/

/-- The lease request of a core is withdrawn with the wait that made it (R223, R350). -/
def State.dropRequest (s : State) (c : CoreId) : Option Wait → State
  | none => s
  | some w =>
    if w.kind != .lease then s else
    { s with arrays := s.arrays.mapFinIdx fun n a _ =>
        if n = clusterOf c then { a with requests := a.requests.filter fun r => r.1 != c } else a }

/-- A trap of the head command of a queue (R185, R235, R382): its wait is withdrawn and it stays at the head; the unit that its
wait field consumed is given back (R42), but by a command that will complete as failed. -/
def State.raiseCmd (s : State) (c : CoreId) (e : Eng) (failing : Bool) (t : TrapSpec) : State :=
  match (s.core c).headCmd e with
  | none => s
  | some x =>
    let r := s.mkRecord c e.strm { t with eng := !e.own, own := true, pc := some x.pc, midx := x.midx, inmac := x.inmac }
    let back := x.unit && !failing
    let k := (s.core c).mapHead e fun (y : Cmd) =>
      { y with wait := none, trapped := true, failing := failing, unit := x.unit && failing, stage := 0 }
    ((s.dropRequest c x.wait).setCore c (if back then k.signal x.code.head.wsem.toNat 1 else k)).deliver c e.strm r

/-- The trap of a registered wait, at the stream or at its engine command; an explicit registration is withdrawn. -/
def State.raiseWait (s : State) (x : Waiter) (t : TrapSpec) : State :=
  match x.eng with
  | some e => s.raiseCmd x.core e false t
  | none =>
    let u := s.strm x.core x.strm
    let u1 := if u.expl == some x.w then { u with expl := none } else u
    (s.setStrm x.core x.strm u1).raise x.core x.strm t

/-- The member to which a swept set's DEADLOCK goes (R350): lowest JOBID, then lowest stream number. -/
def State.victim (s : State) : List Waiter → Option Waiter
  | [] => none
  | x :: t =>
    match State.victim s t with
    | none => some x
    | some y =>
      let jx := (s.core x.core).jobid.toNat
      let jy := (s.core y.core).jobid.toNat
      if jx < jy || (jx == jy && x.strm.num ≤ y.strm.num) then some x else some y

/-- The closed sets among some waits that include a waiter on a die, each reported once (R349, R350) (DEDUCED, log entry 14). -/
def State.sweepDie (d : Fin 2) : Nat → List Waiter → State → State
  | 0, _, s => s
  | fuel + 1, skip, s =>
    let all := s.waiters.filter fun x => !skip.contains x
    let w := s.closedSubset all.length all
    match s.victim w with
    | none => s
    | some x =>
      let set := s.reached w w.length [x] [x]
      if set.any fun y => dieOf y.core == d then
        State.sweepDie d fuel skip (s.raiseWait x { cause := cDEADLOCK, detail := s.deadlockDetail set true false })
      else State.sweepDie d fuel (skip ++ set) s

/-- Detection at an event that takes a holder from an object (R369): a set that holds one of some waits and is closed is reported by
the sweep's rule (R350), as one that no sweep has found (R351) (DEDUCED, log entry 14). -/
def State.detect : List Waiter → State → State
  | [], s => s
  | x :: t, s =>
    let set := s.closedSet x
    match s.victim set with
    | none => State.detect t s
    | some v =>
      State.detect t (s.raiseWait v
        { cause := cDEADLOCK, detail := s.deadlockDetail (s.reached set set.length [v] [v]) false false })

/-- WHOLD (R369): a withdrawal that closes a set raises its DEADLOCK after the instruction has completed. -/
def execWhold (f : RX) (s : State) : Out :=
  s.issue fun s =>
    let kind := f.xf 0 4
    let h : Holding :=
      ⟨s.me.jobid, s.ctx.strm, WaitKind.ofCode kind, identity kind (s.getS f.a), s.me.asid, s.ctx.core.val⟩
    let d := s.myDie
    let stands := d.holds.contains h
    if f.xf 4 1 = 1 then
      if stands then
        let s1 := ((s.setMyDie { d with holds := d.holds.filter (· != h) }).putS 1 f.d 1).retire
        .stay (State.detect (s1.waiters.filter fun x => x.w.kind == h.kind && x.w.obj == h.obj) s1)
      else .done (s.putS 1 f.d 0)
    else if stands then .done (s.putS 1 f.d 0)
    else if s.tableFull (dieOf s.ctx.core) then .trap s { cause := cWFTFULL }
    else .done ((s.setMyDie { d with holds := h :: d.holds }).putS 1 f.d 1)

/-- DEADLOCK_SWEEP: a sweep of die `unit` ends (R349). -/
def execDeadlockSweep (s : State) : Out :=
  if h : s.ctx.ev.unit < 2 then
    let d : Fin 2 := ⟨s.ctx.ev.unit, h⟩
    .next (State.sweepDie d 4096 [] (s.setDie d { s.die d with sweepEnd := none }))
  else .fault .noSuchUnit

end Sys2Proof.Machine
end

