-- ==== Sys2Proof/Machine/Engines.lean ====
section
/-! DEFINITION. Engine commands (R42, R183, R233, R328, R375, R404): their issue into a queue, their run at its head, how they end, and
the checker that compares them (R425). -/
namespace Sys2Proof.Machine

/-- How the run of a head command ends. -/
inductive CmdRes where
  /-- It has completed: it leaves the queue and its signal field acts. -/
  | done (s : State)
  /-- It leaves the queue and completes later. -/
  | leave (s : State)
  /-- It waits on an object at the head. -/
  | wait (s : State) (kind : WaitKind) (obj phys stage : Nat) (reg : Bool)
  /-- It goes on in a later slot, on a wait that is not registered. -/
  | busy (s : State)
  /-- It raises a trap and is run again once that is resolved. -/
  | trap (s : State) (t : TrapSpec)
  /-- It raises a trap and completes as failed once that is resolved (R382). -/
  | fail (s : State) (t : TrapSpec)

/-- Commands that a queue holds (R183, R233, R328, R375, R404); the WS's outstanding instructions have no bound. -/
def Eng.full (e : Eng) (n : Nat) : Bool :=
  match e with
  | .tile => decide (32 ≤ n)
  | .arr | .link | .copy => decide (16 ≤ n)
  | .coll => decide (8 ≤ n)
  | .out | .rng | .ver => false

/-- The command words of an instruction, as the checker compares them (R425). -/
def checkWords (w : Code) : List Word :=
  match Decode.encode w with
  | a :: b :: c :: d :: _ => [(b ++ a : BitVec 32).setWidth 64, (d ++ c : BitVec 32).setWidth 64]
  | a :: b :: _ => [(b ++ a : BitVec 32).setWidth 64, 0]
  | _ => [0, 0]

/-- The executing instruction put at the tail of a queue with its operands. -/
def State.enqueue (s : State) (e : Eng) (w : Code) (sa sb sd : Word) (more : List Word) : State :=
  let m := s.str.mac
  let x : Cmd :=
    { code := w, pc := s.str.pc, midx := (m.map (·.idx)).getD 0, inmac := m.isSome, sa := sa, sb := sb, sd := sd, more := more
      slot := s.clock, checked := e.own, unit := false, wait := none, stage := 0, trapped := false, failing := false, ord := s.seq, timer := 0
      limit := 0, acc := [], next := 0 }
  let k := s.me
  { s.setMe (k.setCmds e (k.cmds e ++ [x])) with seq := s.seq + 1 }

/-- The issue of an engine command: a stall while its queue is full (R92). -/
def State.issueCmd (s : State) (e : Eng) (i : Instr) (f : E) (more : State → List Word) : Res :=
  let w : Code := ⟨s.ctx.head, i⟩
  if e.full (s.me.cmds e).length then .stay s
  else .done (s.enqueue e w (s.getS f.a) (s.getS f.b) (s.getS f.d) (more s))

/-- The head command leaves its queue. -/
def State.popCmd (s : State) (c : CoreId) (e : Eng) : State :=
  s.setCore c ((s.core c).setCmds e ((s.core c).cmds e).tail)

/-- The signal field of a command acts (R42). -/
def State.cmdSignal (s : State) (c : CoreId) (x : Cmd) : State :=
  if x.code.head.se then s.setCore c ((s.core c).signal x.code.head.ssem.toNat 1) else s

/-- A wait of the head command: kept when it stands already, else registered (R348); a full table refuses it, and the command has
had no effect: the state goes back to `s0`, from before its run (R353). -/
def State.cmdBlock (s s0 : State) (c : CoreId) (e : Eng) (kind : WaitKind) (obj phys stage : Nat) (reg : Bool) : State :=
  match (s.core c).headCmd e with
  | none => s
  | some x =>
    if x.wait.any fun w => w.kind == kind && w.obj == obj && w.reg == reg then s else
    let w := s.newWait c e.strm kind obj phys stage reg
    let put (w : Option Wait) : State :=
      { s with seq := s.seq + 1 }.setCore c ((s.core c).mapHead e fun (y : Cmd) => { y with wait := w })
    if !reg then put (some w) else
    if (put none).tableFull (dieOf c) then s0.raiseCmd c e false { cause := cWFTFULL } else
    let s1 := put (some w)
    match s1.register c e.strm (some e) w with
    | some t => s1.raiseCmd c e false t
    | none => s1

/-- The context in which a command runs. -/
def State.asCmd (s : State) (c : CoreId) (e : Eng) (x : Cmd) : State :=
  { s with ctx := ⟨c, e.strm, x.code.head, 0, 0, EvArgs.zero, some (x.pc, x.slot)⟩ }

/-- The end of a run that began in a state. -/
def CmdRes.close (s0 : State) (c : CoreId) (e : Eng) (x : Cmd) : CmdRes → State
  | .done s1 => (s1.popCmd c e).cmdSignal c x
  | .leave s1 => s1.popCmd c e
  | .wait s1 kind obj phys stage reg => s1.cmdBlock s0 c e kind obj phys stage reg
  | .busy s1 => s1.setCore c ((s1.core c).mapHead e fun (y : Cmd) => { y with wait := none })
  | .trap s1 t => s1.raiseCmd c e false t
  | .fail s1 t => s1.raiseCmd c e true t

/-- The head command of a queue runs for a slot: first its wait field, then its body. It runs once the checker has produced the
same command (R13). -/
def State.runCmd (s : State) (c : CoreId) (e : Eng) (ord : Nat) (body : State → Cmd → CmdRes) : State :=
  let k := s.core c
  match k.headCmd e with
  | none => s
  | some x =>
    let h := x.code.head
    if !k.active || !x.checked || x.trapped || k.freeze != 0 || x.ord != ord then s
    else if h.we && !x.unit && !x.failing then
      if k.sem h.wsem.toNat = 0 then s.cmdBlock s c e .sem h.wsem.toNat 0 0 true
      else
        let y := { x with unit := true, wait := none }
        let s1 := s.setCore c ((k.setSem h.wsem.toNat (k.sem h.wsem.toNat - 1)).mapHead e fun _ => y)
        (body (s1.asCmd c e y) y).close s1 c e y
    else (body (s.asCmd c e x) x).close s c e x

/-- An engine command: as an instruction it is put into its queue; as an event (of core `unit`, the command `val`) it runs at
the head. -/
def State.command (s : State) (e : Eng) (i : Instr) (f : E) (more : State → List Word) (body : State → Cmd → CmdRes) : Out :=
  if s.ctx.ev.flag then
    if h : s.ctx.ev.unit < 136 then .next (s.runCmd ⟨s.ctx.ev.unit, h⟩ e s.ctx.ev.val body) else .fault .noSuchUnit
  else s.issue fun s => s.issueCmd e i f more

/-- The operand fields of a command that has none. -/
def E.none : E := ⟨0, 0, 0, 0⟩

/-- Does an engine go on with its head while the job is saved (R97, R384, R424): unless it waits, and with the collective that has
started even then? -/
def Core.finishes (k : Core) (e : Eng) (x : Cmd) : Bool := !k.saving || x.wait.isNone || (e == .coll && x.timer != 0)

/-- May a head command run (DESIGN CHOICE, log entry 8)? -/
def Core.mayRun (k : Core) (e : Eng) (x : Cmd) : Bool := x.checked && !x.trapped && k.finishes e x

/-- The events of the heads of some queues that can run and pass a test (DESIGN CHOICE, log entry 8). -/
def State.headEvents (s : State) (es : List Eng) (p : CoreId → Cmd → Bool) : List Event :=
  allCores.flatMap fun c =>
    let k := s.core c
    if !k.active || k.freeze != 0 then [] else
    es.filterMap fun e =>
      match k.headCmd e with
      | some x =>
        if !k.mayRun e x || !p c x then none
        else some ⟨x.code.instr, { EvArgs.zero with unit := c.val, sub := e.num, val := x.ord, flag := true }⟩
      | none => none

/-- The events of the heads of some queues in a slot (DESIGN CHOICE, log entry 8). -/
def State.engineEvents (s : State) (es : List Eng) : List Event := s.headEvents es fun _ _ => true

/-! The checker (R13, R425). -/

/-- A command put into its place among others by order of issue. -/
def insertOrd (x : Nat × Eng) : List (Nat × Eng) → List (Nat × Eng)
  | [] => [x]
  | y :: t => if x.1 < y.1 then x :: y :: t else y :: insertOrd x t

/-- The commands of a core whose copies the checker produces in a slot, 4 slots behind their issue (R13), in order of issue. -/
def Core.toCheck (k : Core) (clock : Nat) : List (Nat × Eng) :=
  (allEngs.flatMap fun e => ((k.cmds e).filter fun (x : Cmd) => !x.checked && x.slot + 4 ≤ clock).map fun x => (x.ord, e)).foldl
    (fun l x => insertOrd x l) []

/-- The checker's comparisons that are due (DEDUCED, log entry 54). -/
def State.compareEvents (s : State) : List Event :=
  allCores.flatMap fun c =>
    let k := s.core c
    if !k.active then [] else
    (k.toCheck s.clock).map fun x =>
      ⟨.checkerCompare, { EvArgs.zero with unit := c.val, sub := x.2.num + 1, val := x.1 }⟩

/-- The checker produces its copy of a command (R13): the same one, and the command may run; or another, and the command is held
and never issues, and a CHECKER is raised (R425). The checker's words are free values (DESIGN CHOICE, log entry 37). -/
def State.compare (s : State) (c : CoreId) (e : Eng) (ord : Nat) : State :=
  let k := s.core c
  match (k.cmds e).find? fun (x : Cmd) => x.ord == ord with
  | none => s
  | some x =>
    if k.mismatch then
      let d := checkWords x.code ++ [Config.freeWord s.draws, Config.freeWord (s.draws + 1)]
      let s1 := { s with draws := s.draws + 2 }.setCore c
        { k.setCmds e ((k.cmds e).filter fun (y : Cmd) => y.ord != ord) with mismatch := false }
      s1.deliver c e.strm (s1.mkRecord c e.strm
        { cause := cCHECKER, eng := true, pc := some x.pc, midx := x.midx, inmac := x.inmac, detail := d })
    else s.setCore c (k.setCmds e ((k.cmds e).map fun (y : Cmd) => if y.ord = ord then { y with checked := true } else y))

end Sys2Proof.Machine
end

