-- ==== Sys2Proof/Machine/Array.lean ====
section
/-! DEFINITION. The wavefront arrays (R203 to R232, R238 to R240): cells and regions, a wavefront's arithmetic, leases, and what an array
does in a slot: deliveries, admissions, commits, arrivals. A wavefront in flight keeps the number of arrival slots it has
behind it, which at the start of a slot is its age; one more than the age at which it retires once it has retired. -/
namespace Sys2Proof.Machine

/-! Access paths. -/

def State.arr (s : State) (n : Nat) : WArray := s.arrays.toList[n]?.getD WArray.reset
def State.setArr (s : State) (n : Nat) (a : WArray) : State := { s with arrays := s.arrays.setIfInBounds n a }
def WArray.bankAt (a : WArray) (b : Nat) : Bank := a.banks.toList[b]?.getD Bank.reset
def WArray.setBank (a : WArray) (b : Nat) (k : Bank) : WArray := { a with banks := a.banks.setIfInBounds b k }
def Bank.region (k : Bank) (r : Nat) : Region := k.regions.toList[r]?.getD Region.undef
def Bank.setRegion (k : Bank) (r : Nat) (x : Region) : Bank := { k with regions := k.regions.setIfInBounds r x }
def WArray.region (a : WArray) (b r : Nat) : Region := (a.bankAt b).region r
def WArray.setRegion (a : WArray) (b r : Nat) (x : Region) : WArray := a.setBank b ((a.bankAt b).setRegion r x)

/-! Cells. -/

def WCell.zero : WCell := ⟨0, 0, 0⟩
/-- The cell at a place. -/
def cellAt : List (Nat × WCell) → Nat → WCell
  | [], _ => WCell.zero
  | (k, x) :: t, i => if k = i then x else cellAt t i
/-- A cell written: the list keeps its places rising and no cell of zeros. -/
def cellPut : List (Nat × WCell) → Nat → WCell → List (Nat × WCell)
  | [], i, x => if x = WCell.zero then [] else [(i, x)]
  | (k, y) :: t, i, x =>
    if i < k then (if x = WCell.zero then (k, y) :: t else (i, x) :: (k, y) :: t)
    else if i = k then (if x = WCell.zero then t else (i, x) :: t)
    else (k, y) :: cellPut t i x
def Bank.cell (k : Bank) (i : Nat) : WCell := cellAt k.cells i
def Bank.setCell (k : Bank) (i : Nat) (x : WCell) : Bank := { k with cells := cellPut k.cells i x }

/-- The place of cell (r, c) of a region (R203, R206). -/
def Region.place (g : Region) (r c : Nat) : Nat := (g.row0 + r) * 256 + g.col0 + c
/-- Does the region hold a place? -/
def Region.covers (g : Region) (i : Nat) : Bool :=
  decide (g.row0 ≤ i / 256) && decide (i / 256 < g.row0 + g.rows) && decide (g.col0 ≤ i % 256) && decide (i % 256 < g.col0 + g.cols)
/-- Do two regions share a cell? -/
def Region.meets (g h : Region) : Bool :=
  decide (g.row0 < h.row0 + h.rows) && decide (h.row0 < g.row0 + g.rows) && decide (g.col0 < h.col0 + h.cols) &&
  decide (h.col0 < g.col0 + g.cols)

/-- "Resident weight formats" (R204): the format and the weights of a cell. -/
def residentTy : Nat → NumTy
  | 0 => .flt bf16 | 1 => .flt f16 | 2 => .flt e4m3 | 3 => .flt e5m2 | _ => .hs 4
def perCell : Nat → Nat
  | 0 | 1 => 1 | 2 | 3 => 2 | _ => 4
/-- The accumulator g exists. -/
def hasG (fmt : Nat) : Bool := perCell fmt == 1
/-- Logical columns of a region (R205). -/
def Region.width (g : Region) : Nat := perCell g.fmt * g.cols
/-- Weight `i` of a weight word: its code. -/
def weightCode (fmt : Nat) (w : BitVec 16) (i : Nat) : Nat := bitsAt w.toNat (16 / perCell fmt * i) (16 / perCell fmt)
def weight (fmt : Nat) (w : BitVec 16) (i : Nat) : FVal := (residentTy fmt).read (weightCode fmt w i)
/-- A weight word of its codes. -/
def packWeights (fmt : Nat) (l : List Nat) : BitVec 16 :=
  BitVec.ofNat 16 (l.zipIdx.foldl (fun n x => n + x.1 % 2 ^ (16 / perCell fmt) * 2 ^ (16 / perCell fmt * x.2)) 0)

/-- Is an FP32 code finite? -/
def finite32 (x : BitVec 32) : Bool := x.extractLsb' 23 8 != 255

/-- Round of an update (R214, R136); a format without infinities takes what a conversion gives (R136, R141)
(DEDUCED, log entry 25). -/
def updateCode (fmt : Nat) (sr : Bool) (draw : Nat) (x : FVal) : Nat :=
  let mode : RMode := if sr then .sr else .rne
  match residentTy fmt with
  | .flt f =>
    match x with
    | .nan _ _ _ _ _ => f.nanOf x
    | .inf neg => if f.top == .ieee then f.infCode neg else f.signBit neg + f.maxCode
    | .num _ _ _ =>
      if f.top == .ieee then (f.round mode draw x.ex).1
      else
        let v := x.ex
        if v.n = 0 then f.signBit v.neg else
        let (k, q, _) := f.roundUnb mode draw v.n v.e
        if f.exceeds k q then f.signBit (decide (v.n < 0)) + f.maxCode else f.encode (decide (v.n < 0)) k q
  | .hs w =>
    let lo : Int := -((2 : Int) ^ (w - 1))
    let hi : Int := (2 : Int) ^ (w - 1) - 1
    match x with
    | .nan _ _ _ _ _ => 0
    | .inf neg => codeOf w (if neg then lo else hi)
    | .num _ _ _ => codeOf w (min hi (max lo (toHs mode draw x.ex).1))
  | .int _ _ | .tk8 => 0

/-! Kinds and times (R209, R212). -/

/-- F and A enter at the northwest. -/
def Wave.forward (w : Wave) : Bool := w.kind == 0 || w.kind == 4
/-- B, BU and BG. -/
def Wave.bFamily (w : Wave) : Bool := !w.forward
def Wave.isA (w : Wave) : Bool := w.kind == 4
/-- A BU, or an A that is not skipped (R215). -/
def Wave.updates (w : Wave) : Bool := w.kind == 2 || (w.kind == 4 && !w.skip)
/-- The age at which it retires (R238). -/
def Wave.last (w : Wave) : Nat := if w.isA then w.reg.rows + w.reg.cols - 1 else w.reg.rows + w.reg.cols + 1
/-- It has not retired. -/
def Wave.open_ (w : Wave) : Bool :=
  match w.age with
  | some a => decide (a ≤ w.last)
  | none => true

/-- Cells that it reaches at an age, rows ascending. -/
def Wave.reaches (w : Wave) (a : Nat) : List (Nat × Nat) :=
  let g := w.reg
  (List.range g.rows).filterMap fun r =>
    if w.forward then (if r ≤ a ∧ a - r < g.cols then some (r, a - r) else none)
    else
      let up := g.rows - 1 - r
      if up ≤ a ∧ a - up < g.cols then some (r, g.cols - 1 - (a - up)) else none

/-- The phase (R211) of an admission in a slot, as an integer. -/
def phaseOf (forward : Bool) (g : Region) (slot : Int) : Int :=
  if forward then slot - g.row0 - g.col0 else slot + g.row0 + g.rows + g.col0 + g.cols

/-- The detail of an array trap (R415). -/
def waveDetail (bank region tag kind : Nat) : List Word :=
  [BitVec.ofNat 64 (bank % 4 + region % 16 * 16 + tag % 16 * 256 + kind % 8 * 4096)]

/-! Arrivals (R214 to R218, R146). -/

def at32 (l : List (BitVec 32)) (i : Nat) : BitVec 32 := l[i]?.getD 0
def val32 (x : BitVec 32) : FVal := f32.read x.toNat

/-- One more product of a sum: with 16-bit weights rounded at once, else kept exact in its run of 16 and added at its end. -/
def Wave.sumAt (w : Wave) (i : Nat) (single first last : Bool) (x : FVal) : Wave :=
  let add (s : BitVec 32) (y : FVal) : BitVec 32 := BitVec.ofNat 32 (accAdd f32 s.toNat y)
  if single then { w with sums := w.sums.set i (add (at32 w.sums i) x) } else
  let run := if first then x else addVal (w.runs[i]?.getD posZero) x
  { w with
    runs := w.runs.set i run
    sums := if last then w.sums.set i (add (at32 w.sums i) run) else w.sums }

/-- What a wavefront reads of a cell that it reaches: products into its sums, the exact sums of its check, the version
(DEDUCED, log entry 25). -/
def Wave.visit (w : Wave) (bank : Bank) (rc : Nat × Nat) : Wave :=
  if w.isA then w else
  let g := w.reg
  let p := perCell g.fmt
  let (r, c) := rc
  let x := bank.cell (g.place r c)
  let input (i : Nat) : FVal := val32 (at32 w.inputs (if w.forward then r else p * c + i))
  let prods := (List.range p).map fun i => mulVal (weight g.fmt x.w i) (input i)
  let v := x.v.toNat
  let w1 := { w with range := some (match w.range with
    | none => (v, v)
    | some (lo, hi) => (min lo v, max hi v)) }
  let w2 := if !g.cks then w1 else
    { w1 with chk := prods.foldl addVal w1.chk, mag := prods.foldl (fun m y => addVal m y.abs) w1.mag }
  if w.forward then
    prods.zipIdx.foldl (fun w y =>
      w.sumAt (p * c + y.2) (p == 1) (r % 16 == 0) (r % 16 == 15 || r + 1 == g.rows) y.1) w2
  else
    let k := g.cols - 1 - c
    match prods with
    | [] => w2
    | y :: t => w2.sumAt r (p == 1) (k % 16 == 0) (k % 16 == 15 || c == 0) (t.foldl addVal y)

/-- The draw of sub-weight `i` of cell (r, c) (R216). -/
def cellDraw (d : BitVec 32) (r c i : Nat) : Nat :=
  (d ^^^ BitVec.ofNat 32 (r * 0x9E3779B9 + c * 0x85EBCA6B + i * 0xC2B2AE35)).toNat

/-- The value that a tag's stash holds in a row. -/
def Region.stash (g : Region) (tag r : Nat) : BitVec 32 :=
  match g.stashes.find? fun x => x.1 == tag with
  | some x => at32 x.2 r
  | none => 0
def Region.stashValid (g : Region) (tag : Nat) : Bool := g.stashes.any fun x => x.1 == tag

/-- The cell as the wavefront leaves it; `old` is the bank at the start of the slot. -/
def Wave.newCell (w : Wave) (old : Bank) (r c : Nat) : WCell :=
  let g := w.reg
  let p := perCell g.fmt
  let x := old.cell (g.place r c)
  let s := val32 ((old.region w.region).stash w.tag r)
  let dy (i : Nat) : FVal := val32 (at32 w.inputs (p * c + i))
  match w.kind with
  | 2 =>
    let ws := (List.range p).map fun i =>
      updateCode g.fmt g.sr (cellDraw w.draw r c i) (subVal (weight g.fmt x.w i) (mulVal (mulVal (val32 g.eta) s) (dy i)))
    { x with w := packWeights g.fmt ws, v := x.v + 1 }
  | 3 => { x with g := BitVec.ofNat 32 (accAdd f32 x.g.toNat (mulVal s (dy 0))) }
  | 4 =>
    if w.skip then { x with g := 0 } else
    let d := mulVal (mulVal (val32 g.eta) (val32 g.gscale)) (val32 x.g)
    { w := packWeights g.fmt [updateCode g.fmt g.sr (cellDraw w.draw r c 0) (subVal (weight g.fmt x.w 0) d)], g := 0, v := x.v + 1 }
  | _ => x

/-- Is what the wavefront has written to a cell non-finite (R217)? A BU and an A that is not skipped write weights, a BG the
accumulator; the +0 that an A writes there is finite. -/
def Wave.wroteBad (w : Wave) (x : WCell) : Bool :=
  (w.updates && !((List.range (perCell w.reg.fmt)).all fun i => (weight w.reg.fmt x.w i).isNum)) ||
  (w.kind == 3 && !finite32 x.g)

/-- What a wavefront writes at the cells it reaches: the row's stash at an F's first column, cells, NF. -/
def Wave.apply (w : Wave) (old : Bank) (k : Bank) (rc : Nat × Nat) : Bank :=
  let (r, c) := rc
  let g := k.region w.region
  if w.kind = 0 then
    if c = 0 ∧ w.replays = 0 then
      k.setRegion w.region { g with stashes := g.stashes.map fun x =>
        if x.1 == w.tag then (x.1, x.2.set r (at32 w.inputs r)) else x }
    else k
  else if w.kind = 1 then k
  else
    let x := w.newCell old r c
    let k1 := k.setCell (w.reg.place r c) x
    if w.wroteBad x then k1.setRegion w.region { g with nf := true } else k1

/-- The arrivals of a slot: every wavefront reads the cells as the slot began (R218), then the updates are made. -/
def WArray.arrivals (a : WArray) : WArray :=
  let step (w : Wave) : Wave :=
    match w.age with
    | none => w
    | some n =>
      if w.last ≤ n then w else
      { (w.reaches n).foldl (fun w rc => w.visit (a.bankAt w.bank) rc) w with age := some (n + 1) }
  let write (x : WArray) (w : Wave) : WArray :=
    match w.age with
    | none => x
    | some n =>
      if w.last ≤ n then x else
      x.setBank w.bank ((w.reaches n).foldl (fun k rc => w.apply (a.bankAt w.bank) k rc) (x.bankAt w.bank))
  { a.flying.foldl write a with flying := a.flying.map step }

/-- WAVEFRONT_CELL_ARRIVAL: the arrivals of a slot in array `unit` (R212, R214). -/
def execWavefrontCellArrival (s : State) : Out :=
  let n := s.ctx.ev.unit
  if n < 16 then
    if (s.arr n).frozen then .next s else .next (s.setArr n (s.arr n).arrivals)
  else .fault .noSuchUnit

/-! Checks (R227). -/

/-- Does a wavefront pass its check, or is it not checked? (DEDUCED, log entry 25). -/
def Wave.passes (w : Wave) : Bool :=
  if !w.reg.cks || !(w.inputs.all finite32) || !(w.sums.all finite32) then true else
  withinUlps w.cktol (subVal ((w.sums.map val32).foldl addVal posZero) w.chk) w.mag

/-! Completion (R238, R240). -/

/-- A wavefront's job has not ended: it is on a core, or saved (R232). -/
def State.waveHome (s : State) (w : Wave) : Bool := s.jobPlace w.jobid != .gone

/-- The signal field of a WADMIT acts at its completion (R233); that of a restored wavefront has acted where it was issued. -/
def State.waveDone (s : State) (w : Wave) : State :=
  if w.restored || !w.cmd.code.head.se then s else s.onJob w.jobid fun k => k.signal w.cmd.code.head.ssem.toNat 1

/-- An output entry filled (R240), and the WADMIT completed. -/
def State.fillOutput (s : State) (w : Wave) (failed : Bool) : State :=
  if !s.waveHome w then s else
  let out := !(w.sums.all finite32)
  let e : WOut :=
    { tag := w.tag, dir := w.bFamily, failed := failed, nf := !failed && (w.nf || out), replays := w.replays, range := w.range.getD (0, 0)
      vals := if failed then [] else w.sums }
  (s.onJob w.jobid fun k => { k with wouts := k.wouts ++ [e], wroom := if w.owed then k.wroom else k.wroom - 1 }).waveDone w

/-- A wavefront replaced by a later form of itself. -/
def WArray.setWave (a : WArray) (w : Wave) : WArray :=
  { a with flying := a.flying.map fun x => if x.cmd.ord == w.cmd.ord && x.core == w.core then w else x }
/-- A wavefront that has retired. -/
def Wave.retired (w : Wave) : Wave := { w with age := some (w.last + 1), owed := false }

/-- Free entries of an output buffer (R240). -/
def Core.outRoom (k : Core) : Nat := 32 - k.wouts.length - k.wroom

/-- The delivery of a wavefront that has passed, or of a failed one; NF by a non-finite output (R217) (DEDUCED, log entry 25). -/
def State.deliverWave (s : State) (n : Nat) (w : Wave) : State :=
  if w.owed && (s.jobCore w.jobid).any (fun k => k.outRoom = 0) then s else
  let s1 := s.fillOutput w w.failed
  let a := s1.arr n
  let g := a.region w.bank w.region
  let a1 := if !w.failed && !(w.sums.all finite32) then a.setRegion w.bank w.region { g with nf := true } else a
  s1.setArr n (a1.setWave w.retired)

/-! Leases (R223, R224). -/

/-- The request that is granted next: the highest EPRIO, among equals the earliest. -/
def State.bestRequest (s : State) : List (CoreId × Nat) → Option (CoreId × Nat)
  | [] => none
  | x :: t =>
    match State.bestRequest s t with
    | none => some x
    | some y =>
      let ex := (s.core x.1).eprio.toNat
      let ey := (s.core y.1).eprio.toNat
      if ey < ex || (ex == ey && x.2 ≤ y.2) then some x else some y

/-- The lease granted in a slot, which is the schedule base (R239) (DEDUCED, log entry 26). -/
def WArray.grant (a : WArray) (c : CoreId) (slot : Nat) : WArray :=
  { a with lease := some c, requests := a.requests.filter (fun r => r.1 != c), base := slot, admissions := 0 }

/-- A request, in the order of requests; one that stands is kept. -/
def State.requestLease (s : State) (n : Nat) (c : CoreId) : State :=
  let a := s.arr n
  if a.requests.any fun r => r.1 == c then s
  else { s with seq := s.seq + 1 }.setArr n { a with requests := a.requests ++ [(c, s.seq)] }

/-- WADMITs that stand in the edge queues return to the head of their command queue in issue order (R235): output reservations
cancelled, units of their wait fields given back, a wait of the head command withdrawn. -/
def State.recall (s : State) (n : Nat) (c : CoreId) (pick : Wave → Bool) : State :=
  let a := s.arr n
  let mine (w : Wave) : Bool := w.core == c && pick w
  let ws := ((a.fwd ++ a.bwd).filter mine).mergeSort (fun x y => decide (x.cmd.ord ≤ y.cmd.ord))
  if ws.isEmpty then s else
  let k := s.core c
  let fresh (x : Cmd) : Cmd := { x with unit := false, wait := none, stage := 0, acc := [] }
  let backs := ((k.arrQ.take 1 ++ ws.map (·.cmd)).filter (·.unit)).map (·.code.head.wsem.toNat)
  let k1 := { k with
    arrQ := ws.map (fun w => fresh w.cmd) ++ (k.arrQ.take 1).map fresh ++ k.arrQ.drop 1
    wroom := k.wroom - (ws.filter fun w => !w.isA).length }
  let k2 := backs.foldl (fun k m => k.signal m 1) k1
  (s.setCore c k2).setArr n { a with fwd := a.fwd.filter (!mine ·), bwd := a.bwd.filter (!mine ·) }

/-- A fault at an admission (R235): the WADMIT and the later ones return, and it traps at the head. -/
def State.faultWave (s : State) (n : Nat) (w : Wave) (t : TrapSpec) : State :=
  (s.recall n w.core fun x => decide (w.cmd.ord ≤ x.cmd.ord)).raiseCmd w.core .arr false t

/-! Freezing (R229). -/

/-- The record of a trap that an array raises for the WS of the job on a core. -/
def State.arrayRecord (s : State) (c : CoreId) (t : TrapSpec) : TrapRec := s.mkRecord c .ws { t with eng := true, precise := false }

/-- A trap that the array raises: it freezes, and the trap goes to the lessee's WS; to that of a saved lessee, where it is held; and
while no job holds the lease it waits for the next lessee (DEDUCED, log entry 26). -/
def State.arrayTrap (s : State) (n : Nat) (t : TrapSpec) : State :=
  let a := s.arr n
  let s1 := s.setArr n { a with frozen := true }
  match a.lease, a.keeper with
  | some c, _ => s1.deliver c .ws (s1.arrayRecord c t)
  | none, some j =>
    match s1.saved.find? fun x => x.core.jobid == j with
    | some x =>
      let r := (s1.setCore x.origin x.core).arrayRecord x.origin t
      s1.onJob j fun k => { k with held := k.held ++ [r] }
    | none => s1
  | none, none => s1.setArr n { s1.arr n with traps := a.traps ++ [(t.cause, t.detail)] }

/-- Traps that have waited for a lessee are delivered to it. -/
def State.owedTraps (c : CoreId) : List (Nat × List Word) → State → State
  | [], s => s
  | x :: t, s => State.owedTraps c t (s.deliver c .ws (s.arrayRecord c { cause := x.1, detail := x.2 }))

/-- No job holds the lease, none has asked for it, and no trap waits for a lessee: a request is granted at once. -/
def WArray.unheld (a : WArray) : Bool := a.lease.isNone && a.keeper.isNone && a.requests.isEmpty && !a.frozen

/-! The turn of the lease. -/

/-- The lease ends that the last slot brought (R224, R246), and a grant (DEDUCED, log entry 26). -/
def State.turnLease (s : State) (n : Nat) : State :=
  let a := s.arr n
  let s1 :=
    match a.ending, a.lease with
    | 0, _ => s
    | _, none => s.setArr n { a with ending := 0 }
    | 1, some _ => s.setArr n { a with ending := 0, lease := none }
    | _, some c =>
      (((s.setArr n { a with ending := 0, lease := none }).recall n c fun _ => true).requestLease n c)
  let b := s1.arr n
  if b.lease.isSome || b.keeper.isSome then s1 else
  match s1.bestRequest b.requests with
  | none => s1
  | some r => State.owedTraps r.1 b.traps (s1.setArr n { b.grant r.1 (s1.clock - 1) with traps := [] })

/-- Every wavefront in flight that passes a test ends with failed status (R252) (DEDUCED, log entry 26). -/
def State.failWaves (n : Nat) : List Wave → State → State
  | [], s => s
  | w :: t, s =>
    let x := { w with failed := true, age := some w.last }
    let s1 :=
      if !w.open_ then s
      else if w.isA then (s.setArr n ((s.arr n).setWave x.retired)).waveDone x
      else (s.setArr n ((s.arr n).setWave x)).deliverWave n x
    State.failWaves n t s1

/-- The freeze ends as a discarding WDRAIN ends it (R252): `back` says whether queued WADMITs return to their streams. -/
def State.discardArray (s : State) (n : Nat) (back : Bool) : State :=
  let s1 := State.failWaves n (s.arr n).flying s
  let cores := (((s1.arr n).fwd ++ (s1.arr n).bwd).map (·.core)).eraseDups
  let s2 := if back then cores.foldl (fun s c => s.recall n c fun _ => true) s1 else s1
  s2.setArr n { s2.arr n with fwd := [], bwd := [], recent := [], frozen := false }

/-- A job's request, and what of it still stands at the edges with the output entries reserved for it, are given up. -/
def State.leaveEdges (s : State) (c : CoreId) : State :=
  let n := clusterOf c
  let a := s.arr n
  let k := s.core c
  let owed := (a.fwd ++ a.bwd).countP fun w => w.core == c && !w.isA
  (s.setCore c { k with wroom := k.wroom - owed }).setArr n { a with
    requests := a.requests.filter fun r => r.1 != c
    fwd := a.fwd.filter fun w => w.core != c
    bwd := a.bwd.filter fun w => w.core != c }

/-- A job gives up its lease, its request, and what of it still stands at the edges (R66, R71, R223); a freeze ends with it. -/
def State.dropLease (s : State) (c : CoreId) : State :=
  let n := clusterOf c
  let a := s.arr n
  let s1 := s.leaveEdges c
  if a.lease != some c then s1 else
  let s2 := if a.frozen then s1.discardArray n false else s1
  s2.setArr n { s2.arr n with lease := none, ending := 0 }

/-- A cell's SRAM is uncorrectable (R229): the cell is marked, its region becomes Poisoned, and the array freezes. -/
def State.cellUpset (s : State) (n b i : Nat) : State :=
  let a := s.arr n
  let k := a.bankAt b
  let hit := (List.range 16).filter fun r => (k.region r).state != .undef && (k.region r).covers i
  let k1 := hit.foldl (fun k r =>
    k.setRegion r { k.region r with state := .poisoned })
    { k with poison := if k.poison.contains i then k.poison else i :: k.poison }
  (s.setArr n (a.setBank b k1)).arrayTrap n { cause := cMEMUE, detail := waveDetail b (hit.head?.getD 0) 0 0 }

/-! Delivery. -/

/-- A mismatch that ends in CKS_FAIL (R228): not an F or a B, re-admitted twice, no longer in the buffer, or its region updated
since. -/
def WArray.beyondRetry (a : WArray) (w : Wave) : Bool :=
  !(w.kind == 0 || w.kind == 1) || decide (2 ≤ w.replays) || !(a.recent.any fun x => x.cmd.ord == w.cmd.ord && x.core == w.core) ||
  (a.region w.bank w.region).uc != w.uc

/-- A wavefront that stands again at its edge (R228). -/
def Wave.again (w : Wave) : Wave :=
  { w with
    age := none, replays := w.replays + 1, range := none, sums := w.sums.map fun _ => 0, runs := w.runs.map fun _ => posZero
    chk := posZero, mag := posZero }

/-- The due wavefronts of a slot whose checks ask for CKS_FAIL. -/
def State.failedChecks (n : Nat) : List Wave → State → State
  | [], s => s
  | w :: t, s =>
    let a := s.arr n
    let s1 := s.setArr n (a.setWave { w with failed := true })
    State.failedChecks n t
      (s1.arrayTrap n { cause := cCKSFAIL, pc := some w.cmd.pc, detail := waveDetail w.bank w.region w.tag w.kind })

/-- The deliveries of a slot: those that mismatch are re-admitted, the others deliver. -/
def State.deliveries (n : Nat) : List Wave → State → State
  | [], s => s
  | w :: t, s =>
    if w.failed || w.passes then State.deliveries n t (s.deliverWave n w)
    else
      let a := s.arr n
      State.deliveries n t (s.setArr n { a with
        flying := a.flying.filter (fun x => !(x.cmd.ord == w.cmd.ord && x.core == w.core)) ++ [w.again] })

/-- WAVEFRONT_DELIVERY: array `unit` begins a slot: the lease, the wavefronts gone that the last slot retired, also where it froze the
array, then the checks and deliveries of this one (R212, R227, R228, R238, R240). -/
def execWavefrontDelivery (s : State) : Out :=
  let n := s.ctx.ev.unit
  if n < 16 then
    let s1 := if (s.arr n).frozen && (s.arr n).lease.isSome then s else s.turnLease n
    let a := s1.arr n
    let s2 := s1.setArr n { a with flying := a.flying.filter Wave.open_ }
    if a.frozen then .next s2 else
    let due := (s2.arr n).flying.filter fun w => !w.isA && w.age == some w.last
    let fails := due.filter fun w => !w.failed && !w.passes && (s2.arr n).beyondRetry w
    .next (if fails.isEmpty then State.deliveries n due s2 else State.failedChecks n fails s2)
  else .fault .noSuchUnit

/-! Admission (R210, R211, R213, R219, R239). -/

/-- Does the strict check fail (R220)? -/
def Region.tornAt (g : Region) (tag : Nat) : Bool :=
  match g.records.find? fun r => r.tag == tag with
  | some r => r.uc != g.uc || r.bu
  | none => false

/-- No wavefront of its direction would meet it in a cell (R211). -/
def WArray.phaseFree (a : WArray) (w : Wave) (g : Region) (slot : Nat) : Bool :=
  a.flying.all fun x =>
    match x.age with
    | none => true
    | some n =>
      x.forward != w.forward || !g.meets x.reg ||
      phaseOf w.forward g slot != phaseOf w.forward x.reg ((slot : Int) - n)

/-- The stash rules (R213) (DEDUCED, log entry 22). -/
def WArray.stashFree (a : WArray) (w : Wave) : Bool :=
  let same (x : Wave) : Bool := x.bank == w.bank && x.region == w.region && x.tag == w.tag
  if w.kind = 0 then a.flying.all fun x => !(same x && x.bFamily)
  else if w.bFamily then
    a.flying.all fun x => !(same x && x.kind == 0 && x.replays == 0 && (match x.age with
      | some n => decide (n < x.reg.rows)
      | none => false))
  else true

/-- The version fences (R219). -/
def WArray.fenceFree (a : WArray) (w : Wave) : Bool :=
  if w.isA then a.flying.all fun x => !(x.bank == w.bank && x.bFamily)
  else if w.bFamily then a.flying.all fun x => !(x.bank == w.bank && x.region == w.region && x.isA)
  else true

/-- The lessee's WSAVE holds admissions (R256). -/
def State.saveHolds (s : State) (a : WArray) : Bool :=
  match a.lease with
  | none => false
  | some c =>
    match (s.core c).arrQ with
    | x :: _ => x.stage == 1 && (match x.code.instr with | .wsave _ => true | _ => false)
    | [] => false

/-- May the first admission of an edge queue be made in this slot? (DEDUCED, log entry 22). -/
def State.mayAdmit (s : State) (n : Nat) (w : Wave) : Bool :=
  let a := s.arr n
  let earlierBase := (a.fwd ++ a.bwd).any fun x => x.base && x.core == w.core && decide (x.cmd.ord < w.cmd.ord)
  decide (w.entered < s.clock) && decide (a.base + w.nb ≤ s.clock) && !earlierBase && !s.saveHolds a &&
  a.phaseFree w (a.region w.bank w.region) s.clock && a.stashFree w && a.fenceFree w

/-- The admission of a re-admitted wavefront (R228). -/
def State.readmit (s : State) (n : Nat) (w : Wave) : State := s.setArr n ((s.arr n).setWave { w with age := some 0 })

/-- The stash of an F's tag is valid from its admission on; its rows are written as it reaches them (R213)
(DEDUCED, log entry 22). -/
def Region.openStash (g : Region) (tag : Nat) : Region :=
  if g.stashValid tag then g else { g with stashes := (tag, List.replicate g.rows 0) :: g.stashes }

/-- The admission of the first wavefront of an edge queue (R250, R220, R217, R215, R216, R239, R224, R228). -/
def State.enterArray (s : State) (n : Nat) (w : Wave) : State :=
  let a := s.arr n
  let g := a.region w.bank w.region
  let detail := waveDetail w.bank w.region w.tag w.kind
  if a.lease != some w.core then
    (s.setArr n { a with forced := a.forced.filter (· != w.jobid) }).faultWave n w { cause := cLEASEREVOKED }
  else if g.state != .loaded || ((w.kind == 2 || w.kind == 3) && !g.stashValid w.tag) then
    s.faultWave n w { cause := cWFAREGION, detail := detail }
  else if g.strict && w.bFamily && g.tornAt w.tag then s.faultWave n w { cause := cWFAVERSION, detail := detail }
  else
    let k := s.core w.core
    let bu := a.flying.any fun x => x.bank == w.bank && x.region == w.region && x.kind == 2
    let bad := !(w.inputs.all finite32)
    let draws := w.updates && g.sr
    let d := if draws then lfsrDraw (k.strm .ws).seed else 0
    let zeros : Nat := if w.isA then 0 else if w.forward then g.width else g.rows
    let w1 := { w with
      reg := g, draw := d, cktol := k.cktol.toNat, age := some 0, uc := g.uc, bu := bu, nf := bad
      sums := List.replicate zeros 0, runs := List.replicate zeros posZero }
    let g1 := { g with nf := g.nf || bad, uc := if w.updates then g.uc + 1 else g.uc }
    let g2 := if w.kind ≠ 0 then g1 else
      { g1.openStash w.tag with records := ⟨w.tag, g.uc, bu⟩ :: g1.records.filter fun r => r.tag != w.tag }
    let lm := (s.die (dieOf w.core)).leasemax.toNat
    let others := a.requests.any fun r => r.1 != w.core
    let count := a.admissions + 1
    let a1 := { a.setRegion w.bank w.region g2 with
      fwd := if w.forward then a.fwd.tail else a.fwd
      bwd := if w.forward then a.bwd else a.bwd.tail
      flying := a.flying ++ [w1]
      recent := (w1 :: a.recent).take 8
      base := if w.base then s.clock else a.base
      admissions := count
      ending := if lm ≠ 0 ∧ lm ≤ count ∧ others then 2 else a.ending }
    let s1 := s.setArr n a1
    if draws then s1.setStrm w.core .ws { s1.strm w.core .ws with seed := d } else s1

/-- A pending re-admission of a direction. -/
def WArray.pendingAgain (a : WArray) (forward : Bool) : Option Wave :=
  a.flying.find? fun w => w.age.isNone && w.forward == forward

/-- The candidate of an edge: a re-admission stands ahead of every queued admission, and follows the rules of one (R210, R228)
(DEDUCED, log entry 26). -/
def State.candidate (s : State) (n : Nat) (forward : Bool) : Option Wave :=
  let a := s.arr n
  match a.pendingAgain forward with
  | some w => if a.phaseFree w w.reg s.clock && a.stashFree w && a.fenceFree w then some w else none
  | none =>
    match (if forward then a.fwd else a.bwd).head? with
    | none => none
    | some w => if a.lease != some w.core || s.mayAdmit n w then some w else none

/-- A candidate admitted, of whichever kind it is (DEDUCED, log entry 26). -/
def State.takeIn (s : State) (n : Nat) (w : Wave) : State := if w.replays = 0 then s.enterArray n w else s.readmit n w

/-- Of an A and a B-family wavefront of one bank that could be admitted in one slot, the later issued is put off until after
the other's retirement (R219). -/
def WArray.defer (a : WArray) (x y : Wave) (slot : Nat) : WArray :=
  if x.bank == y.bank && (x.isA && y.bFamily || x.bFamily && y.isA) then
    let until_ := slot + { x with reg := a.region x.bank x.region : Wave }.last
    let put (l : List Wave) : List Wave := l.map fun w => if w.cmd.ord == y.cmd.ord then { w with entered := max w.entered until_ } else w
    { a with fwd := put a.fwd, bwd := put a.bwd }
  else a

/-- WAVEFRONT_ADMISSION: the admissions of a slot in array `unit`: of the two edges' candidates the earlier issued goes first,
and the other is admitted if it still may be. -/
def execWavefrontAdmission (s : State) : Out :=
  let n := s.ctx.ev.unit
  if n < 16 then
    if (s.arr n).frozen then .next s else
    match s.candidate n true, s.candidate n false with
    | none, none => .next s
    | some x, none => .next (s.takeIn n x)
    | none, some y => .next (s.takeIn n y)
    | some x, some y =>
      let (first, second) := if x.cmd.ord ≤ y.cmd.ord then (x, y) else (y, x)
      let s1 := s.takeIn n first
      let went := (s1.arr n).flying.any fun w => w.cmd.ord == first.cmd.ord && w.core == first.core
      let s2 := if went && second.replays = 0 && first.replays = 0 then s1.setArr n ((s1.arr n).defer first second s.clock) else s1
      match s2.candidate n second.forward with
      | some z => if z.cmd.ord == second.cmd.ord then .next (s2.takeIn n z) else .next s2
      | none => .next s2
  else .fault .noSuchUnit

/-! Commit (R212, R221). -/

/-- The commits of the A wavefronts due. -/
def State.commits (n : Nat) : List Wave → State → State
  | [], s => s
  | w :: t, s =>
    let a := s.arr n
    let k := a.bankAt w.bank
    let a1 := if w.skip then a else a.setBank w.bank { k with steps := k.steps + 1 }
    State.commits n t ((s.setArr n (a1.setWave w.retired)).waveDone w)

/-- APPLY_COMMIT: the A wavefronts of array `unit` that have passed their last cell commit. -/
def execApplyCommit (s : State) : Out :=
  let n := s.ctx.ev.unit
  if n < 16 then
    let a := s.arr n
    if a.frozen then .next s else
    .next (State.commits n (a.flying.filter fun w => w.isA && w.age == some w.last) s)
  else .fault .noSuchUnit

/-- Has an array anything to do in a slot? A frozen one lets go of what had retired. -/
def WArray.busy (a : WArray) : Bool :=
  (a.frozen && !a.flying.all Wave.open_) ||
  (!a.frozen && (!a.flying.isEmpty || !a.fwd.isEmpty || !a.bwd.isEmpty || a.ending != 0)) ||
  (a.lease.isNone && a.keeper.isNone && !a.requests.isEmpty)

/-- The arrays' events of a slot. -/
def State.arrayEvents (s : State) : List Event :=
  (List.range 16).flatMap fun n =>
    if (s.arr n).busy then
      [Instr.wavefrontDelivery, .wavefrontAdmission, .applyCommit, .wavefrontCellArrival].map fun i =>
        ⟨i, { EvArgs.zero with unit := n }⟩
    else []

/-- No wavefront of the job on a core that satisfies a test stands at an edge or is in flight. -/
def State.wavesGone (s : State) (c : CoreId) (p : Wave → Bool) : Bool :=
  let a := s.arr (clusterOf c)
  let mine (w : Wave) : Bool := w.core == c && w.jobid == (s.core c).jobid && p w
  !((a.fwd ++ a.bwd).any mine) && !(a.flying.any fun w => mine w && w.open_)

/-- No wavefront of the job on a core that its WS has admitted or queued is incomplete (R112, R252). -/
def State.wavesDone (s : State) (c : CoreId) : Bool := s.wavesGone c fun w => !w.restored

/-- The job's wavefronts have drained (R232): those that WREST gave it count too (R257). -/
def State.wavesDrained (s : State) (c : CoreId) : Bool := s.wavesGone c fun _ => true

end Sys2Proof.Machine
end

