-- ==== Sys2Proof/Machine/Spaces.lean ====
section
/-! DEFINITION. The spaces behind the memory instructions beside G and the scratchpads: the read-only path K (R296, R313), host
memory H with its write buffer (R297, R314), and peers P (R298, R315, R392, R393). -/
namespace Sys2Proof.Machine

/-! Space K. -/

/-- The values of some bytes at the places of the order of stores that a K load may use, newest first, each with its place:
the stores skipped are the job's own, none older than the bound (R313) (DEDUCED, log entry 10). -/
def kPlaces (job : Word) (bound pa n : Nat) : List KStore → List Byte → List (Nat × List Byte)
  | [], _ => []
  | x :: t, bs =>
    if x.pos < bound then []
    else if pa < x.pa + x.old.length && x.pa < pa + n then
      if x.job != job || job = 0 then []
      else
        let old := bs.zipIdx.map fun b => if x.pa ≤ pa + b.2 then (x.old[pa + b.2 - x.pa]?.getD b.1) else b.1
        (x.pos, old) :: kPlaces job bound pa n t old
    else kPlaces job bound pa n t bs

/-- The K horizon of some bytes for a stream, with the places of its earlier K loads (R313) (DEDUCED, log entry 10). -/
def State.kBound (s : State) (c : CoreId) (i : StreamId) (pa n : Nat) : Nat :=
  let t := s.strm c i
  let m := (s.core c).khor.foldl (fun m h => if h.1 < pa + n && pa < h.1 + h.2.1 then max m h.2.2 else m) t.horizon
  t.kseen.foldl (fun m x => if pa ≤ x.1 && x.1 < pa + n then max m x.2 else m) m

/-- One element read by a K load: at a place of free choice among those R313 permits, of an NC page at its own; the stream's later
K loads of these bytes use none before it (DEDUCED, log entry 10). -/
def State.readK (s : State) (c : CoreId) (i : StreamId) (p : Piece) : State × List Byte :=
  let s0 := s
  let seen := s0.seen (s0.core c).jobid p.pa (s0.readClean [p])
  let s := seen.1
  let now := seen.2
  let note (s : State) (pos : Nat) : State :=
    let t := s.strm c i
    s.setStrm c i { t with
      kseen := ((List.range p.len).map fun j => (p.pa + j, pos)) ++ t.kseen.filter fun x => !(p.pa ≤ x.1 && x.1 < p.pa + p.len) }
  if pteNC p.leaf.pte then (note s s.gpos, now) else
  match kPlaces (s.core c).jobid (s.kBound c i p.pa p.len) p.pa p.len s.glog now with
  | [] => (note s s.gpos, now)
  | old =>
    let pick := match old[Config.freeChoice s.draws % (old.length + 1)]? with
      | some x => x
      | none => (s.gpos, now)
    (note s.drawn pick.1, pick.2)

/-- The elements of a K load in order. -/
def State.readKAll (c : CoreId) (i : StreamId) : List Piece → State → State × List Byte
  | [], s => (s, [])
  | p :: t, s =>
    match s.readK c i p with
    | (s1, bs) =>
      match State.readKAll c i t s1 with
      | (s2, rest) => (s2, bs ++ rest)

/-- A load through K over the ranges of its elements. -/
def State.loadK (s : State) (c : CoreId) (i : StreamId) (pz : Bool) (rs : List (Int × Nat)) : Accessed :=
  match s.xlateAll c i .load rs with
  | (s1, .error e) => .trap s1 (accFault .load 3 e)
  | (s1, .ok ps) =>
    match State.readKAll c i ps (s1.mark (.strm c i) .load ps) with
    | (s2, bs) =>
      match s2.consume c i pz 3 (s.accPc c i) (s2.badLines ps) with
      | (s3, some t) => .trap s3 t
      | (s3, none) => .ok s3 bs

/-! Space H. -/

/-- What the host has stored meanwhile in host memory that is about to be accessed: nothing, or bytes that nothing in the
package knows (a free value, log entry 6). -/
def State.envHost (s : State) (a n : Nat) : State :=
  if Config.freeBit s.draws then
    { s.drawn with host := s.host.writeN a (leBytes (Config.freeVec s.draws).toNat n) }
  else s.drawn

/-- Bytes of the write buffer laid over bytes read at an address (R314) (DEDUCED, log entry 12). -/
def Core.overBuf (k : Core) (a : Nat) (bs : List Byte) : List Byte :=
  k.hostBuf.foldl (fun bs x => bs.zipIdx.map fun b =>
    if x.addr ≤ a + b.2 then (x.bytes[a + b.2 - x.addr]?.getD b.1) else b.1) bs

/-- A line for LDH.c: the copy in the L1 if it holds one that has not been evicted (a free choice), else from the host, kept with
the core's buffered stores laid over it (R297) (DESIGN CHOICE, log entry 6). -/
def State.hostLine (s : State) (c : CoreId) (l : Nat) : State × Option (List Byte) :=
  match (s.core c).hostCopies.find? fun x => x.1 == l with
  | some x => if Config.freeBit s.draws then (s.drawn, some x.2) else fetchLine s.drawn
  | none => fetchLine s
where
  fetchLine (s : State) : State × Option (List Byte) :=
    let s1 := s.envHost l 64
    match s1.hostRead l 64 with
    | none => (s1, none)
    | some bs =>
      let k := s1.core c
      let line := k.overBuf l bs
      (s1.setCore c { k with hostCopies := (l, line) :: k.hostCopies.filter fun x => x.1 != l }, some line)

/-- The lines of an LDH.c, in order. -/
def State.hostLines (c : CoreId) : List Nat → State → State × Option (List Byte)
  | [], s => (s, some [])
  | l :: t, s =>
    match s.hostLine c l with
    | (s1, none) => (s1, none)
    | (s1, some bs) =>
      match State.hostLines c t s1 with
      | (s2, none) => (s2, none)
      | (s2, some r) => (s2, some (bs ++ r))

/-- A range outside space H, K, G or P (R275). -/
def outside (r : Int × Nat) : Bool := r.1 < 0 || decide ((2 : Int) ^ 48 < r.1 + r.2)

/-- A fault at an address of a space. -/
def spaceFault (cause : Nat) (acc : Acc) (space : Nat) (a : Int) : TrapSpec :=
  { cause := cause, addr := BitVec.ofInt 64 a, kind := acc.code, space := space }

/-- One range of an LDH. -/
def State.loadHost1 (s : State) (c : CoreId) (cached : Bool) (a n : Nat) : State × Option (List Byte) :=
  if cached && !(linesOf a n).any (fun l => s.inWindow l 64) then
    match State.hostLines c (linesOf a n) s with
    | (s1, none) => (s1, none)
    | (s1, some bs) => (s1, some ((bs.drop (a % 64)).take n))
  else
    let s1 := if s.inWindow a n then s else s.envHost a n
    (s1, s1.hostRead a n)

/-- Buffered stores that reach the host: the buffer's oldest `n` entries, in order (DEDUCED, log entry 12). -/
def State.deliverOldest (s : State) (c : CoreId) (n : Nat) : State :=
  let k := s.core c
  (k.hostBuf.take n).foldl (fun s x => s.deliverStore c x) (s.setCore c { k with hostBuf := k.hostBuf.drop n })

/-- Are all bytes of a line in the write buffer? -/
def Core.lineFull (k : Core) (l : Nat) : Bool :=
  (List.range 64).all fun j => k.hostBuf.any fun x => x.addr ≤ l + j && l + j < x.addr + x.bytes.length

/-- One store entering the write buffer (R297, R314): .c copies of its lines are updated, and a line that fills leaves with
everything before it (DEDUCED, log entry 12). -/
def State.bufferStore (s : State) (c : CoreId) (i : StreamId) (a : Nat) (bs : List Byte) : State :=
  let k := s.core c
  let upd (x : Nat × List Byte) : Nat × List Byte :=
    (x.1, x.2.zipIdx.map fun b => if a ≤ x.1 + b.2 then (bs[x.1 + b.2 - a]?.getD b.1) else b.1)
  let k1 := { k with
    hostBuf := k.hostBuf ++ [⟨a, bs, i, (k.strm i).pc, s.clock⟩]
    hostCopies := k.hostCopies.map upd }
  let s1 := s.setCore c k1
  if (linesOf a bs.length).any k1.lineFull then s1.deliverOldest c k1.hostBuf.length else s1

/-- A store to H over some ranges. -/
def State.storeHost (s : State) (c : CoreId) (i : StreamId) (rs : List (Int × Nat)) (bs : List Byte) : Accessed :=
  match rs.find? outside with
  | some r => .trap s (spaceFault cPROT .store 4 r.1)
  | none =>
    .ok (rs.foldl (fun (x : State × List Byte) r =>
      (x.1.bufferStore c i r.1.toNat (x.2.take r.2), x.2.drop r.2)) (s, bs)).1 []

/-- The buffered stores of a stream to some bytes are sent, with those that must go before them (R314) (DEDUCED, log entry 12). -/
def State.flushHost (s : State) (c : CoreId) (i : StreamId) (lo hi : Int) : State :=
  s.drainHost c fun x => x.strm == i && decide ((x.addr : Int) < hi) && decide (lo < ((x.addr + x.bytes.length : Nat) : Int))

/-- The ranges of an LDH read in order. -/
def State.readHost (c : CoreId) (cached : Bool) : List (Int × Nat) → State → Accessed
  | [], s => .ok s []
  | r :: t, s =>
    match s.loadHost1 c cached r.1.toNat r.2 with
    | (s1, none) => .trap s1 (spaceFault cHOSTERR .load 4 r.1)
    | (s1, some bs) =>
      match State.readHost c cached t s1 with
      | .ok s2 rest => .ok s2 ((s1.core c).overBuf r.1.toNat bs ++ rest)
      | .trap s2 x => .trap s2 x
      | .hold s2 => .hold s2

/-- A load from H over some ranges (R297, R279): every range is checked first. The stream's own buffered stores to these bytes are
performed at the host before it (R319), those of the core's other streams are read in the buffer (R314). -/
def State.loadHost (s : State) (c : CoreId) (i : StreamId) (cached : Bool) (rs : List (Int × Nat)) : Accessed :=
  match rs.find? outside with
  | some r => .trap s (spaceFault cPROT .load 4 r.1)
  | none => State.readHost c cached rs (rs.foldl (fun s r => s.flushHost c i r.1 (r.1 + r.2)) s)

/-! Space P. -/

/-- "Link trap detail" (R407). -/
def linkDetail (pc : Word) (peer post : Nat) (trig exec : Bool) (link code acked : Nat) : List Word :=
  [pc, BitVec.ofNat 64 (peer % 16 + post % 64 * 16 + (if trig then 2 ^ 10 else 0) + (if exec then 2 ^ 11 else 0) +
    link % 16 * 2 ^ 12 + code % 256 * 2 ^ 16), BitVec.ofNat 64 acked]

/-- The path to a peer (R298, R392, R398): the entry, or the cause and remote code of its failure. -/
def State.peerPath (s : State) (c : CoreId) (n : Nat) : Except (Nat × Nat × Nat) Peer :=
  let p := (s.die (dieOf c)).peer (s.core c).asid n
  if !p.v then .error (cPEERERR, 0, 5)
  else
    match s.links.toList[p.link]? with
    | some l => if l.up then .ok p else .error (cLINKTIMEOUT, p.link, 0)
    | none => .error (cLINKTIMEOUT, p.link, 0)

/-- What stands at the other end of a peer entry (DESIGN CHOICE, log entry 7). -/
def State.remote (s : State) (p : Peer) : Remote :=
  (s.remotes.find? fun r => r.link == p.link && r.rdie == p.rdie && r.asid == p.rasid).getD
    ⟨p.link, p.rdie, p.rasid, [], true, [], []⟩
def State.setRemote (s : State) (r : Remote) : State :=
  { s with remotes := r :: s.remotes.filter fun x => !(x.link == r.link && x.rdie == r.rdie && x.asid == r.asid) }

/-- What the peer's own agents have stored meanwhile in bytes that are about to be accessed (a free value, log entry 7). -/
def State.envPeer (s : State) (p : Peer) (a n : Nat) : State :=
  if Config.freeBit s.draws then
    let r := s.remote p
    s.drawn.setRemote { r with mem := r.mem.writeN a (leBytes (Config.freeVec s.draws).toNat n) }
  else s.drawn

/-- Why the peer refuses an access, as a remote code (R407); 0 where it does not (DESIGN CHOICE, log entry 7). -/
def Remote.refusal (r : Remote) (a n : Nat) : Nat :=
  if !r.accepts then 3
  else if (List.range (n / 65536 + 2)).any fun j => a / 65536 + j ≤ (a + n - 1) / 65536 && r.bad.contains (a / 65536 + j) then 4
  else 0

/-- A failure of a P access of the executing instruction at `pc`. -/
def peerFault (acc : Acc) (pc : Word) (n : Nat) (a : Int) (e : Nat × Nat × Nat) : TrapSpec :=
  { spaceFault e.1 acc 5 a with detail := linkDetail pc n 0 false false e.2.1 e.2.2 0 }

/-- Poisoned lines under some ranges, with word 2 of their entries (R294). -/
def Remote.badLines (x : Remote) (rs : List (Int × Nat)) : List (Word × Word) :=
  rs.flatMap fun r => ((linesOf r.1.toNat r.2).filter fun l => x.poison.contains l).map fun l => (BitVec.ofNat 64 l, 0)

/-- The first of some ranges that the peer refuses, with its remote code. -/
def Remote.refuses (x : Remote) (rs : List (Int × Nat)) : Option (Int × Nat) :=
  rs.findSome? fun r => if x.refusal r.1.toNat r.2 = 0 then none else some (r.1, x.refusal r.1.toNat r.2)

/-- The check on the alignment of an element of an atomic, and on the range of any access in space P (R279, R321). -/
def peerRange (acc : Acc) (r : Int × Nat) : Option TrapSpec :=
  if acc = .atomic ∧ r.1 % (r.2 : Int) ≠ 0 then some (spaceFault cALIGN acc 5 r.1)
  else if outside r then some (spaceFault cPROT acc 5 r.1) else none

/-- The checks of an access that has reached its peer, range by range, each with all of its own before the next (R279, R322): what it
could be found here, the peer's refusal, and under an atomic poison (R321). -/
def State.peerChecks (acc : Acc) (pc : Word) (n : Nat) (p : Peer) : List (Int × Nat) → State → State × Option TrapSpec
  | [], s => (s, none)
  | r :: t, s =>
    match peerRange acc r with
    | some x => (s, some x)
    | none =>
      let code := (s.remote p).refusal r.1.toNat r.2
      if code ≠ 0 then (s, some (peerFault acc pc n r.1 (cPEERERR, p.link, code))) else
      match if acc = .atomic then s.poisonTrap s.ctx.core s.ctx.strm .atomic 5 pc ((s.remote p).badLines [r]) else (s, none) with
      | (s1, some x) => (s1, some x)
      | (s1, none) => State.peerChecks acc pc n p t s1

/-- The ranges that are checked before an access leaves for its peer: all, or of an atomic's elements the first. -/
def peerFirst (acc : Acc) (rs : List (Int × Nat)) : Option TrapSpec :=
  (if acc = .atomic then rs.take 1 else rs).findSome? (peerRange acc)

/-- A P access of the executing stream to peer `n` that has a response (R298, R393, R398): its ranges are checked, then the path, then
the peer's own checks; the response comes after a free number of slots, which the stream waits for without registration; the access
is performed when it comes. Where the link fails first, LINK_TIMEOUT, and a free bit says whether the access had been performed,
which it is where the peer's checks let it (R321) (DESIGN CHOICE, log entry 7). -/
def State.peerAccess (s : State) (acc : Acc) (n : Nat) (rs : List (Int × Nat)) (go : State → Peer → State × List Byte) : Accessed :=
  let c := s.ctx.core
  let pc := s.str.pc
  let a0 : Int := (rs.head?.map (·.1)).getD 0
  match peerFirst acc rs with
  | some t => .trap s t
  | none =>
    match s.str.peerWait with
    | some w =>
      let p := (s.die (dieOf c)).peer s.me.asid n
      if w.failed then
        let made := Config.freeBit s.draws && (State.peerChecks acc pc n p rs s).2.isNone
        let s1 := if made then (go s.drawn p).1 else s.drawn
        .trap s1 { spaceFault cLINKTIMEOUT acc 5 a0 with detail := linkDetail pc n 0 false made w.link 0 0 }
      else if s.clock < w.due then .hold s
      else
        match State.peerChecks acc pc n p rs s with
        | (s1, some t) => .trap s1 t
        | (s1, none) => let r := go s1 p; .ok r.1 r.2
    | none =>
      match s.peerPath c n with
      | .error e => .trap s (peerFault acc pc n a0 e)
      | .ok p =>
        let w : PeerWait := ⟨p.link, s.clock + 6 + Config.freeDelay s.draws % latencyBound, false⟩
        .hold (s.setStr { s.str with peerWait := some w }).drawn

/-- The bytes of a range of a peer's memory, those of poisoned lines read as zero. -/
def Remote.readClean (x : Remote) (r : Int × Nat) : List Byte :=
  (x.mem.readN r.1.toNat r.2).zipIdx.map fun b => if x.poison.contains ((r.1.toNat + b.2) / 64 * 64) then 0 else b.1

/-- A load from peer `n` over some ranges, with its poison (R294) (DESIGN CHOICE, log entry 7). -/
def State.loadPeer (s : State) (n : Nat) (rs : List (Int × Nat)) : Accessed :=
  let p := (s.die (dieOf s.ctx.core)).peer s.me.asid n
  let a := s.peerAccess .load n rs fun s p =>
    let s1 := rs.foldl (fun s r => s.envPeer p r.1.toNat r.2) s
    (s1, rs.flatMap fun r => (s1.remote p).readClean r)
  match a with
  | .ok s1 bs =>
    match s1.consume s1.ctx.core s1.ctx.strm false 5 s1.str.pc ((s1.remote p).badLines rs) with
    | (s2, some t) => .trap s2 t
    | (s2, none) => .ok s2 bs
  | .trap s1 t => .trap s1 t
  | .hold s1 => .hold s1

/-- Bytes written over several ranges of a peer's memory. -/
def Remote.writeAll (x : Remote) : List (Int × Nat) → List Byte → Remote
  | [], _ => x
  | r :: t, bs =>
    Remote.writeAll { x with
      mem := x.mem.writeN r.1.toNat (bs.take r.2)
      poison := x.poison.filter fun l => !(decide (r.1 ≤ (l : Int)) && decide ((l : Int) + 64 ≤ r.1 + r.2)) } t (bs.drop r.2)

/-- A store to peer `n` over some ranges (R298): a refusal at the peer leaves all of it undone and is left pending (R414); else it is
done at the peer, and its acknowledgement comes after a free number of slots (R324) (DESIGN CHOICE, log entry 7). -/
def State.storePeer (s : State) (c : CoreId) (i : StreamId) (n : Nat) (rs : List (Int × Nat)) (bs : List Byte) : Accessed :=
  let pc := s.accPc c i
  match rs.find? outside, rs with
  | some r, _ => .trap s (spaceFault cPROT .store 5 r.1)
  | none, [] => .ok s []
  | none, r0 :: _ =>
    match s.peerPath c n with
    | .error e => .trap s (peerFault .store pc n r0.1 e)
    | .ok p =>
      let t := (s.strm c i).ackStores s.clock
      match (s.remote p).refuses rs with
      | some (a, code) =>
        let f : PendFault := ⟨cPEERERR, pc, BitVec.ofInt 64 a, 1, 5, linkDetail pc n 0 false true p.link code 0, s.accSlot⟩
        .ok (s.setStrm c i { t with faults := t.faults ++ [f] }) []
      | none =>
        let f : PendFault := ⟨cLINKTIMEOUT, pc, BitVec.ofInt 64 r0.1, 1, 5, linkDetail pc n 0 false true p.link 0 0, s.accSlot⟩
        let w : PeerStore := ⟨p.link, s.clock + 1 + Config.freeDelay s.draws % latencyBound, false, f⟩
        .ok ((s.setRemote ((s.remote p).writeAll rs bs)).setStrm c i { t with peerStores := t.peerStores ++ [w] }).drawn []

/-! Pending faults (R297, R325, R406, R426). -/

/-- The trap of a pending fault, which names the instruction that consumed. -/
def PendFault.spec (f : PendFault) : TrapSpec :=
  { cause := f.cause, addr := f.addr, kind := f.kind, space := f.space, precise := false, pc := some f.pc, detail := f.detail }

/-- The oldest of some faults in program order. -/
def oldestFault : List PendFault → Option PendFault
  | [] => none
  | x :: t =>
    match oldestFault t with
    | none => some x
    | some y => if x.ord ≤ y.ord then some x else some y

/-- One fault taken out. -/
def dropFault (f : PendFault) : List PendFault → List PendFault
  | [] => []
  | x :: t => if x == f then t else x :: dropFault f t

/-- The oldest pending fault of the stream that `sel` picks is raised, which clears it; with none the body runs. -/
def State.raisePending (s : State) (sel : PendFault → Bool) (body : State → Res) : Res :=
  match oldestFault (s.str.faults.filter sel) with
  | some f => .trap (s.setStr { s.str with faults := dropFault f s.str.faults }) f.spec
  | none => body s

end Sys2Proof.Machine
end

