-- ==== Sys2Proof/Machine/MemOps.lean ====
section
/-! DEFINITION. The memory access instructions (R275 to R308) and the arrival of a queue load's data (R291). -/
namespace Sys2Proof.Machine

/-! Loads and stores (R301). -/

/-- Where a load or store goes. -/
inductive Path where
  /-- a scratchpad, and the code of its space in records -/
  | pad (t : CoreId) (space : Nat)
  | g | k
  | h (cached : Bool)
  | p (n : Nat)
  deriving DecidableEq, Repr

def Path.space : Path → Nat
  | .pad _ n => n | .g => 2 | .k => 3 | .h _ => 4 | .p _ => 5

/-- Bytes of some ranges by a path. -/
def State.loadPath (s : State) (path : Path) (pz : Bool) (rs : List (Int × Nat)) : Accessed :=
  let c := s.ctx.core
  let i := s.ctx.strm
  match path with
  | .pad t n => s.loadPad c i t n (joinRanges rs)
  | .g => s.loadRanges c i pz (joinRanges rs)
  | .k => s.loadK c i pz rs
  | .h cached => s.loadHost c i cached (joinRanges rs)
  | .p n => s.loadPeer n (joinRanges rs)

/-- Bytes stored over some ranges by a path. -/
def State.storePath (s : State) (path : Path) (rs : List (Int × Nat)) (bs : List Byte) : Accessed :=
  let c := s.ctx.core
  match path with
  | .pad t n => s.storePad c t n (joinRanges rs) bs
  | .g => s.storeRanges c s.ctx.strm (joinRanges rs) bs
  | .k => .ok s []
  | .h _ => s.storeHost c s.ctx.strm (joinRanges rs) bs
  | .p n => s.storePeer c s.ctx.strm n (joinRanges rs) bs

/-- A result delivered to s[D] or v[D]: with the latency of an LDL or LDC, or at its arrival, not sooner than 6 slots after the
load's issue (R280). -/
def State.deliverS (s : State) (lat : Option Nat) (d : BitVec 5) (v : Word) : State :=
  match lat with
  | some n => s.putS n d v
  | none => s.arrive 6 (.s d) (BitVec.allOnes 2048) (v.setWidth 2048) 0
def State.deliverV (s : State) (lat : Option Nat) (d : BitVec 5) (mask v : VWord) : State :=
  match lat with
  | some n => s.putV n d mask v 0
  | none => s.arrive 6 (.v d) mask v 0

/-- How an access ends the instruction. -/
def Accessed.res (x : Accessed) (go : State → List Byte → Res) : Res :=
  match x with
  | .ok s1 bs => go s1 bs
  | .trap s1 t => .trap s1 t
  | .hold s1 => .stay s1

/-- The bytes an access touches: the enabled elements of a vector shape, or its one element. -/
def State.touched (s : State) (f : M) (ea : Int) : List Nat × List (Int × Nat) :=
  let es := if f.vec then enabledElems s.lanes f.eb f.count else [0]
  (es, es.map fun e => (ea + (e * f.eb : Nat), f.eb))

/-- A load (R301). -/
def State.load (f : M) (path : Path) (ea : Int) (pz : Bool) (lat : Option Nat) (s : State) : Res :=
  let (es, rs) := s.touched f ea
  if ea % f.align ≠ 0 then .trap s (spaceFault cALIGN .load path.space ea)
  else (s.loadPath path pz rs).res fun s1 bs =>
    if f.vec then
      let r := placeElems f.eb es bs
      .done (s1.deliverV lat f.d r.2 r.1)
    else .done (s1.deliverS lat f.d (extendLoad f.ty.toNat bs))

/-- The bytes that a store writes: those of the enabled elements of v[S], or the low bytes of s[S]. -/
def State.source (s : State) (f : M) (es : List Nat) : List Byte :=
  if f.vec then takeElems (s.getV f.d) f.eb es else leBytes (s.getS f.d).toNat f.eb

/-- A store (R301). -/
def State.store (f : M) (path : Path) (ea : Int) (s : State) : Res :=
  let (es, rs) := s.touched f ea
  if ea % f.align ≠ 0 then .trap s (spaceFault cALIGN .store path.space ea)
  else (s.storePath path rs (s.source f es)).res fun s1 _ => .done s1

/-- A memory instruction under its guard: of a vector shape a lane mask, of which none true leaves no effect (R34, R278). -/
def State.issueM (s : State) (f : M) (body : State → Res) : Out :=
  if f.vec then s.always fun s => if s.lanes = 0 then .done s else body s
  else s.issue body

/-- The core position that space C names (R281), and the base of its address (R275). -/
def State.cTarget (s : State) (f : M) : CoreId × Nat :=
  let a := (s.getS f.a).toNat
  let byReg := f.mod.getLsbD 3
  let k := if byReg then a / 2 ^ 48 % 8 else f.mod.toNat % 8
  (⟨(8 * clusterOf s.ctx.core + k) % 136, by omega⟩, if byReg then a % 2 ^ 48 else a)

/-- LDL (R301). -/
def execLdl (f : M) (s : State) : Out :=
  s.issueM f fun s => s.load f (.pad s.ctx.core 0) (s.ea f) false (some 6)
/-- STL (R301). -/
def execStl (f : M) (s : State) : Out :=
  s.issueM f fun s => s.store f (.pad s.ctx.core 0) (s.ea f)
/-- LDC (R301). -/
def execLdc (f : M) (s : State) : Out :=
  s.issueM f fun s => s.load f (.pad (s.cTarget f).1 1) (s.eaFrom f (s.cTarget f).2) false (some 24)
/-- STC (R301). -/
def execStc (f : M) (s : State) : Out :=
  s.issueM f fun s => s.store f (.pad (s.cTarget f).1 1) (s.eaFrom f (s.cTarget f).2)
/-- LDG (R301). -/
def execLdg (f : M) (s : State) : Out :=
  s.issueM f fun s => s.load f .g (s.ea f) (f.mod.getLsbD 0) none
/-- STG (R301). -/
def execStg (f : M) (s : State) : Out :=
  s.issueM f fun s => s.store f .g (s.ea f)
/-- LDK (R301, R313). -/
def execLdk (f : M) (s : State) : Out :=
  s.issueM f fun s => s.load f .k (s.ea f) (f.mod.getLsbD 0) none
/-- LDH (R301, R297). -/
def execLdh (f : M) (s : State) : Out :=
  s.issueM f fun s => s.load f (.h (f.mod.getLsbD 2)) (s.ea f) false none
/-- STH (R301, R297). -/
def execSth (f : M) (s : State) : Out :=
  s.issueM f fun s => s.store f (.h false) (s.ea f)
/-- LDP (R301, R298). -/
def execLdp (f : M) (s : State) : Out :=
  s.issueM f fun s => s.load f (.p f.mod.toNat) (s.ea f) false none
/-- STP (R301, R298). -/
def execStp (f : M) (s : State) : Out :=
  s.issueM f fun s => s.store f (.p f.mod.toNat) (s.ea f)

/-- The first member of a multicast whose range fails (R302). -/
def State.mstcBad (s : State) (members : List Nat) (rs : List (Int × Nat)) : Option (Nat × Int) :=
  members.findSome? fun k =>
    let t : CoreId := ⟨(8 * clusterOf s.ctx.core + k) % 136, by omega⟩
    (rs.find? fun r => !s.padOk s.ctx.core t r.1 r.2).map fun r => (k, r.1)

/-- MSTC (R302). -/
def execMstc (f : M) (s : State) : Out :=
  s.issueM f fun s =>
    let ea : Int := (s.getS f.a).toNat + f.off.toInt + s.ctx.incOff
    let (es, rs) := s.touched f ea
    let members := (List.range 8).filter fun k => (s.getS f.b).getLsbD k
    let core (k : Nat) : CoreId := ⟨(8 * clusterOf s.ctx.core + k) % 136, by omega⟩
    if members.isEmpty then .done s
    else if ea % f.align ≠ 0 then .trap s (spaceFault cALIGN .store 1 ea)
    else if members.any fun k => (s.core (core k)).padHeld rs then .stay s
    else match s.mstcBad members (joinRanges rs) with
      | some (k, a) => .trap s { spaceFault cSPRANGE .store 1 a with detail := [BitVec.ofNat 64 k] }
      | none =>
        let bs := s.source f es
        .done (members.foldl (fun s k => s.setCore (core k) ((s.core (core k)).padWriteAll (joinRanges rs) bs)) s)

/-! Queue destinations (R291, R303, R304). -/

/-- The room and the binding that a queue destination needs (R291, R343). -/
def State.queueRoom (s : State) (n : Nat) (go : State → Res) : Res :=
  let q := s.me.queueAt n
  if q.prod ≠ some s.ctx.strm then .trap s { cause := cILLSTREAM }
  else if queueDepth n ≤ q.entries.length then .wait s .queue (2 * n + 1) 0 0 true
  else go s

/-- The L1 lines that an LDGQ.lk locks, with the entry it fills (R292). -/
def State.lockLines (s : State) (n : Nat) (lines : List (Nat × Bool)) : State :=
  let k := s.me
  let e := (k.queueAt n).entries.length
  s.setMe { k with locked := k.locked ++ lines.map fun l => ⟨l.1, n, e, l.2⟩ }

/-- The entry that a queue load fills: its data arrives a free number of slots after its issue, six at least (R280)
(DESIGN CHOICE, log entry 8). -/
def State.reserve (s : State) (n : Nat) (v : VWord) : State :=
  let q := s.me.queueAt n
  (s.setMe (s.me.setQueue n { q with
    entries := q.entries ++ [⟨v, false, s.clock + 6 + Config.freeDelay s.draws % latencyBound⟩] })).drawn

/-- The value of a queue entry (R278). -/
def entryValue (f : M) (bs : List Byte) : VWord :=
  if f.ty == 14 then BitVec.ofNat 2048 (leNat bs) else (extendLoad f.ty.toNat bs).setWidth 2048

end Sys2Proof.Machine

namespace Sys2Proof

/-- Bytes of a queue load. -/
def M.qbytes (f : M) : Nat := if f.ty == 14 then 256 else elemBytes f.ty.toNat

end Sys2Proof

namespace Sys2Proof.Machine

/-- Does the L1 that a line of a core's accesses goes to have a granule (R283)? A fused cluster's L1s hold each line by its address. -/
def State.l1Has (s : State) (c : CoreId) (line : Nat) : Bool :=
  let fused := (s.die (dieOf c)).fused.getLsbD (clusterOf c % 8)
  let t : CoreId := if fused then ⟨(8 * clusterOf c + line / 64 % 8) % 136, by omega⟩ else c
  decide ((s.core t).split < 6)

/-- The physical lines under an access that has passed its checks, each with whether an L1 can hold it (R283, R289). -/
def State.physLines (s : State) (ea : Int) (n : Nat) : List (Nat × Bool) :=
  match s.xlate s.walker s.me.asid.toNat (userOf s.ctx.core) .load ea n with
  | (_, .ok ps) => ps.flatMap fun p => (linesOf p.pa p.len).map fun l => (l, !pteNC p.leaf.pte && s.l1Has s.ctx.core l)
  | (_, .error _) => []

/-- LDGQ (R303): the load is checked before the AS waits on the limit of locked lines (R292). -/
def execLdgq (f : M) (s : State) : Out :=
  s.issue fun s =>
    let n := f.cnt.toNat
    let ea := s.ea f
    s.queueRoom n fun s =>
      if ea % f.align ≠ 0 then .trap s (spaceFault cALIGN .load 2 ea) else
      (s.loadG s.ctx.core s.ctx.strm (f.mod.getLsbD 0) ea f.qbytes).res fun s1 bs =>
        if !f.mod.getLsbD 1 then .done (s1.reserve n (entryValue f bs)) else
        let lines := s.physLines ea f.qbytes
        let held : List Nat := s.me.locked.map (·.line)
        if 512 < (held ++ lines.map (·.1)).eraseDups.length then .wait s .lklim 0 0 0 true
        else .done ((s1.lockLines n lines).reserve n (entryValue f bs))

/-- LDKQ (R303). -/
def execLdkq (f : M) (s : State) : Out :=
  s.issue fun s =>
    let n := f.cnt.toNat
    let ea := s.ea f
    s.queueRoom n fun s =>
      if ea % f.align ≠ 0 then .trap s (spaceFault cALIGN .load 3 ea) else
      let rs : List (Int × Nat) := if f.ty == 14 then (List.range 64).map fun e => (ea + (4 * e : Nat), 4) else [(ea, f.qbytes)]
      (s.loadK s.ctx.core s.ctx.strm (f.mod.getLsbD 0) rs).res fun s1 bs => .done (s1.reserve n (entryValue f bs))

/-- The rest of GATHQ once its index is popped: the entry is reserved, then the load; a fault returns the index to the head of its
queue. -/
def State.gathLoad (s : State) (f : M) (idx : Word) : Res :=
  let n := f.cnt.toNat
  let ea : Int := (s.getS f.a).toNat + (idx.toNat * 2 ^ f.sc.toNat : Nat) + f.off.toInt + s.ctx.incOff
  let back (s : State) (t : TrapSpec) : Res := .trap (s.setMe (s.me.unpop f.b.toNat (idx.setWidth 2048))) t
  if (s.me.queueAt n).prod ≠ some s.ctx.strm then back s { cause := cILLSTREAM }
  else if queueDepth n ≤ (s.me.queueAt n).entries.length then
    .wait s .queue (2 * n + 1) (idx.toNat + f.b.toNat * 2 ^ 64) 1 true
  else
    let s := s.setStr { s.str with wait := none }
    if ea % f.align ≠ 0 then back s (spaceFault cALIGN .load 2 ea) else
    match s.loadG s.ctx.core s.ctx.strm (f.mod.getLsbD 0) ea f.qbytes with
    | .ok s1 bs => .done (s1.reserve n (entryValue f bs))
    | .trap s1 t => back s1 t
    | .hold s1 => .stay s1

/-- GATHQ (R304): the index is popped at issue; it stands in the wait while the AS waits for room. -/
def execGathq (f : M) (s : State) : Out :=
  s.issue fun s =>
    let b := f.b.toNat
    match (s.standing .queue).filter fun w => w.stage == 1 with
    | some w => s.gathLoad f (BitVec.ofNat 64 w.phys)
    | none => s.takeHead b true fun s q v => (s.setMe ((s.me.setQueue b q).popLocks b)).gathLoad f (v.setWidth 64)

/-- QUEUE_LOAD_ARRIVAL: the data of an entry of queue `sub` of core `unit` arrives, in issue order (R291). -/
def execQueueLoadArrival (s : State) : Out :=
  if h : s.ctx.ev.unit < 136 then
    let c : CoreId := ⟨s.ctx.ev.unit, h⟩
    let n := s.ctx.ev.sub
    let k := s.core c
    let q := k.queueAt n
    let rec arrive : List QEntry → List QEntry
      | [] => []
      | e :: t => if e.arrived then e :: arrive t else if e.due ≤ s.clock then { e with arrived := true } :: t else e :: t
    .next (s.setCore c (k.setQueue n { q with entries := arrive q.entries }))
  else .fault .noSuchUnit

/-! Gather and scatter (R305). -/

/-- The enabled elements of a gather or scatter with their addresses. -/
def State.gathAddrs (s : State) (f : M) : List (Nat × Int) :=
  let n := min 64 (256 / f.eb)
  let ix := s.getV f.b
  ((List.range n).filter fun e => s.lanes.getLsbD e).map fun e =>
    (e, (s.getS f.a).toNat + (ix.extractLsb' (32 * e) 32).toInt * 2 ^ f.sc.toNat + f.off.toInt + s.ctx.incOff)

/-- Every check of every enabled element, in ascending order (R279, R305): the pieces, or the first failure. -/
def State.checkElems (acc : Acc) (eb : Nat) : List (Nat × Int) → State → State × Except TrapSpec (List Piece)
  | [], s => (s, .ok [])
  | x :: t, s =>
    if x.2 % eb ≠ 0 then (s, .error (spaceFault cALIGN acc 2 x.2)) else
    match s.xlate s.walker s.me.asid.toNat (userOf s.ctx.core) acc x.2 eb with
    | (s1, .error e) => (s1, .error (accFault acc 2 e))
    | (s1, .ok ps) =>
      match State.checkElems acc eb t s1 with
      | (s2, .error e) => (s2, .error e)
      | (s2, .ok qs) => (s2, .ok (ps ++ qs))

/-- VGATH (R305). -/
def execVgath (f : M) (s : State) : Out :=
  s.always fun s =>
    if s.lanes = 0 then .done s else
    let es := s.gathAddrs f
    match State.checkElems .load f.eb es s with
    | (s1, .error t) => .trap s1 t
    | (s1, .ok ps) =>
      let s2 := s1.mark s.walker .load ps
      match State.readSeen s.me.jobid ps s2 with
      | (s3, bs) =>
        match s3.consume s.ctx.core s.ctx.strm (f.mod.getLsbD 0) 2 s.str.pc (s2.badLines ps) with
        | (s4, some t) => .trap s4 t
        | (s4, none) =>
          let r := placeElems f.eb (es.map (·.1)) bs
          .done (s4.deliverV none f.d r.2 r.1)

/-- VSCAT (R305): the elements are stored in ascending order. -/
def execVscat (f : M) (s : State) : Out :=
  s.always fun s =>
    if s.lanes = 0 then .done s else
    let es := s.gathAddrs f
    match State.checkElems .store f.eb es s with
    | (s1, .error t) => .trap s1 t
    | (s1, .ok ps) =>
      .done (State.writePieces s.me.jobid (s1.mark s.walker .store ps) ps
        (takeElems (s.getV f.d) f.eb (es.map (·.1))))

/-! Prefetch and maintenance. -/

/-- PFG (R306): no architectural effect but a translation (R287, R288), which marks nothing and raises nothing. -/
def execPfg (f : M) (s : State) : Out :=
  s.issue fun s => .done (s.xlate s.walker s.me.asid.toNat (userOf s.ctx.core) .load (s.ea f) 1).1

/-- The range of a maintenance instruction (R307): from the line of its address. -/
def State.lineRange (s : State) (f : M) : Int × Nat :=
  let ea : Int := (s.getS f.a).toNat + f.off.toInt + s.ctx.incOff
  (ea, (s.getS f.b).toNat)

/-- The translated pieces of the range of a cache maintenance instruction; an empty range has none. -/
def State.maintPieces (s : State) (f : M) (go : State → List Piece → Res) : Res :=
  let r := s.lineRange f
  if r.2 = 0 then go s [] else
  match s.xlate s.walker s.me.asid.toNat (userOf s.ctx.core) .load r.1 r.2 with
  | (s1, .error e) => .trap s1 (accFault .load 2 e)
  | (s1, .ok ps) => go (s1.mark s.walker .load ps) ps

end Sys2Proof.Machine

namespace Sys2Proof

/-- `.all` (R307). -/
def M.all (f : M) : Bool := f.mod.getLsbD 0

end Sys2Proof

namespace Sys2Proof.Machine

/-- CINV: K loads of the core must see the order up to now in the range (R307, R313). -/
def execCinv (f : M) (s : State) : Out :=
  s.issue fun s =>
    let put (s : State) (rs : List (Nat × Nat × Nat)) : Res := .done (s.setMe { s.me with khor := rs ++ s.me.khor })
    if f.all then put s [(0, 2 ^ 48, s.gpos)]
    else s.maintPieces f fun s ps => put s (ps.map fun p => (p.pa / 64 * 64, (p.pa + p.len + 63) / 64 * 64 - p.pa / 64 * 64, s.gpos))

/-- CFLSH: memory is always up to date here, so only the translation shows (R307). -/
def execCflsh (f : M) (s : State) : Out :=
  s.issue fun s => if f.all then .done s else s.maintPieces f fun s _ => .done s

/-- CLKR (R307, R292). -/
def execClkr (f : M) (s : State) : Out :=
  s.issue fun s =>
    if f.all then .done (s.setMe { s.me with locked := [] })
    else s.maintPieces f fun s ps =>
      let hit (l : Nat) : Bool := ps.any fun p => p.pa / 64 * 64 ≤ l && l < p.pa + p.len
      .done (s.setMe { s.me with locked := s.me.locked.filter fun x => !hit x.line })

/-- The lines of a range of H, or all of H under .all (R307): an empty range has no effect, one outside H raises PROT. -/
def State.hostRange (s : State) (f : M) (acc : Acc) (go : Int → Int → Res) : Res :=
  if f.all then go 0 ((2 : Int) ^ 48) else
  let r := s.lineRange f
  if r.2 = 0 then .done s
  else if outside r then .trap s (spaceFault cPROT acc 4 r.1)
  else go (r.1 / 64 * 64) ((r.1 + r.2 + 63) / 64 * 64)

/-- HFLSH (R307, R297): the stream's stores to the lines reach the host; a dropped one is raised here. -/
def execHflsh (f : M) (s : State) : Out :=
  s.issue fun s => s.hostRange f .store fun lo hi =>
    (s.flushHost s.ctx.core s.ctx.strm lo hi).raisePending
      (fun x => x.cause == cHOSTERR && decide (lo ≤ (x.addr.toNat : Int)) && decide ((x.addr.toNat : Int) < hi)) .done

/-- HINV (R307): .c copies in the range are discarded. -/
def execHinv (f : M) (s : State) : Out :=
  s.issue fun s => s.hostRange f .load fun lo hi =>
    .done (s.setMe { s.me with hostCopies := s.me.hostCopies.filter fun x => !(decide (lo ≤ (x.1 : Int)) && decide ((x.1 : Int) < hi)) })

/-! The split (R299, R308). -/

/-- The split changed from n to m: granules that change role read as zero from then on (DEDUCED, log entry 50). -/
def Core.newSplit (k : Core) (m : Nat) : Core :=
  let lo := min m k.split * 2 ^ 18
  { k with
    split := m, spcfg := none
    spad := k.spad.clear lo (6 * 2 ^ 18 - lo)
    spadPoison := k.spadPoison.filter fun l => l < lo }

/-- Does a copy under way read the scratchpad between two addresses (R299)? -/
def Core.padCopies (k : Core) (lo hi : Nat) : Bool :=
  k.copies.any fun x =>
    let n := (x.dst.map (·.2)).sum
    x.pad && decide (0 < n) && decide (x.va < hi) && decide (lo < x.va + n)

/-- Does a send that has executed still have to read the scratchpad between two addresses (R299)? -/
def State.padSends (s : State) (c : CoreId) (lo hi : Nat) : Bool :=
  s.sends.any fun x => x.core == c && x.pad && x.image.isNone && decide (x.sent < x.len) && decide (x.src + x.sent < hi) &&
    decide (lo < x.src + x.len)

/-- Are lines locked that a core's L1 holds (R283, R292)? A fused cluster's L1s hold each line by its address, whoever locked it. -/
def State.l1Locked (s : State) (c : CoreId) : Bool :=
  if (s.die (dieOf c)).fused.getLsbD (clusterOf c % 8) then
    (List.range 8).any fun p =>
      (s.core ⟨(8 * clusterOf c + p) % 136, by omega⟩).locked.any fun l => l.held && l.line / 64 % 8 == posOf c
  else (s.core c).locked.any (·.held)

/-- SPCFG (R308): it waits for the copies and sends that read the granules, and for the locks that no granule could keep
(DEDUCED, log entry 50). -/
def execSpcfg (f : M) (s : State) : Out :=
  s.issue fun s =>
    let m := (s.getS f.a).toNat
    let k := s.me
    let lo := min m k.split * 2 ^ 18
    let hi := max m k.split * 2 ^ 18
    if 6 < m ∨ m * 2 ^ 18 < k.frame then .trap s { cause := cILLFIELD, addr := s.getS f.a }
    else if m ≠ k.split && (k.padCopies lo hi || s.padSends s.ctx.core lo hi || (m = 6 && s.l1Locked s.ctx.core)) then
      .wait (s.setMe { k with spcfg := some m }) .spcfg 0 0 0 true
    else .done ((s.setMe (k.newSplit m)).arriveS f.d (BitVec.ofNat 64 k.split))

end Sys2Proof.Machine
end

