-- ==== Sys2Proof/Machine/Async.lean ====
section
/-! DEFINITION. Publish pairs and copy engines (R316, R327 to R331), and the fences (R323 to R326). -/
namespace Sys2Proof.Machine

/-! Pairs. -/

/-- The pair of an ASID and number, if it is allocated. -/
def State.pair (s : State) (asid : BitVec 13) (n : Nat) : Option Pair := s.pairs.find? fun p => p.asid == asid && p.n == n
def State.setPair (s : State) (p : Pair) : State :=
  { s with pairs := s.pairs.map fun x => if x.asid == p.asid && x.n == p.n then p else x }

/-- XSHD, allocate (R329). -/
def execXshdAlloc (f : E) (s : State) : Out :=
  s.issue fun s =>
    let c := s.ctx.core
    let r (k : Nat) : Nat := (s.getS (regPlus f.a k)).toNat
    let align (v : Nat) : Res := .trap s (spaceFault cALIGN .atomic 2 v)
    if r 0 % 64 ≠ 0 then align (r 0)
    else if r 1 % 64 ≠ 0 then align (r 1)
    else if r 2 % 64 ≠ 0 then align (r 2)
    else if r 3 % 8 ≠ 0 then align (r 3)
    else match s.xlateAll c s.ctx.strm .atomic [((r 0 : Nat), r 2), ((r 1 : Nat), r 2), ((r 3 : Nat), 8)] with
      | (s1, .error e) => .trap s1 (accFault .atomic 2 e)
      | (s1, .ok ps) =>
        let asid := s.me.asid
        match (List.range 1024).find? fun n => (s1.pair asid n).isNone with
        | none => .done (s1.arriveS f.d (BitVec.allOnes 64))
        | some n =>
          let sel := ps.drop (ps.length - 1)
          let s2 := { s1 with pairs := ⟨asid, n, r 0, r 1, r 2, r 3, none⟩ :: s1.pairs }
          let s3 := State.writePieces s.me.jobid (s2.mark s.walker .store sel) sel (List.replicate 8 0)
          .done (s3.arriveS f.d (BitVec.ofNat 64 n))

/-- The pair that a command of the copy engine names. -/
def pairOf (x : Cmd) : Option Nat :=
  match x.code.instr with
  | .xcopy f | .xfill f | .xpub f => some (f.of 0 10)
  | _ => none

/-- Is a command or an accepted copy of the ASID, of a saved job too, outstanding on a pair? (DEDUCED, log entry 42). -/
def State.pairBusy (s : State) (asid : BitVec 13) (n : Nat) : Bool :=
  let on (k : Core) : Bool :=
    k.asid == asid && (k.copyQ.any (fun (x : Cmd) => pairOf x == some n) || k.copies.any fun (x : Copy) => x.pair == n)
  s.cores.toList.any on || s.saved.any fun (x : Saved) => on x.core

/-- XSHD, free (R329) (DEDUCED, log entry 42). -/
def execXshdFree (f : E) (s : State) : Out :=
  s.issue fun s =>
    let n := (s.getS f.a).toNat
    match s.pair s.me.asid n with
    | none => .trap s { cause := cPROT }
    | some _ =>
      if s.pairBusy s.me.asid n then Res.open s 0
      else .done { s with pairs := s.pairs.filter fun p => !(p.asid == s.me.asid && p.n == n) }

/-! The selector. -/

/-- The pieces of a pair's selector word and its value, for an access of a copy command. -/
def State.selector (s : State) (p : Pair) (acc : Acc) : State × Except TrapSpec (List Piece × Word) :=
  let c := s.ctx.core
  match s.xlate (.strm c .as) p.asid.toNat (userOf c) acc p.sel 8 with
  | (s1, .error e) => (s1, .error (accFault acc 2 e))
  | (s1, .ok ps) =>
    match s1.poisonTrap c .as acc 2 (s1.accPc c .as) (s1.badLines ps) with
    | (s2, some t) => (s2, .error t)
    | (s2, none) => (s2, .ok (ps, BitVec.ofNat 64 (leNat (s2.readPieces ps))))

/-! Copies under way (R330). -/

/-- The physical address of byte `i` of some pieces. -/
def pieceAt : List (Nat × Nat) → Nat → Nat
  | [], _ => 0
  | (a, n) :: t, i => if i < n then a + i else pieceAt t (i - n)

/-- Word `w` of a copy's source, and the poisoned line in which it stands, as the log names it; that word reads as zero. -/
def State.copySource (s : State) (c : CoreId) (x : Copy) (w : Nat) : State × List Byte × Option (Word × Word) :=
  match x.fill with
  | some v => (s, leBytes v.toNat 8, none)
  | none =>
    let va := x.va + 8 * w
    let l := va / 64 * 64
    if x.pad then
      let k := s.core c
      if k.spadPoison.contains l then (s, List.replicate 8 0, some (BitVec.ofNat 64 l, BitVec.ofNat 64 (coreid c)))
      else (s, k.spad.readN va 8, none)
    else
      let pa := pieceAt x.src (8 * w)
      let pl := pa / 64 * 64
      if s.poison.contains pl then (s, List.replicate 8 0, some (BitVec.ofNat 64 l, BitVec.ofNat 64 pl))
      else match s.seen (s.core c).jobid pa (s.mem.readN pa 8) with
        | (s1, bs) => (s1, bs, none)

/-- Is a word one that a job's copies have written into a pair's shadow? -/
def Unpub.of (asid : BitVec 13) (pair : Nat) (job : Word) (u : Unpub) : Bool := u.asid == asid && u.pair == pair && u.job == job

/-- A word of a shadow written by a copy engine, in place of what an earlier copy has put there: it has no place in the order of
stores, and memory does not hold it, before its XPUB (R316). -/
def State.shadowWrite (s : State) (asid : BitVec 13) (pair : Nat) (job : Word) (pa : Nat) (bs : List Byte) : State :=
  let here (u : Unpub) : Bool := u.of asid pair job && u.pa == pa
  { s with unpub := ⟨asid, pair, pa, bs, job, s.unpub.any fun u => here u && u.sure⟩ :: s.unpub.filter fun u => !here u }

/-- The job's own loads return the words of a copy that has completed (R316). -/
def State.copySure (s : State) (asid : BitVec 13) (job : Word) (x : Copy) : State :=
  let covers (u : Unpub) : Bool := x.dst.any fun q => decide (q.1 ≤ u.pa) && decide (u.pa < q.1 + q.2)
  { s with unpub := s.unpub.map fun u => if u.of asid x.pair job && covers u then { u with sure := true } else u }

/-- Some words of a copy are done, in the order given. -/
def State.copyWords (c : CoreId) : List Nat → State → Copy → State × Copy
  | [], s, x => (s, x)
  | w :: t, s, x =>
    match s.copySource c x w with
    | (s1, bs, bad) =>
      let k := s1.core c
      let s2 := s1.shadowWrite k.asid x.pair k.jobid (pieceAt x.dst (8 * w)) bs
      let bads := match bad with
        | some b => if x.bad.contains b then x.bad else x.bad ++ [b]
        | none => x.bad
      State.copyWords c t s2 { x with left := x.left.filter (· != w), bad := bads }

/-- A copy completes: poisoned lines are logged, MEM_UE is left pending for the AS and the pair is poisoned; a clean copy over
the whole shadow heals it. Then the signal field acts (R330, R331). -/
def State.endCopy (s : State) (c : CoreId) (x : Copy) : State :=
  let k0 := s.core c
  let s := s.copySure k0.asid k0.jobid x
  let k := { k0 with copies := k0.copies.filter fun y => y.ord != x.ord }
  let space := if x.pad then 0 else 2
  let entry (b : Word × Word) : Vector Word 4 := poisonEntry false true .as space b.1 b.2 x.pc
  let s1 :=
    match x.bad with
    | [] =>
      let s1 := s.setCore c k
      if !x.whole then s1 else
      match s1.pair k.asid x.pair with
      | some p => s1.setPair { p with poisoned := none }
      | none => s1
    | b :: _ =>
      let s0 := (s.setCore c k).logPoison c (x.bad.map entry)
      let k1 := s0.core c
      let f : PendFault := ⟨cMEMUE, x.pc, b.1, 0, space, (entry b).toList, x.slot⟩
      let s1 := s0.setCore c (k1.setStrm .as { k1.strm .as with faults := (k1.strm .as).faults ++ [f] })
      match s1.pair k.asid x.pair with
      | some p => s1.setPair { p with poisoned := some (entry b) }
      | none => s1
  match x.sem with
  | some n => s1.setCore c ((s1.core c).signal n.toNat 1)
  | none => s1

/-- COPY_COMPLETION: the accepted copy `val` of core `unit` writes the words it has left and completes (R330). -/
def execCopyCompletion (s : State) : Out :=
  if h : s.ctx.ev.unit < 136 then
    let c : CoreId := ⟨s.ctx.ev.unit, h⟩
    match (s.core c).copies.find? fun x => x.ord == s.ctx.ev.val with
    | none => .next s
    | some x =>
      match State.copyWords c x.left s x with
      | (s1, x1) => .next (s1.endCopy c x1)
  else .fault .noSuchUnit

/-- One slot of the copies of a core: each completes in it, or writes some of its words, by free choices, and completes within a
bounded time (R74); the completions come as events (DEDUCED, log entry 11). -/
def State.copySlot (c : CoreId) : List Copy → State → State × List Event
  | [], s => (s, [])
  | x :: t, s =>
    if Config.freeAt s.draws 0 || x.since + latencyBound ≤ s.clock then
      match State.copySlot c t s.drawn with
      | (s1, es) => (s1, ⟨.copyCompletion, { EvArgs.zero with unit := c.val, val := x.ord }⟩ :: es)
    else
      match State.copyWords c (x.left.filter fun w => Config.freeAt s.draws (w + 1)) s.drawn x with
      | (s1, x1) =>
        let k := s1.core c
        State.copySlot c t (s1.setCore c { k with copies := k.copies.map fun y => if y.ord == x.ord then x1 else y })

/-- The copies of every core for a slot (DEDUCED, log entry 11). -/
def State.copiesSlot : List CoreId → State → State × List Event
  | [], s => (s, [])
  | c :: t, s =>
    match State.copySlot c (s.core c).copies s with
    | (s1, es) =>
      match State.copiesSlot t s1 with
      | (s2, es2) => (s2, es ++ es2)

/-! The commands (R330, R331). -/

/-- A range of scratchpad is not there (R275). -/
def State.padAway (s : State) (a n : Nat) : Bool := !s.padOk s.ctx.core s.ctx.core a n

/-- Acceptance of a copy by its engine (R330): the destination is known once the selector has been read. -/
def State.acceptCopy (s : State) (x : Cmd) (f : E) (fill : Option Word) (pad : Bool) : CmdRes :=
  let c := s.ctx.core
  let k := s.me
  let off := x.sd.toNat
  let n := x.sb.toNat
  let va := x.sa.toNat
  match s.pair k.asid (f.of 0 10) with
  | none => .trap s { cause := cPROT }
  | some p =>
    if off % 8 ≠ 0 ∨ n % 8 ≠ 0 then .trap s { cause := cALIGN, kind := 1, space := 2 }
    else if fill.isNone ∧ va % 8 ≠ 0 then .trap s (spaceFault cALIGN .load (if pad then 0 else 2) va)
    else if p.len < off + n then .trap s { cause := cPROT, kind := 1, space := 2 }
    else if pad ∧ k.padHeld [((va : Nat), n)] then .busy s
    else if pad ∧ s.padAway va n then .trap s (spaceFault cSPRANGE .load 0 va)
    else
      let w : Walker := .strm c .as
      let from_ : State × Except (Nat × Nat) (List Piece) :=
        if fill.isSome || pad then (s, .ok []) else s.xlate w k.asid.toNat (userOf c) .load va n
      match from_ with
      | (s1, .error e) => .trap s1 (accFault .load 2 e)
      | (s1, .ok src) =>
        match s1.selector p .load with
        | (s2, .error t) => .trap s2 t
        | (s2, .ok (sel, v)) =>
          let base := if v.getLsbD 0 then p.b0 else p.b1
          match s2.xlate w k.asid.toNat (userOf c) .store ((base + off : Nat)) n with
          | (s3, .error e) => .trap s3 (accFault .store 2 e)
          | (s3, .ok dst) =>
            let s4 := ((s3.mark w .load (sel ++ src)).mark w .store dst)
            let pairs (ps : List Piece) : List (Nat × Nat) := ps.map fun q => (q.pa, q.len)
            let y : Copy :=
              { pair := p.n, fill := fill, pad := pad, va := va, src := pairs src, dst := pairs dst, left := List.range (n / 8)
                bad := [], whole := off == 0 && n == p.len
                sem := if x.code.head.se then some x.code.head.ssem else none, pc := x.pc, slot := x.slot, ord := x.ord, since := s.clock }
            if n = 0 then .leave (s4.endCopy c y)
            else .leave (s4.setMe { s4.me with copies := s4.me.copies ++ [y] })

/-- XCOPY (R330). -/
def execXcopy (f : E) (s : State) : Out :=
  s.command .copy (.xcopy f) f (fun _ => []) fun s x => s.acceptCopy x f none (f.of 10 1 == 1)

/-- XFILL (R330). -/
def execXfill (f : E) (s : State) : Out :=
  s.command .copy (.xfill f) f (fun _ => []) fun s x => s.acceptCopy x f (some x.sa) false

/-- Every word that copies of a job have written into a pair's shadow is stored, at one place in the order of stores, which the
selector's change shares (R316, R331); a line of which all words are stored loses its poison (R294) (DEDUCED, log entry 11; DEDUCED,
log entry 42). -/
def State.publish (s : State) (asid : BitVec 13) (pair : Nat) (job : Word) : State :=
  let us := s.unpub.filter fun u => u.of asid pair job
  let whole (l : Nat) : Bool := (List.range 8).all fun j => us.any fun u => u.pa == l + 8 * j
  { s with
    mem := us.foldl (fun m u => m.writeN u.pa u.new) s.mem
    poison := s.poison.filter fun l => !whole l
    glog := us.map (fun u => ⟨s.gpos, u.pa, s.mem.readN u.pa 8, job⟩) ++ s.glog
    unpub := us.foldl (fun l u => l.map (Unpub.stored u.pa 8)) (s.unpub.filter fun u => !u.of asid pair job) }

/-- XPUB (R331). -/
def execXpub (f : E) (s : State) : Out :=
  s.command .copy (.xpub f) f (fun _ => []) fun s _ =>
    let k := s.me
    let n := f.of 0 10
    if k.copies.any fun x => x.pair == n then .busy s else
    match s.pair k.asid n with
    | none => .trap s { cause := cPROT }
    | some p =>
      match p.poisoned with
      | some e => .trap s { cause := cMEMUE, addr := e[1], space := (e[0].extractLsb' 16 3).toNat, detail := e.toList }
      | none =>
        match s.selector p .atomic with
        | (s1, .error t) => .trap s1 t
        | (s1, .ok (ps, v)) =>
          let s2 := (s1.mark (.strm s.ctx.core .as) .atomic ps).publish k.asid n k.jobid
          .done (State.writePieces k.jobid s2 ps (leBytes (v + 1).toNat 8))

/-! Fences (R323 to R326): every access of the stream itself is performed in the step that makes it but its host stores, which
the buffer delivers. -/

/-- FENCE of a scope (R324) (DEDUCED, log entry 23). -/
def State.fence (s : State) (scope : Nat) : Out := s.issue fun s => s.fenced scope .done

/-- FENCE, stream scope (R324). -/
def execFenceStream (s : State) : Out := s.fence 0
/-- FENCE, job scope (R324). -/
def execFenceJob (s : State) : Out := s.fence 1
/-- FENCE, cluster scope (R324). -/
def execFenceCluster (s : State) : Out := s.fence 2
/-- FENCE, device scope (R324). -/
def execFenceDevice (s : State) : Out := s.fence 3
/-- FENCE, system scope (R324) (DEDUCED, log entry 23). -/
def execFenceSystem (s : State) : Out := s.fence 4

/-- EFENCE (R325): a fence of system scope; then the copies of the AS have passed their ECC checks; then the oldest pending error of
the stream (DEDUCED, log entry 23). -/
def execEfence (s : State) : Out :=
  s.issue fun s => s.fenced 4 fun s =>
    if s.ctx.strm == .as && !(s.me.copyQ.isEmpty && s.me.copies.isEmpty) then .drain s
    else s.raisePending (fun _ => true) .done

/-- KSYNC (R326): the K horizon of the stream moves to its own place in the order. -/
def execKsync (s : State) : Out :=
  s.issue fun s => .done (s.setStr { s.str with horizon := s.gpos, kseen := [] })

end Sys2Proof.Machine
end

