-- ==== Sys2Proof/Machine/Atomics.lean ====
section
/-! DEFINITION. The atomic instructions in spaces G, C, H and P (R320 to R322). -/
namespace Sys2Proof.Machine

/-! Operations on codes of an element (R320). -/

/-- The float format of an atomic's type, .f32 or .f64. -/
def atomFmt (ty : Nat) : Fmt := if ty = 10 then f64 else f32

/-- Wrapping sum. -/
def atomAdd (w old v : Nat) : Nat := (old + v) % 2 ^ w
/-- Rounded sum, without flags. -/
def atomFadd (ty old v : Nat) : Nat :=
  (fAdd (atomFmt ty) .rne 0 ((atomFmt ty).read old) ((atomFmt ty).read v)).1
/-- Order of .u32 as unsigned, of .i32 and .d as signed. -/
def atomLess (ty w a b : Nat) : Bool :=
  if ty = 4 then decide (a < b) else decide (signedOf w a < signedOf w b)
def atomMin (ty w old v : Nat) : Nat := if atomLess ty w v old then v else old
def atomMax (ty w old v : Nat) : Nat := if atomLess ty w old v then v else old
/-- ARED: as AADD for integers, as AFADD for floats. -/
def atomRed (ty w old v : Nat) : Nat := if ty = 9 ∨ ty = 10 then atomFadd ty old v else atomAdd w old v

/-! Elements (R321): of each its address, and `upd`, which gives the new value from the old one, none where nothing is written. -/

/-- An element of an atomic. -/
structure AtomElem where
  ea : Int
  upd : Nat → Option Nat

/-- Where an element's checks have found it. -/
inductive AtomAt where
  | g (ps : List Piece)
  | c (t : CoreId)
  | h

/-- The checks of one element in G, a scratchpad or host memory, in their order (R321). -/
def State.atomReach (s : State) (sp : Nat) (t : CoreId) (ea : Int) (eb : Nat) : State × Except TrapSpec AtomAt :=
  match sp with
  | 0 =>
    match s.atomCheck s.ctx.core s.ctx.strm ea eb with
    | (s1, .error x) => (s1, .error x)
    | (s1, .ok ps) => (s1, .ok (.g ps))
  | 1 =>
    if ea % eb ≠ 0 then (s, .error (spaceFault cALIGN .atomic 1 ea))
    else if !s.padOk s.ctx.core t ea eb then (s, .error (spaceFault cSPRANGE .atomic 1 ea))
    else
      match s.poisonTrap s.ctx.core s.ctx.strm .atomic 1 s.str.pc ((s.core t).padBad t ea.toNat eb) with
      | (s1, some x) => (s1, .error x)
      | (s1, none) => (s1, .ok (.c t))
  | _ =>
    if ea % eb ≠ 0 then (s, .error (spaceFault cALIGN .atomic 4 ea))
    else if outside (ea, eb) then (s, .error (spaceFault cPROT .atomic 4 ea))
    else if s.inWindow ea.toNat eb || s.hostErr.contains (ea.toNat / 64 * 64) then
      (s, .error (spaceFault cHOSTERR .atomic 4 ea))
    else (s, .ok .h)

/-- The checks of all elements, in ascending order (R322). -/
def State.atomChecks (sp : Nat) (t : CoreId) (eb : Nat) : List AtomElem → State → State × Except TrapSpec (List AtomAt)
  | [], s => (s, .ok [])
  | x :: r, s =>
    match s.atomReach sp t x.ea eb with
    | (s1, .error e) => (s1, .error e)
    | (s1, .ok a) =>
      match State.atomChecks sp t eb r s1 with
      | (s2, .error e) => (s2, .error e)
      | (s2, .ok l) => (s2, .ok (a :: l))

/-- One element performed at its place of serialisation, with the bytes it held: in G at the home slice; in a scratchpad; in host
memory as one transaction at the host controller, before which the stream's buffered stores to the line go out (R314). -/
def State.atomDo (s : State) (eb : Nat) (x : AtomElem) : AtomAt → State × List Byte
  | .g ps =>
    let old := s.readPieces ps
    match x.upd (leNat old) with
    | none => (s.mark s.walker .load ps, old)
    | some v => (State.writePieces s.me.jobid (s.mark s.walker .atomic ps) ps (leBytes v eb), old)
  | .c t =>
    let old := (s.core t).padRead x.ea.toNat eb
    match x.upd (leNat old) with
    | none => (s, old)
    | some v => (s.setCore t ((s.core t).padWrite x.ea.toNat (leBytes v eb)), old)
  | .h =>
    let c := s.ctx.core
    let l := x.ea.toNat / 64 * 64
    let s1 := (s.flushHost c s.ctx.strm l (l + 64)).envHost x.ea.toNat eb
    let old := s1.host.readN x.ea.toNat eb
    let k := s1.core c
    let s2 := s1.setCore c { k with hostCopies := k.hostCopies.filter fun y => y.1 != l }
    match x.upd (leNat old) with
    | none => (s2, old)
    | some v => ({ s2 with host := s2.host.writeN x.ea.toNat (leBytes v eb) }, old)

/-- All elements performed in ascending order, with the bytes they held. -/
def State.atomAll (eb : Nat) : List (AtomElem × AtomAt) → State → State × List Byte
  | [], s => (s, [])
  | x :: r, s =>
    let a := s.atomDo eb x.1 x.2
    let b := State.atomAll eb r a.1
    (b.1, a.2 ++ b.2)

/-- All elements at a peer's home slice (R315), with the bytes they held. -/
def State.atomPeer (p : Peer) (eb : Nat) : List AtomElem → State → State × List Byte
  | [], s => (s, [])
  | x :: r, s =>
    let s1 := s.envPeer p x.ea.toNat eb
    let m := s1.remote p
    let old := m.mem.readN x.ea.toNat eb
    let s2 := match x.upd (leNat old) with
      | none => s1
      | some v => s1.setRemote { m with mem := m.mem.writeN x.ea.toNat (leBytes v eb) }
    let b := State.atomPeer p eb r s2
    (b.1, old ++ b.2)

/-- The elements of an atomic in the space that FN names: every check of every element first (R321, R322), then the elements. -/
def State.atoms (s : State) (sp : BitVec 2) (f : M) (xs : List AtomElem) : Accessed :=
  let eb := elemBytes f.ty.toNat
  let t := (s.cTarget f).1
  if sp = 3 then
    s.peerAccess .atomic f.mod.toNat (xs.map fun x => ((x.ea, eb) : Int × Nat)) fun s p => State.atomPeer p eb xs s
  else if sp = 1 && (s.core t).padHeld (xs.map fun x => (x.ea, eb)) then .hold s
  else match State.atomChecks sp.toNat t eb xs s with
    | (s1, .error e) => .trap s1 e
    | (s1, .ok l) => let r := State.atomAll eb (xs.zip l) s1; .ok r.1 r.2

/-- The address of an atomic: B is no index (R320). -/
def State.atomEa (s : State) (sp : BitVec 2) (f : M) : Int :=
  let base := if sp = 1 then (s.cTarget f).2 else (s.getS f.a).toNat
  base + f.off.toInt + s.ctx.incOff

/-- An atomic of scalar shape with its operand and expected value: the old value goes to s[D] (R321). -/
def State.atomic (s : State) (sp : BitVec 2) (f : M) (op : Nat → Nat → Nat → Nat → Option Nat) : Out :=
  s.issue fun s =>
    let eb := elemBytes f.ty.toNat
    let v := (s.getS f.b).toNat % 2 ^ (8 * eb)
    let e := (s.getS f.d).toNat % 2 ^ (8 * eb)
    (s.atoms sp f [⟨s.atomEa sp f, fun old => op (8 * eb) old v e⟩]).res fun s1 old =>
      .done (s1.arriveS f.d (extendLoad f.ty.toNat old))

/-- AADD (R320). -/
def execAadd (sp : BitVec 2) (f : M) (s : State) : Out := s.atomic sp f fun w old v _ => some (atomAdd w old v)
/-- AFADD (R320). -/
def execAfadd (sp : BitVec 2) (f : M) (s : State) : Out := s.atomic sp f fun _ old v _ => some (atomFadd f.ty.toNat old v)
/-- AMIN (R320). -/
def execAmin (sp : BitVec 2) (f : M) (s : State) : Out := s.atomic sp f fun w old v _ => some (atomMin f.ty.toNat w old v)
/-- AMAX (R320). -/
def execAmax (sp : BitVec 2) (f : M) (s : State) : Out := s.atomic sp f fun w old v _ => some (atomMax f.ty.toNat w old v)
/-- AAND (R320). -/
def execAand (sp : BitVec 2) (f : M) (s : State) : Out := s.atomic sp f fun _ old v _ => some (old &&& v)
/-- AOR (R320). -/
def execAor (sp : BitVec 2) (f : M) (s : State) : Out := s.atomic sp f fun _ old v _ => some (old ||| v)
/-- AXOR (R320). -/
def execAxor (sp : BitVec 2) (f : M) (s : State) : Out := s.atomic sp f fun _ old v _ => some (old ^^^ v)
/-- AXCHG (R320). -/
def execAxchg (sp : BitVec 2) (f : M) (s : State) : Out := s.atomic sp f fun _ _ v _ => some v
/-- ACAS (R320): with a comparison that fails nothing is written. -/
def execAcas (sp : BitVec 2) (f : M) (s : State) : Out :=
  s.atomic sp f fun _ old v e => if old = e then some v else none

/-! ARED (R320, R322). -/

/-- ARED (R320, R322). -/
def execAred (sp : BitVec 2) (f : M) (s : State) : Out :=
  if f.cnt = 0 then
    s.issue fun s =>
      let w := 8 * elemBytes f.ty.toNat
      let v := (s.getS f.d).toNat % 2 ^ w
      (s.atoms sp f [⟨s.atomEa sp f, fun old => some (atomRed f.ty.toNat w old v)⟩]).res fun s1 _ => .done s1
  else
    s.issueM f fun s =>
      let ea := s.atomEa sp f
      let es := enabledElems s.lanes f.eb f.count
      let xs : List AtomElem := es.map fun e =>
        ⟨ea + (e * f.eb : Nat), fun old => some (atomRed f.ty.toNat (8 * f.eb) old (velem (s.getV f.d) (8 * f.eb) e))⟩
      (s.atoms sp f xs).res fun s1 _ => .done s1

end Sys2Proof.Machine
end

