-- ==== Sys2Proof/Machine/Collective.lean ====
section
/-! DEFINITION. The on-chip collectives (R371 to R391): tree descriptors, the handshake, epochs, time-outs, and the wait limit (R354),
which fails an epoch too. -/
namespace Sys2Proof.Machine

/-! Descriptors (R372, R373). -/

def descByte (d : List Byte) (i : Nat) : Nat := (d[i]?.getD 0).toNat
def descM (d : List Byte) : Nat := descByte d 0
def descTag (d : List Byte) : Nat := descByte d 1
def memCore (d : List Byte) (i : Nat) : Nat := descByte d (8 + 16 * i)
def memParent (d : List Byte) (i : Nat) : Nat := descByte d (9 + 16 * i)
def memKids (d : List Byte) (i : Nat) : List Nat :=
  (List.range (descByte d (10 + 16 * i))).map fun j => descByte d (12 + 16 * i + j)
/-- Does following PARENT lead to the root? -/
def leadsToRoot (d : List Byte) : Nat → Nat → Bool
  | 0, _ => false
  | n + 1, i => memParent d i == 0xFF || leadsToRoot d n (memParent d i)

/-- A valid descriptor for the die-local core that loads it. -/
def descOk (d : List Byte) (me : Nat) : Bool :=
  let m := descM d
  let all := List.range m
  decide (1 ≤ m) && decide (m ≤ 64) && ((List.range 6).all fun i => descByte d (2 + i) == 0) &&
  (all.all fun i => decide (memCore d i < 64) && descByte d (11 + 16 * i) == 0 && decide (descByte d (10 + 16 * i) ≤ 12) &&
    ((List.range 12).all fun j => decide (j < descByte d (10 + 16 * i)) || descByte d (12 + 16 * i + j) == 0)) &&
  decide ((all.map (memCore d)).Nodup) && (all.filter fun i => memCore d i == me).length == 1 &&
  (all.filter fun i => memParent d i == 0xFF).length == 1 &&
  (all.all fun i => memParent d i == 0xFF || decide (memParent d i < m)) &&
  (all.all fun k => all.all fun p => (memKids d p).count k == if memParent d k = p then 1 else 0) &&
  (all.all fun i => (memKids d i).all fun k => decide (k < m)) && (all.all fun i => leadsToRoot d (m + 1) i)

/-- The member index of a core. -/
def memberOf (d : List Byte) (c : CoreId) : Nat := ((List.range (descM d)).find? fun i => memCore d i == localOf c).getD 0
/-- The members' cores on a core's die, by member index. -/
def memberCores (d : List Byte) (c : CoreId) : List CoreId := (List.range (descM d)).map fun i => coreAt (dieOf c) (memCore d i)

/-! Slots. -/

def Core.treeAt (k : Core) (j : Nat) : Tree := k.trees.toList[j]?.getD Tree.reset
def Core.setTree (k : Core) (j : Nat) (t : Tree) : Core := { k with trees := k.trees.setIfInBounds j t }
/-- The loaded slot that holds a tag. -/
def Core.onTree (k : Core) (tag : Nat) : Option (Nat × Tree) :=
  ((List.range 4).find? fun j => (k.treeAt j).loaded && descTag (k.treeAt j).desc == tag).map fun j => (j, k.treeAt j)

/-- The collective on a slot ends: its epoch counts (R375, R382). -/
def State.countEpoch (s : State) (j : Nat) : State :=
  let t := s.me.treeAt j
  s.setMe (s.me.setTree j { t with epoch := t.epoch + 1 })

/-- The slot of an XRED or XBCAST and what its contribution says of itself: operation, type, broadcast flag, count, and the
kind (R381). -/
def redOf (x : Cmd) : Option (Nat × Nat) :=
  match x.code.instr with
  | .xred f => some (f.of 12 2, f.of 0 12)
  | .xbcast f => some (f.of 12 2, 4096 + f.of 0 6)
  | _ => none

/-- "Collective trap detail" (R381) (DEDUCED, log entry 19). -/
def collDetail (bitmap : Word) (slot tag member epoch : Nat) : List Word :=
  [bitmap, BitVec.ofNat 64 (slot % 4 + tag % 256 * 256 + member % 64 * 65536 + epoch % 2 ^ 32 * 2 ^ 32)]

/-! Epochs. -/

/-- The slot of a job that a load has filled. -/
def Core.loadSlot (k : Core) (load : Nat) : Option (Nat × Tree) :=
  ((List.range 4).find? fun j => (k.treeAt j).loaded && (k.treeAt j).load == load).map fun j => (j, k.treeAt j)

/-- The core of a member of a tree that a core's slot holds. -/
def Tree.coreOf (t : Tree) (c : CoreId) (i : Nat) : CoreId := coreAt (dieOf c) (memCore t.desc i)

/-- The slot of a member of a tree, whose job is on its core or saved. -/
def State.memberSlot (s : State) (c : CoreId) (t : Tree) (i : Nat) : Option Tree :=
  let k := s.core (t.coreOf c i)
  let saved := (s.saved.filterMap fun x => x.core.loadSlot t.load).find? fun r => r.2.member == i
  (((if k.active then k.loadSlot t.load else none).orElse fun _ => saved)).map (·.2)

/-- The command of an epoch of a tree that a member has brought to the head. -/
def State.brought (s : State) (c : CoreId) (t : Tree) (epoch i : Nat) : Option Cmd :=
  let k := s.core (t.coreOf c i)
  if !k.active then none else
  match k.loadSlot t.load, k.collQ with
  | some (j, u), x :: _ => if u.epoch == epoch && (redOf x).any fun r => r.1 == j then some x else none
  | _, _ => none

/-- Has a member left an epoch behind? -/
def State.pastEpoch (s : State) (c : CoreId) (t : Tree) (epoch i : Nat) : Bool :=
  (s.memberSlot c t i).any fun u => decide (epoch < u.epoch)

/-- A set of members as a bitmap. -/
def memberBits (l : List Nat) : Word := l.foldl (fun w i => w ||| (1 : Word) <<< i) 0

/-- The partial of a member for an epoch that stands in its parent's router. -/
def State.partialOf (s : State) (c : CoreId) (t : Tree) (epoch i : Nat) : Option Partial :=
  (s.die (dieOf c)).partials.find? fun x =>
    x.load == t.load && x.epoch == epoch && x.child == i && x.router == memParent t.desc i

/-- A member's contribution to an epoch has left it: it stands in its parent's router, the parent has combined it, or the parent's
own has left. -/
def State.given (s : State) (c : CoreId) (t : Tree) (epoch : Nat) : Nat → Nat → Bool
  | 0, _ => false
  | fuel + 1, i =>
    let p := memParent t.desc i
    p != 0xFF &&
    ((s.partialOf c t epoch i).isSome ||
     (s.brought c t epoch p).any (fun x => ((memKids t.desc p).take x.next).contains i) ||
     State.given s c t epoch fuel p)

/-- The members that have not brought their command of an epoch to the head (R380). -/
def State.missingMembers (s : State) (c : CoreId) (t : Tree) (epoch : Nat) : Word :=
  memberBits ((List.range (descM t.desc)).filter fun i =>
    (s.brought c t epoch i).isNone && !s.pastEpoch c t epoch i && !s.given c t epoch 64 i)

/-- What is known of a member's contribution to an epoch: of its command at the head once its checks have passed (R387), of its
partial in its parent's router, or, of a member that has completed, of a result that it has sent down. -/
def State.contribution (s : State) (c : CoreId) (t : Tree) (epoch i : Nat) : Option Nat :=
  match ((s.brought c t epoch i).filter fun x => x.stage != 0).bind redOf with
  | some r => some r.2
  | none =>
    match s.partialOf c t epoch i with
    | some p => some p.sig
    | none =>
      ((s.die (dieOf c)).downs.find? fun p =>
        p.load == t.load && p.epoch == epoch && (memKids t.desc i).contains p.member).map (·.sig)

/-- The members whose contribution to an epoch differs from their parent's (R381). -/
def State.differing (s : State) (c : CoreId) (t : Tree) (epoch : Nat) : Word :=
  memberBits ((List.range (descM t.desc)).filter fun i =>
    memParent t.desc i != 0xFF &&
    (match s.contribution c t epoch i, s.contribution c t epoch (memParent t.desc i) with
     | some a, some b => a != b
     | _, _ => false))

/-- What the routers of a die hold of a tree from an epoch on is dropped. -/
def Die.purgeTree (x : Die) (load epoch : Nat) : Die :=
  { x with
    partials := x.partials.filter fun p => !(p.load == load && decide (epoch ≤ p.epoch))
    downs := x.downs.filter fun p => !(p.load == load && decide (epoch ≤ p.epoch)) }

/-- A failure noted in the slot that holds a tree (R380). -/
def Core.noteFail (k : Core) (load : Nat) (f : Nat × Nat × Word) : Core :=
  match k.loadSlot load with
  | none => k
  | some (j, x) => k.setTree j { x with fails := f :: x.fails }

/-- An epoch fails at some members (R380): a command of the epoch at the head raises the cause, `own` at the core that it names. -/
def State.failMembers (c : CoreId) (t : Tree) (epoch cause : Nat) (bitmap : Word) (own : CoreId × Option TrapSpec) :
    List Nat → State → State
  | [], s => s
  | i :: l, s =>
    let m := t.coreOf c i
    let s1 :=
      match s.brought c t epoch i, (s.core m).loadSlot t.load with
      | some y, some (j, x) =>
        if y.trapped || y.failing then s else
        let usual : TrapSpec := { cause := cause, detail := collDetail bitmap j (descTag x.desc) x.member epoch }
        s.raiseCmd m .coll true (if own.1 == m then own.2.getD usual else usual)
      | _, _ => s
    State.failMembers c t epoch cause bitmap own l s1

/-- An epoch fails for the whole tree in one event (R380, R381): at every member, on its core or saved, the slot notes it. -/
def State.failEpoch (s : State) (c : CoreId) (t : Tree) (epoch cause : Nat) (bitmap : Word) (own : CoreId × Option TrapSpec) : State :=
  let note (k : Core) : Core := k.noteFail t.load (epoch, cause, bitmap)
  let s1 := { s with
    cores := s.cores.map fun (k : Core) => if k.active then note k else k
    saved := s.saved.map fun x => { x with core := note x.core } }
  let s2 := State.failMembers c t epoch cause bitmap own (List.range (descM t.desc)) s1
  s2.setDie (dieOf c) ((s2.die (dieOf c)).purgeTree t.load epoch)

/-! Operators (R377). -/

/-- One combine: the left operand is the accumulator. -/
def combineOne (op ty : Nat) (a b : BitVec 32) : BitVec 32 :=
  match op with
  | 0 => if ty = 0 then BitVec.ofNat 32 (accAdd f32 a.toNat (f32.read b.toNat)) else a + b
  | 1 =>
    if ty = 0 then BitVec.ofNat 32 (fMin f32 a.toNat b.toNat).1
    else if ty = 1 then (if b.slt a then b else a) else if b.ult a then b else a
  | 2 =>
    if ty = 0 then BitVec.ofNat 32 (fMax f32 a.toNat b.toNat).1
    else if ty = 1 then (if a.slt b then b else a) else if a.ult b then b else a
  | 3 => a &&& b
  | 4 => a ||| b
  | _ => a ^^^ b

/-- Words of four bytes. -/
def wordsOf : Nat → List Byte → List (BitVec 32)
  | 0, _ => []
  | n + 1, bs => BitVec.ofNat 32 (leNat (bs.take 4)) :: wordsOf n (bs.drop 4)
def bytesOf (l : List (BitVec 32)) : List Byte := l.flatMap fun w => leBytes w.toNat 4

/-- The partials of some children combined as far as they have arrived, in order: the state without them, the result, and the
children still to come. -/
def State.combine (c : CoreId) (t : Tree) (op ty : Nat) : List Nat → State → List (BitVec 32) → State × List (BitVec 32) × List Nat
  | [], s, acc => (s, acc, [])
  | k :: l, s, acc =>
    let x := s.die (dieOf c)
    let is (p : Partial) : Bool := p.load == t.load && p.router == t.member && p.child == k && p.epoch == t.epoch
    match x.partials.find? is with
    | none => (s, acc, k :: l)
    | some p =>
      State.combine c t op ty l (s.setDie (dieOf c) { x with partials := x.partials.filter fun q => !is q })
        ((acc.zip p.vals).map fun v => combineOne op ty v.1 v.2)

/-- A result sent on to the children of a member (R378). -/
def State.sendDown (s : State) (c : CoreId) (t : Tree) (sig : Nat) (vals : List (BitVec 32)) : State :=
  let x := s.die (dieOf c)
  let ds := (memKids t.desc t.member).map fun k => (⟨t.load, k, t.epoch, sig, vals⟩ : Down)
  s.setDie (dieOf c) { x with downs := x.downs ++ ds }

/-! The commands. -/

/-- A command that comes to the head starts its timer and latches XTLIM (R379, R380). -/
def State.startTimer (s : State) : State :=
  if !s.ctx.ev.flag then s else
  if h : s.ctx.ev.unit < 136 then
    let c : CoreId := ⟨s.ctx.ev.unit, h⟩
    let k := s.core c
    s.setCore c (k.mapHead .coll fun (x : Cmd) => if x.timer = 0 then { x with timer := 1, limit := k.xtlim.toNat } else x)
  else s

/-- A collective command. -/
def State.collCmd (s : State) (i : Instr) (f : E) (body : State → Cmd → CmdRes) : Out :=
  s.startTimer.command .coll i f (fun _ => []) body

/-- The head command's progress. -/
def State.progress (s : State) (stage : Nat) (acc : List (BitVec 32)) (next : Nat) : State :=
  s.setMe (s.me.mapHead .coll fun (x : Cmd) => { x with stage := stage, acc := acc, next := next })

/-- The checks of R387 on addresses of `n` bytes: alignment of all, then range of all; the kind of access of each
(DEDUCED, log entry 19). -/
def State.collChecks (s : State) (al : Nat) (as : List (Word × Nat × Nat)) : Option TrapSpec :=
  match as.find? fun a => a.1.toNat % al != 0 with
  | some a => some { cause := cALIGN, addr := a.1, kind := a.2.2, space := 0 }
  | none =>
    match as.find? fun a => !s.padOk s.ctx.core s.ctx.core a.1.toNat a.2.1 with
    | some a => some { cause := cSPRANGE, addr := a.1, kind := a.2.2, space := 0 }
    | none => none

/-- A destination written, and the command completed (DEDUCED, log entry 19); one that an SPCFG holds back (R299) is written later,
from the state `kept`. -/
def State.finishColl (s kept : State) (dst : Word) (j : Nat) (vals : List (BitVec 32)) (after : State → State) : CmdRes :=
  match s.storePad s.ctx.core s.ctx.core 0 [((dst.toNat : Int), 4 * vals.length)] (bytesOf vals) with
  | .ok s1 _ => .done (after (s1.countEpoch j))
  | .trap s1 t => .trap s1 t
  | .hold _ => .busy kept

/-- An XRED or XBCAST: what its slot's state says first (R382), else its own run. -/
def State.onEpoch (s : State) (x : Cmd) (j : Nat) (run : Tree → CmdRes) : CmdRes :=
  let t := s.me.treeAt j
  if x.failing then .done (if t.loaded then s.countEpoch j else s)
  else if !t.loaded then .fail s { cause := cILLFIELD }
  else match t.fails.find? fun f => f.1 == t.epoch with
    | some f => .fail s { cause := f.2.1, detail := collDetail f.2.2 j (descTag t.desc) t.member t.epoch }
    | none =>
      if t.fails.any fun f => decide (f.1 < t.epoch) then .done (s.countEpoch j)
      else run t

/-- The differing contributions of an epoch fail it (R381); otherwise the command goes on. -/
def State.agreeing (s : State) (t : Tree) (go : Unit → CmdRes) : CmdRes :=
  let c := s.ctx.core
  let bits := s.differing c t t.epoch
  if bits = 0 then go () else .busy (s.failEpoch c t t.epoch cILLFIELD bits (c, none))

/-- The wait of a collective command at the head (R383). -/
def collWait (s : State) : CmdRes := .wait s .opn 0 0 0 true

/-- A result that has come down to the executing member. -/
def State.takeDown (s : State) (t : Tree) : Option (Down × State) :=
  let c := s.ctx.core
  let x := s.die (dieOf c)
  let is (p : Down) : Bool := p.load == t.load && p.member == t.member && p.epoch == t.epoch
  (x.downs.find? is).map fun p => (p, s.setDie (dieOf c) { x with downs := x.downs.filter fun q => !is q })

/-- A member that waits for the result writes it and sends it on (R378). -/
def State.receiveDown (s : State) (x : Cmd) (t : Tree) (j sig : Nat) : CmdRes :=
  match s.takeDown t with
  | none => collWait s
  | some (p, s1) => s1.finishColl s x.sb j p.vals fun s2 => s2.sendDown s2.ctx.core t sig p.vals

/-- The combining part of an XRED (R376). -/
def State.reduce (s : State) (x : Cmd) (t : Tree) (j op ty sig : Nat) (bc : Bool) (acc : List (BitVec 32)) (next : Nat) : CmdRes :=
  let c := s.ctx.core
  let m := t.member
  match State.combine c t op ty ((memKids t.desc m).drop next) s acc with
  | (s1, acc1, left) =>
    let s2 := s1.progress 1 acc1 ((memKids t.desc m).length - left.length)
    if !left.isEmpty then collWait s2
    else if memParent t.desc m = 0xFF then
      s2.finishColl s2 x.sb j acc1 fun s3 => if bc then s3.sendDown c t sig acc1 else s3
    else
      let d := s2.die (dieOf c)
      let mine := d.partials.filter fun q => q.load == t.load && q.router == memParent t.desc m && q.child == m
      if 2 ≤ mine.length then collWait s2 else
      let s3 := s2.setDie (dieOf c) { d with partials := d.partials ++ [⟨t.load, memParent t.desc m, m, t.epoch, sig, acc1⟩] }
      if bc then collWait (s3.progress 2 acc1 0) else .done (s3.countEpoch j)

/-- XRED (R389). -/
def execXred (f : E) (s : State) : Out :=
  s.collCmd (.xred f) f fun s x =>
    let j := f.of 12 2
    let n := f.of 0 6 + 1
    let bc := f.of 6 1 == 1
    s.onEpoch x j fun t =>
      let root := memParent t.desc t.member == 0xFF
      if x.stage = 2 then s.receiveDown x t j (f.of 0 12)
      else if x.stage = 1 then
        s.agreeing t fun _ => s.reduce x t j (f.of 9 3) (f.of 7 2) (f.of 0 12) bc x.acc x.next
      else
        match s.collChecks 4 ((x.sa, 4 * n, 0) :: if root || bc then [(x.sb, 4 * n, 1)] else []) with
        | some e => .trap s e
        | none =>
          match s.loadPad s.ctx.core .xs s.ctx.core 0 [((x.sa.toNat : Int), 4 * n)] with
          | .trap s1 e => .trap s1 e
          | .hold _ => .busy s
          | .ok s1 bs =>
            let s2 := s1.progress 1 (wordsOf n bs) 0
            s2.agreeing t fun _ => s2.reduce x t j (f.of 9 3) (f.of 7 2) (f.of 0 12) bc (wordsOf n bs) 0

/-- XBCAST (R390): the root keeps the words that it has read at the head while its own destination is held back. -/
def execXbcast (f : E) (s : State) : Out :=
  s.collCmd (.xbcast f) f fun s x =>
    let j := f.of 12 2
    let n := f.of 0 6 + 1
    let sig := 4096 + f.of 0 6
    s.onEpoch x j fun t =>
      let root := memParent t.desc t.member == 0xFF
      let send (s : State) (ws : List (BitVec 32)) : CmdRes :=
        s.agreeing t fun _ => s.finishColl s x.sb j ws fun s3 => s3.sendDown s3.ctx.core t sig ws
      if x.stage = 1 then (if root then send s x.acc else s.agreeing t fun _ => s.receiveDown x t j sig)
      else
        match s.collChecks 4 ((if root then [(x.sa, 4 * n, 0)] else []) ++ [(x.sb, 4 * n, 1)]) with
        | some e => .trap s e
        | none =>
          if !root then
            let s1 := s.progress 1 [] 0
            s1.agreeing t fun _ => s1.receiveDown x t j sig
          else
            match s.loadPad s.ctx.core .xs s.ctx.core 0 [((x.sa.toNat : Int), 4 * n)] with
            | .trap s2 e => .trap s2 e
            | .hold _ => .busy s
            | .ok s2 bs => send (s2.progress 1 (wordsOf n bs) 0) (wordsOf n bs)

/-! XTREE (R374, R388). -/

/-- The descriptor that a waiting XTREE has read. -/
def descOf (x : Cmd) : List Byte := bytesOf x.acc
/-- The slot that an XTREE names. -/
def treeSlot (x : Cmd) : Option Nat :=
  match x.code.instr with
  | .xtree f => some (f.of 12 2)
  | _ => none
/-- The TAG of an XTREE at the head of a core's queue: of the descriptor that it has read, or that stands where it will read. -/
def Core.treeTag (k : Core) (x : Cmd) : Nat := if x.stage == 1 then descTag (descOf x) else (k.spad.read (x.sa.toNat + 1)).toNat
/-- The descriptor of an XTREE at the head of a core's queue, in the same way. -/
def Core.treeDesc (k : Core) (x : Cmd) : List Byte :=
  if x.stage == 1 then descOf x else k.spad.readN x.sa.toNat (8 + 16 * (k.spad.read x.sa.toNat).toNat)
/-- The XTREE of a tree that stands at a core's head, at whatever stage. -/
def State.atHead (s : State) (c : CoreId) (asid : BitVec 13) (tag : Nat) : Option Cmd :=
  let k := s.core c
  if !k.active || k.asid != asid then none else
  match k.collQ with
  | x :: _ => if (treeSlot x).isSome && k.treeTag x == tag then some x else none
  | [] => none
/-- The same, with its descriptor read. -/
def State.headTree (s : State) (c : CoreId) (asid : BitVec 13) (tag : Nat) : Option Cmd :=
  (s.atHead c asid tag).filter fun x => x.stage == 1
/-- The XTREE that waits at a core's head for a tree. -/
def State.loading (s : State) (c : CoreId) (asid : BitVec 13) (tag : Nat) : Option Cmd :=
  (s.headTree c asid tag).filter fun x => !x.trapped && !x.failing

/-- What a router holds for a slot is dropped (R371). -/
def Die.dropSlot (x : Die) (t : Tree) : Die :=
  if !t.loaded then x else
  { x with
    partials := x.partials.filter fun p => !(p.load == t.load && p.router == t.member)
    downs := x.downs.filter fun p => !(p.load == t.load && p.member == t.member) }

/-- A slot loaded by a load (R374), in place of what it held. -/
def State.loadTree (s : State) (c : CoreId) (j : Nat) (d : List Byte) (load : Nat) : State :=
  let k := s.core c
  (s.setCore c (k.setTree j ⟨true, d, memberOf d c, 0, [], load⟩)).setDie (dieOf c) ((s.die (dieOf c)).dropSlot (k.treeAt j))

/-- The members of a complete load other than the executing core: their slots loaded, their XTREEs completed. -/
def State.loadOthers (tag load : Nat) : List CoreId → State → State
  | [], s => s
  | m :: t, s =>
    if m == s.ctx.core then State.loadOthers tag load t s else
    match s.loading m s.me.asid tag with
    | none => State.loadOthers tag load t s
    | some x =>
      State.loadOthers tag load t (((s.loadTree m ((treeSlot x).getD 0) (descOf x) load).popCmd m .coll).cmdSignal m x)

/-- Members, by a descriptor, whose XTREE holds other bytes. -/
def State.otherBytes (s : State) (c : CoreId) (d : List Byte) : Word :=
  memberBits ((List.range (descM d)).filter fun i =>
    match s.headTree (coreAt (dieOf c) (memCore d i)) (s.core c).asid (descTag d) with
    | some x => descOf x != d
    | none => false)

/-- XTREEs at the heads of some cores raise the cause of a failed load (R374, R388, R380), `own` at the core that it names; `d` is the
descriptor for those that have not read theirs, and which they keep (DEDUCED, log entry 20). -/
def State.failLoaders (cause : Nat) (d : List Byte) (own : CoreId × Option TrapSpec) (bits : CoreId → List Byte → Word) :
    List CoreId → State → State
  | [], s => s
  | m :: t, s =>
    let s1 := match (s.core m).collQ with
      | x :: _ =>
        if x.trapped || x.failing then s else
        let d1 := if x.stage == 1 then descOf x else d
        let usual : TrapSpec :=
          { cause := cause, detail := collDetail (bits m d1) ((treeSlot x).getD 0) (descTag d1) (memberOf d1 m) 0 }
        let kept := (s.core m).mapHead .coll fun (y : Cmd) => { y with stage := 1, acc := wordsOf (d1.length / 4) d1 }
        (s.setCore m kept).raiseCmd m .coll true (if own.1 == m then own.2.getD usual else usual)
      | [] => s
    State.failLoaders cause d own bits t s1

/-- A failed load noted, with the members that have yet to complete their XTREE. -/
def State.noteLoad (s : State) (c : CoreId) (b : BadLoad) : State :=
  let x := s.die (dieOf c)
  s.setDie (dieOf c) { x with badLoads := b :: x.badLoads }

/-- The members of a load whose descriptors differ: the cores that the one names, and those that the others' descriptors name
(DEDUCED, log entry 20). -/
def State.namedBy (s : State) (c : CoreId) (d : List Byte) : List CoreId :=
  (memberCores d c ++ (memberCores d c).flatMap fun m =>
    match s.loading m (s.core c).asid (descTag d) with
    | some x => memberCores (descOf x) c
    | none => []).eraseDups

/-- A load fails because bytes differ (DEDUCED, log entry 20). -/
def State.differLoad (s : State) (c : CoreId) (d : List Byte) : State :=
  let asid := (s.core c).asid
  let ms := s.namedBy c d
  let s1 := State.failLoaders cILLFIELD d (c, none) (fun m d => s.otherBytes m d)
    (ms.filter fun m => (s.loading m asid (descTag d)).isSome) s
  s1.noteLoad c ⟨asid, descTag d, ms, cILLFIELD, 0⟩

/-- A load fails by a time-out or a wait limit of core `c` (R388, R380): the members whose XTREE stands at the head raise it, and the
others when theirs comes to the head (R382) (DEDUCED, log entry 20). -/
def State.timeoutLoad (s : State) (c : CoreId) (d : List Byte) (own : CoreId × Option TrapSpec) : State :=
  let asid := (s.core c).asid
  let here (m : CoreId) : Bool := (s.atHead m asid (descTag d)).isSome
  let missing := memberBits ((List.range (descM d)).filter fun i => !here (coreAt (dieOf c) (memCore d i)))
  let s1 := State.failLoaders cREDTIMEOUT d own (fun _ _ => missing) ((memberCores d c).filter here) s
  s1.noteLoad c ⟨asid, descTag d, memberCores d c, cREDTIMEOUT, missing⟩

/-- A core's part in the failed loads of a tree is over. -/
def Die.leaveBad (x : Die) (asid : BitVec 13) (tag : Nat) (c : CoreId) : Die :=
  let less (b : BadLoad) : BadLoad :=
    if b.asid == asid && b.tag == tag then { b with cores := b.cores.filter (· != c) } else b
  { x with badLoads := (x.badLoads.map less).filter fun b => !b.cores.isEmpty }

/-- The failed load of a tree whose cause an XTREE of a core raises as it comes: one whose bytes differed, while some member has not
completed its XTREE (R374); one that timed out, if the core's own has not (R380). -/
def Die.badTree (x : Die) (asid : BitVec 13) (tag : Nat) (c : CoreId) : Option BadLoad :=
  x.badLoads.find? fun b => b.asid == asid && b.tag == tag && (b.cause == cILLFIELD || b.cores.contains c)

/-- Is a TAG held in a loaded slot of another tree's member, a job of the ASID on the die or saved from it (R374)? -/
def State.tagHeld (s : State) (c : CoreId) (asid : BitVec 13) (tag : Nat) (members : List CoreId) : Bool :=
  let holds (k : Core) : Bool := k.asid == asid && (k.onTree tag).isSome
  (((List.range 64).map (coreAt (dieOf c))).any fun m => !members.contains m && (s.core m).active && holds (s.core m)) ||
  (s.saved.any fun x => dieOf x.origin == dieOf c && holds x.core)

/-- An XTREE that waits for its members (R374). A TAG that another tree's slot holds is refused as a second slot of the own job is
(DEDUCED, log entry 20). -/
def State.handshake (s : State) (j : Nat) (d : List Byte) : CmdRes :=
  let c := s.ctx.core
  let asid := s.me.asid
  let ms := memberCores d c
  if ms.any fun m => (s.loading m asid (descTag d)).isNone then collWait s
  else if s.otherBytes c d ≠ 0 then .busy (s.differLoad c d)
  else if s.tagHeld c asid (descTag d) ms then .busy (State.failLoaders cILLFIELD d (c, none) (fun _ _ => 0) ms s)
  else .done (({ State.loadOthers (descTag d) s.seq ms s with seq := s.seq + 1 }).loadTree c j d s.seq)

/-- XTREE (R388). -/
def execXtree (f : E) (s : State) : Out :=
  s.collCmd (.xtree f) f fun s x =>
    let c := s.ctx.core
    let j := f.of 12 2
    let asid := s.me.asid
    if x.failing then
      .done (if x.acc.isEmpty then s else s.setDie (dieOf c) ((s.die (dieOf c)).leaveBad asid (descTag (descOf x)) c))
    else if x.stage = 1 then s.handshake j (descOf x)
    else
      match s.collChecks 8 [(x.sa, 8, 0)] with
      | some e => .trap s e
      | none =>
        let n := 8 + 16 * (s.me.spad.read x.sa.toNat).toNat
        match s.collChecks 8 [(x.sa, n, 0)] with
        | some e => .trap s e
        | none =>
          match s.loadPad c .xs c 0 [((x.sa.toNat : Int), n)] with
          | .trap s1 e => .trap s1 e
          | .hold _ => .busy s
          | .ok s1 d =>
            if !descOk d (localOf c) then .trap s1 { cause := cILLFIELD, addr := x.sa } else
            let tag := descTag d
            let s2 := s1.progress 1 (wordsOf (n / 4) d) 0
            let second := (List.range 4).any fun i => i != j && (s.me.treeAt i).loaded && descTag (s.me.treeAt i).desc == tag
            if second then .fail s2 { cause := cILLFIELD, addr := x.sa, detail := collDetail 0 j tag (memberOf d c) 0 }
            else match (s.die (dieOf c)).badTree asid tag c with
              | some b =>
                let bits := if b.cause = cILLFIELD then s.otherBytes c d else b.bitmap
                .fail s2 { cause := b.cause, detail := collDetail bits j tag (memberOf d c) 0 }
              | none => s2.handshake j d

/-- "XRSTAT value" (R391). -/
def Tree.status (t : Tree) : Word :=
  if !t.loaded then 0 else
  BitVec.ofNat 64 (t.member % 64 + descTag t.desc * 256 + descM t.desc % 128 * 65536 + (if t.fails.isEmpty then 1 else 2) * 2 ^ 24 +
    t.epoch % 2 ^ 32 * 2 ^ 32)

/-- XRSTAT (R391) (DEDUCED, log entry 46). -/
def execXrstat (f : E) (s : State) : Out :=
  s.issue fun s =>
    if !s.me.collQ.isEmpty then .drain s else
    let t := s.me.treeAt (f.of 12 2)
    let v := if f.of 0 1 = 1 then (match t.fails with | x :: _ => if t.loaded then x.2.2 else 0 | [] => 0) else t.status
    .done (s.arriveS f.d v)

/-! Time-outs (R379, R380). -/

/-- The timer of the head command has passed its limit. -/
def Cmd.timedOut (x : Cmd) : Bool := x.limit != 0 && decide (x.limit + 1 < x.timer)

/-- A slot of a core's collective timer. -/
def Core.tickColl (k : Core) : Core :=
  if k.freeze != 0 || k.handler.isSome || k.stopped.isSome then k
  else k.mapHead .coll fun (x : Cmd) => if x.timer = 0 then x else { x with timer := x.timer + 1 }

/-- The head collective of a core fails by a time-out, or by the wait limit, whose trap `own` is; alone where its slot holds no tree and
where its descriptor describes none. -/
def State.collExpires (s : State) (c : CoreId) (x : Cmd) (own : Option TrapSpec) : State :=
  match redOf x with
  | some (j, _) =>
    let t := (s.core c).treeAt j
    if !t.loaded then s.raiseCmd c .coll true (own.getD { cause := cREDTIMEOUT, detail := collDetail 0 j 0 0 0 })
    else s.failEpoch c t t.epoch cREDTIMEOUT (s.missingMembers c t t.epoch) (c, own)
  | none =>
    let d := (s.core c).treeDesc x
    if descOk d (localOf c) then s.timeoutLoad c d (c, own)
    else s.raiseCmd c .coll true (own.getD { cause := cREDTIMEOUT, detail := collDetail 0 ((treeSlot x).getD 0) 0 0 0 })

/-- RED_TIMEOUT: the timer of the head collective of core `unit` has passed its limit. -/
def execRedTimeout (s : State) : Out :=
  if h : s.ctx.ev.unit < 136 then
    let c : CoreId := ⟨s.ctx.ev.unit, h⟩
    match (s.core c).collQ with
    | x :: _ => if x.timedOut && !x.trapped && !x.failing then .next (s.collExpires c x none) else .next s
    | [] => .next s
  else .fault .noSuchUnit

/-- The cores whose collective timers have passed. -/
def State.timeoutEvents (s : State) : List Event :=
  (allCores.filter fun c =>
    (s.core c).active && ((s.core c).headCmd .coll).any fun x => x.timedOut && !x.trapped && !x.failing).map fun c =>
      ⟨.redTimeout, { EvArgs.zero with unit := c.val }⟩

/-- What routers hold for a job's slots, which were loaded on a core, goes (R371), and its part in failed loads. -/
def State.dropRouters (s : State) (c : CoreId) (k : Core) : State :=
  let x := k.trees.toList.foldl (fun (x : Die) t => x.dropSlot t) (s.die (dieOf c))
  let less (b : BadLoad) : BadLoad := if b.asid == k.asid then { b with cores := b.cores.filter (· != c) } else b
  s.setDie (dieOf c) { x with badLoads := (x.badLoads.map less).filter fun b => !b.cores.isEmpty }

/-- A job's slots and what its routers hold go (R371). -/
def State.dropTrees (s : State) (c : CoreId) : State :=
  let k := s.core c
  (s.dropRouters c k).setCore c { k with trees := Vector.replicate 4 Tree.reset }

/-! The wait limit. -/

/-- WAIT_LIMIT: a wait of stream `sub` of core `unit`, or of the head command of the queue `val` - 1, has passed the limit under which it
began (R354, R119). -/
def execWaitLimit (s : State) : Out :=
  if h : s.ctx.ev.unit < 136 then
    let c : CoreId := ⟨s.ctx.ev.unit, h⟩
    let i := StreamId.ofNum s.ctx.ev.sub
    let e : Option Eng := if s.ctx.ev.val = 0 then none else some (Eng.ofNum (s.ctx.ev.val - 1))
    let wait := match e with
      | none => (s.strm c i).wait
      | some e => ((s.core c).headCmd e).bind (·.wait)
    match wait with
    | none => .next s
    | some w =>
      if w.limit = 0 || w.count ≤ w.limit || !w.reg || (s.core c).satisfied w then .next s
      else
        let x : Waiter := ⟨c, i, e, w⟩
        let spec : TrapSpec := { cause := cWAITLIMIT, detail := s.waitLimitDetail x }
        match e, (s.core c).collQ with
        | some .coll, y :: _ =>
          if w.kind == .opn && !y.failing then .next (s.collExpires c y (some spec)) else .next (s.raiseWait x spec)
        | _, _ => .next (s.raiseWait x spec)
  else .fault .noSuchUnit

end Sys2Proof.Machine
end

