-- ==== Sys2Proof/Machine/Control.lean ====
section
/-! DEFINITION. The control instructions (R109 to R119) with the compact NOP and branch, INC (R44, R45), and the event of a
pending write taking effect (R95). -/
namespace Sys2Proof.Machine

/-- NOP (R110). -/
def execNop (s : State) : Out := s.issue fun s => .done s

/-- NOP16: its count stands as the stall count of its head (R43, R126). -/
def execNop16 (s : State) : Out := s.always fun s => .done s

/-- "Feature words" (R109). -/
def State.featureWord (s : State) (i : Nat) : Word :=
  match i with
  | 0 => 0x0000_0000_0000_0004
  | 1 => 0x0000_0000_0000_001F
  | 2 => 0x0000_0000_0210_0080
  | 3 => 0x0000_0100_0000_0600
  | 4 => 0x0000_1004_0100_0100
  | 5 => 0x0000_0000_0040_4010
  | 6 => 0x0000_0000_0000_000C
  | 7 => s.hazel.setWidth 64
  | _ => 0

/-- FQRY (R111). -/
def execFqry (f : RRR) (s : State) : Out :=
  s.issue fun s => .done (s.putS 1 f.d (s.featureWord (s.getS f.a).toNat))

/-- A transfer to an address whose header is checked first (R31, R101). -/
def State.jump (s : State) (target : Word) (link : State → State) : Res :=
  match s.target s.ctx.core s.ctx.strm target with
  | (s1, .error e) =>
    .trap s1 { cause := e.1, addr := BitVec.ofNat 64 e.2, kind := if e.1 = cILLTARGET then 0 else 3
               space := if e.1 = cILLTARGET then 0 else 2 }
  | (s1, .ok _) => .goto (link s1) target

/-- BR (R113). -/
def execBr (f : B) (s : State) : Out :=
  s.issue fun s => s.jump (s.str.pc + 2 * f.imm.signExtend 64) id

/-- BR16 (R43, R113). -/
def execBr16 (imm : BitVec 11) (s : State) : Out :=
  s.always fun s => s.jump (s.str.pc + 2 * imm.signExtend 64) id

/-- The link address (R102): the halfword after the body of the current block. -/
def State.linkAddr (s : State) : Word :=
  match s.str.blk with
  | some b => b.hdr + BitVec.ofNat 64 (4 + 2 * b.len)
  | none => s.str.pc

/-- BRI (R114). -/
def execBri (f : RRR) (s : State) : Out :=
  s.issue fun s => s.jump (s.getS f.a) fun s1 => s1.putS 1 f.d s.linkAddr

/-- RET: BRI with D = 0 (R114). -/
def execRet (f : RRR) (s : State) : Out :=
  s.issue fun s => s.jump (s.getS f.a) id

/-- CALL (R115). -/
def execCall (f : RX) (s : State) : Out :=
  s.issue fun s => s.jump (s.str.pc + 2 * immX f) fun s1 => s1.putS 1 31 s.linkAddr

/-- The macro slot that MCALL names: m<5> in bit 27, m<4:0> in D (R116). -/
def mcallSlot (f : RI) : Nat := (f.imm.extractLsb' 0 1).toNat * 32 + f.d.toNat

/-- MCALL (R116): the slot's operations issue from MCALL's own stream slot on. An empty slot traps under a true guard only
(DESIGN CHOICE, log entry 66). -/
def execMcall (f : RI) (s : State) : Out :=
  s.issue fun s =>
    match s.me.macros.toList[mcallSlot f]?.getD [] with
    | [] => .trap s { cause := cILLOP }
    | ops => .stay (s.setStr { s.str with mac := some ⟨ops, 0, s.ctx.head.st.toNat, s.ctx.len⟩ }).noSlot

/-- May an operation stand in a macro (R108)? -/
def macroOp : Instr → Bool
  | .br _ | .bri _ | .call _ | .ret _ | .mcall _ | .mdef _ | .nest _ | .rdv | .node | .tret | .udecl | .ctxsv _
  | .ctxrs _ => false
  | _ => true

/-- The operations of a macro image (R107, R108), or the index of the first that breaks the rules. -/
def parseMacro : Nat → Nat → List HWord → Except Nat (List (List HWord))
  | 0, i, hs => if hs.isEmpty then .ok [] else .error i
  | n + 1, i, hs =>
    match hs with
    | [] => .error i
    | h :: _ =>
      if !h.getLsbD 0 then .error i else
      match Decode.rawDecode hs with
      | .error _ => .error i
      | .ok (w, k) =>
        if !macroOp w.instr then .error i else
        match parseMacro n (i + 1) (hs.drop k) with
        | .error j => .error j
        | .ok t => .ok (hs.take k :: t)

/-- MDEF (R117). ADDR of the record is the header word read from memory for a bad header, and the index for a bad operation
(DESIGN CHOICE, log entry 57). -/
def execMdef (f : RX) (s : State) : Out :=
  s.issue fun s =>
    let c := s.ctx.core
    let i := s.ctx.strm
    let a := s.getS f.a
    if a.toNat % 8 ≠ 0 then .trap s { cause := cALIGN, addr := a, space := 2 } else
    match s.loadG c i false a.toNat 8 with
    | .trap s1 t => .trap s1 t
    | .hold _ => .stay s
    | .ok s1 hb =>
      let h := leNat hb
      let count := h % 256
      let hw := h / 256 % 256
      if count = 0 || 32 < count || 65536 ≤ h then .trap s1 { cause := cILLFIELD, addr := BitVec.ofNat 64 h } else
      match s1.loadG c i false (a.toNat + 8) (2 * hw) with
      | .trap s2 t => .trap s2 t
      | .hold _ => .stay s
      | .ok s2 bs =>
        match parseMacro count 0 (toHalves bs) with
        | .error j => .trap s2 { cause := cILLFIELD, addr := BitVec.ofNat 64 j }
        | .ok ops => .done (s2.setMe { s2.me with macros := s2.me.macros.setIfInBounds (f.xf 0 6) ops })

/-- NEST (R118): D names the descriptor and X is the offset, where the table of R51 has the descriptor in X (DEDUCED, log entry 63). -/
def execNest (f : RX) (s : State) : Out :=
  s.issue fun s =>
    let r (k : Nat) : Word := s.getS (regPlus f.a k)
    if (r 1).toNat / 2 ^ 37 ≠ 0 then .trap s { cause := cILLFIELD, addr := r 1 }
    else .done (s.put 1 (.nest (f.d.setWidth 3)) (BitVec.allOnes 2048) (nestPack (r 0) (r 1) (r 2) (r 3) (r 4) f.x) 0)

/-- A wait limit, clamped to 32 bits (R119). -/
def clamp32 (w : Word) : BitVec 32 := BitVec.ofNat 32 (min w.toNat 0xFFFF_FFFF)

/-- WLIMSET (R119). -/
def execWlimset (f : RRR) (s : State) : Out :=
  s.issue fun s =>
    let old := s.str.wlim
    .done ((s.setStr { s.str with wlim := clamp32 (s.getS f.a) }).putS 1 f.d (old.setWidth 64))

/-- INC (R44, R45): it occupies no slot behind the instruction that it steps; anywhere else it raises ILL_INC
(DEDUCED, log entry 49). -/
def execInc (s : State) : Out :=
  if s.str.armed = some s.str.pc then .next (s.setStr { s.str with pc := s.str.pc + 2, armed := none }).noSlot
  else (Res.trap s { cause := cILLINC }).finish s

/-- A pending write takes effect at its slot (R95), a result of variable latency at its arrival (R96): every write of the stream that
is due. -/
def execWriteTakesEffect (s : State) : Out :=
  let e := s.ctx.ev
  if h : e.unit < 136 ∧ e.sub < 6 then
    let c : CoreId := ⟨e.unit, h.1⟩
    let i := StreamId.ofNum e.sub
    .next (s.setCore c ((s.core c).applyDue i s.clock))
  else .fault .noSuchUnit

end Sys2Proof.Machine
end

