-- ==== Sys2Proof/Machine/AsmTable.lean ====
section
/-! DEFINITION. How each instruction is written (R51 to R54, and the syntax line of each entry): its mnemonic, its suffixes and its operands, with
the place of each in the instruction's bits. Bits are numbered as the opcode table numbers them: bit 0 is the least significant bit of the
first halfword, and the X word's bits begin at 32. -/
namespace Sys2Proof.Machine

/-- A suffix: a name with the bits that it sets, or a letter and a number below a bound that stands in a field (`.w3`, `.c2`). -/
inductive Suf where
  | lit (name : String) (bits : Nat)
  | num (pre : String) (bound pos bits : Nat)
  deriving DecidableEq, Repr

/-- An operand as written. -/
inductive Slot where
  /-- a register of a file, with the numbers it may have, in the field at a bit -/
  | reg (file : Char) (pos lo hi : Nat)
  /-- the data register of a load or store in the D field: s for one element, v for a vector shape (R276) -/
  | data
  /-- an immediate from `lo` to `hi`, of which `bias` less stands in a field of `w` bits -/
  | imm (pos w : Nat) (lo hi : Int) (bias : Int)
  /-- the macro slot of MCALL, whose bit 5 stands apart (R116) -/
  | slot
  /-- a label on a .block line, as a signed distance in halfwords (R53) -/
  | rel (pos w : Nat)
  /-- a CSR by name (R429) -/
  | csr
  /-- a memory operand (R54): the prefix it has (c a core, d a peer, a blank none), the file of its index (a blank: none), and
  whether the index must stand -/
  | mem (pre idx : Char) (must : Bool)
  /-- the operand of LEA (R120) -/
  | lea
  /-- a word that sets bits -/
  | kw (name : String) (bits : Nat)
  deriving DecidableEq, Repr

/-- A way of writing an instruction: its mnemonic, its size in bytes, its fixed bits, the suffixes that stand in order (each a set of choices,
with the bits of an omitted one where it may be omitted), those that follow in any order (each a set of choices, at most one of
which may stand), and its operand lists with the bits that each sets. -/
structure AsmRow where
  name : String
  size : Nat
  code : Nat
  mods : List (List Suf × Option Nat)
  bag : List (List Suf)
  forms : List (List Slot × Nat)
  deriving DecidableEq, Repr

/-! Operands in the fields D, A and B (R36). -/
def sD : Slot := .reg 's' 17 0 31
def sA : Slot := .reg 's' 22 0 31
def sB : Slot := .reg 's' 27 0 31
def vD : Slot := .reg 'v' 17 0 31
def vA : Slot := .reg 'v' 22 0 31
def vB : Slot := .reg 'v' 27 0 31
def pD : Slot := .reg 'p' 17 0 31
def tD : Slot := .reg 't' 17 0 15
def tA : Slot := .reg 't' 22 0 15
def tB : Slot := .reg 't' 27 0 15
def aD : Slot := .reg 'a' 17 0 7
def aA : Slot := .reg 'a' 22 0 7
/-- The predicates of a PL or P3 word (R38, R39). -/
def pd7 : Slot := .reg 'p' 15 0 127
def pa7 : Slot := .reg 'p' 22 0 127
/-- A semaphore or a queue in the X word (R357). -/
def semX : Slot := .reg 'm' 32 0 255
def qX (lo hi : Nat) : Slot := .reg 'q' 32 lo hi
/-- A queue destination, in cnt (R40). -/
def qCnt : Slot := .reg 'q' 56 0 15
/-- A signed or an unsigned field. -/
def immS (pos w : Nat) : Slot := .imm pos w (-(2 : Int) ^ (w - 1)) ((2 : Int) ^ (w - 1) - 1) 0
def immU (pos w : Nat) : Slot := .imm pos w 0 ((2 : Int) ^ w - 1) 0
/-- A 32-bit value, signed or unsigned (R120). -/
def imm32 : Slot := .imm 32 32 (-(2 : Int) ^ 31) ((2 : Int) ^ 32 - 1) 0
/-- A memory operand with an s index or none, and one with a base and an offset only. -/
def memI (pre : Char) : Slot := .mem pre 's' false
def memO (pre : Char) : Slot := .mem pre ' ' false

/-- Names with the codes 0, 1, 2 and so on, in the field at a bit. -/
def codes (pos : Nat) (ns : List String) : List Suf := ns.mapIdx fun i n => .lit n (i * 2 ^ pos)
/-- The suffixes of "Element type codes" (R41), of "Conversion type codes" (R150), of the rounding modes (R136), of "Packed formats" (R151), of
"Tile formats" (R180), of "Resident weight formats" (R249), of the reduce operators (R174, R376) and of "Wait kinds" (R346). -/
def elemSufs (pos : Nat) : List Suf :=
  codes pos ["u8", "i8", "u16", "i16", "u32", "i32", "d", "f16", "bf16", "f32", "f64", "e4", "e5", "ln", "vr"]
def cvtSufs (pos : Nat) : List Suf :=
  codes pos ["u8", "i8", "u16", "i16", "u32", "i32", "d", "f16", "bf16", "f32", "f64", "e4", "e5", "hs4", "hs8", "tk8"]
def rmSufs (pos : Nat) : List Suf := codes pos ["rne", "rz", "ru", "rd", "sr"]
def packSufs (pos : Nat) : List Suf := codes pos ["se2", "se4", "se7", "mxe4", "mxe5", "mxf4", "mxi8"]
def tileSufs (pos : Nat) : List Suf :=
  codes pos ["f64", "f32", "f16", "bf16", "e4", "e5", "i8", "u8", "hs8", "hs4", "mxe4", "mxe5", "mxi8", "mxf4", "se7", "se4", "se2"]
def weightSufs (pos : Nat) : List Suf := codes pos ["bf16", "f16", "e4x2", "e5x2", "hs4x4"]
def opSufs (pos : Nat) : List Suf := codes pos ["add", "min", "max", "and", "or", "xor"]
def kindSufs (pos : Nat) : List Suf :=
  codes pos ["sem", "bar", "lock", "queue", "token", "node", "lease", "mcast", "link", "spcfg", "expl", "lklim", "open"]
/-- The vector counts (R276). -/
def countSufs : List Suf :=
  [.lit "x1" (1 * 2 ^ 56), .lit "x2" (2 * 2 ^ 56), .lit "x4" (3 * 2 ^ 56), .lit "x8" (4 * 2 ^ 56), .lit "x16" (5 * 2 ^ 56),
    .lit "x32" (6 * 2 ^ 56), .lit "x64" (7 * 2 ^ 56), .lit "x128" (8 * 2 ^ 56), .lit "x256" (9 * 2 ^ 56)]
/-- The wait and signal suffixes of an engine command (R42, R195). -/
def semSufs : List (List Suf) := [[.num "w" 256 32 (2 ^ 48)], [.num "s" 256 40 (2 ^ 49)]]
/-- The memory modifiers (R281). -/
def pzSuf : List Suf := [.lit "pz" (2 ^ 52)]
def lkSuf : List Suf := [.lit "lk" (2 ^ 53)]
def ntSuf : List Suf := [.lit "nt" (2 ^ 54)]
def ownSuf : List Suf := [.lit "p" (2 ^ 55)]

/-- The fixed bits of a word. -/
def asmCode (op fn : Nat) : Nat := fn * 2 ^ 15 + op * 2 + 1
/-- A word without suffixes. -/
def plainRow (name : String) (op fn : Nat) (ops : List Slot) : AsmRow := ⟨name, 4, asmCode op fn, [], [], [(ops, 0)]⟩
/-- A word with an X word and no suffixes. -/
def xRow (name : String) (op fn : Nat) (ops : List Slot) : AsmRow := ⟨name, 8, asmCode op fn, [], [], [(ops, 0)]⟩
/-- An engine command. -/
def eRow (name : String) (op fn : Nat) (mods : List (List Suf × Option Nat)) (bag : List (List Suf))
    (forms : List (List Slot × Nat)) : AsmRow := ⟨name, 8, asmCode op fn, mods, bag ++ semSufs, forms⟩
/-- A memory instruction, its type first (R54). -/
def mRow (name : String) (op fn : Nat) (bag : List (List Suf)) (ops : List Slot) : AsmRow :=
  ⟨name, 8, asmCode op fn, [(elemSufs 48, none)], bag, [(ops, 0)]⟩
/-- Words of one OP that differ in FN. -/
def fnRows (op : Nat) (ops : List Slot) (names : List String) : List AsmRow :=
  names.mapIdx fun i n => plainRow n op i ops

/-- Control, blocks and jobs (R83 to R119), and the compact words (R43). -/
def controlRows : List AsmRow :=
  [plainRow "nop" 0x01 0 [], plainRow "fqry" 0x01 1 [sD, sA], plainRow "waite" 0x01 2 [],
    ⟨"br", 4, 0x05, [], [], [([.rel 15 17], 0)]⟩, plainRow "bri" 0x03 0 [sD, sA], xRow "call" 0x03 1 [.rel 32 32],
    ⟨"ret", 4, asmCode 0x03 2, [], [], [([sA], 0), ([], 31 * 2 ^ 22)]⟩, plainRow "mcall" 0x04 0 [.slot],
    xRow "mdef" 0x04 1 [sA, immU 32 6], xRow "nest" 0x04 2 [.reg 'n' 17 0 7, sA, imm32], plainRow "wlimset" 0x06 3 [sD, sA],
    plainRow "rdv" 0x05 0 [], plainRow "node" 0x05 1 [], plainRow "cont" 0x05 2 [sD, sA],
    plainRow "prio" 0x05 3 [sD, .imm 27 5 0 7 0], plainRow "domain" 0x06 0 [sD, sA], xRow "joini" 0x06 1 [sD, sA, immS 32 32],
    plainRow "self" 0x06 2 [sD], plainRow "trcrec" 0x73 0 [sA], plainRow "trcrpl" 0x73 1 [sA], plainRow "trcstat" 0x73 2 [sD],
    ⟨"nop16", 2, 0x00, [], [], [([immU 5 3], 0)]⟩,
    ⟨"mov16", 2, 0x02, [], [], [([.reg 's' 5 0 31, .reg 's' 10 0 31], 0)]⟩,
    ⟨"add16", 2, 0x04, [], [], [([.reg 's' 5 0 31, .reg 's' 10 0 31], 0)]⟩,
    ⟨"addi16", 2, 0x06, [], [], [([.reg 's' 5 0 31, immS 10 6], 0)]⟩,
    ⟨"br16", 2, 0x08, [], [], [([.rel 5 11], 0)]⟩,
    ⟨"tok16", 2, 0x0A, [([.lit "push" 0, .lit "wait" (2 ^ 5)], none)], [], [([.reg 'k' 6 0 7], 0)]⟩]

/-- The scalar, compare and predicate instructions (R120 to R125). -/
def scalarRows : List AsmRow :=
  fnRows 0x08 [sD, sA, sB] ["add", "sub", "and", "or"] ++ fnRows 0x09 [sD, sA, sB] ["xor", "andn", "shl", "shr"] ++
  fnRows 0x0A [sD, sA, sB] ["sra", "rotr", "min", "max"] ++ fnRows 0x0B [sD, sA, sB] ["minu", "maxu"] ++
  [plainRow "clz" 0x0B 2 [sD, sA], plainRow "popc" 0x0B 3 [sD, sA]] ++
  fnRows 0x0C [sD, sA, sB] ["mul", "mulh", "mulhu", "div"] ++ fnRows 0x0D [sD, sA, sB] ["divu", "rem", "remu", "sel"] ++
  fnRows 0x0E [sD, sA, immS 27 5] ["addi", "andi", "ori"] ++
  [plainRow "shli" 0x0E 3 [sD, sA, immU 27 5], xRow "li" 0x0F 0 [sD, imm32], xRow "lih" 0x0F 1 [sD, imm32],
    plainRow "mov" 0x0F 2 [sD, sA], xRow "lea" 0x0F 3 [sD, .lea]] ++
  fnRows 0x10 [pD, sA, sB] ["cmpeq", "cmpne", "cmplt", "cmpltu"] ++ fnRows 0x11 [pD, sA, sB] ["cmpge", "cmpgeu"] ++
  [plainRow "cmpeqi" 0x11 2 [pD, sA, immS 27 5], plainRow "cmplti" 0x11 3 [pD, sA, immS 27 5],
    ⟨"plog", 4, 0x2D, [(codes 29 ["and", "or", "xor", "andn", "orn", "not", "mov"], none)], [], [([pd7, pa7], 0)]⟩,
    ⟨"plog", 4, 0x2D, [([.lit "clr" (7 * 2 ^ 29)], none)], [], [([pd7], 0)]⟩,
    ⟨"pget", 4, 0x2F, [], [], [([sA, pd7], 0)]⟩, ⟨"pput", 4, 0x2F, [], [], [([pd7, sA], 2 ^ 30)]⟩,
    ⟨"pcnt", 4, 0x2F, [], [], [([sA, pd7], 2 * 2 ^ 30)]⟩,
    ⟨"pfirst", 4, 0x2F, [], [], [([sA, pd7, .reg 's' 27 0 7], 3 * 2 ^ 30)]⟩]

/-- The vector instructions (R148 to R177). -/
def vectorRows : List AsmRow :=
  fnRows 0x20 [vD, vA, vB] ["vadd", "vsub", "vmul", "vfma"] ++ fnRows 0x21 [vD, vA, vB] ["vmin", "vmax"] ++
  [plainRow "vabs" 0x21 2 [vD, vA], plainRow "vneg" 0x21 3 [vD, vA], plainRow "vdiv" 0x22 0 [vD, vA, vB],
    plainRow "vsqrt" 0x22 1 [vD, vA], plainRow "vrsq" 0x22 2 [vD, vA], plainRow "vrec" 0x22 3 [vD, vA]] ++
  fnRows 0x23 [vD, vA] ["vexp2", "vlog2"] ++ fnRows 0x24 [vD, vA, vB] ["vand", "vor", "vxor"] ++
  [plainRow "vnot" 0x24 3 [vD, vA]] ++ fnRows 0x25 [vD, vA, vB] ["vshl", "vshr", "vsra"] ++
  [plainRow "vclz" 0x25 3 [vD, vA]] ++ fnRows 0x26 [pD, vA, vB] ["vcmpeq", "vcmpne", "vcmplt", "vcmple"] ++
  [plainRow "vcmpun" 0x27 0 [pD, vA, vB], plainRow "vclass" 0x27 1 [vD, vA], plainRow "vsel" 0x28 0 [vD, vA, vB],
    plainRow "vmov" 0x28 1 [vD, vA], plainRow "vbcast" 0x28 2 [vD, sA], xRow "vlane" 0x28 3 [vD, immS 32 16, immS 48 16],
    xRow "vext" 0x29 0 [sD, vA, sB, immS 32 16], xRow "vins" 0x29 1 [vD, sA, sB, immS 32 16], plainRow "vperm" 0x29 2 [vD, vA, vB],
    ⟨"vslide", 8, asmCode 0x29 3, [], [], [([vD, vA, sB, immS 32 16], 0), ([vD, vA, sB, immS 32 16, .kw "rot" (2 ^ 48)], 0)]⟩,
    ⟨"vred", 8, asmCode 0x2A 0, [(opSufs 32, none)], [[.lit "bcast" (2 ^ 36)]], [([vD, vA], 0)]⟩,
    ⟨"vscan", 8, asmCode 0x2A 1, [(opSufs 32, none)], [[.lit "excl" (2 ^ 36)]], [([vD, vA], 0)]⟩,
    plainRow "vdot" 0x2A 2 [vD, vA, vB],
    ⟨"vsett", 8, asmCode 0x2B 0, [(elemSufs 32, none), (rmSufs 36, none)], [], [([sD], 0)]⟩,
    plainRow "vgetf" 0x2B 1 [sD, sA], plainRow "vsetf" 0x2B 2 [sD, sA], plainRow "vseed" 0x2B 3 [sD, sA],
    ⟨"vcvt", 8, asmCode 0x2C 0, [(cvtSufs 36, none), (cvtSufs 32, none), (rmSufs 40, some (7 * 2 ^ 40))], [],
      [([vD, vA], 0), ([vD, vA, immU 43 4], 0)]⟩,
    ⟨"vpack", 8, asmCode 0x2C 1, [(packSufs 32, none), (rmSufs 36, some (7 * 2 ^ 36))], [],
      [([vD, vA, immU 40 8], 0), ([vD, vA, sB, immU 40 8], 0)]⟩,
    ⟨"vunpk", 8, asmCode 0x2C 2, [(packSufs 32, none)], [], [([vD, vA, immU 40 8], 0), ([vD, vA, sB, immU 40 8], 0)]⟩,
    plainRow "vscale" 0x2C 3 [vD, vA, vB]]

/-- The temporal-array instructions (R267 to R274). -/
def temporalRows : List AsmRow :=
  [plainRow "tawin" 0x30 0 [sD, sA, immS 27 5], xRow "tamode" 0x30 1 [sA, immU 32 4],
    ⟨"tamode", 8, asmCode 0x30 1, [([.lit "all" (2 ^ 36)], none)], [], [([sA], 0)]⟩,
    ⟨"tarst", 4, asmCode 0x30 2, [], [], [([.imm 27 5 0 15 0], 0), ([sA], 0)]⟩,
    xRow "tadly" 0x30 3 [vA, immU 32 4, immU 36 4],
    ⟨"tadly", 8, asmCode 0x30 3, [([.lit "all" (2 ^ 40)], none)], [], [([vA, immU 36 4], 0)]⟩,
    xRow "talnch" 0x31 0 [vA, immU 36 2, immU 32 4],
    ⟨"tacap", 8, asmCode 0x31 1, [], [], [([vD, immU 36 2, immU 32 4], 0), ([vD, vB, immU 36 2, immU 32 4], 2 ^ 38)]⟩,
    plainRow "tastat" 0x31 2 [sD]]

/-- The tile commands (R195 to R202). -/
def tileRows : List AsmRow :=
  [eRow "tld" 0x34 0 [(tileSufs 50, none)] [[.num "c" 8 56 (2 ^ 55)], [.num "mc" 16 60 (2 ^ 59)]] [([tD, sA, sB], 0)],
    eRow "tst" 0x34 1 [(elemSufs 50, none)] [[.num "c" 8 56 (2 ^ 54), .lit "g" (2 * 2 ^ 54)]]
      [([aD, sA, sB], 0), ([aD, sA, sB, .reg 's' 59 0 31], 0)],
    eRow "tzero" 0x34 2 [] [] [([aD], 0), ([aD, .reg 's' 50 0 31], 0)],
    eRow "tmov" 0x34 3 [] [] [([tD, tA], 0)], eRow "tmov" 0x34 3 [([.lit "a" (2 ^ 50)], none)] [] [([aD, aA], 0)],
    eRow "tmma" 0x35 0 [] [] [([aD, tA, tB], 0), ([aD, tA, tB, .reg 's' 50 0 31], 0)],
    eRow "tmmas" 0x35 1 [] [] [([aD, tA, tB, .reg 's' 50 0 31, .reg 's' 55 0 31], 0)],
    eRow "ttrn" 0x35 2 [(codes 50 ["b16", "b32", "b64"], none)] [] [([tD, tA], 0)],
    eRow "tcvt" 0x35 3 [(tileSufs 50, none), (rmSufs 55, some (7 * 2 ^ 55))] [] [([tD, aA], 0)],
    eRow "tfmt" 0x36 0 [] [] [([sA], 0)], eRow "tstart" 0x36 1 [] [] [([], 0)], eRow "tcks" 0x36 2 [] [] [([immU 50 1], 0)]]

/-- The wavefront commands (R242 to R257). -/
def wavefrontRows : List AsmRow :=
  let edge : List Suf × Option Nat := ([.lit "north" 0, .lit "west" (2 ^ 61)], none)
  let region := immU 50 4
  [eRow "wlease" 0x38 0 [] [] [([], 0)], eRow "wrls" 0x38 1 [] [] [([], 0)],
    eRow "wbank" 0x38 2 [(codes 50 ["sel", "claim", "rel"], none)] [] [([sA], 0)],
    eRow "wregn" 0x38 3 [([.lit "def" 0], none)] [] [([sA, region], 0)],
    eRow "wregn" 0x38 3 [([.lit "rem" (2 ^ 54)], none)] [] [([region], 0)],
    eRow "wldw" 0x39 0 [(weightSufs 54, none), (cvtSufs 57, none), edge] [[.lit "g" (2 ^ 62)]] [([sA, sB, region], 0)],
    eRow "wstw" 0x39 1 [(cvtSufs 57, none), edge] [[.lit "g" (2 ^ 62)], [.lit "grad" (2 ^ 54)]] [([sA, sB, region], 0)],
    eRow "wadmit" 0x39 2 [(codes 58 ["f", "b", "bu", "bg"], none), (codes 61 ["f32", "bf16", "f16", "e4", "e5"], none)] []
      [([sA, sB, immU 54 4, region], 0)],
    eRow "wadmit" 0x39 2 [([.lit "a" (4 * 2 ^ 58)], none)] [] [([sA, sB, immU 54 4, region], 0)],
    eRow "wcoll" 0x39 3 [(codes 54 ["f", "b"], none), (elemSufs 55, none)] [] [([sD, sA, region], 0)],
    eRow "wdrain" 0x3A 0 [([.lit "discard" (2 ^ 50)], some 0)] [] [([], 0)],
    ⟨"wver", 8, asmCode 0x3A 1, [([.lit "f" 0, .lit "b" (2 ^ 54), .lit "reg" (2 ^ 55), .lit "regclr" (2 * 2 ^ 55)], none)], [],
      [([sD, region], 0)]⟩,
    eRow "wopt" 0x3A 2 [([.lit "rne" 0, .lit "sr" (4 * 2 ^ 54)], none)] [[.lit "strict" (2 ^ 57)]] [([sA, region], 0)],
    eRow "wcks" 0x3A 3 [] [] [([region, immU 54 1], 0)],
    eRow "wsave" 0x3B 0 [] [] [([sA, immU 50 4], 0)], eRow "wrest" 0x3B 1 [] [] [([sA], 0)]]

/-- The memory instructions (R276 to R308). -/
def memoryRows : List AsmRow :=
  let line (name : String) (op fn : Nat) : List AsmRow :=
    [⟨name, 8, asmCode op fn, [], [], [([memO ' ', sB], 13 * 2 ^ 48)]⟩,
      ⟨name, 8, asmCode op fn, [([.lit "all" (2 ^ 52)], none)], [], [([], 13 * 2 ^ 48)]⟩]
  [mRow "ldl" 0x40 0 [countSufs] [.data, memI ' '], mRow "stl" 0x40 1 [countSufs] [.data, memI ' '],
    mRow "ldc" 0x41 0 [countSufs, ownSuf] [.data, memI 'c'], mRow "stc" 0x41 1 [countSufs, ownSuf] [.data, memI 'c'],
    mRow "mstc" 0x41 2 [countSufs] [.data, memO ' ', sB],
    mRow "ldg" 0x42 0 [countSufs, pzSuf, ntSuf] [.data, memI ' '], mRow "stg" 0x42 1 [countSufs, ntSuf] [.data, memI ' '],
    mRow "ldgq" 0x42 2 [pzSuf, lkSuf, ntSuf] [qCnt, memI ' '],
    ⟨"pfg", 8, asmCode 0x42 3, [([.lit "l2" (2 ^ 54)], some 0)], [], [([memI ' '], 13 * 2 ^ 48)]⟩,
    mRow "vgath" 0x43 0 [pzSuf, ntSuf] [vD, .mem ' ' 'v' true], mRow "vscat" 0x43 1 [ntSuf] [vD, .mem ' ' 'v' true],
    mRow "gathq" 0x43 2 [pzSuf, ntSuf] [qCnt, .mem ' ' 'q' true],
    mRow "ldk" 0x44 0 [countSufs, pzSuf] [.data, memI ' '], mRow "ldkq" 0x44 1 [pzSuf] [qCnt, memI ' '],
    mRow "ldh" 0x45 0 [countSufs, [.lit "c" (2 ^ 54)]] [.data, memI ' '], mRow "sth" 0x45 1 [countSufs] [.data, memI ' '],
    mRow "ldp" 0x46 0 [countSufs] [.data, memI 'd'], mRow "stp" 0x46 1 [countSufs] [.data, memI 'd'],
    xRow "spcfg" 0x47 0 [sD, sA]] ++
  line "hflsh" 0x45 2 ++ line "hinv" 0x45 3 ++ line "cinv" 0x47 1 ++ line "cflsh" 0x47 2 ++ line "clkr" 0x47 3

/-- An atomic in its spaces (R320): the space is the first suffix and the type the second. -/
def atomicRow (name : String) (op : Nat) (host : Bool) : List AsmRow :=
  let row (sp : String) (fn : Nat) (pre : Char) (bag : List (List Suf)) : AsmRow :=
    ⟨name, 8, asmCode op fn, [([.lit sp 0], none), (elemSufs 48, none)], bag, [([sD, memO pre, sB], 0)]⟩
  [row "g" 0 ' ' [], row "c" 1 'c' [ownSuf], row "p" 3 'd' []] ++ if host then [row "h" 2 ' ' []] else []

/-- The atomics, the fences and the copy engine's commands (R320 to R331). -/
def asyncRows : List AsmRow :=
  let red (sp : String) (fn : Nat) (pre : Char) (bag : List (List Suf)) : AsmRow :=
    ⟨"ared", 8, asmCode 0x59 fn, [([.lit sp 0], none), (elemSufs 48, none)], bag, [([.data, memO pre], 0)]⟩
  let pair := immU 50 10
  atomicRow "aadd" 0x50 true ++ atomicRow "afadd" 0x51 false ++ atomicRow "amin" 0x52 true ++ atomicRow "amax" 0x53 true ++
  atomicRow "aand" 0x54 true ++ atomicRow "aor" 0x55 true ++ atomicRow "axor" 0x56 true ++ atomicRow "axchg" 0x57 true ++
  atomicRow "acas" 0x58 true ++
  [red "g" 0 ' ' [countSufs], red "c" 1 'c' [countSufs, ownSuf], red "p" 3 'd' [countSufs],
    ⟨"fence", 4, asmCode 0x5A 0, [(codes 27 ["stream", "job", "cluster", "device", "system"], none)], [], [([], 0)]⟩,
    plainRow "efence" 0x5A 1 [], plainRow "ksync" 0x5A 2 [],
    eRow "xcopy" 0x4C 0 [] [[.lit "l" (2 ^ 60)]] [([sD, sA, sB, pair], 0)], eRow "xfill" 0x4C 1 [] [] [([sD, sA, sB, pair], 0)],
    xRow "xshd" 0x4C 2 [sD, sA], ⟨"xshd", 8, asmCode 0x4C 2, [([.lit "free" (2 ^ 50)], none)], [], [([sA], 0)]⟩,
    eRow "xpub" 0x4C 3 [] [] [([pair], 0)]]

/-- The synchronisation instructions (R357 to R370). -/
def syncRows : List AsmRow :=
  [⟨"semw", 8, asmCode 0x5C 0, [], [], [([semX], 0), ([sD, semX], 0)]⟩,
    ⟨"sems", 8, asmCode 0x5C 1, [], [], [([semX], 0), ([sD, semX], 0), ([semX, sB], 0), ([sD, semX, sB], 0)]⟩,
    xRow "semi" 0x5C 2 [sD, semX, sB], xRow "semrd" 0x5C 3 [sD, semX]] ++
  fnRows 0x5D [sD, sA] ["bar", "bara", "barw"] ++
  [⟨"bibset", 4, asmCode 0x5D 3, [], [], [([sD], 0), ([sD, sA], 0), ([sD, sA, sB], 0)]⟩] ++
  fnRows 0x5E [sD, sA] ["lock", "unlock", "trylk"] ++
  [⟨"wreg", 8, asmCode 0x5F 0, [(kindSufs 32, none)], [], [([sD, sA], 0)]⟩, xRow "wdereg" 0x5F 1 [sD],
    ⟨"whold", 8, asmCode 0x5F 2, [(kindSufs 32, none)], [[.lit "rel" (2 ^ 36)]], [([sD, sA], 0)]⟩,
    ⟨"wqry", 8, asmCode 0x5F 3, [([.lit "job" 0, .lit "tab" (2 * 2 ^ 32)], none)], [], [([sD], 0)]⟩,
    ⟨"wqry", 8, asmCode 0x5F 3, [([.lit "obj" (2 ^ 32)], none), (kindSufs 36, none)], [], [([sD, sA], 0)]⟩,
    ⟨"qpush", 8, asmCode 0x60 0, [], [], [([qX 0 7, sA], 0), ([qX 8 15, vA], 0)]⟩,
    ⟨"qpop", 8, asmCode 0x60 1, [], [], [([sD, qX 0 7], 0), ([vD, qX 8 15], 0)]⟩,
    ⟨"qpeek", 8, asmCode 0x60 2, [], [], [([sD, qX 0 7], 0), ([vD, qX 8 15], 0)]⟩,
    xRow "qstat" 0x60 3 [sD, qX 0 15], plainRow "tokp" 0x61 0 [.reg 'k' 27 0 7], plainRow "tokw" 0x61 1 [.reg 'k' 27 0 7]]

/-- The collective and link commands (R386 to R391, R408 to R413). -/
def exchangeRows : List AsmRow :=
  let words : Slot := .imm 50 6 1 64 1
  let tree := immU 62 2
  let post := immU 50 6
  [eRow "xred" 0x64 0 [(codes 57 ["f32", "i32", "u32"], none), (opSufs 59, none)] [[.lit "bc" (2 ^ 56)]] [([sA, sB, words, tree], 0)],
    eRow "xbcast" 0x64 1 [] [] [([sA, sB, words, tree], 0)], eRow "xtree" 0x64 2 [] [] [([sA, tree], 0)],
    ⟨"xrstat", 8, asmCode 0x64 3, [([.lit "miss" (2 ^ 50)], some 0)], [], [([sD, tree], 0)]⟩,
    eRow "lsend" 0x65 0 [] [[.lit "l" (2 ^ 57)], [.lit "c" (2 ^ 56)]] [([sD, sA, sB, post], 0)],
    eRow "larm" 0x65 1 [] [] [([sD, sA, sB, post], 0)], eRow "larm" 0x65 1 [([.lit "dis" (2 ^ 56)], none)] [] [([sD], 0)],
    eRow "lrecv" 0x65 2 [] [] [([sA, sB, post], 0)],
    ⟨"lctr", 8, asmCode 0x65 3, [(codes 50 ["rd", "wait", "set", "add"], some 0)], [], [([sD, sA, sB], 0)]⟩,
    xRow "lstep" 0x66 0 [sD, sA], ⟨"lstat", 8, asmCode 0x66 1, [(codes 50 ["link", "post"], none)], [], [([sD, sA], 0)]⟩,
    ⟨"lstat", 8, asmCode 0x66 1, [([.lit "trig" (2 * 2 ^ 50)], none)], [], [([sD], 0)]⟩]

/-- The trap and system instructions (R431 to R442). -/
def systemRows : List AsmRow :=
  [plainRow "trap" 0x70 0 [sA, .imm 27 5 0 15 0], plainRow "tret" 0x70 1 [], plainRow "udecl" 0x70 2 [], plainRow "seth" 0x70 3 [sD, sA],
    xRow "csrr" 0x71 0 [sD, .csr], xRow "csrw" 0x71 1 [.csr, sA], plainRow "aset" 0x71 2 [sD, sA, sB], plainRow "tlbi" 0x71 3 [sA, sB]] ++
  fnRows 0x72 [sD, sA, sB] ["ctxsv", "ctxrs", "prq", "wftsp"] ++
  [plainRow "errlog" 0x73 3 [sD, sA], xRow "inj" 0x74 0 [sA, immU 32 4], plainRow "migr" 0x74 1 [sD, sA, sB],
    plainRow "ares" 0x74 2 [sD, sA]]

/-- Every way of writing an instruction. -/
def asmRows : List AsmRow :=
  controlRows ++ scalarRows ++ vectorRows ++ temporalRows ++ tileRows ++ wavefrontRows ++ memoryRows ++ asyncRows ++ syncRows ++
  exchangeRows ++ systemRows

/-- The CSRs by name (R429). -/
def csrNames : List (String × Nat) :=
  [("jobid", 0x000), ("coreid", 0x001), ("cluster", 0x002), ("asid", 0x003), ("dmr", 0x004), ("bib", 0x005), ("bdepth", 0x006),
    ("bprio", 0x007), ("eprio", 0x008), ("wlim", 0x009), ("utvec", 0x00A), ("utrec", 0x00B), ("fflags", 0x00C), ("vtype", 0x00D),
    ("seed", 0x00E), ("twin", 0x00F), ("gsc", 0x010), ("optstep", 0x011), ("cktol", 0x012), ("lodcnt", 0x013), ("xtlim", 0x014),
    ("stvec", 0x100), ("ptroot", 0x101), ("wftspill", 0x102), ("plim", 0x103), ("trcbase", 0x104), ("trclen", 0x105),
    ("errcfg", 0x106), ("leasemax", 0x107), ("rlim", 0x108), ("state", 0x109)]

end Sys2Proof.Machine
end

