-- ==== Sys2Proof/Machine/Links.lean ====
section
/-! DEFINITION. Links (R392 to R413): counters, posts, triggers, sends in their transmit order, arrivals, the global step counter, and
the link instructions. -/
namespace Sys2Proof.Machine

/-! Access paths. -/

def State.link (s : State) (l : Nat) : Link := s.links.toList[l]?.getD Link.reset
def State.setLink (s : State) (l : Nat) (x : Link) : State := { s with links := s.links.setIfInBounds l x }
def Die.ctr (d : Die) (asid : BitVec 13) (n : Nat) : Nat :=
  match d.ctrs.find? fun c => c.asid == asid && c.n == n with
  | some c => c.val
  | none => 0
def Die.setCtr (d : Die) (asid : BitVec 13) (n v : Nat) : Die :=
  let rest := d.ctrs.filter fun c => !(c.asid == asid && c.n == n)
  { d with ctrs := if v = 0 then rest else ⟨asid, n, v⟩ :: rest }
def Die.post (d : Die) (asid : BitVec 13) (n : Nat) : Option Post := d.posts.find? fun p => p.asid == asid && p.n == n
def Die.dropPost (d : Die) (asid : BitVec 13) (n : Nat) : Die :=
  { d with posts := d.posts.filter fun p => !(p.asid == asid && p.n == n) }

/-! The end of a send (R404, R406, R407). -/

/-- A send is acknowledged: its signal acts, on the saved semaphore if the job is saved (R406). -/
def State.endSend (s : State) (x : Send) : State :=
  match x.sem with
  | some n => s.onJob x.jobid fun k => k.signal n.toNat 1
  | none => s

/-- A send fails after execution (R406): pending for the job's XS, or with the supervisor once that has ended. -/
def State.failSend (s : State) (x : Send) (cause : Nat) (addr : Word) (code : Nat) : State :=
  let detail := linkDetail x.pc x.peer.n x.post x.trig true x.peer.link code x.acked
  let f : PendFault := ⟨cause, x.pc, addr, 0, 2, detail, x.slot⟩
  let alive := match s.jobCore x.jobid with
    | some k => (k.strm .xs).used && !(k.strm .xs).ended
    | none => false
  if alive then s.onJob x.jobid fun k => k.setStrm .xs { k.strm .xs with faults := (k.strm .xs).faults ++ [f] }
  else
    let d := dieOf x.core
    let r := { s.mkRecord x.core .xs { f.spec with eng := true } with jobid := x.jobid }
    (s.dieLog d 0x63 x.pc 0 0).postSupervisor d r

/-- A send leaves the list. -/
def State.dropSend (s : State) (x : Send) : State := { s with sends := s.sends.filter fun y => y.ord != x.ord }

/-- A send enters its link's transmit order (R400, R404): with no bytes it is complete at once, over a link that is down it
fails at once (R398). -/
def State.enterSend (s : State) (x : Send) : State :=
  if x.len = 0 then s.endSend x
  else if !(s.link x.peer.link).up then s.failSend x cLINKTIMEOUT 0 0
  else { s with seq := s.seq + 1, sends := s.sends ++ [{ x with ord := s.seq }] }

/-! Counter events and triggers (R400, R401). -/

/-- The send of a trigger. -/
def Trigger.send (t : Trigger) (d : Die) : Send :=
  let x := t.cmd
  let post := match x.code.instr with | .larm f => f.of 0 6 | _ => 0
  { ord := 0, link := 0, core := t.core, jobid := t.jobid, asid := t.asid, pc := x.pc, slot := x.slot, peer := d.peer t.asid (x.sd.toNat % 16)
    post := post, trig := true, pad := false, src := x.sa.toNat, image := none, roff := (x.sb.extractLsb' 32 32).toNat
    len := (x.sb.extractLsb' 0 32).toNat, sent := 0, acked := 0, sem := if x.code.head.se then some x.code.head.ssem else none }

/-- Triggers fire in the order in which they were armed. -/
def State.fire (d : Fin 2) : List Trigger → State → State
  | [], s => s
  | t :: r, s =>
    let x := t.send (s.die d)
    State.fire d r (if x.peer.v then s.enterSend { x with link := x.peer.link } else s.failSend x cPEERERR 0 5)

/-- A counter has taken a value: the waits that it satisfies are granted it, whatever it becomes later (R355); `phys` of such a wait
holds the value that it waits for. -/
def Core.grantCtr (k : Core) (n v : Nat) : Core :=
  let g (w : Wait) : Wait :=
    if w.kind == .link && w.reg && w.obj == n && w.grant.isNone && decide (w.phys ≤ v) then { w with grant := some (BitVec.ofNat 64 v) } else w
  { k with streams := k.streams.map fun (t : Strm) => { t with wait := t.wait.map g } }

/-- The waits of the jobs of an ASID on a die that a counter event satisfies. -/
def State.grantWaits (s : State) (d : Fin 2) (asid : BitVec 13) (n v : Nat) : State :=
  { s with cores := s.cores.mapFinIdx fun c k h =>
      if k.active && dieOf ⟨c, h⟩ == d && k.asid == asid then k.grantCtr n v else k }

/-- A counter event: the counter takes a value, the waits that this satisfies are granted, and the triggers that it allows fire. -/
def State.counterEvent (s : State) (d : Fin 2) (asid : BitVec 13) (n v : Nat) : State :=
  let x := (s.die d).setCtr asid n v
  let due (t : Trigger) : Bool := t.asid == asid && t.ctr == n && decide (t.thr ≤ v)
  State.fire d (x.triggers.filter due)
    ((s.setDie d { x with triggers := x.triggers.filter fun t => !due t }).grantWaits d asid n v)

/-- Saturating sum of a counter (R394). -/
def ctrAdd (a b : Nat) : Nat := min (a + b) 0xFFFFFFFF

/-! Transmission (R396, R403). -/

/-- Bytes of the next message of a send: to the next 4 KiB boundary of its remote extent. -/
def Send.nextLen (x : Send) : Nat := min (4096 - (x.roff + x.sent) % 4096) (x.len - x.sent)

/-- A send's source is read through the XS's translations. -/
def Send.walker (x : Send) : Walker := .strm x.core .xs

/-- Flits of a message (R396): a header, and its bytes in payloads of 128. -/
def LinkMsg.flits (m : LinkMsg) : Nat := 1 + (m.bytes.length + 127) / 128

/-- Flits that a link's retransmit buffer holds (R397). -/
def retransmitFlits : Nat := 512

/-- The source bytes of a message, read in one event: the state, and the bytes or what fails. Poisoned lines read as zero and
leave MEM_UE pending. -/
def State.sendSource (s : State) (x : Send) (n : Nat) : State × Except (Nat × Nat) (List Byte) :=
  match x.image with
  | some bs => (s, .ok ((bs.drop x.sent).take n))
  | none =>
    let log (bad : List (Word × Word)) (space : Nat) (s : State) : State :=
      match bad with
      | [] => s
      | b :: _ =>
        let e (b : Word × Word) : Vector Word 4 := poisonEntry false true .xs space b.1 b.2 x.pc
        let f : PendFault := ⟨cMEMUE, x.pc, b.1, 0, space, (e b).toList, x.slot⟩
        s.onJob x.jobid fun k =>
          let k1 := bad.foldl (fun k b => k.logErr (e b)) k
          k1.setStrm .xs { k1.strm .xs with faults := (k1.strm .xs).faults ++ [f] }
    if x.pad then
      match s.jobCore x.jobid with
      | some k => (log (k.padBad x.core (x.src + x.sent) n) 0 s, .ok (k.padRead (x.src + x.sent) n))
      | none => (s, .ok (List.replicate n 0))
    else
      match s.xlate x.walker x.asid.toNat (userOf x.core) .load (x.src + x.sent : Nat) n with
      | (s1, .error e) => (s1, .error e)
      | (s1, .ok ps) =>
        let bad := s1.badLines ps
        match State.readSeen x.jobid ps s1 with
        | (s2, bs) => (log bad 2 (s2.mark x.walker .load ps), .ok bs)

/-- The next message of a send is transmitted; a source that fails ends the send at it (R403) (DEDUCED, log entry 13). -/
def State.transmit (s : State) (x : Send) : State :=
  let n := x.nextLen
  match s.sendSource x n with
  | (s1, .error e) =>
    let s2 := s1.failSend x e.1 (BitVec.ofNat 64 e.2) 0
    if x.sent = x.acked then s2.dropSend x else
    { s2 with sends := s2.sends.map fun y => if y.ord == x.ord then { y with len := x.sent, sem := none } else y }
  | (s1, .ok bs) =>
    let m : LinkMsg := ⟨s1.chipid.toNat, x.asid.toNat, if x.peer.rdie then 1 else 0, x.peer.rasid.toNat, x.post, x.roff + x.sent, bs, x.roff, x.len⟩
    let l := s1.link x.link
    { s1.setLink x.link { l with wire := l.wire ++ [m], unacked := l.unacked + m.flits, held := 0 } with
      sends := s1.sends.map fun y => if y.ord == x.ord then { y with sent := y.sent + n } else y }

/-- The send whose message a link transmits next. -/
def State.nextSend (s : State) (l : Nat) : Option Send :=
  s.sends.find? fun x => x.link == l && decide (x.sent < x.len)

/-- Is there room in a link's retransmit buffer for the next message of a send (R397)? -/
def Link.room (l : Link) (x : Send) : Bool := decide (l.unacked + 1 + (x.nextLen + 127) / 128 ≤ retransmitFlits)

/-- A slot of the links: each transmits its next message, or not, by a free choice, within a bounded time (R74); with no room in
its retransmit buffer it waits (DEDUCED, log entry 13). -/
def State.linksSlot : List Nat → State → State
  | [], s => s
  | l :: t, s =>
    match s.nextSend l with
    | none => State.linksSlot t s
    | some x =>
      let k := s.link l
      State.linksSlot t (if !k.room x then s
        else if Config.freeBit s.draws || latencyBound ≤ k.held then s.drawn.transmit x
        else s.drawn.setLink l { k with held := k.held + 1 })

/-- The counts of a link for a slot (R398, R399). -/
def Link.tick (l : Link) : Link :=
  { l with idle := if l.unacked = 0 then 0 else l.idle + 1, waited := if l.arrived.isEmpty then 0 else l.waited + 1 }

/-! Acknowledgements (R397, R399). -/

/-- A send as it stands in the list. -/
def State.sendOf (s : State) (ord : Nat) : Option Send := s.sends.find? fun y => y.ord == ord

/-- Groups of flits are acknowledged, in order (R397): `n` flits, or all that the buffer holds where that is 0. -/
def Link.ackFlits (l : Link) (n : Nat) : Link := { l with unacked := if n = 0 then 0 else l.unacked - n, idle := 0 }

/-- Messages leave the front of the wire: the groups of their flits have been acknowledged. -/
def Link.dropWire (l : Link) (n : Nat) : Link :=
  let w := l.wire.drop n
  { l with wire := w, unacked := min l.unacked ((w.map LinkMsg.flits).sum), idle := 0 }

/-- The oldest message of a send on the wire has been performed. -/
def State.ackOne (s : State) (x : Send) : State :=
  let l := s.link x.link
  match l.wire with
  | [] => s
  | m :: _ =>
    let y := { x with acked := x.acked + m.bytes.length }
    let s1 := s.setLink x.link (l.dropWire 1)
    if y.acked < y.len then { s1 with sends := s1.sends.map fun z => if z.ord == x.ord then y else z }
    else (s1.dropSend x).endSend y

/-- Messages of the oldest send of a link performed, each transmitted first where it has not been. -/
def State.ackMany (ord : Nat) : Nat → State → State
  | 0, s => s
  | n + 1, s =>
    match s.sendOf ord with
    | none => s
    | some x =>
      let s1 := if x.sent = x.acked then s.transmit x else s
      match s1.sendOf ord with
      | none => s1
      | some y => State.ackMany ord n (s1.ackOne y)

/-- Messages of a send on the wire. -/
def Send.flights (x : Send) (wire : List LinkMsg) : Nat :=
  ((List.range (wire.length + 1)).find? fun n => (((wire.take n).map (·.bytes.length)).sum) == x.sent - x.acked).getD 0

/-- SEND_ACKNOWLEDGED on link `unit`: with `flag`, groups of `val2` flits are acknowledged (R397), or all of them where that is 0.
Else the peer answers the oldest send: with remote code `val` it refuses it; with none it has performed `val2` of its messages, or
all of them where that is 0 (DEDUCED, log entry 13). -/
def execSendAcknowledged (s : State) : Out :=
  let l := s.ctx.ev.unit
  if l < 12 then
    if s.ctx.ev.flag then .next (s.setLink l ((s.link l).ackFlits s.ctx.ev.val2)) else
    match s.sends.find? fun x => x.link == l with
    | none => .next s
    | some x =>
      let code := s.ctx.ev.val
      if code ≠ 0 then
        let s1 := if x.sent = 0 then s.transmit x else s
        match s1.sendOf x.ord with
        | none => .next s1
        | some y =>
          let k := s1.link l
          let s2 := s1.setLink l (k.dropWire (y.flights k.wire))
          .next ((s2.dropSend y).failSend y cPEERERR 0 code)
      else
        let n := if s.ctx.ev.val2 = 0 then x.len / 4096 + 2 else s.ctx.ev.val2
        .next (State.ackMany x.ord n s)
  else .fault .noSuchUnit

/-- GO_BACK_REPLAY on link `unit`: it is counted (R397). -/
def execGoBackReplay (s : State) : Out :=
  let l := s.ctx.ev.unit
  if l < 12 then
    let k := s.link l
    .next (s.setLink l { k with replays := min (k.replays + 1) 0xFFFFFFFF })
  else .fault .noSuchUnit

/-- The sends of a link fail. -/
def State.failSends : List Send → State → State
  | [], s => s
  | x :: t, s => State.failSends t ((s.dropSend x).failSend x cLINKTIMEOUT 0 0)

/-- The P accesses and stores of a stream, of a saved job too, that await an answer over a link fail (R398, R324). -/
def Strm.linkFails (l clock : Nat) (t : Strm) : Strm :=
  { t with
    peerWait := t.peerWait.map fun w => if w.link = l && clock < w.due then { w with failed := true } else w
    peerStores := t.peerStores.map fun w => if w.link = l && clock < w.due then { w with failed := true } else w }

/-- LINK_DOWN on link `unit` (R398). -/
def execLinkDown (s : State) : Out :=
  let l := s.ctx.ev.unit
  if l < 12 then
    let k := s.link l
    let s1 := s.setLink l { k with up := false, aligned := false, wire := [], unacked := 0, idle := 0, held := 0 }
    let fail (k : Core) : Core := { k with streams := k.streams.map fun (t : Strm) => t.linkFails l s.clock }
    let s2 := { s1 with cores := s1.cores.map fail, saved := s1.saved.map fun (x : Saved) => { x with core := fail x.core } }
    .next (State.failSends (s.sends.filter fun x => x.link == l) s2)
  else .fault .noSuchUnit

/-- Is the module in the Summer state, which is that of both its dies, so that it may belong to a GSC domain (R405, R459)? -/
def State.summer (s : State) : Bool := s.dies.toList.all fun (d : Die) => d.state == 2

/-- LINK_TRAINING of link `unit`: it is up and has learnt the CHIP identity `val`; `flag`: step marks are aligned, which a module
outside the Summer state exchanges with none (R392, R405). -/
def execLinkTraining (s : State) : Out :=
  let l := s.ctx.ev.unit
  if l < 12 then
    let k := s.link l
    .next (s.setLink l { k with up := true, chip := BitVec.ofNat 16 s.ctx.ev.val, aligned := s.ctx.ev.flag && s.summer,
                                     idle := 0, held := 0 })
  else .fault .noSuchUnit

/-! Arrivals (R393, R399). -/

def State.answer (s : State) (r : Reply) : State := { s with outbox := ⟨s.ctx.ev.via, r⟩ :: s.outbox }

/-- Does a die accept a message or access that came over a link (R393)? -/
def Die.accepts (d : Die) (l chip sasid asid : Nat) : Bool :=
  d.peers.any fun p => p.v && p.asid.toNat == asid && p.chip.toNat == chip && p.rasid.toNat == sasid && p.link == l

/-- Bytes of a message in each chunk that it touches. -/
def chunksOf (chunk off n : Nat) : List (Nat × Nat) :=
  if n = 0 then [] else
  (List.range ((off + n - 1) / chunk - off / chunk + 1)).map fun i =>
    let k := off / chunk + i
    (k, min (off + n) ((k + 1) * chunk) - max off (k * chunk))

/-- The byte counts of a post after a message, and how many chunks were counted (R395). -/
def Post.count (p : Post) : List (Nat × Nat) → Post × Nat
  | [] => (p, 0)
  | (k, n) :: t =>
    let old := match p.counts.find? fun c => c.1 == k with | some c => c.2 | none => 0
    let rest := p.counts.filter fun c => c.1 != k
    if old + n < p.chunk then Post.count { p with counts := (k, old + n) :: rest } t
    else
      let r := Post.count { p with counts := rest } t
      (r.1, r.2 + 1)

/-- Chunks counted one after the other. -/
def State.countChunks (d : Fin 2) (asid : BitVec 13) (ctr : Nat) : Nat → State → State
  | 0, s => s
  | n + 1, s =>
    if ((s.die d).grant asid).nctr ≤ ctr then s else
    State.countChunks d asid ctr n (s.counterEvent d asid ctr (ctrAdd ((s.die d).ctr asid ctr) 1))

/-- A message meets its post: none while the post is closed; else the state in which it has been performed or refused, and the
remote code (DEDUCED, log entry 13). -/
def State.perform (s : State) (l : Nat) (m : LinkMsg) : Option (State × Nat) :=
  let d : Fin 2 := ⟨m.rdie % 2, by omega⟩
  let asid := BitVec.ofNat 13 m.asid
  if !(s.die d).accepts l m.chip m.sasid m.asid then some (s, 3) else
  match (s.die d).post asid m.post with
  | none => none
  | some p =>
    if p.len < m.extOff + m.extLen || p.len < m.off + m.bytes.length then some (s, 2) else
    match s.xlate (.die d) m.asid true .store (p.buf + m.off : Nat) m.bytes.length with
    | (s1, .error _) => some (s1, 4)
    | (s1, .ok ps) =>
      let s2 := State.writePieces 0 (s1.mark (.die d) .store ps) ps m.bytes
      let r := p.count (chunksOf p.chunk m.off m.bytes.length)
      let x := (s2.die d).dropPost asid m.post
      some (State.countChunks d asid p.ctr r.2 (s2.setDie d { x with posts := r.1 :: x.posts }), 0)

/-- Is a message a later one of the same send as another (R399)? -/
def sameSend (m n : LinkMsg) : Bool :=
  m.chip == n.chip && m.sasid == n.sasid && m.rdie == n.rdie && m.asid == n.asid && m.post == n.post && m.extOff == n.extOff &&
  m.extLen == n.extLen && decide (m.off < n.off)

/-- The messages that stand at a port proceed as far as they can; those of a send that has been refused go unperformed, whenever
they arrive (R399). -/
def State.drainPort (l : Nat) : Nat → State → State
  | 0, s => s
  | n + 1, s =>
    let k := s.link l
    match k.arrived with
    | [] => s
    | m :: t =>
      if k.refused.any fun x => sameSend x m then State.drainPort l n (s.setLink l { k with arrived := t, waited := 0 }) else
      match s.perform l m with
      | none => s
      | some (s1, 0) =>
        State.drainPort l n ((s1.setLink l { s1.link l with arrived := t, waited := 0, refused := none }).answer (.performed l))
      | some (s1, code) =>
        State.drainPort l n ((s1.setLink l { s1.link l with arrived := t, waited := 0, refused := some m }).answer (.refused l code))

/-- Every port. -/
def State.drainPorts (s : State) : State :=
  (List.range 12).foldl (fun s l => State.drainPort l (s.link l).arrived.length s) s

/-- LINK_MESSAGE_ARRIVAL: a message arrives on link `unit` (R399). -/
def execLinkMessageArrival (s : State) : Out :=
  let l := s.ctx.ev.unit
  if l < 12 then
    match s.ctx.ev.data with
    | .msg m =>
      let k := s.link l
      .next (State.drainPort l (k.arrived.length + 1) (s.setLink l { k with arrived := k.arrived ++ [m] }))
    | .none | .bytes _ | .peer _ | .upset _ | .firmware _ | .config _ | .nonce _ | .object _ _ _ => .next s
  else .fault .noSuchUnit

/-- POST_WAIT_TIMEOUT: the message that has waited at the port of link `unit` has its send refused (R399). -/
def execPostWaitTimeout (s : State) : Out :=
  let l := s.ctx.ev.unit
  if l < 12 then
    let k := s.link l
    match k.arrived with
    | [] => .next s
    | m :: t =>
      let s1 := (s.setLink l { k with arrived := t, waited := 0, refused := some m }).answer (.refused l 1)
      .next (State.drainPort l t.length s1)
  else .fault .noSuchUnit

/-- The new value of an atomic of a peer (R320). -/
def peerAtomic (op ty w old v e : Nat) : Option Nat :=
  match op with
  | 0x50 => some (atomAdd w old v)
  | 0x51 => some (atomFadd ty old v)
  | 0x52 => some (atomMin ty w old v)
  | 0x53 => some (atomMax ty w old v)
  | 0x54 => some (old &&& v)
  | 0x55 => some (old ||| v)
  | 0x56 => some (old ^^^ v)
  | 0x57 => some v
  | 0x58 => if old = e then some v else none
  | _ => some (atomRed ty w old v)

/-- PEER_ACCESS_ARRIVAL: an access in space P arrives on link `unit` and is performed or refused (R298, R315, R393). -/
def execPeerAccessArrival (s : State) : Out :=
  let l := s.ctx.ev.unit
  if l < 12 then
    match s.ctx.ev.data with
    | .peer p =>
      let d : Fin 2 := ⟨p.rdie % 2, by omega⟩
      if !(s.die d).accepts l p.chip p.sasid p.asid then .next (s.answer (.refused l 3)) else
      let acc : Acc := if p.atomic.isSome then .atomic else if p.write.isSome then .store else .load
      let n := match p.write with | some bs => bs.length | none => p.size
      match s.xlate (.die d) p.asid true acc p.va n with
      | (s1, .error _) => .next (s1.answer (.refused l 4))
      | (s1, .ok ps) =>
        let w : Walker := .die d
        match p.write, p.atomic with
        | some bs, _ => .next ((State.writePieces 0 (s1.mark w .store ps) ps bs).answer (.performed l))
        | none, some (op, ty, v, e) =>
          if !(s1.badLines ps).isEmpty then .next (s1.answer (.poisoned l)) else
          let old := s1.readPieces ps
          match peerAtomic op ty (8 * n) (leNat old) v e with
          | some x => .next ((State.writePieces 0 (s1.mark w .atomic ps) ps (leBytes x n)).answer (.data old))
          | none => .next ((s1.mark w .load ps).answer (.data old))
        | none, none =>
          let s2 := s1.mark w .load ps
          let s3 := if (s2.badLines ps).isEmpty then s2 else s2.answer (.poisoned l)
          .next (s3.answer (.data (s2.readClean ps)))
    | .none | .bytes _ | .msg _ | .upset _ | .firmware _ | .config _ | .nonce _ | .object _ _ _ => .next s
  else .fault .noSuchUnit

/-! The global step counter (R405). -/

/-- GSC_STEP: a step boundary. -/
def execGscStep (s : State) : Out := .next { s with gsc := s.gsc + 1, phase := 0 }

/-- Does the module belong to a GSC domain (R405): the Summer state, and a link that is up? -/
def State.inDomain (s : State) : Bool := s.summer && s.links.toList.any fun (l : Link) => l.up

/-- GSC_JOIN: domains join; the largest count among their members is `val`, which a lower count jumps to. With `flag` the step
boundaries of this module align with those of the domain, which stands `val2` slots into its step, and its links exchange step
marks. Nothing joins a module that belongs to no domain (R405, R459) (DEDUCED, log entry 13). -/
def execGscJoin (s : State) : Out :=
  if !s.inDomain then .next s else
  let s1 := { s with gsc := if s.gsc.toNat < s.ctx.ev.val then BitVec.ofNat 64 s.ctx.ev.val else s.gsc }
  .next (if s.ctx.ev.flag then
    { s1 with phase := s.ctx.ev.val2 % s.steplen, links := s1.links.map fun (l : Link) => { l with aligned := l.up } }
  else s1)

/-! Pending faults of the XS (R406). -/

/-- A fault of a link command that is raised at the next link instruction. -/
def linkFault (f : PendFault) : Bool :=
  f.space != 5 && (f.cause == cPEERERR || f.cause == cLINKTIMEOUT || f.cause == cPAGE || f.cause == cPROT)

/-- A link command at the head: the oldest pending fault goes first (DEDUCED, log entry 46). -/
def State.linkCmd (s : State) (i : Instr) (f : E) (more : State → List Word) (body : State → Cmd → CmdRes) : Out :=
  s.command .link i f more fun s x =>
    let c := s.ctx.core
    let t := s.strm c .xs
    match oldestFault (t.faults.filter linkFault) with
    | some y =>
      let s1 := s.setStrm c .xs { t with faults := dropFault y t.faults }
      .busy (s1.deliver c .xs (s1.mkRecord c .xs { y.spec with eng := true }))
    | none => body (s.drainStream c .xs) x

/-- A link instruction of the XS itself: it waits for earlier link commands, then a pending fault goes first
(DEDUCED, log entry 46). -/
def State.linkOwn (s : State) (body : State → Res) : Out :=
  s.issue fun s => if !s.me.linkQ.isEmpty then .drain s else s.raisePending linkFault body

/-! Compression (R402). -/

/-- An exact value converted to a format, saturating (R141). -/
def saturated (f : Fmt) (x : FVal) : Nat :=
  match x with
  | .nan _ _ _ _ _ => f.nanOf x
  | .inf neg => f.signBit neg + f.maxCode
  | .num _ _ _ =>
    let v := x.ex
    if v.n = 0 then f.signBit v.neg else
    let (k, q, _) := f.roundUnb .rne 0 v.n v.e
    if f.exceeds k q then f.signBit (decide (v.n < 0)) + f.maxCode else f.encode (decide (v.n < 0)) k q

/-- One element: the BF16 sent and the residual kept. -/
def compress (x r : Nat) : Nat × Nat :=
  let t := addVal (f32.read x) (f32.read r)
  let q := saturated bf16 t
  let kept := match t with
    | .num _ _ _ => roundVal f32 (addVal t (bf16.read q).negate)
    | .inf _ | .nan _ _ _ _ _ => 0
  (q, kept)

/-- Elements of 4 bytes with the place of each in memory, none in a scratchpad. -/
def wordsAt : List (Option Nat) → List Byte → List (Option Nat × Nat)
  | [], _ => []
  | a :: t, bs => (a, leNat (bs.take 4)) :: wordsAt t (bs.drop 4)

/-- The places of the 4-byte elements of translated pieces. -/
def wordPlaces (ps : List Piece) : List (Option Nat) :=
  ps.flatMap fun p => (List.range (p.len / 4)).map fun j => some (p.pa + 4 * j)

/-- An element as an earlier round of the loop has left it. -/
def latest (done : List (Option Nat × Nat)) (x : Option Nat × Nat) : Nat :=
  match done.find? fun y => x.1.isSome && y.1 == x.1 with
  | some y => y.2
  | none => x.2

/-- A gradient compressed, element by element (R402): the image and the new residuals. A round reads what earlier rounds have
written, where source and residual share memory. -/
def compressAll : List (Option Nat × Nat) → List (Option Nat × Nat) → List (Option Nat × Nat) → List Byte × List Byte
  | x :: src, r :: res, done =>
    let y := compress (latest done x) (latest done r)
    let t := compressAll src res ((r.1, y.2) :: done)
    (leBytes y.1 2 ++ t.1, leBytes y.2 4 ++ t.2)
  | [], _, _ | _, [], _ => ([], [])

/-! The commands. -/

/-- The peer entry that a command names, or PEER_ERR with code 5 (R409). -/
def State.peerOf (s : State) (x : Cmd) (post : Nat) (trig : Bool) : Except TrapSpec Peer :=
  let c := s.ctx.core
  let n := x.sd.toNat % 16
  let p := (s.die (dieOf c)).peer s.me.asid n
  if p.v then .ok p else .error { cause := cPEERERR, detail := linkDetail x.pc n post trig false 0 5 0 }

/-- The send of an executed LSEND. -/
def State.sendNow (s : State) (x : Cmd) (p : Peer) (post : Nat) (pad : Bool) (image : Option (List Byte)) (len : Nat) : State :=
  s.enterSend
    { ord := 0, link := p.link, core := s.ctx.core, jobid := s.me.jobid, asid := s.me.asid, pc := x.pc, slot := x.slot, peer := p, post := post
      trig := false, pad := pad, src := x.sa.toNat, image := image, roff := (x.sb.extractLsb' 32 32).toNat, len := len, sent := 0
      acked := 0, sem := if x.code.head.se then some x.code.head.ssem else none }

/-- The checks on some bytes in G; of no bytes there are none. -/
def State.spanOk (s : State) (acc : Acc) (va n : Nat) : State × Except TrapSpec (List Piece) :=
  if n = 0 then (s, .ok []) else
  match s.xlate s.walker s.me.asid.toNat (userOf s.ctx.core) acc va n with
  | (s1, .error e) => (s1, .error (accFault acc 2 e))
  | (s1, .ok ps) => (s1, .ok ps)

/-- The checks on a source in G: translation with R. -/
def State.sourceOk (s : State) (va n : Nat) : State × Except TrapSpec (List Piece) := s.spanOk .load va n

/-- The checks on a source in the scratchpad or in G (R409), with its pieces in G. -/
def State.sourceCheck (s : State) (pad : Bool) (src len : Nat) : State × Except TrapSpec (List Piece) :=
  let c := s.ctx.core
  if !pad then s.sourceOk src len
  else if len = 0 || s.padOk c c src len then (s, .ok [])
  else (s, .error { cause := cSPRANGE, addr := BitVec.ofNat 64 src, kind := 0, space := 0 })

/-- LSEND.c executes (R402). -/
def State.sendCompressed (s : State) (x : Cmd) (p : Peer) (post : Nat) (pad : Bool) : CmdRes :=
  let c := s.ctx.core
  let len := (x.sb.extractLsb' 0 32).toNat
  let res := x.more[0]?.getD 0
  if pad && s.me.padHeld [((x.sa.toNat : Int), len)] then .busy s else
  match s.sourceCheck pad x.sa.toNat len with
  | (s0, .error t) => .trap s0 t
  | (s0, .ok from_) =>
    match s0.spanOk .atomic res.toNat len with
    | (s1, .error t) => .trap s1 t
    | (s1, .ok dest) =>
      let s2 := (s1.mark s.walker .load from_).mark s.walker .atomic dest
      let got := if pad then (s2, s.me.padRead x.sa.toNat len) else State.readSeen s.me.jobid from_ s2
      match got.1.consume c .xs false (if pad then 0 else 2) x.pc
          (if pad then s.me.padBad c x.sa.toNat len else s2.badLines from_) with
      | (s3, some t) => .trap s3 t
      | (s3, none) =>
        match s3.consume c .xs false 2 x.pc (s2.badLines dest) with
        | (s4, some t) => .trap s4 t
        | (s4, none) =>
          let src := wordsAt (if pad then List.replicate (len / 4) none else wordPlaces from_) got.2
          let r := compressAll src (wordsAt (wordPlaces dest) (s2.readClean dest)) []
          .leave ((State.writePieces s.me.jobid s4 dest r.2).sendNow x p post pad (some r.1) (len / 2))

/-- LSEND (R409). -/
def execLsend (f : E) (s : State) : Out :=
  s.linkCmd (.lsend f) f (fun s => [s.getS (regPlus f.d 1)]) fun s x =>
    let post := f.of 0 6
    let pad := f.of 7 1 == 1
    let src := x.sa.toNat
    let len := (x.sb.extractLsb' 0 32).toNat
    let roff := (x.sb.extractLsb' 32 32).toNat
    let sp := if pad then 0 else 2
    let align (a : Word) : CmdRes := .trap s { cause := cALIGN, addr := a, kind := 0, space := sp }
    match s.peerOf x post false with
    | .error t => .trap s t
    | .ok p =>
      if f.of 6 1 = 1 then
        let res := x.more[0]?.getD 0
        if src % 4 ≠ 0 then align x.sa
        else if res.toNat % 4 ≠ 0 then .trap s { cause := cALIGN, addr := res, kind := 0, space := 2 }
        else if len % 8 ≠ 0 ∨ roff % 4 ≠ 0 then align x.sa
        else s.sendCompressed x p post pad
      else if src % 8 ≠ 0 ∨ len % 8 ≠ 0 ∨ roff % 8 ≠ 0 then align x.sa
      else if pad then
        if s.me.padHeld [((src : Int), len)] then .busy s else
        match s.sourceCheck true src len with
        | (s1, .error t) => .trap s1 t
        | (s1, .ok _) => .leave (s1.sendNow x p post true none len)
      else match s.sourceCheck false src len with
        | (s1, .error t) => .trap s1 t
        | (s1, .ok _) => .leave (s1.sendNow x p post false none len)

/-- LARM (R409, R400). -/
def execLarm (f : E) (s : State) : Out :=
  s.linkCmd (.larm f) f (fun _ => []) fun s x =>
    let c := s.ctx.core
    let src := x.sa.toNat
    let len := (x.sb.extractLsb' 0 32).toNat
    let ctr := (x.sd.extractLsb' 8 8).toNat
    let thr := (x.sd.extractLsb' 32 32).toNat
    let asid := s.me.asid
    match s.peerOf x (f.of 0 6) true with
    | .error t => .trap s t
    | .ok _ =>
      if src % 8 ≠ 0 ∨ len % 8 ≠ 0 ∨ (x.sb.extractLsb' 32 32).toNat % 8 ≠ 0 then
        .trap s { cause := cALIGN, addr := x.sa, kind := 0, space := 2 }
      else match s.sourceOk src len with
        | (s1, .error t) => .trap s1 t
        | (s1, .ok _) =>
          let d := s1.die (dieOf c)
          let g := d.grant asid
          if g.nctr ≤ ctr then .trap s1 { cause := cPROT }
          else if 1024 ≤ d.triggers.length ∨ g.trigq ≤ (d.triggers.filter fun t => t.asid == asid).length then
            .wait s1 .opn 0 0 0 true
          else
            let t : Trigger := ⟨asid, ctr, thr, x, s.me.jobid, c, s1.seq⟩
            let s2 := { s1 with seq := s1.seq + 1 }.setDie (dieOf c) { d with triggers := d.triggers ++ [t] }
            .leave (s2.counterEvent (dieOf c) asid ctr (d.ctr asid ctr))

/-- LARM.dis (R409). -/
def execLarmDis (f : E) (s : State) : Out :=
  s.linkCmd (.larmDis f) f (fun _ => []) fun s x =>
    let d := s.die (dieOf s.ctx.core)
    let ctr := (x.sd.extractLsb' 8 8).toNat
    let asid := s.me.asid
    if (d.grant asid).nctr ≤ ctr then .trap s { cause := cPROT }
    else .done (s.setDie (dieOf s.ctx.core) { d with triggers := d.triggers.filter fun t => !(t.asid == asid && t.ctr == ctr) })

/-- LRECV (R410). -/
def execLrecv (f : E) (s : State) : Out :=
  s.linkCmd (.lrecv f) f (fun _ => []) fun s x =>
    let c := s.ctx.core
    let i := dieOf c
    let asid := s.me.asid
    let n := f.of 0 6
    let len := (x.sb.extractLsb' 0 32).toNat
    let ctr := (x.sb.extractLsb' 32 8).toNat
    let code := (x.sb.extractLsb' 40 4).toNat
    let chunk := 128 * 2 ^ code
    if len = 0 then .done (s.setDie i ((s.die i).dropPost asid n))
    else if ((s.die i).post asid n).isSome then .trap s { cause := cPROT }
    else if 9 < code then .trap s { cause := cILLFIELD, addr := x.sb }
    else if x.sa.toNat % 128 ≠ 0 ∨ len % chunk ≠ 0 then .trap s { cause := cALIGN, addr := x.sa, kind := 1, space := 2 }
    else if ((s.die i).grant asid).nctr ≤ ctr then .trap s { cause := cPROT }
    else match s.xlate s.walker asid.toNat (userOf c) .store x.sa.toNat len with
      | (s1, .error e) => .trap s1 (accFault .store 2 e)
      | (s1, .ok ps) =>
        let s2 := s1.mark s.walker .store ps
        let d := s2.die i
        .done ((s2.setDie i { d with posts := ⟨asid, n, x.sa.toNat, len, chunk, ctr, []⟩ :: d.posts }).drainPorts)

/-! LCTR (R411). -/

/-- The counter that an LCTR names. -/
def State.counter (s : State) (f : E) (go : Nat → Nat → Res) : Res :=
  let n := (s.getS f.b).toNat % 256
  let d := s.die (dieOf s.ctx.core)
  if (d.grant s.me.asid).nctr ≤ n then .trap s { cause := cPROT } else go n (d.ctr s.me.asid n)

/-- LCTR, read. -/
def execLctrRd (f : E) (s : State) : Out :=
  s.linkOwn fun s => s.counter f fun _ v => .done (s.arriveS f.d (BitVec.ofNat 64 v))

/-- LCTR, wait. -/
def execLctrWait (f : E) (s : State) : Out :=
  s.linkOwn fun s => s.counter f fun n v =>
    let thr := (s.getS f.a).toNat % 2 ^ 32
    match s.granted .link with
    | some w => .done (s.arriveS f.d w)
    | none => if thr ≤ v then .done (s.arriveS f.d (BitVec.ofNat 64 v)) else .wait s .link n thr 0 true

/-- A set or add: a release (R403), then the counter event. -/
def State.counterWrite (s : State) (f : E) (new : Nat → Nat → Nat) : Out :=
  s.linkOwn fun s => s.counter f fun n v =>
    let s1 := s.drainStream s.ctx.core s.ctx.strm
    .done ((s1.counterEvent (dieOf s.ctx.core) s.me.asid n (new v ((s.getS f.a).toNat % 2 ^ 32))).arriveS f.d (BitVec.ofNat 64 v))

/-- LCTR, set. -/
def execLctrSet (f : E) (s : State) : Out := s.counterWrite f fun _ v => v
/-- LCTR, add. -/
def execLctrAdd (f : E) (s : State) : Out := s.counterWrite f ctrAdd

/-- LSTEP (R412) (DEDUCED, log entry 46). -/
def execLstep (f : E) (s : State) : Out :=
  s.linkOwn fun s =>
    if (s.getS f.a).toNat ≤ s.gsc.toNat then .done (s.arriveS f.d s.gsc) else Res.open s 0

/-! LSTAT (R413). -/

/-- "LSTAT value". -/
def Link.word (l : Link) : Word :=
  BitVec.ofNat 64 ((if l.up then 1 else 0) + (if l.up && l.aligned then 2 else 0) + (if l.up then l.chip.toNat * 2 ^ 16 else 0) +
    l.replays % 2 ^ 32 * 2 ^ 32)
def Post.word (p : Post) : Word :=
  BitVec.ofNat 64 (1 + Nat.log2 (p.chunk / 128) % 16 * 256 + p.ctr % 256 * 2 ^ 16 + p.len % 2 ^ 32 * 2 ^ 32)
def Die.trigWord (d : Die) (asid : BitVec 13) : Word :=
  BitVec.ofNat 64 ((d.triggers.filter fun t => t.asid == asid).length + (1024 - d.triggers.length) * 2 ^ 16)

/-- LSTAT (R413) (DEDUCED, log entry 46). -/
def execLstat (f : E) (s : State) : Out :=
  s.linkOwn fun s =>
    let v := s.getS f.a
    let d := s.die (dieOf s.ctx.core)
    match f.of 0 2 with
    | 0 => if 11 < v.toNat then .trap s { cause := cILLFIELD, addr := v } else .done (s.arriveS f.d (s.link v.toNat).word)
    | 1 =>
      if 63 < v.toNat then .trap s { cause := cILLFIELD, addr := v }
      else .done (s.arriveS f.d (match d.post s.me.asid v.toNat with | some p => p.word | none => 0))
    | _ => .done (s.arriveS f.d (d.trigWord s.me.asid))

/-- Nor is a trigger of it armed or in flight (R112). -/
def State.linksDone (s : State) (c : CoreId) : Bool :=
  let j := (s.core c).jobid
  !(s.sends.any fun x => x.jobid == j) && !((s.die (dieOf c)).triggers.any fun t => t.jobid == j)

end Sys2Proof.Machine
end

