-- ==== Sys2Proof/Machine/Temporal.lean ====
section
/-! DEFINITION. The temporal array (R258 to R274): the race, plane states, the VS's instructions on them, and captures. -/
namespace Sys2Proof.Machine

/-! The race (R260). -/

/-- Delay d[k][j], 255 for NEVER. -/
def Plane.delay (p : Plane) (k j : Nat) : Nat := (p.delays.extractLsb' (8 * (64 * k + j)) 8).toNat

/-- The rise of row k at column j; none for one that never comes. -/
def Plane.rise (p : Plane) (k j : Nat) : Option Nat :=
  let a := (p.launch.extractLsb' (8 * k) 8).toNat
  let d := p.delay k j
  if a = 255 || d = 255 then none else some (a + d)

/-- The first row to rise at a MIN column, the last at a MAX column, the lowest of several; none where the column never
rises. -/
def Plane.column (p : Plane) (j : Nat) : Option (Nat × Nat) :=
  let rows := (List.range 64).map fun k => (p.rise k j, k)
  if p.mode.getLsbD j then
    rows.foldl (fun best r =>
      match best, r.1 with
      | some (t, w), some x => if t < x then some (x, r.2) else some (t, w)
      | _, _ => none) ((p.rise 0 j).map fun t => (t, 0))
  else
    rows.foldl (fun best r =>
      match best, r.1 with
      | some (t, w), some x => if x < t then some (x, r.2) else some (t, w)
      | none, some x => some (x, r.2)
      | b, none => b) none

/-- Times and winners of the window (R260). -/
def Plane.race (p : Plane) : BitVec 512 × BitVec 512 :=
  (List.range 64).foldl (fun r j =>
    let x : Nat × Nat := match p.column j with
      | some (t, w) => if t < p.win then (t, w) else (255, 255)
      | none => (255, 255)
    (r.1 ||| BitVec.ofNat 512 x.1 <<< (8 * j), r.2 ||| BitVec.ofNat 512 x.2 <<< (8 * j))) (0, 0)

/-! Plane states (R263). -/

/-- State codes. -/
def PlaneState.code : PlaneState → Nat
  | .ready => 0 | .running _ _ => 1 | .held false => 2 | .held true => 3
def PlaneState.isRunning : PlaneState → Bool
  | .running _ _ => true
  | .ready | .held _ => false
/-- Will the plane's capture be, or is it, in error (R266)? A mark set while the plane runs counts. -/
def Plane.inError (p : Plane) : Bool :=
  match p.state with
  | .running _ e => e || p.marks != 0
  | .held e => e
  | .ready => false

def Core.planeAt (k : Core) (n : Nat) : Plane := k.planes.toList[n]?.getD Plane.reset
def Core.setPlane (k : Core) (n : Nat) (p : Plane) : Core := { k with planes := k.planes.setIfInBounds n p }

/-- "TASTAT value" (R274). -/
def Core.tastat (k : Core) : Word :=
  BitVec.ofNat 64 ((List.range 16).foldl (fun n p => n + (k.planeAt p).state.code * 4 ^ p) (k.twin.toNat * 2 ^ 32))

/-- The detail of a trap that names planes (R263, R415). -/
def Core.planeDetail (k : Core) (named failed : List Nat) : List Word :=
  let bits (l : List Nat) : Nat := l.foldl (fun n p => n + 2 ^ p) 0
  [k.tastat, BitVec.ofNat 64 (bits named + bits failed * 2 ^ 16)]

/-- A trap that names planes. -/
def State.planeTrap (s : State) (cause : Nat) (named failed : List Nat) : Res :=
  .trap s { cause := cause, detail := s.me.planeDetail named failed }

/-- The stall of "Plane states" while a named plane runs; then the instruction acts. -/
def State.onPlanes (s : State) (named : List Nat) (act : State → State) : Res :=
  if named.any fun n => (s.me.planeAt n).state.isRunning then .stay s else .done (act s)

/-- The planes that TALNCH and TACAP name, each with its quarter (R267). -/
def quarterPlanes (f : RX) : List (Nat × Nat) :=
  ((List.range 4).filter fun q => (f.x.extractLsb' 0 4).getLsbD q).map fun q => (4 * f.xf 4 2 + q, q)

/-! The instructions. -/

/-- A new value of TWIN, or ILL_FIELD (R262). -/
def State.setTwin (s : State) (v : Int) (go : State → Res) : Res :=
  if v < 1 ∨ 255 < v then .trap s { cause := cILLFIELD, addr := BitVec.ofInt 64 v }
  else go (s.setMe { s.me with twin := BitVec.ofInt 8 v })

/-- TAWIN (R268). -/
def execTawin (f : RI) (s : State) : Out :=
  s.issue fun s =>
    let old := s.me.twin
    s.setTwin ((s.getS f.a).toNat + f.imm.toInt) fun s1 => .done (s1.putS 1 f.d (old.setWidth 64))

/-- TAMODE (R269). -/
def execTamode (f : RX) (s : State) : Out :=
  s.issue fun s =>
    let named := if f.xf 4 1 = 1 then List.range 16 else [f.xf 0 4]
    let v := s.getS f.a
    s.onPlanes named fun s => s.setMe (named.foldl (fun k n => k.setPlane n { k.planeAt n with mode := v }) s.me)

/-- TARST (R270). -/
def execTarst (f : RI) (s : State) : Out :=
  s.issue fun s =>
    let named := if f.a = 0 then [f.imm.toNat] else (List.range 16).filter fun p => (s.getS f.a).getLsbD p
    s.onPlanes named fun s => s.setMe (named.foldl (fun k n => k.setPlane n { k.planeAt n with state := .ready }) s.me)

/-- Four rows of delays replaced, and their mark cleared (R271). -/
def Plane.setRows (p : Plane) (g : Nat) (v : VWord) : Plane :=
  let m : BitVec 32768 := BitVec.ofNat 32768 (2 ^ 2048 - 1) <<< (2048 * g)
  { p with
    delays := (p.delays &&& ~~~m) ||| (v.setWidth 32768 <<< (2048 * g))
    marks := p.marks &&& ~~~((1 : BitVec 16) <<< g) }

/-- TADLY (R271). -/
def execTadly (f : RX) (s : State) : Out :=
  s.issue fun s =>
    let named := if f.xf 8 1 = 1 then List.range 16 else [f.xf 0 4]
    let v := s.getV f.a
    s.onPlanes named fun s => s.setMe (named.foldl (fun k n => k.setPlane n ((k.planeAt n).setRows (f.xf 4 4) v)) s.me)

/-- TALNCH (R272, R261). -/
def execTalnch (f : RX) (s : State) : Out :=
  s.issue fun s =>
    let k := s.me
    let ps := quarterPlanes f
    let failed := ps.filter fun p => (k.planeAt p.1).state != .ready
    if !failed.isEmpty then s.planeTrap cTASTATE (ps.map (·.1)) (failed.map (·.1)) else
    let v := s.getV f.a
    let w := k.twin.toNat
    .done (s.setMe (ps.foldl (fun k p =>
      let x := k.planeAt p.1
      k.setPlane p.1 { x with
        launch := v.extractLsb' (512 * p.2) 512, win := w
        state := .running (s.clock + (w + 11) / 4) (x.marks != 0) }) k))

/-- TACAP (R273, R264): it goes on, its destinations interlocked, unless it is known to end in MEM_UE. It takes the results of the planes
that are held, and those of the others at their captures, whatever becomes of the planes then (R263); an upset of a plane that it
already waits for ends it in MEM_UE at that capture (DEDUCED, log entry 62). -/
def execTacap (f : RX) (s : State) : Out :=
  s.issue fun s =>
    let k := s.me
    let ps := (quarterPlanes f).map (·.1)
    let st (n : Nat) : PlaneState := (k.planeAt n).state
    let free := ps.filter fun n => st n == .ready
    if !free.isEmpty then s.planeTrap cTASTATE ps free
    else if ps.any fun n => (k.planeAt n).inError then
      if ps.any fun n => (st n).isRunning then .stay s
      else s.planeTrap cMEMUE ps (ps.filter fun n => (k.planeAt n).inError)
    else
      let got := ((quarterPlanes f).filter fun p => !(st p.1).isRunning).map fun p => (p.2, (k.planeAt p.1).times, (k.planeAt p.1).winners)
      let t : Tacap :=
        ⟨f.xf 4 2, f.x.extractLsb' 0 4, f.d, f.b, f.xf 6 1 == 1, s.clock + 1, got, [], s.str.pc,
          (s.str.mac.map (·.idx)).getD 0, s.str.mac.isSome, false, s.exposed⟩
      .done (s.setMe { k with tacaps := k.tacaps ++ [t] })

/-- TASTAT (R274). -/
def execTastat (f : RRR) (s : State) : Out :=
  s.issue fun s => .done (s.putS 1 f.d s.me.tastat)

/-! Captures (R261, R265). -/

/-- The planes of an outstanding TACAP with their quarters. -/
def Tacap.planes (t : Tacap) : List (Nat × Nat) :=
  ((List.range 4).filter fun q => t.mask.getLsbD q).map fun q => (4 * t.g + q, q)

/-- The quarters that a TACAP writes. -/
def Tacap.dests (t : Tacap) : List (BitVec 5 × Nat) :=
  t.planes.flatMap fun p => (t.d, p.2) :: if t.win then [(t.b, p.2)] else []

/-- Has a TACAP found a plane held, or failed by it? -/
def Tacap.found (t : Tacap) (p : Nat × Nat) : Bool := t.got.any (fun g => g.1 == p.2) || t.bad.any fun b => b.1 == p.1

/-- An outstanding TACAP looks at the planes that it still waits for: it takes the results of one that is held, and is failed by one held
in error, or Ready (R273). -/
def Core.look (k : Core) (t : Tacap) : Tacap :=
  t.planes.foldl (fun t p =>
    if t.found p then t else
    let x := k.planeAt p.1
    match x.state with
    | .running _ _ => t
    | .held false => { t with got := t.got ++ [(p.2, x.times, x.winners)] }
    | .held true => { t with bad := t.bad ++ [(p.1, false)] }
    | .ready => { t with bad := t.bad ++ [(p.1, true)] }) t

/-- Quarters of a vector register replaced. -/
def putQuarters (v : VWord) (qs : List (Nat × BitVec 512)) : VWord :=
  qs.foldl (fun v q =>
    let m : VWord := BitVec.ofNat 2048 (2 ^ 512 - 1) <<< (512 * q.1)
    merge v ((q.2.setWidth 2048 : VWord) <<< (512 * q.1)) m) v

/-- A TACAP writes both its destinations. -/
def Core.capture (k : Core) (t : Tacap) : Core :=
  let put (k : Core) (d : BitVec 5) (qs : List (Nat × BitVec 512)) : Core :=
    { k with v := k.v.set d.toFin (putQuarters k.v[d.toFin] qs) }
  let k1 := put k t.d (t.got.map fun g => (g.1, g.2.1))
  if t.win then put k1 t.b (t.got.map fun g => (g.1, g.2.2)) else k1

/-- The outstanding TACAPs that can write do so, in issue order; in a scoreboard block none before an older one of its destinations. Answers
those too that fail, which stand trapped and will begin again. -/
def Core.captures (slot : Nat) : List Tacap → Core → Core × List Tacap
  | [], k => (k, [])
  | t0 :: r, k =>
    let t := k.look t0
    let keep (t : Tacap) : Core := { k with tacaps := k.tacaps ++ [t] }
    if t0.trapped then Core.captures slot r (keep t0)
    else if slot < t.due || !(t.planes.all t.found) then Core.captures slot r (keep t)
    else if !t.bad.isEmpty then
      match Core.captures slot r (keep { t with trapped := true, got := [], bad := [] }) with
      | (k1, fs) => (k1, t :: fs)
    else if !t.lm && k.tacaps.any (fun u => t.dests.any u.dests.contains) then Core.captures slot r (keep t)
    else Core.captures slot r (k.capture t)

/-- The trap of a TACAP that fails at a capture (R263, R273): TA_STATE for a plane that was Ready, else MEM_UE. -/
def State.raiseTacap (s : State) (c : CoreId) (t : Tacap) : State :=
  let cause := if t.bad.any (·.2) then cTASTATE else cMEMUE
  let failed := (t.bad.filter fun b => b.2 == (cause == cTASTATE)).map (·.1)
  s.deliver c .vs (s.mkRecord c .vs
    { cause := cause, pc := some t.pc, own := true, midx := t.midx, inmac := t.inmac
      detail := (s.core c).planeDetail (t.planes.map (·.1)) failed })

/-- PLANE_CAPTURE: plane `sub` of core `unit` is captured at its slot (R261); 16 names none. The TACAPs that it was holding back
write, or trap. -/
def execPlaneCapture (s : State) : Out :=
  if h : s.ctx.ev.unit < 136 then
    let c : CoreId := ⟨s.ctx.ev.unit, h⟩
    let k := s.core c
    let n := s.ctx.ev.sub
    let p := k.planeAt n
    let k1 := match p.state with
      | .running due e =>
        if due ≤ s.clock then
          let r := p.race
          k.setPlane n { p with state := .held (e || p.marks != 0), times := r.1, winners := r.2 }
        else k
      | .ready | .held _ => k
    match Core.captures s.clock k1.tacaps { k1 with tacaps := [] } with
    | (k2, fs) => .next (fs.foldl (fun s t => s.raiseTacap c t) (s.setCore c k2))
  else .fault .noSuchUnit

/-- The captures due in a slot. -/
def Core.captureEvents (k : Core) (c : CoreId) (slot : Nat) : List Event :=
  let ev (n : Nat) : Event := ⟨.planeCapture, { EvArgs.zero with unit := c.val, sub := n }⟩
  let ps := (List.range 16).filter fun n =>
    match (k.planeAt n).state with
    | .running due _ => decide (due ≤ slot)
    | .ready | .held _ => false
  ps.map ev ++ (if k.tacaps.isEmpty then [] else [ev 16])

/-- Is a plane running or a TACAP outstanding that does not stand trapped (R259)? -/
def Core.racing (k : Core) : Bool := k.tacaps.any (fun t => !t.trapped) || (List.range 16).any fun n => (k.planeAt n).state.isRunning

/-- Does an instruction of the VS name a destination of an outstanding TACAP (R264)? -/
def Core.tacapHolds (k : Core) (rs : List (BitVec 5)) : Bool :=
  k.tacaps.any fun t => rs.contains t.d || (t.win && rs.contains t.b)

end Sys2Proof.Machine
end

