-- ==== Sys2Proof/Machine/Wavefront.lean ====
section
/-! DEFINITION. The wavefront instructions (R233 to R257): leases, bank claims, regions, weights, admissions, collections, images. -/
namespace Sys2Proof.Machine

/-! Shared checks. -/

/-- The array of the executing core's cluster. -/
def State.myArr (s : State) : WArray := s.arr (clusterOf s.ctx.core)
def State.setMyArr (s : State) (a : WArray) : State := s.setArr (clusterOf s.ctx.core) a

/-- A trap of an array command that names a region (R415). -/
def regionTrap (cause bank region tag kind : Nat) : TrapSpec := { cause := cause, detail := waveDetail bank region tag kind }

/-- A lease-requiring command (R236): LEASE_REVOKED once after a revocation by force; a request that waits (R223); an open wait
while the array is frozen, but of the commands that run then. -/
def State.withLease (s : State) (frozenToo : Bool) (go : State → CmdRes) : CmdRes :=
  let c := s.ctx.core
  let a := s.myArr
  let held (s : State) : CmdRes := if s.myArr.frozen && !frozenToo then .wait s .opn 0 0 0 true else go s
  if a.forced.contains s.me.jobid then
    .trap (s.setMyArr { a with forced := a.forced.filter (· != s.me.jobid) }) { cause := cLEASEREVOKED }
  else if a.lease = some c then held s
  else if a.unheld then held (s.setMyArr (a.grant c s.clock))
  else .wait (s.requestLease (clusterOf c) c) .lease 0 0 0 true

/-- The claim of a bank against the job's ASID and presented handle (R226). -/
def State.claimed (s : State) (b : Nat) (detail : List Word) : Option TrapSpec :=
  match (s.myArr.bankAt b).claim with
  | none => some { cause := cWFAREGION, detail := detail }
  | some cl => if cl == (s.me.asid, s.me.handle) then none else some { cause := cPROT }

/-- A command that names a region of the current bank (R237). -/
def State.withRegion (s : State) (r tag kind : Nat) (go : Nat → Region → CmdRes) : CmdRes :=
  match s.me.bank with
  | none => .trap s (regionTrap cWFAREGION 0 r tag kind)
  | some b =>
    match s.claimed b (waveDetail b r tag kind) with
    | some t => .trap s t
    | none => go b (s.myArr.region b r)

/-- Do admissions of a region that satisfy a test stand at the edges or in flight? -/
def WArray.has (a : WArray) (b r : Nat) (p : Wave → Bool) : Bool :=
  (a.fwd ++ a.bwd ++ a.flying).any fun w => w.bank == b && w.region == r && p w

/-- A region replaced. -/
def State.putRegion (s : State) (b r : Nat) (g : Region) : State := s.setMyArr (s.myArr.setRegion b r g)

/-! Leases. -/

/-- WLEASE (R245). -/
def execWlease (s : State) : Out :=
  s.command .arr .wlease E.none (fun _ => []) fun s _ =>
    let c := s.ctx.core
    let a := s.myArr
    if a.lease = some c then .done s
    else if a.unheld then .done (s.setMyArr (a.grant c s.clock))
    else .wait (s.requestLease (clusterOf c) c) .lease 0 0 0 true

/-- WRLS (R246). -/
def execWrls (s : State) : Out :=
  s.command .arr .wrls E.none (fun _ => []) fun s _ =>
    let c := s.ctx.core
    let a := s.myArr
    if a.lease ≠ some c then .done s
    else if a.frozen then .wait s .opn 0 0 0 true
    else if (a.fwd ++ a.bwd).any fun w => w.core == c then .busy s
    else .done (s.setMyArr { a with ending := 1 })

/-! Banks. -/

/-- The bank and the handle that WBANK names (R247). -/
def bankOf (x : Cmd) : Nat := x.sa.toNat % 4
def handleOf (x : Cmd) : BitVec 32 := x.sa.extractLsb' 32 32

/-- The current bank and the presented handle (R237). -/
def State.present (s : State) (b : Nat) (h : BitVec 32) : State := s.setMe { s.me with bank := some b, handle := h }

/-- WBANK on a bank whose claim is the job's. -/
def State.ownBank (s : State) (x : Cmd) (go : Nat → CmdRes) : CmdRes :=
  let b := bankOf x
  match (s.myArr.bankAt b).claim with
  | none => .trap s (regionTrap cWFAREGION b 0 0 0)
  | some cl => if cl == (s.me.asid, handleOf x) then go b else .trap s { cause := cPROT }

/-- WBANK, select (R247). -/
def execWbankSel (f : E) (s : State) : Out :=
  s.command .arr (.wbankSel f) f (fun _ => []) fun s x => s.ownBank x fun b => .done (s.present b (handleOf x))

/-- WBANK, claim (R247). -/
def execWbankClaim (f : E) (s : State) : Out :=
  s.command .arr (.wbankClaim f) f (fun _ => []) fun s x =>
    let b := bankOf x
    match (s.myArr.bankAt b).claim with
    | none =>
      let k := { s.myArr.bankAt b with claim := some (s.me.asid, handleOf x), steps := 0 }
      .done ((s.setMyArr (s.myArr.setBank b k)).present b (handleOf x))
    | some cl => if cl == (s.me.asid, handleOf x) then .done (s.present b (handleOf x)) else .trap s { cause := cPROT }

/-- WBANK, release (R247, R226). -/
def execWbankRel (f : E) (s : State) : Out :=
  s.command .arr (.wbankRel f) f (fun _ => []) fun s x =>
    s.ownBank x fun b =>
      let a := s.myArr
      if a.flying.any fun w => w.bank == b && w.open_ then .wait s .opn 0 0 0 true else
      let k := { a.bankAt b with claim := none, regions := Vector.replicate 16 Region.undef }
      let s1 := s.setMyArr (a.setBank b k)
      .done (if s1.me.bank = some b then s1.setMe { s1.me with bank := none } else s1)

/-! Regions. -/

/-- The region that a geometry word describes, as a definition leaves it (R248). -/
def Region.ofWord (v : Word) : Region :=
  { Region.undef with
    state := .defined, row0 := (v.extractLsb' 0 8).toNat, col0 := (v.extractLsb' 8 8).toNat
    rows := (v.extractLsb' 16 8).toNat + 1, cols := (v.extractLsb' 24 8).toNat + 1 }

/-- WREGN, define (R248). -/
def execWregnDef (f : E) (s : State) : Out :=
  s.command .arr (.wregnDef f) f (fun _ => []) fun s x =>
    s.withLease false fun s =>
      let r := f.of 0 4
      s.withRegion r 0 0 fun b old =>
        if s.myArr.has b r fun _ => true then .busy s else
        let g : Region := { Region.ofWord x.sa with fmt := old.fmt }
        let others := (List.range 16).filter fun q => q != r && (s.myArr.region b q).state != .undef
        if decide (256 < g.row0 + g.rows) || decide (256 < g.col0 + g.cols) || others.any (fun q => g.meets (s.myArr.region b q)) then
          .trap s (regionTrap cWFAREGION b r 0 0)
        else .done (s.putRegion b r g)

/-- WREGN, remove (R248). -/
def execWregnRem (f : E) (s : State) : Out :=
  s.command .arr (.wregnRem f) f (fun _ => []) fun s _ =>
    s.withLease false fun s =>
      let r := f.of 0 4
      s.withRegion r 0 0 fun b _ =>
        if s.myArr.has b r fun _ => true then .busy s else .done (s.putRegion b r Region.undef)

/-! Weights (R249). -/

/-- The element type, edge and space of WLDW and WSTW. -/
def weightTy (f : E) : NumTy := NumTy.ofCode (f.of 7 4)
def westEdge (f : E) : Bool := f.of 11 1 == 1
def weightSpace (f : E) : Nat := if f.of 12 2 = 1 then 2 else 0

/-- Bytes of `n` elements of a type, the last one filled up. -/
def packedBytes (w n : Nat) : Nat := (n * w + 7) / 8

/-- The matrix rows in memory: their addresses and bytes. -/
def weightRows (g : Region) (f : E) (ty : NumTy) (x : Cmd) : List (Int × Nat) :=
  let n := g.width
  let (rows, cols) := if westEdge f then (n, g.rows) else (g.rows, n)
  let p := (x.sb.extractLsb' 0 32).toNat
  (List.range rows).map fun i => (((x.sa.toNat + i * p : Nat) : Int), packedBytes ty.width cols)

/-- Misaligned for the element type. -/
def weightAlign (ty : NumTy) (x : Cmd) : Bool :=
  let e := (ty.width + 7) / 8
  x.sa.toNat % e != 0 || (x.sb.extractLsb' 0 32).toNat % e != 0

/-- Matrix element that weight `i` of cell (r, c) is, as row and column in memory. -/
def weightIndex (g : Region) (f : E) (r c i : Nat) : Nat × Nat :=
  let j := perCell g.fmt * c + i
  if westEdge f then (j, r) else (r, j)

/-- The cells that a load gives, from the bytes of its rows. -/
def loadCells (g : Region) (f : E) (ty : NumTy) (version : BitVec 16) (rows : List Nat) : List (Nat × WCell) :=
  let wt := residentTy g.fmt
  (List.range g.rows).flatMap fun r => (List.range g.cols).map fun c =>
    let codes := (List.range (perCell g.fmt)).map fun i =>
      let (m, n) := weightIndex g f r c i
      (ty.convert wt .rne 0 (bitsAt (rows[m]?.getD 0) (ty.width * n) ty.width)).1
    (g.place r c, ⟨packWeights g.fmt codes, 0, version⟩)

/-- The numbers that equal pieces of a byte list hold. -/
def rowNumbers (n : Nat) : Nat → List Byte → List Nat
  | 0, _ => []
  | k + 1, bs => leNat (bs.take n) :: rowNumbers n k (bs.drop n)

/-- A region loaded (R208). -/
def Region.load (g : Region) (fmt : Nat) : Region :=
  { g with state := .loaded, fmt := fmt, stashes := [], records := [], uc := 0, nf := false }

/-- WLDW (R249). -/
def execWldw (f : E) (s : State) : Out :=
  s.command .arr (.wldw f) f (fun _ => []) fun s x =>
    s.withLease false fun s =>
      let c := s.ctx.core
      let r := f.of 0 4
      s.withRegion r 0 0 fun b old =>
        if old.state == .undef then .trap s (regionTrap cWFAREGION b r 0 0)
        else if s.myArr.has b r fun _ => true then .busy s else
        let ty := weightTy f
        let g := old.load (f.of 4 3)
        let sp := weightSpace f
        if weightAlign ty x then .trap s { cause := cALIGN, addr := x.sa, kind := 0, space := sp } else
        let rs := weightRows g f ty x
        match (if sp = 2 then s.loadRanges c .ws false rs else s.loadPad c .ws c 0 rs) with
        | .trap s1 t => .trap s1 t
        | .hold _ => .busy s
        | .ok s1 bs =>
          let rows := rowNumbers (match rs with | q :: _ => q.2 | [] => 0) rs.length bs
          let k := s1.myArr.bankAt b
          let k1 := (loadCells g f ty (x.sb.extractLsb' 32 16) rows).foldl (fun (k : Bank) y => k.setCell y.1 y.2)
            { k with poison := k.poison.filter fun i => !g.covers i }
          .done (s1.setMyArr (s1.myArr.setBank b (k1.setRegion r g)))

/-- The elements that a store writes, in order: row and column in memory, and the code. -/
def storeElems (g : Region) (k : Bank) (f : E) (ty : NumTy) (grad : Bool) : List ((Nat × Nat) × Nat) :=
  (List.range g.rows).flatMap fun r => (List.range g.cols).flatMap fun c =>
    let x := k.cell (g.place r c)
    (List.range (perCell g.fmt)).map fun i =>
      let v := if grad then ((NumTy.flt f32).convert ty .rne 0 x.g.toNat).1
        else ((residentTy g.fmt).convert ty .rne 0 (weightCode g.fmt x.w i)).1
      (weightIndex g f r c i, v)

/-- Memory with one element written; a nibble leaves its neighbour. -/
def putElem (w : Nat) (m : Memory) (row col v : Nat) : Memory :=
  if w < 8 then
    let a := row + col * w / 8
    let lo := col * w % 8
    let old := (m.read a).toNat
    m.write a (BitVec.ofNat 8 (old - bitsAt old lo w * 2 ^ lo + v % 2 ^ w * 2 ^ lo))
  else m.writeN (row + col * w / 8) (leBytes v (w / 8))

/-- The bytes of the rows after a store, from their bytes before it. -/
def storedRows (g : Region) (k : Bank) (f : E) (ty : NumTy) (grad : Bool) (rs : List (Int × Nat)) (old : List Byte) : List Byte :=
  let place : Memory × List Byte := rs.foldl (fun m r => (m.1.writeN r.1.toNat (m.2.take r.2), m.2.drop r.2)) (([] : Memory), old)
  let m := (storeElems g k f ty grad).foldl (fun m e => putElem ty.width m ((rs[e.1.1]?.getD (0, 0)).1.toNat) e.1.2 e.2) place.1
  rs.flatMap fun r => m.readN r.1.toNat r.2

/-- WSTW (R249). -/
def execWstw (f : E) (s : State) : Out :=
  s.command .arr (.wstw f) f (fun _ => []) fun s x =>
    s.withLease false fun s =>
      let c := s.ctx.core
      let r := f.of 0 4
      let grad := f.of 4 1 == 1
      s.withRegion r 0 0 fun b g =>
        if g.state != .loaded || (grad && !hasG g.fmt) then .trap s (regionTrap cWFAREGION b r 0 0)
        else if s.myArr.has b r fun w => w.bFamily || w.isA then .busy s else
        let ty := weightTy f
        let k := s.myArr.bankAt b
        let sp := weightSpace f
        let rs := weightRows g f ty x
        if weightAlign ty x then .trap s { cause := cALIGN, addr := x.sa, kind := 1, space := sp }
        else if sp = 2 then
          match s.xlateAll c s.ctx.strm .store rs with
          | (s1, .error e) => .trap s1 (accFault .store 2 e)
          | (s1, .ok ps) =>
            if k.poison.any g.covers then .trap s1 (regionTrap cMEMUE b r 0 0) else
            let bs := storedRows g k f ty grad rs (s1.readPieces ps)
            .done (State.writePieces s.me.jobid (s1.mark s.walker .store ps) ps bs)
        else if s.me.padHeld rs then .busy s
        else match rs.find? fun q => !s.padOk c c q.1 q.2 with
          | some q => .trap s { cause := cSPRANGE, addr := BitVec.ofInt 64 q.1, kind := 1, space := 0 }
          | none =>
            if k.poison.any g.covers then .trap s (regionTrap cMEMUE b r 0 0) else
            let old := rs.flatMap fun q => s.me.spad.readN q.1.toNat q.2
            .done (s.setMe (s.me.padWriteAll rs (storedRows g k f ty grad rs old)))

/-! Admission (R250). -/

/-- Activation formats (R209). -/
def activation : Nat → Fmt
  | 0 => f32 | 1 => bf16 | 2 => f16 | 3 => e4m3 | _ => e5m2

/-- Input elements widened to FP32. -/
def widenInputs (f : Fmt) (n : Nat) (bs : List Byte) : List (BitVec 32) :=
  (rowNumbers (f.width / 8) n bs).map fun x => BitVec.ofNat 32 ((NumTy.flt f).convert (.flt f32) .rne 0 x).1

/-- A WADMIT whose inputs have been read waits for output room and edge-queue room, with the inputs kept, and enters its edge
queue (R250, R239, R240). -/
def State.enterEdge (s : State) (f : E) (x : Cmd) (b : Nat) (g : Region) (inputs : List (BitVec 32)) : CmdRes :=
  let c := s.ctx.core
  let kind := f.of 8 3
  let a := s.myArr
  let forward := kind == 0 || kind == 4
  let s1 := s.setMe (s.me.mapHead .arr fun (y : Cmd) => { y with stage := 1, acc := inputs })
  if kind ≠ 4 ∧ s.me.outRoom = 0 then .wait s1 .opn 0 0 0 true
  else if 8 ≤ (if forward then a.fwd else a.bwd).length then .busy s1
  else
    let w : Wave :=
      { core := c, jobid := s.me.jobid, cmd := { x with stage := 0, acc := [] }, kind := kind, bank := b, region := f.of 0 4, tag := f.of 4 4
        afmt := f.of 11 3, inputs := inputs, nb := (x.sb.extractLsb' 0 32).toNat, base := x.sb.getLsbD 33
        skip := x.sb.getLsbD 32, entered := s.clock, reg := g, draw := 0, cktol := 0, age := none, uc := 0, bu := false
        range := none, replays := 0, sums := [], runs := [], chk := posZero, mag := posZero, nf := false, failed := false
        restored := false, owed := false }
    let s2 := s.setMyArr (if forward then { a with fwd := a.fwd ++ [w] } else { a with bwd := a.bwd ++ [w] })
    .leave (if kind = 4 then s2 else s2.setMe { s2.me with wroom := s2.me.wroom + 1 })

/-- WADMIT (R250, R239, R240). At the head, an F of the tag that stands in the edge queue counts as a valid stash; R213 judges at
the admission (DEDUCED, log entry 22). -/
def execWadmit (f : E) (s : State) : Out :=
  s.command .arr (.wadmit f) f (fun _ => []) fun s x =>
    s.withLease false fun s =>
      let r := f.of 0 4
      let tag := f.of 4 4
      let kind := f.of 8 3
      s.withRegion r tag kind fun b g =>
        let fmt := activation (f.of 11 3)
        let n := if kind = 0 then g.rows else if kind = 4 then 0 else g.width
        let eb := fmt.width / 8
        let rs : List (Int × Nat) := if kind = 4 then [] else [((x.sa.toNat : Int), n * eb)]
        let coming := s.myArr.fwd.any fun y => y.kind == 0 && y.bank == b && y.region == r && y.tag == tag
        if g.state != .loaded || ((kind == 2 || kind == 3) && !g.stashValid tag && !coming) || ((kind == 3 || kind == 4) && !hasG g.fmt) then
          .trap s (regionTrap cWFAREGION b r tag kind)
        else if x.sa.toNat % eb ≠ 0 then .trap s { cause := cALIGN, addr := x.sa, kind := 0, space := 0 }
        else if x.stage = 1 && x.acc.length == n then s.enterEdge f x b g x.acc
        else match s.loadPad s.ctx.core .ws s.ctx.core 0 rs with
          | .trap s1 t => .trap s1 t
          | .hold _ => .busy s
          | .ok s1 bs => s1.enterEdge f x b g (widenInputs fmt n bs)

/-! Collection (R251, R253). -/

/-- The first entry of a tag and direction, and the buffer without it. -/
def takeOut (tag : Nat) (dir : Bool) : List WOut → Option (WOut × List WOut)
  | [] => none
  | e :: t =>
    if e.tag == tag && e.dir == dir then some (e, t)
    else (takeOut tag dir t).map fun r => (r.1, e :: r.2)

/-- The value of s[D] (R251). -/
def WOut.word (e : WOut) : Word :=
  BitVec.ofNat 64 ((if e.failed then 1 else 0) + (if e.nf then 2 else 0) + e.replays % 4 * 4 + e.tag * 16 + (if e.dir then 256 else 0))

/-- The latency mode of an instruction that the WS executes itself is kept with it: its result lands behind older ones in a scoreboard
block (R94, R234). -/
def State.keepMode (s : State) : List Word := [if s.exposed then 1 else 0]
def Cmd.lm (x : Cmd) : Bool := x.more == [1]

/-- WCOLL (R251): the range of its output takes its place behind the stream's earlier WVERs (R253). -/
def execWcoll (f : E) (s : State) : Out :=
  s.command .out (.wcoll f) f State.keepMode fun s x =>
    let c := s.ctx.core
    let tag := f.of 0 4
    let dir := f.of 4 1 == 1
    let ty := NumTy.ofCode (f.of 5 4)
    if s.me.rngQ.any fun y => decide (y.ord < x.ord) then .busy s else
    match takeOut tag dir s.me.wouts with
    | none => .wait s .opn 0 0 0 true
    | some (e, rest) =>
      let free (s : State) : CmdRes :=
        let k := s.me
        let ranges := (tag, dir, e.range.1, e.range.2) :: k.wranges.filter fun r => !(r.1 == tag && r.2.1 == dir)
        .done ((s.setMe { k with wouts := rest, wranges := ranges }).arriveOwn x.slot x.lm f.d e.word)
      let eb := ty.width / 8
      if e.failed then free s
      else if x.sa.toNat % eb ≠ 0 then .trap s { cause := cALIGN, addr := x.sa, kind := 1, space := 0 }
      else
        let bs := e.vals.flatMap fun v => leBytes ((NumTy.flt f32).convert ty .rne 0 v.toNat).1 eb
        match s.storePad c c 0 [((x.sa.toNat : Int), e.vals.length * eb)] bs with
        | .trap s1 t => .trap s1 t
        | .hold _ => .busy s
        | .ok s1 _ => free s1

/-- "WVER value", range (R253). -/
def Core.verRange (k : Core) (tag : Nat) (dir : Bool) : Word :=
  match k.wranges.find? fun r => r.1 == tag && r.2.1 == dir with
  | none => 0
  | some (_, _, lo, hi) => BitVec.ofNat 64 (lo % 65536 + hi % 65536 * 65536 + 2 ^ 32)

/-- Codes of region states (R253). -/
def RegState.code : RegState → Nat
  | .undef => 0 | .defined => 1 | .loaded => 2 | .poisoned => 3

/-- "WVER value", region (R253). -/
def Region.word (g : Region) : Word :=
  let b (x : Bool) (n : Nat) : Nat := if x then 2 ^ n else 0
  BitVec.ofNat 64 (g.uc.toNat + b g.nf 32 + g.state.code * 2 ^ 33 + g.fmt % 8 * 2 ^ 36 + b g.strict 39 + b g.cks 40)

/-- A WVER stands behind others of its kind: of a range, or of a region (R234). -/
def verEng (f : E) : Eng := if f.of 5 2 = 0 then .rng else .ver

/-- WVER (R253, R234): it takes its value once the stream's earlier WCOLLs have completed. -/
def execWver (f : E) (s : State) : Out :=
  s.command (verEng f) (.wver f) f State.keepMode fun s x =>
    let what := f.of 5 2
    if s.me.outQ.any fun y => decide (y.ord < x.ord) then .busy s
    else if what = 0 then .done (s.arriveOwn x.slot x.lm f.d (s.me.verRange (f.of 0 4) (f.of 4 1 == 1))) else
    let a := s.myArr
    let r := f.of 0 4
    if s.me.arrQ.any (fun y => decide (y.ord < x.ord)) ||
        (a.fwd ++ a.bwd).any (fun w => w.core == s.ctx.core && decide (w.cmd.ord < x.ord)) then .busy s
    else s.withRegion r 0 0 fun b g =>
      let s1 := if what = 2 then s.putRegion b r { g with nf := false } else s
      .done (s1.arriveOwn x.slot x.lm f.d g.word)

/-! Settings. -/

/-- A setting of a Defined or Loaded region (R254, R255). -/
def State.setting (s : State) (f : E) (change : Region → Region) : CmdRes :=
  s.withLease false fun s =>
    let r := f.of 0 4
    s.withRegion r 0 0 fun b g =>
      if g.state == .defined || g.state == .loaded then .done (s.putRegion b r (change g))
      else .trap s (regionTrap cWFAREGION b r 0 0)

/-- WOPT (R254). -/
def execWopt (f : E) (s : State) : Out :=
  s.command .arr (.wopt f) f (fun _ => []) fun s x =>
    s.setting f fun g => { g with
      eta := x.sa.extractLsb' 0 32, gscale := x.sa.extractLsb' 32 32, sr := f.of 4 3 == 4, strict := f.of 7 1 == 1 }

/-- WCKS (R255). -/
def execWcks (f : E) (s : State) : Out :=
  s.command .arr (.wcks f) f (fun _ => []) fun s _ => s.setting f fun g => { g with cks := f.of 4 1 == 1 }

/-! Drains (R252). -/

/-- WDRAIN (R252). -/
def execWdrain (s : State) : Out :=
  s.command .arr .wdrain E.none (fun _ => []) fun s _ =>
    if s.wavesDone s.ctx.core then .done s else .wait s .opn 0 0 0 true

/-- WDRAIN.discard (R252). -/
def execWdrainDiscard (s : State) : Out :=
  s.command .arr .wdrainDiscard E.none (fun _ => []) fun s x =>
    let c := s.ctx.core
    let n := clusterOf c
    let refuse (s : State) : CmdRes := .trap s (regionTrap cWFAREGION 0 0 0 0)
    match s.withLease true (fun s => if s.myArr.frozen then .done s else refuse s) with
    | .done s1 =>
      -- the command leaves first: what returns to its queue then stands at the head
      let s2 := (s1.popCmd c .arr).discardArray n true
      .leave ((s2.setCore c ((s2.core c).setCmds .arr (x :: (s2.core c).cmds .arr))).cmdSignal c x)
    | r => r

/-! Images (R230, R231, R256, R257). -/

/-- Bytes of an image of `nb` banks and `w` wavefronts. -/
def imageLen (nb w : Nat) : Nat := 64 + 795152 * nb + 16 + 2112 * w + 8448
def imgFmt : Nat := 0x00040001
/-- The banks of a mask. -/
def maskBanks (m : Nat) : List Nat := (List.range 4).filter fun b => m.testBit b

/-- Bytes of an image that are given no layout. -/
def freeBytes (ticket off n : Nat) : List Byte := (List.range n).map fun i => Config.imageByte ticket (off + i)

/-- The 64-byte header. -/
def imageHeader (frozen : Bool) (mask len : Nat) : List Byte :=
  leBytes imgFmt 4 ++ leBytes ((if frozen then 1 else 0) + mask % 16 * 2) 4 ++ leBytes len 8 ++ List.replicate 48 0

/-- The claim section of a bank. -/
def claimBytes (k : Bank) : List Byte :=
  let (a, h) := k.claim.getD (0, 0)
  leBytes a.toNat 2 ++ [0, 0] ++ leBytes h.toNat 4 ++ leBytes k.steps.toNat 8

/-- The cells of a bank, row-major. -/
def cellBytes (k : Bank) : List Byte :=
  (List.range 65536).flatMap fun i =>
    let x := k.cell i
    leBytes (x.w.toNat + x.g.toNat * 2 ^ 16 + x.v.toNat * 2 ^ 48) 8

/-- The poison bits of a bank, row-major. -/
def poisonBytes (k : Bank) : List Byte :=
  (List.range 8192).map fun i => BitVec.ofNat 8 ((List.range 8).foldl (fun n j => n + if k.poison.contains (8 * i + j) then 2 ^ j else 0) 0)

/-- The stashes of a bank, by region, tag and row; those that hold no value are without layout. -/
def stashBytes (k : Bank) (ticket off : Nat) : List Byte :=
  (List.range 65536).flatMap fun i =>
    let g := k.region (i / 4096)
    let tag := i / 256 % 16
    let r := i % 256
    if g.state != .undef && g.stashValid tag && decide (r < g.rows) then leBytes (g.stash tag r).toNat 4
    else freeBytes ticket (off + 4 * i) 4

/-- One bank's sections. -/
def bankBytes (k : Bank) (ticket off : Nat) : List Byte :=
  claimBytes k ++ freeBytes ticket (off + 16) 512 ++ cellBytes k ++ poisonBytes k ++
    stashBytes k ticket (off + 16 + 512 + 524288 + 8192)

/-- The whole image (DEDUCED, log entry 27). -/
def ArrImage.bytes (m : ArrImage) (frozen : Bool) (mask : Nat) : List Byte :=
  let nb := m.banks.length
  let w := m.flying.length
  let after := 64 + 795152 * nb
  imageHeader frozen mask (imageLen nb w) ++
    (m.banks.zipIdx.flatMap fun b => bankBytes b.1.2 m.ticket (64 + 795152 * b.2)) ++
    leBytes w 16 ++ freeBytes m.ticket (after + 16) (2112 * w + 8448)

/-- Bytes written over translated pieces as one long store. -/
def State.writeLong (s : State) (job : Word) : List Piece → List Byte → State
  | [], _ => s
  | p :: t, bs =>
    let here := bs.take p.len
    let n := here.length
    let s1 := { s with
      mem := s.mem.splice p.pa here
      poison := s.poison.filter (fun l => !(p.pa <= l && l + 64 <= p.pa + n))
      unpub := s.unpub.map (Unpub.stored p.pa n)
      glog := ⟨s.gpos, p.pa, s.mem.readN p.pa n, job⟩ :: s.glog
      gpos := s.gpos + 1 }
    s1.writeLong job t (bs.drop p.len)

/-- WSAVE (R256) (DEDUCED, log entry 27). -/
def execWsave (f : E) (s : State) : Out :=
  s.command .arr (.wsave f) f (fun _ => []) fun s x =>
    s.withLease true fun s =>
      let c := s.ctx.core
      let a := s.myArr
      let mask := f.of 0 4
      let banks := maskBanks mask
      if x.sa.toNat % 64 ≠ 0 then .trap s { cause := cALIGN, addr := x.sa, kind := 1, space := 2 }
      else match (banks.filterMap fun b => s.claimed b (waveDetail b 0 0 0)).head? with
        | some t => .trap s t
        | none =>
          let named (w : Wave) : Bool := banks.contains w.bank && w.open_
          if !a.frozen && a.flying.any named then
            .busy (s.setMe (s.me.mapHead .arr fun (y : Cmd) => { y with stage := 1 }))
          else
            let m : ArrImage := ⟨s.seq, banks.map fun b => (b, a.bankAt b), a.flying.filter named, a.recent⟩
            let bs := m.bytes a.frozen mask
            match s.xlate s.walker s.me.asid.toNat (userOf c) .store x.sa.toNat bs.length with
            | (s1, .error e) => .trap s1 (accFault .store 2 e)
            | (s1, .ok ps) =>
              let s2 := (s1.mark s.walker .store ps).writeLong s.me.jobid ps bs
              .done { s2 with seq := s2.seq + 1, arrImages := m :: s2.arrImages }

/-- The layoutless bytes of an image agree with a ticket's: for a bank the region section and the stashes without a value
(DEDUCED, log entry 27). -/
def ArrImage.agrees (m : ArrImage) (nb w : Nat) (bs : List Byte) : Bool :=
  let after := 64 + 795152 * nb
  let same (off n : Nat) : Bool := (bs.drop off).take n == freeBytes m.ticket off n
  m.banks.length == nb && m.flying.length == w &&
  ((List.range nb).all fun i => same (64 + 795152 * i + 16) 512) && same (after + 16) (2112 * w + 8448)

/-- Bytes of an image as a number. -/
def fieldAt (bs : List Byte) (off n : Nat) : Nat := leNat ((bs.drop off).take n)

/-- A region as its 32 bytes of an image describe it: their layout is not given, so what they say is a free value of them, within the
bounds of R206 (DEDUCED, log entry 27). The stash values stand in their own section. -/
def imageRegion (bs : List Byte) : Region :=
  let v := Config.imageField bs
  let b (i : Nat) : Bool := v i % 2 == 1
  let tags := (List.range 16).filter fun t => b (16 + t)
  { state := match v 0 % 4 with
      | 0 => .undef
      | 1 => .defined
      | 2 => .loaded
      | _ => .poisoned
    row0 := v 1 % 256, col0 := v 2 % 256, rows := v 3 % (256 - v 1 % 256) + 1, cols := v 4 % (256 - v 2 % 256) + 1
    fmt := v 5 % 5, eta := BitVec.ofNat 32 (v 6), gscale := BitVec.ofNat 32 (v 7), sr := b 8, strict := b 9, cks := b 10, nf := b 11
    stashes := tags.map fun t => (t, []), uc := BitVec.ofNat 32 (v 12)
    records := (tags.filter fun t => b (32 + t)).map fun t => ⟨t, BitVec.ofNat 32 (v (48 + t)), b (64 + t)⟩ }

/-- A wavefront in flight as its 2112 bytes of an image describe it, in the same way; `ord` names it from now on
(DEDUCED, log entry 27). -/
def imageWave (banks : List (Nat × Bank)) (bs : List Byte) (ord : Nat) : Wave :=
  let v := Config.imageField bs
  let w32 (i : Nat) : BitVec 32 := BitVec.ofNat 32 (v i)
  let (b, k) := banks[v 0 % banks.length]?.getD (0, Bank.reset)
  let g := k.region (v 2 % 16)
  let kind := v 1 % 5
  let forward := kind == 0 || kind == 4
  let inputs : Nat := if kind = 0 then g.rows else if kind = 4 then 0 else g.width
  let sums : Nat := if kind = 4 then 0 else if forward then g.width else g.rows
  let code : Code := ⟨Head.zero, .wadmit ⟨0, 0, 0, 0⟩⟩
  let cmd : Cmd :=
    { code := code, pc := BitVec.ofNat 64 (v 12), midx := 0, inmac := false, sa := 0, sb := 0, sd := 0, more := [], slot := 0, checked := true
      unit := false, wait := none, stage := 0, trapped := false, failing := false, ord := ord, timer := 0, limit := 0
      acc := [], next := 0 }
  let w : Wave :=
    { core := 0, jobid := 0, cmd := cmd, kind := kind, bank := b, region := v 2 % 16, tag := v 3 % 16, afmt := v 4 % 5
      inputs := (List.range inputs).map fun i => w32 (1000 + i), nb := 0, base := false, skip := v 6 % 2 == 1, entered := 0, reg := g
      draw := w32 13, cktol := v 14 % 65536, age := none, uc := w32 7, bu := v 8 % 2 == 1
      range := if v 9 % 2 = 1 then some (v 10 % 65536, v 11 % 65536) else none, replays := v 15 % 3
      sums := (List.range sums).map fun i => w32 (3000 + i), runs := (List.range sums).map fun i => val32 (w32 (5000 + i))
      chk := val32 (w32 16), mag := (val32 (w32 17)).abs, nf := v 18 % 2 == 1, failed := v 19 % 2 == 1, restored := true, owed := false }
  { w with age := some (v 5 % (w.last + 1)) }

/-- An image that another array has made: its banks, and what its sections say of regions and wavefronts; its wavefronts are named
from `seq` on (DEDUCED, log entry 27). -/
def ArrImage.ofBytes (bs : List Byte) (banks : List Nat) (w seq : Nat) : ArrImage :=
  let bs0 (off n : Nat) : List Byte := (bs.drop off).take n
  let ks := banks.zipIdx.map fun b =>
    (b.1, { Bank.reset with regions := Vector.ofFn fun (r : Fin 16) => imageRegion (bs0 (64 + 795152 * b.2 + 16 + 32 * r.val) 32) })
  let after := 64 + 795152 * banks.length + 16
  let flying := (List.range w).map fun i => imageWave ks (bs0 (after + 2112 * i) 2112) (seq + i)
  let buffered := Config.imageField (bs0 (after + 2112 * w) 8448)
  ⟨seq, ks, flying, ((flying.zipIdx.filter fun x => buffered x.2 % 2 == 1).map (·.1)).take 8⟩

/-- A bank as an image at an offset gives it; its regions' settings are those of the ticket. -/
def imageBank (bs : List Byte) (off : Nat) (k : Bank) : Bank :=
  let claim := (BitVec.ofNat 13 (fieldAt bs off 2), BitVec.ofNat 32 (fieldAt bs (off + 4) 4))
  let cells := bs.drop (off + 528)
  let cs : List (Nat × WCell) := (rowNumbers 8 65536 cells).zipIdx.filterMap fun v =>
    let x : WCell := ⟨BitVec.ofNat 16 v.1, BitVec.ofNat 32 (v.1 / 2 ^ 16), BitVec.ofNat 16 (v.1 / 2 ^ 48)⟩
    if x = WCell.zero then none else some (v.2, x)
  let ps := ((bs.drop (off + 524816)).take 8192).zipIdx.flatMap fun v =>
    ((List.range 8).filter fun j => v.1.getLsbD j).map fun j => 8 * v.2 + j
  let st := bs.drop (off + 533008)
  let regions := (List.range 16).map fun r =>
    let g := k.region r
    let g1 := { g with stashes := g.stashes.map fun x =>
      (x.1, (rowNumbers 4 g.rows (st.drop (4 * (4096 * r + 256 * x.1)))).map fun v => BitVec.ofNat 32 v) }
    if g1.state != .undef && ps.any g1.covers then { g1 with state := .poisoned } else g1
  { claim := some claim, steps := BitVec.ofNat 64 (fieldAt bs (off + 8) 8), cells := cs, poison := ps
    regions := k.regions.mapIdx fun r g => regions[r]?.getD g }

/-- The wavefronts of an image, given to a core: entries are reserved for the oldest first (R257). -/
def adopt (c : CoreId) (jobid : Word) : Nat → List Wave → List Wave × Nat
  | _, [] => ([], 0)
  | room, w :: t =>
    let need := !w.isA
    let got := need && decide (0 < room)
    let r := adopt c jobid (if got then room - 1 else room) t
    ({ w with core := c, jobid := jobid, restored := true, owed := need && !got } :: r.1, r.2 + if got then 1 else 0)

/-- Ages order the wavefronts of an image, the oldest first. -/
def oldestFirst (l : List Wave) : List Wave := l.mergeSort fun x y => decide (y.age.getD 0 ≤ x.age.getD 0)

/-- An image takes effect (R257) (DEDUCED, log entry 27). -/
def State.restoreArray (s : State) (m : ArrImage) (bs : List Byte) : State :=
  let c := s.ctx.core
  let n := clusterOf c
  let s1 := if s.myArr.frozen then State.failWaves n s.myArr.flying s else s
  let a := s1.myArr
  let a1 := m.banks.zipIdx.foldl (fun (a : WArray) b => a.setBank b.1.1 (imageBank bs (64 + 795152 * b.2) b.1.2)) a
  let r := adopt c s.me.jobid s1.me.outRoom (oldestFirst m.flying)
  let s2 := s1.setMe { s1.me with wroom := s1.me.wroom + r.2 }
  let recent := m.recent.map fun w => { w with core := c, jobid := s.me.jobid }
  s2.setMyArr { a1 with flying := a1.flying ++ r.1, recent := recent, frozen := false }

/-- The checks of WREST on the claims of an image's banks (R257). -/
def State.restClaims (s : State) (bs : List Byte) (banks : List Nat) : Bool :=
  banks.zipIdx.all fun b =>
    let off := 64 + 795152 * b.2
    let asid := BitVec.ofNat 13 (fieldAt bs off 2)
    let handle := BitVec.ofNat 32 (fieldAt bs (off + 4) 4)
    asid == s.me.asid &&
    (match (s.myArr.bankAt b.1).claim with
     | none => true
     | some cl => cl == (asid, handle))

/-- Must WREST wait for wavefronts of the banks that its image names? -/
def State.restWaits (s : State) (va : Nat) : Bool :=
  !s.myArr.frozen &&
  (match s.xlate s.walker s.me.asid.toNat (userOf s.ctx.core) .load va 8 with
   | (_, .error _) => false
   | (s1, .ok ps) =>
     let hd := s1.readPieces ps
     fieldAt hd 0 4 == imgFmt && s.myArr.flying.any fun w => (maskBanks (fieldAt hd 4 4 / 2)).contains w.bank && w.open_)

/-- WREST (R257) (DEDUCED, log entry 27). -/
def execWrest (f : E) (s : State) : Out :=
  s.command .arr (.wrest f) f (fun _ => []) fun s x =>
    s.withLease true fun s =>
      let c := s.ctx.core
      let va := x.sa.toNat
      let image (s : State) : CmdRes := .trap s (regionTrap cWFAIMAGE 0 0 0 0)
      if va % 64 ≠ 0 then .trap s { cause := cALIGN, addr := x.sa, kind := 0, space := 2 }
      else if s.restWaits va then .busy s else
      match s.loadG c .ws false va 64 with
      | .trap s1 t => .trap s1 t
      | .hold _ => .busy s
      | .ok s1 hd =>
        let banks := maskBanks (fieldAt hd 4 4 / 2)
        let nb := banks.length
        if fieldAt hd 0 4 ≠ imgFmt then image s1 else
        match s1.loadG c .ws false (va + 64 + 795152 * nb : Nat) 16 with
        | .trap s2 t => .trap s2 t
        | .hold _ => .busy s
        | .ok s2 cnt =>
          let w := leNat cnt
          let len := imageLen nb w
          if fieldAt hd 8 8 ≠ len then image s2 else
          match s2.loadG c .ws false va len with
          | .trap s3 t => .trap s3 t
          | .hold _ => .busy s
          | .ok s3 bs =>
            if !s3.restClaims bs banks then .trap s3 { cause := cPROT }
            else match s3.arrImages.find? fun m => m.banks.map (·.1) == banks && m.agrees nb w bs with
              | none => .done ({ s3 with seq := s3.seq + w }.restoreArray (ArrImage.ofBytes bs banks w s3.seq) bs)
              | some m => .done (s3.restoreArray m bs)

end Sys2Proof.Machine
end

