-- ==== Sys2Proof/Machine/Jobs.lean ====
section
/-! DEFINITION. The life of a job (R57 to R91): records and headers, dispatch, node boundaries, retirement, the distributor, dispatch
traces, and the instructions that act on them. -/
namespace Sys2Proof.Machine

/-! Records and headers (R57 to R61). -/

/-- A continuation record (R57). -/
structure Rec where
  haddr : Word
  fp : Word
  join : Nat
  flags : BitVec 32
  parent : Word
  deriving DecidableEq, Repr

def leAt (bs : List Byte) (off n : Nat) : Nat := leNat ((bs.drop off).take n)

def Rec.ofBytes (bs : List Byte) : Rec :=
  ⟨BitVec.ofNat 64 (leAt bs 0 8), BitVec.ofNat 64 (leAt bs 8 8), leAt bs 16 4, BitVec.ofNat 32 (leAt bs 20 4),
    BitVec.ofNat 64 (leAt bs 24 8)⟩

/-- "Record flags" (R57). -/
def Rec.prio (r : Rec) : BitVec 3 := r.flags.extractLsb' 0 3
def Rec.traced (r : Rec) : Bool := r.flags.getLsbD 3
def Rec.queue (r : Rec) : Nat := (r.flags.extractLsb' 8 6).toNat
def Rec.die (r : Rec) : Fin 2 := if r.flags.getLsbD 14 then 1 else 0
/-- A malformed record (R57). -/
def Rec.malformed (r : Rec) : Bool :=
  r.flags.extractLsb' 15 17 != 0 || r.flags.extractLsb' 4 4 != 0 || r.haddr.extractLsb' 0 6 != 0 || r.fp.extractLsb' 0 6 != 0

/-- Fields of "Job header" (R59), given the header's 64 bytes. -/
def hdrEntry (h : List Byte) (i : Nat) : Nat := leAt h (4 * i) 4
def hdrQbind (h : List Byte) (n : Nat) : Nat := leAt h (24 + n) 1
def hdrKbind (h : List Byte) (n : Nat) : Nat := leAt h (40 + n) 1
def hdrDmr (h : List Byte) : Word := BitVec.ofNat 64 (leAt h 48 8)
def hdrSplit (h : List Byte) : Nat := leAt h 56 1
def hdrFuse (h : List Byte) : Nat := leAt h 57 1
def hdrFrame (h : List Byte) : Nat := leAt h 60 4

/-- The streams of a binding byte: producer, consumer (R59). -/
def bindProd (b : Nat) : Option StreamId := if b = 0xFF then none else some (StreamId.ofNum (b % 16))
def bindCons (b : Nat) : Option StreamId := if b = 0xFF then none else some (StreamId.ofNum (b / 16))

/-- A binding byte that R61 allows. -/
def bindOk (h : List Byte) (b : Nat) : Bool :=
  b == 0xFF || (b % 16 != b / 16 && decide (b % 16 < 6) && decide (b / 16 < 6) && hdrEntry h (b % 16) != 0 && hdrEntry h (b / 16) != 0)
/-- Suitability of a vector queue's binding (R342). -/
def vectorBindOk (b : Nat) : Bool := b == 0xFF || ((b % 16 == 1 || b % 16 == 3) && b / 16 == 1)

/-- A well-formed header (R61, R342). -/
def headerOk (h : List Byte) : Bool :=
  hdrEntry h 0 != 0 && ((List.range 6).all fun i => hdrEntry h i % 2 == 0) &&
  ((List.range 16).all fun n => bindOk h (hdrQbind h n) && (decide (n < 8) || vectorBindOk (hdrQbind h n))) &&
  ((List.range 8).all fun n => bindOk h (hdrKbind h n)) &&
  decide (hdrSplit h ≤ 6) && decide (hdrFuse h ≤ 2) && leAt h 58 2 == 0 && hdrFrame h % 64 == 0 &&
  decide (hdrFrame h ≤ hdrSplit h * 2 ^ 18) && dmrOk (hdrDmr h)

/-! The distributor's accesses (R58) and status words (R76). -/

/-- HOSTIRQ bit q is set, and with IRQEN the completion interrupt is raised (R447). -/
def Die.raiseIrq (x : Die) (q : Nat) : Die :=
  { x with hostirq := x.hostirq ||| (1 : Word) <<< q, irqs := if x.irqen.getLsbD q then x.irqs + 1 else x.irqs }

/-- A ring that a write of the device could not reach (R69, R76): logged, HOSTIRQ, EN cleared (DEDUCED, log entry 30). -/
def State.ringFault (s : State) (d : Fin 2) (q slot cause : Nat) (w2 va : Word) : State :=
  let s1 := s.dieLog d cause (BitVec.ofNat 64 (q + slot * 65536)) w2 va
  let x := (s1.die d).raiseIrq q
  s1.setDie d (x.setQueue q { x.queue q with en := false })

/-- "Status word" (R76). -/
def statusWord (jobid : Word) (core cause code : Nat) : Word :=
  BitVec.ofNat 64 (jobid.toNat % 2 ^ 32 * 2 ^ 32 + core % 128 * 2 ^ 16 + cause % 256 * 256 + code % 256)

/-- A final code (R76). -/
def finalCode (code : Nat) : Bool := !(code == 0 || code == 1 || code == 8)

/-- Where a record's status goes: its queue, ring slot, address space and status slot's address. -/
structure StatusAt where
  die : Fin 2
  queue : Nat
  slot : Nat
  asid : BitVec 13
  va : Word
  deriving DecidableEq, Repr

/-- A status word written (R76, R447) (DEDUCED, log entry 30). -/
def State.writeStatus (s : State) (a : StatusAt) (w : Word) : State :=
  match s.xlate (.die a.die) a.asid.toNat true .store a.va.toNat 8 with
  | (s1, .error _) => s1.ringFault a.die a.queue a.slot 0x65 w a.va
  | (s1, .ok ps) =>
    let s2 := State.writePieces 0 (s1.mark (.die a.die) .store ps) ps (leBytes w.toNat 8)
    if finalCode (w.toNat % 256) then s2.setDie a.die ((s2.die a.die).raiseIrq a.queue) else s2

/-- Where the status of the record that a job runs goes; `d` is the die of its queue. -/
def Core.statusAt (k : Core) (d : Fin 2) : StatusAt := ⟨d, k.queue, k.slot, k.asid, k.saddr⟩
/-- The die whose selection started a job (R64). -/
def Core.homeDie (k : Core) : Fin 2 := if k.jobid.getLsbD 40 then 1 else 0
/-- A status code of a job; it names the core to which the record was dispatched, wherever the job stands (R76). -/
def State.jobStatus (s : State) (k : Core) (cause code : Nat) : State :=
  s.writeStatus (k.statusAt k.homeDie) (statusWord k.jobid (localOf k.dispatched) cause code)

/-- A read by the distributor, without a trace: what it sees when it examines a ring. -/
def State.peek (s : State) (d : Fin 2) (asid : BitVec 13) (va n : Nat) : State × Option (List Byte) :=
  match s.xlate (.die d) asid.toNat true .load va n with
  | (s1, .error _) => (s1, none)
  | (s1, .ok ps) => (s1, if (s1.badLines ps).isEmpty then some (s1.readPieces ps) else none)

/-- A fetch by the distributor (R62): the bytes, or a fault; poison is logged in the die log (R426). -/
def State.distFetch (s : State) (d : Fin 2) (asid : BitVec 13) (va n : Nat) : State × Option (List Byte) :=
  if n = 0 then (s, some []) else
  match s.xlate (.die d) asid.toNat true .load va n with
  | (s1, .error _) => (s1, none)
  | (s1, .ok ps) =>
    match s1.badLines ps with
    | [] => (s1.mark (.die d) .load ps, some (s1.readPieces ps))
    | l => (l.foldl (fun s x => s.setDie d ((s.die d).logErr (poisonEntry false false .cs 2 x.1 x.2 0))) s1, none)

/-! Enqueue (R69). -/

/-- PRIO of the copy that a job enqueues (DEDUCED, log entry 30). -/
def Core.copyPrio (k : Core) (p : BitVec 3) : BitVec 3 :=
  let low := if k.dprio.toNat < p.toNat then k.dprio else p
  if k.bprio.toNat < k.eprio.toNat && low.toNat < k.eprio.toNat then k.eprio else low

/-- A queue that a job may not enqueue into: disabled, host-fed, or of another ASID. -/
def CQueue.closedTo (q : CQueue) (asid : BitVec 13) : Bool := !q.en || q.src || q.asid != asid
def CQueue.full (q : CQueue) : Bool := decide (2 ^ q.log2cap.toNat ≤ q.held)

/-- The bytes of a record with another PRIO. -/
def withPrio (bs : List Byte) (p : BitVec 3) : List Byte :=
  bs.zipIdx.map fun b => if b.2 = 20 then (b.1 &&& 0xF8) ||| p.setWidth 8 else b.1

/-- The record's bytes are copied into the tail slot of its queue for a job; false when the enqueue is refused
(DEDUCED, log entry 30). -/
def State.enqueueFor (s : State) (k : Core) (bs : List Byte) : State × Bool :=
  let r := Rec.ofBytes bs
  let d := r.die
  let n := r.queue
  let q := (s.die d).queue n
  if q.closedTo k.asid || q.full then (s, false) else
  let slot := q.tail.toNat % 2 ^ q.log2cap.toNat
  let rva := q.base.toNat + 32 * slot
  let sva := q.sbase.toNat + 8 * slot
  match s.xlate (.die d) q.asid.toNat true .store rva 32 with
  | (s1, .error e) => (s1.ringFault d n slot 0x66 0 (BitVec.ofNat 64 e.2), false)
  | (s1, .ok ps) =>
    match s1.xlate (.die d) q.asid.toNat true .store sva 8 with
    | (s2, .error e) => (s2.ringFault d n slot 0x66 0 (BitVec.ofNat 64 e.2), false)
    | (s2, .ok qs) =>
      let s3 := State.writePieces 0 (s2.mark (.die d) .store (ps ++ qs)) ps (withPrio bs (k.copyPrio r.prio))
      let s4 := State.writePieces 0 s3 qs (List.replicate 8 0)
      let x := s4.die d
      (s4.setDie d (x.setQueue n { x.queue n with tail := (x.queue n).tail + 1 }), true)

/-! What a job gives up when it ends (R66, R67, R340). -/

/-- Locks released one after another (DEDUCED, log entry 32). -/
def State.releaseLocks (abandoned : Bool) : List LockHeld → State → State
  | [], s => s
  | h :: t, s => State.releaseLocks abandoned t ((s.dropLock h.phys h.jobid).releaseLock h.jobid h.phys abandoned)

/-- The locks that a job holds. -/
def State.locksOf (s : State) (jobid : Word) : List LockHeld :=
  s.dies.toList.flatMap fun d => d.locks.filter fun h => h.jobid == jobid

/-- A frozen array that a job kept across a save is freed (R229) (DEDUCED, log entry 32). -/
def State.dropKeeper (s : State) (jobid : Word) : State :=
  (List.range 16).foldl (fun s n =>
    if (s.arr n).keeper == some jobid then
      let s1 := s.discardArray n false
      s1.setArr n { s1.arr n with keeper := none }
    else s) s

/-- A job's locks, declarations and kept array. -/
def State.releaseHoldings (s : State) (jobid : Word) (abandoned : Bool) : State :=
  let s1 := State.releaseLocks abandoned (s.locksOf jobid) (s.dropKeeper jobid)
  { s1 with dies := s1.dies.map fun (d : Die) => { d with holds := d.holds.filter fun h => h.jobid != jobid } }

/-- Every wait and registration of a core's job is withdrawn. -/
def Core.dropWaits (k : Core) : Core :=
  { k with streams := k.streams.map fun t => { t with wait := none, expl := none, draining := false, arrived := false } }

/-- What a job on a core holds is given up: host stores delivered, lease, locks, declarations, waits, trees. -/
def State.releaseJob (s : State) (c : CoreId) (abandoned : Bool) : State :=
  let s1 := (s.drainHost c fun _ => true).dropLease c
  let s2 := s1.setCore c (s1.core c).dropWaits
  ((s2.releaseHoldings (s2.core c).jobid abandoned).dropTrees c)

/-- The core becomes idle. -/
def State.idle (s : State) (c : CoreId) : State :=
  let k := s.core c
  s.setCore c { Core.reset with lost := k.lost, freeze := k.freeze, mismatch := k.mismatch }

/-- A job on a core ends without the steps that concern its parent (R67): with code 0x03 and a cause, or 0x09. -/
def State.endJob (s : State) (c : CoreId) (cause code : Nat) : State :=
  ((s.releaseJob c true).jobStatus (s.core c) cause code).idle c

/-- A saved job ends in the same way. -/
def State.endSaved (s : State) (n : Nat) (cause code : Nat) : State :=
  match s.saved[n]? with
  | none => s
  | some x =>
    let s1 := (s.releaseHoldings x.core.jobid true).dropRouters x.origin x.core
    ({ s1 with saved := s1.saved.eraseIdx n }).jobStatus x.core cause code

/-! Retirement (R66). -/

/-- Every used stream has ended and all the job's work is complete. -/
def State.retirable (s : State) (c : CoreId) : Bool :=
  let k := s.core c
  let a := s.arr (clusterOf c)
  k.active && !isSystem c && k.stopped.isNone && k.handler.isNone && k.freeze == 0 &&
  (allStreams.all fun i => !(k.strm i).used || (k.strm i).ended) &&
  (allEngs.all fun e => (k.cmds e).isEmpty) && k.copies.isEmpty && !k.racing && s.sendsDone c &&
  (k.queues.toList.all fun q => q.entries.all (·.arrived)) &&
  ((a.frozen && a.lease == some c) || s.wavesDone c)

/-- The parent's join counter decremented, and the parent enqueued at 0 (R66, R68): the status code that follows. -/
def State.joinParent (s : State) (c : CoreId) : State × Nat :=
  let k := s.core c
  let pv := k.parent
  if pv = 0 then (s, 2) else
  match s.atomCheck c .cs ((pv + 16).toNat : Nat) 4 with
  | (s1, .error t) => (s1.dieLog (dieOf c) 0x67 pv (BitVec.ofNat 64 t.cause) 0, 0x0A)
  | (s1, .ok ps) =>
    let s2 := s1.mark (.strm c .cs) .atomic ps
    let old := leNat (s2.readPieces ps)
    let s3 := State.writePieces k.jobid s2 ps (leBytes (old - 1) 4)
    if old = 0 then (s3, 6)
    else if old ≠ 1 then (s3, 2)
    else
      let refused (s : State) : State × Nat := (s.dieLog (dieOf c) 0x60 pv 0 0, 7)
      match s3.peek (dieOf c) k.asid pv.toNat 32 with
      | (s4, none) => refused s4
      | (s4, some bs) =>
        match s4.enqueueFor (s4.core c) bs with
        | (s5, true) => (s5, 2)
        | (s5, false) => refused s5

/-- A job retires (R66) (DEDUCED, log entry 30). -/
def State.retireJob (s : State) (c : CoreId) : State :=
  match (s.releaseJob c false).joinParent c with
  | (s1, code) => (s1.jobStatus (s1.core c) 0 code).idle c

/-- JOB_RETIREMENT: the job on core `unit` retires, if nothing of it is outstanding. -/
def execJobRetirement (s : State) : Out :=
  if h : s.ctx.ev.unit < 136 then
    let c : CoreId := ⟨s.ctx.ev.unit, h⟩
    .next (if s.retirable c then s.retireJob c else s)
  else .fault .noSuchUnit

/-! Resuming at a node boundary (R72). -/

/-- A stream that starts again at the checkpoint, in the block in which it stood there (R105): what its job's beginning holds but for
the state the node save keeps (R422); the pending faults of its triggered sends stand (R406). s1 is 0 in streams other than the CS
(DESIGN CHOICE, log entry 56). -/
def Strm.restart (t : Strm) (point : Option (Word × Option Block)) (slot gpos : Nat) : Strm :=
  if !t.used then t else
  let blk := point.bind (·.2)
  { Strm.reset with
    used := true, ended := point.isNone, pc := (point.map (·.1)).getD t.pc, blk := blk, taken := blk.isNone, lastLM := blk.map (·.lm)
    wlim := t.wlim, expl := t.expl, horizon := max t.horizon gpos, faults := t.faults.filter linkFault, readyAt := slot }

/-- A job as it resumes at its checkpoint (R72, R140, R259): CS s1 to s7 from the checkpoint; the kept CSRs, the control store,
the trees, the bindings and the collected array outputs as they were (DEDUCED, log entry 29). -/
def Core.nodeRestart (k : Core) (slot gpos : Nat) : Core :=
  let start (i : StreamId) (t : Strm) : Strm := t.restart ((k.checkpoint.pcs[i.num]?).getD none) slot gpos
  let k1 : Core := { Core.reset with
    active := true, lost := k.lost, jobid := k.jobid, asid := k.asid, queue := k.queue, slot := k.slot, dispatched := k.dispatched
    raddr := k.raddr, saddr := k.saddr, fp := k.fp, parent := k.parent, dprio := k.dprio, bprio := k.bprio, eprio := k.eprio, dmr := k.dmr
    bib := k.bib, bdepth := k.bdepth, barPend := k.barPend, utvec := k.utvec, utrec := k.utrec, lodcnt := k.lodcnt
    cktol := k.cktol, xtlim := k.xtlim
    queues := k.queues.map (fun q => { q with entries := [] }), tokens := k.tokens.map (fun q => { q with count := 0 })
    bank := k.bank, handle := k.handle, wouts := k.wouts, wroom := k.wroom, wranges := k.wranges, trees := k.trees
    macros := k.macros, split := k.split, frame := k.frame, fuse := k.fuse, hostBuf := k.hostBuf, log := k.log
    checkpoint := k.checkpoint, request := k.request, mismatch := k.mismatch, freeze := k.freeze
    streams := Vector.ofFn (fun n : Fin 6 => start (StreamId.ofNum n.val) k.streams[n]) }
  let t := k1.strm .cs
  k1.setStrm .cs ((List.range 7).foldl (fun t j => t.putS (BitVec.ofNat 5 (j + 1)) (k.checkpoint.regs[j]?.getD 0)) t)

/-- Declarations about semaphores follow a job to another core, its holdings to another die (R356). -/
def State.moveHoldings (s : State) (jobid : Word) (c : CoreId) : State :=
  let holds := s.dies.toList.flatMap fun d => d.holds.filter fun h => h.jobid == jobid
  let locks := s.locksOf jobid
  let s1 := { s with dies := s.dies.map fun (d : Die) => { d with
    holds := d.holds.filter fun h => h.jobid != jobid
    locks := d.locks.filter fun h => h.jobid != jobid } }
  let x := s1.die (dieOf c)
  s1.setDie (dieOf c) { x with holds := holds.map (fun h => { h with core := c.val }) ++ x.holds, locks := locks ++ x.locks }

/-- A saved lessee of a frozen array takes its lease up again on a core of the cluster (R229). -/
def State.takeKept (s : State) (jobid : Word) (c : CoreId) : State :=
  let n := clusterOf c
  if (s.arr n).keeper == some jobid then s.setArr n { s.arr n with keeper := none, lease := some c } else s

/-- A saved job put on a core: its trees go with it only to the core they were loaded on (R371). -/
def State.place (s : State) (n : Nat) (x : Saved) (k : Core) (c : CoreId) : State :=
  let here := s.core c
  let k1 := { k with
    lost := here.lost, freeze := here.freeze, mismatch := here.mismatch
    trees := if c = x.origin then k.trees else Vector.replicate 4 Tree.reset }
  let s0 := { s with saved := s.saved.eraseIdx n }
  let s1 := ((if c = x.origin then s0 else s0.dropRouters x.origin k).setCore c k1).moveHoldings k.jobid c
  (s1.takeKept k.jobid c).jobStatus k1 0 1

/-! Node boundaries (R70, R71, R422). -/

/-- A stream that is a party to the boundary (R70). -/
def Strm.party (t : Strm) : Bool := t.used && !t.ended

/-- May the boundary of a core's job complete: every party has arrived, and the array is not frozen under the job's lease
(R229)? (DEDUCED, log entry 29). -/
def State.boundaryReady (s : State) (c : CoreId) : Bool :=
  let k := s.core c
  let a := s.arr (clusterOf c)
  (allStreams.any fun i => (k.strm i).party && (k.strm i).arrived) &&
  (allStreams.all fun i => !(k.strm i).party || (k.strm i).arrived) && !(a.frozen && a.lease == some c)

/-- A free slot of a die's node-save pool (R420, R422). -/
def State.freePool (s : State) (d : Fin 2) : Option Nat :=
  let vec := (s.die d).stvec.toNat
  if vec = 0 then none else
  let n := (s.pread8 (vec + 40)).toNat
  (List.range (min n (s.saved.length + 1))).find? fun m => !(s.saved.any fun x => x.node && x.die == d.val && x.place == m)

/-- The job at its checkpoint is saved into a pool slot, whose bytes are not architectural (R422, R424) (DEDUCED, log entry 28). -/
def State.nodeSave (s : State) (c : CoreId) (m : Nat) : State :=
  let d := dieOf c
  let k := { s.core c with request := none }
  let pa := (s.pread8 ((s.die d).stvec.toNat + 32)).toNat + 32768 * m
  let bytes := (List.range 32768).map fun i => Config.imageByte s.seq i
  let s1 : State := if s.physOk pa && s.physOk (pa + 32767) then { s with mem := s.mem.splice pa bytes } else s
  let x : Saved := { node := true, origin := c, place := m, die := d.val, ticket := s.seq, unresolved := false, core := k }
  (({ s1 with seq := s1.seq + 1, saved := s1.saved ++ [x] }).jobStatus k 0 8).idle c

/-- Is a request of a core's job to be withdrawn (R79)? -/
def State.requestOver (s : State) (c : CoreId) (r : Request) : Bool :=
  match r.queue with
  | none => false
  | some n =>
    let q := (s.die (dieOf c)).queue n
    q.held == 0 || q.head.toNat != r.record || decide (r.level ≤ (s.core c).eprio.toNat)

/-- The boundary completes, in one event: every arrived stream moves past its NODE, the checkpoint is recorded, the lease
released, and a pending request saves the job, or, with a full pool, gets no PREEMPT in this slot or later (DEDUCED, log entry 32). `st` is the stall count of the NODE that completes it (DEDUCED, log entry 29). -/
def State.boundary (s : State) (c : CoreId) (st : Nat) : State :=
  let move (t : Strm) : Strm :=
    if t.party && t.arrived then
      { t.advance s.clock 2 (match t.wait with | some w => w.stage | none => st) with arrived := false, expl := none }
    else t
  let k := s.core c
  let k1 := { k with streams := k.streams.map move }
  let cs := k1.strm .cs
  let cp : Checkpoint :=
    { pcs := allStreams.map fun i => if (k1.strm i).party then some ((k1.strm i).pc, (k1.strm i).blk) else none
      regs := (List.range 7).map fun j => cs.s.toList[j + 1]?.getD 0
      used := false }
  let s1 := s.setCore c { k1 with checkpoint := cp }
  let s2 : State := { s1 with dies := s1.dies.map fun (d : Die) => { d with
    locks := d.locks.map fun h => if h.jobid == k.jobid then { h with sinceNode := false } else h } }
  let s3 := s2.dropLease c
  match k.request with
  | none => s3
  | some r =>
    if s3.requestOver c r then s3.setCore c { s3.core c with request := none } else
    match s3.freePool (dieOf c) with
    | some m => s3.nodeSave c m
    | none => if s3.plimReached c then s3.setCore c { s3.core c with request := some { r with spent := true } } else s3

/-- What NODE and RDV wait for beside their engine queues: the races of the VS (R259), the admissions of the WS that still
stand at the edges, the sends of the XS (R406), and at RDV the loads into queues (R83). -/
def State.streamBusy (s : State) (loads : Bool) : Bool :=
  let c := s.ctx.core
  let i := s.ctx.strm
  let a := s.arr (clusterOf c)
  (i == .vs && s.me.racing) ||
  (i == .ws && !(a.frozen && a.lease == some c) && (a.fwd ++ a.bwd).any fun w => w.core == c) ||
  (i == .xs && !s.sendsDone c) ||
  (loads && s.me.queues.toList.any fun q => q.prod == some i && q.entries.any fun e => !e.arrived)

/-- Every engine command that a stream has issued has completed, with its accesses (R112): its copies, its wavefronts, its
sends and triggers. -/
def State.enginesDone (s : State) (c : CoreId) (i : StreamId) : Bool :=
  (s.core c).enginesIdle i && (i != .as || (s.core c).copies.isEmpty) && (i != .ws || s.wavesDone c) &&
  (i != .xs || s.linksDone c)

/-- WAITE (R112): settles, then waits until the stream's engine commands have completed. -/
def execWaite (s : State) : Out :=
  s.issue fun s => s.settled fun s => if s.enginesDone s.ctx.core s.ctx.strm then .done s else .drain s

/-- A stream at its NODE, having arrived (DEDUCED, log entry 29). -/
def State.atNode (s : State) : Res :=
  let c := s.ctx.core
  let st := s.ctx.head.st.toNat
  if s.boundaryReady c then .stay (s.boundary c st)
  else
    let a := s.arr (clusterOf c)
    let all := allStreams.all fun i => !(s.strm c i).party || (s.strm c i).arrived
    if all && s.ctx.strm == .ws && a.frozen && a.lease == some c then .wait s .opn 0 0 st true
    else .wait s .node 0 0 st true

/-- NODE (R84). -/
def execNode (s : State) : Out :=
  s.issue fun s =>
    if s.str.arrived then s.atNode else
    s.settled fun s =>
      if s.streamBusy false then .drain s
      else s.raisePending (fun _ => true) fun s => (s.setStr { s.str with arrived := true, draining := false }).atNode

/-- Waits whose single holder is a stream that has just ended raise DEADLOCK (R344). -/
def State.failEnded (c : CoreId) (i : StreamId) : List Waiter → State → State
  | [], s => s
  | x :: t, s =>
    State.failEnded c i t
      (if s.endedHolder x.core x.w == some (c, i) then
        s.raiseWait x { cause := cDEADLOCK, detail := s.deadlockDetail [x] false true }
       else s)

/-- A system core whose code has come to its RDV is idle again (R420) (DEDUCED, log entry 41). -/
def State.systemDone (s : State) (c : CoreId) : State :=
  if isSystem c then s.setCore c { s.core c with active := false } else s

/-- RDV (R83): the stream ends; it is no longer a party to a boundary (R70), and its registration ends (R368). -/
def execRdv (s : State) : Out :=
  s.issue fun s => s.settled fun s =>
    if s.streamBusy true then .drain s
    else s.raisePending (fun _ => true) fun s =>
      let c := s.ctx.core
      let i := s.ctx.strm
      let s1 := s.setStr { s.str.advance s.clock s.ctx.len s.ctx.head.st.toNat with ended := true, expl := none }
      let s2 := (State.failEnded c i ((s1.core c).waiters c) s1).systemDone c
      .stay (if s2.boundaryReady c then s2.boundary c 0 else s2)

/-! Starting a job (R62 to R64). -/

/-- The initial state of a stream (R64). -/
def startStrm (haddr fp : Word) (entry slot gpos : Nat) : Strm :=
  if entry = 0 then Strm.reset else
  { Strm.reset with used := true, pc := haddr + BitVec.ofNat 64 entry, horizon := gpos, readyAt := slot }.putS 1 fp

/-- The initial state of a job (R64). -/
def startJob (r : Rec) (h : List Byte) (q : CQueue) (jobid : Word) (n slot : Nat) (raddr saddr : Word) (frame : List Byte)
    (c : CoreId) (clock gpos : Nat) : Core :=
  { Core.reset with
    active := true, dispatched := c, jobid := jobid, asid := q.asid, queue := n, slot := slot, raddr := raddr, saddr := saddr, fp := r.fp
    parent := r.parent, dprio := r.prio, bprio := r.prio, eprio := r.prio, dmr := hdrDmr h
    streams := Vector.ofFn (fun i : Fin 6 => startStrm r.haddr r.fp (hdrEntry h i.val) clock gpos)
    queues := Vector.ofFn (fun i : Fin 16 => ⟨bindProd (hdrQbind h i.val), bindCons (hdrQbind h i.val), []⟩)
    tokens := Vector.ofFn (fun i : Fin 8 => ⟨bindProd (hdrKbind h i.val), bindCons (hdrKbind h i.val), 0⟩)
    spad := Memory.splice [] 0 frame, split := hdrSplit h, frame := hdrFrame h, fuse := hdrFuse h
    checkpoint :=
      { pcs := (List.range 6).map (fun i => if hdrEntry h i = 0 then none else some (r.haddr + BitVec.ofNat 64 (hdrEntry h i), none))
        regs := [r.fp, 0, 0, 0, 0, 0, 0], used := false } }

/-- The cores of a core's cluster. -/
def clusterCores (c : CoreId) : List CoreId := allCores.filter fun x => clusterOf x == clusterOf c && !isSystem x
/-- No core of the cluster runs a job. -/
def State.clusterIdle (s : State) (c : CoreId) : Bool := (clusterCores c).all fun x => !(s.core x).active
/-- The number of a core's cluster in its die. -/
def clusterNum (c : CoreId) : Nat := clusterOf c % 8

/-- Fusion is configured when a header asks for it in an idle cluster (R63). -/
def State.configure (s : State) (c : CoreId) (fuse : Nat) : State :=
  if fuse = 0 || !s.clusterIdle c then s else
  let x := s.die (dieOf c)
  let bit : BitVec 8 := 1 <<< clusterNum c
  s.setDie (dieOf c) { x with fused := if fuse = 2 then x.fused ||| bit else x.fused &&& ~~~bit }

/-- Dispatch(q, c) (R62). -/
def State.dispatch (s : State) (d : Fin 2) (n : Nat) (c : CoreId) : State :=
  let x := s.die d
  let q := x.queue n
  let slot := q.head.toNat % 2 ^ q.log2cap.toNat
  let raddr := q.base.toNat + 32 * slot
  let saddr := q.sbase.toNat + 8 * slot
  let jobid := BitVec.ofNat 64 (d.val * 2 ^ 40 + x.selections % 2 ^ 40)
  let at_ : StatusAt := ⟨d, n, slot, q.asid, BitVec.ofNat 64 saddr⟩
  let status (s : State) (code : Nat) : State := s.writeStatus at_ (statusWord jobid (localOf c) 0 code)
  match (s.setDie d (x.setQueue n { q with head := q.head + 1 })).distFetch d q.asid raddr 32 with
  | (s1, none) => status s1 5
  | (s1, some bs) =>
    let r := Rec.ofBytes bs
    if r.malformed then status s1 4 else
    match s1.distFetch d q.asid r.haddr.toNat 64 with
    | (s2, none) => status s2 5
    | (s2, some h) =>
      if !headerOk h then status s2 4 else
      match (s2.configure c (hdrFuse h)).distFetch d q.asid r.fp.toNat (hdrFrame h) with
      | (s3, none) => status s3 5
      | (s3, some frame) =>
        let k := startJob r h q jobid n slot (BitVec.ofNat 64 raddr) (BitVec.ofNat 64 saddr) frame c s3.clock s3.gpos
        let old := s3.core c
        status (s3.setCore c { k with lost := old.lost, freeze := old.freeze, mismatch := old.mismatch }) 1

/-- Does a core serve in its die's present state (R10, R458)? In Spring cluster 0 alone does. -/
def State.inService (s : State) (c : CoreId) : Bool :=
  isSystem c || decide (localOf c < 8) || (s.die (dieOf c)).state == 2

/-- May a core take a job (R10, R63, R428)? -/
def State.coreIdle (s : State) (c : CoreId) : Bool := s.inService c && !(s.core c).active && !(s.core c).lost

/-- DISPATCH: queue `val` of die `unit` is dispatched to core `sub` of the die. -/
def execDispatch (s : State) : Out :=
  let e := s.ctx.ev
  if h : e.unit < 2 ∧ e.sub < 64 ∧ e.val < 64 then
    let d : Fin 2 := ⟨e.unit, h.1⟩
    let c := coreAt d e.sub
    .next (if s.coreIdle c && ((s.die d).queue e.val).held != 0 then s.dispatch d e.val c else s)
  else .fault .noSuchUnit

/-! The distributor (R77 to R79, R82). -/

/-- What the distributor sees at the head of a queue (R63, R77): the record, if it can be read and is well-formed; and the FUSE
of its header, if that too is. -/
structure HeadInfo where
  record : Option Rec
  fuse : Option Nat
  deriving DecidableEq, Repr

def State.headInfo (s : State) (d : Fin 2) (q : CQueue) : State × HeadInfo :=
  if q.held = 0 then (s, ⟨none, none⟩) else
  match s.peek d q.asid (q.base.toNat + 32 * (q.head.toNat % 2 ^ q.log2cap.toNat)) 32 with
  | (s1, none) => (s1, ⟨none, none⟩)
  | (s1, some bs) =>
    let r := Rec.ofBytes bs
    if r.malformed then (s1, ⟨none, none⟩) else
    match s1.peek d q.asid r.haddr.toNat 64 with
    | (s2, none) => (s2, ⟨some r, none⟩)
    | (s2, some h) => (s2, ⟨some r, if headerOk h then some (hdrFuse h) else none⟩)

/-- The head of every queue of a die that takes part in selection. -/
def State.headInfos (d : Fin 2) : List Nat → State → State × List (Nat × HeadInfo)
  | [], s => (s, [])
  | n :: t, s =>
    let q := (s.die d).queue n
    if !q.en then State.headInfos d t s else
    match s.headInfo d q with
    | (s1, h) =>
      match State.headInfos d t s1 with
      | (s2, l) => (s2, (n, h) :: l)

/-- Does the cluster of a core satisfy a FUSE value (R63)? (DEDUCED, log entry 31). -/
def State.fuseFits (s : State) (c : CoreId) (fuse : Nat) : Bool :=
  s.clusterIdle c || fuse == 0 || ((fuse == 2) == (s.die (dieOf c)).fused.getLsbD (clusterNum c))

/-- Is a core eligible (R63, R458)? (DEDUCED, log entry 31). -/
def State.eligible (s : State) (d : Fin 2) (aff : BitVec 64) (fuse i : Nat) : Bool :=
  aff.getLsbD i && s.coreIdle (coreAt d i) && s.fuseFits (coreAt d i) fuse

/-- The lowest eligible core of a die. -/
def State.lowest (s : State) (d : Fin 2) (aff : BitVec 64) (fuse : Nat) : Option Nat :=
  (List.range 64).find? fun i => s.eligible d aff fuse i

/-- The effective level of a queue (R77). -/
def CQueue.level (q : CQueue) (h : HeadInfo) : Nat :=
  let b := match h.record, h.fuse with
    | some r, some _ => max q.qprio.toNat r.prio.toNat
    | _, _ => q.qprio.toNat
  max b (min (b + q.pass.toNat / 4096) 6)

/-- The entries of a trace area (R81). -/
def Trace.entries (t : Trace) : Nat := t.len / 32
/-- A replay still binds (R82). -/
def Trace.binds (t : Trace) : Bool := t.mode == 2 && decide (t.next < t.entries)
/-- Fields of a trace entry (R81). -/
def State.traceEntry (s : State) (t : Trace) : List Byte := s.mem.readN (t.base + 32 * t.next) 32
def entryHaddr (e : List Byte) : Word := BitVec.ofNat 64 (leAt e 0 8)
def entryFp (e : List Byte) : Word := BitVec.ofNat 64 (leAt e 8 8)
def entryQueue (e : List Byte) : Nat := leAt e 20 1 % 64
def entryCore (e : List Byte) : Nat := leAt e 21 1 % 64

/-- A record that the present entry of a replay names. -/
def Rec.matchesEntry (r : Rec) (e : List Byte) : Bool := r.traced && r.haddr == entryHaddr e && r.fp == entryFp e

/-- A candidate of a selection: its queue, level and core, and the saved job that it stands for, if it does. -/
structure Cand where
  queue : Nat
  level : Nat
  core : Nat
  saved : Option Nat
  deriving DecidableEq, Repr

/-- The saved job of a queue, of the die that dispatched it, that is to resume next: the highest EPRIO, among equals the earliest
saved (R422) (DEDUCED, log entry 31). -/
def State.savedFor (s : State) (d : Fin 2) (n : Nat) : Option (Nat × Saved) :=
  (s.saved.zipIdx.filter fun x => x.1.node && x.1.core.homeDie == d && x.1.core.queue == n).foldl (fun best x =>
    match best with
    | none => some (x.2, x.1)
    | some b => if b.2.core.eprio.toNat < x.1.core.eprio.toNat then some (x.2, x.1) else some b) none

/-- The core for the head record of a queue: the lowest eligible; of a traced record while a replay binds, the entry's core
once the decision point has come; of a traced record after a divergence, none. -/
def State.recordCore (s : State) (d : Fin 2) (n : Nat) (q : CQueue) (h : HeadInfo) : Option Nat :=
  let t := (s.die d).trace
  let fuse := h.fuse.getD 0
  match h.record with
  | some r =>
    if r.traced && t.binds then
      let e := s.traceEntry t
      if t.decision.isSome && entryQueue e == n && r.matchesEntry e && s.eligible d q.aff fuse (entryCore e) then some (entryCore e)
      else none
    else if r.traced && t.mode == 3 then none
    else s.lowest d q.aff fuse
  | none => s.lowest d q.aff 0

/-- The candidate that a queue offers (DEDUCED, log entry 31). -/
def State.candOf (s : State) (d : Fin 2) (n : Nat) (h : HeadInfo) : Option Cand :=
  let q := (s.die d).queue n
  match s.savedFor d n with
  | some (m, x) => (s.lowest d q.aff x.core.fuse).map fun c => ⟨n, x.core.eprio.toNat, c, some m⟩
  | none => if q.held = 0 then none else (s.recordCore d n q h).map fun c => ⟨n, q.level h, c, none⟩

/-- The candidate selected (R77): the highest level, then the first queue at or after the pointer. -/
def bestCand (rr : Nat) : List Cand → Option Cand
  | [] => none
  | x :: t =>
    match bestCand rr t with
    | none => some x
    | some y =>
      let dist (c : Cand) : Nat := (c.queue + 64 - rr) % 64
      if y.level < x.level || (y.level == x.level && decide (dist x ≤ dist y)) then some x else some y

/-- The pointer and the ageing counts after a selection (R77). -/
def Die.aged (x : Die) (best : Cand) (cs : List Cand) : Die :=
  let step (x : Die) (c : Cand) : Die :=
    let q := x.queue c.queue
    x.setQueue c.queue { q with pass := if c.queue = best.queue then 0 else if q.pass = 0xFFFF then q.pass else q.pass + 1 }
  { cs.foldl step x with rr := BitVec.ofNat 6 (best.queue + 1) }

/-- A traced dispatch in the trace (R82): the next entry written while recording, or the next entry done while replaying;
recording stops at the first entry that does not fit (DEDUCED, log entries 31 and 65). -/
def State.traceDispatch (s : State) (d : Fin 2) (best : Cand) (r : Rec) : State :=
  let x := s.die d
  let t := x.trace
  if !r.traced then s
  else if t.mode = 1 then
    if t.len < 32 * (t.next + 1) then s.setDie d { x with trace := { t with mode := 0, full := true } }
    else
      let e := leBytes r.haddr.toNat 8 ++ leBytes r.fp.toNat 8 ++ leBytes t.next 4 ++
        [BitVec.ofNat 8 best.queue, BitVec.ofNat 8 best.core] ++ List.replicate 10 0
      (s.pwriteN 0 (t.base + 32 * t.next) e).setDie d { x with trace := { t with next := t.next + 1 } }
  else if t.binds then s.setDie d { x with trace := { t with next := t.next + 1, decision := none } }
  else s

/-- A selection takes effect: a saved job resumes, or the head record is taken and dispatched next (DEDUCED, log entry 31); a traced
record is a traced dispatch though its header then ends it (DESIGN CHOICE, log entry 65). -/
def State.select (s : State) (d : Fin 2) (best : Cand) (h : HeadInfo) : State :=
  match best.saved with
  | some m =>
    match s.saved[m]? with
    | some x =>
      let c := coreAt d best.core
      (s.configure c x.core.fuse).place m x (x.core.nodeRestart s.clock s.gpos) c
    | none => s
  | none =>
    let s1 := match h.record with
      | some r => s.traceDispatch d best r
      | none => s
    let s2 := s1.setDie d { s1.die d with selections := (s1.die d).selections + 1 }
    { s2 with agenda := ⟨.dispatch, { EvArgs.zero with unit := d.val, sub := best.core, val := best.queue }⟩ :: s2.agenda }

/-- Requests that no longer stand are withdrawn. -/
def State.withdrawRequests (s : State) (d : Fin 2) : State :=
  (List.range 64).foldl (fun s i =>
    let c := coreAt d i
    let k := s.core c
    match k.request with
    | some r => if k.active && s.requestOver c r then s.setCore c { k with request := none } else s
    | none => s) s

/-- The job that a queue's request goes to (R79): on a core in AFF, of an EPRIO below the level; the lowest EPRIO, then the
highest JOBID (DEDUCED, log entry 32). -/
def State.requestTarget (s : State) (d : Fin 2) (aff : BitVec 64) (level : Nat) : Option CoreId :=
  (List.range 64).foldl (fun best i =>
    let c := coreAt d i
    let k := s.core c
    if !(k.active && k.stopped.isNone && aff.getLsbD i && decide (k.eprio.toNat < level)) then best else
    match best with
    | none => some c
    | some b =>
      let kb := s.core b
      if k.eprio.toNat < kb.eprio.toNat || (k.eprio == kb.eprio && decide (kb.jobid.toNat < k.jobid.toNat)) then some c else best) none

/-- A queue with a record and no eligible core posts a request (R79) (DEDUCED, log entry 32). -/
def State.postRequest (s : State) (d : Fin 2) (n : Nat) (h : HeadInfo) : State :=
  let q := (s.die d).queue n
  let standing := (List.range 64).any fun i => ((s.core (coreAt d i)).request.bind (·.queue)) == some n
  if q.held = 0 || standing || (s.lowest d q.aff (h.fuse.getD 0)).isSome then s else
  match s.requestTarget d q.aff (q.level h) with
  | none => s
  | some c =>
    let k := s.core c
    if k.request.isSome then s else s.setCore c { k with request := some ⟨some n, 0, q.head.toNat, q.level h, false⟩ }

/-- A replay ends in REPLAY_DIVERGE (R82). -/
def State.diverge (s : State) (d : Fin 2) (h : HeadInfo) : State :=
  let x := s.die d
  let t := x.trace
  let e := s.traceEntry t
  let seen (f : Rec → Word) : Word := match h.record with | some r => f r | none => 0
  let r : TrapRec :=
    { cause := cREPLAYDIVERGE, strm := .cs, precise := true, esc := false, nest := false, recf := false, eng := false, midx := 0
      inmac := false, pc := 0, jobid := 0, addr := 0, kind := 0, space := 0, halted := false, slots := 0, gsc := s.gsc
      core := 64 * d.val, detail := [BitVec.ofNat 64 t.next, entryHaddr e, entryFp e, seen (·.haddr), seen (·.fp)] }
  (s.setDie d { x with trace := { t with mode := 3, div := true, decision := none } }).postSupervisor d r

/-- The decision point of the present entry, when its core is idle (R82) (DEDUCED, log entry 31). -/
def State.decide_ (s : State) (d : Fin 2) : State :=
  let x := s.die d
  let t := x.trace
  if t.binds && t.decision.isNone && s.coreIdle (coreAt d (entryCore (s.traceEntry t))) then
    s.setDie d { x with trace := { t with decision := some s.clock } }
  else s

/-- A traced record that does not match stands at the head of the entry's queue, once the decision point has come (R82)
(DESIGN CHOICE, log entry 55), in a queue that is enabled (DESIGN CHOICE, log entry 65). -/
def State.mismatchHead (s : State) (d : Fin 2) (l : List (Nat × HeadInfo)) : Option HeadInfo :=
  let t := (s.die d).trace
  if !(t.binds && t.decision.isSome) then none else
  let e := s.traceEntry t
  match l.find? fun x => x.1 == entryQueue e with
  | some (_, h) => match h.record with
    | some r => if r.traced && !r.matchesEntry e then some h else none
    | none => none
  | none => none

/-- May the distributor of a die dispatch (R10, R449)? -/
def State.distributes (s : State) (d : Fin 2) : Bool :=
  (s.die d).state != 0 && !((List.range 4).all fun i => (s.core (systemAt d i)).stopped.isSome)

/-- DISTRIBUTOR_SELECTION: one slot of the distributor of die `unit`: withdrawals, the replay's decision point, the selection,
and the requests of the queues that found no core (R77 to R79, R82). -/
def execDistributorSelection (s : State) : Out :=
  if h : s.ctx.ev.unit < 2 then
    let d : Fin 2 := ⟨s.ctx.ev.unit, h⟩
    let s1 := (s.withdrawRequests d).decide_ d
    if !s1.distributes d then .next s1 else
    match State.headInfos d (List.range 64) s1 with
    | (s2, l) =>
      let s3 := match s2.mismatchHead d l with
        | some h => s2.diverge d h
        | none => s2
      let cs := l.filterMap fun x => s3.candOf d x.1 x.2
      let s4 := l.foldl (fun s x => s.postRequest d x.1 x.2) s3
      match bestCand (s3.die d).rr.toNat cs with
      | none => .next s4
      | some b =>
        let info := match l.find? fun x => x.1 == b.queue with
          | some x => x.2
          | none => ⟨none, none⟩
        .next ((s4.setDie d ((s4.die d).aged b cs)).select d b info)
  else .fault .noSuchUnit

/-- Has the distributor of a die anything to do in a slot? -/
def State.distBusy (s : State) (d : Fin 2) : Bool :=
  let x := s.die d
  (x.queues.toList.any fun q => q.en && q.held != 0) || (s.saved.any fun y => y.node && y.core.homeDie == d) ||
  ((List.range 64).any fun i => (s.core (coreAt d i)).request.isSome) || x.trace.binds

/-- Does a record that matches the present entry of a replay stand at the head of its queue (R82)? -/
def State.headMatches (s : State) (d : Fin 2) : Bool :=
  let e := s.traceEntry (s.die d).trace
  match (s.headInfo d ((s.die d).queue (entryQueue e))).2.record with
  | some r => r.matchesEntry e
  | none => false

/-- Is the present entry of a replay past its time with no matching record at the head, or its core outside the queue's AFF (R82)? A
core outside AFF counts before the decision point too (DESIGN CHOICE, log entry 55). -/
def State.replayOver (s : State) (d : Fin 2) : Bool :=
  let x := s.die d
  let t := x.trace
  let e := s.traceEntry t
  t.binds &&
  (!(x.queue (entryQueue e)).aff.getLsbD (entryCore e) ||
   (match t.decision with
    | some n => decide (n + x.rlim.toNat < s.clock) && !s.headMatches d
    | none => false))

/-- REPLAY_DIVERGE: no matching record within RLIM slots of the decision point on die `unit`, or a core that the queue does not
allow (R82). -/
def execReplayDiverge (s : State) : Out :=
  if h : s.ctx.ev.unit < 2 then
    let d : Fin 2 := ⟨s.ctx.ev.unit, h⟩
    if !s.replayOver d then .next s else
    match s.headInfo d ((s.die d).queue (entryQueue (s.traceEntry (s.die d).trace))) with
    | (s1, h) => .next (s1.diverge d h)
  else .fault .noSuchUnit

/-- The distributors' events of a slot. -/
def State.distEvents (s : State) : List Event :=
  (List.finRange 2).flatMap fun d =>
    (if s.distBusy d then [⟨Instr.distributorSelection, { EvArgs.zero with unit := d.val }⟩] else []) ++
    (if s.replayOver d then [⟨Instr.replayDiverge, { EvArgs.zero with unit := d.val }⟩] else [])

/-- The retirements of a slot. -/
def State.retireEvents (s : State) : List Event :=
  (allCores.filter s.retirable).map fun c => ⟨.jobRetirement, { EvArgs.zero with unit := c.val }⟩

/-! The instructions (R85 to R91). -/

/-- CONT (R85). -/
def execCont (f : RRR) (s : State) : Out :=
  s.issue fun s =>
    let c := s.ctx.core
    let va := s.getS f.a
    if va.toNat % 32 ≠ 0 then .trap s (accFault .load 2 (cALIGN, va.toNat))
    else s.fenced 3 fun s =>
      (((s.drainHost c fun _ => true).loadG c s.ctx.strm false va.toNat 32)).res fun s bs =>
        let r := Rec.ofBytes bs
        let prot (s : State) : Res := .trap s (accFault .load 2 (cPROT, va.toNat))
        let q := (s.die r.die).queue r.queue
        if r.malformed || q.closedTo s.me.asid then prot s
        else if r.join ≠ 0 then .done (s.arriveS f.d 1)
        else if q.full then Res.open s 0
        else match s.enqueueFor s.me bs with
          | (s1, true) => .done (s1.arriveS f.d 0)
          | (s1, false) => prot s1

/-- BPRIO clamped to the dispatch priority (R86); EPRIO follows in the next slot (R352). -/
def State.setBprio (s : State) (n : Nat) : State :=
  let k := s.me
  s.setMe { k with bprio := if k.dprio.toNat < n then k.dprio else BitVec.ofNat 3 n }

/-- PRIO (R86). -/
def execPrio (f : RI) (s : State) : Out :=
  s.issue fun s => .done ((s.setBprio f.imm.toNat).putS 1 f.d (s.me.bprio.setWidth 64))

/-- A write of DMR (R87). -/
def State.setDomain (s : State) (v : Word) (go : State → Word → Res) : Res :=
  if s.me.barPend ≠ 0 then Res.open s 0
  else if !dmrOk v then .trap s { cause := cILLFIELD, addr := v }
  else go (s.setMe { s.me with dmr := v, bib := 0 }) s.me.dmr

/-- DOMAIN (R87). -/
def execDomain (f : RRR) (s : State) : Out :=
  s.issue fun s => s.setDomain (s.getS f.a) fun s old => .done (s.arriveS f.d old)

/-- JOINI (R88). -/
def execJoini (f : RX) (s : State) : Out :=
  s.issue fun s =>
    let c := s.ctx.core
    let va := s.getS f.a
    if va.toNat % 32 ≠ 0 then .trap s (accFault .atomic 2 (cALIGN, va.toNat)) else
    match s.atomCheck c s.ctx.strm (va.toNat + 16 : Nat) 4 with
    | (s1, .error t) => .trap s1 t
    | (s1, .ok ps) =>
      let s2 := s1.mark s.walker .atomic ps
      let pa := match ps with | p :: _ => p.pa | [] => 0
      let old := leNat (s2.readPieces ps)
      let new := (old : Int) + f.x.toInt
      if new < 0 ∨ (0xFFFFFFFF : Int) < new then .done (s2.arriveS f.d (BitVec.allOnes 64))
      else
        let write (s : State) : State := State.writePieces s.me.jobid s ps (leBytes new.toNat 4)
        if old = 0 ∨ new ≠ 0 then .done ((write s2).arriveS f.d (BitVec.ofNat 64 old))
        else s2.fenced 3 fun s2 =>
          let s3 := write (s2.drainHost c fun _ => true)
          match s3.enqueueFor s3.me (s3.mem.readN (pa - 16) 32) with
          | (s4, true) => .done (s4.arriveS f.d (BitVec.ofNat 64 old))
          | (s4, false) => .trap s4 (accFault .atomic 2 (cPROT, va.toNat))

/-- SELF (R89). -/
def execSelf (f : RRR) (s : State) : Out := s.issue fun s => .done (s.putS 1 f.d s.me.raddr)

/-- TRCREC and TRCRPL (R90): the mode that they start; an operand of 0 leaves DIV, FULL and NEXT as they were (DESIGN CHOICE, log
entry 55). -/
def State.startTrace (s : State) (f : RRR) (mode : Nat) : Res :=
  let x := s.myDie
  match (s.getS f.a).toNat with
  | 0 => .done (s.setMyDie { x with trace := { x.trace with mode := 0, decision := none } })
  | 1 => .done (s.setMyDie { x with trace := ⟨mode, 0, false, false, x.trcbase.toNat, x.trclen.toNat, none⟩ })
  | _ => .trap s { cause := cILLFIELD, addr := s.getS f.a }

/-- TRCREC (R90). -/
def execTrcrec (f : RRR) (s : State) : Out := s.issue fun s => s.startTrace f 1
/-- TRCRPL (R90). -/
def execTrcrpl (f : RRR) (s : State) : Out := s.issue fun s => s.startTrace f 2

/-- "TRCSTAT value" (R91). -/
def Trace.word (t : Trace) : Word :=
  BitVec.ofNat 64 (t.mode % 4 + (if t.full then 4 else 0) + (if t.div then 8 else 0) + t.next % 2 ^ 32 * 2 ^ 32)

/-- TRCSTAT (R91). -/
def execTrcstat (f : RRR) (s : State) : Out := s.issue fun s => .done (s.arriveS f.d s.myDie.trace.word)

end Sys2Proof.Machine
end

