-- ==== Sys2Proof/Machine/Assembler.lean ====
section
/-! DEFINITION. The assembly of a text in the language of R52 to R56, as Hazel does it for a portable section (R453): the pieces of a line, values
and symbols, instructions with their operands, blocks, jobs and directives, and the object that the text gives. -/
namespace Sys2Proof.Machine

/-! The pieces of a line (R52). -/

/-- A piece of a source line: a run of letters, digits, underscores and full stops, or another character. -/
inductive Tok where
  | word (w : List Char)
  | sym (c : Char)
  deriving DecidableEq, Repr

/-- A line without its comment (R52). -/
def uncomment : List Char → List Char
  | [] => []
  | ';' :: _ => []
  | '/' :: '/' :: _ => []
  | c :: t => c :: uncomment t

/-- Is a sign part of a decimal literal, behind its exponent's letter? The literal so far stands last character first. -/
def inExponent (cur : List Char) (c : Char) : Bool :=
  (c == '+' || c == '-') && (cur.head? == some 'e' || cur.head? == some 'E') && cur.getLast?.any Char.isDigit && !cur.contains 'x'

/-- Pieces of a line, the piece being read last character first; none where a character has no place in the language. -/
def lexGo : List Char → List Char → List Tok → Option (List Tok)
  | [], cur, acc => some (if cur.isEmpty then acc.reverse else (Tok.word cur.reverse :: acc).reverse)
  | c :: t, cur, acc =>
    let done := if cur.isEmpty then acc else Tok.word cur.reverse :: acc
    if c.isAlphanum || c == '_' || c == '.' || inExponent cur c then lexGo t (c :: cur) acc
    else if c == ' ' || c == '\t' || c == '\r' then lexGo t [] done
    else if [':', '?', '!', '#', ',', '[', ']', '+', '-', '<', '='].contains c then lexGo t [] (.sym c :: done)
    else none

/-- The pieces of a line. -/
def lexLine (l : List Char) : Option (List Tok) := lexGo (uncomment l) [] []

/-- A text split at a character. -/
def splitOn (x : Char) : List Char → List (List Char)
  | [] => [[]]
  | c :: t =>
    if c == x then [] :: splitOn x t else
    match splitOn x t with
    | l :: ls => (c :: l) :: ls
    | [] => [[c]]

/-- Pieces split at commas. -/
def splitCommas : List Tok → List (List Tok)
  | [] => [[]]
  | .sym ',' :: t => [] :: splitCommas t
  | x :: t =>
    match splitCommas t with
    | l :: ls => (x :: l) :: ls
    | [] => [[x]]

/-- The operands of a line: none for an empty list. -/
def operands (ts : List Tok) : List (List Tok) := if ts.isEmpty then [] else splitCommas ts

/-- Lower case, for mnemonics, suffixes and register names, which are read without regard to case (R52). -/
def lower (w : List Char) : String := String.ofList (w.map Char.toLower)

/-! Numbers, names and registers (R51 to R53). -/

def digitOf (c : Char) : Nat := if c.isDigit then c.toNat - 48 else c.toLower.toNat - 87
def isHexDigit (c : Char) : Bool := c.isDigit || (decide ('a' ≤ c.toLower) && decide (c.toLower ≤ 'f'))
/-- A decimal integer. -/
def decNat (cs : List Char) : Option Nat :=
  if cs.isEmpty || !cs.all Char.isDigit then none else some (cs.foldl (fun n c => 10 * n + digitOf c) 0)
/-- A hexadecimal integer without its 0x, with underscores anywhere. -/
def hexNat (cs : List Char) : Option Nat :=
  let ds := cs.filter (· != '_')
  if ds.isEmpty || !ds.all isHexDigit then none else some (ds.foldl (fun n c => 16 * n + digitOf c) 0)
/-- An integer (R53). -/
def numOf : List Char → Option Nat
  | '0' :: 'x' :: t => hexNat t
  | cs => decNat cs
/-- The number in a name: decimal, without leading zeros. -/
def nameNum (cs : List Char) : Option Nat := if 1 < cs.length && cs.head? == some '0' then none else decNat cs

/-- Registers of a file (R51). -/
def fileSize : Char → Nat
  | 's' | 'v' => 32
  | 'p' => 128
  | 't' | 'q' => 16
  | 'a' | 'k' | 'n' => 8
  | 'm' => 256
  | _ => 0
/-- A register by its name (R51): its file, m for the semaphores, and its number. -/
def regOf (w : List Char) : Option (Char × Nat) :=
  let named (f : Char) (ds : List Char) : Option (Char × Nat) :=
    (nameNum ds).bind fun n => if n < fileSize f then some (f, n) else none
  match w.map Char.toLower with
  | ['l', 'r'] => some ('s', 31)
  | 's' :: 'e' :: 'm' :: ds => named 'm' ds
  | c :: ds => if c == 'm' then none else named c ds
  | [] => none
/-- A CSR by its name. -/
def csrOf (w : List Char) : Option Nat := (csrNames.find? fun x => x.1 == lower w).map (·.2)
/-- A label or symbol: an identifier that is neither a register name nor a CSR name (R52). -/
def isName (w : List Char) : Bool :=
  w.head?.any (fun c => c.isAlpha || c == '_') && w.all (fun c => c.isAlphanum || c == '_') && (regOf w).isNone && (csrOf w).isNone

/-! Symbols and values (R53). -/

/-- What a name stands for: a value of .equ, a place in the data or the code, a place with a block on its line, or a job's header. -/
inductive Symbol where
  | equ (v : Int)
  | data (off : Nat)
  | code (off : Nat)
  | block (off : Nat)
  | job (n off : Nat)
  deriving DecidableEq, Repr

/-- The value of a name: a label's is its offset in its section (DESIGN CHOICE, log entry 51). -/
def Symbol.value : Symbol → Int
  | .equ v => v
  | .data o | .code o | .block o | .job _ o => o

abbrev Symbols := List (List Char × Symbol)
def Symbols.get (y : Symbols) (w : List Char) : Option Symbol := (y.find? fun x => x.1 == w).map (·.2)

/-- What a pass over the text knows: the names of the pass before it, and whether it is the last, in which every name must be known. -/
structure AsmEnv where
  names : Symbols
  last : Bool
  deriving DecidableEq, Repr

/-- Terms, each with whether it is subtracted. -/
abbrev Terms := List (Bool × List Char)
/-- Terms that each begin with a sign. -/
def termsGo : List Tok → Option Terms
  | [] => some []
  | .sym '+' :: .word w :: t => (termsGo t).map ((false, w) :: ·)
  | .sym '-' :: .word w :: t => (termsGo t).map ((true, w) :: ·)
  | _ => none
/-- An expression: terms joined by + and −, the first with a sign or without. -/
def termsOf : List Tok → Option Terms
  | .word w :: t => (termsGo t).map ((false, w) :: ·)
  | .sym c :: t => termsGo (.sym c :: t)
  | [] => none

/-- What a name stands for in a pass. -/
def AsmEnv.find (e : AsmEnv) (here : Symbols) (w : List Char) : Option Symbol := (here.get w).orElse fun _ => e.names.get w
/-- A term's value; before the last pass a name that is not known yet counts as 0. -/
def AsmEnv.term (e : AsmEnv) (here : Symbols) (w : List Char) : Option Int :=
  match numOf w with
  | some n => some n
  | none =>
    if !isName w then none else
    match e.find here w with
    | some y => some y.value
    | none => if e.last then none else some 0
/-- The value of terms. -/
def AsmEnv.sum (e : AsmEnv) (here : Symbols) (ts : Terms) : Option Int :=
  ts.foldl (fun r t => r.bind fun v => (e.term here t.2).map fun x => if t.1 then v - x else v + x) (some 0)
/-- The value of an expression. -/
def AsmEnv.value (e : AsmEnv) (here : Symbols) (ts : List Tok) : Option Int := (termsOf ts).bind (e.sum here)

/-! Instructions (R36, R51 to R54). -/

/-- A number in a field of `w` bits at a bit. -/
def putField (pos w : Nat) (v : Int) : Nat := (v % (2 : Int) ^ w).toNat * 2 ^ pos

/-- A suffix read: the bits that it sets. -/
def Suf.read (w : List Char) : Suf → Option Nat
  | .lit n b => if lower w == n then some b else none
  | .num pre bound pos b =>
    let cs := w.map Char.toLower
    if !pre.toList.isPrefixOf cs then none else
    match nameNum (cs.drop pre.length) with
    | some n => if n < bound then some (n * 2 ^ pos + b) else none
    | none => none

/-- Suffixes in any order, each set of choices used once at most (R281; of the instructions that are no memory instructions DESIGN CHOICE,
log entry 51). -/
def readBag : List (List Char) → List (List Suf) → Option Nat
  | [], _ => some 0
  | w :: t, bag =>
    match bag.findIdx? fun g => (g.findSome? (Suf.read w)).isSome with
    | none => none
    | some i => ((bag.getD i []).findSome? (Suf.read w)).bind fun b => (readBag t (bag.eraseIdx i)).map (b + ·)

/-- The suffixes of a way of writing an instruction: those in order, then the others. -/
def readMods : List (List Suf × Option Nat) → List (List Suf) → List (List Char) → Option Nat
  | [], bag, ws => readBag ws bag
  | (g, d) :: gs, bag, ws =>
    match ws.head?.bind fun w => g.findSome? (Suf.read w) with
    | some b => (readMods gs bag (ws.drop 1)).map (b + ·)
    | none => d.bind fun b => (readMods gs bag ws).map (b + ·)

/-- The prefix of a memory operand (R54): a core or a peer. -/
def prefixBits (pre : Char) (w : List Char) : Option Nat :=
  match w.map Char.toLower with
  | c :: ds => if c != pre then none else (nameNum ds).bind fun n => if n < (if pre == 'c' then 8 else 16) then some (n * 2 ^ 52) else none
  | [] => none

/-- The offset and the closing bracket of a memory operand. -/
def AsmEnv.memOff (e : AsmEnv) (here : Symbols) (ts : List Tok) : Option Int :=
  if ts.getLast? != some (.sym ']') then none
  else if ts.dropLast.isEmpty then some 0 else (termsGo ts.dropLast).bind (e.sum here)

/-- The index, with its shift, and the offset of a memory operand. -/
def AsmEnv.memRest (e : AsmEnv) (here : Symbols) (idx : Char) (must : Bool) (ts : List Tok) : Option (Nat × Int) :=
  let index (r : List Char) (k : Nat) (t : List Tok) : Option (Nat × Int) :=
    match regOf r with
    | some (f, n) => if f == idx && k < 8 then (e.memOff here t).map fun o => (n * 2 ^ 27 + k * 2 ^ 61, o) else none
    | none => none
  match ts with
  | .sym '+' :: .word r :: .sym '<' :: .sym '<' :: .word k :: t => (numOf k).bind fun k => index r k t
  | .sym '+' :: .word r :: t => if (regOf r).isSome then index r 0 t else if must then none else (e.memOff here ts).map fun o => (0, o)
  | _ => if must then none else (e.memOff here ts).map fun o => (0, o)

/-- A memory operand behind its bracket and prefix: base, index and offset. -/
def AsmEnv.memBase (e : AsmEnv) (here : Symbols) (idx : Char) (must : Bool) : List Tok → Option (Nat × Int)
  | .word b :: t =>
    match regOf b with
    | some ('s', n) => (e.memRest here idx must t).map fun r => (n * 2 ^ 22 + r.1, r.2)
    | _ => none
  | _ => none

/-- An operand of an instruction at a place, whose suffixes have set `acc`: the bits that it sets. A core or peer must be named, unless
.p takes the core from the base register (DEDUCED, log entry 51). -/
def Slot.read (e : AsmEnv) (here : Symbols) (at_ acc : Nat) (ts : List Tok) : Slot → Option Nat
  | .reg f pos lo hi =>
    match ts with
    | [.word w] =>
      match regOf w with
      | some (c, n) => if c == f && lo ≤ n && n ≤ hi then some (n * 2 ^ pos) else none
      | none => none
    | _ => none
  | .data =>
    match ts with
    | [.word w] =>
      match regOf w with
      | some (c, n) =>
        let one := acc / 2 ^ 56 % 32 == 0 && acc / 2 ^ 48 % 16 != 14
        if c == (if one then 's' else 'v') then some (n * 2 ^ 17) else none
      | none => none
    | _ => none
  | .imm pos w lo hi bias =>
    match ts with
    | .sym '#' :: t => (e.value here t).bind fun v => if lo ≤ v && v ≤ hi then some (putField pos w (v - bias)) else none
    | _ => none
  | .slot =>
    match ts with
    | .sym '#' :: t =>
      (e.value here t).bind fun v => if 0 ≤ v && v < 64 then some (putField 17 5 v + v.toNat / 32 * 2 ^ 27) else none
    | _ => none
  | .rel pos w =>
    match ts with
    | [.word l] =>
      match e.find here l with
      | some (.block o) =>
        let d : Int := ((o : Int) - at_) / 2
        if -(2 : Int) ^ (w - 1) ≤ d && d < (2 : Int) ^ (w - 1) then some (putField pos w d) else none
      | _ => none
    | _ => none
  | .csr =>
    match ts with
    | [.word w] => (csrOf w).map (· * 2 ^ 32)
    | _ => none
  | .mem pre idx must =>
    let place (b : Option (Nat × Int)) : Option Nat :=
      b.bind fun b => if -32768 ≤ b.2 && b.2 ≤ 32767 then some (b.1 + putField 32 16 b.2) else none
    match ts with
    | .sym '[' :: .word p :: .sym ':' :: t =>
      if acc.testBit 55 then none else (prefixBits pre p).bind fun x => (place (e.memBase here idx must t)).map (x + ·)
    | .sym '[' :: t => if pre != ' ' && !acc.testBit 55 then none else place (e.memBase here idx must t)
    | _ => none
  | .lea =>
    match ts with
    | .sym '[' :: t =>
      (e.memBase here 's' false t).bind fun b =>
        if -(2 : Int) ^ 28 ≤ b.2 && b.2 < (2 : Int) ^ 28 then some (b.1 + putField 32 29 b.2) else none
    | _ => none
  | .kw n b =>
    match ts with
    | [.word w] => if lower w == n then some b else none
    | _ => none

/-- Operands read against a form. -/
def readForm (e : AsmEnv) (here : Symbols) (at_ acc : Nat) : List (List Tok) → List Slot → Option Nat
  | [], [] => some 0
  | o :: os, f :: fs => (f.read e here at_ acc o).bind fun b => (readForm e here at_ acc os fs).map (b + ·)
  | _, _ => none

/-- The bits of an instruction as one way of writing it gives them. -/
def AsmRow.read (e : AsmEnv) (here : Symbols) (at_ : Nat) (mods : List (List Char)) (ops : List (List Tok)) (r : AsmRow) : Option Nat :=
  (readMods r.mods r.bag mods).bind fun m =>
    r.forms.findSome? fun f => (readForm e here at_ m ops f.1).map fun b => r.code + m + f.2 + b

/-- The halfwords of an instruction of a size in bytes. -/
def asmHalves (size w : Nat) : List HWord := (List.range (size / 2)).map fun i => BitVec.ofNat 16 (w / 2 ^ (16 * i))

/-- A step of an INC word (R55): a signed number in a field. -/
def incField (lo hi : Int) (pos w : Nat) (v : Option Int) : Option Nat :=
  v.bind fun v => if lo ≤ v && v ≤ hi then some (putField pos w v) else none
/-- An INC word for the fields that its host may step (R44, R45, R55). -/
def readInc (e : AsmEnv) (here : Symbols) (use : IncUse) (ops : List (List Tok)) : Option Nat :=
  let read (k : String) : Option Int × Bool :=
    match ops.filter fun o => match o with | .word w :: .sym '=' :: _ => lower w == k | _ => false with
    | [] => (some 0, false)
    | [_ :: _ :: t] => (e.value here t, true)
    | _ => (none, true)
  let known := ops.all fun o => match o with | .word w :: .sym '=' :: _ => ["d", "a", "b", "off"].contains (lower w) | _ => false
  if !known || ops.isEmpty then none else
  match use with
  | .none => none
  | .off _ => if (read "d").2 || (read "a").2 || (read "b").2 then none else incField (-1024) 1023 5 11 (read "off").1
  | .regs d a b =>
    if (read "off").2 then none else
    match incField (-8) 7 5 4 (read "d").1, incField (-8) 7 9 4 (read "a").1, incField (-4) 3 13 3 (read "b").1 with
    | some x, some y, some z => if (d || x == 0) && (a || y == 0) && (b || z == 0) then some (x + y + z) else none
    | _, _, _ => none

/-! The text as a whole (R55, R56). -/

/-- The job being assembled: its number, its header's place, its keywords, entries, bindings, and a stream that has no block yet. -/
structure AsmJob where
  num : Nat
  off : Nat
  dmr : Nat
  split : Nat
  fuse : Nat
  frame : Nat
  entries : List (Nat × Nat)
  qbind : List (Nat × Nat)
  kbind : List (Nat × Nat)
  waiting : Option Nat
  deriving DecidableEq, Repr

/-- The block being assembled: its header's place, mode, passes and nest descriptor, its body so far, the instruction that an INC would
step, and whether it holds a NODE or an RDV. -/
structure AsmBlock where
  off : Nat
  exposed : Bool
  rep : Nat
  nest : Option Nat
  body : List HWord
  host : Option Instr
  ends : Bool
  deriving DecidableEq, Repr

/-- A relocation entry (R452). -/
structure AsmRel where
  off : Nat
  target : Nat
  kind : Nat
  addend : Int
  deriving DecidableEq, Repr

/-- The state of a pass: the section of the next line, both sections so far (last byte first, with their lengths), names, entries, headers of the
jobs so far (in reverse), the stream whose code stands, and what is open. -/
structure Asm where
  inData : Bool
  code : List Byte
  codeLen : Nat
  data : List Byte
  dataLen : Nat
  names : Symbols
  rels : List AsmRel
  jobs : List (Nat × List Byte)
  stream : Option Nat
  job : Option AsmJob
  block : Option AsmBlock
  microNo : Option (Nat × List (List HWord))
  deriving DecidableEq, Repr

def Asm.empty : Asm := ⟨false, [], 0, [], 0, [], [], [], none, none, none, none⟩

/-- The next place of the current section. -/
def Asm.here (z : Asm) : Nat := if z.inData then z.dataLen else z.codeLen
/-- Bytes at the end of the current section. -/
def Asm.emit (z : Asm) (bs : List Byte) : Asm :=
  if z.inData then { z with data := bs.reverse ++ z.data, dataLen := z.dataLen + bs.length }
  else { z with code := bs.reverse ++ z.code, codeLen := z.codeLen + bs.length }
/-- The current section padded with zeros to a multiple. -/
def Asm.pad (z : Asm) (n : Nat) : Asm := z.emit (List.replicate ((n - z.here % n) % n) 0)
/-- A name defined; none where it is no name or stands twice. -/
def Asm.define (z : Asm) (w : List Char) (y : Symbol) : Option Asm :=
  if !isName w || (z.names.get w).isSome then none else some { z with names := (w, y) :: z.names }

/-- Bytes of halfwords, low byte first. -/
def halfBytes (hs : List HWord) : List Byte := hs.flatMap fun h => leBytes h.toNat 2
/-- Bytes of a signed or unsigned integer that fits. -/
def intBytes (n : Nat) (v : Int) : Option (List Byte) :=
  if -(2 : Int) ^ (8 * n - 1) ≤ v && v < (2 : Int) ^ (8 * n) then some (leBytes (v % (2 : Int) ^ (8 * n)).toNat n) else none

/-- A block header (R28). -/
def blockHeader (b : AsmBlock) (len : Nat) : Nat :=
  1 + len * 2 ^ 8 + b.rep * 2 ^ 16 + (match b.nest with | some n => 2 ^ 26 + n * 2 ^ 27 | none => 0) + if b.exposed then 2 ^ 30 else 0

/-- An instruction's word in a block or a macro: its mnemonic with its suffixes, its guard, its stall count and its operands. The words
that no trap of decoding would refuse assemble (R47 excepted), so that ILL_FIELD, ILL_INC and ILL_BLOCK arise only from other code
(DEDUCED, log entry 51). -/
def Asm.word (e : AsmEnv) (z : Asm) (at_ : Nat) (guard stall : Option Nat) (mn : List Char) (ops : List (List Tok)) :
    Option (List HWord × Option Instr) :=
  match splitOn '.' mn with
  | [] => none
  | n :: mods =>
    let rows := asmRows.filter fun r => r.name == lower n
    match rows.head? with
    | none => none
    | some r0 =>
      if r0.size == 2 && (guard.isSome || stall.isSome) then none
      else if !e.last then some (asmHalves r0.size 0, none) else
      match rows.findSome? (AsmRow.read e z.names at_ mods ops) with
      | none => none
      | some w =>
        let hs := asmHalves r0.size (w + guard.getD 0 * 2 ^ 11 + stall.getD 0 * 2 ^ 8)
        match Decode.decode hs with
        | .ok (c, []) => if (z.stream.map StreamId.ofNum).all (shapeOk · c.instr) then some (hs, some c.instr) else none
        | _ => none

/-- An instruction's line in a block (R55). -/
def Asm.blockLine (e : AsmEnv) (z : Asm) (b : AsmBlock) (guard stall : Option Nat) (mn : List Char) (ops : List (List Tok)) : Option Asm :=
  let put (hs : List HWord) (host : Option Instr) (ends : Bool) : Option Asm :=
    some { z.emit (halfBytes hs) with block := some { b with body := b.body ++ hs, host := host, ends := b.ends || ends } }
  let repeated := b.rep != 0 || b.nest.isSome
  if lower mn == "inc" then
    if guard.isSome || stall.isSome then none
    else if !e.last then put [0] none false
    else if !repeated then none else
    match b.host with
    | none => none
    | some i => (readInc e z.names i.incUse ops).bind fun w => put [BitVec.ofNat 16 (w + 0x1E)] none false
  else if stall.isSome && !b.exposed then none else
  match z.word e z.here guard stall mn ops with
  | none => none
  | some (hs, i) => put hs (if hs.length == 1 then none else i) (i == some .rdv || i == some .node)

/-- An instruction's line in a macro (R107, R108). -/
def Asm.microLine (e : AsmEnv) (z : Asm) (n : Nat) (os : List (List HWord)) (guard stall : Option Nat) (mn : List Char)
    (ops : List (List Tok)) : Option Asm :=
  if stall.isSome then none else
  match z.word e 0 guard stall mn ops with
  | none => none
  | some (hs, i) => if hs.length == 1 || !i.all macroOp then none else some { z with microNo := some (n, os ++ [hs]) }

/-- An instruction's line: it stands in a block or in a macro (R55, R56). -/
def Asm.instrLine (e : AsmEnv) (z : Asm) (guard stall : Option Nat) (mn : List Char) (ops : List (List Tok)) : Option Asm :=
  match z.block, z.microNo with
  | some b, _ => z.blockLine e b guard stall mn ops
  | none, some (n, os) => z.microLine e n os guard stall mn ops
  | none, none => none

/-- Keyword arguments, separated by blanks or commas: each keyword with its value's pieces. -/
def kwGo : List Tok → Option (String × List Tok) → List (String × List Tok) → Option (List (String × List Tok))
  | [], cur, acc => some (acc ++ cur.toList)
  | .sym ',' :: t, cur, acc => kwGo t none (acc ++ cur.toList)
  | .word k :: .sym '=' :: t, cur, acc => kwGo t (some (lower k, [])) (acc ++ cur.toList)
  | x :: t, some (k, v), acc => kwGo t (some (k, v ++ [x])) acc
  | _ :: _, none, _ => none
/-- Keyword arguments, each of the named ones at most once. -/
def kwArgs (allowed : List String) (ts : List Tok) : Option (List (String × List Tok)) :=
  (kwGo ts none []).bind fun ks => if ks.all (fun k => allowed.contains k.1) && (ks.map (·.1)).Nodup then some ks else none
/-- The pieces of a keyword's value. -/
def kwOf (ks : List (String × List Tok)) (k : String) : Option (List Tok) := (ks.find? fun x => x.1 == k).map (·.2)
/-- A number given by a keyword below a bound, or what an omitted one gives; before the last pass a number out of bounds may rest on a name
that is not known yet, and counts as omitted. -/
def AsmEnv.kwNat (e : AsmEnv) (here : Symbols) (ks : List (String × List Tok)) (k : String) (bound omitted : Nat) : Option Nat :=
  match kwOf ks k with
  | none => some omitted
  | some ts => (e.value here ts).bind fun v => if 0 ≤ v && v < bound then some v.toNat else if e.last then none else some omitted

/-- A stream by its name (R60). -/
def streamNum (ts : List Tok) : Option Nat :=
  match ts with
  | [.word w] => ["cs", "vs", "ts", "as", "ws", "xs"].findIdx? (· == lower w)
  | _ => none

/-- The header of a job (R59). -/
def AsmJob.header (j : AsmJob) : List Byte :=
  let at_ (l : List (Nat × Nat)) (d i : Nat) : Nat := ((l.find? fun x => x.1 == i).map (·.2)).getD d
  ((List.range 6).flatMap fun i => leBytes (at_ j.entries 0 i) 4) ++ ((List.range 16).flatMap fun i => leBytes (at_ j.qbind 0xFF i) 1) ++
  ((List.range 8).flatMap fun i => leBytes (at_ j.kbind 0xFF i) 1) ++ leBytes j.dmr 8 ++ leBytes j.split 1 ++ leBytes j.fuse 1 ++
  leBytes 0 2 ++ leBytes j.frame 4

/-- .job (R56): the header's place, a multiple of 64, under the job's name (DEDUCED, log entry 51). -/
def Asm.openJob (e : AsmEnv) (z : Asm) (ts : List Tok) : Option Asm :=
  match z.job, ts with
  | none, .word n :: t =>
    if z.inData then none else
    (kwArgs ["dmr", "split", "fuse", "frame"] t).bind fun ks =>
      match e.kwNat z.names ks "dmr" (2 ^ 64) 0x00010000, e.kwNat z.names ks "split" 256 0, e.kwNat z.names ks "fuse" 256 0,
        e.kwNat z.names ks "frame" (2 ^ 32) 0 with
      | some dmr, some sp, some fu, some fr =>
        let z1 := z.pad 64
        let num := z1.jobs.length
        (z1.define n (.job num z1.here)).map fun z2 =>
          { z2.emit (List.replicate 64 0) with stream := none, job := some ⟨num, z1.here, dmr, sp, fu, fr, [], [], [], none⟩ }
      | _, _, _, _ => none
  | _, _ => none

/-- .endjob (R56): a header that R61 calls malformed does not assemble. -/
def Asm.closeJob (e : AsmEnv) (z : Asm) : Option Asm :=
  match z.job with
  | some j =>
    if j.waiting.isSome || z.block.isSome || z.microNo.isSome || (e.last && !headerOk j.header) then none
    else some { z with jobs := (j.off, j.header) :: z.jobs, job := none, stream := none }
  | none => none

/-- .stream (R56): each stream of a job once. -/
def Asm.openStream (z : Asm) (ts : List Tok) : Option Asm :=
  match z.job, streamNum ts with
  | some j, some k =>
    if j.waiting.isSome || j.entries.any (fun x => x.1 == k) then none
    else some { z with stream := some k, job := some { j with waiting := some k } }
  | _, _ => none

/-- .queue and .token (R56): a binding, once for each. -/
def Asm.bind (z : Asm) (q : Bool) (ts : List Tok) : Option Asm :=
  match z.job, ts with
  | some j, .word r :: t =>
    match regOf r, kwArgs ["from", "to"] t with
    | some (f, n), some ks =>
      match (kwOf ks "from").bind streamNum, (kwOf ks "to").bind streamNum with
      | some a, some b =>
        let old := if q then j.qbind else j.kbind
        if f != (if q then 'q' else 'k') || old.any (fun x => x.1 == n) then none else
        let new := (n, a + b * 16) :: old
        some { z with job := some (if q then { j with qbind := new } else { j with kbind := new }) }
      | _, _ => none
    | _, _ => none
  | _, _ => none

/-- .block (R56). -/
def Asm.openBlock (e : AsmEnv) (z : Asm) (ts : List Tok) : Option Asm :=
  if z.inData || z.block.isSome || z.microNo.isSome then none else
  (kwArgs ["rep", "nest", "mode"] ts).bind fun ks =>
    let nest : Option (Option Nat) :=
      match kwOf ks "nest" with
      | none => some none
      | some [.word w] => match regOf w with | some ('n', n) => some (some n) | _ => none
      | some _ => none
    let mode : Option Bool :=
      match kwOf ks "mode" with
      | none => some false
      | some [.word w] => if lower w == "exposed" then some true else if lower w == "scoreboard" then some false else none
      | some _ => none
    match nest, mode, e.kwNat z.names ks "rep" 1025 1 with
    | some nest, some mode, some rep =>
      if (nest.isSome && (kwOf ks "rep").isSome) || (e.last && rep == 0) then none else
      let job := z.job.map fun j =>
        match j.waiting with
        | some k => { j with entries := (k, z.codeLen - j.off) :: j.entries, waiting := none }
        | none => j
      some { z.emit (List.replicate 4 0) with job := job, block := some ⟨z.codeLen, mode, rep - 1, nest, [], none, false⟩ }
    | _, _, _ => none

/-- .endblock (R55, R56): the header takes its place. -/
def Asm.closeBlock (z : Asm) : Option Asm :=
  match z.block with
  | some b =>
    let len := b.body.length
    let repeated := b.rep != 0 || b.nest.isSome
    if len == 0 || 255 < len || (repeated && (64 < len || b.ends)) then none
    else
      let behind := z.code.take (2 * len)
      some { z with code := behind ++ (leBytes (blockHeader b len) 4).reverse ++ z.code.drop (2 * len + 4), block := none }
  | none => none

/-- .micro and .endmicro (R56, R107): the image stands in .data, 8-byte aligned, under the label micro_N. -/
def Asm.openMicro (e : AsmEnv) (z : Asm) (ts : List Tok) : Option Asm :=
  if z.block.isSome || z.microNo.isSome then none else
  (e.value z.names ts).bind fun v => if 0 ≤ v && v < 64 then some { z with microNo := some (v.toNat, []) } else none
def Asm.closeMicro (z : Asm) : Option Asm :=
  match z.microNo with
  | some (n, os) =>
    if os.isEmpty || 32 < os.length then none else
    let z1 := { z with inData := true }.pad 8
    let hs := os.flatten
    (z1.define ("micro_" ++ toString n).toList (.data z1.here)).map fun z2 =>
      { z2.emit (leBytes os.length 1 ++ leBytes hs.length 1 ++ leBytes 0 6 ++ halfBytes hs) with inData := z.inData, microNo := none }
  | none => none

/-- A .dword operand: a number, or a zero word with a relocation entry for the label or job that it names (R56). -/
def Asm.dword (e : AsmEnv) (z : Asm) (ts : List Tok) : Option Asm :=
  (termsOf ts).bind fun es =>
    if !e.last then some (z.emit (List.replicate 8 0)) else
    let isPlace (w : List Char) : Bool := match e.find z.names w with | some (.equ _) | none => false | some _ => true
    match es.filter fun t => isPlace t.2 with
    | [] => ((e.sum z.names es).bind (intBytes 8)).map z.emit
    | [(false, w)] =>
      match e.sum z.names (es.filter fun t => !isPlace t.2), e.find z.names w with
      | some v, some y =>
        let rel (kind : Nat) (a : Int) : Option Asm :=
          some { z.emit (List.replicate 8 0) with rels := z.rels ++ [⟨z.here, if z.inData then 1 else 0, kind, a⟩] }
        match y with
        | .data o => rel 0 (o + v)
        | .code o | .block o => rel 2 (o + v)
        | .job n _ => if v == 0 then rel 1 n else none
        | .equ _ => none
      | _, _ => none
    | _ => none

/-- Operands emitted one by one. -/
def Asm.each (z : Asm) (f : Asm → List Tok → Option Asm) : List (List Tok) → Option Asm
  | [] => some z
  | o :: os => (f z o).bind fun z => z.each f os

/-- An integer of a size (R56). -/
def Asm.ints (e : AsmEnv) (n : Nat) (z : Asm) (ts : List Tok) : Option Asm :=
  if !e.last then some (z.emit (List.replicate n 0)) else ((e.value z.names ts).bind (intBytes n)).map z.emit

/-- A decimal literal: sign, magnitude and a power of ten. -/
def decimalOf (cs : List Char) : Option (Nat × Int) :=
  let (m, x) := cs.span fun c => c != 'e' && c != 'E'
  let exp : Option Int :=
    match x with
    | [] => some 0
    | _ :: '-' :: t => (decNat t).map fun n => -(n : Int)
    | _ :: '+' :: t => (decNat t).map fun n => (n : Int)
    | _ :: t => (decNat t).map fun n => (n : Int)
  match splitOn '.' m, exp with
  | [i], some k => (decNat i).map fun n => (n, k)
  | [i, f], some k => if i.isEmpty && f.isEmpty then none else (decNat (i ++ f)).map fun n => (n, k - f.length)
  | _, _ => none

/-- A decimal rounded to a format by RNE (R56). -/
def Fmt.ofDecimal (f : Fmt) (neg : Bool) (m : Nat) (k : Int) : Nat :=
  if m == 0 then f.signBit neg else
  let x : Ex := if 0 ≤ k then ⟨neg, (if neg then -1 else 1) * m * 10 ^ k.toNat, 0⟩ else exDiv neg m 0 (10 ^ (-k).toNat) 0
  (f.round .rne 0 x).1

/-- A floating literal (R56): a decimal, or a bit pattern. -/
def Asm.float (f : Fmt) (z : Asm) (ts : List Tok) : Option Asm :=
  let one (neg : Bool) (w : List Char) : Option Asm := (decimalOf w).map fun d => z.emit (leBytes (f.ofDecimal neg d.1 d.2) (f.width / 8))
  match ts with
  | [.word ('0' :: 'x' :: t)] => (hexNat t).bind fun n => if n < 2 ^ f.width then some (z.emit (leBytes n (f.width / 8))) else none
  | [.word w] => one false w
  | [.sym '+', .word w] => one false w
  | [.sym '-', .word w] => one true w
  | _ => none

/-- A tick value (R56). -/
def Asm.tick (e : AsmEnv) (z : Asm) (ts : List Tok) : Option Asm :=
  let never : Bool := match ts with | [.word w] => lower w == "never" | _ => false
  if never then some (z.emit [0xFF]) else if !e.last then some (z.emit [0]) else
  (e.value z.names ts).bind fun v => if 0 ≤ v && v ≤ 254 then some (z.emit (leBytes v.toNat 1)) else none

/-- A line that begins with a full stop (R56). In a block only .equ and .endblock stand, and in a macro only .equ and .endmicro; a portable
text has no .variant and no .portable (R453) (DESIGN CHOICE, log entry 51). -/
def Asm.directive (e : AsmEnv) (z : Asm) (d : String) (ts : List Tok) : Option Asm :=
  let open_ := z.block.isSome || z.microNo.isSome
  match d with
  | ".equ" =>
    match ts with
    | .word n :: .sym ',' :: t => (e.value z.names t).bind fun v => z.define n (.equ v)
    | _ => none
  | ".endblock" => if ts.isEmpty then z.closeBlock else none
  | ".endmicro" => if ts.isEmpty then z.closeMicro else none
  | _ =>
    if open_ then none else
    match d with
    | ".job" => z.openJob e ts
    | ".endjob" => if ts.isEmpty then z.closeJob e else none
    | ".stream" => z.openStream ts
    | ".block" => z.openBlock e ts
    | ".queue" => z.bind true ts
    | ".token" => z.bind false ts
    | ".micro" => z.openMicro e ts
    | ".text" => if ts.isEmpty then some { z with inData := false } else none
    | ".data" => if ts.isEmpty then some { z with inData := true } else none
    | ".align" =>
      (e.value z.names ts).bind fun v =>
        if 0 < v && 2 ^ Nat.log2 v.toNat == v.toNat then some (z.pad v.toNat) else if e.last then none else some z
    | ".space" =>
      (e.value z.names ts).bind fun v =>
        if 0 ≤ v then some (z.emit (List.replicate v.toNat 0)) else if e.last then none else some z
    | ".byte" => z.each (Asm.ints e 1) (splitCommas ts)
    | ".half" => z.each (Asm.ints e 2) (splitCommas ts)
    | ".word" => z.each (Asm.ints e 4) (splitCommas ts)
    | ".dword" => z.each (Asm.dword e) (splitCommas ts)
    | ".fp16" => z.each (Asm.float f16) (splitCommas ts)
    | ".bf16" => z.each (Asm.float bf16) (splitCommas ts)
    | ".fp32" => z.each (Asm.float f32) (splitCommas ts)
    | ".fp64" => z.each (Asm.float f64) (splitCommas ts)
    | ".tk8" => z.each (Asm.tick e) (splitCommas ts)
    | _ => none

/-- The stall count at the end of a line (R52): the pieces before it, and the count if one stands. -/
def stallOf (ts : List Tok) : Option (List Tok × Option Nat) :=
  if !ts.contains (.sym '!') then some (ts, none) else
  match ts.getLast?, ts.dropLast.getLast? with
  | some (.word w), some (.sym '!') => (nameNum w).bind fun n => if n < 8 then some (ts.dropLast.dropLast, some n) else none
  | _, _ => none

/-- A line behind its label (R52). -/
def Asm.statement (e : AsmEnv) (z : Asm) (ts : List Tok) : Option Asm :=
  let instr (guard : Option Nat) (t : List Tok) : Option Asm :=
    match t with
    | .word mn :: os => (stallOf os).bind fun r => z.instrLine e guard r.2 mn (operands r.1)
    | _ => none
  match ts with
  | [] => some z
  | .word ('.' :: d) :: t => z.directive e (String.ofList ('.' :: d)) t
  | .sym '?' :: .word p :: t =>
    match regOf p with
    | some ('p', n) => if n < 16 then instr (some n) t else none
    | _ => none
  | _ => instr none ts

/-- A line of the text (R52). A label names the place of its line; on a .block line a branch may name it (R53). -/
def Asm.line (e : AsmEnv) (z : Asm) (ts : List Tok) : Option Asm :=
  match ts with
  | .word l :: .sym ':' :: t =>
    let block := match t with | .word d :: _ => d == ".block".toList | _ => false
    (z.define l (if z.inData then .data z.here else if block then .block z.here else .code z.here)).bind fun z => z.statement e t
  | _ => z.statement e ts

/-- A pass over the lines; nothing may stand open at its end. -/
def asmPass (e : AsmEnv) (ls : List (List Tok)) : Option Asm :=
  (ls.foldl (fun z l => z.bind fun z => z.line e l) (some Asm.empty)).bind fun z =>
    if z.job.isSome || z.block.isSome || z.microNo.isSome then none else some z

/-- The lines of a text: its bytes, of which those beyond ASCII stand in comments only (DESIGN CHOICE, log entry 51). -/
def asmLines (bs : List Byte) : Option (List (List Tok)) :=
  (splitOn '\n' (bs.map fun b => Char.ofNat b.toNat)).mapM lexLine

/-- A text assembled (R453): passes that find where each name stands, then one in which every line must assemble and every name stands where the
pass before found it; the text holds a job (DESIGN CHOICE, log entry 51). -/
def assemble (bs : List Byte) : Option Asm :=
  (asmLines bs).bind fun ls =>
    (asmPass ⟨[], false⟩ ls).bind fun a =>
      (asmPass ⟨a.names, false⟩ ls).bind fun b =>
        (asmPass ⟨b.names, false⟩ ls).bind fun c =>
          (asmPass ⟨c.names, true⟩ ls).bind fun z => if z.names == c.names && !z.jobs.isEmpty then some z else none

/-! The object that an assembled text gives (R450, R453). -/

/-- Zeros up to a multiple. -/
def padTo (n : Nat) (bs : List Byte) : List Byte := bs ++ List.replicate ((n - bs.length % n) % n) 0
/-- The code section with the jobs' headers in their places. -/
def Asm.section_ (z : Asm) : List Byte :=
  z.jobs.foldl (fun c j => c.take j.1 ++ j.2 ++ c.drop (j.1 + 64)) z.code.reverse
/-- A relocation entry's bytes (R452). -/
def AsmRel.bytes (r : AsmRel) : List Byte :=
  leBytes r.off 4 ++ leBytes r.target 1 ++ leBytes r.kind 1 ++ leBytes 0 2 ++ leBytes (r.addend % (2 : Int) ^ 64).toNat 8

/-- The object of one native variant of generation 4 (R450): the section with its job table behind the code, where `gap` words lie
between the two, then the text's own data, and its relocation entries (DESIGN CHOICE, log entry 36). -/
def Asm.object (z : Asm) (gap : Nat) : List Byte :=
  let code := padTo 4 z.section_ ++ List.replicate (4 * gap) 0
  let sec := code ++ z.jobs.reverse.flatMap fun j => leBytes j.1 4
  let dataOff := 128 + (padTo 64 sec).length
  let relOff := dataOff + (padTo 16 z.data.reverse).length
  let len := relOff + 16 * z.rels.length
  leBytes 0x314F4354 4 ++ leBytes 1 2 ++ leBytes 1 2 ++ leBytes len 4 ++ leBytes 64 4 ++ leBytes 0 4 ++ leBytes 0 4 ++
  leBytes dataOff 4 ++ leBytes z.dataLen 4 ++ leBytes relOff 4 ++ leBytes z.rels.length 4 ++ List.replicate 24 0 ++
  leBytes 4 1 ++ leBytes 0 1 ++ leBytes 0 2 ++ leBytes 128 4 ++ leBytes sec.length 4 ++ leBytes z.jobs.length 4 ++ leBytes 0 8 ++
  leBytes code.length 4 ++ leBytes 0 4 ++ List.replicate 32 0 ++
  padTo 64 sec ++ padTo 16 z.data.reverse ++ z.rels.flatMap AsmRel.bytes

/-- Hazel's output for a portable section (R453, R455): the object of its text, or none where a line does not assemble. Where in the section the
job table stands is a free value. -/
def hazelCode (tnf : List Byte) : Option (List Byte) := (assemble (tnf.drop 8)).map fun z => z.object (Config.hazelGap tnf % 16)

end Sys2Proof.Machine
end

