-- ==== Sys2Proof/Machine/Loader.lean ====
section
/-! DEFINITION. What the loader, supervisor software of the device, does with a Thebern code object (R450 to R453): its checks, the choice
of a variant, the relocation of a chosen section, and its placing; and Hazel's cache (R454, R455). -/
namespace Sys2Proof.Machine

/-- A number in an object: `n` bytes from an offset on, low first; 0 beyond its end. -/
def objNat (o : List Byte) (off n : Nat) : Nat := leNat ((o.drop off).take n)

/-- Fields of "TCO header" (R450). -/
def tcoVariants (o : List Byte) : Nat := objNat o 6 2
def tcoLength (o : List Byte) : Nat := objNat o 8 4
def tcoVarOff (o : List Byte) : Nat := objNat o 12 4
def tcoTnfOff (o : List Byte) : Nat := objNat o 16 4
def tcoTnfLen (o : List Byte) : Nat := objNat o 20 4
def tcoDataOff (o : List Byte) : Nat := objNat o 24 4
def tcoDataLen (o : List Byte) : Nat := objNat o 28 4
def tcoRelOff (o : List Byte) : Nat := objNat o 32 4
def tcoRels (o : List Byte) : Nat := objNat o 36 4

/-- A variant entry (R450). -/
structure Variant where
  gen : Nat
  minor : Nat
  secOff : Nat
  secLen : Nat
  jobs : Nat
  feat : Word
  jobTab : Nat
  deriving DecidableEq, Repr

/-- Variant entry `i` of an object. -/
def tcoVariant (o : List Byte) (i : Nat) : Variant :=
  let a := tcoVarOff o + 32 * i
  ⟨objNat o a 1, objNat o (a + 1) 1, objNat o (a + 4) 4, objNat o (a + 8) 4, objNat o (a + 12) 4,
    BitVec.ofNat 64 (objNat o (a + 16) 8), objNat o (a + 24) 4⟩

/-- A range inside the object, at an alignment. -/
def tcoFits (o : List Byte) (off len al : Nat) : Bool := off % al == 0 && decide (off + len ≤ o.length)

/-- MAGIC, FORMAT and the lengths are consistent (R450) (DEDUCED, log entry 48). -/
def tcoOk (o : List Byte) : Bool :=
  decide (64 ≤ o.length) && objNat o 0 4 == 0x314F4354 && objNat o 4 2 == 1 && tcoLength o == o.length &&
  decide (tcoVariants o ≤ 64) && tcoFits o (tcoVarOff o) (32 * tcoVariants o) 32 &&
  (tcoTnfLen o == 0 || tcoFits o (tcoTnfOff o) (tcoTnfLen o) 8) && tcoFits o (tcoDataOff o) (tcoDataLen o) 64 &&
  tcoFits o (tcoRelOff o) (16 * tcoRels o) 16 &&
  ((List.range (tcoVariants o)).all fun i =>
    let v := tcoVariant o i
    tcoFits o v.secOff v.secLen 64 && decide (v.jobTab + 4 * v.jobs ≤ v.secLen))

/-- A variant that a C4 runs (R451): its generation, a minor revision that is not later, and no feature that is missing. -/
def Variant.runs (v : Variant) (w0 w1 : Word) : Bool :=
  v.gen == (w0.extractLsb' 0 8).toNat && decide (v.minor ≤ (w0.extractLsb' 8 8).toNat) && v.feat &&& ~~~w1 == 0

/-- The variant chosen: the latest minor revision, the first of equals (R451) (DEDUCED, log entry 48). -/
def chooseVariant (w0 w1 : Word) (vs : List Variant) : Option Variant :=
  vs.foldl (fun best v =>
    if !v.runs w0 w1 then best else
    match best with
    | none => some v
    | some b => if b.minor < v.minor then some v else best) none

/-- What the loader is to load. -/
inductive LoadPlan where
  | native (v : Variant)
  | portable (tnf : List Byte)
  | refuse (code : Nat)
  deriving DecidableEq, Repr

/-- The plan for an object (R450, R451) (DEDUCED, log entry 48). -/
def State.loadPlan (s : State) (o : List Byte) : LoadPlan :=
  if !tcoOk o then .refuse 1 else
  match chooseVariant (s.featureWord 0) (s.featureWord 1) ((List.range (tcoVariants o)).map (tcoVariant o)) with
  | some v => .native v
  | none => if tcoTnfLen o ≠ 0 then .portable ((o.drop (tcoTnfOff o)).take (tcoTnfLen o)) else .refuse 2

/-- The 64-bit word at an offset replaced. -/
def patch (l : List Byte) (off : Nat) (w : Word) : List Byte := l.take off ++ leBytes w.toNat 8 ++ l.drop (off + 8)

/-- One relocation entry applied (R452) to a section and data that will stand at given addresses; none where its target does
not hold the word, its kind is reserved, or the job does not exist. -/
def relocate (o : List Byte) (v : Variant) (code data : Nat) (i : Nat) (sd : List Byte × List Byte) : Option (List Byte × List Byte) :=
  let a := tcoRelOff o + 16 * i
  let off := objNat o a 4
  let target := objNat o (a + 4) 1
  let kind := objNat o (a + 5) 1
  let add := BitVec.ofNat 64 (objNat o (a + 8) 8)
  let value : Option Word :=
    match kind with
    | 0 => some (BitVec.ofNat 64 data + add)
    | 1 => if add.toNat < v.jobs then some (BitVec.ofNat 64 (code + objNat sd.1 (v.jobTab + 4 * add.toNat) 4)) else none
    | 2 => some (BitVec.ofNat 64 code + add)
    | _ => none
  match value, target with
  | some w, 0 => if off + 8 ≤ sd.1.length then some (patch sd.1 off w, sd.2) else none
  | some w, 1 => if off + 8 ≤ sd.2.length then some (sd.1, patch sd.2 off w) else none
  | _, _ => none

/-- Relocation entries applied in order (DEDUCED, log entry 48). -/
def relocateAll (o : List Byte) (v : Variant) (code data : Nat) : List Nat → List Byte × List Byte → Option (List Byte × List Byte)
  | [], sd => some sd
  | i :: t, sd => (relocate o v code data i sd).bind (relocateAll o v code data t)

/-- The chosen section and the data as they are placed at their addresses, or loader code 3 (R452) (DEDUCED, log entry 48). -/
def placeSection (o : List Byte) (v : Variant) (code data : Nat) : Except Nat (List Byte × List Byte) :=
  match relocateAll o v code data (List.range (tcoRels o)) ((o.drop v.secOff).take v.secLen, (o.drop (tcoDataOff o)).take (tcoDataLen o)) with
  | some sd => .ok sd
  | none => .error 3

/-- Is a relocation entry of a portable object applied to the object's data beside Hazel's output? Those of TARGET 0 are the output's own
entries, to which Hazel has rewritten them. Data words of KIND 0 stand as they are; one of KIND 1 takes the header that the job of that
number has in the translated section, and one of KIND 2 the place in it, which keeps the order of the text (R452, R453)
(DESIGN CHOICE, log entry 36). -/
def dataRelocation (o : List Byte) (i : Nat) : Bool :=
  let a := tcoRelOff o + 16 * i
  !(objNat o (a + 4) 1 == 0 && decide (objNat o (a + 5) 1 ≤ 2))

/-- Hazel's output `h` and the object's data as they are placed: the relocations of the output, then the object's own
relocations of data (R452). The data that the portable text holds itself stands behind the object's, at a multiple of 64
(DESIGN CHOICE, log entry 36). -/
def placePortable (o h : List Byte) (code data : Nat) : Except Nat (List Byte × List Byte) :=
  let v := tcoVariant h 0
  let own := (h.drop (tcoDataOff h)).take (tcoDataLen h)
  let objs := (o.drop (tcoDataOff o)).take (tcoDataLen o)
  let front := if own.isEmpty then objs else padTo 64 objs
  match relocateAll h v code (data + front.length) (List.range (tcoRels h)) ((h.drop v.secOff).take v.secLen, own) with
  | none => .error 3
  | some sd =>
    match relocateAll o v code data ((List.range (tcoRels o)).filter (dataRelocation o)) (sd.1, objs) with
    | none => .error 3
    | some so => .ok (so.1, so.2 ++ front.drop objs.length ++ sd.2)

/-- Hazel's acceptance of a portable section (R453): TNF version 1.0 and a body of the length that the header gives; else a loader
code (DEDUCED, log entry 48). -/
def tnfCheck (tnf : List Byte) : Option Nat :=
  if tnf.length < 8 then some 1
  else if objNat tnf 0 2 ≠ 1 ∨ objNat tnf 2 2 ≠ 0 then some 4
  else if objNat tnf 4 4 ≠ tnf.length - 8 then some 1
  else none

/-! Placing (R452). -/

/-- The pages of 64 KiB that hold a virtual range, with their leaves in the tables of a die: none where one is not mapped. -/
def State.pagesOf (s : State) (d : Fin 2) (asid va n : Nat) : Option (List (Nat × Leaf)) :=
  ((List.range ((va % 65536 + n + 65535) / 65536)).map fun i => (va / 65536 + i) * 65536).mapM fun p =>
    match s.walk (s.die d).ptroot.toNat asid p with
    | .ok l => if s.physOk l.pa then some (p, l) else none
    | .error _ => none

/-- Bytes stored from an address on in its pages. -/
def State.storePages (s : State) : List (Nat × Leaf) → Nat → List Byte → State
  | [], _, _ => s
  | (p, l) :: t, va, bs =>
    let n := p + 65536 - va
    State.storePages (s.pwriteN 0 (l.pa + (va - p)) (bs.take n)) t (p + 65536) (bs.drop n)

/-- Pages made executable and not writable, and their translations taken out of the TLBs. -/
def State.sealPages (s : State) (asid : Nat) (ps : List (Nat × Leaf)) : State :=
  ps.foldl (fun s q =>
    { s.pwrite8 q.2.entry ((q.2.pte ||| 0x10) &&& ~~~(0x8 : Word)) with
      tlb := s.tlb.filter fun t => !t.covers asid q.1 }) s

/-- A section and data placed in the memory of an ASID at addresses of the loader's choosing, multiples of 64, and the pages of the
code made executable and not writable (R452); none where an address is no such multiple or a page is not mapped
(DESIGN CHOICE, log entry 36). -/
def State.placeObject (s : State) (d : Fin 2) (asid code data : Nat) (sd : List Byte × List Byte) : Option State :=
  if code % 64 ≠ 0 ∨ data % 64 ≠ 0 then none else
  match s.pagesOf d asid code sd.1.length, s.pagesOf d asid data sd.2.length with
  | some cs, some ds => some (((s.storePages cs code sd.1).storePages ds data sd.2).sealPages asid cs)
  | _, _ => none

/-! Hazel's cache (R454, R455). -/

/-- The key of a translation (R454). -/
def State.hazelKey (s : State) (tnf : List Byte) (tenant : Word) : BitVec 384 :=
  sha384 (tnf ++ ((List.range 8).flatMap fun i => leBytes (s.featureWord i).toNat 8) ++ leBytes s.hazel.toNat 4 ++
    leBytes tenant.toNat 8)

/-- The tag of an entry: under the tenant key, which the device identity key gives, over the entry's key and Hazel's output
(DESIGN CHOICE, log entry 36). -/
def State.hazelTag (s : State) (d : Fin 2) (tenant : Word) (key : BitVec 384) (h : List Byte) : List Byte :=
  hmac384 (kdf384 (s.die d).identity (Config.kdfFixed tenant)) (leBytes key.toNat 48 ++ h)

/-- The region of a tenant. -/
def State.hazelRegion (s : State) (tenant : Word) : Option HazelRegion := s.hazelRegions.find? fun r => r.tenant == tenant

/-- Does an entry lie in a region? An entry holds 48 bytes of tag and Hazel's output. -/
def HazelEntry.within (e : HazelEntry) (r : HazelRegion) : Bool :=
  e.tenant == r.tenant && decide (r.base ≤ e.addr) && decide (e.addr + 48 + e.len ≤ r.base + r.size)

/-- The first place of a region at which `n` bytes stand beside the entries that stay. -/
def HazelRegion.spot (r : HazelRegion) (n : Nat) (es : List HazelEntry) : Option Nat :=
  (r.base :: es.map fun e => e.addr + 48 + e.len).find? fun a =>
    decide (a + n ≤ r.base + r.size) && es.all fun e => decide (a + n ≤ e.addr) || decide (e.addr + 48 + e.len ≤ a)

/-- A place for `n` bytes: the least recently used entries of the tenant, first in the list, go until there is one (R455). Answers it
with the entries that stay. -/
def HazelRegion.room (r : HazelRegion) (n : Nat) : List HazelEntry → Option (Nat × List HazelEntry)
  | [] => (r.spot n []).map fun a => (a, [])
  | e :: t =>
    match r.spot n (e :: t) with
    | some a => some (a, e :: t)
    | none => HazelRegion.room r n t

/-- Hazel's output kept in its tenant's region, where one is assigned that can hold it (R454, R455). -/
def State.hazelKeep (s : State) (d : Fin 2) (tenant : Word) (key : BitVec 384) (h : List Byte) : State :=
  match s.hazelRegion tenant with
  | none => s
  | some r =>
    match r.room (48 + h.length) (s.hazelCache.filter (·.within r)).reverse with
    | none => s
    | some (a, kept) =>
      let s1 := s.pwriteN 0 a (s.hazelTag d tenant key h ++ h)
      { s1 with hazelCache := ⟨d, tenant, key, a, h.length⟩ :: (kept.reverse ++ s.hazelCache.filter fun e => !e.within r) }

/-- A translation made, and kept (R453, R455). -/
def State.hazelMake (s : State) (d : Fin 2) (tenant : Word) (key : BitVec 384) (tnf : List Byte) : State × Except Nat (List Byte) :=
  match hazelCode tnf with
  | none => (s, .error 5)
  | some h => (s.hazelKeep d tenant key h, .ok h)

/-- Is an entry's tag in memory right (R454)? -/
def State.hazelTrue (s : State) (e : HazelEntry) : Bool :=
  s.mem.readN e.addr 48 == s.hazelTag e.die e.tenant e.key (s.mem.readN (e.addr + 48) e.len) &&
  !((linesOf e.addr (48 + e.len)).any fun l => s.poison.contains l)

/-- Hazel's output for a portable section that a tenant loads on a die: refused, found in the tenant's region, or translated; an
entry whose tag is wrong is discarded and logged (R453 to R455) (DESIGN CHOICE, log entry 36). -/
def State.hazelOutput (s : State) (d : Fin 2) (tenant : Word) (tnf : List Byte) : State × Except Nat (List Byte) :=
  match tnfCheck tnf with
  | some code => (s, .error code)
  | none =>
    let key := s.hazelKey tnf tenant
    match s.hazelCache.find? fun e => e.key == key && (s.hazelRegion tenant).any e.within with
    | none => s.hazelMake d tenant key tnf
    | some e =>
      let rest := s.hazelCache.erase e
      if s.hazelTrue e then ({ s with hazelCache := e :: rest }, .ok (s.mem.readN (e.addr + 48) e.len))
      else ({ s with hazelCache := rest }.dieLog d 0x64 (BitVec.ofNat 64 e.addr) 0 0).hazelMake d tenant key tnf

/-- A region assigned to a tenant (R454): in device memory, and apart from every other tenant's; a size of 0 takes it away. -/
def State.hazelAssign (s : State) (tenant : Word) (base size : Nat) : Option State :=
  let rest := s.hazelRegions.filter fun r => r.tenant != tenant
  if size = 0 then some { s with hazelRegions := rest }
  else if s.physOk base && s.physOk (base + size - 1) && tierOf base == tierOf (base + size - 1) &&
      rest.all fun r => decide (base + size ≤ r.base) || decide (r.base + r.size ≤ base) then
    some { s with hazelRegions := ⟨tenant, base, size⟩ :: rest }
  else none

end Sys2Proof.Machine
end

