-- ==== Sys2Proof/Machine/Tile.lean ====
section
/-! DEFINITION. The tile engine (R178 to R202): formats and sums, masks, the command window, multicast loads, and the tile commands. -/
namespace Sys2Proof.Machine

/-! Formats (R180, R181). -/

/-- Elements of a line. -/
def tileK : Nat → Nat
  | 0 | 1 | 2 | 3 => 16
  | 9 | 13 | 15 | 16 => 64
  | _ => 32
/-- Bytes of a line. -/
def tileLB : Nat → Nat
  | 0 => 128 | 1 => 64 | 14 => 36 | 15 => 48 | _ => 32
/-- Element alignment. -/
def tileAlign : Nat → Nat
  | 0 => 8 | 1 => 4 | 2 | 3 => 2 | _ => 1
/-- The MX formats, whose scales stand apart. -/
def tileMX (fmt : Nat) : Bool := decide (10 ≤ fmt) && decide (fmt ≤ 13)
/-- The set of "Operand pairings" that a format belongs to. -/
def tileSet : Nat → Option Nat
  | 0 => some 0 | 1 => some 1 | 2 | 3 => some 2 | 4 | 5 => some 3 | 8 => some 4 | 9 => some 5 | 6 | 7 => some 6
  | 10 | 11 | 12 => some 7 | 13 => some 8 | 14 => some 9 | 15 | 16 => some 10 | _ => none

/-- Summation classes (R145): FP64 and FP32 by fused steps, narrow, integer, block-scaled with its block length. -/
inductive TileSum where
  | fused (f : Fmt)
  | narrow
  | integer
  | block (n : Nat)
  deriving DecidableEq, Repr

/-- The class of a set of pairings. -/
def tileClass : Nat → TileSum
  | 0 => .fused f64 | 1 => .fused f32 | 6 => .integer | 7 | 8 => .block 32 | 9 | 10 => .block 16 | _ => .narrow

/-- A pairing's class, if the pair is one (R181). -/
def tilePair (af bf : Nat) : Option TileSum :=
  match tileSet af, tileSet bf with
  | some m, some n => if m = n then some (tileClass m) else none
  | _, _ => none

/-- Fields of TFMT (R179). -/
def tfmtAF (v : BitVec 13) : Nat := (v.extractLsb' 0 5).toNat
def tfmtBF (v : BitVec 13) : Nat := (v.extractLsb' 5 5).toNat
def tfmtRM (v : BitVec 13) : RMode := RMode.ofCode (v.extractLsb' 10 3).toNat
/-- The format of accumulator elements under TFMT (R181, R182). -/
def accTy (v : BitVec 13) : NumTy :=
  match tilePair (tfmtAF v) (tfmtBF v) with
  | some (.fused f) => .flt f
  | some .integer => .int true 64
  | _ => .flt f32

/-- Element `k` of line `l` of an operand tile (R180, R133 to R135). -/
def tileElem (fmt img l k : Nat) : FVal :=
  let at_ (w : Nat) : Nat := bitsAt img (8 * tileLB fmt * l + w * k) w
  let mx (t : NumTy) (extra : Int) : FVal :=
    let sc : Int := bitsAt img (8 * (512 + l * (tileK fmt / 32) + k / 32)) 8
    if sc = 255 then defaultNan else (t.read (at_ t.width)).scale (sc - 127 - extra)
  let se (b : Nat) : FVal :=
    let gb := 16 * (b + 1) + 16
    let g := bitsAt img (8 * tileLB fmt * l + gb * (k / 16)) gb
    if g % 256 = 255 then defaultNan else
    let x := seValue b g (k % 16)
    .num x.neg x.n.natAbs x.e
  match fmt with
  | 0 => f64.read (at_ 64)
  | 1 => f32.read (at_ 32)
  | 2 => f16.read (at_ 16)
  | 3 => bf16.read (at_ 16)
  | 4 => e4m3.read (at_ 8)
  | 5 => e5m2.read (at_ 8)
  | 6 => (NumTy.int true 8).read (at_ 8)
  | 7 => (NumTy.int false 8).read (at_ 8)
  | 8 => (NumTy.hs 8).read (at_ 8)
  | 9 => (NumTy.hs 4).read (at_ 4)
  | 10 => mx (.flt e4m3) 0
  | 11 => mx (.flt e5m2) 0
  | 12 => mx (.int true 8) 6
  | 13 => mx (.flt e2m1) 0
  | 14 => se 7
  | 15 => se 4
  | _ => se 2

/-! Sums (R145). -/

/-- Pairs cut into scale blocks. -/
def blocksOf (n : Nat) : Nat → List (FVal × FVal) → List (List (FVal × FVal))
  | 0, _ => []
  | fuel + 1, l => if l.isEmpty then [] else l.take n :: blocksOf n fuel (l.drop n)

/-- The integer of a value, for the integer class. -/
def intVal : FVal → Int
  | .num neg n _ => if neg then -(n : Int) else n
  | .inf _ | .nan _ _ _ _ _ => 0

/-- The exact integer sum of a block: a zero has no sign. -/
def unsignZero (x : FVal) : FVal := if x.isZero then posZero else x

/-- One accumulator element: its old code and the pairs along the depth, disabled ones as zeros (R145) (DEDUCED, log entry 39). -/
def tileSum (cls : TileSum) (acc : Nat) (pairs : List (FVal × FVal)) : Nat :=
  match cls with
  | .fused f => pairs.foldl (fun a x => accAdd f a (mulVal x.1 x.2)) (acc % 2 ^ f.width)
  | .narrow => accAdd f32 (acc % 2 ^ 32) (f32.read (roundVal f32 (dotVal pairs)))
  | .integer => codeOf 64 (acc + (pairs.map fun x => intVal x.1 * intVal x.2).sum)
  | .block n =>
    (blocksOf n 5 pairs).foldl (fun a b => accAdd f32 a (f32.read (roundVal f32 (unsignZero (dotVal b))))) (acc % 2 ^ 32)

/-! Tile state. -/

/-- A tile register, or an even-odd pair, as a number. -/
def Tile.image (tl : Tile) (r : Nat) (pair : Bool) : Nat :=
  let t (i : Nat) : Nat := (tl.t.toList[i]?.getD 0).toNat
  t r + (if pair then t (r + 1) * 2 ^ 8192 else 0)
/-- A tile register or pair written whole, which heals it. -/
def Tile.setImage (tl : Tile) (r : Nat) (pair : Bool) (n : Nat) : Tile :=
  let t1 := tl.t.setIfInBounds r (BitVec.ofNat 8192 n)
  { tl with
    t := if pair then t1.setIfInBounds (r + 1) (BitVec.ofNat 8192 (n / 2 ^ 8192)) else t1
    bad := tl.bad.filter fun b => b != r && !(pair && b == r + 1) }
def Tile.acc (tl : Tile) (n : Nat) : Nat := (tl.a.toList[n]?.getD 0).toNat
def Tile.setAcc (tl : Tile) (n v : Nat) : Tile := { tl with a := tl.a.setIfInBounds n (BitVec.ofNat 16384 v) }
/-- Element (i, j) of an accumulator. -/
def accElem (a i j : Nat) : Nat := bitsAt a (64 * (16 * i + j)) 64

def Core.setTile (k : Core) (t : Tile) : Core := { k with tile := t }

/-- An accumulator with the enabled elements replaced (R187). -/
def mapAcc (a : Nat) (rows cols : Word) (f : Nat → Nat → Nat → Nat) : Nat :=
  (List.range 256).foldl (fun n e =>
    let i := e / 16
    let j := e % 16
    let old := accElem a i j
    n + (if rows.getLsbD i && cols.getLsbD (16 + j) then f i j old else old) * 2 ^ (64 * e)) 0

/-! The command window and uncorrectable errors (R193, R194). -/

/-- How the body of a tile command ends, beside the ends of any command: an uncorrectable error that it consumed. -/
inductive TileRes where
  | cmd (r : CmdRes)
  | upset (s : State) (t : TrapSpec)

/-- Does a command, by what it is, close the window? -/
def closesWindow (x : Cmd) : Bool :=
  x.code.head.we || x.code.head.se ||
  (match x.code.instr with
   | .tst _ | .tcksOff | .tcksOn => true
   | .tld f => f.of 9 1 == 1
   | _ => false)

/-- Is a command executed again by a replay? A TFMT is not (R202): what follows it is replayed under the TFMT that it set. -/
def replays (x : Cmd) : Bool :=
  match x.code.instr with
  | .tfmt _ => false
  | _ => true

/-- The window after a command has completed; a replay's next command runs under the TFMT of its first run. -/
def Tile.count (tl : Tile) (x : Cmd) : Tile :=
  match tl.window with
  | none => tl
  | some w =>
    if closesWindow x || decide (32 < w.count + 1) then { tl with window := none }
    else
      let kept := if replays x then [({ x with wait := none, unit := false, stage := 0 }, tl.tfmt)] else []
      { tl with
        tfmt := w.replay.tail.head?.getD tl.tfmt
        window := some { w with count := w.count + 1, cmds := w.cmds ++ kept, replay := w.replay.tail } }

/-- The window in which an error of a command can be undone. -/
def Tile.replayable (tl : Tile) (x : Cmd) : Option TileWindow :=
  match tl.window with
  | some w => if w.replay.isEmpty && w.count + 1 ≤ 32 && !closesWindow x then some w else none
  | none => none

/-- The snapshot restored, and every command since it put back at the head of the queue (R194), but for the TFMTs: each command, and
the one that met the error, is executed again under the TFMT of its first run (R202). What stood uncorrectable when TSTART made the
snapshot stands no longer (DESIGN CHOICE, log entry 60). -/
def State.replayTile (s : State) (w : TileWindow) : State :=
  let k := s.me
  let fmts := (w.cmds.map fun (x : Cmd × BitVec 13) => x.2) ++ [k.tile.tfmt]
  let t : Tile := { k.tile with
    t := w.t, a := w.a, tfmt := fmts.head?.getD w.tfmt, bad := []
    window := some { w with count := w.count - w.cmds.length, cmds := [], replay := fmts } }
  let k1 := { k with tile := t, tileQ := (w.cmds.map fun (x : Cmd × BitVec 13) => x.1) ++ k.tileQ }
  s.setMe (k1.setStrm .ts { k1.strm .ts with seed := w.seed })

/-- MEM_UE of an upset in the engine's own memories (R194); they have no address, so the log entry and the detail give space 0 and
address 0 (DESIGN CHOICE, log entry 60). -/
def tileUpset (x : Cmd) : TrapSpec :=
  { cause := cMEMUE, detail := (poisonEntry false false .ts 0 0 0 x.pc).toList }

/-- A tile command: `reads` names the registers (accumulators from 16 on, the engine at 24) that it reads. -/
def State.tileCmd (s : State) (i : Instr) (f : E) (more : State → List Word) (reads : State → List Nat)
    (body : State → Cmd → TileRes) : Out :=
  s.command .tile i f more fun s x =>
    let r : TileRes :=
      if (reads s).any fun r => s.me.tile.bad.contains r then
        let spec := tileUpset x
        let k := s.me
        .upset (s.setMe ({ k with tile := { k.tile with bad := k.tile.bad.filter (· != 24) } }.logErr
          (poisonEntry false false .ts 0 0 0 x.pc))) spec
      else body s x
    match r with
    | .cmd (.done s1) => .done (s1.setMe (s1.me.setTile (s1.me.tile.count x)))
    | .cmd r => r
    | .upset s1 t =>
      match s.me.tile.replayable x with
      | some w => .busy (s.replayTile w)
      | none => .trap s1 t

/-- A command that only changes tile state. -/
def TileRes.tile (s : State) (t : Tile) : TileRes := .cmd (.done (s.setMe (s.me.setTile t)))

/-! Masks. -/

/-- The mask words that a command reads at issue: all ones for m = 0 (R187), and the bitmap. -/
def maskWords (m : Nat) (z : Nat) (s : State) : List Word :=
  let r (n : Nat) : Word := s.getS (BitVec.ofNat 5 n)
  (if m = 0 then [BitVec.allOnes 64, BitVec.allOnes 64] else [r m, r (m + 1)]) ++ [r z]

def Cmd.rows (x : Cmd) : Word := x.more[0]?.getD 0
def Cmd.depth (x : Cmd) : Word := x.more[1]?.getD 0
def Cmd.zeros (x : Cmd) : Word := x.more[2]?.getD 0

/-! TLD (R190, R191, R196). -/

/-- The ranges of a TLD: its lines, then the scales of its lines. -/
def tldRanges (fmt : Nat) (a a1 : Nat) (p : Int) : List (Int × Nat) :=
  let lines : List (Int × Nat) := (List.range 16).map fun (l : Nat) => ((a : Int) + (l : Int) * p, tileLB fmt)
  if tileMX fmt then
    let bb : Int := if fmt = 13 then 16 else 32
    lines ++ (List.range 16).map fun (l : Nat) => ((a1 : Int) + (l : Int) * p / bb, tileK fmt / 32)
  else lines

/-- The line pitch of a TLD or TST. -/
def pitch (b : Word) : Int := (b.extractLsb' 0 32).toInt

/-- The image of the bytes of a TLD's ranges. -/
def tldImage (fmt : Nat) (bs : List Byte) : Nat :=
  let n := 16 * tileLB fmt
  leNat (bs.take n) + leNat (bs.drop n) * 2 ^ (8 * 512)

/-- The core that a TLD or TST names. -/
def tileTarget (c : CoreId) (sp pos : Nat) : CoreId :=
  if sp = 0 then c else ⟨(8 * clusterOf c + pos % 8) % 136, by omega⟩

/-- The read of a TLD by core `c`: its checks, its bytes. -/
def State.tldRead (s : State) (c : CoreId) (x : Cmd) (f : E) (go : Nat → TileRes) : TileRes :=
  let fmt := f.of 0 5
  let sp := f.of 5 1
  let t := tileTarget c sp (f.of 6 3)
  let p := pitch x.sb
  let bb : Int := if fmt = 13 then 16 else 32
  let rs := tldRanges fmt x.sa.toNat ((x.more[1]?.getD 0).toNat) p
  if x.sa.toNat % tileAlign fmt ≠ 0 ∨ p % tileAlign fmt ≠ 0 ∨ (tileMX fmt ∧ p % bb ≠ 0) then
    .cmd (.trap s { cause := cALIGN, addr := x.sa, kind := 0, space := sp })
  else if (s.core t).padHeld rs then .cmd (.busy s)
  else match rs.find? fun r => !s.padOk c t r.1 r.2 with
    | some r => .cmd (.trap s { cause := cSPRANGE, addr := BitVec.ofInt 64 r.1, kind := 0, space := sp })
    | none =>
      let k := s.core t
      match s.poisonTrap s.ctx.core .ts .load sp x.pc (rs.flatMap fun r => k.padBad t r.1.toNat r.2).eraseDups with
      | (s1, some e) => .upset s1 e
      | (_, none) => go (tldImage fmt (rs.flatMap fun r => k.padRead r.1.toNat r.2))

/-- What a multicast member's TLD must agree in with the lowest-numbered member's (R190). -/
def mcastKey (x : Cmd) : Option (Nat × Nat × Word × Int × Word × Word) :=
  match x.code.instr with
  | .tld f => some (f.of 0 5, f.of 6 3, x.sa, pitch x.sb, x.more[0]?.getD 0, if tileMX (f.of 0 5) then x.more[1]?.getD 0 else 0)
  | _ => none

/-- The head TLD of a multicast member that has issued it under a tag. -/
def State.mcastHead (s : State) (c : CoreId) (tag : Nat) : Option Cmd :=
  match (s.core c).tileQ with
  | x :: _ => if x.stage == 16 + tag then some x else none
  | [] => none

/-- The members of a set in the cluster of a core, lowest first. -/
def mcastCores (c : CoreId) (set : Word) : List CoreId :=
  ((List.range 8).filter fun p => set.getLsbD p).map fun p => tileTarget c 1 p

/-- One member receives the tile, and its TLD completes. -/
def State.mcastDeliver (s : State) (img : Nat) (c : CoreId) (x : Cmd) : State :=
  let fmt := match x.code.instr with | .tld f => f.of 0 5 | _ => 0
  let d := match x.code.instr with | .tld f => f.d.toNat | _ => 0
  let k := s.core c
  (s.setCore c (k.setTile ((k.tile.setImage d (fmt == 0) img).count x)))

/-- The other members of a complete set: those that agree receive the tile and complete, the others raise ILL_FIELD. -/
def State.mcastOthers (me : CoreId) (tag img : Nat) (key : Option (Nat × Nat × Word × Int × Word × Word)) :
    List CoreId → State → State
  | [], s => s
  | c :: t, s =>
    if c == me then State.mcastOthers me tag img key t s else
    match s.mcastHead c tag with
    | none => State.mcastOthers me tag img key t s
    | some x =>
      let s1 :=
        if mcastKey x == key then ((s.mcastDeliver img c x).popCmd c .tile).cmdSignal c x
        else s.raiseCmd c .tile false { cause := cILLFIELD, addr := x.sb }
      State.mcastOthers me tag img key t s1

/-- A multicast TLD at the head of its queue. A fault of the one read is raised at the member that completes the set, and the others
wait on (DESIGN CHOICE, log entry 59). -/
def State.mcast (s : State) (x : Cmd) (f : E) : TileRes :=
  let c := s.ctx.core
  let tag := f.of 10 4
  let set := x.more[0]?.getD 0
  if !set.getLsbD (posOf c) then .cmd (.trap s { cause := cILLFIELD, addr := x.sb }) else
  let s1 := s.setMe (s.me.mapHead .tile fun (y : Cmd) => { y with stage := 16 + tag })
  let missing (set : Word) : Bool := (mcastCores c set).any fun d => (s1.mcastHead d tag).isNone
  if missing set then .cmd (.wait s1 .mcast tag 0 0 true) else
  let lead := (mcastCores c set).head?.getD c
  match s1.mcastHead lead tag with
  | none => .cmd (.wait s1 .mcast tag 0 0 true)
  | some y =>
    let all := y.more[0]?.getD 0
    if !all.getLsbD (posOf c) then .cmd (.trap s1 { cause := cILLFIELD, addr := x.sb })
    else if missing all then .cmd (.wait s1 .mcast tag 0 0 true)
    else
      let g := match y.code.instr with | .tld g => g | _ => f
      s1.tldRead lead y g fun img =>
        let s2 := State.mcastOthers c tag img (mcastKey y) (mcastCores c all) s1
        if mcastKey x == mcastKey y then
          .tile s2 (s2.me.tile.setImage f.d.toNat (f.of 0 5 == 0) img)
        else .cmd (.trap s2 { cause := cILLFIELD, addr := x.sb })

/-- TLD (R196). -/
def execTld (f : E) (s : State) : Out :=
  s.tileCmd (.tld f) f (fun s => [(s.getS f.b).extractLsb' 32 8 |>.setWidth 64, s.getS (regPlus f.a 1)]) (fun _ => [])
    fun s x =>
      if f.of 9 1 = 1 then s.mcast x f
      else s.tldRead s.ctx.core x f fun img => .tile s (s.me.tile.setImage f.d.toNat (f.of 0 5 == 0) img)

/-! TST (R197). -/

/-- The elements of a TST in order: place in the accumulator and address. -/
def tstElems (rows : Word) (a : Nat) (p : Int) (eb : Nat) : List (Nat × Int) :=
  ((List.range 256).filter fun e => rows.getLsbD (e / 16) && rows.getLsbD (16 + e % 16)).map fun e =>
    (e, (a : Int) + (e / 16 : Nat) * p + (e % 16 * eb : Nat))

/-- The accumulator elements converted in order, with draws under SR. -/
def convertElems (src dst : NumTy) (mode : RMode) (a : Nat) : List Nat → BitVec 32 → List Nat × BitVec 32
  | [], seed => ([], seed)
  | e :: t, seed =>
    let d := if mode == .sr then lfsrDraw seed else seed
    let v := (src.convert dst mode d.toNat (accElem a (e / 16) (e % 16) % 2 ^ src.width)).1
    let r := convertElems src dst mode a t d
    (v :: r.1, r.2)

/-- TST (R197). A misaligned address or pitch traps though no element is enabled (DESIGN CHOICE, log entry 61). -/
def execTst (f : E) (s : State) : Out :=
  s.tileCmd (.tst f) f (maskWords (f.of 9 5) 0) (fun _ => [16 + f.d.toNat, 24]) fun s x =>
    let c := s.ctx.core
    let ty := NumTy.ofCode (f.of 0 4)
    let eb := ty.width / 8
    let sp := f.of 4 2
    let p := pitch x.sb
    let tl := s.me.tile
    if x.sa.toNat % eb ≠ 0 ∨ p % eb ≠ 0 then .cmd (.trap s { cause := cALIGN, addr := x.sa, kind := 1, space := sp }) else
    let es := tstElems x.rows x.sa.toNat p eb
    let r := convertElems (accTy tl.tfmt) ty (tfmtRM tl.tfmt) (tl.acc f.d.toNat) (es.map (·.1)) (s.strm c .ts).seed
    let bs := r.1.flatMap fun v => leBytes v eb
    let rs := joinRanges (es.map fun e => (e.2, eb))
    let put : Accessed :=
      if sp = 2 then s.storeRanges c s.ctx.strm rs bs else s.storePad c (tileTarget c sp (f.of 6 3)) sp rs bs
    match put with
    | .ok s1 _ => .cmd (.done (s1.setStrm c .ts { s1.strm c .ts with seed := r.2 }))
    | .trap s1 t => .cmd (.trap s1 t)
    | .hold _ => .cmd (.busy s)

/-! The commands on tile state (R198 to R202). -/

/-- TZERO (R198). -/
def execTzero (f : E) (s : State) : Out :=
  s.tileCmd (.tzero f) f (maskWords (f.of 0 5) 0) (fun _ => []) fun s x =>
    let tl := s.me.tile
    let n := f.d.toNat
    let whole := x.rows.extractLsb' 0 32 == BitVec.allOnes 32
    let t1 := tl.setAcc n (mapAcc (tl.acc n) x.rows x.rows fun _ _ _ => 0)
    .tile s { t1 with bad := if whole then t1.bad.filter (· != 16 + n) else t1.bad }

/-- TMOV (R198). -/
def execTmov (f : E) (s : State) : Out :=
  let accs := f.of 0 1 == 1
  s.tileCmd (.tmov f) f (fun _ => []) (fun _ => [if accs then 16 + f.a.toNat else f.a.toNat]) fun s _ =>
    let tl := s.me.tile
    if accs then
      let t1 := tl.setAcc f.d.toNat (tl.acc f.a.toNat)
      .tile s { t1 with bad := t1.bad.filter (· != 16 + f.d.toNat) }
    else .tile s (tl.setImage f.d.toNat false (tl.image f.a.toNat false))

/-- The accumulator that a product gives (R199): depth positions are enabled by the mask and outside marked blocks
(DEDUCED, log entry 39). -/
def product (cls : TileSum) (af bf : Nat) (a b acc : Nat) (rows depth zeros : Word) : Nat :=
  let k := tileK af
  mapAcc acc rows rows fun i j old =>
    tileSum cls old ((List.range k).map fun d =>
      if depth.getLsbD d && !zeros.getLsbD (i / 8 * (k / 8) + d / 8) then (tileElem af a i d, tileElem bf b j d)
      else (posZero, posZero))

/-- What a product adds to element (i, j), exactly (R192). -/
def updateVal (af bf a b i j : Nat) (depth zeros : Word) : FVal :=
  let k := tileK af
  dotVal (((List.range k).filter fun d => depth.getLsbD d && !zeros.getLsbD (i / 8 * (k / 8) + d / 8)).map fun d =>
    (tileElem af a i d, tileElem bf b j d))

/-- An element as the check sees it: what the result differs by from the exact update, and the update; none where a value is not
finite. -/
def checkElem (f : Fmt) (acc new i j : Nat) (u : FVal) : Option (FVal × FVal) :=
  let d := subVal (subVal (f.read (accElem new i j % 2 ^ f.width)) (f.read (accElem acc i j % 2 ^ f.width))) u
  if d.isNum then some (d, u) else none

/-- Does the sum of a row or column of the result agree with that of the update (R192)? -/
def lineAgrees (tol : Nat) (l : List (Option (FVal × FVal))) : Bool :=
  l.all (·.isSome) &&
  withinUlps tol ((l.filterMap id).foldl (fun n (x : FVal × FVal) => addVal n x.1) posZero)
    ((l.filterMap id).foldl (fun n (x : FVal × FVal) => addVal n x.2.abs) posZero)

/-- The comparison of R192: the row sums and column sums of the enabled elements within CKTOL ulps of the sums of the magnitudes of
their updates, all sums exact; in the INT64 class they are equal (DEDUCED, log entry 21). -/
def sumsAgree (cls : TileSum) (af bf a b acc new tol : Nat) (rows depth zeros : Word) : Bool :=
  let f := match cls with
    | .fused f => f
    | .narrow | .integer | .block _ => f32
  let on (i j : Nat) : Bool := rows.getLsbD i && rows.getLsbD (16 + j)
  let at_ (i j : Nat) : List (Option (FVal × FVal)) :=
    if on i j then [checkElem f acc new i j (updateVal af bf a b i j depth zeros)] else []
  cls == .integer ||
  (((List.range 16).all fun i => lineAgrees tol ((List.range 16).flatMap fun j => at_ i j)) &&
   ((List.range 16).all fun j => lineAgrees tol ((List.range 16).flatMap fun i => at_ i j)))

/-- TMMA and TMMAS (R199), with the check of R192. A result whose sums agree passes. Of one whose sums do not, the engine's own path,
which rounds as the manual does not say, may still find that they agree, at the first run and at the second (a free choice); where it
finds twice that they do not, CKS_FAIL (DEDUCED, log entry 21). -/
def State.multiply (s : State) (f : E) (x : Cmd) (zeros : Word) : TileRes :=
  let tl := s.me.tile
  let af := tfmtAF tl.tfmt
  let bf := tfmtBF tl.tfmt
  match tilePair af bf with
  | none => .cmd (.trap s { cause := cILLFIELD, addr := tl.tfmt.setWidth 64 })
  | some cls =>
    let pair := cls == .fused f64
    if pair && (f.a.toNat % 2 == 1 || f.b.toNat % 2 == 1) then
      .cmd (.trap s { cause := cILLFIELD, addr := tl.tfmt.setWidth 64 })
    else
      let img (r : BitVec 5) : Nat := tl.image r.toNat pair
      let acc := tl.acc f.d.toNat
      let new := product cls af bf (img f.a) (img f.b) acc x.rows x.depth zeros
      let open_ := tl.cke && !sumsAgree cls af bf (img f.a) (img f.b) acc new s.me.cktol.toNat x.rows x.depth zeros
      let s1 := if open_ then s.drawn else s
      if open_ && Config.freeAt s.draws 0 && Config.freeAt s.draws 1 then
        .cmd (.trap s1 { cause := cCKSFAIL, detail := [f.d.setWidth 64] })
      else .tile s1 (tl.setAcc f.d.toNat new)

/-- The registers that a product reads. -/
def productReads (f : E) (s : State) : List Nat :=
  let tl := s.me.tile
  let two := tfmtAF tl.tfmt = 0
  [f.a.toNat, f.b.toNat, 16 + f.d.toNat, 24] ++ (if two then [f.a.toNat + 1, f.b.toNat + 1] else [])

/-- TMMA (R199). -/
def execTmma (f : E) (s : State) : Out :=
  s.tileCmd (.tmma f) f (maskWords (f.of 0 5) 0) (productReads f) fun s x => s.multiply f x 0
/-- TMMAS (R199, R189). -/
def execTmmas (f : E) (s : State) : Out :=
  s.tileCmd (.tmmas f) f (maskWords (f.of 0 5) (f.of 5 5)) (productReads f) fun s x => s.multiply f x x.zeros

/-- A transposed image of 16 x 16 elements (R200). -/
def transpose (w img : Nat) : Nat :=
  (List.range 256).foldl (fun n e => n + bitsAt img (w * (16 * (e % 16) + e / 16)) w * 2 ^ (w * e)) 0

/-- TTRN (R200). -/
def execTtrn (f : E) (s : State) : Out :=
  let w := 16 * 2 ^ f.of 0 2
  let pair := f.of 0 2 == 2
  s.tileCmd (.ttrn f) f (fun _ => []) (fun _ => f.a.toNat :: if pair then [f.a.toNat + 1] else []) fun s _ =>
    let tl := s.me.tile
    .tile s (tl.setImage f.d.toNat pair (transpose w (tl.image f.a.toNat pair)))

/-- The number format of a TCVT target. -/
def tileNum : Nat → NumTy
  | 0 => .flt f64 | 1 => .flt f32 | 2 => .flt f16 | 3 => .flt bf16 | 4 => .flt e4m3 | 5 => .flt e5m2
  | 6 => .int true 8 | 7 => .int false 8 | 8 => .hs 8 | _ => .hs 4

/-- TCVT (R201). -/
def execTcvt (f : E) (s : State) : Out :=
  s.tileCmd (.tcvt f) f (fun _ => []) (fun _ => [16 + f.a.toNat, 24]) fun s _ =>
    let c := s.ctx.core
    let tl := s.me.tile
    let fmt := f.of 0 5
    let ty := tileNum fmt
    let mode := if f.of 5 3 = 7 then tfmtRM tl.tfmt else RMode.ofCode (f.of 5 3)
    let r := convertElems (accTy tl.tfmt) ty mode (tl.acc f.a.toNat) (List.range 256) (s.strm c .ts).seed
    let img := r.1.zipIdx.foldl (fun n x => n + x.1 * 2 ^ (8 * tileLB fmt * (x.2 / 16) + ty.width * (x.2 % 16))) 0
    .tile (s.setStrm c .ts { s.strm c .ts with seed := r.2 }) (tl.setImage f.d.toNat (fmt == 0) img)

/-- TFMT (R202, R179). -/
def execTfmt (f : E) (s : State) : Out :=
  s.tileCmd (.tfmt f) f (fun _ => []) (fun _ => []) fun s x =>
    let v := x.sa.setWidth 13
    if 2 ^ 13 ≤ x.sa.toNat ∨ 4 < (v.extractLsb' 10 3).toNat ∨ (tilePair (tfmtAF v) (tfmtBF v)).isNone then
      .cmd (.trap s { cause := cILLFIELD, addr := x.sa })
    else .tile s { s.me.tile with tfmt := v }

/-- TSTART (R193): a new window. -/
def execTstart (s : State) : Out :=
  s.command .tile .tstart E.none (fun _ => []) fun s _ =>
    let tl := s.me.tile
    let w : TileWindow := ⟨tl.t, tl.a, tl.tfmt, (s.strm s.ctx.core .ts).seed, 0, [], []⟩
    .done (s.setMe (s.me.setTile { tl with window := some w }))

/-- TCKS (R202). -/
def execTcksOff (s : State) : Out :=
  s.tileCmd .tcksOff E.none (fun _ => []) (fun _ => []) fun s _ => .tile s { s.me.tile with cke := false }
def execTcksOn (s : State) : Out :=
  s.tileCmd .tcksOn E.none (fun _ => []) (fun _ => []) fun s _ => .tile s { s.me.tile with cke := true }

end Sys2Proof.Machine
end

