-- ==== Sys2Proof/Machine/System.lean ====
section
/-! DEFINITION. The system instructions (R430 to R442): traps and their handlers, CSRs, address spaces, full saves, pre-emption, the
supervisor's acts on jobs, error logs, injected faults, migration; and the events of R423 to R428. -/
namespace Sys2Proof.Machine

/-! Traps. -/

/-- TRAP (R431). -/
def execTrap (f : RI) (s : State) : Out :=
  s.issue fun s => .trap s { cause := cTRAPI, detail := [f.imm.setWidth 64, s.getS f.a] }

/-- TRET (R418, R432). -/
def execTret (s : State) : Out := s.issue fun s => .stay (s.leaveHandler s.ctx.core)

/-- UDECL (R432): the trap goes to the supervisor with ESC; the handler frame is kept. -/
def execUdecl (s : State) : Out :=
  s.issue fun s =>
    match s.me.handler with
    | none => .done s
    | some h => .stay (s.stopJob s.ctx.core { h.record with esc := true })

/-- The address at which the trapping stream is to resume (R418). -/
def Core.resumeAddr (k : Core) (h : Handler) : Word :=
  (((k.restoreFrame h.frame).strm h.record.strm).resumeAt h.seth h.record.cause).pc

/-- SETH (R433). -/
def execSeth (f : RRR) (s : State) : Out :=
  s.issue fun s =>
    match s.me.handler with
    | none => .done s
    | some h =>
      let a := s.getS f.a
      if h.record.eng then .trap s { cause := cILLFIELD, addr := a } else
      match s.target s.ctx.core s.ctx.strm a with
      | (s1, .error e) =>
        .trap s1 { cause := cILLTARGET, addr := BitVec.ofNat 64 e.2 }
      | (s1, .ok _) =>
        let old := s.me.resumeAddr h
        .done ((s1.setMe { s1.me with handler := some { h with seth := some a } }).putS 1 f.d old)

/-! CSRs (R429, R434). -/

/-- The value of a user CSR (R429). -/
def State.userCsr (s : State) (n : Nat) : Word :=
  let c := s.ctx.core
  let k := s.me
  match n with
  | 0x00 => k.jobid
  | 0x01 => BitVec.ofNat 64 (coreid c)
  | 0x02 => BitVec.ofNat 64 (localOf c / 8 + 8 * (dieOf c).val)
  | 0x03 => k.asid.setWidth 64
  | 0x04 => k.dmr
  | 0x05 => BitVec.ofNat 64 k.bib
  | 0x06 => BitVec.ofNat 64 k.bdepth
  | 0x07 => k.bprio.setWidth 64
  | 0x08 => k.eprio.setWidth 64
  | 0x09 => s.str.wlim.setWidth 64
  | 0x0A => k.utvec
  | 0x0B => k.utrec
  | 0x0C => k.fflags.setWidth 64
  | 0x0D => k.vtype.setWidth 64
  | 0x0E => if s.ctx.strm = .vs ∨ s.ctx.strm = .ts ∨ s.ctx.strm = .ws then s.str.seed.setWidth 64 else 0
  | 0x0F => k.twin.setWidth 64
  | 0x10 => s.gsc
  | 0x11 =>
    match k.bank with
    | some b => (s.myArr.bankAt b).steps
    | none => 0
  | 0x12 => k.cktol.setWidth 64
  | 0x13 => k.lodcnt
  | 0x14 => k.xtlim.setWidth 64
  | _ => 0

/-- The value of a supervisor CSR (R429). -/
def Die.supCsr (x : Die) (n : Nat) : Word :=
  match n with
  | 0x100 => x.stvec
  | 0x101 => x.ptroot
  | 0x102 => x.spill
  | 0x103 => x.plim.setWidth 64
  | 0x104 => x.trcbase
  | 0x105 => x.trclen
  | 0x106 => x.errcfg
  | 0x107 => x.leasemax.setWidth 64
  | 0x108 => x.rlim.setWidth 64
  | 0x109 => x.stateWord
  | _ => 0

/-- An access to SEED in the TS waits until the tile command queue is empty (R183). -/
def State.seedHeld (s : State) (n : Nat) : Bool := n == 0x0E && s.ctx.strm == .ts && !s.me.tileQ.isEmpty

/-- CSRR (R434). -/
def execCsrr (f : RX) (s : State) : Out :=
  s.issue fun s =>
    let n := f.xf 0 12
    if s.seedHeld n then .drain s
    else .done (s.putS 1 f.d (if n < 0x100 then s.userCsr n else s.myDie.supCsr n))

/-- A refused value of a CSR (R429). -/
def State.badCsr (s : State) (v : Word) : Res := .trap s { cause := cILLFIELD, addr := v }

/-- A write of a supervisor CSR, with the bits that the value may have. -/
def State.setSup (s : State) (v mask : Word) (set : Die → Die) : Res :=
  if v &&& ~~~mask ≠ 0 then s.badCsr v else .done (s.setMyDie (set s.myDie))

/-- A write of a user CSR without a row of its own (R429, R148, R221, R227, R262, R293, R379, R405). -/
def State.writeUser (s : State) (n : Nat) (v : Word) : Res :=
  let k := s.me
  match n with
  | 0x09 => .done (s.setStr { s.str with wlim := clamp32 v })
  | 0x0A => .done (s.setMe { k with utvec := v })
  | 0x0B => if v.extractLsb' 0 7 ≠ 0 ∨ v.extractLsb' 48 16 ≠ 0 then s.badCsr v else .done (s.setMe { k with utrec := v })
  | 0x0C => .done (s.setMe { k with fflags := v.setWidth 5 })
  | 0x0D =>
    if 2 ^ 7 ≤ v.toNat ∨ 10 < (v.extractLsb' 0 4).toNat ∨ 4 < (v.extractLsb' 4 3).toNat then s.badCsr v
    else .done (s.setMe { k with vtype := v.setWidth 7 })
  | 0x0E =>
    if s.ctx.strm = .vs ∨ s.ctx.strm = .ts ∨ s.ctx.strm = .ws then .done (s.setStr { s.str with seed := seedOf (v.setWidth 32) })
    else .done s
  | 0x0F => s.setTwin v.toNat .done
  | 0x11 =>
    match k.bank with
    | some b => .done (s.setMyArr (s.myArr.setBank b { s.myArr.bankAt b with steps := v }))
    | none => .done s
  | 0x12 => .done (s.setMe { k with cktol := v.setWidth 16 })
  | 0x13 => .done (s.setMe { k with lodcnt := v })
  | 0x14 => .done (s.setMe { k with xtlim := v.setWidth 32 })
  | _ => .done s

/-- A write of a supervisor CSR (R429, R81) (DEDUCED, log entry 31). -/
def State.writeSup (s : State) (n : Nat) (v : Word) : Res :=
  match n with
  | 0x100 => s.setSup v 0x0000_FFFF_FFFF_FFC0 fun x => { x with stvec := v }
  | 0x101 => s.setSup v 0x0000_FFFF_FFFF_0000 fun x => { x with ptroot := v }
  | 0x103 => s.setSup v 0xFFFF_FFFF fun x => { x with plim := v.setWidth 32 }
  | 0x104 => s.setSup v 0xFFFF_FFFF_FFFF_FFE0 fun x => { x with trcbase := v }
  | 0x105 => .done (s.setMyDie { s.myDie with trclen := v })
  | 0x106 => s.setSup v 0x13F fun x => { x with errcfg := v }
  | 0x107 => s.setSup v 0xFFFF_FFFF fun x => { x with leasemax := v.setWidth 32 }
  | 0x108 => s.setSup v 0xFFFF_FFFF fun x => { x with rlim := v.setWidth 32 }
  | _ => .done s

/-- CSRW of a CSR without a row of its own (R434). -/
def execCsrw (f : RX) (s : State) : Out :=
  s.issue fun s =>
    let n := f.xf 0 12
    let v := s.getS f.a
    if s.seedHeld n then .drain s
    else if n < 0x100 then s.writeUser n v else s.writeSup n v

/-- CSRW of DMR acts as DOMAIN (R429, R87). -/
def execCsrwDmr (f : RX) (s : State) : Out := s.issue fun s => s.setDomain (s.getS f.a) fun s _ => .done s

/-- CSRW of BIB (R361). -/
def execCsrwBib (f : RX) (s : State) : Out :=
  s.issue fun s => .done (s.setMe { s.me with bib := (s.getS f.a).toNat % s.me.bdepth })

/-- CSRW of BDEPTH (R361). -/
def execCsrwBdepth (f : RX) (s : State) : Out :=
  s.issue fun s => s.newDepth (s.getS f.a) fun s => .done (s.setMe { s.me with bib := s.me.bib % s.me.bdepth })

/-- CSRW of BPRIO clamps as PRIO does (R86, R429). -/
def execCsrwBprio (f : RX) (s : State) : Out := s.issue fun s => .done (s.setBprio (s.getS f.a).toNat)

/-! Address spaces and translations (R435, R288). -/

/-- A translation of an ASID that is not global. -/
def TlbEntry.of (t : TlbEntry) (asid : BitVec 13) : Bool := t.asid == asid && !pteG t.pte
/-- Used translations forgotten (DEDUCED, log entry 9). -/
def State.forget (s : State) (drop : TlbEntry → Bool) : State := { s with tlb := s.tlb.filter fun t => !drop t }

/-- A physical access of the supervisor outside memory (R18, R430) (DEDUCED, log entry 33). -/
def physFault (acc : Acc) (cause : Nat) (a : Word) : TrapSpec := { cause := cause, addr := a, kind := acc.code, space := 2 }

/-- No copy that an engine accepted in or before a slot goes on, for jobs that `of` picks: it holds its translations (R330, R435). -/
def State.copiesOver (s : State) (slot : Nat) (of : BitVec 13 → Bool) : Bool :=
  let clear (k : Core) : Bool := !of k.asid || k.copies.all fun (x : Copy) => slot < x.since
  s.cores.toList.all clear && s.saved.all fun (x : Saved) => clear x.core

/-- An invalidation: its effect at once, with a value kept for its end; it completes when no access goes on that uses a translation
it removed (R435); this waits on the device's own paths, without registration (R348). -/
def State.invalidate (s : State) (of : BitVec 13 → Bool) (kept : Word) (act : State → State) (fin : State → Word → State) : Res :=
  match s.str.wait with
  | none =>
    let s1 := act s
    if s1.copiesOver s.clock of then .done (fin s1 kept) else .wait s1 .opn 0 kept.toNat 0 false
  | some w =>
    if s.copiesOver w.since of then .done (fin s (BitVec.ofNat 64 w.phys)) else .wait s .opn 0 w.phys 0 false

/-- ASET (R435). -/
def execAset (f : RRR) (s : State) : Out :=
  s.issue fun s =>
    let asid : BitVec 13 := (s.getS f.a).setWidth 13
    let b := s.getS f.b
    let at_ := s.myDie.ptroot.toNat + 8 * asid.toNat
    if b.extractLsb' 0 9 ≠ 0 then .trap s (physFault .store cALIGN b)
    else if !s.physOk at_ then .trap s (physFault .store cPROT (BitVec.ofNat 64 at_))
    else
      let new : Word := (b &&& 0x0000_FFFF_FFFF_FE00) ||| (if b = 0 then 0 else 1)
      s.invalidate (· == asid) (s.pread8 at_) (fun s => (s.pwrite8 at_ new).forget fun t => t.of asid) fun s old => s.arriveS f.d old

/-- TLBI (R435). -/
def execTlbi (f : RRR) (s : State) : Out :=
  s.issue fun s =>
    let b := s.getS f.b
    let asid : BitVec 13 := b.extractLsb' 16 13
    let va := (s.getS f.a).toNat
    let op := (b.extractLsb' 0 2).toNat
    let drop (t : TlbEntry) : Bool :=
      match op with
      | 0 => true
      | 1 => t.of asid
      | 2 => t.of asid && t.covers asid.toNat va
      | _ => pteG t.pte
    s.invalidate (fun x => op == 0 || op == 3 || x == asid) 0 (fun s => s.forget drop) fun s _ => s

/-! Resuming a stopped job (R420, R437). -/

/-- PRQ's resumption, with the effect of TRET (R418); a job stopped in handler mode by anything but UDECL goes on in it. -/
def State.resumeJob (s : State) (c : CoreId) : State :=
  let k := s.core c
  match k.stopped with
  | none => s
  | some r =>
    let k1 := { k with stopped := none, saving := false }
    if r.esc then (s.setCore c k1).leaveHandler c
    else
      let k2 := if r.eng then k1 else k1.setStrm r.strm ((k1.strm r.strm).resumeAt none r.cause)
      let s1 := s.setCore c ((k2.untrap r false).thaw (s.clock + 1))
      if k.handler.isSome then s1 else s1.raiseHeld c

/-- The job of a die that a JOBID names, on a core or saved (R437). -/
def State.jobOn (s : State) (d : Fin 2) (jobid : Word) : JobPlace :=
  match s.jobPlace jobid with
  | .core c => if dieOf c = d then .core c else .gone
  | .saved n => if (s.saved[n]?).any (fun x => x.die == d.val) then .saved n else .gone
  | .gone => .gone

/-- A lease taken away by force (R224): edge admissions meet LEASE_REVOKED. -/
def State.revoke (s : State) (c : CoreId) : State :=
  let n := clusterOf c
  let a := s.arr n
  s.setArr n { a with lease := none, ending := 0, forced := (s.core c).jobid :: a.forced }

/-- PRQ's acts: the state and the result; none for an operation that R437 does not have (DEDUCED, log entry 32). -/
def State.prq (s : State) (p : JobPlace) (op cause : Nat) : Option (State × Nat) :=
  match op, p with
  | 0, .core c =>
    let k := s.core c
    some (s.setCore c { k with request := some (k.request.getD ⟨none, 0, 0, 0, false⟩) }, 0)
  | 1, .core c => if (s.core c).stopped.isSome then some (s.resumeJob c, 0) else some (s, 2)
  | 2, .core c => some (s.endJob c cause 3, 0)
  | 2, .saved n => some (s.endSaved n cause 3, 0)
  | 3, .core c =>
    let a := s.arr (clusterOf c)
    if a.lease == some c && !a.frozen then some (s.revoke c, 0) else some (s, 2)
  | 0, .saved _ | 1, .saved _ | 3, .saved _ => some (s, 2)
  | 0, .gone | 1, .gone | 2, .gone | 3, .gone => some (s, 1)
  | _, _ => none

/-- PRQ (R437). -/
def execPrq (f : RRR) (s : State) : Out :=
  s.issue fun s =>
    let b := s.getS f.b
    match s.prq (s.jobOn (dieOf s.ctx.core) (s.getS f.a)) (b.extractLsb' 0 4).toNat (b.extractLsb' 8 8).toNat with
    | none => .trap s { cause := cILLFIELD, addr := b }
    | some (s1, r) => .done (s1.arriveS f.d (BitVec.ofNat 64 r))

/-- ARES (R442): a command of the copy engine at which the AS halted is tried again; waits that the AS holds count again from the next
slot. -/
def execAres (f : RRR) (s : State) : Out :=
  s.issue fun s =>
    match s.jobOn (dieOf s.ctx.core) (s.getS f.a) with
    | .core c =>
      let t := s.strm c .as
      if t.halted then
        let k := (s.core c).setStrm .as { t with halted := false, readyAt := max t.readyAt (s.clock + 1) }
        .done ((s.setCore c { k with
          copyQ := k.copyQ.map (fun (x : Cmd) => { x with trapped := false }), aresSlot := some s.clock }).arriveS f.d 0)
      else .done (s.arriveS f.d 1)
    | .saved _ | .gone => .done (s.arriveS f.d 1)

/-! Full saves (R424, R436). -/

/-- The head command of a queue made unexecuted again: its wait withdrawn, the unit of its wait field given back (R42, R356). -/
def Core.unstart (k : Core) (e : Eng) : Core :=
  match k.headCmd e with
  | none => k
  | some x =>
    if x.failing then k.mapHead e fun (y : Cmd) => { y with wait := none } else
    let k1 := k.mapHead e fun (y : Cmd) =>
      { y with wait := none, unit := false, stage := 0, timer := 0, acc := [], next := 0 }
    if x.unit then k1.signal x.code.head.wsem.toNat 1 else k1

/-- A stream's wait withdrawn for a save, unless an event has satisfied it (R355, R356). -/
def Core.unwait (k : Core) (i : StreamId) : Core :=
  let t := k.strm i
  let w := settledWait t.wait
  let k1 := if w.isSome then k else k.undoWait t.wait
  k1.setStrm i { k1.strm i with wait := w, draining := false, arrived := false }

/-- A job as a full save leaves it: waits withdrawn, heads unexecuted, nothing of L1; the stop kept only when its cause is not
PREEMPT. -/
def Core.forSave (k : Core) : Core :=
  let k1 := allStreams.foldl (fun k i => k.unwait i) k
  let k2 := allEngs.foldl (fun k e => k.unstart e) k1
  let preempt := match k.stopped with
    | some r => r.cause == cPREEMPT
    | none => true
  { k2 with
    stopped := if preempt then none else k.stopped
    saving := false, locked := [], hostCopies := [], freeze := 0 }

/-- The lessee's admissions return to its queue and the lease is released, at the start of the drain (R232); under a freeze the
lease stays. -/
def State.startDrain (s : State) (c : CoreId) : State :=
  if (s.core c).saving then s else
  let n := clusterOf c
  let s1 := s.recall n c fun _ => true
  let a := s1.arr n
  let s2 := if a.frozen && a.lease == some c then s1 else s1.dropLease c
  s2.setCore c { s2.core c with saving := true }

/-- The engines of a job have completed what they can: every head waits or stands trapped, or none is left. -/
def Core.headsRest (k : Core) : Bool := allEngs.all fun e => (k.headCmd e).all fun (x : Cmd) => x.trapped || x.wait.isSome

/-- Everything that a full save waits for has come (R97, R265, R384, R232, R330, R424): the command queues are empty, but for a queue
whose head waits or stands trapped, which is saved as it is (DEDUCED, log entry 28). -/
def State.drained (s : State) (c : CoreId) : Bool :=
  let k := s.core c
  let a := s.arr (clusterOf c)
  k.headsRest && !k.racing && k.copies.isEmpty && !((k.headCmd .coll).any fun x => x.timer != 0 && !x.trapped) &&
  (k.queues.toList.all fun q => q.entries.all (·.arrived)) &&
  ((a.frozen && a.lease == some c) || s.wavesDrained c)

/-- Sections of at least some lengths, which share out a number of words of room between them in a way that is not fixed. -/
def shareRoom : List Nat → Nat → Nat → List Nat
  | [], _, _ => []
  | least :: t, room, draws =>
    let n := Config.freeChoice draws % (room + 1)
    (least + 8 * n) :: shareRoom t (room - n) (draws + 1)

/-- The lengths of an image's sections behind its header, each with its own 8 bytes of length: not fixed, together at most 2 MiB; the
first has room for a trap record, the last for the scratchpad's granules (R424) (DEDUCED, log entry 28). -/
def sectionSizes (pad draws : Nat) : List Nat :=
  shareRoom [136, 8, 8, 8, 8, 8, 8 + pad] (262115 - pad / 8) draws

/-- Where in the first section a record stands (DEDUCED, log entry 28). -/
def recordPlace (sizes : List Nat) (draws : Nat) : Nat :=
  56 + 8 * (Config.freeChoice (draws + 7) % ((sizes.headD 136 - 136) / 8 + 1))

/-- Draws of an image's layout. -/
def imageDraws : Nat := 8

/-- The length of an image. -/
def imageSize (sizes : List Nat) : Nat := 48 + sizes.sum

/-- The sections of an image from an offset on: a length each, and bytes that are not architectural. -/
def imageSections (ticket : Nat) : Nat → List Nat → List Byte
  | _, [] => []
  | off, n :: t => leBytes n 8 ++ freeBytes ticket (off + 8) (n - 8) ++ imageSections ticket (off + n) t

/-- "Context image" (R424): the header; the sections; and the record of an unresolved stop in its place. Bit 0 of the flags is
handler mode, which UDECL has left (R432) (DEDUCED, log entry 28). -/
def imageBytes (k : Core) (ticket : Nat) (sizes : List Nat) (record : Nat) : List Byte :=
  let handling := k.handler.isSome && !(k.stopped.any fun r => r.esc)
  let flags := (if handling then 1 else 0) + (if k.stopped.isSome then 2 else 0) + (if k.request.isSome then 4 else 0)
  let bs := leBytes imgFmt 8 ++ leBytes (imageSize sizes) 8 ++ leBytes k.jobid.toNat 8 ++ leBytes k.asid.toNat 8 ++
    leBytes flags 8 ++ leBytes (if k.stopped.isSome then record else 0) 8 ++ imageSections ticket 48 sizes
  match k.stopped with
  | some r => bs.take record ++ r.bytes ++ bs.drop (record + 128)
  | none => bs

/-- The job leaves its core for an image at a physical address (R424, R436); the address must hold the image
(DEDUCED, log entry 28). -/
def State.saveTo (s : State) (c : CoreId) (pa : Nat) (sizes : List Nat) (record : Nat) : State :=
  let s0 := s.drainHost c fun _ => true
  let k := (s0.core c).forSave
  let n := clusterOf c
  let ticket := s0.seq
  let s1 : State := { s0 with
    seq := s0.seq + 1
    mem := s0.mem.splice pa (imageBytes k ticket sizes record)
    poison := s0.poison.filter fun l => !(pa <= l && l + 64 <= pa + imageSize sizes) }
  let x : Saved :=
    { node := false, origin := c, place := pa, die := (dieOf c).val, ticket := ticket, unresolved := k.stopped.isSome, core := k }
  let s2 := { s1 with saved := s1.saved ++ [x], images := ⟨ticket, sizes, record, x⟩ :: s1.images }
  let a := s2.arr n
  let s3 := if a.frozen && a.lease == some c then s2.setArr n { a with lease := none, keeper := some k.jobid } else s2
  (s3.jobStatus k 0 8).idle c

/-- CTXSV (R436) (DEDUCED, log entry 28). -/
def execCtxsv (f : RRR) (s : State) : Out :=
  s.issue fun s =>
    let b := s.getS f.b
    let pa := b.toNat
    if pa % 4096 ≠ 0 then .trap s (physFault .store cALIGN b)
    else if !s.physOk pa then .trap s (physFault .store cPROT b)
    else match s.jobOn (dieOf s.ctx.core) (s.getS f.a) with
      | .core c =>
        if (s.core c).stopped.isNone then .done (s.arriveS f.d 0) else
        let s1 := s.startDrain c
        if !s1.drained c then .drain s1 else
        let sizes := sectionSizes (s1.core c).padSize s1.draws
        let len := imageSize sizes
        if !s1.physOk (pa + len - 1) then .trap s1 (physFault .store cPROT b)
        else .done (({ s1 with draws := s1.draws + imageDraws }.saveTo c pa sizes (recordPlace sizes s1.draws)).arriveS f.d
          (BitVec.ofNat 64 len))
      | .saved _ | .gone => .done (s.arriveS f.d 0)

/-- The image that memory holds at an address, if CTXSV has made it (DEDUCED, log entry 28). -/
def State.imageAt (s : State) (pa : Nat) : Option CtxImage :=
  s.images.find? fun m => s.mem.readN pa (imageSize m.sizes) == imageBytes m.saved.core m.ticket m.sizes m.record

/-- An image's job put on a core (R436): its streams go on in the next slot, unless it stays stopped; a request that the save
has met is over (R79); held traps are raised (DEDUCED, log entry 28). -/
def State.restoreTo (s : State) (m : CtxImage) (c : CoreId) : State :=
  let n := (s.saved.findIdx? fun x => !x.node && x.ticket == m.ticket).getD s.saved.length
  let x := (s.saved[n]?).getD m.saved
  let k := x.core.thaw (s.clock + 1)
  let s1 := s.place n x { k with request := if x.unresolved then k.request else none } c
  if (s1.core c).stopped.isSome || (s1.core c).handler.isSome then s1 else s1.raiseHeld c

/-- CTXRS (R436) (DEDUCED, log entry 28). -/
def execCtxrs (f : RRR) (s : State) : Out :=
  s.issue fun s =>
    match s.imageAt (s.getS f.b).toNat with
    | none => .done (s.arriveS f.d 1)
    | some m =>
      let c := coreAt (dieOf s.ctx.core) ((s.getS f.a).extractLsb' 0 6).toNat
      if !s.coreIdle c then .done (s.arriveS f.d 2)
      else .done ((s.restoreTo m c).arriveS f.d 0)

/-! The spill area, logs, injected faults (R438 to R440). -/

/-- WFTSP (R438). -/
def execWftsp (f : RRR) (s : State) : Out :=
  s.issue fun s =>
    let a := s.getS f.a
    let n := (s.getS f.b).toNat
    if a.extractLsb' 0 5 ≠ 0 then .trap s (physFault .store cALIGN a)
    else if n % 32 ≠ 0 then .trap s (physFault .store cALIGN (s.getS f.b))
    else if n / 32 < s.tableUsed (dieOf s.ctx.core) - 4096 then .done (s.arriveS f.d (BitVec.allOnes 64))
    else .done ((s.setMyDie { s.myDie with spill := a &&& 0x0000_FFFF_FFFF_FFE0, spillCap := n / 32 }).arriveS f.d
      (BitVec.ofNat 64 (n / 32)))

/-- What ERRLOG reads of a log (R439). -/
def ErrLog.read (l : ErrLog) (v : Word) : Word :=
  if v.getLsbD 10 then
    BitVec.ofNat 64 (l.entries.length % 65536 + (if l.ovf then 65536 else 0) + l.appended % 2 ^ 32 * 2 ^ 32)
  else
    match l.entries[(v.extractLsb' 2 8).toNat]? with
    | some e => e[(v.extractLsb' 0 2).toFin]
    | none => 0

/-- ERRLOG (R439) (DEDUCED, log entry 33). -/
def execErrlog (f : RRR) (s : State) : Out :=
  s.issue fun s =>
    let v := s.getS f.a
    let l := if s.sup then s.myDie.log else s.me.log
    let l1 : ErrLog := if v.getLsbD 11 then { l with entries := [], ovf := false } else l
    let s1 := if s.sup then s.setMyDie { s.myDie with log := l1 } else s.setMe { s.me with log := l1 }
    .done (s1.putS 1 f.d (l.read v))

/-- A line of physical memory becomes uncorrectable (R294, R427). -/
def State.poisonLine (s : State) (pa : Nat) : State :=
  let l := pa / 64 * 64
  if !s.physOk l || s.poison.contains l then s else { s with poison := l :: s.poison }

/-- A lane fault of a core's vertical bus (R428): with a spare lane a freeze of at most 512 slots; without one the job is lost,
and the core takes no further dispatch (DESIGN CHOICE, log entry 37). -/
def State.laneFault (s : State) (c : CoreId) (last : Bool) : State :=
  let k := s.core c
  if !last then s.drawn.setCore c { k with freeze := max k.freeze (Config.freeChoice s.draws % 513) }
  else
    let lane := Config.freeChoice s.draws % 256
    let r := s.drawn.mkRecord c .cs { cause := cVBUSFAIL, precise := false, detail := [BitVec.ofNat 64 (coreid c + lane * 256)] }
    let s1 := s.drawn.postSupervisor (dieOf c) r
    let s2 := if (s1.core c).active && !isSystem c then s1.endJob c 0 9 else s1
    s2.setCore c { s2.core c with lost := true }

/-- INJ (R440). -/
def execInj (f : RX) (s : State) : Out :=
  s.issue fun s =>
    let a := s.getS f.a
    let c : CoreId := ⟨a.toNat % 128, by omega⟩
    match f.xf 0 4 with
    | 0 => .done { s with correctable := a.toNat / 64 * 64 :: s.correctable }
    | 1 => .done (s.poisonLine a.toNat)
    | 2 => .done (s.setCore c { s.core c with mismatch := true })
    | _ => .done (s.laneFault c (a.getLsbD 8))

/-! Migration (R295, R441). -/

/-- Every physical address that the state holds follows a page of `n` bytes from one frame to another; what stood at the new frame is
forgotten, and locks on the page's lines end (R295). -/
def State.rebase (s : State) (src dst n : Nat) : State :=
  let within (p a : Nat) : Bool := decide (p ≤ a) && decide (a < p + n)
  let f (a : Nat) : Nat := if within src a then dst + (a - src) else a
  let wait (w : Wait) : Wait := if w.kind == .lock then { w with phys := f w.phys } else w
  let strm (t : Strm) : Strm :=
    { t with
      kseen := (t.kseen.filter fun x => !within dst x.1).map fun x => (f x.1, x.2)
      wait := t.wait.map wait }
  let core (k : Core) : Core :=
    { k with
      streams := k.streams.map strm
      khor := (k.khor.filter fun x => !within dst x.1).map fun x => (f x.1, x.2)
      locked := k.locked.filter fun l => !within src l.line
      copies := k.copies.map fun x =>
        { x with src := x.src.map (fun q => (f q.1, q.2)), dst := x.dst.map (fun q => (f q.1, q.2)) } }
  { s with
    glog := (s.glog.filter fun x => !within dst x.pa).map fun x => { x with pa := f x.pa }
    unpub := (s.unpub.filter fun x => !within dst x.pa).map fun x => { x with pa := f x.pa }
    poison := (s.poison.filter fun l => !within dst l).map f
    cores := s.cores.map core
    saved := s.saved.map fun x => { x with core := core x.core }
    dies := s.dies.map fun (d : Die) => { d with locks := d.locks.map fun h => { h with phys := f h.phys } } }

/-- A page of `n` bytes copied to another frame, with everything bound to its place. -/
def State.movePage (s : State) (src dst n : Nat) : State :=
  { s with mem := s.mem.move src dst n }.rebase src dst n

/-- MIGR (R441). -/
def execMigr (f : RRR) (s : State) : Out :=
  s.issue fun s =>
    let a := s.getS f.a
    let b := s.getS f.b
    let va := (a.extractLsb' 16 32).toNat * 65536
    let asid : BitVec 13 := a.extractLsb' 48 13
    if b.extractLsb' 0 16 ≠ 0 then .trap s (physFault .store cALIGN b)
    else if !s.physOk b.toNat then .trap s (physFault .store cPROT b)
    else match s.walk s.myDie.ptroot.toNat asid.toNat va with
      | .error _ => .done (s.arriveS f.d 2)
      | .ok l =>
        if l.block then .done (s.arriveS f.d 1)
        else
          let pte : Word := (l.pte &&& ~~~(0x0000_FFFF_FFFF_0000 : Word)) ||| b
          let s1 := (s.movePage l.pa b.toNat 65536).pwrite8 l.entry pte
          .done ((s1.forget fun t => t.vpn == va / 65536 && (t.asid == asid || pteG t.pte)).arriveS f.d 0)

/-! Events. -/

/-- PREEMPT: the PLIM count of the job on core `unit` has run out (R423): a request that is no longer to stand is withdrawn instead; else
the trap is raised, once for a request (DEDUCED, log entry 32). -/
def execPreempt (s : State) : Out :=
  if h : s.ctx.ev.unit < 136 then
    let c : CoreId := ⟨s.ctx.ev.unit, h⟩
    if !s.plimReached c then .next s else
    match (s.core c).request with
    | none => .next s
    | some q =>
      if s.requestOver c q then .next (s.setCore c { s.core c with request := none }) else
      let r := s.mkRecord c .cs
        { cause := cPREEMPT, precise := false, detail := [BitVec.ofNat 64 q.count, BitVec.ofNat 64 (q.queue.getD 0xFF)] }
      .next ((s.setCore c { s.core c with request := some { q with spent := true } }).deliver c .cs r)
  else .fault .noSuchUnit

/-- A job stopped by a checker mismatch (R425). -/
def Core.mismatchStop (k : Core) : Bool := k.active && k.stopped.any fun r => r.cause == cCHECKER

/-- The engines of a job have completed what they can: every head waits, or none is left (R425) (DEDUCED, log entry 29). -/
def State.enginesRest (s : State) (c : CoreId) : Bool :=
  let k := s.core c
  let a := s.arr (clusterOf c)
  k.headsRest && k.copies.isEmpty && !k.racing &&
  ((a.frozen && a.lease == some c) || s.wavesDone c)

/-- The restart at the node checkpoint (R425, R72) (DEDUCED, log entry 29): a frozen array stays with its lessee (R229). -/
def State.restartNode (s : State) (c : CoreId) : State :=
  let a := s.arr (clusterOf c)
  let s1 := if a.frozen && a.lease == some c then s.leaveEdges c else s.dropLease c
  let s2 := s1.setCore c (s1.core c).dropWaits
  let s3 := State.releaseLocks false ((s2.locksOf (s2.core c).jobid).filter (·.sinceNode)) s2
  let k := s3.core c
  let k1 := k.nodeRestart (s.clock + 1) s.gpos
  s3.setCore c { k1 with checkpoint := { k.checkpoint with used := true } }

/-- CHECKER_COMPARE on core `unit`: with its flag, the checker will find the next engine command different (R13, R427); else with a
queue (by `sub`), the checker produces its copy of that queue's command `val` (R13); else a job stopped by a mismatch restarts at its
checkpoint, or is terminated (R425). -/
def execCheckerCompare (s : State) : Out :=
  if h : s.ctx.ev.unit < 136 then
    let c : CoreId := ⟨s.ctx.ev.unit, h⟩
    let k := s.core c
    if s.ctx.ev.flag then .next (s.setCore c { k with mismatch := true })
    else if s.ctx.ev.sub ≠ 0 then .next (s.compare c (Eng.ofNum (s.ctx.ev.sub - 1)) s.ctx.ev.val)
    else if !k.mismatchStop then .next s
    else if !(s.die (dieOf c)).errcfg.getLsbD 8 || k.checkpoint.used then .next (s.endJob c cCHECKER 3)
    else if s.enginesRest c then .next (s.restartNode c)
    else .next s
  else .fault .noSuchUnit

/-- VBUS_LANE_FAULT on core `unit`; with its flag no spare lane remains (R428) (DESIGN CHOICE, log entry 37). -/
def execVbusLaneFault (s : State) : Out :=
  if h : s.ctx.ev.unit < 128 then .next (s.laneFault ⟨s.ctx.ev.unit, by omega⟩ s.ctx.ev.flag) else .fault .noSuchUnit

/-- UNCORRECTABLE_ERROR (R427, R194, R229, R266): a natural upset (DESIGN CHOICE, log entry 37). -/
def execUncorrectableError (s : State) : Out :=
  let at_ (c : Nat) (go : CoreId → State) : Out := if h : c < 136 then .next (go ⟨c, h⟩) else .fault .noSuchUnit
  match s.ctx.ev.data with
  | .upset (.line pa) => .next (s.poisonLine pa)
  | .upset (.spad c off) => at_ c fun c =>
    let k := s.core c
    let l := off / 64 * 64
    if k.padSize ≤ l || k.spadPoison.contains l then s else s.setCore c { k with spadPoison := l :: k.spadPoison }
  | .upset (.cell a b r c) => if a < 16 ∧ b < 4 ∧ r < 256 ∧ c < 256 then .next (s.cellUpset a b (256 * r + c)) else .fault .noSuchUnit
  | .upset (.delay c p g) => at_ c fun c =>
    let k := s.core c
    let x := k.planeAt p
    s.setCore c (k.setPlane p { x with marks := x.marks ||| (1 : BitVec 16) <<< g })
  | .upset (.tile c r) => at_ c fun c =>
    let k := s.core c
    if 24 < r || k.tile.bad.contains r then s else s.setCore c { k with tile := { k.tile with bad := r :: k.tile.bad } }
  | _ => .next s

/-- HOST_ERROR_ON_STORE: the host answers the buffered stores of core `unit` to the line at `val` with an error (R297); with its
flag the line goes on to answer so (DEDUCED, log entry 45). -/
def execHostErrorOnStore (s : State) : Out :=
  if h : s.ctx.ev.unit < 136 then
    let c : CoreId := ⟨s.ctx.ev.unit, h⟩
    let l := s.ctx.ev.val / 64 * 64
    let others := s.hostErr.filter (· != l)
    let s1 := ({ s with hostErr := l :: others }).drainHost c fun x => x.addr / 64 * 64 == l
    .next { s1 with hostErr := if s.ctx.ev.flag then l :: others else others }
  else .fault .noSuchUnit

/-- The causes that a debug stop's trap may carry, for which R414 has no row: any that is not the supervisor's, since the trap goes to the
lessee's WS (R229) (DESIGN CHOICE, log entry 44). -/
def debugCauses : List Nat := (List.range 256).filter fun n => !supervisorFirst n

/-- SUPERVISOR_DEBUG_STOP of array `unit`: the array freezes, and the trap goes to the lessee's WS, with a cause that is free (R229)
(DESIGN CHOICE, log entry 44). -/
def execSupervisorDebugStop (s : State) : Out :=
  let n := s.ctx.ev.unit
  if n < 16 then
    .next (s.drawn.arrayTrap n { cause := debugCauses[Config.freeChoice s.draws % debugCauses.length]?.getD 0 })
  else .fault .noSuchUnit

/-- The events of R423, which come at the end of a slot: a boundary or a withdrawal in it prevails. -/
def State.preemptEvents (s : State) : List Event :=
  (allCores.filter s.plimReached).map fun c => (⟨.preempt, { EvArgs.zero with unit := c.val }⟩ : Event)

/-- The events of R425 in a slot. -/
def State.systemEvents (s : State) : List Event :=
  (allCores.filter fun c => (s.core c).mismatchStop).map fun c => ⟨.checkerCompare, { EvArgs.zero with unit := c.val }⟩

end Sys2Proof.Machine
end

