-- ==== Sys2Proof/Machine/HostSide.lean ====
section
/-! DEFINITION. What the host die does to the device (R443 to R463): window writes, coherent accesses, bring-up, attestation, Hazel's
translations, DRAM-layer power, reset. -/
namespace Sys2Proof.Machine

/-- The die that an event names (DEDUCED, log entry 53). -/
def State.onDie (s : State) (go : Fin 2 → State) : Out :=
  if h : s.ctx.ev.unit < 2 then .next (go ⟨s.ctx.ev.unit, h⟩) else .fault .noSuchUnit

/-- A write of the host die performed at the die that an event names, and its completion (R444). -/
def State.atDie (s : State) (f : Die → Die) : Out := s.onDie fun d => (s.setDie d (f (s.die d))).answer .written

/-- The operand of a window write. -/
def State.evWord (s : State) : Word := BitVec.ofNat 64 s.ctx.ev.val

/-! The register window (R445). -/

/-- HOST_TAIL_WRITE: TAIL of queue `sub` written with `val` (R446, R75). -/
def execHostTailWrite (s : State) : Out := s.atDie fun x => x.tailWrite (s.ctx.ev.sub % 64) s.evWord.toNat

/-- QUEUE_DESCRIPTOR_WRITE: the field at offset `val2` of queue `sub` written with `val` (R75); an offset that is not a multiple of 8
is refused (R445). -/
def execQueueDescriptorWrite (s : State) : Out :=
  if s.ctx.ev.val2 % 8 = 0 then s.atDie fun x => x.fieldWrite (s.ctx.ev.sub % 64) (s.ctx.ev.val2 % 64) s.evWord.toNat
  else s.onDie fun _ => s.answer .error

/-- QUEUE_DISABLE_WRITE: the word of queue `sub` that holds EN written with `val` (R75). -/
def execQueueDisableWrite (s : State) : Out := s.atDie fun x => x.descWrite (s.ctx.ev.sub % 64) 0 s.evWord.toNat

/-- HOSTIRQ_CLEAR (R447). -/
def execHostirqClear (s : State) : Out := s.atDie fun x => x.windowWrite 0x18 s.evWord
/-- LAYERPWR_WRITE (R462). -/
def execLayerpwrWrite (s : State) : Out := s.atDie fun x => x.windowWrite 0x10 s.evWord
/-- PEERDATA_WRITE (R445). -/
def execPeerdataWrite (s : State) : Out := s.atDie fun x => x.windowWrite 0x50 s.evWord
/-- NCTR_WRITE (R445). -/
def execNctrWrite (s : State) : Out := s.atDie fun x => x.windowWrite 0x58 s.evWord

/-- May an access of `n` bytes at an offset touch the window (R445)? -/
def windowFits (off n : Nat) : Bool := n == 8 && off % 8 == 0

/-- WINDOW_WRITE: `val2` bytes of `val` written at offset `sub`; refused with an error completion unless they are 8 and aligned
(R445) (DEDUCED, log entry 45). -/
def execWindowWrite (s : State) : Out :=
  if windowFits s.ctx.ev.sub s.ctx.ev.val2 then s.atDie fun x => x.windowWrite (s.ctx.ev.sub % 65536) s.evWord
  else s.onDie fun _ => s.answer .error

/-- Do two addresses lie in one range of memory: the two layers of a die's stack are one (R18)? -/
def sameRange (a b : Nat) : Bool :=
  match tierOf a, tierOf b with
  | some (.layer0 d), some (.layer1 e) => d == e
  | x, y => x == y

/-- The host die's access to device memory at the physical address `val`: bytes written, or `val2` bytes read (R443). -/
def State.hostAccess (s : State) : State :=
  let a := s.ctx.ev.val
  let inside (n : Nat) : Bool := n == 0 || (s.physOk a && s.physOk (a + n - 1) && sameRange a (a + n - 1))
  match s.ctx.ev.data with
  | .bytes bs => if inside bs.length then (s.pwriteN 0 a bs).answer .written else s.answer .error
  | _ =>
    let n := s.ctx.ev.val2
    if inside n && !((linesOf a n).any fun l => s.poison.contains l) then s.answer (.data (s.mem.readN a n)) else s.answer .error

/-- The host die's access to the register window of a die at offset `sub`: bytes written, or `val2` bytes read (R443, R445). -/
def State.hostWindow (s : State) (d : Fin 2) : State :=
  let off := s.ctx.ev.sub
  match s.ctx.ev.data with
  | .bytes bs =>
    if windowFits off bs.length then (s.setDie d ((s.die d).windowWrite (off % 65536) (BitVec.ofNat 64 (leNat bs)))).answer .written
    else s.answer .error
  | _ =>
    if windowFits off s.ctx.ev.val2 then s.answer (.data (leBytes (s.windowRead d (off % 65536)).toNat 8)) else s.answer .error

/-- HOST_COHERENT_ACCESS: the host die reads or writes device memory, or with the event's flag the register window of die `unit`; it
answers the completion (R443 to R445) (DEDUCED, log entry 45). -/
def execHostCoherentAccess (s : State) : Out :=
  if s.ctx.ev.flag then s.onDie s.hostWindow else .next s.hostAccess

/-! DRAM layers (R462, R463). -/

/-- A range of memory zeroed with ECC (R458, R462): its poison is gone, and so is what copies had put there unpublished (R316). -/
def State.zeroRange (s : State) (base n : Nat) : State :=
  { s with
    mem := s.mem.clear base n
    poison := s.poison.filter fun l => l < base || base + n ≤ l
    unpub := s.unpub.filter fun u => !u.meets base n }

/-- The first address of layer 1 of a die's stack, and the bytes of a layer (R18). -/
def layer1Base (d : Fin 2) : Nat := 0xC_0000_0000 + d.val * 0x20_0000_0000
def layerSize : Nat := 0xC_0000_0000

/-- A pointer of the tables (R285): where its entry stands, the entry, what it points at, and the size of that: a table, or a page or
block that the entry maps. -/
structure TablePtr where
  entry : Nat
  pte : Word
  target : Nat
  size : Nat
  deriving DecidableEq, Repr

/-- Valid entries of a table of `n` entries. -/
def State.tableEntries (s : State) (base n : Nat) : List (Nat × Word) :=
  (List.range n).filterMap fun i =>
    let e := s.pread8 (base + 8 * i)
    if pteV e then some (base + 8 * i, e) else none

/-- The directories of the package. -/
def State.roots (s : State) : List Nat := (s.dies.toList.map fun d => d.ptroot.toNat).eraseDups

/-- Every pointer that the tables of the package hold (DESIGN CHOICE, log entry 35). -/
def State.pointers (s : State) : List TablePtr :=
  s.roots.flatMap fun root =>
    (s.tableEntries root 8192).flatMap fun dir =>
      ⟨dir.1, dir.2, dirRoot dir.2, 512⟩ ::
      (s.tableEntries (dirRoot dir.2) 64).flatMap fun e1 =>
        if !pteT e1.2 then [] else
        ⟨e1.1, e1.2, pteFrame e1.2 * 65536, 65536⟩ ::
        (s.tableEntries (pteFrame e1.2 * 65536) 8192).flatMap fun e2 =>
          if !pteT e2.2 then [⟨e2.1, e2.2, pteFrame e2.2 * 65536, 2 ^ 29⟩] else
          ⟨e2.1, e2.2, pteFrame e2.2 * 65536, 65536⟩ ::
          (s.tableEntries (pteFrame e2.2 * 65536) 8192).map fun e3 => ⟨e3.1, e3.2, pteFrame e3.2 * 65536, 65536⟩

/-- The ranges of physical memory that move: the directories, all tables, all mapped pages, and the regions of Hazel's cache
(DESIGN CHOICE, log entry 35). -/
def State.allocated (s : State) : List (Nat × Nat) :=
  (s.roots.map fun r => (r, 65536)) ++ (s.pointers.map fun p => (p.target, p.size)) ++ s.hazelRegions.map fun r => (r.base, r.size)

/-- The areas that a die uses by a physical address which supervisor software gave it: its trap vector block, ring and save pool (R420),
its trace areas (R90), and its spill area (R438). -/
def State.dieAreas (s : State) (x : Die) : List (Nat × Nat) :=
  let vec := x.stvec.toNat
  let word (o : Nat) : Nat := (s.pread8 (vec + o)).toNat
  (if vec = 0 then [] else [(vec, 64), (word 8, 128 * (word 16 % 131072)), (word 32, 32768 * word 40)]) ++
    [(x.trcbase.toNat, x.trclen.toNat), (x.trace.base, x.trace.len), (x.spill.toNat, 32 * x.spillCap)]

/-- The areas used by physical address: those of the dies, and the images of full saves that have not gone back to a core (R436). Nothing
moves onto one, and none moves (DESIGN CHOICE, log entry 35). -/
def State.fixedAreas (s : State) : List (Nat × Nat) :=
  (s.dies.toList.flatMap s.dieAreas) ++ s.images.filterMap fun m =>
    if s.saved.any fun x => !x.node && x.ticket == m.ticket then some (m.saved.place, imageSize m.sizes) else none

/-- Do two ranges of bytes share one? -/
def meets (a n : Nat) (r : Nat × Nat) : Bool := decide (0 < n) && decide (0 < r.2) && decide (r.1 < a + n) && decide (a < r.1 + r.2)

/-- Does a range of memory meet one that is in use? -/
def State.inUse (s : State) (a n : Nat) : Bool := (s.allocated ++ s.fixedAreas).any (meets a n)

/-- The bytes that move together from an address on: a page of 64 KiB, and all of every allocated range that reaches into them, in whole
pages: a block, a region of Hazel's cache (DESIGN CHOICE, log entry 35). -/
def State.pageAt (s : State) (a : Nat) : Nat :=
  let grow (n : Nat) : Nat := s.allocated.foldl (fun n r => if meets a n r then max n (r.1 + r.2 - a) else n) n
  let pages (n : Nat) : Nat := (n + 65535) / 65536 * 65536
  (List.range s.allocated.length).foldl (fun n _ => pages (grow n)) 65536

/-- May these bytes move: no allocated range reaches in from below, and none is used by its physical address? -/
def State.movable (s : State) (a n : Nat) : Bool :=
  (s.allocated.all fun r => !meets a n r || decide (a ≤ r.1)) && !s.fixedAreas.any (meets a n)

/-- May they stand at another address: blocks in them keep their alignment (R285)? -/
def State.placeable (s : State) (src dst n : Nat) : Bool :=
  let block : Bool := s.pointers.any fun p => p.size == 2 ^ 29 && meets src n (p.target, p.size)
  src % 65536 == 0 && dst % 65536 == 0 && (!block || src % 2 ^ 29 == dst % 2 ^ 29)

/-- A page of `n` bytes moved (R295): every entry that points into it follows, wherever that entry now stands, and so do directories
and regions in it; its used translations are forgotten (DESIGN CHOICE, log entry 35). -/
def State.moveAll (s : State) (src dst n : Nat) : State :=
  let within (a : Nat) : Bool := decide (src ≤ a) && decide (a < src + n)
  let f (a : Nat) : Nat := if within a then dst + (a - src) else a
  let ps := s.pointers.filter fun p => within p.target
  let s1 := ps.foldl (fun s p =>
    let keep : Word := if p.size = 512 then 0xFFFF_0000_0000_01FF else 0xFFFF_0000_0000_FFFF
    s.pwrite8 (f p.entry) ((p.pte &&& keep) ||| BitVec.ofNat 64 (f p.target))) (s.movePage src dst n)
  { s1.forget fun t => within t.pa || within t.entry with
    dies := s1.dies.map fun (d : Die) => { d with ptroot := BitVec.ofNat 64 (f d.ptroot.toNat) }
    hazelRegions := s1.hazelRegions.map fun r => { r with base := f r.base }
    hazelCache := s1.hazelCache.map fun e => { e with addr := f e.addr } }

/-- LAYER1_POWER_OFF of die `unit` (R462), which LAYERPWR bit 0 forbids while it is set. Without its flag: firmware moves the page
at frame address `val` of layer 1, with what must stay together with it, to the free place at `val2` of layer 0. With it: power is removed once nothing allocated is left in
the layer (DESIGN CHOICE, log entry 35). -/
def execLayer1PowerOff (s : State) : Out :=
  s.onDie fun d =>
    let x := s.die d
    let base := layer1Base d
    if x.state != 2 || !x.layerOn || x.layerReq && !x.layerMove then s
    else if s.ctx.ev.flag then
      if s.inUse base layerSize then s
      else
        (s.zeroRange base layerSize).setDie d { x with layerOn := false, layerMove := false }
    else
      let src := s.ctx.ev.val
      let dst := s.ctx.ev.val2
      let n := s.pageAt src
      if s.placeable src dst n && tierOf src == some (.layer1 d) && tierOf dst == some (.layer0 d) &&
          tierOf (src + n - 1) == some (.layer1 d) && tierOf (dst + n - 1) == some (.layer0 d) &&
          s.movable src n && !s.inUse dst n then
        let s1 := s.moveAll src dst n
        s1.setDie d { s1.die d with layerMove := true }
      else s.setDie d { x with layerMove := true }

/-- LAYER1_POWER_ON of die `unit` (R462, R463): the layer is powered, zeroed, and memory again (DESIGN CHOICE, log entry 35). -/
def execLayer1PowerOn (s : State) : Out :=
  s.onDie fun d =>
    let x := s.die d
    if x.state != 2 || x.layerOn || !x.layerReq then s
    else
      (s.zeroRange (layer1Base d) layerSize).setDie d { x with layerOn := true, layerMove := false }

/-! Bring-up (R456 to R459). -/

/-- Every core and array of some clusters of a die as after reset. -/
def State.clearClusters (s : State) (d : Fin 2) (which : Nat → Bool) : State :=
  { s with
    cores := s.cores.mapFinIdx fun n k h =>
      let c : CoreId := ⟨n, h⟩
      if !isSystem c && dieOf c == d && which (clusterOf c % 8) then Core.reset else k
    arrays := s.arrays.mapFinIdx fun n a _ => if n / 8 == d.val && which (n % 8) then WArray.reset else a }

/-- A die in Winter, at a step of bring-up: HEAD and TAIL of its queues stay for the host die to read (R448)
(DEDUCED, log entry 33). -/
def Die.winter (x : Die) (step : Nat) : Die :=
  { Die.reset with
    bootStep := step, irqs := x.irqs, window := x.window
    queues := x.queues.map fun q => { CQueue.reset with head := q.head, tail := q.tail } }

/-- POWER_ON of die `unit` (step 1 of R458): the boot ROM runs. With its flag the host die assigns `val` as the base of the
register window (R445). After a fault the counts of the queues are still there (R448); after a removal of power they are 0 (R461). -/
def execPowerOn (s : State) : Out :=
  s.onDie fun d =>
    let x := s.die d
    if x.bootStep != 0 then s
    else s.setDie d { x.winter 1 with released := s.clock, window := if s.ctx.ev.flag then some s.ctx.ev.val else x.window }

/-- Is a die at a step of bring-up that an image may complete: it stands there, or the image failed (R457)? -/
def Die.awaits (x : Die) (step : Nat) : Bool := x.state == 0 && (x.bootStep == step && x.bootCode == 0 || x.bootStep == step + 1 && x.bootCode != 0)

/-- FIRMWARE_IMAGE_DELIVERY (step 2 of R458, R457). -/
def execFirmwareImageDelivery (s : State) : Out :=
  s.onDie fun d =>
    let x := s.die d
    match s.ctx.ev.data with
    | .firmware f =>
      if !x.awaits 1 then s
      else if !(f.rsaOk && f.slhOk) then s.setDie d { x with bootStep := 2, bootCode := 0x01 }
      else { s with hazel := f.hazel }.setDie d { x with bootStep := 2, bootCode := 0, firmware := f.digest }
    | _ => s

/-- A STEPLEN that R405 allows; else the default. -/
def stepLength (n : Nat) : Nat := if 256 ≤ n && n ≤ 65536 && 2 ^ Nat.log2 n = n then n else 1024

/-- CONFIGURATION_IMAGE_DELIVERY (steps 3 to 5 of R458): repair maps and trims are applied, the identity key is derived (R456), and the die
enters Spring, with cluster 0 and layer 0 zeroed. -/
def execConfigurationImageDelivery (s : State) : Out :=
  s.onDie fun d =>
    let x := s.die d
    match s.ctx.ev.data with
    | .config f =>
      if !(x.awaits 2 || (x.state == 0 && x.bootStep == 4)) then s
      else if !(f.rsaOk && f.slhOk) then s.setDie d { x with bootStep := 3, bootCode := 0x02 }
      else if !f.trained then s.setDie d { x with bootStep := 4, bootCode := 0x03 }
      else
        { (s.clearClusters d (· == 0)).zeroRange (d.val * 0x20_0000_0000) layerSize with
          steplen := stepLength f.steplen, chipid := f.chip }.setDie d
          { x with
            state := 1, bootStep := 5, bootCode := 0, config := f.digest, repairs := f.repairs, trims := f.trims
            identity := Config.identityKey d.val f.seed }
    | _ => s

/-- SUMMER_TRANSITION of die `unit` (steps 6 and 7 of R458, R459): layer 1 and LPDDR zeroed, clusters 1 to 7 in service; with its
flag calibration fails. -/
def execSummerTransition (s : State) : Out :=
  s.onDie fun d =>
    let x := s.die d
    if x.state != 1 then s
    else if s.ctx.ev.flag then s.setDie d { x with bootStep := 6, bootCode := 0x04 }
    else
      let lpddr := 0x1000_0000_0000 + d.val * 0x100_0000_0000
      (((s.clearClusters d (· != 0)).zeroRange (layer1Base d) layerSize).zeroRange lpddr 0x80_0000_0000).setDie d
        { x with state := 2, ready := true, bootStep := 7, bootCode := 0, layerOn := x.layerReq }

/-- POWER_REMOVAL: all device state is lost (R461); what stands outside the device, and the model's own counters, stay
(DESIGN CHOICE, log entry 34). -/
def execPowerRemoval (s : State) : Out :=
  .next { State.reset with
    host := s.host, hostErr := s.hostErr, remotes := s.remotes, mailbox := s.mailbox, outbox := s.outbox, inbox := s.inbox
    clock := s.clock, seq := s.seq, draws := s.draws }

/-! Reset (R448). -/

/-- Every record that a die has taken and not finished ends with 0x09: of its jobs on cores, and of its saved jobs. -/
def State.endRecords (s : State) (d : Fin 2) : State :=
  let s1 := allCores.foldl (fun s c =>
    if dieOf c == d && !isSystem c && (s.core c).active then s.endJob c 0 9 else s) s
  (s1.saved.filter fun x => x.die == d.val).foldl (fun s x =>
    match s.saved.findIdx? fun y => y.ticket == x.ticket && y.node == x.node && y.place == x.place with
    | some n => s.endSaved n 0 9
    | none => s) s1

/-- What copies of a die's jobs have put in shadows is no job's any more: it is not published, and reads as old or new
(DEDUCED, log entry 33). -/
def Unpub.orphan (d : Fin 2) (u : Unpub) : Unpub :=
  if u.job.getLsbD 40 == (d == 1) then { u with job := BitVec.allOnes 64, sure := false } else u

/-- A die goes to Winter: its links go down for the other die's senders (R398), its records end, and its cores, arrays, links and
tables hold nothing; the module leaves its GSC domain, so that no link is aligned (R405, R459) (DEDUCED, log entry 33). -/
def State.toWinter (s : State) (d : Fin 2) (step : Nat) : State :=
  let mine (l : Nat) : Bool := l / 6 == d.val
  let s0 := State.failSends (s.sends.filter fun x => mine x.link && dieOf x.core != d) s
  let s1 := (s0.endRecords d).clearClusters d fun _ => true
  { s1 with
    cores := s1.cores.mapFinIdx fun n k h => if dieOf ⟨n, h⟩ == d then Core.reset else k
    links := s1.links.mapFinIdx fun n l _ => if mine n then Link.reset else { l with aligned := false }
    unpub := s1.unpub.map (Unpub.orphan d)
    sends := s1.sends.filter fun x => dieOf x.core != d
    hazelRegions := s1.hazelRegions.filter fun r => homeDie r.base != d
    hazelCache := s1.hazelCache.filter fun e => homeDie e.addr != d }.setDie d ((s1.die d).winter step)

/-- DIE_RESET of die `unit` (R448): it stands at step 1 of bring-up. -/
def execDieReset (s : State) : Out :=
  s.onDie fun d =>
    let s1 := s.toWinter d 1
    s1.setDie d { s1.die d with released := s.clock }

/-- RETURN_TO_WINTER_THROUGH_FAULT of die `unit` (R448). -/
def execReturnToWinterThroughFault (s : State) : Out := s.onDie fun d => s.toWinter d 0

/-! Attestation (R460). -/

/-- "Attestation report", bytes 0 to 271. -/
def State.report (s : State) (d : Fin 2) (nonce : BitVec 384) : List Byte :=
  let x := s.die d
  leBytes imgFmt 4 ++ leBytes x.stateWord.toNat 4 ++ leBytes x.firmware.toNat 48 ++ leBytes x.config.toNat 48 ++
    sha384Bytes (Config.publicKeys x.identity) ++ leBytes (s.featureWord 7).toNat 8 ++
    leBytes nonce.toNat 48 ++ List.replicate 64 0

/-- ATTESTATION_REQUEST of die `unit` with a nonce: the report and its two signatures; an error before identity keys exist
(DESIGN CHOICE, log entry 36). -/
def execAttestationRequest (s : State) : Out :=
  s.onDie fun d =>
    match s.ctx.ev.data with
    | .nonce n =>
      if (s.die d).state == 0 then s.answer .error else
      let r := s.report d n
      s.answer (.report (r ++ (List.range 16608).map fun i => Config.signature (s.die d).identity r i))
    | _ => s.answer .error

/-! The loader (R451, R452) and Hazel (R453 to R455). -/

/-- A code object loaded for an ASID: its chosen section, or Hazel's output, relocated and placed; or refused with a loader code
(DESIGN CHOICE, log entry 36). -/
def State.loadObject (s : State) (d : Fin 2) (asid : Nat) (o : List Byte) (code data : Nat) : State :=
  let place (s : State) (x : Except Nat (List Byte × List Byte)) : State :=
    match x with
    | .error c => s.answer (.loader c [])
    | .ok sd =>
      match s.placeObject d asid code data sd with
      | some s1 => s1.answer (.loader 0 sd.1)
      | none => s.answer .error
  match s.loadPlan o with
  | .refuse c => s.answer (.loader c [])
  | .native v => place s (placeSection o v code data)
  | .portable tnf =>
    match s.hazelOutput d ((s.die d).grant (BitVec.ofNat 13 asid)).tenant tnf with
    | (s1, .error c) => s1.answer (.loader c [])
    | (s1, .ok h) => place s1 (placePortable o h code data)

/-- HAZEL_TRANSLATION on die `unit` for ASID `sub`, by supervisor software. With its flag the tenant is assigned the region of `val2`
bytes at the physical address `val`; an object is loaded; the bytes of a portable section are translated
(DESIGN CHOICE, log entry 36; DEDUCED, log entry 48). -/
def execHazelTranslation (s : State) : Out :=
  s.onDie fun d =>
    let asid := s.ctx.ev.sub % 8192
    let tenant := ((s.die d).grant (BitVec.ofNat 13 asid)).tenant
    if (s.die d).state == 0 then s.answer .error
    else if s.ctx.ev.flag then
      match s.hazelAssign tenant s.ctx.ev.val s.ctx.ev.val2 with
      | some s1 => s1.answer .written
      | none => s.answer .error
    else
      match s.ctx.ev.data with
      | .object o code data => s.loadObject d asid o code data
      | .bytes tnf =>
        match s.hazelOutput d tenant tnf with
        | (s1, .error c) => s1.answer (.loader c [])
        | (s1, .ok h) => s1.answer (.loader 0 h)
      | _ => s.answer .error

end Sys2Proof.Machine
end

