-- ==== Sys2Proof/Machine/Scalar.lean ====
section
/-! DEFINITION. The scalar, compare and predicate instructions (R120 to R126) and the compact ALU words (R43). -/
namespace Sys2Proof.Machine

/-- ADD: wrapping sum (R120). -/
def execAdd (f : RRR) (s : State) : Out :=
  s.issue fun s => .done (s.putS 1 f.d (s.getS f.a + s.getS f.b))

/-- SUB: wrapping difference (R120). -/
def execSub (f : RRR) (s : State) : Out :=
  s.issue fun s => .done (s.putS 1 f.d (s.getS f.a - s.getS f.b))

/-- AND (R120). -/
def execAnd (f : RRR) (s : State) : Out :=
  s.issue fun s => .done (s.putS 1 f.d (s.getS f.a &&& s.getS f.b))

/-- OR (R120). -/
def execOr (f : RRR) (s : State) : Out :=
  s.issue fun s => .done (s.putS 1 f.d (s.getS f.a ||| s.getS f.b))

/-- XOR (R120). -/
def execXor (f : RRR) (s : State) : Out :=
  s.issue fun s => .done (s.putS 1 f.d (s.getS f.a ^^^ s.getS f.b))

/-- ANDN (R120). -/
def execAndn (f : RRR) (s : State) : Out :=
  s.issue fun s => .done (s.putS 1 f.d (s.getS f.a &&& ~~~s.getS f.b))

/-- SHL (R120). -/
def execShl (f : RRR) (s : State) : Out :=
  s.issue fun s => .done (s.putS 1 f.d (s.getS f.a <<< shamt (s.getS f.b)))

/-- SHR (R120). -/
def execShr (f : RRR) (s : State) : Out :=
  s.issue fun s => .done (s.putS 1 f.d (s.getS f.a >>> shamt (s.getS f.b)))

/-- SRA: rounding toward minus infinity (R120). -/
def execSra (f : RRR) (s : State) : Out :=
  s.issue fun s => .done (s.putS 1 f.d ((s.getS f.a).sshiftRight (shamt (s.getS f.b))))

/-- ROTR (R120). -/
def execRotr (f : RRR) (s : State) : Out :=
  s.issue fun s => .done (s.putS 1 f.d ((s.getS f.a).rotateRight (shamt (s.getS f.b))))

/-- MIN: signed (R120). -/
def execMin (f : RRR) (s : State) : Out :=
  s.issue fun s => .done (s.putS 1 f.d (minS (s.getS f.a) (s.getS f.b)))

/-- MAX: signed (R120). -/
def execMax (f : RRR) (s : State) : Out :=
  s.issue fun s => .done (s.putS 1 f.d (maxS (s.getS f.a) (s.getS f.b)))

/-- MINU (R120). -/
def execMinu (f : RRR) (s : State) : Out :=
  s.issue fun s => .done (s.putS 1 f.d (minU (s.getS f.a) (s.getS f.b)))

/-- MAXU (R120). -/
def execMaxu (f : RRR) (s : State) : Out :=
  s.issue fun s => .done (s.putS 1 f.d (maxU (s.getS f.a) (s.getS f.b)))

/-- CLZ (R120). -/
def execClz (f : RRR) (s : State) : Out :=
  s.issue fun s => .done (s.putS 1 f.d (BitVec.ofNat 64 (leadingZeros (s.getS f.a))))

/-- POPC (R120). -/
def execPopc (f : RRR) (s : State) : Out :=
  s.issue fun s => .done (s.putS 1 f.d (BitVec.ofNat 64 (popcount (s.getS f.a))))

/-- MUL: low half of the product (R120). -/
def execMul (f : RRR) (s : State) : Out :=
  s.issue fun s => .done (s.putS 3 f.d (s.getS f.a * s.getS f.b))

/-- MULH: signed high half (R120). -/
def execMulh (f : RRR) (s : State) : Out :=
  s.issue fun s => .done (s.putS 3 f.d (mulHighS (s.getS f.a) (s.getS f.b)))

/-- MULHU: unsigned high half (R120). -/
def execMulhu (f : RRR) (s : State) : Out :=
  s.issue fun s => .done (s.putS 3 f.d (mulHighU (s.getS f.a) (s.getS f.b)))

/-- DIV (R121). -/
def execDiv (f : RRR) (s : State) : Out :=
  s.issue fun s => .done (s.putS 20 f.d (divS (s.getS f.a) (s.getS f.b)))

/-- DIVU (R121). -/
def execDivu (f : RRR) (s : State) : Out :=
  s.issue fun s => .done (s.putS 20 f.d (divU (s.getS f.a) (s.getS f.b)))

/-- REM (R121). -/
def execRem (f : RRR) (s : State) : Out :=
  s.issue fun s => .done (s.putS 20 f.d (remS (s.getS f.a) (s.getS f.b)))

/-- REMU (R121). -/
def execRemu (f : RRR) (s : State) : Out :=
  s.issue fun s => .done (s.putS 20 f.d (remU (s.getS f.a) (s.getS f.b)))

/-- SEL always executes; its G field names the predicate that selects (R122, R34). -/
def execSel (f : RRR) (s : State) : Out :=
  s.always fun s => .done (s.putS 1 f.d (if s.guard then s.getS f.a else s.getS f.b))

/-- ADDI (R120). -/
def execAddi (f : RI) (s : State) : Out :=
  s.issue fun s => .done (s.putS 1 f.d (s.getS f.a + imm5 f))

/-- ANDI (R120). -/
def execAndi (f : RI) (s : State) : Out :=
  s.issue fun s => .done (s.putS 1 f.d (s.getS f.a &&& imm5 f))

/-- ORI (R120). -/
def execOri (f : RI) (s : State) : Out :=
  s.issue fun s => .done (s.putS 1 f.d (s.getS f.a ||| imm5 f))

/-- SHLI: the immediate read unsigned (R120). -/
def execShli (f : RI) (s : State) : Out :=
  s.issue fun s => .done (s.putS 1 f.d (s.getS f.a <<< f.imm.toNat))

/-- LI (R120). -/
def execLi (f : RX) (s : State) : Out :=
  s.issue fun s => .done (s.putS 1 f.d (immX f))

/-- LIH: keeps the low half of s[D] (R120). -/
def execLih (f : RX) (s : State) : Out :=
  s.issue fun s => .done (s.putS 1 f.d (f.x ++ (s.getS f.d).setWidth 32))

/-- LEA (R120). -/
def execLea (f : RX) (s : State) : Out :=
  s.issue fun s => .done (s.putS 1 f.d (leaAddr f (s.getS f.a) (s.getS f.b)))

/-- MOV (R120). -/
def execMov (f : RRR) (s : State) : Out :=
  s.issue fun s => .done (s.putS 1 f.d (s.getS f.a))

/-- A compare writes all lanes of p[D] (R123). -/
def State.putCompare (s : State) (d : BitVec 5) (b : Bool) : State :=
  s.putP 1 (predD d) (BitVec.allOnes 64) (spread b)

/-- CMPEQ (R123). -/
def execCmpeq (f : RRR) (s : State) : Out :=
  s.issue fun s => .done (s.putCompare f.d (s.getS f.a == s.getS f.b))

/-- CMPNE (R123). -/
def execCmpne (f : RRR) (s : State) : Out :=
  s.issue fun s => .done (s.putCompare f.d (s.getS f.a != s.getS f.b))

/-- CMPLT (R123). -/
def execCmplt (f : RRR) (s : State) : Out :=
  s.issue fun s => .done (s.putCompare f.d ((s.getS f.a).slt (s.getS f.b)))

/-- CMPLTU (R123). -/
def execCmpltu (f : RRR) (s : State) : Out :=
  s.issue fun s => .done (s.putCompare f.d ((s.getS f.a).ult (s.getS f.b)))

/-- CMPGE (R123). -/
def execCmpge (f : RRR) (s : State) : Out :=
  s.issue fun s => .done (s.putCompare f.d (!(s.getS f.a).slt (s.getS f.b)))

/-- CMPGEU (R123). -/
def execCmpgeu (f : RRR) (s : State) : Out :=
  s.issue fun s => .done (s.putCompare f.d (!(s.getS f.a).ult (s.getS f.b)))

/-- CMPEQI (R123). -/
def execCmpeqi (f : RI) (s : State) : Out :=
  s.issue fun s => .done (s.putCompare f.d (s.getS f.a == imm5 f))

/-- CMPLTI (R123). -/
def execCmplti (f : RI) (s : State) : Out :=
  s.issue fun s => .done (s.putCompare f.d ((s.getS f.a).slt (imm5 f)))

/-- PLOG.AND, per lane (R38, R124). -/
def execPlogAnd (f : PL) (s : State) : Out :=
  s.issue fun s => .done (s.putP 1 f.pd (BitVec.allOnes 64) (s.getP f.pd &&& s.getP f.pa))

/-- PLOG.OR, per lane (R38, R124). -/
def execPlogOr (f : PL) (s : State) : Out :=
  s.issue fun s => .done (s.putP 1 f.pd (BitVec.allOnes 64) (s.getP f.pd ||| s.getP f.pa))

/-- PLOG.XOR, per lane (R38, R124). -/
def execPlogXor (f : PL) (s : State) : Out :=
  s.issue fun s => .done (s.putP 1 f.pd (BitVec.allOnes 64) (s.getP f.pd ^^^ s.getP f.pa))

/-- PLOG.ANDN, per lane (R38, R124). -/
def execPlogAndn (f : PL) (s : State) : Out :=
  s.issue fun s => .done (s.putP 1 f.pd (BitVec.allOnes 64) (s.getP f.pd &&& ~~~s.getP f.pa))

/-- PLOG.ORN, per lane (R38, R124). -/
def execPlogOrn (f : PL) (s : State) : Out :=
  s.issue fun s => .done (s.putP 1 f.pd (BitVec.allOnes 64) (s.getP f.pd ||| ~~~s.getP f.pa))

/-- PLOG.NOT, per lane (R38, R124). -/
def execPlogNot (f : PL) (s : State) : Out :=
  s.issue fun s => .done (s.putP 1 f.pd (BitVec.allOnes 64) (~~~s.getP f.pa))

/-- PLOG.MOV, per lane (R38, R124). -/
def execPlogMov (f : PL) (s : State) : Out :=
  s.issue fun s => .done (s.putP 1 f.pd (BitVec.allOnes 64) (s.getP f.pa))

/-- PLOG.CLR, per lane (R38, R124). -/
def execPlogClr (f : PL) (s : State) : Out :=
  s.issue fun s => .done (s.putP 1 f.pd (BitVec.allOnes 64) (0))

/-- PGET (R125). -/
def execPget (f : P3) (s : State) : Out :=
  s.issue fun s => .done (s.putS 1 f.a (s.getP f.pd))

/-- PPUT: lanes that the stream lacks are discarded (R125). -/
def execPput (f : P3) (s : State) : Out :=
  s.issue fun s => .done (s.putP 1 f.pd (BitVec.allOnes 64) (s.getS f.a))

/-- PCNT (R125). -/
def execPcnt (f : P3) (s : State) : Out :=
  s.issue fun s => .done (s.putS 1 f.a (BitVec.ofNat 64 (popcount (s.getP f.pd))))

/-- PFIRST (R125). -/
def execPfirst (f : P3) (s : State) : Out :=
  s.issue fun s => .done (s.putS 1 f.a (BitVec.ofNat 64 (firstFrom (s.getP f.pd) (shamt (s.getS (f.b.setWidth 5))))))

/-- MOV16 (R43, R126). -/
def execMov16 (a d : BitVec 5) (s : State) : Out := s.always fun s => .done (s.putS 1 d (s.getS a))

/-- ADD16 (R43, R126). -/
def execAdd16 (a d : BitVec 5) (s : State) : Out := s.always fun s => .done (s.putS 1 d (s.getS d + s.getS a))

/-- ADDI16 (R43, R126). -/
def execAddi16 (imm : BitVec 6) (d : BitVec 5) (s : State) : Out :=
  s.always fun s => .done (s.putS 1 d (s.getS d + imm.signExtend 64))

end Sys2Proof.Machine
end

