-- ==== Sys2Proof/Machine/Dispatch.lean ====
section
/-! DEFINITION. The one match over the instructions and events: each arm calls its meaning. -/
namespace Sys2Proof.Machine

def exec (i : Instr) (s : State) : Host.Outcome State Fault Refusal :=
  match i with
  | .fqry f => Sys2Proof.Machine.execFqry f s
  | .br f => Sys2Proof.Machine.execBr f s
  | .bri f => Sys2Proof.Machine.execBri f s
  | .call f => Sys2Proof.Machine.execCall f s
  | .ret f => Sys2Proof.Machine.execRet f s
  | .mcall f => Sys2Proof.Machine.execMcall f s
  | .mdef f => Sys2Proof.Machine.execMdef f s
  | .nest f => Sys2Proof.Machine.execNest f s
  | .wlimset f => Sys2Proof.Machine.execWlimset f s
  | .mov16 a d => Sys2Proof.Machine.execMov16 a d s
  | .add16 a d => Sys2Proof.Machine.execAdd16 a d s
  | .addi16 imm d => Sys2Proof.Machine.execAddi16 imm d s
  | .br16 imm => Sys2Proof.Machine.execBr16 imm s
  | .tok16Push k => Sys2Proof.Machine.execTok16Push k s
  | .tok16Wait k => Sys2Proof.Machine.execTok16Wait k s
  | .cont f => Sys2Proof.Machine.execCont f s
  | .prio f => Sys2Proof.Machine.execPrio f s
  | .domain f => Sys2Proof.Machine.execDomain f s
  | .joini f => Sys2Proof.Machine.execJoini f s
  | .self f => Sys2Proof.Machine.execSelf f s
  | .trcrec f => Sys2Proof.Machine.execTrcrec f s
  | .trcrpl f => Sys2Proof.Machine.execTrcrpl f s
  | .trcstat f => Sys2Proof.Machine.execTrcstat f s
  | .add f => Sys2Proof.Machine.execAdd f s
  | .sub f => Sys2Proof.Machine.execSub f s
  | .and f => Sys2Proof.Machine.execAnd f s
  | .or f => Sys2Proof.Machine.execOr f s
  | .xor f => Sys2Proof.Machine.execXor f s
  | .andn f => Sys2Proof.Machine.execAndn f s
  | .shl f => Sys2Proof.Machine.execShl f s
  | .shr f => Sys2Proof.Machine.execShr f s
  | .sra f => Sys2Proof.Machine.execSra f s
  | .rotr f => Sys2Proof.Machine.execRotr f s
  | .min f => Sys2Proof.Machine.execMin f s
  | .max f => Sys2Proof.Machine.execMax f s
  | .minu f => Sys2Proof.Machine.execMinu f s
  | .maxu f => Sys2Proof.Machine.execMaxu f s
  | .clz f => Sys2Proof.Machine.execClz f s
  | .popc f => Sys2Proof.Machine.execPopc f s
  | .mul f => Sys2Proof.Machine.execMul f s
  | .mulh f => Sys2Proof.Machine.execMulh f s
  | .mulhu f => Sys2Proof.Machine.execMulhu f s
  | .div f => Sys2Proof.Machine.execDiv f s
  | .divu f => Sys2Proof.Machine.execDivu f s
  | .rem f => Sys2Proof.Machine.execRem f s
  | .remu f => Sys2Proof.Machine.execRemu f s
  | .sel f => Sys2Proof.Machine.execSel f s
  | .addi f => Sys2Proof.Machine.execAddi f s
  | .andi f => Sys2Proof.Machine.execAndi f s
  | .ori f => Sys2Proof.Machine.execOri f s
  | .shli f => Sys2Proof.Machine.execShli f s
  | .li f => Sys2Proof.Machine.execLi f s
  | .lih f => Sys2Proof.Machine.execLih f s
  | .mov f => Sys2Proof.Machine.execMov f s
  | .lea f => Sys2Proof.Machine.execLea f s
  | .cmpeq f => Sys2Proof.Machine.execCmpeq f s
  | .cmpne f => Sys2Proof.Machine.execCmpne f s
  | .cmplt f => Sys2Proof.Machine.execCmplt f s
  | .cmpltu f => Sys2Proof.Machine.execCmpltu f s
  | .cmpge f => Sys2Proof.Machine.execCmpge f s
  | .cmpgeu f => Sys2Proof.Machine.execCmpgeu f s
  | .cmpeqi f => Sys2Proof.Machine.execCmpeqi f s
  | .cmplti f => Sys2Proof.Machine.execCmplti f s
  | .plogAnd f => Sys2Proof.Machine.execPlogAnd f s
  | .plogOr f => Sys2Proof.Machine.execPlogOr f s
  | .plogXor f => Sys2Proof.Machine.execPlogXor f s
  | .plogAndn f => Sys2Proof.Machine.execPlogAndn f s
  | .plogOrn f => Sys2Proof.Machine.execPlogOrn f s
  | .plogNot f => Sys2Proof.Machine.execPlogNot f s
  | .plogMov f => Sys2Proof.Machine.execPlogMov f s
  | .plogClr f => Sys2Proof.Machine.execPlogClr f s
  | .pget f => Sys2Proof.Machine.execPget f s
  | .pput f => Sys2Proof.Machine.execPput f s
  | .pcnt f => Sys2Proof.Machine.execPcnt f s
  | .pfirst f => Sys2Proof.Machine.execPfirst f s
  | .vadd f => Sys2Proof.Machine.execVadd f s
  | .vsub f => Sys2Proof.Machine.execVsub f s
  | .vmul f => Sys2Proof.Machine.execVmul f s
  | .vfma f => Sys2Proof.Machine.execVfma f s
  | .vmin f => Sys2Proof.Machine.execVmin f s
  | .vmax f => Sys2Proof.Machine.execVmax f s
  | .vabs f => Sys2Proof.Machine.execVabs f s
  | .vneg f => Sys2Proof.Machine.execVneg f s
  | .vdiv f => Sys2Proof.Machine.execVdiv f s
  | .vsqrt f => Sys2Proof.Machine.execVsqrt f s
  | .vrsq f => Sys2Proof.Machine.execVrsq f s
  | .vrec f => Sys2Proof.Machine.execVrec f s
  | .vexp2 f => Sys2Proof.Machine.execVexp2 f s
  | .vlog2 f => Sys2Proof.Machine.execVlog2 f s
  | .vand f => Sys2Proof.Machine.execVand f s
  | .vor f => Sys2Proof.Machine.execVor f s
  | .vxor f => Sys2Proof.Machine.execVxor f s
  | .vnot f => Sys2Proof.Machine.execVnot f s
  | .vshl f => Sys2Proof.Machine.execVshl f s
  | .vshr f => Sys2Proof.Machine.execVshr f s
  | .vsra f => Sys2Proof.Machine.execVsra f s
  | .vclz f => Sys2Proof.Machine.execVclz f s
  | .vcmpeq f => Sys2Proof.Machine.execVcmpeq f s
  | .vcmpne f => Sys2Proof.Machine.execVcmpne f s
  | .vcmplt f => Sys2Proof.Machine.execVcmplt f s
  | .vcmple f => Sys2Proof.Machine.execVcmple f s
  | .vcmpun f => Sys2Proof.Machine.execVcmpun f s
  | .vclass f => Sys2Proof.Machine.execVclass f s
  | .vsel f => Sys2Proof.Machine.execVsel f s
  | .vmov f => Sys2Proof.Machine.execVmov f s
  | .vbcast f => Sys2Proof.Machine.execVbcast f s
  | .vlane f => Sys2Proof.Machine.execVlane f s
  | .vext f => Sys2Proof.Machine.execVext f s
  | .vins f => Sys2Proof.Machine.execVins f s
  | .vperm f => Sys2Proof.Machine.execVperm f s
  | .vslide f => Sys2Proof.Machine.execVslide f s
  | .vred f => Sys2Proof.Machine.execVred f s
  | .vscan f => Sys2Proof.Machine.execVscan f s
  | .vdot f => Sys2Proof.Machine.execVdot f s
  | .vsett f => Sys2Proof.Machine.execVsett f s
  | .vgetf f => Sys2Proof.Machine.execVgetf f s
  | .vsetf f => Sys2Proof.Machine.execVsetf f s
  | .vseed f => Sys2Proof.Machine.execVseed f s
  | .vcvt f => Sys2Proof.Machine.execVcvt f s
  | .vpack f => Sys2Proof.Machine.execVpack f s
  | .vunpk f => Sys2Proof.Machine.execVunpk f s
  | .vscale f => Sys2Proof.Machine.execVscale f s
  | .tawin f => Sys2Proof.Machine.execTawin f s
  | .tamode f => Sys2Proof.Machine.execTamode f s
  | .tarst f => Sys2Proof.Machine.execTarst f s
  | .tadly f => Sys2Proof.Machine.execTadly f s
  | .talnch f => Sys2Proof.Machine.execTalnch f s
  | .tacap f => Sys2Proof.Machine.execTacap f s
  | .tastat f => Sys2Proof.Machine.execTastat f s
  | .tld f => Sys2Proof.Machine.execTld f s
  | .tst f => Sys2Proof.Machine.execTst f s
  | .tzero f => Sys2Proof.Machine.execTzero f s
  | .tmov f => Sys2Proof.Machine.execTmov f s
  | .tmma f => Sys2Proof.Machine.execTmma f s
  | .tmmas f => Sys2Proof.Machine.execTmmas f s
  | .ttrn f => Sys2Proof.Machine.execTtrn f s
  | .tcvt f => Sys2Proof.Machine.execTcvt f s
  | .tfmt f => Sys2Proof.Machine.execTfmt f s
  | .wbankSel f => Sys2Proof.Machine.execWbankSel f s
  | .wbankClaim f => Sys2Proof.Machine.execWbankClaim f s
  | .wbankRel f => Sys2Proof.Machine.execWbankRel f s
  | .wregnDef f => Sys2Proof.Machine.execWregnDef f s
  | .wregnRem f => Sys2Proof.Machine.execWregnRem f s
  | .wldw f => Sys2Proof.Machine.execWldw f s
  | .wstw f => Sys2Proof.Machine.execWstw f s
  | .wadmit f => Sys2Proof.Machine.execWadmit f s
  | .wcoll f => Sys2Proof.Machine.execWcoll f s
  | .wver f => Sys2Proof.Machine.execWver f s
  | .wopt f => Sys2Proof.Machine.execWopt f s
  | .wcks f => Sys2Proof.Machine.execWcks f s
  | .wsave f => Sys2Proof.Machine.execWsave f s
  | .wrest f => Sys2Proof.Machine.execWrest f s
  | .ldl f => Sys2Proof.Machine.execLdl f s
  | .stl f => Sys2Proof.Machine.execStl f s
  | .ldc f => Sys2Proof.Machine.execLdc f s
  | .stc f => Sys2Proof.Machine.execStc f s
  | .mstc f => Sys2Proof.Machine.execMstc f s
  | .ldg f => Sys2Proof.Machine.execLdg f s
  | .stg f => Sys2Proof.Machine.execStg f s
  | .ldgq f => Sys2Proof.Machine.execLdgq f s
  | .pfg f => Sys2Proof.Machine.execPfg f s
  | .vgath f => Sys2Proof.Machine.execVgath f s
  | .vscat f => Sys2Proof.Machine.execVscat f s
  | .gathq f => Sys2Proof.Machine.execGathq f s
  | .ldk f => Sys2Proof.Machine.execLdk f s
  | .ldkq f => Sys2Proof.Machine.execLdkq f s
  | .ldh f => Sys2Proof.Machine.execLdh f s
  | .sth f => Sys2Proof.Machine.execSth f s
  | .hflsh f => Sys2Proof.Machine.execHflsh f s
  | .hinv f => Sys2Proof.Machine.execHinv f s
  | .ldp f => Sys2Proof.Machine.execLdp f s
  | .stp f => Sys2Proof.Machine.execStp f s
  | .spcfg f => Sys2Proof.Machine.execSpcfg f s
  | .cinv f => Sys2Proof.Machine.execCinv f s
  | .cflsh f => Sys2Proof.Machine.execCflsh f s
  | .clkr f => Sys2Proof.Machine.execClkr f s
  | .aadd sp f => Sys2Proof.Machine.execAadd sp f s
  | .afadd sp f => Sys2Proof.Machine.execAfadd sp f s
  | .amin sp f => Sys2Proof.Machine.execAmin sp f s
  | .amax sp f => Sys2Proof.Machine.execAmax sp f s
  | .aand sp f => Sys2Proof.Machine.execAand sp f s
  | .aor sp f => Sys2Proof.Machine.execAor sp f s
  | .axor sp f => Sys2Proof.Machine.execAxor sp f s
  | .axchg sp f => Sys2Proof.Machine.execAxchg sp f s
  | .acas sp f => Sys2Proof.Machine.execAcas sp f s
  | .ared sp f => Sys2Proof.Machine.execAred sp f s
  | .xshdAlloc f => Sys2Proof.Machine.execXshdAlloc f s
  | .xshdFree f => Sys2Proof.Machine.execXshdFree f s
  | .xcopy f => Sys2Proof.Machine.execXcopy f s
  | .xfill f => Sys2Proof.Machine.execXfill f s
  | .xpub f => Sys2Proof.Machine.execXpub f s
  | .semw f => Sys2Proof.Machine.execSemw f s
  | .sems f => Sys2Proof.Machine.execSems f s
  | .semi f => Sys2Proof.Machine.execSemi f s
  | .semrd f => Sys2Proof.Machine.execSemrd f s
  | .bar f => Sys2Proof.Machine.execBar f s
  | .bara f => Sys2Proof.Machine.execBara f s
  | .barw f => Sys2Proof.Machine.execBarw f s
  | .bibset f => Sys2Proof.Machine.execBibset f s
  | .lock f => Sys2Proof.Machine.execLock f s
  | .unlock f => Sys2Proof.Machine.execUnlock f s
  | .trylk f => Sys2Proof.Machine.execTrylk f s
  | .wreg f => Sys2Proof.Machine.execWreg f s
  | .wdereg f => Sys2Proof.Machine.execWdereg f s
  | .whold f => Sys2Proof.Machine.execWhold f s
  | .wqry f => Sys2Proof.Machine.execWqry f s
  | .qpush f => Sys2Proof.Machine.execQpush f s
  | .qpop f => Sys2Proof.Machine.execQpop f s
  | .qpeek f => Sys2Proof.Machine.execQpeek f s
  | .qstat f => Sys2Proof.Machine.execQstat f s
  | .tokp f => Sys2Proof.Machine.execTokp f s
  | .tokw f => Sys2Proof.Machine.execTokw f s
  | .xtree f => Sys2Proof.Machine.execXtree f s
  | .xred f => Sys2Proof.Machine.execXred f s
  | .xbcast f => Sys2Proof.Machine.execXbcast f s
  | .xrstat f => Sys2Proof.Machine.execXrstat f s
  | .lsend f => Sys2Proof.Machine.execLsend f s
  | .larm f => Sys2Proof.Machine.execLarm f s
  | .larmDis f => Sys2Proof.Machine.execLarmDis f s
  | .lrecv f => Sys2Proof.Machine.execLrecv f s
  | .lctrRd f => Sys2Proof.Machine.execLctrRd f s
  | .lctrWait f => Sys2Proof.Machine.execLctrWait f s
  | .lctrSet f => Sys2Proof.Machine.execLctrSet f s
  | .lctrAdd f => Sys2Proof.Machine.execLctrAdd f s
  | .lstep f => Sys2Proof.Machine.execLstep f s
  | .lstat f => Sys2Proof.Machine.execLstat f s
  | .trap f => Sys2Proof.Machine.execTrap f s
  | .seth f => Sys2Proof.Machine.execSeth f s
  | .csrr f => Sys2Proof.Machine.execCsrr f s
  | .csrw f => Sys2Proof.Machine.execCsrw f s
  | .csrwDmr f => Sys2Proof.Machine.execCsrwDmr f s
  | .csrwBib f => Sys2Proof.Machine.execCsrwBib f s
  | .csrwBdepth f => Sys2Proof.Machine.execCsrwBdepth f s
  | .csrwBprio f => Sys2Proof.Machine.execCsrwBprio f s
  | .aset f => Sys2Proof.Machine.execAset f s
  | .tlbi f => Sys2Proof.Machine.execTlbi f s
  | .ctxsv f => Sys2Proof.Machine.execCtxsv f s
  | .ctxrs f => Sys2Proof.Machine.execCtxrs f s
  | .prq f => Sys2Proof.Machine.execPrq f s
  | .wftsp f => Sys2Proof.Machine.execWftsp f s
  | .errlog f => Sys2Proof.Machine.execErrlog f s
  | .inj f => Sys2Proof.Machine.execInj f s
  | .migr f => Sys2Proof.Machine.execMigr f s
  | .ares f => Sys2Proof.Machine.execAres f s
  | .nop => Sys2Proof.Machine.execNop s
  | .waite => Sys2Proof.Machine.execWaite s
  | .nop16 => Sys2Proof.Machine.execNop16 s
  | .inc => Sys2Proof.Machine.execInc s
  | .rdv => Sys2Proof.Machine.execRdv s
  | .node => Sys2Proof.Machine.execNode s
  | .planeCapture => Sys2Proof.Machine.execPlaneCapture s
  | .tstart => Sys2Proof.Machine.execTstart s
  | .tcksOff => Sys2Proof.Machine.execTcksOff s
  | .tcksOn => Sys2Proof.Machine.execTcksOn s
  | .wlease => Sys2Proof.Machine.execWlease s
  | .wrls => Sys2Proof.Machine.execWrls s
  | .wdrain => Sys2Proof.Machine.execWdrain s
  | .wdrainDiscard => Sys2Proof.Machine.execWdrainDiscard s
  | .wavefrontAdmission => Sys2Proof.Machine.execWavefrontAdmission s
  | .wavefrontCellArrival => Sys2Proof.Machine.execWavefrontCellArrival s
  | .wavefrontDelivery => Sys2Proof.Machine.execWavefrontDelivery s
  | .applyCommit => Sys2Proof.Machine.execApplyCommit s
  | .queueLoadArrival => Sys2Proof.Machine.execQueueLoadArrival s
  | .writeTakesEffect => Sys2Proof.Machine.execWriteTakesEffect s
  | .fenceStream => Sys2Proof.Machine.execFenceStream s
  | .fenceJob => Sys2Proof.Machine.execFenceJob s
  | .fenceCluster => Sys2Proof.Machine.execFenceCluster s
  | .fenceDevice => Sys2Proof.Machine.execFenceDevice s
  | .fenceSystem => Sys2Proof.Machine.execFenceSystem s
  | .efence => Sys2Proof.Machine.execEfence s
  | .ksync => Sys2Proof.Machine.execKsync s
  | .copyCompletion => Sys2Proof.Machine.execCopyCompletion s
  | .deadlockSweep => Sys2Proof.Machine.execDeadlockSweep s
  | .waitLimit => Sys2Proof.Machine.execWaitLimit s
  | .redTimeout => Sys2Proof.Machine.execRedTimeout s
  | .linkMessageArrival => Sys2Proof.Machine.execLinkMessageArrival s
  | .peerAccessArrival => Sys2Proof.Machine.execPeerAccessArrival s
  | .sendAcknowledged => Sys2Proof.Machine.execSendAcknowledged s
  | .goBackReplay => Sys2Proof.Machine.execGoBackReplay s
  | .linkDown => Sys2Proof.Machine.execLinkDown s
  | .postWaitTimeout => Sys2Proof.Machine.execPostWaitTimeout s
  | .linkTraining => Sys2Proof.Machine.execLinkTraining s
  | .gscStep => Sys2Proof.Machine.execGscStep s
  | .gscJoin => Sys2Proof.Machine.execGscJoin s
  | .tret => Sys2Proof.Machine.execTret s
  | .udecl => Sys2Proof.Machine.execUdecl s
  | .checkerCompare => Sys2Proof.Machine.execCheckerCompare s
  | .vbusLaneFault => Sys2Proof.Machine.execVbusLaneFault s
  | .preempt => Sys2Proof.Machine.execPreempt s
  | .distributorSelection => Sys2Proof.Machine.execDistributorSelection s
  | .replayDiverge => Sys2Proof.Machine.execReplayDiverge s
  | .dispatch => Sys2Proof.Machine.execDispatch s
  | .jobRetirement => Sys2Proof.Machine.execJobRetirement s
  | .hostTailWrite => Sys2Proof.Machine.execHostTailWrite s
  | .queueDescriptorWrite => Sys2Proof.Machine.execQueueDescriptorWrite s
  | .queueDisableWrite => Sys2Proof.Machine.execQueueDisableWrite s
  | .hostirqClear => Sys2Proof.Machine.execHostirqClear s
  | .layerpwrWrite => Sys2Proof.Machine.execLayerpwrWrite s
  | .peerdataWrite => Sys2Proof.Machine.execPeerdataWrite s
  | .nctrWrite => Sys2Proof.Machine.execNctrWrite s
  | .windowWrite => Sys2Proof.Machine.execWindowWrite s
  | .hostCoherentAccess => Sys2Proof.Machine.execHostCoherentAccess s
  | .layer1PowerOff => Sys2Proof.Machine.execLayer1PowerOff s
  | .layer1PowerOn => Sys2Proof.Machine.execLayer1PowerOn s
  | .powerOn => Sys2Proof.Machine.execPowerOn s
  | .firmwareImageDelivery => Sys2Proof.Machine.execFirmwareImageDelivery s
  | .configurationImageDelivery => Sys2Proof.Machine.execConfigurationImageDelivery s
  | .summerTransition => Sys2Proof.Machine.execSummerTransition s
  | .powerRemoval => Sys2Proof.Machine.execPowerRemoval s
  | .dieReset => Sys2Proof.Machine.execDieReset s
  | .attestationRequest => Sys2Proof.Machine.execAttestationRequest s
  | .hazelTranslation => Sys2Proof.Machine.execHazelTranslation s
  | .uncorrectableError => Sys2Proof.Machine.execUncorrectableError s
  | .hostErrorOnStore => Sys2Proof.Machine.execHostErrorOnStore s
  | .supervisorDebugStop => Sys2Proof.Machine.execSupervisorDebugStop s
  | .returnToWinterThroughFault => Sys2Proof.Machine.execReturnToWinterThroughFault s

end Sys2Proof.Machine
end

