-- ==== Sys2Proof/Machine/Sched.lean ====
section
/-! DEFINITION. What happens next (log entry 1): an input, a due event, the next stream's turn, or the end of the slot; and
the placing of one instruction where the next step fetches it. -/
namespace Sys2Proof.Machine

/-- What the next step is: a meaning to run in a state, or a state that is reached without one. -/
inductive Todo where
  | run (i : Instr) (s : State)
  | next (s : State)

/-- May a stream go on in this slot (R10, R83, R103, R290, R416, R419, R420, R428): pass an idle slot, or issue? (DEDUCED, log entry 17). -/
def State.runnable (s : State) (c : CoreId) (i : StreamId) : Bool :=
  let k := s.core c
  let t := k.strm i
  k.active && s.inService c && t.used && !t.ended && !t.halted && (!k.frozen i || k.trapSlot == some s.clock) && k.freeze == 0 &&
  t.readyAt <= s.clock && (t.idle != 0 || t.fetchAt <= s.clock)

/-- The stream at a place of the order: core by core, streams by number. -/
def keyCore (key : Nat) : CoreId := ⟨key / 6 % 136, by omega⟩
def keyStrm (key : Nat) : StreamId := StreamId.ofNum (key % 6)

/-- The first place from `key` on whose stream passes a test. -/
def nextKey (p : CoreId → StreamId → Bool) : Nat → Nat → Option Nat
  | 0, _ => none
  | fuel + 1, key => if p (keyCore key) (keyStrm key) then some key else nextKey p fuel (key + 1)

/-- A stream's turn, where the turns are counted from `base`: due writes take effect; then an idle slot passes, a block is entered, a pass
ends, or the next word issues, unless it interlocks (DESIGN CHOICE, log entry 1). -/
def State.streamTurn (s : State) (base key : Nat) : Todo :=
  let c := keyCore key
  let i := keyStrm key
  let s0 := { s with turn := base + key + 1, ctx := ⟨c, i, Head.zero, 0, 0, EvArgs.zero, none⟩ }
  let t := s0.strm c i
  if !((s0.core c).dueWrites i s.clock).isEmpty then
    .run .writeTakesEffect { s0 with turn := base + key, ctx := { s0.ctx with ev := { EvArgs.zero with unit := c.val, sub := i.num } } }
  else if t.idle != 0 then .next (s0.setStrm c i (t.idleSlot s.clock))
  else
    match t.blk with
    | none => .next ({ s0 with turn := base + key }.enterBlock c i)
    | some b =>
      let off := (t.pc.toNat - b.hdr.toNat - 4) / 2
      if t.mac.isNone && b.len ≤ off then .next ({ s0 with turn := base + key }.endPass c i b)
      else
        match s0.fetchNext c i b off with
        | (s1, .bad x) => .next (s1.raiseOwn c i x)
        | (s1, .code w n x armed) =>
          if s.interlocked c i w.instr then .next s0 else
          let t1 := s1.strm c i
          let t2 := if t1.mac.isSome then t1 else
            { t1 with armed := if armed then some (t1.pc + BitVec.ofNat 64 (2 * n)) else if w.instr.headKind == .inc then t1.armed else none }
          .run w.instr { s1.setStrm c i t2 with ctx := ⟨c, i, w.head, n, x, EvArgs.zero, none⟩ }

/-! The end of a slot. -/

/-- A wait one slot older (R354). -/
def Wait.age (w : Wait) (still : Bool) : Wait := if still && w.grant.isNone then { w with count := w.count + 1 } else w

/-- The wait's only holder is a halted AS, or one that ARES has let go on in this slot (R354, R442). -/
def State.heldByHaltedAs (s : State) (c : CoreId) (w : Wait) : Bool :=
  match (s.holders c w).2 with
  | [.strm c' .as] => (s.strm c' .as).halted || (s.core c').aresSlot == some s.clock
  | _ => false

/-- The wait counters of a core advance (R354). -/
def State.ageCore (s : State) (c : CoreId) : Core :=
  let k := s.core c
  if !k.active || k.freeze != 0 || k.stopped.isSome then k else
  let counts (i : StreamId) (w : Wait) : Bool := !k.frozen i && w.reg && !k.satisfied w && !s.heldByHaltedAs c w
  let k1 := allStreams.foldl (fun k i =>
    let t := k.strm i
    k.setStrm i { t with wait := t.wait.map fun w => w.age (counts i w) }) k
  allEngs.foldl (fun k e => k.mapHead e fun (x : Cmd) => { x with wait := x.wait.map fun w => w.age (counts e.strm w) }) k1

/-- Stores leave the host write buffer of their own: for each core, a prefix of free length (R297, R314)
(DEDUCED, log entry 12). -/
def State.evictHost : List CoreId → State → State
  | [], s => s
  | c :: t, s =>
    let n := (s.core c).hostBuf.length
    if n = 0 then State.evictHost t s
    else State.evictHost t (s.drawn.deliverOldest c (Config.freeChoice s.draws % (n + 1)))

/-- Traps held in a slot in which no PREEMPT was taken after all are raised (R423). -/
def State.raiseAllHeld (s : State) : State :=
  allCores.foldl (fun s c =>
    let k := s.core c
    if k.held.isEmpty || k.stopped.isSome || k.handler.isSome || s.plimReached c then s else s.raiseHeld c) s

/-- The slot ends: the clock, freezes, pre-emption counts, link counts and effective priorities advance (DESIGN CHOICE, log entry 1). -/
def State.endSlot (s0 : State) : State :=
  let s := s0.raiseAllHeld
  let s1 := { s with cores := s.cores.map fun (k : Core) =>
    { k with freeze := k.freeze - 1, request := if k.active then k.request.map fun r => { r with count := r.count + 1 } else k.request } }
  let s2 := (List.finRange 2).foldl (fun s d => State.flushRecords d (s.die d).records
    (s.setDie d { s.die d with records := [] })) s1
  let s3 := { s2 with links := s2.links.map fun (l : Link) => l.tick }
  { s3 with clock := s3.clock + 1, phase := s3.phase + 1, turn := 0 }.updateEprio

/-! The events of a slot. -/

/-- Loads into queues whose data arrives (R291) (DESIGN CHOICE, log entry 8). -/
def State.arrivalEvents (s : State) : List Event :=
  allCores.flatMap fun c =>
    ((List.range 16).filter fun n =>
      match ((s.core c).queueAt n).entries.find? fun e => !e.arrived with
      | some e => decide (e.due ≤ s.clock)
      | none => false).map fun n => ⟨.queueLoadArrival, { EvArgs.zero with unit := c.val, sub := n }⟩

/-- A wait has passed the limit under which it began (R354, R119). -/
def Wait.expired (w : Wait) : Bool := w.limit != 0 && decide (w.limit < w.count)

/-- Waits that have passed their limits. -/
def State.limitEvents (s : State) : List Event :=
  allCores.flatMap fun c =>
    let k := s.core c
    if !k.active then [] else
    let ev (i : StreamId) (v : Nat) : Event := ⟨.waitLimit, { EvArgs.zero with unit := c.val, sub := i.num, val := v }⟩
    ((allStreams.filter fun i => (k.strm i).wait.any Wait.expired).map fun i => ev i 0) ++
    ((allEngs.filter fun e => ((k.headCmd e).bind (·.wait)).any Wait.expired).map fun e => ev e.strm (e.num + 1))

/-- A slot at which a sweep of a die begins: its end is drawn among the 4096 slots from it (R349) (DEDUCED, log entry 14). -/
def State.sweepBegins : List (Fin 2) → State → State
  | [], s => s
  | d :: t, s =>
    let x := s.die d
    if x.state != 0 && (s.clock - x.released) % 4096 == 0 then
      State.sweepBegins t (s.drawn.setDie d { x with sweepEnd := some (s.clock + Config.freeChoice s.draws % 4096) })
    else State.sweepBegins t s

/-- Sweeps that end (R349) (DEDUCED, log entry 14). -/
def State.sweepEvents (s : State) : List Event :=
  ((List.finRange 2).filter fun d => (s.die d).sweepEnd.any fun n => decide (n ≤ s.clock)).map fun d =>
    ⟨.deadlockSweep, { EvArgs.zero with unit := d.val }⟩

/-- Links without an acknowledgement, and messages held back, for 1,048,576 slots (R398, R399). -/
def State.linkEvents (s : State) : List Event :=
  (List.range 12).flatMap fun l =>
    let k := s.link l
    (if 1048576 ≤ k.idle then [(⟨Instr.linkDown, { EvArgs.zero with unit := l }⟩ : Event)] else []) ++
    (if 1048576 ≤ k.waited then [(⟨Instr.postWaitTimeout, { EvArgs.zero with unit := l }⟩ : Event)] else [])

/-- The events due in a slot, in the order in which they happen: first the distributors' selections, which see no change made in
the slot (R78); those that raise traps in the order of the streams (R419) (DESIGN CHOICE, log entry 1). -/
def State.dueEvents (s : State) : List Event :=
  s.distEvents ++ (if s.steplen ≤ s.phase then [⟨.gscStep, EvArgs.zero⟩] else []) ++ s.arrivalEvents ++ s.compareEvents ++
  (allCores.flatMap fun c => (s.core c).captureEvents c s.clock) ++ s.engineEvents lowEngs ++ s.arrayEvents ++
  s.engineEvents highEngs ++ s.linkEvents ++ s.retireEvents ++ s.systemEvents

/-- The turns of a slot: the streams' own, those of the waits that are at risk, and the closing events. -/
def secondTurn : Nat := 817
def lastTurn : Nat := 1634

/-- A wait is at risk in this slot: it has passed its limit, or a sweep ends. -/
def State.atRisk (s : State) (w : Option Wait) : Bool :=
  w.any fun w => w.grant.isNone && (w.expired || (w.reg && !s.sweepEvents.isEmpty))

/-- A stream whose wait is at risk tries once more, so that a release later in the slot prevails (R355). -/
def State.retries (s : State) (c : CoreId) (i : StreamId) : Bool := s.atRisk (s.strm c i).wait && s.runnable c i

/-- The streams of a slot have had their turns: the wait counters and the collective timers advance; then the engine commands and the
streams whose waits are at risk try once more (R355) (DESIGN CHOICE, log entry 1). -/
def State.closeSlot (s : State) : State :=
  let s1 := { s with turn := secondTurn, cores := s.cores.mapFinIdx fun n k h => if k.active then (s.ageCore ⟨n, h⟩).tickColl else k }
  { s1 with agenda := s1.headEvents allEngs fun _ x => s1.atRisk x.wait }

/-- What comes at a slot's end is on the agenda: PREEMPT (R423), then the sweeps that end, the collective time-outs and the waits past
their limits, DEADLOCK before WAIT_LIMIT, and RED_TIMEOUT before it too (R355, R383) (DESIGN CHOICE, log entry 1). -/
def State.closeWaits (s : State) : State :=
  { s with turn := lastTurn, agenda := s.preemptEvents ++ s.sweepEvents ++ s.timeoutEvents ++ s.limitEvents }

/-- The next slot: what happens in it of its own by free choices (stores that leave the write buffers, messages sent, words
copied, the ends of sweeps), and the events due in it on the agenda (DESIGN CHOICE, log entry 1). -/
def State.newSlot (s : State) : State :=
  let s1 := State.sweepBegins (List.finRange 2) (State.linksSlot (List.range 12) (State.evictHost allCores s.endSlot))
  let r := State.copiesSlot allCores s1
  { r.1 with agenda := r.2 ++ r.1.dueEvents }

/-- An input whose time has come (DESIGN CHOICE, log entry 2). -/
def Input.due (e : Input) (s : State) : Bool := decide (e.slot < s.clock) || (e.slot == s.clock && decide (e.turn ≤ s.turn))

/-- What is left of a slot once its streams have had their turns: the second ones of those whose waits are at risk, the closing events, and
its end (DESIGN CHOICE, log entry 1). -/
def State.lateTurn (s : State) : Todo :=
  match nextKey s.retries (secondTurn + 816 - s.turn) (s.turn - secondTurn) with
  | some key => s.streamTurn secondTurn key
  | none => if s.turn < lastTurn then .next s.closeWaits else .next s.newSlot

/-- The next stream's turn in this slot; with none left the inputs that are still to come in it, and its close
(DESIGN CHOICE, log entry 1). -/
def State.nextTurn (s : State) : Todo :=
  match nextKey s.runnable (816 - s.turn) s.turn with
  | some key => s.streamTurn 0 key
  | none =>
    if s.turn < 816 && s.inbox.head?.any (fun (e : Input) => e.slot == s.clock && decide (e.turn ≤ 816)) then .next { s with turn := 816 }
    else if s.turn < secondTurn then .next s.closeSlot
    else s.lateTurn

/-! The UCIe modules (R443, R444). -/

/-- The die that a module joins to the host die. -/
def moduleDie (m : Fin 4) : Nat := m.val / 2

/-- The host die sends a transfer over a module: it is performed after those before it on the module, when it has arrived, which may be
at any time (R444) (DEDUCED, log entry 45). -/
def State.sendOver (s : State) (m : Fin 4) (e : Event) : State :=
  { s.drawn with ucie := s.ucie.set m (s.ucie[m] ++
    [⟨s.clock + Config.freeDelay s.draws, { e with args := { e.args with unit := moduleDie m } }⟩]) }

/-- The first module whose oldest transfer has arrived. -/
def State.arrivedOver (s : State) : Option (Fin 4 × Transfer) :=
  (List.finRange 4).findSome? fun m =>
    match s.ucie[m] with
    | x :: _ => if x.due ≤ s.clock then some (m, x) else none
    | [] => none

/-- The oldest transfer of a module taken off it. -/
def State.takeOver (s : State) (m : Fin 4) : State := { s with ucie := s.ucie.set m s.ucie[m].tail }

/-- An input comes: sent over a module, or performed at once where it names none. -/
def State.takeInput (s : State) (e : Event) : Todo :=
  match e.args.via with
  | some m => .next (s.sendOver m e)
  | none => .run e.what { s with ctx := { Ctx.zero with ev := e.args } }

/-- What comes from outside: a transfer that has arrived over a UCIe module, else an input whose time has come. -/
def State.outside (s : State) : Option Todo :=
  match s.arrivedOver, s.inbox with
  | some (m, x), _ => some (.run x.event.what { s.takeOver m with ctx := { Ctx.zero with ev := x.event.args } })
  | none, e :: t => if e.due s then some ({ s with inbox := t }.takeInput e.event) else none
  | none, [] => none

/-- What happens next: the head of the agenda, else what comes from outside, else the next stream that may issue in this slot, else the end of the slot, which puts the events due in the new slot on the agenda
(DESIGN CHOICE, log entry 1). -/
def State.todo (s : State) : Todo :=
  match s.agenda with
  | e :: t => .run e.what { s with agenda := t, ctx := { Ctx.zero with ev := e.args } }
  | [] =>
    match s.outside with
    | some t => t
    | none => s.nextTurn

/-! Placing one instruction. -/

/-- The record of a trap that stands in for whatever brought the CS to handler mode. -/
def placedRecord : TrapRec :=
  { cause := cTRAPI, strm := .cs, precise := true, esc := false, nest := false, recf := false, eng := false, midx := 0
    inmac := false, pc := 0, jobid := 0, addr := 0, kind := 0, space := 0, halted := false, slots := 0, gsc := 0, core := 0
    detail := [] }

/-- A core with a job of which one stream alone is used, in a repeated scoreboard block whose loop buffer holds the given
halfwords; in handler mode where the instruction runs nowhere else; an INC word stands behind what it steps. -/
def Core.withBody (k : Core) (i : StreamId) (w : Instr) (hs : List HWord) : Core :=
  let b : Block := ⟨0x1000, hs.length, 1, false, false, Nest.zero, 0, 0, some hs⟩
  let h : Option Handler := if handlerOk false w then none else
    some ⟨placedRecord, ⟨0x1004, none, true, none, none, [], 0, none, none, 0, 0⟩, none⟩
  { k with active := true, handler := h }.setStrm i { k.strm i with
    used := true, pc := 0x1004, blk := some b, taken := false, lastLM := some false, readyAt := 0
    armed := if w.headKind == HeadKind.inc then some 0x1004 else none }

/-- The stream that runs an instruction: the first that may. -/
def firstStream (i : Instr) : StreamId :=
  (allStreams.find? fun k => permitted k i && csrPermitted k i).getD .cs

/-- A job (of a system core for a supervisor's instruction) placed so that the next step fetches the given halfwords: both
dies in Summer, nothing due, the turn the placed stream's (DESIGN CHOICE, log entry 1). -/
def State.placeWord (s : State) (hs : List HWord) : State :=
  let i := match Decode.decode hs with
    | .ok (w, _) => w.instr
    | .error _ => .nop
  let c : CoreId := if isPrivileged i then 128 else 0
  let k := firstStream i
  let summer (d : Die) : Die := { d with state := 2, ready := true, layerOn := true }
  let s1 := { s with dies := s.dies.map summer, inbox := [], agenda := [], ucie := Vector.replicate 4 [], turn := 6 * c.val + k.num }
  s1.setCore c ((s1.core c).withBody k i hs)

end Sys2Proof.Machine
end

