-- ==== Sys2Proof/Machine/Step.lean ====
section
/-! DEFINITION. One step of the machine: what is next (Sched.lean), and its meaning. -/
namespace Sys2Proof.Machine

/-- One step. -/
def step (s : State) : Host.Outcome State Fault Refusal :=
  match s.todo with
  | .run i s1 => exec i s1
  | .next s1 => .next s1

/-- The state with one instruction placed where the next step fetches it. -/
def State.withFetchWord (s : State) (nbits w : Nat) : State := s.placeWord (Decode.tableHalves (w % 2 ^ nbits))

end Sys2Proof.Machine
end

