-- ==== Sys2Proof/Certificates/Slice0/Obligations.lean ====
section
/-! DEFINITION. The statements about this machine. A statement's docstring names the rules that it formalises and the log entries
that it rests on. -/
namespace Sys2Proof.Machine

/-! What several statements share. -/

/-- An instruction of a stream, run as its stream's own step and not as the run of an engine's head command. -/
abbrev AsIssued (s : State) : Prop := s.ctx.ev.flag = false

/-- The instructions that no stream issues: the events of the opcode table, which have no encoding. -/
def eventOnly : Instr → Bool
  | .planeCapture | .wavefrontAdmission | .wavefrontCellArrival | .wavefrontDelivery | .applyCommit | .queueLoadArrival
  | .writeTakesEffect | .copyCompletion | .deadlockSweep | .waitLimit | .redTimeout | .linkMessageArrival
  | .peerAccessArrival | .sendAcknowledged | .goBackReplay | .linkDown | .postWaitTimeout | .linkTraining | .gscStep
  | .gscJoin | .checkerCompare | .vbusLaneFault | .preempt | .distributorSelection | .replayDiverge | .dispatch
  | .jobRetirement | .hostTailWrite | .queueDescriptorWrite | .queueDisableWrite | .hostirqClear | .layerpwrWrite
  | .peerdataWrite | .nctrWrite | .windowWrite | .hostCoherentAccess | .layer1PowerOff | .layer1PowerOn | .powerOn
  | .firmwareImageDelivery | .configurationImageDelivery | .summerTransition | .powerRemoval | .dieReset
  | .attestationRequest | .hazelTranslation | .uncorrectableError | .hostErrorOnStore | .supervisorDebugStop
  | .returnToWinterThroughFault => true
  | _ => false

/-- The instructions whose G field is a guard (R34): all with a 32-bit word but the vector instructions and the vector forms of the memory
instructions, for which it is a lane mask, SEL and VSEL, which it selects for, and the 16-bit words. -/
def guarded (i : Instr) : Bool :=
  !eventOnly i && (i.headKind == .plain || i.headKind == .sem) &&
  match i with
  | .sel _ | .vadd _ | .vsub _ | .vmul _ | .vfma _ | .vmin _ | .vmax _ | .vabs _ | .vneg _ | .vdiv _ | .vsqrt _ | .vrsq _ | .vrec _
  | .vexp2 _ | .vlog2 _ | .vand _ | .vor _ | .vxor _ | .vnot _ | .vshl _ | .vshr _ | .vsra _ | .vclz _ | .vcmpeq _ | .vcmpne _
  | .vcmplt _ | .vcmple _ | .vcmpun _ | .vclass _ | .vsel _ | .vmov _ | .vbcast _ | .vlane _ | .vins _ | .vperm _ | .vslide _
  | .vred _ | .vscan _ | .vdot _ | .vcvt _ | .vscale _ | .vgath _ | .vscat _ => false
  | .ldl f | .stl f | .ldc f | .stc f | .mstc f | .ldg f | .stg f | .ldk f | .ldh f | .sth f | .ldp f | .stp f => !f.vec
  | .ared _ f => f.cnt == 0
  | _ => true

end Sys2Proof.Machine

open Sys2Proof Sys2Proof.Machine Sys2Proof.Decode

/-! Encoding. -/

/-- Words that the manual writes out with their instructions decode to them, one for each format: three registers, a guard and a stall count,
an immediate, a branch, a compare, the two predicate formats, an X word, a memory access, and engine commands with and without a signal
field. -/
def Obligations.ManualWordsDecode : Prop :=
  decode [0x0011, 0x1046] = .ok (⟨Head.zero, .add ⟨2, 1, 3⟩⟩, []) ∧
  decode [0x2A19, 0x3108] = .ok (⟨{ Head.zero with g := 5, st := 2 }, .mul ⟨6, 4, 4⟩⟩, []) ∧
  decode [0x001D, 0xF884] = .ok (⟨Head.zero, .addi ⟨-1, 2, 2⟩⟩, []) ∧
  decode [0x0005, 0xFFFB] = .ok (⟨Head.zero, .br ⟨-10⟩⟩, []) ∧
  decode [0x0021, 0x104B] = .ok (⟨Head.zero, .cmplt ⟨2, 1, 5⟩⟩, []) ∧
  decode [0x002D, 0x2A54] = .ok (⟨Head.zero, .plogOr ⟨41, 40⟩⟩, []) ∧
  decode [0x002F, 0x00CA] = .ok (⟨Head.zero, .pget ⟨0, 3, 20⟩⟩, []) ∧
  decode [0x001F, 0x0008, 0x5678, 0x1234] = .ok (⟨Head.zero, .li ⟨0, 0, 4, 0x12345678⟩⟩, []) ∧
  decode [0x0085, 0x290E, 0x0008, 0x4005] = .ok (⟨Head.zero, .ldg ⟨5, 4, 7, 2, 0, 0, 5, 8⟩⟩, []) ∧
  decode [0x006B, 0x0800, 0x0000, 0x0028] = .ok (⟨Head.zero, .tmma ⟨1, 0, 0, 10⟩⟩, []) ∧
  decode [0x00C9, 0x2900, 0x0100, 0x017E] = .ok (⟨{ Head.zero with se := true, ssem := 1 }, .xred ⟨5, 4, 0, 0x5F⟩⟩, []) ∧
  decode [0x00CB, 0x62D4, 0x0200, 0x0016] = .ok (⟨{ Head.zero with se := true, ssem := 2 }, .lsend ⟨12, 11, 10, 5⟩⟩, [])

/-- Every well-formed instruction word is what the decoder reads from the halfwords that encode it, whatever stands behind them
(R26 to R49): no bit of an operand is dropped. -/
def Obligations.DecodeOfEncode : Prop :=
  ∀ (w : Code) (rest : List HWord), w.wf = true → encode w ≠ [] → decode (encode w ++ rest) = .ok (w, rest)

/-- The other direction: halfwords that decode are the encoding of what they decode to, followed by what is left (R49). -/
def Obligations.EncodeOfDecode : Prop :=
  ∀ (hs : List HWord) (w : Code) (rest : List HWord), decode hs = .ok (w, rest) → w.wf = true ∧ encode w ++ rest = hs

/-! The step. -/

/-- A step of a stream runs the decoded instruction (R92): with no event due and no transfer or input come, when the stream has no idle
slot and no write that is due, in a repeated scoreboard block, where the halfwords at the program counter decode to a well-formed
instruction that the stream may run and that needs no register still to come, the step is that instruction's meaning, in the context
of its core, stream, head and length.
Where the manual leaves a point open it follows the model's reading (log entry 1). -/
def Obligations.StepRunsDecoded : Prop :=
  ∀ (s : State) (key : Nat) (b : Block) (hs : List HWord) (w : Code) (rest : List HWord),
    let c := keyCore key
    let i := keyStrm key
    let t := s.strm c i
    let off := (t.pc.toNat - b.hdr.toNat - 4) / 2
    let s0 : State := { s with turn := key + 1, ctx := ⟨c, i, Head.zero, 0, 0, EvArgs.zero, none⟩ }
    s.agenda = [] → s.outside = none →
    nextKey s.runnable (816 - s.turn) s.turn = some key → t.idle = 0 → (s.core c).dueWrites i s.clock = [] →
    t.mac = none → t.blk = some b → b.buf = some hs → b.lm = false → off < b.len →
    decode (hs.drop off) = .ok (w, rest) → (encode w).length ≤ b.len - off →
    decodeFault s0 i false ((s.core c).handler.isSome && i == .cs) (hs.drop off) w (encode w).length = none →
    w.instr.headKind ≠ .inc → incBehind (hs.drop off) (encode w).length = none →
    s0.interlocked c i w.instr = false →
    step s = exec w.instr
      ({ s with turn := key + 1, ctx := ⟨c, i, w.head, (encode w).length, 0, EvArgs.zero, none⟩ }.setStrm c i { t with armed := none })

/-- Every instruction goes on, whatever its operands and the state: it completes, waits or takes a trap, and never ends the run; only
an event that names a unit that does not exist has no next state. An engine's command runs on the core that its event names.
Where the manual leaves a point open it follows the model's reading (log entry 53). -/
def Obligations.InstructionsGoOn : Prop :=
  ∀ (i : Instr) (s : State), eventOnly i = false → (s.ctx.ev.flag = true → s.ctx.ev.unit < 136) → ∃ t, exec i s = .next t

/-- A false guard takes the effect away and leaves the slots (R34): every 32-bit instruction but the vector instructions, SEL and
VSEL, whose G field is no guard. -/
def Obligations.FalseGuard : Prop :=
  ∀ (i : Instr) (s : State), guarded i = true → AsIssued s → s.guard = false → exec i s = .next s.retire

/-- The advance past an instruction (R92, R116): the slot count and the next issue slot move by one, the stall count's idle slots follow, a
wait that stood is over, and nothing else of the package changes but the program counter. Outside a macro that moves over the
instruction's halfwords; in one the next operation is next, and behind the last the program counter moves over MCALL's halfwords, whose
own idle slots follow too. -/
def Sys2Proof.Machine.RetireAdvancesRule : Prop :=
  ∀ s : State,
    let t : Strm := { s.str with
      slots := s.str.slots + 1, idle := s.ctx.head.st.toNat, readyAt := s.clock + 1, wait := none, draining := false, peerWait := none }
    (s.str.mac = none → s.retire = s.setStr { t with pc := s.str.pc + BitVec.ofNat 64 (2 * s.ctx.len) }) ∧
    (∀ m, s.str.mac = some m → m.idx + 1 < m.ops.length → s.retire = s.setStr { t with mac := some { m with idx := m.idx + 1 } }) ∧
    (∀ m, s.str.mac = some m → m.ops.length ≤ m.idx + 1 → s.retire =
      s.setStr { t with mac := none, pc := s.str.pc + BitVec.ofNat 64 (2 * m.len), idle := s.ctx.head.st.toNat + m.st })

/-- An idle slot passes on its own (R92): where a stream has idle slots left and no write is due, its turn counts one of them, one slot of
its own, and changes nothing else. -/
def Sys2Proof.Machine.IdleSlotPassesRule : Prop :=
  ∀ (s : State) (key : Nat), s.agenda = [] → s.outside = none → nextKey s.runnable (816 - s.turn) s.turn = some key →
    let c := keyCore key
    let i := keyStrm key
    let t := s.strm c i
    (s.core c).dueWrites i s.clock = [] → t.idle ≠ 0 →
    step s = .next ({ s with turn := key + 1, ctx := ⟨c, i, Head.zero, 0, 0, EvArgs.zero, none⟩ }.setStrm c i
      { t with slots := t.slots + 1, idle := t.idle - 1, readyAt := s.clock + 1 })

/-- The advance past an instruction (R92, R116): the slot count and the next issue slot move by one, the stall count's idle slots
follow, a wait that stood is over, and nothing else of the package changes but the program counter. Outside a macro that moves over the
instruction's halfwords; in one the next operation is next, and behind the last the program counter moves over MCALL's halfwords, whose
own idle slots follow too. An idle slot passes on its own (R92): where a stream has idle slots left and no write is due, its turn counts
one of them, one slot of its own, and changes nothing else. -/
def Obligations.RetireAdvances : Prop :=
  Sys2Proof.Machine.RetireAdvancesRule ∧ Sys2Proof.Machine.IdleSlotPassesRule

/-! Registers and the scalar instructions. -/

namespace Sys2Proof.Machine

/-- What a scalar instruction computes, in exact arithmetic (R111, R120 to R122, R126): its latency, destination and value. -/
def scalarRule (i : Instr) (s : State) : Option (Nat × BitVec 5 × Word) :=
  let n (x : BitVec 5) : Nat := (s.getS x).toNat
  let z (x : BitVec 5) : Int := (s.getS x).toInt
  let k (x : BitVec 5) : Nat := n x % 64
  let bits (p : Nat → Bool) : Word := BitVec.ofNat 64 ((List.range 64).foldl (fun v i => if p i then v + 2 ^ i else v) 0)
  let bit (x : BitVec 5) (i : Nat) : Bool := (s.getS x).getLsbD i
  match i with
  | .add f => some (1, f.d, BitVec.ofInt 64 (z f.a + z f.b))
  | .sub f => some (1, f.d, BitVec.ofInt 64 (z f.a - z f.b))
  | .and f => some (1, f.d, bits fun i => bit f.a i && bit f.b i)
  | .or f => some (1, f.d, bits fun i => bit f.a i || bit f.b i)
  | .xor f => some (1, f.d, bits fun i => bit f.a i != bit f.b i)
  | .andn f => some (1, f.d, bits fun i => bit f.a i && !bit f.b i)
  | .shl f => some (1, f.d, BitVec.ofNat 64 (n f.a * 2 ^ k f.b))
  | .shr f => some (1, f.d, BitVec.ofNat 64 (n f.a / 2 ^ k f.b))
  | .sra f => some (1, f.d, BitVec.ofInt 64 (z f.a / 2 ^ k f.b))
  | .rotr f => some (1, f.d, BitVec.ofNat 64 (n f.a / 2 ^ k f.b + n f.a * 2 ^ (64 - k f.b)))
  | .min f => some (1, f.d, BitVec.ofInt 64 (min (z f.a) (z f.b)))
  | .max f => some (1, f.d, BitVec.ofInt 64 (max (z f.a) (z f.b)))
  | .minu f => some (1, f.d, BitVec.ofNat 64 (min (n f.a) (n f.b)))
  | .maxu f => some (1, f.d, BitVec.ofNat 64 (max (n f.a) (n f.b)))
  | .clz f => some (1, f.d, (s.getS f.a).clz)
  | .popc f => some (1, f.d, (s.getS f.a).cpop)
  | .mul f => some (3, f.d, BitVec.ofNat 64 (n f.a * n f.b))
  | .mulh f => some (3, f.d, BitVec.ofInt 64 (z f.a * z f.b / 2 ^ 64))
  | .mulhu f => some (3, f.d, BitVec.ofNat 64 (n f.a * n f.b / 2 ^ 64))
  | .div f => some (20, f.d, if n f.b = 0 then BitVec.ofInt 64 (-1) else BitVec.ofInt 64 ((z f.a).tdiv (z f.b)))
  | .divu f => some (20, f.d, if n f.b = 0 then BitVec.ofInt 64 (-1) else BitVec.ofNat 64 (n f.a / n f.b))
  | .rem f => some (20, f.d, if n f.b = 0 then s.getS f.a else BitVec.ofInt 64 ((z f.a).tmod (z f.b)))
  | .remu f => some (20, f.d, if n f.b = 0 then s.getS f.a else BitVec.ofNat 64 (n f.a % n f.b))
  | .addi f => some (1, f.d, BitVec.ofInt 64 (z f.a + f.imm.toInt))
  | .andi f => some (1, f.d, bits fun i => bit f.a i && f.imm.getLsbD (min i 4))
  | .ori f => some (1, f.d, bits fun i => bit f.a i || f.imm.getLsbD (min i 4))
  | .shli f => some (1, f.d, BitVec.ofNat 64 (n f.a * 2 ^ f.imm.toNat))
  | .li f => some (1, f.d, BitVec.ofInt 64 f.x.toInt)
  | .lih f => some (1, f.d, BitVec.ofNat 64 (f.x.toNat * 2 ^ 32 + n f.d % 2 ^ 32))
  | .mov f => some (1, f.d, s.getS f.a)
  | .lea f => some (1, f.d, BitVec.ofInt 64 (z f.a + z f.b * 2 ^ f.xf 29 3 + (f.x.extractLsb' 0 29).toInt))
  | .sel f => some (1, f.d, if s.guard then s.getS f.a else s.getS f.b)
  | .mov16 a d => some (1, d, s.getS a)
  | .add16 a d => some (1, d, BitVec.ofInt 64 (z d + z a))
  | .addi16 imm d => some (1, d, BitVec.ofInt 64 (z d + imm.toInt))
  | .fqry f => some (1, f.d, s.featureWord (n f.a))
  | _ => none

/-- What the last of some writes gives that `get` reads. -/
def lastTo {α : Type} (ws : List Pend) (get : Pend → Option α) : Option α := (ws.filterMap get).getLast?

/-- What a compare or predicate instruction writes into all lanes of a predicate, in exact arithmetic (R123 to R125). -/
def predicateRule (i : Instr) (s : State) : Option (BitVec 7 × (Nat → Bool)) :=
  let n (x : BitVec 5) : Nat := (s.getS x).toNat
  let z (x : BitVec 5) : Int := (s.getS x).toInt
  let l (x : BitVec 7) (j : Nat) : Bool := (s.getP x).getLsbD j
  match i with
  | .cmpeq f => some (f.d.setWidth 7, fun _ => decide (n f.a = n f.b))
  | .cmpne f => some (f.d.setWidth 7, fun _ => decide (n f.a ≠ n f.b))
  | .cmplt f => some (f.d.setWidth 7, fun _ => decide (z f.a < z f.b))
  | .cmpltu f => some (f.d.setWidth 7, fun _ => decide (n f.a < n f.b))
  | .cmpge f => some (f.d.setWidth 7, fun _ => decide (z f.b ≤ z f.a))
  | .cmpgeu f => some (f.d.setWidth 7, fun _ => decide (n f.b ≤ n f.a))
  | .cmpeqi f => some (f.d.setWidth 7, fun _ => decide (z f.a = f.imm.toInt))
  | .cmplti f => some (f.d.setWidth 7, fun _ => decide (z f.a < f.imm.toInt))
  | .plogAnd f => some (f.pd, fun j => l f.pd j && l f.pa j)
  | .plogOr f => some (f.pd, fun j => l f.pd j || l f.pa j)
  | .plogXor f => some (f.pd, fun j => l f.pd j != l f.pa j)
  | .plogAndn f => some (f.pd, fun j => l f.pd j && !l f.pa j)
  | .plogOrn f => some (f.pd, fun j => l f.pd j || !l f.pa j)
  | .plogNot f => some (f.pd, fun j => !l f.pa j)
  | .plogMov f => some (f.pd, fun j => l f.pa j)
  | .plogClr f => some (f.pd, fun _ => false)
  | .pput f => some (f.pd, fun j => (s.getS f.a).getLsbD j)
  | _ => none

end Sys2Proof.Machine

/-- A register write (R51, R93 to R95, R125): in a scoreboard block it stands at once: of s[d] alone, s0 never changing; of the lanes of
p[d] that the mask names and the stream has, p0 never changing; or of the bits of v[d] under the mask, with the flags joined to FFLAGS.
In an exposed block no register has changed yet, and the write is the last issued of those that are to come, at its slot. -/
def Sys2Proof.Machine.ScalarWriteRule : Prop :=
  ∀ (s : State) (lat : Nat) (d : BitVec 5) (v : Word) (q : BitVec 7) (mask lanes : BitVec 64) (vmask x : VWord) (fl : BitVec 5),
    (s.exposed = false →
      (∀ n : BitVec 5, (s.putS lat d v).getS n = if n = d ∧ d ≠ 0 then v else s.getS n) ∧
      (∃ r : Vector Word 32, s.putS lat d v = s.setStr { s.str with s := r }) ∧
      (∀ n : BitVec 7, (s.putP lat q mask lanes).getP n =
        if n = q ∧ q ≠ 0 then merge s.str.p[q.toFin] lanes (mask &&& laneMask s.ctx.strm) else s.getP n) ∧
      (∃ r : Vector (BitVec 64) 128, s.putP lat q mask lanes = s.setStr { s.str with p := r }) ∧
      (∀ n : BitVec 5, (s.putV lat d vmask x fl).getV n = if n = d then merge (s.getV d) x vmask else s.getV n) ∧
      (∃ r : Vector VWord 32, s.putV lat d vmask x fl = s.setMe { s.me with v := r, fflags := s.me.fflags ||| fl })) ∧
    (s.exposed = true →
      let later (w : Pend) : State := s.setStr { s.str with pending := s.str.pending ++ [w] }
      s.putS lat d v = later ⟨s.str.slots + lat, s.clock, .s d, BitVec.allOnes 2048, v.setWidth 2048, 0, false⟩ ∧
      s.putP lat q mask lanes =
        later ⟨s.str.slots + lat, s.clock, .p q, (mask &&& laneMask s.ctx.strm).setWidth 2048, lanes.setWidth 2048, 0, false⟩ ∧
      s.putV lat d vmask x fl = later ⟨s.str.slots + lat, s.clock, .v d, vmask, x, fl, false⟩)

/-- The order in which writes that are due take effect (R95): every one of them, by its slot, and in one slot by issue. -/
def Sys2Proof.Machine.DueWritesInOrderRule : Prop :=
  ∀ l : List Pend, (inDueOrder l).Perm l ∧
    (inDueOrder l).Pairwise fun x y => x.due < y.due ∨ x.due = y.due ∧ x.issued ≤ y.issued

/-- Writes to come take effect in their slot (R95, R96, R144): the event applies those of the stream that are due, in their order: what
was last written to a register, or to a lane of a predicate or a bit of a vector register under the mask, stands; s0 and p0 never
change; the flags of all of them are joined to FFLAGS; the writes not yet due are left to come, and nothing else changes. -/
def Sys2Proof.Machine.DueWriteTakesEffectRule : Prop :=
  ∀ (s : State) (c : CoreId) (i : StreamId), s.ctx.ev.unit = c.val → s.ctx.ev.sub = i.num →
    let k := s.core c
    let t := k.strm i
    let ws := k.dueWrites i s.clock
    ∃ (r : Vector Word 32) (p : Vector (BitVec 64) 128) (m : Vector Nest 8) (v : Vector VWord 32),
      exec .writeTakesEffect s = .next (s.setCore c
        { k.setStrm i { k.laterWrites i s.clock with s := r, p := p, nests := m } with
          v := v, fflags := ws.foldl (fun f w => f ||| w.flags) k.fflags }) ∧
      (∀ n : BitVec 5, r[n.toFin] = if n = 0 then t.s[n.toFin] else
        (lastTo ws fun w => if w.dest = .s n then some (w.val.setWidth 64) else none).getD t.s[n.toFin]) ∧
      (∀ (n : BitVec 7) (b : Nat), b < 64 → p[n.toFin].getLsbD b = if n = 0 then t.p[n.toFin].getLsbD b else
        (lastTo ws fun w => if w.dest = .p n ∧ w.mask.getLsbD b = true then some (w.val.getLsbD b) else none).getD (t.p[n.toFin].getLsbD b)) ∧
      (∀ n : BitVec 3, m[n.toFin] =
        (lastTo ws fun w => if w.dest = .nest n then some (nestUnpack w.val) else none).getD t.nests[n.toFin]) ∧
      (∀ (n : BitVec 5) (b : Nat), b < 2048 → v[n.toFin].getLsbD b =
        (lastTo ws fun w => if w.dest = .v n ∧ w.mask.getLsbD b = true then some (w.val.getLsbD b) else none).getD (k.v[n.toFin].getLsbD b))

/-- A register write (R51, R93 to R95, R125): in a scoreboard block it stands at once: of s[d] alone, s0 never changing; of the lanes of
p[d] that the mask names and the stream has, p0 never changing; or of the bits of v[d] under the mask, with the flags joined to FFLAGS.
In an exposed block no register has changed yet, and the write is the last issued of those that are to come, at its slot. Writes to come
take effect in their slot (R95, R96, R144): the event applies those of the stream that are due, in their order: what was last written to
a register, or to a lane of a predicate or a bit of a vector register under the mask, stands; s0 and p0 never change; the flags of all
of them are joined to FFLAGS; the writes not yet due are left to come, and nothing else changes. The order in which writes that are due
take effect (R95): every one of them, by its slot, and in one slot by issue. -/
def Obligations.RegisterWritesTakeEffect : Prop :=
  Sys2Proof.Machine.ScalarWriteRule ∧ Sys2Proof.Machine.DueWriteTakesEffectRule ∧ Sys2Proof.Machine.DueWritesInOrderRule

/-- The scalar instructions, each under a true guard, write the value of exact arithmetic with the latency of their class, and the
stream moves on; nothing else changes (R111, R120 to R122, R126, R34). -/
def Obligations.ScalarResults : Prop :=
  ∀ (i : Instr) (s : State) (lat : Nat) (d : BitVec 5) (v : Word),
    scalarRule i s = some (lat, d, v) → (guarded i = true → s.guard = true) → exec i s = .next (s.putS lat d v).retire

/-- The compares and the predicate logic, under a true guard, write in one slot every lane of their predicate that the stream has, lane
by lane as the rule says; p0 keeps reading true (R51, R123 to R125). -/
def Sys2Proof.Machine.PredicateResultsRule : Prop :=
  ∀ (i : Instr) (s : State) (d : BitVec 7) (p : Nat → Bool), predicateRule i s = some (d, p) → s.guard = true →
    ∃ v : BitVec 64, exec i s = .next (s.putP 1 d (BitVec.allOnes 64) v).retire ∧
      (∀ j, j < 64 → (laneMask s.ctx.strm).getLsbD j = true → v.getLsbD j = p j) ∧
      (s.exposed = false → ∀ m : BitVec 7, (s.putP 1 d (BitVec.allOnes 64) v).getP m =
        if m = d ∧ d ≠ 0 then merge s.str.p[d.toFin] v (laneMask s.ctx.strm) else s.getP m)

/-- PGET, PCNT and PFIRST under a true guard (R125): the lanes as a word, how many are true, and the lowest true lane at or above
the position that s[B] gives modulo 64, or 64. -/
def Sys2Proof.Machine.PredicateReadsRule : Prop :=
  ∀ (s : State) (f : P3), s.guard = true →
    exec (.pget f) s = .next (s.putS 1 f.a (s.getP f.pd)).retire ∧
    exec (.pcnt f) s = .next (s.putS 1 f.a (s.getP f.pd).cpop).retire ∧
    ∃ n : Nat, exec (.pfirst f) s = .next (s.putS 1 f.a (BitVec.ofNat 64 n)).retire ∧
      (∀ j, (s.getS (f.b.setWidth 5)).toNat % 64 ≤ j → j < n → (s.getP f.pd).getLsbD j = false) ∧
      (n = 64 ∨ n < 64 ∧ (s.getS (f.b.setWidth 5)).toNat % 64 ≤ n ∧ (s.getP f.pd).getLsbD n = true)

/-- The compares and the predicate logic, under a true guard, write in one slot every lane of their predicate that the stream has, lane
by lane as the rule says; p0 keeps reading true (R51, R123 to R125). PGET, PCNT and PFIRST under a true guard (R125): the lanes as a
word, how many are true, and the lowest true lane at or above the position that s[B] gives modulo 64, or 64. -/
def Obligations.PredicatesComplete : Prop :=
  Sys2Proof.Machine.PredicateResultsRule ∧ Sys2Proof.Machine.PredicateReadsRule

/-! The vector instructions. -/

namespace Sys2Proof.Machine

/-- What an element-wise vector instruction writes: its types, latency, destination, whether each element takes a draw under SR, and
the value and flags of an element under a draw (R160, R161, R165 to R173). -/
structure ElementRule where
  types : Nat → Bool
  lat : Nat
  dest : BitVec 5
  draws : Bool
  val : Nat → Nat → Nat × Flags

/-- The instructions of the divide and square-root unit (R162). -/
def divides : Instr → Bool
  | .vdiv _ | .vsqrt _ | .vrsq _ | .vrec _ => true
  | _ => false

/-- The vector instructions that write each enabled element of v[D] from elements of their sources. -/
def elementRule (i : Instr) (s : State) : Option ElementRule :=
  let et := s.et
  let w := etWidth et
  let n := 2048 / w
  let v (r : BitVec 5) (e : Nat) : Nat := velem (s.getV r) w e
  let sr := (etFmt et).isSome && s.rm == .sr
  let m := s.rm
  match i with
  | .vadd f => some ⟨anyType, 2, f.d, sr, fun e r => elAdd et m r (v f.a e) (v f.b e)⟩
  | .vsub f => some ⟨anyType, 2, f.d, sr, fun e r => elSub et m r (v f.a e) (v f.b e)⟩
  | .vmul f => some ⟨anyType, 2, f.d, sr, fun e r => elMul et m r (v f.a e) (v f.b e)⟩
  | .vfma f => some ⟨anyType, 4, f.d, sr, fun e r => elFma et m r (v f.a e) (v f.b e) (v f.d e)⟩
  | .vmin f => some ⟨anyType, 2, f.d, false, fun e _ => elMin et (v f.a e) (v f.b e)⟩
  | .vmax f => some ⟨anyType, 2, f.d, false, fun e _ => elMax et (v f.a e) (v f.b e)⟩
  | .vabs f => some ⟨anyType, 2, f.d, false, fun e _ => (elAbs et (v f.a e), 0)⟩
  | .vneg f => some ⟨anyType, 2, f.d, false, fun e _ => (elNeg et (v f.a e), 0)⟩
  | .vdiv f => some ⟨floatType, 16, f.d, sr, fun e r => byType et (fun g => fDiv g m r) (fun _ _ => 0) (v f.a e) (v f.b e)⟩
  | .vsqrt f => some ⟨floatType, 16, f.d, sr, fun e r => elUn et (fun g => fSqrt g m r) (v f.a e)⟩
  | .vrsq f => some ⟨floatType, 16, f.d, sr, fun e r => elUn et (fun g => fRsq g m r) (v f.a e)⟩
  | .vrec f => some ⟨floatType, 16, f.d, sr, fun e r => elUn et (fun g => fRec g m r) (v f.a e)⟩
  | .vexp2 f => some ⟨floatType, 8, f.d, sr, fun e r => elUn et (fun g => fExp2 g m r) (v f.a e)⟩
  | .vlog2 f => some ⟨floatType, 8, f.d, sr, fun e r => elUn et (fun g => fLog2 g m r) (v f.a e)⟩
  | .vand f => some ⟨anyType, 2, f.d, false, fun e _ => (v f.a e &&& v f.b e, 0)⟩
  | .vor f => some ⟨anyType, 2, f.d, false, fun e _ => (v f.a e ||| v f.b e, 0)⟩
  | .vxor f => some ⟨anyType, 2, f.d, false, fun e _ => (v f.a e ^^^ v f.b e, 0)⟩
  | .vnot f => some ⟨anyType, 2, f.d, false, fun e _ => (2 ^ w - 1 - v f.a e, 0)⟩
  | .vshl f => some ⟨anyType, 2, f.d, false, fun e _ => (if w ≤ v f.b e then 0 else v f.a e * 2 ^ v f.b e, 0)⟩
  | .vshr f => some ⟨anyType, 2, f.d, false, fun e _ => (if w ≤ v f.b e then 0 else v f.a e / 2 ^ v f.b e, 0)⟩
  | .vsra f => some ⟨anyType, 2, f.d, false, fun e _ => (elSra w (v f.a e) (v f.b e), 0)⟩
  | .vclz f => some ⟨anyType, 2, f.d, false, fun e _ => (elClz w (v f.a e), 0)⟩
  | .vmov f => some ⟨anyType, 2, f.d, false, fun e _ => (v f.a e, 0)⟩
  | .vbcast f => some ⟨anyType, 2, f.d, false, fun _ _ => ((s.getS f.a).toNat, 0)⟩
  | .vperm f => some ⟨anyType, 2, f.d, false, fun e _ => (v f.a (v f.b e % n), 0)⟩
  | .vslide f => some ⟨anyType, 2, f.d, false, fun e _ =>
      let k : Int := e + (s.getS f.b + (f.x.extractLsb' 0 16).signExtend 64).toInt
      (if f.x.getLsbD 16 then v f.a (k % n).toNat else if 0 ≤ k ∧ k < n then v f.a k.toNat else 0, 0)⟩
  | .vlane f => some ⟨anyType, 2, f.d, false, fun e _ =>
      let x := (f.x.extractLsb' 0 16).toInt + e * (f.x.extractLsb' 16 16).toInt
      match etFmt et with
      | some g => NumTy.convert (.int true 64) (.flt g) .rne 0 (codeOf 64 x)
      | none => (codeOf w x, 0)⟩
  | .vscale f => some ⟨floatType, 2, f.d, sr, fun e r =>
      match etFmt et with
      | some g => fScale g m r (g.read (v f.a e)) (signedOf g.width (v f.b e))
      | none => (0, 0)⟩
  | .vclass f => some ⟨floatType, 2, f.d, false, fun e _ =>
      match etFmt et with
      | some g => (2 ^ classBit g (v f.a e), 0)
      | none => (0, 0)⟩
  | _ => none

/-- The generator after a number of draws (R139). -/
def drawsFrom (sr : Bool) (seed : BitVec 32) : Nat → BitVec 32
  | 0 => seed
  | n + 1 => if sr then lfsrDraw (drawsFrom sr seed n) else drawsFrom sr seed n

/-- How many enabled elements lie below one. -/
def enabledBelow (s : State) (w e : Nat) : Nat := ((List.range e).filter fun x => s.lanes.getLsbD (x * w / 32)).length

end Sys2Proof.Machine

/-- An element-wise vector instruction of a permitted type with a true lane, in a scoreboard block (R160, R161, R165 to R173, R139):
each enabled element of v[D] takes the rule's value on the register values of issue, under SR with the draw of its place in ascending
order; every other element of v[D] and every other register stays; the flags are joined to FFLAGS; the generator has made one draw
for each element that rounds; the stream moves on. An instruction of the divide and square-root unit does so when the unit is free, which
it then is again after four slots, and until then issues no further (R162).
Where the manual leaves a point open it follows the model's reading (log entry 38). -/
def Obligations.VectorElements : Prop :=
  ∀ (i : Instr) (s : State) (r : ElementRule), elementRule i s = some r → s.lanes ≠ 0 → s.et ≤ 10 → r.types s.et = true →
    s.exposed = false →
    let w := etWidth s.et
    let out (e : Nat) : Nat × Flags := r.val e (drawsFrom r.draws s.str.seed (enabledBelow s w e + 1)).toNat
    (divides i = true ∧ s.clock < s.me.divFree → exec i s = .next s) ∧ ((divides i = true → s.me.divFree ≤ s.clock) →
    ∃ (v : VWord) (fl : Flags), exec i s = .next
        (((s.setStr { s.str with seed := drawsFrom r.draws s.str.seed (enabledBelow s w (2048 / w)) }).setMe
          { (s.setStr { s.str with seed := drawsFrom r.draws s.str.seed (enabledBelow s w (2048 / w)) }).me with
            v := s.me.v.set r.dest.toFin v, fflags := fl
            divFree := if divides i then s.clock + 4 else s.me.divFree })).retire ∧
      (∀ e, e < 2048 / w → velem v w e =
        if s.lanes.getLsbD (e * w / 32) then (out e).1 % 2 ^ w else velem (s.getV r.dest) w e) ∧
      (∀ b, b < 5 → fl.getLsbD b = (s.me.fflags.getLsbD b ||
        (List.range (2048 / w)).any fun e => s.lanes.getLsbD (e * w / 32) && (out e).2.getLsbD b)))

/-- A vector instruction whose type lies outside its set raises ILL_FIELD with VTYPE, and one with no true lane has no effect
(R34, R160, R161): stated of every element-wise instruction, the compares, VINS and VDOT. -/
def Obligations.VectorTypeAndLanes : Prop :=
  ∀ (i : Instr) (s : State) (types : Nat → Bool),
    ((∃ r, elementRule i s = some r ∧ r.types = types) ∨ (∃ f, i = .vcmpeq f ∨ i = .vcmpne f ∨ i = .vcmplt f ∨ i = .vcmple f) ∧ types = anyType ∨
      (∃ f, i = .vcmpun f) ∧ types = floatType ∨ (∃ f, i = .vins f ∨ i = .vred f ∨ i = .vscan f) ∧ types = anyType ∨
      (∃ f, i = .vdot f) ∧ types = dotType) →
    (s.lanes = 0 → exec i s = .next s.retire) ∧
    (s.lanes ≠ 0 → types s.et = false →
      exec i s = .next (s.raiseOwn s.ctx.core s.ctx.strm { cause := cILLFIELD, addr := s.me.vtype.setWidth 64 }))

/-- The vector compares (R169): with an element type of their set and a true lane they write, under the lane mask, one lane of p[D]
for each 32-bit lane, the compare of the element that covers it or of all the elements in it, and join their flags to FFLAGS. -/
def Obligations.VectorCompares : Prop :=
  ∀ (s : State) (f : RRR) (k : Cmp) (i : Instr),
    (i = .vcmpeq f ∧ k = .eq ∨ i = .vcmpne f ∧ k = .ne ∨ i = .vcmplt f ∧ k = .lt ∨ i = .vcmple f ∧ k = .le ∨ i = .vcmpun f ∧ k = .un) →
    s.lanes ≠ 0 → s.et ≤ 10 → (k = .un → floatType s.et = true) →
    let w := etWidth s.et
    let truth (e : Nat) : Bool := (elCmp k s.et (velem (s.getV f.a) w e) (velem (s.getV f.b) w e)).1
    ∃ (mask val : BitVec 64) (fl : Flags),
      exec i s = .next (s.put 2 (.p (f.d.setWidth 7)) (mask.setWidth 2048) (val.setWidth 2048) fl).retire ∧
      (∀ j, j < 64 → mask.getLsbD j = s.lanes.getLsbD (if w = 64 then j / 2 * 2 else j)) ∧
      (∀ j, j < 64 → mask.getLsbD j = true → val.getLsbD j =
        if 32 ≤ w then truth (j * 32 / w) else (List.range (32 / w)).all fun x => truth (j * (32 / w) + x)) ∧
      (∀ b, b < 5 → fl.getLsbD b = (List.range (2048 / w)).any fun e => s.lanes.getLsbD (e * w / 32) &&
        (elCmp k s.et (velem (s.getV f.a) w e) (velem (s.getV f.b) w e)).2.getLsbD b)

/-- VSEL, VINS, VEXT and VCVT complete (R150, R170, R172): VSEL takes every element from v[A] where its lane selects and else from
v[B]; VINS writes the one element that it names if it is enabled; VEXT gives the element it names, extended by its type, in s[D];
VCVT writes the converted elements of its quarter. -/
def Sys2Proof.Machine.VectorMovesCompleteRule : Prop :=
  ∀ (s : State) (f : RX) (g : RRR),
    let w := etWidth s.et
    let j := (((s.getS f.b).toNat + (f.x.extractLsb' 0 16).toInt) % ((2048 / w : Nat) : Int)).toNat
    let src := NumTy.ofCode (f.xf 0 4)
    let dst := NumTy.ofCode (f.xf 4 4)
    let mode := if f.xf 8 3 = 7 then s.rm else RMode.ofCode (f.xf 8 3)
    let n := 2048 / max src.width dst.width
    exec (.vsel g) s = .next (s.putElems 2 g.d w false (List.range (2048 / w)) fun e _ =>
      (if s.lanes.getLsbD (e * w / 32) then velem (s.getV g.a) w e else velem (s.getV g.b) w e, 0)).retire ∧
    (s.lanes ≠ 0 → s.et ≤ 10 → exec (.vins f) s = .next
      (s.putElems 2 f.d w false ((laneElems s.lanes w).filter (· == j)) fun _ _ => ((s.getS f.a).toNat, 0)).retire) ∧
    (s.guard = true → exec (.vext f) s = .next (s.putS 2 f.d
      (if etSigned s.et then BitVec.ofInt 64 (signedOf w (velem (s.getV f.a) w j)) else BitVec.ofNat 64 (velem (s.getV f.a) w j))).retire) ∧
    (s.lanes ≠ 0 → exec (.vcvt f) s = .next (s.putElems 3 f.d dst.width (mode == .sr)
      (((List.range n).map (· + if dst.width < src.width then f.xf 11 4 * n else 0)).filter fun e => s.lanes.getLsbD (e * dst.width / 32))
      fun e draw => src.convert dst mode draw (velem (s.getV f.a) src.width
        (if src.width < dst.width then e + f.xf 11 4 * n else e - if dst.width < src.width then f.xf 11 4 * n else 0))).retire)

/-- VRED and VSCAN (R174 to R176) combine the elements, those that are not enabled as the identity, along their trees: VRED writes the
root into element 0, or into every element; VSCAN every element with what its prefix gives, in the exclusive form the identity and then
those of the elements below. VDOT (R177) adds to each enabled 32-bit lane the products of its elements, an integer type modulo 2^32, a
float type with one rounding under the draw of the lane's place. They interlock, and their results and flags arrive later. -/
def Sys2Proof.Machine.VectorTreesCompleteRule : Prop :=
  ∀ (s : State) (f : RX) (g : RRR), s.lanes ≠ 0 → s.et ≤ 10 →
    let w := etWidth s.et
    let op := f.xf 0 4
    let sr := op = 0 && (etFmt s.et).isSome && s.rm == .sr
    let xs := treeInputs (s.getV f.a) w s.lanes (redIdentity op s.et)
    let red := pairTree sr (redOp op s.et s.rm) (Nat.log2 (2048 / w)) xs ⟨0, s.str.seed⟩
    let scan := scanTree sr (redOp op s.et s.rm) (Nat.log2 (2048 / w)) 1 xs ⟨0, s.str.seed⟩
    let after (seed : BitVec 32) : State := s.setStr { s.str with seed := seed }
    (∃ (v mask : VWord), exec (.vred f) s = .next ((after red.2.seed).arriveV f.d mask v red.2.flags).retire ∧
      (∀ e, e < 2048 / w → (f.x.getLsbD 4 = true ∨ e = 0) → velem mask w e = 2 ^ w - 1 ∧
        velem v w e = red.1.head?.getD 0 % 2 ^ w) ∧
      (∀ e, e < 2048 / w → f.x.getLsbD 4 = false → e ≠ 0 → velem mask w e = 0)) ∧
    (∃ v : VWord, exec (.vscan f) s = .next ((after scan.2.seed).arriveV f.d (BitVec.allOnes 2048) v scan.2.flags).retire ∧
      (∀ e, e < 2048 / w → velem v w e =
        (if f.x.getLsbD 4 = false then scan.1.getD e 0 else if e = 0 then redIdentity op s.et else scan.1.getD (e - 1) 0) % 2 ^ w)) ∧
    (dotType s.et = true →
      let srd := (etFmt s.et).isSome && s.rm == .sr
      let lane (e : Nat) : Nat × Flags :=
        match etFmt s.et with
        | some h => dotFloat s.rm (drawsFrom srd s.str.seed (enabledBelow s 32 e + 1)).toNat
            ((List.range (32 / w)).map fun j => (h.read (velem (s.getV g.a) w (32 / w * e + j)), h.read (velem (s.getV g.b) w (32 / w * e + j))))
            (f32.read (velem (s.getV g.d) 32 e))
        | none => (codeOf 32 (velem (s.getV g.d) 32 e + ((List.range (32 / w)).map fun j =>
            etInt s.et (velem (s.getV g.a) w (32 / w * e + j)) * etInt s.et (velem (s.getV g.b) w (32 / w * e + j))).sum), 0)
      ∃ (mask v : VWord) (fl : Flags),
        exec (.vdot g) s = .next ((after (drawsFrom srd s.str.seed (enabledBelow s 32 64))).arriveV g.d mask v fl).retire ∧
        (∀ e, e < 64 → s.lanes.getLsbD e = false → velem mask 32 e = 0) ∧
        (∀ e, e < 64 → s.lanes.getLsbD e = true → velem mask 32 e = 2 ^ 32 - 1 ∧ velem v 32 e = (lane e).1 % 2 ^ 32) ∧
        (∀ b, b < 5 → fl.getLsbD b = (List.range 64).any fun e => s.lanes.getLsbD e && (lane e).2.getLsbD b))

/-- VSEL, VINS, VEXT and VCVT complete (R150, R170, R172): VSEL takes every element from v[A] where its lane selects and else from v[B];
VINS writes the one element that it names if it is enabled; VEXT gives the element it names, extended by its type, in s[D]; VCVT writes
the converted elements of its quarter. VRED and VSCAN (R174 to R176) combine the elements, those that are not enabled as the identity,
along their trees: VRED writes the root into element 0, or into every element; VSCAN every element with what its prefix gives, in the
exclusive form the identity and then those of the elements below. VDOT (R177) adds to each enabled 32-bit lane the products of its
elements, an integer type modulo 2^32, a float type with one rounding under the draw of the lane's place. They interlock, and their
results and flags arrive later.
Where the manual leaves a point open it follows the model's reading (log entries 58, 69). -/
def Obligations.VectorMovesAndTreesComplete : Prop :=
  Sys2Proof.Machine.VectorMovesCompleteRule ∧ Sys2Proof.Machine.VectorTreesCompleteRule

/-- VPACK and VUNPK complete under a true guard (R151 to R153): VUNPK writes the 64 FP32 values of the image at its position; VPACK of
an SE format packs its four groups, and of an MX format its two blocks, and writes the image at its position in v[D], and of an MX
format also the scales into s[B]; the draws are those of the elements in order, and the flags are joined to FFLAGS. -/
def Sys2Proof.Machine.PackedFormatsCompleteRule : Prop :=
  ∀ (s : State) (f : RX), s.guard = true →
    let fmt := f.xf 0 4
    let mode := if f.xf 4 3 = 7 then s.rm else RMode.ofCode (f.xf 4 3)
    let r := overElems 32 false (fun i _ => unpackElem fmt (s.getV f.a >>> (8 * f.xf 8 8)).toNat ((s.getS f.b).toNat % 65536) i)
      (List.range 64) ⟨0, 0, 0, 0⟩
    let put (image : Nat) (acc : PackAcc) : State := (s.setStr { s.str with seed := acc.seed }).putV 2 f.d
      (BitVec.ofNat 2048 (2 ^ (8 * Sys2Proof.Machine.packSize fmt) - 1) <<< (8 * f.xf 8 8)) (BitVec.ofNat 2048 image <<< (8 * f.xf 8 8)) acc.flags
    let lane (i : Nat) : Nat := velem (s.getV f.a) 32 i
    let block (k : Nat) (acc : PackAcc) := mxPack (mxElem fmt).1 (mxElem fmt).2 mode ((List.range 32).map fun i => lane (32 * k + i)) acc
    let b0 := block 0 ⟨0, s.str.seed⟩
    let b1 := block 1 b0.2.2
    exec (.vunpk f) s = .next (s.putV 2 f.d r.mask r.val r.flags).retire ∧
    (fmt < 3 →
      let b := seBits fmt
      let group (k : Nat) (acc : PackAcc) := sePack b mode ((List.range 16).map fun i => lane (16 * k + i)) acc
      let g0 := group 0 ⟨0, s.str.seed⟩
      let g1 := group 1 g0.2
      let g2 := group 2 g1.2
      let g3 := group 3 g2.2
      let size := 16 + 16 * (b + 1)
      exec (.vpack f) s = .next (put (g0.1 + (g1.1 + (g2.1 + g3.1 * 2 ^ size) * 2 ^ size) * 2 ^ size) g3.2).retire) ∧
    (3 ≤ fmt → exec (.vpack f) s = .next ((put
      ((b0.2.1 ++ b1.2.1).zipIdx.foldl (fun n x => n + x.1 * 2 ^ ((mxElem fmt).1.width * x.2)) 0) b1.2.2).putS 2 f.b
        (BitVec.ofNat 64 (b0.1 + b1.1 * 256))).retire)

/-- The format state (R156 to R158, R119): VSETT, VGETF, VSETF, VSEED and WLIMSET exchange VTYPE, FFLAGS, the generator and the wait
limit for a value, and give the old one. -/
def Sys2Proof.Machine.FormatStateExchangedRule : Prop :=
  decode [0x8057, 0x01C1] = .ok (⟨Head.zero, .vseed ⟨0, 7, 0⟩⟩, []) ∧ ∀ (s : State) (f : RRR) (g : RX), s.guard = true →
    exec (.vsett g) s = .next ((s.setMe { s.me with vtype := g.x.setWidth 7 }).putS 1 g.d (s.me.vtype.setWidth 64)).retire ∧
    exec (.vgetf f) s = .next ((s.setMe { s.me with fflags := s.me.fflags &&& ~~~((s.getS f.a).setWidth 5) }).putS 1 f.d
      (s.me.fflags.setWidth 64)).retire ∧
    exec (.vsetf f) s = .next ((s.setMe { s.me with fflags := (s.getS f.a).setWidth 5 }).putS 1 f.d (s.me.fflags.setWidth 64)).retire ∧
    exec (.vseed f) s = .next ((s.setStr { s.str with
      seed := if (s.getS f.a).setWidth 32 = (0 : BitVec 32) then 1 else (s.getS f.a).setWidth 32 }).putS 1 f.d (s.str.seed.setWidth 64)).retire ∧
    exec (.wlimset f) s = .next ((s.setStr { s.str with wlim := BitVec.ofNat 32 (min (s.getS f.a).toNat (2 ^ 32 - 1)) }).putS 1 f.d
      (s.str.wlim.setWidth 64)).retire

/-- VPACK and VUNPK complete under a true guard (R151 to R153): VUNPK writes the 64 FP32 values of the image at its position; VPACK of
an SE format packs its four groups, and of an MX format its two blocks, and writes the image at its position in v[D], and of an MX
format also the scales into s[B]; the draws are those of the elements in order, and the flags are joined to FFLAGS. The format state
(R156 to R158, R119): VSETT, VGETF, VSETF, VSEED and WLIMSET exchange VTYPE, FFLAGS, the generator and the wait limit for a value, and
give the old one. -/
def Obligations.FormatsComplete : Prop :=
  Sys2Proof.Machine.PackedFormatsCompleteRule ∧ Sys2Proof.Machine.FormatStateExchangedRule

/-! The temporal arrays. -/

/-- TALNCH, TACAP, TAMODE, TADLY, TARST, TAWIN, TASTAT complete under a true guard (R261, R262, R268 to R274): TALNCH starts the race of
ready planes with the quarters of v[A]; TACAP of held or running planes without an error is outstanding, with the results of the held ones; the others wait for the planes they name to
run no longer and then change them; TAWIN gives the old window; TASTAT reads the planes' states. -/
def Sys2Proof.Machine.TemporalCompleteRule : Prop :=
  ∀ (s : State) (f : RX) (g : RI) (h : RRR), s.guard = true →
    let ps := quarterPlanes f
    let named := if f.xf 4 1 = 1 then List.range 16 else [f.xf 0 4]
    let namedD := if f.xf 8 1 = 1 then List.range 16 else [f.xf 0 4]
    let namedR := if g.a = 0 then [g.imm.toNat] else (List.range 16).filter fun p => (s.getS g.a).getLsbD p
    ((∀ p ∈ ps, (s.me.planeAt p.1).state = .ready) → exec (.talnch f) s = .next (s.setMe (ps.foldl (fun k p =>
      k.setPlane p.1 { k.planeAt p.1 with
        launch := (s.getV f.a).extractLsb' (512 * p.2) 512, win := s.me.twin.toNat
        state := .running (s.clock + (s.me.twin.toNat + 11) / 4) ((k.planeAt p.1).marks != 0) }) s.me)).retire) ∧
    ((∀ p ∈ ps, (s.me.planeAt p.1).state ≠ .ready ∧ (s.me.planeAt p.1).inError = false) →
      exec (.tacap f) s = .next (s.setMe { s.me with
        tacaps := s.me.tacaps ++ [⟨f.xf 4 2, f.x.extractLsb' 0 4, f.d, f.b, f.xf 6 1 == 1, s.clock + 1,
          (ps.filter fun p => !(s.me.planeAt p.1).state.isRunning).map fun p => (p.2, (s.me.planeAt p.1).times, (s.me.planeAt p.1).winners), [],
          s.str.pc, (s.str.mac.map (fun m => m.idx)).getD 0, s.str.mac.isSome, false, s.exposed⟩] }).retire) ∧
    ((∀ n ∈ named, (s.me.planeAt n).state.isRunning = false) → exec (.tamode f) s = .next
      (s.setMe (named.foldl (fun k n => k.setPlane n { k.planeAt n with mode := s.getS f.a }) s.me)).retire) ∧
    ((∀ n ∈ namedD, (s.me.planeAt n).state.isRunning = false) → exec (.tadly f) s = .next
      (s.setMe (namedD.foldl (fun k n => k.setPlane n ((k.planeAt n).setRows (f.xf 4 4) (s.getV f.a))) s.me)).retire) ∧
    ((∀ n ∈ namedR, (s.me.planeAt n).state.isRunning = false) → exec (.tarst g) s = .next
      (s.setMe (namedR.foldl (fun k n => k.setPlane n { k.planeAt n with state := .ready }) s.me)).retire) ∧
    (1 ≤ (s.getS g.a).toNat + g.imm.toInt → (s.getS g.a).toNat + g.imm.toInt ≤ 255 → exec (.tawin g) s = .next
      ((s.setMe { s.me with twin := BitVec.ofInt 8 ((s.getS g.a).toNat + g.imm.toInt) }).putS 1 g.d (s.me.twin.setWidth 64)).retire) ∧
    exec (.tastat h) s = .next (s.putS 1 h.d s.me.tastat).retire

/-- A race ends (R261, R265): the event captures a plane that is due, its held times and winners those of the race of its launch, its
error mark kept, and one that it has by now joined to it (R266); with no TACAP outstanding nothing else changes. -/
def Sys2Proof.Machine.PlaneCapturedRule : Prop :=
  ∀ (s : State) (c : CoreId) (n due : Nat) (e : Bool), s.ctx.ev.unit = c.val → s.ctx.ev.sub = n → n < 16 →
    ((s.core c).planeAt n).state = .running due e → due ≤ s.clock → (s.core c).tacaps = [] →
    exec .planeCapture s = .next (s.setCore c ((s.core c).setPlane n { (s.core c).planeAt n with
      state := .held (e || ((s.core c).planeAt n).marks != 0), times := ((s.core c).planeAt n).race.1, winners := ((s.core c).planeAt n).race.2 }))

/-- TALNCH, TACAP, TAMODE, TADLY, TARST, TAWIN, TASTAT complete under a true guard (R261, R262, R268 to R274): TALNCH starts the race of
ready planes with the quarters of v[A]; TACAP of held or running planes without an error is outstanding, with the results of the held
ones; the others wait for the planes they name to run no longer and then change them; TAWIN gives the old window; TASTAT reads the
planes' states. A race ends (R261, R265): the event captures a plane that is due, its held times and winners those of the race of its
launch, its error mark kept, and one that it has by now joined to it (R266); with no TACAP outstanding nothing else changes. -/
def Obligations.TemporalArraysComplete : Prop :=
  Sys2Proof.Machine.TemporalCompleteRule ∧ Sys2Proof.Machine.PlaneCapturedRule

/-! Control. -/

namespace Sys2Proof.Machine

/-- Where a taken transfer goes, and the register it links (R102, R113 to R115). -/
def transferRule (i : Instr) (s : State) : Option (Word × Option (BitVec 5)) :=
  let rel (n : Int) : Word := s.str.pc + BitVec.ofInt 64 (2 * n)
  match i with
  | .br f => some (rel f.imm.toInt, none)
  | .br16 imm => some (rel imm.toInt, none)
  | .bri f => some (s.getS f.a, some f.d)
  | .call f => some (rel f.x.toInt, some 31)
  | .ret f => some (s.getS f.a, none)
  | _ => none

/-- The link address: the halfword after the body of the current block (R102). -/
def linkRule (s : State) : Word :=
  match s.str.blk with
  | some b => b.hdr + BitVec.ofNat 64 (4 + 2 * b.len)
  | none => s.str.pc

/-- What a taken transfer does to its stream (R101, R103): it leaves the block, stands at the target, its stall count's idle slots follow, and its
first word issues three slots later at the earliest. -/
def arrived (s : State) (a : Word) : State :=
  s.setStr { s.str with
    pc := a, blk := none, taken := true, mac := none, slots := s.str.slots + 1, idle := s.ctx.head.st.toNat
    readyAt := s.clock + 1, fetchAt := s.clock + 3, wait := none, draining := false, peerWait := none }

end Sys2Proof.Machine

/-- BR, BR16, BRI, CALL and RET complete (R101 to R103, R113 to R115): under a true guard (BR16 has none), with a valid header at the
target, the stream stands there and the link register holds the link address. -/
def Sys2Proof.Machine.TransfersCompleteRule : Prop :=
  ∀ (i : Instr) (s s1 : State) (a : Word) (link : Option (BitVec 5)) (h : BitVec 32), transferRule i s = some (a, link) →
    (guarded i = true → s.guard = true) → s.target s.ctx.core s.ctx.strm a = (s1, .ok h) →
    exec i s = .next (arrived (match link with | some d => s1.putS 1 d (linkRule s) | none => s1) a)

/-- A transfer's target is checked before anything else (R31): an odd address and a word there that is no header raise ILL_TARGET with
the target's address, and the stream stays where it was. -/
def Sys2Proof.Machine.TargetCheckedRule : Prop :=
  ∀ (i : Instr) (s : State) (a : Word) (link : Option (BitVec 5)), transferRule i s = some (a, link) →
    (guarded i = true → s.guard = true) →
    (a.getLsbD 0 = true →
      exec i s = .next (s.raiseOwn s.ctx.core s.ctx.strm { cause := cILLTARGET, addr := a })) ∧
    (∀ (s1 : State) (bs : List Byte), a.getLsbD 0 = false → s.fetch s.ctx.core s.ctx.strm a.toNat 4 = (s1, .ok bs) → leNat bs % 256 ≠ 1 →
      exec i s = .next (s1.raiseOwn s.ctx.core s.ctx.strm { cause := cILLTARGET, addr := a }))

/-- BR, BR16, BRI, CALL and RET complete (R101 to R103, R113 to R115): under a true guard (BR16 has none), with a valid header at the
target, the stream stands there and the link register holds the link address. A transfer's target is checked before anything else (R31):
an odd address and a word there that is no header raise ILL_TARGET with the target's address, and the stream stays where it was. -/
def Obligations.TransfersCheckedAndComplete : Prop :=
  Sys2Proof.Machine.TransfersCompleteRule ∧ Sys2Proof.Machine.TargetCheckedRule

/-- NOP, NOP16, INC, MCALL, MDEF and NEST complete (R43 to R45, R107, R108, R110, R116 to R118): NOP, whose plain word is 0x0000_0003, and NOP16 only take their slots;
an INC behind the instruction it steps takes none; MCALL runs the operations of its slot from its own issue slot on; MDEF defines a
slot from a valid image; NEST defines a descriptor from its five registers. -/
def Obligations.ControlCompletes : Prop :=
  decode [0x0003, 0x0000] = .ok (⟨Head.zero, .nop⟩, []) ∧ ∀ (s : State),
    (s.guard = true → exec .nop s = .next s.retire) ∧
    exec .nop16 s = .next s.retire ∧
    (s.str.armed = some s.str.pc →
      exec .inc s = .next (s.setStr { s.str with pc := s.str.pc + 2, armed := none }).noSlot) ∧
    (∀ (f : RI) (op : List HWord) (ops : List (List HWord)), s.guard = true →
      s.me.macros.toList[f.imm.toNat % 2 * 32 + f.d.toNat]? = some (op :: ops) →
      exec (.mcall f) s =
        .next (s.setStr { s.str with mac := some ⟨op :: ops, 0, s.ctx.head.st.toNat, s.ctx.len⟩ }).noSlot) ∧
    (∀ (f : RX) (s1 s2 : State) (hb bs : List Byte) (ops : List (List HWord)), s.guard = true → (s.getS f.a).toNat % 8 = 0 →
      s.loadG s.ctx.core s.ctx.strm false (s.getS f.a).toNat 8 = .ok s1 hb →
      1 ≤ leNat hb % 256 → leNat hb % 256 ≤ 32 → leNat hb < 65536 →
      s1.loadG s.ctx.core s.ctx.strm false ((s.getS f.a).toNat + 8) (2 * (leNat hb / 256)) = .ok s2 bs →
      parseMacro (leNat hb % 256) 0 (toHalves bs) = .ok ops →
      exec (.mdef f) s = .next (s2.setMe { s2.me with macros := s2.me.macros.setIfInBounds (f.xf 0 6) ops }).retire) ∧
    (∀ (f : RX), s.guard = true → (s.getS (f.a + 1)).toNat < 2 ^ 37 → s.exposed = false →
      exec (.nest f) s = .next (s.setStr { s.str with nests := s.str.nests.set (f.d.setWidth 3).toFin (
        nestUnpack (nestPack (s.getS f.a) (s.getS (f.a + 1)) (s.getS (f.a + 2)) (s.getS (f.a + 3)) (s.getS (f.a + 4)) f.x)) }).retire)

/-! Memory. -/

namespace Sys2Proof.Machine

/-- The loads (R301): where each goes, its address, its .pz mark, and its latency where that is fixed. -/
def loadRule (i : Instr) (s : State) : Option (M × Path × Int × Bool × Option Nat) :=
  let ea (f : M) (base : Nat) : Int :=
    base + (if f.b = 0 then 0 else ((s.getS f.b).toNat * 2 ^ f.sc.toNat : Nat)) + f.off.toInt + s.ctx.incOff
  let a (f : M) : Nat := (s.getS f.a).toNat
  match i with
  | .ldl f => some (f, .pad s.ctx.core 0, ea f (a f), false, some 6)
  | .ldc f => some (f, .pad (s.cTarget f).1 1, ea f (if f.mod.getLsbD 3 then a f % 2 ^ 48 else a f), false, some 24)
  | .ldg f => some (f, .g, ea f (a f), f.mod.getLsbD 0, none)
  | .ldk f => some (f, .k, ea f (a f), f.mod.getLsbD 0, none)
  | .ldh f => some (f, .h (f.mod.getLsbD 2), ea f (a f), false, none)
  | .ldp f => some (f, .p f.mod.toNat, ea f (a f), false, none)
  | _ => none

/-- The stores (R301): where each goes, and its address. -/
def storeRule (i : Instr) (s : State) : Option (M × Path × Int) :=
  let ea (f : M) (base : Nat) : Int :=
    base + (if f.b = 0 then 0 else ((s.getS f.b).toNat * 2 ^ f.sc.toNat : Nat)) + f.off.toInt + s.ctx.incOff
  let a (f : M) : Nat := (s.getS f.a).toNat
  match i with
  | .stl f => some (f, .pad s.ctx.core 0, ea f (a f))
  | .stc f => some (f, .pad (s.cTarget f).1 1, ea f (if f.mod.getLsbD 3 then a f % 2 ^ 48 else a f))
  | .stg f => some (f, .g, ea f (a f))
  | .sth f => some (f, .h false, ea f (a f))
  | .stp f => some (f, .p f.mod.toNat, ea f (a f))
  | _ => none

/-- The elements that a transfer moves (R276, R278, R160): those that the lanes enable in a vector shape, else the one. -/
def moved (s : State) (f : M) : List Nat :=
  if f.vec then (List.range f.count).filter fun e => s.lanes.getLsbD (e * f.eb / 4) else [0]

/-- The byte ranges of the moved elements. -/
def movedRanges (s : State) (f : M) (ea : Int) : List (Int × Nat) := (moved s f).map fun e => (ea + (e * f.eb : Nat), f.eb)

/-- Does a memory instruction have an effect (R34, R278)? -/
abbrev acts (s : State) (f : M) : Prop := if f.vec then s.lanes ≠ 0 else s.guard = true

end Sys2Proof.Machine

/-- The loads complete (R278, R301): where the address is aligned and the access answers its bytes, the scalar result is the extended
value in s[D] and the vector result the moved elements in v[D], at the latency of LDL and LDC, else at its arrival. -/
def Sys2Proof.Machine.LoadsCompleteRule : Prop :=
  ∀ (i : Instr) (s s1 : State) (f : M) (path : Path) (ea : Int) (pz : Bool) (lat : Option Nat) (bs : List Byte),
    loadRule i s = some (f, path, ea, pz, lat) → acts s f → ea % f.align = 0 → s.loadPath path pz (movedRanges s f ea) = .ok s1 bs →
    exec i s = .next (if f.vec then s1.deliverV lat f.d (placeElems f.eb (moved s f) bs).2 (placeElems f.eb (moved s f) bs).1
      else s1.deliverS lat f.d (extendLoad f.ty.toNat bs)).retire

/-- The stores complete (R278, R301): where the address is aligned and the store may be made, the bytes of the moved elements of v[S],
or the low bytes of s[S], are stored. -/
def Sys2Proof.Machine.StoresCompleteRule : Prop :=
  ∀ (i : Instr) (s s1 : State) (f : M) (path : Path) (ea : Int),
    storeRule i s = some (f, path, ea) → acts s f → ea % f.align = 0 →
    s.storePath path (movedRanges s f ea)
      (if f.vec then takeElems (s.getV f.d) f.eb (moved s f) else leBytes (s.getS f.d).toNat f.eb) = .ok s1 [] →
    exec i s = .next s1.retire

/-- The loads complete (R278, R301): where the address is aligned and the access answers its bytes, the scalar result is the extended
value in s[D] and the vector result the moved elements in v[D], at the latency of LDL and LDC, else at its arrival. The stores complete
(R278, R301): where the address is aligned and the store may be made, the bytes of the moved elements of v[S], or the low bytes of s[S],
are stored.
Where the manual leaves a point open it follows the model's reading (log entries 6, 7, 8, 9, 10). -/
def Obligations.LoadsAndStoresComplete : Prop :=
  Sys2Proof.Machine.LoadsCompleteRule ∧ Sys2Proof.Machine.StoresCompleteRule

/-- A misaligned load or store traps (R277, R279, R415): ALIGN with the effective address modulo 2^64, the access's kind and the
space's code; with a false guard, or a vector shape with no true lane, there is no effect but the slots. -/
def Obligations.MisalignedTraps : Prop :=
  ∀ (i : Instr) (s : State) (f : M) (path : Path) (ea : Int) (kind : Nat),
    ((∃ pz lat, loadRule i s = some (f, path, ea, pz, lat)) ∧ kind = 0 ∨ storeRule i s = some (f, path, ea) ∧ kind = 1) →
    (¬ acts s f → exec i s = .next s.retire) ∧
    (acts s f → ea % f.align ≠ 0 → exec i s = .next (s.raiseOwn s.ctx.core s.ctx.strm
      { cause := 0x08, addr := BitVec.ofInt 64 ea, kind := kind,
        space := match path with | .pad _ n => n | .g => 2 | .k => 3 | .h _ => 4 | .p _ => 5 }))

/-- A scalar load and store of the core's own scratchpad (R275, R277, R301), inside its split, with no change of the split under way:
LDL gives the bytes, low first, extended by its type, and STL changes exactly the bytes it stores. -/
def Sys2Proof.Machine.ScratchpadAccessRule : Prop :=
  ∀ (s : State) (f : M), f.vec = false → s.guard = true → 0 ≤ s.ea f → s.ea f % f.align = 0 →
    s.ea f + f.eb ≤ (s.me.split * 2 ^ 18 : Nat) → s.me.spcfg = none →
    (s.me.spadPoison = [] →
      exec (.ldl f) s = .next (s.putS 6 f.d (extendLoad f.ty.toNat (s.me.spad.readN (s.ea f).toNat f.eb))).retire) ∧
    (s.me.spad.wf = true → ∃ k : Core, exec (.stl f) s = .next (s.setMe k).retire ∧
      k = { s.me with spad := k.spad, spadPoison := k.spadPoison } ∧ k.spad.wf = true ∧
      k.spad.readN (s.ea f).toNat f.eb = leBytes (s.getS f.d).toNat f.eb ∧
      ∀ a, a < (s.ea f).toNat ∨ (s.ea f).toNat + f.eb ≤ a → k.spad.read a = s.me.spad.read a)

/-- What a scalar STG leaves in memory (R285 to R287, R301): the stored bytes stand at the physical address that the tables give, low
first; every byte outside them reads as before, but for the leaf entry, in which the access marks A and D; and nothing but memory,
its order and poison and the translations has changed beside the stream's own advance. -/
def Sys2Proof.Machine.GlobalStoreFrameRule : Prop :=
  ∀ (s s1 : State) (f : M) (p : Piece), f.vec = false → s.guard = true → s.ea f % f.align = 0 → s.mem.wf = true →
    s.xlateAll s.ctx.core s.ctx.strm .store [(s.ea f, f.eb)] = (s1, .ok [p]) → p.len = f.eb →
    ∃ t : State, exec (.stg f) s = .next t.retire ∧ t.mem.wf = true ∧
      t.mem.readN p.pa f.eb = leBytes (s.getS f.d).toNat f.eb ∧
      (∀ a, (a < p.pa ∨ p.pa + f.eb ≤ a) → (a < p.leaf.entry ∨ p.leaf.entry + 8 ≤ a) → t.mem.read a = s.mem.read a) ∧
      t = { s1 with mem := t.mem, poison := t.poison, unpub := t.unpub, glog := t.glog, gpos := t.gpos, tlb := t.tlb }

/-- MSTC completes (R302): under a true lane or guard, aligned, with members whose scratchpads take the range, each member stores the
same bytes; with no member it has no effect. -/
def Sys2Proof.Machine.MulticastStoreCompleteRule : Prop :=
  ∀ (s : State) (f : M), acts s f →
    let ea : Int := (s.getS f.a).toNat + f.off.toInt + s.ctx.incOff
    let core (k : Nat) : CoreId := ⟨(8 * clusterOf s.ctx.core + k) % 136, by omega⟩
    let members := (List.range 8).filter fun k => (s.getS f.b).getLsbD k
    let rs := joinRanges (movedRanges s f ea)
    (members = [] → exec (.mstc f) s = .next s.retire) ∧
    (ea % f.align = 0 → (∀ k ∈ members, (s.core (core k)).spcfg = none ∧ ∀ r ∈ rs, s.padOk s.ctx.core (core k) r.1 r.2 = true) →
      exec (.mstc f) s = .next (members.foldl (fun s k => s.setCore (core k) ((s.core (core k)).padWriteAll rs
        (s.source f (moved s f)))) s).retire)

/-- A scalar load and store of the core's own scratchpad (R275, R277, R301), inside its split, with no change of the split under way:
LDL gives the bytes, low first, extended by its type, and STL changes exactly the bytes it stores. What a scalar STG leaves in memory
(R285 to R287, R301): the stored bytes stand at the physical address that the tables give, low first; every byte outside them reads as
before, but for the leaf entry, in which the access marks A and D; and nothing but memory, its order and poison and the translations has
changed beside the stream's own advance. MSTC completes (R302): under a true lane or guard, aligned, with members whose scratchpads take
the range, each member stores the same bytes; with no member it has no effect. -/
def Obligations.StoresReachTheirBytes : Prop :=
  Sys2Proof.Machine.ScratchpadAccessRule ∧ Sys2Proof.Machine.GlobalStoreFrameRule ∧ Sys2Proof.Machine.MulticastStoreCompleteRule

/-- The loads into queues and the gather by queue complete (R291, R303, R304, R280): with room in a queue that the stream fills and an
answered load, LDGQ, LDKQ and GATHQ put an entry at its tail whose data arrives a free number of slots later, six at least (log entry 8), and LDGQ.lk locks the lines of the
load, at most 512; GATHQ pops its index from a queue of its own; and the arrival fills the entry in issue order.
Where the manual leaves a point open it follows the model's reading (log entry 8). -/
def Obligations.QueueLoadsComplete : Prop :=
  ∀ (s : State) (f : M),
    let n := f.cnt.toNat
    let filled (s1 : State) (v : VWord) : State :=
      (s1.setMe (s1.me.setQueue n { s1.me.queueAt n with entries := (s1.me.queueAt n).entries ++
        [⟨v, false, s1.clock + 6 + Config.freeDelay s1.draws % latencyBound⟩] })).drawn
    let room : Prop := s.guard = true ∧ (s.me.queueAt n).prod = some s.ctx.strm ∧
      (s.me.queueAt n).entries.length < (if n < 8 then 16 else 4)
    let value (bs : List Byte) : VWord := if f.ty = 14 then BitVec.ofNat 2048 (leNat bs) else (extendLoad f.ty.toNat bs).setWidth 2048
    (∀ s1 bs, room → s.ea f % f.align = 0 → s.loadG s.ctx.core s.ctx.strm (f.mod.getLsbD 0) (s.ea f) f.qbytes = .ok s1 bs →
      f.mod.getLsbD 1 = false → exec (.ldgq f) s = .next (filled s1 (value bs)).retire) ∧
    (∀ s1 bs, room → s.ea f % f.align = 0 → s.loadG s.ctx.core s.ctx.strm (f.mod.getLsbD 0) (s.ea f) f.qbytes = .ok s1 bs →
      f.mod.getLsbD 1 = true →
      ((s.me.locked.map (fun l => l.line)) ++ (s.physLines (s.ea f) f.qbytes).map (fun l => l.1)).eraseDups.length ≤ 512 →
      exec (.ldgq f) s = .next (filled (s1.setMe { s1.me with
        locked := s1.me.locked ++ (s.physLines (s.ea f) f.qbytes).map fun l => ⟨l.1, n, (s1.me.queueAt n).entries.length, l.2⟩ }) (value bs)).retire) ∧
    (∀ s1 bs, room → s.ea f % f.align = 0 →
      s.loadK s.ctx.core s.ctx.strm (f.mod.getLsbD 0)
        (if f.ty = 14 then (List.range 64).map fun e => (s.ea f + (4 * e : Nat), 4) else [(s.ea f, f.qbytes)]) = .ok s1 bs →
      exec (.ldkq f) s = .next (filled s1 (value bs)).retire) ∧
    (∀ s1 bs e rest, room → f.b.toNat ≠ n → s.str.wait = none → (s.me.queueAt f.b.toNat).cons = some s.ctx.strm → f.b.toNat < 8 → n < 12 →
      (s.me.queueAt f.b.toNat).entries = e :: rest → e.arrived = true →
      let popped := (s.setMe ((s.me.setQueue f.b.toNat { s.me.queueAt f.b.toNat with entries := rest }).popLocks f.b.toNat))
      let ea : Int := (s.getS f.a).toNat + ((e.val.setWidth 64).toNat * 2 ^ f.sc.toNat : Nat) + f.off.toInt + s.ctx.incOff
      ea % f.align = 0 →
      (popped.setStr { popped.str with wait := none }).loadG s.ctx.core s.ctx.strm (f.mod.getLsbD 0) ea f.qbytes = .ok s1 bs →
      exec (.gathq f) s = .next (filled s1 (value bs)).retire) ∧
    (∀ (c : CoreId) (q : Nat) (old : List QEntry) (e : QEntry) (rest : List QEntry), s.ctx.ev.unit = c.val → s.ctx.ev.sub = q →
      ((s.core c).queueAt q).entries = old ++ e :: rest → (∀ x ∈ old, x.arrived = true) → e.arrived = false → e.due ≤ s.clock →
      exec .queueLoadArrival s = .next (s.setCore c ((s.core c).setQueue q { (s.core c).queueAt q with
        entries := old ++ { e with arrived := true } :: rest })))

/-- VGATH and VSCAT complete (R279, R305): with every enabled element aligned and permitted, VGATH writes the elements read into v[D]
and VSCAT stores those of v[S] in ascending order; with no true lane neither has an effect. -/
def Obligations.GatherScatterComplete : Prop :=
  ∀ (s : State) (f : M),
    let elems := ((List.range (min 64 (256 / f.eb))).filter fun e => s.lanes.getLsbD e).map fun e =>
      (e, (s.getS f.a).toNat + ((s.getV f.b).extractLsb' (32 * e) 32).toInt * 2 ^ f.sc.toNat + f.off.toInt + s.ctx.incOff)
    (s.lanes = 0 → exec (.vgath f) s = .next s.retire ∧ exec (.vscat f) s = .next s.retire) ∧
    (∀ s1 s2 s3 ps bs, s.lanes ≠ 0 → State.checkElems .load f.eb elems s = (s1, .ok ps) →
      State.readSeen s.me.jobid ps (s1.mark s.walker .load ps) = (s2, bs) →
      s2.consume s.ctx.core s.ctx.strm (f.mod.getLsbD 0) 2 s.str.pc ((s1.mark s.walker .load ps).badLines ps) = (s3, none) →
      exec (.vgath f) s =
        .next (s3.deliverV none f.d (placeElems f.eb (elems.map (·.1)) bs).2 (placeElems f.eb (elems.map (·.1)) bs).1).retire) ∧
    (∀ s1 ps, s.lanes ≠ 0 → State.checkElems .store f.eb elems s = (s1, .ok ps) →
      exec (.vscat f) s = .next (State.writePieces s.me.jobid (s1.mark s.walker .store ps) ps
        (takeElems (s.getV f.d) f.eb (elems.map (·.1)))).retire)

/-- The maintenance instructions complete (R292, R306, R307, R308, R299): PFG has no effect but a translation; over a range that is translated, CINV moves
the core's K horizon in the range to now, CFLSH leaves memory as it is, CLKR unlocks the locked lines in it; an empty range has
no effect for any of the five; HFLSH sends the stream's buffered stores to its range, or all of them; HINV discards copies; SPCFG changes the split, granules that change their role reading zero, and gives the old one.
Where the manual leaves a point open it follows the model's reading (log entry 50). -/
def Obligations.MaintenanceCompletes : Prop :=
  ∀ (s : State) (f : M), s.guard = true →
    let ea : Int := (s.getS f.a).toNat + f.off.toInt + s.ctx.incOff
    exec (.pfg f) s = .next (s.xlate s.walker s.me.asid.toNat (userOf s.ctx.core) .load (s.ea f) 1).1.retire ∧
    (f.all = true →
      exec (.cinv f) s = .next (s.setMe { s.me with khor := (0, 2 ^ 48, s.gpos) :: s.me.khor }).retire ∧
      exec (.cflsh f) s = .next s.retire ∧
      exec (.clkr f) s = .next (s.setMe { s.me with locked := [] }).retire ∧
      exec (.hinv f) s = .next (s.setMe { s.me with
        hostCopies := s.me.hostCopies.filter fun x => !(decide ((0 : Int) ≤ x.1) && decide ((x.1 : Int) < 2 ^ 48)) }).retire ∧
      ((∀ x ∈ (s.flushHost s.ctx.core s.ctx.strm 0 (2 ^ 48)).str.faults, x.cause ≠ cHOSTERR) →
        exec (.hflsh f) s = .next (s.flushHost s.ctx.core s.ctx.strm 0 (2 ^ 48)).retire)) ∧
    (∀ s1 ps, f.all = false → (s.getS f.b).toNat ≠ 0 →
      s.xlate s.walker s.me.asid.toNat (userOf s.ctx.core) .load ea (s.getS f.b).toNat = (s1, .ok ps) →
      let m := s1.mark s.walker .load ps
      exec (.cinv f) s = .next (m.setMe { m.me with khor :=
        (ps.map fun p => (p.pa / 64 * 64, (p.pa + p.len + 63) / 64 * 64 - p.pa / 64 * 64, m.gpos)) ++ m.me.khor }).retire ∧
      exec (.cflsh f) s = .next m.retire ∧
      exec (.clkr f) s = .next (m.setMe { m.me with
        locked := m.me.locked.filter fun x => !(ps.any fun p => p.pa / 64 * 64 ≤ x.line && x.line < p.pa + p.len) }).retire) ∧
    (f.all = false → (s.getS f.b).toNat = 0 →
      exec (.cinv f) s = .next s.retire ∧ exec (.cflsh f) s = .next s.retire ∧ exec (.clkr f) s = .next s.retire ∧
      exec (.hflsh f) s = .next s.retire ∧ exec (.hinv f) s = .next s.retire) ∧
    (f.all = false → (s.getS f.b).toNat ≠ 0 → 0 ≤ ea → ea + (s.getS f.b).toNat ≤ 2 ^ 48 →
      let lo := ea / 64 * 64
      let hi := (ea + (s.getS f.b).toNat + 63) / 64 * 64
      exec (.hinv f) s = .next (s.setMe { s.me with
        hostCopies := s.me.hostCopies.filter fun x => !(decide (lo ≤ x.1) && decide ((x.1 : Int) < hi)) }).retire ∧
      ((∀ x ∈ (s.flushHost s.ctx.core s.ctx.strm lo hi).str.faults, x.cause ≠ cHOSTERR) →
        exec (.hflsh f) s = .next (s.flushHost s.ctx.core s.ctx.strm lo hi).retire)) ∧
    ((s.getS f.a).toNat ≤ 6 → s.me.frame ≤ (s.getS f.a).toNat * 2 ^ 18 →
      s.me.padCopies (min (s.getS f.a).toNat s.me.split * 2 ^ 18) (max (s.getS f.a).toNat s.me.split * 2 ^ 18) = false →
      s.padSends s.ctx.core (min (s.getS f.a).toNat s.me.split * 2 ^ 18) (max (s.getS f.a).toNat s.me.split * 2 ^ 18) = false →
      s.l1Locked s.ctx.core = false →
      ∃ k : Core, exec (.spcfg f) s = .next ((s.setMe k).arriveS f.d (BitVec.ofNat 64 s.me.split)).retire ∧
        k = { s.me with split := (s.getS f.a).toNat, spcfg := none, spad := k.spad, spadPoison := k.spadPoison } ∧
        ∀ a, k.spad.read a = if min (s.getS f.a).toNat s.me.split * 2 ^ 18 ≤ a ∧ a < 6 * 2 ^ 18 then 0 else s.me.spad.read a)

/-! Atomics. -/

namespace Sys2Proof.Machine

/-- The scalar atomics (R320): space, fields, and the new value from the element's width, old value, operand and expected value; none
where nothing is written. -/
def atomRule (i : Instr) : Option (BitVec 2 × M × (Nat → Nat → Nat → Nat → Option Nat)) :=
  let less (ty w a b : Nat) : Bool := if ty = 4 then decide (a < b) else decide (signedOf w a < signedOf w b)
  let sum (ty old v : Nat) : Nat :=
    let g := if ty = 10 then f64 else f32
    (fAdd g .rne 0 (g.read old) (g.read v)).1
  match i with
  | .aadd sp f => some (sp, f, fun w old v _ => some ((old + v) % 2 ^ w))
  | .afadd sp f => some (sp, f, fun _ old v _ => some (sum f.ty.toNat old v))
  | .amin sp f => some (sp, f, fun w old v _ => some (if less f.ty.toNat w v old then v else old))
  | .amax sp f => some (sp, f, fun w old v _ => some (if less f.ty.toNat w old v then v else old))
  | .aand sp f => some (sp, f, fun _ old v _ => some (old &&& v))
  | .aor sp f => some (sp, f, fun _ old v _ => some (old ||| v))
  | .axor sp f => some (sp, f, fun _ old v _ => some (old ^^^ v))
  | .axchg sp f => some (sp, f, fun _ _ v _ => some v)
  | .acas sp f => some (sp, f, fun _ old v e => if old = e then some v else none)
  | _ => none

end Sys2Proof.Machine

/-- The scalar atomics complete (R320, R321): where the element can be accessed, it takes the operation's value and s[D] the old one,
extended by the type. -/
def Sys2Proof.Machine.AtomicsCompleteRule : Prop :=
  ∀ (i : Instr) (s s1 : State) (sp : BitVec 2) (f : M) (op : Nat → Nat → Nat → Nat → Option Nat) (old : List Byte),
    atomRule i = some (sp, f, op) → s.guard = true →
    let w := 8 * elemBytes f.ty.toNat
    let ea : Int := (if sp = 1 then (s.cTarget f).2 else (s.getS f.a).toNat) + f.off.toInt + s.ctx.incOff
    s.atoms sp f [⟨ea, fun old => op w old ((s.getS f.b).toNat % 2 ^ w) ((s.getS f.d).toNat % 2 ^ w)⟩] = .ok s1 old →
    exec i s = .next (s1.arriveS f.d (extendLoad f.ty.toNat old)).retire

/-- Atomics on elements of a scratchpad (R275, R279, R321, R322): for one element ALIGN comes before SP_RANGE; when every element has
passed its checks, each in its turn has its old bytes answered and the new value, if there is one, put in their place, low first; a
later element that fails its checks leaves all of them undone. -/
def Sys2Proof.Machine.AtomicElementRule : Prop :=
  ∀ (s : State) (f : M) (x : AtomElem),
    let t := (s.cTarget f).1
    let n := elemBytes f.ty.toNat
    let done (s : State) (x : AtomElem) : State :=
      match x.upd (leNat ((s.core t).spad.readN x.ea.toNat n)) with
      | none => s
      | some v => s.setCore t { s.core t with spad := (s.core t).spad.writeN x.ea.toNat (leBytes v n) }
    (s.core t).spcfg = none →
    (x.ea % n ≠ 0 → s.atoms 1 f [x] = .trap s { cause := 0x08, addr := BitVec.ofInt 64 x.ea, kind := 2, space := 1 }) ∧
    (x.ea % n = 0 → s.padOk s.ctx.core t x.ea n = false →
      s.atoms 1 f [x] = .trap s { cause := 0x12, addr := BitVec.ofInt 64 x.ea, kind := 2, space := 1 }) ∧
    ((s.core t).spadPoison = [] → ∀ xs : List AtomElem,
      (∀ y ∈ xs, y.ea % n = 0 ∧ s.padOk s.ctx.core t y.ea n = true) →
      (∃ old : List Byte, s.atoms 1 f xs = .ok (xs.foldl done s) old ∧
        ∀ y, xs = [y] → old = (s.core t).spad.readN y.ea.toNat n) ∧
      (x.ea % n = 0 → s.padOk s.ctx.core t x.ea n = false →
        s.atoms 1 f (xs ++ [x]) = .trap s { cause := 0x12, addr := BitVec.ofInt 64 x.ea, kind := 2, space := 1 }))

/-- ARED completes (R320, R322): the scalar form adds the low bits of s[S] to its element, the vector form the enabled elements of v[S]
in ascending order, once every element has passed its checks; no register is written. -/
def Sys2Proof.Machine.ReductionToMemoryCompleteRule : Prop :=
  ∀ (s : State) (sp : BitVec 2) (f : M),
    let ea : Int := (if sp = 1 then (s.cTarget f).2 else (s.getS f.a).toNat) + f.off.toInt + s.ctx.incOff
    let red (w old v : Nat) : Nat :=
      let g := if f.ty = 10 then f64 else f32
      if f.ty = 9 ∨ f.ty = 10 then (fAdd g .rne 0 (g.read old) (g.read v)).1 else (old + v) % 2 ^ w
    (∀ s1 old, f.cnt = 0 → s.guard = true →
      s.atoms sp f [⟨ea, fun old => some (red (8 * elemBytes f.ty.toNat) old
        ((s.getS f.d).toNat % 2 ^ (8 * elemBytes f.ty.toNat)))⟩] = .ok s1 old →
      exec (.ared sp f) s = .next s1.retire) ∧
    (∀ s1 old, f.cnt ≠ 0 → (if f.vec then s.lanes ≠ 0 else s.guard = true) →
      s.atoms sp f ((enabledElems s.lanes f.eb f.count).map fun e =>
        ⟨ea + (e * f.eb : Nat), fun old => some (red (8 * f.eb) old (velem (s.getV f.d) (8 * f.eb) e))⟩) = .ok s1 old →
      exec (.ared sp f) s = .next s1.retire)

/-- The scalar atomics complete (R320, R321): where the element can be accessed, it takes the operation's value and s[D] the old one,
extended by the type. Atomics on elements of a scratchpad (R275, R279, R321, R322): for one element ALIGN comes before SP_RANGE; when
every element has passed its checks, each in its turn has its old bytes answered and the new value, if there is one, put in their place,
low first; a later element that fails its checks leaves all of them undone. ARED completes (R320, R322): the scalar form adds the low
bits of s[S] to its element, the vector form the enabled elements of v[S] in ascending order, once every element has passed its checks;
no register is written. -/
def Obligations.AtomicsAndReductionsComplete : Prop :=
  Sys2Proof.Machine.AtomicsCompleteRule ∧ Sys2Proof.Machine.AtomicElementRule ∧ Sys2Proof.Machine.ReductionToMemoryCompleteRule

/-! Fences. -/

/-- The fences and KSYNC complete (R323 to R326): where the stream's engines have performed their accesses, a fence delivers from cluster
scope on the stream's host stores, so that none is buffered any more, and has no further effect; at system scope it needs an XS's sends
and the stream's P stores acknowledged, and a P store that cannot be any more raises LINK_TIMEOUT; EFENCE, on an AS once its copies
have been performed, then raises the oldest pending error of the stream, if there is one; KSYNC moves the stream's K horizon to its own
place in the order of stores.
Where the manual leaves a point open it follows the model's reading (log entry 23). -/
def Obligations.FencesComplete : Prop :=
  ∀ (s : State), s.guard = true →
    (s.me.enginesFenced s.ctx.strm = true →
      (∀ x ∈ ((s.drainStream s.ctx.core s.ctx.strm).me).hostBuf, x.strm ≠ s.ctx.strm) ∧
      exec .fenceStream s = .next s.retire ∧
      exec .fenceJob s = .next s.retire ∧
      exec .fenceCluster s = .next (s.drainStream s.ctx.core s.ctx.strm).retire ∧
      exec .fenceDevice s = .next (s.drainStream s.ctx.core s.ctx.strm).retire ∧
      ((s.ctx.strm = .xs → s.sendsDone s.ctx.core = true) →
        let t := s.str.ackStores s.clock
        let d := (s.setStr t).drainStream s.ctx.core s.ctx.strm
        (t.peerStores = [] →
          exec .fenceSystem s = .next d.retire ∧
          ((d.ctx.strm = .as → d.me.copyQ = [] ∧ d.me.copies = []) →
            (d.str.faults = [] → exec .efence s = .next d.retire) ∧
            (d.str.faults ≠ [] → ∃ y ∈ d.str.faults, (∀ z ∈ d.str.faults, y.ord ≤ z.ord) ∧
              exec .efence s =
                .next ((d.setStr { d.str with faults := dropFault y d.str.faults }).raiseOwn d.ctx.core d.ctx.strm y.spec)))) ∧
        (∀ x r, t.peerStores = x :: r → x.failed = true → x.fault.cause = cLINKTIMEOUT →
          let a := s.setStr { t with peerStores := r }
          exec .fenceSystem s = .next (a.raiseOwn a.ctx.core a.ctx.strm x.spec) ∧
          exec .efence s = .next (a.raiseOwn a.ctx.core a.ctx.strm x.spec) ∧ x.spec.cause = cLINKTIMEOUT))) ∧
    exec .ksync s = .next (s.setStr { s.str with horizon := s.gpos, kseen := [] }).retire

/-! Engine commands. -/

namespace Sys2Proof.Machine

/-- The engine commands (R42, R183, R233, R328, R375, R404): the queue, the operand fields, and the words that a command reads beside
s[A], s[B] and s[D] (the mask words, the tag set, the scale address, the residuals). -/
def commandRule (i : Instr) (s : State) : Option (Eng × E × List Word) :=
  let r (n : Nat) : Word := s.getS (BitVec.ofNat 5 n)
  let mask (m z : Nat) : List Word := (if m = 0 then [BitVec.allOnes 64, BitVec.allOnes 64] else [r m, r (m + 1)]) ++ [r z]
  match i with
  | .tld f => some (.tile, f, [((s.getS f.b).extractLsb' 32 8).setWidth 64, s.getS (f.a + 1)])
  | .tst f => some (.tile, f, mask (f.of 9 5) 0)
  | .tzero f => some (.tile, f, mask (f.of 0 5) 0)
  | .tmma f => some (.tile, f, mask (f.of 0 5) 0)
  | .tmmas f => some (.tile, f, mask (f.of 0 5) (f.of 5 5))
  | .tmov f | .ttrn f | .tcvt f | .tfmt f => some (.tile, f, [])
  | .tstart | .tcksOff | .tcksOn => some (.tile, ⟨0, 0, 0, 0⟩, [])
  | .wlease | .wrls | .wdrain | .wdrainDiscard => some (.arr, ⟨0, 0, 0, 0⟩, [])
  | .wbankSel f | .wbankClaim f | .wbankRel f | .wregnDef f | .wregnRem f | .wldw f | .wstw f | .wadmit f | .wopt f | .wcks f
  | .wsave f | .wrest f => some (.arr, f, [])
  | .wcoll f => some (.out, f, [if s.exposed then 1 else 0])
  | .wver f => some (if f.of 5 2 = 0 then .rng else .ver, f, [if s.exposed then 1 else 0])
  | .xcopy f | .xfill f | .xpub f => some (.copy, f, [])
  | .xtree f | .xred f | .xbcast f => some (.coll, f, [])
  | .lsend f => some (.link, f, [s.getS (f.d + 1)])
  | .larm f | .larmDis f | .lrecv f => some (.link, f, [])
  | _ => none

/-- How many commands a queue holds; the WS's outstanding instructions have no bound. -/
def queueRule (e : Eng) : Option Nat :=
  match e with
  | .tile => some 32
  | .arr | .link | .copy => some 16
  | .coll => some 8
  | .out | .rng | .ver => none

/-- The head command of an engine runs: the event of its slot names it, its job is on the core, the checker has produced the same command,
it is neither frozen nor trapped, and its wait field, if it has one, has taken its unit. -/
abbrev HeadRuns (s : State) (c : CoreId) (e : Eng) (x : Cmd) : Prop :=
  s.ctx.ev.flag = true ∧ s.ctx.ev.unit = c.val ∧ s.ctx.ev.val = x.ord ∧ (s.core c).headCmd e = some x ∧ (s.core c).active = true ∧
  x.checked = true ∧ x.trapped = false ∧ (s.core c).freeze = 0 ∧ (x.code.head.we = false ∨ x.unit = true ∨ x.failing = true)

/-- The head command has completed (R42): it leaves its queue, and its signal field raises its semaphore. -/
def completed (s : State) (c : CoreId) (e : Eng) (x : Cmd) : State :=
  let k := (s.core c).setCmds e ((s.core c).cmds e).tail
  s.setCore c (if x.code.head.se then k.signal x.code.head.ssem.toNat 1 else k)

end Sys2Proof.Machine

/-- The issue of an engine command (R42, R92, R183): under a true guard it goes with the operands that it reads to the tail of its
queue, where the commands of
every stream's engine stand until the checker has compared them (log entry 54), and the stream goes on; while the queue is full the stream stalls; nothing else of the package changes. -/
def Sys2Proof.Machine.CommandsEnqueueRule : Prop :=
  ∀ (i : Instr) (s : State) (e : Eng) (f : E) (more : List Word), commandRule i s = some (e, f, more) → AsIssued s → s.guard = true →
    ((∀ n, queueRule e = some n → (s.me.cmds e).length < n) →
      exec i s = .next (State.retire { s.setMe (s.me.setCmds e (s.me.cmds e ++ [
        { code := ⟨s.ctx.head, i⟩, pc := s.str.pc, midx := (s.str.mac.map (fun m => m.idx)).getD 0, inmac := s.str.mac.isSome
          sa := s.getS f.a, sb := s.getS f.b, sd := s.getS f.d, more := more, slot := s.clock, checked := (queueRule e).isNone, unit := false, wait := none, stage := 0
          trapped := false, failing := false, ord := s.seq, timer := 0, limit := 0, acc := [], next := 0 }])) with
        seq := s.seq + 1 })) ∧
    (∀ n, queueRule e = some n → n ≤ (s.me.cmds e).length → exec i s = .next s)

/-- The wait field of a head command (R42): with its semaphore at 0 the command waits at the head and nothing else happens to its core
but the registration; with a unit there it takes the unit, and in the same event runs as one that holds it. -/
def Sys2Proof.Machine.WaitFieldHoldsRule : Prop :=
  ∀ (i : Instr) (s : State) (e : Eng) (f : E) (more : List Word) (c : CoreId) (x : Cmd), commandRule i s = some (e, f, more) → e ≠ .coll →
    s.ctx.ev.flag = true → s.ctx.ev.unit = c.val → s.ctx.ev.val = x.ord → (s.core c).headCmd e = some x → (s.core c).active = true →
    x.checked = true → x.trapped = false → (s.core c).freeze = 0 → x.code.head.we = true → x.unit = false → x.failing = false →
    let n := x.code.head.wsem.toNat
    let u := (s.core c).sem n
    (u = 0 → exec i s = .next (s.cmdBlock s c e .sem n 0 0 true)) ∧
    (u ≠ 0 → exec i s = exec i (s.setCore c
      (((s.core c).setSem n (u - 1)).setCmds e ({ x with unit := true, wait := none } :: ((s.core c).cmds e).tail))))

/-- The issue of an engine command (R42, R92, R183): under a true guard it goes with the operands that it reads to the tail of its
queue, where the commands of every stream's engine stand until the checker has compared them (log entry 54), and the stream goes on;
while the queue is full the stream stalls; nothing else of the package changes. The wait field of a head command (R42): with its
semaphore at 0 the command waits at the head and nothing else happens to its core but the registration; with a unit there it takes the
unit, and in the same event runs as one that holds it.
Where the manual leaves a point open it follows the model's reading (log entry 54). -/
def Obligations.CommandsWaitAndEnqueue : Prop :=
  Sys2Proof.Machine.CommandsEnqueueRule ∧ Sys2Proof.Machine.WaitFieldHoldsRule

/-! The copy engine. -/

/-- The publish pairs and the copy engine complete (R316, R327 to R331): XSHD allocates the lowest free number, or answers all ones when
none is free, and sets the selector word to 0; it frees a pair that no command uses; XCOPY and XFILL are accepted with the shadow that the
selector does not name; XPUB, once the pair's copies are over, adds 1 to the selector; an accepted copy that ends has written its words.
Where the manual leaves a point open it follows the model's reading (log entries 11, 42). -/
def Obligations.CopyEngineCompletes : Prop :=
  ∀ (s : State) (f : E),
    let asid := s.me.asid
    let r (k : Nat) : Nat := (s.getS (f.a + BitVec.ofNat 5 k)).toNat
    (∀ s1 ps, s.guard = true → r 0 % 64 = 0 → r 1 % 64 = 0 → r 2 % 64 = 0 → r 3 % 8 = 0 →
      s.xlateAll s.ctx.core s.ctx.strm .atomic [((r 0 : Nat), r 2), ((r 1 : Nat), r 2), ((r 3 : Nat), 8)] = (s1, .ok ps) →
      ((∀ n < 1024, s1.pair asid n ≠ none) → exec (.xshdAlloc f) s = .next (s1.arriveS f.d (BitVec.allOnes 64)).retire) ∧
      (∀ n < 1024, s1.pair asid n = none → (∀ m < n, s1.pair asid m ≠ none) →
        let sel := ps.drop (ps.length - 1)
        exec (.xshdAlloc f) s = .next ((State.writePieces s.me.jobid
          (State.mark { s1 with pairs := ⟨asid, n, r 0, r 1, r 2, r 3, none⟩ :: s1.pairs } s.walker .store sel) sel
          (List.replicate 8 0)).arriveS f.d (BitVec.ofNat 64 n)).retire)) ∧
    (∀ p, s.guard = true → s.pair asid (s.getS f.a).toNat = some p → s.pairBusy asid (s.getS f.a).toNat = false →
      exec (.xshdFree f) s =
        .next (State.retire { s with pairs := s.pairs.filter fun q => !(q.asid == asid && q.n == (s.getS f.a).toNat) })) ∧
    (∀ (c : CoreId) (x : Cmd) (p : Pair) (s1 s2 s3 : State) (sel src dst : List Piece) (v : Word) (i : Instr) (fill : Option Word) (pad : Bool),
      HeadRuns s c .copy x → (i = .xcopy f ∧ fill = none ∧ pad = (f.of 10 1 == 1) ∨ i = .xfill f ∧ fill = some x.sa ∧ pad = false) →
      let b := s.asCmd c .copy x
      let n := x.sb.toNat
      let off := x.sd.toNat
      b.pair (s.core c).asid (f.of 0 10) = some p → off % 8 = 0 → n % 8 = 0 → (fill = none → x.sa.toNat % 8 = 0) → off + n ≤ p.len →
      (pad = true → (s.core c).padHeld [((x.sa.toNat : Nat), n)] = false ∧ b.padOk c c x.sa.toNat n = true) →
      (if fill.isSome || pad then (b, (.ok [] : Except (Nat × Nat) (List Piece)))
        else b.xlate (.strm c .as) (s.core c).asid.toNat (userOf c) .load x.sa.toNat n) = (s1, .ok src) →
      s1.selector p .load = (s2, .ok (sel, v)) →
      s2.xlate (.strm c .as) (s.core c).asid.toNat (userOf c) .store (((if v.getLsbD 0 then p.b0 else p.b1) + off : Nat)) n = (s3, .ok dst) →
      let m := (s3.mark (.strm c .as) .load (sel ++ src)).mark (.strm c .as) .store dst
      let y : Copy := {
          pair := p.n, fill := fill, pad := pad, va := x.sa.toNat, src := src.map (fun q => (q.pa, q.len)), dst := dst.map (fun q => (q.pa, q.len))
          left := List.range (n / 8), bad := [], whole := off == 0 && n == p.len
          sem := if x.code.head.se then some x.code.head.ssem else none, pc := x.pc, slot := x.slot, ord := x.ord, since := s.clock }
      exec i s = .next ((if n = 0 then m.endCopy c y else m.setMe { m.me with copies := m.me.copies ++ [y] }).popCmd c .copy)) ∧
    (∀ (c : CoreId) (x : Cmd) (p : Pair) (s1 : State) (ps : List Piece) (v : Word), HeadRuns s c .copy x →
      (∀ y ∈ (s.core c).copies, y.pair ≠ f.of 0 10) → s.pair (s.core c).asid (f.of 0 10) = some p → p.poisoned = none →
      (s.asCmd c .copy x).selector p .atomic = (s1, .ok (ps, v)) →
      exec (.xpub f) s = .next (completed (State.writePieces (s.core c).jobid
        ((s1.mark (.strm c .as) .atomic ps).publish (s.core c).asid (f.of 0 10) (s.core c).jobid) ps (leBytes (v + 1).toNat 8)) c .copy x)) ∧
    (∀ (c : CoreId) (x : Copy), s.ctx.ev.unit = c.val → (s.core c).copies.find? (fun y => y.ord == s.ctx.ev.val) = some x →
      exec .copyCompletion s =
        .next ((State.copyWords c x.left s x).1.endCopy c (State.copyWords c x.left s x).2))

/-! Synchronisation. -/

/-- The semaphore instructions complete (R332, R333, R358, R359), with no waiter on the semaphore: SEMW takes a unit, SEMS adds without
passing 2^32 - 1, SEMI sets, both behind the link commands that an XS has queued (log entry 46), SEMRD only reads; each gives the old value; and a SEMW that an event has served gives the value that it was
served with. -/
def Sys2Proof.Machine.SemaphoresCompleteRule : Prop :=
  ∀ (s : State) (f : RX), s.guard = true →
    let n := f.xf 0 8
    let old := (s.me.sems.toList[n]?.getD 0).toNat
    let v := (s.getS f.b).toNat % 2 ^ 32
    let put (v : Nat) : State := s.setMe { s.me with sems := s.me.sems.setIfInBounds n (BitVec.ofNat 32 v) }
    (s.standing .sem = none → old ≠ 0 →
      exec (.semw f) s = .next ((put (old - 1)).arriveS f.d (BitVec.ofNat 64 old)).retire) ∧
    (∀ w u, s.standing .sem = some w → w.grant = some u → exec (.semw f) s = .next (s.arriveS f.d u).retire) ∧
    (s.me.semWaiters n = [] → (s.ctx.strm = .xs → s.me.linkQ = []) →
      exec (.sems f) s = .next ((put (min (old + if f.b = 0 then 1 else v) 0xFFFFFFFF)).arriveS f.d (BitVec.ofNat 64 old)).retire ∧
      exec (.semi f) s = .next ((put (if f.b = 0 then 0 else v)).arriveS f.d (BitVec.ofNat 64 old)).retire) ∧
    exec (.semrd f) s = .next (s.arriveS f.d (BitVec.ofNat 64 old)).retire

/-- A raised semaphore serves its waiters (R333): with one waiting stream and a unit, the event that raises it also takes the unit and
grants the wait. -/
def Sys2Proof.Machine.SemaphoreServesRule : Prop :=
  ∀ (k : Core) (n amount q : Nat) (i : StreamId), n < 256 → 0 < amount → amount < 2 ^ 32 → k.sem n = 0 →
    k.semWaiters n = [(q, .strm i)] →
    ∃ w : Wait, (k.strm i).wait = some w ∧ (k.signal n amount).sem n = amount - 1 ∧
      ((k.signal n amount).strm i).wait = some { w with grant := some (BitVec.ofNat 64 amount) }

/-- The semaphore instructions complete (R332, R333, R358, R359), with no waiter on the semaphore: SEMW takes a unit, SEMS adds without
passing 2^32 - 1, SEMI sets, both behind the link commands that an XS has queued (log entry 46), SEMRD only reads; each gives the old
value; and a SEMW that an event has served gives the value that it was served with. A raised semaphore serves its waiters (R333): with
one waiting stream and a unit, the event that raises it also takes the unit and grants the wait. -/
def Obligations.SemaphoresCompleteAndServe : Prop :=
  Sys2Proof.Machine.SemaphoresCompleteRule ∧ Sys2Proof.Machine.SemaphoreServesRule

/-- The barrier instructions complete (R335 to R337, R360, R361). BARA, with the release of its scope performed and the job's bit of the
slot clear, counts one arrival; BAR does so and goes on when its arrival ends the phase; BARW goes on when no phase is pending; a BAR or BARW
whose wait a completed phase has satisfied goes on. An arrival that does not fill the phase counts and leaves the job pending; one that fills
it puts the count to 0, and clears the pending bit and satisfies the waits of every job of the domain, on a core or saved. BIBSET gives the
old base. -/
def Obligations.BarriersComplete : Prop :=
  ∀ (s : State) (f : RRR),
    (s.guard = true → s.standing .bar = none →
      let i := (s.me.bib + (s.getS f.a).toNat) % s.me.bdepth
      let u := if dmrLevel s.me.dmr ≠ 0 then s.drainStream s.ctx.core s.ctx.strm else s
      (s.me.barPend.getLsbD i = false → exec (.barw f) s = .next (s.putS 1 f.d (BitVec.ofNat 64 i)).retire) ∧
      (s.me.barPend.getLsbD i = false → s.me.enginesFenced s.ctx.strm = true →
        exec (.bara f) s = .next ((u.barCount i).putS 1 f.d (BitVec.ofNat 64 i)).retire ∧
        ((u.barCount i).me.barPend.getLsbD i = false →
          exec (.bar f) s = .next ((u.barCount i).putS 1 f.d (BitVec.ofNat 64 i)).retire)) ∧
      ((f.b = 0 ∨ 1 ≤ (s.getS f.b).toNat ∧ (s.getS f.b).toNat ≤ 16 ∧ s.me.barPend = 0) →
        let depth := if f.b = 0 then s.me.bdepth else (s.getS f.b).toNat
        exec (.bibset f) s = .next ((s.setMe { s.me with
          bdepth := depth, bib := (if f.a = 0 then s.me.bib + 1 else (s.getS f.a).toNat) % depth }).putS 1 f.d (BitVec.ofNat 64 s.me.bib)).retire)) ∧
    (∀ w v, s.guard = true → s.standing .bar = some w → w.stage = 1 → w.grant = some v →
      exec (.bar f) s = .next (s.putS 1 f.d (BitVec.ofNat 64 w.obj)).retire ∧
      exec (.barw f) s = .next (s.putS 1 f.d (BitVec.ofNat 64 w.obj)).retire) ∧
    (∀ i < 16,
      let k := s.me
      let d := barrierDie (dmrLevel k.dmr) s.ctx.core
      let unit (t : State) : Barrier := (t.die d).barrier k.asid (dmrLevel k.dmr) (dmrDomid k.dmr) (domainPlace (dmrLevel k.dmr) s.ctx.core)
      let n := ((unit s).counts.toList[i]?.getD 0) + 1
      let t := s.barCount i
      (n < dmrCount k.dmr → t.me.barPend.getLsbD i = true ∧ unit t = { unit s with counts := (unit s).counts.setIfInBounds i n } ∧
        ∀ c, c ≠ s.ctx.core → t.core c = s.core c) ∧
      (dmrCount k.dmr ≤ n → unit t = { unit s with counts := (unit s).counts.setIfInBounds i 0 } ∧
        ∀ c, (s.core c).active = true → sameDomain k s.ctx.core (s.core c) c = true → (t.core c).barPend.getLsbD i = false ∧
          (∀ j ≠ i, c ≠ s.ctx.core → (t.core c).barPend.getLsbD j = (s.core c).barPend.getLsbD j) ∧
          ∀ x w, (s.strm c x).wait = some w → w.kind = .bar → w.obj = i → (t.strm c x).wait = some { w with grant := some 0 }) ∧
      (dmrCount k.dmr ≤ n → ∀ y ∈ t.saved, sameDomain k s.ctx.core y.core y.origin = true → y.core.barPend.getLsbD i = false))

/-- The lock instructions complete (R338 to R341, R362, R363): where the word can be accessed, LOCK and TRYLK of a free lock hold it and
give its old word, TRYLK of a held one gives that word; a LOCK whose wait a release has granted gives the word of its grant; UNLOCK by the holder with no waiter writes the free word and gives the old one.
Where the manual leaves a point open it follows the model's reading (log entry 40). -/
def Obligations.LocksComplete : Prop :=
  ∀ (s s1 : State) (f : RRR) (p : Piece), s.guard = true →
    s.atomCheck s.ctx.core s.ctx.strm (s.getS f.a).toNat 8 = (s1, .ok [p]) →
    let m := s1.mark s.walker .atomic [p]
    let w := m.pread8 p.pa
    (w.getLsbD 63 = false → m.tableFull (dieOf m.ctx.core) = false →
      let t := ((m.holdLock m.ctx.core m.ctx.strm p.pa (s.getS f.a).toNat (w.getLsbD 62)).arriveS f.d w).retire
      (s.standing .lock = none → exec (.lock f) s = .next t) ∧ exec (.trylk f) s = .next t) ∧
    (∀ w v, s.standing .lock = some w → w.grant = some v → exec (.lock f) s = .next (s.arriveS f.d v).retire) ∧
    (w.getLsbD 63 = true → exec (.trylk f) s = .next (m.arriveS f.d w).retire) ∧
    (s1.me.enginesFenced s1.ctx.strm = true →
      let u := s1.drainStream s1.ctx.core s1.ctx.strm
      (u.pread8 p.pa).getLsbD 63 = true → ((u.pread8 p.pa).extractLsb' 48 3).toNat = s.ctx.strm.num →
      ((u.pread8 p.pa).extractLsb' 0 41).toNat = s.me.jobid.toNat % 2 ^ 41 →
      let v := (u.mark s.walker .atomic [p]).dropLock p.pa s.me.jobid
      exec (.unlock f) s = .next ((v.releaseLock s.me.jobid p.pa false).arriveS f.d (u.pread8 p.pa)).retire ∧
      (v.lockWaiters p.pa = [] → v.releaseLock s.me.jobid p.pa false = v.pwriteN s.me.jobid p.pa (List.replicate 8 0)))

/-- The queue and token instructions complete (R342, R343, R364 to R367): QPUSH by the producer into a queue with room puts its value at
the tail, which waits, as a token push does, for the link commands that an XS has queued (log entry 46); QPOP and QPEEK by the consumer give the arrived head, QPOP taking it; QSTAT reads; TOKP and TOK16_PUSH add a token to a count
below 64, TOKW and TOK16_WAIT take one. -/
def Obligations.QueuesAndTokensComplete : Prop :=
  ∀ (s : State) (f : RX) (g : RI) (k : BitVec 3),
    let n := f.xf 0 4
    let q := s.me.queueAt n
    let tok (m v : Nat) : State := s.setMe (s.me.setTokens m { s.me.tokensAt m with count := v })
    let linked : Prop := s.ctx.strm = .xs → s.me.linkQ = []
    (s.guard = true →
      (q.prod = some s.ctx.strm → (n < 8 ∨ s.ctx.strm ≠ .as) → q.entries.length < (if n < 8 then 16 else 4) → linked →
        exec (.qpush f) s = .next (s.setMe (s.me.setQueue n { q with
          entries := q.entries ++ [⟨if n < 8 then (s.getS f.a).setWidth 2048 else s.getV f.a, true, 0⟩] })).retire) ∧
      (∀ e rest, q.cons = some s.ctx.strm → q.entries = e :: rest → e.arrived = true →
        exec (.qpop f) s = .next (((s.setMe ((s.me.setQueue n { q with entries := rest }).popLocks n)).deliverEntry n f.d e.val).retire) ∧
        exec (.qpeek f) s = .next (s.deliverEntry n f.d e.val).retire) ∧
      exec (.qstat f) s = .next (s.putS 1 f.d (s.me.qstat n)).retire ∧
      ((s.me.tokensAt g.imm.toNat).prod = some s.ctx.strm → (s.me.tokensAt g.imm.toNat).count < 64 → linked →
        exec (.tokp g) s = .next (tok g.imm.toNat ((s.me.tokensAt g.imm.toNat).count + 1)).retire) ∧
      ((s.me.tokensAt g.imm.toNat).cons = some s.ctx.strm → (s.me.tokensAt g.imm.toNat).count ≠ 0 →
        exec (.tokw g) s = .next (tok g.imm.toNat ((s.me.tokensAt g.imm.toNat).count - 1)).retire)) ∧
    ((s.me.tokensAt k.toNat).prod = some s.ctx.strm → (s.me.tokensAt k.toNat).count < 64 → linked →
      exec (.tok16Push k) s = .next (tok k.toNat ((s.me.tokensAt k.toNat).count + 1)).retire) ∧
    ((s.me.tokensAt k.toNat).cons = some s.ctx.strm → (s.me.tokensAt k.toNat).count ≠ 0 →
      exec (.tok16Wait k) s = .next (tok k.toNat ((s.me.tokensAt k.toNat).count - 1)).retire)

/-- The instructions on the wait-for table complete (R112, R345, R346, R349, R350, R354, R368 to R370): WAITE of a settled stream whose
engines are done; WREG that closes no set, WDEREG, WHOLD and its removal, which is followed by a detection over the waits of its object;
WQRY of the job, of an object and of the table; the sweep that finds no closed set only ends; a wait that has passed the limit under which
it began raises WAIT_LIMIT, at its stream or at its engine command.
Where the manual leaves a point open it follows the model's reading (log entries 14, 15, 40). -/
def Obligations.WaitTableComplete : Prop :=
  ∀ (s : State) (f : RX),
    let kind := f.xf 0 4
    let h : Holding := ⟨s.me.jobid, s.ctx.strm, WaitKind.ofCode kind, identity kind (s.getS f.a), s.me.asid, s.ctx.core.val⟩
    let w : Wait := ⟨WaitKind.ofCode kind, identity kind (s.getS f.a), 0, s.seq, 0, none, 0, true, s.clock, s.str.wlim.toNat⟩
    let next : State := { s with seq := s.seq + 1 }
    let placed := next.setStr { s.str with expl := some w }
    (s.guard = true →
      (s.str.pending = [] → s.str.arriving = [] → s.me.enginesIdle s.ctx.strm = true → s.enginesDone s.ctx.core s.ctx.strm = true →
        exec .waite s = .next s.retire) ∧
      ((next.setStr { s.str with expl := none }).tableFull (dieOf s.ctx.core) = false →
        placed.closedSet ⟨s.ctx.core, s.ctx.strm, none, w⟩ = [] → exec (.wreg f) s = .next (placed.putS 1 f.d 0).retire) ∧
      exec (.wdereg f) s = .next ((s.setStr { s.str with expl := none }).putS 1 f.d (if s.str.expl.isSome then 1 else 0)).retire ∧
      (f.xf 4 1 = 1 → h ∈ s.myDie.holds →
        let t := ((s.setMyDie { s.myDie with holds := s.myDie.holds.filter (· != h) }).putS 1 f.d 1).retire
        let on := t.waiters.filter fun x => x.w.kind == h.kind && x.w.obj == h.obj
        exec (.whold f) s = .next (State.detect on t) ∧ (on = [] → exec (.whold f) s = .next t)) ∧
      (f.xf 4 1 = 1 → h ∉ s.myDie.holds → exec (.whold f) s = .next (s.putS 1 f.d 0).retire) ∧
      (f.xf 4 1 = 0 → h ∈ s.myDie.holds → exec (.whold f) s = .next (s.putS 1 f.d 0).retire) ∧
      (f.xf 4 1 = 0 → h ∉ s.myDie.holds → s.tableFull (dieOf s.ctx.core) = false →
        exec (.whold f) s = .next ((s.setMyDie { s.myDie with holds := h :: s.myDie.holds }).putS 1 f.d 1).retire) ∧
      (f.xf 0 2 = 0 → exec (.wqry f) s = .next (s.putS 1 f.d s.wqryJob).retire) ∧
      (f.xf 0 2 = 2 → exec (.wqry f) s = .next (s.putS 1 f.d s.wqryTab).retire) ∧
      (f.xf 0 2 = 1 → f.xf 4 4 ≠ 2 →
        exec (.wqry f) s = .next (s.putS 1 f.d (s.wqryObj (f.xf 4 4) (identity (f.xf 4 4) (s.getS f.a)) 0)).retire) ∧
      (∀ s1 p, f.xf 0 2 = 1 → f.xf 4 4 = 2 →
        s.xlate s.walker s.me.asid.toNat (userOf s.ctx.core) .load (s.getS f.a).toNat 1 = (s1, .ok [p]) →
        let m := s1.mark s.walker .load [p]
        exec (.wqry f) s = .next (m.putS 1 f.d (m.wqryObj 2 (s.getS f.a).toNat p.pa)).retire)) ∧
    (∀ d : Fin 2, s.ctx.ev.unit = d.val →
      let t := s.setDie d { s.die d with sweepEnd := none }
      t.closedSubset t.waiters.length t.waiters = [] → exec .deadlockSweep s = .next t) ∧
    (∀ (c : CoreId) (i : StreamId) (w : Wait), s.ctx.ev.unit = c.val → s.ctx.ev.sub = i.num →
      w.reg = true → (s.core c).satisfied w = false → 0 < w.limit → w.limit < w.count →
      (s.ctx.ev.val = 0 → (s.strm c i).wait = some w →
        exec .waitLimit s = .next (s.raiseWait ⟨c, i, none, w⟩ { cause := 0x20, detail := s.waitLimitDetail ⟨c, i, none, w⟩ })) ∧
      (∀ (e : Eng) (x : Cmd), e ≠ .coll → s.ctx.ev.val = e.num + 1 → (s.core c).headCmd e = some x → x.wait = some w →
        exec .waitLimit s =
          .next (s.raiseCmd c e false { cause := 0x20, detail := s.waitLimitDetail ⟨c, i, some e, w⟩ })))

/-! Jobs. -/

/-- The job instructions complete (R85 to R91): CONT enqueues a ready record, or answers 1 while its join counter is not 0; PRIO sets the
base priority, at most the dispatch priority, and gives the old one (the effective priorities follow in the next slot); DOMAIN sets DMR and
the barrier base; JOINI adds to a join counter and enqueues the record that it brings to 0; SELF gives the record's address; TRCREC and
TRCRPL start a mode or end it, which leaves DIV, FULL and NEXT as they were (log entry 55); TRCSTAT reads. -/
def Sys2Proof.Machine.JobInstructionsCompleteRule : Prop :=
  ∀ (s : State) (f : RRR) (g : RI) (h : RX), s.guard = true →
    (∀ s1 bs, (s.getS f.a).toNat % 32 = 0 → s.me.enginesFenced s.ctx.strm = true →
      ((s.drainStream s.ctx.core s.ctx.strm).drainHost s.ctx.core (fun _ => true)).loadG s.ctx.core s.ctx.strm false (s.getS f.a).toNat 32 =
        .ok s1 bs →
      let r := Rec.ofBytes bs
      let q := (s1.die r.die).queue r.queue
      r.malformed = false → q.en = true → q.src = false → q.asid = s1.me.asid →
      (r.join ≠ 0 → exec (.cont f) s = .next (s1.arriveS f.d 1).retire) ∧
      (∀ s2, r.join = 0 → q.held < 2 ^ q.log2cap.toNat → s1.enqueueFor s1.me bs = (s2, true) →
        exec (.cont f) s = .next (s2.arriveS f.d 0).retire)) ∧
    exec (.prio g) s = .next ((s.setMe { s.me with bprio := BitVec.ofNat 3 (min g.imm.toNat s.me.dprio.toNat) }).putS 1 g.d (s.me.bprio.setWidth 64)).retire ∧
    (s.me.barPend = 0 → dmrOk (s.getS f.a) = true →
      exec (.domain f) s = .next ((s.setMe { s.me with dmr := s.getS f.a, bib := 0 }).arriveS f.d s.me.dmr).retire) ∧
    (∀ s1 p, (s.getS h.a).toNat % 32 = 0 →
      s.atomCheck s.ctx.core s.ctx.strm ((s.getS h.a).toNat + 16 : Nat) 4 = (s1, .ok [p]) →
      let m := s1.mark s.walker .atomic [p]
      let old := leNat (m.readPieces [p])
      let new := (old : Int) + h.x.toInt
      (new < 0 ∨ 0xFFFFFFFF < new → exec (.joini h) s = .next (m.arriveS h.d (BitVec.allOnes 64)).retire) ∧
      (0 ≤ new → new ≤ 0xFFFFFFFF → (old = 0 ∨ new ≠ 0) → exec (.joini h) s =
        .next ((State.writePieces m.me.jobid m [p] (leBytes new.toNat 4)).arriveS h.d (BitVec.ofNat 64 old)).retire) ∧
      (∀ e, 0 < old → new = 0 → m.me.enginesFenced m.ctx.strm = true →
        let u := (m.drainStream m.ctx.core m.ctx.strm).drainHost s.ctx.core (fun _ => true)
        let w := State.writePieces u.me.jobid u [p] (List.replicate 4 0)
        w.enqueueFor w.me (w.mem.readN (p.pa - 16) 32) = (e, true) →
        exec (.joini h) s = .next (e.arriveS h.d (BitVec.ofNat 64 old)).retire)) ∧
    exec (.self f) s = .next (s.putS 1 f.d s.me.raddr).retire ∧
    (s.getS f.a = 0 → ∀ i, i = .trcrec f ∨ i = .trcrpl f →
      exec i s = .next (s.setMyDie { s.myDie with trace := { s.myDie.trace with mode := 0, decision := none } }).retire) ∧
    (s.getS f.a = 1 → ∀ i mode, i = .trcrec f ∧ mode = 1 ∨ i = .trcrpl f ∧ mode = 2 →
      exec i s = .next (s.setMyDie { s.myDie with
        trace := ⟨mode, 0, false, false, s.myDie.trcbase.toNat, s.myDie.trclen.toNat, none⟩ }).retire) ∧
    exec (.trcstat f) s = .next (s.arriveS f.d (BitVec.ofNat 64 (s.myDie.trace.mode % 4 + (if s.myDie.trace.full then 4 else 0) +
      (if s.myDie.trace.div then 8 else 0) + s.myDie.trace.next % 2 ^ 32 * 2 ^ 32))).retire

/-- The ends of a stream and of a node (R70, R71, R83, R84): a settled NODE with nothing of its stream outstanding arrives, and completes the
boundary when every other stream of the job has arrived or ended; a settled RDV ends its stream and the stream's registration,
and a system core whose code comes to it is idle again. -/
def Sys2Proof.Machine.NodeAndRdvCompleteRule : Prop :=
  ∀ (s : State), s.guard = true → s.str.arrived = false → s.str.pending = [] → s.str.arriving = [] →
    s.me.enginesIdle s.ctx.strm = true → s.str.faults = [] →
    (s.streamBusy false = false →
      let n := s.setStr { s.str with arrived := true, draining := false }
      (n.boundaryReady n.ctx.core = true → exec .node s = .next (n.boundary s.ctx.core s.ctx.head.st.toNat)) ∧
      (n.boundaryReady n.ctx.core = false → s.ctx.strm ≠ .ws → (n.block .node 0 0 s.ctx.head.st.toNat true).2 = none →
        exec .node s = .next (n.block .node 0 0 s.ctx.head.st.toNat true).1 ∧
        (n.block .node 0 0 s.ctx.head.st.toNat true).1.str.arrived = true)) ∧
    (s.streamBusy true = false →
      let e := s.setStr { s.str.advance s.clock s.ctx.len s.ctx.head.st.toNat with ended := true, expl := none }
      let e2 := if isSystem s.ctx.core then e.setCore s.ctx.core { e.core s.ctx.core with active := false } else e
      ((e.core s.ctx.core).waiters s.ctx.core = [] →
        exec .rdv s = .next (if e2.boundaryReady s.ctx.core then e2.boundary s.ctx.core 0 else e2)))

/-- The job instructions complete (R85 to R91): CONT enqueues a ready record, or answers 1 while its join counter is not 0; PRIO sets
the base priority, at most the dispatch priority, and gives the old one (the effective priorities follow in the next slot); DOMAIN sets
DMR and the barrier base; JOINI adds to a join counter and enqueues the record that it brings to 0; SELF gives the record's address;
TRCREC and TRCRPL start a mode or end it, which leaves DIV, FULL and NEXT as they were (log entry 55); TRCSTAT reads. The ends of a
stream and of a node (R70, R71, R83, R84): a settled NODE with nothing of its stream outstanding arrives, and completes the boundary
when every other stream of the job has arrived or ended; a settled RDV ends its stream and the stream's registration, and a system core
whose code comes to it is idle again.
Where the manual leaves a point open it follows the model's reading (log entries 29, 30, 55). -/
def Obligations.JobsAndNodesComplete : Prop :=
  Sys2Proof.Machine.JobInstructionsCompleteRule ∧ Sys2Proof.Machine.NodeAndRdvCompleteRule

/-- Dispatch (R62, R64): the event takes the head record of a queue to an idle core; with a well-formed record and header whose frame can
be read, the core runs the job: its first instructions at the header's entries, s1 the frame pointer, its own scratchpad the frame, its
identity the die and the selection count, its priorities the record's; the status Running is written. -/
def Sys2Proof.Machine.DispatchStartsJobRule : Prop :=
  ∀ (s s1 s2 s3 : State) (d : Fin 2) (i n : Nat) (bs h frame : List Byte), s.ctx.ev.unit = d.val → s.ctx.ev.sub = i → s.ctx.ev.val = n → i < 64 → n < 64 →
    let c := coreAt d i
    let q := (s.die d).queue n
    let r := Rec.ofBytes bs
    let slot := q.head.toNat % 2 ^ q.log2cap.toNat
    s.coreIdle c = true → q.held ≠ 0 →
    (s.setDie d ((s.die d).setQueue n { q with head := q.head + 1 })).distFetch d q.asid (q.base.toNat + 32 * slot) 32 = (s1, some bs) →
    r.malformed = false → s1.distFetch d q.asid r.haddr.toNat 64 = (s2, some h) → headerOk h = true →
    (s2.configure c (hdrFuse h)).distFetch d q.asid r.fp.toNat (hdrFrame h) = (s3, some frame) →
    ∃ k : Core, exec .dispatch s =
        .next ((s3.setCore c k).writeStatus ⟨d, n, slot, q.asid, BitVec.ofNat 64 (q.sbase.toNat + 8 * slot)⟩
          (statusWord k.jobid (localOf c) 0 1)) ∧
      k.active = true ∧ k.dispatched = c ∧ k.jobid = BitVec.ofNat 64 (d.val * 2 ^ 40 + (s.die d).selections % 2 ^ 40) ∧ k.asid = q.asid ∧
      k.bprio = r.prio ∧ k.dprio = r.prio ∧ k.eprio = r.prio ∧ k.fp = r.fp ∧ k.parent = r.parent ∧ k.split = hdrSplit h ∧
      k.raddr = BitVec.ofNat 64 (q.base.toNat + 32 * slot) ∧ k.saddr = BitVec.ofNat 64 (q.sbase.toNat + 8 * slot) ∧
      k.dmr = hdrDmr h ∧ k.utvec = 0 ∧ k.fflags = 0 ∧ k.spad = Memory.splice [] 0 frame ∧
      ∀ j : StreamId, ((k.strm j).used = true ↔ hdrEntry h j.num ≠ 0) ∧
        (hdrEntry h j.num ≠ 0 → (k.strm j).pc = r.haddr + BitVec.ofNat 64 (hdrEntry h j.num) ∧ (k.strm j).ended = false ∧
          (k.strm j).s.toList[1]? = some r.fp)

/-- The distributor's other events complete (R66 to R68, R77, R82): a job whose work is over retires and its core is idle; a selection with
no queue enabled and no request standing changes nothing; a replay that is over diverges, which stops traced dispatch. With no trace, no
saved job and no request, a selection takes, among the enabled queues that hold a record and have an eligible core, the one of the
highest effective level, and among equals the first at or after the pointer: the lowest eligible core in its AFF is dispatched to next,
the pointer moves behind the queue, its PASS is 0, and that of every other candidate grows. -/
def Sys2Proof.Machine.DistributorEventsCompleteRule : Prop :=
  ∀ (s : State),
    (∀ c : CoreId, s.ctx.ev.unit = c.val → s.retirable c = true →
      ∃ t, exec .jobRetirement s = .next t ∧ (t.core c).active = false ∧ (t.core c).stopped = none ∧
        let j := (s.releaseJob c false).joinParent c
        t = (j.1.jobStatus (j.1.core c) 0 j.2).idle c) ∧
    (∀ c : CoreId, s.ctx.ev.unit = c.val → s.retirable c = false → exec .jobRetirement s = .next s) ∧
    (∀ d : Fin 2, s.ctx.ev.unit = d.val → (∀ n, ((s.die d).queue n).en = false) → (∀ i, (s.core (coreAt d i)).request = none) →
      (s.die d).trace.mode ≠ 2 → exec .distributorSelection s = .next s) ∧
    (∀ (d : Fin 2) (s2 : State) (l : List (Nat × HeadInfo)) (n i : Nat) (h : HeadInfo), s.ctx.ev.unit = d.val →
      (∀ i, (s.core (coreAt d i)).request = none) → (∀ x ∈ s.saved, x.node = true → x.core.homeDie ≠ d) → (s.die d).trace.mode = 0 →
      s.distributes d = true → State.headInfos d (List.range 64) s = (s2, l) → (n, h) ∈ l →
      let q (m : Nat) : CQueue := (s.die d).queue m
      let core (x : Nat × HeadInfo) : Option Nat := s2.lowest d (q x.1).aff (x.2.fuse.getD 0)
      let offers (x : Nat × HeadInfo) : Prop := (q x.1).held ≠ 0 ∧ (core x).isSome = true
      let far (m : Nat) : Nat := (m + 64 - (s.die d).rr.toNat) % 64
      (q n).held ≠ 0 → core (n, h) = some i →
      (∀ x ∈ l, x.1 ≠ n → offers x → (q x.1).level x.2 < (q n).level h ∨ (q x.1).level x.2 = (q n).level h ∧ far n < far x.1) →
      ∃ t, exec .distributorSelection s = .next t ∧
        t.agenda = ⟨.dispatch, { EvArgs.zero with unit := d.val, sub := i, val := n }⟩ :: s.agenda ∧
        (t.die d).rr = BitVec.ofNat 6 (n + 1) ∧ (t.die d).selections = (s.die d).selections + 1 ∧ ((t.die d).queue n).pass = 0 ∧
        ∀ x ∈ l, x.1 ≠ n → offers x → ((t.die d).queue x.1).pass = if (q x.1).pass = 0xFFFF then 0xFFFF else (q x.1).pass + 1) ∧
    (∀ d : Fin 2, s.ctx.ev.unit = d.val → s.replayOver d = true →
      ∃ t, exec .replayDiverge s = .next t ∧ (t.die d).trace.mode = 3 ∧ (t.die d).trace.div = true)

/-- Dispatch (R62, R64): the event takes the head record of a queue to an idle core; with a well-formed record and header whose frame
can be read, the core runs the job: its first instructions at the header's entries, s1 the frame pointer, its own scratchpad the frame,
its identity the die and the selection count, its priorities the record's; the status Running is written. The distributor's other events
complete (R66 to R68, R77, R82): a job whose work is over retires and its core is idle; a selection with no queue enabled and no request
standing changes nothing; a replay that is over diverges, which stops traced dispatch. With no trace, no saved job and no request, a
selection takes, among the enabled queues that hold a record and have an eligible core, the one of the highest effective level, and
among equals the first at or after the pointer: the lowest eligible core in its AFF is dispatched to next, the pointer moves behind the
queue, its PASS is 0, and that of every other candidate grows.
Where the manual leaves a point open it follows the model's reading (log entries 31, 32, 65). -/
def Obligations.DistributorCompletes : Prop :=
  Sys2Proof.Machine.DispatchStartsJobRule ∧ Sys2Proof.Machine.DistributorEventsCompleteRule

/-! Control and status registers. -/

namespace Sys2Proof.Machine

/-- "User CSRs" that every stream reads from its core's job (R429). -/
def csrRule (s : State) (n : Nat) : Option Word :=
  let k := s.me
  match n with
  | 0x00 => some k.jobid
  | 0x01 => some (BitVec.ofNat 64 (coreid s.ctx.core))
  | 0x02 => some (BitVec.ofNat 64 (localOf s.ctx.core / 8 + 8 * (dieOf s.ctx.core).val))
  | 0x03 => some (k.asid.setWidth 64)
  | 0x04 => some k.dmr
  | 0x05 => some (BitVec.ofNat 64 k.bib)
  | 0x06 => some (BitVec.ofNat 64 k.bdepth)
  | 0x07 => some (k.bprio.setWidth 64)
  | 0x08 => some (k.eprio.setWidth 64)
  | 0x09 => some (s.str.wlim.setWidth 64)
  | 0x0A => some k.utvec
  | 0x0B => some k.utrec
  | 0x0C => some (k.fflags.setWidth 64)
  | 0x0D => some (k.vtype.setWidth 64)
  | 0x0E =>
    if s.ctx.strm = .ts ∧ k.tileQ ≠ [] then none
    else some (if s.ctx.strm = .vs ∨ s.ctx.strm = .ts ∨ s.ctx.strm = .ws then s.str.seed.setWidth 64 else 0)
  | 0x0F => some (k.twin.setWidth 64)
  | 0x10 => some s.gsc
  | 0x11 => some (match k.bank with | some b => (s.myArr.bankAt b).steps | none => 0)
  | 0x12 => some (k.cktol.setWidth 64)
  | 0x13 => some k.lodcnt
  | 0x14 => some (k.xtlim.setWidth 64)
  | 0x100 => some s.myDie.stvec
  | 0x101 => some s.myDie.ptroot
  | 0x102 => some s.myDie.spill
  | 0x103 => some (s.myDie.plim.setWidth 64)
  | 0x104 => some s.myDie.trcbase
  | 0x105 => some s.myDie.trclen
  | 0x106 => some s.myDie.errcfg
  | 0x107 => some (s.myDie.leasemax.setWidth 64)
  | 0x108 => some (s.myDie.rlim.setWidth 64)
  | 0x109 => some (BitVec.ofNat 64 (s.myDie.state.toNat + if s.myDie.ready then 256 else 0))
  | _ => none

end Sys2Proof.Machine

/-- CSRR completes (R429, R434): under a true guard it gives the register's value. -/
def Sys2Proof.Machine.CsrReadRule : Prop :=
  ∀ (s : State) (f : RX) (v : Word), s.guard = true → csrRule s (f.xf 0 12) = some v → exec (.csrr f) s = .next (s.putS 1 f.d v).retire

/-- The CSR writes complete (R429, R434, R361, R86, R87): a value that the register may hold is written, and no other register changes;
a value with a bit outside the register raises ILL_FIELD with the value, as a TRCBASE that is no multiple of 32 does (log entry 31). -/
def Sys2Proof.Machine.CsrWriteRule : Prop :=
  ∀ (s : State) (f : RX), s.guard = true →
    let v := s.getS f.a
    let n := f.xf 0 12
    let refused := s.raiseOwn s.ctx.core s.ctx.strm { cause := 0x02, addr := v }
    (n = 0x09 → exec (.csrw f) s = .next (s.setStr { s.str with wlim := BitVec.ofNat 32 (min v.toNat 0xFFFFFFFF) }).retire) ∧
    (n = 0x0A → exec (.csrw f) s = .next (s.setMe { s.me with utvec := v }).retire) ∧
    (n = 0x0B → exec (.csrw f) s =
      if v.toNat % 128 = 0 ∧ v.toNat < 2 ^ 48 then .next (s.setMe { s.me with utrec := v }).retire else .next refused) ∧
    (n = 0x0C → exec (.csrw f) s = .next (s.setMe { s.me with fflags := v.setWidth 5 }).retire) ∧
    (n = 0x0D → exec (.csrw f) s =
      if v.toNat < 128 ∧ v.toNat % 16 ≤ 10 ∧ v.toNat / 16 ≤ 4 then .next (s.setMe { s.me with vtype := v.setWidth 7 }).retire
      else .next refused) ∧
    (n = 0x0E → (s.ctx.strm = .vs ∨ s.ctx.strm = .ts ∧ s.me.tileQ = [] ∨ s.ctx.strm = .ws) → exec (.csrw f) s =
      .next (s.setStr { s.str with seed := if v.setWidth 32 = 0 then 1 else v.setWidth 32 }).retire) ∧
    (n = 0x0F → exec (.csrw f) s =
      if 1 ≤ v.toNat ∧ v.toNat ≤ 255 then .next (s.setMe { s.me with twin := v.setWidth 8 }).retire else .next refused) ∧
    (∀ b, n = 0x11 → s.me.bank = some b → exec (.csrw f) s =
      .next (s.setMyArr (s.myArr.setBank b { s.myArr.bankAt b with steps := v })).retire) ∧
    (n = 0x12 → exec (.csrw f) s = .next (s.setMe { s.me with cktol := v.setWidth 16 }).retire) ∧
    (n = 0x13 → exec (.csrw f) s = .next (s.setMe { s.me with lodcnt := v }).retire) ∧
    (n = 0x14 → exec (.csrw f) s = .next (s.setMe { s.me with xtlim := v.setWidth 32 }).retire) ∧
    (n = 0x100 → exec (.csrw f) s =
      if v.toNat % 64 = 0 ∧ v.toNat < 2 ^ 48 then .next (s.setMyDie { s.myDie with stvec := v }).retire else .next refused) ∧
    (n = 0x101 → exec (.csrw f) s =
      if v.toNat % 65536 = 0 ∧ v.toNat < 2 ^ 48 then .next (s.setMyDie { s.myDie with ptroot := v }).retire else .next refused) ∧
    (n = 0x103 → exec (.csrw f) s =
      if v.toNat < 2 ^ 32 then .next (s.setMyDie { s.myDie with plim := v.setWidth 32 }).retire else .next refused) ∧
    (n = 0x104 → exec (.csrw f) s =
      if v.toNat % 32 = 0 then .next (s.setMyDie { s.myDie with trcbase := v }).retire else .next refused) ∧
    (n = 0x105 → exec (.csrw f) s = .next (s.setMyDie { s.myDie with trclen := v }).retire) ∧
    (n = 0x106 → exec (.csrw f) s =
      if v &&& ~~~(0x13F : Word) = 0 then .next (s.setMyDie { s.myDie with errcfg := v }).retire else .next refused) ∧
    (n = 0x107 → exec (.csrw f) s =
      if v.toNat < 2 ^ 32 then .next (s.setMyDie { s.myDie with leasemax := v.setWidth 32 }).retire else .next refused) ∧
    (n = 0x108 → exec (.csrw f) s =
      if v.toNat < 2 ^ 32 then .next (s.setMyDie { s.myDie with rlim := v.setWidth 32 }).retire else .next refused) ∧
    (s.me.barPend = 0 → dmrOk v = true → exec (.csrwDmr f) s = .next (s.setMe { s.me with dmr := v, bib := 0 }).retire) ∧
    exec (.csrwBib f) s = .next (s.setMe { s.me with bib := v.toNat % s.me.bdepth }).retire ∧
    (s.me.barPend = 0 → 1 ≤ v.toNat → v.toNat ≤ 16 →
      exec (.csrwBdepth f) s = .next (s.setMe { s.me with bdepth := v.toNat, bib := s.me.bib % v.toNat }).retire) ∧
    exec (.csrwBprio f) s =
      .next (s.setMe { s.me with bprio := BitVec.ofNat 3 (min v.toNat s.me.dprio.toNat) }).retire

/-- CSRR completes (R429, R434): under a true guard it gives the register's value. The CSR writes complete (R429, R434, R361, R86, R87):
a value that the register may hold is written, and no other register changes; a value with a bit outside the register raises ILL_FIELD
with the value, as a TRCBASE that is no multiple of 32 does (log entry 31).
Where the manual leaves a point open it follows the model's reading (log entry 31). -/
def Obligations.CsrAccess : Prop :=
  Sys2Proof.Machine.CsrReadRule ∧ Sys2Proof.Machine.CsrWriteRule

/-! Traps. -/

/-- The record of a trap (R415): 128 bytes, sixteen words low byte first: the eight words of the layout, each field in its place and 0
in the bits that hold none, the stream-slot count in word 5 and COREID in word 7; then the detail words, and 0 in those that the detail
leaves unused. -/
def Obligations.TrapRecordLayout : Prop :=
  ∀ (r : TrapRec), r.detail.length ≤ 8 →
    r.bytes.length = 128 ∧ r.words.length = 16 ∧
    (r.words[0]?.getD 0).extractLsb' 0 8 = BitVec.ofNat 8 r.cause ∧ (r.words[0]?.getD 0).extractLsb' 8 3 = BitVec.ofNat 3 r.strm.num ∧
    (r.words[0]?.getD 0).getLsbD 11 = r.precise ∧ (r.words[0]?.getD 0).getLsbD 12 = r.esc ∧ (r.words[0]?.getD 0).getLsbD 13 = r.nest ∧
    (r.words[0]?.getD 0).getLsbD 14 = r.recf ∧ (r.words[0]?.getD 0).getLsbD 15 = r.eng ∧
    (r.words[0]?.getD 0).extractLsb' 16 5 = BitVec.ofNat 5 r.midx ∧ (r.words[0]?.getD 0).getLsbD 21 = r.inmac ∧
    r.words[1]? = some r.pc ∧ r.words[2]? = some r.jobid ∧ r.words[3]? = some r.addr ∧
    (r.words[4]?.getD 0).extractLsb' 0 2 = BitVec.ofNat 2 r.kind ∧ (r.words[4]?.getD 0).extractLsb' 2 3 = BitVec.ofNat 3 r.space ∧
    (r.words[4]?.getD 0).getLsbD 5 = r.halted ∧ r.words[5]? = some (BitVec.ofNat 64 r.slots) ∧ r.words[6]? = some r.gsc ∧
    (r.words[7]?.getD 0).extractLsb' 0 7 = BitVec.ofNat 7 r.core ∧
    (r.words[0]?.getD 0).extractLsb' 22 42 = 0 ∧ (r.words[4]?.getD 0).extractLsb' 6 58 = 0 ∧ (r.words[7]?.getD 0).extractLsb' 7 57 = 0 ∧
    (∀ j, j < r.detail.length → r.words[8 + j]? = r.detail[j]?) ∧
    (∀ j, r.detail.length ≤ j → j < 8 → r.words[8 + j]? = some 0) ∧
    ∀ j w, r.words[j]? = some w → (r.bytes.drop (8 * j)).take 8 = leBytes w.toNat 8

/-- Taking a user trap (R416): with a handler address and a record area that can be written, the record stands at UTREC, the CS is at UTVEC in
handler mode with its frame kept, writes that are due have taken effect, the pending ones are kept in the frame and the results still to
arrive go on to arrive, and its registers and the other streams are as they were. -/
def Obligations.UserTrapEntry : Prop :=
  ∀ (s s1 s3 : State) (c : CoreId) (r : TrapRec) (ps : List Piece) (h : BitVec 32), (s.core c).utvec ≠ 0 → (s.core c).utrec ≠ 0 →
    ((s.core c).strm .cs).ended = false →
    s.xlate (.strm c .cs) (s.core c).asid.toNat true .store (s.core c).utrec.toNat 128 = (s1, .ok ps) →
    (State.writePieces (s.core c).jobid (s1.mark (.strm c .cs) .store ps) ps r.bytes).target c .cs (s.core c).utvec = (s3, .ok h) →
    let k := (s.core c).applyDue .cs s.clock
    let t := k.strm .cs
    ∃ k' : Core, s.userTrap c r = s3.setCore c k' ∧
      (∃ f : Frame, k'.handler = some ⟨r, f, none⟩ ∧ f.pc = t.pc ∧ f.blk = t.blk ∧ f.mac = t.mac ∧ f.pending = t.pending ∧
        f.slots = t.slots ∧ f.armed = t.armed ∧ f.idle = t.idle) ∧
      (k'.strm .cs).pc = k.utvec ∧ (k'.strm .cs).blk = none ∧ (k'.strm .cs).pending = [] ∧ (k'.strm .cs).arriving = t.arriving ∧ (k'.strm .cs).s = t.s ∧ (k'.strm .cs).p = t.p ∧ k'.v = k.v ∧
      k'.fflags = k.fflags ∧ k'.utvec = k.utvec ∧ k'.utrec = k.utrec ∧ (∀ i : StreamId, i ≠ .cs → k'.strm i = k.strm i)

/-- Who takes a trap (R414, R416, R419, R420, R423): a supervisor core's goes to the host's mailbox and stops it; while the job is
stopped a trap is held; a cause of the supervisor's stops the job, but for a PAGE of the AS, which halts the AS, and names handler mode in
NEST; while its handler runs and did not itself raise it, and in a slot in which PREEMPT is due, a trap is held; the handler's own stops the
job with NEST.
Where the manual leaves a point open it follows the model's reading (log entry 17). -/
def Obligations.TrapDelivery : Prop :=
  ∀ (s : State) (c : CoreId) (i : StreamId) (r : TrapRec),
    let hold := s.setCore c { s.core c with held := (s.core c).held ++ [r] }
    let stop (r : TrapRec) := (s.setCore c { s.core c with stopped := some r }).postSupervisor (dieOf c) r
    (isSystem c = true → s.deliver c i r =
      { s.setCore c { s.core c with stopped := some r, active := false } with mailbox := s.mailbox ++ [r] }) ∧
    (isSystem c = false → (s.core c).stopped ≠ none → s.deliver c i r = hold) ∧
    (isSystem c = false → (s.core c).stopped = none →
      ((r.cause = 0x10 ∨ r.cause = 0x26 ∨ r.cause = 0x41 ∨ r.cause = 0x42 ∨ r.cause = 0x51) →
        let r1 := { r with nest := (s.core c).handler.isSome }
        s.deliver c i r = if r.cause = 0x10 ∧ i = .as then
            (s.setStrm c i { s.strm c i with halted := true }).postSupervisor (dieOf c) r1
          else stop r1) ∧
      (r.cause ≠ 0x10 → r.cause ≠ 0x26 → r.cause ≠ 0x41 → r.cause ≠ 0x42 → r.cause ≠ 0x51 →
        ((s.core c).handler = none → s.deliver c i r = if s.plimReached c then hold else s.userTrap c r) ∧
        ((s.core c).handler ≠ none → s.deliver c i r = if i = .cs ∧ r.eng = false then stop { r with nest := true } else hold)))

/-- The trap instructions complete (R418, R431 to R433): TRAP raises TRAPI with its immediate and s[A]; in a handler, SETH of a valid header
names where the trapping stream is to resume and gives where it would have, TRET ends the handler mode, and UDECL escalates the trap with
ESC, its frame kept. -/
def Obligations.TrapInstructionsComplete : Prop :=
  ∀ (s : State) (f : RI) (g : RRR), s.guard = true →
    exec (.trap f) s =
      .next (s.raiseOwn s.ctx.core s.ctx.strm { cause := 0x50, detail := [f.imm.setWidth 64, s.getS f.a] }) ∧
    (∀ h : Handler, s.me.handler = some h →
      (∀ s1 w, h.record.eng = false → s.target s.ctx.core s.ctx.strm (s.getS g.a) = (s1, .ok w) →
        exec (.seth g) s = .next ((s1.setMe { s1.me with handler := some { h with seth := some (s.getS g.a) } }).putS 1 g.d
          (s.me.resumeAddr h)).retire) ∧
      exec .tret s = .next (s.leaveHandler s.ctx.core) ∧
      exec .udecl s = .next ((s.setMe { s.me with stopped := some { h.record with esc := true } }).postSupervisor (dieOf s.ctx.core)
        { h.record with esc := true }))

/-- Returning from a handler (R418, R421): the handler's own pending writes take effect (log entry 17); with no trap held, the core is out of handler mode,
the CS is back where its frame was, with the writes that its frame kept and the results still to arrive; the trapping stream, when it is not an engine command's, is at
SETH's header or where it trapped, and after a TRAP one word or one macro operation on; and no stream issues before the next slot.
Where the manual leaves a point open it follows the model's reading (log entry 17). -/
def Obligations.TrapReturn : Prop :=
  ∀ (s : State) (c : CoreId) (h : Handler), (s.core c).handler = some h → (s.core c).held = [] →
    let out := (inDueOrder ((s.core c).strm .cs).pending).foldl (fun k w => k.apply .cs w) { s.core c with handler := none }
    let k := { s.core c with handler := none }.restoreFrame h.frame
    let k' := (s.leaveHandler c).core c
    let x := k.strm h.record.strm
    let x' := k'.strm h.record.strm
    ((k.strm .cs).pc = h.frame.pc ∧ (k.strm .cs).blk = h.frame.blk ∧ (k.strm .cs).mac = h.frame.mac ∧ (k.strm .cs).pending = h.frame.pending ∧
      (k.strm .cs).slots = h.frame.slots ∧ (k.strm .cs).armed = h.frame.armed ∧ (k.strm .cs).idle = h.frame.idle ∧
      (k.strm .cs).arriving = (out.strm .cs).arriving ∧ (k.strm .cs).s = (out.strm .cs).s ∧ (k.strm .cs).p = (out.strm .cs).p ∧ k.v = out.v ∧ ∀ i, i ≠ .cs → k.strm i = out.strm i) ∧
    k'.handler = none ∧ k'.held = [] ∧ k'.v = k.v ∧ (∀ i, s.clock + 1 ≤ (k'.strm i).readyAt) ∧
    (∀ i, i ≠ h.record.strm ∨ h.record.eng = true → k'.strm i = { k.strm i with readyAt := max (k.strm i).readyAt (s.clock + 1) }) ∧
    (h.record.eng = false → x'.s = x.s ∧ x'.p = x.p ∧
      (∀ a, h.seth = some a → x'.pc = a ∧ x'.blk = none ∧ x'.mac = none) ∧
      (h.seth = none → h.record.cause ≠ 0x50 → x'.pc = x.pc ∧ x'.blk = x.blk ∧ x'.mac = x.mac) ∧
      (h.seth = none → h.record.cause = 0x50 → x.mac = none → x'.pc = x.pc + 4 ∧ x'.blk = x.blk) ∧
      (∀ m, h.seth = none → h.record.cause = 0x50 → x.mac = some m → x'.blk = x.blk ∧
        if m.idx + 1 < m.ops.length then x'.pc = x.pc ∧ x'.mac = some { m with idx := m.idx + 1 }
        else x'.mac = none ∧ x'.pc = x.pc + BitVec.ofNat 64 (2 * m.len) ∧ x'.idle = m.st))

/-- The decode checks (R45, R50, R430): a word at the program counter that decodes but may not run raises, in this order, ILL_STREAM where the
stream may not issue it, PRIV where it is a supervisor's and the core is no system core; a word that decodes to nothing raises ILL_OP. -/
def Obligations.DecodeChecks : Prop :=
  ∀ (s : State) (k : StreamId) (b : Block) (inHandler : Bool) (pc : Word) (hs : List HWord) (room : Nat), 2 ≤ room → hs ≠ [] →
    (∀ w n, Decode.rawDecode hs = .ok (w, n) → permitted k w.instr = false →
      decodeAt s k b inHandler pc hs none room = .bad { cause := 0x03, pc := some pc }) ∧
    (∀ w n, Decode.rawDecode hs = .ok (w, n) → permitted k w.instr = true → csrPermitted k w.instr = true →
      handlerOk inHandler w.instr = true → isPrivileged w.instr = true → isSystem s.ctx.core = false →
      decodeAt s k b inHandler pc hs none room = .bad { cause := 0x04, pc := some pc }) ∧
    (Decode.rawDecode hs = .error .illOp → decodeAt s k b inHandler pc hs none room = .bad { cause := 0x01, pc := some pc })

/-! The supervisor's instructions. -/

/-- The supervisor's instructions complete (R435 to R442): ASET writes a directory entry and gives the old one; TLBI forgets translations;
both complete when no copy goes on that uses what they removed;
PRQ asks a job of the die, resumes it, ends it, or takes its lease away, or answers 1 for none; ARES lets a halted AS go on; CTXSV of a job that is not stopped answers 0
and of a drained one its image's length; CTXRS puts an image's job on an idle core; WFTSP, ERRLOG, INJ and MIGR.
Where the manual leaves a point open it follows the model's reading (log entries 9, 28, 32, 33). -/
def Obligations.SupervisorCompletes : Prop :=
  ∀ (s : State) (f : RRR) (g : RX), s.guard = true →
    let a := s.getS f.a
    let b := s.getS f.b
    let d := dieOf s.ctx.core
    let asid : BitVec 13 := a.setWidth 13
    let at_ := s.myDie.ptroot.toNat + 8 * asid.toNat
    let op := (b.extractLsb' 0 4).toNat
    let va := a.toNat
    (b.toNat % 512 = 0 → s.physOk at_ = true →
      (s.str.wait = none → s.copiesOver s.clock (· == asid) = true → exec (.aset f) s =
        .next (((s.pwrite8 at_ ((b &&& 0x0000FFFFFFFFFE00) ||| (if b = 0 then 0 else 1))).forget
          (fun t => t.asid == asid && !pteG t.pte)).arriveS f.d (s.pread8 at_)).retire) ∧
      (∀ w, s.str.wait = some w → s.copiesOver w.since (· == asid) = true →
        exec (.aset f) s = .next (s.arriveS f.d (BitVec.ofNat 64 w.phys)).retire)) ∧
    (∀ drop of : _, let n := (b.extractLsb' 0 2).toNat
      let asid := b.extractLsb' 16 13
      ((n = 0 ∧ drop = fun _ : TlbEntry => true) ∨ (n = 1 ∧ drop = fun t => t.asid == asid && !pteG t.pte) ∨
        (n = 2 ∧ drop = fun t => t.asid == asid && !pteG t.pte && t.covers asid.toNat va) ∨ (n = 3 ∧ drop = fun t => pteG t.pte)) →
      (of = fun x : BitVec 13 => n == 0 || n == 3 || x == asid) →
      (s.str.wait = none → s.copiesOver s.clock of = true →
        exec (.tlbi f) s = .next (State.retire { s with tlb := s.tlb.filter fun t => !drop t })) ∧
      (∀ w, s.str.wait = some w → s.copiesOver w.since of = true → exec (.tlbi f) s = .next s.retire)) ∧
    (s.jobOn d a = .gone → op < 4 → exec (.prq f) s = .next (s.arriveS f.d 1).retire) ∧
    (∀ n, s.jobOn d a = .saved n →
      (op = 2 → exec (.prq f) s = .next ((s.endSaved n (b.extractLsb' 8 8).toNat 3).arriveS f.d 0).retire) ∧
      (op = 0 ∨ op = 1 ∨ op = 3 → exec (.prq f) s = .next (s.arriveS f.d 2).retire)) ∧
    (∀ c, s.jobOn d a = .core c →
      (op = 0 → exec (.prq f) s = .next ((s.setCore c { s.core c with
        request := some ((s.core c).request.getD ⟨none, 0, 0, 0, false⟩) }).arriveS f.d 0).retire) ∧
      (op = 2 → exec (.prq f) s = .next ((s.endJob c (b.extractLsb' 8 8).toNat 3).arriveS f.d 0).retire) ∧
      (op = 1 → (s.core c).stopped ≠ none → exec (.prq f) s = .next ((s.resumeJob c).arriveS f.d 0).retire) ∧
      (op = 1 → (s.core c).stopped = none → exec (.prq f) s = .next (s.arriveS f.d 2).retire) ∧
      (op = 3 → exec (.prq f) s = .next (if (s.arr (clusterOf c)).lease = some c ∧ (s.arr (clusterOf c)).frozen = false
        then (s.revoke c).arriveS f.d 0 else s.arriveS f.d 2).retire) ∧
      ((s.strm c .as).halted = true → exec (.ares f) s = .next ((s.setCore c
        { (s.core c).setStrm .as { s.strm c .as with halted := false, readyAt := max (s.strm c .as).readyAt (s.clock + 1) } with
          copyQ := (s.core c).copyQ.map (fun x => { x with trapped := false }), aresSlot := some s.clock }).arriveS f.d 0).retire) ∧
      ((s.strm c .as).halted = false → exec (.ares f) s = .next (s.arriveS f.d 1).retire) ∧
      (b.toNat % 4096 = 0 → s.physOk b.toNat = true →
        ((s.core c).stopped = none → exec (.ctxsv f) s = .next (s.arriveS f.d 0).retire) ∧
        ((s.core c).stopped ≠ none → (s.startDrain c).drained c = true →
          let t := s.startDrain c
          let sizes := sectionSizes (t.core c).padSize t.draws
          t.physOk (b.toNat + imageSize sizes - 1) = true →
          exec (.ctxsv f) s = .next ((State.saveTo { t with draws := t.draws + 8 } c b.toNat sizes (recordPlace sizes t.draws)).arriveS f.d
            (BitVec.ofNat 64 (imageSize sizes))).retire))) ∧
    ((∀ c, s.jobOn d a ≠ .core c) → exec (.ares f) s = .next (s.arriveS f.d 1).retire ∧
      (b.toNat % 4096 = 0 → s.physOk b.toNat = true → exec (.ctxsv f) s = .next (s.arriveS f.d 0).retire)) ∧
    (s.imageAt b.toNat = none → exec (.ctxrs f) s = .next (s.arriveS f.d 1).retire) ∧
    (∀ m, s.imageAt b.toNat = some m →
      let c := coreAt d (a.toNat % 64)
      exec (.ctxrs f) s = .next (if s.coreIdle c then (s.restoreTo m c).arriveS f.d 0 else s.arriveS f.d 2).retire) ∧
    (a.toNat % 32 = 0 → b.toNat % 32 = 0 → s.tableUsed d - 4096 ≤ b.toNat / 32 → exec (.wftsp f) s = .next ((s.setMyDie { s.myDie with
      spill := a &&& 0x0000FFFFFFFFFFE0, spillCap := b.toNat / 32 }).arriveS f.d (BitVec.ofNat 64 (b.toNat / 32))).retire) ∧
    (let l := if isSystem s.ctx.core then s.myDie.log else s.me.log
      let l1 : ErrLog := if a.getLsbD 11 then { l with entries := [], ovf := false } else l
      exec (.errlog f) s = .next ((if isSystem s.ctx.core then s.setMyDie { s.myDie with log := l1 } else s.setMe { s.me with log := l1 }).putS 1 f.d
        (l.read a)).retire) ∧
    (let v := s.getS g.a
      let c : CoreId := ⟨v.toNat % 128, by omega⟩
      (g.xf 0 4 = 0 → exec (.inj g) s = .next (State.retire { s with correctable := v.toNat / 64 * 64 :: s.correctable })) ∧
      (g.xf 0 4 = 1 → exec (.inj g) s = .next (s.poisonLine v.toNat).retire) ∧
      (g.xf 0 4 = 2 → exec (.inj g) s = .next (s.setCore c { s.core c with mismatch := true }).retire) ∧
      (g.xf 0 4 = 3 → exec (.inj g) s = .next (s.laneFault c (v.getLsbD 8)).retire)) ∧
    (b.toNat % 65536 = 0 → s.physOk b.toNat = true →
      let va := a.toNat / 65536 % 2 ^ 32 * 65536
      let asid : BitVec 13 := a.extractLsb' 48 13
      (∀ e, s.walk s.myDie.ptroot.toNat asid.toNat va = .error e → exec (.migr f) s = .next (s.arriveS f.d 2).retire) ∧
      (∀ l, s.walk s.myDie.ptroot.toNat asid.toNat va = .ok l →
        (l.block = true → exec (.migr f) s = .next (s.arriveS f.d 1).retire) ∧
        (l.block = false → exec (.migr f) s = .next ((((s.movePage l.pa b.toNat 65536).pwrite8 l.entry
          ((l.pte &&& ~~~(0x0000FFFFFFFF0000 : Word)) ||| b)).forget (fun t => t.vpn == va / 65536 && (t.asid == asid || pteG t.pte))).arriveS
            f.d 0).retire)))

/-! The tile engine. -/

/-- The tile commands complete at the head of their queue, with no uncorrectable register of the engine (R183 to R202): each changes the tile
state as its rule says, counts in the command window, leaves the queue and raises its semaphore. With CKE = 1 a product either writes its
result or raises CKS_FAIL, and in the integer class it writes it (R192). A multicast TLD whose members have all come, and agree, is read once and
given to every member (R190).
Where the manual leaves a point open it follows the model's reading (log entries 21, 39). -/
def Obligations.TileCommandsComplete : Prop :=
  ∀ (s : State) (c : CoreId) (x : Cmd) (f : E), HeadRuns s c .tile x → (s.core c).tile.bad = [] →
    let b := s.asCmd c .tile x
    let tl := (s.core c).tile
    let fin (b : State) (t : Tile) : State := completed (b.setMe (b.me.setTile (t.count x))) c .tile x
    let acc (n : BitVec 5) : Nat := tl.acc n.toNat
    exec (.tzero f) s = .next (fin b (tl.setAcc f.d.toNat (mapAcc (acc f.d) x.rows x.rows fun _ _ _ => 0))) ∧
    (f.of 0 1 = 1 → exec (.tmov f) s = .next (fin b (tl.setAcc f.d.toNat (acc f.a)))) ∧
    (f.of 0 1 = 0 → exec (.tmov f) s = .next (fin b (tl.setImage f.d.toNat false (tl.image f.a.toNat false)))) ∧
    exec (.ttrn f) s = .next (fin b (tl.setImage f.d.toNat (f.of 0 2 == 2)
      (transpose (16 * 2 ^ f.of 0 2) (tl.image f.a.toNat (f.of 0 2 == 2))))) ∧
    (x.sa.toNat < 2 ^ 13 → x.sa.toNat / 1024 ≤ 4 →
      tilePair (x.sa.toNat % 32) (x.sa.toNat / 32 % 32) ≠ none → exec (.tfmt f) s = .next (fin b { tl with tfmt := x.sa.setWidth 13 })) ∧
    exec .tcksOff s = .next (fin b { tl with cke := false }) ∧ exec .tcksOn s = .next (fin b { tl with cke := true }) ∧
    exec .tstart s = .next (completed (b.setMe (b.me.setTile { tl with
      window := some ⟨tl.t, tl.a, tl.tfmt, ((s.core c).strm .ts).seed, 0, [], []⟩ })) c .tile x) ∧
    (∀ cls zeros i, tilePair (tfmtAF tl.tfmt) (tfmtBF tl.tfmt) = some cls →
      (cls = .fused f64 → f.a.toNat % 2 = 0 ∧ f.b.toNat % 2 = 0) → (i = .tmma f ∧ zeros = 0 ∨ i = .tmmas f ∧ zeros = x.zeros) →
      let t := tl.setAcc f.d.toNat (product cls (tfmtAF tl.tfmt) (tfmtBF tl.tfmt) (tl.image f.a.toNat (cls == .fused f64))
        (tl.image f.b.toNat (cls == .fused f64)) (acc f.d) x.rows x.depth zeros)
      (tl.cke = false ∨ cls = .integer → exec i s = .next (fin b t)) ∧
      (tl.cke = true → exec i s = .next (fin b t) ∨ exec i s = .next (fin b.drawn t) ∨
        exec i s = .next (b.drawn.raiseCmd c .tile false { cause := 0x33, detail := [f.d.setWidth 64] }))) ∧
    (let mode := if f.of 5 3 = 7 then tfmtRM tl.tfmt else RMode.ofCode (f.of 5 3)
      let r := convertElems (accTy tl.tfmt) (tileNum (f.of 0 5)) mode (acc f.a) (List.range 256) ((s.core c).strm .ts).seed
      exec (.tcvt f) s = .next (fin (b.setStrm c .ts { b.strm c .ts with seed := r.2 }) (tl.setImage f.d.toNat (f.of 0 5 == 0)
        (r.1.zipIdx.foldl (fun n y => n + y.1 * 2 ^ (8 * tileLB (f.of 0 5) * (y.2 / 16) + (tileNum (f.of 0 5)).width * (y.2 % 16))) 0)))) ∧
    (let fmt := f.of 0 5
      let t := tileTarget c (f.of 5 1) (f.of 6 3)
      let rs := tldRanges fmt x.sa.toNat ((x.more[1]?.getD 0).toNat) (pitch x.sb)
      let img := tldImage fmt (rs.flatMap fun r => (s.core t).spad.readN r.1.toNat r.2)
      x.sa.toNat % tileAlign fmt = 0 → pitch x.sb % tileAlign fmt = 0 →
      (tileMX fmt = true → pitch x.sb % (if fmt = 13 then 16 else 32) = 0) → (s.core t).spcfg = none → (s.core t).spadPoison = [] →
      (f.of 9 1 = 0 → (∀ r ∈ rs, b.padOk c t r.1 r.2 = true) →
        exec (.tld f) s = .next (fin b (tl.setImage f.d.toNat (fmt == 0) img))) ∧
      (let tag := f.of 10 4
        let set := x.more[0]?.getD 0
        let b1 := b.setMe (b.me.mapHead .tile fun y => { y with stage := 16 + tag })
        f.of 9 1 = 1 → f.of 5 1 = 1 → x.code.instr = .tld f → set.getLsbD (posOf c) = true →
        (∀ e ∈ mcastCores c set, ∃ y g, b1.mcastHead e tag = some y ∧ mcastKey y = mcastKey x ∧ y.code.instr = .tld g ∧ g.of 5 1 = 1) →
        (∀ r ∈ rs, b.padOk ((mcastCores c set).head?.getD c) t r.1 r.2 = true) →
        let b2 := State.mcastOthers c tag img (mcastKey x) (mcastCores c set) b1
        exec (.tld f) s = .next (fin b2 (b2.me.tile.setImage f.d.toNat (fmt == 0) img)))) ∧
    (∀ (s1 : State) (none_ : List Byte),
      let ty := NumTy.ofCode (f.of 0 4)
      let eb := ty.width / 8
      let es := tstElems x.rows x.sa.toNat (pitch x.sb) eb
      let r := convertElems (accTy tl.tfmt) ty (tfmtRM tl.tfmt) (acc f.d) (es.map (·.1)) ((s.core c).strm .ts).seed
      let rs := joinRanges (es.map fun e => (e.2, eb))
      x.sa.toNat % eb = 0 → pitch x.sb % eb = 0 →
      (if f.of 4 2 = 2 then b.storeRanges c .ts rs (r.1.flatMap fun v => leBytes v eb)
        else b.storePad c (tileTarget c (f.of 4 2) (f.of 6 3)) (f.of 4 2) rs (r.1.flatMap fun v => leBytes v eb)) = .ok s1 none_ →
      exec (.tst f) s = .next (fin (s1.setStrm c .ts { s1.strm c .ts with seed := r.2 }) s1.me.tile))

/-! The wavefront array. -/

/-- The commands on leases, banks, regions and settings complete (R223, R226, R234, R236, R237, R245 to R248, R252 to R255).
Where the manual leaves a point open it follows the model's reading (log entries 26, 27). -/
def Obligations.WavefrontSettingsComplete : Prop :=
  ∀ (s : State) (c : CoreId) (x : Cmd) (f : E), HeadRuns s c .arr x →
    let b := s.asCmd c .arr x
    let a := s.arr (clusterOf c)
    let k := s.core c
    let put (a : WArray) : State := b.setMyArr a
    let bank := x.sa.toNat % 4
    let handle : BitVec 32 := x.sa.extractLsb' 32 32
    let shown (s : State) : State := s.setMe { s.me with bank := some bank, handle := handle }
    let leased : Prop := a.lease = some c ∧ a.frozen = false ∧ k.jobid ∉ a.forced
    (a.lease = some c → exec .wlease s = .next (completed b c .arr x)) ∧
    (a.lease ≠ some c → a.unheld = true → exec .wlease s = .next (completed (put (a.grant c s.clock)) c .arr x)) ∧
    (a.lease ≠ some c → exec .wrls s = .next (completed b c .arr x)) ∧
    (a.lease = some c → a.frozen = false → (∀ w ∈ a.fwd ++ a.bwd, w.core ≠ c) →
      exec .wrls s = .next (completed (put { a with ending := 1 }) c .arr x)) ∧
    ((a.bankAt bank).claim = some (k.asid, handle) →
      exec (.wbankSel f) s = .next (completed (shown b) c .arr x) ∧ exec (.wbankClaim f) s = .next (completed (shown b) c .arr x) ∧
      ((∀ w ∈ a.flying, w.open_ = true → w.bank ≠ bank) →
        let freed := put (a.setBank bank { a.bankAt bank with claim := none, regions := Vector.replicate 16 Region.undef })
        exec (.wbankRel f) s = .next (completed (if k.bank = some bank then freed.setMe { freed.me with bank := none } else freed) c .arr x))) ∧
    ((a.bankAt bank).claim = none → exec (.wbankClaim f) s = .next (completed
      (shown (put (a.setBank bank { a.bankAt bank with claim := some (k.asid, handle), steps := 0 }))) c .arr x)) ∧
    (∀ n, leased → k.bank = some n → (a.bankAt n).claim = some (k.asid, k.handle) →
      let r := f.of 0 4
      let old := a.region n r
      let g : Region := { Region.undef with
        state := .defined, row0 := x.sa.toNat % 256, col0 := x.sa.toNat / 2 ^ 8 % 256, rows := x.sa.toNat / 2 ^ 16 % 256 + 1
        cols := x.sa.toNat / 2 ^ 24 % 256 + 1, fmt := old.fmt }
      ((∀ w ∈ a.fwd ++ a.bwd ++ a.flying, w.bank ≠ n ∨ w.region ≠ r) →
        exec (.wregnRem f) s = .next (completed (put (a.setRegion n r Region.undef)) c .arr x) ∧
        (g.row0 + g.rows ≤ 256 → g.col0 + g.cols ≤ 256 → (∀ q < 16, q ≠ r → (a.region n q).state ≠ .undef → g.meets (a.region n q) = false) →
          exec (.wregnDef f) s = .next (completed (put (a.setRegion n r g)) c .arr x))) ∧
      (old.state = .defined ∨ old.state = .loaded →
        exec (.wopt f) s = .next (completed (put (a.setRegion n r { old with
          eta := x.sa.extractLsb' 0 32, gscale := x.sa.extractLsb' 32 32, sr := f.of 4 3 == 4, strict := f.of 7 1 == 1 })) c .arr x) ∧
        exec (.wcks f) s = .next (completed (put (a.setRegion n r { old with cks := f.of 4 1 == 1 })) c .arr x))) ∧
    (b.wavesDone c = true → exec .wdrain s = .next (completed b c .arr x)) ∧
    (a.lease = some c → a.frozen = true → k.jobid ∉ a.forced →
      let u := (b.popCmd c .arr).discardArray (clusterOf c) true
      exec .wdrainDiscard s = .next (((u.setCore c ((u.core c).setCmds .arr (x :: (u.core c).cmds .arr))).cmdSignal c x).popCmd c .arr) ∧
      (u.arr (clusterOf c)).fwd = [] ∧ (u.arr (clusterOf c)).bwd = [] ∧ (u.arr (clusterOf c)).recent = [] ∧ (u.arr (clusterOf c)).frozen = false)

/-- The commands that move weights, enter and collect complete (R205, R208, R240, R249 to R251, R253): WLDW loads a defined region's cells,
WSTW stores them, WADMIT puts an admission in its edge queue and leaves the command queue, WCOLL, behind the stream's earlier WVERs of a
range, stores an output and gives its status word, WVER, behind the stream's earlier WCOLLs, gives the version range of an output, or, behind its earlier array commands too, the state of a
region, and with its clear form takes NF from it.
Where the manual leaves a point open it follows the model's reading (log entries 22, 25). -/
def Obligations.WavefrontDataComplete : Prop :=
  ∀ (s : State) (c : CoreId) (x : Cmd) (f : E) (n : Nat),
    let a := s.arr (clusterOf c)
    let k := s.core c
    let r := f.of 0 4
    let g := a.region n r
    (HeadRuns s c .arr x → a.lease = some c → a.frozen = false → k.jobid ∉ a.forced → k.bank = some n →
      (a.bankAt n).claim = some (k.asid, k.handle) →
      let b := s.asCmd c .arr x
      (∀ s1 bs, g.state ≠ .undef → (∀ w ∈ a.fwd ++ a.bwd ++ a.flying, w.bank ≠ n ∨ w.region ≠ r) → weightAlign (weightTy f) x = false →
        let ty := weightTy f
        let g1 := g.load (f.of 4 3)
        let rs := weightRows g1 f ty x
        (if f.of 12 2 = 1 then b.loadRanges c .ws false rs else b.loadPad c .ws c 0 rs) = .ok s1 bs →
        let rows := rowNumbers ((rs.head?.getD (0, 0)).2) rs.length bs
        let k0 := s1.myArr.bankAt n
        let k1 := (loadCells g1 f ty (x.sb.extractLsb' 32 16) rows).foldl (fun (k : Bank) y => k.setCell y.1 y.2)
          { k0 with poison := k0.poison.filter fun i => !g1.covers i }
        exec (.wldw f) s = .next (completed (s1.setMyArr (s1.myArr.setBank n (k1.setRegion r g1))) c .arr x)) ∧
      (g.state = .loaded → (f.of 4 1 = 1 → hasG g.fmt = true) → (∀ w ∈ a.fwd ++ a.bwd ++ a.flying, w.bank ≠ n ∨ w.region ≠ r) →
        weightAlign (weightTy f) x = false → (a.bankAt n).poison = [] →
        let rs := weightRows g f (weightTy f) x
        let stored (old : List Byte) : List Byte := storedRows g (a.bankAt n) f (weightTy f) (f.of 4 1 == 1) rs old
        (f.of 12 2 ≠ 1 → k.spcfg = none → (∀ q ∈ rs, b.padOk c c q.1 q.2 = true) → exec (.wstw f) s = .next (completed (b.setMe
          (b.me.padWriteAll rs (stored (rs.flatMap fun q => k.spad.readN q.1.toNat q.2)))) c .arr x)) ∧
        (∀ s1 ps, f.of 12 2 = 1 → b.xlateAll c .ws .store rs = (s1, .ok ps) →
          exec (.wstw f) s = .next (completed (State.writePieces s1.me.jobid (s1.mark b.walker .store ps) ps (stored (s1.readPieces ps))) c .arr x))) ∧
      (∀ s1 bs inputs,
        let kind := f.of 8 3
        let fmt := activation (f.of 11 3)
        let eb := fmt.width / 8
        let len := if kind = 0 then g.rows else if kind = 4 then 0 else g.width
        let forward := kind == 0 || kind == 4
        kind < 5 → g.state = .loaded →
        (kind = 2 ∨ kind = 3 → g.stashValid (f.of 4 4) = true ∨ ∃ y ∈ a.fwd, y.kind = 0 ∧ y.bank = n ∧ y.region = r ∧ y.tag = f.of 4 4) →
        (kind = 3 ∨ kind = 4 → hasG g.fmt = true) → x.sa.toNat % eb = 0 →
        ((x.stage ≠ 1 ∧ b.loadPad c .ws c 0 (if kind = 4 then [] else [((x.sa.toNat : Int), len * eb)]) = .ok s1 bs ∧
            inputs = widenInputs fmt len bs) ∨ (x.stage = 1 ∧ x.acc.length = len ∧ s1 = b ∧ inputs = x.acc)) →
        (kind ≠ 4 → s1.me.outRoom ≠ 0) → (if forward then s1.myArr.fwd else s1.myArr.bwd).length < 8 →
        let w : Wave :=
          { core := s1.ctx.core, jobid := s1.me.jobid, cmd := { x with stage := 0, acc := [] }, kind := kind, bank := n, region := r
            tag := f.of 4 4, afmt := f.of 11 3, inputs := inputs, nb := (x.sb.extractLsb' 0 32).toNat, base := x.sb.getLsbD 33
            skip := x.sb.getLsbD 32, entered := s1.clock, reg := g, draw := 0, cktol := 0, age := none, uc := 0, bu := false
            range := none, replays := 0, sums := [], runs := [], chk := posZero, mag := posZero, nf := false, failed := false
            restored := false, owed := false }
        let t := s1.setMyArr (if forward then { s1.myArr with fwd := s1.myArr.fwd ++ [w] } else { s1.myArr with bwd := s1.myArr.bwd ++ [w] })
        exec (.wadmit f) s = .next ((if kind = 4 then t else t.setMe { t.me with wroom := t.me.wroom + 1 }).popCmd c .arr))) ∧
    (HeadRuns s c .out x → (∀ y ∈ k.rngQ, x.ord ≤ y.ord) →
      let b := s.asCmd c .out x
      (∀ e rest s1 none_, takeOut (f.of 0 4) (f.of 4 1 == 1) k.wouts = some (e, rest) →
        let ty := NumTy.ofCode (f.of 5 4)
        let eb := ty.width / 8
        (e.failed = true ∧ s1 = b ∨ e.failed = false ∧ x.sa.toNat % eb = 0 ∧ b.storePad c c 0 [((x.sa.toNat : Int), e.vals.length * eb)]
          (e.vals.flatMap fun v => leBytes ((NumTy.flt f32).convert ty .rne 0 v.toNat).1 eb) = .ok s1 none_) →
        exec (.wcoll f) s = .next (completed ((s1.setMe { s1.me with
          wouts := rest
          wranges := (f.of 0 4, f.of 4 1 == 1, e.range.1, e.range.2) ::
            s1.me.wranges.filter fun r => !(r.1 == f.of 0 4 && r.2.1 == (f.of 4 1 == 1)) }).arriveOwn x.slot x.lm f.d e.word) c .out x))) ∧
    ((∀ y ∈ k.outQ, x.ord ≤ y.ord) →
      (f.of 5 2 = 0 → HeadRuns s c .rng x → exec (.wver f) s =
        .next (completed ((s.asCmd c .rng x).arriveOwn x.slot x.lm f.d (k.verRange (f.of 0 4) (f.of 4 1 == 1))) c .rng x)) ∧
      (f.of 5 2 ≠ 0 → HeadRuns s c .ver x → (∀ y ∈ k.arrQ, x.ord ≤ y.ord) → (∀ w ∈ a.fwd ++ a.bwd, w.core = c → x.ord ≤ w.cmd.ord) →
        k.bank = some n → (a.bankAt n).claim = some (k.asid, k.handle) →
        let b := s.asCmd c .ver x
        exec (.wver f) s = .next (completed ((if f.of 5 2 = 2 then b.setMyArr (a.setRegion n r { g with nf := false }) else b).arriveOwn
          x.slot x.lm f.d g.word) c .ver x)))

/-- WSAVE and WREST complete (R230, R231, R256, R257): under the lease, with no wavefront of the named banks in flight and the named banks
claimed (or, of a frozen array, with those in flight), WSAVE writes the image of the banks, their wavefronts and the recent ones; WREST of a
well-formed image whose claims agree gives the banks and the wavefronts back, whether a WSAVE of this package has made it or another. -/
def Sys2Proof.Machine.ArrayImagesCompleteRule : Prop :=
  ∀ (s s1 s2 s3 : State) (c : CoreId) (x : Cmd) (f : E), HeadRuns s c .arr x →
    let a := s.arr (clusterOf c)
    let k := s.core c
    let b := s.asCmd c .arr x
    let va := x.sa.toNat
    a.lease = some c → k.jobid ∉ a.forced → va % 64 = 0 →
    (∀ ps, (∀ n ∈ maskBanks (f.of 0 4), (a.bankAt n).claim = some (k.asid, k.handle)) →
      (a.frozen = true ∨ ∀ w ∈ a.flying, w.open_ = true → w.bank ∉ maskBanks (f.of 0 4)) →
      let m : ArrImage := ⟨s.seq, (maskBanks (f.of 0 4)).map fun n => (n, a.bankAt n),
        a.flying.filter fun w => (maskBanks (f.of 0 4)).contains w.bank && w.open_, a.recent⟩
      b.xlate b.walker k.asid.toNat (userOf c) .store va (m.bytes a.frozen (f.of 0 4)).length = (s1, .ok ps) →
      let t := (s1.mark b.walker .store ps).writeLong k.jobid ps (m.bytes a.frozen (f.of 0 4))
      exec (.wsave f) s = .next (completed { t with seq := t.seq + 1, arrImages := m :: t.arrImages } c .arr x)) ∧
    (∀ hd cnt bs, b.restWaits va = false → b.loadG c .ws false va 64 = .ok s1 hd → fieldAt hd 0 4 = imgFmt →
      let banks := maskBanks (fieldAt hd 4 4 / 2)
      s1.loadG c .ws false (va + 64 + 795152 * banks.length : Nat) 16 = .ok s2 cnt → fieldAt hd 8 8 = imageLen banks.length (leNat cnt) →
      s2.loadG c .ws false va (imageLen banks.length (leNat cnt)) = .ok s3 bs → s3.restClaims bs banks = true →
      let made := s3.arrImages.find? (fun m => m.banks.map (·.1) == banks && m.agrees banks.length (leNat cnt) bs)
      (∀ m, made = some m → exec (.wrest f) s = .next (completed (s3.restoreArray m bs) c .arr x)) ∧
      (made = none → exec (.wrest f) s = .next (completed (State.restoreArray { s3 with seq := s3.seq + leNat cnt }
        (ArrImage.ofBytes bs banks (leNat cnt) s3.seq) bs) c .arr x)))

/-- The events of an array complete (R212, R214, R218, R227, R238 to R240): in a frozen array nothing happens, but
that the wavefronts that have retired are gone; otherwise every wavefront in
flight that has cells left reaches those of its age, adding its products to its sums and, where it updates, writing the cells, and no other
cell and nothing else of the array changes; the candidate of the one edge that has one is admitted; an apply that has passed its last
cell commits, one step more of its bank unless it skips; a wavefront at its last age that passes its check fills an output entry of its job, one
that does not is re-admitted or raises CKS_FAIL. -/
def Sys2Proof.Machine.ArrayEventsCompleteRule : Prop :=
  ∀ (s : State) (n : Nat), s.ctx.ev.unit = n → n < 16 →
    let a := s.arr n
    (a.frozen = true → (∀ i, i = .wavefrontCellArrival ∨ i = .wavefrontAdmission ∨ i = .applyCommit → exec i s = .next s) ∧
      (a.lease ≠ none → exec .wavefrontDelivery s = .next (s.setArr n { a with flying := a.flying.filter Wave.open_ }))) ∧
    (a.frozen = false →
      (∃ t : WArray, exec .wavefrontCellArrival s = .next (s.setArr n t) ∧
        (let at_ (w : Wave) : List (Nat × Nat) := match w.age with
            | none => []
            | some m => if w.last ≤ m then [] else w.reaches m
          t = { a with flying := t.flying, banks := t.banks } ∧
          (t.flying = a.flying.map fun w => match w.age with
            | none => w
            | some m => if w.last ≤ m then w else
              { (at_ w).foldl (fun w rc => w.visit (a.bankAt w.bank) rc) w with age := some (m + 1) }) ∧
          ∀ q < 4, t.bankAt q = (a.flying.filter fun w => w.bank == q).foldl (fun k w => (at_ w).foldl (fun k rc => w.apply (a.bankAt q) k rc) k)
              (a.bankAt q) ∧
            (t.bankAt q).claim = (a.bankAt q).claim ∧ (t.bankAt q).steps = (a.bankAt q).steps ∧ (t.bankAt q).poison = (a.bankAt q).poison ∧
            ∀ i, (∀ w ∈ a.flying, w.bank = q → ∀ rc ∈ at_ w, w.reg.place rc.1 rc.2 ≠ i) → (t.bankAt q).cell i = (a.bankAt q).cell i)) ∧
      (∀ w, s.candidate n true = some w ∧ s.candidate n false = none ∨ s.candidate n false = some w ∧ s.candidate n true = none →
        exec .wavefrontAdmission s = .next (if w.replays = 0 then s.enterArray n w else s.setArr n (a.setWave { w with age := some 0 }))) ∧
      (∀ w, a.flying.filter (fun w => w.isA && w.age == some w.last) = [w] →
        exec .applyCommit s = .next ((s.setArr n ((if w.skip then a else
          a.setBank w.bank { a.bankAt w.bank with steps := (a.bankAt w.bank).steps + 1 }).setWave w.retired)).waveDone w)) ∧
      (∀ w, s.turnLease n = s → a.flying = [w] → w.isA = false → w.age = some w.last →
        ((w.failed = true ∨ w.passes = true) → exec .wavefrontDelivery s = .next (s.deliverWave n w)) ∧
        (w.failed = false → w.passes = false → a.beyondRetry w = false →
          exec .wavefrontDelivery s = .next (s.setArr n { a with flying := [w.again] })) ∧
        (w.failed = false → w.passes = false → a.beyondRetry w = true →
          exec .wavefrontDelivery s = .next ((s.setArr n (a.setWave { w with failed := true })).arrayTrap n
            { cause := 0x33, pc := some w.cmd.pc, detail := waveDetail w.bank w.region w.tag w.kind }))) ∧
      (∀ (w : Wave) (bank : Bank) (r c : Nat), perCell w.reg.fmt = 1 →
        let x := bank.cell (w.reg.place r c)
        (w.kind = 0 → (w.visit bank (r, c)).sums = w.sums.set c (BitVec.ofNat 32 (accAdd f32 (at32 w.sums c).toNat
          (mulVal (weight w.reg.fmt x.w 0) (val32 (at32 w.inputs r)))))) ∧
        ((w.kind = 1 ∨ w.kind = 2 ∨ w.kind = 3) → (w.visit bank (r, c)).sums = w.sums.set r (BitVec.ofNat 32 (accAdd f32 (at32 w.sums r).toNat
          (mulVal (weight w.reg.fmt x.w 0) (val32 (at32 w.inputs c)))))) ∧
        (w.kind = 0 ∨ w.kind = 1 → (w.newCell bank r c) = x) ∧
        (w.kind = 3 → (w.newCell bank r c) = { x with g := BitVec.ofNat 32 (accAdd f32 x.g.toNat
          (mulVal (val32 ((bank.region w.region).stash w.tag r)) (val32 (at32 w.inputs c)))) }) ∧
        (w.kind = 4 → w.skip = true → (w.newCell bank r c) = { x with g := 0 })))

/-- WSAVE and WREST complete (R230, R231, R256, R257): under the lease, with no wavefront of the named banks in flight and the named
banks claimed (or, of a frozen array, with those in flight), WSAVE writes the image of the banks, their wavefronts and the recent ones;
WREST of a well-formed image whose claims agree gives the banks and the wavefronts back, whether a WSAVE of this package has made it or
another. The events of an array complete (R212, R214, R218, R227, R238 to R240): in a frozen array nothing happens, but that the
wavefronts that have retired are gone; otherwise every wavefront in flight that has cells left reaches those of its age, adding its
products to its sums and, where it updates, writing the cells, and no other cell and nothing else of the array changes; the candidate of
the one edge that has one is admitted; an apply that has passed its last cell commits, one step more of its bank unless it skips; a
wavefront at its last age that passes its check fills an output entry of its job, one that does not is re-admitted or raises CKS_FAIL.
Where the manual leaves a point open it follows the model's reading (log entries 25, 26, 27). -/
def Obligations.ArrayImagesAndEventsComplete : Prop :=
  Sys2Proof.Machine.ArrayImagesCompleteRule ∧ Sys2Proof.Machine.ArrayEventsCompleteRule

/-! Collectives. -/

/-- The collective commands complete at their head (R374, R376, R378, R388 to R390, R380 to R382): what a member and its children
contribute stands in its parent's router, and with .bc it then waits for the result; it waits while a child's has yet to come; the root
combines its children's in their order and writes its result, and with .bc sends it down; a member that a result has come down to writes
it and sends it on; XBCAST's root writes and sends its source; each ends the epoch; XTREE loads its slot at every member once all have
come with the same bytes; a command that has failed completes; and a head whose timer has passed its limit fails its epoch, or its load,
for the whole tree.
Where the manual leaves a point open it follows the model's reading (log entries 19, 20). -/
def Obligations.CollectivesComplete : Prop :=
  ∀ (s : State) (f : E) (c : CoreId) (x : Cmd),
    let j := f.of 12 2
    let n := f.of 0 6 + 1
    let t := (s.core c).treeAt j
    let d := t.desc
    let kids := memKids d t.member
    let root : Prop := memParent d t.member = 0xFF
    let b := s.startTimer.asCmd c .coll x
    let src : List (Int × Nat) := [((x.sa.toNat : Int), 4 * n)]
    let waits (w : State) : Out := .next (w.cmdBlock s.startTimer c .coll .opn 0 0 0 true)
    (HeadRuns s.startTimer c .coll x → x.failing = true →
      exec (.xred f) s = .next (completed (if t.loaded then b.countEpoch j else b) c .coll x) ∧
      exec (.xbcast f) s = .next (completed (if t.loaded then b.countEpoch j else b) c .coll x) ∧
      (x.acc = [] → exec (.xtree f) s = .next (completed b c .coll x)) ∧
      (x.acc ≠ [] → exec (.xtree f) s = .next (completed
        (b.setDie (dieOf c) ((b.die (dieOf c)).leaveBad (s.core c).asid (descTag (descOf x)) c)) c .coll x))) ∧
    (HeadRuns s.startTimer c .coll x → x.failing = false → t.loaded = true → t.fails = [] →
      (∀ s1 own next s2 acc left,
        (x.stage = 1 ∧ s1 = b ∧ own = x.acc ∧ next = x.next ∨
          x.stage = 0 ∧ x.sa.toNat % 4 = 0 ∧ (root ∨ f.of 6 1 = 1 → x.sb.toNat % 4 = 0 ∧ b.padOk c c x.sb.toNat (4 * n) = true) ∧
          b.padOk c c x.sa.toNat (4 * n) = true ∧
          ∃ s0 bs, b.loadPad c .xs c 0 src = .ok s0 bs ∧ own = wordsOf n bs ∧ s1 = s0.progress 1 own 0 ∧ next = 0) →
        s1.differing c t t.epoch = 0 →
        State.combine c t (f.of 9 3) (f.of 7 2) (kids.drop next) s1 own = (s2, acc, left) →
        let s3 := s2.progress 1 acc (kids.length - left.length)
        (left ≠ [] → exec (.xred f) s = waits s3) ∧
        (∀ s4 u, left = [] → root → s3.storePad c c 0 [((x.sb.toNat : Int), 4 * acc.length)] (bytesOf acc) = .ok s4 u →
          exec (.xred f) s = .next (completed
            (if f.of 6 1 = 1 then (s4.countEpoch j).sendDown c t (f.of 0 12) acc else s4.countEpoch j) c .coll x)) ∧
        (left = [] → ¬root →
          ((s3.die (dieOf c)).partials.filter fun q =>
            q.load == t.load && q.router == memParent d t.member && q.child == t.member).length < 2 →
          let s4 := s3.setDie (dieOf c) { s3.die (dieOf c) with partials := (s3.die (dieOf c)).partials ++
            [⟨t.load, memParent d t.member, t.member, t.epoch, f.of 0 12, acc⟩] }
          exec (.xred f) s = if f.of 6 1 = 1 then waits (s4.progress 2 acc 0) else .next (completed (s4.countEpoch j) c .coll x))) ∧
      (∀ s1 ws s2 u, root →
        (x.stage = 1 ∧ s1 = b ∧ ws = x.acc ∨
          x.stage = 0 ∧ x.sa.toNat % 4 = 0 ∧ x.sb.toNat % 4 = 0 ∧ b.padOk c c x.sa.toNat (4 * n) = true ∧
          b.padOk c c x.sb.toNat (4 * n) = true ∧
          ∃ s0 bs, b.loadPad c .xs c 0 src = .ok s0 bs ∧ ws = wordsOf n bs ∧ s1 = s0.progress 1 ws 0) →
        s1.differing c t t.epoch = 0 → s1.storePad c c 0 [((x.sb.toNat : Int), 4 * ws.length)] (bytesOf ws) = .ok s2 u →
        exec (.xbcast f) s = .next (completed ((s2.countEpoch j).sendDown s2.ctx.core t (4096 + f.of 0 6) ws) c .coll x)) ∧
      (∀ s1 p s2 s3 u, ¬root →
        (x.stage = 1 ∧ s1 = b ∨
          x.stage = 0 ∧ x.sb.toNat % 4 = 0 ∧ b.padOk c c x.sb.toNat (4 * n) = true ∧ s1 = b.progress 1 [] 0) →
        s1.differing c t t.epoch = 0 → s1.takeDown t = some (p, s2) →
        s2.storePad c c 0 [((x.sb.toNat : Int), 4 * p.vals.length)] (bytesOf p.vals) = .ok s3 u →
        exec (.xbcast f) s = .next (completed ((s3.countEpoch j).sendDown s3.ctx.core t (4096 + f.of 0 6) p.vals) c .coll x)) ∧
      (∀ p s1 s2 u, x.stage = 2 → b.takeDown t = some (p, s1) →
        s1.storePad c c 0 [((x.sb.toNat : Int), 4 * p.vals.length)] (bytesOf p.vals) = .ok s2 u →
        exec (.xred f) s = .next (completed ((s2.countEpoch j).sendDown s2.ctx.core t (f.of 0 12) p.vals) c .coll x))) ∧
    (∀ s2 desc, HeadRuns s.startTimer c .coll x → x.failing = false →
      (x.stage = 1 ∧ s2 = b ∧ desc = descOf x ∨
        x.stage = 0 ∧ x.sa.toNat % 8 = 0 ∧ b.padOk c c x.sa.toNat 8 = true ∧
        (let len := 8 + 16 * ((s.core c).spad.read x.sa.toNat).toNat
        b.padOk c c x.sa.toNat len = true ∧
        ∃ s1, b.loadPad c .xs c 0 [((x.sa.toNat : Int), len)] = .ok s1 desc ∧ s2 = s1.progress 1 (wordsOf (len / 4) desc) 0) ∧
        descOk desc (localOf c) = true ∧
        (∀ i, i < 4 → i ≠ j → ((s.core c).treeAt i).loaded = true → descTag ((s.core c).treeAt i).desc ≠ descTag desc) ∧
        (s.die (dieOf c)).badTree (s.core c).asid (descTag desc) c = none) →
      let ms := memberCores desc c
      (∀ m ∈ ms, s2.loading m s2.me.asid (descTag desc) ≠ none) → s2.otherBytes c desc = 0 →
      s2.tagHeld c s2.me.asid (descTag desc) ms = false →
      exec (.xtree f) s = .next (completed
        (({ State.loadOthers (descTag desc) s2.seq ms s2 with seq := s2.seq + 1 }).loadTree c j desc s2.seq) c .coll x)) ∧
    (s.guard = true → s.me.collQ = [] →
      let own := s.me.treeAt j
      exec (.xrstat f) s = .next (s.arriveS f.d (if f.of 0 1 = 1 then
        (if own.loaded then (match own.fails with | [] => 0 | e :: _ => e.2.2) else 0) else own.status)).retire) ∧
    (∀ rest, s.ctx.ev.unit = c.val → (s.core c).collQ = x :: rest → x.limit ≠ 0 → x.limit + 1 < x.timer → x.trapped = false →
      x.failing = false →
      (∀ r, redOf x = some (j, r) → t.loaded = true →
        exec .redTimeout s = .next (s.failEpoch c t t.epoch 0x24 (s.missingMembers c t t.epoch) (c, none))) ∧
      (redOf x = none → descOk ((s.core c).treeDesc x) (localOf c) = true →
        exec .redTimeout s = .next (s.timeoutLoad c ((s.core c).treeDesc x) (c, none))))

/-! Links. -/

/-- The link commands complete at their head (R402, R404, R409, R410, R400, R394), with no fault of the XS pending: LSEND from memory and from
the scratchpad and LSEND.c send, the last with its residuals kept; LARM arms its trigger, which fires at once where the counter has its threshold; LARM.dis disarms; LRECV
opens a post and closes one. -/
def Sys2Proof.Machine.LinkCommandsCompleteRule : Prop :=
  ∀ (s : State) (f : E) (c : CoreId) (x : Cmd), HeadRuns s c .link x → (s.strm c .xs).faults.filter linkFault = [] →
    let b := (s.asCmd c .link x).drainStream c .xs
    let d := dieOf c
    let asid := b.me.asid
    let post := f.of 0 6
    let len := (x.sb.extractLsb' 0 32).toNat
    let roff := (x.sb.extractLsb' 32 32).toNat
    let ctr := (x.sd.extractLsb' 8 8).toNat
    let even : Prop := x.sa.toNat % 8 = 0 ∧ len % 8 = 0 ∧ roff % 8 = 0
    (∀ p s1 ps, f.of 6 1 = 0 → f.of 7 1 = 0 → b.peerOf x post false = .ok p → even → b.sourceCheck false x.sa.toNat len = (s1, .ok ps) →
      exec (.lsend f) s = .next ((s1.sendNow x p post false none len).popCmd c .link)) ∧
    (∀ p, f.of 6 1 = 0 → f.of 7 1 = 1 → b.peerOf x post false = .ok p → even → b.me.padHeld [((x.sa.toNat : Int), len)] = false →
      (len = 0 ∨ b.padOk c c x.sa.toNat len = true) →
      exec (.lsend f) s = .next ((b.sendNow x p post true none len).popCmd c .link)) ∧
    (∀ p s0 s1 ps rs m bs s3 s4, f.of 6 1 = 1 → b.peerOf x post false = .ok p → x.sa.toNat % 4 = 0 →
      let pad := f.of 7 1 == 1
      let w : Walker := .strm c .xs
      let res := (x.more[0]?.getD 0).toNat
      res % 4 = 0 → len % 8 = 0 → roff % 4 = 0 → (pad = true → b.me.padHeld [((x.sa.toNat : Int), len)] = false) →
      b.sourceCheck pad x.sa.toNat len = (s0, .ok ps) → s0.spanOk .atomic res len = (s1, .ok rs) →
      let s2 := (s1.mark w .load ps).mark w .atomic rs
      (if pad then (s2, b.me.padRead x.sa.toNat len) else State.readSeen b.me.jobid ps s2) = (m, bs) →
      m.consume c .xs false (if pad then 0 else 2) x.pc (if pad then b.me.padBad c x.sa.toNat len else s2.badLines ps) = (s3, none) →
      s3.consume c .xs false 2 x.pc (s2.badLines rs) = (s4, none) →
      let out := compressAll (wordsAt (if pad then List.replicate (len / 4) none else wordPlaces ps) bs)
        (wordsAt (wordPlaces rs) (s2.readClean rs)) []
      exec (.lsend f) s =
        .next (((State.writePieces b.me.jobid s4 rs out.2).sendNow x p post pad (some out.1) (len / 2)).popCmd c .link)) ∧
    ((∀ p s1 ps, b.peerOf x post true = .ok p → even → b.sourceOk x.sa.toNat len = (s1, .ok ps) → ctr < ((s1.die d).grant asid).nctr →
        (s1.die d).triggers.length < 1024 →
        ((s1.die d).triggers.filter fun t => t.asid == asid).length < ((s1.die d).grant asid).trigq →
        let armed := State.setDie { s1 with seq := s1.seq + 1 } d { s1.die d with
          triggers := (s1.die d).triggers ++ [⟨asid, ctr, (x.sd.extractLsb' 32 32).toNat, x, b.me.jobid, c, s1.seq⟩] }
        exec (.larm f) s = .next ((armed.counterEvent d asid ctr ((s1.die d).ctr asid ctr)).popCmd c .link)) ∧
      (ctr < ((b.die d).grant asid).nctr → exec (.larmDis f) s = .next (completed (b.setDie d { b.die d with
        triggers := (b.die d).triggers.filter fun t => !(t.asid == asid && t.ctr == ctr) }) c .link x))) ∧
    (len = 0 → exec (.lrecv f) s = .next (completed (b.setDie d ((b.die d).dropPost asid post)) c .link x)) ∧
    (∀ s1 ps,
      let ctr := (x.sb.extractLsb' 32 8).toNat
      let code := (x.sb.extractLsb' 40 4).toNat
      let chunk := 128 * 2 ^ code
      len ≠ 0 → (b.die d).post asid post = none → code ≤ 9 → x.sa.toNat % 128 = 0 → len % chunk = 0 → ctr < ((b.die d).grant asid).nctr →
      b.xlate (.strm c .xs) asid.toNat (userOf c) .store x.sa.toNat len = (s1, .ok ps) →
      let m := s1.mark (.strm c .xs) .store ps
      exec (.lrecv f) s = .next (completed ((m.setDie d { m.die d with
        posts := ⟨asid, post, x.sa.toNat, len, chunk, ctr, []⟩ :: (m.die d).posts }).drainPorts) c .link x))

/-- What a send enters (R396, R404, R398): over a link that is up a send with bytes stands last in the transmit order, unacknowledged; with no
bytes it is complete at once. -/
def Sys2Proof.Machine.SendEntersRule : Prop :=
  ∀ (s : State) (x : Send),
    (x.len ≠ 0 → (s.link x.peer.link).up = true → s.enterSend x = { s with seq := s.seq + 1, sends := s.sends ++ [{ x with ord := s.seq }] }) ∧
    (x.len = 0 → (s.enterSend x).sends = s.sends) ∧
    (x.len ≠ 0 → (s.link x.peer.link).up = false → s.enterSend x = s.failSend x 0x25 0 0)

/-- The link commands complete at their head (R402, R404, R409, R410, R400, R394), with no fault of the XS pending: LSEND from memory
and from the scratchpad and LSEND.c send, the last with its residuals kept; LARM arms its trigger, which fires at once where the counter
has its threshold; LARM.dis disarms; LRECV opens a post and closes one. What a send enters (R396, R404, R398): over a link that is up a
send with bytes stands last in the transmit order, unacknowledged; with no bytes it is complete at once.
Where the manual leaves a point open it follows the model's reading (log entries 13, 46). -/
def Obligations.LinkCommandsAndSends : Prop :=
  Sys2Proof.Machine.LinkCommandsCompleteRule ∧ Sys2Proof.Machine.SendEntersRule

/-- The link instructions of the XS itself complete (R394, R411 to R413, R405), with no link command before them and no fault pending: each
form of LCTR on a granted counter gives its value, the wait once it has reached the operand, or the value with which it did, the set and the add with the counter's new
value, which saturates; LSTEP once the step counter has reached its operand; LSTAT.
Where the manual leaves a point open it follows the model's reading (log entry 46). -/
def Obligations.LinkInstructionsComplete : Prop :=
  ∀ (s : State) (f : E), s.guard = true → s.me.linkQ = [] → s.str.faults.filter linkFault = [] →
    let d := dieOf s.ctx.core
    let n := (s.getS f.b).toNat % 256
    let v := (s.die d).ctr s.me.asid n
    let a := s.getS f.a
    let out (w : Word) : Out := .next (s.arriveS f.d w).retire
    (n < ((s.die d).grant s.me.asid).nctr →
      exec (.lctrRd f) s = out (BitVec.ofNat 64 v) ∧
      (s.granted .link = none → a.toNat % 2 ^ 32 ≤ v → exec (.lctrWait f) s = out (BitVec.ofNat 64 v)) ∧
      (∀ w, s.granted .link = some w → exec (.lctrWait f) s = out w) ∧
      exec (.lctrSet f) s = .next ((((s.drainStream s.ctx.core s.ctx.strm).counterEvent d s.me.asid n (a.toNat % 2 ^ 32)).arriveS f.d
        (BitVec.ofNat 64 v)).retire) ∧
      exec (.lctrAdd f) s = .next ((((s.drainStream s.ctx.core s.ctx.strm).counterEvent d s.me.asid n
        (min (v + a.toNat % 2 ^ 32) 0xFFFFFFFF)).arriveS f.d (BitVec.ofNat 64 v)).retire)) ∧
    (((s.die d).grant s.me.asid).nctr ≤ n → exec (.lctrRd f) s = .next (s.raiseOwn s.ctx.core s.ctx.strm { cause := 0x11 })) ∧
    (a.toNat ≤ s.gsc.toNat → exec (.lstep f) s = out s.gsc) ∧
    (f.of 0 2 = 0 → a.toNat ≤ 11 → exec (.lstat f) s = out (s.link a.toNat).word) ∧
    (f.of 0 2 = 1 → a.toNat ≤ 63 → exec (.lstat f) s =
      out (match (s.die d).post s.me.asid a.toNat with | some p => p.word | none => 0)) ∧
    (f.of 0 2 = 2 → exec (.lstat f) s = out ((s.die d).trigWord s.me.asid))

/-- The events of the links complete (R392, R393, R397 to R399, R320, R321, R405): an arriving message waits at a closed post and is
performed at an open one, or refused, and a later message of a refused send goes unperformed; a peer's load, store and atomic are
answered, refused with code 3 where no peer entry admits them; acknowledged groups leave the retransmit buffer; an acknowledged last
message ends its send, and a refused send fails; a replay counts; a link goes down with its sends, its waiting messages and the P accesses
that await an answer over it, of saved jobs too; training brings it up; a message that has waited is refused; the step counter steps, and a module of a
domain joins.
Where the manual leaves a point open it follows the model's reading (log entries 7, 13). -/
def Obligations.LinkEventsComplete : Prop :=
  ∀ (s : State) (l : Nat), s.ctx.ev.unit = l → l < 12 →
    let k := s.link l
    (∀ m, s.ctx.ev.data = .msg m → k.arrived = [] →
      let here := s.setLink l { k with arrived := [m] }
      (k.refused.any (fun x => sameSend x m) = true →
        exec .linkMessageArrival s = .next (here.setLink l { k with arrived := [], waited := 0 })) ∧
      (k.refused.any (fun x => sameSend x m) = false →
        (here.perform l m = none → exec .linkMessageArrival s = .next here) ∧
        (∀ s1 code, here.perform l m = some (s1, code) → exec .linkMessageArrival s =
          .next (if code = 0 then (s1.setLink l { s1.link l with arrived := [], waited := 0, refused := none }).answer (.performed l)
            else (s1.setLink l { s1.link l with arrived := [], waited := 0, refused := some m }).answer (.refused l code))))) ∧
    (∀ p, s.ctx.ev.data = .peer p →
      let d : Fin 2 := ⟨p.rdie % 2, Nat.mod_lt _ (by decide)⟩
      let w : Walker := .die d
      ((s.die d).accepts l p.chip p.sasid p.asid = false → exec .peerAccessArrival s = .next (s.answer (.refused l 3))) ∧
      ((s.die d).accepts l p.chip p.sasid p.asid = true →
        (∀ s1 ps, p.write = none → p.atomic = none → s.xlate w p.asid true .load p.va p.size = (s1, .ok ps) →
          let m := s1.mark w .load ps
          exec .peerAccessArrival s =
            .next ((if m.badLines ps = [] then m else m.answer (.poisoned l)).answer (.data (m.readClean ps)))) ∧
        (∀ s1 ps bs, p.write = some bs → p.atomic = none → s.xlate w p.asid true .store p.va bs.length = (s1, .ok ps) →
          exec .peerAccessArrival s = .next ((State.writePieces 0 (s1.mark w .store ps) ps bs).answer (.performed l))) ∧
        (∀ s1 ps op ty v e, p.write = none → p.atomic = some (op, ty, v, e) →
          s.xlate w p.asid true .atomic p.va p.size = (s1, .ok ps) →
          let old := s1.readPieces ps
          (s1.badLines ps ≠ [] → exec .peerAccessArrival s = .next (s1.answer (.poisoned l))) ∧
          (s1.badLines ps = [] → exec .peerAccessArrival s = .next (match peerAtomic op ty (8 * p.size) (leNat old) v e with
            | some y => (State.writePieces 0 (s1.mark w .atomic ps) ps (leBytes y p.size)).answer (.data old)
            | none => (s1.mark w .load ps).answer (.data old)))))) ∧
    (s.ctx.ev.flag = true → exec .sendAcknowledged s = .next (s.setLink l (k.ackFlits s.ctx.ev.val2))) ∧
    (∀ x, s.ctx.ev.flag = false → s.sends.find? (fun y => y.link == l) = some x → s.sendOf x.ord = some x →
      (∀ m, s.ctx.ev.val = 0 → s.ctx.ev.val2 = 1 → x.sent = x.len → k.wire = [m] → x.acked < x.len → x.acked + m.bytes.length = x.len →
        exec .sendAcknowledged s = .next (((s.setLink l { k with wire := [], unacked := 0, idle := 0 }).dropSend x).endSend
          { x with acked := x.acked + m.bytes.length })) ∧
      (s.ctx.ev.val ≠ 0 → x.sent ≠ 0 → exec .sendAcknowledged s =
        .next (((s.setLink l (k.dropWire (x.flights k.wire))).dropSend x).failSend x 0x14 0 s.ctx.ev.val))) ∧
    exec .goBackReplay s = .next (s.setLink l { k with replays := min (k.replays + 1) 0xFFFFFFFF }) ∧
    (let down := s.setLink l { k with up := false, aligned := false, wire := [], unacked := 0, idle := 0, held := 0 }
     exec .linkDown s = .next (State.failSends (s.sends.filter fun x => x.link == l) { down with
        cores := s.cores.map (fun k => { k with streams := k.streams.map (fun t => t.linkFails l s.clock) })
        saved := s.saved.map (fun x => { x with core := { x.core with streams := x.core.streams.map (fun t => t.linkFails l s.clock) } }) })) ∧
    exec .linkTraining s = .next (s.setLink l
      { k with up := true, chip := BitVec.ofNat 16 s.ctx.ev.val, aligned := s.ctx.ev.flag && s.summer, idle := 0, held := 0 }) ∧
    (∀ m, k.arrived = [m] → exec .postWaitTimeout s =
      .next ((s.setLink l { k with arrived := [], waited := 0, refused := some m }).answer (.refused l 1))) ∧
    exec .gscStep s = .next { s with gsc := s.gsc + 1, phase := 0 } ∧
    (s.inDomain = false → exec .gscJoin s = .next s) ∧
    (s.inDomain = true →
      let j := { s with gsc := BitVec.ofNat 64 (max s.gsc.toNat s.ctx.ev.val) }
      exec .gscJoin s = .next (if s.ctx.ev.flag = true then { j with
        phase := s.ctx.ev.val2 % s.steplen, links := s.links.map (fun l => { l with aligned := l.up }) } else j))

/-! The host side. -/

/-- The writes of a die's register window complete (R75, R445 to R447, R394, R392): a TAIL of a host-fed queue that keeps within the
capacity; a field of a disabled queue's descriptor; the disabling of an enabled queue; the irq bits cleared by ones; the layer request; a peer
entry; a counter window; the other registers; a write that the rules refuse, also of a peer entry or a counter window, is logged with cause
0x62 and changes nothing else. Each is answered by its
completion (R444); an access that is not of 8 aligned bytes is answered by an error, and does nothing (R445). -/
def Obligations.WindowWritesComplete : Prop :=
  ∀ (s : State) (d : Fin 2), s.ctx.ev.unit = d.val →
    let x := s.die d
    let n := s.ctx.ev.sub
    let q := x.queue n
    let v := s.ctx.ev.val
    let w := BitVec.ofNat 64 v
    let put (y : Die) : Out := .next ((s.setDie d y).answer .written)
    (n < 64 → v < 2 ^ 64 →
      (q.src = true → v < 2 ^ 32 → (BitVec.ofNat 32 v - q.head).toNat ≤ 2 ^ q.log2cap.toNat →
        exec .hostTailWrite s = put (x.setQueue n { q with tail := BitVec.ofNat 32 v })) ∧
      (q.src = true → (2 ^ 32 ≤ v ∨ 2 ^ q.log2cap.toNat < (BitVec.ofNat 32 v - q.head).toNat) →
        exec .hostTailWrite s = put (x.logErr #v[0x61, BitVec.ofNat 64 n, 0, 0])) ∧
      (q.en = false →
        (s.ctx.ev.val2 = 8 → v < 2 ^ 13 → exec .queueDescriptorWrite s = put (x.setQueue n { q with asid := BitVec.ofNat 13 v })) ∧
        (s.ctx.ev.val2 = 16 → v < 2 ^ 48 → v % 32 = 0 →
          exec .queueDescriptorWrite s = put (x.setQueue n { q with base := BitVec.ofNat 48 v })) ∧
        (s.ctx.ev.val2 = 24 → v < 2 ^ 48 → v % 8 = 0 →
          exec .queueDescriptorWrite s = put (x.setQueue n { q with sbase := BitVec.ofNat 48 v })) ∧
        (s.ctx.ev.val2 = 48 → exec .queueDescriptorWrite s = put (x.setQueue n { q with aff := w })) ∧
        (s.ctx.ev.val2 = 16 → v % 32 ≠ 0 → exec .queueDescriptorWrite s = put (x.logErr #v[0x62, BitVec.ofNat 64 n, 0, 0]))) ∧
      (s.ctx.ev.val2 % 8 ≠ 0 → exec .queueDescriptorWrite s = .next (s.answer .error)) ∧
      (s.ctx.ev.val2 = 40 → exec .queueDescriptorWrite s = exec .hostTailWrite s) ∧
      (q.en = true → (s.ctx.ev.val2 = 8 ∨ s.ctx.ev.val2 = 16 ∨ s.ctx.ev.val2 = 24 ∨ s.ctx.ev.val2 = 48) →
        exec .queueDescriptorWrite s = put (x.logErr #v[0x62, BitVec.ofNat 64 n, 0, 0])) ∧
      (q.en = true → v = (CQueue.ctl { q with en := false }).toNat →
        exec .queueDisableWrite s = put (x.setQueue n { q with en := false }))) ∧
    exec .hostirqClear s = put { x with hostirq := x.hostirq &&& ~~~w } ∧
    exec .layerpwrWrite s = put { x with layerReq := w.getLsbD 0 } ∧
    (v < 2 ^ 35 → v / 2 % 16 ≤ 11 → exec .peerdataWrite s = put { x with
      peers := ⟨x.asidsel, x.peersel.toNat, w.getLsbD 0, v / 2 % 16, w.extractLsb' 5 16, w.getLsbD 21, w.extractLsb' 22 13⟩ ::
        x.peers.filter fun p => !(p.asid == x.asidsel && p.n == x.peersel.toNat) }) ∧
    (v < 2 ^ 64 → (2 ^ 35 ≤ v ∨ 11 < v / 2 % 16) → exec .peerdataWrite s = put (x.logErr #v[0x62, 0, 0, 0])) ∧
    (v < 2 ^ 64 → (v ≠ v % 512 + v / 65536 % 512 * 65536 ∨ 256 < v % 512 ∨ 256 < v / 65536 % 512) →
      exec .nctrWrite s = put (x.logErr #v[0x62, 0, 0, 0])) ∧
    (v % 2 ^ 64 = v % 512 + v / 65536 % 512 * 65536 → v % 512 ≤ 256 → v / 65536 % 512 ≤ 256 →
      exec .nctrWrite s = put (x.setNctr x.asidsel (v % 512) (v / 65536 % 512))) ∧
    (s.ctx.ev.val2 = 8 →
      (n = 0x20 → exec .windowWrite s = put { x with irqen := w }) ∧
      (n = 0x40 → exec .windowWrite s = put { x with asidsel := w.setWidth 13 }) ∧
      (n = 0x48 → exec .windowWrite s = put { x with peersel := w.setWidth 4 }) ∧
      (n = 0x60 → exec .windowWrite s = put (x.setGrant { x.grant x.asidsel with tenant := w })) ∧
      ((n = 0 ∨ n = 8 ∨ n = 0x68) → exec .windowWrite s = put x)) ∧
    ((s.ctx.ev.val2 ≠ 8 ∨ n % 8 ≠ 0) → exec .windowWrite s = .next (s.answer .error))

/-- The host die's accesses complete (R443 to R445): bytes written to device memory stand there, and a read of lines that are not poisoned
answers with memory's bytes, where all of them lie in one range of memory, of which a die's two layers are one (R18); outside memory the
answer is an error; 8 aligned bytes of a die's register window are read and written, and any
other access to it is refused with an error.
Where the manual leaves a point open it follows the model's reading (log entry 45). -/
def Obligations.HostAccessCompletes : Prop :=
  ∀ (s : State) (bs : List Byte),
    let a := s.ctx.ev.val
    let n := s.ctx.ev.val2
    let off := s.ctx.ev.sub
    (s.ctx.ev.flag = false → s.ctx.ev.data = .bytes bs → bs ≠ [] →
      (s.physOk a = true → s.physOk (a + bs.length - 1) = true → sameRange a (a + bs.length - 1) = true →
        exec .hostCoherentAccess s = .next ((s.pwriteN 0 a bs).answer .written)) ∧
      (s.physOk a = false → exec .hostCoherentAccess s = .next (s.answer .error))) ∧
    (s.ctx.ev.flag = false → s.ctx.ev.data = .none → n ≠ 0 → s.physOk a = true → s.physOk (a + n - 1) = true → sameRange a (a + n - 1) = true →
      (∀ l ∈ linesOf a n, s.poison.contains l = false) →
      exec .hostCoherentAccess s = .next (s.answer (.data (s.mem.readN a n)))) ∧
    (∀ d : Fin 2, s.ctx.ev.flag = true → s.ctx.ev.unit = d.val →
      (s.ctx.ev.data = .bytes bs → exec .hostCoherentAccess s = .next (if bs.length = 8 ∧ off % 8 = 0 then
        (s.setDie d ((s.die d).windowWrite (off % 65536) (BitVec.ofNat 64 (leNat bs)))).answer .written else s.answer .error)) ∧
      (s.ctx.ev.data = .none → exec .hostCoherentAccess s = .next (s.answer (if n = 8 ∧ off % 8 = 0 then
        .data (leBytes (s.windowRead d (off % 65536)).toNat 8) else .error)))) ∧
    (s.mem.wf = true → ∀ i, i < bs.length → (s.pwriteN 0 a bs).mem.read (a + i) = bs.getD i 0)

/-- The steps of bring-up and the DRAM layers complete (R448, R456 to R459, R461 to R463): power on at step 1; the firmware image verified;
the configuration image, which brings the die to Spring with cluster 0 and layer 0 zeroed, or fails with its code; Summer, with
layer 1 and LPDDR zeroed; a page of layer 1 moves, a layer with nothing allocated loses its power, and a requested one gets it back zeroed;
power removal clears the device; a reset and a fault leave the die in Winter with no job, where its queues keep HEAD and TAIL (log entry 33)
and a record that it had taken and not finished has ended with 0x09.
Where the manual leaves a point open it follows the model's reading (log entries 33, 34, 35). -/
def Obligations.BringUpCompletes : Prop :=
  ∀ (s : State) (d : Fin 2),
    let x := s.die d
    (s.ctx.ev.unit = d.val →
      (x.bootStep = 0 → ∃ t, exec .powerOn s = .next t ∧ (t.die d).bootStep = 1 ∧ (t.die d).state = 0 ∧
        (t.die d).window = (if s.ctx.ev.flag then some s.ctx.ev.val else x.window) ∧
        ∀ q, q < 64 → ((t.die d).queue q).en = false ∧ ((t.die d).queue q).head = (x.queue q).head ∧
          ((t.die d).queue q).tail = (x.queue q).tail) ∧
      (∀ f, s.ctx.ev.data = .firmware f → x.state = 0 → x.bootStep = 1 → x.bootCode = 0 →
        (f.rsaOk = true → f.slhOk = true → exec .firmwareImageDelivery s =
          .next (State.setDie { s with hazel := f.hazel } d { x with bootStep := 2, bootCode := 0, firmware := f.digest })) ∧
        ((f.rsaOk = false ∨ f.slhOk = false) →
          exec .firmwareImageDelivery s = .next (s.setDie d { x with bootStep := 2, bootCode := 1 }))) ∧
      (∀ f, s.ctx.ev.data = .config f → x.state = 0 → x.bootStep = 2 → x.bootCode = 0 →
        ((f.rsaOk = false ∨ f.slhOk = false) →
          exec .configurationImageDelivery s = .next (s.setDie d { x with bootStep := 3, bootCode := 2 })) ∧
        (f.rsaOk = true → f.slhOk = true → f.trained = false →
          exec .configurationImageDelivery s = .next (s.setDie d { x with bootStep := 4, bootCode := 3 })) ∧
        (f.rsaOk = true → f.slhOk = true → f.trained = true → ∃ t, exec .configurationImageDelivery s = .next t ∧
          (t.die d).state = 1 ∧ (t.die d).bootStep = 5 ∧ (t.die d).bootCode = 0 ∧ t.chipid = f.chip ∧
          (t.die d).identity = Config.identityKey d.val f.seed ∧ (t.die d).repairs = f.repairs ∧ (t.die d).trims = f.trims ∧
          (∀ c : CoreId, isSystem c = false → dieOf c = d → clusterOf c % 8 = 0 → t.core c = Core.reset) ∧
          (∀ a, s.mem.wf = true → d.val * 0x2000000000 ≤ a → a < d.val * 0x2000000000 + 0xC00000000 → t.mem.read a = 0))) ∧
      (x.state = 1 → s.ctx.ev.flag = false → ∃ t, exec .summerTransition s = .next t ∧ (t.die d).state = 2 ∧ (t.die d).ready = true ∧
        (t.die d).bootStep = 7 ∧ (t.die d).layerOn = x.layerReq ∧
        (∀ c : CoreId, isSystem c = false → dieOf c = d → clusterOf c % 8 ≠ 0 → t.core c = Core.reset) ∧
        (∀ a, s.mem.wf = true → (layer1Base d ≤ a ∧ a < layer1Base d + 0xC00000000 ∨
          0x100000000000 + d.val * 0x10000000000 ≤ a ∧ a < 0x108000000000 + d.val * 0x10000000000) → t.mem.read a = 0)) ∧
      (x.state = 1 → s.ctx.ev.flag = true → exec .summerTransition s = .next (s.setDie d { x with bootStep := 6, bootCode := 4 })) ∧
      (x.state = 2 → x.layerOn = true → x.layerReq = false →
        (s.ctx.ev.flag = true → s.inUse (layer1Base d) layerSize = true → exec .layer1PowerOff s = .next s) ∧
        (s.ctx.ev.flag = true → s.inUse (layer1Base d) layerSize = false → ∃ t, exec .layer1PowerOff s = .next t ∧
          t.die d = { x with layerOn := false, layerMove := false } ∧
          (∀ a, s.mem.wf = true → layer1Base d ≤ a → a < layer1Base d + 0xC00000000 → t.mem.read a = 0)) ∧
        (let src := s.ctx.ev.val
         let dst := s.ctx.ev.val2
         let n := s.pageAt src
         s.ctx.ev.flag = false → s.placeable src dst n = true → tierOf src = some (.layer1 d) → tierOf dst = some (.layer0 d) →
         tierOf (src + n - 1) = some (.layer1 d) → tierOf (dst + n - 1) = some (.layer0 d) → s.movable src n = true → s.inUse dst n = false →
         let m := s.moveAll src dst n
         exec .layer1PowerOff s = .next (m.setDie d { m.die d with layerMove := true }))) ∧
      (x.state = 2 → x.layerOn = false → x.layerReq = true → ∃ t, exec .layer1PowerOn s = .next t ∧
        t.die d = { x with layerOn := true, layerMove := false } ∧
        (∀ a, s.mem.wf = true → layer1Base d ≤ a → a < layer1Base d + 0xC00000000 → t.mem.read a = 0)) ∧
      (let inWinter (t : State) (step : Nat) : Prop :=
         (t.die d).state = 0 ∧ (t.die d).bootStep = step ∧
         (∀ q, q < 64 → ((t.die d).queue q).en = false ∧ ((t.die d).queue q).head = (x.queue q).head ∧
           ((t.die d).queue q).tail = (x.queue q).tail) ∧
         (∀ c, dieOf c = d → t.core c = Core.reset) ∧
         ∀ c, dieOf c = d → isSystem c = false → (s.core c).active = true →
           (∀ c', c' ≠ c → dieOf c' = d → isSystem c' = false → (s.core c').active = false) → (∀ y ∈ s.saved, y.die ≠ d.val) →
           (∀ y ∈ s.sends, y.link / 6 = d.val → dieOf y.core = d) →
           t.mem = ((s.releaseJob c true).writeStatus ((s.core c).statusAt (s.core c).homeDie)
             (statusWord (s.core c).jobid (localOf (s.core c).dispatched) 0 9)).mem
       (∃ t, exec .dieReset s = .next t ∧ inWinter t 1) ∧ ∃ t, exec .returnToWinterThroughFault s = .next t ∧ inWinter t 0)) ∧
    (∃ t, exec .powerRemoval s = .next t ∧ t.mem = [] ∧ t.cores = State.reset.cores ∧ t.dies = State.reset.dies)

/-- Attestation, the loader and Hazel complete, the loader as the event of log entry 48 (R450 to R455, R460): a die in operation answers a nonce with the report of R460 and its
signatures, one in Winter with an error. Supervisor software assigns a tenant's region; an object that no variant fits is refused with its
code, and a native one is relocated and placed; Hazel refuses a section of another format, gives the stored translation of a key whose tag
is right, and translates otherwise, by assembly as log entries 36 and 51 have it; an entry whose tag is wrong is discarded and logged.
Where the manual leaves a point open it follows the model's reading (log entries 36, 48). -/
def Obligations.AttestationAndHazelComplete : Prop :=
  ∀ (s : State) (d : Fin 2), s.ctx.ev.unit = d.val →
    (∀ n, s.ctx.ev.data = .nonce n →
      ((s.die d).state = 0 → exec .attestationRequest s = .next (s.answer .error)) ∧
      ((s.die d).state ≠ 0 → exec .attestationRequest s = .next (s.answer (.report (s.report d n ++
        (List.range 16608).map fun i => Config.signature (s.die d).identity (s.report d n) i))))) ∧
    ((s.die d).state ≠ 0 →
      let asid := s.ctx.ev.sub % 8192
      let tenant := ((s.die d).grant (BitVec.ofNat 13 asid)).tenant
      (s.ctx.ev.flag = true → ∀ t, s.hazelAssign tenant s.ctx.ev.val s.ctx.ev.val2 = some t →
        exec .hazelTranslation s = .next (t.answer .written)) ∧
      (s.ctx.ev.flag = false →
        (∀ o code data, s.ctx.ev.data = .object o code data →
          (∀ c, s.loadPlan o = .refuse c → exec .hazelTranslation s = .next (s.answer (.loader c []))) ∧
          (∀ v c, s.loadPlan o = .native v → placeSection o v code data = .error c →
            exec .hazelTranslation s = .next (s.answer (.loader c []))) ∧
          (∀ v sd t, s.loadPlan o = .native v → placeSection o v code data = .ok sd → s.placeObject d asid code data sd = some t →
            exec .hazelTranslation s = .next (t.answer (.loader 0 sd.1))) ∧
          (∀ tnf m h sd t, s.loadPlan o = .portable tnf → s.hazelOutput d tenant tnf = (m, .ok h) →
            placePortable o h code data = .ok sd → m.placeObject d asid code data sd = some t →
            exec .hazelTranslation s = .next (t.answer (.loader 0 sd.1)))) ∧
        (∀ tnf, s.ctx.ev.data = .bytes tnf →
          (∀ code, tnfCheck tnf = some code → exec .hazelTranslation s = .next (s.answer (.loader code []))) ∧
          (tnfCheck tnf = none →
            let key := s.hazelKey tnf tenant
            let found := s.hazelCache.find? fun e => e.key == key && (s.hazelRegion tenant).any e.within
            (found = none → hazelCode tnf = none → exec .hazelTranslation s = .next (s.answer (.loader 5 []))) ∧
            (∀ h, found = none → hazelCode tnf = some h →
              exec .hazelTranslation s = .next ((s.hazelKeep d tenant key h).answer (.loader 0 h))) ∧
            (∀ e, found = some e → s.hazelTrue e = true → exec .hazelTranslation s = .next (State.answer
              { s with hazelCache := e :: s.hazelCache.erase e } (.loader 0 (s.mem.readN (e.addr + 48) e.len)))) ∧
            (∀ e h, found = some e → s.hazelTrue e = false → hazelCode tnf = some h →
              let m := State.dieLog { s with hazelCache := s.hazelCache.erase e } d 0x64 (BitVec.ofNat 64 e.addr) 0 0
              exec .hazelTranslation s = .next ((m.hazelKeep d tenant key h).answer (.loader 0 h)))))))

/-! Faults of the machine. -/

/-- The events of R423 to R429 complete: a request that has stood for PLIM slots raises PREEMPT with its count and queue, once, or is
withdrawn where it no longer stands; a mismatch marks the core; the checker lets a command of any engine and stream (log entry 54) whose
copy it has produced run, and holds back one that differs, with a CHECKER that gives both; a job stopped by one restarts at its node
checkpoint once its engines rest (log entry 29), and is terminated where restarts are not enabled or one was used; a lane fault freezes a core, or loses it; a line, a scratchpad line, an array cell, a delay granule and a tile
register become uncorrectable; a host error leaves HOST_ERR pending
for the store's stream; the debug stop freezes the array as a trap of its lessee's WS with a cause that the manual does not give (log
entry 44).
Where the manual leaves a point open it follows the model's reading (log entries 29, 32, 37, 44, 54). -/
def Obligations.SystemEventsComplete : Prop :=
  ∀ (s : State) (c : CoreId),
    let k := s.core c
    (s.ctx.ev.unit = c.val →
      (∀ q, s.plimReached c = true → k.request = some q → s.requestOver c q = true →
        exec .preempt s = .next (s.setCore c { k with request := none })) ∧
      (∀ q, s.plimReached c = true → k.request = some q → s.requestOver c q = false → exec .preempt s =
        .next ((s.setCore c { k with request := some { q with spent := true } }).deliver c .cs (s.mkRecord c .cs
          { cause := 0x51, precise := false, detail := [BitVec.ofNat 64 q.count, BitVec.ofNat 64 (q.queue.getD 0xFF)] }))) ∧
      (s.ctx.ev.flag = true → exec .checkerCompare s = .next (s.setCore c { k with mismatch := true })) ∧
      (∀ (e : Eng) (x : Cmd), s.ctx.ev.flag = false → s.ctx.ev.sub = e.num + 1 →
        (k.cmds e).find? (fun y => y.ord == s.ctx.ev.val) = some x →
        (k.mismatch = false → exec .checkerCompare s = .next (s.setCore c (k.setCmds e ((k.cmds e).map fun y =>
          if y.ord = s.ctx.ev.val then { y with checked := true } else y)))) ∧
        (k.mismatch = true →
          let held := State.setCore { s with draws := s.draws + 2 } c
            { k.setCmds e ((k.cmds e).filter fun y => y.ord != s.ctx.ev.val) with mismatch := false }
          exec .checkerCompare s = .next (held.deliver c e.strm (held.mkRecord c e.strm
            { cause := 0x41, eng := true, pc := some x.pc, midx := x.midx, inmac := x.inmac
              detail := checkWords x.code ++ [Config.freeWord s.draws, Config.freeWord (s.draws + 1)] })))) ∧
      (s.ctx.ev.flag = false → s.ctx.ev.sub = 0 → k.mismatchStop = true →
        (((s.die (dieOf c)).errcfg.getLsbD 8 = false ∨ k.checkpoint.used = true) → exec .checkerCompare s = .next (s.endJob c 0x41 3)) ∧
        ((s.die (dieOf c)).errcfg.getLsbD 8 = true → k.checkpoint.used = false → s.enginesRest c = true →
          exec .checkerCompare s = .next (s.restartNode c))) ∧
      (c.val < 128 → s.ctx.ev.flag = false → ∃ m, m ≤ 512 ∧
        exec .vbusLaneFault s = .next (s.drawn.setCore c { k with freeze := max k.freeze m })) ∧
      (c.val < 128 → s.ctx.ev.flag = true → ∃ t, exec .vbusLaneFault s = .next t ∧ (t.core c).lost = true) ∧
      (k.hostBuf = [] → exec .hostErrorOnStore s = .next { s with
        hostErr := if s.ctx.ev.flag then s.ctx.ev.val / 64 * 64 :: s.hostErr.filter (· != s.ctx.ev.val / 64 * 64)
          else s.hostErr.filter (· != s.ctx.ev.val / 64 * 64) }) ∧
      (∀ h, k.hostBuf = [h] → h.bytes.length ≠ 0 → h.addr % 64 + h.bytes.length ≤ 64 → s.windowAt h.addr = none →
        h.addr / 64 * 64 = s.ctx.ev.val / 64 * 64 → ∃ t, exec .hostErrorOnStore s = .next t ∧ t.host = s.host ∧
          (t.core c).hostBuf = [] ∧ (t.strm c h.strm).faults = (k.strm h.strm).faults ++
            [⟨0x13, h.pc, BitVec.ofNat 64 (h.addr / 64 * 64), 1, 4, [], h.ord⟩])) ∧
    (∀ pa, s.ctx.ev.data = .upset (.line pa) → s.physOk (pa / 64 * 64) = true →
      ∃ t, exec .uncorrectableError s = .next t ∧ t.poison.contains (pa / 64 * 64) = true ∧ t.mem = s.mem) ∧
    (∀ off, s.ctx.ev.data = .upset (.spad c.val off) → off / 64 * 64 < k.padSize → k.spadPoison.contains (off / 64 * 64) = false →
      exec .uncorrectableError s = .next (s.setCore c { k with spadPoison := off / 64 * 64 :: k.spadPoison })) ∧
    (∀ r, s.ctx.ev.data = .upset (.tile c.val r) → r ≤ 24 → k.tile.bad.contains r = false →
      exec .uncorrectableError s = .next (s.setCore c { k with tile := { k.tile with bad := r :: k.tile.bad } })) ∧
    (∀ a b r l, s.ctx.ev.data = .upset (.cell a b r l) → a < 16 → b < 4 → r < 256 → l < 256 →
      exec .uncorrectableError s = .next (s.cellUpset a b (256 * r + l))) ∧
    (∀ p g, s.ctx.ev.data = .upset (.delay c.val p g) → exec .uncorrectableError s = .next (s.setCore c
      (k.setPlane p { k.planeAt p with marks := (k.planeAt p).marks ||| (1 : BitVec 16) <<< g }))) ∧
    (s.ctx.ev.unit < 16 →
      ∃ cause, supervisorFirst cause = false ∧ exec .supervisorDebugStop s = .next (s.drawn.arrayTrap s.ctx.ev.unit { cause := cause }))

/-! Reset and invariants. -/

/-- What the package holds after reset (R64, R140, R148, R179, R227, R379, R448, R458): the dies are in Winter with no queue enabled, no core
has a job, nothing waits, is held or locked, no barrier, post, trigger or link counter stands, every link is down, nothing is poisoned,
memory reads zero, and the registers of a core that the manual gives a reset value have it: VTYPE, FFLAGS, TFMT, CKE, TWIN, CKTOL, XTLIM and
the generators. Registers without one hold the value of log entry 4, which this does not say. -/
def Obligations.ResetValues : Prop :=
  (∀ d : Fin 2, (State.reset.die d).state = 0 ∧ (State.reset.die d).ready = false ∧ (State.reset.die d).hostirq = 0 ∧
    (State.reset.die d).holds = [] ∧ (State.reset.die d).locks = [] ∧ (State.reset.die d).barriers = [] ∧ (State.reset.die d).posts = [] ∧
    (State.reset.die d).triggers = [] ∧ (State.reset.die d).ctrs = [] ∧ ∀ q, ((State.reset.die d).queue q).en = false) ∧
  (∀ c : CoreId, (State.reset.core c).active = false ∧ (State.reset.core c).xtlim = 0x10000 ∧ (State.reset.core c).handler = none ∧
    (State.reset.core c).stopped = none ∧ (State.reset.core c).vtype = 0x9 ∧ (State.reset.core c).fflags = 0 ∧
    (State.reset.core c).tile.tfmt = 0x21 ∧ (State.reset.core c).tile.cke = false ∧ (State.reset.core c).twin = 0x20 ∧
    (State.reset.core c).cktol = 0x10 ∧ ∀ i, (State.reset.strm c i).seed = 1 ∧ (State.reset.strm c i).wait = none ∧
      (State.reset.strm c i).expl = none) ∧
  (∀ l, (State.reset.link l).up = false) ∧ State.reset.poison = [] ∧ State.reset.sends = [] ∧ ∀ a, State.reset.mem.read a = 0

/-- Memory stays in its canonical form: every step that answers a next state keeps it. The form is the model's (log entry 5): addresses
rising, and no byte listed that reads as an unlisted one. -/
def Obligations.StepKeepsMemoryCanonical : Prop :=
  ∀ s s' : State, s.mem.wf = true → step s = .next s' → s'.mem.wf = true

/-- Memory is in its canonical form after reset (log entry 5). -/
def Obligations.ResetMemoryCanonical : Prop :=
  State.reset.mem.wf = true ∧ State.reset.host.wf = true

/-! Number codes. -/

/-- The integers, the half-step grids and the tick counts (R130 to R132): a code of a signed integer is two's complement and one of an unsigned
integer its number; a code n of HS4 or HS8, read as two's complement, is n + 1/2; a code of TK8 is its number of ticks, and 255, NEVER, is
infinite. None of the integers and grids has an infinity or a NaN, and TK8 has no NaN. -/
def Obligations.NumberCodes : Prop :=
  ∀ (w c : Nat), c < 2 ^ w →
    ((w = 8 ∨ w = 16 ∨ w = 32 ∨ w = 64) →
      ∃ neg m, (NumTy.int true w).read c = .num neg m 0 ∧ ((NumTy.int true w).read c).ex.n = (BitVec.ofNat w c).toInt) ∧
    ((w = 8 ∨ w = 16 ∨ w = 32) →
      ∃ neg m, (NumTy.int false w).read c = .num neg m 0 ∧ ((NumTy.int false w).read c).ex.n = c) ∧
    ((w = 4 ∨ w = 8) →
      ∃ neg m, (NumTy.hs w).read c = .num neg m (-1) ∧ ((NumTy.hs w).read c).ex.n = 2 * (BitVec.ofNat w c).toInt + 1) ∧
    (w = 8 → c < 255 → NumTy.tk8.read c = .num false c 0) ∧ (w = 8 → c = 255 → NumTy.tk8.read c = .inf false)
end

