-- ==== Sys2Proof/Laws/Assembler.lean ====
section
/-! SUPPORT. What assembly can give: a word of the last pass decodes to its instruction, well formed, and the object has the shape that the loader
asks for. -/
namespace Sys2Proof.Machine

/-- In the last pass an instruction's halfwords decode, whole, to a well-formed instruction, which is the one that the pass goes on with. -/
theorem Asm.word_decodes {e : AsmEnv} {z : Asm} {at_ : Nat} {guard stall : Option Nat} {mn : List Char} {ops : List (List Tok)}
    {hs : List HWord} {i : Option Instr} (he : e.last = true) (h : z.word e at_ guard stall mn ops = some (hs, i)) :
    ∃ c, Decode.decode hs = .ok (c, []) ∧ i = some c.instr := by
  unfold Asm.word at h
  split at h
  · cases h
  · simp only [he, Bool.not_true, Bool.false_eq_true, if_false] at h
    split at h
    · cases h
    · split at h
      · cases h
      · split at h
        · cases h
        · split at h
          · rename_i c hd
            split at h
            · cases h; exact ⟨c, hd, rfl⟩
            · cases h
          · cases h

/-- Hazel refuses a text exactly where it does not assemble (R453). -/
theorem hazelCode_eq_none {tnf : List Byte} : hazelCode tnf = none ↔ assemble (tnf.drop 8) = none := by
  simp [hazelCode]

/-- An assembled text holds a job, and leaves nothing open (R453). -/
theorem assemble_jobs {bs : List Byte} {z : Asm} (h : assemble bs = some z) : z.jobs ≠ [] := by
  simp only [assemble, Option.bind_eq_some_iff] at h
  obtain ⟨ls, -, a, -, b, -, c, -, z', -, h⟩ := h
  split at h
  · rename_i hc
    cases h
    simpa using (Bool.and_eq_true_iff.mp hc).2
  · cases h

end Sys2Proof.Machine
end

