-- ==== Sys2Proof/Laws/Decode.lean ====
section
/-! SUPPORT. What the decoder's field reads give on the words that the encoder builds, one lemma per field and format. -/
namespace Sys2Proof.Decode

/-- A word is put together again from its halves (R26). -/
@[simp] theorem word32_halves (w : BitVec 32) : word32 (w.extractLsb' 0 16) (w.extractLsb' 16 16) = w := by
  apply BitVec.eq_of_getLsbD_eq
  intro i hi
  simp only [word32, BitVec.getLsbD_append, BitVec.getLsbD_extractLsb']
  by_cases h : i < 16
  · simp [h]
  · have : 16 + (i - 16) = i := by omega
    have h2 : i - 16 < 16 := by omega
    simp [h, this, h2]

/-! The three-register word. -/

theorem word3_bits (h : Head) (b a d : BitVec 5) (op fn : Nat) :
    (word3 h b a d op fn).extractLsb' 27 5 = b ∧ (word3 h b a d op fn).extractLsb' 22 5 = a ∧
    (word3 h b a d op fn).extractLsb' 17 5 = d ∧ (word3 h b a d op fn).extractLsb' 15 2 = BitVec.ofNat 2 fn ∧
    (word3 h b a d op fn).extractLsb' 11 4 = h.g ∧ (word3 h b a d op fn).extractLsb' 8 3 = h.st ∧
    (word3 h b a d op fn).extractLsb' 1 7 = BitVec.ofNat 7 op ∧ (word3 h b a d op fn).extractLsb' 0 1 = 1 := by
  refine ⟨?_, ?_, ?_, ?_, ?_, ?_, ?_, ?_⟩ <;>
  · apply BitVec.eq_of_getLsbD_eq
    intro i hi
    simp only [word3, BitVec.getLsbD_extractLsb', BitVec.getLsbD_append]
    simp only [hi, decide_true, Bool.true_and]
    repeat' split
    all_goals first
      | omega
      | (congr 1; omega)
      | rfl

theorem opOf_word3 (h : Head) (b a d : BitVec 5) (op fn : Nat) (ho : op < 128) : opOf (word3 h b a d op fn) = op := by
  simp only [opOf, (word3_bits h b a d op fn).2.2.2.2.2.2.1, BitVec.toNat_ofNat]; omega
theorem fnOf_word3 (h : Head) (b a d : BitVec 5) (op fn : Nat) (hf : fn < 4) : fnOf (word3 h b a d op fn) = fn := by
  simp only [fnOf, (word3_bits h b a d op fn).2.2.2.1, BitVec.toNat_ofNat]; omega
theorem RRR_word3 (h : Head) (f : RRR) (op fn : Nat) : RRR.ofBits (word3 h f.b f.a f.d op fn) = f := by
  obtain ⟨hb, ha, hd, -⟩ := word3_bits h f.b f.a f.d op fn
  simp only [RRR.ofBits, hb, ha, hd]
theorem RI_word3 (h : Head) (f : RI) (op fn : Nat) : RI.ofBits (word3 h f.imm f.a f.d op fn) = f := by
  obtain ⟨hb, ha, hd, -⟩ := word3_bits h f.imm f.a f.d op fn
  simp only [RI.ofBits, hb, ha, hd]
theorem RX_word3 (h : Head) (f : RX) (op fn : Nat) : RX.ofBits (word3 h f.b f.a f.d op fn) f.x = f := by
  obtain ⟨hb, ha, hd, -⟩ := word3_bits h f.b f.a f.d op fn
  simp only [RX.ofBits, hb, ha, hd]
theorem Head_word3 (h : Head) (b a d : BitVec 5) (op fn : Nat) :
    Head.ofBits (word3 h b a d op fn) = ⟨h.g, h.st, false, false, 0, 0, 0⟩ := by
  obtain ⟨-, -, -, -, hg, hs, -, -⟩ := word3_bits h b a d op fn
  simp only [Head.ofBits, hg, hs]
/-- The first halfword of a 32-bit word has bit 0 set (R26). -/
theorem bit0_word3 (h : Head) (b a d : BitVec 5) (op fn : Nat) : ((word3 h b a d op fn).extractLsb' 0 16).getLsbD 0 = true := by
  have h1 : ((word3 h b a d op fn).extractLsb' 0 1).getLsbD 0 = true := by rw [(word3_bits h b a d op fn).2.2.2.2.2.2.2]; decide
  simpa [BitVec.getLsbD_extractLsb'] using h1

/-! Extension words. -/

theorem M_xword_bits (f : M) :
    f.xword.extractLsb' 29 3 = f.sc ∧ f.xword.extractLsb' 24 5 = f.cnt ∧ f.xword.extractLsb' 20 4 = f.mod ∧
    f.xword.extractLsb' 16 4 = f.ty ∧ f.xword.extractLsb' 0 16 = f.off := by
  refine ⟨?_, ?_, ?_, ?_, ?_⟩ <;>
  · apply BitVec.eq_of_getLsbD_eq
    intro i hi
    simp only [M.xword, BitVec.getLsbD_extractLsb', BitVec.getLsbD_append]
    simp only [hi, decide_true, Bool.true_and]
    repeat' split
    all_goals first
      | omega
      | (congr 1; omega)
      | rfl
theorem M_word3 (h : Head) (f : M) (op fn : Nat) : M.ofBits (word3 h f.b f.a f.d op fn) f.xword = f := by
  obtain ⟨hb, ha, hd, -⟩ := word3_bits h f.b f.a f.d op fn
  obtain ⟨h1, h2, h3, h4, h5⟩ := M_xword_bits f
  simp only [M.ofBits, hb, ha, hd, h1, h2, h3, h4, h5]

theorem E_xword_bits (f : E) (h : Head) :
    (f.xword h).extractLsb' 18 14 = f.op ∧ (f.xword h).getLsbD 17 = h.se ∧ (f.xword h).getLsbD 16 = h.we ∧
    (f.xword h).extractLsb' 8 8 = h.ssem ∧ (f.xword h).extractLsb' 0 8 = h.wsem := by
  refine ⟨?_, ?_, ?_, ?_, ?_⟩
  · apply BitVec.eq_of_getLsbD_eq
    intro i hi
    simp only [E.xword, BitVec.getLsbD_extractLsb', BitVec.getLsbD_append]
    simp only [hi, decide_true, Bool.true_and]
    repeat' split
    all_goals first
      | omega
      | (congr 1; omega)
      | rfl
  · cases hs : h.se <;> simp only [E.xword, BitVec.getLsbD_append, hs] <;> rfl
  · cases hs : h.we <;> simp only [E.xword, BitVec.getLsbD_append, hs] <;> rfl
  all_goals
    apply BitVec.eq_of_getLsbD_eq
    intro i hi
    simp only [E.xword, BitVec.getLsbD_extractLsb', BitVec.getLsbD_append]
    simp only [hi, decide_true, Bool.true_and]
    repeat' split
    all_goals first
      | omega
      | (congr 1; omega)
      | rfl
theorem E_word3 (h : Head) (f : E) (op fn : Nat) : E.ofBits (word3 h f.b f.a f.d op fn) (f.xword h) = f := by
  obtain ⟨hb, ha, hd, -⟩ := word3_bits h f.b f.a f.d op fn
  simp only [E.ofBits, hb, ha, hd, (E_xword_bits f h).1]
theorem HeadE_word3 (h : Head) (f : E) (op fn : Nat) :
    Head.ofBitsE (word3 h f.b f.a f.d op fn) (f.xword h) = ⟨h.g, h.st, h.se, h.we, h.ssem, h.wsem, 0⟩ := by
  obtain ⟨-, -, -, -, hg, hs, -, -⟩ := word3_bits h f.b f.a f.d op fn
  obtain ⟨-, h2, h3, h4, h5⟩ := E_xword_bits f h
  simp only [Head.ofBitsE, hg, hs, h2, h3, h4, h5]

/-! The words with other fields (R37 to R39). -/

/-- The word of BR. -/
def wordB (h : Head) (imm : BitVec 17) : BitVec 32 := imm ++ h.g ++ h.st ++ (2 : BitVec 7) ++ (1 : BitVec 1)
/-- The word of PLOG. -/
def wordPL (h : Head) (f : PL) (op : Nat) : BitVec 32 :=
  BitVec.ofNat 3 op ++ f.pa ++ f.pd ++ h.g ++ h.st ++ (0x16 : BitVec 7) ++ (1 : BitVec 1)
/-- The word of a predicate transfer. -/
def wordP3 (h : Head) (f : P3) (fn : Nat) : BitVec 32 :=
  BitVec.ofNat 2 fn ++ f.b ++ f.a ++ f.pd ++ h.g ++ h.st ++ (0x17 : BitVec 7) ++ (1 : BitVec 1)

theorem wordB_bits (h : Head) (imm : BitVec 17) :
    (wordB h imm).extractLsb' 15 17 = imm ∧ (wordB h imm).extractLsb' 11 4 = h.g ∧ (wordB h imm).extractLsb' 8 3 = h.st ∧
    (wordB h imm).extractLsb' 1 7 = 2 ∧ (wordB h imm).extractLsb' 0 1 = 1 := by
  refine ⟨?_, ?_, ?_, ?_, ?_⟩ <;>
  · apply BitVec.eq_of_getLsbD_eq
    intro i hi
    simp only [wordB, BitVec.getLsbD_extractLsb', BitVec.getLsbD_append]
    simp only [hi, decide_true, Bool.true_and]
    repeat' split
    all_goals first
      | omega
      | (congr 1; omega)
      | rfl

theorem wordPL_bits (h : Head) (f : PL) (op : Nat) :
    (wordPL h f op).extractLsb' 29 3 = BitVec.ofNat 3 op ∧ (wordPL h f op).extractLsb' 22 7 = f.pa ∧
    (wordPL h f op).extractLsb' 15 7 = f.pd ∧ (wordPL h f op).extractLsb' 11 4 = h.g ∧ (wordPL h f op).extractLsb' 8 3 = h.st ∧
    (wordPL h f op).extractLsb' 1 7 = 0x16 ∧ (wordPL h f op).extractLsb' 0 1 = 1 := by
  refine ⟨?_, ?_, ?_, ?_, ?_, ?_, ?_⟩ <;>
  · apply BitVec.eq_of_getLsbD_eq
    intro i hi
    simp only [wordPL, BitVec.getLsbD_extractLsb', BitVec.getLsbD_append]
    simp only [hi, decide_true, Bool.true_and]
    repeat' split
    all_goals first
      | omega
      | (congr 1; omega)
      | rfl

theorem wordP3_bits (h : Head) (f : P3) (fn : Nat) :
    (wordP3 h f fn).extractLsb' 30 2 = BitVec.ofNat 2 fn ∧ (wordP3 h f fn).extractLsb' 27 3 = f.b ∧
    (wordP3 h f fn).extractLsb' 22 5 = f.a ∧ (wordP3 h f fn).extractLsb' 15 7 = f.pd ∧ (wordP3 h f fn).extractLsb' 11 4 = h.g ∧
    (wordP3 h f fn).extractLsb' 8 3 = h.st ∧ (wordP3 h f fn).extractLsb' 1 7 = 0x17 ∧ (wordP3 h f fn).extractLsb' 0 1 = 1 := by
  refine ⟨?_, ?_, ?_, ?_, ?_, ?_, ?_, ?_⟩ <;>
  · apply BitVec.eq_of_getLsbD_eq
    intro i hi
    simp only [wordP3, BitVec.getLsbD_extractLsb', BitVec.getLsbD_append]
    simp only [hi, decide_true, Bool.true_and]
    repeat' split
    all_goals first
      | omega
      | (congr 1; omega)
      | rfl

end Sys2Proof.Decode
end

