-- ==== Sys2Proof/Laws/Memory.lean ====
section
/-! SUPPORT. Memory: a read after a write, and the canonical form, which every operation keeps. -/
namespace Sys2Proof.Machine

@[simp] theorem Memory.read_nil (a : Nat) : Memory.read [] a = 0 := rfl

theorem above_iff {lo : Option Nat} {a : Nat} : above lo a = true ↔ ∀ x, lo = some x → x < a := by
  cases lo <;> simp [above]

theorem Memory.wfFrom_cons {lo : Option Nat} {k : Nat} {v : Byte} {t : Memory} :
    Memory.wfFrom lo ((k, v) :: t) = true ↔ above lo k = true ∧ v ≠ 0 ∧ t.wfFrom (some k) = true := by
  simp [Memory.wfFrom, and_assoc]

/-- Below the first entry nothing is listed. -/
theorem Memory.read_below {lo : Nat} {m : Memory} (h : m.wfFrom (some lo) = true) {a : Nat} (ha : a ≤ lo) : m.read a = 0 := by
  induction m generalizing lo with
  | nil => rfl
  | cons c t ih =>
    obtain ⟨k, v⟩ := c
    obtain ⟨h1, -, h3⟩ := Memory.wfFrom_cons.mp h
    have h1 : lo < k := above_iff.mp h1 lo rfl
    have : k ≠ a := by omega
    simpa [Memory.read, this] using ih h3 (by omega)

/-- A lower bound may be weakened. -/
theorem Memory.wfFrom_mono {lo : Nat} {m : Memory} (h : m.wfFrom (some lo) = true) (l : Option Nat) (hl : ∀ x, l = some x → x ≤ lo) :
    m.wfFrom l = true := by
  cases m with
  | nil => rfl
  | cons c t =>
    obtain ⟨k, v⟩ := c
    obtain ⟨h1, h2, h3⟩ := Memory.wfFrom_cons.mp h
    exact Memory.wfFrom_cons.mpr ⟨above_iff.mpr fun x hx => by
      have := hl x hx; have : lo < k := above_iff.mp h1 lo rfl; omega, h2, h3⟩

/-- Entries above a bound stay above it under a write above it. -/
theorem Memory.wfFrom_write {lo : Option Nat} {m : Memory} (h : m.wfFrom lo = true) (a : Nat) (b : Byte) (ha : ∀ x, lo = some x → x < a) :
    (m.write a b).wfFrom lo = true := by
  induction m generalizing lo with
  | nil =>
    unfold Memory.write
    split
    · rfl
    · rename_i hb; exact Memory.wfFrom_cons.mpr ⟨above_iff.mpr ha, hb, rfl⟩
  | cons c t ih =>
    obtain ⟨k, v⟩ := c
    have hk := Memory.wfFrom_cons.mp h
    have hlo : above lo a = true := above_iff.mpr ha
    unfold Memory.write
    split
    · split
      · exact h
      · rename_i h1 h2
        exact Memory.wfFrom_cons.mpr ⟨hlo, h2, Memory.wfFrom_cons.mpr ⟨above_iff.mpr fun x hx => by cases hx; exact h1, hk.2.1, hk.2.2⟩⟩
    · split
      · rename_i h1 h2; subst h2
        split
        · exact Memory.wfFrom_mono hk.2.2 lo fun x hx => by have := ha x hx; omega
        · rename_i h3; exact Memory.wfFrom_cons.mpr ⟨hlo, h3, hk.2.2⟩
      · rename_i h1 h2
        exact Memory.wfFrom_cons.mpr ⟨hk.1, hk.2.1, ih hk.2.2 fun x hx => by cases hx; omega⟩

/-- A write keeps the canonical form. -/
theorem Memory.wf_write {m : Memory} (h : m.wf = true) (a : Nat) (b : Byte) : (m.write a b).wf = true :=
  Memory.wfFrom_write h a b (by simp)

/-- A read after a write. -/
theorem Memory.read_writeFrom {lo : Option Nat} {m : Memory} (h : m.wfFrom lo = true) (a : Nat) (b : Byte) (x : Nat) :
    (m.write a b).read x = if a = x then b else m.read x := by
  induction m generalizing lo with
  | nil => by_cases hb : b = 0 <;> by_cases hx : a = x <;> simp_all [Memory.write, Memory.read]
  | cons c t ih =>
    obtain ⟨k, v⟩ := c
    have ht := (Memory.wfFrom_cons.mp h).2.2
    unfold Memory.write
    split
    · rename_i h1
      have hn : a = x → k ≠ x := by omega
      have h0 : a = x → Memory.read t x = 0 := fun e => Memory.read_below ht (by omega)
      split <;> by_cases hx : a = x <;> simp_all [Memory.read]
    · split
      · rename_i h1 h2
        have h0 : a = x → Memory.read t x = 0 := fun e => Memory.read_below ht (by omega)
        split <;> by_cases hx : a = x <;> simp_all [Memory.read]
      · rename_i h1 h2
        have e := ih ht
        by_cases hk : k = x
        · have : a ≠ x := by omega
          simp [Memory.read, hk, this]
        · simpa [Memory.read, hk] using e

/-- A read after a write of one byte. -/
theorem Memory.read_write {m : Memory} (h : m.wf = true) (a : Nat) (b : Byte) (x : Nat) :
    (m.write a b).read x = if a = x then b else m.read x := Memory.read_writeFrom h a b x

theorem Memory.wf_writeN {m : Memory} (h : m.wf = true) (a : Nat) (bs : List Byte) : (m.writeN a bs).wf = true := by
  induction bs generalizing m a with
  | nil => exact h
  | cons b t ih => exact ih (Memory.wf_write h a b) _

/-- A read after a write of several bytes: outside them, as before. -/
theorem Memory.wf_foldl_writeN {α : Type} {m : Memory} (h : m.wf = true) (l : List α) (place : α → Nat) (bs : α → List Byte) :
    (l.foldl (fun m x => m.writeN (place x) (bs x)) m).wf = true := by
  induction l generalizing m with
  | nil => exact h
  | cons x t ih => exact ih (Memory.wf_writeN h _ _)
theorem Memory.read_writeN_out {m : Memory} (h : m.wf = true) (a : Nat) (bs : List Byte) (x : Nat) (hx : x < a ∨ a + bs.length ≤ x) :
    (m.writeN a bs).read x = m.read x := by
  induction bs generalizing m a with
  | nil => rfl
  | cons b t ih =>
    simp only [List.length_cons] at hx
    have : (Memory.writeN (m.write a b) (a + 1) t).read x = (m.write a b).read x :=
      ih (Memory.wf_write h a b) _ (by omega)
    rw [Memory.writeN, this, Memory.read_write h, if_neg (by omega)]

/-- Inside them, the byte written. -/
theorem Memory.read_writeN_in {m : Memory} (h : m.wf = true) (a : Nat) (bs : List Byte) (i : Nat) (hi : i < bs.length) :
    (m.writeN a bs).read (a + i) = bs[i] := by
  induction bs generalizing m a i with
  | nil => simp at hi
  | cons b t ih =>
    have hw := Memory.wf_write h a b
    cases i with
    | zero => simpa [Memory.writeN, Memory.read_write h] using Memory.read_writeN_out hw (a + 1) t a (by omega)
    | succ j =>
      simp only [List.length_cons] at hi
      have := ih hw (a + 1) j (by omega)
      simpa [Memory.writeN, Nat.add_assoc, Nat.add_comm 1 j] using this

theorem Memory.length_readN (m : Memory) (a n : Nat) : (m.readN a n).length = n := by
  induction n generalizing a with
  | zero => rfl
  | succ n ih => simp [Memory.readN, ih]

theorem Memory.wfFrom_filter {lo : Option Nat} {m : Memory} (h : m.wfFrom lo = true) (p : Host.Cell → Bool) :
    Memory.wfFrom lo (m.filter p) = true := by
  induction m generalizing lo with
  | nil => rfl
  | cons c t ih =>
    obtain ⟨k, v⟩ := c
    have hk := Memory.wfFrom_cons.mp h
    have it := ih hk.2.2
    by_cases hp : p (k, v) = true
    · rw [List.filter_cons_of_pos hp]; exact Memory.wfFrom_cons.mpr ⟨hk.1, hk.2.1, it⟩
    · rw [List.filter_cons_of_neg hp]
      exact Memory.wfFrom_mono it lo fun x hx => Nat.le_of_lt (above_iff.mp hk.1 x hx)

/-- Clearing a range keeps the canonical form. -/
theorem Memory.wf_clear {m : Memory} (h : m.wf = true) (a n : Nat) : (m.clear a n).wf = true := Memory.wfFrom_filter h _

/-- A read after a clear: 0 in the range, what was there outside it. -/
theorem Memory.read_clear (m : Memory) (a n x : Nat) : (m.clear a n).read x = if a ≤ x ∧ x < a + n then 0 else m.read x := by
  induction m with
  | nil => simp [Memory.clear]
  | cons c t ih =>
    obtain ⟨k, v⟩ := c
    by_cases hk : k < a ∨ a + n ≤ k
    · have hc : Memory.clear ((k, v) :: t) a n = (k, v) :: Memory.clear t a n :=
        List.filter_cons_of_pos (by simpa using hk)
      by_cases hx : k = x
      · have : ¬(a ≤ x ∧ x < a + n) := by omega
        rw [hc, if_neg this]; simp [Memory.read, hx]
      · simpa [hc, Memory.read, hx] using ih
    · have hc : Memory.clear ((k, v) :: t) a n = Memory.clear t a n := List.filter_cons_of_neg (by simpa using hk)
      by_cases hx : k = x
      · have : a ≤ x ∧ x < a + n := by omega
        rw [hc, ih, if_pos this, if_pos this]
      · simpa [hc, Memory.read, hx] using ih

/-- Two canonical lists, the first below a bound that the second lies above. -/
theorem Memory.wfFrom_append {lo : Option Nat} {m l : Memory} {b : Nat} (hm : m.wfFrom lo = true) (hb : ∀ c ∈ m, c.1 < b)
    (hl : ∀ c ∈ l, b ≤ c.1) (hl2 : l.wf = true) (hlo : ∀ x, lo = some x → x < b) : Memory.wfFrom lo (m ++ l) = true := by
  induction m generalizing lo with
  | nil =>
    cases l with
    | nil => rfl
    | cons c t =>
      obtain ⟨k, v⟩ := c
      have hk : b ≤ k := hl (k, v) (by simp)
      obtain ⟨-, h2, h3⟩ := Memory.wfFrom_cons.mp hl2
      exact Memory.wfFrom_cons.mpr ⟨above_iff.mpr fun x hx => by have := hlo x hx; omega, h2, h3⟩
  | cons c t ih =>
    obtain ⟨k, v⟩ := c
    obtain ⟨h1, h2, h3⟩ := Memory.wfFrom_cons.mp hm
    have hk : k < b := hb (k, v) (by simp)
    exact Memory.wfFrom_cons.mpr ⟨h1, h2, ih h3 (fun c hc => hb c (by simp [hc])) fun x hx => by cases hx; exact hk⟩

/-- The bytes of a splice. -/
theorem Memory.wf_spliced (a : Nat) (bs : List Byte) (n : Nat) (lo : Option Nat) (hlo : ∀ x, lo = some x → x < a + n) :
    Memory.wfFrom lo ((bs.zipIdx n).filterMap fun b => if b.1 = 0 then none else some (a + b.2, b.1)) = true := by
  induction bs generalizing n lo with
  | nil => rfl
  | cons b t ih =>
    simp only [List.zipIdx_cons, List.filterMap_cons]
    by_cases hb : b = 0
    · simp only [hb, ↓reduceIte]
      exact ih (n + 1) lo fun x hx => by have := hlo x hx; omega
    · simp only [hb, ↓reduceIte]
      exact Memory.wfFrom_cons.mpr ⟨above_iff.mpr hlo, hb, ih (n + 1) _ fun x hx => by cases hx; omega⟩

/-- A splice keeps the canonical form. -/
theorem Memory.wf_splice {m : Memory} (h : m.wf = true) (a : Nat) (bs : List Byte) : (m.splice a bs).wf = true := by
  have inside : ∀ c ∈ (bs.zipIdx.filterMap fun b => if b.1 = 0 then none else some (a + b.2, b.1) : Memory),
      a ≤ c.1 ∧ c.1 < a + bs.length := by
    intro c hc
    simp only [List.mem_filterMap] at hc
    obtain ⟨x, hx, he⟩ := hc
    have := List.snd_lt_of_mem_zipIdx hx
    split at he
    · simp at he
    · cases he; simp; omega
  unfold Memory.splice Memory.wf
  rw [List.append_assoc]
  refine Memory.wfFrom_append (b := a) (Memory.wfFrom_filter h _) ?_ ?_ ?_ (by simp)
  · intro c hc; simpa using (List.mem_filter.mp hc).2
  · intro c hc
    rcases List.mem_append.mp hc with h1 | h1
    · exact (inside c h1).1
    · have := (List.mem_filter.mp h1).2; simp at this; omega
  · refine Memory.wfFrom_append (b := a + bs.length) (Memory.wf_spliced a bs 0 none (by simp)) (fun c hc => (inside c hc).2) ?_
      (Memory.wfFrom_filter h _) (by simp)
    intro c hc; simpa using (List.mem_filter.mp hc).2

/-- Entries at and above an address, moved to start at another, keep their order and their bytes. -/
theorem Memory.wfFrom_shift {lo lo' : Option Nat} {src dst : Nat} {m : Memory} (h : Memory.wfFrom lo m = true)
    (hs : ∀ c ∈ m, src ≤ c.1) (hlo : ∀ x, lo' = some x → x < dst ∨ ∃ y, lo = some y ∧ src ≤ y ∧ x = dst + (y - src)) :
    Memory.wfFrom lo' (m.map fun c => (dst + (c.1 - src), c.2)) = true := by
  induction m generalizing lo lo' with
  | nil => rfl
  | cons c t ih =>
    obtain ⟨k, v⟩ := c
    obtain ⟨h1, h2, h3⟩ := Memory.wfFrom_cons.mp h
    have hk : src ≤ k := hs (k, v) (by simp)
    refine Memory.wfFrom_cons.mpr ⟨above_iff.mpr fun x hx => ?_, h2, ih h3 (fun c hc => hs c (by simp [hc])) fun x hx => ?_⟩
    · rcases hlo x hx with hx | ⟨y, hy, hy2, rfl⟩
      · omega
      · have := above_iff.mp h1 y hy; omega
    · cases hx; exact .inr ⟨k, rfl, hk, rfl⟩

/-- A move keeps the canonical form. -/
theorem Memory.wf_move {m : Memory} (h : m.wf = true) (src dst n : Nat) : (m.move src dst n).wf = true := by
  have inside : ∀ c ∈ (m.filter (fun c => src ≤ c.1 && c.1 < src + n)).map (fun c => (dst + (c.1 - src), c.2)),
      dst ≤ c.1 ∧ c.1 < dst + n := by
    intro c hc
    obtain ⟨x, hx, rfl⟩ := List.mem_map.mp hc
    have := (List.mem_filter.mp hx).2
    simp at this
    dsimp only
    omega
  unfold Memory.move Memory.wf
  rw [List.append_assoc]
  refine Memory.wfFrom_append (b := dst) (Memory.wfFrom_filter h _) ?_ ?_ ?_ (by simp)
  · intro c hc; simpa using (List.mem_filter.mp hc).2
  · intro c hc
    rcases List.mem_append.mp hc with h1 | h1
    · exact (inside c h1).1
    · have := (List.mem_filter.mp h1).2; simp at this; omega
  · refine Memory.wfFrom_append (b := dst + n) (Memory.wfFrom_shift (src := src) (Memory.wfFrom_filter h _) (fun c hc => ?_) (by simp))
      (fun c hc => (inside c hc).2) ?_ (Memory.wfFrom_filter h _) (by simp)
    · have := (List.mem_filter.mp hc).2; simp at this; exact this.1
    · intro c hc; simpa using (List.mem_filter.mp hc).2

/-! What the operations on the machine's memory do to its canonical form. -/

theorem State.pwriteN_mem (s : State) (j : Word) (a : Nat) (bs : List Byte) : (s.pwriteN j a bs).mem = s.mem.writeN a bs := rfl
theorem State.wf_pwriteN {s : State} (h : s.mem.wf = true) (j : Word) (a : Nat) (bs : List Byte) :
    (s.pwriteN j a bs).mem.wf = true := Memory.wf_writeN h a bs

theorem State.wf_writePieces {s : State} (h : s.mem.wf = true) (j : Word) (ps : List Piece) (bs : List Byte) :
    (State.writePieces j s ps bs).mem.wf = true := by
  induction ps generalizing s bs with
  | nil => exact h
  | cons p t ih => exact ih (State.wf_pwriteN h j _ _) _

theorem State.wf_markLeaf {s : State} (h : s.mem.wf = true) (w : Walker) (acc : Acc) (l : Leaf) : (s.markLeaf w acc l).mem.wf = true := by
  unfold State.markLeaf
  dsimp only
  split
  · exact h
  · split
    · exact h
    · exact State.wf_pwriteN h 0 _ _

theorem State.wf_mark {s : State} (h : s.mem.wf = true) (w : Walker) (acc : Acc) (ps : List Piece) :
    (s.mark w acc ps).mem.wf = true := by
  unfold State.mark
  induction ps generalizing s with
  | nil => exact h
  | cons p t ih => exact ih (State.wf_markLeaf h w acc p.leaf)

/-! What a translation can do: it fills TLBs, and draws what is free. -/

/-- A state that differs from another in its TLBs and its draw counter alone. -/
def State.TlbsOf (s t : State) : Prop := ∃ n l, t = { s with draws := n, tlb := l }

theorem State.TlbsOf.refl (s : State) : s.TlbsOf s := ⟨s.draws, s.tlb, rfl⟩
theorem State.TlbsOf.trans {a b c : State} : a.TlbsOf b → b.TlbsOf c → a.TlbsOf c := by
  rintro ⟨_, _, rfl⟩ ⟨n, l, rfl⟩; exact ⟨n, l, rfl⟩
theorem State.TlbsOf.mem {a b : State} : a.TlbsOf b → b.mem = a.mem := by rintro ⟨_, _, rfl⟩; rfl
theorem State.TlbsOf.cores {a b : State} : a.TlbsOf b → b.cores = a.cores := by rintro ⟨_, _, rfl⟩; rfl
theorem State.TlbsOf.dies {a b : State} : a.TlbsOf b → b.dies = a.dies := by rintro ⟨_, _, rfl⟩; rfl
theorem State.TlbsOf.ctx {a b : State} : a.TlbsOf b → b.ctx = a.ctx := by rintro ⟨_, _, rfl⟩; rfl

/-- An entry put into a TLB (R288). -/
theorem State.tlbFill_frame (s : State) (e : TlbEntry) : s.TlbsOf (s.tlbFill e) := by
  unfold State.tlbFill
  dsimp only
  split
  · exact .refl s
  · split
    · exact ⟨s.draws, _, rfl⟩
    · split
      · exact ⟨_, _, rfl⟩
      · exact ⟨s.draws, _, rfl⟩

theorem State.tlbNote_frame (s : State) (w : Walker) (asid va : Nat) (l : Leaf) : s.TlbsOf (s.tlbNote w asid va l) := by
  unfold State.tlbNote
  induction w.tlbs generalizing s with
  | nil => exact .refl s
  | cons p t ih => exact (s.tlbFill_frame _).trans (ih _)

/-- Looking a page up (R288). -/
theorem State.lookup_frame (s : State) (w : Walker) (asid va : Nat) : s.TlbsOf (s.lookup w asid va).1 := by
  have h : ∀ x : State × Except Nat Leaf, s.TlbsOf x.1 →
      s.TlbsOf (match x with | (s1, .ok l) => (s1.tlbNote w asid va l, Except.ok l) | (s1, .error e) => (s1, .error e)).1 := by
    rintro ⟨s1, _ | l⟩ hx
    · exact hx
    · exact hx.trans (s1.tlbNote_frame w asid va l)
  unfold State.lookup
  dsimp only
  apply h
  split
  · exact .refl s
  · exact ⟨_, s.tlb, rfl⟩

theorem State.lookAhead_frame (s : State) (w : Walker) (asid va : Nat) : s.TlbsOf (s.lookAhead w asid va) := by
  unfold State.lookAhead
  split
  · exact .refl s
  · exact .refl s
  · split
    · exact .refl s
    · split
      · exact s.tlbNote_frame _ _ _ _
      · exact .refl s

theorem State.pieces_frame (w : Walker) (asid : Nat) (user : Bool) (acc : Acc) (fuel : Nat) (s : State) (va n : Nat) :
    s.TlbsOf (State.pieces w asid user acc fuel s va n).1 := by
  induction fuel generalizing s va n with
  | zero => exact .refl s
  | succ fuel ih =>
    unfold State.pieces
    split
    · exact .refl s
    · have hl := s.lookup_frame w asid va
      split
      · rename_i h; rw [h] at hl; exact hl
      · rename_i s1 l h
        rw [h] at hl
        split
        · exact hl
        · have hk := ih s1 (va + min n (65536 - va % 65536)) (n - min n (65536 - va % 65536))
          dsimp only
          split <;> (rename_i h2; rw [h2] at hk; exact hl.trans hk)

/-- Translation fills TLBs and draws what is free: no register, table or byte changes (R279, R288). -/
theorem State.xlate_frame (s : State) (w : Walker) (asid : Nat) (user : Bool) (acc : Acc) (va : Int) (n : Nat) :
    s.TlbsOf (s.xlate w asid user acc va n).1 := by
  unfold State.xlate
  split
  · exact .refl s
  · have h := State.pieces_frame w asid user acc (n / 65536 + 2) s va.toNat n
    split
    · rename_i h2; rw [h2] at h; exact h.trans (State.lookAhead_frame _ _ _ _)
    · rename_i h2; rw [h2] at h; exact h

@[simp] theorem State.xlate_mem (s : State) (w : Walker) (asid : Nat) (user : Bool) (acc : Acc) (va : Int) (n : Nat) :
    (s.xlate w asid user acc va n).1.mem = s.mem := (s.xlate_frame w asid user acc va n).mem
@[simp] theorem State.xlate_cores (s : State) (w : Walker) (asid : Nat) (user : Bool) (acc : Acc) (va : Int) (n : Nat) :
    (s.xlate w asid user acc va n).1.cores = s.cores := (s.xlate_frame w asid user acc va n).cores
@[simp] theorem State.xlate_dies (s : State) (w : Walker) (asid : Nat) (user : Bool) (acc : Acc) (va : Int) (n : Nat) :
    (s.xlate w asid user acc va n).1.dies = s.dies := (s.xlate_frame w asid user acc va n).dies
@[simp] theorem State.xlate_ctx (s : State) (w : Walker) (asid : Nat) (user : Bool) (acc : Acc) (va : Int) (n : Nat) :
    (s.xlate w asid user acc va n).1.ctx = s.ctx := (s.xlate_frame w asid user acc va n).ctx

end Sys2Proof.Machine
end

