-- ==== Sys2Proof/Laws/State.lean ====
section
/-! SUPPORT. What each update of the state leaves alone: one lemma per update and field, and what a read after it gives. -/
namespace Sys2Proof.Machine

/-! State.setCore -/
@[simp] theorem State.setCore_dies (s : State) (c : CoreId) (k : Core) : (s.setCore c k).dies = s.dies := rfl
@[simp] theorem State.setCore_arrays (s : State) (c : CoreId) (k : Core) : (s.setCore c k).arrays = s.arrays := rfl
@[simp] theorem State.setCore_links (s : State) (c : CoreId) (k : Core) : (s.setCore c k).links = s.links := rfl
@[simp] theorem State.setCore_remotes (s : State) (c : CoreId) (k : Core) : (s.setCore c k).remotes = s.remotes := rfl
@[simp] theorem State.setCore_mem (s : State) (c : CoreId) (k : Core) : (s.setCore c k).mem = s.mem := rfl
@[simp] theorem State.setCore_poison (s : State) (c : CoreId) (k : Core) : (s.setCore c k).poison = s.poison := rfl
@[simp] theorem State.setCore_correctable (s : State) (c : CoreId) (k : Core) : (s.setCore c k).correctable = s.correctable := rfl
@[simp] theorem State.setCore_tlb (s : State) (c : CoreId) (k : Core) : (s.setCore c k).tlb = s.tlb := rfl
@[simp] theorem State.setCore_glog (s : State) (c : CoreId) (k : Core) : (s.setCore c k).glog = s.glog := rfl
@[simp] theorem State.setCore_gpos (s : State) (c : CoreId) (k : Core) : (s.setCore c k).gpos = s.gpos := rfl
@[simp] theorem State.setCore_host (s : State) (c : CoreId) (k : Core) : (s.setCore c k).host = s.host := rfl
@[simp] theorem State.setCore_hostErr (s : State) (c : CoreId) (k : Core) : (s.setCore c k).hostErr = s.hostErr := rfl
@[simp] theorem State.setCore_mailbox (s : State) (c : CoreId) (k : Core) : (s.setCore c k).mailbox = s.mailbox := rfl
@[simp] theorem State.setCore_saved (s : State) (c : CoreId) (k : Core) : (s.setCore c k).saved = s.saved := rfl
@[simp] theorem State.setCore_images (s : State) (c : CoreId) (k : Core) : (s.setCore c k).images = s.images := rfl
@[simp] theorem State.setCore_arrImages (s : State) (c : CoreId) (k : Core) : (s.setCore c k).arrImages = s.arrImages := rfl
@[simp] theorem State.setCore_pairs (s : State) (c : CoreId) (k : Core) : (s.setCore c k).pairs = s.pairs := rfl
@[simp] theorem State.setCore_unpub (s : State) (c : CoreId) (k : Core) : (s.setCore c k).unpub = s.unpub := rfl
@[simp] theorem State.setCore_sends (s : State) (c : CoreId) (k : Core) : (s.setCore c k).sends = s.sends := rfl
@[simp] theorem State.setCore_hazelCache (s : State) (c : CoreId) (k : Core) : (s.setCore c k).hazelCache = s.hazelCache := rfl
@[simp] theorem State.setCore_hazelRegions (s : State) (c : CoreId) (k : Core) : (s.setCore c k).hazelRegions = s.hazelRegions := rfl
@[simp] theorem State.setCore_ucie (s : State) (c : CoreId) (k : Core) : (s.setCore c k).ucie = s.ucie := rfl
@[simp] theorem State.setCore_outbox (s : State) (c : CoreId) (k : Core) : (s.setCore c k).outbox = s.outbox := rfl
@[simp] theorem State.setCore_steplen (s : State) (c : CoreId) (k : Core) : (s.setCore c k).steplen = s.steplen := rfl
@[simp] theorem State.setCore_phase (s : State) (c : CoreId) (k : Core) : (s.setCore c k).phase = s.phase := rfl
@[simp] theorem State.setCore_clock (s : State) (c : CoreId) (k : Core) : (s.setCore c k).clock = s.clock := rfl
@[simp] theorem State.setCore_gsc (s : State) (c : CoreId) (k : Core) : (s.setCore c k).gsc = s.gsc := rfl
@[simp] theorem State.setCore_chipid (s : State) (c : CoreId) (k : Core) : (s.setCore c k).chipid = s.chipid := rfl
@[simp] theorem State.setCore_hazel (s : State) (c : CoreId) (k : Core) : (s.setCore c k).hazel = s.hazel := rfl
@[simp] theorem State.setCore_seq (s : State) (c : CoreId) (k : Core) : (s.setCore c k).seq = s.seq := rfl
@[simp] theorem State.setCore_draws (s : State) (c : CoreId) (k : Core) : (s.setCore c k).draws = s.draws := rfl
@[simp] theorem State.setCore_turn (s : State) (c : CoreId) (k : Core) : (s.setCore c k).turn = s.turn := rfl
@[simp] theorem State.setCore_agenda (s : State) (c : CoreId) (k : Core) : (s.setCore c k).agenda = s.agenda := rfl
@[simp] theorem State.setCore_inbox (s : State) (c : CoreId) (k : Core) : (s.setCore c k).inbox = s.inbox := rfl
@[simp] theorem State.setCore_ctx (s : State) (c : CoreId) (k : Core) : (s.setCore c k).ctx = s.ctx := rfl

/-! State.setDie -/
@[simp] theorem State.setDie_cores (s : State) (d : Fin 2) (x : Die) : (s.setDie d x).cores = s.cores := rfl
@[simp] theorem State.setDie_arrays (s : State) (d : Fin 2) (x : Die) : (s.setDie d x).arrays = s.arrays := rfl
@[simp] theorem State.setDie_links (s : State) (d : Fin 2) (x : Die) : (s.setDie d x).links = s.links := rfl
@[simp] theorem State.setDie_remotes (s : State) (d : Fin 2) (x : Die) : (s.setDie d x).remotes = s.remotes := rfl
@[simp] theorem State.setDie_mem (s : State) (d : Fin 2) (x : Die) : (s.setDie d x).mem = s.mem := rfl
@[simp] theorem State.setDie_poison (s : State) (d : Fin 2) (x : Die) : (s.setDie d x).poison = s.poison := rfl
@[simp] theorem State.setDie_correctable (s : State) (d : Fin 2) (x : Die) : (s.setDie d x).correctable = s.correctable := rfl
@[simp] theorem State.setDie_tlb (s : State) (d : Fin 2) (x : Die) : (s.setDie d x).tlb = s.tlb := rfl
@[simp] theorem State.setDie_glog (s : State) (d : Fin 2) (x : Die) : (s.setDie d x).glog = s.glog := rfl
@[simp] theorem State.setDie_gpos (s : State) (d : Fin 2) (x : Die) : (s.setDie d x).gpos = s.gpos := rfl
@[simp] theorem State.setDie_host (s : State) (d : Fin 2) (x : Die) : (s.setDie d x).host = s.host := rfl
@[simp] theorem State.setDie_hostErr (s : State) (d : Fin 2) (x : Die) : (s.setDie d x).hostErr = s.hostErr := rfl
@[simp] theorem State.setDie_mailbox (s : State) (d : Fin 2) (x : Die) : (s.setDie d x).mailbox = s.mailbox := rfl
@[simp] theorem State.setDie_saved (s : State) (d : Fin 2) (x : Die) : (s.setDie d x).saved = s.saved := rfl
@[simp] theorem State.setDie_images (s : State) (d : Fin 2) (x : Die) : (s.setDie d x).images = s.images := rfl
@[simp] theorem State.setDie_arrImages (s : State) (d : Fin 2) (x : Die) : (s.setDie d x).arrImages = s.arrImages := rfl
@[simp] theorem State.setDie_pairs (s : State) (d : Fin 2) (x : Die) : (s.setDie d x).pairs = s.pairs := rfl
@[simp] theorem State.setDie_unpub (s : State) (d : Fin 2) (x : Die) : (s.setDie d x).unpub = s.unpub := rfl
@[simp] theorem State.setDie_sends (s : State) (d : Fin 2) (x : Die) : (s.setDie d x).sends = s.sends := rfl
@[simp] theorem State.setDie_hazelCache (s : State) (d : Fin 2) (x : Die) : (s.setDie d x).hazelCache = s.hazelCache := rfl
@[simp] theorem State.setDie_hazelRegions (s : State) (d : Fin 2) (x : Die) : (s.setDie d x).hazelRegions = s.hazelRegions := rfl
@[simp] theorem State.setDie_ucie (s : State) (d : Fin 2) (x : Die) : (s.setDie d x).ucie = s.ucie := rfl
@[simp] theorem State.setDie_outbox (s : State) (d : Fin 2) (x : Die) : (s.setDie d x).outbox = s.outbox := rfl
@[simp] theorem State.setDie_steplen (s : State) (d : Fin 2) (x : Die) : (s.setDie d x).steplen = s.steplen := rfl
@[simp] theorem State.setDie_phase (s : State) (d : Fin 2) (x : Die) : (s.setDie d x).phase = s.phase := rfl
@[simp] theorem State.setDie_clock (s : State) (d : Fin 2) (x : Die) : (s.setDie d x).clock = s.clock := rfl
@[simp] theorem State.setDie_gsc (s : State) (d : Fin 2) (x : Die) : (s.setDie d x).gsc = s.gsc := rfl
@[simp] theorem State.setDie_chipid (s : State) (d : Fin 2) (x : Die) : (s.setDie d x).chipid = s.chipid := rfl
@[simp] theorem State.setDie_hazel (s : State) (d : Fin 2) (x : Die) : (s.setDie d x).hazel = s.hazel := rfl
@[simp] theorem State.setDie_seq (s : State) (d : Fin 2) (x : Die) : (s.setDie d x).seq = s.seq := rfl
@[simp] theorem State.setDie_draws (s : State) (d : Fin 2) (x : Die) : (s.setDie d x).draws = s.draws := rfl
@[simp] theorem State.setDie_turn (s : State) (d : Fin 2) (x : Die) : (s.setDie d x).turn = s.turn := rfl
@[simp] theorem State.setDie_agenda (s : State) (d : Fin 2) (x : Die) : (s.setDie d x).agenda = s.agenda := rfl
@[simp] theorem State.setDie_inbox (s : State) (d : Fin 2) (x : Die) : (s.setDie d x).inbox = s.inbox := rfl
@[simp] theorem State.setDie_ctx (s : State) (d : Fin 2) (x : Die) : (s.setDie d x).ctx = s.ctx := rfl

/-! State.setStrm -/
@[simp] theorem State.setStrm_dies (s : State) (c : CoreId) (i : StreamId) (t : Strm) : (s.setStrm c i t).dies = s.dies := rfl
@[simp] theorem State.setStrm_arrays (s : State) (c : CoreId) (i : StreamId) (t : Strm) : (s.setStrm c i t).arrays = s.arrays := rfl
@[simp] theorem State.setStrm_links (s : State) (c : CoreId) (i : StreamId) (t : Strm) : (s.setStrm c i t).links = s.links := rfl
@[simp] theorem State.setStrm_remotes (s : State) (c : CoreId) (i : StreamId) (t : Strm) : (s.setStrm c i t).remotes = s.remotes := rfl
@[simp] theorem State.setStrm_mem (s : State) (c : CoreId) (i : StreamId) (t : Strm) : (s.setStrm c i t).mem = s.mem := rfl
@[simp] theorem State.setStrm_poison (s : State) (c : CoreId) (i : StreamId) (t : Strm) : (s.setStrm c i t).poison = s.poison := rfl
@[simp] theorem State.setStrm_correctable (s : State) (c : CoreId) (i : StreamId) (t : Strm) : (s.setStrm c i t).correctable = s.correctable := rfl
@[simp] theorem State.setStrm_tlb (s : State) (c : CoreId) (i : StreamId) (t : Strm) : (s.setStrm c i t).tlb = s.tlb := rfl
@[simp] theorem State.setStrm_glog (s : State) (c : CoreId) (i : StreamId) (t : Strm) : (s.setStrm c i t).glog = s.glog := rfl
@[simp] theorem State.setStrm_gpos (s : State) (c : CoreId) (i : StreamId) (t : Strm) : (s.setStrm c i t).gpos = s.gpos := rfl
@[simp] theorem State.setStrm_host (s : State) (c : CoreId) (i : StreamId) (t : Strm) : (s.setStrm c i t).host = s.host := rfl
@[simp] theorem State.setStrm_hostErr (s : State) (c : CoreId) (i : StreamId) (t : Strm) : (s.setStrm c i t).hostErr = s.hostErr := rfl
@[simp] theorem State.setStrm_mailbox (s : State) (c : CoreId) (i : StreamId) (t : Strm) : (s.setStrm c i t).mailbox = s.mailbox := rfl
@[simp] theorem State.setStrm_saved (s : State) (c : CoreId) (i : StreamId) (t : Strm) : (s.setStrm c i t).saved = s.saved := rfl
@[simp] theorem State.setStrm_images (s : State) (c : CoreId) (i : StreamId) (t : Strm) : (s.setStrm c i t).images = s.images := rfl
@[simp] theorem State.setStrm_arrImages (s : State) (c : CoreId) (i : StreamId) (t : Strm) : (s.setStrm c i t).arrImages = s.arrImages := rfl
@[simp] theorem State.setStrm_pairs (s : State) (c : CoreId) (i : StreamId) (t : Strm) : (s.setStrm c i t).pairs = s.pairs := rfl
@[simp] theorem State.setStrm_unpub (s : State) (c : CoreId) (i : StreamId) (t : Strm) : (s.setStrm c i t).unpub = s.unpub := rfl
@[simp] theorem State.setStrm_sends (s : State) (c : CoreId) (i : StreamId) (t : Strm) : (s.setStrm c i t).sends = s.sends := rfl
@[simp] theorem State.setStrm_hazelCache (s : State) (c : CoreId) (i : StreamId) (t : Strm) : (s.setStrm c i t).hazelCache = s.hazelCache := rfl
@[simp] theorem State.setStrm_hazelRegions (s : State) (c : CoreId) (i : StreamId) (t : Strm) : (s.setStrm c i t).hazelRegions = s.hazelRegions := rfl
@[simp] theorem State.setStrm_ucie (s : State) (c : CoreId) (i : StreamId) (t : Strm) : (s.setStrm c i t).ucie = s.ucie := rfl
@[simp] theorem State.setStrm_outbox (s : State) (c : CoreId) (i : StreamId) (t : Strm) : (s.setStrm c i t).outbox = s.outbox := rfl
@[simp] theorem State.setStrm_steplen (s : State) (c : CoreId) (i : StreamId) (t : Strm) : (s.setStrm c i t).steplen = s.steplen := rfl
@[simp] theorem State.setStrm_phase (s : State) (c : CoreId) (i : StreamId) (t : Strm) : (s.setStrm c i t).phase = s.phase := rfl
@[simp] theorem State.setStrm_clock (s : State) (c : CoreId) (i : StreamId) (t : Strm) : (s.setStrm c i t).clock = s.clock := rfl
@[simp] theorem State.setStrm_gsc (s : State) (c : CoreId) (i : StreamId) (t : Strm) : (s.setStrm c i t).gsc = s.gsc := rfl
@[simp] theorem State.setStrm_chipid (s : State) (c : CoreId) (i : StreamId) (t : Strm) : (s.setStrm c i t).chipid = s.chipid := rfl
@[simp] theorem State.setStrm_hazel (s : State) (c : CoreId) (i : StreamId) (t : Strm) : (s.setStrm c i t).hazel = s.hazel := rfl
@[simp] theorem State.setStrm_seq (s : State) (c : CoreId) (i : StreamId) (t : Strm) : (s.setStrm c i t).seq = s.seq := rfl
@[simp] theorem State.setStrm_draws (s : State) (c : CoreId) (i : StreamId) (t : Strm) : (s.setStrm c i t).draws = s.draws := rfl
@[simp] theorem State.setStrm_turn (s : State) (c : CoreId) (i : StreamId) (t : Strm) : (s.setStrm c i t).turn = s.turn := rfl
@[simp] theorem State.setStrm_agenda (s : State) (c : CoreId) (i : StreamId) (t : Strm) : (s.setStrm c i t).agenda = s.agenda := rfl
@[simp] theorem State.setStrm_inbox (s : State) (c : CoreId) (i : StreamId) (t : Strm) : (s.setStrm c i t).inbox = s.inbox := rfl
@[simp] theorem State.setStrm_ctx (s : State) (c : CoreId) (i : StreamId) (t : Strm) : (s.setStrm c i t).ctx = s.ctx := rfl

/-! State.setMe -/
@[simp] theorem State.setMe_dies (s : State) (k : Core) : (s.setMe k).dies = s.dies := rfl
@[simp] theorem State.setMe_arrays (s : State) (k : Core) : (s.setMe k).arrays = s.arrays := rfl
@[simp] theorem State.setMe_links (s : State) (k : Core) : (s.setMe k).links = s.links := rfl
@[simp] theorem State.setMe_remotes (s : State) (k : Core) : (s.setMe k).remotes = s.remotes := rfl
@[simp] theorem State.setMe_mem (s : State) (k : Core) : (s.setMe k).mem = s.mem := rfl
@[simp] theorem State.setMe_poison (s : State) (k : Core) : (s.setMe k).poison = s.poison := rfl
@[simp] theorem State.setMe_correctable (s : State) (k : Core) : (s.setMe k).correctable = s.correctable := rfl
@[simp] theorem State.setMe_tlb (s : State) (k : Core) : (s.setMe k).tlb = s.tlb := rfl
@[simp] theorem State.setMe_glog (s : State) (k : Core) : (s.setMe k).glog = s.glog := rfl
@[simp] theorem State.setMe_gpos (s : State) (k : Core) : (s.setMe k).gpos = s.gpos := rfl
@[simp] theorem State.setMe_host (s : State) (k : Core) : (s.setMe k).host = s.host := rfl
@[simp] theorem State.setMe_hostErr (s : State) (k : Core) : (s.setMe k).hostErr = s.hostErr := rfl
@[simp] theorem State.setMe_mailbox (s : State) (k : Core) : (s.setMe k).mailbox = s.mailbox := rfl
@[simp] theorem State.setMe_saved (s : State) (k : Core) : (s.setMe k).saved = s.saved := rfl
@[simp] theorem State.setMe_images (s : State) (k : Core) : (s.setMe k).images = s.images := rfl
@[simp] theorem State.setMe_arrImages (s : State) (k : Core) : (s.setMe k).arrImages = s.arrImages := rfl
@[simp] theorem State.setMe_pairs (s : State) (k : Core) : (s.setMe k).pairs = s.pairs := rfl
@[simp] theorem State.setMe_unpub (s : State) (k : Core) : (s.setMe k).unpub = s.unpub := rfl
@[simp] theorem State.setMe_sends (s : State) (k : Core) : (s.setMe k).sends = s.sends := rfl
@[simp] theorem State.setMe_hazelCache (s : State) (k : Core) : (s.setMe k).hazelCache = s.hazelCache := rfl
@[simp] theorem State.setMe_hazelRegions (s : State) (k : Core) : (s.setMe k).hazelRegions = s.hazelRegions := rfl
@[simp] theorem State.setMe_ucie (s : State) (k : Core) : (s.setMe k).ucie = s.ucie := rfl
@[simp] theorem State.setMe_outbox (s : State) (k : Core) : (s.setMe k).outbox = s.outbox := rfl
@[simp] theorem State.setMe_steplen (s : State) (k : Core) : (s.setMe k).steplen = s.steplen := rfl
@[simp] theorem State.setMe_phase (s : State) (k : Core) : (s.setMe k).phase = s.phase := rfl
@[simp] theorem State.setMe_clock (s : State) (k : Core) : (s.setMe k).clock = s.clock := rfl
@[simp] theorem State.setMe_gsc (s : State) (k : Core) : (s.setMe k).gsc = s.gsc := rfl
@[simp] theorem State.setMe_chipid (s : State) (k : Core) : (s.setMe k).chipid = s.chipid := rfl
@[simp] theorem State.setMe_hazel (s : State) (k : Core) : (s.setMe k).hazel = s.hazel := rfl
@[simp] theorem State.setMe_seq (s : State) (k : Core) : (s.setMe k).seq = s.seq := rfl
@[simp] theorem State.setMe_draws (s : State) (k : Core) : (s.setMe k).draws = s.draws := rfl
@[simp] theorem State.setMe_turn (s : State) (k : Core) : (s.setMe k).turn = s.turn := rfl
@[simp] theorem State.setMe_agenda (s : State) (k : Core) : (s.setMe k).agenda = s.agenda := rfl
@[simp] theorem State.setMe_inbox (s : State) (k : Core) : (s.setMe k).inbox = s.inbox := rfl
@[simp] theorem State.setMe_ctx (s : State) (k : Core) : (s.setMe k).ctx = s.ctx := rfl

/-! State.setStr -/
@[simp] theorem State.setStr_dies (s : State) (t : Strm) : (s.setStr t).dies = s.dies := rfl
@[simp] theorem State.setStr_arrays (s : State) (t : Strm) : (s.setStr t).arrays = s.arrays := rfl
@[simp] theorem State.setStr_links (s : State) (t : Strm) : (s.setStr t).links = s.links := rfl
@[simp] theorem State.setStr_remotes (s : State) (t : Strm) : (s.setStr t).remotes = s.remotes := rfl
@[simp] theorem State.setStr_mem (s : State) (t : Strm) : (s.setStr t).mem = s.mem := rfl
@[simp] theorem State.setStr_poison (s : State) (t : Strm) : (s.setStr t).poison = s.poison := rfl
@[simp] theorem State.setStr_correctable (s : State) (t : Strm) : (s.setStr t).correctable = s.correctable := rfl
@[simp] theorem State.setStr_tlb (s : State) (t : Strm) : (s.setStr t).tlb = s.tlb := rfl
@[simp] theorem State.setStr_glog (s : State) (t : Strm) : (s.setStr t).glog = s.glog := rfl
@[simp] theorem State.setStr_gpos (s : State) (t : Strm) : (s.setStr t).gpos = s.gpos := rfl
@[simp] theorem State.setStr_host (s : State) (t : Strm) : (s.setStr t).host = s.host := rfl
@[simp] theorem State.setStr_hostErr (s : State) (t : Strm) : (s.setStr t).hostErr = s.hostErr := rfl
@[simp] theorem State.setStr_mailbox (s : State) (t : Strm) : (s.setStr t).mailbox = s.mailbox := rfl
@[simp] theorem State.setStr_saved (s : State) (t : Strm) : (s.setStr t).saved = s.saved := rfl
@[simp] theorem State.setStr_images (s : State) (t : Strm) : (s.setStr t).images = s.images := rfl
@[simp] theorem State.setStr_arrImages (s : State) (t : Strm) : (s.setStr t).arrImages = s.arrImages := rfl
@[simp] theorem State.setStr_pairs (s : State) (t : Strm) : (s.setStr t).pairs = s.pairs := rfl
@[simp] theorem State.setStr_unpub (s : State) (t : Strm) : (s.setStr t).unpub = s.unpub := rfl
@[simp] theorem State.setStr_sends (s : State) (t : Strm) : (s.setStr t).sends = s.sends := rfl
@[simp] theorem State.setStr_hazelCache (s : State) (t : Strm) : (s.setStr t).hazelCache = s.hazelCache := rfl
@[simp] theorem State.setStr_hazelRegions (s : State) (t : Strm) : (s.setStr t).hazelRegions = s.hazelRegions := rfl
@[simp] theorem State.setStr_ucie (s : State) (t : Strm) : (s.setStr t).ucie = s.ucie := rfl
@[simp] theorem State.setStr_outbox (s : State) (t : Strm) : (s.setStr t).outbox = s.outbox := rfl
@[simp] theorem State.setStr_steplen (s : State) (t : Strm) : (s.setStr t).steplen = s.steplen := rfl
@[simp] theorem State.setStr_phase (s : State) (t : Strm) : (s.setStr t).phase = s.phase := rfl
@[simp] theorem State.setStr_clock (s : State) (t : Strm) : (s.setStr t).clock = s.clock := rfl
@[simp] theorem State.setStr_gsc (s : State) (t : Strm) : (s.setStr t).gsc = s.gsc := rfl
@[simp] theorem State.setStr_chipid (s : State) (t : Strm) : (s.setStr t).chipid = s.chipid := rfl
@[simp] theorem State.setStr_hazel (s : State) (t : Strm) : (s.setStr t).hazel = s.hazel := rfl
@[simp] theorem State.setStr_seq (s : State) (t : Strm) : (s.setStr t).seq = s.seq := rfl
@[simp] theorem State.setStr_draws (s : State) (t : Strm) : (s.setStr t).draws = s.draws := rfl
@[simp] theorem State.setStr_turn (s : State) (t : Strm) : (s.setStr t).turn = s.turn := rfl
@[simp] theorem State.setStr_agenda (s : State) (t : Strm) : (s.setStr t).agenda = s.agenda := rfl
@[simp] theorem State.setStr_inbox (s : State) (t : Strm) : (s.setStr t).inbox = s.inbox := rfl
@[simp] theorem State.setStr_ctx (s : State) (t : Strm) : (s.setStr t).ctx = s.ctx := rfl

/-! State.retire -/
@[simp] theorem State.retire_dies (s : State) : (s.retire).dies = s.dies := rfl
@[simp] theorem State.retire_arrays (s : State) : (s.retire).arrays = s.arrays := rfl
@[simp] theorem State.retire_links (s : State) : (s.retire).links = s.links := rfl
@[simp] theorem State.retire_remotes (s : State) : (s.retire).remotes = s.remotes := rfl
@[simp] theorem State.retire_mem (s : State) : (s.retire).mem = s.mem := rfl
@[simp] theorem State.retire_poison (s : State) : (s.retire).poison = s.poison := rfl
@[simp] theorem State.retire_correctable (s : State) : (s.retire).correctable = s.correctable := rfl
@[simp] theorem State.retire_tlb (s : State) : (s.retire).tlb = s.tlb := rfl
@[simp] theorem State.retire_glog (s : State) : (s.retire).glog = s.glog := rfl
@[simp] theorem State.retire_gpos (s : State) : (s.retire).gpos = s.gpos := rfl
@[simp] theorem State.retire_host (s : State) : (s.retire).host = s.host := rfl
@[simp] theorem State.retire_hostErr (s : State) : (s.retire).hostErr = s.hostErr := rfl
@[simp] theorem State.retire_mailbox (s : State) : (s.retire).mailbox = s.mailbox := rfl
@[simp] theorem State.retire_saved (s : State) : (s.retire).saved = s.saved := rfl
@[simp] theorem State.retire_images (s : State) : (s.retire).images = s.images := rfl
@[simp] theorem State.retire_arrImages (s : State) : (s.retire).arrImages = s.arrImages := rfl
@[simp] theorem State.retire_pairs (s : State) : (s.retire).pairs = s.pairs := rfl
@[simp] theorem State.retire_unpub (s : State) : (s.retire).unpub = s.unpub := rfl
@[simp] theorem State.retire_sends (s : State) : (s.retire).sends = s.sends := rfl
@[simp] theorem State.retire_hazelCache (s : State) : (s.retire).hazelCache = s.hazelCache := rfl
@[simp] theorem State.retire_hazelRegions (s : State) : (s.retire).hazelRegions = s.hazelRegions := rfl
@[simp] theorem State.retire_ucie (s : State) : (s.retire).ucie = s.ucie := rfl
@[simp] theorem State.retire_outbox (s : State) : (s.retire).outbox = s.outbox := rfl
@[simp] theorem State.retire_steplen (s : State) : (s.retire).steplen = s.steplen := rfl
@[simp] theorem State.retire_phase (s : State) : (s.retire).phase = s.phase := rfl
@[simp] theorem State.retire_clock (s : State) : (s.retire).clock = s.clock := rfl
@[simp] theorem State.retire_gsc (s : State) : (s.retire).gsc = s.gsc := rfl
@[simp] theorem State.retire_chipid (s : State) : (s.retire).chipid = s.chipid := rfl
@[simp] theorem State.retire_hazel (s : State) : (s.retire).hazel = s.hazel := rfl
@[simp] theorem State.retire_seq (s : State) : (s.retire).seq = s.seq := rfl
@[simp] theorem State.retire_draws (s : State) : (s.retire).draws = s.draws := rfl
@[simp] theorem State.retire_turn (s : State) : (s.retire).turn = s.turn := rfl
@[simp] theorem State.retire_agenda (s : State) : (s.retire).agenda = s.agenda := rfl
@[simp] theorem State.retire_inbox (s : State) : (s.retire).inbox = s.inbox := rfl
@[simp] theorem State.retire_ctx (s : State) : (s.retire).ctx = s.ctx := rfl

/-! State.transfer -/
@[simp] theorem State.transfer_dies (s : State) (a : Word) : (s.transfer a).dies = s.dies := rfl
@[simp] theorem State.transfer_arrays (s : State) (a : Word) : (s.transfer a).arrays = s.arrays := rfl
@[simp] theorem State.transfer_links (s : State) (a : Word) : (s.transfer a).links = s.links := rfl
@[simp] theorem State.transfer_remotes (s : State) (a : Word) : (s.transfer a).remotes = s.remotes := rfl
@[simp] theorem State.transfer_mem (s : State) (a : Word) : (s.transfer a).mem = s.mem := rfl
@[simp] theorem State.transfer_poison (s : State) (a : Word) : (s.transfer a).poison = s.poison := rfl
@[simp] theorem State.transfer_correctable (s : State) (a : Word) : (s.transfer a).correctable = s.correctable := rfl
@[simp] theorem State.transfer_tlb (s : State) (a : Word) : (s.transfer a).tlb = s.tlb := rfl
@[simp] theorem State.transfer_glog (s : State) (a : Word) : (s.transfer a).glog = s.glog := rfl
@[simp] theorem State.transfer_gpos (s : State) (a : Word) : (s.transfer a).gpos = s.gpos := rfl
@[simp] theorem State.transfer_host (s : State) (a : Word) : (s.transfer a).host = s.host := rfl
@[simp] theorem State.transfer_hostErr (s : State) (a : Word) : (s.transfer a).hostErr = s.hostErr := rfl
@[simp] theorem State.transfer_mailbox (s : State) (a : Word) : (s.transfer a).mailbox = s.mailbox := rfl
@[simp] theorem State.transfer_saved (s : State) (a : Word) : (s.transfer a).saved = s.saved := rfl
@[simp] theorem State.transfer_images (s : State) (a : Word) : (s.transfer a).images = s.images := rfl
@[simp] theorem State.transfer_arrImages (s : State) (a : Word) : (s.transfer a).arrImages = s.arrImages := rfl
@[simp] theorem State.transfer_pairs (s : State) (a : Word) : (s.transfer a).pairs = s.pairs := rfl
@[simp] theorem State.transfer_unpub (s : State) (a : Word) : (s.transfer a).unpub = s.unpub := rfl
@[simp] theorem State.transfer_sends (s : State) (a : Word) : (s.transfer a).sends = s.sends := rfl
@[simp] theorem State.transfer_hazelCache (s : State) (a : Word) : (s.transfer a).hazelCache = s.hazelCache := rfl
@[simp] theorem State.transfer_hazelRegions (s : State) (a : Word) : (s.transfer a).hazelRegions = s.hazelRegions := rfl
@[simp] theorem State.transfer_ucie (s : State) (a : Word) : (s.transfer a).ucie = s.ucie := rfl
@[simp] theorem State.transfer_outbox (s : State) (a : Word) : (s.transfer a).outbox = s.outbox := rfl
@[simp] theorem State.transfer_steplen (s : State) (a : Word) : (s.transfer a).steplen = s.steplen := rfl
@[simp] theorem State.transfer_phase (s : State) (a : Word) : (s.transfer a).phase = s.phase := rfl
@[simp] theorem State.transfer_clock (s : State) (a : Word) : (s.transfer a).clock = s.clock := rfl
@[simp] theorem State.transfer_gsc (s : State) (a : Word) : (s.transfer a).gsc = s.gsc := rfl
@[simp] theorem State.transfer_chipid (s : State) (a : Word) : (s.transfer a).chipid = s.chipid := rfl
@[simp] theorem State.transfer_hazel (s : State) (a : Word) : (s.transfer a).hazel = s.hazel := rfl
@[simp] theorem State.transfer_seq (s : State) (a : Word) : (s.transfer a).seq = s.seq := rfl
@[simp] theorem State.transfer_draws (s : State) (a : Word) : (s.transfer a).draws = s.draws := rfl
@[simp] theorem State.transfer_turn (s : State) (a : Word) : (s.transfer a).turn = s.turn := rfl
@[simp] theorem State.transfer_agenda (s : State) (a : Word) : (s.transfer a).agenda = s.agenda := rfl
@[simp] theorem State.transfer_inbox (s : State) (a : Word) : (s.transfer a).inbox = s.inbox := rfl
@[simp] theorem State.transfer_ctx (s : State) (a : Word) : (s.transfer a).ctx = s.ctx := rfl

/-! State.drawn -/
@[simp] theorem State.drawn_cores (s : State) : (s.drawn).cores = s.cores := rfl
@[simp] theorem State.drawn_dies (s : State) : (s.drawn).dies = s.dies := rfl
@[simp] theorem State.drawn_arrays (s : State) : (s.drawn).arrays = s.arrays := rfl
@[simp] theorem State.drawn_links (s : State) : (s.drawn).links = s.links := rfl
@[simp] theorem State.drawn_remotes (s : State) : (s.drawn).remotes = s.remotes := rfl
@[simp] theorem State.drawn_mem (s : State) : (s.drawn).mem = s.mem := rfl
@[simp] theorem State.drawn_poison (s : State) : (s.drawn).poison = s.poison := rfl
@[simp] theorem State.drawn_correctable (s : State) : (s.drawn).correctable = s.correctable := rfl
@[simp] theorem State.drawn_tlb (s : State) : (s.drawn).tlb = s.tlb := rfl
@[simp] theorem State.drawn_glog (s : State) : (s.drawn).glog = s.glog := rfl
@[simp] theorem State.drawn_gpos (s : State) : (s.drawn).gpos = s.gpos := rfl
@[simp] theorem State.drawn_host (s : State) : (s.drawn).host = s.host := rfl
@[simp] theorem State.drawn_hostErr (s : State) : (s.drawn).hostErr = s.hostErr := rfl
@[simp] theorem State.drawn_mailbox (s : State) : (s.drawn).mailbox = s.mailbox := rfl
@[simp] theorem State.drawn_saved (s : State) : (s.drawn).saved = s.saved := rfl
@[simp] theorem State.drawn_images (s : State) : (s.drawn).images = s.images := rfl
@[simp] theorem State.drawn_arrImages (s : State) : (s.drawn).arrImages = s.arrImages := rfl
@[simp] theorem State.drawn_pairs (s : State) : (s.drawn).pairs = s.pairs := rfl
@[simp] theorem State.drawn_unpub (s : State) : (s.drawn).unpub = s.unpub := rfl
@[simp] theorem State.drawn_sends (s : State) : (s.drawn).sends = s.sends := rfl
@[simp] theorem State.drawn_hazelCache (s : State) : (s.drawn).hazelCache = s.hazelCache := rfl
@[simp] theorem State.drawn_hazelRegions (s : State) : (s.drawn).hazelRegions = s.hazelRegions := rfl
@[simp] theorem State.drawn_ucie (s : State) : (s.drawn).ucie = s.ucie := rfl
@[simp] theorem State.drawn_outbox (s : State) : (s.drawn).outbox = s.outbox := rfl
@[simp] theorem State.drawn_steplen (s : State) : (s.drawn).steplen = s.steplen := rfl
@[simp] theorem State.drawn_phase (s : State) : (s.drawn).phase = s.phase := rfl
@[simp] theorem State.drawn_clock (s : State) : (s.drawn).clock = s.clock := rfl
@[simp] theorem State.drawn_gsc (s : State) : (s.drawn).gsc = s.gsc := rfl
@[simp] theorem State.drawn_chipid (s : State) : (s.drawn).chipid = s.chipid := rfl
@[simp] theorem State.drawn_hazel (s : State) : (s.drawn).hazel = s.hazel := rfl
@[simp] theorem State.drawn_seq (s : State) : (s.drawn).seq = s.seq := rfl
@[simp] theorem State.drawn_turn (s : State) : (s.drawn).turn = s.turn := rfl
@[simp] theorem State.drawn_agenda (s : State) : (s.drawn).agenda = s.agenda := rfl
@[simp] theorem State.drawn_inbox (s : State) : (s.drawn).inbox = s.inbox := rfl
@[simp] theorem State.drawn_ctx (s : State) : (s.drawn).ctx = s.ctx := rfl

/-! State.noSlot -/
@[simp] theorem State.noSlot_cores (s : State) : (s.noSlot).cores = s.cores := rfl
@[simp] theorem State.noSlot_dies (s : State) : (s.noSlot).dies = s.dies := rfl
@[simp] theorem State.noSlot_arrays (s : State) : (s.noSlot).arrays = s.arrays := rfl
@[simp] theorem State.noSlot_links (s : State) : (s.noSlot).links = s.links := rfl
@[simp] theorem State.noSlot_remotes (s : State) : (s.noSlot).remotes = s.remotes := rfl
@[simp] theorem State.noSlot_mem (s : State) : (s.noSlot).mem = s.mem := rfl
@[simp] theorem State.noSlot_poison (s : State) : (s.noSlot).poison = s.poison := rfl
@[simp] theorem State.noSlot_correctable (s : State) : (s.noSlot).correctable = s.correctable := rfl
@[simp] theorem State.noSlot_tlb (s : State) : (s.noSlot).tlb = s.tlb := rfl
@[simp] theorem State.noSlot_glog (s : State) : (s.noSlot).glog = s.glog := rfl
@[simp] theorem State.noSlot_gpos (s : State) : (s.noSlot).gpos = s.gpos := rfl
@[simp] theorem State.noSlot_host (s : State) : (s.noSlot).host = s.host := rfl
@[simp] theorem State.noSlot_hostErr (s : State) : (s.noSlot).hostErr = s.hostErr := rfl
@[simp] theorem State.noSlot_mailbox (s : State) : (s.noSlot).mailbox = s.mailbox := rfl
@[simp] theorem State.noSlot_saved (s : State) : (s.noSlot).saved = s.saved := rfl
@[simp] theorem State.noSlot_images (s : State) : (s.noSlot).images = s.images := rfl
@[simp] theorem State.noSlot_arrImages (s : State) : (s.noSlot).arrImages = s.arrImages := rfl
@[simp] theorem State.noSlot_pairs (s : State) : (s.noSlot).pairs = s.pairs := rfl
@[simp] theorem State.noSlot_unpub (s : State) : (s.noSlot).unpub = s.unpub := rfl
@[simp] theorem State.noSlot_sends (s : State) : (s.noSlot).sends = s.sends := rfl
@[simp] theorem State.noSlot_hazelCache (s : State) : (s.noSlot).hazelCache = s.hazelCache := rfl
@[simp] theorem State.noSlot_hazelRegions (s : State) : (s.noSlot).hazelRegions = s.hazelRegions := rfl
@[simp] theorem State.noSlot_ucie (s : State) : (s.noSlot).ucie = s.ucie := rfl
@[simp] theorem State.noSlot_outbox (s : State) : (s.noSlot).outbox = s.outbox := rfl
@[simp] theorem State.noSlot_steplen (s : State) : (s.noSlot).steplen = s.steplen := rfl
@[simp] theorem State.noSlot_phase (s : State) : (s.noSlot).phase = s.phase := rfl
@[simp] theorem State.noSlot_clock (s : State) : (s.noSlot).clock = s.clock := rfl
@[simp] theorem State.noSlot_gsc (s : State) : (s.noSlot).gsc = s.gsc := rfl
@[simp] theorem State.noSlot_chipid (s : State) : (s.noSlot).chipid = s.chipid := rfl
@[simp] theorem State.noSlot_hazel (s : State) : (s.noSlot).hazel = s.hazel := rfl
@[simp] theorem State.noSlot_seq (s : State) : (s.noSlot).seq = s.seq := rfl
@[simp] theorem State.noSlot_draws (s : State) : (s.noSlot).draws = s.draws := rfl
@[simp] theorem State.noSlot_agenda (s : State) : (s.noSlot).agenda = s.agenda := rfl
@[simp] theorem State.noSlot_inbox (s : State) : (s.noSlot).inbox = s.inbox := rfl
@[simp] theorem State.noSlot_ctx (s : State) : (s.noSlot).ctx = s.ctx := rfl

/-! State.setArr -/
@[simp] theorem State.setArr_cores (s : State) (n : Nat) (a : WArray) : (s.setArr n a).cores = s.cores := rfl
@[simp] theorem State.setArr_dies (s : State) (n : Nat) (a : WArray) : (s.setArr n a).dies = s.dies := rfl
@[simp] theorem State.setArr_links (s : State) (n : Nat) (a : WArray) : (s.setArr n a).links = s.links := rfl
@[simp] theorem State.setArr_remotes (s : State) (n : Nat) (a : WArray) : (s.setArr n a).remotes = s.remotes := rfl
@[simp] theorem State.setArr_mem (s : State) (n : Nat) (a : WArray) : (s.setArr n a).mem = s.mem := rfl
@[simp] theorem State.setArr_poison (s : State) (n : Nat) (a : WArray) : (s.setArr n a).poison = s.poison := rfl
@[simp] theorem State.setArr_correctable (s : State) (n : Nat) (a : WArray) : (s.setArr n a).correctable = s.correctable := rfl
@[simp] theorem State.setArr_tlb (s : State) (n : Nat) (a : WArray) : (s.setArr n a).tlb = s.tlb := rfl
@[simp] theorem State.setArr_glog (s : State) (n : Nat) (a : WArray) : (s.setArr n a).glog = s.glog := rfl
@[simp] theorem State.setArr_gpos (s : State) (n : Nat) (a : WArray) : (s.setArr n a).gpos = s.gpos := rfl
@[simp] theorem State.setArr_host (s : State) (n : Nat) (a : WArray) : (s.setArr n a).host = s.host := rfl
@[simp] theorem State.setArr_hostErr (s : State) (n : Nat) (a : WArray) : (s.setArr n a).hostErr = s.hostErr := rfl
@[simp] theorem State.setArr_mailbox (s : State) (n : Nat) (a : WArray) : (s.setArr n a).mailbox = s.mailbox := rfl
@[simp] theorem State.setArr_saved (s : State) (n : Nat) (a : WArray) : (s.setArr n a).saved = s.saved := rfl
@[simp] theorem State.setArr_images (s : State) (n : Nat) (a : WArray) : (s.setArr n a).images = s.images := rfl
@[simp] theorem State.setArr_arrImages (s : State) (n : Nat) (a : WArray) : (s.setArr n a).arrImages = s.arrImages := rfl
@[simp] theorem State.setArr_pairs (s : State) (n : Nat) (a : WArray) : (s.setArr n a).pairs = s.pairs := rfl
@[simp] theorem State.setArr_unpub (s : State) (n : Nat) (a : WArray) : (s.setArr n a).unpub = s.unpub := rfl
@[simp] theorem State.setArr_sends (s : State) (n : Nat) (a : WArray) : (s.setArr n a).sends = s.sends := rfl
@[simp] theorem State.setArr_hazelCache (s : State) (n : Nat) (a : WArray) : (s.setArr n a).hazelCache = s.hazelCache := rfl
@[simp] theorem State.setArr_hazelRegions (s : State) (n : Nat) (a : WArray) : (s.setArr n a).hazelRegions = s.hazelRegions := rfl
@[simp] theorem State.setArr_ucie (s : State) (n : Nat) (a : WArray) : (s.setArr n a).ucie = s.ucie := rfl
@[simp] theorem State.setArr_outbox (s : State) (n : Nat) (a : WArray) : (s.setArr n a).outbox = s.outbox := rfl
@[simp] theorem State.setArr_steplen (s : State) (n : Nat) (a : WArray) : (s.setArr n a).steplen = s.steplen := rfl
@[simp] theorem State.setArr_phase (s : State) (n : Nat) (a : WArray) : (s.setArr n a).phase = s.phase := rfl
@[simp] theorem State.setArr_clock (s : State) (n : Nat) (a : WArray) : (s.setArr n a).clock = s.clock := rfl
@[simp] theorem State.setArr_gsc (s : State) (n : Nat) (a : WArray) : (s.setArr n a).gsc = s.gsc := rfl
@[simp] theorem State.setArr_chipid (s : State) (n : Nat) (a : WArray) : (s.setArr n a).chipid = s.chipid := rfl
@[simp] theorem State.setArr_hazel (s : State) (n : Nat) (a : WArray) : (s.setArr n a).hazel = s.hazel := rfl
@[simp] theorem State.setArr_seq (s : State) (n : Nat) (a : WArray) : (s.setArr n a).seq = s.seq := rfl
@[simp] theorem State.setArr_draws (s : State) (n : Nat) (a : WArray) : (s.setArr n a).draws = s.draws := rfl
@[simp] theorem State.setArr_turn (s : State) (n : Nat) (a : WArray) : (s.setArr n a).turn = s.turn := rfl
@[simp] theorem State.setArr_agenda (s : State) (n : Nat) (a : WArray) : (s.setArr n a).agenda = s.agenda := rfl
@[simp] theorem State.setArr_inbox (s : State) (n : Nat) (a : WArray) : (s.setArr n a).inbox = s.inbox := rfl
@[simp] theorem State.setArr_ctx (s : State) (n : Nat) (a : WArray) : (s.setArr n a).ctx = s.ctx := rfl

/-! State.setLink -/
@[simp] theorem State.setLink_cores (s : State) (n : Nat) (l : Link) : (s.setLink n l).cores = s.cores := rfl
@[simp] theorem State.setLink_dies (s : State) (n : Nat) (l : Link) : (s.setLink n l).dies = s.dies := rfl
@[simp] theorem State.setLink_arrays (s : State) (n : Nat) (l : Link) : (s.setLink n l).arrays = s.arrays := rfl
@[simp] theorem State.setLink_remotes (s : State) (n : Nat) (l : Link) : (s.setLink n l).remotes = s.remotes := rfl
@[simp] theorem State.setLink_mem (s : State) (n : Nat) (l : Link) : (s.setLink n l).mem = s.mem := rfl
@[simp] theorem State.setLink_poison (s : State) (n : Nat) (l : Link) : (s.setLink n l).poison = s.poison := rfl
@[simp] theorem State.setLink_correctable (s : State) (n : Nat) (l : Link) : (s.setLink n l).correctable = s.correctable := rfl
@[simp] theorem State.setLink_tlb (s : State) (n : Nat) (l : Link) : (s.setLink n l).tlb = s.tlb := rfl
@[simp] theorem State.setLink_glog (s : State) (n : Nat) (l : Link) : (s.setLink n l).glog = s.glog := rfl
@[simp] theorem State.setLink_gpos (s : State) (n : Nat) (l : Link) : (s.setLink n l).gpos = s.gpos := rfl
@[simp] theorem State.setLink_host (s : State) (n : Nat) (l : Link) : (s.setLink n l).host = s.host := rfl
@[simp] theorem State.setLink_hostErr (s : State) (n : Nat) (l : Link) : (s.setLink n l).hostErr = s.hostErr := rfl
@[simp] theorem State.setLink_mailbox (s : State) (n : Nat) (l : Link) : (s.setLink n l).mailbox = s.mailbox := rfl
@[simp] theorem State.setLink_saved (s : State) (n : Nat) (l : Link) : (s.setLink n l).saved = s.saved := rfl
@[simp] theorem State.setLink_images (s : State) (n : Nat) (l : Link) : (s.setLink n l).images = s.images := rfl
@[simp] theorem State.setLink_arrImages (s : State) (n : Nat) (l : Link) : (s.setLink n l).arrImages = s.arrImages := rfl
@[simp] theorem State.setLink_pairs (s : State) (n : Nat) (l : Link) : (s.setLink n l).pairs = s.pairs := rfl
@[simp] theorem State.setLink_unpub (s : State) (n : Nat) (l : Link) : (s.setLink n l).unpub = s.unpub := rfl
@[simp] theorem State.setLink_sends (s : State) (n : Nat) (l : Link) : (s.setLink n l).sends = s.sends := rfl
@[simp] theorem State.setLink_hazelCache (s : State) (n : Nat) (l : Link) : (s.setLink n l).hazelCache = s.hazelCache := rfl
@[simp] theorem State.setLink_hazelRegions (s : State) (n : Nat) (l : Link) : (s.setLink n l).hazelRegions = s.hazelRegions := rfl
@[simp] theorem State.setLink_ucie (s : State) (n : Nat) (l : Link) : (s.setLink n l).ucie = s.ucie := rfl
@[simp] theorem State.setLink_outbox (s : State) (n : Nat) (l : Link) : (s.setLink n l).outbox = s.outbox := rfl
@[simp] theorem State.setLink_steplen (s : State) (n : Nat) (l : Link) : (s.setLink n l).steplen = s.steplen := rfl
@[simp] theorem State.setLink_phase (s : State) (n : Nat) (l : Link) : (s.setLink n l).phase = s.phase := rfl
@[simp] theorem State.setLink_clock (s : State) (n : Nat) (l : Link) : (s.setLink n l).clock = s.clock := rfl
@[simp] theorem State.setLink_gsc (s : State) (n : Nat) (l : Link) : (s.setLink n l).gsc = s.gsc := rfl
@[simp] theorem State.setLink_chipid (s : State) (n : Nat) (l : Link) : (s.setLink n l).chipid = s.chipid := rfl
@[simp] theorem State.setLink_hazel (s : State) (n : Nat) (l : Link) : (s.setLink n l).hazel = s.hazel := rfl
@[simp] theorem State.setLink_seq (s : State) (n : Nat) (l : Link) : (s.setLink n l).seq = s.seq := rfl
@[simp] theorem State.setLink_draws (s : State) (n : Nat) (l : Link) : (s.setLink n l).draws = s.draws := rfl
@[simp] theorem State.setLink_turn (s : State) (n : Nat) (l : Link) : (s.setLink n l).turn = s.turn := rfl
@[simp] theorem State.setLink_agenda (s : State) (n : Nat) (l : Link) : (s.setLink n l).agenda = s.agenda := rfl
@[simp] theorem State.setLink_inbox (s : State) (n : Nat) (l : Link) : (s.setLink n l).inbox = s.inbox := rfl
@[simp] theorem State.setLink_ctx (s : State) (n : Nat) (l : Link) : (s.setLink n l).ctx = s.ctx := rfl

/-! State.pwriteN -/
@[simp] theorem State.pwriteN_cores (s : State) (j : Word) (a : Nat) (bs : List Byte) : (s.pwriteN j a bs).cores = s.cores := rfl
@[simp] theorem State.pwriteN_dies (s : State) (j : Word) (a : Nat) (bs : List Byte) : (s.pwriteN j a bs).dies = s.dies := rfl
@[simp] theorem State.pwriteN_arrays (s : State) (j : Word) (a : Nat) (bs : List Byte) : (s.pwriteN j a bs).arrays = s.arrays := rfl
@[simp] theorem State.pwriteN_links (s : State) (j : Word) (a : Nat) (bs : List Byte) : (s.pwriteN j a bs).links = s.links := rfl
@[simp] theorem State.pwriteN_remotes (s : State) (j : Word) (a : Nat) (bs : List Byte) : (s.pwriteN j a bs).remotes = s.remotes := rfl
@[simp] theorem State.pwriteN_correctable (s : State) (j : Word) (a : Nat) (bs : List Byte) : (s.pwriteN j a bs).correctable = s.correctable := rfl
@[simp] theorem State.pwriteN_tlb (s : State) (j : Word) (a : Nat) (bs : List Byte) : (s.pwriteN j a bs).tlb = s.tlb := rfl
@[simp] theorem State.pwriteN_host (s : State) (j : Word) (a : Nat) (bs : List Byte) : (s.pwriteN j a bs).host = s.host := rfl
@[simp] theorem State.pwriteN_hostErr (s : State) (j : Word) (a : Nat) (bs : List Byte) : (s.pwriteN j a bs).hostErr = s.hostErr := rfl
@[simp] theorem State.pwriteN_mailbox (s : State) (j : Word) (a : Nat) (bs : List Byte) : (s.pwriteN j a bs).mailbox = s.mailbox := rfl
@[simp] theorem State.pwriteN_saved (s : State) (j : Word) (a : Nat) (bs : List Byte) : (s.pwriteN j a bs).saved = s.saved := rfl
@[simp] theorem State.pwriteN_images (s : State) (j : Word) (a : Nat) (bs : List Byte) : (s.pwriteN j a bs).images = s.images := rfl
@[simp] theorem State.pwriteN_arrImages (s : State) (j : Word) (a : Nat) (bs : List Byte) : (s.pwriteN j a bs).arrImages = s.arrImages := rfl
@[simp] theorem State.pwriteN_pairs (s : State) (j : Word) (a : Nat) (bs : List Byte) : (s.pwriteN j a bs).pairs = s.pairs := rfl
@[simp] theorem State.pwriteN_sends (s : State) (j : Word) (a : Nat) (bs : List Byte) : (s.pwriteN j a bs).sends = s.sends := rfl
@[simp] theorem State.pwriteN_hazelCache (s : State) (j : Word) (a : Nat) (bs : List Byte) : (s.pwriteN j a bs).hazelCache = s.hazelCache := rfl
@[simp] theorem State.pwriteN_hazelRegions (s : State) (j : Word) (a : Nat) (bs : List Byte) : (s.pwriteN j a bs).hazelRegions = s.hazelRegions := rfl
@[simp] theorem State.pwriteN_ucie (s : State) (j : Word) (a : Nat) (bs : List Byte) : (s.pwriteN j a bs).ucie = s.ucie := rfl
@[simp] theorem State.pwriteN_outbox (s : State) (j : Word) (a : Nat) (bs : List Byte) : (s.pwriteN j a bs).outbox = s.outbox := rfl
@[simp] theorem State.pwriteN_steplen (s : State) (j : Word) (a : Nat) (bs : List Byte) : (s.pwriteN j a bs).steplen = s.steplen := rfl
@[simp] theorem State.pwriteN_phase (s : State) (j : Word) (a : Nat) (bs : List Byte) : (s.pwriteN j a bs).phase = s.phase := rfl
@[simp] theorem State.pwriteN_clock (s : State) (j : Word) (a : Nat) (bs : List Byte) : (s.pwriteN j a bs).clock = s.clock := rfl
@[simp] theorem State.pwriteN_gsc (s : State) (j : Word) (a : Nat) (bs : List Byte) : (s.pwriteN j a bs).gsc = s.gsc := rfl
@[simp] theorem State.pwriteN_chipid (s : State) (j : Word) (a : Nat) (bs : List Byte) : (s.pwriteN j a bs).chipid = s.chipid := rfl
@[simp] theorem State.pwriteN_hazel (s : State) (j : Word) (a : Nat) (bs : List Byte) : (s.pwriteN j a bs).hazel = s.hazel := rfl
@[simp] theorem State.pwriteN_seq (s : State) (j : Word) (a : Nat) (bs : List Byte) : (s.pwriteN j a bs).seq = s.seq := rfl
@[simp] theorem State.pwriteN_draws (s : State) (j : Word) (a : Nat) (bs : List Byte) : (s.pwriteN j a bs).draws = s.draws := rfl
@[simp] theorem State.pwriteN_turn (s : State) (j : Word) (a : Nat) (bs : List Byte) : (s.pwriteN j a bs).turn = s.turn := rfl
@[simp] theorem State.pwriteN_agenda (s : State) (j : Word) (a : Nat) (bs : List Byte) : (s.pwriteN j a bs).agenda = s.agenda := rfl
@[simp] theorem State.pwriteN_inbox (s : State) (j : Word) (a : Nat) (bs : List Byte) : (s.pwriteN j a bs).inbox = s.inbox := rfl
@[simp] theorem State.pwriteN_ctx (s : State) (j : Word) (a : Nat) (bs : List Byte) : (s.pwriteN j a bs).ctx = s.ctx := rfl

/-! Core.setStrm -/
@[simp] theorem Core.setStrm_active (k : Core) (i : StreamId) (t : Strm) : (k.setStrm i t).active = k.active := rfl
@[simp] theorem Core.setStrm_lost (k : Core) (i : StreamId) (t : Strm) : (k.setStrm i t).lost = k.lost := rfl
@[simp] theorem Core.setStrm_jobid (k : Core) (i : StreamId) (t : Strm) : (k.setStrm i t).jobid = k.jobid := rfl
@[simp] theorem Core.setStrm_asid (k : Core) (i : StreamId) (t : Strm) : (k.setStrm i t).asid = k.asid := rfl
@[simp] theorem Core.setStrm_queue (k : Core) (i : StreamId) (t : Strm) : (k.setStrm i t).queue = k.queue := rfl
@[simp] theorem Core.setStrm_slot (k : Core) (i : StreamId) (t : Strm) : (k.setStrm i t).slot = k.slot := rfl
@[simp] theorem Core.setStrm_dispatched (k : Core) (i : StreamId) (t : Strm) : (k.setStrm i t).dispatched = k.dispatched := rfl
@[simp] theorem Core.setStrm_raddr (k : Core) (i : StreamId) (t : Strm) : (k.setStrm i t).raddr = k.raddr := rfl
@[simp] theorem Core.setStrm_saddr (k : Core) (i : StreamId) (t : Strm) : (k.setStrm i t).saddr = k.saddr := rfl
@[simp] theorem Core.setStrm_fp (k : Core) (i : StreamId) (t : Strm) : (k.setStrm i t).fp = k.fp := rfl
@[simp] theorem Core.setStrm_parent (k : Core) (i : StreamId) (t : Strm) : (k.setStrm i t).parent = k.parent := rfl
@[simp] theorem Core.setStrm_dprio (k : Core) (i : StreamId) (t : Strm) : (k.setStrm i t).dprio = k.dprio := rfl
@[simp] theorem Core.setStrm_bprio (k : Core) (i : StreamId) (t : Strm) : (k.setStrm i t).bprio = k.bprio := rfl
@[simp] theorem Core.setStrm_eprio (k : Core) (i : StreamId) (t : Strm) : (k.setStrm i t).eprio = k.eprio := rfl
@[simp] theorem Core.setStrm_dmr (k : Core) (i : StreamId) (t : Strm) : (k.setStrm i t).dmr = k.dmr := rfl
@[simp] theorem Core.setStrm_bib (k : Core) (i : StreamId) (t : Strm) : (k.setStrm i t).bib = k.bib := rfl
@[simp] theorem Core.setStrm_bdepth (k : Core) (i : StreamId) (t : Strm) : (k.setStrm i t).bdepth = k.bdepth := rfl
@[simp] theorem Core.setStrm_barPend (k : Core) (i : StreamId) (t : Strm) : (k.setStrm i t).barPend = k.barPend := rfl
@[simp] theorem Core.setStrm_utvec (k : Core) (i : StreamId) (t : Strm) : (k.setStrm i t).utvec = k.utvec := rfl
@[simp] theorem Core.setStrm_utrec (k : Core) (i : StreamId) (t : Strm) : (k.setStrm i t).utrec = k.utrec := rfl
@[simp] theorem Core.setStrm_lodcnt (k : Core) (i : StreamId) (t : Strm) : (k.setStrm i t).lodcnt = k.lodcnt := rfl
@[simp] theorem Core.setStrm_fflags (k : Core) (i : StreamId) (t : Strm) : (k.setStrm i t).fflags = k.fflags := rfl
@[simp] theorem Core.setStrm_vtype (k : Core) (i : StreamId) (t : Strm) : (k.setStrm i t).vtype = k.vtype := rfl
@[simp] theorem Core.setStrm_twin (k : Core) (i : StreamId) (t : Strm) : (k.setStrm i t).twin = k.twin := rfl
@[simp] theorem Core.setStrm_cktol (k : Core) (i : StreamId) (t : Strm) : (k.setStrm i t).cktol = k.cktol := rfl
@[simp] theorem Core.setStrm_xtlim (k : Core) (i : StreamId) (t : Strm) : (k.setStrm i t).xtlim = k.xtlim := rfl
@[simp] theorem Core.setStrm_v (k : Core) (i : StreamId) (t : Strm) : (k.setStrm i t).v = k.v := rfl
@[simp] theorem Core.setStrm_sems (k : Core) (i : StreamId) (t : Strm) : (k.setStrm i t).sems = k.sems := rfl
@[simp] theorem Core.setStrm_queues (k : Core) (i : StreamId) (t : Strm) : (k.setStrm i t).queues = k.queues := rfl
@[simp] theorem Core.setStrm_tileQ (k : Core) (i : StreamId) (t : Strm) : (k.setStrm i t).tileQ = k.tileQ := rfl
@[simp] theorem Core.setStrm_arrQ (k : Core) (i : StreamId) (t : Strm) : (k.setStrm i t).arrQ = k.arrQ := rfl
@[simp] theorem Core.setStrm_collQ (k : Core) (i : StreamId) (t : Strm) : (k.setStrm i t).collQ = k.collQ := rfl
@[simp] theorem Core.setStrm_linkQ (k : Core) (i : StreamId) (t : Strm) : (k.setStrm i t).linkQ = k.linkQ := rfl
@[simp] theorem Core.setStrm_copyQ (k : Core) (i : StreamId) (t : Strm) : (k.setStrm i t).copyQ = k.copyQ := rfl
@[simp] theorem Core.setStrm_outQ (k : Core) (i : StreamId) (t : Strm) : (k.setStrm i t).outQ = k.outQ := rfl
@[simp] theorem Core.setStrm_rngQ (k : Core) (i : StreamId) (t : Strm) : (k.setStrm i t).rngQ = k.rngQ := rfl
@[simp] theorem Core.setStrm_verQ (k : Core) (i : StreamId) (t : Strm) : (k.setStrm i t).verQ = k.verQ := rfl
@[simp] theorem Core.setStrm_copies (k : Core) (i : StreamId) (t : Strm) : (k.setStrm i t).copies = k.copies := rfl
@[simp] theorem Core.setStrm_tile (k : Core) (i : StreamId) (t : Strm) : (k.setStrm i t).tile = k.tile := rfl
@[simp] theorem Core.setStrm_planes (k : Core) (i : StreamId) (t : Strm) : (k.setStrm i t).planes = k.planes := rfl
@[simp] theorem Core.setStrm_tacaps (k : Core) (i : StreamId) (t : Strm) : (k.setStrm i t).tacaps = k.tacaps := rfl
@[simp] theorem Core.setStrm_divFree (k : Core) (i : StreamId) (t : Strm) : (k.setStrm i t).divFree = k.divFree := rfl
@[simp] theorem Core.setStrm_bank (k : Core) (i : StreamId) (t : Strm) : (k.setStrm i t).bank = k.bank := rfl
@[simp] theorem Core.setStrm_handle (k : Core) (i : StreamId) (t : Strm) : (k.setStrm i t).handle = k.handle := rfl
@[simp] theorem Core.setStrm_wouts (k : Core) (i : StreamId) (t : Strm) : (k.setStrm i t).wouts = k.wouts := rfl
@[simp] theorem Core.setStrm_wroom (k : Core) (i : StreamId) (t : Strm) : (k.setStrm i t).wroom = k.wroom := rfl
@[simp] theorem Core.setStrm_wranges (k : Core) (i : StreamId) (t : Strm) : (k.setStrm i t).wranges = k.wranges := rfl
@[simp] theorem Core.setStrm_trees (k : Core) (i : StreamId) (t : Strm) : (k.setStrm i t).trees = k.trees := rfl
@[simp] theorem Core.setStrm_tokens (k : Core) (i : StreamId) (t : Strm) : (k.setStrm i t).tokens = k.tokens := rfl
@[simp] theorem Core.setStrm_macros (k : Core) (i : StreamId) (t : Strm) : (k.setStrm i t).macros = k.macros := rfl
@[simp] theorem Core.setStrm_spad (k : Core) (i : StreamId) (t : Strm) : (k.setStrm i t).spad = k.spad := rfl
@[simp] theorem Core.setStrm_split (k : Core) (i : StreamId) (t : Strm) : (k.setStrm i t).split = k.split := rfl
@[simp] theorem Core.setStrm_frame (k : Core) (i : StreamId) (t : Strm) : (k.setStrm i t).frame = k.frame := rfl
@[simp] theorem Core.setStrm_fuse (k : Core) (i : StreamId) (t : Strm) : (k.setStrm i t).fuse = k.fuse := rfl
@[simp] theorem Core.setStrm_spadPoison (k : Core) (i : StreamId) (t : Strm) : (k.setStrm i t).spadPoison = k.spadPoison := rfl
@[simp] theorem Core.setStrm_locked (k : Core) (i : StreamId) (t : Strm) : (k.setStrm i t).locked = k.locked := rfl
@[simp] theorem Core.setStrm_hostBuf (k : Core) (i : StreamId) (t : Strm) : (k.setStrm i t).hostBuf = k.hostBuf := rfl
@[simp] theorem Core.setStrm_hostCopies (k : Core) (i : StreamId) (t : Strm) : (k.setStrm i t).hostCopies = k.hostCopies := rfl
@[simp] theorem Core.setStrm_khor (k : Core) (i : StreamId) (t : Strm) : (k.setStrm i t).khor = k.khor := rfl
@[simp] theorem Core.setStrm_log (k : Core) (i : StreamId) (t : Strm) : (k.setStrm i t).log = k.log := rfl
@[simp] theorem Core.setStrm_handler (k : Core) (i : StreamId) (t : Strm) : (k.setStrm i t).handler = k.handler := rfl
@[simp] theorem Core.setStrm_held (k : Core) (i : StreamId) (t : Strm) : (k.setStrm i t).held = k.held := rfl
@[simp] theorem Core.setStrm_stopped (k : Core) (i : StreamId) (t : Strm) : (k.setStrm i t).stopped = k.stopped := rfl
@[simp] theorem Core.setStrm_trapSlot (k : Core) (i : StreamId) (t : Strm) : (k.setStrm i t).trapSlot = k.trapSlot := rfl
@[simp] theorem Core.setStrm_aresSlot (k : Core) (i : StreamId) (t : Strm) : (k.setStrm i t).aresSlot = k.aresSlot := rfl
@[simp] theorem Core.setStrm_checkpoint (k : Core) (i : StreamId) (t : Strm) : (k.setStrm i t).checkpoint = k.checkpoint := rfl
@[simp] theorem Core.setStrm_request (k : Core) (i : StreamId) (t : Strm) : (k.setStrm i t).request = k.request := rfl
@[simp] theorem Core.setStrm_mismatch (k : Core) (i : StreamId) (t : Strm) : (k.setStrm i t).mismatch = k.mismatch := rfl
@[simp] theorem Core.setStrm_spcfg (k : Core) (i : StreamId) (t : Strm) : (k.setStrm i t).spcfg = k.spcfg := rfl
@[simp] theorem Core.setStrm_freeze (k : Core) (i : StreamId) (t : Strm) : (k.setStrm i t).freeze = k.freeze := rfl
@[simp] theorem Core.setStrm_saving (k : Core) (i : StreamId) (t : Strm) : (k.setStrm i t).saving = k.saving := rfl

/-! Strm.putS -/
@[simp] theorem Strm.putS_used (t : Strm) (n : BitVec 5) (v : Word) : (t.putS n v).used = t.used := by unfold Strm.putS; split <;> rfl
@[simp] theorem Strm.putS_ended (t : Strm) (n : BitVec 5) (v : Word) : (t.putS n v).ended = t.ended := by unfold Strm.putS; split <;> rfl
@[simp] theorem Strm.putS_halted (t : Strm) (n : BitVec 5) (v : Word) : (t.putS n v).halted = t.halted := by unfold Strm.putS; split <;> rfl
@[simp] theorem Strm.putS_arrived (t : Strm) (n : BitVec 5) (v : Word) : (t.putS n v).arrived = t.arrived := by unfold Strm.putS; split <;> rfl
@[simp] theorem Strm.putS_pc (t : Strm) (n : BitVec 5) (v : Word) : (t.putS n v).pc = t.pc := by unfold Strm.putS; split <;> rfl
@[simp] theorem Strm.putS_slots (t : Strm) (n : BitVec 5) (v : Word) : (t.putS n v).slots = t.slots := by unfold Strm.putS; split <;> rfl
@[simp] theorem Strm.putS_p (t : Strm) (n : BitVec 5) (v : Word) : (t.putS n v).p = t.p := by unfold Strm.putS; split <;> rfl
@[simp] theorem Strm.putS_nests (t : Strm) (n : BitVec 5) (v : Word) : (t.putS n v).nests = t.nests := by unfold Strm.putS; split <;> rfl
@[simp] theorem Strm.putS_blk (t : Strm) (n : BitVec 5) (v : Word) : (t.putS n v).blk = t.blk := by unfold Strm.putS; split <;> rfl
@[simp] theorem Strm.putS_taken (t : Strm) (n : BitVec 5) (v : Word) : (t.putS n v).taken = t.taken := by unfold Strm.putS; split <;> rfl
@[simp] theorem Strm.putS_lastLM (t : Strm) (n : BitVec 5) (v : Word) : (t.putS n v).lastLM = t.lastLM := by unfold Strm.putS; split <;> rfl
@[simp] theorem Strm.putS_mac (t : Strm) (n : BitVec 5) (v : Word) : (t.putS n v).mac = t.mac := by unfold Strm.putS; split <;> rfl
@[simp] theorem Strm.putS_pending (t : Strm) (n : BitVec 5) (v : Word) : (t.putS n v).pending = t.pending := by unfold Strm.putS; split <;> rfl
@[simp] theorem Strm.putS_armed (t : Strm) (n : BitVec 5) (v : Word) : (t.putS n v).armed = t.armed := by unfold Strm.putS; split <;> rfl
@[simp] theorem Strm.putS_wlim (t : Strm) (n : BitVec 5) (v : Word) : (t.putS n v).wlim = t.wlim := by unfold Strm.putS; split <;> rfl
@[simp] theorem Strm.putS_wait (t : Strm) (n : BitVec 5) (v : Word) : (t.putS n v).wait = t.wait := by unfold Strm.putS; split <;> rfl
@[simp] theorem Strm.putS_seed (t : Strm) (n : BitVec 5) (v : Word) : (t.putS n v).seed = t.seed := by unfold Strm.putS; split <;> rfl
@[simp] theorem Strm.putS_faults (t : Strm) (n : BitVec 5) (v : Word) : (t.putS n v).faults = t.faults := by unfold Strm.putS; split <;> rfl
@[simp] theorem Strm.putS_expl (t : Strm) (n : BitVec 5) (v : Word) : (t.putS n v).expl = t.expl := by unfold Strm.putS; split <;> rfl
@[simp] theorem Strm.putS_horizon (t : Strm) (n : BitVec 5) (v : Word) : (t.putS n v).horizon = t.horizon := by unfold Strm.putS; split <;> rfl
@[simp] theorem Strm.putS_kseen (t : Strm) (n : BitVec 5) (v : Word) : (t.putS n v).kseen = t.kseen := by unfold Strm.putS; split <;> rfl
@[simp] theorem Strm.putS_draining (t : Strm) (n : BitVec 5) (v : Word) : (t.putS n v).draining = t.draining := by unfold Strm.putS; split <;> rfl
@[simp] theorem Strm.putS_idle (t : Strm) (n : BitVec 5) (v : Word) : (t.putS n v).idle = t.idle := by unfold Strm.putS; split <;> rfl
@[simp] theorem Strm.putS_readyAt (t : Strm) (n : BitVec 5) (v : Word) : (t.putS n v).readyAt = t.readyAt := by unfold Strm.putS; split <;> rfl
@[simp] theorem Strm.putS_fetchAt (t : Strm) (n : BitVec 5) (v : Word) : (t.putS n v).fetchAt = t.fetchAt := by unfold Strm.putS; split <;> rfl
@[simp] theorem Strm.putS_arriving (t : Strm) (n : BitVec 5) (v : Word) : (t.putS n v).arriving = t.arriving := by unfold Strm.putS; split <;> rfl
@[simp] theorem Strm.putS_peerWait (t : Strm) (n : BitVec 5) (v : Word) : (t.putS n v).peerWait = t.peerWait := by unfold Strm.putS; split <;> rfl
@[simp] theorem Strm.putS_peerStores (t : Strm) (n : BitVec 5) (v : Word) : (t.putS n v).peerStores = t.peerStores := by unfold Strm.putS; split <;> rfl

/-! Strm.putP -/
@[simp] theorem Strm.putP_used (t : Strm) (n : BitVec 7) (v : BitVec 64) : (t.putP n v).used = t.used := by unfold Strm.putP; split <;> rfl
@[simp] theorem Strm.putP_ended (t : Strm) (n : BitVec 7) (v : BitVec 64) : (t.putP n v).ended = t.ended := by unfold Strm.putP; split <;> rfl
@[simp] theorem Strm.putP_halted (t : Strm) (n : BitVec 7) (v : BitVec 64) : (t.putP n v).halted = t.halted := by unfold Strm.putP; split <;> rfl
@[simp] theorem Strm.putP_arrived (t : Strm) (n : BitVec 7) (v : BitVec 64) : (t.putP n v).arrived = t.arrived := by unfold Strm.putP; split <;> rfl
@[simp] theorem Strm.putP_pc (t : Strm) (n : BitVec 7) (v : BitVec 64) : (t.putP n v).pc = t.pc := by unfold Strm.putP; split <;> rfl
@[simp] theorem Strm.putP_slots (t : Strm) (n : BitVec 7) (v : BitVec 64) : (t.putP n v).slots = t.slots := by unfold Strm.putP; split <;> rfl
@[simp] theorem Strm.putP_s (t : Strm) (n : BitVec 7) (v : BitVec 64) : (t.putP n v).s = t.s := by unfold Strm.putP; split <;> rfl
@[simp] theorem Strm.putP_nests (t : Strm) (n : BitVec 7) (v : BitVec 64) : (t.putP n v).nests = t.nests := by unfold Strm.putP; split <;> rfl
@[simp] theorem Strm.putP_blk (t : Strm) (n : BitVec 7) (v : BitVec 64) : (t.putP n v).blk = t.blk := by unfold Strm.putP; split <;> rfl
@[simp] theorem Strm.putP_taken (t : Strm) (n : BitVec 7) (v : BitVec 64) : (t.putP n v).taken = t.taken := by unfold Strm.putP; split <;> rfl
@[simp] theorem Strm.putP_lastLM (t : Strm) (n : BitVec 7) (v : BitVec 64) : (t.putP n v).lastLM = t.lastLM := by unfold Strm.putP; split <;> rfl
@[simp] theorem Strm.putP_mac (t : Strm) (n : BitVec 7) (v : BitVec 64) : (t.putP n v).mac = t.mac := by unfold Strm.putP; split <;> rfl
@[simp] theorem Strm.putP_pending (t : Strm) (n : BitVec 7) (v : BitVec 64) : (t.putP n v).pending = t.pending := by unfold Strm.putP; split <;> rfl
@[simp] theorem Strm.putP_armed (t : Strm) (n : BitVec 7) (v : BitVec 64) : (t.putP n v).armed = t.armed := by unfold Strm.putP; split <;> rfl
@[simp] theorem Strm.putP_wlim (t : Strm) (n : BitVec 7) (v : BitVec 64) : (t.putP n v).wlim = t.wlim := by unfold Strm.putP; split <;> rfl
@[simp] theorem Strm.putP_wait (t : Strm) (n : BitVec 7) (v : BitVec 64) : (t.putP n v).wait = t.wait := by unfold Strm.putP; split <;> rfl
@[simp] theorem Strm.putP_seed (t : Strm) (n : BitVec 7) (v : BitVec 64) : (t.putP n v).seed = t.seed := by unfold Strm.putP; split <;> rfl
@[simp] theorem Strm.putP_faults (t : Strm) (n : BitVec 7) (v : BitVec 64) : (t.putP n v).faults = t.faults := by unfold Strm.putP; split <;> rfl
@[simp] theorem Strm.putP_expl (t : Strm) (n : BitVec 7) (v : BitVec 64) : (t.putP n v).expl = t.expl := by unfold Strm.putP; split <;> rfl
@[simp] theorem Strm.putP_horizon (t : Strm) (n : BitVec 7) (v : BitVec 64) : (t.putP n v).horizon = t.horizon := by unfold Strm.putP; split <;> rfl
@[simp] theorem Strm.putP_kseen (t : Strm) (n : BitVec 7) (v : BitVec 64) : (t.putP n v).kseen = t.kseen := by unfold Strm.putP; split <;> rfl
@[simp] theorem Strm.putP_draining (t : Strm) (n : BitVec 7) (v : BitVec 64) : (t.putP n v).draining = t.draining := by unfold Strm.putP; split <;> rfl
@[simp] theorem Strm.putP_idle (t : Strm) (n : BitVec 7) (v : BitVec 64) : (t.putP n v).idle = t.idle := by unfold Strm.putP; split <;> rfl
@[simp] theorem Strm.putP_readyAt (t : Strm) (n : BitVec 7) (v : BitVec 64) : (t.putP n v).readyAt = t.readyAt := by unfold Strm.putP; split <;> rfl
@[simp] theorem Strm.putP_fetchAt (t : Strm) (n : BitVec 7) (v : BitVec 64) : (t.putP n v).fetchAt = t.fetchAt := by unfold Strm.putP; split <;> rfl
@[simp] theorem Strm.putP_arriving (t : Strm) (n : BitVec 7) (v : BitVec 64) : (t.putP n v).arriving = t.arriving := by unfold Strm.putP; split <;> rfl
@[simp] theorem Strm.putP_peerWait (t : Strm) (n : BitVec 7) (v : BitVec 64) : (t.putP n v).peerWait = t.peerWait := by unfold Strm.putP; split <;> rfl
@[simp] theorem Strm.putP_peerStores (t : Strm) (n : BitVec 7) (v : BitVec 64) : (t.putP n v).peerStores = t.peerStores := by unfold Strm.putP; split <;> rfl

/-! Strm.advance -/
@[simp] theorem Strm.advance_used (t : Strm) (c n st : Nat) : (t.advance c n st).used = t.used := by unfold Strm.advance; split <;> (try split) <;> rfl
@[simp] theorem Strm.advance_ended (t : Strm) (c n st : Nat) : (t.advance c n st).ended = t.ended := by unfold Strm.advance; split <;> (try split) <;> rfl
@[simp] theorem Strm.advance_halted (t : Strm) (c n st : Nat) : (t.advance c n st).halted = t.halted := by unfold Strm.advance; split <;> (try split) <;> rfl
@[simp] theorem Strm.advance_arrived (t : Strm) (c n st : Nat) : (t.advance c n st).arrived = t.arrived := by unfold Strm.advance; split <;> (try split) <;> rfl
@[simp] theorem Strm.advance_s (t : Strm) (c n st : Nat) : (t.advance c n st).s = t.s := by unfold Strm.advance; split <;> (try split) <;> rfl
@[simp] theorem Strm.advance_p (t : Strm) (c n st : Nat) : (t.advance c n st).p = t.p := by unfold Strm.advance; split <;> (try split) <;> rfl
@[simp] theorem Strm.advance_nests (t : Strm) (c n st : Nat) : (t.advance c n st).nests = t.nests := by unfold Strm.advance; split <;> (try split) <;> rfl
@[simp] theorem Strm.advance_blk (t : Strm) (c n st : Nat) : (t.advance c n st).blk = t.blk := by unfold Strm.advance; split <;> (try split) <;> rfl
@[simp] theorem Strm.advance_taken (t : Strm) (c n st : Nat) : (t.advance c n st).taken = t.taken := by unfold Strm.advance; split <;> (try split) <;> rfl
@[simp] theorem Strm.advance_lastLM (t : Strm) (c n st : Nat) : (t.advance c n st).lastLM = t.lastLM := by unfold Strm.advance; split <;> (try split) <;> rfl
@[simp] theorem Strm.advance_pending (t : Strm) (c n st : Nat) : (t.advance c n st).pending = t.pending := by unfold Strm.advance; split <;> (try split) <;> rfl
@[simp] theorem Strm.advance_armed (t : Strm) (c n st : Nat) : (t.advance c n st).armed = t.armed := by unfold Strm.advance; split <;> (try split) <;> rfl
@[simp] theorem Strm.advance_wlim (t : Strm) (c n st : Nat) : (t.advance c n st).wlim = t.wlim := by unfold Strm.advance; split <;> (try split) <;> rfl
@[simp] theorem Strm.advance_seed (t : Strm) (c n st : Nat) : (t.advance c n st).seed = t.seed := by unfold Strm.advance; split <;> (try split) <;> rfl
@[simp] theorem Strm.advance_faults (t : Strm) (c n st : Nat) : (t.advance c n st).faults = t.faults := by unfold Strm.advance; split <;> (try split) <;> rfl
@[simp] theorem Strm.advance_expl (t : Strm) (c n st : Nat) : (t.advance c n st).expl = t.expl := by unfold Strm.advance; split <;> (try split) <;> rfl
@[simp] theorem Strm.advance_horizon (t : Strm) (c n st : Nat) : (t.advance c n st).horizon = t.horizon := by unfold Strm.advance; split <;> (try split) <;> rfl
@[simp] theorem Strm.advance_kseen (t : Strm) (c n st : Nat) : (t.advance c n st).kseen = t.kseen := by unfold Strm.advance; split <;> (try split) <;> rfl
@[simp] theorem Strm.advance_fetchAt (t : Strm) (c n st : Nat) : (t.advance c n st).fetchAt = t.fetchAt := by unfold Strm.advance; split <;> (try split) <;> rfl
@[simp] theorem Strm.advance_arriving (t : Strm) (c n st : Nat) : (t.advance c n st).arriving = t.arriving := by unfold Strm.advance; split <;> (try split) <;> rfl
@[simp] theorem Strm.advance_peerStores (t : Strm) (c n st : Nat) : (t.advance c n st).peerStores = t.peerStores := by unfold Strm.advance; split <;> (try split) <;> rfl

/-! Reads after updates. -/
@[simp] theorem State.core_setCore (s : State) (c : CoreId) (k : Core) : (s.setCore c k).core c = k := by
  simp [State.core, State.setCore]
theorem State.core_setCore_of_ne (s : State) (c d : CoreId) (k : Core) (h : c ≠ d) : (s.setCore c k).core d = s.core d := by
  simp [State.core, State.setCore, Fin.val_inj, h]
@[simp] theorem State.die_setDie (s : State) (d : Fin 2) (x : Die) : (s.setDie d x).die d = x := by
  simp [State.die, State.setDie]
@[simp] theorem State.die_setCore (s : State) (c : CoreId) (k : Core) (d : Fin 2) : (s.setCore c k).die d = s.die d := rfl
@[simp] theorem State.core_setDie (s : State) (d : Fin 2) (x : Die) (c : CoreId) : (s.setDie d x).core c = s.core c := rfl
@[simp] theorem Core.strm_setStrm (k : Core) (i : StreamId) (t : Strm) : (k.setStrm i t).strm i = t := by
  simp [Core.strm, Core.setStrm]
theorem Core.strm_setStrm_of_ne (k : Core) (i j : StreamId) (t : Strm) (h : i ≠ j) : (k.setStrm i t).strm j = k.strm j := by
  have e : i.num ≠ j.num := by cases i <;> cases j <;> simp_all [StreamId.num]
  simp [Core.strm, Core.setStrm, e]
@[simp] theorem Core.setStrm_setStrm (k : Core) (i : StreamId) (t u : Strm) : (k.setStrm i t).setStrm i u = k.setStrm i u := by
  simp [Core.setStrm]
@[simp] theorem State.setCore_setCore (s : State) (c : CoreId) (k l : Core) : (s.setCore c k).setCore c l = s.setCore c l := by
  simp [State.setCore]
@[simp] theorem State.me_setMe (s : State) (k : Core) : (s.setMe k).me = k := State.core_setCore s _ k
@[simp] theorem State.setMe_setMe (s : State) (k l : Core) : (s.setMe k).setMe l = s.setMe l := State.setCore_setCore s _ k l
@[simp] theorem State.str_setStr (s : State) (t : Strm) : (s.setStr t).str = t := by
  simp [State.str, State.setStr]
@[simp] theorem State.setStr_setStr (s : State) (t u : Strm) : (s.setStr t).setStr u = s.setStr u := by
  simp [State.setStr]
@[simp] theorem State.str_setMe (s : State) (k : Core) : (s.setMe k).str = k.strm s.ctx.strm := by simp [State.str]

end Sys2Proof.Machine
end

