-- ==== Sys2Proof/Laws/Ops.lean ====
section
/-! SUPPORT. What each shared operation of the meanings can do, said once: how a meaning ends, what a guard decides, how an engine command is
issued and run, and what the operations on memory and on the host's buffer leave alone. -/
namespace Sys2Proof.Machine

/-! Ends. -/

/-- Every end of a meaning is a next state: an instruction completes, waits or takes a trap. -/
theorem Res.finish_next (s0 : State) (r : Res) : ∃ t, r.finish s0 = .next t := by
  cases r with
  | done s => exact ⟨_, rfl⟩
  | goto s a => exact ⟨_, rfl⟩
  | drain s => exact ⟨_, rfl⟩
  | stay s => exact ⟨_, rfl⟩
  | trap s t => exact ⟨_, rfl⟩
  | wait s kind obj phys stage reg =>
    rcases h : s.block kind obj phys stage reg with ⟨s1, _ | t⟩
    · exact ⟨s1, by simp only [Res.finish, h]⟩
    · exact ⟨_, by simp only [Res.finish, h]; rfl⟩

/-- A wait that a full table refuses leaves nothing of the instruction but its trap (R353). -/
theorem Res.finish_full {s s1 : State} {kind : WaitKind} {obj phys stage : Nat} {reg : Bool} {t : TrapSpec}
    (h : s.block kind obj phys stage reg = (s1, some t)) (hc : t.cause = cWFTFULL) (s0 : State) :
    (Res.wait s kind obj phys stage reg).finish s0 = .next (s0.raiseOwn s1.ctx.core s1.ctx.strm t) := by
  simp [Res.finish, h, hc]

@[simp] theorem Res.finish_done (s0 s : State) : (Res.done s).finish s0 = .next s.retire := rfl
@[simp] theorem Res.finish_goto (s0 s : State) (a : Word) : (Res.goto s a).finish s0 = .next (s.transfer a) := rfl
@[simp] theorem Res.finish_drain (s0 s : State) : (Res.drain s).finish s0 = .next (s.setStr { s.str with draining := true }) := rfl
@[simp] theorem Res.finish_stay (s0 s : State) : (Res.stay s).finish s0 = .next s := rfl
@[simp] theorem Res.finish_trap (s0 s : State) (t : TrapSpec) :
    (Res.trap s t).finish s0 = .next (s.raiseOwn s.ctx.core s.ctx.strm t) := rfl

/-! Guards. -/

/-- Under a true guard a meaning is its body (R34). -/
theorem State.issue_true {s : State} (h : s.guard = true) (body : State → Res) : s.issue body = (body s).finish s := by simp [State.issue, h]
/-- Under a false guard a meaning only takes its slots (R34). -/
theorem State.issue_false {s : State} (h : s.guard = false) (body : State → Res) : s.issue body = .next s.retire := by simp [State.issue, h]
theorem State.issue_next (s : State) (body : State → Res) : ∃ t, s.issue body = .next t := by
  cases h : s.guard with
  | true => rw [State.issue_true h]; exact Res.finish_next _ _
  | false => exact ⟨_, State.issue_false h body⟩
theorem State.always_next (s : State) (body : State → Res) : ∃ t, s.always body = .next t := Res.finish_next _ _

/-! Engine commands. -/

/-- A command as an instruction: it goes to the tail of its queue, or stalls, or the checker holds it (R42, R92, R425). -/
theorem State.command_issue {s : State} (hf : s.ctx.ev.flag = false) (hg : s.guard = true) (e : Eng) (i : Instr) (f : E)
    (more : State → List Word) (body : State → Cmd → CmdRes) : s.command e i f more body = (s.issueCmd e i f more).finish s := by
  simp [State.command, hf, State.issue, hg]
theorem State.command_false {s : State} (hf : s.ctx.ev.flag = false) (hg : s.guard = false) (e : Eng) (i : Instr) (f : E)
    (more : State → List Word) (body : State → Cmd → CmdRes) : s.command e i f more body = .next s.retire := by
  simp [State.command, hf, State.issue, hg]
/-- A command as the event of its slot at the head of its queue (R42). -/
theorem State.command_run {s : State} (hf : s.ctx.ev.flag = true) (c : CoreId) (hu : s.ctx.ev.unit = c.val) (e : Eng) (i : Instr) (f : E)
    (more : State → List Word) (body : State → Cmd → CmdRes) :
    s.command e i f more body = .next (s.runCmd c e s.ctx.ev.val body) := by
  have h : s.ctx.ev.unit < 136 := by rw [hu]; exact c.isLt
  have hc : (⟨s.ctx.ev.unit, h⟩ : CoreId) = c := Fin.ext hu
  simp [State.command, hf, h, hc]
theorem State.command_next (s : State) (h : s.ctx.ev.unit < 136) (e : Eng) (i : Instr) (f : E) (more : State → List Word)
    (body : State → Cmd → CmdRes) : ∃ t, s.command e i f more body = .next t := by
  unfold State.command
  split
  · exact ⟨_, rfl⟩
  · exact State.issue_next _ _
/-- A head command that the checker has produced too, and that needs no unit any more, runs its body (R13, R42). -/
theorem State.runCmd_body {s : State} {c : CoreId} {e : Eng} {x : Cmd} (hh : (s.core c).headCmd e = some x)
    (ha : (s.core c).active = true) (hk : x.checked = true) (ht : x.trapped = false) (hz : (s.core c).freeze = 0)
    (hw : x.code.head.we = false ∨ x.unit = true ∨ x.failing = true) (body : State → Cmd → CmdRes) :
    s.runCmd c e x.ord body = (body (s.asCmd c e x) x).close s c e x := by
  unfold State.runCmd
  dsimp only
  rw [hh]
  have h3 : (x.code.head.we && !x.unit && !x.failing) = false := by
    rcases hw with h | h | h <;> simp [h]
  simp [ha, hk, ht, hz, h3]
@[simp] theorem State.asCmd_core (s : State) (c : CoreId) (e : Eng) (x : Cmd) (d : CoreId) : (s.asCmd c e x).core d = s.core d := rfl
@[simp] theorem State.asCmd_die (s : State) (c : CoreId) (e : Eng) (x : Cmd) (d : Fin 2) : (s.asCmd c e x).die d = s.die d := rfl
@[simp] theorem State.asCmd_mem (s : State) (c : CoreId) (e : Eng) (x : Cmd) : (s.asCmd c e x).mem = s.mem := rfl
@[simp] theorem State.asCmd_ctx_core (s : State) (c : CoreId) (e : Eng) (x : Cmd) : (s.asCmd c e x).ctx.core = c := rfl
@[simp] theorem State.asCmd_ctx_strm (s : State) (c : CoreId) (e : Eng) (x : Cmd) : (s.asCmd c e x).ctx.strm = e.strm := rfl
@[simp] theorem State.asCmd_me (s : State) (c : CoreId) (e : Eng) (x : Cmd) : (s.asCmd c e x).me = s.core c := rfl
/-- The end of a completed command: it leaves its queue and its signal field acts. -/
theorem CmdRes.close_done (s s0 : State) (c : CoreId) (e : Eng) (x : Cmd) :
    (CmdRes.done s).close s0 c e x =
      s.setCore c (if x.code.head.se then ((s.core c).setCmds e ((s.core c).cmds e).tail).signal x.code.head.ssem.toNat 1
        else (s.core c).setCmds e ((s.core c).cmds e).tail) := by
  simp only [CmdRes.close, State.popCmd, State.cmdSignal]
  split <;> simp
@[simp] theorem CmdRes.close_leave (s s0 : State) (c : CoreId) (e : Eng) (x : Cmd) : (CmdRes.leave s).close s0 c e x = s.popCmd c e := rfl

/-! Marks and stores. -/

/-- A state that differs from another in what an A or D mark can change: memory, its poison and its order of stores, and the TLBs. -/
def State.MarksOf (s t : State) : Prop := ∃ m p u g n l, t = { s with mem := m, poison := p, unpub := u, glog := g, gpos := n, tlb := l }

theorem State.MarksOf.refl (s : State) : s.MarksOf s := ⟨s.mem, s.poison, s.unpub, s.glog, s.gpos, s.tlb, rfl⟩
theorem State.MarksOf.trans {a b c : State} : a.MarksOf b → b.MarksOf c → a.MarksOf c := by
  rintro ⟨_, _, _, _, _, _, rfl⟩ ⟨m, p, u, g, n, l, rfl⟩; exact ⟨m, p, u, g, n, l, rfl⟩

theorem State.markLeaf_frame (s : State) (w : Walker) (acc : Acc) (l : Leaf) : s.MarksOf (s.markLeaf w acc l) := by
  unfold State.markLeaf
  dsimp only
  split
  · exact .refl s
  · split
    · exact ⟨s.mem, s.poison, s.unpub, s.glog, s.gpos, _, rfl⟩
    · exact ⟨_, _, _, _, _, _, rfl⟩

/-- A and D marks change memory, its poison and its order of stores, and the TLBs; nothing else (R287). -/
theorem State.mark_frame (s : State) (w : Walker) (acc : Acc) (ps : List Piece) : s.MarksOf (s.mark w acc ps) := by
  unfold State.mark
  induction ps generalizing s with
  | nil => exact .refl s
  | cons q r ih => exact (s.markLeaf_frame w acc q.leaf).trans (ih _)

/-- Stores into translated pieces change memory, its poison and its order of stores; nothing else (R309). -/
theorem State.writePieces_frame (j : Word) (s : State) (ps : List Piece) (bs : List Byte) :
    ∃ m p u g n, State.writePieces j s ps bs = { s with mem := m, poison := p, unpub := u, glog := g, gpos := n } := by
  induction ps generalizing s bs with
  | nil => exact ⟨s.mem, s.poison, s.unpub, s.glog, s.gpos, rfl⟩
  | cons q r ih =>
    obtain ⟨m, p, u, g, n, h⟩ := ih (s.pwriteN j q.pa (bs.take q.len)) (bs.drop q.len)
    exact ⟨m, p, u, g, n, by rw [State.writePieces, h]; rfl⟩

@[simp] theorem State.mark_cores (s : State) (w : Walker) (acc : Acc) (ps : List Piece) : (s.mark w acc ps).cores = s.cores := by
  obtain ⟨_, _, _, _, _, _, h⟩ := s.mark_frame w acc ps; rw [h]
@[simp] theorem State.mark_dies (s : State) (w : Walker) (acc : Acc) (ps : List Piece) : (s.mark w acc ps).dies = s.dies := by
  obtain ⟨_, _, _, _, _, _, h⟩ := s.mark_frame w acc ps; rw [h]
@[simp] theorem State.mark_ctx (s : State) (w : Walker) (acc : Acc) (ps : List Piece) : (s.mark w acc ps).ctx = s.ctx := by
  obtain ⟨_, _, _, _, _, _, h⟩ := s.mark_frame w acc ps; rw [h]
@[simp] theorem State.writePieces_cores (j : Word) (s : State) (ps : List Piece) (bs : List Byte) :
    (State.writePieces j s ps bs).cores = s.cores := by obtain ⟨_, _, _, _, _, h⟩ := State.writePieces_frame j s ps bs; rw [h]
@[simp] theorem State.writePieces_dies (j : Word) (s : State) (ps : List Piece) (bs : List Byte) :
    (State.writePieces j s ps bs).dies = s.dies := by obtain ⟨_, _, _, _, _, h⟩ := State.writePieces_frame j s ps bs; rw [h]
@[simp] theorem State.writePieces_ctx (j : Word) (s : State) (ps : List Piece) (bs : List Byte) :
    (State.writePieces j s ps bs).ctx = s.ctx := by obtain ⟨_, _, _, _, _, h⟩ := State.writePieces_frame j s ps bs; rw [h]

/-! Ranges and published words. -/

/-- A range zeroed with ECC reads as zero, and memory outside it is as it was (R458). -/
theorem State.read_zeroRange (s : State) (a n x : Nat) :
    (s.zeroRange a n).mem.read x = if a ≤ x ∧ x < a + n then 0 else s.mem.read x := Memory.read_clear ..
theorem State.wf_zeroRange {s : State} (h : s.mem.wf = true) (a n : Nat) : (s.zeroRange a n).mem.wf = true := Memory.wf_clear h a n
/-- Publishing stores the words of the job's copies and no other (R316, R331). -/
theorem State.wf_publish {s : State} (h : s.mem.wf = true) (asid : BitVec 13) (n : Nat) (job : Word) :
    (s.publish asid n job).mem.wf = true := Memory.wf_foldl_writeN h _ _ _

/-! Images. -/

/-- Sections take no more than their least lengths and the room that they share (R424). -/
theorem shareRoom_sum (l : List Nat) (room draws : Nat) : (shareRoom l room draws).sum ≤ l.sum + 8 * room := by
  induction l generalizing room draws with
  | nil => simp [shareRoom]
  | cons least t ih =>
    have h := ih (room - Config.freeChoice draws % (room + 1)) (draws + 1)
    have : Config.freeChoice draws % (room + 1) < room + 1 := Nat.mod_lt _ (Nat.succ_pos _)
    simp only [shareRoom, List.sum_cons]
    omega

/-! The host's buffer. -/

/-- A write at the host memory controller changes no device memory and not the context (R297). -/
theorem State.hostWrite_frame {s s1 : State} {a : Nat} {bs : List Byte} (h : s.hostWrite a bs = some s1) :
    s1.mem = s.mem ∧ s1.ctx = s.ctx ∧ s1.seq = s.seq := by
  unfold State.hostWrite at h
  split at h
  · cases h
  · split at h
    · cases h; exact ⟨rfl, rfl, rfl⟩
    · split at h
      · cases h
      · cases h; exact ⟨rfl, rfl, rfl⟩

/-- A buffered store that reaches the host changes no device memory and not the context (R297, R314). -/
theorem State.deliverStore_frame (s : State) (c : CoreId) (x : HostStore) :
    (s.deliverStore c x).mem = s.mem ∧ (s.deliverStore c x).ctx = s.ctx ∧ (s.deliverStore c x).seq = s.seq := by
  unfold State.deliverStore
  dsimp only
  generalize s.offWindow x.addr x.bytes.length = refused
  induction lineParts (x.bytes.length + 1) x.addr x.bytes generalizing s with
  | nil => exact ⟨rfl, rfl, rfl⟩
  | cons p t ih =>
    rw [List.foldl_cons]
    cases h : if refused then none else s.hostWrite p.1 p.2 with
    | some s1 =>
      obtain ⟨a, b, d⟩ := State.hostWrite_frame (s := s) (s1 := s1) (a := p.1) (bs := p.2) (by
        cases refused with
        | true => simp at h
        | false => simpa using h)
      obtain ⟨a', b', d'⟩ := ih s1
      exact ⟨a'.trans a, b'.trans b, d'.trans d⟩
    | none => exact ih _

theorem State.foldl_deliver_frame (c : CoreId) (l : List HostStore) (s : State) :
    (l.foldl (fun s x => s.deliverStore c x) s).mem = s.mem ∧ (l.foldl (fun s x => s.deliverStore c x) s).ctx = s.ctx ∧
    (l.foldl (fun s x => s.deliverStore c x) s).seq = s.seq := by
  induction l generalizing s with
  | nil => exact ⟨rfl, rfl, rfl⟩
  | cons x t ih =>
    obtain ⟨a, b, d⟩ := ih (s.deliverStore c x)
    obtain ⟨a', b', d'⟩ := s.deliverStore_frame c x
    exact ⟨a.trans a', b.trans b', d.trans d'⟩

@[simp] theorem State.drainHost_mem (s : State) (c : CoreId) (sel : HostStore → Bool) : (s.drainHost c sel).mem = s.mem :=
  (State.foldl_deliver_frame c _ _).1
@[simp] theorem State.drainHost_ctx (s : State) (c : CoreId) (sel : HostStore → Bool) : (s.drainHost c sel).ctx = s.ctx :=
  (State.foldl_deliver_frame c _ _).2.1
@[simp] theorem State.drainStream_mem (s : State) (c : CoreId) (i : StreamId) : (s.drainStream c i).mem = s.mem := State.drainHost_mem ..
@[simp] theorem State.drainStream_ctx (s : State) (c : CoreId) (i : StreamId) : (s.drainStream c i).ctx = s.ctx := State.drainHost_ctx ..

end Sys2Proof.Machine
end

