-- ==== Sys2Proof/Laws/PerInstr.lean ====
section
/-! SUPPORT. A family of statements about every instruction as syntax, one lemma for each constructor: the words of an instruction. -/
namespace Sys2Proof.Laws.Encodable

/-- The words of an instruction take at most four halfwords (R26, R27), and all but the 16-bit words and the events, which have none, take
32-bit words only. -/
def Statement (i : Instr) : Prop :=
  ∀ h : Head, (Decode.encode ⟨h, i⟩).length ≤ 4 ∧ (i.headKind = .plain ∨ i.headKind = .sem → (Decode.encode ⟨h, i⟩).length % 2 = 0)

theorem of_even {i : Instr} (hl : ∀ h : Head, (Decode.encode ⟨h, i⟩).length = 2 ∨ (Decode.encode ⟨h, i⟩).length = 4) : Statement i :=
  fun h => ⟨by rcases hl h with e | e <;> omega, fun _ => by rcases hl h with e | e <;> omega⟩
theorem of_other {i : Instr} (hk : i.headKind ≠ .plain ∧ i.headKind ≠ .sem) (hl : ∀ h : Head, (Decode.encode ⟨h, i⟩).length ≤ 4) :
    Statement i := fun h => ⟨hl h, fun e => absurd e (by rcases hk with ⟨a, b⟩; simp [a, b])⟩

theorem fqry f : Statement (.fqry f) := of_even fun _ => by first | exact .inl rfl | exact .inr rfl
theorem br f : Statement (.br f) := of_even fun _ => by first | exact .inl rfl | exact .inr rfl
theorem bri f : Statement (.bri f) := of_even fun _ => by first | exact .inl rfl | exact .inr rfl
theorem call f : Statement (.call f) := of_even fun _ => by first | exact .inl rfl | exact .inr rfl
theorem ret f : Statement (.ret f) := of_even fun _ => by first | exact .inl rfl | exact .inr rfl
theorem mcall f : Statement (.mcall f) := of_even fun _ => by first | exact .inl rfl | exact .inr rfl
theorem mdef f : Statement (.mdef f) := of_even fun _ => by first | exact .inl rfl | exact .inr rfl
theorem nest f : Statement (.nest f) := of_even fun _ => by first | exact .inl rfl | exact .inr rfl
theorem wlimset f : Statement (.wlimset f) := of_even fun _ => by first | exact .inl rfl | exact .inr rfl
theorem mov16 a d : Statement (.mov16 a d) := of_other (show HeadKind.bare ≠ .plain ∧ HeadKind.bare ≠ .sem by decide) fun _ => Nat.le_of_ble_eq_true rfl
theorem add16 a d : Statement (.add16 a d) := of_other (show HeadKind.bare ≠ .plain ∧ HeadKind.bare ≠ .sem by decide) fun _ => Nat.le_of_ble_eq_true rfl
theorem addi16 imm d : Statement (.addi16 imm d) := of_other (show HeadKind.bare ≠ .plain ∧ HeadKind.bare ≠ .sem by decide) fun _ => Nat.le_of_ble_eq_true rfl
theorem br16 imm : Statement (.br16 imm) := of_other (show HeadKind.bare ≠ .plain ∧ HeadKind.bare ≠ .sem by decide) fun _ => Nat.le_of_ble_eq_true rfl
theorem tok16Push k : Statement (.tok16Push k) := of_other (show HeadKind.bare ≠ .plain ∧ HeadKind.bare ≠ .sem by decide) fun _ => Nat.le_of_ble_eq_true rfl
theorem tok16Wait k : Statement (.tok16Wait k) := of_other (show HeadKind.bare ≠ .plain ∧ HeadKind.bare ≠ .sem by decide) fun _ => Nat.le_of_ble_eq_true rfl
theorem cont f : Statement (.cont f) := of_even fun _ => by first | exact .inl rfl | exact .inr rfl
theorem prio f : Statement (.prio f) := of_even fun _ => by first | exact .inl rfl | exact .inr rfl
theorem domain f : Statement (.domain f) := of_even fun _ => by first | exact .inl rfl | exact .inr rfl
theorem joini f : Statement (.joini f) := of_even fun _ => by first | exact .inl rfl | exact .inr rfl
theorem self f : Statement (.self f) := of_even fun _ => by first | exact .inl rfl | exact .inr rfl
theorem trcrec f : Statement (.trcrec f) := of_even fun _ => by first | exact .inl rfl | exact .inr rfl
theorem trcrpl f : Statement (.trcrpl f) := of_even fun _ => by first | exact .inl rfl | exact .inr rfl
theorem trcstat f : Statement (.trcstat f) := of_even fun _ => by first | exact .inl rfl | exact .inr rfl
theorem add f : Statement (.add f) := of_even fun _ => by first | exact .inl rfl | exact .inr rfl
theorem sub f : Statement (.sub f) := of_even fun _ => by first | exact .inl rfl | exact .inr rfl
theorem and f : Statement (.and f) := of_even fun _ => by first | exact .inl rfl | exact .inr rfl
theorem or f : Statement (.or f) := of_even fun _ => by first | exact .inl rfl | exact .inr rfl
theorem xor f : Statement (.xor f) := of_even fun _ => by first | exact .inl rfl | exact .inr rfl
theorem andn f : Statement (.andn f) := of_even fun _ => by first | exact .inl rfl | exact .inr rfl
theorem shl f : Statement (.shl f) := of_even fun _ => by first | exact .inl rfl | exact .inr rfl
theorem shr f : Statement (.shr f) := of_even fun _ => by first | exact .inl rfl | exact .inr rfl
theorem sra f : Statement (.sra f) := of_even fun _ => by first | exact .inl rfl | exact .inr rfl
theorem rotr f : Statement (.rotr f) := of_even fun _ => by first | exact .inl rfl | exact .inr rfl
theorem min f : Statement (.min f) := of_even fun _ => by first | exact .inl rfl | exact .inr rfl
theorem max f : Statement (.max f) := of_even fun _ => by first | exact .inl rfl | exact .inr rfl
theorem minu f : Statement (.minu f) := of_even fun _ => by first | exact .inl rfl | exact .inr rfl
theorem maxu f : Statement (.maxu f) := of_even fun _ => by first | exact .inl rfl | exact .inr rfl
theorem clz f : Statement (.clz f) := of_even fun _ => by first | exact .inl rfl | exact .inr rfl
theorem popc f : Statement (.popc f) := of_even fun _ => by first | exact .inl rfl | exact .inr rfl
theorem mul f : Statement (.mul f) := of_even fun _ => by first | exact .inl rfl | exact .inr rfl
theorem mulh f : Statement (.mulh f) := of_even fun _ => by first | exact .inl rfl | exact .inr rfl
theorem mulhu f : Statement (.mulhu f) := of_even fun _ => by first | exact .inl rfl | exact .inr rfl
theorem div f : Statement (.div f) := of_even fun _ => by first | exact .inl rfl | exact .inr rfl
theorem divu f : Statement (.divu f) := of_even fun _ => by first | exact .inl rfl | exact .inr rfl
theorem rem f : Statement (.rem f) := of_even fun _ => by first | exact .inl rfl | exact .inr rfl
theorem remu f : Statement (.remu f) := of_even fun _ => by first | exact .inl rfl | exact .inr rfl
theorem sel f : Statement (.sel f) := of_even fun _ => by first | exact .inl rfl | exact .inr rfl
theorem addi f : Statement (.addi f) := of_even fun _ => by first | exact .inl rfl | exact .inr rfl
theorem andi f : Statement (.andi f) := of_even fun _ => by first | exact .inl rfl | exact .inr rfl
theorem ori f : Statement (.ori f) := of_even fun _ => by first | exact .inl rfl | exact .inr rfl
theorem shli f : Statement (.shli f) := of_even fun _ => by first | exact .inl rfl | exact .inr rfl
theorem li f : Statement (.li f) := of_even fun _ => by first | exact .inl rfl | exact .inr rfl
theorem lih f : Statement (.lih f) := of_even fun _ => by first | exact .inl rfl | exact .inr rfl
theorem mov f : Statement (.mov f) := of_even fun _ => by first | exact .inl rfl | exact .inr rfl
theorem lea f : Statement (.lea f) := of_even fun _ => by first | exact .inl rfl | exact .inr rfl
theorem cmpeq f : Statement (.cmpeq f) := of_even fun _ => by first | exact .inl rfl | exact .inr rfl
theorem cmpne f : Statement (.cmpne f) := of_even fun _ => by first | exact .inl rfl | exact .inr rfl
theorem cmplt f : Statement (.cmplt f) := of_even fun _ => by first | exact .inl rfl | exact .inr rfl
theorem cmpltu f : Statement (.cmpltu f) := of_even fun _ => by first | exact .inl rfl | exact .inr rfl
theorem cmpge f : Statement (.cmpge f) := of_even fun _ => by first | exact .inl rfl | exact .inr rfl
theorem cmpgeu f : Statement (.cmpgeu f) := of_even fun _ => by first | exact .inl rfl | exact .inr rfl
theorem cmpeqi f : Statement (.cmpeqi f) := of_even fun _ => by first | exact .inl rfl | exact .inr rfl
theorem cmplti f : Statement (.cmplti f) := of_even fun _ => by first | exact .inl rfl | exact .inr rfl
theorem plogAnd f : Statement (.plogAnd f) := of_even fun _ => by first | exact .inl rfl | exact .inr rfl
theorem plogOr f : Statement (.plogOr f) := of_even fun _ => by first | exact .inl rfl | exact .inr rfl
theorem plogXor f : Statement (.plogXor f) := of_even fun _ => by first | exact .inl rfl | exact .inr rfl
theorem plogAndn f : Statement (.plogAndn f) := of_even fun _ => by first | exact .inl rfl | exact .inr rfl
theorem plogOrn f : Statement (.plogOrn f) := of_even fun _ => by first | exact .inl rfl | exact .inr rfl
theorem plogNot f : Statement (.plogNot f) := of_even fun _ => by first | exact .inl rfl | exact .inr rfl
theorem plogMov f : Statement (.plogMov f) := of_even fun _ => by first | exact .inl rfl | exact .inr rfl
theorem plogClr f : Statement (.plogClr f) := of_even fun _ => by first | exact .inl rfl | exact .inr rfl
theorem pget f : Statement (.pget f) := of_even fun _ => by first | exact .inl rfl | exact .inr rfl
theorem pput f : Statement (.pput f) := of_even fun _ => by first | exact .inl rfl | exact .inr rfl
theorem pcnt f : Statement (.pcnt f) := of_even fun _ => by first | exact .inl rfl | exact .inr rfl
theorem pfirst f : Statement (.pfirst f) := of_even fun _ => by first | exact .inl rfl | exact .inr rfl
theorem vadd f : Statement (.vadd f) := of_even fun _ => by first | exact .inl rfl | exact .inr rfl
theorem vsub f : Statement (.vsub f) := of_even fun _ => by first | exact .inl rfl | exact .inr rfl
theorem vmul f : Statement (.vmul f) := of_even fun _ => by first | exact .inl rfl | exact .inr rfl
theorem vfma f : Statement (.vfma f) := of_even fun _ => by first | exact .inl rfl | exact .inr rfl
theorem vmin f : Statement (.vmin f) := of_even fun _ => by first | exact .inl rfl | exact .inr rfl
theorem vmax f : Statement (.vmax f) := of_even fun _ => by first | exact .inl rfl | exact .inr rfl
theorem vabs f : Statement (.vabs f) := of_even fun _ => by first | exact .inl rfl | exact .inr rfl
theorem vneg f : Statement (.vneg f) := of_even fun _ => by first | exact .inl rfl | exact .inr rfl
theorem vdiv f : Statement (.vdiv f) := of_even fun _ => by first | exact .inl rfl | exact .inr rfl
theorem vsqrt f : Statement (.vsqrt f) := of_even fun _ => by first | exact .inl rfl | exact .inr rfl
theorem vrsq f : Statement (.vrsq f) := of_even fun _ => by first | exact .inl rfl | exact .inr rfl
theorem vrec f : Statement (.vrec f) := of_even fun _ => by first | exact .inl rfl | exact .inr rfl
theorem vexp2 f : Statement (.vexp2 f) := of_even fun _ => by first | exact .inl rfl | exact .inr rfl
theorem vlog2 f : Statement (.vlog2 f) := of_even fun _ => by first | exact .inl rfl | exact .inr rfl
theorem vand f : Statement (.vand f) := of_even fun _ => by first | exact .inl rfl | exact .inr rfl
theorem vor f : Statement (.vor f) := of_even fun _ => by first | exact .inl rfl | exact .inr rfl
theorem vxor f : Statement (.vxor f) := of_even fun _ => by first | exact .inl rfl | exact .inr rfl
theorem vnot f : Statement (.vnot f) := of_even fun _ => by first | exact .inl rfl | exact .inr rfl
theorem vshl f : Statement (.vshl f) := of_even fun _ => by first | exact .inl rfl | exact .inr rfl
theorem vshr f : Statement (.vshr f) := of_even fun _ => by first | exact .inl rfl | exact .inr rfl
theorem vsra f : Statement (.vsra f) := of_even fun _ => by first | exact .inl rfl | exact .inr rfl
theorem vclz f : Statement (.vclz f) := of_even fun _ => by first | exact .inl rfl | exact .inr rfl
theorem vcmpeq f : Statement (.vcmpeq f) := of_even fun _ => by first | exact .inl rfl | exact .inr rfl
theorem vcmpne f : Statement (.vcmpne f) := of_even fun _ => by first | exact .inl rfl | exact .inr rfl
theorem vcmplt f : Statement (.vcmplt f) := of_even fun _ => by first | exact .inl rfl | exact .inr rfl
theorem vcmple f : Statement (.vcmple f) := of_even fun _ => by first | exact .inl rfl | exact .inr rfl
theorem vcmpun f : Statement (.vcmpun f) := of_even fun _ => by first | exact .inl rfl | exact .inr rfl
theorem vclass f : Statement (.vclass f) := of_even fun _ => by first | exact .inl rfl | exact .inr rfl
theorem vsel f : Statement (.vsel f) := of_even fun _ => by first | exact .inl rfl | exact .inr rfl
theorem vmov f : Statement (.vmov f) := of_even fun _ => by first | exact .inl rfl | exact .inr rfl
theorem vbcast f : Statement (.vbcast f) := of_even fun _ => by first | exact .inl rfl | exact .inr rfl
theorem vlane f : Statement (.vlane f) := of_even fun _ => by first | exact .inl rfl | exact .inr rfl
theorem vext f : Statement (.vext f) := of_even fun _ => by first | exact .inl rfl | exact .inr rfl
theorem vins f : Statement (.vins f) := of_even fun _ => by first | exact .inl rfl | exact .inr rfl
theorem vperm f : Statement (.vperm f) := of_even fun _ => by first | exact .inl rfl | exact .inr rfl
theorem vslide f : Statement (.vslide f) := of_even fun _ => by first | exact .inl rfl | exact .inr rfl
theorem vred f : Statement (.vred f) := of_even fun _ => by first | exact .inl rfl | exact .inr rfl
theorem vscan f : Statement (.vscan f) := of_even fun _ => by first | exact .inl rfl | exact .inr rfl
theorem vdot f : Statement (.vdot f) := of_even fun _ => by first | exact .inl rfl | exact .inr rfl
theorem vsett f : Statement (.vsett f) := of_even fun _ => by first | exact .inl rfl | exact .inr rfl
theorem vgetf f : Statement (.vgetf f) := of_even fun _ => by first | exact .inl rfl | exact .inr rfl
theorem vsetf f : Statement (.vsetf f) := of_even fun _ => by first | exact .inl rfl | exact .inr rfl
theorem vseed f : Statement (.vseed f) := of_even fun _ => by first | exact .inl rfl | exact .inr rfl
theorem vcvt f : Statement (.vcvt f) := of_even fun _ => by first | exact .inl rfl | exact .inr rfl
theorem vpack f : Statement (.vpack f) := of_even fun _ => by first | exact .inl rfl | exact .inr rfl
theorem vunpk f : Statement (.vunpk f) := of_even fun _ => by first | exact .inl rfl | exact .inr rfl
theorem vscale f : Statement (.vscale f) := of_even fun _ => by first | exact .inl rfl | exact .inr rfl
theorem tawin f : Statement (.tawin f) := of_even fun _ => by first | exact .inl rfl | exact .inr rfl
theorem tamode f : Statement (.tamode f) := of_even fun _ => by first | exact .inl rfl | exact .inr rfl
theorem tarst f : Statement (.tarst f) := of_even fun _ => by first | exact .inl rfl | exact .inr rfl
theorem tadly f : Statement (.tadly f) := of_even fun _ => by first | exact .inl rfl | exact .inr rfl
theorem talnch f : Statement (.talnch f) := of_even fun _ => by first | exact .inl rfl | exact .inr rfl
theorem tacap f : Statement (.tacap f) := of_even fun _ => by first | exact .inl rfl | exact .inr rfl
theorem tastat f : Statement (.tastat f) := of_even fun _ => by first | exact .inl rfl | exact .inr rfl
theorem tld f : Statement (.tld f) := of_even fun _ => by first | exact .inl rfl | exact .inr rfl
theorem tst f : Statement (.tst f) := of_even fun _ => by first | exact .inl rfl | exact .inr rfl
theorem tzero f : Statement (.tzero f) := of_even fun _ => by first | exact .inl rfl | exact .inr rfl
theorem tmov f : Statement (.tmov f) := of_even fun _ => by first | exact .inl rfl | exact .inr rfl
theorem tmma f : Statement (.tmma f) := of_even fun _ => by first | exact .inl rfl | exact .inr rfl
theorem tmmas f : Statement (.tmmas f) := of_even fun _ => by first | exact .inl rfl | exact .inr rfl
theorem ttrn f : Statement (.ttrn f) := of_even fun _ => by first | exact .inl rfl | exact .inr rfl
theorem tcvt f : Statement (.tcvt f) := of_even fun _ => by first | exact .inl rfl | exact .inr rfl
theorem tfmt f : Statement (.tfmt f) := of_even fun _ => by first | exact .inl rfl | exact .inr rfl
theorem wbankSel f : Statement (.wbankSel f) := of_even fun _ => by first | exact .inl rfl | exact .inr rfl
theorem wbankClaim f : Statement (.wbankClaim f) := of_even fun _ => by first | exact .inl rfl | exact .inr rfl
theorem wbankRel f : Statement (.wbankRel f) := of_even fun _ => by first | exact .inl rfl | exact .inr rfl
theorem wregnDef f : Statement (.wregnDef f) := of_even fun _ => by first | exact .inl rfl | exact .inr rfl
theorem wregnRem f : Statement (.wregnRem f) := of_even fun _ => by first | exact .inl rfl | exact .inr rfl
theorem wldw f : Statement (.wldw f) := of_even fun _ => by first | exact .inl rfl | exact .inr rfl
theorem wstw f : Statement (.wstw f) := of_even fun _ => by first | exact .inl rfl | exact .inr rfl
theorem wadmit f : Statement (.wadmit f) := of_even fun _ => by first | exact .inl rfl | exact .inr rfl
theorem wcoll f : Statement (.wcoll f) := of_even fun _ => by first | exact .inl rfl | exact .inr rfl
theorem wver f : Statement (.wver f) := of_even fun _ => by first | exact .inl rfl | exact .inr rfl
theorem wopt f : Statement (.wopt f) := of_even fun _ => by first | exact .inl rfl | exact .inr rfl
theorem wcks f : Statement (.wcks f) := of_even fun _ => by first | exact .inl rfl | exact .inr rfl
theorem wsave f : Statement (.wsave f) := of_even fun _ => by first | exact .inl rfl | exact .inr rfl
theorem wrest f : Statement (.wrest f) := of_even fun _ => by first | exact .inl rfl | exact .inr rfl
theorem ldl f : Statement (.ldl f) := of_even fun _ => by first | exact .inl rfl | exact .inr rfl
theorem stl f : Statement (.stl f) := of_even fun _ => by first | exact .inl rfl | exact .inr rfl
theorem ldc f : Statement (.ldc f) := of_even fun _ => by first | exact .inl rfl | exact .inr rfl
theorem stc f : Statement (.stc f) := of_even fun _ => by first | exact .inl rfl | exact .inr rfl
theorem mstc f : Statement (.mstc f) := of_even fun _ => by first | exact .inl rfl | exact .inr rfl
theorem ldg f : Statement (.ldg f) := of_even fun _ => by first | exact .inl rfl | exact .inr rfl
theorem stg f : Statement (.stg f) := of_even fun _ => by first | exact .inl rfl | exact .inr rfl
theorem ldgq f : Statement (.ldgq f) := of_even fun _ => by first | exact .inl rfl | exact .inr rfl
theorem pfg f : Statement (.pfg f) := of_even fun _ => by first | exact .inl rfl | exact .inr rfl
theorem vgath f : Statement (.vgath f) := of_even fun _ => by first | exact .inl rfl | exact .inr rfl
theorem vscat f : Statement (.vscat f) := of_even fun _ => by first | exact .inl rfl | exact .inr rfl
theorem gathq f : Statement (.gathq f) := of_even fun _ => by first | exact .inl rfl | exact .inr rfl
theorem ldk f : Statement (.ldk f) := of_even fun _ => by first | exact .inl rfl | exact .inr rfl
theorem ldkq f : Statement (.ldkq f) := of_even fun _ => by first | exact .inl rfl | exact .inr rfl
theorem ldh f : Statement (.ldh f) := of_even fun _ => by first | exact .inl rfl | exact .inr rfl
theorem sth f : Statement (.sth f) := of_even fun _ => by first | exact .inl rfl | exact .inr rfl
theorem hflsh f : Statement (.hflsh f) := of_even fun _ => by first | exact .inl rfl | exact .inr rfl
theorem hinv f : Statement (.hinv f) := of_even fun _ => by first | exact .inl rfl | exact .inr rfl
theorem ldp f : Statement (.ldp f) := of_even fun _ => by first | exact .inl rfl | exact .inr rfl
theorem stp f : Statement (.stp f) := of_even fun _ => by first | exact .inl rfl | exact .inr rfl
theorem spcfg f : Statement (.spcfg f) := of_even fun _ => by first | exact .inl rfl | exact .inr rfl
theorem cinv f : Statement (.cinv f) := of_even fun _ => by first | exact .inl rfl | exact .inr rfl
theorem cflsh f : Statement (.cflsh f) := of_even fun _ => by first | exact .inl rfl | exact .inr rfl
theorem clkr f : Statement (.clkr f) := of_even fun _ => by first | exact .inl rfl | exact .inr rfl
theorem aadd sp f : Statement (.aadd sp f) := of_even fun _ => by first | exact .inl rfl | exact .inr rfl
theorem afadd sp f : Statement (.afadd sp f) := of_even fun _ => by first | exact .inl rfl | exact .inr rfl
theorem amin sp f : Statement (.amin sp f) := of_even fun _ => by first | exact .inl rfl | exact .inr rfl
theorem amax sp f : Statement (.amax sp f) := of_even fun _ => by first | exact .inl rfl | exact .inr rfl
theorem aand sp f : Statement (.aand sp f) := of_even fun _ => by first | exact .inl rfl | exact .inr rfl
theorem aor sp f : Statement (.aor sp f) := of_even fun _ => by first | exact .inl rfl | exact .inr rfl
theorem axor sp f : Statement (.axor sp f) := of_even fun _ => by first | exact .inl rfl | exact .inr rfl
theorem axchg sp f : Statement (.axchg sp f) := of_even fun _ => by first | exact .inl rfl | exact .inr rfl
theorem acas sp f : Statement (.acas sp f) := of_even fun _ => by first | exact .inl rfl | exact .inr rfl
theorem ared sp f : Statement (.ared sp f) := of_even fun _ => by first | exact .inl rfl | exact .inr rfl
theorem xshdAlloc f : Statement (.xshdAlloc f) := of_even fun _ => by first | exact .inl rfl | exact .inr rfl
theorem xshdFree f : Statement (.xshdFree f) := of_even fun _ => by first | exact .inl rfl | exact .inr rfl
theorem xcopy f : Statement (.xcopy f) := of_even fun _ => by first | exact .inl rfl | exact .inr rfl
theorem xfill f : Statement (.xfill f) := of_even fun _ => by first | exact .inl rfl | exact .inr rfl
theorem xpub f : Statement (.xpub f) := of_even fun _ => by first | exact .inl rfl | exact .inr rfl
theorem semw f : Statement (.semw f) := of_even fun _ => by first | exact .inl rfl | exact .inr rfl
theorem sems f : Statement (.sems f) := of_even fun _ => by first | exact .inl rfl | exact .inr rfl
theorem semi f : Statement (.semi f) := of_even fun _ => by first | exact .inl rfl | exact .inr rfl
theorem semrd f : Statement (.semrd f) := of_even fun _ => by first | exact .inl rfl | exact .inr rfl
theorem bar f : Statement (.bar f) := of_even fun _ => by first | exact .inl rfl | exact .inr rfl
theorem bara f : Statement (.bara f) := of_even fun _ => by first | exact .inl rfl | exact .inr rfl
theorem barw f : Statement (.barw f) := of_even fun _ => by first | exact .inl rfl | exact .inr rfl
theorem bibset f : Statement (.bibset f) := of_even fun _ => by first | exact .inl rfl | exact .inr rfl
theorem lock f : Statement (.lock f) := of_even fun _ => by first | exact .inl rfl | exact .inr rfl
theorem unlock f : Statement (.unlock f) := of_even fun _ => by first | exact .inl rfl | exact .inr rfl
theorem trylk f : Statement (.trylk f) := of_even fun _ => by first | exact .inl rfl | exact .inr rfl
theorem wreg f : Statement (.wreg f) := of_even fun _ => by first | exact .inl rfl | exact .inr rfl
theorem wdereg f : Statement (.wdereg f) := of_even fun _ => by first | exact .inl rfl | exact .inr rfl
theorem whold f : Statement (.whold f) := of_even fun _ => by first | exact .inl rfl | exact .inr rfl
theorem wqry f : Statement (.wqry f) := of_even fun _ => by first | exact .inl rfl | exact .inr rfl
theorem qpush f : Statement (.qpush f) := of_even fun _ => by first | exact .inl rfl | exact .inr rfl
theorem qpop f : Statement (.qpop f) := of_even fun _ => by first | exact .inl rfl | exact .inr rfl
theorem qpeek f : Statement (.qpeek f) := of_even fun _ => by first | exact .inl rfl | exact .inr rfl
theorem qstat f : Statement (.qstat f) := of_even fun _ => by first | exact .inl rfl | exact .inr rfl
theorem tokp f : Statement (.tokp f) := of_even fun _ => by first | exact .inl rfl | exact .inr rfl
theorem tokw f : Statement (.tokw f) := of_even fun _ => by first | exact .inl rfl | exact .inr rfl
theorem xtree f : Statement (.xtree f) := of_even fun _ => by first | exact .inl rfl | exact .inr rfl
theorem xred f : Statement (.xred f) := of_even fun _ => by first | exact .inl rfl | exact .inr rfl
theorem xbcast f : Statement (.xbcast f) := of_even fun _ => by first | exact .inl rfl | exact .inr rfl
theorem xrstat f : Statement (.xrstat f) := of_even fun _ => by first | exact .inl rfl | exact .inr rfl
theorem lsend f : Statement (.lsend f) := of_even fun _ => by first | exact .inl rfl | exact .inr rfl
theorem larm f : Statement (.larm f) := of_even fun _ => by first | exact .inl rfl | exact .inr rfl
theorem larmDis f : Statement (.larmDis f) := of_even fun _ => by first | exact .inl rfl | exact .inr rfl
theorem lrecv f : Statement (.lrecv f) := of_even fun _ => by first | exact .inl rfl | exact .inr rfl
theorem lctrRd f : Statement (.lctrRd f) := of_even fun _ => by first | exact .inl rfl | exact .inr rfl
theorem lctrWait f : Statement (.lctrWait f) := of_even fun _ => by first | exact .inl rfl | exact .inr rfl
theorem lctrSet f : Statement (.lctrSet f) := of_even fun _ => by first | exact .inl rfl | exact .inr rfl
theorem lctrAdd f : Statement (.lctrAdd f) := of_even fun _ => by first | exact .inl rfl | exact .inr rfl
theorem lstep f : Statement (.lstep f) := of_even fun _ => by first | exact .inl rfl | exact .inr rfl
theorem lstat f : Statement (.lstat f) := of_even fun _ => by first | exact .inl rfl | exact .inr rfl
theorem trap f : Statement (.trap f) := of_even fun _ => by first | exact .inl rfl | exact .inr rfl
theorem seth f : Statement (.seth f) := of_even fun _ => by first | exact .inl rfl | exact .inr rfl
theorem csrr f : Statement (.csrr f) := of_even fun _ => by first | exact .inl rfl | exact .inr rfl
theorem csrw f : Statement (.csrw f) := of_even fun _ => by first | exact .inl rfl | exact .inr rfl
theorem csrwDmr f : Statement (.csrwDmr f) := of_even fun _ => by first | exact .inl rfl | exact .inr rfl
theorem csrwBib f : Statement (.csrwBib f) := of_even fun _ => by first | exact .inl rfl | exact .inr rfl
theorem csrwBdepth f : Statement (.csrwBdepth f) := of_even fun _ => by first | exact .inl rfl | exact .inr rfl
theorem csrwBprio f : Statement (.csrwBprio f) := of_even fun _ => by first | exact .inl rfl | exact .inr rfl
theorem aset f : Statement (.aset f) := of_even fun _ => by first | exact .inl rfl | exact .inr rfl
theorem tlbi f : Statement (.tlbi f) := of_even fun _ => by first | exact .inl rfl | exact .inr rfl
theorem ctxsv f : Statement (.ctxsv f) := of_even fun _ => by first | exact .inl rfl | exact .inr rfl
theorem ctxrs f : Statement (.ctxrs f) := of_even fun _ => by first | exact .inl rfl | exact .inr rfl
theorem prq f : Statement (.prq f) := of_even fun _ => by first | exact .inl rfl | exact .inr rfl
theorem wftsp f : Statement (.wftsp f) := of_even fun _ => by first | exact .inl rfl | exact .inr rfl
theorem errlog f : Statement (.errlog f) := of_even fun _ => by first | exact .inl rfl | exact .inr rfl
theorem inj f : Statement (.inj f) := of_even fun _ => by first | exact .inl rfl | exact .inr rfl
theorem migr f : Statement (.migr f) := of_even fun _ => by first | exact .inl rfl | exact .inr rfl
theorem ares f : Statement (.ares f) := of_even fun _ => by first | exact .inl rfl | exact .inr rfl
theorem nop : Statement .nop := of_even fun _ => by first | exact .inl rfl | exact .inr rfl
theorem waite : Statement .waite := of_even fun _ => by first | exact .inl rfl | exact .inr rfl
theorem nop16 : Statement .nop16 := of_other (by decide) fun _ => Nat.le_of_ble_eq_true rfl
theorem inc : Statement .inc := of_other (by decide) fun _ => Nat.le_of_ble_eq_true rfl
theorem rdv : Statement .rdv := of_even fun _ => by first | exact .inl rfl | exact .inr rfl
theorem node : Statement .node := of_even fun _ => by first | exact .inl rfl | exact .inr rfl
theorem planeCapture : Statement .planeCapture := of_other (by decide) fun _ => Nat.le_of_ble_eq_true rfl
theorem tstart : Statement .tstart := of_even fun _ => by first | exact .inl rfl | exact .inr rfl
theorem tcksOff : Statement .tcksOff := of_even fun _ => by first | exact .inl rfl | exact .inr rfl
theorem tcksOn : Statement .tcksOn := of_even fun _ => by first | exact .inl rfl | exact .inr rfl
theorem wlease : Statement .wlease := of_even fun _ => by first | exact .inl rfl | exact .inr rfl
theorem wrls : Statement .wrls := of_even fun _ => by first | exact .inl rfl | exact .inr rfl
theorem wdrain : Statement .wdrain := of_even fun _ => by first | exact .inl rfl | exact .inr rfl
theorem wdrainDiscard : Statement .wdrainDiscard := of_even fun _ => by first | exact .inl rfl | exact .inr rfl
theorem wavefrontAdmission : Statement .wavefrontAdmission := of_other (by decide) fun _ => Nat.le_of_ble_eq_true rfl
theorem wavefrontCellArrival : Statement .wavefrontCellArrival := of_other (by decide) fun _ => Nat.le_of_ble_eq_true rfl
theorem wavefrontDelivery : Statement .wavefrontDelivery := of_other (by decide) fun _ => Nat.le_of_ble_eq_true rfl
theorem applyCommit : Statement .applyCommit := of_other (by decide) fun _ => Nat.le_of_ble_eq_true rfl
theorem queueLoadArrival : Statement .queueLoadArrival := of_other (by decide) fun _ => Nat.le_of_ble_eq_true rfl
theorem writeTakesEffect : Statement .writeTakesEffect := of_other (by decide) fun _ => Nat.le_of_ble_eq_true rfl
theorem fenceStream : Statement .fenceStream := of_even fun _ => by first | exact .inl rfl | exact .inr rfl
theorem fenceJob : Statement .fenceJob := of_even fun _ => by first | exact .inl rfl | exact .inr rfl
theorem fenceCluster : Statement .fenceCluster := of_even fun _ => by first | exact .inl rfl | exact .inr rfl
theorem fenceDevice : Statement .fenceDevice := of_even fun _ => by first | exact .inl rfl | exact .inr rfl
theorem fenceSystem : Statement .fenceSystem := of_even fun _ => by first | exact .inl rfl | exact .inr rfl
theorem efence : Statement .efence := of_even fun _ => by first | exact .inl rfl | exact .inr rfl
theorem ksync : Statement .ksync := of_even fun _ => by first | exact .inl rfl | exact .inr rfl
theorem copyCompletion : Statement .copyCompletion := of_other (by decide) fun _ => Nat.le_of_ble_eq_true rfl
theorem deadlockSweep : Statement .deadlockSweep := of_other (by decide) fun _ => Nat.le_of_ble_eq_true rfl
theorem waitLimit : Statement .waitLimit := of_other (by decide) fun _ => Nat.le_of_ble_eq_true rfl
theorem redTimeout : Statement .redTimeout := of_other (by decide) fun _ => Nat.le_of_ble_eq_true rfl
theorem linkMessageArrival : Statement .linkMessageArrival := of_other (by decide) fun _ => Nat.le_of_ble_eq_true rfl
theorem peerAccessArrival : Statement .peerAccessArrival := of_other (by decide) fun _ => Nat.le_of_ble_eq_true rfl
theorem sendAcknowledged : Statement .sendAcknowledged := of_other (by decide) fun _ => Nat.le_of_ble_eq_true rfl
theorem goBackReplay : Statement .goBackReplay := of_other (by decide) fun _ => Nat.le_of_ble_eq_true rfl
theorem linkDown : Statement .linkDown := of_other (by decide) fun _ => Nat.le_of_ble_eq_true rfl
theorem postWaitTimeout : Statement .postWaitTimeout := of_other (by decide) fun _ => Nat.le_of_ble_eq_true rfl
theorem linkTraining : Statement .linkTraining := of_other (by decide) fun _ => Nat.le_of_ble_eq_true rfl
theorem gscStep : Statement .gscStep := of_other (by decide) fun _ => Nat.le_of_ble_eq_true rfl
theorem gscJoin : Statement .gscJoin := of_other (by decide) fun _ => Nat.le_of_ble_eq_true rfl
theorem tret : Statement .tret := of_even fun _ => by first | exact .inl rfl | exact .inr rfl
theorem udecl : Statement .udecl := of_even fun _ => by first | exact .inl rfl | exact .inr rfl
theorem checkerCompare : Statement .checkerCompare := of_other (by decide) fun _ => Nat.le_of_ble_eq_true rfl
theorem vbusLaneFault : Statement .vbusLaneFault := of_other (by decide) fun _ => Nat.le_of_ble_eq_true rfl
theorem preempt : Statement .preempt := of_other (by decide) fun _ => Nat.le_of_ble_eq_true rfl
theorem distributorSelection : Statement .distributorSelection := of_other (by decide) fun _ => Nat.le_of_ble_eq_true rfl
theorem replayDiverge : Statement .replayDiverge := of_other (by decide) fun _ => Nat.le_of_ble_eq_true rfl
theorem dispatch : Statement .dispatch := of_other (by decide) fun _ => Nat.le_of_ble_eq_true rfl
theorem jobRetirement : Statement .jobRetirement := of_other (by decide) fun _ => Nat.le_of_ble_eq_true rfl
theorem hostTailWrite : Statement .hostTailWrite := of_other (by decide) fun _ => Nat.le_of_ble_eq_true rfl
theorem queueDescriptorWrite : Statement .queueDescriptorWrite := of_other (by decide) fun _ => Nat.le_of_ble_eq_true rfl
theorem queueDisableWrite : Statement .queueDisableWrite := of_other (by decide) fun _ => Nat.le_of_ble_eq_true rfl
theorem hostirqClear : Statement .hostirqClear := of_other (by decide) fun _ => Nat.le_of_ble_eq_true rfl
theorem layerpwrWrite : Statement .layerpwrWrite := of_other (by decide) fun _ => Nat.le_of_ble_eq_true rfl
theorem peerdataWrite : Statement .peerdataWrite := of_other (by decide) fun _ => Nat.le_of_ble_eq_true rfl
theorem nctrWrite : Statement .nctrWrite := of_other (by decide) fun _ => Nat.le_of_ble_eq_true rfl
theorem windowWrite : Statement .windowWrite := of_other (by decide) fun _ => Nat.le_of_ble_eq_true rfl
theorem hostCoherentAccess : Statement .hostCoherentAccess := of_other (by decide) fun _ => Nat.le_of_ble_eq_true rfl
theorem layer1PowerOff : Statement .layer1PowerOff := of_other (by decide) fun _ => Nat.le_of_ble_eq_true rfl
theorem layer1PowerOn : Statement .layer1PowerOn := of_other (by decide) fun _ => Nat.le_of_ble_eq_true rfl
theorem powerOn : Statement .powerOn := of_other (by decide) fun _ => Nat.le_of_ble_eq_true rfl
theorem firmwareImageDelivery : Statement .firmwareImageDelivery := of_other (by decide) fun _ => Nat.le_of_ble_eq_true rfl
theorem configurationImageDelivery : Statement .configurationImageDelivery := of_other (by decide) fun _ => Nat.le_of_ble_eq_true rfl
theorem summerTransition : Statement .summerTransition := of_other (by decide) fun _ => Nat.le_of_ble_eq_true rfl
theorem powerRemoval : Statement .powerRemoval := of_other (by decide) fun _ => Nat.le_of_ble_eq_true rfl
theorem dieReset : Statement .dieReset := of_other (by decide) fun _ => Nat.le_of_ble_eq_true rfl
theorem attestationRequest : Statement .attestationRequest := of_other (by decide) fun _ => Nat.le_of_ble_eq_true rfl
theorem hazelTranslation : Statement .hazelTranslation := of_other (by decide) fun _ => Nat.le_of_ble_eq_true rfl
theorem uncorrectableError : Statement .uncorrectableError := of_other (by decide) fun _ => Nat.le_of_ble_eq_true rfl
theorem hostErrorOnStore : Statement .hostErrorOnStore := of_other (by decide) fun _ => Nat.le_of_ble_eq_true rfl
theorem supervisorDebugStop : Statement .supervisorDebugStop := of_other (by decide) fun _ => Nat.le_of_ble_eq_true rfl
theorem returnToWinterThroughFault : Statement .returnToWinterThroughFault := of_other (by decide) fun _ => Nat.le_of_ble_eq_true rfl

end Sys2Proof.Laws.Encodable
end

