-- ==== Sys2Proof/Tests/Slice0.lean ====
section
/-! SUPPORT. Tests: ill-formed terms, words of the manual, and for each statement a concrete case that meets its hypotheses. -/
namespace Sys2Proof.Tests
open Sys2Proof Sys2Proof.Machine Sys2Proof.Decode
set_option Elab.async false

/-! The states of the tests. -/

/-- Tables at 0x10000 that map the first 512 MiB of ASID 0 to themselves, every access allowed, A and D set (R285). -/
def tables : Memory :=
  [(0x10000, 0x01), (0x10002, 0x02), (0x20000, 0x03), (0x20002, 0x03), (0x30000, 0xBD), (0x30001, 0x01)]

/-- Memory with bytes put over the tables. -/
def withBytes (a : Nat) (bs : List Byte) : Memory := Memory.writeN tables a bs

/-- A job with one stream on a core of a package in Summer, about to execute a 32-bit instruction of that stream, with some
registers of the stream and some contents of memory. -/
def stream (c : CoreId) (i : StreamId) (regs : List (Nat × Nat) := []) (mem : Memory := tables) : State :=
  let die : Die := { Die.reset with state := 2, ready := true, ptroot := 0x10000 }
  let t : Strm := { Strm.reset with used := true, pc := 0x40000 }
  let k : Core := { Core.reset with active := true, jobid := 5, split := 6 }
  let s : State := { State.reset with dies := Vector.replicate 2 die, mem := mem, ctx := ⟨c, i, Head.zero, 2, 0, EvArgs.zero, none⟩ }
  s.setCore c (k.setStrm i (regs.foldl (fun t x => t.putS (BitVec.ofNat 5 x.1) (BitVec.ofNat 64 x.2)) t))

/-- A change to the executing core, stream or die. -/
def onCore (s : State) (f : Core → Core) : State := s.setMe (f s.me)
def onStrm (s : State) (f : Strm → Strm) : State := s.setStr (f s.str)
def onDie (s : State) (f : Die → Die) : State := s.setMyDie (f s.myDie)

/-- The instruction is guarded by p1, which is false. -/
def masked (s : State) : State := { s with ctx := { s.ctx with head := { Head.zero with g := 1 } } }

/-- The stream runs a scoreboard block or an exposed one. -/
def inBlock (lm : Bool) (s : State) : State :=
  onStrm s fun t => { t with blk := some ⟨0x3FFFC, 16, 0, lm, false, Nest.zero, 0, 0, none⟩ }

/-- An event of the package is about to happen. -/
def event (s : State) (unit : Nat) (sub : Nat := 0) (val : Nat := 0) (val2 : Nat := 0) (flag : Bool := false)
    (data : EvData := .none) (via : Option (Fin 4) := none) : State :=
  { s with ctx := { Ctx.zero with ev := ⟨unit, sub, val, val2, flag, data, via⟩ } }

/-- A command of an engine's queue, with its operands. -/
def cmd (i : Instr) (sa : Nat := 0) (sb : Nat := 0) (sd : Nat := 0) (more : List Nat := []) : Cmd :=
  { code := ⟨Head.zero, i⟩, pc := 0x40000, midx := 0, inmac := false, sa := BitVec.ofNat 64 sa, sb := BitVec.ofNat 64 sb
    sd := BitVec.ofNat 64 sd, more := more.map (BitVec.ofNat 64), slot := 0, checked := true, unit := false, wait := none
    stage := 0, trapped := false, failing := false, ord := 7, timer := 0, limit := 0, acc := [], next := 0 }

/-- A command stands at the head of a queue of a core and its engine is about to run it. -/
def running (s : State) (c : CoreId) (e : Eng) (x : Cmd) : State :=
  event (s.setCore c ((s.core c).setCmds e [x])) c.val e.num x.ord 0 true

/-- What an access answers, where it is performed. -/
def accessOk (r : Accessed) : Bool :=
  match r with
  | .ok _ _ => true
  | .trap _ _ => false
  | .hold _ => false
def accessState (s : State) (r : Accessed) : State :=
  match r with
  | .ok t _ => t
  | .trap _ _ => s
  | .hold _ => s
def accessBytes (r : Accessed) : List Byte :=
  match r with
  | .ok _ bs => bs
  | .trap _ _ => []
  | .hold _ => []
theorem accessOk_eq (s : State) (r : Accessed) (h : accessOk r = true) : r = .ok (accessState s r) (accessBytes r) := by
  cases r <;> simp_all [accessOk, accessState, accessBytes]

/-- The result of a translation or a check, where there is one. -/
def resultOk {ε α : Type} (r : State × Except ε α) : Bool :=
  match r with
  | (_, .ok _) => true
  | (_, .error _) => false
def resultOf {ε α : Type} (a : α) (r : State × Except ε α) : α :=
  match r with
  | (_, .ok x) => x
  | (_, .error _) => a
theorem resultOk_eq {ε α : Type} (a : α) (r : State × Except ε α) (h : resultOk r = true) : r = (r.1, .ok (resultOf a r)) := by
  obtain ⟨s, x⟩ := r
  cases x <;> simp_all [resultOk, resultOf]

/-- Halfwords decode to an instruction word, with the rest left over. -/
def decodesTo (hs : List HWord) (w : Code) (rest : List HWord := []) : Bool :=
  match decode hs with
  | .ok r => decide (r = (w, rest))
  | .error _ => false
theorem decodesTo_eq (hs : List HWord) (w : Code) (rest : List HWord) (h : decodesTo hs w rest = true) : decode hs = .ok (w, rest) := by
  unfold decodesTo at h
  split at h
  · simp_all
  · cases h


/-- A core that holds its array's lease, with bank 0 claimed and shown, region 0 of it one loaded row of two cells, and region 15
defined. -/
def leased : State :=
  let s := stream 1 .ws
  let g : Region := { Region.undef with state := .loaded, rows := 1, cols := 2 }
  let h : Region := { Region.undef with state := .defined, row0 := 255, col0 := 254, rows := 1, cols := 2 }
  let k : Bank := { Bank.reset with claim := some (0, 7), regions := (Bank.reset.regions.set 0 g).set 15 h, cells := [(1, ⟨0x3F80, 0, 3⟩)] }
  (onCore s fun k => { k with bank := some 0, handle := 7, split := 6 }).setArr 0 ((s.arr 0).setBank 0 k |> fun a => { a with lease := some 1 })

/-- A wavefront of region 0 of bank 0 of that core, with an age if it is in flight. -/
def wave (kind : Nat) (age : Option Nat := none) : Wave :=
  { core := 1, jobid := 5, cmd := cmd (.wadmit ⟨0, 0, 0, 0⟩), kind := kind, bank := 0, region := 0, tag := 1, afmt := 0
    inputs := [0x3F800000, 0x40000000], nb := 0, base := false, skip := false, entered := 0
    reg := { Region.undef with state := .loaded, rows := 1, cols := 2 }, draw := 0, cktol := 0, age := age, uc := 0, bu := false
    range := some (3, 3), replays := 0, sums := [0x3F800000, 0x40000000], runs := [], chk := .num false 0 0, mag := .num false 0 0
    nf := false, failed := false, restored := false, owed := false }

/-- A descriptor of tag 0x81: core 1 is the root, core 63 its only child (R374). -/
def treeDesc : List Byte :=
  [2, 0x81] ++ List.replicate 6 0 ++ [1, 0xFF, 1, 0, 1] ++ List.replicate 11 0 ++ [63, 0, 0, 0] ++ List.replicate 12 0

/-- The jobs of both members, the tree loaded in slot 3 at epoch 9, with words in the scratchpads. -/
def grove : State :=
  let s := stream 1 .xs
  let k : Core := { Core.reset with active := true, jobid := 6, split := 6 }
  let at_ (n : Nat) (k : Core) : Core :=
    { k.setTree 3 ⟨true, treeDesc, n, 9, [], 5⟩ with spad := [(0x40, 1), (0x44, 2)] ++ treeDesc.zipIdx.filterMap fun x => if x.1 = 0 then none else some (0x100 + x.2, x.1) }
  (s.setCore 1 (at_ 0 (s.core 1))).setCore 63 (at_ 1 k)

/-! Well-formedness: for each check of each instruction a term that fails this check alone, after one that passes them all. -/

/-- Terms that pass every check. -/
theorem test_well_formed_1 : (List.all (α := Instr) [
      .fqry ⟨0, 0, 0⟩, .bri ⟨0, 0, 0⟩, .call ⟨0, 0, 0, 0⟩, .ret ⟨0, 0, 0⟩, .mcall ⟨0, 0, 0⟩, .mdef ⟨0, 0, 0, 0⟩,
      .nest ⟨0, 0, 0, 0⟩, .wlimset ⟨0, 0, 0⟩, .cont ⟨0, 0, 0⟩, .prio ⟨0, 0, 0⟩, .domain ⟨0, 0, 0⟩, .joini ⟨0, 0, 0, 0⟩,
      .self ⟨0, 0, 0⟩, .trcrec ⟨0, 0, 0⟩, .trcrpl ⟨0, 0, 0⟩, .trcstat ⟨0, 0, 0⟩, .clz ⟨0, 0, 0⟩, .popc ⟨0, 0, 0⟩,
      .li ⟨0, 0, 0, 0⟩, .lih ⟨0, 0, 0, 0⟩, .mov ⟨0, 0, 0⟩, .plogClr ⟨0, 0⟩, .pget ⟨0, 0, 0⟩, .pput ⟨0, 0, 0⟩, .pcnt ⟨0, 0, 0⟩,
      .vabs ⟨0, 0, 0⟩, .vneg ⟨0, 0, 0⟩, .vsqrt ⟨0, 0, 0⟩, .vrsq ⟨0, 0, 0⟩, .vrec ⟨0, 0, 0⟩, .vexp2 ⟨0, 0, 0⟩, .vlog2 ⟨0, 0, 0⟩,
      .vnot ⟨0, 0, 0⟩, .vclz ⟨0, 0, 0⟩, .vclass ⟨0, 0, 0⟩, .vmov ⟨0, 0, 0⟩, .vbcast ⟨0, 0, 0⟩, .vlane ⟨0, 0, 0, 0⟩,
      .vext ⟨0, 0, 0, 0⟩, .vins ⟨0, 0, 0, 0⟩, .vslide ⟨0, 0, 0, 0⟩, .vred ⟨0, 0, 0, 0⟩, .vscan ⟨0, 0, 0, 0⟩,
      .vsett ⟨0, 0, 0, 0⟩, .vgetf ⟨0, 0, 0⟩] fun i => i.wf) = true := by decide +kernel

/-- Terms that pass every check. -/
theorem test_well_formed_2 : (List.all (α := Instr) [
      .vsetf ⟨0, 0, 0⟩, .vseed ⟨0, 0, 0⟩, .vcvt ⟨0, 0, 0, 0⟩, .vpack ⟨0, 0, 0, 0⟩, .vunpk ⟨0, 0, 0, 0⟩, .tamode ⟨0, 0, 0, 0⟩,
      .tarst ⟨0, 0, 0⟩, .tadly ⟨0, 0, 0, 0⟩, .talnch ⟨0, 0, 0, 1⟩, .tacap ⟨0, 0, 0, 1⟩, .tastat ⟨0, 0, 0⟩, .tld ⟨0, 0, 0, 0⟩,
      .tst ⟨0, 0, 0, 0⟩, .tzero ⟨0, 0, 0, 0⟩, .tmov ⟨0, 0, 0, 0⟩, .tmma ⟨0, 0, 0, 0⟩, .tmmas ⟨0, 0, 0, 0⟩, .ttrn ⟨0, 0, 0, 0⟩,
      .tcvt ⟨0, 0, 0, 0⟩, .tfmt ⟨0, 0, 0, 0⟩, .wbankSel ⟨0, 0, 0, 0⟩, .wbankClaim ⟨0, 0, 0, 1⟩, .wbankRel ⟨0, 0, 0, 2⟩,
      .wregnDef ⟨0, 0, 0, 0⟩, .wregnRem ⟨0, 0, 0, 0x10⟩, .wldw ⟨0, 0, 0, 0x380⟩, .wstw ⟨0, 0, 0, 0x380⟩, .wadmit ⟨0, 0, 0, 0⟩,
      .wcoll ⟨0, 0, 0, 0xE0⟩, .wver ⟨0, 0, 0, 0⟩, .wopt ⟨0, 0, 0, 0⟩, .wcks ⟨0, 0, 0, 0⟩, .wsave ⟨0, 0, 0, 1⟩,
      .wrest ⟨0, 0, 0, 0⟩, .ldl ⟨0, 0, 0, 0, 0, 0, 0, 0⟩, .stl ⟨0, 0, 0, 0, 0, 0, 0, 0⟩, .ldc ⟨0, 0, 0, 0, 0, 0, 0, 0⟩,
      .stc ⟨0, 0, 0, 0, 0, 0, 0, 0⟩, .mstc ⟨0, 0, 0, 0, 0, 0, 0, 0⟩, .ldg ⟨0, 0, 0, 0, 0, 0, 0, 0⟩,
      .stg ⟨0, 0, 0, 0, 0, 0, 0, 0⟩, .ldgq ⟨0, 0, 0, 0, 0, 0, 0, 0⟩, .pfg ⟨0, 0, 0, 0, 0, 0, 0xD, 0⟩,
      .vgath ⟨0, 0, 0, 0, 0, 0, 0, 0⟩, .vscat ⟨0, 0, 0, 0, 0, 0, 0, 0⟩] fun i => i.wf) = true := by decide +kernel

/-- Terms that pass every check. -/
theorem test_well_formed_3 : (List.all (α := Instr) [
      .gathq ⟨0, 0, 0, 0, 0, 0, 0, 0⟩, .ldk ⟨0, 0, 0, 0, 0, 0, 0, 0⟩, .ldkq ⟨0, 0, 0, 0, 0, 0, 0, 0⟩,
      .ldh ⟨0, 0, 0, 0, 0, 0, 0, 0⟩, .sth ⟨0, 0, 0, 0, 0, 0, 0, 0⟩, .hflsh ⟨0, 0, 0, 0, 0, 0, 0xD, 0⟩,
      .hinv ⟨0, 0, 0, 0, 0, 0, 0xD, 0⟩, .ldp ⟨0, 0, 0, 0, 0, 0, 0, 0⟩, .stp ⟨0, 0, 0, 0, 0, 0, 0, 0⟩,
      .spcfg ⟨0, 0, 0, 0, 0, 0, 0, 0⟩, .cinv ⟨0, 0, 0, 0, 0, 0, 0xD, 0⟩, .cflsh ⟨0, 0, 0, 0, 0, 0, 0xD, 0⟩,
      .clkr ⟨0, 0, 0, 0, 0, 0, 0xD, 0⟩, .aadd 0 ⟨0, 0, 0, 0, 0, 0, 4, 0⟩, .afadd 0 ⟨0, 0, 0, 0, 0, 0, 9, 0⟩,
      .amin 0 ⟨0, 0, 0, 0, 0, 0, 4, 0⟩, .amax 0 ⟨0, 0, 0, 0, 0, 0, 4, 0⟩, .aand 0 ⟨0, 0, 0, 0, 0, 0, 4, 0⟩,
      .aor 0 ⟨0, 0, 0, 0, 0, 0, 4, 0⟩, .axor 0 ⟨0, 0, 0, 0, 0, 0, 4, 0⟩, .axchg 0 ⟨0, 0, 0, 0, 0, 0, 4, 0⟩,
      .acas 0 ⟨0, 0, 0, 0, 0, 0, 4, 0⟩, .ared 0 ⟨0, 0, 0, 0, 0, 0, 4, 0⟩, .xshdAlloc ⟨0, 0, 0, 0⟩, .xshdFree ⟨0, 0, 0, 1⟩,
      .xcopy ⟨0, 0, 0, 0⟩, .xfill ⟨0, 0, 0, 0⟩, .xpub ⟨0, 0, 0, 0⟩, .semw ⟨0, 0, 0, 0⟩, .sems ⟨0, 0, 0, 0⟩, .semi ⟨0, 0, 0, 0⟩,
      .semrd ⟨0, 0, 0, 0⟩, .bar ⟨0, 0, 0⟩, .bara ⟨0, 0, 0⟩, .barw ⟨0, 0, 0⟩, .lock ⟨0, 0, 0⟩, .unlock ⟨0, 0, 0⟩,
      .trylk ⟨0, 0, 0⟩, .wreg ⟨0, 0, 0, 0⟩, .wdereg ⟨0, 0, 0, 0⟩, .whold ⟨0, 0, 0, 0⟩, .wqry ⟨0, 0, 0, 0⟩, .qpush ⟨0, 0, 0, 0⟩,
      .qpop ⟨0, 0, 0, 0⟩, .qpeek ⟨0, 0, 0, 0⟩] fun i => i.wf) = true := by decide +kernel

/-- Terms that pass every check. -/
theorem test_well_formed_4 : (List.all (α := Instr) [
      .qstat ⟨0, 0, 0, 0⟩, .tokp ⟨0, 0, 0⟩, .tokw ⟨0, 0, 0⟩, .xtree ⟨0, 0, 0, 0⟩, .xred ⟨0, 0, 0, 0⟩, .xbcast ⟨0, 0, 0, 0⟩,
      .xrstat ⟨0, 0, 0, 0⟩, .lsend ⟨0, 0, 0, 0⟩, .larm ⟨0, 0, 0, 0⟩, .larmDis ⟨0, 0, 0, 0x40⟩, .lrecv ⟨0, 0, 0, 0⟩,
      .lctrRd ⟨0, 0, 0, 0⟩, .lctrWait ⟨0, 0, 0, 1⟩, .lctrSet ⟨0, 0, 0, 2⟩, .lctrAdd ⟨0, 0, 0, 3⟩, .lstep ⟨0, 0, 0, 0⟩,
      .lstat ⟨0, 0, 0, 0⟩, .trap ⟨0, 0, 0⟩, .seth ⟨0, 0, 0⟩, .csrr ⟨0, 0, 0, 0⟩, .csrw ⟨0, 0, 0, 9⟩, .csrwDmr ⟨0, 0, 0, 4⟩,
      .csrwBib ⟨0, 0, 0, 5⟩, .csrwBdepth ⟨0, 0, 0, 6⟩, .csrwBprio ⟨0, 0, 0, 7⟩, .tlbi ⟨0, 0, 0⟩, .errlog ⟨0, 0, 0⟩,
      .inj ⟨0, 0, 0, 0⟩, .ares ⟨0, 0, 0⟩] fun i => i.wf) = true := by decide +kernel

/-- Terms that one check refuses. -/
theorem test_ill_formed_1 : (List.all (α := Instr) [
      .fqry ⟨1, 0, 0⟩, .bri ⟨1, 0, 0⟩, .call ⟨1, 0, 0, 0⟩, .call ⟨0, 1, 0, 0⟩, .call ⟨0, 0, 1, 0⟩, .ret ⟨1, 0, 0⟩,
      .ret ⟨0, 0, 1⟩, .mcall ⟨0, 1, 0⟩, .mcall ⟨2, 0, 0⟩, .mdef ⟨1, 0, 0, 0⟩, .mdef ⟨0, 0, 1, 0⟩, .mdef ⟨0, 0, 0, 0x40⟩,
      .nest ⟨1, 0, 0, 0⟩, .nest ⟨0, 0, 8, 0⟩, .nest ⟨0, 0x1C, 0, 0⟩, .wlimset ⟨1, 0, 0⟩, .cont ⟨1, 0, 0⟩, .prio ⟨0, 1, 0⟩,
      .prio ⟨8, 0, 0⟩, .domain ⟨1, 0, 0⟩, .joini ⟨1, 0, 0, 0⟩, .self ⟨1, 0, 0⟩, .self ⟨0, 1, 0⟩, .trcrec ⟨1, 0, 0⟩,
      .trcrec ⟨0, 0, 1⟩, .trcrpl ⟨1, 0, 0⟩, .trcrpl ⟨0, 0, 1⟩, .trcstat ⟨1, 0, 0⟩, .trcstat ⟨0, 1, 0⟩, .clz ⟨1, 0, 0⟩,
      .popc ⟨1, 0, 0⟩, .li ⟨1, 0, 0, 0⟩, .li ⟨0, 1, 0, 0⟩, .lih ⟨1, 0, 0, 0⟩, .lih ⟨0, 1, 0, 0⟩, .mov ⟨1, 0, 0⟩,
      .plogClr ⟨1, 0⟩, .pget ⟨1, 0, 0⟩, .pput ⟨1, 0, 0⟩, .pcnt ⟨1, 0, 0⟩, .vabs ⟨1, 0, 0⟩, .vneg ⟨1, 0, 0⟩, .vsqrt ⟨1, 0, 0⟩,
      .vrsq ⟨1, 0, 0⟩, .vrec ⟨1, 0, 0⟩] fun i => !i.wf) = true := by decide +kernel

/-- Terms that one check refuses. -/
theorem test_ill_formed_2 : (List.all (α := Instr) [
      .vexp2 ⟨1, 0, 0⟩, .vlog2 ⟨1, 0, 0⟩, .vnot ⟨1, 0, 0⟩, .vclz ⟨1, 0, 0⟩, .vclass ⟨1, 0, 0⟩, .vmov ⟨1, 0, 0⟩,
      .vbcast ⟨1, 0, 0⟩, .vlane ⟨1, 0, 0, 0⟩, .vlane ⟨0, 1, 0, 0⟩, .vext ⟨0, 0, 0, 0x10000⟩, .vins ⟨0, 0, 0, 0x10000⟩,
      .vslide ⟨0, 0, 0, 0x20000⟩, .vred ⟨1, 0, 0, 0⟩, .vred ⟨0, 0, 0, 0x20⟩, .vred ⟨0, 0, 0, 6⟩, .vscan ⟨1, 0, 0, 0⟩,
      .vscan ⟨0, 0, 0, 0x20⟩, .vscan ⟨0, 0, 0, 6⟩, .vsett ⟨1, 0, 0, 0⟩, .vsett ⟨0, 1, 0, 0⟩, .vsett ⟨0, 0, 0, 0x80⟩,
      .vsett ⟨0, 0, 0, 0xB⟩, .vsett ⟨0, 0, 0, 0x50⟩, .vgetf ⟨1, 0, 0⟩, .vsetf ⟨1, 0, 0⟩, .vseed ⟨1, 0, 0⟩, .vcvt ⟨1, 0, 0, 0⟩,
      .vcvt ⟨0, 0, 0, 0x8000⟩, .vcvt ⟨0, 0, 0, 0x500⟩, .vcvt ⟨0, 0, 0, 0x600⟩, .vcvt ⟨0, 0, 0, 0x800⟩,
      .vpack ⟨0, 0, 0, 0x10000⟩, .vpack ⟨0, 0, 0, 0x80⟩, .vpack ⟨0, 0, 0, 7⟩, .vpack ⟨0, 0, 0, 0x50⟩, .vpack ⟨0, 0, 0, 0x60⟩,
      .vpack ⟨0, 0, 0, 0xE800⟩, .vpack ⟨1, 0, 0, 0⟩, .vunpk ⟨0, 0, 0, 0x10000⟩, .vunpk ⟨0, 0, 0, 0x80⟩, .vunpk ⟨0, 0, 0, 7⟩,
      .vunpk ⟨0, 0, 0, 0x50⟩, .vunpk ⟨0, 0, 0, 0x60⟩, .vunpk ⟨0, 0, 0, 0xE800⟩, .vunpk ⟨1, 0, 0, 0⟩] fun i => !i.wf) = true := by decide +kernel

/-- Terms that one check refuses. -/
theorem test_ill_formed_3 : (List.all (α := Instr) [
      .vunpk ⟨0, 0, 0, 0x10⟩, .tamode ⟨1, 0, 0, 0⟩, .tamode ⟨0, 0, 1, 0⟩, .tamode ⟨0, 0, 0, 0x20⟩, .tamode ⟨0, 0, 0, 0x11⟩,
      .tarst ⟨0, 0, 1⟩, .tarst ⟨0x10, 0, 0⟩, .tarst ⟨1, 1, 0⟩, .tadly ⟨1, 0, 0, 0⟩, .tadly ⟨0, 0, 1, 0⟩,
      .tadly ⟨0, 0, 0, 0x200⟩, .tadly ⟨0, 0, 0, 0x101⟩, .talnch ⟨1, 0, 0, 1⟩, .talnch ⟨0, 0, 1, 1⟩, .talnch ⟨0, 0, 0, 0x41⟩,
      .talnch ⟨0, 0, 0, 0⟩, .tacap ⟨0, 1, 0, 1⟩, .tacap ⟨0, 0, 0, 0x81⟩, .tacap ⟨0, 0, 0, 0⟩, .tacap ⟨1, 0, 0, 1⟩,
      .tastat ⟨1, 0, 0⟩, .tastat ⟨0, 1, 0⟩, .tld ⟨0, 0, 0x10, 0⟩, .tld ⟨0, 0, 0, 0x11⟩, .tld ⟨0, 0, 1, 0⟩, .tld ⟨0, 0, 0, 0x40⟩,
      .tld ⟨0, 0, 0, 0x420⟩, .tld ⟨0, 0x1F, 0, 0xA⟩, .tst ⟨0, 0, 8, 0⟩, .tst ⟨0, 0, 0, 0xD⟩, .tst ⟨0, 0, 0, 0x30⟩,
      .tst ⟨0, 0, 0, 0x40⟩, .tst ⟨0, 0, 0, 0x3E00⟩, .tzero ⟨1, 0, 0, 0⟩, .tzero ⟨0, 1, 0, 0⟩, .tzero ⟨0, 0, 8, 0⟩,
      .tzero ⟨0, 0, 0, 0x20⟩, .tzero ⟨0, 0, 0, 0x1F⟩, .tmov ⟨1, 0, 0, 0⟩, .tmov ⟨0, 0, 0, 2⟩, .tmov ⟨0, 0x10, 0, 0⟩,
      .tmma ⟨0, 0, 8, 0⟩, .tmma ⟨0, 0x10, 0, 0⟩, .tmma ⟨0x10, 0, 0, 0⟩, .tmma ⟨0, 0, 0, 0x20⟩] fun i => !i.wf) = true := by decide +kernel

/-- Terms that one check refuses. -/
theorem test_ill_formed_4 : (List.all (α := Instr) [
      .tmma ⟨0, 0, 0, 0x1F⟩, .tmmas ⟨0, 0, 8, 0⟩, .tmmas ⟨0, 0x10, 0, 0⟩, .tmmas ⟨0x10, 0, 0, 0⟩, .tmmas ⟨0, 0, 0, 0x400⟩,
      .tmmas ⟨0, 0, 0, 0x1F⟩, .ttrn ⟨1, 0, 0, 0⟩, .ttrn ⟨0, 0, 0x10, 0⟩, .ttrn ⟨0, 0x10, 0, 0⟩, .ttrn ⟨0, 0, 0, 4⟩,
      .ttrn ⟨0, 0, 0, 3⟩, .ttrn ⟨0, 1, 0, 2⟩, .tcvt ⟨1, 0, 0, 0⟩, .tcvt ⟨0, 0, 0x10, 0⟩, .tcvt ⟨0, 8, 0, 0⟩,
      .tcvt ⟨0, 0, 0, 0x100⟩, .tcvt ⟨0, 0, 0, 0xA⟩, .tcvt ⟨0, 0, 0, 0xA0⟩, .tcvt ⟨0, 0, 0, 0xC0⟩, .tcvt ⟨0, 0, 1, 0⟩,
      .tfmt ⟨1, 0, 0, 0⟩, .tfmt ⟨0, 0, 1, 0⟩, .tfmt ⟨0, 0, 0, 1⟩, .wbankSel ⟨1, 0, 0, 0⟩, .wbankSel ⟨0, 0, 1, 0⟩,
      .wbankSel ⟨0, 0, 0, 4⟩, .wbankSel ⟨0, 0, 0, 1⟩, .wbankClaim ⟨1, 0, 0, 1⟩, .wbankClaim ⟨0, 0, 1, 1⟩,
      .wbankClaim ⟨0, 0, 0, 5⟩, .wbankClaim ⟨0, 0, 0, 0⟩, .wbankRel ⟨1, 0, 0, 2⟩, .wbankRel ⟨0, 0, 1, 2⟩,
      .wbankRel ⟨0, 0, 0, 6⟩, .wbankRel ⟨0, 0, 0, 0⟩, .wregnDef ⟨1, 0, 0, 0⟩, .wregnDef ⟨0, 0, 1, 0⟩, .wregnDef ⟨0, 0, 0, 0x20⟩,
      .wregnDef ⟨0, 0, 0, 0x10⟩, .wregnRem ⟨1, 0, 0, 0x10⟩, .wregnRem ⟨0, 1, 0, 0x10⟩, .wregnRem ⟨0, 0, 1, 0x10⟩,
      .wregnRem ⟨0, 0, 0, 0x30⟩, .wregnRem ⟨0, 0, 0, 0⟩, .wldw ⟨0, 0, 1, 0x380⟩] fun i => !i.wf) = true := by decide +kernel

/-- Terms that one check refuses. -/
theorem test_ill_formed_5 : (List.all (α := Instr) [
      .wldw ⟨0, 0, 0, 0x2400⟩, .wldw ⟨0, 0, 0, 0⟩, .wldw ⟨0, 0, 0, 0x3E0⟩, .wstw ⟨0, 0, 1, 0x380⟩, .wstw ⟨0, 0, 0, 0x2400⟩,
      .wstw ⟨0, 0, 0, 0⟩, .wstw ⟨0, 0, 0, 0x3A0⟩, .wstw ⟨0x18, 3, 0, 0x1D90⟩, .wadmit ⟨0, 0, 1, 0⟩, .wadmit ⟨0, 0, 0, 0x2800⟩,
      .wadmit ⟨0, 0, 0, 0x500⟩, .wadmit ⟨0, 0, 0, 0x410⟩, .wcoll ⟨1, 0, 0, 0xE0⟩, .wcoll ⟨0, 0, 0, 0x2E0⟩, .wcoll ⟨0, 0, 0, 0⟩,
      .wver ⟨1, 0, 0, 0⟩, .wver ⟨0, 1, 0, 0⟩, .wver ⟨0, 0, 0, 0x80⟩, .wver ⟨0, 0, 0, 0x60⟩, .wver ⟨0, 0, 0, 0x30⟩,
      .wopt ⟨1, 0, 0, 0⟩, .wopt ⟨0, 0, 1, 0⟩, .wopt ⟨0, 0, 0, 0x100⟩, .wopt ⟨0, 0, 0, 0x10⟩, .wcks ⟨1, 0, 0, 0⟩,
      .wcks ⟨0, 1, 0, 0⟩, .wcks ⟨0, 0, 1, 0⟩, .wcks ⟨0, 0, 0, 0x20⟩, .wsave ⟨1, 0, 0, 1⟩, .wsave ⟨0, 0, 1, 1⟩,
      .wsave ⟨0, 0, 0, 0x11⟩, .wsave ⟨0, 0, 0, 0⟩, .wrest ⟨1, 0, 0, 0⟩, .wrest ⟨0, 0, 1, 0⟩, .wrest ⟨0, 0, 0, 1⟩,
      .ldl ⟨0, 0, 0, 0, 0xA, 0, 0, 0⟩, .ldl ⟨0, 0, 0, 1, 0, 0, 0, 0⟩, .ldl ⟨0, 0, 0, 0, 0, 1, 0, 0⟩,
      .stl ⟨0, 0, 0, 0, 0xA, 0, 0, 0⟩, .stl ⟨0, 0, 0, 1, 0, 0, 0, 0⟩, .stl ⟨0, 0, 0, 0, 0, 1, 0, 0⟩,
      .ldc ⟨0, 0, 0, 0, 0xA, 0, 0, 0⟩, .ldc ⟨0, 0, 0, 1, 0, 0, 0, 0⟩, .ldc ⟨0, 0, 0, 0, 0, 9, 0, 0⟩,
      .stc ⟨0, 0, 0, 0, 0xA, 0, 0, 0⟩] fun i => !i.wf) = true := by decide +kernel

/-- Terms that one check refuses. -/
theorem test_ill_formed_6 : (List.all (α := Instr) [
      .stc ⟨0, 0, 0, 1, 0, 0, 0, 0⟩, .stc ⟨0, 0, 0, 0, 0, 9, 0, 0⟩, .mstc ⟨0, 0, 0, 0, 0xA, 0, 0, 0⟩,
      .mstc ⟨0, 0, 0, 1, 0, 0, 0, 0⟩, .mstc ⟨0, 0, 0, 0, 0, 1, 0, 0⟩, .ldg ⟨0, 0, 0, 0, 0xA, 0, 0, 0⟩,
      .ldg ⟨0, 0, 0, 1, 0, 0, 0, 0⟩, .ldg ⟨0, 0, 0, 0, 0, 2, 0, 0⟩, .stg ⟨0, 0, 0, 0, 0xA, 0, 0, 0⟩,
      .stg ⟨0, 0, 0, 1, 0, 0, 0, 0⟩, .stg ⟨0, 0, 0, 0, 0, 1, 0, 0⟩, .ldgq ⟨0, 0, 1, 0, 0, 0, 0, 0⟩,
      .ldgq ⟨0, 0, 0, 0, 0x1B, 0, 0xE, 0⟩, .ldgq ⟨0, 0, 0, 0, 8, 0, 0, 0⟩, .ldgq ⟨0, 0, 0, 1, 0, 0, 0, 0⟩,
      .ldgq ⟨0, 0, 0, 0, 0, 8, 0, 0⟩, .pfg ⟨0, 0, 1, 0, 0, 0, 0xD, 0⟩, .pfg ⟨0, 0, 0, 0, 0, 0, 0, 0⟩,
      .pfg ⟨0, 0, 0, 0, 1, 0, 0xD, 0⟩, .pfg ⟨0, 0, 0, 1, 0, 0, 0xD, 0⟩, .pfg ⟨0, 0, 0, 0, 0, 1, 0xD, 0⟩,
      .vgath ⟨0, 0, 0, 0, 0, 0, 0xB, 0⟩, .vgath ⟨0, 0, 0, 0, 1, 0, 0, 0⟩, .vgath ⟨0, 0, 0, 0, 0, 2, 0, 0⟩,
      .vscat ⟨0, 0, 0, 0, 0, 0, 0xB, 0⟩, .vscat ⟨0, 0, 0, 0, 1, 0, 0, 0⟩, .vscat ⟨0, 0, 0, 0, 0, 1, 0, 0⟩,
      .gathq ⟨0, 0, 1, 0, 0, 0, 0, 0⟩, .gathq ⟨0, 0, 0, 0, 0x13, 0, 0xE, 0⟩, .gathq ⟨0, 0, 0, 0, 8, 0, 0, 0⟩,
      .gathq ⟨8, 0, 0, 0, 0, 0, 0, 0⟩, .gathq ⟨0, 0, 0, 0, 0, 2, 0, 0⟩, .ldk ⟨0, 0, 0, 0, 0xA, 0, 0, 0⟩,
      .ldk ⟨0, 0, 0, 1, 0, 0, 0, 0⟩, .ldk ⟨0, 0, 0, 0, 0, 2, 0, 0⟩, .ldkq ⟨0, 0, 1, 0, 0, 0, 0, 0⟩,
      .ldkq ⟨0, 0, 0, 0, 0x10, 0, 0xE, 0⟩, .ldkq ⟨0, 0, 0, 0, 8, 0, 0, 0⟩, .ldkq ⟨0, 0, 0, 1, 0, 0, 0, 0⟩,
      .ldkq ⟨0, 0, 0, 0, 0, 2, 0, 0⟩, .ldh ⟨0, 0, 0, 0, 0xA, 0, 0, 0⟩, .ldh ⟨0, 0, 0, 1, 0, 0, 0, 0⟩,
      .ldh ⟨0, 0, 0, 0, 0, 1, 0, 0⟩, .sth ⟨0, 0, 0, 0, 0xA, 0, 0, 0⟩, .sth ⟨0, 0, 0, 1, 0, 0, 0, 0⟩] fun i => !i.wf) = true := by decide +kernel

/-- Terms that one check refuses. -/
theorem test_ill_formed_7 : (List.all (α := Instr) [
      .sth ⟨0, 0, 0, 0, 0, 1, 0, 0⟩, .hflsh ⟨0, 0, 1, 0, 0, 0, 0xD, 0⟩, .hflsh ⟨0, 0, 0, 0, 0, 0, 0, 0⟩,
      .hflsh ⟨0, 0, 0, 0, 1, 0, 0xD, 0⟩, .hflsh ⟨0, 0, 0, 1, 0, 0, 0xD, 0⟩, .hflsh ⟨0, 0, 0, 0, 0, 2, 0xD, 0⟩,
      .hflsh ⟨0, 0, 0, 0, 0, 1, 0xD, 0x280⟩, .hinv ⟨0, 0, 1, 0, 0, 0, 0xD, 0⟩, .hinv ⟨0, 0, 0, 0, 0, 0, 0, 0⟩,
      .hinv ⟨0, 0, 0, 0, 1, 0, 0xD, 0⟩, .hinv ⟨0, 0, 0, 1, 0, 0, 0xD, 0⟩, .hinv ⟨0, 0, 0, 0, 0, 2, 0xD, 0⟩,
      .hinv ⟨0, 0, 0, 0, 0, 1, 0xD, 0x3E⟩, .ldp ⟨0, 0, 0, 0, 0xA, 0, 0, 0⟩, .ldp ⟨0, 0, 0, 1, 0, 0, 0, 0⟩,
      .stp ⟨0, 0, 0, 0, 0xA, 0, 0, 0⟩, .stp ⟨0, 0, 0, 1, 0, 0, 0, 0⟩, .spcfg ⟨1, 0, 0, 0, 0, 0, 0, 0⟩,
      .spcfg ⟨0, 0, 0, 1, 0, 0, 0, 0⟩, .spcfg ⟨0, 0, 0, 0, 1, 0, 0, 0⟩, .spcfg ⟨0, 0, 0, 0, 0, 1, 0, 0⟩,
      .spcfg ⟨0, 0, 0, 0, 0, 0, 1, 0⟩, .spcfg ⟨0, 0, 0, 0, 0, 0, 0, 1⟩, .cinv ⟨0, 0, 1, 0, 0, 0, 0xD, 0⟩,
      .cinv ⟨0, 0, 0, 0, 0, 0, 0, 0⟩, .cinv ⟨0, 0, 0, 0, 1, 0, 0xD, 0⟩, .cinv ⟨0, 0, 0, 1, 0, 0, 0xD, 0⟩,
      .cinv ⟨0, 0, 0, 0, 0, 2, 0xD, 0⟩, .cinv ⟨0, 0, 0, 0, 0, 1, 0xD, 0x4C00⟩, .cflsh ⟨0, 0, 1, 0, 0, 0, 0xD, 0⟩,
      .cflsh ⟨0, 0, 0, 0, 0, 0, 0, 0⟩, .cflsh ⟨0, 0, 0, 0, 1, 0, 0xD, 0⟩, .cflsh ⟨0, 0, 0, 1, 0, 0, 0xD, 0⟩,
      .cflsh ⟨0, 0, 0, 0, 0, 2, 0xD, 0⟩, .cflsh ⟨0, 0, 0, 0, 0, 1, 0xD, 0x1C⟩, .clkr ⟨0, 0, 1, 0, 0, 0, 0xD, 0⟩,
      .clkr ⟨0, 0, 0, 0, 0, 0, 0, 0⟩, .clkr ⟨0, 0, 0, 0, 1, 0, 0xD, 0⟩, .clkr ⟨0, 0, 0, 1, 0, 0, 0xD, 0⟩,
      .clkr ⟨0, 0, 0, 0, 0, 2, 0xD, 0⟩, .clkr ⟨0, 0, 0, 0, 0, 1, 0xD, 0x98⟩, .aadd 0 ⟨0, 0, 0, 1, 0, 0, 4, 0⟩,
      .aadd 0 ⟨0, 0, 0, 0, 1, 0, 4, 0⟩, .aadd 0 ⟨0, 0, 0, 0, 0, 1, 4, 0⟩, .aadd 0 ⟨0, 0, 0, 0, 0, 0, 0, 0⟩] fun i => !i.wf) = true := by decide +kernel

/-- Terms that one check refuses. -/
theorem test_ill_formed_8 : (List.all (α := Instr) [
      .afadd 2 ⟨0, 0, 0, 0, 0, 0, 9, 0⟩, .afadd 0 ⟨0, 0, 0, 1, 0, 0, 9, 0⟩, .afadd 0 ⟨0, 0, 0, 0, 1, 0, 9, 0⟩,
      .afadd 0 ⟨0, 0, 0, 0, 0, 1, 9, 0⟩, .afadd 0 ⟨0, 0, 0, 0, 0, 0, 0, 0⟩, .amin 0 ⟨0, 0, 0, 1, 0, 0, 4, 0⟩,
      .amin 0 ⟨0, 0, 0, 0, 1, 0, 4, 0⟩, .amin 0 ⟨0, 0, 0, 0, 0, 1, 4, 0⟩, .amin 0 ⟨0, 0, 0, 0, 0, 0, 0, 0⟩,
      .amax 0 ⟨0, 0, 0, 1, 0, 0, 4, 0⟩, .amax 0 ⟨0, 0, 0, 0, 1, 0, 4, 0⟩, .amax 0 ⟨0, 0, 0, 0, 0, 1, 4, 0⟩,
      .amax 0 ⟨0, 0, 0, 0, 0, 0, 0, 0⟩, .aand 0 ⟨0, 0, 0, 1, 0, 0, 4, 0⟩, .aand 0 ⟨0, 0, 0, 0, 1, 0, 4, 0⟩,
      .aand 0 ⟨0, 0, 0, 0, 0, 1, 4, 0⟩, .aand 0 ⟨0, 0, 0, 0, 0, 0, 0, 0⟩, .aor 0 ⟨0, 0, 0, 1, 0, 0, 4, 0⟩,
      .aor 0 ⟨0, 0, 0, 0, 1, 0, 4, 0⟩, .aor 0 ⟨0, 0, 0, 0, 0, 1, 4, 0⟩, .aor 0 ⟨0, 0, 0, 0, 0, 0, 0, 0⟩,
      .axor 0 ⟨0, 0, 0, 1, 0, 0, 4, 0⟩, .axor 0 ⟨0, 0, 0, 0, 1, 0, 4, 0⟩, .axor 0 ⟨0, 0, 0, 0, 0, 1, 4, 0⟩,
      .axor 0 ⟨0, 0, 0, 0, 0, 0, 0, 0⟩, .axchg 0 ⟨0, 0, 0, 1, 0, 0, 4, 0⟩, .axchg 0 ⟨0, 0, 0, 0, 1, 0, 4, 0⟩,
      .axchg 0 ⟨0, 0, 0, 0, 0, 1, 4, 0⟩, .axchg 0 ⟨0, 0, 0, 0, 0, 0, 0, 0⟩, .acas 0 ⟨0, 0, 0, 1, 0, 0, 4, 0⟩,
      .acas 0 ⟨0, 0, 0, 0, 1, 0, 4, 0⟩, .acas 0 ⟨0, 0, 0, 0, 0, 1, 4, 0⟩, .acas 0 ⟨0, 0, 0, 0, 0, 0, 0, 0⟩,
      .ared 2 ⟨0, 0, 0, 0, 0, 0, 4, 0⟩, .ared 0 ⟨0, 0, 0, 1, 0, 0, 4, 0⟩, .ared 0 ⟨1, 0, 0, 0, 0, 0, 4, 0⟩,
      .ared 0 ⟨0, 0, 0, 0, 0, 1, 4, 0⟩, .ared 0 ⟨0, 0, 0, 0, 8, 0, 4, 0⟩, .ared 0 ⟨0, 0, 0, 0, 0, 0, 0, 0⟩,
      .xshdAlloc ⟨1, 0, 0, 0⟩, .xshdAlloc ⟨0, 0, 0, 2⟩, .xshdAlloc ⟨0, 0x1D, 0, 0⟩, .xshdAlloc ⟨0, 0, 0, 1⟩,
      .xshdFree ⟨1, 0, 0, 1⟩, .xshdFree ⟨0, 0, 1, 1⟩] fun i => !i.wf) = true := by decide +kernel

/-- Terms that one check refuses. -/
theorem test_ill_formed_9 : (List.all (α := Instr) [
      .xshdFree ⟨0, 0, 0, 3⟩, .xshdFree ⟨0, 0, 0, 0⟩, .xcopy ⟨0, 0, 0, 0x800⟩, .xfill ⟨0, 0, 0, 0x400⟩, .xpub ⟨1, 0, 0, 0⟩,
      .xpub ⟨0, 1, 0, 0⟩, .xpub ⟨0, 0, 1, 0⟩, .xpub ⟨0, 0, 0, 0x400⟩, .semw ⟨1, 0, 0, 0⟩, .semw ⟨0, 1, 0, 0⟩,
      .semw ⟨0, 0, 0, 0x100⟩, .sems ⟨0, 1, 0, 0⟩, .sems ⟨0, 0, 0, 0x100⟩, .semi ⟨0, 1, 0, 0⟩, .semi ⟨0, 0, 0, 0x100⟩,
      .semrd ⟨1, 0, 0, 0⟩, .semrd ⟨0, 1, 0, 0⟩, .semrd ⟨0, 0, 0, 0x100⟩, .bar ⟨1, 0, 0⟩, .bara ⟨1, 0, 0⟩, .barw ⟨1, 0, 0⟩,
      .lock ⟨1, 0, 0⟩, .unlock ⟨1, 0, 0⟩, .trylk ⟨1, 0, 0⟩, .wreg ⟨1, 0, 0, 0⟩, .wreg ⟨0, 0, 0, 0x10⟩, .wreg ⟨0, 0, 0, 1⟩,
      .wdereg ⟨1, 0, 0, 0⟩, .wdereg ⟨0, 1, 0, 0⟩, .wdereg ⟨0, 0, 0, 1⟩, .whold ⟨1, 0, 0, 0⟩, .whold ⟨0, 0, 0, 0x20⟩,
      .whold ⟨0, 0, 0, 1⟩, .wqry ⟨1, 0, 0, 0⟩, .wqry ⟨0, 0, 0, 0x100⟩, .wqry ⟨0, 0, 0, 4⟩, .wqry ⟨0, 0, 0, 3⟩,
      .wqry ⟨0, 0, 0, 0xD0⟩, .wqry ⟨0, 1, 0, 0⟩, .qpush ⟨1, 0, 0, 0⟩, .qpush ⟨0, 0, 1, 0⟩, .qpush ⟨0, 0, 0, 0x10⟩,
      .qpop ⟨1, 0, 0, 0⟩, .qpop ⟨0, 1, 0, 0⟩, .qpop ⟨0, 0, 0, 0x10⟩] fun i => !i.wf) = true := by decide +kernel

/-- Terms that one check refuses. -/
theorem test_ill_formed_10 : (List.all (α := Instr) [
      .qpeek ⟨1, 0, 0, 0⟩, .qpeek ⟨0, 1, 0, 0⟩, .qpeek ⟨0, 0, 0, 0x10⟩, .qstat ⟨1, 0, 0, 0⟩, .qstat ⟨0, 1, 0, 0⟩,
      .qstat ⟨0, 0, 0, 0x10⟩, .tokp ⟨0, 1, 0⟩, .tokp ⟨0, 0, 1⟩, .tokp ⟨8, 0, 0⟩, .tokw ⟨0, 1, 0⟩, .tokw ⟨0, 0, 1⟩,
      .tokw ⟨8, 0, 0⟩, .xtree ⟨1, 0, 0, 0⟩, .xtree ⟨0, 0, 1, 0⟩, .xtree ⟨0, 0, 0, 1⟩, .xred ⟨0, 0, 1, 0⟩,
      .xred ⟨0, 0, 0, 0xC80⟩, .xred ⟨0, 0, 0, 0x180⟩, .xred ⟨0, 0, 0, 0x600⟩, .xbcast ⟨0, 0, 1, 0⟩, .xbcast ⟨0, 0, 0, 0x40⟩,
      .xrstat ⟨1, 0, 0, 0⟩, .xrstat ⟨0, 1, 0, 0⟩, .xrstat ⟨0, 0, 0, 2⟩, .lsend ⟨0, 0, 0, 0x100⟩, .lsend ⟨0, 0, 0x1F, 0x40⟩,
      .larm ⟨0, 0, 0, 0x80⟩, .larm ⟨0, 0, 0, 0x40⟩, .larmDis ⟨1, 0, 0, 0x40⟩, .larmDis ⟨0, 1, 0, 0x40⟩,
      .larmDis ⟨0, 0, 0, 0xC0⟩, .larmDis ⟨0, 0, 0, 0x41⟩, .larmDis ⟨0, 0, 0, 0⟩, .lrecv ⟨0, 0, 1, 0⟩, .lrecv ⟨0, 0, 0, 0x40⟩,
      .lctrRd ⟨0, 0, 0, 4⟩, .lctrRd ⟨0, 0, 0, 1⟩, .lctrWait ⟨0, 0, 0, 5⟩, .lctrWait ⟨0, 0, 0, 0⟩, .lctrSet ⟨0, 0, 0, 6⟩,
      .lctrSet ⟨0, 0, 0, 0⟩, .lctrAdd ⟨0, 0, 0, 7⟩, .lctrAdd ⟨0, 0, 0, 0⟩, .lstep ⟨1, 0, 0, 0⟩, .lstep ⟨0, 0, 0, 1⟩] fun i => !i.wf) = true := by decide +kernel

/-- Terms that one check refuses. -/
theorem test_ill_formed_11 : (List.all (α := Instr) [
      .lstat ⟨1, 0, 0, 0⟩, .lstat ⟨0, 0, 0, 4⟩, .lstat ⟨0, 0, 0, 3⟩, .lstat ⟨0, 1, 0, 2⟩, .trap ⟨0, 0, 1⟩, .trap ⟨0x10, 0, 0⟩,
      .seth ⟨1, 0, 0⟩, .csrr ⟨1, 0, 0, 0⟩, .csrr ⟨0, 1, 0, 0⟩, .csrr ⟨0, 0, 0, 0x1000⟩, .csrr ⟨0, 0, 0, 0x15⟩,
      .csrw ⟨1, 0, 0, 9⟩, .csrw ⟨0, 0, 1, 9⟩, .csrw ⟨0, 0, 0, 0x1010⟩, .csrw ⟨0, 0, 0, 0⟩, .csrw ⟨0, 0, 0, 4⟩,
      .csrwDmr ⟨1, 0, 0, 4⟩, .csrwDmr ⟨0, 0, 1, 4⟩, .csrwDmr ⟨0, 0, 0, 0x1004⟩, .csrwDmr ⟨0, 0, 0, 0⟩, .csrwBib ⟨1, 0, 0, 5⟩,
      .csrwBib ⟨0, 0, 1, 5⟩, .csrwBib ⟨0, 0, 0, 0xC502A005⟩, .csrwBib ⟨0, 0, 0, 0⟩, .csrwBdepth ⟨1, 0, 0, 6⟩,
      .csrwBdepth ⟨0, 0, 1, 6⟩, .csrwBdepth ⟨0, 0, 0, 0x9596D006⟩, .csrwBdepth ⟨0, 0, 0, 0⟩, .csrwBprio ⟨1, 0, 0, 7⟩,
      .csrwBprio ⟨0, 0, 1, 7⟩, .csrwBprio ⟨0, 0, 0, 0x1000⟩, .csrwBprio ⟨0, 0, 0, 0⟩, .tlbi ⟨0, 0, 1⟩, .errlog ⟨1, 0, 0⟩,
      .inj ⟨1, 0, 0, 0⟩, .inj ⟨0, 0, 1, 0⟩, .inj ⟨0, 0, 0, 0x10⟩, .inj ⟨0, 0, 0, 4⟩, .ares ⟨1, 0, 0⟩] fun i => !i.wf) = true := by decide +kernel

/-! Decoding: words that the manual writes out beside their assembly text, family by family. -/

/-- `cont s5, s9`; `prio s3, #5`; `domain s3, s4`; `self s6`; `trcrec s2`; `trcstat s5`. -/theorem test_decode_jobs :
    decodesTo [0x000B, 0x024B] ⟨Head.zero, .cont ⟨0, 9, 5⟩⟩ = true ∧
    decodesTo [0x800B, 0x2807] ⟨Head.zero, .prio ⟨5, 0, 3⟩⟩ = true ∧
    decodesTo [0x000D, 0x0106] ⟨Head.zero, .domain ⟨0, 4, 3⟩⟩ = true ∧
    decodesTo [0x000D, 0x000D] ⟨Head.zero, .self ⟨0, 0, 6⟩⟩ = true ∧
    decodesTo [0x00E7, 0x0080] ⟨Head.zero, .trcrec ⟨0, 2, 0⟩⟩ = true ∧
    decodesTo [0x00E7, 0x000B] ⟨Head.zero, .trcstat ⟨0, 0, 5⟩⟩ = true := by
  and_intros <;> decide +kernel

/-- `fqry s5, s2`; `bri s0, s9`; `ret`; `mcall #37`; `mdef s6, #37`; `nest n2, s10, #0`; `wlimset s3, s4`. -/theorem test_decode_control :
    decodesTo [0x8003, 0x008A] ⟨Head.zero, .fqry ⟨0, 2, 5⟩⟩ = true ∧
    decodesTo [0x0007, 0x0240] ⟨Head.zero, .bri ⟨0, 9, 0⟩⟩ = true ∧
    decodesTo [0x0007, 0x07C1] ⟨Head.zero, .ret ⟨0, 0x1F, 0⟩⟩ = true ∧
    decodesTo [0x0009, 0x080A] ⟨Head.zero, .mcall ⟨1, 0, 5⟩⟩ = true ∧
    decodesTo [0x8009, 0x0180, 0x0025, 0x0000] ⟨Head.zero, .mdef ⟨0, 6, 0, 0x25⟩⟩ = true ∧
    decodesTo [0x0009, 0x0285, 0x0000, 0x0000] ⟨Head.zero, .nest ⟨0, 0xA, 2, 0⟩⟩ = true ∧
    decodesTo [0x800D, 0x0107] ⟨Head.zero, .wlimset ⟨0, 4, 3⟩⟩ = true := by
  and_intros <;> decide +kernel

/-- `sel s4, s5, s6`; `addi s2, s2, #-1`; `li s4, #0x1234_5678`; `mov s2, s7`; `div s7, s8, s9`; `lea s5, [s4+s6<<3+64]`; `cmplt
p5, s1, s2`; `cmpeqi p1, s3, #0`; `plog.or p40, p41`; `pget s3, p20`; `pfirst s4, p9, s2`. -/theorem test_decode_scalar :
    decodesTo [0x981B, 0x3149] ⟨{ Head.zero with g := 3 }, .sel ⟨6, 5, 4⟩⟩ = true ∧
    decodesTo [0x001D, 0xF884] ⟨Head.zero, .addi ⟨0x1F, 2, 2⟩⟩ = true ∧
    decodesTo [0x001F, 0x0008, 0x5678, 0x1234] ⟨Head.zero, .li ⟨0, 0, 4, 0x12345678⟩⟩ = true ∧
    decodesTo [0x001F, 0x01C5] ⟨Head.zero, .mov ⟨0, 7, 2⟩⟩ = true ∧
    decodesTo [0x8019, 0x4A0F] ⟨Head.zero, .div ⟨9, 8, 7⟩⟩ = true ∧
    decodesTo [0x801F, 0x310B, 0x0040, 0x6000] ⟨Head.zero, .lea ⟨6, 4, 5, 0x60000040⟩⟩ = true ∧
    decodesTo [0x0021, 0x104B] ⟨Head.zero, .cmplt ⟨2, 1, 5⟩⟩ = true ∧
    decodesTo [0x0023, 0x00C3] ⟨Head.zero, .cmpeqi ⟨0, 3, 1⟩⟩ = true ∧
    decodesTo [0x002D, 0x2A54] ⟨Head.zero, .plogOr ⟨0x29, 0x28⟩⟩ = true ∧
    decodesTo [0x002F, 0x00CA] ⟨Head.zero, .pget ⟨0, 3, 0x14⟩⟩ = true ∧
    decodesTo [0x802F, 0xD104] ⟨Head.zero, .pfirst ⟨2, 4, 9⟩⟩ = true := by
  and_intros <;> decide +kernel

/-- `vunpk.se4 v9, v2, #0`; `vscale v1, v2, v3`; `vsetf s0, s6`; `vfma v4, v1, v2`; `?p2 vmax v6, v6, v7`; `vrsq v8, v9`; `vsra
v5, v5, v6`; `vcmpun p7, v4, v4`; `?p5 vsel v1, v2, v3`; `vlane v0, #0, #1`; `vext s5, v3, s2, #7`; `vslide v2, v1, s0, #-1`;
`vdot v4, v5, v6`. -/theorem test_decode_vector :
    decodesTo [0x0059, 0x0093, 0x0001, 0x0000] ⟨Head.zero, .vunpk ⟨0, 2, 9, 1⟩⟩ = true ∧
    decodesTo [0x8059, 0x1883] ⟨Head.zero, .vscale ⟨3, 2, 1⟩⟩ = true ∧
    decodesTo [0x0057, 0x0181] ⟨Head.zero, .vsetf ⟨0, 6, 0⟩⟩ = true ∧
    decodesTo [0x8041, 0x1049] ⟨Head.zero, .vfma ⟨2, 1, 4⟩⟩ = true ∧
    decodesTo [0x9043, 0x398C] ⟨{ Head.zero with g := 2 }, .vmax ⟨7, 6, 6⟩⟩ = true ∧
    decodesTo [0x0045, 0x0251] ⟨Head.zero, .vrsq ⟨0, 9, 8⟩⟩ = true ∧
    decodesTo [0x004B, 0x314B] ⟨Head.zero, .vsra ⟨6, 5, 5⟩⟩ = true ∧
    decodesTo [0x004F, 0x210E] ⟨Head.zero, .vcmpun ⟨4, 4, 7⟩⟩ = true ∧
    decodesTo [0x2851, 0x1882] ⟨{ Head.zero with g := 5 }, .vsel ⟨3, 2, 1⟩⟩ = true ∧
    decodesTo [0x8051, 0x0001, 0x0000, 0x0001] ⟨Head.zero, .vlane ⟨0, 0, 0, 0x10000⟩⟩ = true ∧
    decodesTo [0x0053, 0x10CA, 0x0007, 0x0000] ⟨Head.zero, .vext ⟨2, 3, 5, 7⟩⟩ = true ∧
    decodesTo [0x8053, 0x0045, 0xFFFF, 0x0000] ⟨Head.zero, .vslide ⟨0, 1, 2, 0xFFFF⟩⟩ = true ∧
    decodesTo [0x0055, 0x3149] ⟨Head.zero, .vdot ⟨6, 5, 4⟩⟩ = true := by
  and_intros <;> decide +kernel

/-- `tld.f16 t0, s12, s15`; `tst.f32 a0, s14, s16, s10`; `tzero a0`; `tmov.a a1, a0`; `tmma a0, t0, t1, s10`; `tmmas a1, t2, t3,
s10, s12`; `ttrn.b16 t4, t1`; `tcvt.bf16.rne t2, a0`; `tfmt s18`; `tstart`; `tcks #1`. -/theorem test_decode_tile :
    decodesTo [0x0069, 0x7B00, 0x0000, 0x0008] ⟨Head.zero, .tld ⟨0xF, 0xC, 0, 2⟩⟩ = true ∧
    decodesTo [0x8069, 0x8380, 0x0000, 0x5024] ⟨Head.zero, .tst ⟨0x10, 0xE, 0, 0x1409⟩⟩ = true ∧
    decodesTo [0x0069, 0x0001, 0x0000, 0x0000] ⟨Head.zero, .tzero ⟨0, 0, 0, 0⟩⟩ = true ∧
    decodesTo [0x8069, 0x0003, 0x0000, 0x0004] ⟨Head.zero, .tmov ⟨0, 0, 1, 1⟩⟩ = true ∧
    decodesTo [0x006B, 0x0800, 0x0000, 0x0028] ⟨Head.zero, .tmma ⟨1, 0, 0, 0xA⟩⟩ = true ∧
    decodesTo [0x806B, 0x1882, 0x0000, 0x0628] ⟨Head.zero, .tmmas ⟨3, 2, 1, 0x18A⟩⟩ = true ∧
    decodesTo [0x006B, 0x0049, 0x0000, 0x0000] ⟨Head.zero, .ttrn ⟨0, 1, 4, 0⟩⟩ = true ∧
    decodesTo [0x806B, 0x0005, 0x0000, 0x000C] ⟨Head.zero, .tcvt ⟨0, 0, 2, 3⟩⟩ = true ∧
    decodesTo [0x006D, 0x0480, 0x0000, 0x0000] ⟨Head.zero, .tfmt ⟨0, 0x12, 0, 0⟩⟩ = true ∧
    decodesTo [0x806D, 0x0000, 0x0000, 0x0000] ⟨Head.zero, .tstart⟩ = true ∧
    decodesTo [0x006D, 0x0001, 0x0000, 0x0004] ⟨Head.zero, .tcksOn⟩ = true := by
  and_intros <;> decide +kernel

/-- `wbank.claim s2`; `wregn.def s3, #0`; `wldw.bf16.bf16.north s0, s6, #0`; `wstw.bf16.north s7, s6, #0`; `wadmit.bu.bf16 s10,
s11, #0, #0`; `wadmit.a s0, s16, #0, #0`; `wcoll.f.f32 s20, s19, #0`; `wver.reg s5, #0`; `wopt.rne s4, #0`; `wcks #0, #1`;
`wsave s5, #1`; `wrest s5`. -/theorem test_decode_wavefront :
    decodesTo [0x0071, 0x0081, 0x0000, 0x0004] ⟨Head.zero, .wbankClaim ⟨0, 2, 0, 1⟩⟩ = true ∧
    decodesTo [0x8071, 0x00C1, 0x0000, 0x0000] ⟨Head.zero, .wregnDef ⟨0, 3, 0, 0⟩⟩ = true ∧
    decodesTo [0x0073, 0x3000, 0x0000, 0x1000] ⟨Head.zero, .wldw ⟨6, 0, 0, 0x400⟩⟩ = true ∧
    decodesTo [0x8073, 0x31C0, 0x0000, 0x1000] ⟨Head.zero, .wstw ⟨6, 7, 0, 0x400⟩⟩ = true ∧
    decodesTo [0x0073, 0x5A81, 0x0000, 0x2800] ⟨Head.zero, .wadmit ⟨0xB, 0xA, 0, 0xA00⟩⟩ = true ∧
    decodesTo [0x0073, 0x8001, 0x0000, 0x1000] ⟨Head.zero, .wadmit ⟨0x10, 0, 0, 0x400⟩⟩ = true ∧
    decodesTo [0x8073, 0x04E9, 0x0000, 0x0480] ⟨Head.zero, .wcoll ⟨0, 0x13, 0x14, 0x120⟩⟩ = true ∧
    decodesTo [0x8075, 0x000A, 0x0000, 0x0080] ⟨Head.zero, .wver ⟨0, 0, 5, 0x20⟩⟩ = true ∧
    decodesTo [0x0075, 0x0101, 0x0000, 0x0000] ⟨Head.zero, .wopt ⟨0, 4, 0, 0⟩⟩ = true ∧
    decodesTo [0x8075, 0x0001, 0x0000, 0x0040] ⟨Head.zero, .wcks ⟨0, 0, 0, 0x10⟩⟩ = true ∧
    decodesTo [0x0077, 0x0140, 0x0000, 0x0004] ⟨Head.zero, .wsave ⟨0, 5, 0, 1⟩⟩ = true ∧
    decodesTo [0x8077, 0x0140, 0x0000, 0x0000] ⟨Head.zero, .wrest ⟨0, 5, 0, 0⟩⟩ = true := by
  and_intros <;> decide +kernel

/-- `tawin s3, s2, #4`; `tamode s5, #2`; `tarst #3`; `tarst s4`; `tadly v6, #2, #5`; `talnch v4, #0, #1`; `tacap v8, v9, #0,
#1`; `tastat s5`. -/theorem test_decode_temporal :
    decodesTo [0x0061, 0x2086] ⟨Head.zero, .tawin ⟨4, 2, 3⟩⟩ = true ∧
    decodesTo [0x8061, 0x0140, 0x0002, 0x0000] ⟨Head.zero, .tamode ⟨0, 5, 0, 2⟩⟩ = true ∧
    decodesTo [0x0061, 0x1801] ⟨Head.zero, .tarst ⟨3, 0, 0⟩⟩ = true ∧
    decodesTo [0x0061, 0x0101] ⟨Head.zero, .tarst ⟨0, 4, 0⟩⟩ = true ∧
    decodesTo [0x8061, 0x0181, 0x0052, 0x0000] ⟨Head.zero, .tadly ⟨0, 6, 0, 0x52⟩⟩ = true ∧
    decodesTo [0x0063, 0x0100, 0x0001, 0x0000] ⟨Head.zero, .talnch ⟨0, 4, 0, 1⟩⟩ = true ∧
    decodesTo [0x8063, 0x4810, 0x0041, 0x0000] ⟨Head.zero, .tacap ⟨9, 0, 8, 0x41⟩⟩ = true ∧
    decodesTo [0x0063, 0x000B] ⟨Head.zero, .tastat ⟨0, 0, 5⟩⟩ = true := by
  and_intros <;> decide +kernel

/-- `ldl.d s5, [s0+8]`; `stl.vr v20, [s12+0]`; `ldc.f32 s4, [c3:s6+s7<<2+16]`; `stc.u32 s3, [c2:s4+32]`; `ldg.i32.pz s7,
[s4+s5<<2+8]`; `stg.d s5, [s4+16]`; `ldk.f32 s2, [s3+s4<<2+0]`; `ldh.d.c s6, [s9+0]`; `ldp.d s6, [d5:s9+0]`; `stp.f32 s2,
[d0:s3+4]`; `cinv [s4+0], s5`; `cflsh.all`; `clkr.all`; `hflsh.all`; `hinv [s4+0], s5`. -/theorem test_decode_memory :
    decodesTo [0x0081, 0x000A, 0x0008, 0x0006] ⟨Head.zero, .ldl ⟨0, 0, 5, 0, 0, 0, 6, 8⟩⟩ = true ∧
    decodesTo [0x8081, 0x0328, 0x0000, 0x000E] ⟨Head.zero, .stl ⟨0, 0xC, 0x14, 0, 0, 0, 0xE, 0⟩⟩ = true ∧
    decodesTo [0x0083, 0x3988, 0x0010, 0x4039] ⟨Head.zero, .ldc ⟨7, 6, 4, 2, 0, 3, 9, 0x10⟩⟩ = true ∧
    decodesTo [0x8083, 0x0106, 0x0020, 0x0024] ⟨Head.zero, .stc ⟨0, 4, 3, 0, 0, 2, 4, 0x20⟩⟩ = true ∧
    decodesTo [0x0085, 0x290E, 0x0008, 0x4015] ⟨Head.zero, .ldg ⟨5, 4, 7, 2, 0, 1, 5, 8⟩⟩ = true ∧
    decodesTo [0x8085, 0x010A, 0x0010, 0x0006] ⟨Head.zero, .stg ⟨0, 4, 5, 0, 0, 0, 6, 0x10⟩⟩ = true ∧
    decodesTo [0x0089, 0x20C4, 0x0000, 0x4009] ⟨Head.zero, .ldk ⟨4, 3, 2, 2, 0, 0, 9, 0⟩⟩ = true ∧
    decodesTo [0x008B, 0x024C, 0x0000, 0x0046] ⟨Head.zero, .ldh ⟨0, 9, 6, 0, 0, 4, 6, 0⟩⟩ = true ∧
    decodesTo [0x008D, 0x024C, 0x0000, 0x0056] ⟨Head.zero, .ldp ⟨0, 9, 6, 0, 0, 5, 6, 0⟩⟩ = true ∧
    decodesTo [0x808D, 0x00C4, 0x0004, 0x0009] ⟨Head.zero, .stp ⟨0, 3, 2, 0, 0, 0, 9, 4⟩⟩ = true ∧
    decodesTo [0x808F, 0x2900, 0x0000, 0x000D] ⟨Head.zero, .cinv ⟨5, 4, 0, 0, 0, 0, 0xD, 0⟩⟩ = true ∧
    decodesTo [0x008F, 0x0001, 0x0000, 0x001D] ⟨Head.zero, .cflsh ⟨0, 0, 0, 0, 0, 1, 0xD, 0⟩⟩ = true ∧
    decodesTo [0x808F, 0x0001, 0x0000, 0x001D] ⟨Head.zero, .clkr ⟨0, 0, 0, 0, 0, 1, 0xD, 0⟩⟩ = true ∧
    decodesTo [0x008B, 0x0001, 0x0000, 0x001D] ⟨Head.zero, .hflsh ⟨0, 0, 0, 0, 0, 1, 0xD, 0⟩⟩ = true ∧
    decodesTo [0x808B, 0x2901, 0x0000, 0x000D] ⟨Head.zero, .hinv ⟨5, 4, 0, 0, 0, 0, 0xD, 0⟩⟩ = true := by
  and_intros <;> decide +kernel

/-- `aadd.g.d s5, [s4+0], s6`; `afadd.c.f32 s2, [c3:s4+0], s5`; `axchg.h.d s3, [s9+0], s4`; `acas.g.d s7, [s4+8], s8`;
`ared.g.f32.x64 v20, [s12+0]`. -/theorem test_decode_atomics :
    decodesTo [0x00A1, 0x310A, 0x0000, 0x0006] ⟨Head.zero, .aadd 0 ⟨6, 4, 5, 0, 0, 0, 6, 0⟩⟩ = true ∧
    decodesTo [0x80A3, 0x2904, 0x0000, 0x0039] ⟨Head.zero, .afadd 1 ⟨5, 4, 2, 0, 0, 3, 9, 0⟩⟩ = true ∧
    decodesTo [0x00AF, 0x2247, 0x0000, 0x0006] ⟨Head.zero, .axchg 2 ⟨4, 9, 3, 0, 0, 0, 6, 0⟩⟩ = true ∧
    decodesTo [0x00B1, 0x410E, 0x0008, 0x0006] ⟨Head.zero, .acas 0 ⟨8, 4, 7, 0, 0, 0, 6, 8⟩⟩ = true ∧
    decodesTo [0x00B3, 0x0328, 0x0000, 0x0709] ⟨Head.zero, .ared 0 ⟨0, 0xC, 0x14, 0, 7, 0, 9, 0⟩⟩ = true := by
  and_intros <;> decide +kernel

/-- `semw s8, sem1`; `sems s3, sem4, s6`; `semi s3, sem2, s4`; `semrd s5, sem2`; `bar s0, s0`; `bara s2, s5`; `barw s2, s5`;
`bibset s3, s4, s5`; `lock s4, s3`; `trylk s5, s2`; `unlock s7, s3`; `qpush q9, v4`; `qpop v21, q8`; `qpeek s4, q2`; `qstat s5,
q1`; `tokp k0`; `tokw k3`; `wreg.expl s2, s4`; `wdereg s2`; `whold.sem s6, s5`; `wqry.obj.lock s7, s3`. -/theorem test_decode_synchronisation :
    decodesTo [0x00B9, 0x0010, 0x0001, 0x0000] ⟨Head.zero, .semw ⟨0, 0, 8, 1⟩⟩ = true ∧
    decodesTo [0x80B9, 0x3006, 0x0004, 0x0000] ⟨Head.zero, .sems ⟨6, 0, 3, 4⟩⟩ = true ∧
    decodesTo [0x00B9, 0x2007, 0x0002, 0x0000] ⟨Head.zero, .semi ⟨4, 0, 3, 2⟩⟩ = true ∧
    decodesTo [0x80B9, 0x000B, 0x0002, 0x0000] ⟨Head.zero, .semrd ⟨0, 0, 5, 2⟩⟩ = true ∧
    decodesTo [0x00BB, 0x0000] ⟨Head.zero, .bar ⟨0, 0, 0⟩⟩ = true ∧
    decodesTo [0x80BB, 0x0144] ⟨Head.zero, .bara ⟨0, 5, 2⟩⟩ = true ∧
    decodesTo [0x00BB, 0x0145] ⟨Head.zero, .barw ⟨0, 5, 2⟩⟩ = true ∧
    decodesTo [0x80BB, 0x2907] ⟨Head.zero, .bibset ⟨5, 4, 3⟩⟩ = true ∧
    decodesTo [0x00BD, 0x00C8] ⟨Head.zero, .lock ⟨0, 3, 4⟩⟩ = true ∧
    decodesTo [0x00BD, 0x008B] ⟨Head.zero, .trylk ⟨0, 2, 5⟩⟩ = true ∧
    decodesTo [0x80BD, 0x00CE] ⟨Head.zero, .unlock ⟨0, 3, 7⟩⟩ = true ∧
    decodesTo [0x00C1, 0x0100, 0x0009, 0x0000] ⟨Head.zero, .qpush ⟨0, 4, 0, 9⟩⟩ = true ∧
    decodesTo [0x80C1, 0x002A, 0x0008, 0x0000] ⟨Head.zero, .qpop ⟨0, 0, 0x15, 8⟩⟩ = true ∧
    decodesTo [0x00C1, 0x0009, 0x0002, 0x0000] ⟨Head.zero, .qpeek ⟨0, 0, 4, 2⟩⟩ = true ∧
    decodesTo [0x80C1, 0x000B, 0x0001, 0x0000] ⟨Head.zero, .qstat ⟨0, 0, 5, 1⟩⟩ = true ∧
    decodesTo [0x00C3, 0x0000] ⟨Head.zero, .tokp ⟨0, 0, 0⟩⟩ = true ∧
    decodesTo [0x80C3, 0x1800] ⟨Head.zero, .tokw ⟨3, 0, 0⟩⟩ = true ∧
    decodesTo [0x00BF, 0x0104, 0x000A, 0x0000] ⟨Head.zero, .wreg ⟨0, 4, 2, 0xA⟩⟩ = true ∧
    decodesTo [0x80BF, 0x0004, 0x0000, 0x0000] ⟨Head.zero, .wdereg ⟨0, 0, 2, 0⟩⟩ = true ∧
    decodesTo [0x00BF, 0x014D, 0x0000, 0x0000] ⟨Head.zero, .whold ⟨0, 5, 6, 0⟩⟩ = true ∧
    decodesTo [0x80BF, 0x00CF, 0x0021, 0x0000] ⟨Head.zero, .wqry ⟨0, 3, 7, 0x21⟩⟩ = true := by
  and_intros <;> decide +kernel

/-- `xtree s3, #1`; `xred.f32.add.bc.s1 s4, s5, #32, #0`; `xred.u32.or s4, s5, #1, #2`; `xbcast s4, s5, #32, #0`; `xrstat.miss
s8, #1`. -/theorem test_decode_collectives :
    decodesTo [0x00C9, 0x00C1, 0x0000, 0x4000] ⟨Head.zero, .xtree ⟨0, 3, 0, 0x1000⟩⟩ = true ∧
    decodesTo [0x00C9, 0x2900, 0x0100, 0x017E] ⟨{ Head.zero with se := true, ssem := 1 }, .xred ⟨5, 4, 0, 0x5F⟩⟩ = true ∧
    decodesTo [0x00C9, 0x2900, 0x0000, 0xA400] ⟨Head.zero, .xred ⟨5, 4, 0, 0x2900⟩⟩ = true ∧
    decodesTo [0x80C9, 0x2900, 0x0000, 0x007C] ⟨Head.zero, .xbcast ⟨5, 4, 0, 0x1F⟩⟩ = true ∧
    decodesTo [0x80C9, 0x0011, 0x0000, 0x4004] ⟨Head.zero, .xrstat ⟨0, 0, 8, 0x1001⟩⟩ = true := by
  and_intros <;> decide +kernel

/-- `lsend.s2 s10, s11, s12, #5`; `larm.s1 s10, s11, s12, #0`; `larm.dis s10`; `lrecv s2, s5, #0`; `lctr.add s28, s29, s0`;
`lctr.wait s30, s29, s0`; `lstep s3, s4`; `lstat.post s5, s6`. -/theorem test_decode_links :
    decodesTo [0x00CB, 0x62D4, 0x0200, 0x0016] ⟨{ Head.zero with se := true, ssem := 2 }, .lsend ⟨0xC, 0xB, 0xA, 5⟩⟩ = true ∧
    decodesTo [0x80CB, 0x62D4, 0x0100, 0x0002] ⟨{ Head.zero with se := true, ssem := 1 }, .larm ⟨0xC, 0xB, 0xA, 0⟩⟩ = true ∧
    decodesTo [0x80CB, 0x0014, 0x0000, 0x0100] ⟨Head.zero, .larmDis ⟨0, 0, 0xA, 0x40⟩⟩ = true ∧
    decodesTo [0x00CB, 0x2881, 0x0000, 0x0000] ⟨Head.zero, .lrecv ⟨5, 2, 0, 0⟩⟩ = true ∧
    decodesTo [0x80CB, 0x0779, 0x0000, 0x000C] ⟨Head.zero, .lctrAdd ⟨0, 0x1D, 0x1C, 3⟩⟩ = true ∧
    decodesTo [0x80CB, 0x077D, 0x0000, 0x0004] ⟨Head.zero, .lctrWait ⟨0, 0x1D, 0x1E, 1⟩⟩ = true ∧
    decodesTo [0x00CD, 0x0106, 0x0000, 0x0000] ⟨Head.zero, .lstep ⟨0, 4, 3, 0⟩⟩ = true ∧
    decodesTo [0x80CD, 0x018A, 0x0000, 0x0004] ⟨Head.zero, .lstat ⟨0, 6, 5, 1⟩⟩ = true := by
  and_intros <;> decide +kernel

/-- `trap s4, #3`; `seth s0, s5`; `csrr s30, optstep`; `csrw utvec, s10`; `aset s0, s4, s5`; `tlbi s4, s5`; `ctxsv s3, s4, s5`;
`ctxrs s3, s4, s5`; `prq s3, s4, s5`; `wftsp s3, s4, s5`; `errlog s5, s4`; `inj s4, #1`; `migr s3, s4, s5`; `ares s3, s4`. -/theorem test_decode_system :
    decodesTo [0x00E1, 0x1900] ⟨Head.zero, .trap ⟨3, 4, 0⟩⟩ = true ∧
    decodesTo [0x80E1, 0x0141] ⟨Head.zero, .seth ⟨0, 5, 0⟩⟩ = true ∧
    decodesTo [0x00E3, 0x003C, 0x0011, 0x0000] ⟨Head.zero, .csrr ⟨0, 0, 0x1E, 0x11⟩⟩ = true ∧
    decodesTo [0x80E3, 0x0280, 0x000A, 0x0000] ⟨Head.zero, .csrw ⟨0, 0xA, 0, 0xA⟩⟩ = true ∧
    decodesTo [0x00E3, 0x2901] ⟨Head.zero, .aset ⟨5, 4, 0⟩⟩ = true ∧
    decodesTo [0x80E3, 0x2901] ⟨Head.zero, .tlbi ⟨5, 4, 0⟩⟩ = true ∧
    decodesTo [0x00E5, 0x2906] ⟨Head.zero, .ctxsv ⟨5, 4, 3⟩⟩ = true ∧
    decodesTo [0x80E5, 0x2906] ⟨Head.zero, .ctxrs ⟨5, 4, 3⟩⟩ = true ∧
    decodesTo [0x00E5, 0x2907] ⟨Head.zero, .prq ⟨5, 4, 3⟩⟩ = true ∧
    decodesTo [0x80E5, 0x2907] ⟨Head.zero, .wftsp ⟨5, 4, 3⟩⟩ = true ∧
    decodesTo [0x80E7, 0x010B] ⟨Head.zero, .errlog ⟨0, 4, 5⟩⟩ = true ∧
    decodesTo [0x00E9, 0x0100, 0x0001, 0x0000] ⟨Head.zero, .inj ⟨0, 4, 0, 1⟩⟩ = true ∧
    decodesTo [0x80E9, 0x2906] ⟨Head.zero, .migr ⟨5, 4, 3⟩⟩ = true ∧
    decodesTo [0x00E9, 0x0107] ⟨Head.zero, .ares ⟨0, 4, 3⟩⟩ = true := by
  and_intros <;> decide +kernel

/-- The 16-bit words of R43 and R44: `nop16 #7`, `mov16 s3, s4`, `add16 s31, s1`, `addi16 s2, #-1`, `br16` by -2 bytes, `tok16.push k5`,
`tok16.wait k7`, `inc b=+1`, with a halfword left over. -/
theorem test_decode_halfwords :
    decodesTo [0x00E0, 7] ⟨{ Head.zero with st := 7 }, .nop16⟩ [7] = true ∧
    decodesTo [0x1062, 7] ⟨Head.zero, .mov16 4 3⟩ [7] = true ∧
    decodesTo [0x07E4, 7] ⟨Head.zero, .add16 1 31⟩ [7] = true ∧
    decodesTo [0xFC46, 7] ⟨Head.zero, .addi16 0x3F 2⟩ [7] = true ∧
    decodesTo [0xFFE8, 7] ⟨Head.zero, .br16 0x7FF⟩ [7] = true ∧
    decodesTo [0x014A, 7] ⟨Head.zero, .tok16Push 5⟩ [7] = true ∧
    decodesTo [0x01EA, 7] ⟨Head.zero, .tok16Wait 7⟩ [7] = true ∧
    decodesTo [0x201E, 7] ⟨{ Head.zero with step := 0x100 }, .inc⟩ [7] = true := by
  and_intros <;> decide +kernel

/-- Whether halfwords are refused, and how. -/
def refusedAs (hs : List HWord) (e : DecodeError) : Bool :=
  match decode hs with
  | .ok _ => false
  | .error x => decide (x = e)

/-- Refused: no OP16 (R43), no major opcode (R46), a reserved bit of a 16-bit word and of an X word (R43, R49), a semaphore number without
its enable bit (R42), a word cut short. -/
theorem test_decode_refuses :
    refusedAs [0x000C] .illOp = true ∧ refusedAs [0xFFFF, 0xFFFF] .illOp = true ∧ refusedAs [0x8062] .illField = true ∧
    refusedAs [0x00B9, 0x0000, 0x0100, 0x0000] .illField = true ∧ refusedAs [0x0069, 0x0001, 0x0100, 0x0000] .illField = true ∧
    refusedAs [0x0011] .truncated = true := by
  and_intros <;> decide +kernel

/-- A head's checks: a format without the semaphore halves, and a number without its enable bit. -/
theorem test_ill_formed_head :
    Head.wf .plain { Head.zero with se := true } = false ∧ Head.wf .plain { Head.zero with we := true } = false ∧
    Head.wf .plain { Head.zero with ssem := 1 } = false ∧ Head.wf .plain { Head.zero with wsem := 1 } = false ∧
    Head.wf .plain { Head.zero with step := 1 } = false ∧ Head.wf .sem { Head.zero with ssem := 1 } = false ∧
    Head.wf .sem { Head.zero with wsem := 1 } = false ∧ Head.wf .sem { Head.zero with step := 1 } = false ∧
    Head.wf .count { Head.zero with g := 1 } = false ∧ Head.wf .count { Head.zero with step := 1 } = false ∧
    Head.wf .inc { Head.zero with g := 1 } = false ∧ Head.wf .inc { Head.zero with st := 1 } = false ∧
    Head.wf .bare { Head.zero with g := 1 } = false ∧ Head.wf .bare { Head.zero with st := 1 } = false ∧
    Head.wf .bare { Head.zero with step := 1 } = false ∧ Head.wf .plain { Head.zero with g := 15, st := 7 } = true ∧
    Head.wf .sem { Head.zero with we := true, wsem := 0xFF } = true := by
  and_intros <;> decide


/-! Witnesses: for each statement, states and operands that meet its hypotheses together. -/

/-- O2, DecodeOfEncode, at both ends of the lengths: a 16-bit word, an X word with its highest operand values. -/
theorem witness_DecodeOfEncode :
    let w : Code := ⟨Head.zero, .mov16 31 15⟩
    let x : Code := ⟨{ Head.zero with g := 7 }, .lea ⟨31, 31, 31, 0xFFFFFFFF⟩⟩
    (w.wf = true ∧ encode w ≠ []) ∧
    (x.wf = true ∧ encode x ≠ []) := by
  and_intros <;> decide +kernel

/-- O3, EncodeOfDecode, with halfwords left over. -/
theorem witness_EncodeOfDecode :
    decodesTo [0x0011, 0x1046, 0xFFFF] ⟨Head.zero, .add ⟨2, 1, 3⟩⟩ [0xFFFF] := by decide +kernel

/-- O4, StepRunsDecoded: a repeated block of one ADD, in the last turn of a slot. -/
theorem witness_StepRunsDecoded :
    let b : Block := ⟨0x40000, 2, 1, false, false, Nest.zero, 0, 0, some [0x0011, 0x1046]⟩
    let s0 : State := { stream 135 .xs with turn := 815 }
    let s : State := onStrm s0 fun t => { t with pc := 0x40004, blk := some b, lastLM := some false, taken := false }
    let w : Code := ⟨Head.zero, .add ⟨2, 1, 3⟩⟩
    let key := 815
    let c := keyCore key
    let i := keyStrm key
    let t := s.strm c i
    let off := (t.pc.toNat - b.hdr.toNat - 4) / 2
    (s.agenda = [] ∧ s.outside = none ∧ nextKey s.runnable (816 - s.turn) s.turn = some key ∧ t.idle = 0 ∧ (s.core c).dueWrites i s.clock = []) ∧
    (t.mac = none ∧ t.blk = some b ∧ b.buf = some [0x0011, 0x1046] ∧ b.lm = false ∧ off < b.len) ∧
    (decodesTo (([0x0011, 0x1046] : List HWord).drop off) w = true ∧ (encode w).length ≤ b.len - off) ∧
    decodeFault s i false ((s.core c).handler.isSome && i == .cs) (([0x0011, 0x1046] : List HWord).drop off) w (encode w).length = none ∧
    (w.instr.headKind ≠ .inc ∧ incBehind (([0x0011, 0x1046] : List HWord).drop off) (encode w).length = none) ∧
    { s with turn := key + 1, ctx := (⟨c, i, Head.zero, 0, 0, EvArgs.zero, none⟩ : Ctx) }.interlocked c i w.instr = false := by
  and_intros <;> decide +kernel

/-- O5, InstructionsGoOn, at the highest unit of a die. -/
theorem witness_InstructionsGoOn :
    let s := event (stream 135 .xs) 135 0 0 0 true
    (eventOnly (.divu ⟨0, 31, 31⟩) = false ∧ eventOnly (.lsend ⟨0, 0, 0, 0⟩) = false ∧ s.ctx.ev.flag = true ∧ s.ctx.ev.unit < 136) := by
  and_intros <;> decide +kernel

/-- O6, FalseGuard. -/
theorem witness_FalseGuard :
    let s := masked (stream 5 .ts [(1, 3)])
    (guarded (.add ⟨1, 1, 1⟩) = true ∧ guarded (.tmma ⟨1, 0, 0, 10⟩) = true ∧ guarded (.trap ⟨0, 0, 0⟩) = true) ∧
    (AsIssued s ∧ s.guard = false) := by
  and_intros <;> decide +kernel

/-- O7, RetireAdvances: outside a macro, and in one at its last operation but one and at its last. -/
theorem witness_RetireAdvances :
    let s := { stream 5 .ts with ctx := { Ctx.zero with core := 5, strm := .ts, len := 4, head := { Head.zero with st := 7 } } }
    let m : Macro := ⟨[[1], [2]], 0, 3, 4⟩
    let a := onStrm s fun t => { t with mac := some m }
    let b := onStrm s fun t => { t with mac := some { m with idx := 1 } }
    s.str.mac = none ∧
    (a.str.mac = some m ∧ m.idx + 1 < m.ops.length) ∧
    (b.str.mac = some { m with idx := 1 } ∧ m.ops.length ≤ 1 + 1) := by
  and_intros <;> decide +kernel

/-- O7, RetireAdvances: the last of seven idle slots. -/
theorem witness_IdleSlotPasses :
    let s := onStrm { stream 135 .xs with turn := 815 } fun t => { t with idle := 1 }
    let t := s.strm (keyCore 815) (keyStrm 815)
    (s.agenda = [] ∧ s.outside = none ∧ nextKey s.runnable (816 - s.turn) s.turn = some 815 ∧ (s.core 135).dueWrites .xs s.clock = [] ∧ t.idle ≠ 0) := by
  and_intros <;> decide +kernel

/-- O8, RegisterWritesTakeEffect: the two latency modes; due writes of the highest register, of p0, of lanes of the highest predicate and of v31, two of one slot. -/
theorem witness_RegisterWritesTakeEffect :
    let s := inBlock false (stream 3 .vs [(31, 9)])
    let e := inBlock true (stream 3 .vs [(31, 9)])
    let p : Pend := ⟨6, 4, .s 31, BitVec.allOnes 2048, 77, 0, false⟩
    let q : Pend := ⟨6, 5, .s 31, BitVec.allOnes 2048, 88, 0, false⟩
    let u : Pend := ⟨5, 1, .p 0, BitVec.allOnes 2048, 0, 0, false⟩
    let v : Pend := ⟨5, 2, .p 127, 1, 1, 0, false⟩
    let w : Pend := ⟨4, 2, .v 31, 0xFF, 0x155, 3, false⟩
    let l : Pend := ⟨7, 2, .s 30, BitVec.allOnes 2048, 99, 0, false⟩
    let d := event (onStrm (stream 3 .vs) fun t => { t with slots := 6, pending := [l, q, p, u, v, w] }) 3 1
    (s.exposed = false ∧ e.exposed = true) ∧
    (d.ctx.ev.unit = (3 : CoreId).val ∧ d.ctx.ev.sub = StreamId.vs.num) := by
  and_intros <;> decide +kernel

/-- O9, ScalarResults: the most negative dividend, a shift by 63, s0 as a destination. -/
theorem witness_ScalarResults :
    let s := stream 127 .cs [(1, 0x8000000000000000), (2, 0xFFFFFFFFFFFFFFFF), (3, 63)]
    scalarRule (.div ⟨2, 1, 31⟩) s = some (20, 31, 0x8000000000000000) ∧
    scalarRule (.divu ⟨0, 1, 31⟩) s = some (20, 31, 0xFFFFFFFFFFFFFFFF) ∧
    scalarRule (.sra ⟨3, 1, 0⟩) s = some (1, 0, 0xFFFFFFFFFFFFFFFF) ∧
    scalarRule (.mulh ⟨2, 2, 4⟩) s = some (3, 4, 0) ∧
    s.guard = true := by
  and_intros <;> decide +kernel

/-- O10, PredicatesComplete. -/
theorem witness_PredicatesComplete :
    let s := stream 0 .vs [(1, 0x8000000000000000), (2, 64)]
    (((predicateRule (.cmplt ⟨2, 1, 31⟩) s).map (·.1)) = some 31 ∧ ((predicateRule (.pput ⟨0, 1, 127⟩) s).map (·.1)) = some 127) ∧
    ((predicateRule (.plogNot ⟨0, 0⟩) s).map (·.1)) = some 0 ∧
    s.guard = true := by
  and_intros <;> decide +kernel

/-- O11, VectorElements: FP32 addition under SR in the two highest lanes, unsigned bytes, and divisions with the unit free and taken. -/
theorem witness_VectorElements :
    let s0 := onCore (stream 2 .vs) fun k => { k with vtype := 0x49, v := (k.v.set 31 (BitVec.allOnes 2048)).set 1 0x3F800000 }
    let s := inBlock false { onStrm s0 fun t => { t with p := t.p.set 3 0xC000000000000000, seed := 0xACE1 } with ctx := { s0.ctx with head := { Head.zero with g := 3 } } }
    let taken := { onCore s fun k => { k with divFree := 10 } with clock := 9 }
    let u := inBlock false (onCore (stream 2 .vs) fun k => { k with vtype := 0, v := k.v.set 31 (BitVec.allOnes 2048) })
    ((elementRule (.vadd ⟨31, 1, 0⟩) s).isSome = true ∧ ((elementRule (.vadd ⟨31, 1, 0⟩) s).map fun r => r.types s.et) = some true) ∧
    (s.lanes ≠ 0 ∧ s.et ≤ 10 ∧ s.exposed = false ∧ s.rm = .sr) ∧
    (((elementRule (.vadd ⟨31, 31, 31⟩) u).map fun r => r.types u.et) = some true ∧ u.lanes ≠ 0 ∧ u.et ≤ 10 ∧ u.exposed = false) ∧
    (divides (.vadd ⟨31, 1, 0⟩) = false ∧ divides (.vdiv ⟨31, 1, 0⟩) = true ∧ ((elementRule (.vdiv ⟨31, 1, 0⟩) s).map fun r => r.types s.et) = some true) ∧
    (s.me.divFree ≤ s.clock ∧ taken.clock < taken.me.divFree ∧ taken.lanes ≠ 0 ∧ taken.exposed = false ∧ taken.et = s.et) := by
  and_intros <;> decide +kernel

/-- O12, VectorTypeAndLanes: no true lane; a division of integers; a product of doubles. -/
theorem witness_VectorTypeAndLanes :
    let s := masked (stream 2 .vs)
    let d := onCore (stream 2 .vs) fun k => { k with vtype := 0x4 }
    let e := onCore (stream 2 .vs) fun k => { k with vtype := 0xA }
    ((elementRule (.vdiv ⟨31, 1, 0⟩) s).isSome = true ∧ s.lanes = 0) ∧
    ((elementRule (.vdiv ⟨31, 1, 0⟩) d).map (fun r => r.types d.et) = some false ∧ d.lanes ≠ 0) ∧
    (e.lanes ≠ 0 ∧ dotType e.et = false) := by
  and_intros <;> decide +kernel

/-- O13, VectorCompares: bytes, and an unordered compare of doubles. -/
theorem witness_VectorCompares :
    let s := onCore (stream 2 .vs) fun k => { k with vtype := 0 }
    let d := onCore (stream 2 .vs) fun k => { k with vtype := 10 }
    (s.lanes ≠ 0 ∧ s.et ≤ 10) ∧
    (d.lanes ≠ 0 ∧ d.et ≤ 10 ∧ floatType d.et = true) := by
  and_intros <;> decide +kernel

/-- O14, VectorMovesAndTreesComplete. -/
theorem witness_VectorMovesAndTreesComplete :
    let s := onCore (stream 2 .vs [(4, 0x80)]) fun k => { k with vtype := 10, v := k.v.set 31 (BitVec.allOnes 2048) }
    let b := inBlock false (onCore (stream 2 .vs [(4, 0x80)]) fun k => { k with vtype := 0, v := k.v.set 31 (BitVec.allOnes 2048) })
    (s.lanes ≠ 0 ∧ s.et ≤ 10 ∧ s.guard = true) ∧
    (b.lanes ≠ 0 ∧ b.et ≤ 10 ∧ dotType b.et = true) := by
  and_intros <;> decide +kernel

/-- O15, FormatsComplete: the first and the last packed format, VSEED of 0, and WLIMSET above 32 bits. -/
theorem witness_FormatsComplete :
    let s := stream 2 .vs [(4, 0x1FFFFFFFF)]
    s.guard = true := by decide +kernel

/-- O16, TemporalArraysComplete: TALNCH of the highest quarters of the last group, all ready. -/
theorem witness_TemporalLaunch :
    let s := stream 2 .vs
    let f : RX := ⟨0, 31, 0, 0x3F⟩
    (s.guard = true ∧ quarterPlanes f ≠ [] ∧ ∀ p ∈ quarterPlanes f, (s.me.planeAt p.1).state = .ready) := by
  and_intros <;> decide +kernel

/-- O16, TemporalArraysComplete: TACAP of planes held and running; the waiting instructions on planes that do not run; TAWIN at both ends. -/
theorem witness_TemporalPlanes :
    let s0 := stream 2 .vs [(4, 0x8001), (5, 256)]
    let s := onCore s0 fun k => (k.setPlane 12 { k.planeAt 12 with state := .held false }).setPlane 15 { k.planeAt 15 with state := .running 40 false }
    let f : RX := ⟨1, 0, 31, 0x39⟩
    let lo : RI := ⟨1, 0, 3⟩
    let hi : RI := ⟨-1, 5, 3⟩
    (s.guard = true ∧ ∀ p ∈ quarterPlanes f, (s.me.planeAt p.1).state ≠ .ready ∧ (s.me.planeAt p.1).inError = false) ∧
    (∀ n ∈ List.range 16, (s0.me.planeAt n).state.isRunning = false) ∧
    (1 ≤ (s.getS lo.a).toNat + lo.imm.toInt ∧ (s.getS lo.a).toNat + lo.imm.toInt ≤ 255) ∧
    (1 ≤ (s.getS hi.a).toNat + hi.imm.toInt ∧ (s.getS hi.a).toNat + hi.imm.toInt ≤ 255) := by
  and_intros <;> decide +kernel

/-- O16, TemporalArraysComplete: the last plane is due in this slot. -/
theorem witness_PlaneCaptured :
    let s0 := stream 2 .vs
    let s := event { onCore s0 fun k => k.setPlane 15 { k.planeAt 15 with state := .running 9 true } with clock := 9 } 2 15
    (s.ctx.ev.unit = (2 : CoreId).val ∧ s.ctx.ev.sub = 15 ∧ ((s.core 2).planeAt 15).state = .running 9 true ∧ 9 ≤ s.clock ∧ (s.core 2).tacaps = []) := by
  and_intros <;> decide +kernel

/-- O17, TransfersCheckedAndComplete: the farthest backward branch, and a link; a header stands at each target. -/
theorem witness_TransfersComplete :
    let s := { stream 1 .cs [(1, 0x50000)] (withBytes 0x50000 [1, 2, 0, 0]) with ctx := { (stream 1 .cs).ctx with head := { Head.zero with st := 0 } } }
    let b := onStrm (stream 1 .cs [] (withBytes 0x50002 [1, 2, 0, 0])) fun t => { t with pc := 0x60000 }
    (transferRule (.bri ⟨0, 1, 31⟩) s = some (0x50000, some 31) ∧ s.guard = true ∧ resultOk (s.target s.ctx.core s.ctx.strm 0x50000) = true) ∧
    (transferRule (.br ⟨-32767⟩) b = some (0x50002, none) ∧ resultOk (b.target b.ctx.core b.ctx.strm 0x50002) = true) := by
  and_intros <;> decide +kernel

/-- O17, TransfersCheckedAndComplete: an odd target; a word that is no header. -/
theorem witness_TargetChecked :
    let s := stream 1 .cs [(1, 0x50001), (2, 0x50002)]
    (transferRule (.ret ⟨0, 1, 0⟩) s = some (0x50001, none) ∧ s.guard = true ∧ (0x50001 : Word).getLsbD 0 = true) ∧
    (transferRule (.ret ⟨0, 2, 0⟩) s = some (0x50002, none) ∧ (0x50002 : Word).getLsbD 0 = false) ∧
    (resultOk (s.fetch s.ctx.core s.ctx.strm 0x50002 4) = true ∧ leNat (resultOf [] (s.fetch s.ctx.core s.ctx.strm 0x50002 4)) % 256 ≠ 1) := by
  and_intros <;> decide +kernel

/-- O18, ControlCompletes: an INC behind its instruction; the last macro slot; a nest with the highest address register. -/
theorem witness_ControlCompletes :
    let s := stream 1 .cs
    let inc := onStrm s fun t => { t with armed := some t.pc }
    let m := onCore s fun k => { k with macros := k.macros.set 63 [[0x0011, 0x1046]] }
    let n := stream 1 .cs [(2, 0x1FFFFFFFFF)]
    (s.guard = true ∧ inc.str.armed = some inc.str.pc) ∧
    (m.guard = true ∧ m.me.macros.toList[(1 : BitVec 10).toNat % 2 * 32 + (31 : BitVec 5).toNat]? = some [[0x0011, 0x1046]]) ∧
    (n.guard = true ∧ (n.getS (1 + 1)).toNat < 2 ^ 37 ∧ n.exposed = false) := by
  and_intros <;> decide +kernel

/-- O18, ControlCompletes: an image of one operation. -/
theorem witness_MacroDefined :
    let s := stream 1 .cs [(1, 0x50000)] (withBytes 0x50000 [1, 2, 0, 0, 0, 0, 0, 0, 0x11, 0x00, 0x46, 0x10])
    let f : RX := ⟨0, 1, 0, 63⟩
    let r := s.loadG s.ctx.core s.ctx.strm false (s.getS f.a).toNat 8
    let q := (accessState s r).loadG s.ctx.core s.ctx.strm false ((s.getS f.a).toNat + 8) 4
    (s.guard = true ∧ (s.getS f.a).toNat % 8 = 0 ∧ accessOk r = true ∧ leNat (accessBytes r) = 0x201) ∧
    (accessOk q = true ∧ (match parseMacro 1 0 (toHalves (accessBytes q)) with | .ok _ => true | .error _ => false) = true) := by
  and_intros <;> decide +kernel

/-- O19, LoadsAndStoresComplete: a scalar load through the tables at the last aligned address of a page, a vector load of the own scratchpad. -/
theorem witness_LoadsComplete :
    let s := stream 1 .as [(1, 0xFFF0), (2, 1)]
    let f : M := ⟨2, 1, 3, 3, 0, 0, 10, 0⟩
    let v : M := ⟨0, 0, 31, 0, 1, 0, 0, 4⟩
    let p := onCore (stream 1 .vs) fun k => { k with spad := [(5, 7)] }
    let r := s.loadPath .g false (movedRanges s f 0xFFF8)
    let q := p.loadPath (.pad 1 0) false (movedRanges p v 4)
    (loadRule (.ldg f) s = some (f, .g, 0xFFF8, false, none) ∧ acts s f ∧ (0xFFF8 : Int) % f.align = 0 ∧ accessOk r = true) ∧
    (loadRule (.ldl v) p = some (v, .pad 1 0, 4, false, some 6) ∧ acts p v ∧ v.vec = true ∧ (4 : Int) % v.align = 0 ∧ accessOk q = true) := by
  and_intros <;> decide +kernel

/-- O19, LoadsAndStoresComplete: the highest byte of the own scratchpad, and a store through the tables. -/
theorem witness_StoresComplete :
    let s := stream 1 .as [(1, 0x17FFFF), (4, 0x1FF)]
    let f : M := ⟨0, 1, 4, 0, 0, 0, 0, 0⟩
    let g : M := ⟨0, 1, 4, 0, 0, 0, 0, 1⟩
    (storeRule (.stl f) s = some (f, .pad 1 0, 0x17FFFF) ∧ acts s f ∧ (0x17FFFF : Int) % f.align = 0) ∧
    accessOk (s.storePath (.pad 1 0) (movedRanges s f 0x17FFFF) (leBytes (s.getS f.d).toNat f.eb)) = true ∧
    (storeRule (.stg g) s = some (g, .g, 0x180000) ∧ acts s g ∧ accessOk (s.storePath .g (movedRanges s g 0x180000) (leBytes (s.getS g.d).toNat g.eb)) = true) := by
  and_intros <;> decide +kernel

/-- O20, MisalignedTraps: a false guard; one byte off alignment. -/
theorem witness_MisalignedTraps :
    let s := stream 1 .as [(1, 0x10001)]
    let f : M := ⟨0, 1, 3, 0, 0, 0, 2, 0⟩
    (loadRule (.ldg f) (masked s) = some (f, .g, 0x10001, false, none) ∧ ¬ acts (masked s) f) ∧
    (loadRule (.ldg f) s = some (f, .g, 0x10001, false, none) ∧ acts s f ∧ (0x10001 : Int) % f.align ≠ 0) ∧
    storeRule (.stp f) s = some (f, .p 0, 0x10001) := by
  and_intros <;> decide +kernel

/-- O21, StoresReachTheirBytes: the highest doubleword of the scratchpad; a scalar STG; a multicast to the highest member. -/
theorem witness_StoresReachTheirBytes :
    let s := onCore (stream 1 .as [(1, 0x17FFF8), (2, 0x80), (4, 0xFF00FF)]) fun k => { k with spad := [(0x17FFF8, 3)] }
    let f : M := ⟨0, 1, 4, 0, 0, 0, 6, 0⟩
    let g : M := ⟨0, 1, 4, 0, 0, 0, 2, 8⟩
    let m : M := ⟨2, 1, 4, 0, 0, 0, 0, 0⟩
    let t := s.setCore 7 { Core.reset with active := true, split := 6 }
    let x := s.xlateAll s.ctx.core s.ctx.strm .store [(s.ea g, g.eb)]
    (f.vec = false ∧ s.guard = true ∧ 0 ≤ s.ea f ∧ s.ea f % f.align = 0 ∧ s.ea f + f.eb ≤ (s.me.split * 2 ^ 18 : Nat) ∧ s.me.spcfg = none) ∧
    (s.me.spadPoison = [] ∧ s.me.spad.wf = true) ∧
    (g.vec = false ∧ s.ea g % g.align = 0 ∧ s.mem.wf = true ∧ resultOk x = true ∧ (resultOf [] x).length = 1 ∧ (resultOf [] x).all (fun p => p.len == g.eb) = true) ∧
    (acts t m ∧ (List.range 8).filter (fun k => (t.getS m.b).getLsbD k) = [7] ∧ (t.core 7).spcfg = none ∧ (0x17FFF8 : Int) % m.align = 0) ∧
    (joinRanges (movedRanges t m 0x17FFF8)).all (fun r => t.padOk t.ctx.core 7 r.1 r.2) = true ∧
    (List.range 8).filter (fun k => (t.getS 0).getLsbD k) = [] := by
  and_intros <;> decide +kernel

/-- O22, QueueLoadsComplete: room for one more entry in the last scalar and the last vector queue. -/
theorem witness_QueueLoads :
    let s0 := stream 1 .as [(1, 0x50000), (2, 2)]
    let q (n : Nat) : Queue := ⟨some .as, some .vs, List.replicate n ⟨0, true, 0⟩⟩
    let s := onCore s0 fun k => (k.setQueue 7 (q 15)).setQueue 11 (q 3)
    let f : M := ⟨0, 1, 0, 0, 7, 0, 3, 0⟩
    let v : M := ⟨0, 1, 0, 0, 11, 2, 14, 0⟩
    let r := s.loadG s.ctx.core s.ctx.strm (f.mod.getLsbD 0) (s.ea f) f.qbytes
    let p := s.loadG s.ctx.core s.ctx.strm (v.mod.getLsbD 0) (s.ea v) v.qbytes
    let t := s.loadK s.ctx.core s.ctx.strm (v.mod.getLsbD 0) ((List.range 64).map fun e => (s.ea v + (4 * e : Nat), 4))
    (s.guard = true ∧ (s.me.queueAt 7).prod = some s.ctx.strm ∧ (s.me.queueAt 7).entries.length < 16 ∧ s.ea f % f.align = 0) ∧
    (accessOk r = true ∧ f.mod.getLsbD 1 = false) ∧
    ((s.me.queueAt 11).prod = some s.ctx.strm ∧ (s.me.queueAt 11).entries.length < 4 ∧ s.ea v % v.align = 0) ∧
    (accessOk p = true ∧ v.mod.getLsbD 1 = true ∧ ((s.me.locked.map (fun l => l.line)) ++ (s.physLines (s.ea v) v.qbytes).map (fun l => l.1)).eraseDups.length ≤ 512) ∧
    accessOk t = true := by
  and_intros <;> decide +kernel

/-- O22, QueueLoadsComplete: GATHQ pops the last entry of its index queue; the arrival of an entry due now. -/
theorem witness_QueueGatherAndArrival :
    let s0 := stream 1 .as [(1, 0x50000)]
    let e : QEntry := ⟨0x1FF, true, 0⟩
    let s := onCore s0 fun k => (k.setQueue 7 ⟨some .as, some .vs, []⟩).setQueue 0 ⟨some .vs, some .as, [e]⟩
    let f : M := ⟨0, 1, 0, 3, 7, 0, 3, 0⟩
    let popped := (s.setMe ((s.me.setQueue 0 { s.me.queueAt 0 with entries := [] }).popLocks 0))
    let ea : Int := (s.getS f.a).toNat + ((e.val.setWidth 64).toNat * 2 ^ f.sc.toNat : Nat) + f.off.toInt + s.ctx.incOff
    let r := (popped.setStr { popped.str with wait := none }).loadG s.ctx.core s.ctx.strm (f.mod.getLsbD 0) ea f.qbytes
    let a := event (onCore { s0 with clock := 6 } fun k => k.setQueue 15 ⟨some .as, some .vs, [e, ⟨2, false, 6⟩, ⟨3, false, 6⟩]⟩) 1 15
    (s.guard = true ∧ (s.me.queueAt 7).prod = some s.ctx.strm ∧ f.b.toNat ≠ 7 ∧ s.str.wait = none ∧ (s.me.queueAt 0).cons = some s.ctx.strm) ∧
    ((s.me.queueAt 0).entries = [e] ∧ e.arrived = true ∧ ea % f.align = 0 ∧ accessOk r = true) ∧
    (a.ctx.ev.unit = (1 : CoreId).val ∧ a.ctx.ev.sub = 15 ∧ ((a.core 1).queueAt 15).entries = [e] ++ (⟨2, false, 6⟩ : QEntry) :: [⟨3, false, 6⟩] ∧ 6 ≤ a.clock) := by
  and_intros <;> decide +kernel

/-- O23, GatherScatterComplete: no lane; all 64 lanes of words. -/
theorem witness_GatherScatterComplete :
    let s := onCore (stream 1 .vs [(1, 0x50000)]) fun k => { k with v := k.v.set 2 (BitVec.ofNat 2048 ((List.range 64).foldl (fun n i => n + i * 2 ^ (32 * i)) 0)) }
    let f : M := ⟨2, 1, 3, 2, 0, 0, 4, 0⟩
    let elems := ((List.range (min 64 (256 / f.eb))).filter fun e => s.lanes.getLsbD e).map fun e =>
      (e, (s.getS f.a).toNat + ((s.getV f.b).extractLsb' (32 * e) 32).toInt * 2 ^ f.sc.toNat + f.off.toInt + s.ctx.incOff)
    let r := State.checkElems .load f.eb elems s
    let q := State.readSeen s.me.jobid (resultOf [] r) (r.1.mark s.walker .load (resultOf [] r))
    let w := State.checkElems .store f.eb elems s
    let z := q.1.consume s.ctx.core s.ctx.strm (f.mod.getLsbD 0) 2 s.str.pc ((r.1.mark s.walker .load (resultOf [] r)).badLines (resultOf [] r))
    ((masked s).lanes = 0 ∧ s.lanes ≠ 0 ∧ elems.length = 64 ∧ resultOk r = true ∧ resultOk w = true ∧ z.2 = none) := by
  and_intros <;> decide +kernel

/-- O24, MaintenanceCompletes: everything; an empty range; a range that crosses a page; the smallest and the largest split. -/
theorem witness_MaintenanceCompletes :
    let s := onCore (stream 1 .as [(1, 0x5FFFF), (2, 2), (3, 6)]) fun k => { k with split := 2, spad := [(5, 7)], hostCopies := [(0x5FFC0, []), (0x40000, [])] }
    let all : M := ⟨2, 1, 0, 0, 0, 1, 0, 0⟩
    let f : M := ⟨2, 1, 0, 0, 0, 0, 0, 0⟩
    let ea : Int := (s.getS f.a).toNat + f.off.toInt + s.ctx.incOff
    let r := s.xlate s.walker s.me.asid.toNat (userOf s.ctx.core) .load ea (s.getS f.b).toNat
    let c : M := ⟨0, 3, 9, 0, 0, 0, 0, 0⟩
    let z : M := ⟨0, 0, 9, 0, 0, 0, 0, 0⟩
    let e : M := ⟨0, 1, 0, 0, 0, 0, 0, 0⟩
    (s.guard = true ∧ all.all = true ∧ f.all = false ∧ (s.getS f.b).toNat ≠ 0 ∧ resultOk r = true ∧ (resultOf [] r).length = 2) ∧
    (0 ≤ ea ∧ ea + (s.getS f.b).toNat ≤ 2 ^ 48 ∧ (s.flushHost s.ctx.core s.ctx.strm 0x5FFC0 0x60040).str.faults = []) ∧
    (e.all = false ∧ (s.getS e.b).toNat = 0 ∧ (s.flushHost s.ctx.core s.ctx.strm 0 (2 ^ 48)).str.faults = []) ∧
    ((s.getS c.a).toNat = 6 ∧ (s.getS z.a).toNat = 0 ∧ s.me.frame ≤ (s.getS z.a).toNat * 2 ^ 18) ∧
    (s.me.padCopies (2 * 2 ^ 18) (6 * 2 ^ 18) = false ∧ s.padSends s.ctx.core (2 * 2 ^ 18) (6 * 2 ^ 18) = false) ∧
    (s.me.padCopies 0 (2 * 2 ^ 18) = false ∧ s.padSends s.ctx.core 0 (2 * 2 ^ 18) = false ∧ s.l1Locked s.ctx.core = false) := by
  and_intros <;> decide +kernel

/-- O25, AtomicsAndReductionsComplete: a doubleword in G, and a compare that fails in a scratchpad of the cluster. -/
theorem witness_AtomicsComplete :
    let s := stream 1 .cs [(1, 0x50008), (2, 3), (3, 0x8000000000000000)] (withBytes 0x50008 [0xFF, 0xFF, 0xFF, 0xFF, 0xFF, 0xFF, 0xFF, 0x7F])
    let f : M := ⟨3, 1, 3, 0, 0, 0, 6, 0⟩
    let g : M := ⟨2, 0, 4, 0, 0, 1, 4, 0⟩
    let r := s.atoms 0 f [⟨0x50008, fun old => some (if signedOf 64 old < signedOf 64 0x8000000000000000 then old else 0x8000000000000000)⟩]
    let q := s.atoms 1 g [⟨0, fun old => if old = 0 then some 3 else none⟩]
    ((atomRule (.amin 0 f)).isSome = true ∧ s.guard = true ∧ (s.getS f.a).toNat + f.off.toInt + s.ctx.incOff = 0x50008 ∧ accessOk r = true) ∧
    ((atomRule (.acas 1 g)).isSome = true ∧ ((s.cTarget g).2 + g.off.toInt + s.ctx.incOff = 0) ∧ accessOk q = true) := by
  and_intros <;> decide +kernel

/-- O25, AtomicsAndReductionsComplete: off alignment; past the split by one element; the last element of the scratchpad; two elements with one that fails behind them. -/
theorem witness_AtomicElement :
    let s := onCore (stream 1 .cs) fun k => { k with spad := [(0x17FFFC, 9)] }
    let f : M := ⟨0, 0, 4, 0, 0, 1, 4, 0⟩
    ((s.cTarget f).1 = 1 ∧ (s.core (s.cTarget f).1).spcfg = none ∧ elemBytes f.ty.toNat = 4 ∧ (0x17FFFD : Int) % (4 : Nat) ≠ 0) ∧
    ((0x180000 : Int) % (4 : Nat) = 0 ∧ s.padOk s.ctx.core 1 0x180000 4 = false) ∧
    ((0x17FFFC : Int) % (4 : Nat) = 0 ∧ s.padOk s.ctx.core 1 0x17FFFC 4 = true ∧ (0x17FFF8 : Int) % (4 : Nat) = 0 ∧ s.padOk s.ctx.core 1 0x17FFF8 4 = true) ∧
    (s.core 1).spadPoison = [] := by
  and_intros <;> decide +kernel

/-- O25, AtomicsAndReductionsComplete: a scalar in the last word of a scratchpad; a vector of doublewords in G. -/
theorem witness_ReductionToMemoryComplete :
    let s := onCore (stream 1 .vs [(1, 0x17FFFC), (2, 0x50000), (4, 7)]) fun k => { k with v := k.v.set 4 7 }
    let f : M := ⟨0, 1, 4, 0, 0, 1, 4, 0⟩
    let g : M := ⟨0, 2, 4, 0, 6, 0, 10, 0⟩
    let red (ty w old v : Nat) : Nat := if ty = 10 then (fAdd f64 .rne 0 (f64.read old) (f64.read v)).1 else (old + v) % 2 ^ w
    let r := s.atoms 1 f [⟨0x17FFFC, fun old => some (red 4 32 old 7)⟩]
    let b := s.atoms 0 g ((enabledElems s.lanes g.eb g.count).map fun e => ⟨(0x50000 : Int) + (e * g.eb : Nat), fun old => some (red 10 64 old (velem (s.getV g.d) (8 * g.eb) e))⟩)
    (f.cnt = 0 ∧ s.guard = true ∧ accessOk r = true) ∧
    (g.cnt ≠ 0 ∧ g.vec = true ∧ s.lanes ≠ 0 ∧ (enabledElems s.lanes g.eb g.count).length = 32 ∧ accessOk b = true) := by
  and_intros <;> decide +kernel

/-- O26, FencesComplete: an XS with nothing outstanding; a stream with two pending errors; an AS with an unacknowledged store that cannot be any more. -/
theorem witness_FencesComplete :
    let s := stream 1 .xs
    let f1 : PendFault := ⟨0x40, 0x40000, 0x50000, 0, 2, [], 4⟩
    let f2 : PendFault := ⟨0x13, 0x40004, 0x50040, 1, 4, [], 3⟩
    let f3 : PendFault := ⟨0x25, 0x40004, 0x50040, 1, 5, [], 3⟩
    let t := onStrm s fun u => { u with faults := [f1, f2] }
    let p : PeerStore := ⟨11, 99, true, f3⟩
    let a := onStrm (stream 1 .as) fun u => { u with peerStores := [p] }
    (s.guard = true ∧ s.me.enginesFenced s.ctx.strm = true ∧ s.ctx.strm = .xs ∧ s.sendsDone s.ctx.core = true ∧ (s.str.ackStores s.clock).peerStores = []) ∧
    (((s.setStr (s.str.ackStores s.clock)).drainStream s.ctx.core s.ctx.strm).str.faults = [] ∧ ((t.setStr (t.str.ackStores t.clock)).drainStream t.ctx.core t.ctx.strm).str.faults ≠ []) ∧
    (a.guard = true ∧ a.me.enginesFenced a.ctx.strm = true ∧ (a.str.ackStores a.clock).peerStores = [p] ∧ p.failed = true ∧ p.fault.cause = cLINKTIMEOUT) := by
  and_intros <;> decide +kernel

/-- O27, CommandsWaitAndEnqueue: room for one more command, a full queue, a head that waits for its semaphore, and one whose semaphore has a unit. -/
theorem witness_CommandsWaitAndEnqueue :
    let s0 := stream 1 .ts [(1, 3), (2, 4)]
    let f : E := ⟨2, 1, 0, 10⟩
    let fill (n : Nat) : State := onCore s0 fun k => k.setCmds .tile (List.replicate n (cmd .tstart))
    let s := fill 31
    let full := fill 32
    let x : Cmd := { cmd (.xpub f) with code := ⟨{ Head.zero with we := true, wsem := 255 }, .xpub f⟩ }
    let w := running (stream 1 .as) 1 .copy x
    let u := running (onCore (stream 1 .as) fun k => { k with sems := k.sems.setIfInBounds 255 1 }) 1 .copy x
    ((commandRule (.tmma f) s).isSome = true ∧ AsIssued s ∧ s.guard = true ∧ queueRule .tile = some 32 ∧ (s.me.cmds .tile).length < 32) ∧
    ((commandRule (.tmma f) full).isSome = true ∧ AsIssued full ∧ full.guard = true ∧ 32 ≤ (full.me.cmds .tile).length) ∧
    ((commandRule (.xpub f) w).isSome = true ∧ Eng.copy ≠ .coll ∧ w.ctx.ev.flag = true ∧ w.ctx.ev.unit = (1 : CoreId).val ∧ w.ctx.ev.val = x.ord) ∧
    ((w.core 1).headCmd .copy = some x ∧ (w.core 1).active = true ∧ x.checked = true ∧ x.trapped = false ∧ (w.core 1).freeze = 0 ∧ x.code.head.we = true) ∧
    (x.unit = false ∧ x.failing = false ∧ (w.core 1).sem 255 = 0) ∧
    ((commandRule (.xpub f) u).isSome = true ∧ u.ctx.ev.unit = (1 : CoreId).val ∧ u.ctx.ev.val = x.ord ∧ (u.core 1).headCmd .copy = some x ∧ (u.core 1).active = true) ∧
    (u.ctx.ev.flag = true ∧ (u.core 1).freeze = 0 ∧ (u.core 1).sem 255 ≠ 0) := by
  and_intros <;> decide +kernel

/-- O28, CopyEngineCompletes: the first pair, the last free pair, no free pair; a pair that no command uses. -/
theorem witness_PairsComplete :
    let s0 := stream 1 .cs [(1, 0x50000), (2, 0x50040), (3, 64), (4, 0x50088), (5, 1023)]
    let f : E := ⟨0, 1, 9, 0⟩
    let g : E := ⟨0, 5, 0, 0⟩
    let p (n : Nat) : Pair := ⟨0, n, 0, 0, 64, 0, none⟩
    let s : State := { s0 with pairs := [p 0, p 2] }
    let x := s.xlateAll s.ctx.core s.ctx.strm .atomic [(0x50000, 64), (0x50040, 64), (0x50088, 8)]
    let d : State := { s0 with pairs := [p 1023] }
    (s.guard = true ∧ ((s.getS (f.a + BitVec.ofNat 5 0)).toNat % 64 = 0 ∧ (s.getS (f.a + BitVec.ofNat 5 1)).toNat % 64 = 0 ∧ (s.getS (f.a + BitVec.ofNat 5 2)).toNat % 64 = 0 ∧ (s.getS (f.a + BitVec.ofNat 5 3)).toNat % 8 = 0)) ∧
    (resultOk x = true ∧ (x.1.pair 0 1 = none) ∧ (∀ m ∈ List.range 1, x.1.pair 0 m ≠ none)) ∧
    (d.guard = true ∧ d.pair d.me.asid (d.getS g.a).toNat = some (p 1023) ∧ d.pairBusy d.me.asid 1023 = false) := by
  and_intros <;> decide +kernel

/-- O28, CopyEngineCompletes: no pair is free. -/
theorem witness_PairsFull :
    let s := stream 1 .cs
    let t : State := { s with pairs := (List.range 1024).map fun n => ⟨0, n, 0, 0, 0, 0, none⟩ }
    (t.guard = true ∧ resultOk (t.xlateAll t.ctx.core t.ctx.strm .atomic [(0, 0), (0, 0), (0, 8)]) = true ∧ t.pairs.length = 1024 ∧ t.pair 0 0 ≠ none ∧ t.pair 0 1023 ≠ none) := by
  and_intros <;> decide +kernel

/-- O28, CopyEngineCompletes: a copy from memory over the whole pair, a fill of its last word, one of no word, and a copy from the scratchpad. -/
theorem witness_CopyAccepted :
    let pr : Pair := ⟨0, 1023, 0x50000, 0x50040, 64, 0x50088, none⟩
    let s0 := { stream 1 .as with pairs := [pr] }
    let f : E := ⟨0, 0, 0, 1023⟩
    let g : E := ⟨0, 0, 0, 0x7FF⟩
    let x := cmd (.xcopy f) 0x60008 64 0
    let y := cmd (.xfill f) 0x77 8 56
    let z := cmd (.xfill f) 0x77 0 64
    let v := cmd (.xcopy g) 0x17FFC0 64 0
    let s := running s0 1 .copy x
    let t := running s0 1 .copy y
    let e := running s0 1 .copy z
    let l := running s0 1 .copy v
    let b := s.asCmd 1 .copy x
    let a := b.xlate (.strm 1 .as) (s.core 1).asid.toNat (userOf 1) .load x.sa.toNat 64
    let r := a.1.selector pr .load
    let q := r.1.xlate (.strm 1 .as) (s.core 1).asid.toNat (userOf 1) .store ((0x50040 + 0 : Nat)) 64
    let at_ (s : State) (x : Cmd) := (s.asCmd 1 .copy x).selector pr .load
    (HeadRuns s 1 .copy x ∧ b.pair (s.core 1).asid (f.of 0 10) = some pr ∧ x.sd.toNat % 8 = 0 ∧ x.sb.toNat % 8 = 0 ∧ x.sa.toNat % 8 = 0) ∧
    (x.sd.toNat + x.sb.toNat ≤ pr.len ∧ f.of 10 1 ≠ 1 ∧ resultOk r = true ∧ resultOk a = true ∧ resultOk q = true ∧ (resultOf ([], 1) r).2.getLsbD 0 = false) ∧
    (HeadRuns t 1 .copy y ∧ (t.asCmd 1 .copy y).pair (t.core 1).asid (f.of 0 10) = some pr ∧ y.sd.toNat + y.sb.toNat ≤ pr.len ∧ resultOk (at_ t y) = true) ∧
    (HeadRuns e 1 .copy z ∧ z.sd.toNat + z.sb.toNat ≤ pr.len ∧ z.sb.toNat = 0 ∧ resultOk (at_ e z) = true) ∧
    (HeadRuns l 1 .copy v ∧ g.of 10 1 = 1 ∧ g.of 0 10 = 1023 ∧ (l.core 1).padHeld [((v.sa.toNat : Nat), 64)] = false ∧ (l.asCmd 1 .copy v).padOk 1 1 v.sa.toNat 64 = true ∧ resultOk (at_ l v) = true) := by
  and_intros <;> decide +kernel

/-- O28, CopyEngineCompletes: XPUB with no copy under way; an accepted copy ends. -/
theorem witness_CopyPublished :
    let pr : Pair := ⟨0, 1023, 0x50000, 0x50040, 64, 0x50088, none⟩
    let f : E := ⟨0, 0, 0, 1023⟩
    let x := cmd (.xpub f)
    let s := running { stream 1 .as with pairs := [pr] } 1 .copy x
    let r := (s.asCmd 1 .copy x).selector pr .atomic
    let y : Copy := ⟨1023, some 9, false, 0, [], [(0x50040, 8)], [0], [], false, none, 0, 0, 3, 0⟩
    let t := event (onCore { stream 1 .as with pairs := [pr] } fun k => { k with copies := [y] }) 1 0 3
    (HeadRuns s 1 .copy x ∧ (s.core 1).copies = [] ∧ s.pair (s.core 1).asid (f.of 0 10) = some pr ∧ pr.poisoned = none ∧ resultOk r = true) ∧
    (t.ctx.ev.unit = (1 : CoreId).val ∧ (t.core 1).copies.find? (fun z => z.ord == t.ctx.ev.val) = some y) := by
  and_intros <;> decide +kernel

/-- O29, SemaphoresCompleteAndServe: the last semaphore at its greatest value; a served wait; a raise of the greatest amount. -/
theorem witness_SemaphoresCompleteAndServe :
    let s0 := stream 1 .cs [(2, 0xFFFFFFFF)]
    let s := onCore s0 fun k => { k with sems := k.sems.setIfInBounds 255 0xFFFFFFFF }
    let w : Wait := ⟨.sem, 255, 0, 3, 0, none, 0, true, 0, 0⟩
    let g := onStrm s0 fun t => { t with wait := some { w with grant := some 9 } }
    let k := (onStrm s0 fun t => { t with wait := some w }).me
    (s.guard = true ∧ s.standing .sem = none ∧ (s.me.sems.toList[255]?.getD 0).toNat ≠ 0 ∧ s.me.semWaiters 255 = []) ∧
    (g.guard = true ∧ g.standing .sem = some { w with grant := some 9 }) ∧
    ((255 : Nat) < 256 ∧ 0 < 2 ^ 32 - 1 ∧ k.sem 255 = 0 ∧ k.semWaiters 255 = [(3, .strm .cs)]) := by
  and_intros <;> decide +kernel

/-- O30, BarriersComplete: the first arrival and the last arrival of a cluster domain of two, with a waiter on another core; depths of 1 and 16; a satisfied wait. -/
theorem witness_BarriersComplete :
    let s0 := onCore (stream 1 .cs [(2, 16), (3, 15)]) fun k => { k with dmr := 0x20001, bdepth := 16 }
    let i := (s0.me.bib + (s0.getS 3).toNat) % s0.me.bdepth
    let w : Wait := ⟨.bar, 15, 0, 3, 0, none, 1, true, 0, 0⟩
    let k : Core := { ({ Core.reset with active := true, dmr := 0x20001, bdepth := 16, barPend := 0x8001 } : Core).setStrm .cs { Strm.reset with used := true, wait := some w } with jobid := 6 }
    let l := (s0.setDie 0 ((s0.die 0).setBarrier ⟨0, 1, 0, 0, (Vector.replicate 16 0).set 15 1⟩)).setCore 2 k
    let g := onStrm s0 fun t => { t with wait := some { w with grant := some 0 } }
    let b (s : State) := (s.die 0).barrier 0 1 0 0
    (s0.guard = true ∧ s0.standing .bar = none ∧ s0.me.enginesFenced s0.ctx.strm = true ∧ s0.me.hostBuf = [] ∧ i = 15 ∧ s0.me.barPend.getLsbD i = false) ∧
    ((b s0).counts.toList[15]?.getD 0) + 1 < dmrCount s0.me.dmr ∧
    (dmrCount l.me.dmr ≤ ((b l).counts.toList[15]?.getD 0) + 1 ∧ l.me.active = true ∧ l.me.barPend.getLsbD 15 = false ∧ l.guard = true) ∧
    ((l.core 2).active = true ∧ sameDomain l.me 1 (l.core 2) 2 = true ∧ (l.strm 2 .cs).wait = some w ∧ w.kind = .bar ∧ w.obj = 15) ∧
    (1 ≤ (s0.getS 2).toNat ∧ (s0.getS 2).toNat ≤ 16 ∧ s0.me.barPend = 0) ∧
    (g.guard = true ∧ g.standing .bar = some { w with grant := some 0 } ∧ w.stage = 1) := by
  and_intros <;> decide +kernel

/-- O31, LocksComplete: an abandoned word, a held one and its holder, and a granted wait. -/
theorem witness_LocksComplete :
    let s := stream 1 .cs [(1, 0x50000)] (withBytes 0x50007 [0x40])
    let r := s.atomCheck s.ctx.core s.ctx.strm 0x50000 8
    let m := r.1.mark s.walker .atomic (resultOf [] r)
    let h := stream 1 .cs [(1, 0x50000)] (withBytes 0x50000 (leBytes (lockWord false .cs 5).toNat 8))
    let q := h.atomCheck h.ctx.core h.ctx.strm 0x50000 8
    let u := q.1.drainStream q.1.ctx.core q.1.ctx.strm
    let v := (u.mark h.walker .atomic (resultOf [] q)).dropLock 0x50000 5
    let g := onStrm s fun t => { t with wait := some ⟨.lock, 0x50000, 0x50000, 3, 0, some 9, 0, true, 0, 0⟩ }
    (s.guard = true ∧ resultOk r = true ∧ (resultOf [] r).length = 1 ∧ (m.pread8 0x50000).getLsbD 63 = false ∧ m.tableFull (dieOf s.ctx.core) = false ∧ s.standing .lock = none) ∧
    (h.guard = true ∧ resultOk q = true ∧ ((q.1.mark h.walker .atomic (resultOf [] q)).pread8 0x50000).getLsbD 63 = true) ∧
    (q.1.me.enginesFenced q.1.ctx.strm = true ∧ (u.pread8 0x50000).getLsbD 63 = true ∧ ((u.pread8 0x50000).extractLsb' 48 3).toNat = StreamId.cs.num) ∧
    (((u.pread8 0x50000).extractLsb' 0 41).toNat = h.me.jobid.toNat % 2 ^ 41 ∧ v.lockWaiters 0x50000 = []) ∧
    (g.guard = true ∧ (g.standing .lock).bind (fun w => w.grant) = some 9 ∧ resultOk (g.atomCheck g.ctx.core g.ctx.strm 0x50000 8) = true) := by
  and_intros <;> decide +kernel

/-- O32, QueuesAndTokensComplete: the last scalar queue nearly full, the last vector queue, and the last token queue at 63 and at 1. -/
theorem witness_QueuesAndTokensComplete :
    let e : QEntry := ⟨0x1FF, true, 0⟩
    let s := onCore (stream 1 .vs [(1, 7)]) fun k => (((k.setQueue 7 ⟨some .vs, some .as, List.replicate 15 e⟩).setQueue 15 ⟨some .vs, some .vs, [e]⟩).setTokens 7 ⟨some .vs, some .cs, 63⟩).setTokens 0 ⟨some .cs, some .vs, 1⟩
    (s.guard = true ∧ (s.me.queueAt 7).prod = some s.ctx.strm ∧ (s.me.queueAt 7).entries.length < 16) ∧
    ((s.me.queueAt 15).prod = some s.ctx.strm ∧ (s.me.queueAt 15).entries.length < 4 ∧ s.ctx.strm ≠ .as) ∧
    ((s.me.queueAt 15).cons = some s.ctx.strm ∧ (s.me.queueAt 15).entries = [e] ∧ e.arrived = true) ∧
    ((s.me.tokensAt 7).prod = some s.ctx.strm ∧ (s.me.tokensAt 7).count < 64 ∧ (s.me.tokensAt 0).cons = some s.ctx.strm ∧ (s.me.tokensAt 0).count ≠ 0) := by
  and_intros <;> decide +kernel

/-- O33, WaitTableComplete: a settled stream, registrations, declarations and withdrawals, with a waiter that one closes a set over, a sweep with no waiter, limits passed by one at a stream and at an engine command. -/
theorem witness_WaitTableComplete :
    let s := stream 1 .cs [(1, 0xFF)]
    let f : RX := ⟨0, 1, 9, 0⟩
    let w : Wait := ⟨WaitKind.ofCode 10, 0xFF, 0, 0, 0, none, 0, true, 0, 0⟩
    let next : State := { s with seq := s.seq + 1 }
    let placed := next.setStr { s.str with expl := some w }
    let h : Holding := ⟨5, .cs, .sem, 0xFF, 0, 1⟩
    let held := s.setMyDie { s.myDie with holds := [h] }
    let d := event State.reset 1
    let dw := event (onStrm (stream 64 .cs) fun t => { t with wait := some ⟨.opn, 0, 0, 0, 3, none, 0, true, 0, 2⟩ }) 1
    let dt := dw.setDie 1 { dw.die 1 with sweepEnd := none }
    let v : Wait := ⟨.opn, 0, 0, 0, 3, none, 0, true, 0, 2⟩
    let l := event (onStrm s fun t => { t with wait := some v }) 1 0
    let x : Cmd := { cmd (.xpub ⟨0, 0, 0, 0⟩) with wait := some v }
    let m := event (s.setCore 1 ((s.core 1).setCmds .copy [x])) 1 0 (Eng.copy.num + 1)
    let p := stream 1 .cs [(1, 0x50000)]
    let q := p.xlate p.walker p.me.asid.toNat (userOf p.ctx.core) .load (p.getS f.a).toNat 1
    (s.guard = true ∧ s.str.pending = [] ∧ s.str.arriving = [] ∧ s.me.enginesIdle s.ctx.strm = true ∧ s.enginesDone s.ctx.core s.ctx.strm = true) ∧
    ((next.setStr { s.str with expl := none }).tableFull (dieOf s.ctx.core) = false ∧ placed.closedSet ⟨s.ctx.core, s.ctx.strm, none, w⟩ = []) ∧
    (h ∉ s.myDie.holds ∧ s.tableFull (dieOf s.ctx.core) = false ∧ held.guard = true ∧ h ∈ held.myDie.holds) ∧
    (d.ctx.ev.unit = (1 : Fin 2).val ∧ d.waiters = [] ∧ dw.ctx.ev.unit = (1 : Fin 2).val ∧ dt.waiters ≠ [] ∧ dt.closedSubset dt.waiters.length dt.waiters = []) ∧
    (l.ctx.ev.unit = (1 : CoreId).val ∧ l.ctx.ev.sub = StreamId.cs.num ∧ l.ctx.ev.val = 0 ∧ (l.strm 1 .cs).wait = some v ∧ v.reg = true) ∧
    ((l.core 1).satisfied v = false ∧ 0 < v.limit ∧ v.limit < v.count) ∧
    (m.ctx.ev.unit = (1 : CoreId).val ∧ m.ctx.ev.val = Eng.copy.num + 1 ∧ (m.core 1).headCmd .copy = some x ∧ x.wait = some v ∧ (m.core 1).satisfied v = false) ∧
    (p.guard = true ∧ resultOk q = true ∧ (resultOf [] q).length = 1) := by
  and_intros <;> decide +kernel

/-- O34, JobsAndNodesComplete: a record that is still joined and one that is ready; a join counter at each end, and one that comes to 0. -/
theorem witness_JobInstructionsComplete :
    let rec0 : List Byte := leBytes 0x60000 8 ++ leBytes 0x60040 8 ++ leBytes 0 4 ++ leBytes 0x3F00 4 ++ leBytes 0 8
    let q : CQueue := { CQueue.reset with en := true, base := 0x70000, sbase := 0x78000 }
    let go (join : Nat) : State := (onDie (stream 1 .cs [(1, 0x50000), (2, 0x20002)] (withBytes 0x50000 (rec0.take 16 ++ leBytes join 4 ++ rec0.drop 20))) fun d => d.setQueue 63 q)
    let load (s : State) := ((s.drainStream s.ctx.core s.ctx.strm).drainHost s.ctx.core (fun _ => true)).loadG s.ctx.core s.ctx.strm false 0x50000 32
    let a := go 1
    let b := go 0
    let r := Rec.ofBytes (accessBytes (load b))
    let x (s : State) := s.atomCheck s.ctx.core s.ctx.strm (0x50000 + 16 : Nat) 4
    let m := (x a).1.mark a.walker .atomic (resultOf [] (x a))
    let u := (m.drainStream m.ctx.core m.ctx.strm).drainHost a.ctx.core (fun _ => true)
    let w := State.writePieces u.me.jobid u (resultOf [] (x a)) (List.replicate 4 0)
    (a.guard = true ∧ (a.getS 1).toNat % 32 = 0 ∧ a.me.enginesFenced a.ctx.strm = true ∧ accessOk (load a) = true ∧ (Rec.ofBytes (accessBytes (load a))).join ≠ 0) ∧
    (accessOk (load b) = true ∧ r.malformed = false ∧ r.join = 0 ∧ r.queue = 63 ∧ r.die = 0 ∧ ((accessState b (load b)).die r.die).queue r.queue = q) ∧
    (q.en = true ∧ q.src = false ∧ q.asid = (accessState b (load b)).me.asid ∧ q.held < 2 ^ q.log2cap.toNat) ∧
    ((accessState b (load b)).enqueueFor (accessState b (load b)).me (accessBytes (load b))).2 = true ∧
    (a.me.barPend = 0 ∧ dmrOk (a.getS 2) = true) ∧
    (resultOk (x a) = true ∧ (resultOf [] (x a)).length = 1 ∧ resultOk (x b) = true ∧ (a.getS 1).toNat % 32 = 0) ∧
    (leNat (m.readPieces (resultOf [] (x a))) = 1 ∧ m.me.enginesFenced m.ctx.strm = true ∧ (w.enqueueFor w.me (w.mem.readN 0x50000 32)).2 = true) := by
  and_intros <;> decide +kernel

/-- O34, JobsAndNodesComplete: the two trace instructions start and end. -/
theorem witness_TraceModes :
    let s := stream 128 .cs [(1, 1)]
    (s.guard = true ∧ s.getS 0 = 0 ∧ s.getS 1 = 1) := by
  and_intros <;> decide +kernel

/-- O34, JobsAndNodesComplete: a stream alone at its node, one with a stream that has not arrived, a stream that ends, and a system core's. -/
theorem witness_JobsAndNodesComplete :
    let s := stream 1 .cs
    let t := onCore s fun k => k.setStrm .vs { Strm.reset with used := true }
    let n := t.setStr { t.str with arrived := true, draining := false }
    let e := s.setStr { s.str.advance s.clock s.ctx.len s.ctx.head.st.toNat with ended := true, expl := none }
    let y := stream 128 .cs
    let z := y.setStr { y.str.advance 0 2 0 with ended := true, expl := none }
    (s.guard = true ∧ s.str.arrived = false ∧ s.str.pending = [] ∧ s.str.arriving = [] ∧ s.me.enginesIdle s.ctx.strm = true ∧ s.str.faults = []) ∧
    (s.streamBusy false = false ∧ (s.setStr { s.str with arrived := true, draining := false }).boundaryReady 1 = true) ∧
    (t.guard = true ∧ t.str.arrived = false ∧ t.str.pending = [] ∧ t.str.arriving = [] ∧ t.me.enginesIdle t.ctx.strm = true ∧ t.str.faults = []) ∧
    (t.streamBusy false = false ∧ n.boundaryReady 1 = false ∧ t.ctx.strm ≠ .ws ∧ (n.block .node 0 0 t.ctx.head.st.toNat true).2 = none) ∧
    (s.streamBusy true = false ∧ (e.core 1).waiters 1 = []) ∧
    (y.guard = true ∧ y.str.arrived = false ∧ y.me.enginesIdle y.ctx.strm = true ∧ y.streamBusy true = false ∧ (z.core 128).waiters 128 = [] ∧ isSystem y.ctx.core = true) := by
  and_intros <;> decide +kernel

/-- O35, DistributorCompletes: the highest core and queue of a die start a job. -/
theorem witness_DistributorCompletes :
    let rec0 : List Byte := leBytes 0x60000 8 ++ leBytes 0x60040 8 ++ leBytes 0 4 ++ leBytes 0x3F07 4 ++ leBytes 0 8
    let hdr : List Byte := leBytes 0x80 4 ++ leBytes 0x90 4 ++ leBytes 0 16 ++ List.replicate 24 0xFF ++ leBytes 0x10000 8 ++ [6, 0, 0, 0] ++ leBytes 64 4
    let q : CQueue := { CQueue.reset with en := true, base := 0x70000, sbase := 0x78000, head := 15, tail := 16 }
    let s0 := { (stream 1 .cs) with mem := Memory.writeN (Memory.writeN (Memory.writeN tables 0x60000 hdr) 0x60040 [7]) 0x701E0 rec0 }
    let s := event (s0.setDie 0 ((s0.die 0).setQueue 63 q)) 0 63 63
    let slot := 15
    let x := (s.setDie 0 ((s.die 0).setQueue 63 { q with head := 16 })).distFetch 0 0 (q.base.toNat + 32 * slot) 32
    let y := x.1.distFetch 0 0 0x60000 64
    let z := (y.1.configure (coreAt 0 63) 0).distFetch 0 0 0x60040 64
    (s.ctx.ev.unit = (0 : Fin 2).val ∧ s.ctx.ev.sub = 63 ∧ s.ctx.ev.val = 63 ∧ s.coreIdle (coreAt 0 63) = true ∧ (s.die 0).queue 63 = q ∧ q.held ≠ 0) ∧
    (x.2 = some rec0 ∧ (Rec.ofBytes rec0).malformed = false ∧ y.2 = some hdr ∧ headerOk hdr = true ∧ z.2 = some (7 :: List.replicate 63 0)) := by
  and_intros <;> decide +kernel

/-- O35, DistributorCompletes: a job whose streams have ended, one that still runs, an empty selection, a replay that is over. -/
theorem witness_DistributorEvents :
    let s := event (onStrm (stream 127 .cs) fun t => { t with ended := true }) 127
    let t := event (stream 127 .cs) 127
    let d := event State.reset 1
    let rec0 : List Byte := leBytes 0x60000 8 ++ leBytes 0x60040 8 ++ leBytes 0 4 ++ leBytes 0x3F07 4 ++ leBytes 0 8
    let hdr : List Byte := leBytes 0x80 4 ++ leBytes 0x90 4 ++ leBytes 0 16 ++ List.replicate 24 0xFF ++ leBytes 0x10000 8 ++ [6, 0, 0, 0] ++ leBytes 64 4
    let cq : CQueue := { CQueue.reset with en := true, base := 0x70000, sbase := 0x78000, head := 15, tail := 16, aff := BitVec.allOnes 64, pass := 0xFFFF }
    let sl := event ({ stream 0 .cs with mem := Memory.writeN (Memory.writeN (Memory.writeN tables 0x60000 hdr) 0x60040 [7]) 0x701E0 rec0 }.setDie 0 { (((stream 0 .cs).die 0).setQueue 63 { cq with pass := 0 }).setQueue 0 { cq with pass := 0 } with rr := 63 }) 0
    let hi := State.headInfos 0 (List.range 64) sl
    let inf : HeadInfo := ⟨some (Rec.ofBytes rec0), some (hdrFuse hdr)⟩
    let r := event (State.reset.setDie 1 { State.reset.die 1 with trace := ⟨2, 3, false, false, 0x50000, 128, some 0⟩ }) 1
    (s.ctx.ev.unit = (127 : CoreId).val ∧ s.retirable 127 = true ∧ t.retirable 127 = false) ∧
    (d.ctx.ev.unit = (1 : Fin 2).val ∧ (∀ n ∈ List.range 64, ((d.die 1).queue n).en = false) ∧ (∀ i ∈ List.range 64, (d.core (coreAt 1 i)).request = none) ∧ (d.die 1).trace.mode ≠ 2) ∧
    (r.ctx.ev.unit = (1 : Fin 2).val ∧ r.replayOver 1 = true) ∧
    (sl.ctx.ev.unit = (0 : Fin 2).val ∧ (∀ i ∈ List.range 64, (sl.core (coreAt 0 i)).request = none) ∧ sl.saved = [] ∧ (sl.die 0).trace.mode = 0 ∧ sl.distributes 0 = true) ∧
    (hi.2 = [(0, inf), (63, inf)] ∧ ((sl.die 0).queue 63).held ≠ 0 ∧ ((sl.die 0).queue 0).held ≠ 0 ∧ hi.1.lowest 0 ((sl.die 0).queue 63).aff (inf.fuse.getD 0) = some 1 ∧ ((sl.die 0).queue 0).level inf = ((sl.die 0).queue 63).level inf ∧ (63 + 64 - (sl.die 0).rr.toNat) % 64 < (0 + 64 - (sl.die 0).rr.toNat) % 64) := by
  and_intros <;> decide +kernel

/-- O36, CsrAccess: the first and the last register; each write at the edge of what the register holds. -/
theorem witness_CsrAccess :
    let s := onCore (stream 128 .cs [(1, 0xFFFFFFFFFF80), (2, 0xFFFFFFFFFFC0), (3, 0x4A), (4, 0x4B), (5, 16), (6, 0xFFFFFFFF0000), (7, 0xFFFFFFFF8000)]) fun k => { k with dprio := 3 }
    let b := onCore (stream 1 .ws [(5, 16)]) fun k => { k with bank := some 3 }
    (s.guard = true ∧ (csrRule s 0).isSome = true ∧ (csrRule s 0x109).isSome = true ∧ s.me.barPend = 0 ∧ [0x0E, 0x0F, 0x11, 0x100, 0x104].all (fun n => (csrRule s n).isSome) = true) ∧
    (b.guard = true ∧ b.me.bank = some 3) ∧
    ((⟨0, 1, 0, 0x0B⟩ : RX).xf 0 12 = 0x0B ∧ (s.getS 1).toNat % 128 = 0 ∧ (s.getS 1).toNat < 2 ^ 48 ∧ (s.getS 2).toNat % 128 ≠ 0) ∧
    ((s.getS 3).toNat < 128 ∧ (s.getS 3).toNat % 16 ≤ 10 ∧ (s.getS 3).toNat / 16 ≤ 4 ∧ 10 < (s.getS 4).toNat % 16) ∧
    (1 ≤ (s.getS 5).toNat ∧ (s.getS 5).toNat ≤ 16 ∧ dmrOk 0x800003 = true) := by
  and_intros <;> decide +kernel

/-- O37, TrapRecordLayout: a record with eight detail words. -/
theorem witness_TrapRecordLayout :
    let r : TrapRec := ⟨0xFF, .xs, true, true, true, true, true, 31, true, 1, 2, 3, 3, 7, true, 4, 5, 135, List.replicate 8 9⟩
    (r.detail.length ≤ 8 ∧ ({ r with detail := [9] } : TrapRec).detail.length < 8) := by
  and_intros <;> decide +kernel

/-- O38, UserTrapEntry: the record at the end of a page, the handler behind it; one write is due and one is not. -/
theorem witness_UserTrapEntry :
    let p : Pend := ⟨0, 0, .s 4, BitVec.allOnes 2048, 7, 0, false⟩
    let q : Pend := ⟨9, 0, .s 5, BitVec.allOnes 2048, 8, 0, false⟩
    let s := onCore (stream 1 .as [] (withBytes 0x50000 [1, 1, 0, 0, 3, 0])) fun k => { k with utvec := 0x50000, utrec := 0x4FF80 }.setStrm .cs { Strm.reset with used := true, pc := 0x48000, pending := [q, p] }
    let r := s.mkRecord 1 .as { cause := 8 }
    let x := s.xlate (.strm 1 .cs) (s.core 1).asid.toNat true .store (s.core 1).utrec.toNat 128
    let y := (State.writePieces (s.core 1).jobid (x.1.mark (.strm 1 .cs) .store (resultOf [] x)) (resultOf [] x) r.bytes).target 1 .cs (s.core 1).utvec
    ((s.core 1).utvec ≠ 0 ∧ (s.core 1).utrec ≠ 0 ∧ ((s.core 1).strm .cs).ended = false ∧ resultOk x = true ∧ resultOk y = true) := by
  and_intros <;> decide +kernel

/-- O39, TrapDelivery: each of the cases; a slot in which PREEMPT is due. -/
theorem witness_TrapDelivery :
    let s := stream 1 .as
    let p := onCore s fun k => { k with stopped := some (s.mkRecord 1 .as { cause := 0x10 }) }
    let h := onCore s fun k => { k with handler := some ⟨s.mkRecord 1 .as { cause := 8 }, ⟨0, none, false, none, none, [], 0, none, none, 0, 0⟩, none⟩ }
    let pg := s.mkRecord 1 .as { cause := 0x10 }
    let al := s.mkRecord 1 .cs { cause := 8 }
    let x := (onCore s fun k => { k with request := some ⟨some 3, 5, 0, 0, false⟩ }).setDie 0 { s.die 0 with plim := 5 }
    (isSystem 128 = true ∧ isSystem 1 = false ∧ pg.cause = 0x10 ∧ al.cause ≠ 0x10 ∧ al.cause ≠ 0x26 ∧ al.cause ≠ 0x41 ∧ al.cause ≠ 0x42 ∧ al.cause ≠ 0x51) ∧
    ((p.core 1).stopped ≠ none ∧ (s.core 1).stopped = none ∧ (s.core 1).handler = none ∧ (h.core 1).stopped = none ∧ (h.core 1).handler ≠ none) ∧
    (s.plimReached 1 = false ∧ x.plimReached 1 = true ∧ (x.core 1).handler = none ∧ (x.core 1).stopped = none) := by
  and_intros <;> decide +kernel

/-- O40, TrapInstructionsComplete and O41, TrapReturn: a handler of a trap of the AS that names a block to resume at, and of a TRAP. -/
theorem witness_TrapsReturn :
    let s0 := stream 1 .cs [(1, 0x50000)] (withBytes 0x50000 [1, 1, 0, 0, 3, 0])
    let fr : Frame := ⟨0x48000, none, false, none, none, [], 3, none, some 0x48000, 2, 0⟩
    let h : Handler := ⟨s0.mkRecord 1 .as { cause := 8 }, fr, none⟩
    let s := onCore s0 fun k => { k with handler := some h }
    let b := onCore s0 fun k => { k with handler := some { h with seth := some 0x50000 } }
    let t := onCore s0 fun k => { k with handler := some { h with record := { h.record with cause := 0x50 } } }
    let x := s.target s.ctx.core s.ctx.strm (s.getS 1)
    let m := onCore t fun k => k.setStrm .as { k.strm .as with mac := some ⟨[[1], [2]], 0, 3, 4⟩ }
    let n := onCore t fun k => k.setStrm .as { k.strm .as with mac := some ⟨[[1], [2]], 1, 3, 4⟩ }
    (s.guard = true ∧ s.me.handler = some h ∧ h.record.eng = false ∧ resultOk x = true) ∧
    ((b.core 1).handler ≠ none ∧ (b.core 1).held = [] ∧ h.record.strm ≠ .cs) ∧
    ((t.core 1).handler ≠ none ∧ (t.core 1).held = [] ∧ ((t.core 1).strm .as).mac = none) ∧
    (((m.core 1).strm .as).mac = some ⟨[[1], [2]], 0, 3, 4⟩ ∧ (m.core 1).handler ≠ none ∧ (m.core 1).held = [] ∧ ((n.core 1).strm .as).mac = some ⟨[[1], [2]], 1, 3, 4⟩ ∧ (n.core 1).handler ≠ none ∧ (n.core 1).held = []) := by
  and_intros <;> decide +kernel

/-- O42, DecodeChecks: a word that its stream may not issue, one of the supervisor's, and one that is no instruction. -/
theorem witness_DecodeChecks :
    let s := stream 1 .vs
    let tile : List HWord := [0x006B, 0x0800, 0x0000, 0x0028]
    let sup := encode ⟨Head.zero, .aset ⟨0, 1, 2⟩⟩
    let c := stream 1 .cs
    ((match Decode.rawDecode tile with | .ok x => !permitted .vs x.1.instr | .error _ => false) = true ∧ s.guard = true) ∧
    ((match Decode.rawDecode sup with | .ok x => permitted .cs x.1.instr && csrPermitted .cs x.1.instr && handlerOk false x.1.instr && isPrivileged x.1.instr | .error _ => false) = true ∧ isSystem c.ctx.core = false) ∧
    ((match Decode.rawDecode [0xFFFF, 0xFFFF] with | .error .illOp => true | _ => false) = true ∧ sup ≠ []) := by
  and_intros <;> decide +kernel

/-- O43, SupervisorCompletes: a directory entry, the caches, the logs, the spill area and the injected faults, on a system core. -/
theorem witness_SupervisorTables :
    let s0 := stream 128 .cs [(1, 3), (2, 0x60000), (3, 0x30001), (4, 0x10020000), (5, 0x807), (6, 0x400), (7, 63), (8, 127), (9, 0x1007F)]
    let s := { s0 with tlb := [⟨.strm 127 .ws, 0, 3, 0x30000, false, 4, 0x40000⟩, ⟨.die 1, 3, 3, 0x30000, false, 5, 0x50000⟩] }
    let w := (s.setCore 127 { Core.reset with asid := 3, copies := [⟨0, none, false, 0, [], [], [], [], false, none, 0, 0, 0, 6⟩] }).setStr { s.str with wait := some ⟨.opn, 0, 0xABC, 0, 0, none, 0, false, 5, 0⟩ }
    let d := dieOf s.ctx.core
    let at_ := s.myDie.ptroot.toNat + 8 * 3
    (s.guard = true ∧ (s.getS 1).setWidth 13 = 3#13 ∧ (s.getS 2).toNat % 512 = 0 ∧ s.physOk at_ = true ∧ (s.getS 0).toNat % 512 = 0) ∧
    (((s.getS 2).extractLsb' 0 2).toNat = 0 ∧ ((s.getS 3).extractLsb' 0 2).toNat = 1) ∧
    (s.str.wait = none ∧ s.copiesOver s.clock (fun _ => true) = true ∧ (w.str.wait.map (·.since)) = some 5 ∧ w.copiesOver 5 (fun _ => true) = true ∧ w.copiesOver 6 (fun _ => true) = false) ∧
    ((s.getS 0).toNat % 32 = 0 ∧ (s.getS 6).toNat % 32 = 0 ∧ s.tableUsed d - 4096 ≤ (s.getS 6).toNat / 32) ∧
    ((⟨0, 2, 0, 0⟩ : RX).xf 0 4 = 0 ∧ (⟨0, 2, 0, 1⟩ : RX).xf 0 4 = 1 ∧ (⟨0, 8, 0, 2⟩ : RX).xf 0 4 = 2 ∧ (⟨0, 9, 0, 3⟩ : RX).xf 0 4 = 3) := by
  and_intros <;> decide +kernel

/-- O43, SupervisorCompletes: jobs that are gone, running, stopped and halted, and an image's place on a core that is idle and on one that is not. -/
theorem witness_SupervisorJobs :
    let s0 := stream 128 .cs [(1, 5), (2, 0x302), (3, 1), (4, 6), (5, 0x60000), (6, 63), (7, 0x70000), (8, 8)]
    let r := (s0.mkRecord 63 .vs { cause := 8 })
    let k : Core := { Core.reset with active := true, jobid := 5, asid := 1 }
    let k6 : Core := { Core.reset with active := true, jobid := 6, stopped := some r }
    let k8 : Core := { Core.reset with active := true, jobid := 8 }
    let sv : Saved := ⟨false, 3, 0x60000, 0, 9, false, k8⟩
    let s1 := s0.setCore 128 { s0.core 128 with jobid := 0 }
    let s : State := { ((s1.setCore 63 k).setCore 62 k6).setStrm 62 .as { Strm.reset with used := true, halted := true } with mem := Memory.writeN tables 0x60000 (imageBytes k8 9 [] 0), images := [⟨9, [], 0, sv⟩], saved := [sv] }
    let a (w : Word) := s.jobOn 0 w
    (s.guard = true ∧ a 1 = .gone ∧ (s.getS 2).toNat % 16 < 4 ∧ a 5 = .core 63 ∧ a 6 = .core 62 ∧ a 8 = .saved 0 ∧ dieOf s.ctx.core = 0) ∧
    ((s.getS 2).toNat % 16 = 2 ∧ (s.getS 3).toNat % 16 = 1 ∧ (s.core 62).stopped ≠ none ∧ (s.core 63).stopped = none) ∧
    ((s.strm 62 .as).halted = true ∧ (s.strm 63 .as).halted = false ∧ (s.getS 5).toNat % 4096 = 0 ∧ s.physOk (s.getS 5).toNat = true) ∧
    (s.imageAt (s.getS 7).toNat = none ∧ (s.imageAt (s.getS 5).toNat).isSome = true ∧ s.coreIdle (coreAt 0 63) = false ∧ s.coreIdle (coreAt 0 5) = true) := by
  and_intros <;> decide +kernel

/-- O43, SupervisorCompletes: a page that is mapped, one of a block, one without a translation. -/
theorem witness_PageMigration :
    let s := stream 128 .cs [(1, 0x40000), (2, 0x90000), (3, 0x7FFF0000)] (Memory.writeN (Memory.writeN tables 0x40000 [1, 2, 3]) 0x30020 (leBytes 0x400B7 8))
    let va (n : BitVec 5) := (s.getS n).toNat / 65536 % 2 ^ 32 * 65536
    let w (n : BitVec 5) := s.walk s.myDie.ptroot.toNat ((s.getS n).extractLsb' 48 13 : BitVec 13).toNat (va n)
    (s.guard = true ∧ (s.getS 2).toNat % 65536 = 0 ∧ s.physOk (s.getS 2).toNat = true) ∧
    ((match w 1 with | .ok l => l.block | .error _ => false) = true ∧ (match w 3 with | .ok _ => false | .error _ => true) = true) := by
  and_intros <;> decide +kernel

/-- O43, SupervisorCompletes: a page behind a table of pages. -/
theorem witness_PageMoves :
    let s := stream 128 .cs [(1, 0x20000000), (2, 0x90000)] (Memory.writeN (Memory.writeN (Memory.writeN tables 0x50000 [1, 2, 3]) 0x30008 (leBytes 0x40003 8)) 0x40000 (leBytes 0x501BD 8))
    let va := (s.getS 1).toNat / 65536 % 2 ^ 32 * 65536
    let w := s.walk s.myDie.ptroot.toNat ((s.getS 1).extractLsb' 48 13 : BitVec 13).toNat va
    (s.guard = true ∧ (s.getS 2).toNat % 65536 = 0 ∧ s.physOk (s.getS 2).toNat = true ∧ (match w with | .ok l => !l.block | .error _ => false) = true) := by
  and_intros <;> decide +kernel

/-- O44, TileCommandsComplete: the commands on tile state, each form. -/
theorem witness_TileState :
    let tl : Tile := { Tile.reset with t := (Tile.reset.t.set 1 0x3F80000040000000).set 15 7, a := Tile.reset.a.set 7 0xFFFFFFFFFFFFFFFFFFFF }
    let s0 := onCore (stream 2 .ts) fun k => { k with tile := tl }
    let x := cmd (.tzero ⟨0, 0, 0, 0⟩) 0x42 0 0 [0x7FFF8001]
    let s := running s0 2 .tile x
    (HeadRuns s 2 .tile x ∧ (s.core 2).tile.bad = [] ∧ (⟨0, 7, 0, 1⟩ : E).of 0 1 = 1 ∧ (⟨0, 1, 15, 0⟩ : E).of 0 1 = 0) ∧
    (x.sa.toNat < 2 ^ 13 ∧ x.sa.toNat / 1024 ≤ 4 ∧ tilePair (x.sa.toNat % 32) (x.sa.toNat / 32 % 32) ≠ none) := by
  and_intros <;> decide +kernel

/-- O44, TileCommandsComplete: a product in FP32 and in FP64 (register pairs), dense and sparse; a conversion. -/
theorem witness_TileProducts :
    let tl : Tile := { Tile.reset with t := (Tile.reset.t.set 0 0x400000003F800000).set 14 0x4040000040000000, a := Tile.reset.a.set 3 0x3F8000003F800000 }
    let x := cmd (.tmma ⟨0, 0, 0, 0⟩) 0 0 0 [0xFFFFFFFF, 0xFF, 0x3]
    let s := running (onCore (stream 2 .ts) fun k => { k with tile := tl }) 2 .tile x
    let e := running (onCore (stream 2 .ts) fun k => { k with tile := { tl with tfmt := 0 } }) 2 .tile x
    let z := running (onCore (stream 2 .ts) fun k => { k with tile := { tl with cke := true } }) 2 .tile x
    (HeadRuns s 2 .tile x ∧ (s.core 2).tile.bad = [] ∧ tilePair (tfmtAF tl.tfmt) (tfmtBF tl.tfmt) = some (.fused f32) ∧ tl.cke = false) ∧
    (HeadRuns z 2 .tile x ∧ (z.core 2).tile.bad = [] ∧ (z.core 2).tile.cke = true ∧ (z.core 2).tile.tfmt = tl.tfmt) ∧
    (HeadRuns e 2 .tile x ∧ (e.core 2).tile.bad = [] ∧ tilePair 0 0 = some (.fused f64) ∧ (e.core 2).tile.tfmt = 0 ∧ (0 : BitVec 5).toNat % 2 = 0 ∧ (14 : BitVec 5).toNat % 2 = 0) := by
  and_intros <;> decide +kernel

/-- O44, TileCommandsComplete: a load of an MX format with its scales from the last lines that fit and one with a negative pitch; a store to the scratchpad and to G. -/
theorem witness_TileMemory :
    let s0 := onCore (stream 2 .ts) fun k => { k with spad := (List.range 64).map (fun i => (i, BitVec.ofNat 8 (i + 1))), split := 6, tile := { k.tile with a := k.tile.a.set 7 0x3F800000 } }
    let x := cmd (.tld ⟨0, 0, 3, 0⟩) 0 64 0 [0xFFFFFFFF, 1024]
    let y := cmd (.tld ⟨0, 0, 3, 0⟩) 960 0xFFFFFFC0 0 [0xFFFFFFFF, 1024]
    let g := cmd (.tst ⟨0, 0, 7, 0⟩) 0x50000 64 0 [0x80018001]
    let s := running s0 2 .tile x
    let t := running s0 2 .tile y
    let u := running s0 2 .tile g
    let v := running s0 2 .tile { y with more := [0x80018001] }
    let rs := tldRanges 10 0 1024 64
    let rt := tldRanges 1 960 1024 (-64)
    let ty := NumTy.ofCode 4
    let es := tstElems 0x80018001 0x50000 64 (ty.width / 8)
    let ez := tstElems 0x80018001 960 (-64) (ty.width / 8)
    let fm : E := ⟨0, 0, 3, 0x3EA1⟩
    let xm := cmd (.tld fm) 0 64 0 [0xC, 1024]
    let m := running (s0.setCore 3 { (s0.core 2).setStrm .ts (s0.strm 2 .ts) with tileQ := [{ xm with stage := 31, ord := 8 }] }) 2 .tile xm
    let m1 := (m.asCmd 2 .tile xm).setMe ((m.asCmd 2 .tile xm).me.mapHead .tile fun y => { y with stage := 31 })
    let rm := tldRanges 1 0 1024 64
    let cv (es : List (Nat × Int)) := convertElems (accTy 0x21) ty .rne (s0.me.tile.acc 7) (es.map (·.1)) (s0.strm 2 .ts).seed
    let w := (u.asCmd 2 .tile g).storeRanges 2 .ts (joinRanges (es.map fun e => (e.2, ty.width / 8))) ((cv es).1.flatMap fun v => leBytes v (ty.width / 8))
    let z := (v.asCmd 2 .tile { y with more := [0x80018001] }).storePad 2 2 0 (joinRanges (ez.map fun e => (e.2, ty.width / 8))) ((cv ez).1.flatMap fun v => leBytes v (ty.width / 8))
    (HeadRuns s 2 .tile x ∧ HeadRuns t 2 .tile y ∧ HeadRuns u 2 .tile g ∧ HeadRuns v 2 .tile { y with more := [0x80018001] } ∧ (s.core 2).tile.bad = [] ∧ (t.core 2).tile.bad = [] ∧ (u.core 2).tile.bad = [] ∧ (v.core 2).tile.bad = []) ∧
    ((⟨0, 0, 3, 10⟩ : E).of 9 1 = 0 ∧ x.sa.toNat % tileAlign 10 = 0 ∧ pitch x.sb % tileAlign 10 = 0 ∧ pitch x.sb % 32 = 0 ∧ (s.core 2).spcfg = none ∧ (∀ r ∈ rs, (s.asCmd 2 .tile x).padOk 2 2 r.1 r.2 = true) ∧ (s.core 2).spadPoison = []) ∧
    (y.sa.toNat % tileAlign 1 = 0 ∧ pitch y.sb % tileAlign 1 = 0 ∧ (t.core 2).spcfg = none ∧ (∀ r ∈ rt, (t.asCmd 2 .tile y).padOk 2 2 r.1 r.2 = true) ∧ (t.core 2).spadPoison = []) ∧
    (HeadRuns m 2 .tile xm ∧ (m.core 2).tile.bad = [] ∧ tileTarget 2 (fm.of 5 1) (fm.of 6 3) = 2 ∧ fm.of 0 5 = 1 ∧ fm.of 9 1 = 1 ∧ fm.of 5 1 = 1 ∧ fm.of 10 4 = 15 ∧ xm.code.instr = .tld fm ∧ (m.core 2).spcfg = none ∧ (m.core 2).spadPoison = [] ∧ (0xC : Word).getLsbD (posOf 2) = true) ∧
    (mcastCores 2 0xC = [2, 3] ∧ m1.mcastHead 2 15 = some { xm with stage := 31 } ∧ m1.mcastHead 3 15 = some { xm with stage := 31, ord := 8 } ∧ ([2, 3].all fun e => (m1.mcastHead e 15).any fun y => mcastKey y == mcastKey xm) = true ∧ (∀ r ∈ rm, (m.asCmd 2 .tile xm).padOk 2 2 r.1 r.2 = true)) ∧
    (g.sa.toNat % (ty.width / 8) = 0 ∧ pitch g.sb % (ty.width / 8 : Nat) = 0 ∧ accessOk w = true ∧ accessBytes w = [] ∧ accessOk z = true ∧ accessBytes z = []) := by
  and_intros <;> decide +kernel

/-- O45, WavefrontSettingsComplete: the lease held, free, another's and frozen; a bank claimed by the job and one that nobody has claimed; bank 3. -/
theorem witness_LeasesAndBanks :
    let x := cmd .wlease 0x700000000
    let y := cmd .wlease 0x700000003
    let s := running leased 1 .arr x
    let t := running leased 1 .arr y
    let n := running (leased.setArr 0 { leased.arr 0 with lease := none }) 1 .arr x
    let z := running (onCore leased fun k => { k with bank := some 2 }) 1 .arr x
    let w := running (leased.setArr 0 { leased.arr 0 with frozen := true, fwd := [wave 0] }) 1 .arr x
    let b := s.asCmd 1 .arr x
    let a := s.arr 0
    (HeadRuns s 1 .arr x ∧ HeadRuns t 1 .arr y ∧ HeadRuns n 1 .arr x ∧ HeadRuns z 1 .arr x ∧ HeadRuns w 1 .arr x) ∧
    (a.lease = some 1 ∧ (n.arr 0).lease = none ∧ (n.arr 0).requests = [] ∧ (n.arr 0).lease ≠ some 1 ∧ a.frozen = false ∧ (∀ v ∈ a.fwd ++ a.bwd, v.core ≠ 1)) ∧
    ((a.bankAt (x.sa.toNat % 4)).claim = some ((s.core 1).asid, x.sa.extractLsb' 32 32) ∧ (∀ v ∈ (z.arr 0).flying, v.bank ≠ 0) ∧ (z.core 1).bank ≠ some 0 ∧ ((t.arr 0).bankAt (y.sa.toNat % 4)).claim = none) ∧
    ((n.arr 0).unheld = true ∧ (∀ v ∈ a.flying, v.bank ≠ 0) ∧ (s.core 1).bank = some 0) ∧
    ((w.arr 0).lease = some 1 ∧ (w.arr 0).frozen = true ∧ (w.core 1).jobid ∉ (w.arr 0).forced ∧ b.wavesDone 1 = true) := by
  and_intros <;> decide +kernel

/-- O45, WavefrontSettingsComplete: regions 15 and 1 with a place at the edge of the array; settings. -/
theorem witness_RegionSettings :
    let x := cmd .wlease 0x0001FDFE
    let s := running leased 1 .arr x
    let a := s.arr 0
    let k := s.core 1
    let g : Region := { Region.undef with state := .defined, row0 := 0xFE, col0 := 0xFD, rows := 2, cols := 1, fmt := (a.region 0 1).fmt }
    (HeadRuns s 1 .arr x ∧ a.lease = some 1 ∧ a.frozen = false ∧ k.jobid ∉ a.forced ∧ k.bank = some 0 ∧ (a.bankAt 0).claim = some (k.asid, k.handle)) ∧
    ((⟨0, 0, 0, 15⟩ : E).of 0 4 = 15 ∧ (⟨0, 0, 0, 1⟩ : E).of 0 4 = 1 ∧ (∀ w ∈ a.fwd ++ a.bwd ++ a.flying, w.bank ≠ 0 ∨ w.region ≠ 15)) ∧
    (g.row0 = x.sa.toNat % 256 ∧ g.col0 = x.sa.toNat / 2 ^ 8 % 256 ∧ g.rows = x.sa.toNat / 2 ^ 16 % 256 + 1 ∧ g.cols = x.sa.toNat / 2 ^ 24 % 256 + 1 ∧ g.row0 + g.rows ≤ 256 ∧ g.col0 + g.cols ≤ 256 ∧ (∀ q ∈ List.range 16, q ≠ 1 → (a.region 0 q).state ≠ .undef → g.meets (a.region 0 q) = false)) ∧
    (a.region 0 15).state = .defined := by
  and_intros <;> decide +kernel

/-- O46, WavefrontDataComplete: a load from the scratchpad and from G, a store to the scratchpad. -/
theorem witness_WeightsMove :
    let x := cmd .wlease 0x80 0x900000004
    let y := cmd .wlease 0x50000 0x900000004
    let f : E := ⟨0, 0, 0, 0x100⟩
    let fg : E := ⟨0, 0, 0, 0x1100⟩
    let s := running (onCore leased fun k => { k with spad := [(0x80, 1), (0x81, 0x3F)] }) 1 .arr x
    let t := running { leased with mem := withBytes 0x50000 [0, 0, 0x80, 0x3F] } 1 .arr y
    let a := s.arr 0
    let k := s.core 1
    let g := a.region 0 0
    let ld (s : State) (x : Cmd) (f : E) : Accessed := let rs := weightRows (g.load (f.of 4 3)) f (weightTy f) x; if f.of 12 2 = 1 then (s.asCmd 1 .arr x).loadRanges 1 .ws false rs else (s.asCmd 1 .arr x).loadPad 1 .ws 1 0 rs
    (HeadRuns s 1 .arr x ∧ HeadRuns t 1 .arr y ∧ a.lease = some 1 ∧ a.frozen = false ∧ k.jobid ∉ a.forced ∧ k.bank = some 0 ∧ (a.bankAt 0).claim = some (k.asid, k.handle) ∧ t.arr 0 = a) ∧
    (f.of 0 4 = 0 ∧ f.of 12 2 ≠ 1 ∧ fg.of 0 4 = 0 ∧ fg.of 12 2 = 1 ∧ g.state ≠ .undef ∧ (∀ w ∈ a.fwd ++ a.bwd ++ a.flying, w.bank ≠ 0 ∨ w.region ≠ 0) ∧ weightAlign (weightTy f) x = false ∧ weightAlign (weightTy fg) y = false) ∧
    (accessOk (ld s x f) = true ∧ accessOk (ld t y fg) = true) ∧
    (g.state = .loaded ∧ (f.of 4 1 = 1 → hasG g.fmt = true) ∧ k.spcfg = none ∧ (a.bankAt 0).poison = [] ∧ (∀ q ∈ weightRows g f (weightTy f) x, (s.asCmd 1 .arr x).padOk 1 1 q.1 q.2 = true)) ∧
    resultOk ((t.asCmd 1 .arr y).xlateAll 1 .ws .store (weightRows g fg (weightTy fg) y)) = true := by
  and_intros <;> decide +kernel

/-- O46, WavefrontDataComplete: an admission of each kind, tag 15, and one that has read its inputs; an output of tag 1 collected, a failed one too; versions and a state. -/
theorem witness_WaveCommands :
    let x := cmd .wlease 0x80 0
    let s := running (leased.setArr 0 ((leased.arr 0).setRegion 0 0 { (leased.arr 0).region 0 0 with stashes := [(15, [0])] })) 1 .arr x
    let a := s.arr 0
    let b := s.asCmd 1 .arr x
    let k := s.core 1
    let g := a.region 0 0
    let eb := (activation 0).width / 8
    let len (kind : Nat) := if kind = 0 then g.rows else if kind = 4 then 0 else g.width
    let f (kind : Nat) : E := ⟨0, 0, 0, BitVec.ofNat 14 (kind * 256 + 0xF0)⟩
    let ld (kind : Nat) := b.loadPad 1 .ws 1 0 (if kind = 4 then [] else [((x.sa.toNat : Int), len kind * eb)])
    let x1 : Cmd := { x with stage := 1, acc := [3] }
    let s1 := running s 1 .arr x1
    let e : WOut := ⟨1, true, false, true, 2, (3, 4), [0x3F800000]⟩
    let o := running (onCore leased fun k => { k with wouts := [e] }) 1 .out x
    let e0 : WOut := ⟨1, true, true, false, 0, (0, 0), []⟩
    let o0 := running (onCore leased fun k => { k with wouts := [e0] }) 1 .out x
    let c := o.asCmd 1 .out x
    let o1 := running (onCore leased fun k => { k with wouts := [e] }) 1 .rng x
    let o2 := running leased 1 .ver x
    let q : E := ⟨0, 0, 9, 0x31⟩
    let st := c.storePad 1 1 0 [((x.sa.toNat : Int), e.vals.length * ((NumTy.ofCode (q.of 5 4)).width / 8))] (e.vals.flatMap fun v => leBytes ((NumTy.flt f32).convert (NumTy.ofCode (q.of 5 4)) .rne 0 v.toNat).1 ((NumTy.ofCode (q.of 5 4)).width / 8))
    (HeadRuns s 1 .arr x ∧ a.lease = some 1 ∧ a.frozen = false ∧ k.jobid ∉ a.forced ∧ k.bank = some 0 ∧ (a.bankAt 0).claim = some (k.asid, k.handle)) ∧
    ((∀ kind ∈ List.range 5, (f kind).of 8 3 = kind ∧ (f kind).of 0 4 = 0 ∧ (f kind).of 4 4 = 15 ∧ (f kind).of 11 3 = 0 ∧ accessOk (ld kind) = true ∧ (if kind == 0 || kind == 4 then a.fwd else a.bwd).length < 8)) ∧
    (x.stage ≠ 1 ∧ HeadRuns s1 1 .arr x1 ∧ x1.stage = 1 ∧ x1.acc.length = len 0 ∧ s1.arr 0 = a ∧ k.outRoom ≠ 0) ∧
    (g.state = .loaded ∧ g.stashValid 15 = true ∧ hasG g.fmt = true ∧ x.sa.toNat % eb = 0 ∧ k.outRoom ≠ 0) ∧
    (HeadRuns o 1 .out x ∧ (o.core 1).rngQ = [] ∧ (o0.core 1).rngQ = [] ∧ takeOut (q.of 0 4) (q.of 4 1 == 1) (o.core 1).wouts = some (e, []) ∧ e.failed = false ∧ x.sa.toNat % ((NumTy.ofCode (q.of 5 4)).width / 8) = 0 ∧ accessOk st = true ∧ accessBytes st = [] ∧ (⟨0, 0, 9, 0x11⟩ : E).of 5 2 = 0) ∧
    (HeadRuns o0 1 .out x ∧ takeOut 1 true (o0.core 1).wouts = some (e0, []) ∧ e0.failed = true ∧ HeadRuns o1 1 .rng x ∧ (o1.core 1).outQ = []) ∧
    (HeadRuns o2 1 .ver x ∧ (⟨0, 0, 9, 0x20⟩ : E).of 5 2 = 1 ∧ (⟨0, 0, 9, 0x40⟩ : E).of 5 2 = 2 ∧ (o2.core 1).outQ = [] ∧ (o2.core 1).arrQ = [] ∧ (o2.arr 0).fwd ++ (o2.arr 0).bwd = [] ∧ (o2.core 1).bank = some 0 ∧ ((o2.arr 0).bankAt 0).claim = some ((o2.core 1).asid, (o2.core 1).handle)) := by
  and_intros <;> decide +kernel

/-- O47, ArrayImagesAndEventsComplete: a wavefront that goes on, one of each edge, one that commits and one that is delivered. -/
theorem witness_ArrayEvents :
    let c := event leased 0
    let on (a : WArray → WArray) : State := c.setArr 0 (a (c.arr 0))
    let s := on fun a => { a with flying := [wave 0 (some 0), wave 1 (some 4), wave 3 none] }
    let f := { on (fun a => { a with fwd := [wave 0] }) with clock := 9 }
    let b := { on (fun a => { a with bwd := [wave 1] }) with clock := 9 }
    let w := wave 4 (some 2)
    let y := wave 0 (some 4)
    let k := on fun a => { a with flying := [w] }
    let d := onCore (on fun a => { a with flying := [y] }) fun k => { k with wroom := 1 }
    let v : Wave := { y with reg := { y.reg with cks := true } }
    let d1 := on fun a => { a with flying := [v], recent := [v] }
    let d2 := on fun a => { a with flying := [v] }
    let f1 := { on (fun a => { a with flying := [{ wave 0 with replays := 1 }] }) with clock := 9 }
    let ks := on fun a => { a with flying := [{ w with skip := true }] }
    let z := on fun a => { a with flying := [{ wave 2 (some 4) with failed := true }], frozen := true }
    let q := event leased 15
    (d.turnLease 0 = d ∧ d1.turnLease 0 = d1 ∧ d2.turnLease 0 = d2) ∧
    (c.ctx.ev.unit = 0 ∧ (s.arr 0).frozen = false ∧ (z.arr 0).frozen = true ∧ (z.arr 0).lease ≠ none ∧ z.ctx.ev.unit = 0 ∧ s.ctx.ev.unit = 0 ∧ q.ctx.ev.unit = 15 ∧ (q.arr 15).frozen = false) ∧
    (f.ctx.ev.unit = 0 ∧ b.ctx.ev.unit = 0 ∧ (f.arr 0).frozen = false ∧ (b.arr 0).frozen = false ∧ f.candidate 0 true = some (wave 0) ∧ f.candidate 0 false = none ∧ (wave 0).replays = 0 ∧ b.candidate 0 false = some (wave 1) ∧ b.candidate 0 true = none) ∧
    (k.ctx.ev.unit = 0 ∧ (k.arr 0).frozen = false ∧ (k.arr 0).flying.filter (fun w => w.isA && w.age == some w.last) = [w] ∧ w.skip = false) ∧
    (d.ctx.ev.unit = 0 ∧ (d.arr 0).frozen = false ∧ (d.arr 0).flying = [y] ∧ y.isA = false ∧ y.age = some y.last ∧ y.passes = true) ∧
    ((d1.arr 0).frozen = false ∧ d1.ctx.ev.unit = 0 ∧ v.isA = false ∧ v.age = some v.last ∧ v.failed = false ∧ v.passes = false ∧ (d1.arr 0).beyondRetry v = false ∧ (d2.arr 0).frozen = false ∧ d2.ctx.ev.unit = 0 ∧ (d2.arr 0).beyondRetry v = true) ∧
    (f1.ctx.ev.unit = 0 ∧ (f1.arr 0).frozen = false ∧ f1.candidate 0 true = some { wave 0 with replays := 1 } ∧ f1.candidate 0 false = none) ∧
    (ks.ctx.ev.unit = 0 ∧ (ks.arr 0).frozen = false ∧ (ks.arr 0).flying.filter (fun w => w.isA && w.age == some w.last) = [{ w with skip := true }]) ∧
    perCell (wave 0).reg.fmt = 1 := by
  refine ⟨by and_intros <;> rfl, ?_⟩
  and_intros <;> decide +kernel

/-- O48, CollectivesComplete: a member without children sends its words to its parent, and waits with .bc; one sends on what has come down. -/
theorem witness_ReductionLeaf :
    let x := { cmd (.xred ⟨0, 0, 0, 0⟩) 0x40 0x80 with timer := 1 }
    let y := { x with stage := 2 }
    let f : E := ⟨0, 0, 0, 0x3001⟩
    let fb : E := ⟨0, 0, 0, 0x3041⟩
    let s := running grove 63 .coll x
    let g := grove.setDie 0 { grove.die 0 with downs := [⟨5, 1, 9, 0x041, [7, 8]⟩] }
    let w := running g 63 .coll y
    let b := s.startTimer.asCmd 63 .coll x
    let a := w.startTimer.asCmd 63 .coll y
    let t := (s.core 63).treeAt 3
    let ld := b.loadPad 63 .xs 63 0 [((x.sa.toNat : Int), 8)]
    let own := wordsOf 2 (accessBytes ld)
    let p := (accessState b ld).progress 1 own 0
    let q := State.combine 63 t 0 0 [] p own
    let s3 := q.1.progress 1 q.2.1 0
    let dn := a.takeDown t
    let z := match dn with | some r => r.2.storePad 63 63 0 [((y.sb.toNat : Int), 4 * r.1.vals.length)] (bytesOf r.1.vals) | none => .hold a
    (HeadRuns s.startTimer 63 .coll x ∧ x.failing = false ∧ x.stage = 0 ∧ t.loaded = true ∧ t.fails = [] ∧ f.of 12 2 = 3 ∧ f.of 0 6 + 1 = 2 ∧ f.of 6 1 = 0 ∧ fb.of 12 2 = 3 ∧ fb.of 0 6 + 1 = 2 ∧ fb.of 6 1 = 1) ∧
    (memParent t.desc t.member ≠ 0xFF ∧ memKids t.desc t.member = [] ∧ x.sa.toNat % 4 = 0 ∧ x.sb.toNat % 4 = 0 ∧ b.padOk 63 63 x.sa.toNat 8 = true ∧ b.padOk 63 63 x.sb.toNat 8 = true ∧ accessOk ld = true ∧ p.differing 63 t 9 = 0 ∧ q.2.2 = []) ∧
    ((s3.die (dieOf 63)).partials.filter fun r => r.load == t.load && r.router == memParent t.desc t.member && r.child == t.member).length < 2 ∧
    (HeadRuns w.startTimer 63 .coll y ∧ y.failing = false ∧ y.stage = 2 ∧ (w.core 63).treeAt 3 = t ∧ dn.isSome = true ∧ accessOk z = true) := by
  and_intros <;> decide +kernel

/-- O48, CollectivesComplete: the root combines its child's words with its own and writes the result, with and without sending it down; one waits for the child, one has begun. -/
theorem witness_ReductionRoot :
    let x := { cmd (.xred ⟨0, 0, 0, 0⟩) 0x40 0x80 with timer := 1 }
    let f : E := ⟨0, 0, 0, 0x3001⟩
    let fb : E := ⟨0, 0, 0, 0x3041⟩
    let at_ (sig : Nat) : State := grove.setDie 0 { grove.die 0 with partials := [⟨5, 0, 1, 9, sig, [7, 8]⟩] }
    let s := running (at_ 1) 1 .coll x
    let v := running (at_ 0x41) 1 .coll x
    let w := running grove 1 .coll x
    let y := { x with stage := 1, acc := [1, 2] }
    let u := running (at_ 1) 1 .coll y
    let b (s : State) := s.startTimer.asCmd 1 .coll x
    let t := (s.core 1).treeAt 3
    let ld (s : State) := (b s).loadPad 1 .xs 1 0 [((x.sa.toNat : Int), 8)]
    let own (s : State) := wordsOf 2 (accessBytes (ld s))
    let p (s : State) := (accessState s (ld s)).progress 1 (own s) 0
    let q (s : State) := State.combine 1 t 0 0 [1] (p s) (own s)
    let z (s : State) := ((q s).1.progress 1 (q s).2.1 1).storePad 1 1 0 [((x.sb.toNat : Int), 4 * (q s).2.1.length)] (bytesOf (q s).2.1)
    let qu := State.combine 1 t 0 0 [1] (u.asCmd 1 .coll y) y.acc
    let zu := (qu.1.progress 1 qu.2.1 1).storePad 1 1 0 [((x.sb.toNat : Int), 4 * qu.2.1.length)] (bytesOf qu.2.1)
    (HeadRuns s.startTimer 1 .coll x ∧ x.failing = false ∧ x.stage = 0 ∧ t.loaded = true ∧ t.fails = [] ∧ HeadRuns v.startTimer 1 .coll x ∧ (v.core 1).treeAt 3 = t ∧ HeadRuns w.startTimer 1 .coll x ∧ (w.core 1).treeAt 3 = t ∧ t.epoch = 9) ∧
    (memParent t.desc t.member = 0xFF ∧ x.sa.toNat % 4 = 0 ∧ x.sb.toNat % 4 = 0 ∧ (b s).padOk 1 1 x.sa.toNat 8 = true ∧ (b s).padOk 1 1 x.sb.toNat 8 = true ∧ (b v).padOk 1 1 x.sa.toNat 8 = true ∧ (b v).padOk 1 1 x.sb.toNat 8 = true ∧ (b w).padOk 1 1 x.sa.toNat 8 = true ∧ (b w).padOk 1 1 x.sb.toNat 8 = true) ∧
    (f.of 12 2 = 3 ∧ fb.of 12 2 = 3 ∧ f.of 0 6 + 1 = 2 ∧ fb.of 0 6 + 1 = 2 ∧ f.of 6 1 = 0 ∧ fb.of 6 1 = 1 ∧ f.of 9 3 = 0 ∧ f.of 7 2 = 0 ∧ fb.of 9 3 = 0 ∧ fb.of 7 2 = 0 ∧ memKids t.desc t.member = [1]) ∧
    (accessOk (ld s) = true ∧ (p s).differing 1 t 9 = 0 ∧ (q s).2.2 = [] ∧ accessOk (z s) = true ∧ accessOk (ld v) = true ∧ (p v).differing 1 t 9 = 0 ∧ (q v).2.2 = [] ∧ accessOk (z v) = true) ∧
    (accessOk (ld w) = true ∧ (p w).differing 1 t 9 = 0 ∧ (q w).2.2 = [1]) ∧
    (HeadRuns u.startTimer 1 .coll y ∧ y.failing = false ∧ y.stage = 1 ∧ (u.core 1).treeAt 3 = t ∧ u.startTimer = u ∧ (u.asCmd 1 .coll y).differing 1 t 9 = 0 ∧ qu.2.2 = [] ∧ accessOk zu = true) := by
  and_intros <;> decide +kernel

/-- O48, CollectivesComplete: the root, before and after it has read, and the other member; a command that has failed. -/
theorem witness_Broadcasts :
    let x := { cmd (.xbcast ⟨0, 0, 0, 0⟩) 0x40 0x80 with timer := 1 }
    let f : E := ⟨0, 0, 0, 0x3001⟩
    let g (y : Cmd) : State := running (grove.setDie 0 { grove.die 0 with downs := [⟨5, 1, 9, 0x1001, [7, 8]⟩] }) 63 .coll y
    let s := running grove 1 .coll x
    let y := { x with stage := 1, acc := [3, 4] }
    let s5 := running grove 1 .coll y
    let v := g x
    let v5 := g y
    let b := s.startTimer.asCmd 1 .coll x
    let a := v.startTimer.asCmd 63 .coll x
    let a5 := v5.startTimer.asCmd 63 .coll y
    let tr := (s.core 1).treeAt 3
    let tl := (v.core 63).treeAt 3
    let ld := b.loadPad 1 .xs 1 0 [((x.sa.toNat : Int), 8)]
    let ws := wordsOf 2 (accessBytes ld)
    let s1 := (accessState b ld).progress 1 ws 0
    let z := s1.storePad 1 1 0 [((x.sb.toNat : Int), 4 * ws.length)] (bytesOf ws)
    let z5 := (s5.startTimer.asCmd 1 .coll y).storePad 1 1 0 [((x.sb.toNat : Int), 8)] (bytesOf [3, 4])
    let dn := (a.progress 1 [] 0).takeDown tl
    let d5 := a5.takeDown tl
    let zd (dn : Option (Down × State)) := match dn with | some r => r.2.storePad 63 63 0 [((x.sb.toNat : Int), 4 * r.1.vals.length)] (bytesOf r.1.vals) | none => .hold a
    let k := { x with failing := true, acc := wordsOf 10 treeDesc }
    let fl := running (grove.setDie 0 { grove.die 0 with badLoads := [⟨0, 0x81, [1, 63], 0x24, 0⟩] }) 1 .coll k
    (HeadRuns s.startTimer 1 .coll x ∧ x.failing = false ∧ x.stage = 0 ∧ tr.loaded = true ∧ tr.fails = [] ∧ f.of 12 2 = 3 ∧ f.of 0 6 + 1 = 2) ∧
    (memParent tr.desc tr.member = 0xFF ∧ x.sa.toNat % 4 = 0 ∧ x.sb.toNat % 4 = 0 ∧ b.padOk 1 1 x.sa.toNat 8 = true ∧ b.padOk 1 1 x.sb.toNat 8 = true ∧ accessOk ld = true ∧ s1.differing 1 tr tr.epoch = 0 ∧ accessOk z = true) ∧
    (HeadRuns s5.startTimer 1 .coll y ∧ y.failing = false ∧ y.stage = 1 ∧ (s5.core 1).treeAt 3 = tr ∧ (s5.startTimer.asCmd 1 .coll y).differing 1 tr tr.epoch = 0 ∧ accessOk z5 = true) ∧
    (HeadRuns v.startTimer 63 .coll x ∧ tl.loaded = true ∧ tl.fails = [] ∧ memParent tl.desc tl.member ≠ 0xFF ∧ a.padOk 63 63 x.sb.toNat 8 = true ∧ (a.progress 1 [] 0).differing 63 tl tl.epoch = 0 ∧ dn.isSome = true ∧ accessOk (zd dn) = true) ∧
    (HeadRuns v5.startTimer 63 .coll y ∧ (v5.core 63).treeAt 3 = tl ∧ a5.differing 63 tl tl.epoch = 0 ∧ d5.isSome = true ∧ accessOk (zd d5) = true) ∧
    (HeadRuns fl.startTimer 1 .coll k ∧ k.failing = true ∧ ((fl.core 1).treeAt 3).loaded = true) := by
  and_intros <;> decide +kernel

/-- O48, CollectivesComplete: the last member of a load comes; time-outs of an epoch and of a load; the tree's state. -/
theorem witness_TreeLoads :
    let x := { cmd (.xtree ⟨0, 0, 0, 0x3000⟩) 0x100 with timer := 1 }
    let w := { x with stage := 1, acc := wordsOf 10 treeDesc, ord := 8 }
    let bare (k : Core) : Core := { k with trees := Vector.replicate 4 Tree.reset }
    let g := ((grove.setCore 1 (bare (grove.core 1))).setCore 63 { bare (grove.core 63) with collQ := [w] })
    let s := running g 1 .coll x
    let r := running g 1 .coll { w with ord := 7 }
    let b := s.startTimer.asCmd 1 .coll x
    let br := r.startTimer.asCmd 1 .coll { w with ord := 7 }
    let len := 8 + 16 * ((s.core 1).spad.read x.sa.toNat).toNat
    let ld := b.loadPad 1 .xs 1 0 [((x.sa.toNat : Int), len)]
    let s2 := (accessState b ld).progress 1 (wordsOf (len / 4) (accessBytes ld)) 0
    let late := { cmd (.xred ⟨0, 0, 0, 0x3001⟩) 0x40 0x80 with timer := 0x10002, limit := 0x10000 }
    let t := event (grove.setCore 63 ((grove.core 63).setCmds .coll [late])) 63
    let lw := { w with timer := 0x10002, limit := 0x10000 }
    let tw := event ((grove.setCore 1 (bare (grove.core 1))).setCore 63 { bare (grove.core 63) with collQ := [lw] }) 63
    let tr := (t.core 63).treeAt 3
    let lx := { x with timer := 0x10002, limit := 0x10000 }
    let tx := event (grove.setCore 1 { bare (grove.core 1) with collQ := [lx] }) 1
    let fx := running g 1 .coll { x with failing := true }
    let fw := running g 1 .coll { w with ord := 7, failing := true }
    let v := { grove with ctx := { grove.ctx with core := 63 } }
    (HeadRuns s.startTimer 1 .coll x ∧ x.failing = false ∧ x.stage = 0 ∧ x.sa.toNat % 8 = 0 ∧ b.padOk 1 1 x.sa.toNat 8 = true ∧ b.padOk 1 1 x.sa.toNat len = true ∧ accessOk ld = true ∧ descOk (accessBytes ld) (localOf 1) = true) ∧
    ((∀ i ∈ List.range 4, ((s.core 1).treeAt i).loaded = false) ∧ ((s.die 0).badTree (s.core 1).asid (descTag (accessBytes ld)) 1).isNone = true ∧ (∀ m ∈ memberCores (accessBytes ld) 1, s2.loading m s2.me.asid (descTag (accessBytes ld)) ≠ none) ∧ s2.otherBytes 1 (accessBytes ld) = 0 ∧ s2.tagHeld 1 s2.me.asid 0x81 (memberCores treeDesc 1) = false) ∧
    (HeadRuns r.startTimer 1 .coll { w with ord := 7 } ∧ w.failing = false ∧ w.stage = 1 ∧ descOf w = treeDesc ∧ (∀ m ∈ memberCores treeDesc 1, br.loading m br.me.asid 0x81 ≠ none) ∧ br.otherBytes 1 treeDesc = 0 ∧ br.tagHeld 1 br.me.asid 0x81 (memberCores treeDesc 1) = false) ∧
    (t.ctx.ev.unit = (63 : CoreId).val ∧ (t.core 63).collQ = [late] ∧ late.limit ≠ 0 ∧ late.limit + 1 < late.timer ∧ late.trapped = false ∧ late.failing = false ∧ redOf late = some (3, 1) ∧ tr.loaded = true) ∧
    (tw.ctx.ev.unit = (63 : CoreId).val ∧ (tw.core 63).collQ = [lw] ∧ lw.limit ≠ 0 ∧ lw.limit + 1 < lw.timer ∧ lw.trapped = false ∧ lw.failing = false ∧ redOf lw = none ∧ descOk ((tw.core 63).treeDesc lw) (localOf 63) = true) ∧
    (tx.ctx.ev.unit = (1 : CoreId).val ∧ (tx.core 1).collQ = [lx] ∧ lx.limit + 1 < lx.timer ∧ lx.trapped = false ∧ lx.failing = false ∧ redOf lx = none ∧ lx.stage = 0 ∧ descOk ((tx.core 1).treeDesc lx) (localOf 1) = true) ∧
    (HeadRuns fx.startTimer 1 .coll { x with failing := true } ∧ x.acc = [] ∧ HeadRuns fw.startTimer 1 .coll { w with ord := 7, failing := true } ∧ w.acc ≠ []) ∧
    (v.guard = true ∧ v.me.collQ = [] ∧ (⟨0, 0, 9, 0x3000⟩ : E).of 0 1 = 0 ∧ (⟨0, 0, 9, 0x3001⟩ : E).of 0 1 = 1) := by
  and_intros <;> decide +kernel

/-- O49, LinkCommandsAndSends: a send of memory at a peer's last post, one of the scratchpad, a compressed one; nothing to send. -/
theorem witness_LinkSends :
    let pr : Peer := ⟨0, 15, true, 11, 7, true, 2⟩
    let s0 := onDie (stream 1 .xs [] (withBytes 0x50000 [0, 0, 0x80, 0x3F, 0, 0, 0, 0x40])) fun d => { d with peers := [pr] }
    let s1 := onCore { s0 with links := s0.links.set 11 { Link.reset with up := true, chip := 7 } } fun k => { k with split := 6, spad := [(0x42, 0x80), (0x43, 0x3F)] }
    let x := cmd (.lsend ⟨0, 0, 0, 0⟩) 0x50000 0x0000010000000008 15
    let y := cmd (.lsend ⟨0, 0, 0, 0⟩) 0x40 0x0000010000000008 15
    let z := cmd (.lsend ⟨0, 0, 0, 0⟩) 0x50000 0x0000010000000008 15 [0x60000]
    let s := running s1 1 .link x
    let t := running s1 1 .link y
    let u := running s1 1 .link z
    let b (s : State) (x : Cmd) := (s.asCmd 1 .link x).drainStream 1 .xs
    let so := (b s x).sourceCheck false x.sa.toNat 8
    let q := cmd (.lsend ⟨0, 0, 0, 0⟩) 0x40 0x0000010000000008 15 [0x60000]
    let up := running s1 1 .link q
    let co (s : State) (x : Cmd) (pad : Bool) : Bool × State × List Byte :=
  let b := b s x
  let w : Walker := .strm 1 .xs
  let r0 := b.sourceCheck pad x.sa.toNat 8
  let r1 := r0.1.xlate w 0 true .atomic 0x60000 8
  let ps := resultOf [] r0
  let rs := resultOf [] r1
  let s2 := (r1.1.mark w .load ps).mark w .atomic rs
  let m := if pad then (s2, b.me.padRead x.sa.toNat 8) else State.readSeen b.me.jobid ps s2
  let c3 := m.1.consume 1 .xs false (if pad then 0 else 2) x.pc (if pad then b.me.padBad 1 x.sa.toNat 8 else s2.badLines ps)
  let c4 := c3.1.consume 1 .xs false 2 x.pc (s2.badLines rs)
  let out := compressAll (wordsAt (if pad then List.replicate 2 none else wordPlaces ps) m.2) (wordsAt (wordPlaces rs) (s2.readClean rs)) []
  (resultOk r0 && resultOk r1 && c3.2.isNone && c4.2.isNone, State.writePieces b.me.jobid c4.1 rs out.2, out.1)
    (HeadRuns s 1 .link x ∧ HeadRuns t 1 .link y ∧ HeadRuns u 1 .link z ∧ (s.strm 1 .xs).faults.filter linkFault = [] ∧ (u.strm 1 .xs).faults.filter linkFault = [] ∧ (t.strm 1 .xs).faults.filter linkFault = []) ∧
    ((⟨0, 0, 0, 0x3F⟩ : E).of 6 1 = 0 ∧ (⟨0, 0, 0, 0x3F⟩ : E).of 7 1 = 0 ∧ (match (b s x).peerOf x 63 false with | .ok _ => true | .error _ => false) = true ∧ (match (b t y).peerOf y 63 false with | .ok _ => true | .error _ => false) = true ∧ (match (b u z).peerOf z 63 false with | .ok _ => true | .error _ => false) = true) ∧
    (x.sa.toNat % 8 = 0 ∧ (x.sb.extractLsb' 0 32).toNat % 8 = 0 ∧ (x.sb.extractLsb' 32 32).toNat % 8 = 0 ∧ resultOk so = true ∧ (b t y).me.padHeld [((y.sa.toNat : Int), 8)] = false ∧ (b t y).padOk 1 1 y.sa.toNat 8 = true) ∧
    (z.sa.toNat % 4 = 0 ∧ q.sa.toNat % 4 = 0 ∧ ((z.more[0]?.getD 0 : Word)).toNat = 0x60000 ∧ (co u z false).1 = true ∧ (co up q true).1 = true) ∧
    (HeadRuns up 1 .link q ∧ (up.strm 1 .xs).faults.filter linkFault = [] ∧ (b up q).me.padHeld [((q.sa.toNat : Int), 8)] = false ∧ (match (b up q).peerOf q 63 false with | .ok _ => true | .error _ => false) = true ∧ (⟨0, 0, 0, 0x7F⟩ : E).of 6 1 = 1 ∧ (⟨0, 0, 0, 0xFF⟩ : E).of 7 1 = 1) := by
  and_intros <;> decide +kernel

/-- O49, LinkCommandsAndSends: LARM and its cancel on the last counter; LRECV that closes and one that opens. -/
theorem witness_TriggersAndPosts :
    let pr : Peer := ⟨0, 15, true, 11, 7, true, 2⟩
    let gr : Grant := ⟨0, 256, 2, 0⟩
    let x := cmd (.larm ⟨0, 0, 0, 0⟩) 0x50000 0x0000010000000008 0x500000FF0F
    let o2 := cmd (.lrecv ⟨0, 0, 0, 0⟩) 0x50080 0x1FF00000100
    let cl := cmd (.lrecv ⟨0, 0, 0, 0⟩) 0x50080 0
    let s0 := onDie (stream 1 .xs) fun d => { d with peers := [pr], grants := [gr] }
    let s := running s0 1 .link x
    let t := running s0 1 .link o2
    let u := running s0 1 .link cl
    let b (s : State) (x : Cmd) := (s.asCmd 1 .link x).drainStream 1 .xs
    let so := (b s x).sourceOk x.sa.toNat 8
    let xl := (b t o2).xlate (.strm 1 .xs) 0 true .store o2.sa.toNat 256
    (HeadRuns s 1 .link x ∧ HeadRuns t 1 .link o2 ∧ HeadRuns u 1 .link cl ∧ (s.strm 1 .xs).faults.filter linkFault = [] ∧ (t.strm 1 .xs).faults.filter linkFault = [] ∧ (u.strm 1 .xs).faults.filter linkFault = []) ∧
    ((match (b s x).peerOf x 63 true with | .ok _ => true | .error _ => false) = true ∧ x.sa.toNat % 8 = 0 ∧ (x.sb.extractLsb' 0 32).toNat % 8 = 0 ∧ (x.sb.extractLsb' 32 32).toNat % 8 = 0 ∧ resultOk so = true ∧ (x.sd.extractLsb' 8 8).toNat < ((so.1.die 0).grant 0).nctr ∧ (so.1.die 0).triggers.length < 1024 ∧ ((so.1.die 0).triggers.filter fun t => t.asid == 0).length < ((so.1.die 0).grant 0).trigq) ∧
    ((cl.sb.extractLsb' 0 32).toNat = 0 ∧ (o2.sb.extractLsb' 0 32).toNat = 256 ∧ (o2.sb.extractLsb' 32 8).toNat = 255 ∧ (o2.sb.extractLsb' 40 4).toNat = 1 ∧ (t.die 0).post 0 63 = none ∧ o2.sa.toNat % 128 = 0 ∧ 255 < (((b t o2).die 0).grant 0).nctr ∧ resultOk xl = true) := by
  and_intros <;> decide +kernel

/-- O49, LinkCommandsAndSends: over a link that is up and over one that is down. -/
theorem witness_SendEnters :
    let s : State := { stream 1 .xs with links := State.reset.links.set 11 { Link.reset with up := true } }
    let x : Send := ⟨0, 11, 1, 5, 0, 0x40000, 0, ⟨0, 15, true, 11, 7, true, 2⟩, 63, false, false, 0x50000, none, 256, 8, 0, 0, some 3⟩
    let e : Send := { x with len := 0 }
    let y : Send := { x with peer := { x.peer with link := 0 } }
    (x.len ≠ 0 ∧ (s.link x.peer.link).up = true ∧ e.len = 0 ∧ y.len ≠ 0 ∧ (s.link y.peer.link).up = false) := by
  and_intros <;> decide +kernel

/-- O50, LinkInstructionsComplete: the last granted counter and the first not granted; links, posts and triggers. -/
theorem witness_LinkInstructions :
    let gr : Grant := ⟨0, 256, 2, 0⟩
    let s := onDie { stream 1 .xs [(1, 7), (2, 255), (3, 11), (4, 63), (5, 0xFFFFFFFF)] with gsc := 7 } fun d => { d with grants := [gr], ctrs := [⟨0, 255, 7⟩], posts := [⟨0, 63, 0x50080, 256, 256, 255, []⟩] }
    let z := onDie s fun d => { d with grants := [] }
    let gw := onStrm s fun t => { t with wait := some ⟨.link, 255, 9, 0, 0, some 9, 0, true, 0, 0⟩ }
    (s.guard = true ∧ s.me.linkQ = [] ∧ s.str.faults.filter linkFault = [] ∧ (s.getS 2).toNat % 256 < ((s.die (dieOf s.ctx.core)).grant s.me.asid).nctr ∧ (s.getS 1).toNat % 2 ^ 32 ≤ (s.die (dieOf s.ctx.core)).ctr s.me.asid ((s.getS 2).toNat % 256)) ∧
    (s.granted .link = none ∧ gw.guard = true ∧ gw.me.linkQ = [] ∧ gw.str.faults.filter linkFault = [] ∧ gw.granted .link = some 9) ∧
    (z.guard = true ∧ z.me.linkQ = [] ∧ z.str.faults.filter linkFault = [] ∧ ((z.die (dieOf z.ctx.core)).grant z.me.asid).nctr ≤ (z.getS 0).toNat % 256) ∧
    ((s.getS 1).toNat ≤ s.gsc.toNat ∧ (s.getS 3).toNat ≤ 11 ∧ (s.getS 4).toNat ≤ 63 ∧ (⟨0, 3, 9, 0⟩ : E).of 0 2 = 0 ∧ (⟨0, 4, 9, 1⟩ : E).of 0 2 = 1 ∧ (⟨0, 4, 9, 2⟩ : E).of 0 2 = 2) := by
  and_intros <;> decide +kernel

/-- O51, LinkEventsComplete: a message at a closed post and at an open one; accesses of a peer. -/
theorem witness_LinkMessages :
    let m : LinkMsg := ⟨7, 2, 0, 0, 63, 0, [1, 2, 3, 4, 5, 6, 7, 8], 0, 8⟩
    let pa : PeerAcc := ⟨7, 2, 0, 0, 0x50000, 8, none, none⟩
    let dd (posts : List Post) (d : Die) : Die := { d with peers := [⟨0, 15, true, 11, 7, true, 2⟩], grants := [⟨0, 256, 2, 0⟩], posts := posts }
    let s0 := onDie (stream 1 .xs) (dd [])
    let o0 := onDie (stream 1 .xs) (dd [⟨0, 63, 0x50080, 256, 128, 255, []⟩])
    let s := event s0 11 0 0 0 false (.msg m)
    let o := event o0 11 0 0 0 false (.msg m)
    let r := event s0 11 0 0 0 false (.peer pa)
    let w := event s0 11 0 0 0 false (.peer { pa with write := some [9, 8, 7, 6, 5, 4, 3, 2] })
    let n := event s0 11 0 0 0 false (.peer { pa with chip := 8 })
    let mid := s.setLink 11 { s.link 11 with arrived := [m] }
    let ho := o.setLink 11 { o.link 11 with arrived := [m] }
    let re := o0.setLink 11 { o0.link 11 with refused := some { m with off := 0, extLen := 16 } }
    let rf := event re 11 0 0 0 false (.msg { m with off := 8, extLen := 16 })
    let bad := event s0 11 0 0 0 false (.msg { m with chip := 8 })
    let hb := bad.setLink 11 { bad.link 11 with arrived := [{ m with chip := 8 }] }
    let pw : PeerAcc := { pa with atomic := some (0x50, 4, 5, 0) }
    let pc : PeerAcc := { pa with atomic := some (0x58, 4, 5, 9) }
    let aw := event s0 11 0 0 0 false (.peer pw)
    let ac := event s0 11 0 0 0 false (.peer pc)
    let ap := event { s0 with poison := [0x50000] } 11 0 0 0 false (.peer pw)
    let xa (s : State) := s.xlate (.die 0) 0 true .atomic 0x50000 8
    let xr := r.xlate (.die 0) 0 true .load 0x50000 8
    let xw := w.xlate (.die 0) 0 true .store 0x50000 8
    (s.ctx.ev.unit = 11 ∧ s.ctx.ev.data = .msg m ∧ (s.link 11).arrived = [] ∧ (mid.perform 11 m).isNone = true ∧ o.ctx.ev.data = .msg m ∧ (o.link 11).arrived = [] ∧ ((ho.perform 11 m).map (·.2)) = some 0) ∧
    (r.ctx.ev.data = .peer pa ∧ (r.die 0).accepts 11 7 2 0 = true ∧ resultOk xr = true ∧ w.ctx.ev.data = .peer { pa with write := some [9, 8, 7, 6, 5, 4, 3, 2] } ∧ (w.die 0).accepts 11 7 2 0 = true ∧ resultOk xw = true ∧ n.ctx.ev.data = .peer { pa with chip := 8 } ∧ (n.die 0).accepts 11 8 2 0 = false) ∧
    ((s.link 11).refused = none ∧ (rf.link 11).refused.any (fun x => sameSend x { m with off := 8, extLen := 16 }) = true ∧ (rf.link 11).arrived = [] ∧ ((hb.perform 11 { m with chip := 8 }).map (·.2)) = some 3 ∧ (bad.link 11).arrived = []) ∧
    ((aw.die 0).accepts 11 7 2 0 = true ∧ resultOk (xa aw) = true ∧ resultOk (xa ac) = true ∧ resultOk (xa ap) = true ∧ (xa aw).1.badLines (resultOf [] (xa aw)) = [] ∧ (xa ap).1.badLines (resultOf [] (xa ap)) ≠ []) := by
  and_intros <;> decide +kernel

/-- O51, LinkEventsComplete: the last message of a send acknowledged; a link with a message held back and no sends. -/
theorem witness_LinkEvents :
    let m : LinkMsg := ⟨7, 2, 0, 0, 63, 0, [1, 2, 3, 4, 5, 6, 7, 8], 0, 8⟩
    let x : Send := ⟨4, 11, 1, 5, 0, 0x40000, 0, ⟨0, 15, true, 11, 7, true, 2⟩, 63, false, false, 0x50000, none, 256, 8, 8, 0, some 3⟩
    let k : Link := { Link.reset with up := true, wire := [m], unacked := 5, idle := 3 }
    let s := event { stream 1 .xs with links := State.reset.links.set 11 k, sends := [x] } 11 0 0 1
    let fl := event { stream 1 .xs with links := State.reset.links.set 11 k, sends := [x] } 11 0 0 3 true
    let rj := event { stream 1 .xs with links := State.reset.links.set 11 k, sends := [x] } 11 0 4
    let nd := event { State.reset with links := State.reset.links.set 11 k } 11 0 9
    let d := event { stream 1 .xs with links := State.reset.links.set 11 { k with arrived := [m], replays := 0xFFFFFFFF }, gsc := 5 } 11 0 9 0 true
    (s.ctx.ev.unit = 11 ∧ s.ctx.ev.val = 0 ∧ s.ctx.ev.val2 = 1 ∧ s.sends.find? (fun y => y.link == 11) = some x ∧ s.sendOf x.ord = some x ∧ x.link = 11 ∧ x.sent = x.len ∧ (s.link 11).wire = [m] ∧ x.acked + m.bytes.length = x.len) ∧
    (d.ctx.ev.unit = 11 ∧ (∀ y ∈ d.sends, y.link ≠ 11) ∧ (d.link 11).arrived = [m]) ∧
    (x.acked < x.len ∧ s.ctx.ev.flag = false ∧ fl.ctx.ev.flag = true ∧ fl.ctx.ev.unit = 11 ∧ rj.ctx.ev.flag = false ∧ rj.ctx.ev.val = 4 ∧ rj.sends.find? (fun y => y.link == 11) = some x ∧ rj.sendOf x.ord = some x ∧ x.sent ≠ 0) ∧
    (d.inDomain = true ∧ d.ctx.ev.flag = true ∧ s.inDomain = true ∧ s.ctx.ev.flag = false ∧ nd.inDomain = false) := by
  and_intros <;> decide +kernel

/-- O52, WindowWritesComplete: the first and the last queue, disabled and enabled, each write at the edge of what it admits. -/
theorem witness_WindowQueues :
    let q : CQueue := { CQueue.reset with src := true, head := 0xFFFFFFF8 }
    let en : CQueue := { q with en := true }
    let at_ (q : CQueue) (v : Nat) (off : Nat := 0) : State := event (State.reset.setDie 1 ((State.reset.die 1).setQueue 63 q)) 1 63 v off
    let d (s : State) := s.die 1
    let t := at_ q 8
    let f := at_ q 9
    let a := at_ q (2 ^ 13 - 1) 8
    let b := at_ q (2 ^ 48 - 32) 16
    let c := at_ q (2 ^ 48 - 8) 24
    let e := at_ q (2 ^ 64 - 1) 48
    let m := at_ q 16 16
    let n := at_ en 32 16
    let o := at_ en (CQueue.ctl q).toNat 0
    let w40 := at_ en 8 40
    (t.ctx.ev.unit = (1 : Fin 2).val ∧ t.ctx.ev.sub = 63 ∧ t.ctx.ev.val = 8 ∧ (d t).queue 63 = q ∧ q.src = true ∧ (BitVec.ofNat 32 8 - q.head).toNat ≤ 2 ^ q.log2cap.toNat) ∧
    (f.ctx.ev.val = 9 ∧ (d f).queue 63 = q ∧ 2 ^ q.log2cap.toNat < (BitVec.ofNat 32 9 - q.head).toNat) ∧
    (w40.ctx.ev.unit = (1 : Fin 2).val ∧ w40.ctx.ev.val2 = 40) ∧
    (q.en = false ∧ a.ctx.ev.val2 = 8 ∧ a.ctx.ev.val < 2 ^ 13 ∧ b.ctx.ev.val2 = 16 ∧ b.ctx.ev.val < 2 ^ 48 ∧ b.ctx.ev.val % 32 = 0 ∧ c.ctx.ev.val2 = 24 ∧ c.ctx.ev.val < 2 ^ 48 ∧ c.ctx.ev.val % 8 = 0 ∧ e.ctx.ev.val2 = 48 ∧ e.ctx.ev.val < 2 ^ 64 ∧ m.ctx.ev.val2 = 16 ∧ m.ctx.ev.val % 32 ≠ 0) ∧
    (n.ctx.ev.val2 = 16 ∧ (d n).queue 63 = en ∧ en.en = true ∧ (d o).queue 63 = en ∧ o.ctx.ev.val = (CQueue.ctl { en with en := false }).toNat ∧ o.ctx.ev.unit = 1 ∧ n.ctx.ev.unit = 1) := by
  and_intros <;> decide +kernel

/-- O52, WindowWritesComplete: the other registers; values at their edges. -/
theorem witness_WindowRegisters :
    let s (v : Nat) (n : Nat := 0) : State := event (State.reset.setDie 1 { State.reset.die 1 with hostirq := 7, asidsel := 0x1FFF, peersel := 15 }) 1 n v 8
    let z := event (s 0) 1 0x21 0 8
    let y := event (s 0) 1 0x20 0 4
    let w := event (s 0) 1 0 0 9
    let pv := 2 ^ 22 * 0x1FFF + 2 ^ 21 + 2 ^ 5 * 0xFFFF + 2 * 11 + 1
    let nv := 256 + 256 * 65536
    ((s 0).ctx.ev.unit = (1 : Fin 2).val ∧ (s pv).ctx.ev.val = pv ∧ pv < 2 ^ 35 ∧ pv / 2 % 16 ≤ 11 ∧ nv % 2 ^ 64 = nv % 512 + nv / 65536 % 512 * 65536 ∧ nv % 512 ≤ 256 ∧ nv / 65536 % 512 ≤ 256) ∧
    ((2 ^ 35 ≤ 2 ^ 35 ∧ 2 ^ 35 < 2 ^ 64) ∧ 11 < 24 / 2 % 16 ∧ 256 < 257 % 512 ∧ 512 ≠ 512 % 512 + 512 / 65536 % 512 * 65536) ∧
    ((s 0).ctx.ev.val2 = 8 ∧ z.ctx.ev.val2 = 8 ∧ z.ctx.ev.sub % 8 ≠ 0 ∧ y.ctx.ev.val2 ≠ 8 ∧ w.ctx.ev.unit = (1 : Fin 2).val ∧ w.ctx.ev.sub < 64 ∧ w.ctx.ev.val2 % 8 ≠ 0) ∧
    ((s 0 0x20).ctx.ev.sub = 0x20 ∧ (s 0 0x40).ctx.ev.sub = 0x40 ∧ (s 0 0x48).ctx.ev.sub = 0x48 ∧ (s 0 0x60).ctx.ev.sub = 0x60 ∧ (s 0 0x68).ctx.ev.sub = 0x68) := by
  and_intros <;> decide +kernel

/-- O53, HostAccessCompletes: the last bytes of layer 0 written and read; an address without memory. -/
theorem witness_HostAccess :
    let s0 := stream 1 .cs
    let w := event s0 0 0 0xBFFFFFFFC 4 false (.bytes [1, 2, 3, 4])
    let e := event s0 0 0 0x1800000000 4 false (.bytes [1, 2, 3, 4])
    let r := event s0 0 0 0x10000 8 false .none
    let w2 := event (s0.setDie 0 { s0.die 0 with layerOn := true }) 0 0 0xBFFFFFFFC 8 false (.bytes [1, 2, 3, 4, 5, 6, 7, 8])
    let wr := event s0 1 0x20 0 0 true (.bytes [5, 0, 0, 0, 0, 0, 0, 0])
    let rr := event s0 1 0x20 0 8 true
    let ru := event s0 1 0x21 0 8 true
    (w.ctx.ev.data = .bytes [1, 2, 3, 4] ∧ w.physOk 0xBFFFFFFFC = true ∧ w.physOk (0xBFFFFFFFC + 4 - 1) = true ∧ sameRange 0xBFFFFFFFC (0xBFFFFFFFC + 4 - 1) = true ∧ w2.physOk 0xBFFFFFFFC = true ∧ w2.physOk (0xBFFFFFFFC + 8 - 1) = true ∧ sameRange 0xBFFFFFFFC (0xBFFFFFFFC + 8 - 1) = true ∧ tierOf 0xBFFFFFFFC ≠ tierOf (0xBFFFFFFFC + 8 - 1) ∧ e.physOk 0x1800000000 = false ∧ e.ctx.ev.data = .bytes [1, 2, 3, 4]) ∧
    (r.ctx.ev.data = .none ∧ r.ctx.ev.val2 ≠ 0 ∧ r.physOk 0x10000 = true ∧ r.physOk (0x10000 + 8 - 1) = true ∧ sameRange 0x10000 (0x10000 + 8 - 1) = true ∧ (∀ l ∈ linesOf 0x10000 8, r.poison.contains l = false) ∧ w.mem.wf = true) ∧
    (wr.ctx.ev.flag = true ∧ wr.ctx.ev.unit = (1 : Fin 2).val ∧ wr.ctx.ev.data = .bytes [5, 0, 0, 0, 0, 0, 0, 0] ∧ rr.ctx.ev.flag = true ∧ rr.ctx.ev.data = .none ∧ ru.ctx.ev.sub % 8 ≠ 0 ∧ w.ctx.ev.flag = false) := by
  and_intros <;> decide +kernel

/-- O54, BringUpCompletes: each step of a die's bring-up, and its failures. -/
theorem witness_BringUp :
    let at_ (x : Die) (flag : Bool := false) (data : EvData := .none) : State := { event (State.reset.setDie 1 x) 1 0 0xFEED0000 0 flag data with mem := [(0x100005, 7), (0x2000000000, 7), (0x2C00000000, 7), (0x110000000000, 7)] }
    let fw : FirmwareImage := ⟨1, true, true, 0x10002⟩
    let cf : ConfigImage := ⟨2, true, true, [1], [2], 64, 77, [3], true⟩
    let d0 := (State.reset.die 1).setQueue 63 { CQueue.reset with head := 4, tail := 6 }
    let d1 : Die := { d0 with bootStep := 1 }
    let d2 : Die := { d0 with bootStep := 2 }
    let d5 : Die := { d0 with bootStep := 5, state := 1 }
    let on : Die := { d0 with state := 2, layerOn := true, layerReq := false }
    let off : Die := { d0 with state := 2, layerReq := true }
    let job : Core := { Core.reset with active := true, jobid := 0x10000000009, dispatched := 64, queue := 63, slot := 4, saddr := 0x78020 }
    let jr := event ((State.setDie { State.reset with mem := tables } 0 { State.reset.die 0 with state := 2 }).setDie 1 { on with ptroot := 0x10000 } |>.setCore 64 job) 1
    ((at_ d0).ctx.ev.unit = (1 : Fin 2).val ∧ d0.bootStep = 0 ∧ (at_ d1 false (.firmware fw)).ctx.ev.data = .firmware fw ∧ d1.state = 0 ∧ d1.bootStep = 1 ∧ d1.bootCode = 0 ∧ fw.rsaOk = true ∧ fw.slhOk = true ∧ ({ fw with slhOk := false } : FirmwareImage).slhOk = false) ∧
    ((at_ d2 false (.config cf)).ctx.ev.data = .config cf ∧ d2.state = 0 ∧ d2.bootStep = 2 ∧ d2.bootCode = 0 ∧ cf.rsaOk = true ∧ cf.slhOk = true ∧ cf.trained = true ∧ ({ cf with rsaOk := false } : ConfigImage).rsaOk = false ∧ ({ cf with trained := false } : ConfigImage).trained = false) ∧
    ((at_ d0).mem.wf = true ∧ d5.state = 1 ∧ (at_ d5).ctx.ev.flag = false ∧ (at_ d5 true).ctx.ev.flag = true ∧ off.state = 2 ∧ off.layerOn = false ∧ off.layerReq = true) ∧
    ((jr.core 64).active = true ∧ dieOf 64 = 1 ∧ isSystem 64 = false ∧ (∀ c : CoreId, c ≠ 64 → dieOf c = 1 → isSystem c = false → (jr.core c).active = false) ∧ jr.saved = [] ∧ jr.sends = []) := by
  and_intros <;> decide +kernel

/-- O56, SystemEventsComplete: a request at its limit, mismatches, a lane fault, errors of the host and of each memory. -/
theorem witness_SystemEvents :
    let s0 := onDie (stream 127 .cs) fun d => { d with plim := 4 }
    let on (f : Core → Core) (val : Nat := 0) (flag : Bool := false) (data : EvData := .none) : State := event (onCore s0 f) 127 0 val 0 flag data
    let q : Request := ⟨none, 4, 0, 0, false⟩
    let p := on fun k => { k with request := some q }
    let qo : Request := ⟨some 63, 4, 0, 7, false⟩
    let po := on fun k => { k with request := some qo }
    let m := on id 0 true
    let c := on fun k => { k with stopped := some (s0.mkRecord 127 .cs { cause := 0x41 }), checkpoint := { k.checkpoint with used := true } }
    let v := on id 64 false
    let h : HostStore := ⟨0x1038, [1, 2, 3, 4, 5, 6, 7, 8], .as, 0x40000, 3⟩
    let b := on (fun k => { k with hostBuf := [h] }) 0x1000 true
    let u := on id 0 false (.upset (.line 0x60001))
    let ud := on (fun k => { k with split := 6 }) 0 false (.upset (.spad 127 0x41))
    let ut := on id 0 false (.upset (.tile 127 24))
    let cm := cmd (.tzero ⟨0, 0, 0, 0⟩)
    let ch := event (onCore s0 fun k => { k with tileQ := [cm] }) 127 (Eng.tile.num + 1) 7
    let mm := event (onCore s0 fun k => { k with tileQ := [cm], mismatch := true }) 127 (Eng.tile.num + 1) 7
    let rn := (on fun k => { k with stopped := some (s0.mkRecord 127 .cs { cause := 0x41 }) }).setDie 1 { s0.die 1 with errcfg := 0x100 }
    let ne := rn.setDie 1 { s0.die 1 with errcfg := 0 }
    let uc := on id 0 false (.upset (.cell 15 3 255 255))
    let ug := on id 0 false (.upset (.delay 127 3 15))
    let dbg := event s0 15
    (p.ctx.ev.unit = (127 : CoreId).val ∧ p.plimReached 127 = true ∧ (p.core 127).request = some q ∧ p.requestOver 127 q = false ∧ po.plimReached 127 = true ∧ (po.core 127).request = some qo ∧ po.requestOver 127 qo = true ∧ m.ctx.ev.flag = true ∧ c.ctx.ev.flag = false ∧ (c.core 127).mismatchStop = true ∧ (c.core 127).checkpoint.used = true) ∧
    (v.ctx.ev.unit = 127 ∧ (127 : CoreId).val < 128 ∧ v.ctx.ev.flag = false ∧ (v.core 127).hostBuf = [] ∧ b.ctx.ev.unit = 127 ∧ (b.core 127).hostBuf = [h] ∧ h.bytes.length ≠ 0 ∧ h.addr % 64 + h.bytes.length ≤ 64 ∧ b.windowAt h.addr = none ∧ h.addr / 64 * 64 = b.ctx.ev.val / 64 * 64) ∧
    (u.ctx.ev.data = .upset (.line 0x60001) ∧ u.physOk (0x60001 / 64 * 64) = true ∧ ud.ctx.ev.data = .upset (.spad (127 : CoreId).val 0x41) ∧ 0x41 / 64 * 64 < (ud.core 127).padSize ∧ (ud.core 127).spadPoison.contains (0x41 / 64 * 64) = false ∧ ut.ctx.ev.data = .upset (.tile (127 : CoreId).val 24) ∧ (ut.core 127).tile.bad.contains 24 = false ∧ dbg.ctx.ev.unit < 16) ∧
    (ch.ctx.ev.sub = (Eng.tile).num + 1 ∧ ((ch.core 127).cmds .tile).find? (fun y => y.ord == ch.ctx.ev.val) = some cm ∧ (ch.core 127).mismatch = false ∧ ch.ctx.ev.flag = false ∧ (mm.core 127).mismatch = true ∧ ((mm.core 127).cmds .tile).find? (fun y => y.ord == mm.ctx.ev.val) = some cm ∧ mm.ctx.ev.sub = (Eng.tile).num + 1) ∧
    (rn.ctx.ev.sub = 0 ∧ (rn.core 127).mismatchStop = true ∧ (rn.die (dieOf 127)).errcfg.getLsbD 8 = true ∧ (rn.core 127).checkpoint.used = false ∧ rn.enginesRest 127 = true ∧ c.ctx.ev.sub = 0 ∧ (ne.die (dieOf 127)).errcfg.getLsbD 8 = false ∧ ne.ctx.ev.sub = 0 ∧ ne.ctx.ev.flag = false ∧ (ne.core 127).mismatchStop = true) ∧
    (uc.ctx.ev.data = .upset (.cell 15 3 255 255) ∧ ug.ctx.ev.data = .upset (.delay (127 : CoreId).val 3 15)) := by
  and_intros <;> decide +kernel

/-- O58, StepKeepsMemoryCanonical: a job's step. -/
theorem witness_StepKeepsMemory :
    let s := stream 1 .cs [] (withBytes 0x40000 [0x11, 0, 0x46, 0x10])
    let t : State := match step s with | .next t => t | .fault _ => s | .refused _ => s
    (s.mem.wf = true ∧ (match step s with | .next _ => true | .fault _ => false | .refused _ => false) = true ∧ t.mem.wf = true) := by
  and_intros <;> decide +kernel

/-- O60, NumberCodes: the codes at the ends of each width. -/
theorem witness_NumberCodes :
    ((0xFF < 2 ^ 8) ∧ (2 ^ 64 - 1 < 2 ^ 64) ∧ (0xF < 2 ^ 4) ∧ (254 < 2 ^ 8 ∧ 254 < 255) ∧ (255 < 2 ^ 8 ∧ 255 = 255)) := by
  and_intros <;> decide +kernel

/-! The witnesses that a proof gives: those that hold bytes which nothing fixes, and a walk of whole tables. -/

theorem layer0_ok (s : State) (pa : Nat) (h : pa < 0xC_0000_0000) (hs : s.dies[0].state ≠ 0) : s.physOk pa = true := by
  simp only [State.physOk, tierOf, h, if_true]
  simpa using hs

theorem sizes_small (n : Nat) : 0x60000 + imageSize (sectionSizes 0 n) - 1 < 0xC_0000_0000 := by
  have h := shareRoom_sum [136, 8, 8, 8, 8, 8, 8] 262115 n
  rw [show ([136, 8, 8, 8, 8, 8, 8] : List Nat).sum = 184 from rfl] at h
  show 0x60000 + (48 + (shareRoom [136, 8, 8, 8, 8, 8, 8] 262115 n).sum) - 1 < 0xC_0000_0000
  omega

/-- O43, SupervisorCompletes, CTXSV: a stopped job whose image may have every length that it can have. -/
theorem witness_SupervisorSaves :
    let s0 := stream 128 .cs [(1, 6), (2, 0x60000)]
    let s := s0.setCore 63 { Core.reset with active := true, jobid := 6, stopped := some (s0.mkRecord 63 .vs { cause := 8 }) }
    (s.guard = true ∧ (match s.jobOn (dieOf s.ctx.core) (s.getS 1) with | .core c => c == 63 | _ => false) = true ∧
      (s.getS 2).toNat % 4096 = 0 ∧ s.physOk (s.getS 2).toNat = true ∧ (s.core 63).stopped ≠ none ∧ (s.startDrain 63).drained 63 = true) ∧
    (s.startDrain 63).physOk ((s.getS 2).toNat + imageSize (sectionSizes ((s.startDrain 63).core 63).padSize (s.startDrain 63).draws) - 1) = true := by
  intro s0 s
  refine ⟨by and_intros <;> decide +kernel, layer0_ok _ _ ?_ (by decide +kernel)⟩
  have hb : (s.getS 2).toNat = 0x60000 := by decide +kernel
  have hp : ((s.startDrain 63).core 63).padSize = 0 := by decide +kernel
  rw [hb, hp]
  exact sizes_small _

theorem length_leBytes (v n : Nat) : (leBytes v n).length = n := by
  induction n generalizing v with
  | zero => rfl
  | succ n ih => simp [leBytes, ih]

/-- An image's length is the one that its header states. -/
theorem length_image (m : ArrImage) (frozen : Bool) (mask : Nat) : (m.bytes frozen mask).length = imageLen m.banks.length m.flying.length := by
  have hf : ∀ (l : List Nat) (f : Nat → List Byte) (k : Nat), (∀ i ∈ l, (f i).length = k) → (l.flatMap f).length = l.length * k := by
    intro l f k h
    induction l with
    | nil => simp
    | cons a t ih =>
      rw [List.flatMap_cons, List.length_append, h a List.mem_cons_self, ih fun i hi => h i (List.mem_cons_of_mem _ hi), List.length_cons]
      rw [Nat.succ_mul, Nat.add_comm]
  have hb : ∀ (k : Bank) t off, (bankBytes k t off).length = 795152 := by
    intro k t off
    have hc : (cellBytes k).length = 524288 := by rw [cellBytes, hf _ _ 8 fun i _ => by simp [length_leBytes]]; simp
    have hs : ∀ o, (stashBytes k t o).length = 262144 := by
      intro o
      rw [stashBytes, hf _ _ 4 fun i _ => by dsimp only; split <;> simp [length_leBytes, freeBytes]]
      simp
    simp [bankBytes, claimBytes, freeBytes, poisonBytes, hc, hs, length_leBytes]
  have hz : ∀ (l : List ((Nat × Bank) × Nat)) t, (l.flatMap fun b => bankBytes b.1.2 t (64 + 795152 * b.2)).length = l.length * 795152 := by
    intro l t
    induction l with
    | nil => simp
    | cons a r ih => rw [List.flatMap_cons, List.length_append, hb, ih, List.length_cons]; omega
  simp only [ArrImage.bytes, List.length_append, hz, List.length_zipIdx, imageHeader, length_leBytes, List.length_replicate, freeBytes,
    List.length_map, List.length_range, imageLen]
  omega

/-- O47, ArrayImagesAndEventsComplete, WSAVE: an image of the claimed bank, over 14 pages. -/
theorem witness_ArraySaves :
    let x := cmd .wlease 0x50000
    let s := running leased 1 .arr x
    let b := s.asCmd 1 .arr x
    let a := s.arr 0
    let m : ArrImage := ⟨s.seq, (maskBanks 1).map fun n => (n, a.bankAt n), [], a.recent⟩
    (HeadRuns s 1 .arr x ∧ a.lease = some 1 ∧ (s.core 1).jobid ∉ a.forced ∧ x.sa.toNat % 64 = 0 ∧ (⟨0, 0, 0, 1⟩ : E).of 0 4 = 1 ∧
      (∀ n ∈ maskBanks 1, (a.bankAt n).claim = some ((s.core 1).asid, (s.core 1).handle)) ∧
      (∀ w ∈ a.flying, w.bank ∉ maskBanks 1) ∧ (a.flying.filter fun w => (maskBanks 1).contains w.bank) = []) ∧
    resultOk (b.xlate b.walker (s.core 1).asid.toNat (userOf 1) .store x.sa.toNat (m.bytes a.frozen 1).length) = true := by
  intro x s b a m
  refine ⟨by and_intros <;> decide +kernel, ?_⟩
  rw [length_image, show imageLen m.banks.length m.flying.length = 803680 by decide +kernel]
  decide +kernel

/-- A load of one page whose translation is in the TLBs and whose lines are good leaves the state as it is. -/
theorem load_same (s : State) (c : CoreId) (i : StreamId) (va n : Nat) (l : Leaf) (hn : n ≠ 0) (hpage : va % 65536 + n ≤ 65536)
    (hva : va + n ≤ 2 ^ 48) (hw : s.walk s.dies[dieOf c].ptroot.toNat (s.core c).asid.toNat va = .ok l)
    (hst : s.stale (.strm c i) (s.core c).asid.toNat va (.ok l) = []) (hnote : s.tlbNote (.strm c i) (s.core c).asid.toNat va l = s)
    (hl : s.lookAhead (.strm c i) (s.core c).asid.toNat ((va + n + 65535) / 65536 * 65536) = s)
    (hp : permits (userOf c) .load l.pte = true) (ho : s.physOk l.pa = true)
    (hpo : s.poison = []) (hu : s.unpub = []) (he : l.pte &&& 0x80 = 0x80) :
    s.loadG c i false va n = .ok s (s.mem.readN l.pa n) := by
  have hr : ¬ ((va : Int) < 0 ∨ (2 : Int) ^ 48 < (va : Int) + (n : Int)) := by omega
  have hm : min n (65536 - va % 65536) = n := by omega
  have hk : s.lookup (.strm c i) (s.core c).asid.toNat va = (s, .ok l) := by
    simp only [State.lookup, Walker.home, hw, hst, hnote]
  have hx : s.xlate (.strm c i) (s.core c).asid.toNat (userOf c) .load va n = (s, .ok [⟨va, l.pa, n, l⟩]) := by
    simp only [State.xlate, hr, if_false, Int.toNat_natCast]
    rw [State.pieces]
    simp only [hn, if_false, hk, hp, ho, hm, Nat.sub_self, Bool.not_true, Bool.or_self, Bool.false_eq_true]
    rw [State.pieces]
    simp [hl]
  have hf : ([((va : Int), n)].find? fun r => decide (r.1 < 0) || decide ((2 : Int) ^ 48 < r.1 + r.2)) = none := by
    simp only [List.find?_cons, List.find?_nil]
    have : (decide ((va : Int) < 0) || decide ((2 : Int) ^ 48 < (va : Int) + (n : Int))) = false := by simp; omega
    rw [this]
  have hk : s.mark (.strm c i) .load [⟨va, l.pa, n, l⟩] = s := if_pos he
  have hall : s.xlateAll c i .load [((va : Int), n)] = (s, .ok [⟨va, l.pa, n, l⟩]) := by
    simp only [State.xlateAll, hf, List.foldl_cons, List.foldl_nil, hx, List.nil_append]
  have hs : State.readSeen (s.core c).jobid [⟨va, l.pa, n, l⟩] s = (s, s.mem.readN l.pa n) := by
    simp [State.readSeen, State.seen, hu, State.readClean, hpo, State.readPieces]
  have hb : s.badLines [⟨va, l.pa, n, l⟩] = [] := by simp [State.badLines, hpo]
  simp only [State.loadG, State.loadRanges, hall, hs, hk, hb, State.consume]

theorem readN_eq (m : Memory) (a n : Nat) : m.readN a n = (List.range n).map fun i => m.read (a + i) := by
  induction n generalizing a with
  | zero => rfl
  | succ n ih =>
    simp only [Memory.readN, ih, List.range_succ_eq_map, List.map_cons, List.map_map, Nat.add_zero, List.cons.injEq, true_and]
    refine List.map_congr_left fun i _ => ?_
    simp only [Function.comp]
    congr 1
    omega

/-- The bytes of an image that nothing fixes, as cells of memory. -/
def freeCells (a off n : Nat) : Memory := (List.range n).map fun i => (a + i, Config.imageByte 9 (off + i))

theorem read_freeCells (a off n x : Nat) (h : x < n) : (freeCells a off n).read (a + x) = Config.imageByte 9 (off + x) := by
  have gen : ∀ (l : List Nat), l.Nodup → x ∈ l → Memory.read (l.map fun i => (a + i, Config.imageByte 9 (off + i))) (a + x) =
      Config.imageByte 9 (off + x) := by
    intro l
    induction l with
    | nil => simp
    | cons y t ih =>
      intro hn hx
      simp only [List.map_cons, Memory.read]
      by_cases hy : y = x
      · simp [hy]
      · rw [if_neg (by omega)]
        exact ih (List.nodup_cons.1 hn).2 (by simpa [Ne.symm hy] using hx)
  exact gen _ List.nodup_range (List.mem_range.2 h)

theorem read_append (m l : Memory) (x : Nat) (h : ∀ c ∈ m, c.1 < x) : Memory.read (m ++ l) x = l.read x := by
  induction m with
  | nil => rfl
  | cons c t ih =>
    obtain ⟨k, v⟩ := c
    have hk : k < x := h (k, v) List.mem_cons_self
    simp only [List.cons_append, Memory.read]
    rw [if_neg (by omega)]
    exact ih fun d hd => h d (List.mem_cons_of_mem _ hd)

/-- Eight bytes as cells. -/
def cells8 (a b0 b1 b2 : Nat) : Memory := (List.range 8).map fun i => (a + i, BitVec.ofNat 8 (if i = 0 then b0 else if i = 1 then b1 else if i = 2 then b2 else 0))

/-- Memory with an image of no banks and no wavefronts at 0x50000, the bytes that are 0 listed too. -/
def imageCells : Memory := cells8 0x10000 1 0 2 ++ cells8 0x20000 3 0 3 ++ cells8 0x30000 0xBD 1 0 ++ (List.range 80).map fun i =>
  (0x50000 + i, if i = 0 then 0x01 else if i = 2 then 0x04 else if i = 8 then 0x50 else if i = 9 then 0x21 else 0)

def imageState : State :=
  running { leased with
    mem := imageCells ++ freeCells 0x50050 80 8448, arrImages := [⟨9, [], [], []⟩]
    tlb := [TlbPlace.strm 1 .ws, .cluster 0, .die 0].map fun p => ⟨p, 0, 0x1BD, 0x30000, true, 0, 0⟩ } 1 .arr (cmd .wlease 0x50000)

/-- That state with the command at its head being run. -/
def imageRun : State := imageState.asCmd 1 .arr (cmd .wlease 0x50000)

theorem imageRun_walk (va : Nat) (hw : (match imageRun.walk imageRun.dies[dieOf 1].ptroot.toNat (imageRun.core 1).asid.toNat va with
      | .ok l => decide (l = ⟨0x1BD, 0x30000, va, true⟩)
      | .error _ => false) = true) :
    imageRun.walk imageRun.dies[dieOf 1].ptroot.toNat (imageRun.core 1).asid.toNat va = .ok ⟨0x1BD, 0x30000, va, true⟩ := by
  split at hw <;> simp_all

theorem imageRun_note (va : Nat) (h : va < 2 ^ 29 := by decide) :
    imageRun.tlbNote (.strm 1 .ws) (imageRun.core 1).asid.toNat va ⟨0x1BD, 0x30000, va, true⟩ = imageRun := by
  have hv : va / 2 ^ 29 = 0 := by omega
  have hs : va - va % 2 ^ 29 = 0 := by omega
  have hf : ∀ p ∈ [TlbPlace.strm 1 .ws, .cluster 0, .die 0],
      imageRun.tlbFill (Leaf.entryFor ⟨0x1BD, 0x30000, va, true⟩ p (imageRun.core 1).asid.toNat va) = imageRun := by
    intro p hp
    have he : Leaf.entryFor ⟨0x1BD, 0x30000, va, true⟩ p (imageRun.core 1).asid.toNat va = ⟨p, 0, 0x1BD, 0x30000, true, 0, 0⟩ := by
      simp only [Leaf.entryFor, if_true, hv, hs]; rfl
    have ht : imageRun.tlb = [TlbPlace.strm 1 .ws, .cluster 0, .die 0].map fun p => ⟨p, 0, 0x1BD, 0x30000, true, 0, 0⟩ := rfl
    rw [he, State.tlbFill, ht, if_pos]
    exact List.contains_iff_mem.2 (List.mem_map.2 ⟨p, hp, rfl⟩)
  have hw : (Walker.strm 1 .ws).tlbs = [TlbPlace.strm 1 .ws, .cluster 0, .die 0] := by decide
  simp only [State.tlbNote, hw, List.foldl_cons, List.foldl_nil]
  rw [hf _ (by simp), hf _ (by simp), hf _ (by simp)]

theorem imageState_load (n : Nat) (va : Nat) (h : va = 0x50000 ∨ va = 0x50040) (hn : n ≠ 0) (hp : n ≤ 16384) :
    imageRun.loadG 1 .ws false va n = .ok imageRun (imageRun.mem.readN va n) := by
  have hl : (va + n + 65535) / 65536 * 65536 = 0x60000 := by omega
  have ha : imageRun.lookAhead (.strm 1 .ws) (imageRun.core 1).asid.toNat 0x60000 = imageRun := by
    simp only [State.lookAhead, Walker.home]
    rw [if_neg (by decide), imageRun_walk 0x60000 (by decide +kernel)]
    exact imageRun_note _
  rcases h with rfl | rfl
  all_goals
    exact load_same imageRun 1 .ws _ n ⟨0x1BD, 0x30000, _, true⟩ hn (by omega) (by omega) (imageRun_walk _ (by decide +kernel))
      (by decide +kernel) (imageRun_note _) (hl ▸ ha) (by decide +kernel) (by decide +kernel) rfl rfl (by decide +kernel)

/-- O47, ArrayImagesAndEventsComplete, WREST: the image of no bank that stands in memory, of this package, or of another where the list of its images is empty. -/
theorem witness_ArrayRestores :
    let s := imageState
    let x := cmd .wlease 0x50000
    let b := imageRun
    (b = s.asCmd 1 .arr x ∧ HeadRuns s 1 .arr x ∧ (s.arr 0).lease = some 1 ∧ (s.core 1).jobid ∉ (s.arr 0).forced ∧ x.sa.toNat % 64 = 0 ∧
      b.restWaits 0x50000 = false) ∧
    ∃ hd cnt bs, b.loadG 1 .ws false (0x50000 : Nat) 64 = .ok b hd ∧ fieldAt hd 0 4 = imgFmt ∧ maskBanks (fieldAt hd 4 4 / 2) = [] ∧
      b.loadG 1 .ws false (0x50040 : Nat) 16 = .ok b cnt ∧ fieldAt hd 8 8 = imageLen 0 (leNat cnt) ∧
      b.loadG 1 .ws false (0x50000 : Nat) (imageLen 0 (leNat cnt)) = .ok b bs ∧ b.restClaims bs [] = true ∧
      b.arrImages.find? (fun m => m.banks.map (·.1) == [] && m.agrees 0 (leNat cnt) bs) = some ⟨9, [], [], []⟩ ∧
      ([] : List ArrImage).find? (fun m => m.banks.map (·.1) == [] && m.agrees 0 (leNat cnt) bs) = none := by
  intro s x b
  refine ⟨⟨rfl, by decide +kernel, by decide +kernel, by decide +kernel, by decide +kernel, by decide +kernel⟩, b.mem.readN 0x50000 64, b.mem.readN 0x50040 16, b.mem.readN 0x50000 8528,
    imageState_load 64 _ (.inl rfl) (by omega) (by omega), by decide +kernel, by decide +kernel,
    imageState_load 16 _ (.inr rfl) (by omega) (by omega), by decide +kernel, ?_, rfl, ?_, rfl⟩
  · have : imageLen 0 (leNat (b.mem.readN 0x50040 16)) = 8528 := by decide +kernel
    rw [this]
    exact imageState_load 8528 _ (.inl rfl) (by omega) (by omega)
  · have h0 : leNat (b.mem.readN 0x50040 16) = 0 := by decide +kernel
    have hm : b.mem = imageCells ++ freeCells 0x50050 80 8448 := rfl
    have hi : ∀ c ∈ imageCells, c.1 < 0x50050 := by decide +kernel
    have hb : ((b.mem.readN 0x50000 8528).drop 80).take 8448 = freeBytes 9 80 8448 := by
      apply List.ext_getElem
      · simp [readN_eq, freeBytes]
      · intro i h1 h2
        have hi2 : i < 8448 := by simpa [freeBytes] using h2
        simp only [List.getElem_take, List.getElem_drop, readN_eq, List.getElem_map, List.getElem_range, freeBytes, hm]
        rw [read_append _ _ _ fun c hc => by have := hi c hc; omega]
        rw [show 0x50000 + (80 + i) = 0x50050 + i by omega]
        exact read_freeCells _ _ _ _ hi2
    have ha : b.arrImages = [⟨9, [], [], []⟩] := rfl
    simp [ha, ArrImage.agrees, h0, hb]

theorem pointers_nil (s : State) (h : s.mem = []) : s.pointers = [] := by
  have he : ∀ base n, s.tableEntries base n = [] := by
    intro base n
    have : ∀ a, s.pread8 a = 0 := by intro a; simp [State.pread8, h, Memory.readN, leNat]
    simp [State.tableEntries, this, pteV]
  simp [State.pointers, he]

/-- O54, BringUpCompletes, LAYER1_POWER_OFF: a die whose layer 1 is on, not requested, with nothing allocated in it, and with its directory there, which
moves. -/
theorem witness_LayerPowerOff :
    let x : Die := { State.reset.die 1 with state := 2, layerOn := true, layerReq := false }
    let s := event (State.reset.setDie 1 x) 1 0 0 0 true
    let t := event (State.reset.setDie 1 { x with ptroot := 0x2C00000000 }) 1 0 0x2C00000000 0x2000000000
    (s.ctx.ev.unit = (1 : Fin 2).val ∧ x.state = 2 ∧ x.layerOn = true ∧ x.layerReq = false ∧ s.ctx.ev.flag = true ∧
      s.inUse (layer1Base 1) layerSize = false) ∧
    (event (State.reset.setDie 1 { x with ptroot := 0x2C00000000 }) 1 0 0 0 true).inUse (layer1Base 1) layerSize = true ∧
    t.ctx.ev.flag = false ∧ t.pageAt 0x2C00000000 = 65536 ∧ t.placeable 0x2C00000000 0x2000000000 65536 = true ∧
      tierOf 0x2C00000000 = some (.layer1 1) ∧ tierOf 0x2000000000 = some (.layer0 1) ∧
      tierOf (0x2C00000000 + 65536 - 1) = some (.layer1 1) ∧ tierOf (0x2000000000 + 65536 - 1) = some (.layer0 1) ∧
      t.movable 0x2C00000000 65536 = true ∧ t.inUse 0x2000000000 65536 = false := by
  intro x s t
  have hs : s.pointers = [] := pointers_nil s rfl
  have ht : t.pointers = [] := pointers_nil t rfl
  have hu : (event (State.reset.setDie 1 { x with ptroot := 0x2C00000000 }) 1 0 0 0 true).pointers = [] := pointers_nil _ rfl
  refine ⟨⟨rfl, rfl, rfl, rfl, rfl, ?_⟩, ?_, rfl, ?_, ?_, by decide, by decide, by decide, by decide, ?_, ?_⟩
  · simp only [State.inUse, State.allocated, hs]; decide +kernel
  · simp only [State.inUse, State.allocated, hu]; decide +kernel
  · simp only [State.pageAt, State.allocated, ht]; decide +kernel
  · simp only [State.placeable, ht]; decide +kernel
  · simp only [State.movable, State.allocated, ht]; decide +kernel
  · simp only [State.inUse, State.allocated, ht]; decide +kernel

/-! Hazel. -/

theorem length_shaRound (v : List Word) (kw : Word) : (shaRound v kw).length = v.length := by unfold shaRound; split <;> rfl

theorem length_shaBlock (h : List Word) (bs : List Byte) (hh : h.length = 8) : (shaBlock h bs).length = 8 := by
  have : ∀ (l : List Word) (v : List Word), (l.foldl shaRound v).length = v.length := by
    intro l
    induction l with
    | nil => simp
    | cons a t ih => intro v; rw [List.foldl_cons, ih, length_shaRound]
  rw [shaBlock, List.length_zipWith, this, hh]
  rfl

theorem length_sha384Bytes (m : List Byte) : (sha384Bytes m).length = 48 := by
  have hf : ∀ (l : List Nat) (f : Nat → List Byte) (h : List Word), h.length = 8 →
      (l.foldl (fun h i => shaBlock h (f i)) h).length = 8 := by
    intro l f
    induction l with
    | nil => simp
    | cons a t ih => intro h hh; rw [List.foldl_cons]; exact ih _ (length_shaBlock _ _ hh)
  have hb : ∀ (l : List Word), (l.flatMap fun w => (leBytes w.toNat 8).reverse).length = 8 * l.length := by
    intro l
    induction l with
    | nil => rfl
    | cons a t ih => rw [List.flatMap_cons, List.length_append, ih]; simp [length_leBytes]; omega
  rw [sha384Bytes, hb, List.length_take, hf _ _ _ rfl]
  rfl

/-- A list of bytes as cells. -/
def listCells (a : Nat) (bs : List Byte) : Memory := (List.range bs.length).map fun i => (a + i, bs.getD i 0)

theorem readN_listCells (a : Nat) (bs : List Byte) : (listCells a bs).readN a bs.length = bs := by
  have gen : ∀ (l : List Nat) (x : Nat), l.Nodup → x ∈ l → Memory.read (l.map fun i => (a + i, bs.getD i 0)) (a + x) = bs.getD x 0 := by
    intro l x
    induction l with
    | nil => simp
    | cons y t ih =>
      intro hn hx
      simp only [List.map_cons, Memory.read]
      by_cases hy : y = x
      · simp [hy]
      · rw [if_neg (by omega)]
        exact ih (List.nodup_cons.1 hn).2 (by simpa [Ne.symm hy] using hx)
  apply List.ext_getElem
  · simp [readN_eq]
  · intro i h1 h2
    simp only [readN_eq, List.getElem_map, List.getElem_range, listCells]
    rw [gen _ i List.nodup_range (List.mem_range.2 h2), List.getD_eq_getElem?_getD, List.getElem?_eq_getElem h2]
    rfl

/-- A package with die 1 in operation and its tables; an entry of Hazel's cache and the region that holds it. -/
def hazelBase (data : EvData) : State :=
  let x : Die := { State.reset.die 1 with state := 2, ptroot := 0x10000 }
  event { State.reset.setDie 0 { State.reset.die 0 with state := 2 } |>.setDie 1 x with mem := tables } 1 0 0x100000 0x1000 false data
def hazelTenant : Word := (((hazelBase .none).die 1).grant 0).tenant
def goodTnf : List Byte := [1, 0, 0, 0, 1, 0, 0, 0, 9]
def hazelEntry : HazelEntry := ⟨1, hazelTenant, (hazelBase .none).hazelKey goodTnf hazelTenant, 0x200000, 0⟩
theorem length_hazelTag (s : State) (d : Fin 2) (t : Word) (k : BitVec 384) (h : List Byte) : (s.hazelTag d t k h).length = 48 := by
  simp only [State.hazelTag, hmac384, length_sha384Bytes]
theorem hazelTag_eq (s t : State) (d : Fin 2) (x : Word) (k : BitVec 384) (h : List Byte) (hi : (s.die d).identity = (t.die d).identity) :
    s.hazelTag d x k h = t.hazelTag d x k h := by
  simp only [State.hazelTag, hi]
def hazelState (tag : List Byte) (data : EvData) : State :=
  { hazelBase data with
    hazelCache := [hazelEntry], hazelRegions := [⟨hazelTenant, 0x200000, 0x1000⟩], mem := listCells 0x200000 tag }

theorem hazelFound (tag : List Byte) (data : EvData) :
    (hazelState tag data).hazelCache.find? (fun e => e.key == (hazelState tag data).hazelKey goodTnf hazelTenant &&
      ((hazelState tag data).hazelRegion hazelTenant).any e.within) = some hazelEntry := by
  have h1 : (hazelState tag data).hazelKey goodTnf hazelTenant = hazelEntry.key := rfl
  have h2 : ((hazelState tag data).hazelRegion hazelTenant).any hazelEntry.within = true := by
    have : (hazelState tag data).hazelRegion hazelTenant = some ⟨hazelTenant, 0x200000, 0x1000⟩ := by
      simp [State.hazelRegion, hazelState]
    rw [this]
    simp [HazelEntry.within, hazelEntry]
  rw [show (hazelState tag data).hazelCache = [hazelEntry] from rfl, List.find?_cons, h1, h2]
  simp

theorem hazelTag_true (tag : List Byte) (data : EvData) (h : (hazelBase .none).hazelTag 1 hazelTenant hazelEntry.key [] = tag) :
    (hazelState tag data).hazelTrue hazelEntry = true := by
  have hl : tag.length = 48 := h ▸ length_hazelTag _ _ _ _ _
  have hr := readN_listCells 0x200000 tag
  rw [hl] at hr
  have ht : (hazelState tag data).hazelTag hazelEntry.die hazelEntry.tenant hazelEntry.key [] = tag := by
    rw [hazelTag_eq (hazelState tag data) (hazelBase .none) _ _ _ _ rfl, show hazelEntry.tenant = hazelTenant from rfl, show hazelEntry.die = 1 from rfl, h]
  have he : (hazelState tag data).mem.readN (hazelEntry.addr + 48) hazelEntry.len = [] := rfl
  have hm : (hazelState tag data).mem.readN hazelEntry.addr 48 = tag := hr
  have hp : (hazelState tag data).poison = [] := rfl
  rw [State.hazelTrue, he, hm, ht, hp]
  simp

/-- An object of one variant: its generation, its relocations, a portable section or none. -/
def tcoOf (gen rels tnf : Nat) : List Byte :=
  leBytes 0x314F4354 4 ++ leBytes 1 2 ++ leBytes 1 2 ++ leBytes 256 4 ++ leBytes 64 4 ++ leBytes 192 4 ++ leBytes tnf 4 ++ leBytes 0 4 ++
    leBytes 0 4 ++ leBytes 96 4 ++ leBytes rels 4 ++ List.replicate 24 0 ++
    [BitVec.ofNat 8 gen, 0, 0, 0] ++ leBytes 128 4 ++ leBytes 64 4 ++ List.replicate 20 0 ++
    leBytes 0 4 ++ [0, 7] ++ List.replicate 26 0 ++ List.replicate 64 9 ++ goodTnf ++ List.replicate 55 0

theorem placeNothing (s : State) (d : Fin 2) (asid : Nat) : (s.placeObject d asid 0x40000 0x50000 ([], [])).isSome = true := by
  simp [State.placeObject, State.pagesOf]

/-- O55, AttestationAndHazelComplete: a nonce for a die in operation and one in Winter; objects and sections of each outcome. What Hazel gives for a section that is
not in its cache is free: of the two cases of that clause one holds. -/
theorem witness_AttestationAndHazel :
    ∃ tag : List Byte, let w := event State.reset 1 0 0 0 false (.nonce 7)
    let b := hazelBase .none
    let gen := (b.featureWord 0).toNat % 256
    (w.ctx.ev.unit = (1 : Fin 2).val ∧ w.ctx.ev.data = .nonce 7 ∧ (w.die 1).state = 0 ∧ (hazelBase (.nonce 7)).ctx.ev.data = .nonce 7 ∧
      ((hazelBase (.nonce 7)).die 1).state ≠ 0 ∧ tnfCheck [1] = some 1 ∧ tnfCheck goodTnf = none ∧ (hazelBase (.bytes goodTnf)).hazelCache = [] ∧
      (b.hazelAssign 7 0x100000 0x1000).isSome = true ∧
      (match b.loadPlan [1] with | .refuse c => c == 1 | _ => false) = true ∧
      (match b.loadPlan (tcoOf gen 1 0) with
        | .native v => (match placeSection (tcoOf gen 1 0) v 0x40000 0x50000 with | .error c => c == 3 | .ok _ => false)
        | _ => false) = true ∧
      (match b.loadPlan (tcoOf gen 0 0) with
        | .native v => (match placeSection (tcoOf gen 0 0) v 0x40000 0x50000 with
          | .ok sd => (b.placeObject 1 0 0x40000 0x50000 sd).isSome
          | .error _ => false)
        | _ => false) = true ∧
      (match b.loadPlan (tcoOf (gen + 1) 0 9) with | .portable tnf => tnf == goodTnf | _ => false) = true ∧
      (match placePortable (tcoOf (gen + 1) 0 9) [] 0x40000 0x50000 with | .ok sd => sd == ([], []) | .error _ => false) = true) ∧
    ((hazelState tag .none).loadPlan (tcoOf (gen + 1) 0 9) = b.loadPlan (tcoOf (gen + 1) 0 9) ∧
      ((hazelState tag .none).placeObject 1 0 0x40000 0x50000 ([], [])).isSome = true) ∧
    (hazelState tag .none).hazelOutput 1 hazelTenant goodTnf = (hazelState tag .none, .ok []) ∧
    (let c := hazelState tag (.bytes goodTnf)
     c.hazelCache.find? (fun e => e.key == c.hazelKey goodTnf hazelTenant && (c.hazelRegion hazelTenant).any e.within) = some hazelEntry ∧
     c.hazelTrue hazelEntry = true ∧ ({ c with poison := [0x200000] } : State).hazelTrue hazelEntry = false) := by
  obtain ⟨tag, ht⟩ : ∃ t, (hazelBase .none).hazelTag 1 hazelTenant hazelEntry.key [] = t := ⟨_, rfl⟩
  refine ⟨tag, by and_intros <;> decide +kernel, ⟨?_, placeNothing _ _ _⟩, ?_, hazelFound _ _, hazelTag_true _ _ ht, ?_⟩
  · have hf : (hazelState tag .none).featureWord = (hazelBase .none).featureWord := rfl
    simp only [State.loadPlan, hf]
  · have h0 : tnfCheck goodTnf = none := by decide
    have he : (hazelState tag .none).hazelCache.erase hazelEntry = [] := by simp [hazelState]
    simp only [State.hazelOutput, h0, hazelFound, hazelTag_true _ _ ht, if_true, he]
    rfl
  · have hl : linesOf 0x200000 48 = [0x200000] := by decide
    simp [State.hazelTrue, hazelEntry, hl]

/-! The assembler (R52 to R56): lines and a block against the words that the manual writes beside them. -/

/-- The body of an exposed block that holds one line. -/
def lineWords (l : String) : Option (List HWord) :=
  (lexLine l.toList).bind fun ts =>
    (Asm.line ⟨[], true⟩ { Asm.empty with block := some ⟨0, true, 0, none, [], none, false⟩ } ts).bind fun z => z.block.map (·.body)
/-- The bytes of a text. -/
def textBytes (l : List String) : List Byte := l.flatMap fun s => (s.toList.map fun c => BitVec.ofNat 8 c.toNat) ++ [10]

/-- "Encodings worked out": `?p5 mul s4, s4, s6 !2` is 0x3108_2A19. -/
theorem test_asm_guard_and_stall : lineWords "?p5 mul s4, s4, s6 !2" = some [0x2A19, 0x3108] := by decide
/-- "Encodings worked out": `ldg.i32 s7, [s4+s5<<2+8]` is 0x290E_0085 with the X word 0x4005_0008. -/
theorem test_asm_memory : lineWords "ldg.i32 s7, [s4+s5<<2+8] ; load" = some [0x0085, 0x290E, 0x0008, 0x4005] := by decide
/-- R389: `xred.f32.add.bc.s1 s4, s5, #32, #0` is 0x2900_00C9 with the X word 0x017E_0100. -/
theorem test_asm_command :
    lineWords "xred.f32.add.bc.s1 s4, s5, #32, #0" = some [0x00C9, 0x2900, 0x0100, 0x017E] := by decide
/-- R51, R53, R281: a register outside its file, a value outside its field, and a suffix written twice do not assemble. -/
theorem test_asm_refused :
    lineWords "add s3, s32, s2" = none ∧ lineWords "addi s1, s1, #16" = none ∧ lineWords "ldg.i32.pz.pz s7, [s4]" = none := by
  decide
/-- "Sum4 encoding": the block's header 0x0003_0301, ADD 0x8210_0011 and INC 0x201E, behind the job's header. -/
theorem test_asm_sum4 :
    (assemble (textBytes [".job j", ".stream cs", "sum4: .block rep=4, mode=scoreboard", "add s8, s8, s16", "inc b=+1",
        ".endblock", ".endjob"])).map (fun z => (z.section_.drop 64, z.jobs.map (·.1))) =
      some ([0x01, 0x03, 0x03, 0x00, 0x11, 0x00, 0x10, 0x82, 0x1E, 0x20], [0]) := by decide
/-- R56: a .dword of a job is a zero word with an entry of KIND 1, one of a data label an entry of KIND 0. -/
theorem test_asm_relocations :
    (assemble (textBytes [".data", "d: .dword j, d+8", ".text", ".job j", ".stream cs", "b: .block", "rdv", ".endblock",
        ".endjob"])).map (fun z => (z.data, z.rels)) =
      some (List.replicate 16 0, [⟨0, 1, 1, 0⟩, ⟨8, 1, 0, 8⟩]) := by decide

end Sys2Proof.Tests
end

section
/-! PROOF. The control instructions that complete (R43 to R45, R107, R108, R110, R116 to R118): one lemma for each instruction, and O18 from them. -/
namespace Sys2Proof.Machine

/-- R110's word of the unguarded NOP without a stall count, as the decoder reads it. -/
theorem decode_plain_nop : Decode.decode [0x0003, 0x0000] = .ok (⟨Head.zero, .nop⟩, []) := by rfl

theorem exec_nop_of_guard {s : State} (hg : s.guard = true) : exec .nop s = .next s.retire := State.issue_true hg _

theorem exec_nop16 (s : State) : exec .nop16 s = .next s.retire := Res.finish_done s s

/-- R44: behind the instruction that it steps, an INC takes no slot. -/
theorem exec_inc_of_armed {s : State} (h : s.str.armed = some s.str.pc) :
    exec .inc s = .next (s.setStr { s.str with pc := s.str.pc + 2, armed := none }).noSlot := if_pos h

/-! MCALL. -/

/-- R116: m<5> is the low bit of the immediate field, m<4:0> the D field. -/
theorem mcallSlot_eq (f : RI) : mcallSlot f = f.imm.toNat % 2 * 32 + f.d.toNat := by
  rw [mcallSlot, BitVec.extractLsb'_toNat, Nat.shiftRight_zero, Nat.pow_one]

theorem exec_mcall_of_slot {s : State} {f : RI} {op : List HWord} {ops : List (List HWord)} (hg : s.guard = true)
    (hm : s.me.macros.toList[mcallSlot f]? = some (op :: ops)) :
    exec (.mcall f) s =
      .next (s.setStr { s.str with mac := some ⟨op :: ops, 0, s.ctx.head.st.toNat, s.ctx.len⟩ }).noSlot := by
  change execMcall f s = _
  rw [execMcall, State.issue_true hg]
  simp only [hm, Option.getD_some, Res.finish_stay]

/-! MDEF. -/

/-- R117: a header that counts 1 to 32 operations and sets no bit above its two counts passes MDEF's check. -/
theorem mdefHeader_passes {h : Nat} (h1 : 1 ≤ h % 256) (h32 : h % 256 ≤ 32) (hz : h < 65536) :
    (h % 256 = 0 || 32 < h % 256 || 65536 ≤ h : Bool) = false := by
  simp only [Bool.or_eq_false_iff, decide_eq_false_iff_not]
  omega

/-- With no bit above its two counts, a header's count of halfwords is all that stands above the count of operations. -/
theorem mdefHeader_halfwords {h : Nat} (hz : h < 65536) : h / 256 % 256 = h / 256 := Nat.mod_eq_of_lt (by omega)

theorem exec_mdef_of_image {s s1 s2 : State} {f : RX} {hb bs : List Byte} {ops : List (List HWord)} (hg : s.guard = true)
    (ha : (s.getS f.a).toNat % 8 = 0) (hl : s.loadG s.ctx.core s.ctx.strm false (s.getS f.a).toNat 8 = .ok s1 hb)
    (h1 : 1 ≤ leNat hb % 256) (h32 : leNat hb % 256 ≤ 32) (hz : leNat hb < 65536)
    (hl' : s1.loadG s.ctx.core s.ctx.strm false ((s.getS f.a).toNat + 8) (2 * (leNat hb / 256)) = .ok s2 bs)
    (hp : parseMacro (leNat hb % 256) 0 (toHalves bs) = .ok ops) :
    exec (.mdef f) s =
      .next (s2.setMe { s2.me with macros := s2.me.macros.setIfInBounds (f.xf 0 6) ops }).retire := by
  change execMdef f s = _
  rw [execMdef, State.issue_true hg]
  simp only [ha, ne_eq, not_true_eq_false, if_false, hl, mdefHeader_passes h1 h32 hz, Bool.false_eq_true,
    mdefHeader_halfwords hz, hl', hp, Res.finish_done]

/-! NEST. -/

/-- R94: in a scoreboard block a descriptor's write takes effect at once, raises no flag and changes nothing else. -/
theorem State.put_nest_of_scoreboard {s : State} (he : s.exposed = false) (lat : Nat) (n : BitVec 3) (mask val : VWord) :
    s.put lat (.nest n) mask val 0 = s.setStr { s.str with nests := s.str.nests.set n.toFin (nestUnpack val) } := by
  have hf : s.me.fflags ||| (0 : BitVec 5) = s.me.fflags := BitVec.or_zero
  simp only [State.put, he, Bool.false_eq_true, if_false, Core.apply, hf, State.setStr, State.str]

theorem exec_nest_of_scoreboard {s : State} {f : RX} (hg : s.guard = true) (hr : (s.getS (f.a + 1)).toNat < 2 ^ 37)
    (he : s.exposed = false) :
    exec (.nest f) s = .next (s.setStr { s.str with nests := s.str.nests.set (f.d.setWidth 3).toFin (nestUnpack
      (nestPack (s.getS f.a) (s.getS (f.a + 1)) (s.getS (f.a + 2)) (s.getS (f.a + 3)) (s.getS (f.a + 4)) f.x)) }).retire := by
  have h0 : regPlus f.a 0 = f.a := BitVec.add_zero _
  -- The other four registers are `f.a + k` by computation: they meet the statement's in the closing `rfl`.
  have hk : ¬ (s.getS (regPlus f.a 1)).toNat / 2 ^ 37 ≠ 0 := fun h => h (Nat.div_eq_of_lt hr)
  change execNest f s = _
  rw [execNest, State.issue_true hg]
  simp only [if_neg hk, State.put_nest_of_scoreboard he, h0, Res.finish_done]
  rfl

/-- Settles O18: each instruction by its own lemma. -/
theorem controlCompletes : Obligations.ControlCompletes :=
  ⟨decode_plain_nop, fun s =>
    ⟨exec_nop_of_guard, exec_nop16 s, exec_inc_of_armed,
      fun f _ _ hg hm => exec_mcall_of_slot hg (mcallSlot_eq f ▸ hm),
      fun _ _ _ _ _ _ => exec_mdef_of_image,
      fun _ => exec_nest_of_scoreboard⟩⟩

end Sys2Proof.Machine
end

section
/-! PROOF. The format instructions that complete (R119, R151 to R153, R156 to R158): one lemma for each instruction, and O15 from them. -/
namespace Sys2Proof.Machine

/-! VUNPK and VPACK. -/

/-- R153: VUNPK writes the 64 values of the image at its position. -/
theorem exec_vunpk_of_guard {s : State} (f : RX) (hg : s.guard = true) :
    let r := overElems 32 false
      (fun i _ => unpackElem (f.xf 0 4) (s.getV f.a >>> (8 * f.xf 8 8)).toNat ((s.getS f.b).toNat % 65536) i)
      (List.range 64) ⟨0, 0, 0, 0⟩
    exec (.vunpk f) s = .next (s.putV 2 f.d r.mask r.val r.flags).retire := show execVunpk f s = _ from State.issue_true hg _

/-- The group `g` of an SE image: the sixteen lanes from `16 g` (R151, R152). -/
def seGroup (b : Nat) (mode : RMode) (v : VWord) (g : Nat) (acc : PackAcc) : Nat × PackAcc :=
  sePack b mode ((List.range 16).map fun i => velem v 32 (16 * g + i)) acc

theorem seImage_cons (b : Nat) (mode : RMode) (v : VWord) (g : Nat) (t : List Nat) (acc : PackAcc) :
    seImage b mode v (g :: t) acc =
      ((seGroup b mode v g acc).1 + (seImage b mode v t (seGroup b mode v g acc).2).1 * 2 ^ (16 + 16 * (b + 1)),
        (seImage b mode v t (seGroup b mode v g acc).2).2) := rfl

/-- Above the last group of an image nothing stands. -/
theorem seImage_singleton (b : Nat) (mode : RMode) (v : VWord) (g : Nat) (acc : PackAcc) :
    seImage b mode v [g] acc = seGroup b mode v g acc := by
  rw [seImage_cons, seImage, Nat.zero_mul, Nat.add_zero]

/-- What VPACK leaves of an image and of what was formed on the way to it: the generator, the image at its position in v[D], the flags. -/
def State.putImage (s : State) (f : RX) (image : Nat) (acc : PackAcc) : State :=
  (s.setStr { s.str with seed := acc.seed }).putV 2 f.d (BitVec.ofNat 2048 (2 ^ (8 * packSize (f.xf 0 4)) - 1) <<< (8 * f.xf 8 8))
    (BitVec.ofNat 2048 image <<< (8 * f.xf 8 8)) acc.flags

theorem exec_vpack_of_se {s : State} {f : RX} (hg : s.guard = true) (hf : f.xf 0 4 < 3) :
    let r := seImage (seBits (f.xf 0 4)) (s.rmField (f.xf 4 3)) (s.getV f.a) [0, 1, 2, 3] ⟨0, s.str.seed⟩
    exec (.vpack f) s = .next (s.putImage f r.1 r.2).retire := by
  change execVpack f s = _
  rw [execVpack, State.issue_true hg]
  simp only [if_pos hf, Res.finish_done]
  rfl

/-- The block `k` of an MX image: the 32 lanes from `32 k` (R151, R152). -/
def mxBlock (fmt : Nat) (mode : RMode) (v : VWord) (k : Nat) (acc : PackAcc) : Nat × List Nat × PackAcc :=
  mxPack (mxElem fmt).1 (mxElem fmt).2 mode ((List.range 32).map fun i => velem v 32 (32 * k + i)) acc

theorem exec_vpack_of_mx {s : State} {f : RX} (hg : s.guard = true) (hf : 3 ≤ f.xf 0 4) :
    let b0 := mxBlock (f.xf 0 4) (s.rmField (f.xf 4 3)) (s.getV f.a) 0 ⟨0, s.str.seed⟩
    let b1 := mxBlock (f.xf 0 4) (s.rmField (f.xf 4 3)) (s.getV f.a) 1 b0.2.2
    exec (.vpack f) s = .next ((s.putImage f
      ((b0.2.1 ++ b1.2.1).zipIdx.foldl (fun n x => n + x.1 * 2 ^ ((mxElem (f.xf 0 4)).1.width * x.2)) 0) b1.2.2).putS 2 f.b
        (BitVec.ofNat 64 (b0.1 + b1.1 * 256))).retire := by
  change execVpack f s = _
  rw [execVpack, State.issue_true hg]
  simp only [if_neg (Nat.not_lt.mpr hf), Res.finish_done]
  rfl

/-- The packed formats' clauses of O15. -/
theorem packedFormatsComplete : PackedFormatsCompleteRule := fun s f hg =>
  ⟨exec_vunpk_of_guard f hg,
    fun hf => by
      have h := exec_vpack_of_se hg hf
      simp only [seImage_cons _ _ _ _ (_ :: _), seImage_singleton] at h
      exact h,
    exec_vpack_of_mx hg⟩

/-! The format state. -/

section
variable {s : State} (hg : s.guard = true)
include hg

theorem exec_vsett_of_guard (f : RX) :
    exec (.vsett f) s = .next ((s.setMe { s.me with vtype := f.x.setWidth 7 }).putS 1 f.d (s.me.vtype.setWidth 64)).retire :=
  show execVsett f s = _ from State.issue_true hg _

theorem exec_vgetf_of_guard (f : RRR) :
    exec (.vgetf f) s = .next ((s.setMe { s.me with fflags := s.me.fflags &&& ~~~((s.getS f.a).setWidth 5) }).putS 1 f.d
      (s.me.fflags.setWidth 64)).retire := show execVgetf f s = _ from State.issue_true hg _

theorem exec_vsetf_of_guard (f : RRR) :
    exec (.vsetf f) s =
      .next ((s.setMe { s.me with fflags := (s.getS f.a).setWidth 5 }).putS 1 f.d (s.me.fflags.setWidth 64)).retire :=
  show execVsetf f s = _ from State.issue_true hg _

theorem exec_vseed_of_guard (f : RRR) :
    exec (.vseed f) s =
      .next ((s.setStr { s.str with seed := seedOf ((s.getS f.a).setWidth 32) }).putS 1 f.d (s.str.seed.setWidth 64)).retire :=
  show execVseed f s = _ from State.issue_true hg _

theorem exec_wlimset_of_guard (f : RRR) :
    exec (.wlimset f) s =
      .next ((s.setStr { s.str with wlim := clamp32 (s.getS f.a) }).putS 1 f.d (s.str.wlim.setWidth 64)).retire :=
  show execWlimset f s = _ from State.issue_true hg _

end

/-- R158's word of `vseed s0, s7`, as the decoder reads it. -/
theorem decode_vseed_s0_s7 : Decode.decode [0x8057, 0x01C1] = .ok (⟨Head.zero, .vseed ⟨0, 7, 0⟩⟩, []) := by rfl

/-- The format state's clauses of O15. -/
theorem formatStateExchanged : FormatStateExchangedRule :=
  ⟨decode_vseed_s0_s7, fun _ f g hg =>
    ⟨exec_vsett_of_guard hg g, exec_vgetf_of_guard hg f, exec_vsetf_of_guard hg f, exec_vseed_of_guard hg f,
      exec_wlimset_of_guard hg f⟩⟩

/-- Settles O15: the packed formats and the format state, each instruction by its own lemma. -/
theorem formatsComplete : Obligations.FormatsComplete := ⟨packedFormatsComplete, formatStateExchanged⟩

end Sys2Proof.Machine
end

section
/-! PROOF. What the codes of the integers, the half-step grids and the tick counts stand for (R130 to R132), and O60 from it. -/
namespace Sys2Proof.Machine

/-- R130: a code read as two's complement is the signed value of its bit vector. -/
theorem signedOf_eq_toInt {w c : Nat} (hc : c < 2 ^ w) : signedOf w c = (BitVec.ofNat w c).toInt := by
  have hn : (BitVec.ofNat w c).toNat = c := by rw [BitVec.toNat_ofNat, Nat.mod_eq_of_lt hc]
  have hm : (BitVec.ofNat w c).msb = c.testBit (w - 1) := by
    rw [BitVec.msb_eq_getLsbD_last, BitVec.getLsbD, hn]
  rw [signedOf, BitVec.toInt_eq_msb_cond, hm, hn]
  norm_cast

/-- The exact value of an integer's sign and magnitude is the integer. -/
theorem FVal.ex_signMagnitude (v e : Int) : (FVal.num (decide (v < 0)) v.natAbs e).ex = ⟨decide (v < 0), v, e⟩ := by
  by_cases h : v < 0
  · simp only [FVal.ex, h, decide_true, if_true, Int.ofNat_natAbs_of_nonpos (Int.le_of_lt h), Int.neg_neg]
  · simp only [FVal.ex, h, decide_false, Bool.false_eq_true, if_false, Int.natAbs_of_nonneg (Int.not_lt.mp h)]

/-- A code that reads as the sign and magnitude of `v`, at the exponent `e`, is a number `v * 2 ^ e`: no infinity and no NaN. -/
theorem NumTy.reads_number {t : NumTy} {c : Nat} {v e : Int} (h : t.read c = .num (decide (v < 0)) v.natAbs e) :
    ∃ neg m, t.read c = .num neg m e ∧ (t.read c).ex.n = v :=
  ⟨_, _, h, by rw [h, FVal.ex_signMagnitude]⟩

/-- R132: a code of TK8 below NEVER is its number of ticks. -/
theorem NumTy.read_tk8_of_lt {c : Nat} (hc : c < 255) : NumTy.tk8.read c = .num false c 0 := by
  have h0 : ¬ (c : Int) < 0 := Int.not_lt.mpr (Int.natCast_nonneg c)
  simp only [NumTy.read, if_neg (Nat.ne_of_lt hc), h0, decide_false, Int.natAbs_natCast]

/-- R132: NEVER is later than every tick. -/
theorem NumTy.read_tk8_never : NumTy.tk8.read 255 = .inf false := rfl

/-- Settles O60: an integer's or a grid's code reads as a number by its definition, and a signed one by its bit vector. -/
theorem numberCodes : Obligations.NumberCodes := fun w c hc => by
  rw [← signedOf_eq_toInt hc]
  refine ⟨fun _ => NumTy.reads_number rfl, fun _ => NumTy.reads_number rfl, fun _ => NumTy.reads_number rfl,
    fun _ => NumTy.read_tk8_of_lt, fun _ h255 => ?_⟩
  rw [h255, NumTy.read_tk8_never]

end Sys2Proof.Machine
end

section
/-! PROOF. The decoder and the encoder are inverse (R26 to R49): one lemma for each format, over the rows of the opcode map, and O2 and O3 from them. -/
namespace Sys2Proof.Decode

/-- Settles O3: the decoder only answers a word that is well formed and whose encoding stands at the head of the halfwords. -/
theorem encodeOfDecode : Obligations.EncodeOfDecode := by
  intro hs w rest h
  rw [decode] at h
  split at h
  · cases h
  · next n hraw =>
    split at h
    · next hok =>
      cases h
      obtain ⟨hwf, hz⟩ := Bool.and_eq_true_iff.mp hok
      exact ⟨hwf, by rw [eq_of_beq hz, List.take_append_drop]⟩
    · cases h

/-- The raw decoder reads a word back from its encoding, whatever stands behind it. -/
def Reads (w : Code) : Prop := ∀ rest, rawDecode (encode w ++ rest) = .ok (w, (encode w).length)

theorem decode_of_reads {w : Code} (hw : w.wf = true) (h : Reads w) (rest : List HWord) : decode (encode w ++ rest) = .ok (w, rest) := by
  have hok : fieldsOk (encode w ++ rest) w (encode w).length = true := by
    rw [fieldsOk, zerosOk, hw, List.take_left, beq_self_eq_true, Bool.and_true]
  rw [decode, h rest]
  simp only [hok, if_true, List.drop_left]

/-! Words of 32 bits. -/

theorem rawDecode_halves {w : BitVec 32} {c : Code} (h0 : (w.extractLsb' 0 16).getLsbD 0 = true) (hx : hasX w = false)
    (hd : decode32 w 0 = some c) (rest : List HWord) : rawDecode (halves w ++ rest) = .ok (c, 2) := by
  simp only [halves, List.cons_append, List.nil_append, rawDecode, h0, if_true, word32_halves, hx, Bool.false_eq_true, if_false, hd]

theorem rawDecode_halves_x {w x : BitVec 32} {c : Code} (h0 : (w.extractLsb' 0 16).getLsbD 0 = true) (hx : hasX w = true)
    (hd : decode32 w x = some c) (rest : List HWord) : rawDecode (halves w ++ halves x ++ rest) = .ok (c, 4) := by
  simp only [halves, List.cons_append, List.nil_append, rawDecode, h0, if_true, word32_halves, hx, hd]

/-- What the opcode map says of a word with its X word: whether an X word follows, whether it is of E format, and the instruction. -/
def Row (w x : BitVec 32) (hx e : Bool) (i : Instr) : Prop := hasX w = hx ∧ isE w = e ∧ decodeWord w x = some i

theorem Row.decode32 {w x : BitVec 32} {hx e : Bool} {i : Instr} (h : Row w x hx e i) :
    Decode.decode32 w x = some ⟨if e then Head.ofBitsE w x else Head.ofBits w, i⟩ := by
  obtain ⟨-, he, hd⟩ := h
  rw [Decode.decode32, hd, he]

/-- A head of a word without semaphore halves is its guard and its stall count. -/
theorem head_eq_of_plain {h : Head} (hh : h.wf .plain = true) : (⟨h.g, h.st, false, false, 0, 0, 0⟩ : Head) = h := by
  simp only [Head.wf, Bool.and_eq_true, Bool.not_eq_true', beq_iff_eq] at hh
  obtain ⟨⟨⟨⟨hwe, hse⟩, hwsem⟩, hssem⟩, hstep⟩ := hh
  obtain ⟨g, st, se, we, ssem, wsem, step⟩ := h
  subst hwe hse hwsem hssem hstep
  rfl

/-- The head of a command, and of an instruction in a command's format, steps nothing. -/
theorem head_step_of_sem {h : Head} (hh : h.wf .sem = true) : (⟨h.g, h.st, h.se, h.we, h.ssem, h.wsem, 0⟩ : Head) = h := by
  obtain ⟨g, st, se, we, ssem, wsem, step⟩ := h
  simp only [Head.wf, Bool.and_eq_true, beq_iff_eq] at hh
  rw [hh.2]

theorem head_sem_of_plain {h : Head} (hh : h.wf .plain = true) : h.wf .sem = true := by
  simp only [Head.wf, Bool.and_eq_true, Bool.or_eq_true, Bool.not_eq_true', beq_iff_eq] at hh ⊢
  obtain ⟨⟨⟨-, hwsem⟩, hssem⟩, hstep⟩ := hh
  exact ⟨⟨.inr hwsem, .inr hssem⟩, hstep⟩

/-- A word put together of a guard, a stall count, an opcode and other fields is read back where its row gives its instruction. -/
theorem reads_halves {h : Head} {i : Instr} {w : BitVec 32} (henc : encode ⟨h, i⟩ = halves w) (h0 : (w.extractLsb' 0 16).getLsbD 0 = true)
    (hhead : Head.ofBits w = h) (row : Row w 0 false false i) : Reads ⟨h, i⟩ := by
  intro rest
  rw [henc]
  refine rawDecode_halves h0 row.1 ?_ rest
  rw [row.decode32, if_neg Bool.false_ne_true, hhead]

theorem bit0_of_low {w : BitVec 32} (h : w.extractLsb' 0 1 = 1) : (w.extractLsb' 0 16).getLsbD 0 = true := by
  have h1 : (w.extractLsb' 0 1).getLsbD 0 = true := by rw [h]; decide
  simpa [BitVec.getLsbD_extractLsb'] using h1

theorem opOf_of_bits {w : BitVec 32} {o : BitVec 7} (h : w.extractLsb' 1 7 = o) : opOf w = o.toNat := by rw [opOf, h]

section
variable {h : Head} {i : Instr} {op fn : Nat} (ho : op < 128) (hf : fn < 4)

include ho hf in
theorem reads_word3 {b a d : BitVec 5} (henc : encode ⟨h, i⟩ = halves (word3 h b a d op fn)) (hh : h.wf .plain = true)
    (row : ∀ w, opOf w = op → fnOf w = fn → w = word3 h b a d op fn → Row w 0 false false i) : Reads ⟨h, i⟩ :=
  reads_halves henc (bit0_word3 ..) ((Head_word3 ..).trans (head_eq_of_plain hh))
    (row _ (opOf_word3 _ _ _ _ _ _ ho) (fnOf_word3 _ _ _ _ _ _ hf) rfl)

include ho hf in
theorem reads_RRR {f : RRR} (henc : encode ⟨h, i⟩ = f.enc h op fn) (hh : h.wf .plain = true)
    (row : ∀ w, opOf w = op → fnOf w = fn → RRR.ofBits w = f → Row w 0 false false i) : Reads ⟨h, i⟩ :=
  reads_word3 ho hf henc hh fun w hop hfn hw => row w hop hfn (hw ▸ RRR_word3 h f op fn)

include ho hf in
theorem reads_RI {f : RI} (henc : encode ⟨h, i⟩ = f.enc h op fn) (hh : h.wf .plain = true)
    (row : ∀ w, opOf w = op → fnOf w = fn → RI.ofBits w = f → Row w 0 false false i) : Reads ⟨h, i⟩ :=
  reads_word3 ho hf henc hh fun w hop hfn hw => row w hop hfn (hw ▸ RI_word3 h f op fn)

include ho hf in
/-- A word with an X word: its head is read from the word alone, or for the E format from the X word too. -/
theorem reads_word3_x {b a d : BitVec 5} {x : BitVec 32} {e : Bool}
    (henc : encode ⟨h, i⟩ = halves (word3 h b a d op fn) ++ halves x)
    (hhead : (if e then Head.ofBitsE (word3 h b a d op fn) x else Head.ofBits (word3 h b a d op fn)) = h)
    (row : ∀ w, opOf w = op → fnOf w = fn → w = word3 h b a d op fn → Row w x true e i) : Reads ⟨h, i⟩ := by
  intro rest
  have r := row _ (opOf_word3 _ _ _ _ _ _ ho) (fnOf_word3 _ _ _ _ _ _ hf) rfl
  rw [henc]
  refine rawDecode_halves_x (bit0_word3 ..) r.1 ?_ rest
  rw [r.decode32, hhead]

include ho hf in
theorem reads_RX {f : RX} (henc : encode ⟨h, i⟩ = f.enc h op fn) (hh : h.wf .plain = true)
    (row : ∀ w, opOf w = op → fnOf w = fn → RX.ofBits w f.x = f → Row w f.x true false i) : Reads ⟨h, i⟩ :=
  reads_word3_x (e := false) ho hf henc ((Head_word3 ..).trans (head_eq_of_plain hh))
    fun w hop hfn hw => row w hop hfn (hw ▸ RX_word3 h f op fn)

include ho hf in
theorem reads_M {f : M} (henc : encode ⟨h, i⟩ = f.enc h op fn) (hh : h.wf .plain = true)
    (row : ∀ w, opOf w = op → fnOf w = fn → M.ofBits w f.xword = f → w.extractLsb' 15 2 = BitVec.ofNat 2 fn → Row w f.xword true false i) :
    Reads ⟨h, i⟩ :=
  reads_word3_x (e := false) ho hf henc ((Head_word3 ..).trans (head_eq_of_plain hh))
    fun w hop hfn hw => row w hop hfn (hw ▸ M_word3 h f op fn) (by rw [← hfn, fnOf, BitVec.ofNat_toNat, BitVec.setWidth_eq])

include ho hf in
theorem reads_E {f : E} (henc : encode ⟨h, i⟩ = f.enc h op fn) (hh : h.wf .sem = true)
    (row : ∀ w x, opOf w = op → fnOf w = fn → E.ofBits w x = f → x.extractLsb' 18 14 = f.op → Row w x true true i) : Reads ⟨h, i⟩ :=
  reads_word3_x (e := true) ho hf henc ((HeadE_word3 h f op fn).trans (head_step_of_sem hh))
    fun w hop hfn hw => row w _ hop hfn (hw ▸ E_word3 h f op fn) (E_xword_bits f h).1

end

theorem reads_B {h : Head} {i : Instr} {f : B} (henc : encode ⟨h, i⟩ = f.enc h) (hh : h.wf .plain = true)
    (row : ∀ w, opOf w = 2 → B.ofBits w = f → Row w 0 false false i) : Reads ⟨h, i⟩ := by
  obtain ⟨himm, hg, hst, hop, h1⟩ := wordB_bits h f.imm
  refine reads_halves (w := wordB h f.imm) henc (bit0_of_low h1) ?_ (row _ (opOf_of_bits hop) ?_)
  · rw [Head.ofBits, hg, hst, head_eq_of_plain hh]
  · rw [B.ofBits, himm]

theorem reads_PL {h : Head} {i : Instr} {f : PL} {op : Nat} (ho : op < 8) (henc : encode ⟨h, i⟩ = f.enc h op) (hh : h.wf .plain = true)
    (row : ∀ w, opOf w = 0x16 → plOp w = op → PL.ofBits w = f → Row w 0 false false i) : Reads ⟨h, i⟩ := by
  obtain ⟨hpl, hpa, hpd, hg, hst, hop, h1⟩ := wordPL_bits h f op
  refine reads_halves (w := wordPL h f op) henc (bit0_of_low h1) ?_ (row _ (opOf_of_bits hop) ?_ ?_)
  · rw [Head.ofBits, hg, hst, head_eq_of_plain hh]
  · rw [plOp, hpl, BitVec.toNat_ofNat, Nat.mod_eq_of_lt ho]
  · rw [PL.ofBits, hpa, hpd]

theorem reads_P3 {h : Head} {i : Instr} {f : P3} {fn : Nat} (hf : fn < 4) (henc : encode ⟨h, i⟩ = f.enc h fn) (hh : h.wf .plain = true)
    (row : ∀ w, opOf w = 0x17 → p3Fn w = fn → P3.ofBits w = f → Row w 0 false false i) : Reads ⟨h, i⟩ := by
  obtain ⟨hfn, hb, ha, hpd, hg, hst, hop, h1⟩ := wordP3_bits h f fn
  refine reads_halves (w := wordP3 h f fn) henc (bit0_of_low h1) ?_ (row _ (opOf_of_bits hop) ?_ ?_)
  · rw [Head.ofBits, hg, hst, head_eq_of_plain hh]
  · rw [p3Fn, hfn, BitVec.toNat_ofNat, Nat.mod_eq_of_lt hf]
  · rw [P3.ofBits, hb, ha, hpd]

/-! Words of 16 bits. -/

theorem half_extract {n lo w : Nat} {v : BitVec w} (h : n % 65536 / 2 ^ lo % 2 ^ w = v.toNat) : (half n).extractLsb' lo w = v := by
  apply BitVec.eq_of_toNat_eq
  rw [BitVec.extractLsb'_toNat, half, BitVec.toNat_ofNat, Nat.shiftRight_eq_div_pow, h]

/-- A halfword with its opcode is read back where the fields above it give its instruction. -/
theorem reads_half {w : Code} {n op : Nat} (henc : encode w = [half n]) (h0 : n % 2 = 0) (hop : n % 65536 / 2 % 16 = op)
    (row : ((half n).extractLsb' 1 4).toNat = op → decode16 (half n) = some w) : Reads w := by
  intro rest
  have hlow : (half n).getLsbD 0 = false := by
    rw [half, BitVec.getLsbD_ofNat, Nat.testBit_zero, h0]; rfl
  have hrow := row (by rw [BitVec.extractLsb'_toNat, half, BitVec.toNat_ofNat, Nat.shiftRight_eq_div_pow]; exact hop)
  rw [henc]
  simp only [List.cons_append, List.nil_append, rawDecode, hlow, Bool.false_eq_true, if_false, hrow, List.length_singleton]

theorem head_eq_zero_of_bare {h : Head} (hh : h.wf .bare = true) : h = Head.zero := by
  simp only [Head.wf, Bool.and_eq_true, Bool.not_eq_true', beq_iff_eq] at hh
  obtain ⟨⟨⟨⟨⟨⟨hwe, hse⟩, hwsem⟩, hssem⟩, hg⟩, hst⟩, hstep⟩ := hh
  obtain ⟨g, st, se, we, ssem, wsem, step⟩ := h
  subst hwe hse hwsem hssem hg hst hstep
  rfl

theorem reads_mov16 {h : Head} (hh : h.wf .bare = true) (a d : BitVec 5) : Reads ⟨h, .mov16 a d⟩ := by
  have ha := a.isLt
  have hd := d.isLt
  refine reads_half rfl (by omega) (op := 1) (by omega) fun hop => ?_
  have e1 := half_extract (lo := 10) (v := a) (n := a.toNat * 1024 + d.toNat * 32 + 2) (by omega)
  have e2 := half_extract (lo := 5) (v := d) (n := a.toNat * 1024 + d.toNat * 32 + 2) (by omega)
  simp only [decode16, hop, e1, e2, head_eq_zero_of_bare hh]

theorem reads_add16 {h : Head} (hh : h.wf .bare = true) (a d : BitVec 5) : Reads ⟨h, .add16 a d⟩ := by
  have ha := a.isLt
  have hd := d.isLt
  refine reads_half rfl (by omega) (op := 2) (by omega) fun hop => ?_
  have e1 := half_extract (lo := 10) (v := a) (n := a.toNat * 1024 + d.toNat * 32 + 4) (by omega)
  have e2 := half_extract (lo := 5) (v := d) (n := a.toNat * 1024 + d.toNat * 32 + 4) (by omega)
  simp only [decode16, hop, e1, e2, head_eq_zero_of_bare hh]

theorem reads_addi16 {h : Head} (hh : h.wf .bare = true) (imm : BitVec 6) (d : BitVec 5) : Reads ⟨h, .addi16 imm d⟩ := by
  have ha := imm.isLt
  have hd := d.isLt
  refine reads_half rfl (by omega) (op := 3) (by omega) fun hop => ?_
  have e1 := half_extract (lo := 10) (v := imm) (n := imm.toNat * 1024 + d.toNat * 32 + 6) (by omega)
  have e2 := half_extract (lo := 5) (v := d) (n := imm.toNat * 1024 + d.toNat * 32 + 6) (by omega)
  simp only [decode16, hop, e1, e2, head_eq_zero_of_bare hh]

theorem reads_br16 {h : Head} (hh : h.wf .bare = true) (imm : BitVec 11) : Reads ⟨h, .br16 imm⟩ := by
  have ha := imm.isLt
  refine reads_half rfl (by omega) (op := 4) (by omega) fun hop => ?_
  have e1 := half_extract (lo := 5) (v := imm) (n := imm.toNat * 32 + 8) (by omega)
  simp only [decode16, hop, e1, head_eq_zero_of_bare hh]

/-- Bit 5 tells the two words on tokens apart (R43). -/
theorem half_bit5 (n : Nat) : (half n).getLsbD 5 = decide (n % 65536 / 32 % 2 = 1) := by
  rw [BitVec.getLsbD, half, BitVec.toNat_ofNat, Nat.testBit_eq_decide_div_mod_eq]

theorem reads_tok16Push {h : Head} (hh : h.wf .bare = true) (k : BitVec 3) : Reads ⟨h, .tok16Push k⟩ := by
  have ha := k.isLt
  refine reads_half rfl (by omega) (op := 5) (by omega) fun hop => ?_
  have e1 := half_extract (lo := 6) (v := k) (n := k.toNat * 64 + 10) (by omega)
  have e2 : (half (k.toNat * 64 + 10)).getLsbD 5 = false := by rw [half_bit5, decide_eq_false_iff_not]; omega
  simp only [decode16, hop, e1, e2, head_eq_zero_of_bare hh, Bool.false_eq_true, if_false]

theorem reads_tok16Wait {h : Head} (hh : h.wf .bare = true) (k : BitVec 3) : Reads ⟨h, .tok16Wait k⟩ := by
  have ha := k.isLt
  refine reads_half rfl (by omega) (op := 5) (by omega) fun hop => ?_
  have e1 := half_extract (lo := 6) (v := k) (n := k.toNat * 64 + 32 + 10) (by omega)
  have e2 : (half (k.toNat * 64 + 32 + 10)).getLsbD 5 = true := by rw [half_bit5, decide_eq_true_iff]; omega
  simp only [decode16, hop, e1, e2, head_eq_zero_of_bare hh, if_true]

theorem reads_nop16 {h : Head} (hh : h.wf .count = true) : Reads ⟨h, .nop16⟩ := by
  have ha := h.st.isLt
  refine reads_half rfl (by omega) (op := 0) (by omega) fun hop => ?_
  have e1 := half_extract (lo := 5) (v := h.st) (n := h.st.toNat * 32) (by omega)
  simp only [Head.wf, Bool.and_eq_true, Bool.not_eq_true', beq_iff_eq] at hh
  obtain ⟨⟨⟨⟨⟨hwe, hse⟩, hwsem⟩, hssem⟩, hg⟩, hstep⟩ := hh
  obtain ⟨g, st, se, we, ssem, wsem, step⟩ := h
  subst hwe hse hwsem hssem hg hstep
  simp only [decode16, hop, e1]

theorem reads_inc {h : Head} (hh : h.wf .inc = true) : Reads ⟨h, .inc⟩ := by
  have ha := h.step.isLt
  refine reads_half rfl (by omega) (op := 15) (by omega) fun hop => ?_
  have e1 := half_extract (lo := 5) (v := h.step) (n := h.step.toNat * 32 + 30) (by omega)
  simp only [Head.wf, Bool.and_eq_true, Bool.not_eq_true', beq_iff_eq] at hh
  obtain ⟨⟨⟨⟨⟨hwe, hse⟩, hwsem⟩, hssem⟩, hg⟩, hst⟩ := hh
  obtain ⟨g, st, se, we, ssem, wsem, step⟩ := h
  subst hwe hse hwsem hssem hg hst
  simp only [decode16, hop, e1]

/-! The rows of the opcode map. -/

/-- A field of the operation field is one of the X word, 18 bits up (R42). -/
theorem opField {x : BitVec 32} {f : E} (h : x.extractLsb' 18 14 = f.op) (lo w : Nat) (hw : lo + w ≤ 14) :
    (x.extractLsb' (18 + lo) w).toNat = f.of lo w := by
  rw [E.of, ← h]
  congr 1
  apply BitVec.eq_of_getLsbD_eq
  intro i hi
  have hj : lo + i < 14 := by omega
  simp only [BitVec.getLsbD_extractLsb', hi, hj, decide_true, Bool.true_and, Nat.add_assoc]

theorem opBit {x : BitVec 32} {f : E} (h : x.extractLsb' 18 14 = f.op) : x.getLsbD 18 = f.op.getLsbD 0 := by
  rw [← h, BitVec.getLsbD_extractLsb']; rfl

/-- A CSR without a row of its own is written by CSRW (R434). -/
theorem op71_csrw {w x : BitVec 32} (hfn : fnOf w = 1) (hn : csrwHasRow (x.extractLsb' 0 12).toNat = false) :
    op71 w x = some (.csrw (RX.ofBits w x)) := by
  have hrow : ∀ n, csrwHasRow n = true → (x.extractLsb' 0 12).toNat ≠ n := fun n h e => by simp [e, h] at hn
  simp only [op71, hfn]
  split
  case h_5 => rfl
  all_goals exact absurd ‹_› (hrow _ rfl)

/-- An instruction of one word is read back: its row of the opcode map gives it (R46). -/
theorem reads_of_word {h : Head} {i : Instr} (hh : h.wf i.headKind = true) (hlen : (encode ⟨h, i⟩).length = 2) : Reads ⟨h, i⟩ := by
  cases i
  case br => exact reads_B rfl hh fun w hop hw => hw ▸ ⟨by rw [hasX, hop]; rfl, by rw [isE, hop]; rfl, by rw [decodeWord, hop]; rfl⟩
  case fqry | bri | ret | wlimset | cont | domain | self | trcrec | trcrpl | trcstat | add | sub | and | or | xor | andn | shl | shr | sra |
    rotr | min | max | minu | maxu | clz | popc | mul | mulh | mulhu | div | divu | rem | remu | sel | mov | cmpeq | cmpne | cmplt |
    cmpltu | cmpge | cmpgeu | vadd | vsub | vmul | vfma | vmin | vmax | vabs | vneg | vdiv | vsqrt | vrsq | vrec | vexp2 | vlog2 | vand |
    vor | vxor | vnot | vshl | vshr | vsra | vclz | vcmpeq | vcmpne | vcmplt | vcmple | vcmpun | vclass | vsel | vmov | vbcast | vperm |
    vdot | vgetf | vsetf | vseed | vscale | tastat | bar | bara | barw | bibset | lock | unlock | trylk | seth | aset | tlbi | ctxsv |
    ctxrs | prq | wftsp | errlog | migr | ares =>
    refine reads_RRR (by decide) (by decide) rfl hh fun w hop hfn hw => ⟨?_, ?_, ?_⟩
    · rw [hasX, hop, hfn]; rfl
    · rw [isE, hop]; rfl
    · rw [decodeWord, hop]; conv => lhs; whnf
      rw [hfn, ← hw]; rfl
  case mcall | prio | addi | andi | ori | shli | cmpeqi | cmplti | tawin | tarst | tokp | tokw | trap =>
    refine reads_RI (by decide) (by decide) rfl hh fun w hop hfn hw => ⟨?_, ?_, ?_⟩
    · rw [hasX, hop, hfn]; rfl
    · rw [isE, hop]; rfl
    · rw [decodeWord, hop]; conv => lhs; whnf
      rw [hfn, ← hw]; rfl
  case plogAnd | plogOr | plogXor | plogAndn | plogOrn | plogNot | plogMov | plogClr =>
    refine reads_PL (by decide) rfl hh fun w hop hpl hw => ⟨?_, ?_, ?_⟩
    · rw [hasX, hop]; rfl
    · rw [isE, hop]; rfl
    · rw [decodeWord, hop]; conv => lhs; whnf
      rw [hpl, ← hw]; rfl
  case pget | pput | pcnt | pfirst =>
    refine reads_P3 (by decide) rfl hh fun w hop hfn hw => ⟨?_, ?_, ?_⟩
    · rw [hasX, hop]; rfl
    · rw [isE, hop]; rfl
    · rw [decodeWord, hop]; conv => lhs; whnf
      rw [hfn, ← hw]; rfl
  case nop | waite | rdv | node | efence | ksync | tret | udecl =>
    refine reads_word3 (by decide) (by decide) rfl hh fun w hop hfn hw => ⟨?_, ?_, ?_⟩
    · rw [hasX, hop, hfn]; rfl
    · rw [isE, hop]; rfl
    · rw [decodeWord, hop]; conv => lhs; whnf
      rw [hfn]; rfl
  case fenceStream | fenceJob | fenceCluster | fenceDevice | fenceSystem =>
    refine reads_word3 (by decide) (by decide) rfl hh fun w hop hfn hw => ⟨?_, ?_, ?_⟩
    · rw [hasX, hop, hfn]; rfl
    · rw [isE, hop]; rfl
    · rw [decodeWord, hop]; conv => lhs; whnf
      rw [hfn, hw]
      exact congrArg (fun b => some (fenceOf b)) (word3_bits ..).1
  all_goals exact absurd hlen (Nat.ne_of_beq_eq_false rfl)

/-- An engine command is read back: its row of the opcode map gives it (R46), and where rows share a word the field that its entry names
tells it apart. -/
theorem reads_of_command {h : Head} {i : Instr} (hi : i.wf = true) (hh : h.wf i.headKind = true) (hk : i.headKind = .sem) : Reads ⟨h, i⟩ := by
  cases i
  case tld | tst | tzero | tmov | tmma | tmmas | ttrn | tcvt | tfmt | wldw | wstw | wadmit | wcoll | wopt | wcks | wsave | wrest | xcopy |
    xfill | xpub | xtree | xred | xbcast | lsend | lrecv =>
    refine reads_E (by decide) (by decide) rfl hh fun w x hop hfn hw _ => ⟨?_, ?_, ?_⟩
    · rw [hasX, hop, hfn]; rfl
    · rw [isE, hop]; rfl
    · rw [decodeWord, hop]; conv => lhs; whnf
      rw [hfn, ← hw]; rfl
  case wbankSel f | wbankClaim f | wbankRel f =>
    simp [Instr.wf] at hi
    refine reads_E (by decide) (by decide) rfl hh fun w x hop hfn hw hx => ⟨?_, ?_, ?_⟩
    · rw [hasX, hop, hfn]; rfl
    · rw [isE, hop]; rfl
    · rw [decodeWord, hop]; conv => lhs; whnf
      rw [hfn, ← hw]
      have hsel := opField hx 0 2 (by decide)
      simp [hsel, hi]
  case wregnDef f | wregnRem f =>
    simp [Instr.wf] at hi
    refine reads_E (by decide) (by decide) rfl hh fun w x hop hfn hw hx => ⟨?_, ?_, ?_⟩
    · rw [hasX, hop, hfn]; rfl
    · rw [isE, hop]; rfl
    · rw [decodeWord, hop]; conv => lhs; whnf
      rw [hfn, ← hw]
      have hsel := opField hx 4 1 (by decide)
      simp [hsel, hi]
  case larm f | larmDis f =>
    simp [Instr.wf] at hi
    refine reads_E (by decide) (by decide) rfl hh fun w x hop hfn hw hx => ⟨?_, ?_, ?_⟩
    · rw [hasX, hop, hfn]; rfl
    · rw [isE, hop]; rfl
    · rw [decodeWord, hop]; conv => lhs; whnf
      rw [hfn, ← hw]
      have hsel := opField hx 6 1 (by decide)
      simp [hsel, hi]
  case tstart | wlease | wrls =>
    refine reads_E (by decide) (by decide) rfl hh fun w x hop hfn hw hx => ⟨?_, ?_, ?_⟩
    · rw [hasX, hop, hfn]; rfl
    · rw [isE, hop]; rfl
    · rw [decodeWord, hop]; conv => lhs; whnf
      rw [hfn]; rfl
  case tcksOff | tcksOn =>
    refine reads_E (by decide) (by decide) rfl hh fun w x hop hfn hw hx => ⟨?_, ?_, ?_⟩
    · rw [hasX, hop, hfn]; rfl
    · rw [isE, hop]; rfl
    · rw [decodeWord, hop]; conv => lhs; whnf
      rw [hfn, opBit hx]; rfl
  case wdrain | wdrainDiscard =>
    refine reads_E (by decide) (by decide) rfl hh fun w x hop hfn hw hx => ⟨?_, ?_, ?_⟩
    · rw [hasX, hop, hfn]; rfl
    · rw [isE, hop]; rfl
    · rw [decodeWord, hop]; conv => lhs; whnf
      rw [hfn, opField hx 0 1 (by decide)]; rfl
  all_goals exact HeadKind.noConfusion hk

/-- The other instructions of a word and an X word are read back in the same way. -/
theorem reads_of_word_x {h : Head} {i : Instr} (hi : i.wf = true) (hh : h.wf i.headKind = true)
    (hx : (i.headKind != .sem && (encode ⟨h, i⟩).length == 4) = true) : Reads ⟨h, i⟩ := by
  cases i
  case call | mdef | nest | joini | li | lih | lea | vlane | vext | vins | vslide | vred | vscan | vsett | vcvt | vpack | vunpk | tamode |
    tadly | talnch | tacap | semw | sems | semi | semrd | wreg | wdereg | whold | wqry | qpush | qpop | qpeek | qstat | csrr | inj =>
    refine reads_RX (by decide) (by decide) rfl hh fun w hop hfn hw => ⟨?_, ?_, ?_⟩
    · rw [hasX, hop, hfn]; rfl
    · rw [isE, hop]; rfl
    · rw [decodeWord, hop]; conv => lhs; whnf
      rw [hfn, ← hw]; rfl
  case csrwDmr f | csrwBib f | csrwBdepth f | csrwBprio f =>
    obtain ⟨-, hn⟩ := Bool.and_eq_true_iff.mp hi
    refine reads_RX (by decide) (by decide) rfl hh fun w hop hfn hw => ⟨?_, ?_, ?_⟩
    · rw [hasX, hop, hfn]; rfl
    · rw [isE, hop]; rfl
    · rw [decodeWord, hop]; conv => lhs; whnf
      rw [hfn, hw, show (f.x.extractLsb' 0 12).toNat = _ from eq_of_beq hn]; rfl
  case csrw f =>
    obtain ⟨-, hn⟩ := Bool.and_eq_true_iff.mp hi
    refine reads_RX (by decide) (by decide) rfl hh fun w hop hfn hw => ⟨?_, ?_, ?_⟩
    · rw [hasX, hop, hfn]; rfl
    · rw [isE, hop]; rfl
    · rw [decodeWord, hop]
      exact (op71_csrw hfn (Bool.not_eq_eq_eq_not.mp hn)).trans (by rw [hw])
  case ldl | stl | ldc | stc | mstc | ldg | stg | ldgq | pfg | vgath | vscat | gathq | ldk | ldkq | ldh | sth | hflsh | hinv | ldp | stp |
    spcfg | cinv | cflsh | clkr =>
    refine reads_M (by decide) (by decide) rfl hh fun w hop hfn hw _ => ⟨?_, ?_, ?_⟩
    · rw [hasX, hop, hfn]; rfl
    · rw [isE, hop]; rfl
    · rw [decodeWord, hop]; conv => lhs; whnf
      rw [hfn, hw]; rfl
  case aadd sp f | amin sp f | amax sp f | aand sp f | aor sp f | axor sp f | axchg sp f | acas sp f =>
    refine reads_M (by decide) sp.isLt rfl hh fun w hop hfn hw hsp => ⟨?_, ?_, ?_⟩
    · rw [hasX, hop]; rfl
    · rw [isE, hop]; rfl
    · rw [decodeWord, hop]; conv => lhs; whnf
      rw [hw, hsp, BitVec.ofNat_toNat, BitVec.setWidth_eq]
  case afadd sp f | ared sp f =>
    have hsp2 : sp.toNat ≠ 2 := fun e => by
      have h2 : sp = 2 := BitVec.eq_of_toNat_eq e
      simp [Instr.wf, h2] at hi
    refine reads_M (by decide) sp.isLt rfl hh fun w hop hfn hw hsp => ⟨?_, ?_, ?_⟩
    · rw [hasX, hop]; simp [hfn, hsp2]
    · rw [isE, hop]; rfl
    · rw [decodeWord, hop]
      refine (if_neg (hfn ▸ hsp2)).trans ?_
      rw [hw, hsp, BitVec.ofNat_toNat, BitVec.setWidth_eq]
  case wver | xrstat | lstep | lstat =>
    refine reads_E (by decide) (by decide) rfl (head_sem_of_plain hh) fun w x hop hfn hw _ => ⟨?_, ?_, ?_⟩
    · rw [hasX, hop, hfn]; rfl
    · rw [isE, hop]; rfl
    · rw [decodeWord, hop]; conv => lhs; whnf
      rw [hfn, ← hw]; rfl
  case xshdAlloc f | xshdFree f =>
    simp [Instr.wf] at hi
    refine reads_E (by decide) (by decide) rfl (head_sem_of_plain hh) fun w x hop hfn hw hx => ⟨?_, ?_, ?_⟩
    · rw [hasX, hop, hfn]; rfl
    · rw [isE, hop]; rfl
    · rw [decodeWord, hop]; conv => lhs; whnf
      rw [hfn, ← hw]
      have hsel := opField hx 0 1 (by decide)
      simp [hsel, hi]
  case lctrRd f | lctrWait f | lctrSet f | lctrAdd f =>
    simp [Instr.wf] at hi
    refine reads_E (by decide) (by decide) rfl (head_sem_of_plain hh) fun w x hop hfn hw hx => ⟨?_, ?_, ?_⟩
    · rw [hasX, hop, hfn]; rfl
    · rw [isE, hop]; rfl
    · rw [decodeWord, hop]; conv => lhs; whnf
      rw [hfn, ← hw]
      have hsel := opField hx 0 2 (by decide)
      simp [hsel, hi]
  all_goals exact Bool.noConfusion hx

/-- An instruction of 16 bits is read back. -/
theorem reads_of_half {h : Head} {i : Instr} (hh : h.wf i.headKind = true) (hlen : (encode ⟨h, i⟩).length = 1) : Reads ⟨h, i⟩ := by
  cases i
  case mov16 a d => exact reads_mov16 hh a d
  case add16 a d => exact reads_add16 hh a d
  case addi16 imm d => exact reads_addi16 hh imm d
  case br16 imm => exact reads_br16 hh imm
  case tok16Push k => exact reads_tok16Push hh k
  case tok16Wait k => exact reads_tok16Wait hh k
  case nop16 => exact reads_nop16 hh
  case inc => exact reads_inc hh
  all_goals exact absurd hlen (Nat.ne_of_beq_eq_false rfl)

theorem encode_length (h : Head) (i : Instr) : (encode ⟨h, i⟩).length ∈ [0, 1, 2, 4] := by
  cases i <;> exact List.mem_of_elem_eq_true rfl

/-- The encoding of a well-formed instruction is read back, by the count of its halfwords. -/
theorem reads_of_wf {h : Head} {i : Instr} (hi : i.wf = true) (hh : h.wf i.headKind = true) (hne : encode ⟨h, i⟩ ≠ []) :
    Reads ⟨h, i⟩ := by
  have hlen := encode_length h i
  simp only [List.mem_cons, List.not_mem_nil, or_false, List.length_eq_zero_iff] at hlen
  rcases hlen with h0 | h1 | h2 | h4
  · exact absurd h0 hne
  · exact reads_of_half hh h1
  · exact reads_of_word hh h2
  · by_cases hk : i.headKind = .sem
    · exact reads_of_command hi hh hk
    · exact reads_of_word_x hi hh (by rw [h4, bne_iff_ne.mpr hk]; rfl)

/-- Settles O2. -/
theorem decodeOfEncode : Obligations.DecodeOfEncode := by
  intro w rest hw hne
  obtain ⟨hi, hh⟩ := Bool.and_eq_true_iff.mp hw
  exact decode_of_reads hw (reads_of_wf hi hh hne) rest

end Sys2Proof.Decode
end

section
/-! PROOF. Every step keeps memory canonical (log entry 5): one lemma for each operation on the state and each meaning, and O58 from them. -/
namespace Sys2Proof.Machine

/-! The state in which a meaning, an access, a command or a turn ends. -/

@[simp] def Res.st : Res → State
  | .done s | .goto s _ | .wait s .. | .drain s | .stay s | .trap s _ => s

@[simp] def Accessed.st : Accessed → State
  | .ok s _ | .trap s _ | .hold s => s

@[simp] def CmdRes.st : CmdRes → State
  | .done s | .leave s | .wait s .. | .busy s | .trap s _ | .fail s _ => s

@[simp] def Todo.st : Todo → State
  | .run _ s | .next s => s

/-- A fold of steps that each keep memory canonical keeps it canonical. -/
theorem wf_foldl {α : Type} {f : State → α → State} (hf : ∀ s x, s.mem.wf = true → (f s x).mem.wf = true) {s : State} (h : s.mem.wf = true)
    (l : List α) : (l.foldl f s).mem.wf = true := by
  induction l generalizing s with
  | nil => exact h
  | cons x t ih => exact ih (hf s x h)

/-! One lemma for each operation on the state: canonical memory stays canonical. -/
theorem State.wf_pwrite8 {s : State} (h : s.mem.wf = true) (pa : Nat) (v : Word) :
    (State.pwrite8 s pa v).mem.wf = true := by
  unfold State.pwrite8
  grind [State.wf_pwriteN]

theorem State.wf_xlate {s : State} (h : s.mem.wf = true) (w : Walker) (asid : Nat) (user : Bool) (acc : Acc) (va : Int) (n : Nat) :
    (s.xlate w asid user acc va n).1.mem.wf = true := by
  rw [State.xlate_mem]; exact h

theorem State.wf_setCore {s : State} (h : s.mem.wf = true) (c : CoreId) (k : Core) :
    (State.setCore s c k).mem.wf = true := h

theorem State.wf_setStrm {s : State} (h : s.mem.wf = true) (c : CoreId) (i : StreamId) (t : Strm) :
    (State.setStrm s c i t).mem.wf = true := h

theorem State.wf_setDie {s : State} (h : s.mem.wf = true) (d : Fin 2) (x : Die) :
    (State.setDie s d x).mem.wf = true := h

theorem State.wf_setMe {s : State} (h : s.mem.wf = true) (k : Core) :
    (State.setMe s k).mem.wf = true := h

theorem State.wf_setStr {s : State} (h : s.mem.wf = true) (t : Strm) :
    (State.setStr s t).mem.wf = true := h

theorem State.wf_setMyDie {s : State} (h : s.mem.wf = true) (x : Die) :
    (State.setMyDie s x).mem.wf = true := h

theorem State.wf_put {s : State} (h : s.mem.wf = true) (lat : Nat) (dest : Dest) (mask : VWord) (val : VWord) (flags : BitVec 5) :
    (State.put s lat dest mask val flags).mem.wf = true := by
  unfold State.put
  grind [State.wf_setMe, State.wf_setStr]

theorem State.wf_putS {s : State} (h : s.mem.wf = true) (lat : Nat) (n : BitVec 5) (v : Word) :
    (State.putS s lat n v).mem.wf = true := by
  unfold State.putS
  grind [State.wf_put]

theorem State.wf_drawn {s : State} (h : s.mem.wf = true) :
    (State.drawn s).mem.wf = true := h

theorem State.wf_arrive {s : State} (h : s.mem.wf = true) (least : Nat) (dest : Dest) (mask : VWord) (val : VWord) (flags : BitVec 5) :
    (State.arrive s least dest mask val flags).mem.wf = true := h

theorem State.wf_arriveOwn {s : State} (h : s.mem.wf = true) (slot : Nat) (lm : Bool) (n : BitVec 5) (v : Word) :
    (State.arriveOwn s slot lm n v).mem.wf = true := h

theorem State.wf_arriveS {s : State} (h : s.mem.wf = true) (n : BitVec 5) (v : Word) :
    (State.arriveS s n v).mem.wf = true := h

theorem State.wf_putP {s : State} (h : s.mem.wf = true) (lat : Nat) (n : BitVec 7) (mask : BitVec 64) (v : BitVec 64) :
    (State.putP s lat n mask v).mem.wf = true := by
  unfold State.putP
  grind [State.wf_put]

theorem State.wf_putV {s : State} (h : s.mem.wf = true) (lat : Nat) (n : BitVec 5) (mask : VWord) (v : VWord) (flags : BitVec 5) :
    (State.putV s lat n mask v flags).mem.wf = true := by
  unfold State.putV
  grind [State.wf_put]

theorem State.wf_arriveV {s : State} (h : s.mem.wf = true) (n : BitVec 5) (mask : VWord) (v : VWord) (flags : BitVec 5) :
    (State.arriveV s n mask v flags).mem.wf = true := h

theorem State.wf_retire {s : State} (h : s.mem.wf = true) :
    (State.retire s).mem.wf = true := h

theorem State.wf_transfer {s : State} (h : s.mem.wf = true) (target : Word) :
    (State.transfer s target).mem.wf = true := h

theorem State.wf_fetch {s : State} (h : s.mem.wf = true) (c : CoreId) (i : StreamId) (va : Nat) (n : Nat) :
    (State.fetch s c i va n).1.mem.wf = true := by
  unfold State.fetch
  grind [State.wf_mark, State.wf_xlate]

theorem State.wf_target {s : State} (h : s.mem.wf = true) (c : CoreId) (i : StreamId) (va : Word) :
    (State.target s c i va).1.mem.wf = true := by
  unfold State.target
  grind [State.wf_fetch]

theorem State.wf_startSystem {s : State} (h : s.mem.wf = true) (d : Fin 2) (entry slot : Word) :
    (s.startSystem d entry slot).mem.wf = true := by
  unfold State.startSystem
  split <;> exact h

theorem State.wf_flushRecords {s : State} (h : s.mem.wf = true) (d : Fin 2) (l : List TrapRec) :
    (State.flushRecords d l s).mem.wf = true := by
  induction l generalizing s with
  | nil => exact h
  | cons r t ih =>
    unfold State.flushRecords
    grind [State.wf_pwriteN, State.wf_pwrite8, State.wf_setDie, State.wf_startSystem]

theorem State.wf_postSupervisor {s : State} (h : s.mem.wf = true) (d : Fin 2) (r : TrapRec) :
    (State.postSupervisor s d r).mem.wf = true := by
  unfold State.postSupervisor
  grind [State.wf_setDie, State.wf_flushRecords]

theorem State.wf_stopJob {s : State} (h : s.mem.wf = true) (c : CoreId) (r : TrapRec) :
    (State.stopJob s c r).mem.wf = true := by
  unfold State.stopJob
  grind [State.wf_setCore, State.wf_postSupervisor]

theorem State.wf_userTrap {s : State} (h : s.mem.wf = true) (c : CoreId) (r : TrapRec) :
    (State.userTrap s c r).mem.wf = true := by
  unfold State.userTrap
  grind [State.wf_mark, State.wf_xlate, State.wf_writePieces, State.wf_setCore, State.wf_target, State.wf_stopJob]

theorem State.wf_deliver {s : State} (h : s.mem.wf = true) (c : CoreId) (i : StreamId) (r : TrapRec) :
    (State.deliver s c i r).mem.wf = true := by
  unfold State.deliver
  grind [State.wf_setCore, State.wf_setStrm, State.wf_postSupervisor, State.wf_stopJob, State.wf_userTrap]

theorem State.wf_withdraw {s : State} (h : s.mem.wf = true) (c : CoreId) (i : StreamId) :
    (State.withdraw s c i).mem.wf = true := h

theorem State.wf_raise {s : State} (h : s.mem.wf = true) (c : CoreId) (i : StreamId) (t : TrapSpec) :
    (State.raise s c i t).mem.wf = true := by
  unfold State.raise
  grind [State.wf_deliver, State.wf_withdraw]

theorem State.wf_raiseOwn {s : State} (h : s.mem.wf = true) (c : CoreId) (i : StreamId) (t : TrapSpec) :
    (State.raiseOwn s c i t).mem.wf = true := by
  unfold State.raiseOwn
  grind [State.wf_setCore, State.wf_setStrm, State.wf_raise]

theorem State.wf_raiseHeld {s : State} (h : s.mem.wf = true) (c : CoreId) :
    (State.raiseHeld s c).mem.wf = true := by
  unfold State.raiseHeld
  grind [State.wf_setCore, State.wf_deliver]

theorem State.wf_leaveHandler {s : State} (h : s.mem.wf = true) (c : CoreId) :
    (State.leaveHandler s c).mem.wf = true := by
  unfold State.leaveHandler
  grind [State.wf_setCore, State.wf_setStrm, State.wf_raiseHeld]

theorem State.wf_onJob {s : State} (h : s.mem.wf = true) (jobid : Word) (f : Core → Core) :
    (State.onJob s jobid f).mem.wf = true := by
  unfold State.onJob
  grind [State.wf_setCore]

theorem State.wf_block {s : State} (h : s.mem.wf = true) (kind : WaitKind) (obj : Nat) (phys : Nat) (stage : Nat) (reg : Bool) :
    (State.block s kind obj phys stage reg).1.mem.wf = true := by
  unfold State.block
  grind [State.wf_setStr]

theorem State.wf_updateEprio {s : State} (h : s.mem.wf = true) :
    (State.updateEprio s).mem.wf = true := h

theorem Res.wf_open {s : State} (h : s.mem.wf = true) (stage : Nat) :
    (Res.open s stage).st.mem.wf = true := h

theorem State.wf_settle {s : State} (h : s.mem.wf = true) (c : CoreId) (i : StreamId) :
    (State.settle s c i).mem.wf = true := h

theorem State.wf_settled {s : State} (h : s.mem.wf = true) {body : State → Res}
    (hb : ∀ s : State, s.mem.wf = true → (body s).st.mem.wf = true) : (s.settled body).st.mem.wf = true := by
  unfold State.settled
  grind [State.wf_settle, Res.st]

theorem State.wf_noSlot {s : State} (h : s.mem.wf = true) :
    (State.noSlot s).mem.wf = true := h

theorem State.wf_dieLog {s : State} (h : s.mem.wf = true) (d : Fin 2) (cause : Nat) (w1 : Word) (w2 : Word) (w3 : Word) :
    (State.dieLog s d cause w1 w2 w3).mem.wf = true := h

theorem State.wf_logPoison {s : State} (h : s.mem.wf = true) (c : CoreId) (es : List (Vector Word 4)) :
    (State.logPoison s c es).mem.wf = true := by
  unfold State.logPoison
  grind [State.wf_setCore, State.wf_setDie]

theorem State.wf_consume {s : State} (h : s.mem.wf = true) (c : CoreId) (i : StreamId) (pz : Bool) (space : Nat) (pc : Word) (bad : List (Word × Word)) :
    (State.consume s c i pz space pc bad).1.mem.wf = true := by
  unfold State.consume
  grind [State.wf_setStrm, State.wf_logPoison]

theorem State.wf_poisonTrap {s : State} (h : s.mem.wf = true) (c : CoreId) (i : StreamId) (acc : Acc) (space : Nat) (pc : Word) (bad : List (Word × Word)) :
    (State.poisonTrap s c i acc space pc bad).1.mem.wf = true := by
  unfold State.poisonTrap
  grind [State.wf_logPoison]

theorem State.wf_seen {s : State} (h : s.mem.wf = true) (job : Word) (pa : Nat) (bs : List Byte) :
    (State.seen s job pa bs).1.mem.wf = true := by
  unfold State.seen
  grind []

theorem State.wf_readSeen {s : State} (h : s.mem.wf = true) (job : Word) (ps : List Piece) :
    (State.readSeen job ps s).1.mem.wf = true := by
  induction ps generalizing s with
  | nil => exact h
  | cons p t ih =>
    unfold State.readSeen
    grind [State.wf_seen]

theorem State.wf_xlateAll {s : State} (h : s.mem.wf = true) (c : CoreId) (i : StreamId) (acc : Acc) (rs : List (Int × Nat)) :
    (s.xlateAll c i acc rs).1.mem.wf = true := by
  unfold State.xlateAll
  split
  · exact h
  · refine List.foldlRecOn (motive := fun r : State × Except (Nat × Nat) (List Piece) => r.1.mem.wf = true) rs _ h fun r hr q _ => ?_
    grind [State.wf_xlate]

theorem State.wf_loadRanges {s : State} (h : s.mem.wf = true) (c : CoreId) (i : StreamId) (pz : Bool) (rs : List (Int × Nat)) :
    (State.loadRanges s c i pz rs).st.mem.wf = true := by
  unfold State.loadRanges
  grind [State.wf_mark, State.wf_consume, State.wf_readSeen, State.wf_xlateAll, Accessed.st]

theorem State.wf_loadG {s : State} (h : s.mem.wf = true) (c : CoreId) (i : StreamId) (pz : Bool) (va : Int) (n : Nat) :
    (State.loadG s c i pz va n).st.mem.wf = true := by
  unfold State.loadG
  grind [State.wf_loadRanges, Accessed.st]

theorem State.wf_storeRanges {s : State} (h : s.mem.wf = true) (c : CoreId) (i : StreamId) (rs : List (Int × Nat)) (bs : List Byte) :
    (State.storeRanges s c i rs bs).st.mem.wf = true := by
  unfold State.storeRanges
  grind [State.wf_mark, State.wf_writePieces, State.wf_xlateAll, Accessed.st]

theorem State.wf_atomCheck {s : State} (h : s.mem.wf = true) (c : CoreId) (i : StreamId) (va : Int) (n : Nat) :
    (State.atomCheck s c i va n).1.mem.wf = true := by
  unfold State.atomCheck
  grind [State.wf_xlate, State.wf_poisonTrap]

theorem State.wf_loadPad {s : State} (h : s.mem.wf = true) (c : CoreId) (i : StreamId) (t : CoreId) (space : Nat) (rs : List (Int × Nat)) :
    (State.loadPad s c i t space rs).st.mem.wf = true := by
  unfold State.loadPad
  grind [State.wf_consume, Accessed.st]

theorem State.wf_storePad {s : State} (h : s.mem.wf = true) (c : CoreId) (t : CoreId) (space : Nat) (rs : List (Int × Nat)) (bs : List Byte) :
    (State.storePad s c t space rs bs).st.mem.wf = true := by
  unfold State.storePad
  grind [State.wf_setCore, Accessed.st]

theorem State.wf_putElems {s : State} (h : s.mem.wf = true) (lat : Nat) (d : BitVec 5) (w : Nat) (sr : Bool) (es : List Nat) (op : Nat → Nat → Nat × Flags) :
    (State.putElems s lat d w sr es op).mem.wf = true := by
  unfold State.putElems
  grind [State.wf_setStr, State.wf_putV]

theorem State.wf_mapElems {s : State} (h : s.mem.wf = true) (lat : Nat) (f : RRR) (rounds : Bool) (op : Nat → RMode → Nat → Nat → Nat → Nat × Flags) :
    (State.mapElems s lat f rounds op).mem.wf = true := by
  unfold State.mapElems
  grind [State.wf_putElems]

theorem State.wf_enterBlock {s : State} (h : s.mem.wf = true) (c : CoreId) (i : StreamId) :
    (State.enterBlock s c i).mem.wf = true := by
  unfold State.enterBlock
  grind (splits := 40) [State.wf_setStrm, State.wf_fetch, State.wf_raiseOwn, State.wf_settle]

theorem State.wf_endPass {s : State} (h : s.mem.wf = true) (c : CoreId) (i : StreamId) (b : Block) :
    (State.endPass s c i b).mem.wf = true := by
  unfold State.endPass
  grind [State.wf_setStrm]

theorem State.wf_fetchHalves {s : State} (h : s.mem.wf = true) (c : CoreId) (i : StreamId) (va n : Nat) :
    (s.fetchHalves c i va n).1.mem.wf = true := by
  induction n generalizing s va with
  | zero => exact h
  | succ n ih =>
    unfold State.fetchHalves
    grind [State.wf_xlate]

theorem State.wf_fetchNext {s : State} (h : s.mem.wf = true) (c : CoreId) (i : StreamId) (b : Block) (off : Nat) :
    (State.fetchNext s c i b off).1.mem.wf = true := by
  unfold State.fetchNext
  grind [State.wf_fetch, State.wf_fetchHalves]

theorem State.wf_deliverStore {s : State} (h : s.mem.wf = true) (c : CoreId) (x : HostStore) : (s.deliverStore c x).mem.wf = true := by
  rw [(s.deliverStore_frame c x).1]; exact h

theorem State.wf_drainHost {s : State} (h : s.mem.wf = true) (c : CoreId) (sel : HostStore → Bool) :
    (s.drainHost c sel).mem.wf = true := by
  rw [State.drainHost_mem]; exact h

theorem State.wf_drainStream {s : State} (h : s.mem.wf = true) (c : CoreId) (i : StreamId) :
    (State.drainStream s c i).mem.wf = true := by
  unfold State.drainStream
  grind [State.wf_drainHost]

theorem State.wf_peersAcked {s : State} (h : s.mem.wf = true) {body : State → Res}
    (hb : ∀ s : State, s.mem.wf = true → (body s).st.mem.wf = true) : (s.peersAcked body).st.mem.wf = true := by
  unfold State.peersAcked
  grind [State.wf_setStr, Res.st]

theorem State.wf_fenced {s : State} (h : s.mem.wf = true) (scope : Nat) {body : State → Res}
    (hb : ∀ s : State, s.mem.wf = true → (body s).st.mem.wf = true) :
    (s.fenced scope body).st.mem.wf = true := by
  unfold State.fenced
  split
  · exact h
  · split
    · exact State.wf_peersAcked h fun s h => hb _ (State.wf_drainStream h s.ctx.core s.ctx.strm)
    · refine hb _ ?_
      split
      · exact State.wf_drainStream h s.ctx.core s.ctx.strm
      · exact h

theorem State.wf_afterLinks {s : State} (h : s.mem.wf = true) {body : State → Res}
    (hb : ∀ s : State, s.mem.wf = true → (body s).st.mem.wf = true) : (s.afterLinks body).st.mem.wf = true := by
  unfold State.afterLinks
  grind [Res.st]

theorem State.wf_barCount {s : State} (h : s.mem.wf = true) (i : Nat) :
    (State.barCount s i).mem.wf = true := by
  unfold State.barCount
  grind [State.wf_setDie, State.wf_setMe]

theorem State.wf_barArrive {s : State} (h : s.mem.wf = true) (i : Nat) {body : State → Res}
    (hb : ∀ s : State, s.mem.wf = true → (body s).st.mem.wf = true) : (s.barArrive i body).st.mem.wf = true := by
  unfold State.barArrive
  split
  · exact h
  · exact State.wf_fenced h _ fun s h => hb _ (State.wf_barCount h i)

theorem State.wf_barWait {s : State} (h : s.mem.wf = true) (i : Nat) (d : BitVec 5) :
    (State.barWait s i d).st.mem.wf = true := by
  unfold State.barWait
  grind [State.wf_putS, Res.st]

theorem State.wf_newDepth {s : State} (h : s.mem.wf = true) (d : Word) {body : State → Res}
    (hb : ∀ s : State, s.mem.wf = true → (body s).st.mem.wf = true) : (s.newDepth d body).st.mem.wf = true := by
  unfold State.newDepth
  grind [State.wf_setMe, Res.wf_open, Res.st]

theorem State.wf_holdLock {s : State} (h : s.mem.wf = true) (c : CoreId) (i : StreamId) (pa : Nat) (va : Nat) (abandoned : Bool) :
    (State.holdLock s c i pa va abandoned).mem.wf = true := by
  unfold State.holdLock
  grind [State.wf_pwriteN, State.wf_setDie]

theorem State.wf_dropLock {s : State} (h : s.mem.wf = true) (pa : Nat) (jobid : Word) :
    (State.dropLock s pa jobid).mem.wf = true := h

theorem State.wf_releaseLock {s : State} (h : s.mem.wf = true) (job : Word) (pa : Nat) (abandoned : Bool) :
    (State.releaseLock s job pa abandoned).mem.wf = true := by
  unfold State.releaseLock
  grind [State.wf_pwriteN, State.wf_setStrm, State.wf_holdLock]

theorem State.wf_tryAcquire {s : State} (h : s.mem.wf = true) (d : BitVec 5) (va : Nat) (pa : Nat) :
    ∀ r, State.tryAcquire s d va pa = some r → r.st.mem.wf = true := by
  unfold State.tryAcquire
  grind [State.wf_arriveS, State.wf_holdLock, Res.st]

theorem State.wf_countEmpty {s : State} (h : s.mem.wf = true) (n : Nat) :
    (State.countEmpty s n).mem.wf = true := by
  unfold State.countEmpty
  grind [State.wf_setMe]

theorem State.wf_takeHead {s : State} (h : s.mem.wf = true) (n : Nat) (pop : Bool) {go : State → Queue → VWord → Res}
    (hg : ∀ (s : State) q v, s.mem.wf = true → (go s q v).st.mem.wf = true) : (s.takeHead n pop go).st.mem.wf = true := by
  unfold State.takeHead
  grind [State.wf_countEmpty, Res.st]

theorem State.wf_deliverEntry {s : State} (h : s.mem.wf = true) (n : Nat) (d : BitVec 5) (v : VWord) :
    (State.deliverEntry s n d v).mem.wf = true := by
  unfold State.deliverEntry
  grind [State.wf_arriveS, State.wf_arriveV]

theorem State.wf_tokenPush {s : State} (h : s.mem.wf = true) (n : Nat) :
    (State.tokenPush s n).st.mem.wf = true := by
  unfold State.tokenPush
  grind [State.wf_setMe, State.wf_afterLinks, Res.st]

theorem State.wf_tokenWait {s : State} (h : s.mem.wf = true) (n : Nat) :
    (State.tokenWait s n).st.mem.wf = true := by
  unfold State.tokenWait
  grind [State.wf_setMe, Res.st]

theorem State.wf_dropRequest {s : State} (h : s.mem.wf = true) (c : CoreId) (x0 : Option Wait) :
    (State.dropRequest s c x0).mem.wf = true := by
  unfold State.dropRequest
  grind []

theorem State.wf_raiseCmd {s : State} (h : s.mem.wf = true) (c : CoreId) (e : Eng) (failing : Bool) (t : TrapSpec) :
    (State.raiseCmd s c e failing t).mem.wf = true := by
  unfold State.raiseCmd
  grind [State.wf_setCore, State.wf_deliver, State.wf_dropRequest]

theorem State.wf_raiseWait {s : State} (h : s.mem.wf = true) (x : Waiter) (t : TrapSpec) :
    (State.raiseWait s x t).mem.wf = true := by
  unfold State.raiseWait
  grind [State.wf_setStrm, State.wf_raise, State.wf_raiseCmd]

theorem State.wf_sweepDie {s : State} (h : s.mem.wf = true) (d : Fin 2) (fuel : Nat) (skip : List Waiter) :
    (State.sweepDie d fuel skip s).mem.wf = true := by
  induction fuel generalizing s skip with
  | zero => exact h
  | succ n ih =>
    unfold State.sweepDie
    grind [State.wf_raiseWait]

theorem State.wf_detect {s : State} (h : s.mem.wf = true) (l : List Waiter) : (State.detect l s).mem.wf = true := by
  induction l generalizing s with
  | nil => exact h
  | cons x t ih =>
    unfold State.detect
    grind [State.wf_raiseWait]

theorem State.wf_enqueue {s : State} (h : s.mem.wf = true) (e : Eng) (w : Code) (sa : Word) (sb : Word) (sd : Word) (more : List Word) :
    (State.enqueue s e w sa sb sd more).mem.wf = true := h

theorem State.wf_issueCmd {s : State} (h : s.mem.wf = true) (e : Eng) (i : Instr) (f : E) (more : State → List Word) :
    (State.issueCmd s e i f more).st.mem.wf = true := by
  unfold State.issueCmd
  grind [State.wf_enqueue, Res.st]

theorem State.wf_popCmd {s : State} (h : s.mem.wf = true) (c : CoreId) (e : Eng) :
    (State.popCmd s c e).mem.wf = true := h

theorem State.wf_cmdSignal {s : State} (h : s.mem.wf = true) (c : CoreId) (x : Cmd) :
    (State.cmdSignal s c x).mem.wf = true := by
  unfold State.cmdSignal
  grind [State.wf_setCore]

theorem State.wf_cmdBlock {s : State} (h : s.mem.wf = true) {s0 : State} (h0 : s0.mem.wf = true) (c : CoreId) (e : Eng) (kind : WaitKind)
    (obj phys stage : Nat) (reg : Bool) : (s.cmdBlock s0 c e kind obj phys stage reg).mem.wf = true := by
  unfold State.cmdBlock
  grind [State.wf_raiseCmd, State.setCore]

theorem State.wf_asCmd {s : State} (h : s.mem.wf = true) (c : CoreId) (e : Eng) (x : Cmd) :
    (State.asCmd s c e x).mem.wf = true := h

theorem CmdRes.wf_close {s0 : State} (h0 : s0.mem.wf = true) (c : CoreId) (e : Eng) (x : Cmd) {r : CmdRes} (h : r.st.mem.wf = true) :
    (CmdRes.close s0 c e x r).mem.wf = true := by
  cases r with
  | done s => exact State.wf_cmdSignal (State.wf_popCmd h ..) ..
  | leave s => exact State.wf_popCmd h ..
  | wait s kind obj phys stage reg => exact State.wf_cmdBlock h h0 ..
  | busy s => exact h
  | trap s t => exact State.wf_raiseCmd h ..
  | fail s t => exact State.wf_raiseCmd h ..

theorem State.wf_runCmd {s : State} (h : s.mem.wf = true) (c : CoreId) (e : Eng) (ord : Nat) {body : State → Cmd → CmdRes}
    (hb : ∀ (s : State) x, s.mem.wf = true → (body s x).st.mem.wf = true) : (s.runCmd c e ord body).mem.wf = true := by
  unfold State.runCmd
  dsimp only
  split
  · exact h
  · split
    · exact h
    · split
      · split
        · exact State.wf_cmdBlock h h ..
        · exact CmdRes.wf_close (State.wf_setCore h ..) _ _ _ (hb _ _ (State.wf_asCmd (State.wf_setCore h ..) ..))
      · exact CmdRes.wf_close h _ _ _ (hb _ _ (State.wf_asCmd h ..))

theorem State.wf_compare {s : State} (h : s.mem.wf = true) (c : CoreId) (e : Eng) (ord : Nat) :
    (State.compare s c e ord).mem.wf = true := by
  unfold State.compare
  grind [State.wf_setCore, State.wf_deliver]

theorem State.wf_setArr {s : State} (h : s.mem.wf = true) (n : Nat) (a : WArray) :
    (State.setArr s n a).mem.wf = true := h

theorem State.wf_waveDone {s : State} (h : s.mem.wf = true) (w : Wave) :
    (State.waveDone s w).mem.wf = true := by
  unfold State.waveDone
  grind [State.wf_onJob]

theorem State.wf_fillOutput {s : State} (h : s.mem.wf = true) (w : Wave) (failed : Bool) :
    (State.fillOutput s w failed).mem.wf = true := by
  unfold State.fillOutput
  grind [State.wf_onJob, State.wf_waveDone]

theorem State.wf_deliverWave {s : State} (h : s.mem.wf = true) (n : Nat) (w : Wave) :
    (State.deliverWave s n w).mem.wf = true := by
  unfold State.deliverWave
  grind [State.wf_setArr, State.wf_fillOutput]

theorem State.wf_requestLease {s : State} (h : s.mem.wf = true) (n : Nat) (c : CoreId) :
    (State.requestLease s n c).mem.wf = true := by
  unfold State.requestLease
  grind [State.wf_setArr]

theorem State.wf_recall {s : State} (h : s.mem.wf = true) (n : Nat) (c : CoreId) (pick : Wave → Bool) :
    (State.recall s n c pick).mem.wf = true := by
  unfold State.recall
  grind [State.wf_setCore, State.wf_setArr]

theorem State.wf_faultWave {s : State} (h : s.mem.wf = true) (n : Nat) (w : Wave) (t : TrapSpec) :
    (State.faultWave s n w t).mem.wf = true := by
  unfold State.faultWave
  grind [State.wf_raiseCmd, State.wf_recall]

theorem State.wf_arrayTrap {s : State} (h : s.mem.wf = true) (n : Nat) (t : TrapSpec) :
    (State.arrayTrap s n t).mem.wf = true := by
  unfold State.arrayTrap
  grind [State.wf_setCore, State.wf_deliver, State.wf_onJob, State.wf_setArr]

theorem State.wf_owedTraps {s : State} (h : s.mem.wf = true) (c : CoreId) (l : List (Nat × List Word)) :
    (State.owedTraps c l s).mem.wf = true := by
  induction l generalizing s with
  | nil => exact h
  | cons x t ih => exact ih (State.wf_deliver h ..)

theorem State.wf_turnLease {s : State} (h : s.mem.wf = true) (n : Nat) :
    (State.turnLease s n).mem.wf = true := by
  unfold State.turnLease
  grind [State.wf_setArr, State.wf_requestLease, State.wf_recall, State.wf_owedTraps]

theorem State.wf_failWaves {s : State} (h : s.mem.wf = true) (n : Nat) (l : List Wave) : (State.failWaves n l s).mem.wf = true := by
  induction l generalizing s with
  | nil => exact h
  | cons w t ih =>
    unfold State.failWaves
    grind [State.wf_setArr, State.wf_waveDone, State.wf_deliverWave]

theorem State.wf_discardArray {s : State} (h : s.mem.wf = true) (n : Nat) (back : Bool) : (s.discardArray n back).mem.wf = true := by
  unfold State.discardArray
  refine State.wf_setArr ?_ ..
  have hf := State.wf_failWaves h n (s.arr n).flying
  split
  · exact wf_foldl (fun s c hs => State.wf_recall hs ..) hf _
  · exact hf

theorem State.wf_leaveEdges {s : State} (h : s.mem.wf = true) (c : CoreId) :
    (State.leaveEdges s c).mem.wf = true := h

theorem State.wf_dropLease {s : State} (h : s.mem.wf = true) (c : CoreId) :
    (State.dropLease s c).mem.wf = true := by
  unfold State.dropLease
  grind [State.wf_setArr, State.wf_discardArray, State.wf_leaveEdges]

theorem State.wf_cellUpset {s : State} (h : s.mem.wf = true) (n : Nat) (b : Nat) (i : Nat) :
    (State.cellUpset s n b i).mem.wf = true := by
  unfold State.cellUpset
  grind [State.wf_setArr, State.wf_arrayTrap]

theorem State.wf_failedChecks {s : State} (h : s.mem.wf = true) (n : Nat) (l : List Wave) :
    (State.failedChecks n l s).mem.wf = true := by
  induction l generalizing s with
  | nil => exact h
  | cons w t ih => exact ih (State.wf_arrayTrap (State.wf_setArr h ..) ..)

theorem State.wf_deliveries {s : State} (h : s.mem.wf = true) (n : Nat) (l : List Wave) : (State.deliveries n l s).mem.wf = true := by
  induction l generalizing s with
  | nil => exact h
  | cons w t ih =>
    unfold State.deliveries
    grind [State.wf_setArr, State.wf_deliverWave]

theorem State.wf_readmit {s : State} (h : s.mem.wf = true) (n : Nat) (w : Wave) :
    (State.readmit s n w).mem.wf = true := h

theorem State.wf_enterArray {s : State} (h : s.mem.wf = true) (n : Nat) (w : Wave) :
    (State.enterArray s n w).mem.wf = true := by
  unfold State.enterArray
  grind [State.wf_setStrm, State.wf_setArr, State.wf_faultWave]

theorem State.wf_takeIn {s : State} (h : s.mem.wf = true) (n : Nat) (w : Wave) :
    (State.takeIn s n w).mem.wf = true := by
  unfold State.takeIn
  grind [State.wf_readmit, State.wf_enterArray]

theorem State.wf_commits {s : State} (h : s.mem.wf = true) (n : Nat) (l : List Wave) : (State.commits n l s).mem.wf = true := by
  induction l generalizing s with
  | nil => exact h
  | cons w t ih => exact ih (State.wf_waveDone (State.wf_setArr h ..) ..)

theorem State.wf_readK {s : State} (h : s.mem.wf = true) (c : CoreId) (i : StreamId) (p : Piece) :
    (State.readK s c i p).1.mem.wf = true := by
  unfold State.readK
  grind [State.wf_setStrm, State.wf_drawn, State.wf_seen]

theorem State.wf_readKAll {s : State} (h : s.mem.wf = true) (c : CoreId) (i : StreamId) (ps : List Piece) :
    (State.readKAll c i ps s).1.mem.wf = true := by
  induction ps generalizing s with
  | nil => exact h
  | cons p t ih =>
    unfold State.readKAll
    grind [State.wf_readK]

theorem State.wf_loadK {s : State} (h : s.mem.wf = true) (c : CoreId) (i : StreamId) (pz : Bool) (rs : List (Int × Nat)) :
    (State.loadK s c i pz rs).st.mem.wf = true := by
  unfold State.loadK
  grind [State.wf_mark, State.wf_consume, State.wf_xlateAll, State.wf_readKAll, Accessed.st]

theorem State.wf_envHost {s : State} (h : s.mem.wf = true) (a : Nat) (n : Nat) :
    (State.envHost s a n).mem.wf = true := by
  unfold State.envHost
  grind [State.wf_drawn]

theorem State.wf_hostLine {s : State} (h : s.mem.wf = true) (c : CoreId) (l : Nat) : (s.hostLine c l).1.mem.wf = true := by
  have hf (s : State) (h : s.mem.wf = true) : (State.hostLine.fetchLine c l s).1.mem.wf = true := by
    unfold State.hostLine.fetchLine
    grind [State.wf_envHost, State.wf_setCore]
  unfold State.hostLine
  grind [State.wf_drawn]

theorem State.wf_hostLines {s : State} (h : s.mem.wf = true) (c : CoreId) (l : List Nat) : (State.hostLines c l s).1.mem.wf = true := by
  induction l generalizing s with
  | nil => exact h
  | cons x t ih =>
    unfold State.hostLines
    grind [State.wf_hostLine]

theorem State.wf_loadHost1 {s : State} (h : s.mem.wf = true) (c : CoreId) (cached : Bool) (a : Nat) (n : Nat) :
    (State.loadHost1 s c cached a n).1.mem.wf = true := by
  unfold State.loadHost1
  grind [State.wf_envHost, State.wf_hostLines]

theorem State.wf_deliverOldest {s : State} (h : s.mem.wf = true) (c : CoreId) (n : Nat) : (s.deliverOldest c n).mem.wf = true :=
  wf_foldl (f := fun (s : State) x => s.deliverStore c x) (fun _ x hs => State.wf_deliverStore hs c x)
    (State.wf_setCore h c _) _

theorem State.wf_bufferStore {s : State} (h : s.mem.wf = true) (c : CoreId) (i : StreamId) (a : Nat) (bs : List Byte) :
    (State.bufferStore s c i a bs).mem.wf = true := by
  unfold State.bufferStore
  grind [State.wf_setCore, State.wf_deliverOldest]

theorem State.wf_storeHost {s : State} (h : s.mem.wf = true) (c : CoreId) (i : StreamId) (rs : List (Int × Nat)) (bs : List Byte) :
    (s.storeHost c i rs bs).st.mem.wf = true := by
  unfold State.storeHost
  split
  · exact h
  · refine List.foldlRecOn (motive := fun x : State × List Byte => x.1.mem.wf = true) rs _ h fun x hx r _ => ?_
    exact State.wf_bufferStore hx ..

theorem State.wf_flushHost {s : State} (h : s.mem.wf = true) (c : CoreId) (i : StreamId) (lo : Int) (hi : Int) :
    (State.flushHost s c i lo hi).mem.wf = true := by
  unfold State.flushHost
  grind [State.wf_drainHost]

theorem State.wf_readHost {s : State} (h : s.mem.wf = true) (c : CoreId) (cached : Bool) (x0 : List (Int × Nat)) :
    (State.readHost c cached x0 s).st.mem.wf = true := by
  induction x0 generalizing s with
  | nil => exact h
  | cons y t ih =>
    unfold State.readHost
    grind (splits := 40) [State.wf_loadHost1, Accessed.st]

theorem State.wf_loadHost {s : State} (h : s.mem.wf = true) (c : CoreId) (i : StreamId) (cached : Bool) (rs : List (Int × Nat)) :
    (s.loadHost c i cached rs).st.mem.wf = true := by
  unfold State.loadHost
  split
  · exact h
  · exact State.wf_readHost (wf_foldl (f := fun (s : State) (r : Int × Nat) => s.flushHost c i r.1 (r.1 + r.2))
      (fun _ _ hs => State.wf_flushHost hs ..) h rs) ..

theorem State.wf_setRemote {s : State} (h : s.mem.wf = true) (r : Remote) :
    (State.setRemote s r).mem.wf = true := h

theorem State.wf_envPeer {s : State} (h : s.mem.wf = true) (p : Peer) (a : Nat) (n : Nat) :
    (State.envPeer s p a n).mem.wf = true := by
  unfold State.envPeer
  grind [State.wf_drawn, State.wf_setRemote]

theorem State.wf_peerChecks {s : State} (h : s.mem.wf = true) (acc : Acc) (pc : Word) (n : Nat) (p : Peer) (l : List (Int × Nat)) :
    (State.peerChecks acc pc n p l s).1.mem.wf = true := by
  induction l generalizing s with
  | nil => exact h
  | cons r t ih =>
    unfold State.peerChecks
    grind [State.wf_poisonTrap]

theorem State.wf_peerAccess {s : State} (h : s.mem.wf = true) (acc : Acc) (n : Nat) (rs : List (Int × Nat))
    {go : State → Peer → State × List Byte} (hg : ∀ (s : State) p, s.mem.wf = true → (go s p).1.mem.wf = true) :
    (s.peerAccess acc n rs go).st.mem.wf = true := by
  unfold State.peerAccess
  grind (splits := 40) [State.wf_peerChecks, State.wf_setStr, State.wf_drawn, Accessed.st]

theorem State.wf_loadPeer {s : State} (h : s.mem.wf = true) (n : Nat) (rs : List (Int × Nat)) : (s.loadPeer n rs).st.mem.wf = true := by
  have ha := State.wf_peerAccess h .load n rs (go := fun s p =>
    let s1 := rs.foldl (fun s r => s.envPeer p r.1.toNat r.2) s
    (s1, rs.flatMap fun r => (s1.remote p).readClean r)) fun s p hs =>
      wf_foldl (f := fun (s : State) (r : Int × Nat) => s.envPeer p r.1.toNat r.2) (fun _ _ hs => State.wf_envPeer hs ..) hs rs
  unfold State.loadPeer
  grind [State.wf_consume, Accessed.st]

theorem State.wf_storePeer {s : State} (h : s.mem.wf = true) (c : CoreId) (i : StreamId) (n : Nat) (rs : List (Int × Nat)) (bs : List Byte) :
    (State.storePeer s c i n rs bs).st.mem.wf = true := by
  unfold State.storePeer
  grind [State.wf_setStrm, State.wf_drawn, State.wf_setRemote, Accessed.st]

theorem State.wf_raisePending {s : State} (h : s.mem.wf = true) (sel : PendFault → Bool) {body : State → Res}
    (hb : ∀ s : State, s.mem.wf = true → (body s).st.mem.wf = true) :
    (s.raisePending sel body).st.mem.wf = true := by
  unfold State.raisePending
  grind [State.wf_setStr, Res.st]

theorem State.wf_loadPath {s : State} (h : s.mem.wf = true) (path : Path) (pz : Bool) (rs : List (Int × Nat)) :
    (State.loadPath s path pz rs).st.mem.wf = true := by
  unfold State.loadPath
  grind [State.wf_loadRanges, State.wf_loadPad, State.wf_loadK, State.wf_loadHost, State.wf_loadPeer, Accessed.st]

theorem State.wf_storePath {s : State} (h : s.mem.wf = true) (path : Path) (rs : List (Int × Nat)) (bs : List Byte) :
    (State.storePath s path rs bs).st.mem.wf = true := by
  unfold State.storePath
  grind [State.wf_storeRanges, State.wf_storePad, State.wf_storeHost, State.wf_storePeer, Accessed.st]

theorem State.wf_deliverS {s : State} (h : s.mem.wf = true) (lat : Option Nat) (d : BitVec 5) (v : Word) :
    (State.deliverS s lat d v).mem.wf = true := by
  unfold State.deliverS
  grind [State.wf_putS, State.wf_arrive]

theorem State.wf_deliverV {s : State} (h : s.mem.wf = true) (lat : Option Nat) (d : BitVec 5) (mask : VWord) (v : VWord) :
    (State.deliverV s lat d mask v).mem.wf = true := by
  unfold State.deliverV
  grind [State.wf_arrive, State.wf_putV]

theorem Accessed.wf_res {x : Accessed} (h : x.st.mem.wf = true) {go : State → List Byte → Res}
    (hg : ∀ (s : State) bs, s.mem.wf = true → (go s bs).st.mem.wf = true) : (x.res go).st.mem.wf = true := by
  cases x with
  | ok s bs => exact hg s bs h
  | trap s t => exact h
  | hold s => exact h

theorem State.wf_load {s : State} (h : s.mem.wf = true) (f : M) (path : Path) (ea : Int) (pz : Bool) (lat : Option Nat) :
    (State.load f path ea pz lat s).st.mem.wf = true := by
  unfold State.load
  grind [State.wf_loadPath, State.wf_deliverS, State.wf_deliverV, Accessed.wf_res, Res.st, Accessed.st]

theorem State.wf_store {s : State} (h : s.mem.wf = true) (f : M) (path : Path) (ea : Int) :
    (State.store f path ea s).st.mem.wf = true := by
  unfold State.store
  grind [State.wf_storePath, Accessed.wf_res, Res.st, Accessed.st]

theorem State.wf_queueRoom {s : State} (h : s.mem.wf = true) (n : Nat) {go : State → Res}
    (hgo : ∀ (s : State), s.mem.wf = true → (go s).st.mem.wf = true) :
    (State.queueRoom s n go).st.mem.wf = true := by
  unfold State.queueRoom
  grind [Res.st]

theorem State.wf_lockLines {s : State} (h : s.mem.wf = true) (n : Nat) (lines : List (Nat × Bool)) :
    (State.lockLines s n lines).mem.wf = true := h

theorem State.wf_reserve {s : State} (h : s.mem.wf = true) (n : Nat) (v : VWord) :
    (State.reserve s n v).mem.wf = true := h

theorem State.wf_gathLoad {s : State} (h : s.mem.wf = true) (f : M) (idx : Word) :
    (State.gathLoad s f idx).st.mem.wf = true := by
  unfold State.gathLoad
  grind [State.wf_setMe, State.wf_setStr, State.wf_loadG, State.wf_reserve, Res.st, Accessed.st]

theorem State.wf_checkElems {s : State} (h : s.mem.wf = true) (acc : Acc) (eb : Nat) (x0 : List (Nat × Int)) :
    (State.checkElems acc eb x0 s).1.mem.wf = true := by
  induction x0 generalizing s with
  | nil => exact h
  | cons y t ih =>
    unfold State.checkElems
    grind (splits := 40) [State.wf_xlate]

theorem State.wf_maintPieces {s : State} (h : s.mem.wf = true) (f : M) {go : State → List Piece → Res}
    (hgo : ∀ (s : State) (a : List Piece), s.mem.wf = true → (go s a).st.mem.wf = true) :
    (State.maintPieces s f go).st.mem.wf = true := by
  unfold State.maintPieces
  grind [State.wf_mark, State.wf_xlate, Res.st]

theorem State.wf_hostRange {s : State} (h : s.mem.wf = true) (f : M) (acc : Acc) {go : Int → Int → Res}
    (hg : ∀ lo hi, (go lo hi).st.mem.wf = true) : (s.hostRange f acc go).st.mem.wf = true := by
  unfold State.hostRange
  grind [Res.st]

theorem State.wf_setPair {s : State} (h : s.mem.wf = true) (p : Pair) :
    (State.setPair s p).mem.wf = true := h

theorem State.wf_selector {s : State} (h : s.mem.wf = true) (p : Pair) (acc : Acc) :
    (State.selector s p acc).1.mem.wf = true := by
  unfold State.selector
  grind [State.wf_xlate, State.wf_poisonTrap]

theorem State.wf_copySource {s : State} (h : s.mem.wf = true) (c : CoreId) (x : Copy) (w : Nat) :
    (State.copySource s c x w).1.mem.wf = true := by
  unfold State.copySource
  grind [State.wf_seen]

theorem State.wf_shadowWrite {s : State} (h : s.mem.wf = true) (asid : BitVec 13) (pair : Nat) (job : Word) (pa : Nat) (bs : List Byte) :
    (State.shadowWrite s asid pair job pa bs).mem.wf = true := h

theorem State.wf_copySure {s : State} (h : s.mem.wf = true) (asid : BitVec 13) (job : Word) (x : Copy) :
    (State.copySure s asid job x).mem.wf = true := h

theorem State.wf_copyWords {s : State} (h : s.mem.wf = true) (c : CoreId) (x0 : List Nat) (x2 : Copy) :
    (State.copyWords c x0 s x2).1.mem.wf = true := by
  induction x0 generalizing s x2 with
  | nil => exact h
  | cons y t ih =>
    unfold State.copyWords
    grind (splits := 40) [State.wf_copySource, State.wf_shadowWrite]

theorem State.wf_endCopy {s : State} (h : s.mem.wf = true) (c : CoreId) (x : Copy) :
    (State.endCopy s c x).mem.wf = true := by
  unfold State.endCopy
  grind [State.wf_setCore, State.wf_setStrm, State.wf_logPoison, State.wf_setPair, State.wf_copySure]

theorem State.wf_copySlot {s : State} (h : s.mem.wf = true) (c : CoreId) (x0 : List Copy) :
    (State.copySlot c x0 s).1.mem.wf = true := by
  induction x0 generalizing s with
  | nil => exact h
  | cons y t ih =>
    unfold State.copySlot
    grind (splits := 40) [State.wf_setCore, State.wf_drawn, State.wf_copyWords]

theorem State.wf_copiesSlot {s : State} (h : s.mem.wf = true) (x0 : List CoreId) :
    (State.copiesSlot x0 s).1.mem.wf = true := by
  induction x0 generalizing s with
  | nil => exact h
  | cons y t ih =>
    unfold State.copiesSlot
    grind (splits := 40) [State.wf_copySlot]

theorem State.wf_acceptCopy {s : State} (h : s.mem.wf = true) (x : Cmd) (f : E) (fill : Option Word) (pad : Bool) :
    (s.acceptCopy x f fill pad).st.mem.wf = true := by
  unfold State.acceptCopy
  dsimp only
  iterate 6
    split
    · exact h
  have hfrom : (if (fill.isSome || pad) = true then (s, Except.ok []) else
      s.xlate (.strm s.ctx.core .as) s.me.asid.toNat (userOf s.ctx.core) .load x.sa.toNat x.sb.toNat).1.mem.wf = true := by
    split
    · exact h
    · exact State.wf_xlate h ..
  split
  case h_1 s1 e he => rw [he] at hfrom; exact hfrom
  case h_2 s1 src he =>
    rw [he] at hfrom
    grind (splits := 20) [State.wf_xlate, State.wf_selector, State.wf_mark, State.wf_endCopy, State.wf_setMe, CmdRes.st]

theorem State.wf_atomReach {s : State} (h : s.mem.wf = true) (sp : Nat) (t : CoreId) (ea : Int) (eb : Nat) :
    (State.atomReach s sp t ea eb).1.mem.wf = true := by
  unfold State.atomReach
  grind [State.wf_poisonTrap, State.wf_atomCheck]

theorem State.wf_atomChecks {s : State} (h : s.mem.wf = true) (sp : Nat) (t : CoreId) (eb : Nat) (x0 : List AtomElem) :
    (State.atomChecks sp t eb x0 s).1.mem.wf = true := by
  induction x0 generalizing s with
  | nil => exact h
  | cons y t ih =>
    unfold State.atomChecks
    grind (splits := 40) [State.wf_atomReach]

theorem State.wf_atomDo {s : State} (h : s.mem.wf = true) (eb : Nat) (x : AtomElem) (x0 : AtomAt) :
    (State.atomDo s eb x x0).1.mem.wf = true := by
  unfold State.atomDo
  grind [State.wf_mark, State.wf_writePieces, State.wf_setCore, State.wf_envHost, State.wf_flushHost]

theorem State.wf_atomAll {s : State} (h : s.mem.wf = true) (eb : Nat) (x0 : List (AtomElem × AtomAt)) :
    (State.atomAll eb x0 s).1.mem.wf = true := by
  induction x0 generalizing s with
  | nil => exact h
  | cons y t ih =>
    unfold State.atomAll
    grind (splits := 40) [State.wf_atomDo]

theorem State.wf_atomPeer {s : State} (h : s.mem.wf = true) (p : Peer) (eb : Nat) (x0 : List AtomElem) :
    (State.atomPeer p eb x0 s).1.mem.wf = true := by
  induction x0 generalizing s with
  | nil => exact h
  | cons y t ih =>
    unfold State.atomPeer
    grind (splits := 40) [State.wf_setRemote, State.wf_envPeer]

theorem State.wf_atoms {s : State} (h : s.mem.wf = true) (sp : BitVec 2) (f : M) (xs : List AtomElem) :
    (State.atoms s sp f xs).st.mem.wf = true := by
  unfold State.atoms
  grind [State.wf_peerAccess, State.wf_atomChecks, State.wf_atomAll, State.wf_atomPeer, Accessed.st]

theorem State.wf_countEpoch {s : State} (h : s.mem.wf = true) (j : Nat) :
    (State.countEpoch s j).mem.wf = true := h

theorem State.wf_failMembers {s : State} (h : s.mem.wf = true) (c : CoreId) (t : Tree) (epoch : Nat) (cause : Nat) (bitmap : Word) (own : CoreId × Option TrapSpec) (x0 : List Nat) :
    (State.failMembers c t epoch cause bitmap own x0 s).mem.wf = true := by
  induction x0 generalizing s with
  | nil => exact h
  | cons y t ih =>
    unfold State.failMembers
    grind (splits := 40) [State.wf_raiseCmd]

theorem State.wf_failEpoch {s : State} (h : s.mem.wf = true) (c : CoreId) (t : Tree) (epoch : Nat) (cause : Nat) (bitmap : Word) (own : CoreId × Option TrapSpec) :
    (State.failEpoch s c t epoch cause bitmap own).mem.wf = true := by
  unfold State.failEpoch
  grind [State.wf_setDie, State.wf_failMembers]

theorem State.wf_combine {s : State} (h : s.mem.wf = true) (c : CoreId) (t : Tree) (op : Nat) (ty : Nat) (x0 : List Nat) (x2 : List (BitVec 32)) :
    (State.combine c t op ty x0 s x2).1.mem.wf = true := by
  induction x0 generalizing s x2 with
  | nil => exact h
  | cons y t ih =>
    unfold State.combine
    grind (splits := 40) [State.wf_setDie]

theorem State.wf_sendDown {s : State} (h : s.mem.wf = true) (c : CoreId) (t : Tree) (sig : Nat) (vals : List (BitVec 32)) :
    (State.sendDown s c t sig vals).mem.wf = true := h

theorem State.wf_startTimer {s : State} (h : s.mem.wf = true) :
    (State.startTimer s).mem.wf = true := by
  unfold State.startTimer
  grind [State.wf_setCore]

theorem State.wf_progress {s : State} (h : s.mem.wf = true) (stage : Nat) (acc : List (BitVec 32)) (next : Nat) :
    (State.progress s stage acc next).mem.wf = true := h

theorem State.wf_finishColl {s kept : State} (h : s.mem.wf = true) (hk : kept.mem.wf = true) (dst : Word) (j : Nat)
    (vals : List (BitVec 32)) {after : State → State} (ha : ∀ s : State, s.mem.wf = true → (after s).mem.wf = true) :
    (s.finishColl kept dst j vals after).st.mem.wf = true := by
  unfold State.finishColl
  grind [State.wf_storePad, State.wf_countEpoch, CmdRes.st, Accessed.st]

theorem State.wf_onEpoch {s : State} (h : s.mem.wf = true) (x : Cmd) (j : Nat) {run : Tree → CmdRes}
    (hr : ∀ t, (run t).st.mem.wf = true) : (s.onEpoch x j run).st.mem.wf = true := by
  unfold State.onEpoch
  grind [State.wf_countEpoch, CmdRes.st]

theorem State.wf_agreeing {s : State} (h : s.mem.wf = true) (t : Tree) {go : Unit → CmdRes} (hg : (go ()).st.mem.wf = true) :
    (s.agreeing t go).st.mem.wf = true := by
  unfold State.agreeing
  grind [State.wf_failEpoch, CmdRes.st]

theorem wf_collWait {s : State} (h : s.mem.wf = true) :
    (collWait s).st.mem.wf = true := h

theorem State.wf_takeDown {s : State} (h : s.mem.wf = true) (t : Tree) : ∀ r, s.takeDown t = some r → r.2.mem.wf = true := by
  intro r hr
  obtain ⟨p, -, rfl⟩ := Option.map_eq_some_iff.1 hr
  exact h

theorem State.wf_receiveDown {s : State} (h : s.mem.wf = true) (x : Cmd) (t : Tree) (j sig : Nat) :
    (s.receiveDown x t j sig).st.mem.wf = true := by
  have hd := State.wf_takeDown h t
  unfold State.receiveDown
  split
  · exact h
  · next heq => exact State.wf_finishColl (hd _ heq) h _ _ _ fun _ hs => State.wf_sendDown hs ..

theorem State.wf_reduce {s : State} (h : s.mem.wf = true) (x : Cmd) (t : Tree) (j : Nat) (op : Nat) (ty : Nat) (sig : Nat) (bc : Bool) (acc : List (BitVec 32)) (next : Nat) :
    (State.reduce s x t j op ty sig bc acc next).st.mem.wf = true := by
  unfold State.reduce
  grind [State.wf_setDie, State.wf_countEpoch, State.wf_combine, State.wf_sendDown, State.wf_progress, State.wf_finishColl, wf_collWait, CmdRes.st]

theorem State.wf_loadTree {s : State} (h : s.mem.wf = true) (c : CoreId) (j : Nat) (d : List Byte) (load : Nat) :
    (State.loadTree s c j d load).mem.wf = true := h

theorem State.wf_loadOthers {s : State} (h : s.mem.wf = true) (tag : Nat) (load : Nat) (x0 : List CoreId) :
    (State.loadOthers tag load x0 s).mem.wf = true := by
  induction x0 generalizing s with
  | nil => exact h
  | cons y t ih =>
    unfold State.loadOthers
    grind (splits := 40) [State.wf_popCmd, State.wf_cmdSignal, State.wf_loadTree]

theorem State.wf_failLoaders {s : State} (h : s.mem.wf = true) (cause : Nat) (d : List Byte) (own : CoreId × Option TrapSpec) (bits : CoreId → List Byte → Word) (x0 : List CoreId) :
    (State.failLoaders cause d own bits x0 s).mem.wf = true := by
  induction x0 generalizing s with
  | nil => exact h
  | cons y t ih =>
    unfold State.failLoaders
    grind (splits := 40) [State.wf_setCore, State.wf_raiseCmd]

theorem State.wf_noteLoad {s : State} (h : s.mem.wf = true) (c : CoreId) (b : BadLoad) :
    (State.noteLoad s c b).mem.wf = true := h

theorem State.wf_differLoad {s : State} (h : s.mem.wf = true) (c : CoreId) (d : List Byte) :
    (State.differLoad s c d).mem.wf = true := by
  unfold State.differLoad
  grind [State.wf_failLoaders, State.wf_noteLoad]

theorem State.wf_timeoutLoad {s : State} (h : s.mem.wf = true) (c : CoreId) (d : List Byte) (own : CoreId × Option TrapSpec) :
    (State.timeoutLoad s c d own).mem.wf = true := by
  unfold State.timeoutLoad
  grind [State.wf_failLoaders, State.wf_noteLoad]

theorem State.wf_handshake {s : State} (h : s.mem.wf = true) (j : Nat) (d : List Byte) :
    (State.handshake s j d).st.mem.wf = true := by
  unfold State.handshake
  grind [wf_collWait, State.wf_loadTree, State.wf_loadOthers, State.wf_failLoaders, State.wf_differLoad, CmdRes.st]

theorem State.wf_collExpires {s : State} (h : s.mem.wf = true) (c : CoreId) (x : Cmd) (own : Option TrapSpec) :
    (State.collExpires s c x own).mem.wf = true := by
  unfold State.collExpires
  grind [State.wf_raiseCmd, State.wf_failEpoch, State.wf_timeoutLoad]

theorem State.wf_dropRouters {s : State} (h : s.mem.wf = true) (c : CoreId) (k : Core) :
    (State.dropRouters s c k).mem.wf = true := h

theorem State.wf_dropTrees {s : State} (h : s.mem.wf = true) (c : CoreId) :
    (State.dropTrees s c).mem.wf = true := h

theorem State.wf_jump {s : State} (h : s.mem.wf = true) (target : Word) {link : State → State}
    (hlink : ∀ (s : State), s.mem.wf = true → (link s).mem.wf = true) :
    (State.jump s target link).st.mem.wf = true := by
  unfold State.jump
  grind [State.wf_target, Res.st]

theorem State.wf_setLink {s : State} (h : s.mem.wf = true) (l : Nat) (x : Link) :
    (State.setLink s l x).mem.wf = true := h

theorem State.wf_endSend {s : State} (h : s.mem.wf = true) (x : Send) :
    (State.endSend s x).mem.wf = true := by
  unfold State.endSend
  grind [State.wf_onJob]

theorem State.wf_failSend {s : State} (h : s.mem.wf = true) (x : Send) (cause : Nat) (addr : Word) (code : Nat) :
    (State.failSend s x cause addr code).mem.wf = true := by
  unfold State.failSend
  grind [State.wf_setStrm, State.wf_postSupervisor, State.wf_onJob, State.wf_dieLog]

theorem State.wf_dropSend {s : State} (h : s.mem.wf = true) (x : Send) :
    (State.dropSend s x).mem.wf = true := h

theorem State.wf_enterSend {s : State} (h : s.mem.wf = true) (x : Send) :
    (State.enterSend s x).mem.wf = true := by
  unfold State.enterSend
  grind [State.wf_endSend, State.wf_failSend]

theorem State.wf_fire {s : State} (h : s.mem.wf = true) (d : Fin 2) (x0 : List Trigger) :
    (State.fire d x0 s).mem.wf = true := by
  induction x0 generalizing s with
  | nil => exact h
  | cons y t ih =>
    unfold State.fire
    grind (splits := 40) [State.wf_failSend, State.wf_enterSend]

theorem State.wf_grantWaits {s : State} (h : s.mem.wf = true) (d : Fin 2) (asid : BitVec 13) (n : Nat) (v : Nat) :
    (State.grantWaits s d asid n v).mem.wf = true := h

theorem State.wf_counterEvent {s : State} (h : s.mem.wf = true) (d : Fin 2) (asid : BitVec 13) (n : Nat) (v : Nat) :
    (State.counterEvent s d asid n v).mem.wf = true := by
  unfold State.counterEvent
  grind [State.wf_setDie, State.wf_fire, State.wf_grantWaits]

theorem State.wf_sendSource {s : State} (h : s.mem.wf = true) (x : Send) (n : Nat) :
    (State.sendSource s x n).1.mem.wf = true := by
  unfold State.sendSource
  grind [State.wf_mark, State.wf_xlate, State.wf_setStrm, State.wf_onJob, State.wf_readSeen]

theorem State.wf_transmit {s : State} (h : s.mem.wf = true) (x : Send) :
    (State.transmit s x).mem.wf = true := by
  unfold State.transmit
  grind [State.wf_setLink, State.wf_failSend, State.wf_dropSend, State.wf_sendSource]

theorem State.wf_linksSlot {s : State} (h : s.mem.wf = true) (l : List Nat) : (State.linksSlot l s).mem.wf = true := by
  induction l generalizing s with
  | nil => exact h
  | cons n t ih =>
    unfold State.linksSlot
    grind [State.wf_transmit, State.wf_drawn, State.wf_setLink]

theorem State.wf_ackOne {s : State} (h : s.mem.wf = true) (x : Send) :
    (State.ackOne s x).mem.wf = true := by
  unfold State.ackOne
  grind [State.wf_setLink, State.wf_endSend, State.wf_dropSend]

theorem State.wf_ackMany {s : State} (h : s.mem.wf = true) (ord : Nat) (x0 : Nat) :
    (State.ackMany ord x0 s).mem.wf = true := by
  induction x0 generalizing s with
  | zero => exact h
  | succ n ih =>
    unfold State.ackMany
    grind (splits := 40) [State.wf_transmit, State.wf_ackOne]

theorem State.wf_failSends {s : State} (h : s.mem.wf = true) (x0 : List Send) :
    (State.failSends x0 s).mem.wf = true := by
  induction x0 generalizing s with
  | nil => exact h
  | cons y t ih =>
    unfold State.failSends
    grind (splits := 40) [State.wf_failSend, State.wf_dropSend]

theorem State.wf_answer {s : State} (h : s.mem.wf = true) (r : Reply) :
    (State.answer s r).mem.wf = true := h

theorem State.wf_countChunks {s : State} (h : s.mem.wf = true) (d : Fin 2) (asid : BitVec 13) (ctr : Nat) (x0 : Nat) :
    (State.countChunks d asid ctr x0 s).mem.wf = true := by
  induction x0 generalizing s with
  | zero => exact h
  | succ n ih =>
    unfold State.countChunks
    grind (splits := 40) [State.wf_counterEvent]

theorem State.wf_perform {s : State} (h : s.mem.wf = true) (l : Nat) (m : LinkMsg) :
    ∀ r, State.perform s l m = some r → r.1.mem.wf = true := by
  unfold State.perform
  grind [State.wf_mark, State.wf_xlate, State.wf_writePieces, State.wf_setDie, State.wf_countChunks]

theorem State.wf_drainPort {s : State} (h : s.mem.wf = true) (l n : Nat) : (State.drainPort l n s).mem.wf = true := by
  induction n generalizing s with
  | zero => exact h
  | succ n ih =>
    unfold State.drainPort
    have hp := State.wf_perform h l
    grind [State.wf_answer, State.wf_setLink]

theorem State.wf_drainPorts {s : State} (h : s.mem.wf = true) : s.drainPorts.mem.wf = true :=
  wf_foldl (f := fun (s : State) l => State.drainPort l (s.link l).arrived.length s) (fun _ _ hs => State.wf_drainPort hs ..) h _

theorem State.wf_sendNow {s : State} (h : s.mem.wf = true) (x : Cmd) (p : Peer) (post : Nat) (pad : Bool) (image : Option (List Byte)) (len : Nat) :
    (State.sendNow s x p post pad image len).mem.wf = true := by
  unfold State.sendNow
  grind [State.wf_enterSend]

theorem State.wf_spanOk {s : State} (h : s.mem.wf = true) (acc : Acc) (va : Nat) (n : Nat) :
    (State.spanOk s acc va n).1.mem.wf = true := by
  unfold State.spanOk
  grind [State.wf_xlate]

theorem State.wf_sourceOk {s : State} (h : s.mem.wf = true) (va : Nat) (n : Nat) :
    (State.sourceOk s va n).1.mem.wf = true := by
  unfold State.sourceOk
  grind [State.wf_spanOk]

theorem State.wf_sourceCheck {s : State} (h : s.mem.wf = true) (pad : Bool) (src : Nat) (len : Nat) :
    (State.sourceCheck s pad src len).1.mem.wf = true := by
  unfold State.sourceCheck
  grind [State.wf_sourceOk]

theorem State.wf_sendCompressed {s : State} (h : s.mem.wf = true) (x : Cmd) (p : Peer) (post : Nat) (pad : Bool) :
    (State.sendCompressed s x p post pad).st.mem.wf = true := by
  unfold State.sendCompressed
  grind [State.wf_mark, State.wf_writePieces, State.wf_consume, State.wf_readSeen, Accessed.wf_res, State.wf_sendNow, State.wf_spanOk, State.wf_sourceCheck, Res.st, CmdRes.st]

theorem State.wf_counter {s : State} (h : s.mem.wf = true) (f : E) {go : Nat → Nat → Res} (hg : ∀ n v, (go n v).st.mem.wf = true) :
    (s.counter f go).st.mem.wf = true := by
  unfold State.counter
  grind [Res.st]

theorem State.wf_planeTrap {s : State} (h : s.mem.wf = true) (cause : Nat) (named : List Nat) (failed : List Nat) :
    (State.planeTrap s cause named failed).st.mem.wf = true := h

theorem State.wf_onPlanes {s : State} (h : s.mem.wf = true) (named : List Nat) {act : State → State}
    (hact : ∀ (s : State), s.mem.wf = true → (act s).mem.wf = true) :
    (State.onPlanes s named act).st.mem.wf = true := by
  unfold State.onPlanes
  grind [Res.st]

theorem State.wf_setTwin {s : State} (h : s.mem.wf = true) (v : Int) {go : State → Res}
    (hgo : ∀ (s : State), s.mem.wf = true → (go s).st.mem.wf = true) :
    (State.setTwin s v go).st.mem.wf = true := by
  unfold State.setTwin
  grind [State.wf_setMe, Res.st]

theorem State.wf_raiseTacap {s : State} (h : s.mem.wf = true) (c : CoreId) (t : Tacap) :
    (State.raiseTacap s c t).mem.wf = true := by
  unfold State.raiseTacap
  grind [State.wf_deliver]

theorem State.wf_setMyArr {s : State} (h : s.mem.wf = true) (a : WArray) :
    (State.setMyArr s a).mem.wf = true := h

theorem State.wf_withLease {s : State} (h : s.mem.wf = true) (frozenToo : Bool) {go : State → CmdRes}
    (hgo : ∀ (s : State), s.mem.wf = true → (go s).st.mem.wf = true) :
    (State.withLease s frozenToo go).st.mem.wf = true := by
  unfold State.withLease
  grind [State.wf_requestLease, State.wf_setMyArr, CmdRes.st]

theorem State.wf_withRegion {s : State} (h : s.mem.wf = true) (r tag kind : Nat) {go : Nat → Region → CmdRes}
    (hg : ∀ b g, (go b g).st.mem.wf = true) : (s.withRegion r tag kind go).st.mem.wf = true := by
  unfold State.withRegion
  grind [CmdRes.st]

theorem State.wf_putRegion {s : State} (h : s.mem.wf = true) (b : Nat) (r : Nat) (g : Region) :
    (State.putRegion s b r g).mem.wf = true := h

theorem State.wf_present {s : State} (h : s.mem.wf = true) (b : Nat) (h : BitVec 32) :
    (State.present s b h).mem.wf = true := by
  unfold State.present
  grind [State.wf_setMe]

theorem State.wf_ownBank {s : State} (h : s.mem.wf = true) (x : Cmd) {go : Nat → CmdRes} (hg : ∀ b, (go b).st.mem.wf = true) :
    (s.ownBank x go).st.mem.wf = true := by
  unfold State.ownBank
  grind [CmdRes.st]

theorem State.wf_enterEdge {s : State} (h : s.mem.wf = true) (f : E) (x : Cmd) (b : Nat) (g : Region) (inputs : List (BitVec 32)) :
    (State.enterEdge s f x b g inputs).st.mem.wf = true := by
  unfold State.enterEdge
  grind [State.wf_setMe, State.wf_setMyArr, CmdRes.st]

theorem State.wf_setting {s : State} (h : s.mem.wf = true) (f : E) (change : Region → Region) :
    (State.setting s f change).st.mem.wf = true := by
  unfold State.setting
  grind [State.wf_withLease, State.wf_withRegion, State.wf_putRegion, CmdRes.st]

theorem State.wf_writeLong {s : State} (h : s.mem.wf = true) (job : Word) (ps : List Piece) (bs : List Byte) :
    (s.writeLong job ps bs).mem.wf = true := by
  induction ps generalizing s bs with
  | nil => exact h
  | cons p t ih => exact ih (Memory.wf_splice h _ _) _

theorem State.wf_restoreArray {s : State} (h : s.mem.wf = true) (m : ArrImage) (bs : List Byte) :
    (State.restoreArray s m bs).mem.wf = true := by
  unfold State.restoreArray
  grind [State.wf_setMe, State.wf_failWaves, State.wf_setMyArr]

theorem State.wf_ringFault {s : State} (h : s.mem.wf = true) (d : Fin 2) (q : Nat) (slot : Nat) (cause : Nat) (w2 : Word) (va : Word) :
    (State.ringFault s d q slot cause w2 va).mem.wf = true := h

theorem State.wf_writeStatus {s : State} (h : s.mem.wf = true) (a : StatusAt) (w : Word) :
    (State.writeStatus s a w).mem.wf = true := by
  unfold State.writeStatus
  grind [State.wf_mark, State.wf_xlate, State.wf_writePieces, State.wf_setDie, State.wf_ringFault]

theorem State.wf_jobStatus {s : State} (h : s.mem.wf = true) (k : Core) (cause : Nat) (code : Nat) :
    (State.jobStatus s k cause code).mem.wf = true := by
  unfold State.jobStatus
  grind [State.wf_writeStatus]

theorem State.wf_peek {s : State} (h : s.mem.wf = true) (d : Fin 2) (asid : BitVec 13) (va : Nat) (n : Nat) :
    (State.peek s d asid va n).1.mem.wf = true := by
  unfold State.peek
  grind [State.wf_xlate]

theorem State.wf_distFetch {s : State} (h : s.mem.wf = true) (d : Fin 2) (asid : BitVec 13) (va n : Nat) :
    (s.distFetch d asid va n).1.mem.wf = true := by
  have hx := State.wf_xlate h (.die d) asid.toNat true .load va n
  unfold State.distFetch
  split
  · exact h
  · split
    case h_1 s1 e he => rw [he] at hx; exact hx
    case h_2 s1 ps he =>
      rw [he] at hx
      split
      · exact State.wf_mark hx ..
      · exact wf_foldl (f := fun (s : State) (x : Word × Word) => s.setDie d ((s.die d).logErr (poisonEntry false false .cs 2 x.1 x.2 0)))
          (fun _ _ hs => hs) (s := s1) hx (s1.badLines ps)

theorem State.wf_enqueueFor {s : State} (h : s.mem.wf = true) (k : Core) (bs : List Byte) :
    (State.enqueueFor s k bs).1.mem.wf = true := by
  unfold State.enqueueFor
  grind [State.wf_mark, State.wf_xlate, State.wf_writePieces, State.wf_setDie, State.wf_ringFault]

theorem State.wf_releaseLocks {s : State} (h : s.mem.wf = true) (abandoned : Bool) (x0 : List LockHeld) :
    (State.releaseLocks abandoned x0 s).mem.wf = true := by
  induction x0 generalizing s with
  | nil => exact h
  | cons y t ih =>
    unfold State.releaseLocks
    grind (splits := 40) [State.wf_dropLock, State.wf_releaseLock]

theorem State.wf_dropKeeper {s : State} (h : s.mem.wf = true) (jobid : Word) : (s.dropKeeper jobid).mem.wf = true := by
  refine wf_foldl (fun s n hs => ?_) h _
  dsimp only
  split
  · exact State.wf_setArr (State.wf_discardArray hs ..) ..
  · exact hs

theorem State.wf_releaseHoldings {s : State} (h : s.mem.wf = true) (jobid : Word) (abandoned : Bool) :
    (State.releaseHoldings s jobid abandoned).mem.wf = true := by
  unfold State.releaseHoldings
  grind [State.wf_releaseLocks, State.wf_dropKeeper]

theorem State.wf_releaseJob {s : State} (h : s.mem.wf = true) (c : CoreId) (abandoned : Bool) :
    (State.releaseJob s c abandoned).mem.wf = true := by
  unfold State.releaseJob
  grind [State.wf_setCore, State.wf_drainHost, State.wf_dropLease, State.wf_dropTrees, State.wf_releaseHoldings]

theorem State.wf_idle {s : State} (h : s.mem.wf = true) (c : CoreId) :
    (State.idle s c).mem.wf = true := h

theorem State.wf_endJob {s : State} (h : s.mem.wf = true) (c : CoreId) (cause : Nat) (code : Nat) :
    (State.endJob s c cause code).mem.wf = true := by
  unfold State.endJob
  grind [State.wf_jobStatus, State.wf_releaseJob, State.wf_idle]

theorem State.wf_endSaved {s : State} (h : s.mem.wf = true) (n : Nat) (cause : Nat) (code : Nat) :
    (State.endSaved s n cause code).mem.wf = true := by
  unfold State.endSaved
  grind [State.wf_dropRouters, State.wf_jobStatus, State.wf_releaseHoldings]

theorem State.wf_joinParent {s : State} (h : s.mem.wf = true) (c : CoreId) :
    (State.joinParent s c).1.mem.wf = true := by
  unfold State.joinParent
  grind [State.wf_mark, State.wf_writePieces, State.wf_dieLog, State.wf_atomCheck, State.wf_peek, State.wf_enqueueFor]

theorem State.wf_retireJob {s : State} (h : s.mem.wf = true) (c : CoreId) :
    (State.retireJob s c).mem.wf = true := by
  unfold State.retireJob
  grind [State.wf_jobStatus, State.wf_releaseJob, State.wf_idle, State.wf_joinParent]

theorem State.wf_moveHoldings {s : State} (h : s.mem.wf = true) (jobid : Word) (c : CoreId) :
    (State.moveHoldings s jobid c).mem.wf = true := h

theorem State.wf_takeKept {s : State} (h : s.mem.wf = true) (jobid : Word) (c : CoreId) :
    (State.takeKept s jobid c).mem.wf = true := by
  unfold State.takeKept
  grind [State.wf_setArr]

theorem State.wf_place {s : State} (h : s.mem.wf = true) (n : Nat) (x : Saved) (k : Core) (c : CoreId) :
    (State.place s n x k c).mem.wf = true := by
  unfold State.place
  grind [State.wf_setCore, State.wf_dropRouters, State.wf_jobStatus, State.wf_moveHoldings, State.wf_takeKept]

theorem State.wf_nodeSave {s : State} (h : s.mem.wf = true) (c : CoreId) (m : Nat) : (s.nodeSave c m).mem.wf = true := by
  unfold State.nodeSave
  refine State.wf_idle (State.wf_jobStatus ?_ ..) _
  dsimp only
  split
  · exact Memory.wf_splice h _ _
  · exact h

theorem State.wf_boundary {s : State} (h : s.mem.wf = true) (c : CoreId) (st : Nat) :
    (State.boundary s c st).mem.wf = true := by
  unfold State.boundary
  grind [State.wf_setCore, State.wf_dropLease, State.wf_nodeSave]

theorem State.wf_atNode {s : State} (h : s.mem.wf = true) :
    (State.atNode s).st.mem.wf = true := by
  unfold State.atNode
  grind [State.wf_boundary, Res.st]

theorem State.wf_failEnded {s : State} (h : s.mem.wf = true) (c : CoreId) (i : StreamId) (x0 : List Waiter) :
    (State.failEnded c i x0 s).mem.wf = true := by
  induction x0 generalizing s with
  | nil => exact h
  | cons y t ih =>
    unfold State.failEnded
    grind (splits := 40) [State.wf_raiseWait]

theorem State.wf_systemDone {s : State} (h : s.mem.wf = true) (c : CoreId) :
    (State.systemDone s c).mem.wf = true := by
  unfold State.systemDone
  grind [State.wf_setCore]

theorem State.wf_configure {s : State} (h : s.mem.wf = true) (c : CoreId) (fuse : Nat) :
    (State.configure s c fuse).mem.wf = true := by
  unfold State.configure
  grind [State.wf_setDie]

theorem State.wf_dispatch {s : State} (h : s.mem.wf = true) (d : Fin 2) (n : Nat) (c : CoreId) :
    (State.dispatch s d n c).mem.wf = true := by
  unfold State.dispatch
  grind [State.wf_setCore, State.wf_setDie, State.wf_writeStatus, State.wf_distFetch, State.wf_configure]

theorem State.wf_headInfo {s : State} (h : s.mem.wf = true) (d : Fin 2) (q : CQueue) :
    (State.headInfo s d q).1.mem.wf = true := by
  unfold State.headInfo
  grind [State.wf_peek]

theorem State.wf_headInfos {s : State} (h : s.mem.wf = true) (d : Fin 2) (x0 : List Nat) :
    (State.headInfos d x0 s).1.mem.wf = true := by
  induction x0 generalizing s with
  | nil => exact h
  | cons y t ih =>
    unfold State.headInfos
    grind (splits := 40) [State.wf_headInfo]

theorem State.wf_traceDispatch {s : State} (h : s.mem.wf = true) (d : Fin 2) (best : Cand) (r : Rec) :
    (State.traceDispatch s d best r).mem.wf = true := by
  unfold State.traceDispatch
  grind [State.wf_pwriteN, State.wf_setDie]

theorem State.wf_select {s : State} (h : s.mem.wf = true) (d : Fin 2) (best : Cand) (h : HeadInfo) :
    (State.select s d best h).mem.wf = true := by
  unfold State.select
  grind [State.wf_setDie, State.wf_place, State.wf_configure, State.wf_dispatch, State.wf_traceDispatch]

theorem State.wf_withdrawRequests {s : State} (h : s.mem.wf = true) (d : Fin 2) : (s.withdrawRequests d).mem.wf = true := by
  refine wf_foldl (fun s i hs => ?_) h _
  grind [State.wf_setCore]

theorem State.wf_postRequest {s : State} (h : s.mem.wf = true) (d : Fin 2) (n : Nat) (h : HeadInfo) :
    (State.postRequest s d n h).mem.wf = true := by
  unfold State.postRequest
  grind [State.wf_setCore]

theorem State.wf_diverge {s : State} (h : s.mem.wf = true) (d : Fin 2) (h : HeadInfo) :
    (State.diverge s d h).mem.wf = true := by
  unfold State.diverge
  grind [State.wf_setDie, State.wf_postSupervisor, State.wf_seen]

theorem State.wf_decide_ {s : State} (h : s.mem.wf = true) (d : Fin 2) :
    (State.decide_ s d).mem.wf = true := by
  unfold State.decide_
  grind [State.wf_setDie]

theorem State.wf_setBprio {s : State} (h : s.mem.wf = true) (n : Nat) :
    (State.setBprio s n).mem.wf = true := h

theorem State.wf_setDomain {s : State} (h : s.mem.wf = true) (v : Word) {go : State → Word → Res}
    (hgo : ∀ (s : State) (a : Word), s.mem.wf = true → (go s a).st.mem.wf = true) :
    (State.setDomain s v go).st.mem.wf = true := by
  unfold State.setDomain
  grind [State.wf_setMe, Res.wf_open, Res.st]

theorem State.wf_startTrace {s : State} (h : s.mem.wf = true) (f : RRR) (mode : Nat) :
    (State.startTrace s f mode).st.mem.wf = true := by
  unfold State.startTrace
  grind [State.wf_setMyDie, Res.st]

theorem State.wf_storePages {s : State} (h : s.mem.wf = true) (x0 : List (Nat × Leaf)) (x1 : Nat) (x2 : List Byte) :
    (State.storePages s x0 x1 x2).mem.wf = true := by
  induction x0 generalizing s x1 x2 with
  | nil => exact h
  | cons y t ih =>
    unfold State.storePages
    grind (splits := 40) [State.wf_pwriteN]

theorem State.wf_sealPages {s : State} (h : s.mem.wf = true) (asid : Nat) (ps : List (Nat × Leaf)) : (s.sealPages asid ps).mem.wf = true :=
  wf_foldl (f := fun (s : State) (q : Nat × Leaf) => { s.pwrite8 q.2.entry ((q.2.pte ||| 0x10) &&& ~~~(0x8 : Word)) with
    tlb := s.tlb.filter fun t => !t.covers asid q.1 }) (fun s q hs => State.wf_pwrite8 (s := s) hs _ _) h ps

theorem State.wf_placeObject {s : State} (h : s.mem.wf = true) (d : Fin 2) (asid : Nat) (code : Nat) (data : Nat) (sd : List Byte × List Byte) :
    ∀ t, State.placeObject s d asid code data sd = some t → t.mem.wf = true := by
  unfold State.placeObject
  grind [State.wf_storePages, State.wf_sealPages]

theorem State.wf_hazelKeep {s : State} (h : s.mem.wf = true) (d : Fin 2) (tenant : Word) (key : BitVec 384) (h : List Byte) :
    (State.hazelKeep s d tenant key h).mem.wf = true := by
  unfold State.hazelKeep
  grind [State.wf_pwriteN]

theorem State.wf_hazelMake {s : State} (h : s.mem.wf = true) (d : Fin 2) (tenant : Word) (key : BitVec 384) (tnf : List Byte) :
    (State.hazelMake s d tenant key tnf).1.mem.wf = true := by
  unfold State.hazelMake
  grind [State.wf_hazelKeep]

theorem State.wf_hazelOutput {s : State} (h : s.mem.wf = true) (d : Fin 2) (tenant : Word) (tnf : List Byte) :
    (State.hazelOutput s d tenant tnf).1.mem.wf = true := by
  unfold State.hazelOutput
  grind [State.wf_dieLog, State.wf_hazelMake]

theorem State.wf_hazelAssign {s : State} (h : s.mem.wf = true) (tenant : Word) (base : Nat) (size : Nat) :
    ∀ t, State.hazelAssign s tenant base size = some t → t.mem.wf = true := by
  unfold State.hazelAssign
  grind []

theorem State.wf_replayTile {s : State} (h : s.mem.wf = true) (w : TileWindow) :
    (State.replayTile s w).mem.wf = true := h

theorem State.wf_mcastDeliver {s : State} (h : s.mem.wf = true) (img : Nat) (c : CoreId) (x : Cmd) :
    (State.mcastDeliver s img c x).mem.wf = true := h

theorem State.wf_mcastOthers {s : State} (h : s.mem.wf = true) (me : CoreId) (tag : Nat) (img : Nat) (key : Option (Nat × Nat × Word × Int × Word × Word)) (x0 : List CoreId) :
    (State.mcastOthers me tag img key x0 s).mem.wf = true := by
  induction x0 generalizing s with
  | nil => exact h
  | cons y t ih =>
    unfold State.mcastOthers
    grind (splits := 40) [State.wf_raiseCmd, State.wf_popCmd, State.wf_cmdSignal, State.wf_mcastDeliver]

theorem State.wf_badCsr {s : State} (h : s.mem.wf = true) (v : Word) :
    (State.badCsr s v).st.mem.wf = true := h

theorem State.wf_setSup {s : State} (h : s.mem.wf = true) (v : Word) (mask : Word) (set : Die → Die) :
    (State.setSup s v mask set).st.mem.wf = true := by
  unfold State.setSup
  grind [State.wf_setMyDie, State.wf_badCsr, Res.st]

theorem State.wf_writeUser {s : State} (h : s.mem.wf = true) (n : Nat) (v : Word) :
    (State.writeUser s n v).st.mem.wf = true := by
  unfold State.writeUser
  grind [State.wf_setMe, State.wf_setStr, State.wf_setTwin, State.wf_setMyArr, State.wf_badCsr, Res.st]

theorem State.wf_writeSup {s : State} (h : s.mem.wf = true) (n : Nat) (v : Word) :
    (State.writeSup s n v).st.mem.wf = true := by
  unfold State.writeSup
  grind [State.wf_setMyDie, State.wf_setSup, Res.st]

theorem State.wf_forget {s : State} (h : s.mem.wf = true) (drop : TlbEntry → Bool) :
    (State.forget s drop).mem.wf = true := h

theorem State.wf_invalidate {s : State} (h : s.mem.wf = true) (of : BitVec 13 → Bool) (kept : Word) {act : State → State} {fin : State → Word → State}
    (hact : ∀ (s : State), s.mem.wf = true → (act s).mem.wf = true) (hfin : ∀ (s : State) (a : Word), s.mem.wf = true → (fin s a).mem.wf = true) :
    (State.invalidate s of kept act fin).st.mem.wf = true := by
  unfold State.invalidate
  grind [Res.st]

theorem State.wf_resumeJob {s : State} (h : s.mem.wf = true) (c : CoreId) :
    (State.resumeJob s c).mem.wf = true := by
  unfold State.resumeJob
  grind [State.wf_setCore, State.wf_setStrm, State.wf_raiseHeld, State.wf_leaveHandler]

theorem State.wf_revoke {s : State} (h : s.mem.wf = true) (c : CoreId) :
    (State.revoke s c).mem.wf = true := h

theorem State.wf_prq {s : State} (h : s.mem.wf = true) (p : JobPlace) (op : Nat) (cause : Nat) :
    ∀ r, State.prq s p op cause = some r → r.1.mem.wf = true := by
  unfold State.prq
  grind [State.wf_setCore, State.wf_endJob, State.wf_endSaved, State.wf_resumeJob, State.wf_revoke]

theorem State.wf_startDrain {s : State} (h : s.mem.wf = true) (c : CoreId) :
    (State.startDrain s c).mem.wf = true := by
  unfold State.startDrain
  grind [State.wf_setCore, State.wf_recall, State.wf_dropLease]

theorem State.wf_saveTo {s : State} (h : s.mem.wf = true) (c : CoreId) (pa : Nat) (sizes : List Nat) (record : Nat) :
    (s.saveTo c pa sizes record).mem.wf = true := by
  unfold State.saveTo
  refine State.wf_idle (State.wf_jobStatus ?_ ..) _
  have hm := Memory.wf_splice (State.wf_drainHost h c fun _ => true) pa
  dsimp only
  split
  · exact hm _
  · exact hm _

theorem State.wf_restoreTo {s : State} (h : s.mem.wf = true) (m : CtxImage) (c : CoreId) :
    (State.restoreTo s m c).mem.wf = true := by
  unfold State.restoreTo
  grind [State.wf_raiseHeld, State.wf_place]

theorem State.wf_poisonLine {s : State} (h : s.mem.wf = true) (pa : Nat) :
    (State.poisonLine s pa).mem.wf = true := by
  unfold State.poisonLine
  grind []

theorem State.wf_laneFault {s : State} (h : s.mem.wf = true) (c : CoreId) (last : Bool) : (s.laneFault c last).mem.wf = true := by
  have hp := State.wf_postSupervisor (State.wf_drawn h) (dieOf c)
  unfold State.laneFault
  dsimp only
  split
  · exact h
  · refine State.wf_setCore ?_ ..
    split
    · exact State.wf_endJob (hp _) ..
    · exact hp _

theorem State.wf_movePage {s : State} (h : s.mem.wf = true) (src dst n : Nat) : (s.movePage src dst n).mem.wf = true :=
  Memory.wf_move h src dst n

theorem State.wf_restartNode {s : State} (h : s.mem.wf = true) (c : CoreId) :
    (State.restartNode s c).mem.wf = true := by
  unfold State.restartNode
  grind [State.wf_setCore, State.wf_leaveEdges, State.wf_dropLease, State.wf_releaseLocks]

theorem State.wf_hostAccess {s : State} (h : s.mem.wf = true) :
    (State.hostAccess s).mem.wf = true := by
  unfold State.hostAccess
  grind [State.wf_pwriteN, State.wf_answer]

theorem State.wf_hostWindow {s : State} (h : s.mem.wf = true) (d : Fin 2) :
    (State.hostWindow s d).mem.wf = true := by
  unfold State.hostWindow
  grind [State.wf_setDie, State.wf_answer]

theorem State.wf_moveAll {s : State} (h : s.mem.wf = true) (src dst n : Nat) : (s.moveAll src dst n).mem.wf = true := by
  unfold State.moveAll
  dsimp only
  exact wf_foldl (fun s p hs => State.wf_pwrite8 hs _ _) (State.wf_movePage h src dst n) _

theorem State.wf_clearClusters {s : State} (h : s.mem.wf = true) (d : Fin 2) (which : Nat → Bool) :
    (State.clearClusters s d which).mem.wf = true := h

theorem State.wf_endRecords {s : State} (h : s.mem.wf = true) (d : Fin 2) : (s.endRecords d).mem.wf = true := by
  have h1 := wf_foldl (f := fun (s : State) c => if dieOf c == d && !isSystem c && (s.core c).active then s.endJob c 0 9 else s)
    (fun s c hs => by grind [State.wf_endJob]) h allCores
  refine wf_foldl (fun s x hs => ?_) h1 _
  grind [State.wf_endSaved]

theorem State.wf_toWinter {s : State} (h : s.mem.wf = true) (d : Fin 2) (step : Nat) :
    (State.toWinter s d step).mem.wf = true := by
  unfold State.toWinter
  grind [State.wf_setDie, State.wf_failSends, State.wf_clearClusters, State.wf_endRecords]

theorem State.wf_loadObject {s : State} (h : s.mem.wf = true) (d : Fin 2) (asid : Nat) (o : List Byte) (code : Nat) (data : Nat) :
    (State.loadObject s d asid o code data).mem.wf = true := by
  unfold State.loadObject
  split <;> grind (splits := 40) [State.wf_answer, State.wf_place, State.wf_placeObject, State.wf_hazelOutput]

theorem State.wf_putCompare {s : State} (h : s.mem.wf = true) (d : BitVec 5) (b : Bool) :
    (State.putCompare s d b).mem.wf = true := by
  unfold State.putCompare
  grind [State.wf_putP]

theorem State.wf_streamTurn {s : State} (h : s.mem.wf = true) (base : Nat) (key : Nat) :
    (State.streamTurn s base key).st.mem.wf = true := by
  unfold State.streamTurn
  grind [State.wf_setStrm, State.wf_raiseOwn, State.wf_enterBlock, State.wf_endPass, State.wf_fetchNext, State.wf_idle, Todo.st]

theorem State.wf_evictHost {s : State} (h : s.mem.wf = true) (l : List CoreId) : (State.evictHost l s).mem.wf = true := by
  induction l generalizing s with
  | nil => exact h
  | cons c t ih =>
    unfold State.evictHost
    grind [State.wf_deliverOldest, State.wf_drawn]

theorem State.wf_raiseAllHeld {s : State} (h : s.mem.wf = true) : s.raiseAllHeld.mem.wf = true := by
  refine wf_foldl (fun s c hs => ?_) h _
  grind [State.wf_raiseHeld]

theorem State.wf_endSlot {s : State} (h : s.mem.wf = true) : s.endSlot.mem.wf = true := by
  have h1 := State.wf_raiseAllHeld h
  unfold State.endSlot
  generalize s.raiseAllHeld = r at h1
  refine State.wf_updateEprio ?_
  dsimp only
  refine wf_foldl (fun s d hs => ?_) ?_ (List.finRange 2)
  · exact State.wf_flushRecords (State.wf_setDie hs ..) ..
  · exact h1

theorem State.wf_sweepBegins {s : State} (h : s.mem.wf = true) (l : List (Fin 2)) : (State.sweepBegins l s).mem.wf = true := by
  induction l generalizing s with
  | nil => exact h
  | cons d t ih =>
    unfold State.sweepBegins
    grind [State.wf_drawn, State.wf_setDie]

theorem State.wf_closeSlot {s : State} (h : s.mem.wf = true) :
    (State.closeSlot s).mem.wf = true := h

theorem State.wf_closeWaits {s : State} (h : s.mem.wf = true) :
    (State.closeWaits s).mem.wf = true := h

theorem State.wf_newSlot {s : State} (h : s.mem.wf = true) :
    (State.newSlot s).mem.wf = true := by
  unfold State.newSlot
  grind [State.wf_copiesSlot, State.wf_linksSlot, State.wf_evictHost, State.wf_endSlot, State.wf_sweepBegins]

theorem State.wf_lateTurn {s : State} (h : s.mem.wf = true) :
    (State.lateTurn s).st.mem.wf = true := by
  unfold State.lateTurn
  grind [State.wf_streamTurn, State.wf_closeWaits, State.wf_newSlot, Todo.st]

theorem State.wf_nextTurn {s : State} (h : s.mem.wf = true) :
    (State.nextTurn s).st.mem.wf = true := by
  unfold State.nextTurn
  grind [State.wf_streamTurn, State.wf_closeSlot, State.wf_lateTurn, Todo.st]

theorem State.wf_sendOver {s : State} (h : s.mem.wf = true) (m : Fin 4) (e : Event) :
    (State.sendOver s m e).mem.wf = true := h

theorem State.wf_takeOver {s : State} (h : s.mem.wf = true) (m : Fin 4) :
    (State.takeOver s m).mem.wf = true := h

theorem State.wf_takeInput {s : State} (h : s.mem.wf = true) (e : Event) :
    (State.takeInput s e).st.mem.wf = true := by
  unfold State.takeInput
  grind [State.wf_sendOver, Todo.st]

theorem State.wf_outside {s : State} (h : s.mem.wf = true) :
    ∀ r, State.outside s = some r → r.st.mem.wf = true := by
  unfold State.outside
  grind [State.wf_takeOver, State.wf_takeInput, Todo.st]

theorem State.wf_todo {s : State} (h : s.mem.wf = true) :
    (State.todo s).st.mem.wf = true := by
  unfold State.todo
  grind [State.wf_nextTurn, State.wf_outside, Todo.st]

/-! What the outcome of an instruction keeps. -/

/-- The state of the outcome, if it has one, has canonical memory where the state before has. -/
def State.Keeps (s : State) (o : Out) : Prop := ∀ t, o = .next t → s.mem.wf = true → t.mem.wf = true

@[simp] def TileRes.st : TileRes → State
  | .cmd r => r.st
  | .upset s _ => s

theorem State.keeps_next {s s1 : State} (h : s.mem.wf = true → s1.mem.wf = true) : s.Keeps (.next s1) := by
  rintro t ⟨⟩
  exact h

theorem State.keeps_fault (s : State) (e : Fault) : s.Keeps (.fault e) := by
  intro t ht
  cases ht

theorem Res.wf_finish {s0 : State} (h0 : s0.mem.wf = true) {r : Res} (h : r.st.mem.wf = true) : s0.Keeps (r.finish s0) := by
  cases r with
  | done s => exact State.keeps_next fun _ => State.wf_retire h
  | goto s a => exact State.keeps_next fun _ => State.wf_transfer h a
  | drain s => exact State.keeps_next fun _ => h
  | stay s => exact State.keeps_next fun _ => h
  | trap s t => exact State.keeps_next fun _ => State.wf_raiseOwn h ..
  | wait s kind obj phys stage reg =>
    have hb : (s.block kind obj phys stage reg).1.mem.wf = true := State.wf_block h ..
    dsimp only [Res.finish]
    split
    · next he => exact State.keeps_next fun _ => by rw [he] at hb; exact hb
    · next he =>
      refine State.keeps_next fun _ => State.wf_raiseOwn ?_ ..
      rw [he] at hb
      split
      · exact h0
      · exact hb

section
variable {s : State}

theorem State.keeps_always {body : State → Res} (hb : ∀ s : State, s.mem.wf = true → (body s).st.mem.wf = true) :
    s.Keeps (s.always body) := fun t ht h => Res.wf_finish h (hb s h) t ht h

theorem State.keeps_issue {body : State → Res} (hb : ∀ s : State, s.mem.wf = true → (body s).st.mem.wf = true) :
    s.Keeps (s.issue body) := by
  unfold State.issue
  split
  · exact State.keeps_always hb
  · exact State.keeps_next fun h => State.wf_retire h

theorem State.keeps_fence (scope : Nat) : s.Keeps (s.fence scope) :=
  State.keeps_issue fun _ h => State.wf_fenced h _ fun _ h => h

theorem State.keeps_vector (types : Nat → Bool) {body : State → Res} (hb : ∀ s : State, s.mem.wf = true → (body s).st.mem.wf = true) :
    s.Keeps (s.vector types body) :=
  State.keeps_always fun s h => by grind [Res.st]

theorem State.keeps_elementwise (types : Nat → Bool) (lat : Nat) (f : RRR) (rounds : Bool)
    (op : Nat → RMode → Nat → Nat → Nat → Nat × Flags) : s.Keeps (s.elementwise types lat f rounds op) :=
  State.keeps_vector _ fun _ h => State.wf_mapElems h ..

theorem State.keeps_divided (f : RRR) (op : Nat → RMode → Nat → Nat → Nat → Nat × Flags) : s.Keeps (s.divided f op) :=
  State.keeps_vector _ fun s h => by
    dsimp only
    split
    · exact h
    · exact State.wf_setMe (State.wf_mapElems h ..) _

theorem State.keeps_vcompare (types : Nat → Bool) (k : Cmp) (f : RRR) : s.Keeps (s.vcompare types k f) :=
  State.keeps_vector _ fun _ h => State.wf_put h ..

theorem State.keeps_issueM (f : M) {body : State → Res} (hb : ∀ s : State, s.mem.wf = true → (body s).st.mem.wf = true) :
    s.Keeps (s.issueM f body) := by
  unfold State.issueM
  split
  · exact State.keeps_always fun s h => by grind [Res.st]
  · exact State.keeps_issue hb

theorem State.keeps_atomic (sp : BitVec 2) (f : M) (op : Nat → Nat → Nat → Nat → Option Nat) : s.Keeps (s.atomic sp f op) :=
  State.keeps_issue fun _ h => Accessed.wf_res (State.wf_atoms h ..) fun _ _ hs => State.wf_arriveS hs ..

theorem State.keeps_command (e : Eng) (i : Instr) (f : E) (more : State → List Word) {body : State → Cmd → CmdRes}
    (hb : ∀ (s : State) x, s.mem.wf = true → (body s x).st.mem.wf = true) : s.Keeps (s.command e i f more body) := by
  unfold State.command
  split
  · split
    · exact State.keeps_next fun h => State.wf_runCmd h _ _ _ hb
    · exact State.keeps_fault _ _
  · exact State.keeps_issue fun _ h => State.wf_issueCmd h ..

theorem State.keeps_collCmd (i : Instr) (f : E) {body : State → Cmd → CmdRes}
    (hb : ∀ (s : State) x, s.mem.wf = true → (body s x).st.mem.wf = true) : s.Keeps (s.collCmd i f body) :=
  fun t ht h => State.keeps_command .coll i f _ hb t ht (State.wf_startTimer h)

theorem State.keeps_linkCmd (i : Instr) (f : E) (more : State → List Word) {body : State → Cmd → CmdRes}
    (hb : ∀ (s : State) x, s.mem.wf = true → (body s x).st.mem.wf = true) : s.Keeps (s.linkCmd i f more body) :=
  State.keeps_command _ _ _ _ fun s x h => by
    dsimp only
    split
    · exact State.wf_deliver (State.wf_setStrm h ..) ..
    · exact hb _ _ (State.wf_drainStream h ..)

theorem State.keeps_linkOwn {body : State → Res} (hb : ∀ s : State, s.mem.wf = true → (body s).st.mem.wf = true) :
    s.Keeps (s.linkOwn body) :=
  State.keeps_issue fun s h => by
    split
    · exact h
    · exact State.wf_raisePending h _ hb

theorem State.keeps_counterWrite (f : E) (new : Nat → Nat → Nat) : s.Keeps (s.counterWrite f new) :=
  State.keeps_linkOwn fun _ h => State.wf_counter h _ fun _ _ => State.wf_arriveS (State.wf_counterEvent (State.wf_drainStream h ..) ..) ..

theorem State.keeps_tileCmd (i : Instr) (f : E) (more : State → List Word) (reads : State → List Nat) {body : State → Cmd → TileRes}
    (hb : ∀ (s : State) x, s.mem.wf = true → (body s x).st.mem.wf = true) : s.Keeps (s.tileCmd i f more reads body) :=
  State.keeps_command _ _ _ _ fun s x h => by
    have hx := hb s x h
    grind [State.wf_setMe, State.wf_replayTile, TileRes.st, CmdRes.st]

theorem State.keeps_onDie {go : Fin 2 → State} (hg : ∀ d, s.mem.wf = true → (go d).mem.wf = true) : s.Keeps (s.onDie go) := by
  unfold State.onDie
  split
  · exact State.keeps_next (hg _)
  · exact State.keeps_fault _ _

theorem State.keeps_atDie (f : Die → Die) : s.Keeps (s.atDie f) := State.keeps_onDie fun _ h => h

end
theorem keeps_execVadd (f : RRR) (s : State) : s.Keeps (execVadd f s) := State.keeps_elementwise _ _ _ _ _

theorem keeps_execVsub (f : RRR) (s : State) : s.Keeps (execVsub f s) := State.keeps_elementwise _ _ _ _ _

theorem keeps_execVmul (f : RRR) (s : State) : s.Keeps (execVmul f s) := State.keeps_elementwise _ _ _ _ _

theorem keeps_execVfma (f : RRR) (s : State) : s.Keeps (execVfma f s) :=
  State.keeps_vector _ fun _ h => State.wf_putElems h ..

theorem keeps_execVmin (f : RRR) (s : State) : s.Keeps (execVmin f s) := State.keeps_elementwise _ _ _ _ _

theorem keeps_execVmax (f : RRR) (s : State) : s.Keeps (execVmax f s) := State.keeps_elementwise _ _ _ _ _

theorem keeps_execVabs (f : RRR) (s : State) : s.Keeps (execVabs f s) := State.keeps_elementwise _ _ _ _ _

theorem keeps_execVneg (f : RRR) (s : State) : s.Keeps (execVneg f s) := State.keeps_elementwise _ _ _ _ _

theorem keeps_execVdiv (f : RRR) (s : State) : s.Keeps (execVdiv f s) := State.keeps_divided _ _

theorem keeps_execVsqrt (f : RRR) (s : State) : s.Keeps (execVsqrt f s) := State.keeps_divided _ _

theorem keeps_execVrsq (f : RRR) (s : State) : s.Keeps (execVrsq f s) := State.keeps_divided _ _

theorem keeps_execVrec (f : RRR) (s : State) : s.Keeps (execVrec f s) := State.keeps_divided _ _

theorem keeps_execVexp2 (f : RRR) (s : State) : s.Keeps (execVexp2 f s) := State.keeps_elementwise _ _ _ _ _

theorem keeps_execVlog2 (f : RRR) (s : State) : s.Keeps (execVlog2 f s) := State.keeps_elementwise _ _ _ _ _

theorem keeps_execVand (f : RRR) (s : State) : s.Keeps (execVand f s) := State.keeps_elementwise _ _ _ _ _

theorem keeps_execVor (f : RRR) (s : State) : s.Keeps (execVor f s) := State.keeps_elementwise _ _ _ _ _

theorem keeps_execVxor (f : RRR) (s : State) : s.Keeps (execVxor f s) := State.keeps_elementwise _ _ _ _ _

theorem keeps_execVnot (f : RRR) (s : State) : s.Keeps (execVnot f s) := State.keeps_elementwise _ _ _ _ _

theorem keeps_execVshl (f : RRR) (s : State) : s.Keeps (execVshl f s) := State.keeps_elementwise _ _ _ _ _

theorem keeps_execVshr (f : RRR) (s : State) : s.Keeps (execVshr f s) := State.keeps_elementwise _ _ _ _ _

theorem keeps_execVsra (f : RRR) (s : State) : s.Keeps (execVsra f s) := State.keeps_elementwise _ _ _ _ _

theorem keeps_execVclz (f : RRR) (s : State) : s.Keeps (execVclz f s) := State.keeps_elementwise _ _ _ _ _

theorem keeps_execVcmpeq (f : RRR) (s : State) : s.Keeps (execVcmpeq f s) := State.keeps_vcompare _ _ _

theorem keeps_execVcmpne (f : RRR) (s : State) : s.Keeps (execVcmpne f s) := State.keeps_vcompare _ _ _

theorem keeps_execVcmplt (f : RRR) (s : State) : s.Keeps (execVcmplt f s) := State.keeps_vcompare _ _ _

theorem keeps_execVcmple (f : RRR) (s : State) : s.Keeps (execVcmple f s) := State.keeps_vcompare _ _ _

theorem keeps_execVcmpun (f : RRR) (s : State) : s.Keeps (execVcmpun f s) := State.keeps_vcompare _ _ _

theorem keeps_execVsel (f : RRR) (s : State) : s.Keeps (execVsel f s) :=
  State.keeps_always fun _ h => State.wf_putElems h ..

theorem keeps_execVmov (f : RRR) (s : State) : s.Keeps (execVmov f s) := State.keeps_elementwise _ _ _ _ _

theorem keeps_execVbcast (f : RRR) (s : State) : s.Keeps (execVbcast f s) :=
  State.keeps_vector _ fun _ h => State.wf_putElems h ..

theorem keeps_execVlane (f : RX) (s : State) : s.Keeps (execVlane f s) :=
  State.keeps_vector _ fun _ h => State.wf_putElems h ..

theorem keeps_execVext (f : RX) (s : State) : s.Keeps (execVext f s) :=
  State.keeps_issue fun _ h => State.wf_putS h ..

theorem keeps_execVins (f : RX) (s : State) : s.Keeps (execVins f s) :=
  State.keeps_vector _ fun _ h => State.wf_putElems h ..

theorem keeps_execVperm (f : RRR) (s : State) : s.Keeps (execVperm f s) :=
  State.keeps_vector _ fun _ h => State.wf_putElems h ..

theorem keeps_execVslide (f : RX) (s : State) : s.Keeps (execVslide f s) :=
  State.keeps_vector _ fun _ h => State.wf_putElems h ..

theorem keeps_execVred (f : RX) (s : State) : s.Keeps (execVred f s) := State.keeps_vector _ fun _ h => h

theorem keeps_execVscan (f : RX) (s : State) : s.Keeps (execVscan f s) := State.keeps_vector _ fun _ h => h

theorem keeps_execVdot (f : RRR) (s : State) : s.Keeps (execVdot f s) := State.keeps_vector _ fun _ h => h

theorem keeps_execVcvt (f : RX) (s : State) : s.Keeps (execVcvt f s) :=
  State.keeps_always fun _ h => by
    dsimp only
    grind [Res.st, State.wf_putElems]

theorem keeps_execVpack (f : RX) (s : State) : s.Keeps (execVpack f s) :=
  State.keeps_issue fun _ h => by
    dsimp only
    grind [Res.st, State.wf_setStr, State.wf_put, State.wf_putS, State.wf_putV, State.wf_block]

theorem keeps_execVunpk (f : RX) (s : State) : s.Keeps (execVunpk f s) :=
  State.keeps_issue fun _ h => State.wf_putV h ..

theorem keeps_execVscale (f : RRR) (s : State) : s.Keeps (execVscale f s) := State.keeps_elementwise _ _ _ _ _

theorem keeps_execVclass (f : RRR) (s : State) : s.Keeps (execVclass f s) := State.keeps_elementwise _ _ _ _ _

theorem keeps_execVsett (f : RX) (s : State) : s.Keeps (execVsett f s) :=
  State.keeps_issue fun _ h => by
    dsimp only
    grind [Res.st, State.wf_setMe, State.wf_putS]

theorem keeps_execVgetf (f : RRR) (s : State) : s.Keeps (execVgetf f s) :=
  State.keeps_issue fun _ h => by
    dsimp only
    grind [Res.st, State.wf_setMe, State.wf_putS]

theorem keeps_execVsetf (f : RRR) (s : State) : s.Keeps (execVsetf f s) :=
  State.keeps_issue fun _ h => by
    dsimp only
    grind [Res.st, State.wf_setMe, State.wf_putS]

theorem keeps_execVseed (f : RRR) (s : State) : s.Keeps (execVseed f s) :=
  State.keeps_issue fun _ h => by
    dsimp only
    grind [Res.st, State.wf_setStr, State.wf_putS]

theorem keeps_execSemw (f : RX) (s : State) : s.Keeps (execSemw f s) :=
  State.keeps_issue fun _ h => by
    dsimp only
    grind [Res.st, State.wf_setMe, State.wf_arriveS]

theorem keeps_execSems (f : RX) (s : State) : s.Keeps (execSems f s) :=
  State.keeps_issue fun _ h => by
    dsimp only
    grind [Res.st, State.wf_setMe, State.wf_arriveS, State.wf_afterLinks]

theorem keeps_execSemi (f : RX) (s : State) : s.Keeps (execSemi f s) :=
  State.keeps_issue fun _ h => by
    dsimp only
    grind [Res.st, State.wf_setMe, State.wf_arriveS, State.wf_afterLinks]

theorem keeps_execSemrd (f : RX) (s : State) : s.Keeps (execSemrd f s) := State.keeps_issue fun _ h => h

theorem keeps_execBar (f : RRR) (s : State) : s.Keeps (execBar f s) :=
  State.keeps_issue fun _ h => by
    dsimp only
    grind [Res.st, State.wf_barArrive, State.wf_barWait]

theorem keeps_execBara (f : RRR) (s : State) : s.Keeps (execBara f s) :=
  State.keeps_issue fun _ h => by
    dsimp only
    grind [Res.st, State.wf_putS, State.wf_barArrive]

theorem keeps_execBarw (f : RRR) (s : State) : s.Keeps (execBarw f s) :=
  State.keeps_issue fun _ h => State.wf_barWait h ..

theorem keeps_execBibset (f : RRR) (s : State) : s.Keeps (execBibset f s) :=
  State.keeps_issue fun _ h => by
    dsimp only
    grind [Res.st, State.wf_setMe, State.wf_putS, State.wf_newDepth]

theorem wf_getD {o : Option Res} (ho : ∀ r, o = some r → r.st.mem.wf = true) {r : Res} (hr : r.st.mem.wf = true) :
    (o.getD r).st.mem.wf = true := by
  cases o with
  | none => exact hr
  | some x => exact ho x rfl

theorem keeps_execLock (f : RRR) (s : State) : s.Keeps (execLock f s) :=
  State.keeps_issue fun s h => by
    have hc := State.wf_atomCheck h s.ctx.core s.ctx.strm (s.getS f.a).toNat 8
    dsimp only
    split
    · grind [Res.st, State.wf_arriveS, State.wf_holdLock]
    · split
      · next he => rw [he] at hc; exact hc
      · next he =>
        rw [he] at hc
        exact wf_getD (State.wf_tryAcquire (State.wf_mark hc ..) _ _ _) (State.wf_mark hc ..)

theorem keeps_execTrylk (f : RRR) (s : State) : s.Keeps (execTrylk f s) :=
  State.keeps_issue fun s h => by
    have hc := State.wf_atomCheck h s.ctx.core s.ctx.strm (s.getS f.a).toNat 8
    dsimp only
    split
    · next he => rw [he] at hc; exact hc
    · next he =>
      rw [he] at hc
      exact wf_getD (State.wf_tryAcquire (State.wf_mark hc ..) _ _ _) (State.wf_arriveS (State.wf_mark hc ..) ..)

theorem keeps_execUnlock (f : RRR) (s : State) : s.Keeps (execUnlock f s) :=
  State.keeps_issue fun s h => by
    have hc := State.wf_atomCheck h s.ctx.core s.ctx.strm (s.getS f.a).toNat 8
    dsimp only
    split
    · next he => rw [he] at hc; exact hc
    · next he =>
      rw [he] at hc
      refine State.wf_fenced hc _ fun s1 h1 => ?_
      split <;>
      · split
        · exact h1
        · exact State.wf_arriveS (State.wf_releaseLock (State.wf_dropLock (State.wf_mark h1 ..) ..) ..) ..

theorem keeps_execQpush (f : RX) (s : State) : s.Keeps (execQpush f s) :=
  State.keeps_issue fun _ h => by
    dsimp only
    grind [Res.st, State.wf_setMe, State.wf_afterLinks]

theorem keeps_execQpop (f : RX) (s : State) : s.Keeps (execQpop f s) :=
  State.keeps_issue fun _ h => by
    dsimp only
    grind [Res.st, State.wf_setMe, State.wf_takeHead, State.wf_deliverEntry]

theorem keeps_execQpeek (f : RX) (s : State) : s.Keeps (execQpeek f s) :=
  State.keeps_issue fun _ h => by
    dsimp only
    grind [Res.st, State.wf_takeHead, State.wf_deliverEntry]

theorem keeps_execQstat (f : RX) (s : State) : s.Keeps (execQstat f s) :=
  State.keeps_issue fun _ h => State.wf_putS h ..

theorem keeps_execTokp (f : RI) (s : State) : s.Keeps (execTokp f s) :=
  State.keeps_issue fun _ h => State.wf_tokenPush h ..

theorem keeps_execTokw (f : RI) (s : State) : s.Keeps (execTokw f s) :=
  State.keeps_issue fun _ h => State.wf_tokenWait h ..

theorem keeps_execTok16Push (k : BitVec 3) (s : State) : s.Keeps (execTok16Push k s) :=
  State.keeps_always fun _ h => State.wf_tokenPush h ..

theorem keeps_execTok16Wait (k : BitVec 3) (s : State) : s.Keeps (execTok16Wait k s) :=
  State.keeps_always fun _ h => State.wf_tokenWait h ..

theorem keeps_execWreg (f : RX) (s : State) : s.Keeps (execWreg f s) :=
  State.keeps_issue fun _ h => by
    dsimp only
    grind [Res.st, State.wf_setStr, State.wf_putS]

theorem keeps_execWdereg (f : RX) (s : State) : s.Keeps (execWdereg f s) :=
  State.keeps_issue fun _ h => by
    dsimp only
    grind [Res.st, State.wf_setStr, State.wf_putS]

theorem keeps_execWqry (f : RX) (s : State) : s.Keeps (execWqry f s) :=
  State.keeps_issue fun _ h => by
    dsimp only
    grind [Res.st, State.wf_mark, State.wf_xlate, State.wf_putS]

theorem keeps_execWhold (f : RX) (s : State) : s.Keeps (execWhold f s) :=
  State.keeps_issue fun _ h => by
    dsimp only
    grind [Res.st, State.wf_setMyDie, State.wf_putS, State.wf_retire, State.wf_detect]

theorem keeps_execDeadlockSweep (s : State) : s.Keeps (execDeadlockSweep s) := by
  unfold execDeadlockSweep State.Keeps
  grind (splits := 40) [State.wf_setDie, State.wf_sweepDie]

theorem keeps_execWavefrontCellArrival (s : State) : s.Keeps (execWavefrontCellArrival s) := by
  unfold execWavefrontCellArrival State.Keeps
  grind (splits := 40) [State.wf_setArr]

theorem keeps_execWavefrontDelivery (s : State) : s.Keeps (execWavefrontDelivery s) := by
  unfold execWavefrontDelivery State.Keeps
  grind (splits := 40) [State.wf_setArr, State.wf_turnLease, State.wf_failedChecks, State.wf_deliveries]

theorem keeps_execWavefrontAdmission (s : State) : s.Keeps (execWavefrontAdmission s) := by
  unfold execWavefrontAdmission State.Keeps
  grind (splits := 40) [State.wf_setArr, State.wf_takeIn]

theorem keeps_execApplyCommit (s : State) : s.Keeps (execApplyCommit s) := by
  unfold execApplyCommit State.Keeps
  grind (splits := 40) [State.wf_commits]

theorem keeps_execLdl (f : M) (s : State) : s.Keeps (execLdl f s) :=
  State.keeps_issueM _ fun _ h => State.wf_load h ..

theorem keeps_execStl (f : M) (s : State) : s.Keeps (execStl f s) :=
  State.keeps_issueM _ fun _ h => State.wf_store h ..

theorem keeps_execLdc (f : M) (s : State) : s.Keeps (execLdc f s) :=
  State.keeps_issueM _ fun _ h => State.wf_load h ..

theorem keeps_execStc (f : M) (s : State) : s.Keeps (execStc f s) :=
  State.keeps_issueM _ fun _ h => State.wf_store h ..

theorem keeps_execLdg (f : M) (s : State) : s.Keeps (execLdg f s) :=
  State.keeps_issueM _ fun _ h => State.wf_load h ..

theorem keeps_execStg (f : M) (s : State) : s.Keeps (execStg f s) :=
  State.keeps_issueM _ fun _ h => State.wf_store h ..

theorem keeps_execLdk (f : M) (s : State) : s.Keeps (execLdk f s) :=
  State.keeps_issueM _ fun _ h => State.wf_load h ..

theorem keeps_execLdh (f : M) (s : State) : s.Keeps (execLdh f s) :=
  State.keeps_issueM _ fun _ h => State.wf_load h ..

theorem keeps_execSth (f : M) (s : State) : s.Keeps (execSth f s) :=
  State.keeps_issueM _ fun _ h => State.wf_store h ..

theorem keeps_execLdp (f : M) (s : State) : s.Keeps (execLdp f s) :=
  State.keeps_issueM _ fun _ h => State.wf_load h ..

theorem keeps_execStp (f : M) (s : State) : s.Keeps (execStp f s) :=
  State.keeps_issueM _ fun _ h => State.wf_store h ..

theorem keeps_execMstc (f : M) (s : State) : s.Keeps (execMstc f s) :=
  State.keeps_issueM _ fun s h => by
    dsimp only
    iterate 3
      split
      · exact h
    split
    · exact h
    · dsimp only [Res.st]
      exact wf_foldl (fun _ _ hs => State.wf_setCore hs ..) h _

theorem keeps_execLdgq (f : M) (s : State) : s.Keeps (execLdgq f s) :=
  State.keeps_issue fun _ h => by
    dsimp only
    grind [Res.st, State.wf_loadG, Accessed.wf_res, State.wf_queueRoom, State.wf_lockLines, State.wf_reserve, Accessed.st]

theorem keeps_execLdkq (f : M) (s : State) : s.Keeps (execLdkq f s) :=
  State.keeps_issue fun _ h => by
    dsimp only
    grind [Res.st, State.wf_loadK, Accessed.wf_res, State.wf_queueRoom, State.wf_reserve, Accessed.st]

theorem keeps_execGathq (f : M) (s : State) : s.Keeps (execGathq f s) :=
  State.keeps_issue fun _ h => by
    dsimp only
    grind [Res.st, State.wf_setMe, State.wf_takeHead, State.wf_gathLoad]

theorem keeps_execQueueLoadArrival (s : State) : s.Keeps (execQueueLoadArrival s) := by
  unfold execQueueLoadArrival State.Keeps
  grind (splits := 40) [State.wf_setCore, State.wf_arrive]

theorem keeps_execVgath (f : M) (s : State) : s.Keeps (execVgath f s) :=
  State.keeps_always fun _ h => by
    dsimp only
    grind [Res.st, State.wf_mark, State.wf_consume, State.wf_readSeen, State.wf_deliverV, State.wf_checkElems]

theorem keeps_execVscat (f : M) (s : State) : s.Keeps (execVscat f s) :=
  State.keeps_always fun _ h => by
    dsimp only
    grind [Res.st, State.wf_mark, State.wf_writePieces, State.wf_checkElems]

theorem keeps_execPfg (f : M) (s : State) : s.Keeps (execPfg f s) :=
  State.keeps_issue fun _ h => State.wf_xlate h ..

theorem keeps_execCinv (f : M) (s : State) : s.Keeps (execCinv f s) :=
  State.keeps_issue fun _ h => by
    dsimp only
    grind [Res.st, State.wf_setMe, State.wf_put, State.wf_maintPieces]

theorem keeps_execCflsh (f : M) (s : State) : s.Keeps (execCflsh f s) :=
  State.keeps_issue fun s h => by
    split
    · exact h
    · exact State.wf_maintPieces h _ fun _ _ hs => hs

theorem keeps_execClkr (f : M) (s : State) : s.Keeps (execClkr f s) :=
  State.keeps_issue fun _ h => by
    dsimp only
    grind [Res.st, State.wf_setMe, State.wf_maintPieces]

theorem keeps_execHflsh (f : M) (s : State) : s.Keeps (execHflsh f s) :=
  State.keeps_issue fun _ h => State.wf_hostRange h _ _ fun _ _ => State.wf_raisePending (State.wf_flushHost h ..) _ fun _ hs => hs

theorem keeps_execHinv (f : M) (s : State) : s.Keeps (execHinv f s) :=
  State.keeps_issue fun _ h => by
    dsimp only
    grind [Res.st, State.wf_setMe, State.wf_hostRange]

theorem keeps_execSpcfg (f : M) (s : State) : s.Keeps (execSpcfg f s) :=
  State.keeps_issue fun _ h => by
    dsimp only
    grind [Res.st, State.wf_setMe, State.wf_arriveS]

theorem keeps_execXshdAlloc (f : E) (s : State) : s.Keeps (execXshdAlloc f s) :=
  State.keeps_issue fun _ h => by
    dsimp only
    grind [Res.st, State.wf_mark, State.wf_writePieces, State.wf_arriveS, State.wf_xlateAll]

theorem keeps_execXshdFree (f : E) (s : State) : s.Keeps (execXshdFree f s) :=
  State.keeps_issue fun _ h => by
    dsimp only
    grind [Res.st, Res.wf_open]

theorem keeps_execCopyCompletion (s : State) : s.Keeps (execCopyCompletion s) := by
  unfold execCopyCompletion State.Keeps
  grind (splits := 40) [State.wf_copyWords, State.wf_endCopy]

theorem keeps_execXcopy (f : E) (s : State) : s.Keeps (execXcopy f s) :=
  State.keeps_command _ _ _ _ fun _ _ h => State.wf_acceptCopy h ..

theorem keeps_execXfill (f : E) (s : State) : s.Keeps (execXfill f s) :=
  State.keeps_command _ _ _ _ fun _ _ h => State.wf_acceptCopy h ..

theorem keeps_execXpub (f : E) (s : State) : s.Keeps (execXpub f s) :=
  State.keeps_command _ _ _ _ fun _ _ h => by
    dsimp only
    grind [CmdRes.st, State.wf_mark, State.wf_writePieces, State.wf_selector, State.wf_publish]

theorem keeps_execFenceStream (s : State) : s.Keeps (execFenceStream s) := State.keeps_fence _

theorem keeps_execFenceJob (s : State) : s.Keeps (execFenceJob s) := State.keeps_fence _

theorem keeps_execFenceCluster (s : State) : s.Keeps (execFenceCluster s) := State.keeps_fence _

theorem keeps_execFenceDevice (s : State) : s.Keeps (execFenceDevice s) := State.keeps_fence _

theorem keeps_execFenceSystem (s : State) : s.Keeps (execFenceSystem s) := State.keeps_fence _

theorem keeps_execEfence (s : State) : s.Keeps (execEfence s) :=
  State.keeps_issue fun _ h => State.wf_fenced h _ fun s hs => by
    split
    · exact hs
    · exact State.wf_raisePending hs _ fun _ hs => hs

theorem keeps_execKsync (s : State) : s.Keeps (execKsync s) := State.keeps_issue fun _ h => h

theorem keeps_execAadd (sp : BitVec 2) (f : M) (s : State) : s.Keeps (execAadd sp f s) := State.keeps_atomic _ _ _

theorem keeps_execAfadd (sp : BitVec 2) (f : M) (s : State) : s.Keeps (execAfadd sp f s) := State.keeps_atomic _ _ _

theorem keeps_execAmin (sp : BitVec 2) (f : M) (s : State) : s.Keeps (execAmin sp f s) := State.keeps_atomic _ _ _

theorem keeps_execAmax (sp : BitVec 2) (f : M) (s : State) : s.Keeps (execAmax sp f s) := State.keeps_atomic _ _ _

theorem keeps_execAand (sp : BitVec 2) (f : M) (s : State) : s.Keeps (execAand sp f s) := State.keeps_atomic _ _ _

theorem keeps_execAor (sp : BitVec 2) (f : M) (s : State) : s.Keeps (execAor sp f s) := State.keeps_atomic _ _ _

theorem keeps_execAxor (sp : BitVec 2) (f : M) (s : State) : s.Keeps (execAxor sp f s) := State.keeps_atomic _ _ _

theorem keeps_execAxchg (sp : BitVec 2) (f : M) (s : State) : s.Keeps (execAxchg sp f s) := State.keeps_atomic _ _ _

theorem keeps_execAcas (sp : BitVec 2) (f : M) (s : State) : s.Keeps (execAcas sp f s) := State.keeps_atomic _ _ _

theorem keeps_execAred (sp : BitVec 2) (f : M) (s : State) : s.Keeps (execAred sp f s) := by
  unfold execAred
  split
  · exact State.keeps_issue fun _ h => Accessed.wf_res (State.wf_atoms h ..) fun _ _ hs => hs
  · exact State.keeps_issueM _ fun _ h => Accessed.wf_res (State.wf_atoms h ..) fun _ _ hs => hs

theorem keeps_execXred (f : E) (s : State) : s.Keeps (execXred f s) :=
  State.keeps_collCmd _ _ fun _ _ h => by
    dsimp only
    grind [CmdRes.st, State.wf_loadPad, State.wf_progress, State.wf_onEpoch, State.wf_agreeing, State.wf_receiveDown, State.wf_reduce, Accessed.st]

theorem keeps_execXbcast (f : E) (s : State) : s.Keeps (execXbcast f s) :=
  State.keeps_collCmd _ _ fun _ _ h => by
    dsimp only
    grind [CmdRes.st, State.wf_loadPad, State.wf_sendDown, State.wf_progress, State.wf_finishColl, State.wf_onEpoch, State.wf_agreeing, State.wf_receiveDown, Accessed.st]

theorem keeps_execXtree (f : E) (s : State) : s.Keeps (execXtree f s) :=
  State.keeps_collCmd _ _ fun _ _ h => by
    dsimp only
    grind [CmdRes.st, State.wf_setDie, State.wf_loadPad, State.wf_progress, State.wf_handshake, Accessed.st]

theorem keeps_execXrstat (f : E) (s : State) : s.Keeps (execXrstat f s) :=
  State.keeps_issue fun _ h => by
    dsimp only
    grind [Res.st, State.wf_arriveS]

theorem keeps_execRedTimeout (s : State) : s.Keeps (execRedTimeout s) := by
  unfold execRedTimeout State.Keeps
  grind (splits := 40) [State.wf_collExpires]

theorem keeps_execWaitLimit (s : State) : s.Keeps (execWaitLimit s) := by
  unfold execWaitLimit State.Keeps
  grind (splits := 40) [State.wf_raiseWait, State.wf_collExpires]

theorem keeps_execNop (s : State) : s.Keeps (execNop s) := State.keeps_issue fun _ h => h

theorem keeps_execNop16 (s : State) : s.Keeps (execNop16 s) := State.keeps_always fun _ h => h

theorem keeps_execFqry (f : RRR) (s : State) : s.Keeps (execFqry f s) :=
  State.keeps_issue fun _ h => State.wf_putS h ..

theorem keeps_execBr (f : B) (s : State) : s.Keeps (execBr f s) :=
  State.keeps_issue fun _ h => State.wf_jump h _ fun _ hs => hs

theorem keeps_execBr16 (imm : BitVec 11) (s : State) : s.Keeps (execBr16 imm s) :=
  State.keeps_always fun _ h => State.wf_jump h _ fun _ hs => hs

theorem keeps_execBri (f : RRR) (s : State) : s.Keeps (execBri f s) :=
  State.keeps_issue fun _ h => State.wf_jump h _ fun _ hs => State.wf_putS hs ..

theorem keeps_execRet (f : RRR) (s : State) : s.Keeps (execRet f s) :=
  State.keeps_issue fun _ h => State.wf_jump h _ fun _ hs => hs

theorem keeps_execCall (f : RX) (s : State) : s.Keeps (execCall f s) :=
  State.keeps_issue fun _ h => State.wf_jump h _ fun _ hs => State.wf_putS hs ..

theorem keeps_execMcall (f : RI) (s : State) : s.Keeps (execMcall f s) :=
  State.keeps_issue fun _ h => by
    dsimp only
    grind [Res.st, State.wf_setStr, State.wf_noSlot]

theorem keeps_execMdef (f : RX) (s : State) : s.Keeps (execMdef f s) :=
  State.keeps_issue fun _ h => by
    dsimp only
    grind [Res.st, State.wf_setMe, State.wf_loadG, Accessed.st]

theorem keeps_execNest (f : RX) (s : State) : s.Keeps (execNest f s) :=
  State.keeps_issue fun _ h => by
    dsimp only
    grind [Res.st, State.wf_put]

theorem keeps_execWlimset (f : RRR) (s : State) : s.Keeps (execWlimset f s) :=
  State.keeps_issue fun _ h => by
    dsimp only
    grind [Res.st, State.wf_setStr, State.wf_putS]

theorem keeps_execInc (s : State) : s.Keeps (execInc s) := by
  unfold execInc
  split
  · exact State.keeps_next fun h => State.wf_noSlot h
  · exact fun t ht h => Res.wf_finish h (r := .trap s _) h t ht h

theorem keeps_execWriteTakesEffect (s : State) : s.Keeps (execWriteTakesEffect s) := by
  unfold execWriteTakesEffect State.Keeps
  grind (splits := 40) [State.wf_setCore]

theorem keeps_execSendAcknowledged (s : State) : s.Keeps (execSendAcknowledged s) := by
  unfold execSendAcknowledged State.Keeps
  grind (splits := 40) [State.wf_setLink, State.wf_failSend, State.wf_dropSend, State.wf_transmit, State.wf_ackMany]

theorem keeps_execGoBackReplay (s : State) : s.Keeps (execGoBackReplay s) := by
  unfold execGoBackReplay State.Keeps
  grind (splits := 40) [State.wf_setLink]

theorem keeps_execLinkDown (s : State) : s.Keeps (execLinkDown s) := by
  unfold execLinkDown State.Keeps
  grind (splits := 40) [State.wf_setLink, State.wf_failSends, State.wf_idle]

theorem keeps_execLinkTraining (s : State) : s.Keeps (execLinkTraining s) := by
  unfold execLinkTraining State.Keeps
  grind (splits := 40) [State.wf_setLink, State.wf_idle]

theorem keeps_execLinkMessageArrival (s : State) : s.Keeps (execLinkMessageArrival s) := by
  unfold execLinkMessageArrival State.Keeps
  grind (splits := 40) [State.wf_setLink, State.wf_drainPort]

theorem keeps_execPostWaitTimeout (s : State) : s.Keeps (execPostWaitTimeout s) := by
  unfold execPostWaitTimeout State.Keeps
  grind (splits := 40) [State.wf_setLink, State.wf_answer, State.wf_drainPort]

theorem State.wf_of_xlate {s s1 : State} (h : s.mem.wf = true) {w : Walker} {asid : Nat} {user : Bool} {acc : Acc} {va : Int} {n : Nat}
    {r : Except (Nat × Nat) (List Piece)} (he : s.xlate w asid user acc va n = (s1, r)) : s1.mem.wf = true := by
  have hx := State.wf_xlate h w asid user acc va n
  rw [he] at hx
  exact hx

theorem keeps_execPeerAccessArrival (s : State) : s.Keeps (execPeerAccessArrival s) := by
  unfold execPeerAccessArrival
  dsimp only
  split
  · split
    · split
      · exact State.keeps_next id
      · split
        · next he => exact State.keeps_next fun h => State.wf_answer (State.wf_of_xlate h he) _
        · next s1 ps he =>
          have h1 (h : s.mem.wf = true) : s1.mem.wf = true := State.wf_of_xlate h he
          unfold State.Keeps
          grind [State.wf_mark, State.wf_writePieces, State.wf_answer]
    all_goals exact State.keeps_next id
  · exact State.keeps_fault _ _

theorem keeps_execGscStep (s : State) : s.Keeps (execGscStep s) := by
  unfold execGscStep State.Keeps
  grind (splits := 40) []

theorem keeps_execGscJoin (s : State) : s.Keeps (execGscJoin s) := by
  unfold execGscJoin State.Keeps
  grind (splits := 40) []

theorem keeps_execLsend (f : E) (s : State) : s.Keeps (execLsend f s) :=
  State.keeps_linkCmd _ _ _ fun _ _ h => by
    dsimp only
    grind [CmdRes.st, Accessed.wf_res, State.wf_sendNow, State.wf_sourceCheck, State.wf_sendCompressed]

theorem keeps_execLarm (f : E) (s : State) : s.Keeps (execLarm f s) :=
  State.keeps_linkCmd _ _ _ fun _ _ h => by
    dsimp only
    grind [CmdRes.st, State.wf_setDie, State.wf_counterEvent, State.wf_sourceOk]

theorem keeps_execLarmDis (f : E) (s : State) : s.Keeps (execLarmDis f s) :=
  State.keeps_linkCmd _ _ _ fun _ _ h => by
    dsimp only
    grind [CmdRes.st, State.wf_setDie]

theorem keeps_execLrecv (f : E) (s : State) : s.Keeps (execLrecv f s) :=
  State.keeps_linkCmd _ _ _ fun _ _ h => by
    dsimp only
    grind [CmdRes.st, State.wf_mark, State.wf_xlate, State.wf_setDie, State.wf_drainPorts]

theorem keeps_execLctrRd (f : E) (s : State) : s.Keeps (execLctrRd f s) :=
  State.keeps_linkOwn fun _ h => State.wf_counter h _ fun _ _ => State.wf_arriveS h ..

theorem keeps_execLctrWait (f : E) (s : State) : s.Keeps (execLctrWait f s) :=
  State.keeps_linkOwn fun _ h => by
    dsimp only
    grind [Res.st, State.wf_arriveS, State.wf_counter]

theorem keeps_execLctrSet (f : E) (s : State) : s.Keeps (execLctrSet f s) := State.keeps_counterWrite _ _

theorem keeps_execLctrAdd (f : E) (s : State) : s.Keeps (execLctrAdd f s) := State.keeps_counterWrite _ _

theorem keeps_execLstep (f : E) (s : State) : s.Keeps (execLstep f s) :=
  State.keeps_linkOwn fun s h => by
    split
    · exact State.wf_arriveS h ..
    · exact Res.wf_open h _

theorem keeps_execLstat (f : E) (s : State) : s.Keeps (execLstat f s) :=
  State.keeps_linkOwn fun _ h => by
    dsimp only
    grind [Res.st, State.wf_arriveS]

theorem keeps_execTawin (f : RI) (s : State) : s.Keeps (execTawin f s) :=
  State.keeps_issue fun _ h => by
    dsimp only
    grind [Res.st, State.wf_putS, State.wf_setTwin]

theorem keeps_execTamode (f : RX) (s : State) : s.Keeps (execTamode f s) :=
  State.keeps_issue fun _ h => by
    dsimp only
    grind [Res.st, State.wf_setMe, State.wf_onPlanes]

theorem keeps_execTarst (f : RI) (s : State) : s.Keeps (execTarst f s) :=
  State.keeps_issue fun _ h => by
    dsimp only
    grind [Res.st, State.wf_setMe, State.wf_onPlanes]

theorem keeps_execTadly (f : RX) (s : State) : s.Keeps (execTadly f s) :=
  State.keeps_issue fun _ h => by
    dsimp only
    grind [Res.st, State.wf_setMe, State.wf_onPlanes]

theorem keeps_execTalnch (f : RX) (s : State) : s.Keeps (execTalnch f s) :=
  State.keeps_issue fun _ h => by
    dsimp only
    grind [Res.st, State.wf_setMe, State.wf_planeTrap]

theorem keeps_execTacap (f : RX) (s : State) : s.Keeps (execTacap f s) :=
  State.keeps_issue fun _ h => by
    dsimp only
    grind [Res.st, State.wf_setMe, State.wf_planeTrap]

theorem keeps_execTastat (f : RRR) (s : State) : s.Keeps (execTastat f s) :=
  State.keeps_issue fun _ h => State.wf_putS h ..

theorem keeps_execPlaneCapture (s : State) : s.Keeps (execPlaneCapture s) := by
  unfold execPlaneCapture
  split
  · exact State.keeps_next fun h => wf_foldl (fun _ _ hs => State.wf_raiseTacap hs ..) (State.wf_setCore h ..) _
  · exact State.keeps_fault _ _

theorem keeps_execWlease (s : State) : s.Keeps (execWlease s) :=
  State.keeps_command _ _ _ _ fun _ _ h => by
    dsimp only
    grind [CmdRes.st, State.wf_requestLease, State.wf_setMyArr]

theorem keeps_execWrls (s : State) : s.Keeps (execWrls s) :=
  State.keeps_command _ _ _ _ fun _ _ h => by
    dsimp only
    grind [CmdRes.st, State.wf_setMyArr]

theorem keeps_execWbankSel (f : E) (s : State) : s.Keeps (execWbankSel f s) :=
  State.keeps_command _ _ _ _ fun _ _ h => State.wf_ownBank h _ fun _ => State.wf_present h ..

theorem keeps_execWbankClaim (f : E) (s : State) : s.Keeps (execWbankClaim f s) :=
  State.keeps_command _ _ _ _ fun _ _ h => by
    dsimp only
    grind [CmdRes.st, State.wf_setMyArr, State.wf_present]

theorem keeps_execWbankRel (f : E) (s : State) : s.Keeps (execWbankRel f s) :=
  State.keeps_command _ _ _ _ fun _ _ h => by
    dsimp only
    grind [CmdRes.st, State.wf_setMe, State.wf_setMyArr, State.wf_ownBank]

theorem keeps_execWregnDef (f : E) (s : State) : s.Keeps (execWregnDef f s) :=
  State.keeps_command _ _ _ _ fun _ _ h => by
    dsimp only
    grind [CmdRes.st, State.wf_withLease, State.wf_withRegion, State.wf_putRegion]

theorem keeps_execWregnRem (f : E) (s : State) : s.Keeps (execWregnRem f s) :=
  State.keeps_command _ _ _ _ fun _ _ h => by
    dsimp only
    grind [CmdRes.st, State.wf_withLease, State.wf_withRegion, State.wf_putRegion]

theorem keeps_execWldw (f : E) (s : State) : s.Keeps (execWldw f s) :=
  State.keeps_command _ _ _ _ fun _ _ h => by
    dsimp only
    grind [CmdRes.st, State.wf_loadRanges, State.wf_loadPad, State.wf_setMyArr, State.wf_withLease, State.wf_withRegion, Accessed.st]

theorem keeps_execWstw (f : E) (s : State) : s.Keeps (execWstw f s) :=
  State.keeps_command _ _ _ _ fun _ _ h => by
    dsimp only
    grind [CmdRes.st, State.wf_mark, State.wf_writePieces, State.wf_setMe, State.wf_xlateAll, State.wf_withLease, State.wf_withRegion]

theorem keeps_execWadmit (f : E) (s : State) : s.Keeps (execWadmit f s) :=
  State.keeps_command _ _ _ _ fun _ _ h => by
    dsimp only
    grind [CmdRes.st, State.wf_loadPad, State.wf_withLease, State.wf_withRegion, State.wf_enterEdge, Accessed.st]

theorem keeps_execWcoll (f : E) (s : State) : s.Keeps (execWcoll f s) :=
  State.keeps_command _ _ _ _ fun _ _ h => by
    dsimp only
    grind [CmdRes.st, State.wf_setMe, State.wf_arriveOwn, State.wf_storePad, Accessed.st]

theorem keeps_execWver (f : E) (s : State) : s.Keeps (execWver f s) :=
  State.keeps_command _ _ _ _ fun _ _ h => by
    dsimp only
    grind [CmdRes.st, State.wf_arriveOwn, State.wf_withRegion, State.wf_putRegion]

theorem keeps_execWopt (f : E) (s : State) : s.Keeps (execWopt f s) :=
  State.keeps_command _ _ _ _ fun _ _ h => State.wf_setting h ..

theorem keeps_execWcks (f : E) (s : State) : s.Keeps (execWcks f s) :=
  State.keeps_command _ _ _ _ fun _ _ h => State.wf_setting h ..

theorem keeps_execWdrain (s : State) : s.Keeps (execWdrain s) :=
  State.keeps_command _ _ _ _ fun s _ h => by
    split <;> exact h

theorem keeps_execWdrainDiscard (s : State) : s.Keeps (execWdrainDiscard s) :=
  State.keeps_command _ _ _ _ fun _ _ h => by
    dsimp only
    grind [CmdRes.st, State.wf_setCore, State.wf_popCmd, State.wf_cmdSignal, State.wf_discardArray, State.wf_withLease]

theorem keeps_execWsave (f : E) (s : State) : s.Keeps (execWsave f s) :=
  State.keeps_command _ _ _ _ fun _ _ h => by
    dsimp only
    grind [CmdRes.st, State.wf_mark, State.wf_xlate, State.wf_setMe, State.wf_withLease, State.wf_writeLong]

theorem Accessed.wf_of_ok {x : Accessed} (h : x.st.mem.wf = true) {s : State} {bs : List Byte} (he : x = .ok s bs) : s.mem.wf = true := by
  subst he
  exact h

theorem Accessed.wf_of_trap {x : Accessed} (h : x.st.mem.wf = true) {s : State} {t : TrapSpec} (he : x = .trap s t) : s.mem.wf = true := by
  subst he
  exact h

theorem keeps_execWrest (f : E) (s : State) : s.Keeps (execWrest f s) :=
  State.keeps_command _ _ _ _ fun _ x h => State.wf_withLease h _ fun s h => by
    have hl {s1 : State} (h1 : s1.mem.wf = true) va n := State.wf_loadG h1 s.ctx.core .ws false va n
    dsimp only
    iterate 2
      split
      · exact h
    split
    · next he => exact Accessed.wf_of_trap (hl h _ _) he
    · exact h
    · next he =>
      have h1 := Accessed.wf_of_ok (hl h _ _) he
      split
      · exact h1
      · split
        · next he => exact Accessed.wf_of_trap (hl h1 _ _) he
        · exact h
        · next cnt he =>
          have h2 := Accessed.wf_of_ok (hl h1 _ _) he
          split
          · exact h2
          · split
            · next he => exact Accessed.wf_of_trap (hl h2 _ _) he
            · exact h
            · next s3 bs he =>
              have h3 := Accessed.wf_of_ok (hl h2 _ _) he
              split
              · exact h3
              · split
                · exact State.wf_restoreArray (s := { s3 with seq := s3.seq + leNat cnt }) h3 _ _
                · exact State.wf_restoreArray h3 ..

theorem keeps_execJobRetirement (s : State) : s.Keeps (execJobRetirement s) := by
  unfold execJobRetirement State.Keeps
  grind (splits := 40) [State.wf_retireJob]

theorem keeps_execWaite (s : State) : s.Keeps (execWaite s) :=
  State.keeps_issue fun _ h => State.wf_settled h fun s hs => by
    split <;> exact hs

theorem keeps_execNode (s : State) : s.Keeps (execNode s) :=
  State.keeps_issue fun _ h => by
    dsimp only
    grind [Res.st, State.wf_setStr, State.wf_settled, State.wf_raisePending, State.wf_atNode]

theorem keeps_execRdv (s : State) : s.Keeps (execRdv s) :=
  State.keeps_issue fun _ h => by
    dsimp only
    grind [Res.st, State.wf_setStr, State.wf_settled, State.wf_raisePending, State.wf_boundary, State.wf_failEnded, State.wf_systemDone]

theorem keeps_execDispatch (s : State) : s.Keeps (execDispatch s) := by
  unfold execDispatch State.Keeps
  grind (splits := 40) [State.wf_dispatch]

theorem State.wf_foldl_postRequest {s : State} (h : s.mem.wf = true) (d : Fin 2) (l : List (Nat × HeadInfo)) :
    (l.foldl (fun s x => s.postRequest d x.1 x.2) s).mem.wf = true :=
  wf_foldl (f := fun (s : State) (x : Nat × HeadInfo) => s.postRequest d x.1 x.2) (fun _ _ hs => State.wf_postRequest hs ..) h l

theorem keeps_execDistributorSelection (s : State) : s.Keeps (execDistributorSelection s) := by
  unfold execDistributorSelection
  split
  · next hd =>
    generalize (⟨s.ctx.ev.unit, hd⟩ : Fin 2) = d
    have h1 (h : s.mem.wf = true) := State.wf_decide_ (State.wf_withdrawRequests h d) d
    have h2 (h : s.mem.wf = true) := State.wf_headInfos (h1 h) d (List.range 64)
    dsimp only
    split
    · exact State.keeps_next h1
    · have h3 (h : s.mem.wf = true) (x : Option HeadInfo) (s2 : State) (hs : s2.mem.wf = true) :
          (match x with | some h => s2.diverge d h | none => s2).mem.wf = true := by
        cases x with
        | none => exact hs
        | some y => exact State.wf_diverge hs d y
      generalize State.headInfos d (List.range 64) ((s.withdrawRequests d).decide_ d) = r at h2
      obtain ⟨s2, l⟩ := r
      dsimp only
      split
      · exact State.keeps_next fun h => State.wf_foldl_postRequest (h3 h _ _ (h2 h)) ..
      · exact State.keeps_next fun h => State.wf_select (State.wf_setDie (State.wf_foldl_postRequest (h3 h _ _ (h2 h)) ..) ..) ..
  · exact State.keeps_fault _ _

theorem keeps_execReplayDiverge (s : State) : s.Keeps (execReplayDiverge s) := by
  unfold execReplayDiverge State.Keeps
  grind (splits := 40) [State.wf_headInfo, State.wf_diverge]

theorem keeps_execCont (f : RRR) (s : State) : s.Keeps (execCont f s) :=
  State.keeps_issue fun _ h => by
    dsimp only
    grind [Res.st, State.wf_arriveS, Res.wf_open, State.wf_loadG, State.wf_drainHost, State.wf_fenced, Accessed.wf_res, State.wf_enqueueFor, Accessed.st]

theorem keeps_execPrio (f : RI) (s : State) : s.Keeps (execPrio f s) :=
  State.keeps_issue fun _ h => State.wf_putS (State.wf_setBprio h _) ..

theorem keeps_execDomain (f : RRR) (s : State) : s.Keeps (execDomain f s) :=
  State.keeps_issue fun _ h => State.wf_setDomain h _ fun _ _ hs => State.wf_arriveS hs ..

theorem keeps_execJoini (f : RX) (s : State) : s.Keeps (execJoini f s) :=
  State.keeps_issue fun _ h => by
    dsimp only
    grind [Res.st, State.wf_mark, State.wf_writePieces, State.wf_arriveS, State.wf_atomCheck, State.wf_drainHost, State.wf_fenced, State.wf_enqueueFor]

theorem keeps_execSelf (f : RRR) (s : State) : s.Keeps (execSelf f s) :=
  State.keeps_issue fun _ h => State.wf_putS h ..

theorem keeps_execTrcrec (f : RRR) (s : State) : s.Keeps (execTrcrec f s) :=
  State.keeps_issue fun _ h => State.wf_startTrace h ..

theorem keeps_execTrcrpl (f : RRR) (s : State) : s.Keeps (execTrcrpl f s) :=
  State.keeps_issue fun _ h => State.wf_startTrace h ..

theorem keeps_execTrcstat (f : RRR) (s : State) : s.Keeps (execTrcstat f s) := State.keeps_issue fun _ h => h

theorem State.wf_tldRead {s : State} (h : s.mem.wf = true) (c : CoreId) (x : Cmd) (f : E) {go : Nat → TileRes}
    (hg : ∀ n, (go n).st.mem.wf = true) : (s.tldRead c x f go).st.mem.wf = true := by
  unfold State.tldRead
  grind [State.wf_poisonTrap, TileRes.st, CmdRes.st]

theorem State.wf_mcast {s : State} (h : s.mem.wf = true) (x : Cmd) (f : E) : (s.mcast x f).st.mem.wf = true := by
  have ho (img key l) (s1 : State) (h1 : s1.mem.wf = true) := State.wf_mcastOthers h1 s.ctx.core (f.of 10 4) img key l
  unfold State.mcast
  dsimp only
  split
  · exact h
  · have h1 : (s.setMe (s.me.mapHead .tile fun (y : Cmd) => { y with stage := 16 + f.of 10 4 })).mem.wf = true := h
    generalize s.setMe (s.me.mapHead .tile fun (y : Cmd) => { y with stage := 16 + f.of 10 4 }) = s1 at h1
    split
    · exact h1
    · split
      · exact h1
      · split
        · exact h1
        · split
          · exact h1
          · refine State.wf_tldRead h1 _ _ _ fun img => ?_
            split
            · exact ho _ _ _ _ h1
            · exact ho _ _ _ _ h1

theorem State.wf_multiply {s : State} (h : s.mem.wf = true) (f : E) (x : Cmd) (zeros : Word) : (s.multiply f x zeros).st.mem.wf = true := by
  unfold State.multiply
  grind [State.wf_drawn, State.wf_setMe, TileRes.tile, TileRes.st, CmdRes.st]

theorem keeps_execTld (f : E) (s : State) : s.Keeps (execTld f s) :=
  State.keeps_tileCmd _ _ _ _ fun s x h => by
    split
    · exact State.wf_mcast h ..
    · exact State.wf_tldRead h _ _ _ fun _ => h

theorem keeps_execTst (f : E) (s : State) : s.Keeps (execTst f s) :=
  State.keeps_tileCmd _ _ _ _ fun _ _ h => by
    dsimp only
    grind [TileRes.st, CmdRes.st, State.wf_setStrm, State.wf_put, State.wf_storeRanges, State.wf_storePad, Accessed.st]

theorem keeps_execTzero (f : E) (s : State) : s.Keeps (execTzero f s) := State.keeps_tileCmd _ _ _ _ fun _ _ h => h

theorem keeps_execTmov (f : E) (s : State) : s.Keeps (execTmov f s) :=
  State.keeps_tileCmd _ _ _ _ fun s x h => by
    dsimp only
    split <;> exact h

theorem keeps_execTmma (f : E) (s : State) : s.Keeps (execTmma f s) := State.keeps_tileCmd _ _ _ _ fun _ _ h => State.wf_multiply h ..

theorem keeps_execTmmas (f : E) (s : State) : s.Keeps (execTmmas f s) := State.keeps_tileCmd _ _ _ _ fun _ _ h => State.wf_multiply h ..

theorem keeps_execTtrn (f : E) (s : State) : s.Keeps (execTtrn f s) := State.keeps_tileCmd _ _ _ _ fun _ _ h => h

theorem keeps_execTcvt (f : E) (s : State) : s.Keeps (execTcvt f s) := State.keeps_tileCmd _ _ _ _ fun _ _ h => h

theorem keeps_execTfmt (f : E) (s : State) : s.Keeps (execTfmt f s) :=
  State.keeps_tileCmd _ _ _ _ fun s x h => by
    dsimp only
    split <;> exact h

theorem keeps_execTstart (s : State) : s.Keeps (execTstart s) := State.keeps_command _ _ _ _ fun _ _ h => h

theorem keeps_execTcksOff (s : State) : s.Keeps (execTcksOff s) := State.keeps_tileCmd _ _ _ _ fun _ _ h => h

theorem keeps_execTcksOn (s : State) : s.Keeps (execTcksOn s) := State.keeps_tileCmd _ _ _ _ fun _ _ h => h

theorem keeps_execTrap (f : RI) (s : State) : s.Keeps (execTrap f s) := State.keeps_issue fun _ h => h

theorem keeps_execTret (s : State) : s.Keeps (execTret s) :=
  State.keeps_issue fun _ h => State.wf_leaveHandler h ..

theorem keeps_execUdecl (s : State) : s.Keeps (execUdecl s) :=
  State.keeps_issue fun _ h => by
    dsimp only
    grind [Res.st, State.wf_stopJob]

theorem keeps_execSeth (f : RRR) (s : State) : s.Keeps (execSeth f s) :=
  State.keeps_issue fun _ h => by
    dsimp only
    grind [Res.st, State.wf_setMe, State.wf_putS, State.wf_target]

theorem keeps_execCsrr (f : RX) (s : State) : s.Keeps (execCsrr f s) :=
  State.keeps_issue fun _ h => by
    dsimp only
    grind [Res.st, State.wf_putS]

theorem keeps_execCsrw (f : RX) (s : State) : s.Keeps (execCsrw f s) :=
  State.keeps_issue fun _ h => by
    dsimp only
    grind [Res.st, State.wf_writeUser, State.wf_writeSup]

theorem keeps_execCsrwDmr (f : RX) (s : State) : s.Keeps (execCsrwDmr f s) :=
  State.keeps_issue fun _ h => State.wf_setDomain h _ fun _ _ hs => hs

theorem keeps_execCsrwBib (f : RX) (s : State) : s.Keeps (execCsrwBib f s) := State.keeps_issue fun _ h => h

theorem keeps_execCsrwBdepth (f : RX) (s : State) : s.Keeps (execCsrwBdepth f s) :=
  State.keeps_issue fun _ h => by
    dsimp only
    grind [Res.st, State.wf_setMe, State.wf_newDepth]

theorem keeps_execCsrwBprio (f : RX) (s : State) : s.Keeps (execCsrwBprio f s) := State.keeps_issue fun _ h => h

theorem keeps_execAset (f : RRR) (s : State) : s.Keeps (execAset f s) :=
  State.keeps_issue fun _ h => by
    dsimp only
    grind [Res.st, State.wf_pwrite8, State.wf_arriveS, State.wf_forget, State.wf_invalidate]

theorem keeps_execTlbi (f : RRR) (s : State) : s.Keeps (execTlbi f s) :=
  State.keeps_issue fun _ h => State.wf_invalidate h _ _ (fun _ hs => State.wf_forget hs _) fun _ _ hs => hs

theorem keeps_execPrq (f : RRR) (s : State) : s.Keeps (execPrq f s) :=
  State.keeps_issue fun s h => by
    have hp := State.wf_prq h (s.jobOn (dieOf s.ctx.core) (s.getS f.a))
    dsimp only
    split
    · exact h
    · next he => exact State.wf_arriveS (hp _ _ _ he) ..

theorem keeps_execAres (f : RRR) (s : State) : s.Keeps (execAres f s) :=
  State.keeps_issue fun _ h => by
    dsimp only
    grind [Res.st, State.wf_setCore, State.wf_setStrm, State.wf_arriveS]

theorem keeps_execCtxsv (f : RRR) (s : State) : s.Keeps (execCtxsv f s) :=
  State.keeps_issue fun _ h => by
    dsimp only
    grind [Res.st, State.wf_arriveS, State.wf_startDrain, State.wf_saveTo]

theorem keeps_execCtxrs (f : RRR) (s : State) : s.Keeps (execCtxrs f s) :=
  State.keeps_issue fun _ h => by
    dsimp only
    grind [Res.st, State.wf_arriveS, State.wf_restoreTo]

theorem keeps_execWftsp (f : RRR) (s : State) : s.Keeps (execWftsp f s) :=
  State.keeps_issue fun s h => by
    dsimp only
    iterate 2
      split
      · exact h
    split <;> exact h

theorem keeps_execErrlog (f : RRR) (s : State) : s.Keeps (execErrlog f s) :=
  State.keeps_issue fun _ h => by
    dsimp only
    grind [Res.st, State.wf_setMe, State.wf_setMyDie, State.wf_putS]

theorem keeps_execInj (f : RX) (s : State) : s.Keeps (execInj f s) :=
  State.keeps_issue fun _ h => by
    dsimp only
    grind [Res.st, State.wf_setCore, State.wf_poisonLine, State.wf_laneFault]

theorem keeps_execMigr (f : RRR) (s : State) : s.Keeps (execMigr f s) :=
  State.keeps_issue fun _ h => by
    dsimp only
    grind [Res.st, State.wf_pwrite8, State.wf_arriveS, State.wf_block, State.wf_forget, State.wf_movePage]

theorem keeps_execPreempt (s : State) : s.Keeps (execPreempt s) := by
  unfold execPreempt State.Keeps
  grind (splits := 40) [State.wf_setCore, State.wf_deliver]

theorem keeps_execCheckerCompare (s : State) : s.Keeps (execCheckerCompare s) := by
  unfold execCheckerCompare State.Keeps
  grind (splits := 40) [State.wf_setCore, State.wf_compare, State.wf_endJob, State.wf_restartNode]

theorem keeps_execVbusLaneFault (s : State) : s.Keeps (execVbusLaneFault s) := by
  unfold execVbusLaneFault State.Keeps
  grind (splits := 40) [State.wf_laneFault]

theorem keeps_execUncorrectableError (s : State) : s.Keeps (execUncorrectableError s) := by
  unfold execUncorrectableError State.Keeps
  grind (splits := 40) [State.wf_setCore, State.wf_cellUpset, State.wf_poisonLine]

theorem keeps_execHostErrorOnStore (s : State) : s.Keeps (execHostErrorOnStore s) := by
  unfold execHostErrorOnStore State.Keeps
  grind (splits := 40) [State.wf_drainHost]

theorem keeps_execSupervisorDebugStop (s : State) : s.Keeps (execSupervisorDebugStop s) := by
  unfold execSupervisorDebugStop
  dsimp only
  split
  · exact State.keeps_next fun h => State.wf_arrayTrap (State.wf_drawn h) ..
  · exact State.keeps_fault _ _

theorem keeps_execHostTailWrite (s : State) : s.Keeps (execHostTailWrite s) := State.keeps_atDie _

theorem keeps_execQueueDescriptorWrite (s : State) : s.Keeps (execQueueDescriptorWrite s) := by
  unfold execQueueDescriptorWrite
  split
  · exact State.keeps_atDie _
  · exact State.keeps_onDie fun _ h => h

theorem keeps_execQueueDisableWrite (s : State) : s.Keeps (execQueueDisableWrite s) := State.keeps_atDie _

theorem keeps_execHostirqClear (s : State) : s.Keeps (execHostirqClear s) := State.keeps_atDie _

theorem keeps_execLayerpwrWrite (s : State) : s.Keeps (execLayerpwrWrite s) := State.keeps_atDie _

theorem keeps_execPeerdataWrite (s : State) : s.Keeps (execPeerdataWrite s) := State.keeps_atDie _

theorem keeps_execNctrWrite (s : State) : s.Keeps (execNctrWrite s) := State.keeps_atDie _

theorem keeps_execWindowWrite (s : State) : s.Keeps (execWindowWrite s) := by
  unfold execWindowWrite
  split
  · exact State.keeps_atDie _
  · exact State.keeps_onDie fun _ h => h

theorem keeps_execHostCoherentAccess (s : State) : s.Keeps (execHostCoherentAccess s) := by
  unfold execHostCoherentAccess
  split
  · exact State.keeps_onDie fun _ h => State.wf_hostWindow h _
  · exact State.keeps_next State.wf_hostAccess

theorem keeps_execLayer1PowerOff (s : State) : s.Keeps (execLayer1PowerOff s) :=
  State.keeps_onDie fun _ h => by
    dsimp only
    grind [State.wf_setDie, State.wf_zeroRange, State.wf_moveAll]

theorem keeps_execLayer1PowerOn (s : State) : s.Keeps (execLayer1PowerOn s) :=
  State.keeps_onDie fun _ h => by
    dsimp only
    grind [State.wf_setDie, State.wf_zeroRange]

theorem keeps_execPowerOn (s : State) : s.Keeps (execPowerOn s) :=
  State.keeps_onDie fun _ h => by
    dsimp only
    grind [State.wf_setDie]

theorem keeps_execFirmwareImageDelivery (s : State) : s.Keeps (execFirmwareImageDelivery s) :=
  State.keeps_onDie fun _ h => by
    dsimp only
    grind [State.wf_setDie]

theorem keeps_execConfigurationImageDelivery (s : State) : s.Keeps (execConfigurationImageDelivery s) :=
  State.keeps_onDie fun _ h => by
    dsimp only
    grind [State.wf_setDie, State.wf_zeroRange, State.wf_clearClusters]

theorem keeps_execSummerTransition (s : State) : s.Keeps (execSummerTransition s) :=
  State.keeps_onDie fun _ h => by
    dsimp only
    grind [State.wf_setDie, State.wf_zeroRange, State.wf_clearClusters]

theorem keeps_execPowerRemoval (s : State) : s.Keeps (execPowerRemoval s) := State.keeps_next fun _ => rfl

theorem keeps_execDieReset (s : State) : s.Keeps (execDieReset s) :=
  State.keeps_onDie fun _ h => by
    dsimp only
    grind [State.wf_setDie, State.wf_toWinter]

theorem keeps_execReturnToWinterThroughFault (s : State) : s.Keeps (execReturnToWinterThroughFault s) :=
  State.keeps_onDie fun _ h => State.wf_toWinter h ..

theorem keeps_execAttestationRequest (s : State) : s.Keeps (execAttestationRequest s) :=
  State.keeps_onDie fun _ h => by
    dsimp only
    grind [State.wf_answer]

theorem keeps_execHazelTranslation (s : State) : s.Keeps (execHazelTranslation s) :=
  State.keeps_onDie fun _ h => by
    dsimp only
    grind [State.wf_answer, State.wf_hazelOutput, State.wf_hazelAssign, State.wf_loadObject]

theorem keeps_execAdd (f : RRR) (s : State) : s.Keeps (execAdd f s) :=
  State.keeps_issue fun _ h => State.wf_putS h ..

theorem keeps_execSub (f : RRR) (s : State) : s.Keeps (execSub f s) :=
  State.keeps_issue fun _ h => State.wf_putS h ..

theorem keeps_execAnd (f : RRR) (s : State) : s.Keeps (execAnd f s) :=
  State.keeps_issue fun _ h => State.wf_putS h ..

theorem keeps_execOr (f : RRR) (s : State) : s.Keeps (execOr f s) :=
  State.keeps_issue fun _ h => State.wf_putS h ..

theorem keeps_execXor (f : RRR) (s : State) : s.Keeps (execXor f s) :=
  State.keeps_issue fun _ h => State.wf_putS h ..

theorem keeps_execAndn (f : RRR) (s : State) : s.Keeps (execAndn f s) :=
  State.keeps_issue fun _ h => State.wf_putS h ..

theorem keeps_execShl (f : RRR) (s : State) : s.Keeps (execShl f s) :=
  State.keeps_issue fun _ h => State.wf_putS h ..

theorem keeps_execShr (f : RRR) (s : State) : s.Keeps (execShr f s) :=
  State.keeps_issue fun _ h => State.wf_putS h ..

theorem keeps_execSra (f : RRR) (s : State) : s.Keeps (execSra f s) :=
  State.keeps_issue fun _ h => State.wf_putS h ..

theorem keeps_execRotr (f : RRR) (s : State) : s.Keeps (execRotr f s) :=
  State.keeps_issue fun _ h => State.wf_putS h ..

theorem keeps_execMin (f : RRR) (s : State) : s.Keeps (execMin f s) :=
  State.keeps_issue fun _ h => State.wf_putS h ..

theorem keeps_execMax (f : RRR) (s : State) : s.Keeps (execMax f s) :=
  State.keeps_issue fun _ h => State.wf_putS h ..

theorem keeps_execMinu (f : RRR) (s : State) : s.Keeps (execMinu f s) :=
  State.keeps_issue fun _ h => State.wf_putS h ..

theorem keeps_execMaxu (f : RRR) (s : State) : s.Keeps (execMaxu f s) :=
  State.keeps_issue fun _ h => State.wf_putS h ..

theorem keeps_execClz (f : RRR) (s : State) : s.Keeps (execClz f s) :=
  State.keeps_issue fun _ h => State.wf_putS h ..

theorem keeps_execPopc (f : RRR) (s : State) : s.Keeps (execPopc f s) :=
  State.keeps_issue fun _ h => State.wf_putS h ..

theorem keeps_execMul (f : RRR) (s : State) : s.Keeps (execMul f s) :=
  State.keeps_issue fun _ h => State.wf_putS h ..

theorem keeps_execMulh (f : RRR) (s : State) : s.Keeps (execMulh f s) :=
  State.keeps_issue fun _ h => State.wf_putS h ..

theorem keeps_execMulhu (f : RRR) (s : State) : s.Keeps (execMulhu f s) :=
  State.keeps_issue fun _ h => State.wf_putS h ..

theorem keeps_execDiv (f : RRR) (s : State) : s.Keeps (execDiv f s) :=
  State.keeps_issue fun _ h => State.wf_putS h ..

theorem keeps_execDivu (f : RRR) (s : State) : s.Keeps (execDivu f s) :=
  State.keeps_issue fun _ h => State.wf_putS h ..

theorem keeps_execRem (f : RRR) (s : State) : s.Keeps (execRem f s) :=
  State.keeps_issue fun _ h => State.wf_putS h ..

theorem keeps_execRemu (f : RRR) (s : State) : s.Keeps (execRemu f s) :=
  State.keeps_issue fun _ h => State.wf_putS h ..

theorem keeps_execSel (f : RRR) (s : State) : s.Keeps (execSel f s) :=
  State.keeps_always fun _ h => State.wf_putS h ..

theorem keeps_execAddi (f : RI) (s : State) : s.Keeps (execAddi f s) :=
  State.keeps_issue fun _ h => State.wf_putS h ..

theorem keeps_execAndi (f : RI) (s : State) : s.Keeps (execAndi f s) :=
  State.keeps_issue fun _ h => State.wf_putS h ..

theorem keeps_execOri (f : RI) (s : State) : s.Keeps (execOri f s) :=
  State.keeps_issue fun _ h => State.wf_putS h ..

theorem keeps_execShli (f : RI) (s : State) : s.Keeps (execShli f s) :=
  State.keeps_issue fun _ h => State.wf_putS h ..

theorem keeps_execLi (f : RX) (s : State) : s.Keeps (execLi f s) :=
  State.keeps_issue fun _ h => State.wf_putS h ..

theorem keeps_execLih (f : RX) (s : State) : s.Keeps (execLih f s) :=
  State.keeps_issue fun _ h => State.wf_putS h ..

theorem keeps_execLea (f : RX) (s : State) : s.Keeps (execLea f s) :=
  State.keeps_issue fun _ h => State.wf_putS h ..

theorem keeps_execMov (f : RRR) (s : State) : s.Keeps (execMov f s) :=
  State.keeps_issue fun _ h => State.wf_putS h ..

theorem keeps_execCmpeq (f : RRR) (s : State) : s.Keeps (execCmpeq f s) :=
  State.keeps_issue fun _ h => State.wf_putCompare h ..

theorem keeps_execCmpne (f : RRR) (s : State) : s.Keeps (execCmpne f s) :=
  State.keeps_issue fun _ h => State.wf_putCompare h ..

theorem keeps_execCmplt (f : RRR) (s : State) : s.Keeps (execCmplt f s) :=
  State.keeps_issue fun _ h => State.wf_putCompare h ..

theorem keeps_execCmpltu (f : RRR) (s : State) : s.Keeps (execCmpltu f s) :=
  State.keeps_issue fun _ h => State.wf_putCompare h ..

theorem keeps_execCmpge (f : RRR) (s : State) : s.Keeps (execCmpge f s) :=
  State.keeps_issue fun _ h => State.wf_putCompare h ..

theorem keeps_execCmpgeu (f : RRR) (s : State) : s.Keeps (execCmpgeu f s) :=
  State.keeps_issue fun _ h => State.wf_putCompare h ..

theorem keeps_execCmpeqi (f : RI) (s : State) : s.Keeps (execCmpeqi f s) :=
  State.keeps_issue fun _ h => State.wf_putCompare h ..

theorem keeps_execCmplti (f : RI) (s : State) : s.Keeps (execCmplti f s) :=
  State.keeps_issue fun _ h => State.wf_putCompare h ..

theorem keeps_execPlogAnd (f : PL) (s : State) : s.Keeps (execPlogAnd f s) :=
  State.keeps_issue fun _ h => State.wf_putP h ..

theorem keeps_execPlogOr (f : PL) (s : State) : s.Keeps (execPlogOr f s) :=
  State.keeps_issue fun _ h => State.wf_putP h ..

theorem keeps_execPlogXor (f : PL) (s : State) : s.Keeps (execPlogXor f s) :=
  State.keeps_issue fun _ h => State.wf_putP h ..

theorem keeps_execPlogAndn (f : PL) (s : State) : s.Keeps (execPlogAndn f s) :=
  State.keeps_issue fun _ h => State.wf_putP h ..

theorem keeps_execPlogOrn (f : PL) (s : State) : s.Keeps (execPlogOrn f s) :=
  State.keeps_issue fun _ h => State.wf_putP h ..

theorem keeps_execPlogNot (f : PL) (s : State) : s.Keeps (execPlogNot f s) :=
  State.keeps_issue fun _ h => State.wf_putP h ..

theorem keeps_execPlogMov (f : PL) (s : State) : s.Keeps (execPlogMov f s) :=
  State.keeps_issue fun _ h => State.wf_putP h ..

theorem keeps_execPlogClr (f : PL) (s : State) : s.Keeps (execPlogClr f s) :=
  State.keeps_issue fun _ h => State.wf_putP h ..

theorem keeps_execPget (f : P3) (s : State) : s.Keeps (execPget f s) :=
  State.keeps_issue fun _ h => State.wf_putS h ..

theorem keeps_execPput (f : P3) (s : State) : s.Keeps (execPput f s) :=
  State.keeps_issue fun _ h => State.wf_putP h ..

theorem keeps_execPcnt (f : P3) (s : State) : s.Keeps (execPcnt f s) :=
  State.keeps_issue fun _ h => State.wf_putS h ..

theorem keeps_execPfirst (f : P3) (s : State) : s.Keeps (execPfirst f s) :=
  State.keeps_issue fun _ h => State.wf_putS h ..

theorem keeps_execMov16 (a : BitVec 5) (d : BitVec 5) (s : State) : s.Keeps (execMov16 a d s) :=
  State.keeps_always fun _ h => State.wf_putS h ..

theorem keeps_execAdd16 (a : BitVec 5) (d : BitVec 5) (s : State) : s.Keeps (execAdd16 a d s) :=
  State.keeps_always fun _ h => State.wf_putS h ..

theorem keeps_execAddi16 (imm : BitVec 6) (d : BitVec 5) (s : State) : s.Keeps (execAddi16 imm d s) :=
  State.keeps_always fun _ h => State.wf_putS h ..

/-- Every instruction keeps memory canonical: its own lemma says so. -/
theorem keeps_exec (i : Instr) (s : State) : s.Keeps (exec i s) :=
  match i with
  | .fqry f => keeps_execFqry f s
  | .br f => keeps_execBr f s
  | .bri f => keeps_execBri f s
  | .call f => keeps_execCall f s
  | .ret f => keeps_execRet f s
  | .mcall f => keeps_execMcall f s
  | .mdef f => keeps_execMdef f s
  | .nest f => keeps_execNest f s
  | .wlimset f => keeps_execWlimset f s
  | .mov16 a d => keeps_execMov16 a d s
  | .add16 a d => keeps_execAdd16 a d s
  | .addi16 imm d => keeps_execAddi16 imm d s
  | .br16 imm => keeps_execBr16 imm s
  | .tok16Push k => keeps_execTok16Push k s
  | .tok16Wait k => keeps_execTok16Wait k s
  | .cont f => keeps_execCont f s
  | .prio f => keeps_execPrio f s
  | .domain f => keeps_execDomain f s
  | .joini f => keeps_execJoini f s
  | .self f => keeps_execSelf f s
  | .trcrec f => keeps_execTrcrec f s
  | .trcrpl f => keeps_execTrcrpl f s
  | .trcstat f => keeps_execTrcstat f s
  | .add f => keeps_execAdd f s
  | .sub f => keeps_execSub f s
  | .and f => keeps_execAnd f s
  | .or f => keeps_execOr f s
  | .xor f => keeps_execXor f s
  | .andn f => keeps_execAndn f s
  | .shl f => keeps_execShl f s
  | .shr f => keeps_execShr f s
  | .sra f => keeps_execSra f s
  | .rotr f => keeps_execRotr f s
  | .min f => keeps_execMin f s
  | .max f => keeps_execMax f s
  | .minu f => keeps_execMinu f s
  | .maxu f => keeps_execMaxu f s
  | .clz f => keeps_execClz f s
  | .popc f => keeps_execPopc f s
  | .mul f => keeps_execMul f s
  | .mulh f => keeps_execMulh f s
  | .mulhu f => keeps_execMulhu f s
  | .div f => keeps_execDiv f s
  | .divu f => keeps_execDivu f s
  | .rem f => keeps_execRem f s
  | .remu f => keeps_execRemu f s
  | .sel f => keeps_execSel f s
  | .addi f => keeps_execAddi f s
  | .andi f => keeps_execAndi f s
  | .ori f => keeps_execOri f s
  | .shli f => keeps_execShli f s
  | .li f => keeps_execLi f s
  | .lih f => keeps_execLih f s
  | .mov f => keeps_execMov f s
  | .lea f => keeps_execLea f s
  | .cmpeq f => keeps_execCmpeq f s
  | .cmpne f => keeps_execCmpne f s
  | .cmplt f => keeps_execCmplt f s
  | .cmpltu f => keeps_execCmpltu f s
  | .cmpge f => keeps_execCmpge f s
  | .cmpgeu f => keeps_execCmpgeu f s
  | .cmpeqi f => keeps_execCmpeqi f s
  | .cmplti f => keeps_execCmplti f s
  | .plogAnd f => keeps_execPlogAnd f s
  | .plogOr f => keeps_execPlogOr f s
  | .plogXor f => keeps_execPlogXor f s
  | .plogAndn f => keeps_execPlogAndn f s
  | .plogOrn f => keeps_execPlogOrn f s
  | .plogNot f => keeps_execPlogNot f s
  | .plogMov f => keeps_execPlogMov f s
  | .plogClr f => keeps_execPlogClr f s
  | .pget f => keeps_execPget f s
  | .pput f => keeps_execPput f s
  | .pcnt f => keeps_execPcnt f s
  | .pfirst f => keeps_execPfirst f s
  | .vadd f => keeps_execVadd f s
  | .vsub f => keeps_execVsub f s
  | .vmul f => keeps_execVmul f s
  | .vfma f => keeps_execVfma f s
  | .vmin f => keeps_execVmin f s
  | .vmax f => keeps_execVmax f s
  | .vabs f => keeps_execVabs f s
  | .vneg f => keeps_execVneg f s
  | .vdiv f => keeps_execVdiv f s
  | .vsqrt f => keeps_execVsqrt f s
  | .vrsq f => keeps_execVrsq f s
  | .vrec f => keeps_execVrec f s
  | .vexp2 f => keeps_execVexp2 f s
  | .vlog2 f => keeps_execVlog2 f s
  | .vand f => keeps_execVand f s
  | .vor f => keeps_execVor f s
  | .vxor f => keeps_execVxor f s
  | .vnot f => keeps_execVnot f s
  | .vshl f => keeps_execVshl f s
  | .vshr f => keeps_execVshr f s
  | .vsra f => keeps_execVsra f s
  | .vclz f => keeps_execVclz f s
  | .vcmpeq f => keeps_execVcmpeq f s
  | .vcmpne f => keeps_execVcmpne f s
  | .vcmplt f => keeps_execVcmplt f s
  | .vcmple f => keeps_execVcmple f s
  | .vcmpun f => keeps_execVcmpun f s
  | .vclass f => keeps_execVclass f s
  | .vsel f => keeps_execVsel f s
  | .vmov f => keeps_execVmov f s
  | .vbcast f => keeps_execVbcast f s
  | .vlane f => keeps_execVlane f s
  | .vext f => keeps_execVext f s
  | .vins f => keeps_execVins f s
  | .vperm f => keeps_execVperm f s
  | .vslide f => keeps_execVslide f s
  | .vred f => keeps_execVred f s
  | .vscan f => keeps_execVscan f s
  | .vdot f => keeps_execVdot f s
  | .vsett f => keeps_execVsett f s
  | .vgetf f => keeps_execVgetf f s
  | .vsetf f => keeps_execVsetf f s
  | .vseed f => keeps_execVseed f s
  | .vcvt f => keeps_execVcvt f s
  | .vpack f => keeps_execVpack f s
  | .vunpk f => keeps_execVunpk f s
  | .vscale f => keeps_execVscale f s
  | .tawin f => keeps_execTawin f s
  | .tamode f => keeps_execTamode f s
  | .tarst f => keeps_execTarst f s
  | .tadly f => keeps_execTadly f s
  | .talnch f => keeps_execTalnch f s
  | .tacap f => keeps_execTacap f s
  | .tastat f => keeps_execTastat f s
  | .tld f => keeps_execTld f s
  | .tst f => keeps_execTst f s
  | .tzero f => keeps_execTzero f s
  | .tmov f => keeps_execTmov f s
  | .tmma f => keeps_execTmma f s
  | .tmmas f => keeps_execTmmas f s
  | .ttrn f => keeps_execTtrn f s
  | .tcvt f => keeps_execTcvt f s
  | .tfmt f => keeps_execTfmt f s
  | .wbankSel f => keeps_execWbankSel f s
  | .wbankClaim f => keeps_execWbankClaim f s
  | .wbankRel f => keeps_execWbankRel f s
  | .wregnDef f => keeps_execWregnDef f s
  | .wregnRem f => keeps_execWregnRem f s
  | .wldw f => keeps_execWldw f s
  | .wstw f => keeps_execWstw f s
  | .wadmit f => keeps_execWadmit f s
  | .wcoll f => keeps_execWcoll f s
  | .wver f => keeps_execWver f s
  | .wopt f => keeps_execWopt f s
  | .wcks f => keeps_execWcks f s
  | .wsave f => keeps_execWsave f s
  | .wrest f => keeps_execWrest f s
  | .ldl f => keeps_execLdl f s
  | .stl f => keeps_execStl f s
  | .ldc f => keeps_execLdc f s
  | .stc f => keeps_execStc f s
  | .mstc f => keeps_execMstc f s
  | .ldg f => keeps_execLdg f s
  | .stg f => keeps_execStg f s
  | .ldgq f => keeps_execLdgq f s
  | .pfg f => keeps_execPfg f s
  | .vgath f => keeps_execVgath f s
  | .vscat f => keeps_execVscat f s
  | .gathq f => keeps_execGathq f s
  | .ldk f => keeps_execLdk f s
  | .ldkq f => keeps_execLdkq f s
  | .ldh f => keeps_execLdh f s
  | .sth f => keeps_execSth f s
  | .hflsh f => keeps_execHflsh f s
  | .hinv f => keeps_execHinv f s
  | .ldp f => keeps_execLdp f s
  | .stp f => keeps_execStp f s
  | .spcfg f => keeps_execSpcfg f s
  | .cinv f => keeps_execCinv f s
  | .cflsh f => keeps_execCflsh f s
  | .clkr f => keeps_execClkr f s
  | .aadd sp f => keeps_execAadd sp f s
  | .afadd sp f => keeps_execAfadd sp f s
  | .amin sp f => keeps_execAmin sp f s
  | .amax sp f => keeps_execAmax sp f s
  | .aand sp f => keeps_execAand sp f s
  | .aor sp f => keeps_execAor sp f s
  | .axor sp f => keeps_execAxor sp f s
  | .axchg sp f => keeps_execAxchg sp f s
  | .acas sp f => keeps_execAcas sp f s
  | .ared sp f => keeps_execAred sp f s
  | .xshdAlloc f => keeps_execXshdAlloc f s
  | .xshdFree f => keeps_execXshdFree f s
  | .xcopy f => keeps_execXcopy f s
  | .xfill f => keeps_execXfill f s
  | .xpub f => keeps_execXpub f s
  | .semw f => keeps_execSemw f s
  | .sems f => keeps_execSems f s
  | .semi f => keeps_execSemi f s
  | .semrd f => keeps_execSemrd f s
  | .bar f => keeps_execBar f s
  | .bara f => keeps_execBara f s
  | .barw f => keeps_execBarw f s
  | .bibset f => keeps_execBibset f s
  | .lock f => keeps_execLock f s
  | .unlock f => keeps_execUnlock f s
  | .trylk f => keeps_execTrylk f s
  | .wreg f => keeps_execWreg f s
  | .wdereg f => keeps_execWdereg f s
  | .whold f => keeps_execWhold f s
  | .wqry f => keeps_execWqry f s
  | .qpush f => keeps_execQpush f s
  | .qpop f => keeps_execQpop f s
  | .qpeek f => keeps_execQpeek f s
  | .qstat f => keeps_execQstat f s
  | .tokp f => keeps_execTokp f s
  | .tokw f => keeps_execTokw f s
  | .xtree f => keeps_execXtree f s
  | .xred f => keeps_execXred f s
  | .xbcast f => keeps_execXbcast f s
  | .xrstat f => keeps_execXrstat f s
  | .lsend f => keeps_execLsend f s
  | .larm f => keeps_execLarm f s
  | .larmDis f => keeps_execLarmDis f s
  | .lrecv f => keeps_execLrecv f s
  | .lctrRd f => keeps_execLctrRd f s
  | .lctrWait f => keeps_execLctrWait f s
  | .lctrSet f => keeps_execLctrSet f s
  | .lctrAdd f => keeps_execLctrAdd f s
  | .lstep f => keeps_execLstep f s
  | .lstat f => keeps_execLstat f s
  | .trap f => keeps_execTrap f s
  | .seth f => keeps_execSeth f s
  | .csrr f => keeps_execCsrr f s
  | .csrw f => keeps_execCsrw f s
  | .csrwDmr f => keeps_execCsrwDmr f s
  | .csrwBib f => keeps_execCsrwBib f s
  | .csrwBdepth f => keeps_execCsrwBdepth f s
  | .csrwBprio f => keeps_execCsrwBprio f s
  | .aset f => keeps_execAset f s
  | .tlbi f => keeps_execTlbi f s
  | .ctxsv f => keeps_execCtxsv f s
  | .ctxrs f => keeps_execCtxrs f s
  | .prq f => keeps_execPrq f s
  | .wftsp f => keeps_execWftsp f s
  | .errlog f => keeps_execErrlog f s
  | .inj f => keeps_execInj f s
  | .migr f => keeps_execMigr f s
  | .ares f => keeps_execAres f s
  | .nop => keeps_execNop s
  | .waite => keeps_execWaite s
  | .nop16 => keeps_execNop16 s
  | .inc => keeps_execInc s
  | .rdv => keeps_execRdv s
  | .node => keeps_execNode s
  | .planeCapture => keeps_execPlaneCapture s
  | .tstart => keeps_execTstart s
  | .tcksOff => keeps_execTcksOff s
  | .tcksOn => keeps_execTcksOn s
  | .wlease => keeps_execWlease s
  | .wrls => keeps_execWrls s
  | .wdrain => keeps_execWdrain s
  | .wdrainDiscard => keeps_execWdrainDiscard s
  | .wavefrontAdmission => keeps_execWavefrontAdmission s
  | .wavefrontCellArrival => keeps_execWavefrontCellArrival s
  | .wavefrontDelivery => keeps_execWavefrontDelivery s
  | .applyCommit => keeps_execApplyCommit s
  | .queueLoadArrival => keeps_execQueueLoadArrival s
  | .writeTakesEffect => keeps_execWriteTakesEffect s
  | .fenceStream => keeps_execFenceStream s
  | .fenceJob => keeps_execFenceJob s
  | .fenceCluster => keeps_execFenceCluster s
  | .fenceDevice => keeps_execFenceDevice s
  | .fenceSystem => keeps_execFenceSystem s
  | .efence => keeps_execEfence s
  | .ksync => keeps_execKsync s
  | .copyCompletion => keeps_execCopyCompletion s
  | .deadlockSweep => keeps_execDeadlockSweep s
  | .waitLimit => keeps_execWaitLimit s
  | .redTimeout => keeps_execRedTimeout s
  | .linkMessageArrival => keeps_execLinkMessageArrival s
  | .peerAccessArrival => keeps_execPeerAccessArrival s
  | .sendAcknowledged => keeps_execSendAcknowledged s
  | .goBackReplay => keeps_execGoBackReplay s
  | .linkDown => keeps_execLinkDown s
  | .postWaitTimeout => keeps_execPostWaitTimeout s
  | .linkTraining => keeps_execLinkTraining s
  | .gscStep => keeps_execGscStep s
  | .gscJoin => keeps_execGscJoin s
  | .tret => keeps_execTret s
  | .udecl => keeps_execUdecl s
  | .checkerCompare => keeps_execCheckerCompare s
  | .vbusLaneFault => keeps_execVbusLaneFault s
  | .preempt => keeps_execPreempt s
  | .distributorSelection => keeps_execDistributorSelection s
  | .replayDiverge => keeps_execReplayDiverge s
  | .dispatch => keeps_execDispatch s
  | .jobRetirement => keeps_execJobRetirement s
  | .hostTailWrite => keeps_execHostTailWrite s
  | .queueDescriptorWrite => keeps_execQueueDescriptorWrite s
  | .queueDisableWrite => keeps_execQueueDisableWrite s
  | .hostirqClear => keeps_execHostirqClear s
  | .layerpwrWrite => keeps_execLayerpwrWrite s
  | .peerdataWrite => keeps_execPeerdataWrite s
  | .nctrWrite => keeps_execNctrWrite s
  | .windowWrite => keeps_execWindowWrite s
  | .hostCoherentAccess => keeps_execHostCoherentAccess s
  | .layer1PowerOff => keeps_execLayer1PowerOff s
  | .layer1PowerOn => keeps_execLayer1PowerOn s
  | .powerOn => keeps_execPowerOn s
  | .firmwareImageDelivery => keeps_execFirmwareImageDelivery s
  | .configurationImageDelivery => keeps_execConfigurationImageDelivery s
  | .summerTransition => keeps_execSummerTransition s
  | .powerRemoval => keeps_execPowerRemoval s
  | .dieReset => keeps_execDieReset s
  | .attestationRequest => keeps_execAttestationRequest s
  | .hazelTranslation => keeps_execHazelTranslation s
  | .uncorrectableError => keeps_execUncorrectableError s
  | .hostErrorOnStore => keeps_execHostErrorOnStore s
  | .supervisorDebugStop => keeps_execSupervisorDebugStop s
  | .returnToWinterThroughFault => keeps_execReturnToWinterThroughFault s

/-- What the next turn is leaves memory canonical, and so does what it runs. -/
theorem keeps_step (s : State) : s.Keeps (step s) := by
  intro t ht h
  have hs := State.wf_todo h
  unfold step at ht
  split at ht
  · next i s1 he =>
    rw [he] at hs
    exact keeps_exec i s1 t ht hs
  · next s1 he =>
    rw [he] at hs
    obtain rfl := Host.Outcome.next.inj ht
    exact hs

/-- Settles O58: what a turn does to memory it does by the operations above, each of which keeps the canonical form. -/
theorem stepKeepsMemoryCanonical : Obligations.StepKeepsMemoryCanonical := by
  intro s s' h hs
  exact keeps_step s s' hs h

end Sys2Proof.Machine
end

section
/-! PROOF. Reset, the decoder on words that the manual writes out, the advance past an instruction and the turn of a stream (R64, R92,
R116): O1, O57, O59, O7 and O4. -/
namespace Sys2Proof.Machine
open Sys2Proof.Decode

/-- Settles O1, word by word. -/
theorem manualWordsDecode : Obligations.ManualWordsDecode :=
  ⟨rfl, rfl, rfl, rfl, rfl, rfl, rfl, rfl, rfl, rfl, rfl, rfl⟩

/-- Settles O59: both memories list nothing. -/
theorem resetMemoryCanonical : Obligations.ResetMemoryCanonical := ⟨rfl, rfl⟩

/-! Reset: a table of equal entries reads as its entry. -/

theorem die_reset (d : Fin 2) : State.reset.die d = Die.reset := by
  simp [State.die, State.reset]

theorem core_reset (c : CoreId) : State.reset.core c = Core.reset := by
  simp [State.core, State.reset]

/-- An entry of a table of equal entries, or the entry beyond its end, is that entry. -/
theorem getD_replicate {α : Type} (n i : Nat) (x : α) : ((Vector.replicate n x).toList[i]?).getD x = x := by
  simp only [Vector.toList_replicate, List.getElem?_replicate]
  split <;> rfl

theorem link_reset (l : Nat) : State.reset.link l = Link.reset := getD_replicate 12 l Link.reset

theorem queue_reset (q : Nat) : Die.reset.queue q = CQueue.reset := getD_replicate 64 q CQueue.reset

theorem strm_reset (i : StreamId) : Core.reset.strm i = Strm.reset := by
  simp [Core.strm, Core.reset]

/-- Settles O57. -/
theorem resetValues : Obligations.ResetValues := by
  refine ⟨fun d => ?_, fun c => ?_, fun l => by rw [link_reset]; rfl, rfl, rfl, fun _ => rfl⟩
  · rw [die_reset]
    exact ⟨rfl, rfl, rfl, rfl, rfl, rfl, rfl, rfl, rfl, fun q => by rw [queue_reset]; rfl⟩
  · rw [core_reset]
    refine ⟨rfl, rfl, rfl, rfl, rfl, rfl, rfl, rfl, rfl, rfl, fun i => ?_⟩
    rw [State.strm, core_reset, strm_reset]
    exact ⟨rfl, rfl, rfl⟩

/-! The turn of a stream. -/

theorem rawDecode_length {hs : List HWord} {w : Code} {n : Nat} (h : rawDecode hs = .ok (w, n)) : n ≤ hs.length := by
  unfold rawDecode at h
  grind

/-- A word that begins with a set bit 0 has two halfwords at least (R26). -/
theorem two_le_of_rawDecode {h : HWord} {t : List HWord} {w : Code} {n : Nat} (hd : rawDecode (h :: t) = .ok (w, n))
    (h0 : h.getLsbD 0 = true) : 2 ≤ n := by
  unfold rawDecode at hd
  grind

/-- What the decoder answers, the raw decoder has answered with the length of the word's encoding. -/
theorem rawDecode_of_decode {hs : List HWord} {w : Code} {rest : List HWord} (h : decode hs = .ok (w, rest)) :
    rawDecode hs = .ok (w, (encode w).length) := by
  rw [decode] at h
  split at h
  · cases h
  · next n hraw =>
    split at h
    · next hok =>
      cases h
      have hz := eq_of_beq (Bool.and_eq_true_iff.mp hok).2
      rw [hraw, hz, List.length_take, Nat.min_eq_left (rawDecode_length hraw)]
    · cases h

/-! The turn of a stream, with no event due and nothing come from outside. -/

section
variable {s : State} {key : Nat}

theorem todo_of_key (ha : s.agenda = []) (ho : s.outside = none) (hk : nextKey s.runnable (816 - s.turn) s.turn = some key) :
    s.todo = s.streamTurn 0 key := by
  simp only [State.todo, ha, ho, State.nextTurn, hk]

theorem step_of_next {s1 : State} (h : s.todo = .next s1) : step s = .next s1 := by
  rw [step, h]

theorem step_of_run {i : Instr} {s1 : State} (h : s.todo = .run i s1) : step s = exec i s1 := by
  rw [step, h]

/-- The context in which a stream takes its turn. -/
def State.atKey (s : State) (key : Nat) : State :=
  { s with turn := key + 1, ctx := ⟨keyCore key, keyStrm key, Head.zero, 0, 0, EvArgs.zero, none⟩ }

theorem streamTurn_idle (hd : (s.core (keyCore key)).dueWrites (keyStrm key) s.clock = []) (hi : (s.strm (keyCore key) (keyStrm key)).idle ≠ 0) :
    s.streamTurn 0 key = .next ((s.atKey key).setStrm (keyCore key) (keyStrm key) ((s.strm (keyCore key) (keyStrm key)).idleSlot s.clock)) := by
  have hd' : ((s.atKey key).core (keyCore key)).dueWrites (keyStrm key) s.clock = [] := hd
  have hi' : ((s.atKey key).strm (keyCore key) (keyStrm key)).idle != 0 := bne_iff_ne.2 hi
  simp only [State.streamTurn, Nat.zero_add]
  rw [← State.atKey, hd', if_neg (by decide), if_pos hi']
  rfl

theorem streamTurn_code {b : Block} {w : Code} {n : Nat} {x : Int} (hd : (s.core (keyCore key)).dueWrites (keyStrm key) s.clock = [])
    (hi : (s.strm (keyCore key) (keyStrm key)).idle = 0) (hb : (s.strm (keyCore key) (keyStrm key)).blk = some b)
    (hm : (s.strm (keyCore key) (keyStrm key)).mac = none)
    (hoff : ((s.strm (keyCore key) (keyStrm key)).pc.toNat - b.hdr.toNat - 4) / 2 < b.len)
    (hf : (s.atKey key).fetchNext (keyCore key) (keyStrm key) b (((s.strm (keyCore key) (keyStrm key)).pc.toNat - b.hdr.toNat - 4) / 2) =
      (s.atKey key, .code w n x false))
    (hl : s.interlocked (keyCore key) (keyStrm key) w.instr = false) (hk : w.instr.headKind ≠ .inc) :
    s.streamTurn 0 key = .run w.instr ({ s.atKey key with ctx := ⟨keyCore key, keyStrm key, w.head, n, x, EvArgs.zero, none⟩ }.setStrm
      (keyCore key) (keyStrm key) { s.strm (keyCore key) (keyStrm key) with armed := none }) := by
  have hd' : ((s.atKey key).core (keyCore key)).dueWrites (keyStrm key) s.clock = [] := hd
  have hi' : (((s.atKey key).strm (keyCore key) (keyStrm key)).idle != 0) = false := bne_eq_false_iff_eq.2 hi
  have hb' : ((s.atKey key).strm (keyCore key) (keyStrm key)).blk = some b := hb
  have hm' : ((s.atKey key).strm (keyCore key) (keyStrm key)).mac = none := hm
  have hoff' : ¬ b.len ≤ (((s.atKey key).strm (keyCore key) (keyStrm key)).pc.toNat - b.hdr.toNat - 4) / 2 := Nat.not_le.2 hoff
  have hk' : (w.instr.headKind == .inc) = false := beq_eq_false_iff_ne.2 hk
  have hf' : (s.atKey key).fetchNext (keyCore key) (keyStrm key) b
      ((((s.atKey key).strm (keyCore key) (keyStrm key)).pc.toNat - b.hdr.toNat - 4) / 2) = (s.atKey key, .code w n x false) := hf
  simp only [State.streamTurn, Nat.zero_add]
  rw [← State.atKey]
  simp only [hd', hi', hb', hm', hoff', hf', hl, hk', List.isEmpty_nil, Bool.not_true, Bool.false_eq_true, if_false,
    Option.isNone_none, Option.isSome_none, Bool.true_and, decide_false]
  rw [← hb', ← hm']
  rfl

end

/-- The instruction at the program counter of a stream in a repeated block. -/
theorem fetchNext_of_decode {s : State} {c : CoreId} {i : StreamId} {b : Block} {hs rest : List HWord} {off : Nat} {w : Code}
    (hm : (s.strm c i).mac = none) (hb : b.buf = some hs) (hlm : b.lm = false) (hd : decode (hs.drop off) = .ok (w, rest))
    (hr : (encode w).length ≤ b.len - off)
    (hf : decodeFault s i false ((s.core c).handler.isSome && i == .cs) (hs.drop off) w (encode w).length = none)
    (hk : w.instr.headKind ≠ .inc) (hn : incBehind (hs.drop off) (encode w).length = none) :
    s.fetchNext c i b off = (s, .code w (encode w).length 0 false) := by
  have hraw := rawDecode_of_decode hd
  simp only [State.fetchNext, hm, hb]
  cases hh : hs.drop off with
  | nil => rw [hh] at hraw; cases hraw
  | cons h t =>
    rw [hh] at hraw hf hn
    have h2 : (h.getLsbD 0 && decide (b.len - off < 2)) = false := by
      cases h0 : h.getLsbD 0 with
      | false => rfl
      | true => simpa only [Bool.true_and, decide_eq_false_iff_not, Nat.not_lt] using Nat.le_trans (two_le_of_rawDecode hraw h0) hr
    simp only [decodeAt, h2, Bool.false_eq_true, if_false, hraw, hlm, hf, beq_eq_false_iff_ne.2 hk, hn]

/-- Settles O4: the turn of the stream fetches the instruction and runs it. -/
theorem stepRunsDecoded : Obligations.StepRunsDecoded := by
  intro s key b hs w rest c i t off s0 ha ho hk hidle hdue hmac hblk hbuf hlm hoff hdec hlen hf hinc hbehind hint
  have hn := fetchNext_of_decode (s := s.atKey key) hmac hbuf hlm hdec hlen hf hinc hbehind
  exact step_of_run ((todo_of_key ha ho hk).trans (streamTurn_code hdue hidle hblk hmac hoff hn hint hinc))

theorem retireAdvances_rule : RetireAdvancesRule := by
  intro s
  refine ⟨fun hm => ?_, fun m hm hi => ?_, fun m hm hi => ?_⟩
  · simp only [State.retire, Strm.advance, hm]
  · simp only [State.retire, Strm.advance, hm, hi, if_true]
  · simp only [State.retire, Strm.advance, hm, Nat.not_lt.2 hi, if_false]

theorem idleSlotPasses_rule : IdleSlotPassesRule := by
  intro s key ha ho hk c i t hd hi
  exact step_of_next ((todo_of_key ha ho hk).trans (streamTurn_idle hd hi))

/-- Settles O7: the advance by its three cases (outside the operations of an MCALL, among them, at the last of them), the idle slot by the turn of the stream. -/
theorem retireAdvances : Obligations.RetireAdvances := ⟨retireAdvances_rule, idleSlotPasses_rule⟩

end Sys2Proof.Machine
end

section
/-! PROOF. What every instruction answers (R34, R414): a next state, and under a false guard only its slots. The instructions go by the form of
their meaning: an issued one, one without a guard, an engine's command, a memory instruction. O5 and O6. -/
namespace Sys2Proof.Machine

/-! The forms of a meaning. -/

theorem State.startTimer_ctx (s : State) : s.startTimer.ctx = s.ctx := by
  unfold State.startTimer
  split
  · rfl
  · split <;> rfl

theorem State.startTimer_of_issue {s : State} (hf : s.ctx.ev.flag = false) : s.startTimer = s := by
  simp only [State.startTimer, hf, Bool.not_false, if_true]

section
variable (s : State)

theorem State.atomic_next (sp : BitVec 2) (f : M) (op : Nat → Nat → Nat → Nat → Option Nat) : ∃ t, s.atomic sp f op = .next t :=
  State.issue_next s _
theorem State.linkOwn_next (body : State → Res) : ∃ t, s.linkOwn body = .next t := State.issue_next s _
theorem State.counterWrite_next (f : E) (new : Nat → Nat → Nat) : ∃ t, s.counterWrite f new = .next t := State.linkOwn_next s _
theorem State.fence_next (scope : Nat) : ∃ t, s.fence scope = .next t := State.issue_next s _
theorem State.vector_next (types : Nat → Bool) (body : State → Res) : ∃ t, s.vector types body = .next t := State.always_next s _
theorem State.elementwise_next (types : Nat → Bool) (lat : Nat) (f : RRR) (rounds : Bool)
    (op : Nat → RMode → Nat → Nat → Nat → Nat × Flags) : ∃ t, s.elementwise types lat f rounds op = .next t := State.vector_next s _ _
theorem State.divided_next (f : RRR) (op : Nat → RMode → Nat → Nat → Nat → Nat × Flags) : ∃ t, s.divided f op = .next t :=
  State.vector_next s _ _
theorem State.pattern_next (f : RRR) (op : Nat → Nat → Nat → Nat) : ∃ t, s.pattern f op = .next t := State.elementwise_next s _ _ _ _ _
theorem State.vcompare_next (types : Nat → Bool) (k : Cmp) (f : RRR) : ∃ t, s.vcompare types k f = .next t := State.vector_next s _ _

theorem State.issueM_next (f : M) (body : State → Res) : ∃ t, s.issueM f body = .next t := by
  unfold State.issueM
  split
  · exact State.always_next _ _
  · exact State.issue_next _ _

end

theorem State.command_next_of_flag {s : State} (h : s.ctx.ev.flag = true → s.ctx.ev.unit < 136) (e : Eng) (i : Instr) (f : E)
    (more : State → List Word) (body : State → Cmd → CmdRes) : ∃ t, s.command e i f more body = .next t := by
  cases hf : s.ctx.ev.flag with
  | true => exact State.command_next s (h hf) e i f more body
  | false =>
    simp only [State.command, hf, Bool.false_eq_true, if_false]
    exact State.issue_next _ _

theorem State.tileCmd_next_of_flag {s : State} (h : s.ctx.ev.flag = true → s.ctx.ev.unit < 136) (i : Instr) (f : E)
    (more : State → List Word) (reads : State → List Nat) (body : State → Cmd → TileRes) : ∃ t, s.tileCmd i f more reads body = .next t :=
  State.command_next_of_flag h _ _ _ _ _

theorem State.linkCmd_next_of_flag {s : State} (h : s.ctx.ev.flag = true → s.ctx.ev.unit < 136) (i : Instr) (f : E)
    (more : State → List Word) (body : State → Cmd → CmdRes) : ∃ t, s.linkCmd i f more body = .next t :=
  State.command_next_of_flag h _ _ _ _ _

theorem State.collCmd_next {s : State} (h : s.ctx.ev.flag = true → s.ctx.ev.unit < 136) (i : Instr) (f : E)
    (body : State → Cmd → CmdRes) : ∃ t, s.collCmd i f body = .next t :=
  State.command_next_of_flag (by rwa [State.startTimer_ctx]) ..

theorem execInc_next (s : State) : ∃ t, execInc s = .next t := by
  unfold execInc
  split
  · exact ⟨_, rfl⟩
  · exact Res.finish_next _ _

theorem execAred_next (sp : BitVec 2) (f : M) (s : State) : ∃ t, execAred sp f s = .next t := by
  unfold execAred
  split
  · exact State.issue_next _ _
  · exact State.issueM_next _ _ _

theorem exec_next (i : Instr) (s : State) (he : eventOnly i = false) (h : s.ctx.ev.flag = true → s.ctx.ev.unit < 136) :
    ∃ t, exec i s = .next t :=
  match i with
  | .fqry _ | .br _ | .bri _ | .call _ | .ret _ | .mcall _ | .mdef _ | .nest _ | .wlimset _ | .cont _ | .prio _ | .domain _ | .joini _
  | .self _ | .trcrec _ | .trcrpl _ | .trcstat _ | .add _ | .sub _ | .and _ | .or _ | .xor _ | .andn _ | .shl _ | .shr _ | .sra _
  | .rotr _ | .min _ | .max _ | .minu _ | .maxu _ | .clz _ | .popc _ | .mul _ | .mulh _ | .mulhu _ | .div _ | .divu _ | .rem _ | .remu _
  | .addi _ | .andi _ | .ori _ | .shli _ | .li _ | .lih _ | .mov _ | .lea _ | .cmpeq _ | .cmpne _ | .cmplt _ | .cmpltu _ | .cmpge _
  | .cmpgeu _ | .cmpeqi _ | .cmplti _ | .plogAnd _ | .plogOr _ | .plogXor _ | .plogAndn _ | .plogOrn _ | .plogNot _ | .plogMov _
  | .plogClr _ | .pget _ | .pput _ | .pcnt _ | .pfirst _ | .vext _ | .vsett _ | .vgetf _ | .vsetf _ | .vseed _ | .vpack _ | .vunpk _
  | .tawin _ | .tamode _ | .tarst _ | .tadly _ | .talnch _ | .tacap _ | .tastat _ | .ldgq _ | .pfg _ | .gathq _ | .ldkq _ | .hflsh _
  | .hinv _ | .spcfg _ | .cinv _ | .cflsh _ | .clkr _ | .xshdAlloc _ | .xshdFree _ | .semw _ | .sems _ | .semi _ | .semrd _ | .bar _
  | .bara _ | .barw _ | .bibset _ | .lock _ | .unlock _ | .trylk _ | .wreg _ | .wdereg _ | .whold _ | .wqry _ | .qpush _ | .qpop _
  | .qpeek _ | .qstat _ | .tokp _ | .tokw _ | .xrstat _ | .trap _ | .seth _ | .csrr _ | .csrw _ | .csrwDmr _ | .csrwBib _
  | .csrwBdepth _ | .csrwBprio _ | .aset _ | .tlbi _ | .ctxsv _ | .ctxrs _ | .prq _ | .wftsp _ | .errlog _ | .inj _ | .migr _ | .ares _
  | .nop | .waite | .rdv | .node | .efence | .ksync | .tret | .udecl => by
    dsimp only [exec]
    exact State.issue_next s _
  | .aadd _ _ | .afadd _ _ | .amin _ _ | .amax _ _ | .aand _ _ | .aor _ _ | .axor _ _ | .axchg _ _ | .acas _ _ => by
    dsimp only [exec]
    exact State.atomic_next s _ _ _
  | .lctrRd _ | .lctrWait _ | .lstep _ | .lstat _ => by
    dsimp only [exec]
    exact State.linkOwn_next s _
  | .lctrSet _ | .lctrAdd _ => by
    dsimp only [exec]
    exact State.counterWrite_next s _ _
  | .fenceStream | .fenceJob | .fenceCluster | .fenceDevice | .fenceSystem => by
    dsimp only [exec]
    exact State.fence_next s _
  | .mov16 _ _ | .add16 _ _ | .addi16 _ _ | .br16 _ | .tok16Push _ | .tok16Wait _ | .sel _ | .vsel _ | .vcvt _ | .vgath _ | .vscat _
  | .nop16 => by
    dsimp only [exec]
    exact State.always_next s _
  | .vfma _ | .vbcast _ | .vlane _ | .vins _ | .vperm _ | .vslide _ | .vred _ | .vscan _ | .vdot _ => by
    dsimp only [exec]
    exact State.vector_next s _ _
  | .vadd _ | .vsub _ | .vmul _ | .vmin _ | .vmax _ | .vabs _ | .vneg _ | .vexp2 _ | .vlog2 _ | .vclass _ | .vscale _ => by
    dsimp only [exec]
    exact State.elementwise_next s _ _ _ _ _
  | .vdiv _ | .vsqrt _ | .vrsq _ | .vrec _ => by
    dsimp only [exec]
    exact State.divided_next s _ _
  | .vand _ | .vor _ | .vxor _ | .vnot _ | .vshl _ | .vshr _ | .vsra _ | .vclz _ | .vmov _ => by
    dsimp only [exec]
    exact State.pattern_next s _ _
  | .vcmpeq _ | .vcmpne _ | .vcmplt _ | .vcmple _ | .vcmpun _ => by
    dsimp only [exec]
    exact State.vcompare_next s _ _ _
  | .ldl _ | .stl _ | .ldc _ | .stc _ | .mstc _ | .ldg _ | .stg _ | .ldk _ | .ldh _ | .sth _ | .ldp _ | .stp _ => by
    dsimp only [exec]
    exact State.issueM_next s _ _
  | .wbankSel _ | .wbankClaim _ | .wbankRel _ | .wregnDef _ | .wregnRem _ | .wldw _ | .wstw _ | .wadmit _ | .wcoll _ | .wver _ | .wopt _
  | .wcks _ | .wsave _ | .wrest _ | .xcopy _ | .xfill _ | .xpub _ | .tstart | .wlease | .wrls | .wdrain | .wdrainDiscard => by
    dsimp only [exec]
    exact State.command_next_of_flag h ..
  | .tld _ | .tst _ | .tzero _ | .tmma _ | .tmmas _ | .tcvt _ | .tfmt _ | .tcksOff | .tcksOn | .tmov _ | .ttrn _ => by
    dsimp only [exec]
    exact State.tileCmd_next_of_flag h ..
  | .lsend _ | .larm _ | .larmDis _ | .lrecv _ => by
    dsimp only [exec]
    exact State.linkCmd_next_of_flag h ..
  | .xtree _ | .xred _ | .xbcast _ => by
    dsimp only [exec]
    exact State.collCmd_next h ..
  | .ared sp f => execAred_next sp f s
  | .inc => execInc_next s
  | .planeCapture | .wavefrontAdmission | .wavefrontCellArrival | .wavefrontDelivery | .applyCommit | .queueLoadArrival
  | .writeTakesEffect | .copyCompletion | .deadlockSweep | .waitLimit | .redTimeout | .linkMessageArrival | .peerAccessArrival
  | .sendAcknowledged | .goBackReplay | .linkDown | .postWaitTimeout | .linkTraining | .gscStep | .gscJoin | .checkerCompare
  | .vbusLaneFault | .preempt | .distributorSelection | .replayDiverge | .dispatch | .jobRetirement | .hostTailWrite
  | .queueDescriptorWrite | .queueDisableWrite | .hostirqClear | .layerpwrWrite | .peerdataWrite | .nctrWrite | .windowWrite
  | .hostCoherentAccess | .layer1PowerOff | .layer1PowerOn | .powerOn | .firmwareImageDelivery | .configurationImageDelivery
  | .summerTransition | .powerRemoval | .dieReset | .attestationRequest | .hazelTranslation | .uncorrectableError | .hostErrorOnStore
  | .supervisorDebugStop | .returnToWinterThroughFault => nomatch he

/-- Settles O5, by the form of each instruction's meaning. -/
theorem instructionsGoOn : Obligations.InstructionsGoOn := exec_next

/-! False guards. -/

section
variable {s : State} (hg : s.guard = false)
include hg

theorem State.atomic_false (sp : BitVec 2) (f : M) (op : Nat → Nat → Nat → Nat → Option Nat) : s.atomic sp f op = .next s.retire :=
  State.issue_false hg _
theorem State.linkOwn_false (body : State → Res) : s.linkOwn body = .next s.retire := State.issue_false hg _
theorem State.counterWrite_false (f : E) (new : Nat → Nat → Nat) : s.counterWrite f new = .next s.retire := State.linkOwn_false hg _
theorem State.fence_false (scope : Nat) : s.fence scope = .next s.retire := State.issue_false hg _

end

theorem State.tileCmd_false {s : State} (hf : s.ctx.ev.flag = false) (hg : s.guard = false) (i : Instr) (f : E)
    (more : State → List Word) (reads : State → List Nat) (body : State → Cmd → TileRes) :
    s.tileCmd i f more reads body = .next s.retire := State.command_false hf hg _ _ _ _ _

theorem State.linkCmd_false {s : State} (hf : s.ctx.ev.flag = false) (hg : s.guard = false) (i : Instr) (f : E)
    (more : State → List Word) (body : State → Cmd → CmdRes) : s.linkCmd i f more body = .next s.retire :=
  State.command_false hf hg _ _ _ _ _

theorem State.collCmd_false {s : State} (hf : s.ctx.ev.flag = false) (hg : s.guard = false) (i : Instr) (f : E)
    (body : State → Cmd → CmdRes) : s.collCmd i f body = .next s.retire := by
  rw [State.collCmd, State.startTimer_of_issue hf]
  exact State.command_false hf hg ..

theorem State.issueM_false {s : State} (hg : s.guard = false) {f : M} (hv : f.vec = false) (body : State → Res) :
    s.issueM f body = .next s.retire := by
  simp only [State.issueM, hv, Bool.false_eq_true, if_false, State.issue_false hg]

theorem execAred_false {s : State} (hg : s.guard = false) {f : M} (hc : f.cnt = 0) (sp : BitVec 2) :
    execAred sp f s = .next s.retire := by
  simp only [execAred, hc, if_true, State.issue_false hg]

/-- A scalar memory instruction is guarded. -/
theorem vec_of_scalar {f : M} {b : Bool} (h : (b && !f.vec) = true) : f.vec = false := by
  simpa using (Bool.and_eq_true_iff.1 h).2

theorem exec_false (i : Instr) (s : State) (h : guarded i = true) (hf : AsIssued s) (hg : s.guard = false) : exec i s = .next s.retire :=
  match i with
  | .fqry _ | .br _ | .bri _ | .call _ | .ret _ | .mcall _ | .mdef _ | .nest _ | .wlimset _ | .cont _ | .prio _ | .domain _ | .joini _
  | .self _ | .trcrec _ | .trcrpl _ | .trcstat _ | .add _ | .sub _ | .and _ | .or _ | .xor _ | .andn _ | .shl _ | .shr _ | .sra _
  | .rotr _ | .min _ | .max _ | .minu _ | .maxu _ | .clz _ | .popc _ | .mul _ | .mulh _ | .mulhu _ | .div _ | .divu _ | .rem _ | .remu _
  | .addi _ | .andi _ | .ori _ | .shli _ | .li _ | .lih _ | .mov _ | .lea _ | .cmpeq _ | .cmpne _ | .cmplt _ | .cmpltu _ | .cmpge _
  | .cmpgeu _ | .cmpeqi _ | .cmplti _ | .plogAnd _ | .plogOr _ | .plogXor _ | .plogAndn _ | .plogOrn _ | .plogNot _ | .plogMov _
  | .plogClr _ | .pget _ | .pput _ | .pcnt _ | .pfirst _ | .vext _ | .vsett _ | .vgetf _ | .vsetf _ | .vseed _ | .vpack _ | .vunpk _
  | .tawin _ | .tamode _ | .tarst _ | .tadly _ | .talnch _ | .tacap _ | .tastat _ | .ldgq _ | .pfg _ | .gathq _ | .ldkq _ | .hflsh _
  | .hinv _ | .spcfg _ | .cinv _ | .cflsh _ | .clkr _ | .xshdAlloc _ | .xshdFree _ | .semw _ | .sems _ | .semi _ | .semrd _ | .bar _
  | .bara _ | .barw _ | .bibset _ | .lock _ | .unlock _ | .trylk _ | .wreg _ | .wdereg _ | .whold _ | .wqry _ | .qpush _ | .qpop _
  | .qpeek _ | .qstat _ | .tokp _ | .tokw _ | .xrstat _ | .trap _ | .seth _ | .csrr _ | .csrw _ | .csrwDmr _ | .csrwBib _
  | .csrwBdepth _ | .csrwBprio _ | .aset _ | .tlbi _ | .ctxsv _ | .ctxrs _ | .prq _ | .wftsp _ | .errlog _ | .inj _ | .migr _ | .ares _
  | .nop | .waite | .rdv | .node | .efence | .ksync | .tret | .udecl => by
    dsimp only [exec]
    exact State.issue_false hg _
  | .aadd _ _ | .afadd _ _ | .amin _ _ | .amax _ _ | .aand _ _ | .aor _ _ | .axor _ _ | .axchg _ _ | .acas _ _ => by
    dsimp only [exec]
    exact State.atomic_false hg _ _ _
  | .lctrRd _ | .lctrWait _ | .lstep _ | .lstat _ => by
    dsimp only [exec]
    exact State.linkOwn_false hg _
  | .lctrSet _ | .lctrAdd _ => by
    dsimp only [exec]
    exact State.counterWrite_false hg _ _
  | .fenceStream | .fenceJob | .fenceCluster | .fenceDevice | .fenceSystem => by
    dsimp only [exec]
    exact State.fence_false hg _
  | .ldl _ | .stl _ | .ldc _ | .stc _ | .mstc _ | .ldg _ | .stg _ | .ldk _ | .ldh _ | .sth _ | .ldp _ | .stp _ => by
    dsimp only [exec]
    exact State.issueM_false hg (vec_of_scalar h) _
  | .wbankSel _ | .wbankClaim _ | .wbankRel _ | .wregnDef _ | .wregnRem _ | .wldw _ | .wstw _ | .wadmit _ | .wcoll _ | .wver _ | .wopt _
  | .wcks _ | .wsave _ | .wrest _ | .xcopy _ | .xfill _ | .xpub _ | .tstart | .wlease | .wrls | .wdrain | .wdrainDiscard => by
    dsimp only [exec]
    exact State.command_false hf hg ..
  | .tld _ | .tst _ | .tzero _ | .tmma _ | .tmmas _ | .tcvt _ | .tfmt _ | .tcksOff | .tcksOn | .tmov _ | .ttrn _ => by
    dsimp only [exec]
    exact State.tileCmd_false hf hg ..
  | .lsend _ | .larm _ | .larmDis _ | .lrecv _ => by
    dsimp only [exec]
    exact State.linkCmd_false hf hg ..
  | .xtree _ | .xred _ | .xbcast _ => by
    dsimp only [exec]
    exact State.collCmd_false hf hg ..
  | .ared sp f => execAred_false hg (eq_of_beq (Bool.and_eq_true_iff.1 h).2) sp
  | .mov16 _ _ | .add16 _ _ | .addi16 _ _ | .br16 _ | .tok16Push _ | .tok16Wait _ | .sel _ | .vadd _ | .vsub _ | .vmul _ | .vfma _
  | .vmin _ | .vmax _ | .vabs _ | .vneg _ | .vdiv _ | .vsqrt _ | .vrsq _ | .vrec _ | .vexp2 _ | .vlog2 _ | .vand _ | .vor _ | .vxor _
  | .vnot _ | .vshl _ | .vshr _ | .vsra _ | .vclz _ | .vcmpeq _ | .vcmpne _ | .vcmplt _ | .vcmple _ | .vcmpun _ | .vclass _ | .vsel _
  | .vmov _ | .vbcast _ | .vlane _ | .vins _ | .vperm _ | .vslide _ | .vred _ | .vscan _ | .vdot _ | .vcvt _ | .vscale _ | .vgath _
  | .vscat _ | .nop16 | .inc | .planeCapture | .wavefrontAdmission | .wavefrontCellArrival | .wavefrontDelivery | .applyCommit
  | .queueLoadArrival | .writeTakesEffect | .copyCompletion | .deadlockSweep | .waitLimit | .redTimeout | .linkMessageArrival
  | .peerAccessArrival | .sendAcknowledged | .goBackReplay | .linkDown | .postWaitTimeout | .linkTraining | .gscStep | .gscJoin
  | .checkerCompare | .vbusLaneFault | .preempt | .distributorSelection | .replayDiverge | .dispatch | .jobRetirement | .hostTailWrite
  | .queueDescriptorWrite | .queueDisableWrite | .hostirqClear | .layerpwrWrite | .peerdataWrite | .nctrWrite | .windowWrite
  | .hostCoherentAccess | .layer1PowerOff | .layer1PowerOn | .powerOn | .firmwareImageDelivery | .configurationImageDelivery
  | .summerTransition | .powerRemoval | .dieReset | .attestationRequest | .hazelTranslation | .uncorrectableError | .hostErrorOnStore
  | .supervisorDebugStop | .returnToWinterThroughFault => nomatch h

/-- Settles O6, by the form of each instruction's meaning; a guarded MCALL of an empty slot too only takes its slots (log entry 66). -/
theorem falseGuard : Obligations.FalseGuard := exec_false

end Sys2Proof.Machine
end

section
/-! PROOF. Register writes (R51, R93 to R96, R144): what a write does in a scoreboard block and what one leaves to come in an exposed one,
and what the writes to come do when they are due. O8. -/
namespace Sys2Proof.Machine

/-! One write. -/

@[simp] theorem Core.setStrm_strm (k : Core) (i : StreamId) : k.setStrm i (k.strm i) = k := by
  simp [Core.setStrm, Core.strm]

section
variable {s : State} (he : s.exposed = false)
include he

theorem State.putS_of_scoreboard (lat : Nat) (d : BitVec 5) (v : Word) : s.putS lat d v = s.setStr (s.str.putS d v) := by
  have hv : (v.setWidth 2048).setWidth 64 = v := BitVec.setWidth_setWidth_of_le v (by decide)
  have hf : s.me.fflags ||| (0 : BitVec 5) = s.me.fflags := BitVec.or_zero
  simp only [State.putS, State.put, he, Bool.false_eq_true, if_false, Core.apply, hv, hf, State.setStr, State.str]

theorem State.putP_of_scoreboard (lat : Nat) (d : BitVec 7) (mask v : BitVec 64) :
    s.putP lat d mask v = s.setStr (s.str.putP d (merge s.str.p[d.toFin] v (mask &&& laneMask s.ctx.strm))) := by
  have hv (x : BitVec 64) : (x.setWidth 2048).setWidth 64 = x := BitVec.setWidth_setWidth_of_le x (by decide)
  have hf : s.me.fflags ||| (0 : BitVec 5) = s.me.fflags := BitVec.or_zero
  simp only [State.putP, State.put, he, Bool.false_eq_true, if_false, Core.apply, hv, hf, State.setStr, State.str]

theorem State.putV_of_scoreboard (lat : Nat) (d : BitVec 5) (mask v : VWord) (fl : BitVec 5) :
    s.putV lat d mask v fl =
      s.setMe { s.me with v := s.me.v.set d.toFin (merge s.me.v[d.toFin] v mask), fflags := s.me.fflags ||| fl } := by
  simp only [State.putV, State.put, he, Bool.false_eq_true, if_false, Core.apply]

end

theorem State.put_of_exposed {s : State} (he : s.exposed = true) (lat : Nat) (d : Dest) (mask v : VWord) (fl : BitVec 5) :
    s.put lat d mask v fl = s.setStr { s.str with pending := s.str.pending ++ [⟨s.str.slots + lat, s.clock, d, mask, v, fl, false⟩] } := by
  simp only [State.put, he, if_true]

/-! Registers read back. -/

theorem getElem_set_toFin {α : Type} {m w : Nat} (r : Vector α m) (d n : BitVec w) (x : α) (hd : d.toFin.val < m) (hn : n.toFin.val < m) :
    (r.set d.toFin.val x hd)[n.toFin.val] = if n = d then x else r[n.toFin.val] := by
  split
  · next h =>
    subst h
    exact Vector.getElem_set_self _
  · next h => exact Vector.getElem_set_ne _ _ fun e => h (BitVec.eq_of_toNat_eq e.symm)

theorem Strm.putS_zero (t : Strm) (v : Word) : t.putS 0 v = t := if_pos rfl
theorem Strm.putS_s {t : Strm} {d : BitVec 5} (hd : d ≠ 0) (v : Word) : t.putS d v = { t with s := t.s.set d.toFin v } := if_neg hd
theorem Strm.putP_zero (t : Strm) (v : BitVec 64) : t.putP 0 v = t := if_pos rfl
theorem Strm.putP_p {t : Strm} {d : BitVec 7} (hd : d ≠ 0) (v : BitVec 64) : t.putP d v = { t with p := t.p.set d.toFin v } := if_neg hd

theorem State.getS_setStr (s : State) (t : Strm) (n : BitVec 5) : (s.setStr t).getS n = if n = 0 then 0 else t.s[n.toFin] := by
  rw [State.getS, State.str_setStr]

theorem State.getP_setStr (s : State) (t : Strm) (n : BitVec 7) :
    (s.setStr t).getP n = if n = 0 then laneMask s.ctx.strm else t.p[n.toFin] := by
  rw [State.getP, State.str_setStr, State.setStr_ctx]

theorem State.getS_setStr_putS (s : State) (d n : BitVec 5) (v : Word) :
    (s.setStr (s.str.putS d v)).getS n = if n = d ∧ d ≠ 0 then v else s.getS n := by
  rw [State.getS_setStr, State.getS]
  by_cases hd : d = 0
  · subst hd
    rw [Strm.putS_zero, if_neg (c := n = 0 ∧ (0 : BitVec 5) ≠ 0) fun h => h.2 rfl]
  · rw [Strm.putS_s hd]
    have hset := getElem_set_toFin s.str.s d n v (by omega) (by omega)
    by_cases hn : n = d
    · rw [if_neg (hn ▸ hd), if_pos ⟨hn, hd⟩]
      exact hset.trans (if_pos hn)
    · rw [if_neg (c := n = d ∧ d ≠ 0) fun h => hn h.1]
      exact congrArg _ (hset.trans (if_neg hn))

theorem State.getP_setStr_putP (s : State) (d n : BitVec 7) (v : BitVec 64) :
    (s.setStr (s.str.putP d v)).getP n = if n = d ∧ d ≠ 0 then v else s.getP n := by
  rw [State.getP_setStr, State.getP]
  by_cases hd : d = 0
  · subst hd
    rw [Strm.putP_zero, if_neg (c := n = 0 ∧ (0 : BitVec 7) ≠ 0) fun h => h.2 rfl]
  · rw [Strm.putP_p hd]
    have hset := getElem_set_toFin s.str.p d n v (by omega) (by omega)
    by_cases hn : n = d
    · rw [if_neg (hn ▸ hd), if_pos ⟨hn, hd⟩]
      exact hset.trans (if_pos hn)
    · rw [if_neg (c := n = d ∧ d ≠ 0) fun h => hn h.1]
      exact congrArg _ (hset.trans (if_neg hn))

theorem Strm.putS_eq (t : Strm) (d : BitVec 5) (v : Word) : ∃ r : Vector Word 32, t.putS d v = { t with s := r } := by
  unfold Strm.putS
  split
  · exact ⟨t.s, rfl⟩
  · exact ⟨_, rfl⟩

theorem Strm.putP_eq (t : Strm) (d : BitVec 7) (v : BitVec 64) : ∃ r : Vector (BitVec 64) 128, t.putP d v = { t with p := r } := by
  unfold Strm.putP
  split
  · exact ⟨t.p, rfl⟩
  · exact ⟨_, rfl⟩

theorem getV_setMe_set (s : State) (d n : BitVec 5) (x : VWord) (fl : BitVec 5) :
    (s.setMe { s.me with v := s.me.v.set d.toFin x, fflags := fl }).getV n = if n = d then x else s.getV n := by
  rw [State.getV, State.me_setMe]
  exact getElem_set_toFin s.me.v d n x (by omega) (by omega)

theorem scalarWrite_rule : ScalarWriteRule := by
  intro s lat d v q mask lanes vmask x fl
  refine ⟨fun he => ?_, fun he => ⟨State.put_of_exposed he .., State.put_of_exposed he .., State.put_of_exposed he ..⟩⟩
  rw [State.putS_of_scoreboard he, State.putP_of_scoreboard he, State.putV_of_scoreboard he]
  obtain ⟨r, hr⟩ := Strm.putS_eq s.str d v
  obtain ⟨p, hp⟩ := Strm.putP_eq s.str q (merge s.str.p[q.toFin] lanes (mask &&& laneMask s.ctx.strm))
  exact ⟨fun n => State.getS_setStr_putS s d n v, ⟨r, by rw [hr]⟩, fun n => State.getP_setStr_putP s q n _, ⟨p, by rw [hp]⟩,
    fun n => getV_setMe_set s d n _ _, ⟨_, rfl⟩⟩

/-! The order of the writes that are due. -/

/-- The order of R95: by slot, and in one slot by issue. -/
def dueBefore (x y : Pend) : Prop := x.due < y.due ∨ x.due = y.due ∧ x.issued ≤ y.issued

theorem insertDue_perm (w : Pend) (l : List Pend) : (insertDue w l).Perm (w :: l) := by
  induction l with
  | nil => exact .refl _
  | cons x t ih =>
    unfold insertDue
    split
    · exact .refl _
    · exact (ih.cons x).trans (.swap w x t)

theorem insertDue_pairwise (w : Pend) {l : List Pend} (h : l.Pairwise dueBefore) : (insertDue w l).Pairwise dueBefore := by
  induction l with
  | nil => exact List.pairwise_singleton ..
  | cons x t ih =>
    obtain ⟨hx, ht⟩ := List.pairwise_cons.1 h
    unfold insertDue
    split
    · next hw =>
      have hwx : dueBefore w x := by
        simp only [Bool.or_eq_true, Bool.and_eq_true, decide_eq_true_eq, beq_iff_eq] at hw
        unfold dueBefore
        omega
      refine List.pairwise_cons.2 ⟨fun y hy => ?_, h⟩
      rcases List.mem_cons.1 hy with rfl | hy
      · exact hwx
      · have := hx y hy
        unfold dueBefore at *
        omega
    · next hw =>
      refine List.pairwise_cons.2 ⟨fun y hy => ?_, ih ht⟩
      rcases List.mem_cons.1 ((insertDue_perm w t).mem_iff.1 hy) with rfl | hy
      · simp only [Bool.or_eq_true, Bool.and_eq_true, decide_eq_true_eq, beq_iff_eq] at hw
        unfold dueBefore
        omega
      · exact hx y hy

theorem dueWritesInOrder_rule : DueWritesInOrderRule := by
  intro l
  have key (l acc : List Pend) (ha : acc.Pairwise dueBefore) :
      (l.foldl (fun acc w => insertDue w acc) acc).Perm (acc ++ l) ∧ (l.foldl (fun acc w => insertDue w acc) acc).Pairwise dueBefore := by
    induction l generalizing acc with
    | nil => exact ⟨by rw [List.append_nil]; exact .refl _, ha⟩
    | cons w t ih =>
      obtain ⟨hp, hs⟩ := ih _ (insertDue_pairwise w ha)
      exact ⟨hp.trans (((insertDue_perm w acc).append_right t).trans List.perm_middle.symm), hs⟩
  exact key l [] .nil

/-! What the writes that are due do. -/

/-- What a write leaves in the scalar registers. -/
def Pend.onS (r : Vector Word 32) (w : Pend) : Vector Word 32 :=
  match w.dest with
  | .s n => if n = 0 then r else r.set n.toFin (w.val.setWidth 64)
  | .p _ | .v _ | .nest _ => r

/-- What it leaves in the predicates. -/
def Pend.onP (r : Vector (BitVec 64) 128) (w : Pend) : Vector (BitVec 64) 128 :=
  match w.dest with
  | .p n => if n = 0 then r else r.set n.toFin (merge r[n.toFin] (w.val.setWidth 64) (w.mask.setWidth 64))
  | .s _ | .v _ | .nest _ => r

/-- What it leaves in the nest descriptors. -/
def Pend.onNest (r : Vector Nest 8) (w : Pend) : Vector Nest 8 :=
  match w.dest with
  | .nest n => r.set n.toFin (nestUnpack w.val)
  | .s _ | .p _ | .v _ => r

/-- What it leaves in the vector registers. -/
def Pend.onV (r : Vector VWord 32) (w : Pend) : Vector VWord 32 :=
  match w.dest with
  | .v n => r.set n.toFin (merge r[n.toFin] w.val w.mask)
  | .s _ | .p _ | .nest _ => r

theorem Core.apply_eq (k : Core) (i : StreamId) (w : Pend) :
    k.apply i w = { k.setStrm i { k.strm i with s := w.onS (k.strm i).s, p := w.onP (k.strm i).p, nests := w.onNest (k.strm i).nests } with
      v := w.onV k.v, fflags := k.fflags ||| w.flags } := by
  have hk : { k with fflags := k.fflags ||| w.flags }.setStrm i (k.strm i) = { k with fflags := k.fflags ||| w.flags } :=
    Core.setStrm_strm { k with fflags := k.fflags ||| w.flags } i
  unfold Core.apply Pend.onS Pend.onP Pend.onNest Pend.onV
  dsimp only
  cases w.dest with
  | s n =>
    dsimp only [Strm.putS]
    split <;> rfl
  | p n =>
    dsimp only [Strm.putP]
    split <;> rfl
  | v n => exact congrArg (fun k' : Core => { k' with v := k.v.set n.toFin (merge k.v[n.toFin] w.val w.mask) }) hk.symm
  | nest n => rfl

/-- The writes of a list, one after the other. -/
theorem Core.foldl_apply_eq (i : StreamId) (ws : List Pend) (k : Core) :
    ws.foldl (fun k w => k.apply i w) k =
      { k.setStrm i { k.strm i with
          s := ws.foldl Pend.onS (k.strm i).s, p := ws.foldl Pend.onP (k.strm i).p, nests := ws.foldl Pend.onNest (k.strm i).nests } with
        v := ws.foldl Pend.onV k.v, fflags := ws.foldl (fun f w => f ||| w.flags) k.fflags } := by
  induction ws generalizing k with
  | nil => exact (Core.setStrm_strm k i).symm
  | cons w t ih =>
    rw [List.foldl_cons, ih, Core.apply_eq]
    simp only [List.foldl_cons]
    have hs (v : Vector VWord 32) (fl : BitVec 5) (t' u : Strm) :
        ({ k.setStrm i t' with v := v, fflags := fl } : Core).setStrm i u = { k.setStrm i u with v := v, fflags := fl } :=
      congrArg (fun k' : Core => { k' with v := v, fflags := fl }) (Core.setStrm_setStrm k i t' u)
    have ht (v : Vector VWord 32) (fl : BitVec 5) (t' : Strm) : ({ k.setStrm i t' with v := v, fflags := fl } : Core).strm i = t' :=
      Core.strm_setStrm k i t'
    rw [hs, ht]

/-- Induction over a list by its last element. -/
theorem list_append_induction {α : Type} {P : List α → Prop} (nil : P []) (append_singleton : ∀ l a, P l → P (l ++ [a])) (l : List α) : P l := by
  rw [← l.reverse_reverse]
  induction l.reverse with
  | nil => exact nil
  | cons a t ih =>
    rw [List.reverse_cons]
    exact append_singleton _ _ ih

theorem lastTo_append {α : Type} (ws : List Pend) (w : Pend) (get : Pend → Option α) (x : α) :
    (lastTo (ws ++ [w]) get).getD x = (get w).getD ((lastTo ws get).getD x) := by
  simp only [lastTo, List.filterMap_append, List.filterMap_cons, List.filterMap_nil]
  cases get w with
  | none => simp
  | some y => simp

theorem foldl_onS (n : BitVec 5) (r : Vector Word 32) (ws : List Pend) :
    (ws.foldl Pend.onS r)[n.toFin] = if n = 0 then r[n.toFin] else
      (lastTo ws fun w => if w.dest = .s n then some (w.val.setWidth 64) else none).getD r[n.toFin] := by
  induction ws using list_append_induction with
  | nil => exact (ite_self _).symm
  | append_singleton ws w ih =>
    rw [List.foldl_append, List.foldl_cons, List.foldl_nil, lastTo_append]
    generalize ws.foldl Pend.onS r = q at ih
    unfold Pend.onS
    cases hw : w.dest with
    | s m =>
      dsimp only
      by_cases hm : m = 0
      · rw [if_pos hm, ih]
        split
        · rfl
        · next hn => rw [if_neg (by rintro ⟨⟩; exact hn hm)]; rfl
      · have hset := getElem_set_toFin q m n (w.val.setWidth 64) (by omega) (by omega)
        rw [if_neg hm]
        refine hset.trans ?_
        by_cases hn : n = m
        · subst hn
          rw [if_pos rfl, if_neg hm, if_pos rfl]; rfl
        · rw [if_neg hn, if_neg (c := Dest.s m = Dest.s n) (by rintro ⟨⟩; exact hn rfl)]
          exact ih
    | p m | v m | nest m => exact ih

theorem foldl_onNest (n : BitVec 3) (r : Vector Nest 8) (ws : List Pend) :
    (ws.foldl Pend.onNest r)[n.toFin] =
      (lastTo ws fun w => if w.dest = .nest n then some (nestUnpack w.val) else none).getD r[n.toFin] := by
  induction ws using list_append_induction with
  | nil => rfl
  | append_singleton ws w ih =>
    rw [List.foldl_append, List.foldl_cons, List.foldl_nil, lastTo_append]
    generalize ws.foldl Pend.onNest r = q at ih
    unfold Pend.onNest
    cases hw : w.dest with
    | nest m =>
      have hset := getElem_set_toFin q m n (nestUnpack w.val) (by omega) (by omega)
      refine hset.trans ?_
      by_cases hn : n = m
      · subst hn
        rw [if_pos rfl, if_pos rfl]; rfl
      · rw [if_neg hn, if_neg (c := Dest.nest m = Dest.nest n) (by rintro ⟨⟩; exact hn rfl)]
        exact ih
    | s m | p m | v m => exact ih

theorem getLsbD_merge {w : Nat} (old val mask : BitVec w) {b : Nat} (hb : b < w) :
    (merge old val mask).getLsbD b = if mask.getLsbD b = true then val.getLsbD b else old.getLsbD b := by
  simp only [merge, BitVec.getLsbD_or, BitVec.getLsbD_and, BitVec.getLsbD_not, hb, decide_true, Bool.true_and]
  cases mask.getLsbD b <;> simp

theorem foldl_onP (n : BitVec 7) {b : Nat} (hb : b < 64) (r : Vector (BitVec 64) 128) (ws : List Pend) :
    (ws.foldl Pend.onP r)[n.toFin].getLsbD b = if n = 0 then r[n.toFin].getLsbD b else
      (lastTo ws fun w => if w.dest = .p n ∧ w.mask.getLsbD b = true then some (w.val.getLsbD b) else none).getD
        (r[n.toFin].getLsbD b) := by
  induction ws using list_append_induction with
  | nil => exact (ite_self _).symm
  | append_singleton ws w ih =>
    rw [List.foldl_append, List.foldl_cons, List.foldl_nil, lastTo_append]
    generalize ws.foldl Pend.onP r = q at ih
    unfold Pend.onP
    cases hw : w.dest with
    | p m =>
      dsimp only
      by_cases hm : m = 0
      · rw [if_pos hm, ih]
        split
        · rfl
        · next hn => rw [if_neg (by rintro ⟨⟨⟩, -⟩; exact hn hm)]; rfl
      · have hset := congrArg (BitVec.getLsbD · b)
          (getElem_set_toFin q m n (merge q[m.toFin] (w.val.setWidth 64) (w.mask.setWidth 64)) (by omega) (by omega))
        rw [if_neg hm]
        refine hset.trans ?_
        by_cases hn : n = m
        · subst hn
          rw [if_pos rfl, getLsbD_merge _ _ _ hb, if_neg hm]
          simp only [BitVec.getLsbD_setWidth, hb, decide_true, Bool.true_and, true_and]
          split
          · rfl
          · exact ih.trans (if_neg hm)
        · rw [if_neg hn, if_neg (c := Dest.p m = Dest.p n ∧ _) (by rintro ⟨⟨⟩, -⟩; exact hn rfl)]
          exact ih
    | s m | v m | nest m =>
      rw [if_neg (c := _ ∧ _) (by rintro ⟨⟨⟩, -⟩)]
      exact ih

theorem foldl_onV (n : BitVec 5) {b : Nat} (hb : b < 2048) (r : Vector VWord 32) (ws : List Pend) :
    (ws.foldl Pend.onV r)[n.toFin].getLsbD b =
      (lastTo ws fun w => if w.dest = .v n ∧ w.mask.getLsbD b = true then some (w.val.getLsbD b) else none).getD
        (r[n.toFin].getLsbD b) := by
  induction ws using list_append_induction with
  | nil => rfl
  | append_singleton ws w ih =>
    rw [List.foldl_append, List.foldl_cons, List.foldl_nil, lastTo_append]
    generalize ws.foldl Pend.onV r = q at ih
    unfold Pend.onV
    cases hw : w.dest with
    | v m =>
      have hset := congrArg (BitVec.getLsbD · b) (getElem_set_toFin q m n (merge q[m.toFin] w.val w.mask) (by omega) (by omega))
      refine hset.trans ?_
      by_cases hn : n = m
      · subst hn
        rw [if_pos rfl, getLsbD_merge _ _ _ hb]
        simp only [true_and]
        split
        · rfl
        · exact ih
      · rw [if_neg hn, if_neg (c := Dest.v m = Dest.v n ∧ _) (by rintro ⟨⟨⟩, -⟩; exact hn rfl)]
        exact ih
    | s m | p m | nest m =>
      rw [if_neg (c := _ ∧ _) (by rintro ⟨⟨⟩, -⟩)]
      exact ih

theorem StreamId.ofNum_num (i : StreamId) : StreamId.ofNum i.num = i := by cases i <;> rfl

theorem exec_writeTakesEffect {s : State} {c : CoreId} {i : StreamId} (hc : s.ctx.ev.unit = c.val) (hi : s.ctx.ev.sub = i.num) :
    exec .writeTakesEffect s = .next (s.setCore c ((s.core c).applyDue i s.clock)) := by
  have hn : i.num < 6 := by cases i <;> decide
  change execWriteTakesEffect s = _
  simp only [execWriteTakesEffect, hc, hi, c.isLt, hn, and_self, dif_pos, StreamId.ofNum_num, Fin.eta]

theorem dueWriteTakesEffect_rule : DueWriteTakesEffectRule := by
  intro s c i hc hi k t ws
  have ht : (k.setStrm i (k.laterWrites i s.clock)).strm i = k.laterWrites i s.clock := Core.strm_setStrm ..
  refine ⟨ws.foldl Pend.onS t.s, ws.foldl Pend.onP t.p, ws.foldl Pend.onNest t.nests, ws.foldl Pend.onV k.v, ?_, fun n => foldl_onS n _ _,
    fun n b hb => foldl_onP n hb _ _, fun n => foldl_onNest n _ _, fun n b hb => foldl_onV n hb _ _⟩
  rw [exec_writeTakesEffect hc hi, Core.applyDue, Core.foldl_apply_eq, Core.setStrm_setStrm, ht]
  rfl

/-- Settles O8: one write by its case, the writes that are due by induction on their list, with the last one to a register on top. -/
theorem registerWritesTakeEffect : Obligations.RegisterWritesTakeEffect :=
  ⟨scalarWrite_rule, dueWriteTakesEffect_rule, dueWritesInOrder_rule⟩

end Sys2Proof.Machine
end

section
/-! PROOF. The scalar and predicate instructions (R111, R120 to R126): each value in exact arithmetic is the machine's, then each instruction
by its value. O9 and O10. -/
namespace Sys2Proof.Machine

/-! Values in exact arithmetic. -/

/-- The number whose bit i is `p i`, for the bits below n. -/
def bitsBelow (p : Nat → Bool) (n : Nat) : Nat := (List.range n).foldl (fun v i => if p i then v + 2 ^ i else v) 0

theorem bitsBelow_succ (p : Nat → Bool) (n : Nat) : bitsBelow p (n + 1) = if p n then bitsBelow p n + 2 ^ n else bitsBelow p n := by
  simp only [bitsBelow, List.range_succ, List.foldl_append, List.foldl_cons, List.foldl_nil]

theorem bitsBelow_lt (p : Nat → Bool) (n : Nat) : bitsBelow p n < 2 ^ n := by
  induction n with
  | zero => exact Nat.one_pos
  | succ n ih =>
    rw [bitsBelow_succ, Nat.pow_succ]
    split <;> omega

theorem testBit_bitsBelow (p : Nat → Bool) {n i : Nat} (hi : i < n) : (bitsBelow p n).testBit i = p i := by
  induction n with
  | zero => omega
  | succ n ih =>
    have hlt := bitsBelow_lt p n
    rw [bitsBelow_succ]
    rcases Nat.lt_succ_iff_lt_or_eq.1 hi with h | rfl
    · split
      · rw [Nat.add_comm, Nat.testBit_two_pow_add_gt h, ih h]
      · exact ih h
    · split
      · next hp => rw [Nat.add_comm, Nat.testBit_two_pow_add_eq, Nat.testBit_lt_two_pow hlt, hp]; rfl
      · next hp => rw [Nat.testBit_lt_two_pow hlt, Bool.of_not_eq_true hp]

theorem ofNat_bits_eq {w : Word} {p : Nat → Bool} (h : ∀ i, i < 64 → w.getLsbD i = p i) : BitVec.ofNat 64 (bitsBelow p 64) = w := by
  refine BitVec.eq_of_getLsbD_eq fun i hi => ?_
  rw [BitVec.getLsbD_ofNat, testBit_bitsBelow p hi, h i hi]
  simp [hi]

theorem ofInt_toInt_sub (x y : Word) : BitVec.ofInt 64 (x.toInt - y.toInt) = x - y := by
  rw [Int.sub_eq_add_neg, BitVec.ofInt_add, BitVec.ofInt_neg, BitVec.ofInt_toInt, BitVec.ofInt_toInt, BitVec.sub_eq_add_neg]

theorem ofInt_toInt_add (x y : Word) : BitVec.ofInt 64 (x.toInt + y.toInt) = x + y := by
  rw [BitVec.ofInt_add, BitVec.ofInt_toInt, BitVec.ofInt_toInt]

/-- A sum with an immediate. -/
theorem ofInt_add_imm {n : Nat} (hn : n ≤ 64) (x : Word) (y : BitVec n) : BitVec.ofInt 64 (x.toInt + y.toInt) = x + y.signExtend 64 := by
  rw [← BitVec.toInt_signExtend_of_le hn, ofInt_toInt_add]

theorem ofInt_imm {n : Nat} (hn : n ≤ 64) (y : BitVec n) : BitVec.ofInt 64 y.toInt = y.signExtend 64 := by
  rw [← BitVec.toInt_signExtend_of_le hn, BitVec.ofInt_toInt]

theorem ofNat_shl (x : Word) (k : Nat) : BitVec.ofNat 64 (x.toNat * 2 ^ k) = x <<< k := by
  apply BitVec.eq_of_toNat_eq
  rw [BitVec.toNat_ofNat, BitVec.toNat_shiftLeft, Nat.shiftLeft_eq]

theorem ofNat_shr (x : Word) (k : Nat) : BitVec.ofNat 64 (x.toNat / 2 ^ k) = x >>> k := by
  apply BitVec.eq_of_toNat_eq
  rw [BitVec.toNat_ofNat, BitVec.toNat_ushiftRight, Nat.shiftRight_eq_div_pow]
  exact Nat.mod_eq_of_lt (Nat.lt_of_le_of_lt (Nat.div_le_self ..) x.isLt)

theorem ofInt_sra (x : Word) (k : Nat) : BitVec.ofInt 64 (x.toInt / 2 ^ k) = x.sshiftRight k := by
  rw [← BitVec.ofInt_toInt (x := x.sshiftRight k), BitVec.toInt_sshiftRight, Int.shiftRight_eq_div_pow]
  norm_cast

theorem ofNat_rotr (x : Word) {k : Nat} (hk : k < 64) :
    BitVec.ofNat 64 (x.toNat / 2 ^ k + x.toNat * 2 ^ (64 - k)) = x.rotateRight k := by
  apply BitVec.eq_of_toNat_eq
  have hx := x.isLt
  have hpow : 2 ^ k * 2 ^ (64 - k) = 2 ^ 64 := by rw [← Nat.pow_add, Nat.add_sub_cancel' (Nat.le_of_lt hk)]
  have hhi : x.toNat / 2 ^ k < 2 ^ (64 - k) := Nat.div_lt_of_lt_mul (by rw [hpow]; exact hx)
  rw [BitVec.toNat_rotateRight, BitVec.toNat_ofNat, Nat.mod_eq_of_lt hk, Nat.shiftRight_eq_div_pow, Nat.shiftLeft_eq]
  have hmod : x.toNat * 2 ^ (64 - k) % 2 ^ 64 = x.toNat % 2 ^ k * 2 ^ (64 - k) := by
    rw [← hpow, Nat.mul_mod_mul_right]
  have hlow : x.toNat % 2 ^ k * 2 ^ (64 - k) + x.toNat / 2 ^ k < 2 ^ 64 := by
    have h1 : x.toNat % 2 ^ k + 1 ≤ 2 ^ k := Nat.mod_lt _ (Nat.two_pow_pos k)
    have h2 := Nat.mul_le_mul_right (2 ^ (64 - k)) h1
    rw [hpow, Nat.add_mul, Nat.one_mul] at h2
    omega
  rw [Nat.add_mod, hmod, Nat.mod_eq_of_lt (Nat.lt_of_le_of_lt (Nat.div_le_self ..) hx), Nat.or_comm, Nat.mul_comm (x.toNat % 2 ^ k),
    ← Nat.two_pow_add_eq_or_of_lt hhi, Nat.mul_comm, Nat.add_comm (x.toNat / 2 ^ k), Nat.mod_eq_of_lt hlow]

theorem ofInt_min (x y : Word) : BitVec.ofInt 64 (min x.toInt y.toInt) = minS x y := by
  rw [minS]
  split
  · next h =>
    rw [BitVec.slt_iff_toInt_lt] at h
    rw [Int.min_eq_right (Int.le_of_lt h), BitVec.ofInt_toInt]
  · next h =>
    rw [BitVec.slt_iff_toInt_lt, Int.not_lt] at h
    rw [Int.min_eq_left h, BitVec.ofInt_toInt]

theorem ofInt_max (x y : Word) : BitVec.ofInt 64 (max x.toInt y.toInt) = maxS x y := by
  rw [maxS]
  split
  · next h =>
    rw [BitVec.slt_iff_toInt_lt] at h
    rw [Int.max_eq_right (Int.le_of_lt h), BitVec.ofInt_toInt]
  · next h =>
    rw [BitVec.slt_iff_toInt_lt, Int.not_lt] at h
    rw [Int.max_eq_left h, BitVec.ofInt_toInt]

theorem ofNat_minU (x y : Word) : BitVec.ofNat 64 (min x.toNat y.toNat) = minU x y := by
  rw [minU]
  split
  · next h =>
    rw [BitVec.ult_iff_lt, BitVec.lt_def] at h
    rw [Nat.min_eq_right (Nat.le_of_lt h), BitVec.ofNat_toNat, BitVec.setWidth_eq]
  · next h =>
    rw [BitVec.ult_iff_lt, BitVec.lt_def, Nat.not_lt] at h
    rw [Nat.min_eq_left h, BitVec.ofNat_toNat, BitVec.setWidth_eq]

theorem ofNat_maxU (x y : Word) : BitVec.ofNat 64 (max x.toNat y.toNat) = maxU x y := by
  rw [maxU]
  split
  · next h =>
    rw [BitVec.ult_iff_lt, BitVec.lt_def] at h
    rw [Nat.max_eq_right (Nat.le_of_lt h), BitVec.ofNat_toNat, BitVec.setWidth_eq]
  · next h =>
    rw [BitVec.ult_iff_lt, BitVec.lt_def, Nat.not_lt] at h
    rw [Nat.max_eq_left h, BitVec.ofNat_toNat, BitVec.setWidth_eq]

theorem toNat_eq_zero {x : Word} : x.toNat = 0 ↔ x = 0 := by
  rw [← BitVec.toNat_inj]
  rfl

theorem clz_eq (x : Word) : x.clz = BitVec.ofNat 64 (leadingZeros x) := by
  rw [leadingZeros]
  split
  · next h =>
    subst h
    decide
  · next h =>
    have h1 := BitVec.toNat_lt_two_pow_sub_clz (x := x)
    have h2 := BitVec.two_pow_sub_clz_le_toNat_of_ne_zero (x := x) (by decide) h
    have hlt := BitVec.clz_lt_iff_ne_zero.2 h
    have hlog : Nat.log2 x.toNat = 64 - x.clz.toNat - 1 := by
      rw [Nat.log2_eq_iff (mt toNat_eq_zero.1 h)]
      have hc : x.clz.toNat < 64 := hlt
      exact ⟨by rwa [Nat.sub_right_comm] at h2, by rwa [Nat.sub_add_cancel (by omega)]⟩
    apply BitVec.eq_of_toNat_eq
    have hc : x.clz.toNat < 64 := hlt
    rw [BitVec.toNat_ofNat, hlog]
    omega

theorem popcount_eq (x : Word) : BitVec.ofNat 64 (popcount x) = x.cpop := by
  have h (n : Nat) : (List.range n).foldl (fun c i => if x.getLsbD i then c + 1 else c) 0 = x.cpopNatRec n 0 := by
    induction n with
    | zero => rfl
    | succ n ih =>
      rw [List.range_succ, List.foldl_append, ih, BitVec.cpopNatRec_succ, BitVec.cpopNatRec_eq (n := n)]
      cases h : x.getLsbD n <;> simp [h, Nat.add_comm, BitVec.cpopNatRec_eq (n := n) (acc := 1)]
  rw [popcount, h, BitVec.cpop]

theorem ofNat_mul (x y : Word) : BitVec.ofNat 64 (x.toNat * y.toNat) = x * y := by
  apply BitVec.eq_of_toNat_eq
  rw [BitVec.toNat_ofNat, BitVec.toNat_mul]

theorem ofInt_bmod (z : Int) : BitVec.ofInt 64 (z.bmod (2 ^ 64)) = BitVec.ofInt 64 z := by
  apply BitVec.eq_of_toInt_eq
  rw [BitVec.toInt_ofInt, BitVec.toInt_ofInt, Int.bmod_bmod]

theorem div_eq (x y : Word) : (if y.toNat = 0 then BitVec.ofInt 64 (-1) else BitVec.ofInt 64 (x.toInt.tdiv y.toInt)) = divS x y := by
  rw [divS]
  by_cases h : y = 0
  · rw [if_pos (toNat_eq_zero.2 h), if_pos h]
    decide
  · rw [if_neg (mt toNat_eq_zero.1 h), if_neg h, ← BitVec.ofInt_toInt (x := x.sdiv y), BitVec.toInt_sdiv, ofInt_bmod]

theorem divu_eq (x y : Word) : (if y.toNat = 0 then BitVec.ofInt 64 (-1) else BitVec.ofNat 64 (x.toNat / y.toNat)) = divU x y := by
  rw [divU]
  by_cases h : y = 0
  · rw [if_pos (toNat_eq_zero.2 h), if_pos h]
    decide
  · rw [if_neg (mt toNat_eq_zero.1 h), if_neg h]
    apply BitVec.eq_of_toNat_eq
    rw [BitVec.toNat_ofNat, ← BitVec.toNat_udiv, Nat.mod_eq_of_lt (BitVec.isLt _)]
    rfl

theorem rem_eq (x y : Word) : (if y.toNat = 0 then x else BitVec.ofInt 64 (x.toInt.tmod y.toInt)) = remS x y := by
  rw [remS]
  by_cases h : y = 0
  · rw [if_pos (toNat_eq_zero.2 h), if_pos h]
  · rw [if_neg (mt toNat_eq_zero.1 h), if_neg h, ← BitVec.ofInt_toInt (x := x.srem y), BitVec.toInt_srem]

theorem remu_eq (x y : Word) : (if y.toNat = 0 then x else BitVec.ofNat 64 (x.toNat % y.toNat)) = remU x y := by
  rw [remU]
  by_cases h : y = 0
  · rw [if_pos (toNat_eq_zero.2 h), if_pos h]
  · rw [if_neg (mt toNat_eq_zero.1 h), if_neg h]
    apply BitVec.eq_of_toNat_eq
    rw [BitVec.toNat_ofNat, ← BitVec.toNat_umod, Nat.mod_eq_of_lt (BitVec.isLt _)]
    rfl

theorem lih_eq (x : BitVec 32) (y : Word) : BitVec.ofNat 64 (x.toNat * 2 ^ 32 + y.toNat % 2 ^ 32) = x ++ y.setWidth 32 := by
  apply BitVec.eq_of_toNat_eq
  rw [BitVec.toNat_append, BitVec.toNat_ofNat, BitVec.toNat_setWidth, Nat.shiftLeft_eq, Nat.mul_comm x.toNat,
    ← Nat.two_pow_add_eq_or_of_lt (Nat.mod_lt _ (by decide)), Nat.mod_eq_of_lt (by have := x.isLt; omega)]

theorem lea_eq (f : RX) (x y : Word) :
    BitVec.ofInt 64 (x.toInt + y.toInt * 2 ^ f.xf 29 3 + (f.x.extractLsb' 0 29).toInt) = leaAddr f x y := by
  have hs : BitVec.ofInt 64 (y.toInt * 2 ^ f.xf 29 3) = y <<< f.xf 29 3 := by
    rw [BitVec.ofInt_mul, BitVec.ofInt_toInt, BitVec.shiftLeft_eq_mul_twoPow]
    have hp : (2 : Int) ^ f.xf 29 3 = ((2 ^ f.xf 29 3 : Nat) : Int) := by norm_cast
    congr 1
    apply BitVec.eq_of_toNat_eq
    rw [hp, BitVec.ofInt_natCast, BitVec.toNat_ofNat, BitVec.toNat_twoPow]
  rw [BitVec.ofInt_add, BitVec.ofInt_add, BitVec.ofInt_toInt, hs, ofInt_imm (by decide)]
  rfl

theorem getLsbD_imm5 (y : BitVec 5) {i : Nat} (hi : i < 64) : (y.signExtend 64).getLsbD i = y.getLsbD (min i 4) := by
  rw [BitVec.getLsbD_signExtend, BitVec.msb_eq_getLsbD_last]
  simp only [hi, decide_true, Bool.true_and]
  split
  · next h => rw [Nat.min_eq_left (by omega)]
  · next h => rw [Nat.min_eq_right (by omega)]

theorem andi_eq (x : Word) (y : BitVec 5) :
    BitVec.ofNat 64 (bitsBelow (fun i => x.getLsbD i && y.getLsbD (min i 4)) 64) = x &&& y.signExtend 64 :=
  ofNat_bits_eq fun i hi => by rw [BitVec.getLsbD_and, getLsbD_imm5 y hi]

theorem ori_eq (x : Word) (y : BitVec 5) :
    BitVec.ofNat 64 (bitsBelow (fun i => x.getLsbD i || y.getLsbD (min i 4)) 64) = x ||| y.signExtend 64 :=
  ofNat_bits_eq fun i hi => by rw [BitVec.getLsbD_or, getLsbD_imm5 y hi]

theorem and_eq (x y : Word) : BitVec.ofNat 64 (bitsBelow (fun i => x.getLsbD i && y.getLsbD i) 64) = x &&& y :=
  ofNat_bits_eq fun _ _ => BitVec.getLsbD_and

theorem or_eq (x y : Word) : BitVec.ofNat 64 (bitsBelow (fun i => x.getLsbD i || y.getLsbD i) 64) = x ||| y :=
  ofNat_bits_eq fun _ _ => BitVec.getLsbD_or

theorem xor_eq (x y : Word) : BitVec.ofNat 64 (bitsBelow (fun i => x.getLsbD i != y.getLsbD i) 64) = x ^^^ y :=
  ofNat_bits_eq fun _ _ => BitVec.getLsbD_xor

theorem andn_eq (x y : Word) : BitVec.ofNat 64 (bitsBelow (fun i => x.getLsbD i && !y.getLsbD i) 64) = x &&& ~~~y :=
  ofNat_bits_eq fun i hi => by rw [BitVec.getLsbD_and, BitVec.getLsbD_not, decide_eq_true hi, Bool.true_and]

theorem shamt_lt (x : Word) : shamt x < 64 := Nat.mod_lt _ (by decide)

/-! The scalar instructions. -/

/-- An issued instruction that writes a register and goes on, its value said otherwise. -/
theorem issue_putS {s : State} (hg : s.guard = true) {lat : Nat} {d : BitVec 5} {v w : Word} (hv : v = w) {body : State → Res}
    (hb : body s = .done (s.putS lat d w)) : s.issue body = .next (s.putS lat d v).retire := by
  rw [State.issue_true hg, hb, hv, Res.finish_done]

theorem always_putS {s : State} {lat : Nat} {d : BitVec 5} {v w : Word} (hv : v = w) {body : State → Res}
    (hb : body s = .done (s.putS lat d w)) : s.always body = .next (s.putS lat d v).retire := by
  rw [State.always, hb, hv, Res.finish_done]

theorem exec_scalar {i : Instr} {s : State} {lat : Nat} {d : BitVec 5} {v : Word} (h : scalarRule i s = some (lat, d, v))
    (hg : guarded i = true → s.guard = true) : exec i s = .next (s.putS lat d v).retire := by
  cases i
  case add f =>
    cases h
    dsimp only [exec]
    exact issue_putS (hg rfl) (ofInt_toInt_add ..) rfl
  case sub f =>
    cases h
    dsimp only [exec]
    exact issue_putS (hg rfl) (ofInt_toInt_sub ..) rfl
  case and f =>
    cases h
    dsimp only [exec]
    exact issue_putS (hg rfl) (and_eq ..) rfl
  case or f =>
    cases h
    dsimp only [exec]
    exact issue_putS (hg rfl) (or_eq ..) rfl
  case xor f =>
    cases h
    dsimp only [exec]
    exact issue_putS (hg rfl) (xor_eq ..) rfl
  case andn f =>
    cases h
    dsimp only [exec]
    exact issue_putS (hg rfl) (andn_eq ..) rfl
  case shl f =>
    cases h
    dsimp only [exec]
    exact issue_putS (hg rfl) (ofNat_shl ..) rfl
  case shr f =>
    cases h
    dsimp only [exec]
    exact issue_putS (hg rfl) (ofNat_shr ..) rfl
  case sra f =>
    cases h
    dsimp only [exec]
    exact issue_putS (hg rfl) (ofInt_sra ..) rfl
  case rotr f =>
    cases h
    dsimp only [exec]
    exact issue_putS (hg rfl) (ofNat_rotr _ (shamt_lt _)) rfl
  case min f =>
    cases h
    dsimp only [exec]
    exact issue_putS (hg rfl) (ofInt_min ..) rfl
  case max f =>
    cases h
    dsimp only [exec]
    exact issue_putS (hg rfl) (ofInt_max ..) rfl
  case minu f =>
    cases h
    dsimp only [exec]
    exact issue_putS (hg rfl) (ofNat_minU ..) rfl
  case maxu f =>
    cases h
    dsimp only [exec]
    exact issue_putS (hg rfl) (ofNat_maxU ..) rfl
  case clz f =>
    cases h
    dsimp only [exec]
    exact issue_putS (hg rfl) (clz_eq _) rfl
  case popc f =>
    cases h
    dsimp only [exec]
    exact issue_putS (hg rfl) ((popcount_eq _).symm) rfl
  case mul f =>
    cases h
    dsimp only [exec]
    exact issue_putS (hg rfl) (ofNat_mul ..) rfl
  case mulh f =>
    cases h
    dsimp only [exec]
    exact issue_putS (hg rfl) (rfl) rfl
  case mulhu f =>
    cases h
    dsimp only [exec]
    exact issue_putS (hg rfl) (rfl) rfl
  case div f =>
    cases h
    dsimp only [exec]
    exact issue_putS (hg rfl) (div_eq ..) rfl
  case divu f =>
    cases h
    dsimp only [exec]
    exact issue_putS (hg rfl) (divu_eq ..) rfl
  case rem f =>
    cases h
    dsimp only [exec]
    exact issue_putS (hg rfl) (rem_eq ..) rfl
  case remu f =>
    cases h
    dsimp only [exec]
    exact issue_putS (hg rfl) (remu_eq ..) rfl
  case addi f =>
    cases h
    dsimp only [exec]
    exact issue_putS (hg rfl) (ofInt_add_imm (by decide) _ _) rfl
  case andi f =>
    cases h
    dsimp only [exec]
    exact issue_putS (hg rfl) (andi_eq ..) rfl
  case ori f =>
    cases h
    dsimp only [exec]
    exact issue_putS (hg rfl) (ori_eq ..) rfl
  case shli f =>
    cases h
    dsimp only [exec]
    exact issue_putS (hg rfl) (ofNat_shl ..) rfl
  case li f =>
    cases h
    dsimp only [exec]
    exact issue_putS (hg rfl) (ofInt_imm (by decide) _) rfl
  case lih f =>
    cases h
    dsimp only [exec]
    exact issue_putS (hg rfl) (lih_eq ..) rfl
  case mov f =>
    cases h
    dsimp only [exec]
    exact issue_putS (hg rfl) (rfl) rfl
  case lea f =>
    cases h
    dsimp only [exec]
    exact issue_putS (hg rfl) (lea_eq ..) rfl
  case fqry f =>
    cases h
    dsimp only [exec]
    exact issue_putS (hg rfl) (rfl) rfl
  case sel f =>
    cases h
    dsimp only [exec]
    exact always_putS (rfl) rfl
  case mov16 a d =>
    cases h
    dsimp only [exec]
    exact always_putS (rfl) rfl
  case add16 a d =>
    cases h
    dsimp only [exec]
    exact always_putS (ofInt_toInt_add ..) rfl
  case addi16 imm d =>
    cases h
    dsimp only [exec]
    exact always_putS (ofInt_add_imm (by decide) _ _) rfl
  all_goals cases h

/-- Settles O9, instruction by instruction, from the values. -/
theorem scalarResults : Obligations.ScalarResults := fun _ _ _ _ _ h hg => exec_scalar h hg

/-! The predicate instructions. -/

theorem getLsbD_spread (b : Bool) {j : Nat} (hj : j < 64) : (spread b).getLsbD j = b := by
  cases b with
  | false => exact BitVec.getLsbD_zero
  | true => exact BitVec.getLsbD_allOnes.trans (decide_eq_true hj)

/-- An issued instruction that writes a predicate and goes on. -/
theorem issue_putP {s : State} (hg : s.guard = true) {d : BitVec 7} {v : BitVec 64} {p : Nat → Bool} {body : State → Res}
    (hb : body s = .done (s.putP 1 d (BitVec.allOnes 64) v))
    (hp : ∀ j, j < 64 → (laneMask s.ctx.strm).getLsbD j = true → v.getLsbD j = p j) :
    ∃ v : BitVec 64, s.issue body = .next (s.putP 1 d (BitVec.allOnes 64) v).retire ∧
      (∀ j, j < 64 → (laneMask s.ctx.strm).getLsbD j = true → v.getLsbD j = p j) ∧
      (s.exposed = false → ∀ m : BitVec 7, (s.putP 1 d (BitVec.allOnes 64) v).getP m =
        if m = d ∧ d ≠ 0 then merge s.str.p[d.toFin] v (laneMask s.ctx.strm) else s.getP m) := by
  refine ⟨v, by rw [State.issue_true hg, hb, Res.finish_done], hp, fun he m => ?_⟩
  rw [State.putP_of_scoreboard he, State.getP_setStr_putP, BitVec.allOnes_and]

theorem decide_toNat_eq (x y : Word) : (x == y) = decide (x.toNat = y.toNat) := by
  rw [decide_eq_decide.2 BitVec.toNat_inj]
  rfl

theorem decide_toInt_eq (x y : Word) : (x == y) = decide (x.toInt = y.toInt) := by
  rw [decide_eq_decide.2 BitVec.toInt_inj]
  rfl

theorem exec_predicate {i : Instr} {s : State} {d : BitVec 7} {p : Nat → Bool} (h : predicateRule i s = some (d, p)) (hg : s.guard = true) :
    ∃ v : BitVec 64, exec i s = .next (s.putP 1 d (BitVec.allOnes 64) v).retire ∧
      (∀ j, j < 64 → (laneMask s.ctx.strm).getLsbD j = true → v.getLsbD j = p j) ∧
      (s.exposed = false → ∀ m : BitVec 7, (s.putP 1 d (BitVec.allOnes 64) v).getP m =
        if m = d ∧ d ≠ 0 then merge s.str.p[d.toFin] v (laneMask s.ctx.strm) else s.getP m) := by
  cases i
  case cmpeq f =>
    cases h
    dsimp only [exec]
    exact issue_putP hg rfl fun j hj _ => (getLsbD_spread _ hj).trans (decide_toNat_eq ..)
  case cmpne f =>
    cases h
    dsimp only [exec]
    exact issue_putP hg rfl fun j hj _ => (getLsbD_spread _ hj).trans (by rw [bne, decide_toNat_eq, decide_not])
  case cmplt f =>
    cases h
    dsimp only [exec]
    exact issue_putP hg rfl fun j hj _ => (getLsbD_spread _ hj).trans (BitVec.slt_eq_decide)
  case cmpltu f =>
    cases h
    dsimp only [exec]
    exact issue_putP hg rfl fun j hj _ => (getLsbD_spread _ hj).trans (BitVec.ult_eq_decide)
  case cmpge f =>
    cases h
    dsimp only [exec]
    exact issue_putP hg rfl fun j hj _ => (getLsbD_spread _ hj).trans (by rw [BitVec.slt_eq_decide, ← decide_not, decide_eq_decide.2 Int.not_lt])
  case cmpgeu f =>
    cases h
    dsimp only [exec]
    exact issue_putP hg rfl fun j hj _ => (getLsbD_spread _ hj).trans (by rw [BitVec.ult_eq_decide, ← decide_not, decide_eq_decide.2 Nat.not_lt])
  case cmpeqi f =>
    cases h
    dsimp only [exec]
    exact issue_putP hg rfl fun j hj _ => (getLsbD_spread _ hj).trans (by rw [decide_toInt_eq, imm5, BitVec.toInt_signExtend_of_le (by decide)])
  case cmplti f =>
    cases h
    dsimp only [exec]
    exact issue_putP hg rfl fun j hj _ => (getLsbD_spread _ hj).trans (by rw [BitVec.slt_eq_decide, imm5, BitVec.toInt_signExtend_of_le (by decide)])
  case plogAnd f =>
    cases h
    dsimp only [exec]
    exact issue_putP hg rfl fun j hj _ => BitVec.getLsbD_and
  case plogOr f =>
    cases h
    dsimp only [exec]
    exact issue_putP hg rfl fun j hj _ => BitVec.getLsbD_or
  case plogXor f =>
    cases h
    dsimp only [exec]
    exact issue_putP hg rfl fun j hj _ => BitVec.getLsbD_xor
  case plogAndn f =>
    cases h
    dsimp only [exec]
    exact issue_putP hg rfl fun j hj _ => by simp only [BitVec.getLsbD_and, BitVec.getLsbD_not, hj, decide_true, Bool.true_and]
  case plogOrn f =>
    cases h
    dsimp only [exec]
    exact issue_putP hg rfl fun j hj _ => by simp only [BitVec.getLsbD_or, BitVec.getLsbD_not, hj, decide_true, Bool.true_and]
  case plogNot f =>
    cases h
    dsimp only [exec]
    exact issue_putP hg rfl fun j hj _ => by simp only [BitVec.getLsbD_not, hj, decide_true, Bool.true_and]
  case plogMov f =>
    cases h
    dsimp only [exec]
    exact issue_putP hg rfl fun j hj _ => rfl
  case plogClr f =>
    cases h
    dsimp only [exec]
    exact issue_putP hg rfl fun j hj _ => BitVec.getLsbD_zero
  case pput f =>
    cases h
    dsimp only [exec]
    exact issue_putP hg rfl fun j hj _ => rfl
  all_goals cases h

/-- The position that PFIRST answers: no true lane stands below it at or above the position from which it looks, and it is a true lane or 64. -/
theorem firstFrom_spec (w : Word) (lo : Nat) :
    (∀ j, lo ≤ j → j < firstFrom w lo → w.getLsbD j = false) ∧
      (firstFrom w lo = 64 ∨ firstFrom w lo < 64 ∧ lo ≤ firstFrom w lo ∧ w.getLsbD (firstFrom w lo) = true) := by
  unfold firstFrom
  cases h : (List.range 64).find? fun i => decide (lo ≤ i) && w.getLsbD i with
  | none =>
    refine ⟨fun j hlo hj => ?_, .inl rfl⟩
    have hn := List.find?_eq_none.1 h j (List.mem_range.2 hj)
    simpa [hlo] using hn
  | some n =>
    rw [List.find?_range_eq_some] at h
    obtain ⟨hn, hlt, hbelow⟩ := h
    obtain ⟨hlo, hbit⟩ := Bool.and_eq_true_iff.1 hn
    refine ⟨fun j hj hjn => ?_, .inr ⟨List.mem_range.1 hlt, of_decide_eq_true hlo, hbit⟩⟩
    simpa [hj] using hbelow j hjn

theorem predicateReads_rule : PredicateReadsRule := by
  intro s f hg
  obtain ⟨hbelow, hat⟩ := firstFrom_spec (s.getP f.pd) (shamt (s.getS (f.b.setWidth 5)))
  refine ⟨?_, ?_, _, ?_, hbelow, hat⟩
  all_goals dsimp only [exec]
  · exact issue_putS hg rfl rfl
  · exact issue_putS hg (popcount_eq _).symm rfl
  · exact issue_putS hg rfl rfl

/-- Settles O10: each writing instruction lane by lane, each reading one by the word of its lanes. -/
theorem predicatesComplete : Obligations.PredicatesComplete :=
  ⟨fun _ _ _ _ h hg => exec_predicate h hg, predicateReads_rule⟩

end Sys2Proof.Machine
end

section
/-! PROOF. The vector instructions over elements (R139, R160, R161, R165 to R173): what a run over elements forms, bit by bit, and then each
instruction by its rule. O11, O12 and O13. -/
namespace Sys2Proof.Machine

/-! A run over the elements below a bound that a predicate enables. -/

theorem overElems_append (w : Nat) (sr : Bool) (op : Nat → Nat → Nat × Flags) (l : List Nat) (e : Nat) (acc : LaneAcc) :
    overElems w sr op (l ++ [e]) acc = overElems w sr op [e] (overElems w sr op l acc) := by
  induction l generalizing acc with
  | nil => rfl
  | cons x t ih => exact ih _

/-- How many elements below e are enabled. -/
def countBelow (p : Nat → Bool) (e : Nat) : Nat := ((List.range e).filter p).length

/-- What an element gives: under the draw of its place among the enabled ones. -/
def elemOut (sr : Bool) (op : Nat → Nat → Nat × Flags) (seed : BitVec 32) (p : Nat → Bool) (e : Nat) : Nat × Flags :=
  op e (drawsFrom sr seed (countBelow p e + 1)).toNat

theorem filter_range_succ (p : Nat → Bool) (n : Nat) :
    (List.range (n + 1)).filter p = if p n then (List.range n).filter p ++ [n] else (List.range n).filter p := by
  rw [List.range_succ, List.filter_append]
  cases h : p n <;> simp [h]

section
variable (w : Nat) (sr : Bool) (op : Nat → Nat → Nat × Flags) (p : Nat → Bool) (seed : BitVec 32)

/-- The run over the enabled elements below n. -/
def runBelow (n : Nat) : LaneAcc := overElems w sr op ((List.range n).filter p) ⟨0, 0, 0, seed⟩

theorem runBelow_succ_of_not {n : Nat} (h : p n = false) : runBelow w sr op p seed (n + 1) = runBelow w sr op p seed n := by
  rw [runBelow, filter_range_succ, h]
  rfl

theorem runBelow_succ {n : Nat} (h : p n = true) :
    runBelow w sr op p seed (n + 1) = overElems w sr op [n] (runBelow w sr op p seed n) := by
  rw [runBelow, filter_range_succ, h, if_pos rfl, overElems_append]
  rfl

theorem drawsFrom_succ (n : Nat) : drawsFrom sr seed (n + 1) = if sr then lfsrDraw (drawsFrom sr seed n) else drawsFrom sr seed n := rfl

theorem runBelow_seed (n : Nat) : (runBelow w sr op p seed n).seed = drawsFrom sr seed (countBelow p n) := by
  induction n with
  | zero => rfl
  | succ n ih =>
    cases h : p n with
    | false => rw [runBelow_succ_of_not _ _ _ _ _ h, ih, countBelow, countBelow, filter_range_succ, h]; rfl
    | true =>
      rw [runBelow_succ _ _ _ _ _ h, countBelow, filter_range_succ, h, if_pos rfl, List.length_append, List.length_singleton, drawsFrom_succ]
      simp only [overElems, ih, countBelow]

/-- One element more: what it adds to value, mask and flags. -/
theorem runBelow_succ_acc {n : Nat} (h : p n = true) :
    let r := runBelow w sr op p seed n
    let x := elemOut sr op seed p n
    (runBelow w sr op p seed (n + 1)).val = r.val ||| BitVec.ofNat 2048 (x.1 % 2 ^ w) <<< (w * n) ∧
    (runBelow w sr op p seed (n + 1)).mask = r.mask ||| BitVec.ofNat 2048 (2 ^ w - 1) <<< (w * n) ∧
    (runBelow w sr op p seed (n + 1)).flags = r.flags ||| x.2 := by
  intro r x
  have hx : op n (if sr then lfsrDraw r.seed else r.seed).toNat = x := by
    simp only [x, r, elemOut, runBelow_seed, drawsFrom_succ]
  rw [runBelow_succ _ _ _ _ _ h]
  simp only [overElems]
  rw [show (runBelow w sr op p seed n) = r from rfl, hx]
  exact ⟨rfl, rfl, rfl⟩

/-- A bit of an element placed at its position. -/
theorem getLsbD_placed {w b n : Nat} (x : Nat) (hb : b < 2048) (hw : 0 < w) :
    (BitVec.ofNat 2048 (x % 2 ^ w) <<< (w * n)).getLsbD b = (decide (b / w = n) && x.testBit (b % w)) := by
  have hdm := Nat.div_add_mod b w
  have hlt := Nat.mod_lt b hw
  rw [BitVec.getLsbD_shiftLeft, BitVec.getLsbD_ofNat, Nat.testBit_mod_two_pow]
  by_cases h : b / w = n
  · subst h
    have hge : ¬ b < w * (b / w) := by omega
    have hsub : b - w * (b / w) = b % w := by omega
    simp [hb, hge, hsub, hlt]
    intro _
    omega
  · by_cases hlo : b < w * n
    · simp [h, hlo]
    · have : ¬ b - w * n < w := by
        intro hc
        exact h (Nat.div_eq_of_lt_le (by rw [Nat.mul_comm]; omega) (by rw [Nat.mul_comm, Nat.mul_add]; omega))
      simp [h, this]

/-- The value formed, bit by bit: of the enabled elements below n, their values modulo 2^w. -/
theorem runBelow_val (hw : 0 < w) (n : Nat) {b : Nat} (hb : b < 2048) :
    (runBelow w sr op p seed n).val.getLsbD b =
      (decide (b / w < n) && p (b / w) && (elemOut sr op seed p (b / w)).1.testBit (b % w)) := by
  induction n with
  | zero => exact BitVec.getLsbD_zero
  | succ n ih =>
    cases h : p n with
    | false =>
      rw [runBelow_succ_of_not _ _ _ _ _ h, ih]
      by_cases hn : b / w = n
      · simp [hn, h]
      · rw [decide_eq_decide.2 (show b / w < n ↔ b / w < n + 1 by omega)]
    | true =>
      rw [(runBelow_succ_acc w sr op p seed h).1, BitVec.getLsbD_or, getLsbD_placed _ hb hw, ih]
      by_cases hn : b / w = n
      · simp [hn, h]
      · rw [decide_eq_false hn, Bool.false_and, Bool.or_false, decide_eq_decide.2 (show b / w < n ↔ b / w < n + 1 by omega)]

/-- The mask formed: the bits of the enabled elements. -/
theorem runBelow_mask (hw : 0 < w) (n : Nat) {b : Nat} (hb : b < 2048) :
    (runBelow w sr op p seed n).mask.getLsbD b = (decide (b / w < n) && p (b / w)) := by
  induction n with
  | zero => exact BitVec.getLsbD_zero
  | succ n ih =>
    cases h : p n with
    | false =>
      rw [runBelow_succ_of_not _ _ _ _ _ h, ih]
      by_cases hn : b / w = n
      · simp [hn, h]
      · rw [decide_eq_decide.2 (show b / w < n ↔ b / w < n + 1 by omega)]
    | true =>
      have hm : (2 ^ w - 1) % 2 ^ w = 2 ^ w - 1 := Nat.mod_eq_of_lt (Nat.sub_lt (Nat.two_pow_pos w) Nat.one_pos)
      rw [(runBelow_succ_acc w sr op p seed h).2.1, BitVec.getLsbD_or, ← hm, getLsbD_placed _ hb hw, ih, Nat.testBit_two_pow_sub_one,
        decide_eq_true (Nat.mod_lt b hw)]
      by_cases hn : b / w = n
      · simp [hn, h]
      · rw [decide_eq_false hn, Bool.false_and, Bool.or_false, decide_eq_decide.2 (show b / w < n ↔ b / w < n + 1 by omega)]

/-- The flags formed: those of all enabled elements. -/
theorem runBelow_flags (n b : Nat) :
    (runBelow w sr op p seed n).flags.getLsbD b = (List.range n).any fun e => p e && (elemOut sr op seed p e).2.getLsbD b := by
  induction n with
  | zero => exact BitVec.getLsbD_zero
  | succ n ih =>
    rw [List.range_succ, List.any_append, ← ih]
    cases h : p n with
    | false => rw [runBelow_succ_of_not _ _ _ _ _ h]; simp [h]
    | true => rw [(runBelow_succ_acc w sr op p seed h).2.2, BitVec.getLsbD_or]; simp [h]

/-- What stands in an element of a register into which the run is merged. -/
theorem velem_merge_runBelow {w : Nat} (hw : 0 < w) (n : Nat) (old : VWord) {e : Nat} (he : w * e + w ≤ 2048) :
    velem (merge old (runBelow w sr op p seed n).val (runBelow w sr op p seed n).mask) w e =
      if decide (e < n) && p e then (elemOut sr op seed p e).1 % 2 ^ w else velem old w e := by
  have hdiv (j : Nat) (hj : j < w) : (w * e + j) / w = e := by rw [Nat.mul_add_div hw, Nat.div_eq_of_lt hj, Nat.add_zero]
  have hmod (j : Nat) (hj : j < w) : (w * e + j) % w = j := by rw [Nat.mul_add_mod, Nat.mod_eq_of_lt hj]
  have hbits (j : Nat) (hj : j < w) : (merge old (runBelow w sr op p seed n).val (runBelow w sr op p seed n).mask).getLsbD (w * e + j) =
      if decide (e < n) && p e then (elemOut sr op seed p e).1.testBit j else old.getLsbD (w * e + j) := by
    have hb : w * e + j < 2048 := by omega
    rw [getLsbD_merge _ _ _ hb, runBelow_mask _ _ _ _ _ hw n hb, runBelow_val _ _ _ _ _ hw n hb, hdiv j hj, hmod j hj]
    split
    · next h => rw [h, Bool.true_and]
    · rfl
  simp only [velem]
  split
  · next h =>
    refine (congrArg BitVec.toNat (BitVec.eq_of_getLsbD_eq fun j hj => ?_)).trans (BitVec.toNat_ofNat (elemOut sr op seed p e).1 w)
    rw [BitVec.getLsbD_extractLsb', BitVec.getLsbD_ofNat, decide_eq_true hj, Bool.true_and, Bool.true_and, hbits j hj, if_pos h]
  · next h =>
    refine congrArg BitVec.toNat (BitVec.eq_of_getLsbD_eq fun j hj => ?_)
    rw [BitVec.getLsbD_extractLsb', BitVec.getLsbD_extractLsb', decide_eq_true hj, Bool.true_and, Bool.true_and, hbits j hj, if_neg h]

end

/-- Only the value modulo 2^w and the flags of an element count. -/
theorem overElems_congr {w : Nat} {op op' : Nat → Nat → Nat × Flags}
    (h : ∀ e r, (op e r).1 % 2 ^ w = (op' e r).1 % 2 ^ w ∧ (op e r).2 = (op' e r).2) (sr : Bool) (es : List Nat) (acc : LaneAcc) :
    overElems w sr op es acc = overElems w sr op' es acc := by
  induction es generalizing acc with
  | nil => rfl
  | cons e t ih =>
    have h1 (r : Nat) := (h e r).1
    have h2 (r : Nat) := (h e r).2
    simp only [overElems, ih, h1, h2]

theorem State.putElems_congr {w : Nat} {op op' : Nat → Nat → Nat × Flags}
    (h : ∀ e r, (op e r).1 % 2 ^ w = (op' e r).1 % 2 ^ w ∧ (op e r).2 = (op' e r).2) (s : State) (lat : Nat) (d : BitVec 5) (sr : Bool)
    (es : List Nat) : s.putElems lat d w sr es op = s.putElems lat d w sr es op' := by
  simp only [State.putElems, overElems_congr h]

/-! The vector instructions. -/

theorem State.vector_of_no_lane {s : State} (h : s.lanes = 0) (types : Nat → Bool) (body : State → Res) :
    s.vector types body = .next s.retire := by
  simp only [State.vector, State.always, h, if_true, Res.finish_done]

theorem State.vector_of_type {s : State} (h : s.lanes ≠ 0) {types : Nat → Bool} (ht : types s.et = false) (body : State → Res) :
    s.vector types body = .next (s.raiseOwn s.ctx.core s.ctx.strm { cause := cILLFIELD, addr := s.me.vtype.setWidth 64 }) := by
  simp only [State.vector, State.always, h, ht, if_false, Bool.not_false, if_true, Res.finish_trap]

theorem State.vector_body {s : State} (h : s.lanes ≠ 0) {types : Nat → Bool} (ht : types s.et = true) (body : State → Res) :
    s.vector types body = (body s).finish s := by
  simp only [State.vector, State.always, h, ht, if_false, Bool.not_true, Bool.false_eq_true]

/-- The write of an element-wise instruction. -/
def ElementRule.put (r : ElementRule) (s : State) : State :=
  s.putElems r.lat r.dest (etWidth s.et) r.draws (laneElems s.lanes (etWidth s.et)) r.val

/-- What an element-wise instruction does on a permitted type with a true lane. -/
def ElementRule.result (r : ElementRule) (i : Instr) (s : State) : Res :=
  if divides i then
    if s.clock < s.me.divFree then .stay s else .done ((r.put s).setMe { (r.put s).me with divFree := s.clock + divideSlots })
  else .done (r.put s)

/-- An instruction that goes through two sources element by element. -/
theorem State.elementwise_form (s : State) (types : Nat → Bool) (lat : Nat) (f : RRR) (rounds : Bool)
    (op : Nat → RMode → Nat → Nat → Nat → Nat × Flags) :
    ∃ body, s.elementwise types lat f rounds op = s.vector types body ∧ body s = .done (ElementRule.put ⟨types, lat, f.d,
      rounds && (etFmt s.et).isSome && s.rm == .sr,
      fun e x => op s.et s.rm x (velem (s.getV f.a) (etWidth s.et) e) (velem (s.getV f.b) (etWidth s.et) e)⟩ s) :=
  ⟨fun s => .done (s.mapElems lat f rounds op), rfl, rfl⟩

/-- One of the divide and square-root unit. -/
theorem State.divided_form (s : State) (f : RRR) (op : Nat → RMode → Nat → Nat → Nat → Nat × Flags) :
    let r : ElementRule := ⟨floatType, 16, f.d, (etFmt s.et).isSome && s.rm == .sr,
      fun e x => op s.et s.rm x (velem (s.getV f.a) (etWidth s.et) e) (velem (s.getV f.b) (etWidth s.et) e)⟩
    ∃ body, s.divided f op = s.vector floatType body ∧ body s =
      if s.clock < s.me.divFree then .stay s else .done ((r.put s).setMe { (r.put s).me with divFree := s.clock + divideSlots }) :=
  ⟨_, rfl, rfl⟩

/-- One with a meaning of its own: `body` stands for it, and only values modulo 2^w count. -/
theorem State.vector_form {s : State} {types : Nat → Bool} {body : State → Res} {lat : Nat} {d : BitVec 5} {op val : Nat → Nat → Nat × Flags}
    {draws : Bool} (hb : body s = .done (s.putElems lat d (etWidth s.et) draws (laneElems s.lanes (etWidth s.et)) op))
    (h : ∀ e x, (op e x).1 % 2 ^ etWidth s.et = (val e x).1 % 2 ^ etWidth s.et ∧ (op e x).2 = (val e x).2) :
    ∃ b, s.vector types body = s.vector types b ∧ b s = .done (ElementRule.put ⟨types, lat, d, draws, val⟩ s) :=
  ⟨body, rfl, hb.trans (congrArg Res.done (State.putElems_congr h s lat d draws _))⟩

/-- An element-wise instruction is a vector instruction of its rule's types. -/
theorem exec_element {i : Instr} {s : State} {r : ElementRule} (h : elementRule i s = some r) :
    ∃ body, exec i s = s.vector r.types body ∧ body s = r.result i s := by
  cases i
  case vadd f =>
    cases h
    dsimp only [exec]
    exact State.elementwise_form s _ _ f _ _
  case vsub f =>
    cases h
    dsimp only [exec]
    exact State.elementwise_form s _ _ f _ _
  case vmul f =>
    cases h
    dsimp only [exec]
    exact State.elementwise_form s _ _ f _ _
  case vmin f =>
    cases h
    dsimp only [exec]
    exact State.elementwise_form s _ _ f _ _
  case vmax f =>
    cases h
    dsimp only [exec]
    exact State.elementwise_form s _ _ f _ _
  case vabs f =>
    cases h
    dsimp only [exec]
    exact State.elementwise_form s _ _ f _ _
  case vneg f =>
    cases h
    dsimp only [exec]
    exact State.elementwise_form s _ _ f _ _
  case vand f =>
    cases h
    dsimp only [exec]
    exact State.elementwise_form s _ _ f _ _
  case vor f =>
    cases h
    dsimp only [exec]
    exact State.elementwise_form s _ _ f _ _
  case vxor f =>
    cases h
    dsimp only [exec]
    exact State.elementwise_form s _ _ f _ _
  case vnot f =>
    cases h
    dsimp only [exec]
    exact State.elementwise_form s _ _ f _ _
  case vshr f =>
    cases h
    dsimp only [exec]
    exact State.elementwise_form s _ _ f _ _
  case vsra f =>
    cases h
    dsimp only [exec]
    exact State.elementwise_form s _ _ f _ _
  case vclz f =>
    cases h
    dsimp only [exec]
    exact State.elementwise_form s _ _ f _ _
  case vmov f =>
    cases h
    dsimp only [exec]
    exact State.elementwise_form s _ _ f _ _
  case vexp2 f =>
    cases h
    dsimp only [exec]
    exact State.elementwise_form s _ _ f _ _
  case vlog2 f =>
    cases h
    dsimp only [exec]
    exact State.elementwise_form s _ _ f _ _
  case vscale f =>
    cases h
    dsimp only [exec]
    exact State.elementwise_form s _ _ f _ _
  case vclass f =>
    cases h
    dsimp only [exec]
    exact State.elementwise_form s _ _ f _ _
  case vdiv f =>
    cases h
    dsimp only [exec]
    exact State.divided_form s f _
  case vsqrt f =>
    cases h
    dsimp only [exec]
    exact State.divided_form s f _
  case vrsq f =>
    cases h
    dsimp only [exec]
    exact State.divided_form s f _
  case vrec f =>
    cases h
    dsimp only [exec]
    exact State.divided_form s f _
  case vshl f =>
    cases h
    dsimp only [exec]
    refine State.vector_form (body := fun s => .done (s.mapElems 2 f false fun et _ _ a b => (elShl (etWidth et) a b, 0))) rfl ?_
    refine fun e x => ⟨?_, rfl⟩
    dsimp only [elShl]
    split
    · rfl
    · exact Nat.mod_mod _ _
  case vfma f =>
    cases h
    dsimp only [exec, execVfma]
    exact State.vector_form rfl fun _ _ => ⟨rfl, rfl⟩
  case vbcast f =>
    cases h
    dsimp only [exec, execVbcast]
    exact State.vector_form rfl fun _ _ => ⟨Nat.mod_mod _ _, rfl⟩
  case vperm f =>
    cases h
    dsimp only [exec, execVperm]
    exact State.vector_form rfl fun _ _ => ⟨rfl, rfl⟩
  case vlane f =>
    cases h
    dsimp only [exec, execVlane]
    exact State.vector_form rfl fun _ _ => ⟨rfl, rfl⟩
  case vslide f =>
    cases h
    dsimp only [exec, execVslide]
    refine State.vector_form rfl fun e x => ?_
    dsimp only
    split
    · exact ⟨rfl, rfl⟩
    · split <;> exact ⟨rfl, rfl⟩
  all_goals cases h

theorem etWidth_cases {et : Nat} (h : et ≤ 10) : etWidth et = 8 ∨ etWidth et = 16 ∨ etWidth et = 32 ∨ etWidth et = 64 := by
  exact (by decide : ∀ n : Fin 11, etWidth n = 8 ∨ etWidth n = 16 ∨ etWidth n = 32 ∨ etWidth n = 64) ⟨et, Nat.lt_succ_of_le h⟩

theorem State.me_setStr (s : State) (t : Strm) : (s.setStr t).me = s.me.setStrm s.ctx.strm t := State.core_setCore ..

/-- The write of an element-wise instruction in a scoreboard block. -/
theorem ElementRule.put_of_scoreboard (r : ElementRule) {s : State} (he : s.exposed = false) :
    let w := etWidth s.et
    let q := runBelow w r.draws r.val (fun e => s.lanes.getLsbD (e * w / 32)) s.str.seed (2048 / w)
    let s1 := s.setStr { s.str with seed := drawsFrom r.draws s.str.seed (enabledBelow s w (2048 / w)) }
    r.put s = s1.setMe { s1.me with v := s.me.v.set r.dest.toFin (merge (s.getV r.dest) q.val q.mask), fflags := s.me.fflags ||| q.flags } := by
  intro w q s1
  have hs1 : s1.exposed = false := by
    rw [State.exposed, State.str_setStr]
    exact he
  have hseed : (runBelow w r.draws r.val (fun e => s.lanes.getLsbD (e * w / 32)) s.str.seed (2048 / w)).seed =
      drawsFrom r.draws s.str.seed (enabledBelow s w (2048 / w)) := runBelow_seed ..
  have hme := State.me_setStr s { s.str with seed := drawsFrom r.draws s.str.seed (enabledBelow s w (2048 / w)) }
  have hput : r.put s = s1.putV r.lat r.dest q.mask q.val q.flags :=
    congrArg (fun x => (s.setStr { s.str with seed := x }).putV r.lat r.dest q.mask q.val q.flags) hseed
  rw [hput, State.putV_of_scoreboard hs1, hme]
  rfl

/-- Settles O11: the rule's instruction, its run over the enabled elements, and what the run leaves in each element. -/
theorem vectorElements : Obligations.VectorElements := by
  intro i s r h hl het ht he w out
  have hw : 0 < w ∧ w * (2048 / w) = 2048 := by
    rcases etWidth_cases het with h | h | h | h <;> simp [w, h]
  obtain ⟨body, hexec, hbody⟩ := exec_element h
  rw [hexec, State.vector_body hl ht, hbody, ElementRule.result]
  refine ⟨fun ⟨hd, hc⟩ => by rw [if_pos hd, if_pos hc, Res.finish_stay], fun hd => ?_⟩
  have hput := r.put_of_scoreboard he
  refine ⟨merge (s.getV r.dest) (runBelow w r.draws r.val (fun e => s.lanes.getLsbD (e * w / 32)) s.str.seed (2048 / w)).val
      (runBelow w r.draws r.val (fun e => s.lanes.getLsbD (e * w / 32)) s.str.seed (2048 / w)).mask,
    s.me.fflags ||| (runBelow w r.draws r.val (fun e => s.lanes.getLsbD (e * w / 32)) s.str.seed (2048 / w)).flags,
    ?_, fun e hlt => ?_, fun b _ => ?_⟩
  · by_cases hdv : divides i = true
    · rw [if_pos hdv, if_neg (Nat.not_lt.2 (hd hdv)), Res.finish_done, hput, State.me_setMe, State.setMe_setMe, if_pos hdv]
      rfl
    · have hdf (t : Strm) : (s.setStr t).me.divFree = s.me.divFree := by rw [State.me_setStr]; rfl
      rw [if_neg hdv, Res.finish_done, hput, if_neg hdv, ← hdf]
  · refine (velem_merge_runBelow r.draws r.val _ s.str.seed hw.1 (2048 / w) (s.getV r.dest) ?_).trans ?_
    · calc w * e + w = w * (e + 1) := by rw [Nat.mul_succ]
        _ ≤ w * (2048 / w) := Nat.mul_le_mul_left w hlt
        _ = 2048 := hw.2
    · rw [decide_eq_true hlt, Bool.true_and]
      rfl
  · rw [BitVec.getLsbD_or, runBelow_flags]
    rfl

/-- Settles O12. -/
theorem vectorTypeAndLanes : Obligations.VectorTypeAndLanes := by
  intro i s types h
  have hv : ∃ body, exec i s = s.vector types body := by
    rcases h with ⟨r, hr, rfl⟩ | ⟨⟨f, rfl | rfl | rfl | rfl⟩, rfl⟩ | ⟨⟨f, rfl⟩, rfl⟩ | ⟨⟨f, rfl | rfl | rfl⟩, rfl⟩ | ⟨⟨f, rfl⟩, rfl⟩
    · obtain ⟨body, hexec, -⟩ := exec_element hr
      exact ⟨body, hexec⟩
    all_goals dsimp only [exec, execVins, execVred, execVscan, execVdot, execVcmpeq, execVcmpne, execVcmplt, execVcmple, execVcmpun, State.vcompare]
    all_goals exact ⟨_, rfl⟩
  obtain ⟨body, hexec⟩ := hv
  rw [hexec]
  exact ⟨fun hl => State.vector_of_no_lane hl types body, fun hl ht => State.vector_of_type hl ht body⟩

/-! The compares. -/

theorem foldl_or_flags (l : List Nat) (g : Nat → Flags) (fl : Flags) (b : Nat) :
    (l.foldl (fun fl e => fl ||| g e) fl).getLsbD b = (fl.getLsbD b || l.any fun e => (g e).getLsbD b) := by
  induction l generalizing fl with
  | nil => simp
  | cons e t ih => rw [List.foldl_cons, ih, BitVec.getLsbD_or, List.any_cons, Bool.or_assoc]

theorem any_filter_range (n : Nat) (p q : Nat → Bool) : ((List.range n).filter p).any q = (List.range n).any fun e => p e && q e :=
  List.any_filter

theorem getLsbD_packed (p : Nat → Bool) {j : Nat} (hj : j < 64) : (BitVec.ofNat 64 (bitsBelow p 64)).getLsbD j = p j := by
  rw [BitVec.getLsbD_ofNat, testBit_bitsBelow p hj, decide_eq_true hj, Bool.true_and]

/-- Settles O13: the five compares are one, whose lanes are packed and whose flags are joined element by element. -/
theorem vectorCompares : Obligations.VectorCompares := by
  intro s f k i hi hl het hun w truth
  have hv : ∃ types, exec i s = s.vcompare types k f ∧ types s.et = true := by
    rcases hi with ⟨rfl, rfl⟩ | ⟨rfl, rfl⟩ | ⟨rfl, rfl⟩ | ⟨rfl, rfl⟩ | ⟨rfl, rfl⟩
    · exact ⟨anyType, rfl, decide_eq_true het⟩
    · exact ⟨anyType, rfl, decide_eq_true het⟩
    · exact ⟨anyType, rfl, decide_eq_true het⟩
    · exact ⟨anyType, rfl, decide_eq_true het⟩
    · exact ⟨floatType, rfl, hun rfl⟩
  obtain ⟨types, hexec, ht⟩ := hv
  let lanes := cmpLanes w s.lanes truth
  let flags := (laneElems s.lanes w).foldl (fun fl e => fl ||| (elCmp k s.et (velem (s.getV f.a) w e) (velem (s.getV f.b) w e)).2) 0
  refine ⟨lanes.1, lanes.2, flags, ?_, fun j hj => ?_, fun j hj _ => ?_, fun b _ => ?_⟩
  · rw [hexec, State.vcompare, State.vector_body hl ht, Res.finish_done]
    rfl
  · exact (getLsbD_packed _ hj).trans (apply_ite _ _ _ _).symm
  · exact getLsbD_packed _ hj
  · dsimp only [flags]
    rw [foldl_or_flags, laneElems, any_filter_range, show (0 : Flags).getLsbD b = false from BitVec.getLsbD_zero, Bool.false_or]

end Sys2Proof.Machine
end

section
/-! PROOF. The moves between vector registers, the conversion, the trees and the dot product (R150, R170, R172, R174 to R177). O14. -/
namespace Sys2Proof.Machine

theorem exec_vsel (s : State) (g : RRR) :
    exec (.vsel g) s = .next (s.putElems 2 g.d (etWidth s.et) false (List.range (2048 / etWidth s.et)) fun e _ =>
      (if s.lanes.getLsbD (e * etWidth s.et / 32) then velem (s.getV g.a) (etWidth s.et) e else velem (s.getV g.b) (etWidth s.et) e, 0)).retire :=
  Res.finish_done s _

theorem vectorMoves_rule : VectorMovesCompleteRule := by
  intro s f g w j src dst mode n
  refine ⟨exec_vsel s g, fun hl het => ?_, fun hg => ?_, fun hl => ?_⟩
  · dsimp only [exec, execVins]
    rw [State.vector_body hl (decide_eq_true het), Res.finish_done]
    rfl
  · dsimp only [exec]
    exact issue_putS hg rfl rfl
  · dsimp only [exec, execVcvt]
    rw [State.always, if_neg hl, Res.finish_done]
    rfl

/-! Elements of what a run has formed. -/

theorem velem_eq_of_bits {w e x : Nat} {v : VWord} (h : ∀ j, j < w → v.getLsbD (w * e + j) = x.testBit j) : velem v w e = x % 2 ^ w := by
  refine (congrArg BitVec.toNat (BitVec.eq_of_getLsbD_eq fun j hj => ?_)).trans (BitVec.toNat_ofNat x w)
  rw [BitVec.getLsbD_extractLsb', BitVec.getLsbD_ofNat, decide_eq_true hj, Bool.true_and, Bool.true_and, h j hj]

section
variable {w : Nat} (sr : Bool) (op : Nat → Nat → Nat × Flags) (p : Nat → Bool) (seed : BitVec 32) (hw : 0 < w) {n e : Nat} (he : e < n)
  (hn : w * n = 2048)
include hw he hn

omit hw in
theorem elem_bit_lt {j : Nat} (hj : j < w) : w * e + j < 2048 := by
  have h : w * (e + 1) ≤ w * n := Nat.mul_le_mul_left w he
  rw [Nat.mul_succ] at h
  omega

theorem velem_runBelow_mask (h : p e = true) : velem (runBelow w sr op p seed n).mask w e = 2 ^ w - 1 := by
  refine (velem_eq_of_bits (x := 2 ^ w - 1) fun j hj => ?_).trans (Nat.mod_eq_of_lt (Nat.sub_lt (Nat.two_pow_pos w) Nat.one_pos))
  rw [runBelow_mask _ _ _ _ _ hw n (elem_bit_lt he hn hj), Nat.mul_add_div hw, Nat.div_eq_of_lt hj, Nat.add_zero, h, decide_eq_true he,
    Nat.testBit_two_pow_sub_one, decide_eq_true hj]
  rfl

theorem velem_runBelow_mask_of_not (h : p e = false) : velem (runBelow w sr op p seed n).mask w e = 0 := by
  refine (velem_eq_of_bits (x := 0) fun j hj => ?_).trans (Nat.zero_mod _)
  rw [runBelow_mask _ _ _ _ _ hw n (elem_bit_lt he hn hj), Nat.mul_add_div hw, Nat.div_eq_of_lt hj, Nat.add_zero, h, Bool.and_false,
    Nat.zero_testBit]

theorem velem_runBelow_val (h : p e = true) : velem (runBelow w sr op p seed n).val w e = (elemOut sr op seed p e).1 % 2 ^ w := by
  refine velem_eq_of_bits fun j hj => ?_
  rw [runBelow_val _ _ _ _ _ hw n (elem_bit_lt he hn hj), Nat.mul_add_div hw, Nat.div_eq_of_lt hj, Nat.add_zero, h, decide_eq_true he,
    Nat.mul_add_mod, Nat.mod_eq_of_lt hj]
  rfl

omit he hn in
/-- A list packed into a register, element after element. -/
theorem getLsbD_pack_list (l : List Nat) (k : Nat) (v : VWord) {b : Nat} (hb : b < 2048) :
    ((l.zipIdx k).foldl (fun (v : VWord) x => v ||| BitVec.ofNat 2048 (x.1 % 2 ^ w) <<< (w * x.2)) v).getLsbD b =
      (v.getLsbD b || (decide (k ≤ b / w) && (l.getD (b / w - k) 0).testBit (b % w))) := by
  induction l generalizing k v with
  | nil => simp
  | cons a t ih =>
    rw [List.zipIdx_cons, List.foldl_cons, ih, BitVec.getLsbD_or, getLsbD_placed _ hb hw, Bool.or_assoc]
    congr 1
    by_cases hk : b / w = k
    · have h1 : ¬ k + 1 ≤ k := Nat.not_succ_le_self k
      simp [hk, h1]
    · by_cases hlt : k + 1 ≤ b / w
      · have h2 : b / w - k = b / w - (k + 1) + 1 := by omega
        have h3 : k ≤ b / w := by omega
        simp [hk, hlt, h2, h3]
      · have h3 : ¬ k ≤ b / w := by omega
        simp [hk, hlt, h3]

theorem velem_pack_list (l : List Nat) :
    velem (l.zipIdx.foldl (fun (v : VWord) x => v ||| BitVec.ofNat 2048 (x.1 % 2 ^ w) <<< (w * x.2)) 0) w e = l.getD e 0 % 2 ^ w := by
  refine velem_eq_of_bits fun j hj => ?_
  rw [getLsbD_pack_list hw l 0 0 (elem_bit_lt he hn hj), Nat.mul_add_div hw, Nat.div_eq_of_lt hj, Nat.add_zero, Nat.mul_add_mod,
    Nat.mod_eq_of_lt hj, show (0 : VWord).getLsbD (w * e + j) = false from BitVec.getLsbD_zero]
  simp

end

theorem filter_range_eq_zero {n : Nat} (hn : 0 < n) : (List.range n).filter (fun e => e == 0) = [0] := by
  obtain ⟨m, rfl⟩ := Nat.exists_eq_succ_of_ne_zero (Nat.ne_of_gt hn)
  rw [List.range_succ_eq_map, List.filter_cons]
  simp

/-- VRED's elements: all of them, or element 0. -/
theorem redElems_eq {n : Nat} (hn : 0 < n) (all : Bool) :
    (if all then List.range n else [0]) = (List.range n).filter fun e => all || e == 0 := by
  cases all with
  | true => exact (if_pos rfl).trans (List.filter_eq_self.2 fun _ _ => rfl).symm
  | false => simp [filter_range_eq_zero hn]

/-- What VDOT gives a 32-bit lane under a draw (R177). -/
def dotLane (s : State) (g : RRR) (e draw : Nat) : Nat × Flags :=
  let w := etWidth s.et
  match etFmt s.et with
  | some h => dotFloat s.rm draw
      ((List.range (32 / w)).map fun j => (h.read (velem (s.getV g.a) w (32 / w * e + j)), h.read (velem (s.getV g.b) w (32 / w * e + j))))
      (f32.read (velem (s.getV g.d) 32 e))
  | none => (codeOf 32 (velem (s.getV g.d) 32 e + ((List.range (32 / w)).map fun j =>
      etInt s.et (velem (s.getV g.a) w (32 / w * e + j)) * etInt s.et (velem (s.getV g.b) w (32 / w * e + j))).sum), 0)

/-- VDOT's run over the lanes. -/
def dotRun (s : State) (g : RRR) : LaneAcc :=
  runBelow 32 ((etFmt s.et).isSome && s.rm == .sr) (dotLane s g) (fun e => s.lanes.getLsbD (e * 32 / 32)) s.str.seed 64

theorem exec_vdot {s : State} (hl : s.lanes ≠ 0) (ht : dotType s.et = true) (g : RRR) :
    exec (.vdot g) s =
      .next ((s.setStr { s.str with seed := (dotRun s g).seed }).arriveV g.d (dotRun s g).mask (dotRun s g).val (dotRun s g).flags).retire := by
  dsimp only [exec, execVdot]
  rw [State.vector_body hl ht]
  simp only [List.map_map, Function.comp_def]
  rfl

theorem vectorTrees_rule : VectorTreesCompleteRule := by
  intro s f g hl het w op sr xs red scan after
  have hw : 0 < w ∧ w * (2048 / w) = 2048 ∧ 0 < 2048 / w := by
    rcases etWidth_cases het with h | h | h | h <;> simp [w, h]
  obtain ⟨hw0, hwn, hn0⟩ := hw
  have hany : anyType s.et = true := decide_eq_true het
  refine ⟨?_, ?_, ?_⟩
  · have hrun : overElems w false (fun _ _ => (red.1.head?.getD 0, 0)) (if f.x.getLsbD 4 then List.range (2048 / w) else [0]) ⟨0, 0, 0, 0⟩ =
        runBelow w false (fun _ _ => (red.1.head?.getD 0, 0)) (fun e => f.x.getLsbD 4 || e == 0) 0 (2048 / w) := by
      rw [redElems_eq hn0]
      rfl
    refine ⟨(runBelow w false (fun _ _ => (red.1.head?.getD 0, 0)) (fun e => f.x.getLsbD 4 || e == 0) 0 (2048 / w)).val,
      (runBelow w false (fun _ _ => (red.1.head?.getD 0, 0)) (fun e => f.x.getLsbD 4 || e == 0) 0 (2048 / w)).mask, ?_, fun e he hp => ?_,
      fun e he h4 hne => ?_⟩
    · dsimp only [exec, execVred]
      rw [State.vector_body hl hany, ← hrun]
      rfl
    · have hp' : (f.x.getLsbD 4 || e == 0) = true := by simpa using hp
      exact ⟨velem_runBelow_mask _ _ _ _ hw0 he hwn hp', velem_runBelow_val _ _ _ _ hw0 he hwn hp'⟩
    · exact velem_runBelow_mask_of_not _ _ _ _ hw0 he hwn (by rw [h4, Bool.false_or]; exact beq_false_of_ne hne)
  · refine ⟨?_, ?_, fun e he => ?_⟩
    · exact (if f.x.getLsbD 4 then redIdentity op s.et :: scan.1.take (2048 / w - 1) else scan.1).zipIdx.foldl
        (fun (v : VWord) x => v ||| BitVec.ofNat 2048 (x.1 % 2 ^ w) <<< (w * x.2)) 0
    · dsimp only [exec, execVscan]
      rw [State.vector_body hl hany]
      rfl
    · rw [velem_pack_list hw0 he hwn]
      congr 1
      cases h4 : f.x.getLsbD 4 with
      | false => simp
      | true =>
        cases e with
        | zero => simp
        | succ e =>
          have hlt : e < 2048 / w - 1 := by omega
          simp [List.getElem?_take, hlt]
  · intro hdot srd lane
    have hlane (e : Nat) : elemOut srd (dotLane s g) s.str.seed (fun e => s.lanes.getLsbD (e * 32 / 32)) e = lane e := rfl
    have h32 (e : Nat) : e * 32 / 32 = e := Nat.mul_div_cancel e (by decide)
    have hseed : (dotRun s g).seed = drawsFrom srd s.str.seed (enabledBelow s 32 64) := runBelow_seed ..
    refine ⟨(dotRun s g).mask, (dotRun s g).val, (dotRun s g).flags, ?_, fun e he hp => ?_, fun e he hp => ?_, fun b _ => ?_⟩
    · rw [exec_vdot hl hdot, hseed]
    · exact velem_runBelow_mask_of_not _ _ _ _ (by decide) he (by decide) (by rw [h32]; exact hp)
    · have hp' : s.lanes.getLsbD (e * 32 / 32) = true := by rw [h32]; exact hp
      exact ⟨velem_runBelow_mask _ _ _ _ (by decide) he (by decide) hp',
        (velem_runBelow_val _ _ _ _ (by decide) he (by decide) hp').trans (by rw [hlane])⟩
    · have hen : (fun e => s.lanes.getLsbD (e * 32 / 32)) = fun e => s.lanes.getLsbD e := funext fun e => by rw [h32]
      rw [dotRun, runBelow_flags]
      refine congrArg (fun q => (List.range 64).any q) (funext fun e => ?_)
      rw [h32, hlane]

/-- Settles O14. -/
theorem vectorMovesAndTreesComplete : Obligations.VectorMovesAndTreesComplete := ⟨vectorMoves_rule, vectorTrees_rule⟩

end Sys2Proof.Machine
end

section
/-! PROOF. How a meaning's body ends under a true guard; the temporal arrays (R261 to R274) and the transfers (R31, R101 to R103,
R113 to R115). O16, O17. -/
namespace Sys2Proof.Machine

/-! Ends of a body. -/

theorem issue_done {s t : State} (hg : s.guard = true) {body : State → Res} (hb : body s = .done t) : s.issue body = .next t.retire := by
  rw [State.issue_true hg, hb, Res.finish_done]
theorem issue_stay {s t : State} (hg : s.guard = true) {body : State → Res} (hb : body s = .stay t) : s.issue body = .next t := by
  rw [State.issue_true hg, hb, Res.finish_stay]
theorem issue_trap {s t : State} (hg : s.guard = true) {body : State → Res} {x : TrapSpec} (hb : body s = .trap t x) :
    s.issue body = .next (t.raiseOwn t.ctx.core t.ctx.strm x) := by rw [State.issue_true hg, hb, Res.finish_trap]
theorem always_done {s t : State} {body : State → Res} (hb : body s = .done t) : s.always body = .next t.retire := by
  rw [State.always, hb, Res.finish_done]

/-! The temporal arrays. -/

/-- An instruction on planes none of which runs acts (R263). -/
theorem State.onPlanes_of_rest {s : State} {named : List Nat} (h : ∀ n ∈ named, (s.me.planeAt n).state.isRunning = false) (act : State → State) :
    s.onPlanes named act = .done (act s) := by
  have hr : (named.any fun n => (s.me.planeAt n).state.isRunning) = false := List.any_eq_false.2 fun n hn => by rw [h n hn]; decide
  rw [State.onPlanes, hr]
  rfl

theorem exec_talnch {s : State} {f : RX} (hg : s.guard = true) (hr : ∀ p ∈ quarterPlanes f, (s.me.planeAt p.1).state = .ready) :
    exec (.talnch f) s = .next (s.setMe ((quarterPlanes f).foldl (fun k p => k.setPlane p.1 { k.planeAt p.1 with
      launch := (s.getV f.a).extractLsb' (512 * p.2) 512, win := s.me.twin.toNat
      state := .running (s.clock + (s.me.twin.toNat + 11) / 4) ((k.planeAt p.1).marks != 0) }) s.me)).retire := by
  have hf : ((quarterPlanes f).filter fun p => (s.me.planeAt p.1).state != .ready) = [] :=
    List.filter_eq_nil_iff.2 fun p hp => by rw [hr p hp]; decide
  dsimp only [exec, execTalnch]
  refine issue_done hg ?_
  rw [hf]
  rfl

theorem exec_tacap {s : State} {f : RX} (hg : s.guard = true)
    (hr : ∀ p ∈ quarterPlanes f, (s.me.planeAt p.1).state ≠ .ready ∧ (s.me.planeAt p.1).inError = false) :
    exec (.tacap f) s = .next (s.setMe { s.me with
      tacaps := s.me.tacaps ++ [⟨f.xf 4 2, f.x.extractLsb' 0 4, f.d, f.b, f.xf 6 1 == 1, s.clock + 1,
        ((quarterPlanes f).filter fun p => !(s.me.planeAt p.1).state.isRunning).map fun p =>
          (p.2, (s.me.planeAt p.1).times, (s.me.planeAt p.1).winners), [],
        s.str.pc, (s.str.mac.map (fun m => m.idx)).getD 0, s.str.mac.isSome, false, s.exposed⟩] }).retire := by
  have hf : (((quarterPlanes f).map (·.1)).filter fun n => (s.me.planeAt n).state == .ready) = [] :=
    List.filter_eq_nil_iff.2 fun n hn => by
      obtain ⟨p, hp, rfl⟩ := List.mem_map.1 hn
      exact fun h => (hr p hp).1 (eq_of_beq h)
  have he : (((quarterPlanes f).map (·.1)).any fun n => (s.me.planeAt n).inError) = false := List.any_eq_false.2 fun n hn => by
    obtain ⟨p, hp, rfl⟩ := List.mem_map.1 hn
    rw [(hr p hp).2]
    decide
  dsimp only [exec, execTacap]
  refine issue_done hg ?_
  rw [hf, he]
  rfl

theorem exec_tawin {s : State} {g : RI} (hg : s.guard = true) (h1 : 1 ≤ (s.getS g.a).toNat + g.imm.toInt)
    (h2 : (s.getS g.a).toNat + g.imm.toInt ≤ 255) :
    exec (.tawin g) s = .next
      ((s.setMe { s.me with twin := BitVec.ofInt 8 ((s.getS g.a).toNat + g.imm.toInt) }).putS 1 g.d (s.me.twin.setWidth 64)).retire := by
  have hc : ¬ ((s.getS g.a).toNat + g.imm.toInt < 1 ∨ 255 < (s.getS g.a).toNat + g.imm.toInt) := by omega
  dsimp only [exec, execTawin]
  refine issue_done hg ?_
  rw [State.setTwin, if_neg hc]

theorem temporal_rule : TemporalCompleteRule := by
  intro s f g h hg ps named namedD namedR
  refine ⟨exec_talnch hg, exec_tacap hg, fun hr => ?_, fun hr => ?_, fun hr => ?_, exec_tawin hg, ?_⟩
  · dsimp only [exec, execTamode]
    exact issue_done hg (State.onPlanes_of_rest hr _)
  · dsimp only [exec, execTadly]
    exact issue_done hg (State.onPlanes_of_rest hr _)
  · dsimp only [exec, execTarst]
    exact issue_done hg (State.onPlanes_of_rest hr _)
  · dsimp only [exec, execTastat]
    exact issue_done hg rfl

theorem planeCaptured_rule : PlaneCapturedRule := by
  intro s c n due e hu hn _ hst hdue htac
  have h : s.ctx.ev.unit < 136 := by rw [hu]; exact c.isLt
  have hc : (⟨s.ctx.ev.unit, h⟩ : CoreId) = c := Fin.ext hu
  dsimp only [exec, execPlaneCapture]
  rw [dif_pos h, hc, hn]
  simp only [hst, if_pos hdue]
  have hk (p : Plane) : ((s.core c).setPlane n p).tacaps = [] := htac
  simp only [hk, Core.captures, List.foldl_nil]
  have hkk (p : Plane) : { (s.core c).setPlane n p with tacaps := [] } = (s.core c).setPlane n p := by
    rw [← hk p]
  rw [hkk]

/-- Settles O16: the planes that an instruction names decide at once whether it acts, and a capture with no TACAP outstanding reaches its
plane alone. -/
theorem temporalArraysComplete : Obligations.TemporalArraysComplete := ⟨temporal_rule, planeCaptured_rule⟩

/-! Transfers. -/

/-- A transfer whose target is checked stands there (R101, R103). -/
theorem jump_finish_ok {s s1 : State} {a : Word} {h : BitVec 32} (ht : s.target s.ctx.core s.ctx.strm a = (s1, .ok h)) (link : State → State) :
    (s.jump a link).finish s = .next ((link s1).transfer a) := by
  rw [State.jump, ht]
  rfl

/-- A transfer whose target fails its check raises ILL_TARGET there (R31). -/
theorem jump_finish_illTarget {s s1 : State} {a : Word} (ht : s.target s.ctx.core s.ctx.strm a = (s1, .error (cILLTARGET, a.toNat)))
    (hx : s1.ctx = s.ctx) (link : State → State) :
    (s.jump a link).finish s = .next (s1.raiseOwn s.ctx.core s.ctx.strm { cause := cILLTARGET, addr := a }) := by
  rw [State.jump, ht]
  simp only [if_true, BitVec.ofNat_toNat, BitVec.setWidth_eq, Res.finish_trap, hx]

/-- The links that transfers make. -/
def linked (s : State) (link : Option (BitVec 5)) (s1 : State) : State :=
  match link with | some d => s1.putS 1 d (linkRule s) | none => s1

theorem rel_eq {w : Nat} (pc : Word) (n : BitVec w) : pc + 2 * n.signExtend 64 = pc + BitVec.ofInt 64 (2 * n.toInt) := by
  rw [BitVec.ofInt_mul]
  rfl

/-- A transfer that is made is the jump to its target with its link. -/
theorem exec_transfer {i : Instr} {s : State} {a : Word} {link : Option (BitVec 5)} (hi : transferRule i s = some (a, link))
    (hg : guarded i = true → s.guard = true) : exec i s = (s.jump a (linked s link)).finish s := by
  cases i
  case br f =>
    cases hi
    dsimp only [exec, execBr]
    rw [State.issue_true (hg rfl), rel_eq]
    rfl
  case br16 imm =>
    cases hi
    dsimp only [exec, execBr16]
    rw [State.always, rel_eq]
    rfl
  case bri f =>
    cases hi
    dsimp only [exec, execBri]
    rw [State.issue_true (hg rfl)]
    rfl
  case call f =>
    cases hi
    dsimp only [exec, execCall, immX]
    rw [State.issue_true (hg rfl), rel_eq]
    rfl
  case ret f =>
    cases hi
    dsimp only [exec, execRet]
    rw [State.issue_true (hg rfl)]
    rfl
  all_goals cases hi

theorem transfers_rule : TransfersCompleteRule := by
  intro i s s1 a link h hi hg ht
  rw [exec_transfer hi hg, jump_finish_ok ht]
  rfl

theorem State.fetch_ctx (s : State) (c : CoreId) (i : StreamId) (va n : Nat) : (s.fetch c i va n).1.ctx = s.ctx := by
  have hx := State.xlate_ctx s (.strm c i) (s.core c).asid.toNat (!isSystem c) .fetch va n
  rw [State.fetch]
  rcases h : s.xlate (.strm c i) (s.core c).asid.toNat (!isSystem c) .fetch va n with ⟨s1, _ | ps⟩
  · rwa [h] at hx
  · rw [h] at hx
    exact (State.mark_ctx ..).trans hx

theorem headerBits_ofNat (n : Nat) : headerBits (BitVec.ofNat 32 n) = (n % 256 == 1) := by
  have h : (BitVec.ofNat 32 n).extractLsb' 0 8 = BitVec.ofNat 8 n := by
    refine BitVec.eq_of_toNat_eq ?_
    simp only [BitVec.extractLsb'_toNat, BitVec.toNat_ofNat, Nat.shiftRight_zero]
    omega
  rw [headerBits, h, Bool.eq_iff_iff, beq_iff_eq, beq_iff_eq, ← BitVec.toNat_inj, BitVec.toNat_ofNat]
  rfl

theorem targetChecked_rule : TargetCheckedRule := by
  intro i s a link hi hg
  refine ⟨fun hodd => ?_, fun s1 bs heven hf hh => ?_⟩
  · rw [exec_transfer hi hg]
    refine jump_finish_illTarget ?_ rfl _
    rw [State.target, if_pos hodd]
  · rw [exec_transfer hi hg]
    refine jump_finish_illTarget ?_ ?_ _
    · have hb : headerBits (BitVec.ofNat 32 (leNat bs)) = false := by rw [headerBits_ofNat]; exact beq_false_of_ne hh
      rw [State.target, if_neg (by rw [heven]; decide), hf]
      simp only [hb]
      rfl
    · have := State.fetch_ctx s s.ctx.core s.ctx.strm a.toNat 4
      rwa [hf] at this

/-- Settles O17: every transfer is the one jump, whose target is checked before it leaves its place. -/
theorem transfersCheckedAndComplete : Obligations.TransfersCheckedAndComplete := ⟨transfers_rule, targetChecked_rule⟩

end Sys2Proof.Machine
end

section
/-! PROOF. The loads and stores: completion, alignment, and what they leave (R275 to R279, R285 to R287, R301, R302). O19, O20, O21. -/
namespace Sys2Proof.Machine

/-! A memory instruction under its guard. -/

theorem issueM_acts {s : State} {f : M} (h : acts s f) (body : State → Res) : s.issueM f body = (body s).finish s := by
  rw [State.issueM]
  cases hv : f.vec with
  | true =>
    rw [acts, if_pos hv] at h
    rw [if_pos rfl, State.always, if_neg h]
  | false =>
    rw [acts, if_neg (by rw [hv]; decide)] at h
    rw [if_neg (by decide), State.issue_true h]

theorem issueM_idle {s : State} {f : M} (h : ¬ acts s f) (body : State → Res) : s.issueM f body = .next s.retire := by
  rw [State.issueM]
  cases hv : f.vec with
  | true =>
    rw [acts, if_pos hv, Classical.not_not] at h
    rw [if_pos rfl, State.always, if_pos h, Res.finish_done]
  | false =>
    rw [acts, if_neg (by rw [hv]; decide), Bool.not_eq_true] at h
    rw [if_neg (by decide), State.issue_false h]

/-- Every load is the one body on its rule's access. -/
theorem exec_load {i : Instr} {s : State} {f : M} {path : Path} {ea : Int} {pz : Bool} {lat : Option Nat}
    (h : loadRule i s = some (f, path, ea, pz, lat)) :
    ∃ body, exec i s = s.issueM f body ∧ body s = State.load f path ea pz lat s := by
  cases i
  case ldl =>
    cases h
    exact ⟨fun s => s.load f (.pad s.ctx.core 0) (s.ea f) false (some 6), rfl, rfl⟩
  case ldc =>
    cases h
    exact ⟨fun s => s.load f (.pad (s.cTarget f).1 1) (s.eaFrom f (s.cTarget f).2) false (some 24), rfl, rfl⟩
  case ldg =>
    cases h
    exact ⟨fun s => s.load f .g (s.ea f) (f.mod.getLsbD 0) none, rfl, rfl⟩
  case ldk =>
    cases h
    exact ⟨fun s => s.load f .k (s.ea f) (f.mod.getLsbD 0) none, rfl, rfl⟩
  case ldh =>
    cases h
    exact ⟨fun s => s.load f (.h (f.mod.getLsbD 2)) (s.ea f) false none, rfl, rfl⟩
  case ldp =>
    cases h
    exact ⟨fun s => s.load f (.p f.mod.toNat) (s.ea f) false none, rfl, rfl⟩
  all_goals cases h

/-- Every store is the one body on its rule's access. -/
theorem exec_store {i : Instr} {s : State} {f : M} {path : Path} {ea : Int} (h : storeRule i s = some (f, path, ea)) :
    ∃ body, exec i s = s.issueM f body ∧ body s = State.store f path ea s := by
  cases i
  case stl =>
    cases h
    exact ⟨fun s => s.store f (.pad s.ctx.core 0) (s.ea f), rfl, rfl⟩
  case stc =>
    cases h
    exact ⟨fun s => s.store f (.pad (s.cTarget f).1 1) (s.eaFrom f (s.cTarget f).2), rfl, rfl⟩
  case stg =>
    cases h
    exact ⟨fun s => s.store f .g (s.ea f), rfl, rfl⟩
  case sth =>
    cases h
    exact ⟨fun s => s.store f (.h false) (s.ea f), rfl, rfl⟩
  case stp =>
    cases h
    exact ⟨fun s => s.store f (.p f.mod.toNat) (s.ea f), rfl, rfl⟩
  all_goals cases h

theorem State.load_ok {s s1 : State} {f : M} {path : Path} {ea : Int} {pz : Bool} {lat : Option Nat} {bs : List Byte}
    (ha : ea % f.align = 0) (hp : s.loadPath path pz (movedRanges s f ea) = .ok s1 bs) :
    State.load f path ea pz lat s = .done (if f.vec then s1.deliverV lat f.d (placeElems f.eb (moved s f) bs).2 (placeElems f.eb (moved s f) bs).1
      else s1.deliverS lat f.d (extendLoad f.ty.toNat bs)) := by
  have ht : s.touched f ea = (moved s f, movedRanges s f ea) := rfl
  simp only [State.load, ht, ha, hp, ne_eq, not_true_eq_false, if_false, Accessed.res]
  split <;> rfl

theorem State.store_ok {s s1 : State} {f : M} {path : Path} {ea : Int} (ha : ea % f.align = 0)
    (hp : s.storePath path (movedRanges s f ea) (s.source f (moved s f)) = .ok s1 []) : State.store f path ea s = .done s1 := by
  have ht : s.touched f ea = (moved s f, movedRanges s f ea) := rfl
  simp only [State.store, ht, ha, hp, ne_eq, not_true_eq_false, if_false, Accessed.res]

theorem loads_rule : LoadsCompleteRule := by
  intro i s s1 f path ea pz lat bs hr hacts ha hp
  obtain ⟨body, he, hb⟩ := exec_load hr
  rw [he, issueM_acts hacts, hb, State.load_ok ha hp, Res.finish_done]

theorem stores_rule : StoresCompleteRule := by
  intro i s s1 f path ea hr hacts ha hp
  obtain ⟨body, he, hb⟩ := exec_store hr
  rw [he, issueM_acts hacts, hb, State.store_ok ha hp, Res.finish_done]

/-- Settles O19: every load and every store is one body over its path. -/
theorem loadsAndStoresComplete : Obligations.LoadsAndStoresComplete := ⟨loads_rule, stores_rule⟩

/-- Settles O20: the alignment is looked at before the access. -/
theorem misalignedTraps : Obligations.MisalignedTraps := by
  intro i s f path ea kind hr
  rcases hr with ⟨⟨pz, lat, hr⟩, rfl⟩ | ⟨hr, rfl⟩
  · obtain ⟨body, he, hb⟩ := exec_load hr
    refine ⟨fun hn => by rw [he, issueM_idle hn], fun hacts ha => ?_⟩
    have ht : State.load f path ea pz lat s = .trap s (spaceFault cALIGN .load path.space ea) := if_pos ha
    rw [he, issueM_acts hacts, hb, ht, Res.finish_trap]
    rfl
  · obtain ⟨body, he, hb⟩ := exec_store hr
    refine ⟨fun hn => by rw [he, issueM_idle hn], fun hacts ha => ?_⟩
    have ht : State.store f path ea s = .trap s (spaceFault cALIGN .store path.space ea) := if_pos ha
    rw [he, issueM_acts hacts, hb, ht, Res.finish_trap]
    rfl

/-! What a store leaves. -/

theorem movedRanges_scalar {s : State} {f : M} (hv : f.vec = false) (ea : Int) : movedRanges s f ea = [(ea, f.eb)] := by
  simp [movedRanges, moved, hv]

theorem source_scalar {s : State} {f : M} (hv : f.vec = false) (es : List Nat) : s.source f es = leBytes (s.getS f.d).toNat f.eb := by
  rw [State.source, hv]
  rfl

theorem length_leBytes (v n : Nat) : (leBytes v n).length = n := by
  induction n generalizing v with
  | zero => rfl
  | succ n ih => rw [leBytes, List.length_cons, ih]

theorem Memory.readN_eq_map (m : Memory) (a n : Nat) : m.readN a n = (List.range n).map fun i => m.read (a + i) := by
  induction n generalizing a with
  | zero => rfl
  | succ n ih =>
    rw [Memory.readN, ih, List.range_succ_eq_map, List.map_cons, List.map_map]
    exact congrArg _ (List.map_congr_left fun i _ => by rw [Function.comp_apply, Nat.succ_eq_add_one]; congr 1; omega)

theorem take_leBytes (v n : Nat) : (leBytes v n).take n = leBytes v n := List.take_of_length_le (Nat.le_of_eq (length_leBytes v n))

theorem joinRanges_single (r : Int × Nat) : joinRanges [r] = [r] := rfl

theorem acts_scalar {s : State} {f : M} (hv : f.vec = false) (hg : s.guard = true) : acts s f := by
  rwa [acts, if_neg (by rw [hv]; decide)]

/-- Bytes just written are read back. -/
theorem Memory.readN_writeN {m : Memory} (h : m.wf = true) (a : Nat) (bs : List Byte) : (m.writeN a bs).readN a bs.length = bs := by
  refine List.ext_getElem (Memory.length_readN ..) fun i hi hb => ?_
  rw [List.getElem_of_eq (Memory.readN_eq_map ..), List.getElem_map, List.getElem_range, Memory.read_writeN_in h a bs i hb]

/-- A range inside a core's own split passes the scratchpad's check (R275). -/
theorem padOk_own {s : State} {a : Int} {n : Nat} (h0 : 0 ≤ a) (h : a + n ≤ (s.me.split * 2 ^ 18 : Nat)) :
    s.padOk s.ctx.core s.ctx.core a n = true := by
  have h2 : a + n ≤ ((s.core s.ctx.core).padSize : Int) := h
  rw [State.padOk, decide_eq_true h0, decide_eq_true h2, beq_self_eq_true]
  rfl

theorem padHeld_of_none {k : Core} (h : k.spcfg = none) (rs : List (Int × Nat)) : k.padHeld rs = false := by
  rw [Core.padHeld, h]

theorem scratchpadAccess_rule : ScratchpadAccessRule := by
  intro s f hv hg h0 ha hsz hcfg
  have hheld (rs : List (Int × Nat)) : (s.core s.ctx.core).padHeld rs = false := padHeld_of_none hcfg rs
  have hfind : ([(s.ea f, f.eb)].find? fun r => !s.padOk s.ctx.core s.ctx.core r.1 r.2) = none := by
    simp [padOk_own h0 hsz]
  refine ⟨fun hpo => ?_, fun hwf => ?_⟩
  · have hbad : (s.core s.ctx.core).padBad s.ctx.core (s.ea f).toNat f.eb = [] := by
      have : (s.core s.ctx.core).spadPoison = [] := hpo
      simp [Core.padBad, this]
    have hread : (s.core s.ctx.core).padRead (s.ea f).toNat f.eb = s.me.spad.readN (s.ea f).toNat f.eb := by
      have : (s.core s.ctx.core).spadPoison = [] := hpo
      rw [Core.padRead, this]
      rfl
    have hp : s.loadPath (.pad s.ctx.core 0) false (movedRanges s f (s.ea f)) = .ok s (s.me.spad.readN (s.ea f).toNat f.eb) := by
      rw [movedRanges_scalar hv]
      simp only [State.loadPath, State.loadPad, joinRanges_single, hheld, hfind, List.flatMap_cons, List.flatMap_nil, List.append_nil,
        hread, hbad, State.consume]
      rfl
    rw [loads_rule (.ldl f) s s f _ _ _ _ _ rfl (acts_scalar hv hg) ha hp, hv]
    rfl
  · have hp : s.storePath (.pad s.ctx.core 0) (movedRanges s f (s.ea f)) (leBytes (s.getS f.d).toNat f.eb) =
        .ok (s.setMe (s.me.padWrite (s.ea f).toNat (leBytes (s.getS f.d).toNat f.eb))) [] := by
      rw [movedRanges_scalar hv]
      simp only [State.storePath, State.storePad, joinRanges_single, hheld, hfind, Core.padWriteAll, take_leBytes]
      rfl
    refine ⟨s.me.padWrite (s.ea f).toNat (leBytes (s.getS f.d).toNat f.eb), ?_, rfl, Memory.wf_writeN hwf _ _, ?_, fun a hout => ?_⟩
    · exact stores_rule (.stl f) s _ f _ _ rfl (acts_scalar hv hg) ha (by rw [hv]; exact hp)
    · have := Memory.readN_writeN hwf (s.ea f).toNat (leBytes (s.getS f.d).toNat f.eb)
      rwa [length_leBytes] at this
    · exact Memory.read_writeN_out hwf _ _ a (by rwa [length_leBytes])

/-! Global stores. -/

theorem State.xlateAll_mem (s : State) (c : CoreId) (i : StreamId) (acc : Acc) (a : Int) (n : Nat) :
    (s.xlateAll c i acc [(a, n)]).1.mem = s.mem := by
  have hx := State.xlate_mem s (.strm c i) (s.core c).asid.toNat (userOf c) acc a n
  unfold State.xlateAll
  split
  · rfl
  · rw [List.foldl_cons, List.foldl_nil]
    dsimp only
    split <;> rename_i h <;> rw [h] at hx <;> exact hx

/-- The mark of a leaf entry keeps the canonical form and reaches the entry's eight bytes alone (R287). -/
theorem State.markLeaf_mem {s : State} (h : s.mem.wf = true) (w : Walker) (acc : Acc) (l : Leaf) :
    (s.markLeaf w acc l).mem.wf = true ∧
      ∀ a, (a < l.entry ∨ l.entry + 8 ≤ a) → (s.markLeaf w acc l).mem.read a = s.mem.read a := by
  unfold State.markLeaf
  dsimp only
  split
  · exact ⟨h, fun _ _ => rfl⟩
  · split
    · exact ⟨h, fun _ _ => rfl⟩
    · exact ⟨Memory.wf_writeN h _ _, fun a ha => Memory.read_writeN_out h _ _ a (by rwa [length_leBytes])⟩

theorem globalStore_rule : GlobalStoreFrameRule := by
  intro s s1 f p hv hg ha hwf hx hlen
  let s2 := s1.markLeaf (.strm s.ctx.core s.ctx.strm) .store p.leaf
  have hm1 : s1.mem = s.mem := by
    have := State.xlateAll_mem s s.ctx.core s.ctx.strm .store (s.ea f) f.eb
    rwa [hx] at this
  obtain ⟨hwf2, hout2⟩ := State.markLeaf_mem (s := s1) (by rwa [hm1]) (.strm s.ctx.core s.ctx.strm) .store p.leaf
  obtain ⟨m, po, u, g, n, l, hfr⟩ := State.markLeaf_frame s1 (.strm s.ctx.core s.ctx.strm) .store p.leaf
  have hp : s.storePath .g (movedRanges s f (s.ea f)) (leBytes (s.getS f.d).toNat f.eb) =
      .ok (s2.pwriteN (s.core s.ctx.core).jobid p.pa (leBytes (s.getS f.d).toNat f.eb)) [] := by
    rw [movedRanges_scalar hv]
    simp only [State.storePath, State.storeRanges, joinRanges_single, hx, State.mark, List.foldl_cons, List.foldl_nil, State.writePieces, hlen,
      take_leBytes, s2]
  refine ⟨_, stores_rule (.stg f) s _ f _ _ rfl (acts_scalar hv hg) ha (by rw [hv]; exact hp), Memory.wf_writeN hwf2 _ _, ?_,
    fun a hpa hentry => ?_, ?_⟩
  · have := Memory.readN_writeN hwf2 p.pa (leBytes (s.getS f.d).toNat f.eb)
    rwa [length_leBytes] at this
  · exact (Memory.read_writeN_out hwf2 _ _ a (by rwa [length_leBytes])).trans ((hout2 a hentry).trans (by rw [hm1]))
  · simp only [s2, hfr]
    rfl

/-! The multicast store. -/

theorem mstcBad_none {s : State} {members : List Nat} {rs : List (Int × Nat)}
    (h : ∀ k ∈ members, ∀ r ∈ rs, s.padOk s.ctx.core ⟨(8 * clusterOf s.ctx.core + k) % 136, by omega⟩ r.1 r.2 = true) :
    s.mstcBad members rs = none := by
  rw [State.mstcBad, List.findSome?_eq_none_iff]
  intro k hk
  rw [Option.map_eq_none_iff, List.find?_eq_none]
  intro r hr
  rw [h k hk r hr]
  decide

/-- A write to a scratchpad changes its bytes and their poison alone. -/
theorem padWriteAll_frame (rs : List (Int × Nat)) (k : Core) (bs : List Byte) :
    ∃ m p, k.padWriteAll rs bs = { k with spad := m, spadPoison := p } := by
  induction rs generalizing k bs with
  | nil => exact ⟨k.spad, k.spadPoison, rfl⟩
  | cons r rs ih =>
    obtain ⟨m, p, h⟩ := ih (k.padWrite r.1.toNat (bs.take r.2)) (bs.drop r.2)
    exact ⟨m, p, h⟩

/-- What a store takes from the registers does not change with a scratchpad. -/
theorem source_setCore_pad (s : State) (c : CoreId) (m : Memory) (p : List Nat) (f : M) :
    (s.setCore c { s.core c with spad := m, spadPoison := p }).source f (moved (s.setCore c { s.core c with spad := m, spadPoison := p }) f) =
      s.source f (moved s f) := by
  by_cases hc : c = s.ctx.core
  · subst hc
    have hme : (s.setCore s.ctx.core { s.core s.ctx.core with spad := m, spadPoison := p }).me = { s.me with spad := m, spadPoison := p } :=
      State.core_setCore ..
    simp only [State.source, moved, State.getV, State.getS, State.lanes, State.getP, State.str, hme]
    rfl
  · have hme : (s.setCore c { s.core c with spad := m, spadPoison := p }).me = s.me := State.core_setCore_of_ne _ _ _ _ hc
    simp only [State.source, moved, State.getV, State.getS, State.lanes, State.getP, State.str, hme]
    rfl

theorem foldl_padWriteAll_source (core : Nat → CoreId) (rs : List (Int × Nat)) (f : M) (bs : List Byte) (ks : List Nat) (s : State)
    (h : s.source f (moved s f) = bs) :
    ks.foldl (fun s k => s.setCore (core k) ((s.core (core k)).padWriteAll rs bs)) s =
      ks.foldl (fun s k => s.setCore (core k) ((s.core (core k)).padWriteAll rs (s.source f (moved s f)))) s := by
  induction ks generalizing s with
  | nil => rfl
  | cons k ks ih =>
    rw [List.foldl_cons, List.foldl_cons, h]
    refine ih _ ?_
    obtain ⟨m, p, hw⟩ := padWriteAll_frame rs (s.core (core k)) bs
    rw [hw, source_setCore_pad, h]

theorem multicastStore_rule : MulticastStoreCompleteRule := by
  intro s f hacts ea core members rs
  refine ⟨fun hm => ?_, fun ha hk => ?_⟩
  · have he : (((List.range 8).filter fun k => (s.getS f.b).getLsbD k).isEmpty) = true := List.isEmpty_iff.2 hm
    dsimp only [exec, execMstc]
    rw [issueM_acts hacts]
    simp only [he, if_true, Res.finish_done]
  · have ht : s.touched f ea = (moved s f, movedRanges s f ea) := rfl
    have hheld : (members.any fun k => (s.core (core k)).padHeld (movedRanges s f ea)) = false :=
      List.any_eq_false.2 fun k h => by rw [padHeld_of_none (hk k h).1]; decide
    have hbad : s.mstcBad members (joinRanges (movedRanges s f ea)) = none := mstcBad_none fun k h => (hk k h).2
    dsimp only [exec, execMstc]
    rw [issueM_acts hacts]
    cases hm : members.isEmpty with
    | true =>
      rw [if_pos rfl, List.isEmpty_iff.1 hm]
      rfl
    | false =>
      rw [if_neg (by decide), if_neg (Classical.not_not.2 ha),
        ht, if_neg (by rw [show _ = false from hheld]; decide), show s.mstcBad _ _ = none from hbad]
      exact congrArg (fun t => Host.Outcome.next t.retire) (foldl_padWriteAll_source core rs f _ members s rfl)

/-- Settles O21: a store is its path's write of the one range, and what such a write leaves is memory's. -/
theorem storesReachTheirBytes : Obligations.StoresReachTheirBytes := ⟨scratchpadAccess_rule, globalStore_rule, multicastStore_rule⟩

end Sys2Proof.Machine
end

section
/-! PROOF. Queue loads, gather and scatter, and the maintenance instructions (R279, R280, R291, R292, R299, R303 to R308). O22, O23, O24. -/
namespace Sys2Proof.Machine

/-! Queue loads. -/

/-- A queue that the stream fills and that has room lets its load go on (R291, R343). -/
theorem State.queueRoom_ok {s : State} {n : Nat} (hp : (s.me.queueAt n).prod = some s.ctx.strm)
    (hr : (s.me.queueAt n).entries.length < (if n < 8 then 16 else 4)) (go : State → Res) : s.queueRoom n go = go s := by
  have hd : ¬ queueDepth n ≤ (s.me.queueAt n).entries.length := Nat.not_le.2 hr
  simp only [State.queueRoom, hp, ne_eq, not_true_eq_false, if_false, if_neg hd]

theorem entryValue_eq (f : M) (bs : List Byte) :
    (if f.ty = 14 then BitVec.ofNat 2048 (leNat bs) else (extendLoad f.ty.toNat bs).setWidth 2048) = entryValue f bs := by
  simp only [entryValue, beq_iff_eq]

theorem Core.queueAt_setQueue_of_ne {k : Core} {a b : Nat} (h : a ≠ b) (q : Queue) : (k.setQueue a q).queueAt b = k.queueAt b := by
  simp only [Core.queueAt, Core.setQueue, Vector.toList_setIfInBounds, List.getElem?_set_ne h]

theorem State.takeHead_arrived {s : State} {n : Nat} {pop : Bool} {e : QEntry} {rest : List QEntry}
    (hc : (s.me.queueAt n).cons = some s.ctx.strm) (hq : (s.me.queueAt n).entries = e :: rest) (ha : e.arrived = true)
    (go : State → Queue → VWord → Res) : s.takeHead n pop go = go s { s.me.queueAt n with entries := rest } e.val := by
  simp only [State.takeHead, hc, hq, ha, ne_eq, not_true_eq_false, if_false, if_true]

theorem State.standing_of_none {s : State} (h : s.str.wait = none) (kind : WaitKind) : s.standing kind = none := by
  rw [State.standing, h]

theorem State.gathLoad_ok {s s1 : State} {f : M} {idx : Word} {bs : List Byte} (hp : (s.me.queueAt f.cnt.toNat).prod = some s.ctx.strm)
    (hr : (s.me.queueAt f.cnt.toNat).entries.length < (if f.cnt.toNat < 8 then 16 else 4))
    (ha : ((s.getS f.a).toNat + (idx.toNat * 2 ^ f.sc.toNat : Nat) + f.off.toInt + s.ctx.incOff : Int) % f.align = 0)
    (hl : (s.setStr { s.str with wait := none }).loadG s.ctx.core s.ctx.strm (f.mod.getLsbD 0)
      ((s.getS f.a).toNat + (idx.toNat * 2 ^ f.sc.toNat : Nat) + f.off.toInt + s.ctx.incOff) f.qbytes = .ok s1 bs) :
    s.gathLoad f idx = .done (s1.reserve f.cnt.toNat (entryValue f bs)) := by
  have hd : ¬ queueDepth f.cnt.toNat ≤ (s.me.queueAt f.cnt.toNat).entries.length := Nat.not_le.2 hr
  have hl' : (s.setStr { s.str with wait := none }).loadG (s.setStr { s.str with wait := none }).ctx.core
      (s.setStr { s.str with wait := none }).ctx.strm (f.mod.getLsbD 0)
      ((s.getS f.a).toNat + (idx.toNat * 2 ^ f.sc.toNat : Nat) + f.off.toInt + s.ctx.incOff) f.qbytes = .ok s1 bs := hl
  simp only [State.gathLoad, hp, ne_eq, not_true_eq_false, if_false, if_neg hd, ha, hl']

/-- The arrival reaches the first entry whose data has not come. -/
theorem arrive_append {s : State} {old rest : List QEntry} {e : QEntry} (ho : ∀ x ∈ old, x.arrived = true) (he : e.arrived = false)
    (hd : e.due ≤ s.clock) :
    execQueueLoadArrival.arrive s (old ++ e :: rest) = old ++ { e with arrived := true } :: rest := by
  induction old with
  | nil => simp only [List.nil_append, execQueueLoadArrival.arrive, he, Bool.false_eq_true, if_false, if_pos hd]
  | cons x old ih =>
    obtain ⟨hx, hold⟩ := List.forall_mem_cons.1 ho
    simp only [List.cons_append, execQueueLoadArrival.arrive, hx, if_true, ih hold]

theorem exec_gathq {s s1 : State} {f : M} {bs : List Byte} {e : QEntry} {rest : List QEntry} (hg : s.guard = true)
    (hp : (s.me.queueAt f.cnt.toNat).prod = some s.ctx.strm)
    (hr : (s.me.queueAt f.cnt.toNat).entries.length < (if f.cnt.toNat < 8 then 16 else 4)) (hne : f.b.toNat ≠ f.cnt.toNat)
    (hw : s.str.wait = none) (hc : (s.me.queueAt f.b.toNat).cons = some s.ctx.strm) (hq : (s.me.queueAt f.b.toNat).entries = e :: rest)
    (harr : e.arrived = true) :
    let popped := s.setMe ((s.me.setQueue f.b.toNat { s.me.queueAt f.b.toNat with entries := rest }).popLocks f.b.toNat)
    let ea : Int := (s.getS f.a).toNat + ((e.val.setWidth 64).toNat * 2 ^ f.sc.toNat : Nat) + f.off.toInt + s.ctx.incOff
    ea % f.align = 0 →
    (popped.setStr { popped.str with wait := none }).loadG s.ctx.core s.ctx.strm (f.mod.getLsbD 0) ea f.qbytes = .ok s1 bs →
    exec (.gathq f) s = .next (s1.reserve f.cnt.toNat (entryValue f bs)).retire := by
  intro popped ea ha hl
  have hme : popped.me = (s.me.setQueue f.b.toNat { s.me.queueAt f.b.toNat with entries := rest }).popLocks f.b.toNat := State.me_setMe ..
  have hqa : popped.me.queueAt f.cnt.toNat = s.me.queueAt f.cnt.toNat := by
    rw [hme]
    exact Core.queueAt_setQueue_of_ne hne _
  have hs : popped.getS f.a = s.getS f.a := by
    rw [State.getS, State.getS, State.str_setMe]
    rfl
  dsimp only [exec, execGathq]
  refine issue_done hg ?_
  rw [State.standing_of_none hw]
  refine (State.takeHead_arrived hc hq harr _).trans ?_
  refine State.gathLoad_ok (s := popped) (by rw [hqa]; exact hp) (by rw [hqa]; exact hr) ?_ ?_
  · rw [hs]; exact ha
  · rw [hs]; exact hl

/-- Settles O22: with room, a queue load is its load and the entry that it reserves. -/
theorem queueLoadsComplete : Obligations.QueueLoadsComplete := by
  intro s f n filled room value
  have hval (bs : List Byte) : value bs = entryValue f bs := entryValue_eq f bs
  refine ⟨fun s1 bs hr ha hl hlk => ?_, fun s1 bs hr ha hl hlk hlines => ?_, fun s1 bs hr ha hl => ?_,
    fun s1 bs e rest hr hne hw hc _ _ hq harr => ?_, fun c q old e rest hu hsub hq ho he hd => ?_⟩
  · obtain ⟨hg, hprod, hroom⟩ := hr
    dsimp only [exec, execLdgq]
    refine issue_done hg ((State.queueRoom_ok hprod hroom _).trans ?_)
    rw [if_neg (Classical.not_not.2 ha), hl, hval]
    simp only [Accessed.res, hlk, Bool.not_false, if_true]
    rfl
  · obtain ⟨hg, hprod, hroom⟩ := hr
    dsimp only [exec, execLdgq]
    refine issue_done hg ((State.queueRoom_ok hprod hroom _).trans ?_)
    rw [if_neg (Classical.not_not.2 ha), hl, hval]
    simp only [Accessed.res, hlk, Bool.not_true, Bool.false_eq_true, if_false, if_neg (Nat.not_lt.2 hlines)]
    rfl
  · obtain ⟨hg, hprod, hroom⟩ := hr
    dsimp only [exec, execLdkq]
    refine issue_done hg ((State.queueRoom_ok hprod hroom _).trans ?_)
    simp only [beq_iff_eq]
    rw [if_neg (Classical.not_not.2 ha), hl, hval]
    rfl
  · obtain ⟨hg, hprod, hroom⟩ := hr
    rw [hval]
    exact exec_gathq hg hprod hroom hne hw hc hq harr
  · have h : s.ctx.ev.unit < 136 := by rw [hu]; exact c.isLt
    have hcc : (⟨s.ctx.ev.unit, h⟩ : CoreId) = c := Fin.ext hu
    dsimp only [exec, execQueueLoadArrival]
    rw [dif_pos h, hcc, hsub, hq, arrive_append ho he hd]

/-! Gather and scatter. -/

/-- Settles O23: the elements are checked before any is read or stored. -/
theorem gatherScatterComplete : Obligations.GatherScatterComplete := by
  intro s f elems
  refine ⟨fun hl => ⟨?_, ?_⟩, fun s1 s2 s3 ps bs hl hck hseen hcons => ?_, fun s1 ps hl hck => ?_⟩
  · dsimp only [exec, execVgath]
    exact always_done (if_pos hl)
  · dsimp only [exec, execVscat]
    exact always_done (if_pos hl)
  · have hga : s.gathAddrs f = elems := rfl
    dsimp only [exec, execVgath]
    refine always_done ?_
    simp only [if_neg hl, hga, hck, hseen, hcons]
  · have hga : s.gathAddrs f = elems := rfl
    dsimp only [exec, execVscat]
    refine always_done ?_
    simp only [if_neg hl, hga, hck]

/-! Maintenance. -/

theorem State.setMe_me (s : State) : s.setMe s.me = s := by
  have h : s.cores.set s.ctx.core.val (s.cores[s.ctx.core.val]) = s.cores := Vector.set_getElem_self _
  rw [State.setMe, State.setCore]
  exact congrArg (fun v => { s with cores := v }) h


theorem State.maintPieces_empty {s : State} {f : M} (h : (s.getS f.b).toNat = 0) (go : State → List Piece → Res) :
    s.maintPieces f go = go s [] := if_pos h
theorem State.maintPieces_ok {s s1 : State} {f : M} {ps : List Piece} (h : (s.getS f.b).toNat ≠ 0)
    (hx : s.xlate s.walker s.me.asid.toNat (userOf s.ctx.core) .load ((s.getS f.a).toNat + f.off.toInt + s.ctx.incOff) (s.getS f.b).toNat =
      (s1, .ok ps)) (go : State → List Piece → Res) : s.maintPieces f go = go (s1.mark s.walker .load ps) ps := by
  have hr : s.lineRange f = ((s.getS f.a).toNat + f.off.toInt + s.ctx.incOff, (s.getS f.b).toNat) := rfl
  simp only [State.maintPieces, hr, if_neg h, hx]

theorem State.hostRange_all {s : State} {f : M} (h : f.all = true) (acc : Acc) (go : Int → Int → Res) :
    s.hostRange f acc go = go 0 ((2 : Int) ^ 48) := if_pos h
theorem State.hostRange_empty {s : State} {f : M} (ha : f.all = false) (h : (s.getS f.b).toNat = 0) (acc : Acc) (go : Int → Int → Res) :
    s.hostRange f acc go = .done s := by
  have hr : s.lineRange f = ((s.getS f.a).toNat + f.off.toInt + s.ctx.incOff, (s.getS f.b).toNat) := rfl
  simp only [State.hostRange, ha, hr, h, Bool.false_eq_true, if_false, if_true]
theorem State.hostRange_ok {s : State} {f : M} {ea : Int} (ha : f.all = false) (he : ea = (s.getS f.a).toNat + f.off.toInt + s.ctx.incOff)
    (h : (s.getS f.b).toNat ≠ 0) (h0 : 0 ≤ ea) (h1 : ea + (s.getS f.b).toNat ≤ 2 ^ 48) (acc : Acc) (go : Int → Int → Res) :
    s.hostRange f acc go = go (ea / 64 * 64) ((ea + (s.getS f.b).toNat + 63) / 64 * 64) := by
  have hr : s.lineRange f = (ea, (s.getS f.b).toNat) := by rw [he]; rfl
  have ho : Machine.outside (ea, (s.getS f.b).toNat) = false := by
    simp only [Machine.outside, Bool.or_eq_false_iff, decide_eq_false_iff_not]
    omega
  simp only [State.hostRange, ha, hr, h, ho, Bool.false_eq_true, if_false]

/-- With no fault of the picked kind the body runs. -/
theorem State.raisePending_none {s : State} {sel : PendFault → Bool} (h : ∀ x ∈ s.str.faults, sel x = false) (body : State → Res) :
    s.raisePending sel body = body s := by
  have hf : s.str.faults.filter sel = [] := List.filter_eq_nil_iff.2 fun x hx => by rw [h x hx]; decide
  rw [State.raisePending, hf]
  rfl

/-- HFLSH over its range (R307). -/
theorem exec_hflsh {s : State} {f : M} {lo hi : Int} (hg : s.guard = true)
    (hr : ∀ go : Int → Int → Res, s.hostRange f .store go = go lo hi)
    (hq : ∀ x ∈ (s.flushHost s.ctx.core s.ctx.strm lo hi).str.faults, x.cause ≠ cHOSTERR) :
    exec (.hflsh f) s = .next (s.flushHost s.ctx.core s.ctx.strm lo hi).retire := by
  dsimp only [exec, execHflsh]
  refine issue_done hg ((hr _).trans (State.raisePending_none (fun x hx => ?_) _))
  rw [beq_false_of_ne (hq x hx), Bool.false_and, Bool.false_and]

theorem exec_hinv {s : State} {f : M} {lo hi : Int} (hg : s.guard = true)
    (hr : ∀ go : Int → Int → Res, s.hostRange f .load go = go lo hi) :
    exec (.hinv f) s = .next (s.setMe { s.me with
      hostCopies := s.me.hostCopies.filter fun x => !(decide (lo ≤ (x.1 : Int)) && decide ((x.1 : Int) < hi)) }).retire := by
  dsimp only [exec, execHinv]
  exact issue_done hg (hr _)

theorem exec_spcfg {s : State} {f : M} (hg : s.guard = true) (h6 : (s.getS f.a).toNat ≤ 6) (hfr : s.me.frame ≤ (s.getS f.a).toNat * 2 ^ 18)
    (hc : s.me.padCopies (min (s.getS f.a).toNat s.me.split * 2 ^ 18) (max (s.getS f.a).toNat s.me.split * 2 ^ 18) = false)
    (hs : s.padSends s.ctx.core (min (s.getS f.a).toNat s.me.split * 2 ^ 18) (max (s.getS f.a).toNat s.me.split * 2 ^ 18) = false)
    (hl : s.l1Locked s.ctx.core = false) :
    exec (.spcfg f) s =
      .next ((s.setMe (s.me.newSplit (s.getS f.a).toNat)).arriveS f.d (BitVec.ofNat 64 s.me.split)).retire := by
  have hf : ¬ (6 < (s.getS f.a).toNat ∨ (s.getS f.a).toNat * 2 ^ 18 < s.me.frame) := by omega
  dsimp only [exec, execSpcfg]
  refine issue_done hg ?_
  simp only [if_neg hf, hc, hs, hl, Bool.or_false, Bool.and_false, Bool.false_eq_true, if_false]

/-- Settles O24: each acts on its range, which is all, the translated pieces, or nothing. -/
theorem maintenanceCompletes : Obligations.MaintenanceCompletes := by
  intro s f hg ea
  refine ⟨?_, fun ha => ⟨?_, ?_, ?_, exec_hinv hg (State.hostRange_all ha .load), exec_hflsh hg (State.hostRange_all ha .store)⟩,
    fun s1 ps ha hn hx => ⟨?_, ?_, ?_⟩, fun ha hn => ⟨?_, ?_, ?_, ?_, ?_⟩,
    fun ha hn h0 h1 => ⟨exec_hinv hg (State.hostRange_ok ha rfl hn h0 h1 .load), exec_hflsh hg (State.hostRange_ok ha rfl hn h0 h1 .store)⟩,
    fun h6 hfr hc hs hl => ⟨_, exec_spcfg hg h6 hfr hc hs hl, rfl, fun a => ?_⟩⟩
  · dsimp only [exec, execPfg]
    exact issue_done hg rfl
  · dsimp only [exec, execCinv]
    exact issue_done hg (if_pos ha)
  · dsimp only [exec, execCflsh]
    exact issue_done hg (if_pos ha)
  · dsimp only [exec, execClkr]
    exact issue_done hg (if_pos ha)
  · dsimp only [exec, execCinv]
    refine issue_done hg ?_
    rw [ha, if_neg (by decide), State.maintPieces_ok hn hx]
  · dsimp only [exec, execCflsh]
    refine issue_done hg ?_
    rw [ha, if_neg (by decide), State.maintPieces_ok hn hx]
  · dsimp only [exec, execClkr]
    refine issue_done hg ?_
    rw [ha, if_neg (by decide), State.maintPieces_ok hn hx]
  · dsimp only [exec, execCinv]
    refine issue_done hg ?_
    rw [ha, if_neg (by decide), State.maintPieces_empty hn]
    exact congrArg Res.done (State.setMe_me s)
  · dsimp only [exec, execCflsh]
    refine issue_done hg ?_
    rw [ha, if_neg (by decide), State.maintPieces_empty hn]
  · dsimp only [exec, execClkr]
    refine issue_done hg ?_
    rw [ha, if_neg (by decide), State.maintPieces_empty hn]
    have hfil : (s.me.locked.filter fun x => !(([] : List Piece).any fun p => p.pa / 64 * 64 ≤ x.line && x.line < p.pa + p.len)) = s.me.locked :=
      List.filter_eq_self.2 fun _ _ => rfl
    rw [hfil]
    exact congrArg Res.done (State.setMe_me s)
  · dsimp only [exec, execHflsh]
    exact issue_done hg (State.hostRange_empty ha hn _ _)
  · dsimp only [exec, execHinv]
    exact issue_done hg (State.hostRange_empty ha hn _ _)
  · have hlo : min (s.getS f.a).toNat s.me.split * 2 ^ 18 + (6 * 2 ^ 18 - min (s.getS f.a).toNat s.me.split * 2 ^ 18) = 6 * 2 ^ 18 := by omega
    rw [Core.newSplit]
    exact (Memory.read_clear ..).trans (by rw [hlo])

end Sys2Proof.Machine
end

section
/-! PROOF. Atomics and reductions to memory (R275, R279, R320 to R322). O25. -/
namespace Sys2Proof.Machine

theorem Accessed.res_ok {x : Accessed} {s1 : State} {bs : List Byte} (h : x = .ok s1 bs) (go : State → List Byte → Res) : x.res go = go s1 bs := by
  rw [h]
  rfl

/-! The scalar atomics. -/

theorem State.atomic_ok {s s1 : State} {sp : BitVec 2} {f : M} {op : Nat → Nat → Nat → Nat → Option Nat} {old : List Byte} (hg : s.guard = true)
    (ha : s.atoms sp f [⟨s.atomEa sp f, fun old => op (8 * elemBytes f.ty.toNat) old ((s.getS f.b).toNat % 2 ^ (8 * elemBytes f.ty.toNat))
      ((s.getS f.d).toNat % 2 ^ (8 * elemBytes f.ty.toNat))⟩] = .ok s1 old) :
    s.atomic sp f op = .next (s1.arriveS f.d (extendLoad f.ty.toNat old)).retire := by
  rw [State.atomic]
  exact issue_done hg (Accessed.res_ok ha _)

/-- Each scalar atomic is the one meaning with its rule's operation. -/
theorem exec_atomic {i : Instr} {sp : BitVec 2} {f : M} {op : Nat → Nat → Nat → Nat → Option Nat} (h : atomRule i = some (sp, f, op)) (s : State) :
    exec i s = s.atomic sp f op := by
  cases i
  case aadd => cases h; rfl
  case afadd => cases h; rfl
  case amin => cases h; rfl
  case amax => cases h; rfl
  case aand => cases h; rfl
  case aor => cases h; rfl
  case axor => cases h; rfl
  case axchg => cases h; rfl
  case acas => cases h; rfl
  all_goals cases h

theorem atomics_rule : AtomicsCompleteRule := by
  intro i s s1 sp f op old hr hg w ea ha
  rw [exec_atomic hr]
  exact State.atomic_ok hg ha

/-! Elements of a scratchpad. -/

section
variable {s : State} {t : CoreId} {n : Nat} {x : AtomElem}

/-- The element as it leaves its core: its new value, low byte first, if there is one. -/
def atomPad (t : CoreId) (n : Nat) (s : State) (x : AtomElem) : State :=
  match x.upd (leNat ((s.core t).spad.readN x.ea.toNat n)) with
  | none => s
  | some v => s.setCore t { s.core t with spad := (s.core t).spad.writeN x.ea.toNat (leBytes v n) }

theorem atomReach_align (h : x.ea % n ≠ 0) : s.atomReach 1 t x.ea n = (s, .error (spaceFault cALIGN .atomic 1 x.ea)) := if_pos h
theorem atomReach_range (h : x.ea % n = 0) (hp : s.padOk s.ctx.core t x.ea n = false) :
    s.atomReach 1 t x.ea n = (s, .error (spaceFault cSPRANGE .atomic 1 x.ea)) := by
  simp only [State.atomReach, h, hp, ne_eq, not_true_eq_false, if_false, Bool.not_false, if_true]
theorem atomReach_ok (h : x.ea % n = 0) (hp : s.padOk s.ctx.core t x.ea n = true) (hpo : (s.core t).spadPoison = []) :
    s.atomReach 1 t x.ea n = (s, .ok (.c t)) := by
  have hb : (s.core t).padBad t x.ea.toNat n = [] := by simp [Core.padBad, hpo]
  simp only [State.atomReach, h, hp, hb, ne_eq, not_true_eq_false, if_false, Bool.not_true, Bool.false_eq_true, State.poisonTrap]

theorem atomChecks_ok (hpo : (s.core t).spadPoison = []) {xs : List AtomElem}
    (h : ∀ y ∈ xs, y.ea % n = 0 ∧ s.padOk s.ctx.core t y.ea n = true) :
    State.atomChecks 1 t n xs s = (s, .ok (xs.map fun _ => .c t)) := by
  induction xs with
  | nil => rfl
  | cons y ys ih =>
    obtain ⟨hy, hys⟩ := List.forall_mem_cons.1 h
    simp only [State.atomChecks, atomReach_ok hy.1 hy.2 hpo, ih hys, List.map_cons]

theorem atomChecks_append_error (hpo : (s.core t).spadPoison = []) {xs : List AtomElem}
    (h : ∀ y ∈ xs, y.ea % n = 0 ∧ s.padOk s.ctx.core t y.ea n = true) {e : TrapSpec} (he : s.atomReach 1 t x.ea n = (s, .error e)) :
    State.atomChecks 1 t n (xs ++ [x]) s = (s, .error e) := by
  induction xs with
  | nil => simp only [List.nil_append, State.atomChecks, he]
  | cons y ys ih =>
    obtain ⟨hy, hys⟩ := List.forall_mem_cons.1 h
    simp only [List.cons_append, State.atomChecks, atomReach_ok hy.1 hy.2 hpo, ih hys]

theorem padRead_clean {k : Core} (h : k.spadPoison = []) (a n : Nat) : k.padRead a n = k.spad.readN a n := by
  rw [Core.padRead, h]
  rfl
theorem padWrite_clean {k : Core} (h : k.spadPoison = []) (a : Nat) (bs : List Byte) : k.padWrite a bs = { k with spad := k.spad.writeN a bs } := by
  rw [Core.padWrite, h, List.filter_nil, ← h]

theorem atomDo_pad (hpo : (s.core t).spadPoison = []) :
    s.atomDo n x (.c t) = (atomPad t n s x, (s.core t).spad.readN x.ea.toNat n) := by
  rw [State.atomDo, atomPad, padRead_clean hpo]
  cases x.upd (leNat ((s.core t).spad.readN x.ea.toNat n)) with
  | none => rfl
  | some v => exact congrArg (fun k => (s.setCore t k, (s.core t).spad.readN x.ea.toNat n)) (padWrite_clean hpo _ _)

theorem atomPad_poison (hpo : (s.core t).spadPoison = []) : ((atomPad t n s x).core t).spadPoison = [] := by
  rw [atomPad]
  split
  · exact hpo
  · rw [State.core_setCore]
    exact hpo

theorem atomAll_pad {xs : List AtomElem} (hpo : (s.core t).spadPoison = []) :
    (State.atomAll n (xs.zip (xs.map fun _ => .c t)) s).1 = xs.foldl (atomPad t n) s := by
  induction xs generalizing s with
  | nil => rfl
  | cons y ys ih =>
    simp only [List.map_cons, List.zip_cons_cons, State.atomAll, atomDo_pad hpo, List.foldl_cons]
    exact ih (atomPad_poison hpo)

theorem atomAll_pad_single (hpo : (s.core t).spadPoison = []) :
    (State.atomAll n [(x, .c t)] s).2 = (s.core t).spad.readN x.ea.toNat n := by
  simp only [State.atomAll, atomDo_pad hpo, List.append_nil]

end

theorem atoms_pad {s : State} {f : M} (hcfg : (s.core (s.cTarget f).1).spcfg = none) (xs : List AtomElem) :
    s.atoms 1 f xs = (match State.atomChecks 1 (s.cTarget f).1 (elemBytes f.ty.toNat) xs s with
      | (s1, .error e) => .trap s1 e
      | (s1, .ok l) => .ok (State.atomAll (elemBytes f.ty.toNat) (xs.zip l) s1).1 (State.atomAll (elemBytes f.ty.toNat) (xs.zip l) s1).2) := by
  have hh := padHeld_of_none hcfg (xs.map fun x => (x.ea, elemBytes f.ty.toNat))
  have h3 : ¬ (1 : BitVec 2) = 3 := by decide
  simp only [State.atoms, if_neg h3, hh, Bool.and_false, Bool.false_eq_true, if_false]
  rfl

theorem atomElement_rule : AtomicElementRule := by
  intro s f x t n done hcfg
  have hone {e : TrapSpec} (he : s.atomReach 1 t x.ea n = (s, .error e)) : s.atoms 1 f [x] = .trap s e := by
    have hc : State.atomChecks 1 t n [x] s = (s, .error e) := by simp only [State.atomChecks, he]
    rw [atoms_pad hcfg, hc]
  refine ⟨fun ha => hone (atomReach_align ha), fun ha hp => hone (atomReach_range ha hp), fun hpo xs hxs => ⟨?_, fun ha hp => ?_⟩⟩
  · refine ⟨(State.atomAll n (xs.zip (xs.map fun _ => .c t)) s).2, ?_, fun y hy => ?_⟩
    · rw [atoms_pad hcfg, atomChecks_ok hpo hxs]
      exact congrArg (Accessed.ok · _) (atomAll_pad hpo)
    · subst hy
      exact atomAll_pad_single hpo
  · rw [atoms_pad hcfg, atomChecks_append_error hpo hxs (atomReach_range ha hp)]
    rfl

/-! ARED. -/

theorem reductionToMemory_rule : ReductionToMemoryCompleteRule := by
  intro s sp f ea red
  have hn (k : Nat) (hk : k < 16) : f.ty = BitVec.ofNat 4 k ↔ f.ty.toNat = k := by
    rw [← BitVec.toNat_inj, BitVec.toNat_ofNat, Nat.mod_eq_of_lt hk]
  have hred (w old v : Nat) : red w old v = atomRed f.ty.toNat w old v := by
    simp only [red, atomRed, atomFadd, atomFmt, atomAdd, show f.ty = 9 ↔ _ from hn 9 (by decide), show f.ty = 10 ↔ _ from hn 10 (by decide)]
  refine ⟨fun s1 old hc hg ha => ?_, fun s1 old hc hacts ha => ?_⟩
  · simp only [hred] at ha
    dsimp only [exec]
    rw [execAred, if_pos hc]
    exact issue_done hg (Accessed.res_ok ha _)
  · simp only [hred] at ha
    dsimp only [exec]
    rw [execAred, if_neg hc, issueM_acts hacts]
    exact congrArg (Res.finish s) (Accessed.res_ok ha _)

/-- Settles O25: every element is checked before one is performed, and in a scratchpad each is read and written in its turn. -/
theorem atomicsAndReductionsComplete : Obligations.AtomicsAndReductionsComplete := ⟨atomics_rule, atomElement_rule, reductionToMemory_rule⟩

end Sys2Proof.Machine
end

section
/-! PROOF. The fences and KSYNC (R323 to R326). O26. -/
namespace Sys2Proof.Machine

/-! What is still buffered once a stream's stores have gone out. -/

theorem State.core_setStrm_hostBuf (s : State) (c d : CoreId) (i : StreamId) (t : Strm) :
    ((s.setStrm c i t).core d).hostBuf = (s.core d).hostBuf := by
  rw [State.setStrm]
  by_cases h : c = d
  · subst h
    rw [State.core_setCore]
    rfl
  · rw [State.core_setCore_of_ne _ _ _ _ h]

theorem State.hostWrite_cores {s s1 : State} {a : Nat} {bs : List Byte} (h : s.hostWrite a bs = some s1) : s1.cores = s.cores := by
  unfold State.hostWrite at h
  split at h
  · cases h
  · split at h
    · cases h; rfl
    · split at h
      · cases h
      · cases h; rfl

theorem State.deliverStore_hostBuf (s : State) (c d : CoreId) (x : HostStore) :
    ((s.deliverStore c x).core d).hostBuf = (s.core d).hostBuf := by
  unfold State.deliverStore
  dsimp only
  generalize s.offWindow x.addr x.bytes.length = refused
  induction lineParts (x.bytes.length + 1) x.addr x.bytes generalizing s with
  | nil => rfl
  | cons p t ih =>
    rw [List.foldl_cons]
    refine (ih _).trans ?_
    split
    · next s1 h =>
      split at h
      · cases h
      · rw [State.core, State.hostWrite_cores h]
        rfl
    · exact State.core_setStrm_hostBuf ..

theorem State.foldl_deliver_hostBuf (c d : CoreId) (l : List HostStore) (s : State) :
    ((l.foldl (fun s x => s.deliverStore c x) s).core d).hostBuf = (s.core d).hostBuf := by
  induction l generalizing s with
  | nil => rfl
  | cons x t ih => exact (ih _).trans (State.deliverStore_hostBuf ..)

/-- What a selection picks goes out. -/
theorem outgoing_of_sel {sel : HostStore → Bool} {l : List HostStore} {p : HostStore × Bool} (hp : p ∈ outgoing sel l) (hs : sel p.1 = true) :
    p.2 = true := by
  induction l with
  | nil => cases hp
  | cons x l ih =>
    rcases List.mem_cons.1 hp with rfl | hp
    · exact Bool.or_eq_true_iff.2 (.inl hs)
    · exact ih hp

theorem State.drainHost_left {s : State} {c : CoreId} {sel : HostStore → Bool} {x : HostStore}
    (hx : x ∈ ((s.drainHost c sel).core c).hostBuf) : sel x = false := by
  rw [State.drainHost, State.foldl_deliver_hostBuf, State.core_setCore] at hx
  obtain ⟨p, hp, rfl⟩ := List.mem_map.1 hx
  obtain ⟨hp, h2⟩ := List.mem_filter.1 hp
  cases hs : sel p.1 with
  | false => rfl
  | true => rw [outgoing_of_sel hp hs] at h2; cases h2

/-! Fences. -/

/-- A fence below system scope (R324). -/
theorem fence_ok {s : State} (hg : s.guard = true) (he : s.me.enginesFenced s.ctx.strm = true) {scope : Nat} (hs : scope ≠ 4) :
    s.fence scope = .next (if 2 ≤ scope then s.drainStream s.ctx.core s.ctx.strm else s).retire := by
  rw [State.fence]
  refine issue_done hg ?_
  simp only [State.fenced, he, beq_false_of_ne hs, Bool.not_true, Bool.false_and, Bool.or_false, Bool.false_eq_true, if_false]

theorem fenced_system {s : State} (he : s.me.enginesFenced s.ctx.strm = true) (hx : s.ctx.strm = .xs → s.sendsDone s.ctx.core = true)
    (body : State → Res) : s.fenced 4 body = s.peersAcked fun s => body (s.drainStream s.ctx.core s.ctx.strm) := by
  have hd : (s.ctx.strm == .xs && !s.sendsDone s.ctx.core) = false := by
    cases h : s.ctx.strm == .xs with
    | false => rfl
    | true => rw [hx (eq_of_beq h)]; rfl
  have h4 : ((4 : Nat) == 4) = true := rfl
  simp only [State.fenced, he, h4, Bool.true_and, hd, Bool.not_true, Bool.or_false, Bool.false_eq_true, if_false, if_true]

theorem peersAcked_none {s : State} (h : (s.str.ackStores s.clock).peerStores = []) (body : State → Res) :
    s.peersAcked body = body (s.setStr (s.str.ackStores s.clock)) := by
  simp only [State.peersAcked, h]

theorem peersAcked_failed {s : State} {x : PeerStore} {r : List PeerStore} (h : (s.str.ackStores s.clock).peerStores = x :: r)
    (hf : x.failed = true) (body : State → Res) :
    s.peersAcked body = .trap (s.setStr { s.str.ackStores s.clock with peerStores := r }) x.spec := by
  simp only [State.peersAcked, h, hf, if_true]

theorem oldestFault_cons_ne (x : PendFault) (l : List PendFault) : oldestFault (x :: l) ≠ none := by
  rw [oldestFault]
  split
  · exact Option.some_ne_none x
  · split <;> exact Option.some_ne_none _

theorem oldestFault_spec {l : List PendFault} {f : PendFault} (h : oldestFault l = some f) : f ∈ l ∧ ∀ z ∈ l, f.ord ≤ z.ord := by
  induction l generalizing f with
  | nil => cases h
  | cons x t ih =>
    rw [oldestFault] at h
    cases ho : oldestFault t with
    | none =>
      rw [ho] at h
      cases h
      cases t with
      | nil => exact ⟨List.mem_cons_self, fun z hz => by cases List.mem_singleton.1 hz; exact Nat.le_refl _⟩
      | cons y t => exact absurd ho (oldestFault_cons_ne y t)
    | some y =>
      obtain ⟨hy, hmin⟩ := ih ho
      rw [ho] at h
      dsimp only at h
      split at h
      · next hle =>
        cases h
        refine ⟨List.mem_cons_self, fun z hz => ?_⟩
        rcases List.mem_cons.1 hz with rfl | hz
        · exact Nat.le_refl _
        · exact Nat.le_trans hle (hmin z hz)
      · next hle =>
        cases h
        refine ⟨List.mem_cons_of_mem _ hy, fun z hz => ?_⟩
        rcases List.mem_cons.1 hz with rfl | hz
        · omega
        · exact hmin z hz

/-- Pending errors: the oldest is raised (R325). -/
theorem raisePending_some {s : State} (h : s.str.faults ≠ []) (body : State → Res) :
    ∃ y ∈ s.str.faults, (∀ z ∈ s.str.faults, y.ord ≤ z.ord) ∧
      s.raisePending (fun _ => true) body = .trap (s.setStr { s.str with faults := dropFault y s.str.faults }) y.spec := by
  have hf : s.str.faults.filter (fun _ => true) = s.str.faults := List.filter_eq_self.2 fun _ _ => rfl
  cases ho : oldestFault s.str.faults with
  | none =>
    obtain ⟨x, t, hxt⟩ := List.exists_cons_of_ne_nil h
    rw [hxt] at ho
    exact absurd ho (oldestFault_cons_ne x t)
  | some y =>
    obtain ⟨hy, hmin⟩ := oldestFault_spec ho
    refine ⟨y, hy, hmin, ?_⟩
    rw [State.raisePending, hf, ho]

/-- What EFENCE does once the stream's accesses are performed (R325). -/
def efenceEnd (s : State) : Res :=
  if s.ctx.strm == .as && !(s.me.copyQ.isEmpty && s.me.copies.isEmpty) then .drain s else s.raisePending (fun _ => true) .done

theorem efenceEnd_ok {s : State} (h : s.ctx.strm = .as → s.me.copyQ = [] ∧ s.me.copies = []) : efenceEnd s = s.raisePending (fun _ => true) .done := by
  refine if_neg ?_
  rw [Bool.and_eq_true, not_and]
  intro hs
  obtain ⟨h1, h2⟩ := h (eq_of_beq hs)
  rw [h1, h2]
  decide

/-- Settles O26: a fence is the wait for the engines, at system scope for the peers too, and then the stream's host stores. -/
theorem fencesComplete : Obligations.FencesComplete := by
  intro s hg
  refine ⟨fun he => ⟨fun x hx => ?_, ?_, ?_, ?_, ?_, fun hxs => ⟨fun ht => ⟨?_, fun has => ⟨fun hq => ?_, fun hq => ?_⟩⟩,
    fun x r ht hf hc => ⟨?_, ?_, hc⟩⟩⟩, ?_⟩
  · have := State.drainHost_left (s := s) (c := s.ctx.core) (sel := fun x => x.strm == s.ctx.strm) (x := x) (by
      rw [State.me, State.drainStream_ctx] at hx
      exact hx)
    exact ne_of_beq_false this
  · exact fence_ok hg he (scope := 0) (by decide)
  · exact fence_ok hg he (scope := 1) (by decide)
  · exact fence_ok hg he (scope := 2) (by decide)
  · exact fence_ok hg he (scope := 3) (by decide)
  · dsimp only [exec, execFenceSystem, State.fence]
    exact issue_done hg ((fenced_system he hxs _).trans (peersAcked_none ht _))
  · dsimp only [exec, execEfence]
    refine issue_done hg ((fenced_system he hxs efenceEnd).trans ((peersAcked_none ht _).trans ((efenceEnd_ok has).trans ?_)))
    exact State.raisePending_none (fun x hx => absurd (hq ▸ hx) List.not_mem_nil) _
  · obtain ⟨y, hy, hmin, hr⟩ := raisePending_some hq .done
    refine ⟨y, hy, hmin, ?_⟩
    dsimp only [exec, execEfence]
    exact issue_trap hg ((fenced_system he hxs efenceEnd).trans ((peersAcked_none ht _).trans ((efenceEnd_ok has).trans hr)))
  · dsimp only [exec, execFenceSystem, State.fence]
    exact issue_trap hg ((fenced_system he hxs _).trans (peersAcked_failed ht hf _))
  · dsimp only [exec, execEfence]
    exact issue_trap hg ((fenced_system he hxs efenceEnd).trans (peersAcked_failed ht hf _))
  · dsimp only [exec, execKsync]
    exact issue_done hg rfl

end Sys2Proof.Machine
end

section
/-! PROOF. Engine commands: their issue and the wait field of a head command (R42, R92, R183). O27. -/
namespace Sys2Proof.Machine

/-- An engine command is the one form: its issue to a queue, its body at the head. -/
def IsCommand (i : Instr) (e : Eng) (f : E) (more : State → List Word) : Prop :=
  ∃ body, ∀ s, exec i s = (if e = .coll then s.startTimer else s).command e i f more body

theorem IsCommand.of_plain {i : Instr} {e : Eng} {f : E} {more : State → List Word} {body : State → Cmd → CmdRes} (he : e ≠ .coll)
    (h : ∀ s, exec i s = s.command e i f more body) : IsCommand i e f more := ⟨body, fun s => by rw [h, if_neg he]⟩
theorem IsCommand.of_tile {i : Instr} {f : E} {more : State → List Word} {reads : State → List Nat} {body : State → Cmd → TileRes}
    (h : ∀ s, exec i s = s.tileCmd i f more reads body) : IsCommand i .tile f more := ⟨_, fun s => h s⟩
theorem IsCommand.of_link {i : Instr} {f : E} {more : State → List Word} {body : State → Cmd → CmdRes}
    (h : ∀ s, exec i s = s.linkCmd i f more body) : IsCommand i .link f more := ⟨_, fun s => h s⟩
theorem IsCommand.of_coll {i : Instr} {f : E} {body : State → Cmd → CmdRes}
    (h : ∀ s, exec i s = s.collCmd i f body) : IsCommand i .coll f (fun _ => []) := ⟨body, fun s => h s⟩

theorem verEng_ne_coll (f : E) : verEng f ≠ .coll := by
  rw [verEng]
  split <;> decide

theorem isCommand_tld (f : E) : IsCommand (.tld f) .tile f (fun s => [((s.getS f.b).extractLsb' 32 8).setWidth 64, s.getS (regPlus f.a 1)]) :=
  .of_tile fun s => by dsimp only [exec]; rw [execTld]
theorem isCommand_tst (f : E) : IsCommand (.tst f) .tile f (maskWords (f.of 9 5) 0) :=
  .of_tile fun s => by dsimp only [exec]; rw [execTst]
theorem isCommand_tzero (f : E) : IsCommand (.tzero f) .tile f (maskWords (f.of 0 5) 0) :=
  .of_tile fun s => by dsimp only [exec]; rw [execTzero]
theorem isCommand_tmma (f : E) : IsCommand (.tmma f) .tile f (maskWords (f.of 0 5) 0) :=
  .of_tile fun s => by dsimp only [exec]; rw [execTmma]
theorem isCommand_tmmas (f : E) : IsCommand (.tmmas f) .tile f (maskWords (f.of 0 5) (f.of 5 5)) :=
  .of_tile fun s => by dsimp only [exec]; rw [execTmmas]
theorem isCommand_tmov (f : E) : IsCommand (.tmov f) .tile f (fun _ => []) :=
  .of_tile fun s => by dsimp only [exec]; rw [execTmov]
theorem isCommand_ttrn (f : E) : IsCommand (.ttrn f) .tile f (fun _ => []) :=
  .of_tile fun s => by dsimp only [exec]; rw [execTtrn]
theorem isCommand_tcvt (f : E) : IsCommand (.tcvt f) .tile f (fun _ => []) :=
  .of_tile fun s => by dsimp only [exec]; rw [execTcvt]
theorem isCommand_tfmt (f : E) : IsCommand (.tfmt f) .tile f (fun _ => []) :=
  .of_tile fun s => by dsimp only [exec]; rw [execTfmt]
theorem isCommand_tcksOff : IsCommand .tcksOff .tile E.none (fun _ => []) :=
  .of_tile fun s => by dsimp only [exec]; rw [execTcksOff]
theorem isCommand_tcksOn : IsCommand .tcksOn .tile E.none (fun _ => []) :=
  .of_tile fun s => by dsimp only [exec]; rw [execTcksOn]
theorem isCommand_tstart : IsCommand .tstart .tile E.none (fun _ => []) :=
  .of_plain (by decide) fun s => by dsimp only [exec]; rw [execTstart]
theorem isCommand_wlease : IsCommand .wlease .arr E.none (fun _ => []) :=
  .of_plain (by decide) fun s => by dsimp only [exec]; rw [execWlease]
theorem isCommand_wrls : IsCommand .wrls .arr E.none (fun _ => []) :=
  .of_plain (by decide) fun s => by dsimp only [exec]; rw [execWrls]
theorem isCommand_wdrain : IsCommand .wdrain .arr E.none (fun _ => []) :=
  .of_plain (by decide) fun s => by dsimp only [exec]; rw [execWdrain]
theorem isCommand_wdrainDiscard : IsCommand .wdrainDiscard .arr E.none (fun _ => []) :=
  .of_plain (by decide) fun s => by dsimp only [exec]; rw [execWdrainDiscard]
theorem isCommand_wbankSel (f : E) : IsCommand (.wbankSel f) .arr f (fun _ => []) :=
  .of_plain (by decide) fun s => by dsimp only [exec]; rw [execWbankSel]
theorem isCommand_wbankClaim (f : E) : IsCommand (.wbankClaim f) .arr f (fun _ => []) :=
  .of_plain (by decide) fun s => by dsimp only [exec]; rw [execWbankClaim]
theorem isCommand_wbankRel (f : E) : IsCommand (.wbankRel f) .arr f (fun _ => []) :=
  .of_plain (by decide) fun s => by dsimp only [exec]; rw [execWbankRel]
theorem isCommand_wregnDef (f : E) : IsCommand (.wregnDef f) .arr f (fun _ => []) :=
  .of_plain (by decide) fun s => by dsimp only [exec]; rw [execWregnDef]
theorem isCommand_wregnRem (f : E) : IsCommand (.wregnRem f) .arr f (fun _ => []) :=
  .of_plain (by decide) fun s => by dsimp only [exec]; rw [execWregnRem]
theorem isCommand_wldw (f : E) : IsCommand (.wldw f) .arr f (fun _ => []) :=
  .of_plain (by decide) fun s => by dsimp only [exec]; rw [execWldw]
theorem isCommand_wstw (f : E) : IsCommand (.wstw f) .arr f (fun _ => []) :=
  .of_plain (by decide) fun s => by dsimp only [exec]; rw [execWstw]
theorem isCommand_wadmit (f : E) : IsCommand (.wadmit f) .arr f (fun _ => []) :=
  .of_plain (by decide) fun s => by dsimp only [exec]; rw [execWadmit]
theorem isCommand_wopt (f : E) : IsCommand (.wopt f) .arr f (fun _ => []) :=
  .of_plain (by decide) fun s => by dsimp only [exec]; rw [execWopt]
theorem isCommand_wcks (f : E) : IsCommand (.wcks f) .arr f (fun _ => []) :=
  .of_plain (by decide) fun s => by dsimp only [exec]; rw [execWcks]
theorem isCommand_wsave (f : E) : IsCommand (.wsave f) .arr f (fun _ => []) :=
  .of_plain (by decide) fun s => by dsimp only [exec]; rw [execWsave]
theorem isCommand_wrest (f : E) : IsCommand (.wrest f) .arr f (fun _ => []) :=
  .of_plain (by decide) fun s => by dsimp only [exec]; rw [execWrest]
theorem isCommand_wcoll (f : E) : IsCommand (.wcoll f) .out f State.keepMode :=
  .of_plain (by decide) fun s => by dsimp only [exec]; rw [execWcoll]
theorem isCommand_wver (f : E) : IsCommand (.wver f) (verEng f) f State.keepMode :=
  .of_plain (verEng_ne_coll f) fun s => by dsimp only [exec]; rw [execWver]
theorem isCommand_xcopy (f : E) : IsCommand (.xcopy f) .copy f (fun _ => []) :=
  .of_plain (by decide) fun s => by dsimp only [exec]; rw [execXcopy]
theorem isCommand_xfill (f : E) : IsCommand (.xfill f) .copy f (fun _ => []) :=
  .of_plain (by decide) fun s => by dsimp only [exec]; rw [execXfill]
theorem isCommand_xpub (f : E) : IsCommand (.xpub f) .copy f (fun _ => []) :=
  .of_plain (by decide) fun s => by dsimp only [exec]; rw [execXpub]
theorem isCommand_xtree (f : E) : IsCommand (.xtree f) .coll f (fun _ => []) :=
  .of_coll fun s => by dsimp only [exec]; rw [execXtree]
theorem isCommand_xred (f : E) : IsCommand (.xred f) .coll f (fun _ => []) :=
  .of_coll fun s => by dsimp only [exec]; rw [execXred]
theorem isCommand_xbcast (f : E) : IsCommand (.xbcast f) .coll f (fun _ => []) :=
  .of_coll fun s => by dsimp only [exec]; rw [execXbcast]
theorem isCommand_lsend (f : E) : IsCommand (.lsend f) .link f (fun s => [s.getS (regPlus f.d 1)]) :=
  .of_link fun s => by dsimp only [exec]; rw [execLsend]
theorem isCommand_larm (f : E) : IsCommand (.larm f) .link f (fun _ => []) :=
  .of_link fun s => by dsimp only [exec]; rw [execLarm]
theorem isCommand_larmDis (f : E) : IsCommand (.larmDis f) .link f (fun _ => []) :=
  .of_link fun s => by dsimp only [exec]; rw [execLarmDis]
theorem isCommand_lrecv (f : E) : IsCommand (.lrecv f) .link f (fun _ => []) :=
  .of_link fun s => by dsimp only [exec]; rw [execLrecv]

/-- Every instruction of the rule is a command with the operands that the rule names. -/
theorem isCommand_of_rule {i : Instr} {s : State} {e : Eng} {f : E} {more : List Word} (h : commandRule i s = some (e, f, more)) :
    ∃ m, IsCommand i e f m ∧ m s = more := by
  cases i
  case tld f => cases h; exact ⟨_, isCommand_tld f, rfl⟩
  case tst f => cases h; exact ⟨_, isCommand_tst f, rfl⟩
  case tzero f => cases h; exact ⟨_, isCommand_tzero f, rfl⟩
  case tmma f => cases h; exact ⟨_, isCommand_tmma f, rfl⟩
  case tmmas f => cases h; exact ⟨_, isCommand_tmmas f, rfl⟩
  case tmov f => cases h; exact ⟨_, isCommand_tmov f, rfl⟩
  case ttrn f => cases h; exact ⟨_, isCommand_ttrn f, rfl⟩
  case tcvt f => cases h; exact ⟨_, isCommand_tcvt f, rfl⟩
  case tfmt f => cases h; exact ⟨_, isCommand_tfmt f, rfl⟩
  case tcksOff => cases h; exact ⟨_, isCommand_tcksOff, rfl⟩
  case tcksOn => cases h; exact ⟨_, isCommand_tcksOn, rfl⟩
  case tstart => cases h; exact ⟨_, isCommand_tstart, rfl⟩
  case wlease => cases h; exact ⟨_, isCommand_wlease, rfl⟩
  case wrls => cases h; exact ⟨_, isCommand_wrls, rfl⟩
  case wdrain => cases h; exact ⟨_, isCommand_wdrain, rfl⟩
  case wdrainDiscard => cases h; exact ⟨_, isCommand_wdrainDiscard, rfl⟩
  case wbankSel f => cases h; exact ⟨_, isCommand_wbankSel f, rfl⟩
  case wbankClaim f => cases h; exact ⟨_, isCommand_wbankClaim f, rfl⟩
  case wbankRel f => cases h; exact ⟨_, isCommand_wbankRel f, rfl⟩
  case wregnDef f => cases h; exact ⟨_, isCommand_wregnDef f, rfl⟩
  case wregnRem f => cases h; exact ⟨_, isCommand_wregnRem f, rfl⟩
  case wldw f => cases h; exact ⟨_, isCommand_wldw f, rfl⟩
  case wstw f => cases h; exact ⟨_, isCommand_wstw f, rfl⟩
  case wadmit f => cases h; exact ⟨_, isCommand_wadmit f, rfl⟩
  case wopt f => cases h; exact ⟨_, isCommand_wopt f, rfl⟩
  case wcks f => cases h; exact ⟨_, isCommand_wcks f, rfl⟩
  case wsave f => cases h; exact ⟨_, isCommand_wsave f, rfl⟩
  case wrest f => cases h; exact ⟨_, isCommand_wrest f, rfl⟩
  case wcoll f => cases h; exact ⟨_, isCommand_wcoll f, rfl⟩
  case wver f => cases h; exact ⟨_, isCommand_wver f, rfl⟩
  case xcopy f => cases h; exact ⟨_, isCommand_xcopy f, rfl⟩
  case xfill f => cases h; exact ⟨_, isCommand_xfill f, rfl⟩
  case xpub f => cases h; exact ⟨_, isCommand_xpub f, rfl⟩
  case xtree f => cases h; exact ⟨_, isCommand_xtree f, rfl⟩
  case xred f => cases h; exact ⟨_, isCommand_xred f, rfl⟩
  case xbcast f => cases h; exact ⟨_, isCommand_xbcast f, rfl⟩
  case lsend f => cases h; exact ⟨_, isCommand_lsend f, rfl⟩
  case larm f => cases h; exact ⟨_, isCommand_larm f, rfl⟩
  case larmDis f => cases h; exact ⟨_, isCommand_larmDis f, rfl⟩
  case lrecv f => cases h; exact ⟨_, isCommand_lrecv f, rfl⟩
  all_goals cases h

/-! Issue. -/

theorem full_of_le {e : Eng} {n m : Nat} (h : queueRule e = some n) (hm : n ≤ m) : e.full m = true := by
  cases e <;> cases h <;> exact decide_eq_true hm
theorem not_full_of_lt {e : Eng} {m : Nat} (h : ∀ n, queueRule e = some n → m < n) : e.full m = false := by
  cases e
  case out => rfl
  case rng => rfl
  case ver => rfl
  all_goals exact decide_eq_false (Nat.not_le.2 (h _ rfl))
theorem own_eq (e : Eng) : e.own = (queueRule e).isNone := by cases e <;> rfl

theorem commandsEnqueue_rule : CommandsEnqueueRule := by
  intro i s e f more hr hi hg
  obtain ⟨m, ⟨body, hb⟩, hm⟩ := isCommand_of_rule hr
  have hs : (if e = .coll then s.startTimer else s) = s := by rw [State.startTimer_of_issue hi, ite_self]
  have hexec : exec i s = (s.issueCmd e i f m).finish s := by rw [hb, hs, State.command_issue hi hg]
  refine ⟨fun hroom => ?_, fun n hn hfull => ?_⟩
  · rw [hexec, State.issueCmd, not_full_of_lt hroom, hm]
    rw [if_neg Bool.false_ne_true, Res.finish_done, State.enqueue, own_eq]
  · rw [hexec, State.issueCmd, full_of_le hn hfull]
    rfl

/-! The wait field. -/

theorem Core.cmds_setCmds (k : Core) (e : Eng) (l : List Cmd) : (k.setCmds e l).cmds e = l := by cases e <;> rfl
theorem Core.setCmds_active (k : Core) (e : Eng) (l : List Cmd) : (k.setCmds e l).active = k.active := by cases e <;> rfl
theorem Core.setCmds_freeze (k : Core) (e : Eng) (l : List Cmd) : (k.setCmds e l).freeze = k.freeze := by cases e <;> rfl
theorem Core.setSem_cmds (k : Core) (e : Eng) (n u : Nat) : (k.setSem n u).cmds e = k.cmds e := by cases e <;> rfl

theorem cmds_of_headCmd {k : Core} {e : Eng} {x : Cmd} (h : k.headCmd e = some x) : k.cmds e = x :: (k.cmds e).tail := by
  rw [Core.headCmd] at h
  obtain ⟨t, ht⟩ := List.head?_eq_some_iff.1 h
  rw [ht, List.tail_cons]

theorem Core.mapHead_of_head {k : Core} {e : Eng} {x : Cmd} (h : k.headCmd e = some x) (g : Cmd → Cmd) :
    k.mapHead e g = k.setCmds e (g x :: (k.cmds e).tail) := by
  rw [Core.mapHead, cmds_of_headCmd h]
  rfl

/-- A head command that may run and still needs its unit (R42). -/
theorem runCmd_waitField {s : State} {c : CoreId} {e : Eng} {x : Cmd} {body : State → Cmd → CmdRes} (hh : (s.core c).headCmd e = some x)
    (ha : (s.core c).active = true) (hck : x.checked = true) (ht : x.trapped = false) (hf : (s.core c).freeze = 0)
    (hw : x.code.head.we = true) (hu : x.unit = false) (hfl : x.failing = false) :
    s.runCmd c e x.ord body =
      if (s.core c).sem x.code.head.wsem.toNat = 0 then s.cmdBlock s c e .sem x.code.head.wsem.toNat 0 0 true
      else (body ((s.setCore c (((s.core c).setSem x.code.head.wsem.toNat ((s.core c).sem x.code.head.wsem.toNat - 1)).mapHead e fun _ =>
        { x with unit := true, wait := none })).asCmd c e { x with unit := true, wait := none }) { x with unit := true, wait := none }).close
        (s.setCore c (((s.core c).setSem x.code.head.wsem.toNat ((s.core c).sem x.code.head.wsem.toNat - 1)).mapHead e fun _ =>
        { x with unit := true, wait := none })) c e { x with unit := true, wait := none } := by
  simp only [State.runCmd, hh, ha, hck, ht, hf, hw, hu, hfl, Bool.not_true, Bool.not_false, Bool.or_false, Bool.and_true,
    bne_self_eq_false, Bool.false_eq_true, if_false, if_true]

theorem waitFieldHolds_rule : WaitFieldHoldsRule := by
  intro i s e f more c x hr hne hfl hu hv hh ha hck ht hfr hwe hun hfa n u
  obtain ⟨m, ⟨body, hb⟩, -⟩ := isCommand_of_rule hr
  have hexec (s' : State) (hf' : s'.ctx.ev.flag = true) (hu' : s'.ctx.ev.unit = c.val) : exec i s' = .next (s'.runCmd c e s'.ctx.ev.val body) := by
    rw [hb, if_neg hne, State.command_run hf' c hu']
  let y : Cmd := { x with unit := true, wait := none }
  let k : Core := (s.core c).setSem n (u - 1)
  let s1 : State := s.setCore c (k.setCmds e (y :: ((s.core c).cmds e).tail))
  have hk : k.cmds e = x :: ((s.core c).cmds e).tail := (Core.setSem_cmds ..).trans (cmds_of_headCmd hh)
  have hmap : k.mapHead e (fun _ => y) = k.setCmds e (y :: ((s.core c).cmds e).tail) := by rw [Core.mapHead, hk]
  have hc1 : s1.core c = k.setCmds e (y :: ((s.core c).cmds e).tail) := State.core_setCore ..
  have hrun : s1.runCmd c e y.ord body = (body (s1.asCmd c e y) y).close s1 c e y :=
    State.runCmd_body (x := y) (by rw [hc1, Core.headCmd, Core.cmds_setCmds]; rfl) (by rw [hc1, Core.setCmds_active]; exact ha) hck ht
      (by rw [hc1, Core.setCmds_freeze]; exact hfr) (.inr (.inl rfl)) body
  have hexec1 : exec i s1 = .next (s1.runCmd c e y.ord body) := by
    rw [hexec s1 hfl hu]
    exact congrArg (fun n => Host.Outcome.next (s1.runCmd c e n body)) hv
  rw [hexec s hfl hu, hv, runCmd_waitField hh ha hck ht hfr hwe hun hfa]
  refine ⟨fun h0 => by rw [if_pos h0], fun h0 => ?_⟩
  rw [if_neg h0, hexec1, hrun]
  exact congrArg (fun k => Host.Outcome.next ((body ((s.setCore c k).asCmd c e y) y).close (s.setCore c k) c e y)) hmap

/-- Settles O27: every command is the one form, whose issue and whose wait field do not ask what it does. -/
theorem commandsWaitAndEnqueue : Obligations.CommandsWaitAndEnqueue := ⟨commandsEnqueue_rule, waitFieldHolds_rule⟩

end Sys2Proof.Machine
end

section
/-! PROOF. A head command that runs, and the copy engine (R316, R327 to R331). O28. -/
namespace Sys2Proof.Machine

/-! A head command that runs. -/

/-- A head command is its body on its core, and the end of that (R42). -/
theorem command_head {s : State} {c : CoreId} {e : Eng} {x : Cmd} (h : HeadRuns s c e x) (i : Instr) (f : E) (more : State → List Word)
    (body : State → Cmd → CmdRes) : s.command e i f more body = .next ((body (s.asCmd c e x) x).close s c e x) := by
  obtain ⟨hfl, hu, hv, hh, ha, hck, ht, hfr, hw⟩ := h
  rw [State.command_run hfl c hu, hv, State.runCmd_body hh ha hck ht hfr hw]

theorem command_done {s t : State} {c : CoreId} {e : Eng} {x : Cmd} (h : HeadRuns s c e x) {i : Instr} {f : E} {more : State → List Word}
    {body : State → Cmd → CmdRes} (hb : body (s.asCmd c e x) x = .done t) : s.command e i f more body = .next (completed t c e x) := by
  rw [command_head h, hb, CmdRes.close_done]
  rfl
theorem command_leave {s t : State} {c : CoreId} {e : Eng} {x : Cmd} (h : HeadRuns s c e x) {i : Instr} {f : E} {more : State → List Word}
    {body : State → Cmd → CmdRes} (hb : body (s.asCmd c e x) x = .leave t) : s.command e i f more body = .next (t.popCmd c e) := by
  rw [command_head h, hb, CmdRes.close_leave]

/-! Pairs. -/

theorem find_range_none {p : Nat → Bool} {n : Nat} (h : ∀ m < n, p m = false) : (List.range n).find? p = none :=
  List.find?_eq_none.2 fun m hm => by rw [h m (List.mem_range.1 hm)]; decide
theorem find_range_some {p : Nat → Bool} {n m : Nat} (hm : m < n) (hp : p m = true) (h : ∀ j < m, p j = false) : (List.range n).find? p = some m := by
  rw [List.find?_range_eq_some]
  exact ⟨hp, List.mem_range.2 hm, fun j hj => by rw [h j hj]; rfl⟩

theorem exec_xshdAlloc {s s1 : State} {f : E} {ps : List Piece} (hg : s.guard = true) :
    let r (k : Nat) : Nat := (s.getS (f.a + BitVec.ofNat 5 k)).toNat
    r 0 % 64 = 0 → r 1 % 64 = 0 → r 2 % 64 = 0 → r 3 % 8 = 0 →
    s.xlateAll s.ctx.core s.ctx.strm .atomic [((r 0 : Nat), r 2), ((r 1 : Nat), r 2), ((r 3 : Nat), 8)] = (s1, .ok ps) →
    ((∀ n < 1024, s1.pair s.me.asid n ≠ none) → exec (.xshdAlloc f) s = .next (s1.arriveS f.d (BitVec.allOnes 64)).retire) ∧
    (∀ n < 1024, s1.pair s.me.asid n = none → (∀ m < n, s1.pair s.me.asid m ≠ none) →
      exec (.xshdAlloc f) s = .next ((State.writePieces s.me.jobid
        (State.mark { s1 with pairs := ⟨s.me.asid, n, r 0, r 1, r 2, r 3, none⟩ :: s1.pairs } s.walker .store (ps.drop (ps.length - 1)))
        (ps.drop (ps.length - 1)) (List.replicate 8 0)).arriveS f.d (BitVec.ofNat 64 n)).retire) := by
  intro r h0 h1 h2 h3 hx
  have hsome (n : Nat) (h : s1.pair s.me.asid n ≠ none) : (s1.pair s.me.asid n).isNone = false := by
    rw [Option.isNone_eq_false_iff, Option.isSome_iff_ne_none]
    exact h
  have hr (k : Nat) : (s.getS (regPlus f.a k)).toNat = r k := rfl
  refine ⟨fun hall => ?_, fun n hn hfree hlow => ?_⟩
  · dsimp only [exec, execXshdAlloc]
    refine issue_done hg ?_
    simp only [hr, h0, h1, h2, h3, ne_eq, not_true_eq_false, if_false, hx, find_range_none fun m hm => hsome m (hall m hm)]
  · have hf := find_range_some (p := fun n => (s1.pair s.me.asid n).isNone) hn (by rw [hfree]; rfl) fun m hm => hsome m (hlow m hm)
    dsimp only [exec, execXshdAlloc]
    refine issue_done hg ?_
    simp only [hr, h0, h1, h2, h3, ne_eq, not_true_eq_false, if_false, hx, hf]

theorem exec_xshdFree {s : State} {f : E} {p : Pair} (hg : s.guard = true) (hp : s.pair s.me.asid (s.getS f.a).toNat = some p)
    (hb : s.pairBusy s.me.asid (s.getS f.a).toNat = false) :
    exec (.xshdFree f) s =
      .next (State.retire { s with pairs := s.pairs.filter fun q => !(q.asid == s.me.asid && q.n == (s.getS f.a).toNat) }) := by
  dsimp only [exec, execXshdFree]
  refine issue_done hg ?_
  simp only [hp, hb, Bool.false_eq_true, if_false]

/-! Copies. -/

/-- A copy whose checks pass is accepted: it stands among the copies, or is over at once (R330). -/
theorem State.acceptCopy_ok {b s1 s2 s3 : State} {x : Cmd} {f : E} {p : Pair} {fill : Option Word} {pad : Bool} {sel src dst : List Piece} {v : Word}
    (hp : b.pair b.me.asid (f.of 0 10) = some p) (hoff : x.sd.toNat % 8 = 0) (hn : x.sb.toNat % 8 = 0) (hsrc : fill = none → x.sa.toNat % 8 = 0)
    (hlen : x.sd.toNat + x.sb.toNat ≤ p.len)
    (hpad : pad = true → b.me.padHeld [((x.sa.toNat : Nat), x.sb.toNat)] = false ∧ b.padOk b.ctx.core b.ctx.core x.sa.toNat x.sb.toNat = true)
    (h1 : (if fill.isSome || pad then (b, (.ok [] : Except (Nat × Nat) (List Piece)))
      else b.xlate (.strm b.ctx.core .as) b.me.asid.toNat (userOf b.ctx.core) .load x.sa.toNat x.sb.toNat) = (s1, .ok src))
    (h2 : s1.selector p .load = (s2, .ok (sel, v)))
    (h3 : s2.xlate (.strm b.ctx.core .as) b.me.asid.toNat (userOf b.ctx.core) .store (((if v.getLsbD 0 then p.b0 else p.b1) + x.sd.toNat : Nat))
      x.sb.toNat = (s3, .ok dst)) :
    let m := (s3.mark (.strm b.ctx.core .as) .load (sel ++ src)).mark (.strm b.ctx.core .as) .store dst
    let y : Copy := {
        pair := p.n, fill := fill, pad := pad, va := x.sa.toNat, src := src.map (fun q => (q.pa, q.len)), dst := dst.map (fun q => (q.pa, q.len))
        left := List.range (x.sb.toNat / 8), bad := [], whole := x.sd.toNat == 0 && x.sb.toNat == p.len
        sem := if x.code.head.se then some x.code.head.ssem else none, pc := x.pc, slot := x.slot, ord := x.ord, since := b.clock }
    b.acceptCopy x f fill pad = .leave (if x.sb.toNat = 0 then m.endCopy b.ctx.core y else m.setMe { m.me with copies := m.me.copies ++ [y] }) := by
  intro m y
  have c1 : ¬ (x.sd.toNat % 8 ≠ 0 ∨ x.sb.toNat % 8 ≠ 0) := by omega
  have c2 : ¬ (fill.isNone = true ∧ x.sa.toNat % 8 ≠ 0) := fun ⟨hf, ha⟩ => ha (hsrc (Option.isNone_iff_eq_none.1 hf))
  have c3 : ¬ p.len < x.sd.toNat + x.sb.toNat := Nat.not_lt.2 hlen
  have c4 : ¬ (pad = true ∧ b.me.padHeld [((x.sa.toNat : Nat), x.sb.toNat)] = true) := fun ⟨hq, hh⟩ => by rw [(hpad hq).1] at hh; cases hh
  have c5 : ¬ (pad = true ∧ b.padAway x.sa.toNat x.sb.toNat = true) := fun ⟨hq, hh⟩ => by
    rw [State.padAway, (hpad hq).2] at hh
    cases hh
  simp only [State.acceptCopy, hp, if_neg c1, if_neg c2, if_neg c3, if_neg c4, if_neg c5, h1, h2, h3]
  split <;> rfl

theorem copyCompletion_ok {s : State} {c : CoreId} {x : Copy} (hu : s.ctx.ev.unit = c.val)
    (hx : (s.core c).copies.find? (fun y => y.ord == s.ctx.ev.val) = some x) :
    exec .copyCompletion s = .next ((State.copyWords c x.left s x).1.endCopy c (State.copyWords c x.left s x).2) := by
  have h : s.ctx.ev.unit < 136 := by rw [hu]; exact c.isLt
  have hc : (⟨s.ctx.ev.unit, h⟩ : CoreId) = c := Fin.ext hu
  dsimp only [exec, execCopyCompletion]
  rw [dif_pos h, hc, hx]

/-- XPUB with no copy of the pair left (R331). -/
theorem exec_xpub {s s1 : State} {f : E} {c : CoreId} {x : Cmd} {p : Pair} {ps : List Piece} {v : Word} (hh : HeadRuns s c .copy x)
    (hcp : ∀ y ∈ (s.core c).copies, y.pair ≠ f.of 0 10) (hp : s.pair (s.core c).asid (f.of 0 10) = some p) (hpo : p.poisoned = none)
    (hsel : (s.asCmd c .copy x).selector p .atomic = (s1, .ok (ps, v))) :
    exec (.xpub f) s = .next (completed (State.writePieces (s.core c).jobid
      ((s1.mark (.strm c .as) .atomic ps).publish (s.core c).asid (f.of 0 10) (s.core c).jobid) ps (leBytes (v + 1).toNat 8)) c .copy x) := by
  have hany : ((s.asCmd c .copy x).me.copies.any fun y => y.pair == f.of 0 10) = false :=
    List.any_eq_false.2 fun y hy => by rw [beq_iff_eq]; exact hcp y hy
  have hp' : (s.asCmd c .copy x).pair (s.asCmd c .copy x).me.asid (f.of 0 10) = some p := hp
  dsimp only [exec, execXpub]
  refine command_done hh ?_
  simp only [hany, hp', hpo, hsel, Bool.false_eq_true, if_false]
  rfl

/-- Settles O28: an allocation takes the first number that is free, and a command of the copy engine is its body at the head. -/
theorem copyEngineCompletes : Obligations.CopyEngineCompletes := by
  intro s f asid r
  refine ⟨fun s1 ps hg h0 h1 h2 h3 hx => exec_xshdAlloc hg h0 h1 h2 h3 hx, fun p hg hp hb => exec_xshdFree hg hp hb, ?_,
    fun c x p s1 ps v hh hcp hp hpo hsel => exec_xpub hh hcp hp hpo hsel, fun c x hu hx => copyCompletion_ok hu hx⟩
  intro c x p s1 s2 s3 sel src dst v i fill pad hh hi b n off hp hoff hn hsrc hlen hpad h1 h2 h3 m y
  have hacc := State.acceptCopy_ok (b := b) hp hoff hn hsrc hlen hpad h1 h2 h3
  rcases hi with ⟨rfl, rfl, rfl⟩ | ⟨rfl, rfl, rfl⟩
  · dsimp only [exec, execXcopy]
    exact command_leave hh hacc
  · dsimp only [exec, execXfill]
    exact command_leave hh hacc

end Sys2Proof.Machine
end

section
/-! PROOF. Semaphores (R332, R333, R358, R359). O29. -/
namespace Sys2Proof.Machine

theorem Core.sem_setSem {k : Core} {n v : Nat} (hn : n < 256) (hv : v < 2 ^ 32) : (k.setSem n v).sem n = v := by
  simp only [Core.sem, Core.setSem, Vector.toList_setIfInBounds]
  rw [List.getElem?_set_self (by rw [Vector.length_toList]; exact hn)]
  exact Nat.mod_eq_of_lt hv

theorem State.afterLinks_ok {s : State} (h : s.ctx.strm = .xs → s.me.linkQ = []) (body : State → Res) : s.afterLinks body = body s := by
  refine if_neg ?_
  rw [Bool.and_eq_true, not_and]
  intro hx
  rw [h (eq_of_beq hx)]
  decide

/-! Waiters of a semaphore. -/

/-- When a wait that stands on a semaphore was made. -/
def semSeq (n : Nat) (w : Option Wait) : Option Nat :=
  match w with
  | some w => if w.kind == .sem && w.obj == n && w.grant.isNone then some w.seq else none
  | none => none

theorem semWaiters_eq (k : Core) (n : Nat) :
    k.semWaiters n = (allStreams.filterMap fun i => (semSeq n (k.strm i).wait).map fun q => (q, SemWaiter.strm i)) ++
      allEngs.filterMap fun e => ((k.headCmd e).bind fun c => semSeq n c.wait).map fun q => (q, SemWaiter.eng e) := rfl

theorem semSeq_granted (n : Nat) (w : Wait) (v : Word) : semSeq n (some { w with grant := some v }) = none := by
  rw [semSeq, Option.isNone_some, Bool.and_false, if_neg Bool.false_ne_true]

theorem serveSem_of_no_waiter {k : Core} {n : Nat} (h : k.semWaiters n = []) (fuel : Nat) : k.serveSem n fuel = k := by
  cases fuel with
  | zero => rfl
  | succ fuel =>
    rw [Core.serveSem, h]
    split <;> rfl

theorem signal_of_no_waiter {k : Core} {n : Nat} (h : k.semWaiters n = []) (amount : Nat) :
    k.signal n amount = k.setSem n (min (k.sem n + amount) 0xFFFFFFFF) :=
  serveSem_of_no_waiter (k := k.setSem n (min (k.sem n + amount) 0xFFFFFFFF)) h 16

/-- The one waiter of a semaphore is a wait of its stream. -/
theorem wait_of_semWaiters {k : Core} {n q : Nat} {i : StreamId} (h : k.semWaiters n = [(q, .strm i)]) :
    ∃ w, (k.strm i).wait = some w := by
  have hm : (q, SemWaiter.strm i) ∈ k.semWaiters n := by rw [h]; exact List.mem_singleton_self _
  rw [semWaiters_eq, List.mem_append] at hm
  rcases hm with hm | hm
  · obtain ⟨j, -, hj⟩ := List.mem_filterMap.1 hm
    obtain ⟨q', hq, he⟩ := Option.map_eq_some_iff.1 hj
    cases he
    cases hw : (k.strm i).wait with
    | none => rw [hw] at hq; cases hq
    | some w => exact ⟨w, rfl⟩
  · obtain ⟨e, -, he⟩ := List.mem_filterMap.1 hm
    obtain ⟨q', -, he⟩ := Option.map_eq_some_iff.1 he
    cases he

/-- Once the one waiter is granted nothing waits on the semaphore. -/
theorem semWaiters_granted {k k2 : Core} {n q : Nat} {i : StreamId} {w : Wait} {v : Word} (h : k.semWaiters n = [(q, .strm i)])
    (hs : ∀ j, j ≠ i → (k2.strm j).wait = (k.strm j).wait) (hi : (k2.strm i).wait = some { w with grant := some v })
    (he : ∀ e, k2.headCmd e = k.headCmd e) : k2.semWaiters n = [] := by
  have hmem (y : Nat × SemWaiter) (hy : y ∈ k.semWaiters n) : y.2 = .strm i := by
    rw [h] at hy
    rw [List.mem_singleton.1 hy]
  rw [semWaiters_eq] at hmem ⊢
  refine List.append_eq_nil_iff.2 ⟨List.filterMap_eq_nil_iff.2 fun j hj => ?_, List.filterMap_eq_nil_iff.2 fun e hje => ?_⟩
  · by_cases hji : j = i
    · rw [hji, hi, semSeq_granted]
      rfl
    · rw [hs j hji]
      cases hq : semSeq n (k.strm j).wait with
      | none => rfl
      | some q' =>
        have := hmem (q', .strm j) (List.mem_append_left _ (List.mem_filterMap.2 ⟨j, hj, by rw [hq]; rfl⟩))
        cases this
        exact absurd rfl hji
  · rw [he e]
    cases hq : (k.headCmd e).bind fun c => semSeq n c.wait with
    | none => rfl
    | some q' =>
      have := hmem (q', .eng e) (List.mem_append_right _ (List.mem_filterMap.2 ⟨e, hje, by rw [hq]; rfl⟩))
      cases this

theorem semaphoreServes_rule : SemaphoreServesRule := by
  intro k n amount q i hn h0 hlt hz hw
  obtain ⟨w, hwait⟩ := wait_of_semWaiters hw
  let k0 := k.setSem n amount
  let k1 := k0.setSem n (amount - 1)
  let k2 := k1.setStrm i { k1.strm i with wait := some { w with grant := some (BitVec.ofNat 64 amount) } }
  have hmin : min (k.sem n + amount) 0xFFFFFFFF = amount := by rw [hz]; omega
  have hsem0 : k0.sem n = amount := Core.sem_setSem hn hlt
  have hw0 : k0.semWaiters n = [(q, .strm i)] := hw
  have hwk1 : (k1.strm i).wait = some w := hwait
  have hk2i : (k2.strm i).wait = some { w with grant := some (BitVec.ofNat 64 amount) } := by rw [Core.strm_setStrm]
  have hk2 (j : StreamId) (hj : j ≠ i) : (k2.strm j).wait = (k.strm j).wait := by
    rw [Core.strm_setStrm_of_ne _ _ _ _ (Ne.symm hj)]
    rfl
  have hnone : k2.semWaiters n = [] :=
    semWaiters_granted (w := w) (v := BitVec.ofNat 64 amount) hw hk2 hk2i fun e => by cases e <;> rfl
  have hsig : k.signal n amount = k2 := by
    have hne : ¬ k0.sem n = 0 := by rw [hsem0]; omega
    rw [Core.signal, hmin]
    show k0.serveSem n (15 + 1) = k2
    rw [Core.serveSem, if_neg hne, hw0]
    show Core.serveSem ((k0.setSem n (k0.sem n - 1)).setStrm i { (k0.setSem n (k0.sem n - 1)).strm i with
      wait := ((k0.setSem n (k0.sem n - 1)).strm i).wait.map fun w => { w with grant := some (BitVec.ofNat 64 (k0.sem n)) } }) n 15 = k2
    rw [hsem0, hwk1]
    exact serveSem_of_no_waiter (k := k2) hnone 15
  refine ⟨w, hwait, ?_, ?_⟩
  · rw [hsig]
    exact Core.sem_setSem (k := k0) hn (by omega)
  · rw [hsig, hk2i]

theorem semaphores_rule : SemaphoresCompleteRule := by
  intro s f hg n old v put
  refine ⟨fun hst hne => ?_, fun w u hst hgr => ?_, fun hw hx => ⟨?_, ?_⟩, ?_⟩
  · have hz : ¬ s.me.sem (f.xf 0 8) = 0 := hne
    dsimp only [exec, execSemw]
    refine issue_done hg ?_
    simp only [hst, if_neg hz]
    rfl
  · dsimp only [exec, execSemw]
    refine issue_done hg ?_
    simp only [hst, hgr]
  · dsimp only [exec, execSems]
    refine issue_done hg ((State.afterLinks_ok hx _).trans ?_)
    rw [signal_of_no_waiter hw]
    rfl
  · dsimp only [exec, execSemi]
    refine issue_done hg ((State.afterLinks_ok hx _).trans ?_)
    rw [serveSem_of_no_waiter (k := s.me.setSem (f.xf 0 8) _) hw]
    rfl
  · dsimp only [exec, execSemrd]
    exact issue_done hg rfl

/-- Settles O29: a raise of the count serves the waiters, of whom a granted one is none. -/
theorem semaphoresCompleteAndServe : Obligations.SemaphoresCompleteAndServe := ⟨semaphores_rule, semaphoreServes_rule⟩

end Sys2Proof.Machine
end

section
/-! PROOF. Barriers (R335 to R337, R360, R361). O30. -/
namespace Sys2Proof.Machine

/-! Arrival and wait. -/

/-- Below system scope, engines that rest leave only the stream's host stores (R324). -/
theorem fenced_ok {s : State} (he : s.me.enginesFenced s.ctx.strm = true) {scope : Nat} (hs : scope ≠ 4) (body : State → Res) :
    s.fenced scope body = body (if 2 ≤ scope then s.drainStream s.ctx.core s.ctx.strm else s) := by
  simp only [State.fenced, he, beq_false_of_ne hs, Bool.not_true, Bool.false_and, Bool.or_false, Bool.false_eq_true, if_false]

theorem barScope_ne (d : Word) : Machine.barScope d ≠ 4 := by
  rw [Machine.barScope]
  split <;> decide
theorem barScope_delivers (d : Word) : 2 ≤ Machine.barScope d ↔ dmrLevel d ≠ 0 := by
  rw [Machine.barScope]
  split
  · next h => simp [h]
  · next h => simp [h]
  · next h0 h1 => exact ⟨fun _ h => h0 h, fun _ => by decide⟩

theorem barArrive_ok {s : State} {i : Nat} (hp : s.me.barPend.getLsbD i = false) (he : s.me.enginesFenced s.ctx.strm = true) (go : State → Res) :
    s.barArrive i go = go ((if dmrLevel s.me.dmr ≠ 0 then s.drainStream s.ctx.core s.ctx.strm else s).barCount i) := by
  rw [State.barArrive, hp, if_neg Bool.false_ne_true, fenced_ok he (barScope_ne _)]
  simp only [barScope_delivers]

theorem barWait_ok {s : State} {i : Nat} (hp : s.me.barPend.getLsbD i = false) (d : BitVec 5) :
    s.barWait i d = .done (s.putS 1 d (BitVec.ofNat 64 i)) := by
  rw [State.barWait, hp, Bool.and_false, if_neg Bool.false_ne_true]

theorem barWait_released {s : State} {i : Nat} {w : Wait} {v : Word} (hw : s.standing .bar = some w) (h1 : w.stage = 1) (hg : w.grant = some v)
    (d : BitVec 5) : s.barWait i d = .done (s.putS 1 d (BitVec.ofNat 64 i)) := by
  have hr : ((s.standing .bar).any fun w => w.stage == 1 && w.grant.isSome) = true := by rw [hw, Option.any_some, h1, hg]; rfl
  rw [State.barWait, hr, Bool.not_true, Bool.false_and, if_neg Bool.false_ne_true]

theorem barSlot_none {s : State} (h : s.standing .bar = none) (a : BitVec 5) : s.barSlot a = (s.me.bib + (s.getS a).toNat) % s.me.bdepth := by
  rw [State.barSlot, h]
theorem barSlot_some {s : State} {w : Wait} (h : s.standing .bar = some w) (a : BitVec 5) : s.barSlot a = w.obj := by
  rw [State.barSlot, h]

theorem State.getS_setMe {s : State} {k : Core} (h : k.strm s.ctx.strm = s.str) (r : BitVec 5) : (s.setMe k).getS r = s.getS r := by
  rw [State.getS, State.getS, State.str_setMe, h]

theorem exec_bibset {s : State} {f : RRR} (hg : s.guard = true)
    (h : f.b = 0 ∨ 1 ≤ (s.getS f.b).toNat ∧ (s.getS f.b).toNat ≤ 16 ∧ s.me.barPend = 0) :
    let depth := if f.b = 0 then s.me.bdepth else (s.getS f.b).toNat
    exec (.bibset f) s = .next ((s.setMe { s.me with
      bdepth := depth, bib := (if f.a = 0 then s.me.bib + 1 else (s.getS f.a).toNat) % depth }).putS 1 f.d (BitVec.ofNat 64 s.me.bib)).retire := by
  intro depth
  dsimp only [exec, execBibset]
  refine issue_done hg ?_
  by_cases hb : f.b = 0
  · rw [if_pos hb]
    simp only [depth, if_pos hb]
  · obtain ⟨h1, h16, hp⟩ := h.resolve_left hb
    have hc : ¬ ((s.getS f.b).toNat < 1 ∨ 16 < (s.getS f.b).toNat) := by omega
    let k : Core := { s.me with bdepth := (s.getS f.b).toNat }
    have hs : (s.setMe k).getS f.a = s.getS f.a := State.getS_setMe (k := k) (Eq.refl s.str) _
    have hm : (s.setMe k).me = k := State.me_setMe s k
    have hd : s.newDepth (s.getS f.b) = fun go => go (s.setMe k) := by
      funext go
      rw [State.newDepth, if_neg hc, if_neg (Classical.not_not.2 hp)]
    rw [if_neg hb, hd]
    dsimp only
    rw [hs, hm, State.setMe_setMe]
    simp only [depth, if_neg hb]
    rfl

/-! The count of a phase. -/

theorem getLsbD_bit (i j : Nat) (hj : j < 16) : ((1 <<< i : Nat) : BitVec 16).getLsbD j = decide (j = i) := by
  rw [BitVec.natCast_eq_ofNat, BitVec.getLsbD_ofNat, decide_eq_true hj, Bool.true_and, Nat.one_shiftLeft, Nat.testBit_two_pow]
  exact decide_eq_decide.2 eq_comm

theorem setPending_true (k : Core) {i : Nat} (hi : i < 16) : (k.setPending i true).barPend.getLsbD i = true := by
  simp only [Core.setPending, if_true, BitVec.getLsbD_or, getLsbD_bit i i hi, decide_true, Bool.or_true]
theorem setPending_ne (k : Core) (i j : Nat) (v : Bool) (hj : j ≠ i) : (k.setPending i v).barPend.getLsbD j = k.barPend.getLsbD j := by
  by_cases h16 : j < 16
  · cases v with
    | true => simp only [Core.setPending, if_true, BitVec.getLsbD_or, getLsbD_bit i j h16, decide_eq_false hj, Bool.or_false]
    | false =>
      simp only [Core.setPending, Bool.false_eq_true, if_false, BitVec.getLsbD_and, BitVec.getLsbD_not, getLsbD_bit i j h16, decide_eq_false hj,
        decide_eq_true h16, Bool.not_false, Bool.and_true]
  · rw [BitVec.getLsbD_of_ge _ _ (Nat.not_lt.1 h16), BitVec.getLsbD_of_ge _ _ (Nat.not_lt.1 h16)]
theorem setPending_false (k : Core) {i : Nat} (hi : i < 16) : (k.setPending i false).barPend.getLsbD i = false := by
  simp only [Core.setPending, Bool.false_eq_true, if_false, BitVec.getLsbD_and, BitVec.getLsbD_not, getLsbD_bit i i hi, decide_true,
    Bool.not_true, Bool.and_false]

theorem endPhase_pending (k : Core) {i : Nat} (hi : i < 16) : (k.endPhase i).barPend.getLsbD i = false := setPending_false k hi
theorem endPhase_pending_ne (k : Core) {i j : Nat} (hj : j ≠ i) : (k.endPhase i).barPend.getLsbD j = k.barPend.getLsbD j :=
  setPending_ne k i j false hj
theorem endPhase_wait {k : Core} {i : Nat} {x : StreamId} {w : Wait} (hw : (k.strm x).wait = some w) (hk : w.kind = .bar) (ho : w.obj = i) :
    ((k.endPhase i).strm x).wait = some { w with grant := some 0 } := by
  have hc : (w.kind == .bar && w.obj == i) = true := by simp [hk, ho]
  have hs : (k.endPhase i).strm x = { k.strm x with
      wait := (k.strm x).wait.map fun w => if w.kind == .bar && w.obj == i then { w with grant := some 0 } else w } :=
    Vector.getElem_map ..
  rw [hs, hw, Option.map_some, if_pos hc]

/-- A unit that has been set is the one read back. -/
theorem Die.barrier_setBarrier (d : Die) (b : Barrier) : (d.setBarrier b).barrier b.asid b.level b.domid b.place = b := by
  let is (x : Barrier) : Bool := x.asid == b.asid && x.level == b.level && x.domid == b.domid && x.place == b.place
  have hself : is b = true := by simp [is]
  have hrest : (d.barriers.filter fun x => !is x).find? is = none :=
    List.find?_eq_none.2 fun x hx => by
      have := (List.mem_filter.1 hx).2
      rw [Bool.not_eq_true'] at this
      rw [this]
      decide
  rw [Die.barrier, Die.setBarrier]
  cases hz : b.counts.toList.all (· == 0) with
  | true =>
    have hb : b.counts = Vector.replicate 16 0 := Vector.ext fun j hj => by
      have h := List.all_eq_true.1 hz b.counts[j] (by rw [Vector.mem_toList_iff]; exact Vector.getElem_mem hj)
      rw [eq_of_beq h, Vector.getElem_replicate]
    rw [if_pos rfl]
    refine (congrArg (Option.getD · _) hrest).trans ?_
    rw [Option.getD_none, ← hb]
  | false =>
    rw [if_neg Bool.false_ne_true]
    exact congrArg (Option.getD · _) (List.find?_cons_of_pos (p := is) hself)

/-- The unit that a core's arrivals go to. -/
abbrev unitOf (s t : State) : Barrier :=
  (t.die (barrierDie (dmrLevel s.me.dmr) s.ctx.core)).barrier s.me.asid (dmrLevel s.me.dmr) (dmrDomid s.me.dmr)
    (domainPlace (dmrLevel s.me.dmr) s.ctx.core)

theorem unitOf_keys (s : State) : (unitOf s s).asid = s.me.asid ∧ (unitOf s s).level = dmrLevel s.me.dmr ∧ (unitOf s s).domid = dmrDomid s.me.dmr ∧
    (unitOf s s).place = domainPlace (dmrLevel s.me.dmr) s.ctx.core := by
  unfold unitOf Die.barrier
  cases h : List.find? _ _ with
  | none => exact ⟨rfl, rfl, rfl, rfl⟩
  | some b =>
    have := List.find?_some h
    simp only [Bool.and_eq_true, beq_iff_eq] at this
    obtain ⟨⟨⟨ha, hl⟩, hd⟩, hp⟩ := this
    exact ⟨ha, hl, hd, hp⟩

/-- An arrival's own unit after its new counts are set. -/
theorem unitOf_setBarrier (s : State) (counts : Vector Nat 16) (t : State)
    (ht : t.die (barrierDie (dmrLevel s.me.dmr) s.ctx.core) =
      (s.die (barrierDie (dmrLevel s.me.dmr) s.ctx.core)).setBarrier { unitOf s s with counts := counts }) :
    unitOf s t = { unitOf s s with counts := counts } := by
  obtain ⟨ha, hl, hd, hp⟩ := unitOf_keys s
  have h {b : Barrier} (h1 : b.asid = s.me.asid) (h2 : b.level = dmrLevel s.me.dmr) (h3 : b.domid = dmrDomid s.me.dmr)
      (h4 : b.place = domainPlace (dmrLevel s.me.dmr) s.ctx.core) (d : Die) :
      (d.setBarrier b).barrier s.me.asid (dmrLevel s.me.dmr) (dmrDomid s.me.dmr) (domainPlace (dmrLevel s.me.dmr) s.ctx.core) = b := by
    rw [← h4, ← h1, ← h2, ← h3, Die.barrier_setBarrier]
  rw [unitOf, ht]
  exact h (b := { unitOf s s with counts := counts }) ha hl hd hp _

theorem barCount_short {s : State} {i : Nat} (h : (unitOf s s).counts.toList[i]?.getD 0 + 1 < dmrCount s.me.dmr) :
    s.barCount i = (s.setMe (s.me.setPending i true)).setDie (barrierDie (dmrLevel s.me.dmr) s.ctx.core)
      (((s.setMe (s.me.setPending i true)).die (barrierDie (dmrLevel s.me.dmr) s.ctx.core)).setBarrier
        { unitOf s s with counts := (unitOf s s).counts.setIfInBounds i ((unitOf s s).counts.toList[i]?.getD 0 + 1) }) := if_pos h

/-- The state in which a full phase's unit is empty again. -/
abbrev emptied (s : State) (i : Nat) : State :=
  (s.setMe (s.me.setPending i true)).setDie (barrierDie (dmrLevel s.me.dmr) s.ctx.core)
    (((s.setMe (s.me.setPending i true)).die (barrierDie (dmrLevel s.me.dmr) s.ctx.core)).setBarrier
      { unitOf s s with counts := (unitOf s s).counts.setIfInBounds i 0 })

theorem barCount_full {s : State} {i : Nat} (h : dmrCount s.me.dmr ≤ (unitOf s s).counts.toList[i]?.getD 0 + 1) :
    s.barCount i = { emptied s i with
      cores := (emptied s i).cores.mapFinIdx fun m x h => if x.active && sameDomain s.me s.ctx.core x ⟨m, h⟩ then x.endPhase i else x
      saved := (emptied s i).saved.map fun x =>
        if sameDomain s.me s.ctx.core x.core x.origin then { x with core := x.core.endPhase i } else x } := if_neg (Nat.not_lt.2 h)

/-- A member of the domain after a full phase: its bit is clear and its waits on the slot are satisfied (R335). -/
theorem barCount_member {s : State} {i : Nat} (h : dmrCount s.me.dmr ≤ (unitOf s s).counts.toList[i]?.getD 0 + 1) {c : CoreId}
    (ha : (s.core c).active = true) (hd : sameDomain s.me s.ctx.core (s.core c) c = true) :
    (s.barCount i).core c = ((s.setMe (s.me.setPending i true)).core c).endPhase i := by
  have hkeep : ((s.setMe (s.me.setPending i true)).core c).active = true ∧
      sameDomain s.me s.ctx.core ((s.setMe (s.me.setPending i true)).core c) c = true := by
    by_cases hc : s.ctx.core = c
    · subst hc
      rw [show (s.setMe (s.me.setPending i true)).core s.ctx.core = s.me.setPending i true from State.core_setCore ..]
      exact ⟨ha, hd⟩
    · rw [show (s.setMe (s.me.setPending i true)).core c = s.core c from State.core_setCore_of_ne _ _ _ _ hc]
      exact ⟨ha, hd⟩
  rw [barCount_full h]
  refine (Vector.getElem_mapFinIdx ..).trans ?_
  have hx : (((s.setMe (s.me.setPending i true)).core c).active &&
      sameDomain s.me s.ctx.core ((s.setMe (s.me.setPending i true)).core c) c) = true := by rw [hkeep.1, hkeep.2]; rfl
  exact if_pos hx

/-- Settles O30: an arrival counts on the unit of its domain, and one that fills it ends the phase for every member. -/
theorem barriersComplete : Obligations.BarriersComplete := by
  intro s f
  refine ⟨fun hg hst => ?_, fun w v hg hst h1 hgr => ⟨?_, ?_⟩, fun i hi => ⟨fun hn => ?_, fun hn => ?_, fun hn y hy hd => ?_⟩⟩
  · refine ⟨fun hp => ?_, fun hp he => ⟨?_, fun hp2 => ?_⟩, exec_bibset hg⟩
    · dsimp only [exec, execBarw]
      rw [← barSlot_none hst] at hp ⊢
      exact issue_done hg (barWait_ok hp _)
    · dsimp only [exec, execBara]
      rw [← barSlot_none hst] at hp ⊢
      exact issue_done hg (barArrive_ok hp he _)
    · dsimp only [exec, execBar]
      refine issue_done hg ?_
      rw [hst]
      rw [← barSlot_none hst] at hp hp2 ⊢
      exact (barArrive_ok hp he _).trans (barWait_ok hp2 _)
  · dsimp only [exec, execBar]
    refine issue_done hg ?_
    simp only [hst, h1, if_true, barSlot_some hst]
    exact barWait_released hst h1 hgr _
  · dsimp only [exec, execBarw]
    refine issue_done hg ?_
    rw [barSlot_some hst]
    exact barWait_released hst h1 hgr _
  · rw [barCount_short hn]
    refine ⟨?_, unitOf_setBarrier s _ _ (State.die_setDie ..), fun c hc => State.core_setCore_of_ne _ _ _ _ (Ne.symm hc)⟩
    exact (congrArg (fun k : Core => k.barPend.getLsbD i) (State.me_setMe s _)).trans (setPending_true _ hi)
  · refine ⟨?_, fun c ha hd => ?_⟩
    · rw [barCount_full hn]
      exact unitOf_setBarrier s _ _ (State.die_setDie (s.setMe (s.me.setPending i true)) _ _)
    · have hm := barCount_member hn ha hd
      refine ⟨by rw [hm]; exact endPhase_pending _ hi, fun j hj hc => ?_, fun x w hw hk ho => ?_⟩
      · rw [hm, endPhase_pending_ne _ hj, show (s.setMe (s.me.setPending i true)).core c = s.core c from State.core_setCore_of_ne _ _ _ _ (Ne.symm hc)]
      · rw [State.strm, hm]
        refine endPhase_wait ?_ hk ho
        by_cases hc : s.ctx.core = c
        · subst hc
          rw [show (s.setMe (s.me.setPending i true)).core s.ctx.core = s.me.setPending i true from State.core_setCore ..]
          exact hw
        · rw [show (s.setMe (s.me.setPending i true)).core c = s.core c from State.core_setCore_of_ne _ _ _ _ hc]
          exact hw
  · rw [barCount_full hn] at hy
    obtain ⟨x, -, hx⟩ := List.mem_map.1 hy
    by_cases hdx : sameDomain s.me s.ctx.core x.core x.origin = true
    · rw [if_pos hdx] at hx
      rw [← hx]
      exact endPhase_pending _ hi
    · rw [if_neg hdx] at hx
      rw [← hx] at hd
      exact absurd hd hdx

end Sys2Proof.Machine
end

section
/-! PROOF. Locks, queues and tokens (R338 to R343, R362 to R367). O31, O32. -/
namespace Sys2Proof.Machine

/-! Locks. -/

theorem tryAcquire_free {s : State} {pa : Nat} (hw : (s.pread8 pa).getLsbD 63 = false) (ht : s.tableFull (dieOf s.ctx.core) = false) (d : BitVec 5)
    (va : Nat) : s.tryAcquire d va pa =
      some (.done ((s.holdLock s.ctx.core s.ctx.strm pa va ((s.pread8 pa).getLsbD 62)).arriveS d (s.pread8 pa))) := by
  simp only [State.tryAcquire, hw, ht, Bool.false_eq_true, if_false]
theorem tryAcquire_held {s : State} {pa : Nat} (hw : (s.pread8 pa).getLsbD 63 = true) (d : BitVec 5) (va : Nat) : s.tryAcquire d va pa = none :=
  if_pos hw

theorem exec_trylk {s s1 : State} {f : RRR} {p : Piece} (hg : s.guard = true)
    (ha : s.atomCheck s.ctx.core s.ctx.strm (s.getS f.a).toNat 8 = (s1, .ok [p])) :
    exec (.trylk f) s = (((s1.mark s.walker .atomic [p]).tryAcquire f.d (s.getS f.a).toNat p.pa).getD
      (.done ((s1.mark s.walker .atomic [p]).arriveS f.d ((s1.mark s.walker .atomic [p]).pread8 p.pa)))).finish s := by
  dsimp only [exec, execTrylk]
  rw [State.issue_true hg, ha]

theorem exec_lock {s s1 : State} {f : RRR} {p : Piece} (hg : s.guard = true) (hst : s.standing .lock = none)
    (ha : s.atomCheck s.ctx.core s.ctx.strm (s.getS f.a).toNat 8 = (s1, .ok [p])) :
    exec (.lock f) s = (((s1.mark s.walker .atomic [p]).tryAcquire f.d (s.getS f.a).toNat p.pa).getD
      (.wait (s1.mark s.walker .atomic [p]) .lock (s.getS f.a).toNat p.pa 0 true)).finish s := by
  dsimp only [exec, execLock]
  rw [State.issue_true hg]
  simp only [hst, ha]

theorem releaseLock_no_waiter {s : State} {pa : Nat} (h : s.lockWaiters pa = []) (job : Word) :
    s.releaseLock job pa false = s.pwriteN job pa (List.replicate 8 0) := by
  rw [State.releaseLock, h]
  rfl

/-- Settles O31: a free word is taken, a held one is not, and the holder's release is its word's. -/
theorem locksComplete : Obligations.LocksComplete := by
  intro s s1 f p hg ha m w
  refine ⟨fun hw ht => ⟨fun hst => ?_, ?_⟩, fun w v hst hgr => ?_, fun hw => ?_, fun he => ?_⟩
  · rw [exec_lock hg hst ha, tryAcquire_free hw ht, Option.getD_some, Res.finish_done]
  · rw [exec_trylk hg ha, tryAcquire_free hw ht, Option.getD_some, Res.finish_done]
  · dsimp only [exec, execLock]
    refine issue_done hg ?_
    simp only [hst, hgr]
  · rw [exec_trylk hg ha, tryAcquire_held hw, Option.getD_none, Res.finish_done]
  · intro u hheld hstrm hjob v
    refine ⟨?_, fun hn => releaseLock_no_waiter hn _⟩
    have hmine : ((u.pread8 p.pa).getLsbD 63 && ((u.pread8 p.pa).extractLsb' 48 3).toNat == s.ctx.strm.num &&
        ((u.pread8 p.pa).extractLsb' 0 41).toNat == s.me.jobid.toNat % 2 ^ 41) = true := by
      rw [hheld, hstrm, hjob, beq_self_eq_true, beq_self_eq_true]
      rfl
    dsimp only [exec, execUnlock]
    refine issue_done hg ?_
    rw [ha]
    refine (fenced_ok he (scope := 3) (by decide) _).trans ?_
    show (if (!((u.pread8 p.pa).getLsbD 63 && ((u.pread8 p.pa).extractLsb' 48 3).toNat == s.ctx.strm.num &&
      ((u.pread8 p.pa).extractLsb' 0 41).toNat == s.me.jobid.toNat % 2 ^ 41)) = true then _ else _) = _
    rw [hmine]
    rfl

/-! Queues and tokens. -/

theorem tokenPush_ok {s : State} {n : Nat} (hp : (s.me.tokensAt n).prod = some s.ctx.strm) (hc : (s.me.tokensAt n).count < 64)
    (hl : s.ctx.strm = .xs → s.me.linkQ = []) :
    s.tokenPush n = .done (s.setMe (s.me.setTokens n { s.me.tokensAt n with count := (s.me.tokensAt n).count + 1 })) := by
  rw [State.tokenPush, State.afterLinks_ok hl]
  simp only [hp, ne_eq, not_true_eq_false, if_false, if_neg (Nat.not_le.2 hc)]
theorem tokenWait_ok {s : State} {n : Nat} (hp : (s.me.tokensAt n).cons = some s.ctx.strm) (hc : (s.me.tokensAt n).count ≠ 0) :
    s.tokenWait n = .done (s.setMe (s.me.setTokens n { s.me.tokensAt n with count := (s.me.tokensAt n).count - 1 })) := by
  simp only [State.tokenWait, hp, ne_eq, not_true_eq_false, if_false, if_neg hc]

theorem exec_qpush {s : State} {f : RX} (hg : s.guard = true) (hp : (s.me.queueAt (f.xf 0 4)).prod = some s.ctx.strm)
    (has : f.xf 0 4 < 8 ∨ s.ctx.strm ≠ .as) (hr : (s.me.queueAt (f.xf 0 4)).entries.length < (if f.xf 0 4 < 8 then 16 else 4))
    (hl : s.ctx.strm = .xs → s.me.linkQ = []) :
    exec (.qpush f) s = .next (s.setMe (s.me.setQueue (f.xf 0 4) { s.me.queueAt (f.xf 0 4) with
      entries := (s.me.queueAt (f.xf 0 4)).entries ++ [⟨if f.xf 0 4 < 8 then (s.getS f.a).setWidth 2048 else s.getV f.a, true, 0⟩] })).retire := by
  have hc : ¬ ((s.me.queueAt (f.xf 0 4)).prod ≠ some s.ctx.strm ∨ 8 ≤ f.xf 0 4 ∧ s.ctx.strm = .as) := by
    rintro (h | ⟨h8, h⟩)
    · exact h hp
    · exact has.elim (fun h' => absurd h8 (Nat.not_le.2 h')) (fun h' => h' h)
  have hd : ¬ queueDepth (f.xf 0 4) ≤ (s.me.queueAt (f.xf 0 4)).entries.length := Nat.not_le.2 hr
  dsimp only [exec, execQpush]
  refine issue_done hg ((State.afterLinks_ok hl _).trans ?_)
  simp only [if_neg hc, if_neg hd]

/-- Settles O32: each goes on where its queue or its count lets it. -/
theorem queuesAndTokensComplete : Obligations.QueuesAndTokensComplete := by
  intro s f g k n q tok linked
  refine ⟨fun hg => ⟨fun hp has hr hl => exec_qpush hg hp has hr hl, fun e rest hc hq ha => ⟨?_, ?_⟩, ?_, fun hp hc hl => ?_, fun hp hc => ?_⟩,
    fun hp hc hl => ?_, fun hp hc => ?_⟩
  · dsimp only [exec, execQpop]
    exact issue_done hg (State.takeHead_arrived hc hq ha _)
  · dsimp only [exec, execQpeek]
    exact issue_done hg (State.takeHead_arrived hc hq ha _)
  · dsimp only [exec, execQstat]
    exact issue_done hg rfl
  · dsimp only [exec, execTokp]
    exact issue_done hg (tokenPush_ok hp hc hl)
  · dsimp only [exec, execTokw]
    exact issue_done hg (tokenWait_ok hp hc)
  · dsimp only [exec, execTok16Push]
    exact always_done (tokenPush_ok hp hc hl)
  · dsimp only [exec, execTok16Wait]
    exact always_done (tokenWait_ok hp hc)

end Sys2Proof.Machine
end

section
/-! PROOF. The wait-for table and the wait limit (R112, R345 to R354, R368 to R370). O33. -/
namespace Sys2Proof.Machine

/-- A settled stream whose engines rest (R112). -/
theorem State.settled_ok {s : State} (hp : s.str.pending = []) (ha : s.str.arriving = []) (he : s.me.enginesIdle s.ctx.strm = true)
    (body : State → Res) : s.settled body = body s := by
  simp only [State.settled, hp, ha, he, List.isEmpty_nil, Bool.not_true, Bool.false_eq_true, if_false]

theorem exec_waite {s : State} (hg : s.guard = true) (hp : s.str.pending = []) (ha : s.str.arriving = [])
    (he : s.me.enginesIdle s.ctx.strm = true) (hd : s.enginesDone s.ctx.core s.ctx.strm = true) : exec .waite s = .next s.retire := by
  dsimp only [exec, execWaite]
  refine issue_done hg ((State.settled_ok hp ha he _).trans ?_)
  rw [hd, if_pos rfl]

/-! Explicit registrations. -/

theorem exec_wreg {s : State} {f : RX} (hg : s.guard = true) :
    let w : Wait := ⟨WaitKind.ofCode (f.xf 0 4), identity (f.xf 0 4) (s.getS f.a), 0, s.seq, 0, none, 0, true, s.clock, s.str.wlim.toNat⟩
    let next : State := { s with seq := s.seq + 1 }
    let placed := next.setStr { s.str with expl := some w }
    (next.setStr { s.str with expl := none }).tableFull (dieOf s.ctx.core) = false →
    placed.closedSet ⟨s.ctx.core, s.ctx.strm, none, w⟩ = [] → exec (.wreg f) s = .next (placed.putS 1 f.d 0).retire := by
  intro w next placed ht hc
  have hw : s.newWait s.ctx.core s.ctx.strm (WaitKind.ofCode (f.xf 0 4)) (identity (f.xf 0 4) (s.getS f.a)) 0 0 true = w := rfl
  have ht' : (next.setStr { next.str with expl := none }).tableFull (dieOf s.ctx.core) = false := ht
  have hc' : (next.setStr { next.str with expl := some w }).closedSet ⟨s.ctx.core, s.ctx.strm, none, w⟩ = [] := hc
  dsimp only [exec, execWreg]
  refine issue_done hg ?_
  rw [hw, show State.tableFull _ _ = false from ht', if_neg Bool.false_ne_true, show State.closedSet _ _ = [] from hc']
  rfl

/-! Declared holders. -/

section
variable {s : State} {f : RX} (hg : s.guard = true)
include hg

/-- The holding that a WHOLD names (R369). -/
abbrev holdingOf (s : State) (f : RX) : Holding :=
  ⟨s.me.jobid, s.ctx.strm, WaitKind.ofCode (f.xf 0 4), identity (f.xf 0 4) (s.getS f.a), s.me.asid, s.ctx.core.val⟩

theorem exec_whold_remove (hx : f.xf 4 1 = 1) (hs : holdingOf s f ∈ s.myDie.holds) :
    let t := ((s.setMyDie { s.myDie with holds := s.myDie.holds.filter (· != holdingOf s f) }).putS 1 f.d 1).retire
    exec (.whold f) s =
      .next (State.detect (t.waiters.filter fun x => x.w.kind == (holdingOf s f).kind && x.w.obj == (holdingOf s f).obj) t) := by
  intro t
  have hc : s.myDie.holds.contains (holdingOf s f) = true := List.contains_iff_mem.2 hs
  dsimp only [exec, execWhold]
  refine issue_stay hg ?_
  rw [if_pos hx, show List.contains _ _ = true from hc]
  rfl
theorem exec_whold_none (hx : f.xf 4 1 = 1) (hs : holdingOf s f ∉ s.myDie.holds) : exec (.whold f) s = .next (s.putS 1 f.d 0).retire := by
  have hc : s.myDie.holds.contains (holdingOf s f) = false := Bool.eq_false_iff.2 fun h => hs (List.contains_iff_mem.1 h)
  dsimp only [exec, execWhold]
  refine issue_done hg ?_
  rw [if_pos hx, show List.contains _ _ = false from hc]
  rfl
theorem exec_whold_again (hx : f.xf 4 1 = 0) (hs : holdingOf s f ∈ s.myDie.holds) : exec (.whold f) s = .next (s.putS 1 f.d 0).retire := by
  have hc : s.myDie.holds.contains (holdingOf s f) = true := List.contains_iff_mem.2 hs
  have h1 : ¬ f.xf 4 1 = 1 := by omega
  dsimp only [exec, execWhold]
  refine issue_done hg ?_
  rw [if_neg h1, show List.contains _ _ = true from hc]
  rfl
theorem exec_whold_declare (hx : f.xf 4 1 = 0) (hs : holdingOf s f ∉ s.myDie.holds) (ht : s.tableFull (dieOf s.ctx.core) = false) :
    exec (.whold f) s = .next ((s.setMyDie { s.myDie with holds := holdingOf s f :: s.myDie.holds }).putS 1 f.d 1).retire := by
  have hc : s.myDie.holds.contains (holdingOf s f) = false := Bool.eq_false_iff.2 fun h => hs (List.contains_iff_mem.1 h)
  have h1 : ¬ f.xf 4 1 = 1 := by omega
  dsimp only [exec, execWhold]
  refine issue_done hg ?_
  rw [if_neg h1, show List.contains _ _ = false from hc, ht]
  rfl

end

/-! The sweep and the limit. -/

theorem sweepDie_none {d : Fin 2} {t : State} (h : t.closedSubset t.waiters.length t.waiters = []) (fuel : Nat) :
    State.sweepDie d fuel [] t = t := by
  cases fuel with
  | zero => rfl
  | succ fuel =>
    have hall : (t.waiters.filter fun x => !([] : List Waiter).contains x) = t.waiters := List.filter_eq_self.2 fun _ _ => rfl
    simp only [State.sweepDie, hall, h, State.victim]

theorem Eng.ofNum_num (e : Eng) : Eng.ofNum e.num = e := by cases e <;> rfl

/-- A wait that has passed its limit is still up for its trap (R354). -/
theorem limit_passed {k : Core} {w : Wait} (hr : w.reg = true) (hs : k.satisfied w = false) (h0 : 0 < w.limit) (hl : w.limit < w.count) :
    (w.limit = 0 || w.count ≤ w.limit || !w.reg || k.satisfied w) = false := by
  rw [hr, hs]
  simp
  omega

theorem exec_waitLimit_stream {s : State} {c : CoreId} {i : StreamId} {w : Wait} (hu : s.ctx.ev.unit = c.val) (hi : s.ctx.ev.sub = i.num)
    (hr : w.reg = true) (hs : (s.core c).satisfied w = false) (h0 : 0 < w.limit) (hl : w.limit < w.count) (hv : s.ctx.ev.val = 0)
    (hw : (s.strm c i).wait = some w) :
    exec .waitLimit s = .next (s.raiseWait ⟨c, i, none, w⟩ { cause := 0x20, detail := s.waitLimitDetail ⟨c, i, none, w⟩ }) := by
  have h : s.ctx.ev.unit < 136 := by rw [hu]; exact c.isLt
  have hc : (⟨s.ctx.ev.unit, h⟩ : CoreId) = c := Fin.ext hu
  dsimp only [exec, execWaitLimit]
  rw [dif_pos h, hc, hi, StreamId.ofNum_num, hv]
  simp only [if_true, hw, limit_passed hr hs h0 hl, Bool.false_eq_true, if_false]
  rfl

theorem exec_waitLimit_engine {s : State} {c : CoreId} {i : StreamId} {w : Wait} {e : Eng} {x : Cmd} (hu : s.ctx.ev.unit = c.val)
    (hi : s.ctx.ev.sub = i.num) (hr : w.reg = true) (hs : (s.core c).satisfied w = false) (h0 : 0 < w.limit) (hl : w.limit < w.count)
    (he : e ≠ .coll) (hv : s.ctx.ev.val = e.num + 1) (hx : (s.core c).headCmd e = some x) (hw : x.wait = some w) :
    exec .waitLimit s = .next (s.raiseCmd c e false { cause := 0x20, detail := s.waitLimitDetail ⟨c, i, some e, w⟩ }) := by
  have h : s.ctx.ev.unit < 136 := by rw [hu]; exact c.isLt
  have hc : (⟨s.ctx.ev.unit, h⟩ : CoreId) = c := Fin.ext hu
  have hv0 : ¬ e.num + 1 = 0 := Nat.succ_ne_zero _
  dsimp only [exec, execWaitLimit]
  rw [dif_pos h, hc, hi, StreamId.ofNum_num, hv, if_neg hv0, Nat.add_sub_cancel, Eng.ofNum_num]
  simp only [hx, Option.bind_some, hw, limit_passed hr hs h0 hl, Bool.false_eq_true, if_false]
  cases e
  case coll => exact absurd rfl he
  all_goals rfl

/-- Settles O33: the query by its form, the registration by its set, and a passed limit by where its wait stands. -/
theorem waitTableComplete : Obligations.WaitTableComplete := by
  intro s f kind h w next placed
  refine ⟨fun hg => ⟨exec_waite hg, exec_wreg hg, ?_, fun hx hs => ?_, exec_whold_none hg, exec_whold_again hg, exec_whold_declare hg,
    fun hx => ?_, fun hx => ?_, fun hx hk => ?_, fun s1 p hx hk hxl => ?_⟩, fun d hd => ?_,
    fun c i w hu hi hr hs h0 hl => ⟨fun hv hw => exec_waitLimit_stream hu hi hr hs h0 hl hv hw,
      fun e x he hv hx hw => exec_waitLimit_engine hu hi hr hs h0 hl he hv hx hw⟩⟩
  · dsimp only [exec, execWdereg]
    exact issue_done hg rfl
  · intro t on
    refine ⟨exec_whold_remove hg hx hs, fun hon => ?_⟩
    rw [exec_whold_remove hg hx hs]
    exact congrArg (fun l => Host.Outcome.next (State.detect l t)) hon
  · dsimp only [exec, execWqry]
    refine issue_done hg ?_
    rw [hx]
    rfl
  · dsimp only [exec, execWqry]
    refine issue_done hg ?_
    rw [hx]
    rfl
  · dsimp only [exec, execWqry]
    refine issue_done hg ?_
    rw [hx]
    exact if_neg hk
  · dsimp only [exec, execWqry]
    refine issue_done hg ?_
    rw [hx]
    simp only [if_pos hk, hxl]
  · intro t ht
    have hlt : s.ctx.ev.unit < 2 := by rw [hd]; exact d.isLt
    have hdd : (⟨s.ctx.ev.unit, hlt⟩ : Fin 2) = d := Fin.ext hd
    dsimp only [exec, execDeadlockSweep]
    rw [dif_pos hlt, hdd, sweepDie_none ht]

end Sys2Proof.Machine
end

section
/-! PROOF. The job instructions, and the ends of a stream and of a node (R70, R71, R83 to R91). O34. -/
namespace Sys2Proof.Machine

theorem issue_fenced {s t : State} {go body : State → Res} {scope : Nat} (hg : s.guard = true) (hb : body s = s.fenced scope go)
    (he : s.me.enginesFenced s.ctx.strm = true) (h4 : scope ≠ 4) (h2 : 2 ≤ scope) (hgo : go (s.drainStream s.ctx.core s.ctx.strm) = .done t) :
    s.issue body = .next t.retire := by
  refine issue_done hg (hb.trans ((fenced_ok he h4 go).trans ?_))
  rw [if_pos h2, hgo]

/-! Jobs enqueued. -/

theorem closedTo_ok {q : CQueue} {asid : BitVec 13} (he : q.en = true) (hs : q.src = false) (ha : q.asid = asid) : q.closedTo asid = false := by
  rw [CQueue.closedTo, he, hs, ha, bne_self_eq_false]
  rfl

section
variable {s s1 : State} {f : RRR} {bs : List Byte} (hg : s.guard = true) (ha : (s.getS f.a).toNat % 32 = 0)
  (he : s.me.enginesFenced s.ctx.strm = true)
  (hl : ((s.drainStream s.ctx.core s.ctx.strm).drainHost s.ctx.core (fun _ => true)).loadG s.ctx.core s.ctx.strm false (s.getS f.a).toNat 32 = .ok s1 bs)
  (hm : (Rec.ofBytes bs).malformed = false) (hen : ((s1.die (Rec.ofBytes bs).die).queue (Rec.ofBytes bs).queue).en = true)
  (hsrc : ((s1.die (Rec.ofBytes bs).die).queue (Rec.ofBytes bs).queue).src = false)
  (has : ((s1.die (Rec.ofBytes bs).die).queue (Rec.ofBytes bs).queue).asid = s1.me.asid)
include hg ha he hl hm hen hsrc has

theorem exec_cont_joined (hj : (Rec.ofBytes bs).join ≠ 0) : exec (.cont f) s = .next (s1.arriveS f.d 1).retire := by
  have hal : ¬ (s.getS f.a).toNat % 32 ≠ 0 := Classical.not_not.2 ha
  dsimp only [exec, execCont]
  refine issue_fenced hg (if_neg hal) he (by decide) (by decide) ?_
  simp only [State.drainStream_ctx, hl, Accessed.res, hm, closedTo_ok hen hsrc has, Bool.or_false, Bool.false_eq_true, if_false, if_pos hj]

theorem exec_cont_enqueued {s2 : State} (hj : (Rec.ofBytes bs).join = 0)
    (hroom : ((s1.die (Rec.ofBytes bs).die).queue (Rec.ofBytes bs).queue).held <
      2 ^ ((s1.die (Rec.ofBytes bs).die).queue (Rec.ofBytes bs).queue).log2cap.toNat) (hq : s1.enqueueFor s1.me bs = (s2, true)) :
    exec (.cont f) s = .next (s2.arriveS f.d 0).retire := by
  have hal : ¬ (s.getS f.a).toNat % 32 ≠ 0 := Classical.not_not.2 ha
  have hfull : ((s1.die (Rec.ofBytes bs).die).queue (Rec.ofBytes bs).queue).full = false := decide_eq_false (Nat.not_le.2 hroom)
  dsimp only [exec, execCont]
  refine issue_fenced hg (if_neg hal) he (by decide) (by decide) ?_
  simp only [State.drainStream_ctx, hl, Accessed.res, hm, closedTo_ok hen hsrc has, Bool.or_false, Bool.false_eq_true, if_false, hj, ne_eq,
    not_true_eq_false, hfull, hq]
end

/-! PRIO, DOMAIN. -/

theorem exec_prio {s : State} {g : RI} (hg : s.guard = true) :
    exec (.prio g) s =
      .next ((s.setMe { s.me with bprio := BitVec.ofNat 3 (min g.imm.toNat s.me.dprio.toNat) }).putS 1 g.d (s.me.bprio.setWidth 64)).retire := by
  have hp : (if s.me.dprio.toNat < g.imm.toNat then s.me.dprio else BitVec.ofNat 3 g.imm.toNat) = BitVec.ofNat 3 (min g.imm.toNat s.me.dprio.toNat) := by
    by_cases h : s.me.dprio.toNat < g.imm.toNat
    · rw [if_pos h, Nat.min_eq_right (Nat.le_of_lt h), BitVec.ofNat_toNat, BitVec.setWidth_eq]
    · rw [if_neg h, Nat.min_eq_left (Nat.not_lt.1 h)]
  dsimp only [exec, execPrio]
  refine issue_done hg ?_
  rw [State.setBprio, hp]

theorem exec_domain {s : State} {f : RRR} (hg : s.guard = true) (hp : s.me.barPend = 0) (hd : dmrOk (s.getS f.a) = true) :
    exec (.domain f) s = .next ((s.setMe { s.me with dmr := s.getS f.a, bib := 0 }).arriveS f.d s.me.dmr).retire := by
  dsimp only [exec, execDomain]
  refine issue_done hg ?_
  rw [State.setDomain, if_neg (Classical.not_not.2 hp), hd]
  rfl

/-! JOINI. -/

section
variable {s s1 : State} {h : RX} {p : Piece} (hg : s.guard = true) (hal : (s.getS h.a).toNat % 32 = 0)
  (hat : s.atomCheck s.ctx.core s.ctx.strm ((s.getS h.a).toNat + 16 : Nat) 4 = (s1, .ok [p]))

/-- The counter that a JOINI finds, and the one that it makes. -/
abbrev joinOld (s s1 : State) (p : Piece) : Nat := leNat ((s1.mark s.walker .atomic [p]).readPieces [p])
abbrev joinNew (s s1 : State) (h : RX) (p : Piece) : Int := (joinOld s s1 p : Int) + h.x.toInt

include hg hal hat

theorem exec_joini_out (hn : joinNew s s1 h p < 0 ∨ 0xFFFFFFFF < joinNew s s1 h p) :
    exec (.joini h) s = .next ((s1.mark s.walker .atomic [p]).arriveS h.d (BitVec.allOnes 64)).retire := by
  dsimp only [exec, execJoini]
  refine issue_done hg ?_
  rw [if_neg (Classical.not_not.2 hal), hat]
  exact if_pos hn

theorem exec_joini_count (h0 : 0 ≤ joinNew s s1 h p) (h1 : joinNew s s1 h p ≤ 0xFFFFFFFF) (hz : joinOld s s1 p = 0 ∨ joinNew s s1 h p ≠ 0) :
    exec (.joini h) s = .next ((State.writePieces (s1.mark s.walker .atomic [p]).me.jobid (s1.mark s.walker .atomic [p]) [p]
      (leBytes (joinNew s s1 h p).toNat 4)).arriveS h.d (BitVec.ofNat 64 (joinOld s s1 p))).retire := by
  have hr : ¬ (joinNew s s1 h p < 0 ∨ (0xFFFFFFFF : Int) < joinNew s s1 h p) := by omega
  dsimp only [exec, execJoini]
  refine issue_done hg ?_
  rw [if_neg (Classical.not_not.2 hal), hat]
  exact (if_neg hr).trans (if_pos hz)

theorem exec_joini_ready {e : State} (h0 : 0 < joinOld s s1 p) (hz : joinNew s s1 h p = 0)
    (he : (s1.mark s.walker .atomic [p]).me.enginesFenced (s1.mark s.walker .atomic [p]).ctx.strm = true) :
    let m := s1.mark s.walker .atomic [p]
    let u := (m.drainStream m.ctx.core m.ctx.strm).drainHost s.ctx.core (fun _ => true)
    let w := State.writePieces u.me.jobid u [p] (List.replicate 4 0)
    w.enqueueFor w.me (w.mem.readN (p.pa - 16) 32) = (e, true) →
    exec (.joini h) s = .next (e.arriveS h.d (BitVec.ofNat 64 (joinOld s s1 p))).retire := by
  intro m u w hq
  have hr : ¬ (joinNew s s1 h p < 0 ∨ (0xFFFFFFFF : Int) < joinNew s s1 h p) := by omega
  have hc : ¬ (joinOld s s1 p = 0 ∨ joinNew s s1 h p ≠ 0) := by omega
  have hw : State.writePieces u.me.jobid u [p] (leBytes (joinNew s s1 h p).toNat 4) = w := by rw [hz]; rfl
  dsimp only [exec, execJoini]
  refine issue_done hg ?_
  rw [if_neg (Classical.not_not.2 hal), hat]
  refine (if_neg hr).trans ((if_neg hc).trans ?_)
  rw [fenced_ok he (by decide), if_pos (by decide)]
  dsimp only
  rw [show State.writePieces _ _ [p] _ = w from hw, hq]
end

/-! Traces. -/

theorem startTrace_off {s : State} {f : RRR} (h : s.getS f.a = 0) (mode : Nat) :
    s.startTrace f mode = .done (s.setMyDie { s.myDie with trace := { s.myDie.trace with mode := 0, decision := none } }) := by
  rw [State.startTrace, h]
  rfl
theorem startTrace_on {s : State} {f : RRR} (h : s.getS f.a = 1) (mode : Nat) :
    s.startTrace f mode = .done (s.setMyDie { s.myDie with
      trace := ⟨mode, 0, false, false, s.myDie.trcbase.toNat, s.myDie.trclen.toNat, none⟩ }) := by
  rw [State.startTrace, h]
  rfl

theorem jobInstructions_rule : JobInstructionsCompleteRule := by
  intro s f g h hg
  refine ⟨fun s1 bs ha he hl => ?_, exec_prio hg, exec_domain hg, fun s1 p hal hat => ?_, ?_, fun h0 i hi => ?_, fun h1 i mode hi => ?_, ?_⟩
  · intro r q hm hen hsrc has
    exact ⟨exec_cont_joined hg ha he hl hm hen hsrc has, fun s2 hj hroom hq => exec_cont_enqueued hg ha he hl hm hen hsrc has hj hroom hq⟩
  · exact ⟨exec_joini_out hg hal hat, exec_joini_count hg hal hat, fun e h0 hz he => exec_joini_ready hg hal hat h0 hz he⟩
  · dsimp only [exec, execSelf]
    exact issue_done hg rfl
  · rcases hi with rfl | rfl
    · dsimp only [exec, execTrcrec]
      exact issue_done hg (startTrace_off h0 _)
    · dsimp only [exec, execTrcrpl]
      exact issue_done hg (startTrace_off h0 _)
  · rcases hi with ⟨rfl, rfl⟩ | ⟨rfl, rfl⟩
    · dsimp only [exec, execTrcrec]
      exact issue_done hg (startTrace_on h1 _)
    · dsimp only [exec, execTrcrpl]
      exact issue_done hg (startTrace_on h1 _)
  · dsimp only [exec, execTrcstat]
    exact issue_done hg rfl

/-! NODE and RDV. -/

/-- A wait that registers. -/
theorem Res.finish_wait {s t : State} {kind : WaitKind} {obj phys stage : Nat} {reg : Bool} (h : (t.block kind obj phys stage reg).2 = none) :
    (Res.wait t kind obj phys stage reg).finish s = .next (t.block kind obj phys stage reg).1 := by
  rcases hb : t.block kind obj phys stage reg with ⟨s1, _ | x⟩
  · simp only [Res.finish, hb]
  · rw [hb] at h
    cases h

/-- A wait that registers leaves the stream's arrival as it is. -/
theorem block_arrived {t : State} {kind : WaitKind} {obj phys stage : Nat} (h : (t.block kind obj phys stage true).2 = none) :
    (t.block kind obj phys stage true).1.str.arrived = t.str.arrived := by
  rw [State.block] at h ⊢
  dsimp only at h ⊢
  split
  · rfl
  · next hstand =>
    rw [if_neg hstand] at h
    split
    · next hreg => cases hreg
    · next hreg =>
      rw [if_neg hreg] at h
      split
      · next hfull => exact absurd h (by rw [if_pos hfull]; exact Option.some_ne_none _)
      · rw [State.str_setStr]

theorem atNode_wait {n : State} (hb : n.boundaryReady n.ctx.core = false) (hw : n.ctx.strm ≠ .ws) :
    n.atNode = .wait n .node 0 0 n.ctx.head.st.toNat true := by
  have hs : (n.ctx.strm == .ws) = false := beq_false_of_ne hw
  simp only [State.atNode, hb, hs, Bool.and_false, Bool.false_and, Bool.false_eq_true, if_false]

theorem nodeAndRdv_rule : NodeAndRdvCompleteRule := by
  intro s hg har hp harr he hq
  have hnode (hbusy : s.streamBusy false = false) :
      exec .node s = ((s.setStr { s.str with arrived := true, draining := false }).atNode).finish s := by
    dsimp only [exec, execNode]
    rw [State.issue_true hg, har, if_neg Bool.false_ne_true, State.settled_ok hp harr he, hbusy, if_neg Bool.false_ne_true,
      State.raisePending_none (fun x hx => absurd (hq ▸ hx) List.not_mem_nil)]
  refine ⟨fun hbusy => ?_, fun hbusy => ?_⟩
  · intro n
    refine ⟨fun hb => ?_, fun hb hw hblk => ⟨?_, ?_⟩⟩
    · rw [hnode hbusy, State.atNode, show State.boundaryReady _ _ = true from hb, if_pos rfl]
      rfl
    · rw [hnode hbusy, atNode_wait (n := n) hb hw]
      exact Res.finish_wait hblk
    · rw [block_arrived hblk, State.str_setStr]
  · intro e e2 hwait
    dsimp only [exec, execRdv]
    refine issue_stay hg ((State.settled_ok hp harr he _).trans ?_)
    rw [hbusy, if_neg Bool.false_ne_true, State.raisePending_none (fun x hx => absurd (hq ▸ hx) List.not_mem_nil),
      show Core.waiters _ _ = [] from hwait]
    rfl

/-- Settles O34: a job's record is enqueued behind the fence of its release, and a stream's end is its settled state's. -/
theorem jobsAndNodesComplete : Obligations.JobsAndNodesComplete := ⟨jobInstructions_rule, nodeAndRdv_rule⟩

end Sys2Proof.Machine
end

section
/-! PROOF. Dispatch, retirement and the events of the distributor but its selection (R62 to R64, R67, R82). -/
namespace Sys2Proof.Machine

theorem event_die {s : State} {d : Fin 2} (hu : s.ctx.ev.unit = d.val) : ∃ h : s.ctx.ev.unit < 2, (⟨s.ctx.ev.unit, h⟩ : Fin 2) = d :=
  ⟨by rw [hu]; exact d.isLt, Fin.ext hu⟩
theorem event_core {s : State} {c : CoreId} (hu : s.ctx.ev.unit = c.val) : ∃ h : s.ctx.ev.unit < 136, (⟨s.ctx.ev.unit, h⟩ : CoreId) = c :=
  ⟨by rw [hu]; exact c.isLt, Fin.ext hu⟩

/-! A job starts. -/

theorem startStrm_used (haddr fp : Word) (entry slot gpos : Nat) : (startStrm haddr fp entry slot gpos).used = true ↔ entry ≠ 0 := by
  rw [startStrm]
  split
  · next h => simp [h, Strm.reset]
  · next h => exact ⟨fun _ => h, fun _ => rfl⟩
theorem startStrm_entry {haddr fp : Word} {entry slot gpos : Nat} (h : entry ≠ 0) :
    (startStrm haddr fp entry slot gpos).pc = haddr + BitVec.ofNat 64 entry ∧ (startStrm haddr fp entry slot gpos).ended = false ∧
      (startStrm haddr fp entry slot gpos).s.toList[1]? = some fp := by
  rw [startStrm, if_neg h]
  refine ⟨rfl, rfl, ?_⟩
  rw [Strm.putS, if_neg (by decide)]
  simp

/-- The state in which a dispatched job starts (R64). -/
def startedJob (s s3 : State) (d : Fin 2) (n : Nat) (c : CoreId) (bs h frame : List Byte) : Core :=
  { startJob (Rec.ofBytes bs) h ((s.die d).queue n) (BitVec.ofNat 64 (d.val * 2 ^ 40 + (s.die d).selections % 2 ^ 40)) n
      (((s.die d).queue n).head.toNat % 2 ^ ((s.die d).queue n).log2cap.toNat)
      (BitVec.ofNat 64 (((s.die d).queue n).base.toNat + 32 * (((s.die d).queue n).head.toNat % 2 ^ ((s.die d).queue n).log2cap.toNat)))
      (BitVec.ofNat 64 (((s.die d).queue n).sbase.toNat + 8 * (((s.die d).queue n).head.toNat % 2 ^ ((s.die d).queue n).log2cap.toNat)))
      frame c s3.clock s3.gpos with
    lost := (s3.core c).lost, freeze := (s3.core c).freeze, mismatch := (s3.core c).mismatch }

theorem startedJob_strm (s s3 : State) (d : Fin 2) (n : Nat) (c : CoreId) (bs h frame : List Byte) (j : StreamId) :
    (startedJob s s3 d n c bs h frame).strm j =
      startStrm (Rec.ofBytes bs).haddr (Rec.ofBytes bs).fp (hdrEntry h j.num) s3.clock s3.gpos := by
  refine (Vector.getElem_ofFn ..).trans ?_
  cases j <;> rfl

/-- A dispatch whose record, header and frame can be read (R62). -/
theorem dispatch_ok {s s1 s2 s3 : State} {d : Fin 2} {n : Nat} {c : CoreId} {bs h frame : List Byte}
    (hf : (s.setDie d ((s.die d).setQueue n { (s.die d).queue n with head := ((s.die d).queue n).head + 1 })).distFetch d ((s.die d).queue n).asid
      (((s.die d).queue n).base.toNat + 32 * (((s.die d).queue n).head.toNat % 2 ^ ((s.die d).queue n).log2cap.toNat)) 32 = (s1, some bs))
    (hm : (Rec.ofBytes bs).malformed = false)
    (hh : s1.distFetch d ((s.die d).queue n).asid (Rec.ofBytes bs).haddr.toNat 64 = (s2, some h)) (hok : headerOk h = true)
    (hfr : (s2.configure c (hdrFuse h)).distFetch d ((s.die d).queue n).asid (Rec.ofBytes bs).fp.toNat (hdrFrame h) = (s3, some frame)) :
    s.dispatch d n c = (s3.setCore c (startedJob s s3 d n c bs h frame)).writeStatus
      ⟨d, n, ((s.die d).queue n).head.toNat % 2 ^ ((s.die d).queue n).log2cap.toNat, ((s.die d).queue n).asid,
        BitVec.ofNat 64 (((s.die d).queue n).sbase.toNat + 8 * (((s.die d).queue n).head.toNat % 2 ^ ((s.die d).queue n).log2cap.toNat))⟩
      (statusWord (startedJob s s3 d n c bs h frame).jobid (localOf c) 0 1) := by
  unfold State.dispatch
  dsimp only
  rw [hf]
  dsimp only
  rw [hm, if_neg Bool.false_ne_true, hh]
  dsimp only
  rw [hok, Bool.not_true, if_neg Bool.false_ne_true, hfr]
  rfl

theorem dispatchStartsJob_rule : DispatchStartsJobRule := by
  intro s s1 s2 s3 d i n bs h frame hu hi hv hi64 hn64 c q r slot hidle hheld hf hm hh hok hfr
  obtain ⟨hlt, hd⟩ := event_die hu
  have hb : s.ctx.ev.unit < 2 ∧ s.ctx.ev.sub < 64 ∧ s.ctx.ev.val < 64 := ⟨hlt, by omega, by omega⟩
  have hgo : (s.coreIdle c && q.held != 0) = true := by rw [hidle, Bool.true_and]; exact bne_iff_ne.2 hheld
  refine ⟨startedJob s s3 d n c bs h frame, ?_, rfl, rfl, rfl, rfl, rfl, rfl, rfl, rfl, rfl, rfl, rfl, rfl, rfl, rfl, rfl, rfl, fun j => ?_⟩
  · dsimp only [exec, execDispatch]
    rw [dif_pos hb]
    simp only [hd, hi, hv]
    exact congrArg Host.Outcome.next ((if_pos hgo).trans (dispatch_ok hf hm hh hok hfr))
  · rw [startedJob_strm]
    exact ⟨startStrm_used .., startStrm_entry⟩

/-! Retirement. -/

theorem idle_core (s : State) (c : CoreId) : ((s.idle c).core c).active = false ∧ ((s.idle c).core c).stopped = none := by
  rw [State.idle, State.core_setCore]
  exact ⟨rfl, rfl⟩

theorem exec_jobRetirement {s : State} {c : CoreId} (hu : s.ctx.ev.unit = c.val) :
    exec .jobRetirement s = .next (if s.retirable c then s.retireJob c else s) := by
  obtain ⟨hlt, hc⟩ := event_core hu
  dsimp only [exec, execJobRetirement]
  rw [dif_pos hlt, hc]

/-! A replay's end. -/

/-- A die's trace stays where records go to its supervisor (R420). -/
theorem startSystem_dies (s : State) (d : Fin 2) (entry slot : Word) : (s.startSystem d entry slot).dies = s.dies := by
  rw [State.startSystem]
  split <;> rfl
theorem flushRecords_trace (d : Fin 2) (l : List TrapRec) (s : State) : ((State.flushRecords d l s).die d).trace = (s.die d).trace := by
  induction l generalizing s with
  | nil => rfl
  | cons r t ih =>
    rw [State.flushRecords]
    dsimp only
    split
    · exact ih _
    · split
      · rw [State.die_setDie]
      · refine (ih _).trans ?_
        rw [State.die, startSystem_dies]
        rfl
theorem postSupervisor_trace (s : State) (d : Fin 2) (r : TrapRec) : ((s.postSupervisor d r).die d).trace = (s.die d).trace := by
  rw [State.postSupervisor]
  refine (flushRecords_trace ..).trans ?_
  rw [State.die_setDie]

theorem diverge_trace (s : State) (d : Fin 2) (h : HeadInfo) :
    ((s.diverge d h).die d).trace = { (s.die d).trace with mode := 3, div := true, decision := none } := by
  rw [State.diverge]
  refine (postSupervisor_trace ..).trans ?_
  rw [State.die_setDie]

theorem exec_replayDiverge {s : State} {d : Fin 2} (hu : s.ctx.ev.unit = d.val) (h : s.replayOver d = true) :
    ∃ t, exec .replayDiverge s = .next t ∧ (t.die d).trace.mode = 3 ∧ (t.die d).trace.div = true := by
  obtain ⟨hlt, hd⟩ := event_die hu
  rcases hi : s.headInfo d ((s.die d).queue (entryQueue (s.traceEntry (s.die d).trace))) with ⟨s1, h1⟩
  refine ⟨s1.diverge d h1, ?_, by rw [diverge_trace], by rw [diverge_trace]⟩
  dsimp only [exec, execReplayDiverge]
  rw [dif_pos hlt, hd]
  simp only [h, hi, Bool.not_true, Bool.false_eq_true, if_false]

end Sys2Proof.Machine
end

section
/-! PROOF. The distributor's selection (R77 to R79, R82). O35. -/
namespace Sys2Proof.Machine

/-! What the distributor looks at changes no register and no table. -/

theorem peek_frame (s : State) (d : Fin 2) (asid : BitVec 13) (va n : Nat) : s.TlbsOf (s.peek d asid va n).1 := by
  have hx := State.xlate_frame s (.die d) asid.toNat true .load va n
  rw [State.peek]
  split <;> rename_i h <;> rw [h] at hx <;> exact hx

theorem headInfo_frame (s : State) (d : Fin 2) (q : CQueue) : s.TlbsOf (s.headInfo d q).1 := by
  unfold State.headInfo
  split
  · exact .refl s
  · have h1 := peek_frame s d q.asid (q.base.toNat + 32 * (q.head.toNat % 2 ^ q.log2cap.toNat)) 32
    split
    · next hp => rw [hp] at h1; exact h1
    · next s1 bs hp =>
      rw [hp] at h1
      dsimp only
      split
      · exact h1
      · have h2 := peek_frame s1 d q.asid (Rec.ofBytes bs).haddr.toNat 64
        split <;> rename_i hp2 <;> rw [hp2] at h2 <;> exact h1.trans h2

/-- A head whose record cannot be read has no FUSE. -/
theorem headInfo_fuse (s : State) (d : Fin 2) (q : CQueue) : (s.headInfo d q).2.record = none → (s.headInfo d q).2.fuse = none := by
  unfold State.headInfo
  split
  · exact fun _ => rfl
  · split
    · exact fun _ => rfl
    · dsimp only
      split
      · exact fun _ => rfl
      · split <;> exact fun h => by cases h

theorem headInfos_frame {d : Fin 2} {ns : List Nat} {s s2 : State} {l : List (Nat × HeadInfo)} (h : State.headInfos d ns s = (s2, l)) :
    s.TlbsOf s2 := by
  induction ns generalizing s s2 l with
  | nil => cases h; exact .refl s
  | cons n t ih =>
    rw [State.headInfos] at h
    split at h
    · exact ih h
    · have hf := headInfo_frame s d ((s.die d).queue n)
      rcases hh : s.headInfo d ((s.die d).queue n) with ⟨s1, x⟩
      rcases ht : State.headInfos d t s1 with ⟨s3, l3⟩
      rw [hh] at hf
      rw [hh] at h
      dsimp only at h
      rw [ht] at h
      cases h
      exact hf.trans (ih ht)

/-- Every queue stands once, and a head without a record has no FUSE. -/
theorem headInfos_spec {d : Fin 2} {ns : List Nat} {s s2 : State} {l : List (Nat × HeadInfo)} (h : State.headInfos d ns s = (s2, l)) :
    (l.map (·.1)).Sublist ns ∧ ∀ x ∈ l, x.2.record = none → x.2.fuse = none := by
  induction ns generalizing s s2 l with
  | nil => cases h; exact ⟨List.Sublist.refl _, fun x hx => absurd hx List.not_mem_nil⟩
  | cons n t ih =>
    rw [State.headInfos] at h
    split at h
    · obtain ⟨hs, hr⟩ := ih h
      exact ⟨hs.cons n, hr⟩
    · have hf := headInfo_fuse s d ((s.die d).queue n)
      rcases hh : s.headInfo d ((s.die d).queue n) with ⟨s1, x⟩
      rcases ht : State.headInfos d t s1 with ⟨s3, l3⟩
      rw [hh] at hf
      rw [hh] at h
      dsimp only at h
      rw [ht] at h
      cases h
      obtain ⟨hs, hr⟩ := ih ht
      exact ⟨hs.cons_cons n, List.forall_mem_cons.2 ⟨hf, hr⟩⟩

theorem headInfos_none {d : Fin 2} {ns : List Nat} {s : State} (h : ∀ n, ((s.die d).queue n).en = false) : State.headInfos d ns s = (s, []) := by
  induction ns with
  | nil => rfl
  | cons n t ih => rw [State.headInfos, h n, Bool.not_false, if_pos rfl, ih]

/-! With no request and no trace. -/

theorem withdrawRequests_none {s : State} {d : Fin 2} (h : ∀ i, (s.core (coreAt d i)).request = none) : s.withdrawRequests d = s := by
  rw [State.withdrawRequests]
  induction List.range 64 with
  | nil => rfl
  | cons i t ih =>
    rw [List.foldl_cons]
    simp only [h i]
    exact ih

theorem binds_of_mode {t : Trace} (h : t.mode ≠ 2) : t.binds = false := by
  rw [Trace.binds, beq_false_of_ne h, Bool.false_and]

theorem decide_none {s : State} {d : Fin 2} (h : (s.die d).trace.mode ≠ 2) : s.decide_ d = s := by
  simp only [State.decide_, binds_of_mode h, Bool.false_and, Bool.false_eq_true, if_false]

theorem mismatchHead_none {s : State} {d : Fin 2} (h : (s.die d).trace.mode ≠ 2) (l : List (Nat × HeadInfo)) : s.mismatchHead d l = none := by
  simp only [State.mismatchHead, binds_of_mode h, Bool.false_and, Bool.not_false, if_true]

theorem postRequest_frame (s : State) (d : Fin 2) (n : Nat) (h : HeadInfo) :
    (s.postRequest d n h).dies = s.dies ∧ (s.postRequest d n h).agenda = s.agenda := by
  rw [State.postRequest]
  dsimp only
  split
  · exact ⟨rfl, rfl⟩
  · split
    · exact ⟨rfl, rfl⟩
    · split <;> exact ⟨rfl, rfl⟩

theorem postRequests_frame (d : Fin 2) (l : List (Nat × HeadInfo)) (s : State) :
    (l.foldl (fun s x => s.postRequest d x.1 x.2) s).dies = s.dies ∧ (l.foldl (fun s x => s.postRequest d x.1 x.2) s).agenda = s.agenda := by
  induction l generalizing s with
  | nil => exact ⟨rfl, rfl⟩
  | cons x l ih =>
    obtain ⟨h1, h2⟩ := ih (s.postRequest d x.1 x.2)
    obtain ⟨h3, h4⟩ := postRequest_frame s d x.1 x.2
    exact ⟨h1.trans h3, h2.trans h4⟩

/-! Candidates. -/

theorem savedFor_none {s : State} {d : Fin 2} (h : ∀ x ∈ s.saved, x.node = true → x.core.homeDie ≠ d) (n : Nat) : s.savedFor d n = none := by
  have hf : (s.saved.zipIdx.filter fun x => x.1.node && x.1.core.homeDie == d && x.1.core.queue == n) = [] :=
    List.filter_eq_nil_iff.2 fun x hx hc => by
      simp only [Bool.and_eq_true, beq_iff_eq] at hc
      exact h x.1 (List.fst_mem_of_mem_zipIdx hx) hc.1.1 hc.1.2
  rw [State.savedFor, hf]
  rfl

/-- A queue with no saved job offers its head to the lowest core that it may have. -/
theorem candOf_eq {s : State} {d : Fin 2} (hs : ∀ x ∈ s.saved, x.node = true → x.core.homeDie ≠ d) (hm : (s.die d).trace.mode = 0) {n : Nat}
    {h : HeadInfo} (hf : h.record = none → h.fuse = none) :
    s.candOf d n h = if ((s.die d).queue n).held = 0 then none else
      (s.lowest d ((s.die d).queue n).aff (h.fuse.getD 0)).map fun c => ⟨n, ((s.die d).queue n).level h, c, none⟩ := by
  have hr : s.recordCore d n ((s.die d).queue n) h = s.lowest d ((s.die d).queue n).aff (h.fuse.getD 0) := by
    have hb : (s.die d).trace.binds = false := binds_of_mode (by rw [hm]; decide)
    have h3 : ((s.die d).trace.mode == 3) = false := by rw [hm]; rfl
    rw [State.recordCore]
    cases hrec : h.record with
    | none => rw [hf hrec]; rfl
    | some r => simp only [hb, h3, Bool.and_false, Bool.false_eq_true, if_false]
  rw [State.candOf, savedFor_none hs, ← hr]

/-! The best candidate. -/

/-- How far a queue lies behind the pointer. -/
def candDist (rr : Nat) (c : Cand) : Nat := (c.queue + 64 - rr) % 64

/-- One candidate goes before another (R77). -/
def Cand.before (rr : Nat) (a b : Cand) : Prop := b.level < a.level ∨ b.level = a.level ∧ candDist rr a < candDist rr b

theorem bestCand_mem {rr : Nat} {l : List Cand} {b : Cand} (h : bestCand rr l = some b) : b ∈ l := by
  induction l generalizing b with
  | nil => cases h
  | cons x t ih =>
    rw [bestCand] at h
    split at h
    · cases h; exact List.mem_cons_self
    · next y hy =>
      dsimp only at h
      split at h
      · cases h; exact List.mem_cons_self
      · cases h; exact List.mem_cons_of_mem _ (ih hy)
/-- The candidate that goes before every other is selected. -/
theorem bestCand_eq {rr : Nat} {l : List Cand} {c : Cand} (hc : c ∈ l) (h : ∀ y ∈ l, y ≠ c → c.before rr y) : bestCand rr l = some c := by
  induction l with
  | nil => cases hc
  | cons x t ih =>
    rw [bestCand]
    by_cases hx : x = c
    · subst hx
      cases hb : bestCand rr t with
      | none => rfl
      | some y =>
        by_cases hy : y = x
        · subst hy
          dsimp only
          split <;> rfl
        · have := h y (List.mem_cons_of_mem _ (bestCand_mem hb)) hy
          refine if_pos ?_
          rcases this with hl | ⟨hl, hd⟩
          · simp [hl]
          · have hd' : (x.queue + 64 - rr) % 64 ≤ (y.queue + 64 - rr) % 64 := Nat.le_of_lt hd
            simp [hl, hd']
    · have hct : c ∈ t := (List.mem_cons.1 hc).resolve_left (Ne.symm hx)
      rw [ih hct fun y hy => h y (List.mem_cons_of_mem _ hy)]
      refine if_neg ?_
      have := h x List.mem_cons_self hx
      simp only [Bool.or_eq_true, Bool.and_eq_true, decide_eq_true_eq, beq_iff_eq]
      rcases this with hl | ⟨hl, hd⟩
      · omega
      · have hd' : (c.queue + 64 - rr) % 64 < (x.queue + 64 - rr) % 64 := hd
        omega

/-! Ageing. -/

theorem Die.queue_setQueue {x : Die} {n : Nat} (hn : n < 64) (q : CQueue) : (x.setQueue n q).queue n = q := by
  simp only [Die.queue, Die.setQueue, Vector.toList_setIfInBounds]
  rw [List.getElem?_set_self (by rw [Vector.length_toList]; exact hn)]
  rfl
theorem Die.queue_setQueue_of_ne {x : Die} {n m : Nat} (h : n ≠ m) (q : CQueue) : (x.setQueue n q).queue m = x.queue m := by
  simp only [Die.queue, Die.setQueue, Vector.toList_setIfInBounds, List.getElem?_set_ne h]

/-- The ageing of one candidate's queue (R77). -/
def agedQueue (best : Nat) (x : Die) (n : Nat) : Die :=
  x.setQueue n { x.queue n with pass := if n = best then 0 else if (x.queue n).pass = 0xFFFF then (x.queue n).pass else (x.queue n).pass + 1 }

theorem aged_eq (x : Die) (b : Cand) (cs : List Cand) :
    x.aged b cs = { (cs.map (·.queue)).foldl (agedQueue b.queue) x with rr := BitVec.ofNat 6 (b.queue + 1) } := by
  rw [List.foldl_map]
  rfl

theorem foldl_aged_other {best m : Nat} {ns : List Nat} (hm : m ∉ ns) (x : Die) : (ns.foldl (agedQueue best) x).queue m = x.queue m := by
  induction ns generalizing x with
  | nil => rfl
  | cons n ns ih =>
    obtain ⟨hne, ht⟩ := List.ne_and_not_mem_of_not_mem_cons hm
    rw [List.foldl_cons, ih ht, agedQueue, Die.queue_setQueue_of_ne (Ne.symm hne)]

theorem foldl_aged_mem {best m : Nat} {ns : List Nat} (hm : m ∈ ns) (hd : ns.Nodup) (h64 : m < 64) (x : Die) :
    ((ns.foldl (agedQueue best) x).queue m).pass = if m = best then 0 else if (x.queue m).pass = 0xFFFF then (x.queue m).pass else (x.queue m).pass + 1 := by
  induction ns generalizing x with
  | nil => cases hm
  | cons n ns ih =>
    obtain ⟨hn, hd⟩ := List.nodup_cons.1 hd
    rw [List.foldl_cons]
    by_cases hnm : n = m
    · subst hnm
      rw [foldl_aged_other hn, agedQueue, Die.queue_setQueue h64]
    · rw [ih ((List.mem_cons.1 hm).resolve_left (Ne.symm hnm)) hd, agedQueue, Die.queue_setQueue_of_ne hnm]

theorem foldl_aged_keeps (best : Nat) (ns : List Nat) (x : Die) :
    (ns.foldl (agedQueue best) x).trace = x.trace ∧ (ns.foldl (agedQueue best) x).selections = x.selections := by
  induction ns generalizing x with
  | nil => exact ⟨rfl, rfl⟩
  | cons n ns ih => exact ih _

/-- What is kept of some elements, by a key that stays, is part of their keys. -/
theorem map_filterMap_sublist {α β γ : Type} {f : α → Option β} {g : β → γ} {k : α → γ} {l : List α}
    (h : ∀ x ∈ l, ∀ y, f x = some y → g y = k x) : ((l.filterMap f).map g).Sublist (l.map k) := by
  induction l with
  | nil => exact List.Sublist.refl _
  | cons x l ih =>
    obtain ⟨hx, hl⟩ := List.forall_mem_cons.1 h
    rw [List.map_cons, List.filterMap_cons]
    split
    · exact (ih hl).cons _
    · next y hy =>
      rw [List.map_cons, hx y hy]
      exact (ih hl).cons_cons _

/-! Selection. -/

theorem traceDispatch_off {s : State} {d : Fin 2} (h : (s.die d).trace.mode = 0) (b : Cand) (r : Rec) : s.traceDispatch d b r = s := by
  have hb : (s.die d).trace.binds = false := binds_of_mode (by rw [h]; decide)
  unfold State.traceDispatch
  dsimp only
  cases r.traced with
  | false => rfl
  | true => rw [Bool.not_true, if_neg Bool.false_ne_true, h, if_neg (by decide), hb, if_neg Bool.false_ne_true]

theorem select_record {s : State} {d : Fin 2} {b : Cand} (hb : b.saved = none) (hm : (s.die d).trace.mode = 0) (h : HeadInfo) :
    s.select d b h = { s.setDie d { s.die d with selections := (s.die d).selections + 1 } with
      agenda := ⟨.dispatch, { EvArgs.zero with unit := d.val, sub := b.core, val := b.queue }⟩ :: s.agenda } := by
  rw [State.select, hb]
  cases h.record with
  | none => rfl
  | some r =>
    dsimp only
    rw [traceDispatch_off hm]
    rfl

theorem exec_selection_none {s : State} {d : Fin 2} (hu : s.ctx.ev.unit = d.val) (hen : ∀ n, ((s.die d).queue n).en = false)
    (hr : ∀ i, (s.core (coreAt d i)).request = none) (hm : (s.die d).trace.mode ≠ 2) : exec .distributorSelection s = .next s := by
  obtain ⟨hlt, hd⟩ := event_die hu
  dsimp only [exec, execDistributorSelection]
  rw [dif_pos hlt, hd]
  simp only [withdrawRequests_none hr, decide_none hm, headInfos_none hen, mismatchHead_none hm, List.filterMap_nil, List.foldl_nil, bestCand, ite_self]

/-- The selection of a candidate, by what it leaves (R77). -/
theorem exec_selection_some {s s2 : State} {d : Fin 2} {l : List (Nat × HeadInfo)} {b : Cand} (hu : s.ctx.ev.unit = d.val)
    (hr : ∀ i, (s.core (coreAt d i)).request = none) (hm : (s.die d).trace.mode = 0) (hds : s.distributes d = true)
    (hl : State.headInfos d (List.range 64) s = (s2, l)) (hb : b.saved = none)
    (hbest : bestCand (s.die d).rr.toNat (l.filterMap fun x => s2.candOf d x.1 x.2) = some b) :
    ∃ t, exec .distributorSelection s = .next t ∧
      t.agenda = ⟨.dispatch, { EvArgs.zero with unit := d.val, sub := b.core, val := b.queue }⟩ :: s.agenda ∧
      t.die d = { (s.die d).aged b (l.filterMap fun x => s2.candOf d x.1 x.2) with selections := (s.die d).selections + 1 } := by
  obtain ⟨hlt, hd⟩ := event_die hu
  have hm2 : (s.die d).trace.mode ≠ 2 := by rw [hm]; decide
  have hfr := headInfos_frame hl
  have hdie2 : s2.die d = s.die d := by rw [State.die, State.die, hfr.dies]
  obtain ⟨hdies, hag⟩ := postRequests_frame d l s2
  let s4 := l.foldl (fun s x => s.postRequest d x.1 x.2) s2
  have hdie4 : s4.die d = s.die d := by rw [← hdie2, State.die, State.die, hdies]
  have hag4 : s4.agenda = s.agenda := by
    obtain ⟨n, tl, h⟩ := hfr
    exact hag.trans (by rw [h])
  let cs := l.filterMap fun x => s2.candOf d x.1 x.2
  let s5 := s4.setDie d ((s4.die d).aged b cs)
  have hdie5 : s5.die d = (s.die d).aged b cs := by rw [State.die_setDie, hdie4]
  obtain ⟨htr, hsel⟩ := foldl_aged_keeps b.queue (cs.map (·.queue)) (s.die d)
  have htr5 : (s5.die d).trace.mode = 0 := by rw [hdie5, aged_eq, htr, hm]
  have hsel5 : ((s.die d).aged b cs).selections = (s.die d).selections := by rw [aged_eq]; exact hsel
  have hx : ∃ info, exec .distributorSelection s = .next (s5.select d b info) := by
    dsimp only [exec, execDistributorSelection]
    rw [dif_pos hlt, hd, withdrawRequests_none hr, decide_none hm2, hds, Bool.not_true, if_neg Bool.false_ne_true, hl]
    dsimp only
    rw [mismatchHead_none (by rw [hdie2]; exact hm2)]
    dsimp only
    rw [show (s2.die d).rr = (s.die d).rr by rw [hdie2], hbest]
    exact ⟨_, rfl⟩
  obtain ⟨info, hx⟩ := hx
  refine ⟨_, hx, ?_, ?_⟩
  · rw [select_record hb htr5]
    exact congrArg _ hag4
  · rw [select_record hb htr5]
    refine (State.die_setDie s5 d _).trans ?_
    rw [hdie5, hsel5]

/-- With no trace and no saved job a head offers its queue with the lowest eligible core, at its level. -/
theorem candOf_offer {s s2 : State} {d : Fin 2} {l : List (Nat × HeadInfo)} (hl : State.headInfos d (List.range 64) s = (s2, l))
    (hs : ∀ x ∈ s.saved, x.node = true → x.core.homeDie ≠ d) (hm : (s.die d).trace.mode = 0) {x : Nat × HeadInfo} (hx : x ∈ l) :
    s2.candOf d x.1 x.2 = if ((s.die d).queue x.1).held = 0 then none
      else (s2.lowest d ((s.die d).queue x.1).aff (x.2.fuse.getD 0)).map fun c => ⟨x.1, ((s.die d).queue x.1).level x.2, c, none⟩ := by
  have hfr := headInfos_frame hl
  have hdie2 : s2.die d = s.die d := by rw [State.die, State.die, hfr.dies]
  have hsaved2 : ∀ x ∈ s2.saved, x.node = true → x.core.homeDie ≠ d := by
    obtain ⟨_, _, rfl⟩ := hfr
    exact hs
  rw [candOf_eq hsaved2 (by rw [hdie2]; exact hm) ((headInfos_spec hl).2 x hx), hdie2]

/-- Two members of a list whose images are distinct are one where their images are. -/
theorem eq_of_nodup_map {α β : Type} {g : α → β} {l : List α} (hnd : (l.map g).Nodup) {x y : α} (hx : x ∈ l) (hy : y ∈ l) (h : g x = g y) :
    x = y := by
  induction l with
  | nil => cases hx
  | cons a t ih =>
    obtain ⟨ha, ht⟩ := List.nodup_cons.1 hnd
    rcases List.mem_cons.1 hx with rfl | hxt <;> rcases List.mem_cons.1 hy with rfl | hyt
    · rfl
    · exact absurd (List.mem_map.2 ⟨y, hyt, h.symm⟩) ha
    · exact absurd (List.mem_map.2 ⟨x, hxt, h⟩) ha
    · exact ih ht hxt hyt

/-- The candidate before all others is selected (R77). -/
theorem selection_of_best {s s2 : State} {d : Fin 2} {l : List (Nat × HeadInfo)} {n i : Nat} {h : HeadInfo} (hu : s.ctx.ev.unit = d.val)
    (hreq : ∀ i, (s.core (coreAt d i)).request = none) (hs : ∀ x ∈ s.saved, x.node = true → x.core.homeDie ≠ d)
    (hm : (s.die d).trace.mode = 0) (hds : s.distributes d = true) (hl : State.headInfos d (List.range 64) s = (s2, l))
    (hmem : (n, h) ∈ l) (hheld : ((s.die d).queue n).held ≠ 0) (hcore : s2.lowest d ((s.die d).queue n).aff (h.fuse.getD 0) = some i)
    (hbest : ∀ x ∈ l, x.1 ≠ n →
      ((s.die d).queue x.1).held ≠ 0 ∧ (s2.lowest d ((s.die d).queue x.1).aff (x.2.fuse.getD 0)).isSome = true →
      ((s.die d).queue x.1).level x.2 < ((s.die d).queue n).level h ∨ ((s.die d).queue x.1).level x.2 = ((s.die d).queue n).level h ∧
        (n + 64 - (s.die d).rr.toNat) % 64 < (x.1 + 64 - (s.die d).rr.toNat) % 64) :
    ∃ t, exec .distributorSelection s = .next t ∧
      t.agenda = ⟨.dispatch, { EvArgs.zero with unit := d.val, sub := i, val := n }⟩ :: s.agenda ∧
      (t.die d).rr = BitVec.ofNat 6 (n + 1) ∧ (t.die d).selections = (s.die d).selections + 1 ∧ ((t.die d).queue n).pass = 0 ∧
      ∀ x ∈ l, x.1 ≠ n →
        ((s.die d).queue x.1).held ≠ 0 ∧ (s2.lowest d ((s.die d).queue x.1).aff (x.2.fuse.getD 0)).isSome = true →
        ((t.die d).queue x.1).pass = if ((s.die d).queue x.1).pass = 0xFFFF then 0xFFFF else ((s.die d).queue x.1).pass + 1 := by
  obtain ⟨hsub, -⟩ := headInfos_spec hl
  have hnd : (l.map (·.1)).Nodup := hsub.nodup List.nodup_range
  have hlt (x : Nat × HeadInfo) (hx : x ∈ l) : x.1 < 64 := List.mem_range.1 (hsub.subset (List.mem_map_of_mem hx))
  have hof (x : Nat × HeadInfo) (hx : x ∈ l) (y : Cand) (hy : s2.candOf d x.1 x.2 = some y) : ((s.die d).queue x.1).held ≠ 0 ∧
      ∃ c, s2.lowest d ((s.die d).queue x.1).aff (x.2.fuse.getD 0) = some c ∧ y = ⟨x.1, ((s.die d).queue x.1).level x.2, c, none⟩ := by
    rw [candOf_offer hl hs hm hx] at hy
    split at hy
    · cases hy
    · next h0 =>
      obtain ⟨c, hc, rfl⟩ := Option.map_eq_some_iff.1 hy
      exact ⟨h0, c, hc, rfl⟩
  have hone (x : Nat × HeadInfo) (hx : x ∈ l) (h0 : ((s.die d).queue x.1).held ≠ 0) (c : Nat)
      (hc : s2.lowest d ((s.die d).queue x.1).aff (x.2.fuse.getD 0) = some c) :
      s2.candOf d x.1 x.2 = some ⟨x.1, ((s.die d).queue x.1).level x.2, c, none⟩ := by
    rw [candOf_offer hl hs hm hx, if_neg h0, hc]
    rfl
  have hmemb : (⟨n, ((s.die d).queue n).level h, i, none⟩ : Cand) ∈ l.filterMap fun x => s2.candOf d x.1 x.2 :=
    List.mem_filterMap.2 ⟨(n, h), hmem, hone (n, h) hmem hheld i hcore⟩
  have hsel : bestCand (s.die d).rr.toNat (l.filterMap fun x => s2.candOf d x.1 x.2) = some ⟨n, ((s.die d).queue n).level h, i, none⟩ := by
    refine bestCand_eq hmemb fun y hy hne => ?_
    obtain ⟨x, hx, hxy⟩ := List.mem_filterMap.1 hy
    obtain ⟨h0, c, hc, rfl⟩ := hof x hx y hxy
    have hxn : x.1 ≠ n := by
      intro hxn
      have : x = (n, h) := eq_of_nodup_map hnd hx hmem hxn
      subst this
      rw [hcore] at hc
      cases hc
      exact hne rfl
    exact hbest x hx hxn ⟨h0, by rw [hc]; rfl⟩
  have hkeys : ((l.filterMap fun x => s2.candOf d x.1 x.2).map (·.queue)).Nodup :=
    (map_filterMap_sublist fun x hx y hy => by obtain ⟨-, c, -, rfl⟩ := hof x hx y hy; rfl).nodup hnd
  obtain ⟨t, hx, hag, hdie⟩ := exec_selection_some hu hreq hm hds hl rfl hsel
  have hqueue (m : Nat) : (t.die d).queue m =
      (((l.filterMap fun x => s2.candOf d x.1 x.2).map (·.queue)).foldl (agedQueue n) (s.die d)).queue m := by
    rw [hdie, aged_eq]
    rfl
  refine ⟨t, hx, hag, by rw [hdie, aged_eq], by rw [hdie], ?_, fun x hx hxn hoff => ?_⟩
  · rw [hqueue, foldl_aged_mem (List.mem_map_of_mem hmemb) hkeys (hlt (n, h) hmem), if_pos rfl]
  · obtain ⟨c, hc⟩ := Option.isSome_iff_exists.1 hoff.2
    have hin : (⟨x.1, ((s.die d).queue x.1).level x.2, c, none⟩ : Cand) ∈ l.filterMap fun x => s2.candOf d x.1 x.2 :=
      List.mem_filterMap.2 ⟨x, hx, hone x hx hoff.1 c hc⟩
    rw [hqueue, foldl_aged_mem (List.mem_map_of_mem (f := (·.queue)) hin) hkeys (hlt x hx), if_neg hxn]
    split
    · next h0 => exact h0
    · rfl

theorem retireJob_eq (s : State) (c : CoreId) : s.retireJob c =
    (((s.releaseJob c false).joinParent c).1.jobStatus (((s.releaseJob c false).joinParent c).1.core c) 0
      ((s.releaseJob c false).joinParent c).2).idle c := by
  unfold State.retireJob
  generalize (s.releaseJob c false).joinParent c = j
  rfl

theorem distributorEvents_rule : DistributorEventsCompleteRule := by
  intro s
  refine ⟨fun c hu hr => ⟨s.retireJob c, ?_, (idle_core _ c).1, (idle_core _ c).2, ?_⟩, fun c hu hr => ?_,
    fun d hu hen hr hm => exec_selection_none hu hen hr hm, ?_, fun d hu h => exec_replayDiverge hu h⟩
  · rw [exec_jobRetirement hu, if_pos hr]
  · exact retireJob_eq s c
  · rw [exec_jobRetirement hu, hr, if_neg Bool.false_ne_true]
  · intro d s2 l n i h hu hreq hsaved hmode hds hl hmem q core offers far hheld hcore hbest
    exact selection_of_best hu hreq hsaved hmode hds hl hmem hheld hcore hbest

/-- Settles O35: with no trace and no saved job every queue offers its head, and the selection is the candidate before all others. -/
theorem distributorCompletes : Obligations.DistributorCompletes := ⟨dispatchStartsJob_rule, distributorEvents_rule⟩

end Sys2Proof.Machine
end

section
/-! PROOF. Control and status registers (O36). -/
namespace Sys2Proof.Machine

/-- The bits of a mask of the bits from `lo` to below `hi`. -/
theorem testBit_mask (lo hi i : Nat) (h : lo ≤ hi) : (2 ^ hi - 2 ^ lo).testBit i = decide (lo ≤ i ∧ i < hi) := by
  have hm : 2 ^ hi - 2 ^ lo = (2 ^ (hi - lo) - 1) <<< lo := by
    rw [Nat.shiftLeft_eq, Nat.sub_mul, ← Nat.pow_add, Nat.sub_add_cancel h, Nat.one_mul]
  rw [hm, Nat.testBit_shiftLeft, Nat.testBit_two_pow_sub_one]
  by_cases hi' : lo ≤ i
  · simp only [ge_iff_le, hi', decide_true, Bool.true_and, true_and, decide_eq_decide]
    omega
  · simp [hi']

/-- A value with no bit outside a mask is a multiple of its lowest bit below its end. -/
theorem masked_iff (v : Word) {lo hi : Nat} (h : lo ≤ hi) :
    v &&& ~~~BitVec.ofNat 64 (2 ^ hi - 2 ^ lo) = 0 ↔ v.toNat % 2 ^ lo = 0 ∧ v.toNat < 2 ^ hi := by
  have hbits : v &&& ~~~BitVec.ofNat 64 (2 ^ hi - 2 ^ lo) = 0 ↔ ∀ i, v.toNat.testBit i = true → lo ≤ i ∧ i < hi := by
    constructor
    · intro h0 i hi'
      have h64 : i < 64 := by
        refine Nat.lt_of_not_le fun hge => ?_
        rw [Nat.testBit_lt_two_pow (Nat.lt_of_lt_of_le v.isLt (Nat.pow_le_pow_right (by decide) hge))] at hi'
        cases hi'
      have hbit : (v &&& ~~~BitVec.ofNat 64 (2 ^ hi - 2 ^ lo)).getLsbD i = false := by rw [h0]; exact BitVec.getLsbD_zero
      rw [BitVec.getLsbD_and, BitVec.getLsbD_not, BitVec.getLsbD_ofNat, testBit_mask lo hi i h, BitVec.getLsbD, hi',
        decide_eq_true h64] at hbit
      simpa only [Bool.true_and, Bool.not_eq_false', decide_eq_true_eq] using hbit
    · intro hall
      refine BitVec.eq_of_getLsbD_eq fun i hi' => ?_
      rw [BitVec.getLsbD_and, BitVec.getLsbD_not, BitVec.getLsbD_ofNat, testBit_mask lo hi i h]
      cases hv : v.getLsbD i with
      | false => exact BitVec.getLsbD_zero.symm
      | true => simp [hall i hv, hi']
  rw [hbits]
  constructor
  · intro hall
    refine ⟨Nat.eq_of_testBit_eq fun i => ?_, Nat.lt_pow_two_of_testBit _ fun i hi' => ?_⟩
    · rw [Nat.testBit_mod_two_pow, Nat.zero_testBit]
      cases hv : v.toNat.testBit i with
      | false => exact Bool.and_false _
      | true => rw [decide_eq_false (Nat.not_lt.2 (hall i hv).1), Bool.false_and]
    · exact Bool.eq_false_iff.2 fun hv => absurd (hall i hv).2 (Nat.not_lt.2 hi')
  · rintro ⟨hm, hlt⟩ i hv
    constructor
    · refine Nat.le_of_not_lt fun hlo => ?_
      have := congrArg (·.testBit i) hm
      simp only [Nat.testBit_mod_two_pow, hv, decide_eq_true hlo, Nat.zero_testBit] at this
      cases this
    · refine Nat.lt_of_not_le fun hhi => ?_
      rw [Nat.testBit_lt_two_pow (Nat.lt_of_lt_of_le hlt (Nat.pow_le_pow_right (by decide) hhi))] at hv
      cases hv

/-- The registers that the rule reads are those that CSRR gives. -/
theorem csrRule_some {s : State} {n : Nat} {v : Word} (h : csrRule s n = some v) :
    s.seedHeld n = false ∧ (if n < 0x100 then s.userCsr n else s.myDie.supCsr n) = v := by
  unfold csrRule at h
  dsimp only at h
  split at h
  case h_15 =>
    split at h
    · cases h
    · next hq =>
      cases h
      refine ⟨?_, rfl⟩
      cases hs : s.seedHeld 14 with
      | false => rfl
      | true =>
        simp [State.seedHeld] at hs
        exact absurd hs hq
  case h_32 => cases h
  all_goals
    cases h
    exact ⟨rfl, rfl⟩

theorem csrRead_rule : CsrReadRule := by
  intro s f v hg hv
  obtain ⟨hheld, hval⟩ := csrRule_some hv
  dsimp only [exec, execCsrr]
  refine issue_done hg ?_
  rw [hheld, if_neg Bool.false_ne_true, hval]

/-- A CSRW that waits for no tile command does what the write of its register does. -/
theorem exec_csrw {s : State} {f : RX} (hg : s.guard = true) (hh : s.seedHeld (f.xf 0 12) = false) :
    exec (.csrw f) s = (if f.xf 0 12 < 0x100 then s.writeUser (f.xf 0 12) (s.getS f.a) else s.writeSup (f.xf 0 12) (s.getS f.a)).finish s := by
  dsimp only [exec, execCsrw]
  rw [State.issue, if_pos hg, hh, if_neg Bool.false_ne_true]

/-- A CSRW of a user register. -/
theorem exec_csrw_user {s : State} {f : RX} {n : Nat} (hg : s.guard = true) (hn : f.xf 0 12 = n) (hh : s.seedHeld n = false) (hlt : n < 0x100) :
    exec (.csrw f) s = (s.writeUser n (s.getS f.a)).finish s := by
  subst hn
  rw [exec_csrw hg hh, if_pos hlt]

/-- A CSRW of a supervisor register. -/
theorem exec_csrw_sup {s : State} {f : RX} {n : Nat} (hg : s.guard = true) (hn : f.xf 0 12 = n) (hh : s.seedHeld n = false) (hlt : ¬ n < 0x100) :
    exec (.csrw f) s = (s.writeSup n (s.getS f.a)).finish s := by
  subst hn
  rw [exec_csrw hg hh, if_neg hlt]

/-- A supervisor register takes the values within its mask. -/
theorem setSup_finish (s : State) {v mask : Word} {p : Prop} [Decidable p] (set : Die → Die) (h : v &&& ~~~mask = 0 ↔ p) :
    (s.setSup v mask set).finish s =
      if p then .next (s.setMyDie (set s.myDie)).retire else .next (s.raiseOwn s.ctx.core s.ctx.strm { cause := 0x02, addr := v }) := by
  rw [State.setSup, ite_not]
  simp only [h]
  split <;> rfl

/-! The user registers. -/

section
variable {s : State} {f : RX}

theorem exec_csrw_wlim (hg : s.guard = true) (hn : f.xf 0 12 = 0x09) :
    exec (.csrw f) s = .next (s.setStr { s.str with wlim := BitVec.ofNat 32 (min (s.getS f.a).toNat 0xFFFFFFFF) }).retire := by
  rw [exec_csrw_user hg hn rfl (by decide)]
  rfl

theorem exec_csrw_utrec (hg : s.guard = true) (hn : f.xf 0 12 = 0x0B) :
    exec (.csrw f) s = if (s.getS f.a).toNat % 128 = 0 ∧ (s.getS f.a).toNat < 2 ^ 48 then .next (s.setMe { s.me with utrec := s.getS f.a }).retire
      else .next (s.raiseOwn s.ctx.core s.ctx.strm { cause := 0x02, addr := s.getS f.a }) := by
  have hc : (s.getS f.a).extractLsb' 0 7 ≠ 0 ∨ (s.getS f.a).extractLsb' 48 16 ≠ 0 ↔
      ¬((s.getS f.a).toNat % 128 = 0 ∧ (s.getS f.a).toNat < 2 ^ 48) := by
    generalize s.getS f.a = v
    rw [ne_eq, ne_eq, ← BitVec.toNat_inj, ← BitVec.toNat_inj, BitVec.extractLsb'_toNat, BitVec.extractLsb'_toNat, Nat.shiftRight_eq_div_pow,
      Nat.shiftRight_eq_div_pow]
    change ¬v.toNat / 2 ^ 0 % 2 ^ 7 = 0 ∨ ¬v.toNat / 2 ^ 48 % 2 ^ 16 = 0 ↔ _
    omega
  rw [exec_csrw_user hg hn rfl (by decide), State.writeUser]
  simp only [hc, ite_not]
  split <;> rfl

theorem exec_csrw_vtype (hg : s.guard = true) (hn : f.xf 0 12 = 0x0D) :
    exec (.csrw f) s =
      if (s.getS f.a).toNat < 128 ∧ (s.getS f.a).toNat % 16 ≤ 10 ∧ (s.getS f.a).toNat / 16 ≤ 4 then
        .next (s.setMe { s.me with vtype := (s.getS f.a).setWidth 7 }).retire
      else .next (s.raiseOwn s.ctx.core s.ctx.strm { cause := 0x02, addr := s.getS f.a }) := by
  have hc : 2 ^ 7 ≤ (s.getS f.a).toNat ∨ 10 < ((s.getS f.a).extractLsb' 0 4).toNat ∨ 4 < ((s.getS f.a).extractLsb' 4 3).toNat ↔
      ¬((s.getS f.a).toNat < 128 ∧ (s.getS f.a).toNat % 16 ≤ 10 ∧ (s.getS f.a).toNat / 16 ≤ 4) := by
    generalize s.getS f.a = v
    rw [BitVec.extractLsb'_toNat, BitVec.extractLsb'_toNat, Nat.shiftRight_eq_div_pow, Nat.shiftRight_eq_div_pow]
    omega
  rw [exec_csrw_user hg hn rfl (by decide), State.writeUser]
  simp only [hc, ite_not]
  split <;> rfl

theorem exec_csrw_seed (hg : s.guard = true) (hn : f.xf 0 12 = 0x0E) (h : s.ctx.strm = .vs ∨ s.ctx.strm = .ts ∧ s.me.tileQ = [] ∨ s.ctx.strm = .ws) :
    exec (.csrw f) s = .next (s.setStr { s.str with seed := if (s.getS f.a).setWidth 32 = 0 then 1 else (s.getS f.a).setWidth 32 }).retire := by
  have hh : s.seedHeld 0x0E = false := by
    rcases h with h | ⟨h, hq⟩ | h
    · simp [State.seedHeld, h]
    · simp [State.seedHeld, hq]
    · simp [State.seedHeld, h]
  have hs : s.ctx.strm = .vs ∨ s.ctx.strm = .ts ∨ s.ctx.strm = .ws := h.imp_right fun h => h.imp_left fun h => h.1
  rw [exec_csrw_user hg hn hh (by decide), State.writeUser, if_pos hs]
  rfl

theorem exec_csrw_twin (hg : s.guard = true) (hn : f.xf 0 12 = 0x0F) :
    exec (.csrw f) s = if 1 ≤ (s.getS f.a).toNat ∧ (s.getS f.a).toNat ≤ 255 then .next (s.setMe { s.me with twin := (s.getS f.a).setWidth 8 }).retire
      else .next (s.raiseOwn s.ctx.core s.ctx.strm { cause := 0x02, addr := s.getS f.a }) := by
  rw [exec_csrw_user hg hn rfl (by decide), State.writeUser, State.setTwin]
  generalize s.getS f.a = v
  have hc : ((v.toNat : Int) < 1 ∨ 255 < (v.toNat : Int)) ↔ ¬(1 ≤ v.toNat ∧ v.toNat ≤ 255) := by omega
  have h8 : BitVec.ofInt 8 (v.toNat : Int) = v.setWidth 8 := by rw [BitVec.ofInt_natCast]; rfl
  have h64 : BitVec.ofInt 64 (v.toNat : Int) = v := by rw [BitVec.ofInt_natCast, BitVec.ofNat_toNat, BitVec.setWidth_eq]
  simp only [hc, ite_not, h8, h64]
  split <;> rfl

theorem exec_csrw_steps {b : Nat} (hg : s.guard = true) (hn : f.xf 0 12 = 0x11) (hb : s.me.bank = some b) :
    exec (.csrw f) s = .next (s.setMyArr (s.myArr.setBank b { s.myArr.bankAt b with steps := s.getS f.a })).retire := by
  rw [exec_csrw_user hg hn rfl (by decide), State.writeUser]
  dsimp only
  rw [hb]
  rfl

/-- The user registers that take every value. -/
theorem exec_csrw_plain (hg : s.guard = true) :
    (f.xf 0 12 = 0x0A → exec (.csrw f) s = .next (s.setMe { s.me with utvec := s.getS f.a }).retire) ∧
    (f.xf 0 12 = 0x0C → exec (.csrw f) s = .next (s.setMe { s.me with fflags := (s.getS f.a).setWidth 5 }).retire) ∧
    (f.xf 0 12 = 0x12 → exec (.csrw f) s = .next (s.setMe { s.me with cktol := (s.getS f.a).setWidth 16 }).retire) ∧
    (f.xf 0 12 = 0x13 → exec (.csrw f) s = .next (s.setMe { s.me with lodcnt := s.getS f.a }).retire) ∧
    (f.xf 0 12 = 0x14 → exec (.csrw f) s = .next (s.setMe { s.me with xtlim := (s.getS f.a).setWidth 32 }).retire) := by
  refine ⟨fun hn => ?_, fun hn => ?_, fun hn => ?_, fun hn => ?_, fun hn => ?_⟩ <;>
  · rw [exec_csrw_user hg hn rfl (by decide)]
    rfl

/-! The supervisor registers. -/

theorem exec_csrw_trclen (hg : s.guard = true) (hn : f.xf 0 12 = 0x105) :
    exec (.csrw f) s = .next (s.setMyDie { s.myDie with trclen := s.getS f.a }).retire := by
  rw [exec_csrw_sup hg hn rfl (by decide)]
  rfl

theorem exec_csrw_stvec (hg : s.guard = true) (hn : f.xf 0 12 = 0x100) :
    exec (.csrw f) s = if (s.getS f.a).toNat % 64 = 0 ∧ (s.getS f.a).toNat < 2 ^ 48 then .next (s.setMyDie { s.myDie with stvec := s.getS f.a }).retire
      else .next (s.raiseOwn s.ctx.core s.ctx.strm { cause := 0x02, addr := s.getS f.a }) := by
  rw [exec_csrw_sup hg hn rfl (by decide)]
  exact setSup_finish s (fun x => { x with stvec := s.getS f.a }) (masked_iff (s.getS f.a) (lo := 6) (hi := 48) (by decide))

theorem exec_csrw_ptroot (hg : s.guard = true) (hn : f.xf 0 12 = 0x101) :
    exec (.csrw f) s = if (s.getS f.a).toNat % 65536 = 0 ∧ (s.getS f.a).toNat < 2 ^ 48 then .next (s.setMyDie { s.myDie with ptroot := s.getS f.a }).retire
      else .next (s.raiseOwn s.ctx.core s.ctx.strm { cause := 0x02, addr := s.getS f.a }) := by
  rw [exec_csrw_sup hg hn rfl (by decide)]
  exact setSup_finish s (fun x => { x with ptroot := s.getS f.a }) (masked_iff (s.getS f.a) (lo := 16) (hi := 48) (by decide))

/-- A value with no bit above the low 32. -/
theorem masked32_iff (v : Word) : v &&& ~~~(0xFFFFFFFF : Word) = 0 ↔ v.toNat < 2 ^ 32 :=
  (masked_iff v (lo := 0) (hi := 32) (by decide)).trans ⟨fun h => h.2, fun h => ⟨Nat.mod_one _, h⟩⟩

/-- The supervisor registers of 32 bits. -/
theorem exec_csrw_limits (hg : s.guard = true) :
    (f.xf 0 12 = 0x103 → exec (.csrw f) s =
      if (s.getS f.a).toNat < 2 ^ 32 then .next (s.setMyDie { s.myDie with plim := (s.getS f.a).setWidth 32 }).retire
      else .next (s.raiseOwn s.ctx.core s.ctx.strm { cause := 0x02, addr := s.getS f.a })) ∧
    (f.xf 0 12 = 0x107 → exec (.csrw f) s =
      if (s.getS f.a).toNat < 2 ^ 32 then .next (s.setMyDie { s.myDie with leasemax := (s.getS f.a).setWidth 32 }).retire
      else .next (s.raiseOwn s.ctx.core s.ctx.strm { cause := 0x02, addr := s.getS f.a })) ∧
    (f.xf 0 12 = 0x108 → exec (.csrw f) s =
      if (s.getS f.a).toNat < 2 ^ 32 then .next (s.setMyDie { s.myDie with rlim := (s.getS f.a).setWidth 32 }).retire
      else .next (s.raiseOwn s.ctx.core s.ctx.strm { cause := 0x02, addr := s.getS f.a })) := by
  refine ⟨fun hn => ?_, fun hn => ?_, fun hn => ?_⟩
  · rw [exec_csrw_sup hg hn rfl (by decide)]
    exact setSup_finish s (fun x => { x with plim := (s.getS f.a).setWidth 32 }) (masked32_iff _)
  · rw [exec_csrw_sup hg hn rfl (by decide)]
    exact setSup_finish s (fun x => { x with leasemax := (s.getS f.a).setWidth 32 }) (masked32_iff _)
  · rw [exec_csrw_sup hg hn rfl (by decide)]
    exact setSup_finish s (fun x => { x with rlim := (s.getS f.a).setWidth 32 }) (masked32_iff _)

theorem exec_csrw_trcbase (hg : s.guard = true) (hn : f.xf 0 12 = 0x104) :
    exec (.csrw f) s = if (s.getS f.a).toNat % 32 = 0 then .next (s.setMyDie { s.myDie with trcbase := s.getS f.a }).retire
      else .next (s.raiseOwn s.ctx.core s.ctx.strm { cause := 0x02, addr := s.getS f.a }) := by
  rw [exec_csrw_sup hg hn rfl (by decide)]
  exact setSup_finish s (fun x => { x with trcbase := s.getS f.a }) ((masked_iff (s.getS f.a) (lo := 5) (hi := 64) (by decide)).trans ⟨fun h => h.1, fun h => ⟨h, BitVec.isLt _⟩⟩)

theorem exec_csrw_errcfg (hg : s.guard = true) (hn : f.xf 0 12 = 0x106) :
    exec (.csrw f) s = if s.getS f.a &&& ~~~(0x13F : Word) = 0 then .next (s.setMyDie { s.myDie with errcfg := s.getS f.a }).retire
      else .next (s.raiseOwn s.ctx.core s.ctx.strm { cause := 0x02, addr := s.getS f.a }) := by
  rw [exec_csrw_sup hg hn rfl (by decide)]
  exact setSup_finish s (fun x => { x with errcfg := s.getS f.a }) Iff.rfl

/-! The registers with rows of their own. -/

theorem exec_csrwDmr (hg : s.guard = true) (hp : s.me.barPend = 0) (hd : dmrOk (s.getS f.a) = true) :
    exec (.csrwDmr f) s = .next (s.setMe { s.me with dmr := s.getS f.a, bib := 0 }).retire := by
  dsimp only [exec, execCsrwDmr]
  refine issue_done hg ?_
  rw [State.setDomain, if_neg (Classical.not_not.2 hp), hd, Bool.not_true, if_neg Bool.false_ne_true]

theorem exec_csrwBib (hg : s.guard = true) :
    exec (.csrwBib f) s = .next (s.setMe { s.me with bib := (s.getS f.a).toNat % s.me.bdepth }).retire := by
  dsimp only [exec, execCsrwBib]
  exact issue_done hg rfl

theorem exec_csrwBdepth (hg : s.guard = true) (hp : s.me.barPend = 0) (h1 : 1 ≤ (s.getS f.a).toNat) (h16 : (s.getS f.a).toNat ≤ 16) :
    exec (.csrwBdepth f) s = .next (s.setMe { s.me with bdepth := (s.getS f.a).toNat, bib := s.me.bib % (s.getS f.a).toNat }).retire := by
  dsimp only [exec, execCsrwBdepth]
  refine issue_done hg ?_
  rw [State.newDepth, if_neg (by omega), if_neg (Classical.not_not.2 hp), State.me_setMe, State.setMe_setMe]

theorem exec_csrwBprio (hg : s.guard = true) :
    exec (.csrwBprio f) s = .next (s.setMe { s.me with bprio := BitVec.ofNat 3 (min (s.getS f.a).toNat s.me.dprio.toNat) }).retire := by
  have hp (m : Nat) : (if s.me.dprio.toNat < m then s.me.dprio else BitVec.ofNat 3 m) = BitVec.ofNat 3 (min m s.me.dprio.toNat) := by
    by_cases h : s.me.dprio.toNat < m
    · rw [if_pos h, Nat.min_eq_right (Nat.le_of_lt h), BitVec.ofNat_toNat, BitVec.setWidth_eq]
    · rw [if_neg h, Nat.min_eq_left (Nat.not_lt.1 h)]
  dsimp only [exec, execCsrwBprio]
  refine issue_done hg ?_
  rw [State.setBprio, hp]

end

theorem csrWrite_rule : CsrWriteRule := by
  intro s f hg v n refused
  obtain ⟨hutvec, hfflags, hcktol, hlodcnt, hxtlim⟩ := exec_csrw_plain (f := f) hg
  obtain ⟨hplim, hleasemax, hrlim⟩ := exec_csrw_limits (f := f) hg
  exact ⟨exec_csrw_wlim hg, hutvec, exec_csrw_utrec hg, hfflags, exec_csrw_vtype hg, exec_csrw_seed hg, exec_csrw_twin hg,
    fun b => exec_csrw_steps hg, hcktol, hlodcnt, hxtlim, exec_csrw_stvec hg, exec_csrw_ptroot hg, hplim, exec_csrw_trcbase hg,
    exec_csrw_trclen hg, exec_csrw_errcfg hg, hleasemax, hrlim, exec_csrwDmr hg, exec_csrwBib hg, exec_csrwBdepth hg, exec_csrwBprio hg⟩

/-- Settles O36: each register by the write that the model gives it. -/
theorem csrAccess : Obligations.CsrAccess := ⟨csrRead_rule, csrWrite_rule⟩

end Sys2Proof.Machine
end

section
/-! PROOF. The record of a trap (O37). -/
namespace Sys2Proof.Machine

/-- The detail words of a record, filled up with zeros. -/
theorem TrapRec.words_eq (r : TrapRec) : ∃ w0 w4 : Nat,
    w0 = r.cause % 256 + 256 * r.strm.num + 2048 * r.precise.toNat + 4096 * r.esc.toNat + 8192 * r.nest.toNat + 16384 * r.recf.toNat +
      32768 * r.eng.toNat + 65536 * (r.midx % 32) + 2097152 * r.inmac.toNat ∧
    w4 = r.kind % 4 + 4 * (r.space % 8) + 32 * r.halted.toNat ∧
    r.words = [BitVec.ofNat 64 w0, r.pc, r.jobid, r.addr, BitVec.ofNat 64 w4, BitVec.ofNat 64 r.slots, r.gsc, BitVec.ofNat 64 (r.core % 128)] ++
      (r.detail ++ List.replicate 8 0).take 8 := by
  have hb (x : Bool) (n : Nat) : (if x = true then 2 ^ n else 0) = 2 ^ n * x.toNat := by
    cases x with
    | false => rfl
    | true => exact (Nat.mul_one _).symm
  refine ⟨_, _, rfl, rfl, ?_⟩
  simp only [TrapRec.words, hb]
  refine congrArg (· ++ _) ?_
  simp only [List.cons.injEq, true_and, and_true]
  exact ⟨congrArg _ (by omega), congrArg _ (by omega)⟩

/-- A field of a word. -/
theorem extract_ofNat (x lo n : Nat) (h : x < 2 ^ 64) : (BitVec.ofNat 64 x).extractLsb' lo n = BitVec.ofNat n (x / 2 ^ lo) := by
  refine BitVec.eq_of_toNat_eq ?_
  rw [BitVec.extractLsb'_toNat, BitVec.toNat_ofNat, BitVec.toNat_ofNat, Nat.mod_eq_of_lt h, Nat.shiftRight_eq_div_pow]

/-- A bit of a word. -/
theorem getLsbD_ofNat_eq {x i : Nat} (hi : i < 64) (b : Bool) (h : x / 2 ^ i % 2 = b.toNat) : (BitVec.ofNat 64 x).getLsbD i = b := by
  rw [BitVec.getLsbD_ofNat, decide_eq_true hi, Bool.true_and, Nat.testBit_eq_decide_div_mod_eq, h]
  cases b <;> rfl

theorem StreamId.num_lt (i : StreamId) : i.num < 8 := by cases i <;> decide

/-- The fields of the first word (R415). -/
theorem TrapRec.word0 (r : TrapRec) :
    (r.words[0]?.getD 0).extractLsb' 0 8 = BitVec.ofNat 8 r.cause ∧ (r.words[0]?.getD 0).extractLsb' 8 3 = BitVec.ofNat 3 r.strm.num ∧
    (r.words[0]?.getD 0).getLsbD 11 = r.precise ∧ (r.words[0]?.getD 0).getLsbD 12 = r.esc ∧ (r.words[0]?.getD 0).getLsbD 13 = r.nest ∧
    (r.words[0]?.getD 0).getLsbD 14 = r.recf ∧ (r.words[0]?.getD 0).getLsbD 15 = r.eng ∧
    (r.words[0]?.getD 0).extractLsb' 16 5 = BitVec.ofNat 5 r.midx ∧ (r.words[0]?.getD 0).getLsbD 21 = r.inmac ∧
    (r.words[0]?.getD 0).extractLsb' 22 42 = 0 := by
  obtain ⟨w0, w4, h0, -, hw⟩ := r.words_eq
  have hn := r.strm.num_lt
  have hp := r.precise.toNat_le
  have he := r.esc.toNat_le
  have hs := r.nest.toNat_le
  have hf := r.recf.toNat_le
  have hg := r.eng.toNat_le
  have hi := r.inmac.toNat_le
  have hlt : w0 < 2 ^ 64 := by omega
  have hw0 : r.words[0]?.getD 0 = BitVec.ofNat 64 w0 := by rw [hw]; rfl
  rw [hw0, extract_ofNat _ _ _ hlt, extract_ofNat _ _ _ hlt, extract_ofNat _ _ _ hlt, extract_ofNat _ _ _ hlt]
  refine ⟨?_, ?_, getLsbD_ofNat_eq (by decide) _ ?_, getLsbD_ofNat_eq (by decide) _ ?_, getLsbD_ofNat_eq (by decide) _ ?_,
    getLsbD_ofNat_eq (by decide) _ ?_, getLsbD_ofNat_eq (by decide) _ ?_, ?_, getLsbD_ofNat_eq (by decide) _ ?_, ?_⟩
  · refine BitVec.eq_of_toNat_eq ?_
    rw [BitVec.toNat_ofNat, BitVec.toNat_ofNat]
    omega
  · refine BitVec.eq_of_toNat_eq ?_
    rw [BitVec.toNat_ofNat, BitVec.toNat_ofNat]
    omega
  · omega
  · omega
  · omega
  · omega
  · omega
  · refine BitVec.eq_of_toNat_eq ?_
    rw [BitVec.toNat_ofNat, BitVec.toNat_ofNat]
    omega
  · omega
  · rw [show w0 / 2 ^ 22 = 0 by omega]
    rfl

/-- The fields of the fifth word (R415). -/
theorem TrapRec.word4 (r : TrapRec) :
    (r.words[4]?.getD 0).extractLsb' 0 2 = BitVec.ofNat 2 r.kind ∧ (r.words[4]?.getD 0).extractLsb' 2 3 = BitVec.ofNat 3 r.space ∧
    (r.words[4]?.getD 0).getLsbD 5 = r.halted ∧ (r.words[4]?.getD 0).extractLsb' 6 58 = 0 := by
  obtain ⟨w0, w4, -, h4, hw⟩ := r.words_eq
  have hh := r.halted.toNat_le
  have hlt : w4 < 2 ^ 64 := by omega
  have hw4 : r.words[4]?.getD 0 = BitVec.ofNat 64 w4 := by rw [hw]; rfl
  rw [hw4, extract_ofNat _ _ _ hlt, extract_ofNat _ _ _ hlt, extract_ofNat _ _ _ hlt]
  refine ⟨?_, ?_, getLsbD_ofNat_eq (by decide) _ ?_, ?_⟩
  · refine BitVec.eq_of_toNat_eq ?_
    rw [BitVec.toNat_ofNat, BitVec.toNat_ofNat]
    omega
  · refine BitVec.eq_of_toNat_eq ?_
    rw [BitVec.toNat_ofNat, BitVec.toNat_ofNat]
    omega
  · omega
  · rw [show w4 / 2 ^ 6 = 0 by omega]
    rfl

/-- The eighth word (R415). -/
theorem TrapRec.word7 (r : TrapRec) :
    (r.words[7]?.getD 0).extractLsb' 0 7 = BitVec.ofNat 7 r.core ∧ (r.words[7]?.getD 0).extractLsb' 7 57 = 0 := by
  obtain ⟨w0, w4, -, -, hw⟩ := r.words_eq
  have hlt : r.core % 128 < 2 ^ 64 := by omega
  have hw7 : r.words[7]?.getD 0 = BitVec.ofNat 64 (r.core % 128) := by rw [hw]; rfl
  rw [hw7, extract_ofNat _ _ _ hlt, extract_ofNat _ _ _ hlt]
  constructor
  · refine BitVec.eq_of_toNat_eq ?_
    rw [BitVec.toNat_ofNat, BitVec.toNat_ofNat]
    omega
  · rw [show r.core % 128 / 2 ^ 7 = 0 by omega]
    rfl

/-- The detail words (R415). -/
theorem TrapRec.words_detail (r : TrapRec) {j : Nat} (hj : j < 8) : r.words[8 + j]? = (r.detail ++ List.replicate 8 0)[j]? := by
  obtain ⟨w0, w4, -, -, hw⟩ := r.words_eq
  rw [hw, List.getElem?_append_right (Nat.le_add_right 8 j)]
  change ((r.detail ++ List.replicate 8 0).take 8)[8 + j - 8]? = _
  rw [Nat.add_sub_cancel_left, List.getElem?_take_of_lt hj]

theorem length_flatMap_leBytes (l : List Word) : (l.flatMap fun w => leBytes w.toNat 8).length = 8 * l.length := by
  induction l with
  | nil => rfl
  | cons w l ih => rw [List.flatMap_cons, List.length_append, ih, length_leBytes, List.length_cons, Nat.mul_add, Nat.add_comm, Nat.mul_one]

/-- The bytes of a word of a list stand at its place. -/
theorem drop_flatMap_leBytes {l : List Word} {j : Nat} {w : Word} (h : l[j]? = some w) :
    ((l.flatMap fun w => leBytes w.toNat 8).drop (8 * j)).take 8 = leBytes w.toNat 8 := by
  induction l generalizing j with
  | nil => cases h
  | cons x l ih =>
    rw [List.flatMap_cons]
    cases j with
    | zero =>
      cases h
      rw [Nat.mul_zero, List.drop_zero, List.take_left' (length_leBytes _ _)]
    | succ j =>
      rw [List.getElem?_cons_succ] at h
      rw [Nat.mul_succ, Nat.add_comm, ← List.drop_drop, List.drop_left' (length_leBytes _ _), ih h]

/-- Settles O37: the words of the record field by field, and its bytes word by word. -/
theorem trapRecordLayout : Obligations.TrapRecordLayout := by
  intro r hd
  obtain ⟨hcause, hstrm, hprecise, hesc, hnest, hrecf, heng, hmidx, hinmac, hzero0⟩ := r.word0
  obtain ⟨hkind, hspace, hhalted, hzero4⟩ := r.word4
  obtain ⟨hcore, hzero7⟩ := r.word7
  have hlen : r.words.length = 16 := by
    obtain ⟨w0, w4, -, -, hw⟩ := r.words_eq
    rw [hw, List.length_append, List.length_take, List.length_append, List.length_replicate, Nat.min_eq_left (Nat.le_add_left _ _)]
    rfl
  refine ⟨?_, hlen, hcause, hstrm, hprecise, hesc, hnest, hrecf, heng, hmidx, hinmac, rfl, rfl, rfl, hkind, hspace, hhalted, rfl, rfl,
    hcore, hzero0, hzero4, hzero7, fun j hj => ?_, fun j hj hj8 => ?_, fun j w hw => drop_flatMap_leBytes hw⟩
  · rw [TrapRec.bytes, length_flatMap_leBytes, hlen]
  · rw [r.words_detail (Nat.lt_of_lt_of_le hj hd), List.getElem?_append_left hj]
  · rw [r.words_detail hj8, List.getElem?_append_right hj, List.getElem?_replicate, if_pos (by omega)]

end Sys2Proof.Machine
end

section
/-! PROOF. Taking a trap and returning from its handler (O38 to O42). -/
namespace Sys2Proof.Machine

/-! What a transfer's check and a record's stores leave. -/

theorem State.xlate_clock (s : State) (w : Walker) (asid : Nat) (user : Bool) (acc : Acc) (va : Int) (n : Nat) :
    (s.xlate w asid user acc va n).1.clock = s.clock := by
  obtain ⟨_, _, h⟩ := s.xlate_frame w asid user acc va n
  rw [h]

theorem State.mark_clock (s : State) (w : Walker) (acc : Acc) (ps : List Piece) : (s.mark w acc ps).clock = s.clock := by
  obtain ⟨_, _, _, _, _, _, h⟩ := s.mark_frame w acc ps
  rw [h]

theorem State.writePieces_clock (j : Word) (s : State) (ps : List Piece) (bs : List Byte) : (State.writePieces j s ps bs).clock = s.clock := by
  obtain ⟨_, _, _, _, _, h⟩ := State.writePieces_frame j s ps bs
  rw [h]

theorem State.fetch_cores (s : State) (c : CoreId) (i : StreamId) (va n : Nat) :
    (s.fetch c i va n).1.cores = s.cores ∧ (s.fetch c i va n).1.clock = s.clock := by
  have hc := s.xlate_cores (.strm c i) (s.core c).asid.toNat (!isSystem c) .fetch va n
  have hk := s.xlate_clock (.strm c i) (s.core c).asid.toNat (!isSystem c) .fetch va n
  unfold State.fetch
  generalize s.xlate (.strm c i) (s.core c).asid.toNat (!isSystem c) .fetch va n = x at hc hk
  obtain ⟨s1, r⟩ := x
  cases r with
  | error e => exact ⟨hc, hk⟩
  | ok ps => exact ⟨(s1.mark_cores ..).trans hc, (s1.mark_clock ..).trans hk⟩

theorem State.target_cores (s : State) (c : CoreId) (i : StreamId) (va : Word) :
    (s.target c i va).1.cores = s.cores ∧ (s.target c i va).1.clock = s.clock := by
  have h := s.fetch_cores c i va.toNat 4
  unfold State.target
  split
  · exact ⟨rfl, rfl⟩
  · generalize s.fetch c i va.toNat 4 = x at h
    obtain ⟨s1, r⟩ := x
    cases r with
    | error e => exact h
    | ok bs => exact h

/-! The due writes. -/

/-- The due writes of a stream change its registers, v and FFLAGS (R93). -/
theorem Core.applyDue_frame (k : Core) (i : StreamId) (clock : Nat) :
    ∃ (t : Strm) (v : Vector VWord 32) (fl : BitVec 5), k.applyDue i clock = { k.setStrm i t with v := v, fflags := fl } := by
  have ht : (k.setStrm i (k.laterWrites i clock)).strm i = k.laterWrites i clock := Core.strm_setStrm ..
  rw [Core.applyDue, Core.foldl_apply_eq, Core.setStrm_setStrm, ht]
  exact ⟨_, _, _, rfl⟩

/-- A wait undone gives back what it took of a queue or the split (R416). -/
theorem Core.undoWait_frame (k : Core) (w : Option Wait) :
    ∃ q l sp, k.undoWait w = { k with queues := q, locked := l, spcfg := sp } := by
  unfold Core.undoWait
  split
  · exact ⟨_, _, _, rfl⟩
  · split
    · split
      · exact ⟨_, _, _, rfl⟩
      · exact ⟨_, _, _, rfl⟩
    all_goals exact ⟨_, _, _, rfl⟩

/-- Entering the handler (R416): the CS stands at UTVEC, its frame and its pending writes kept. -/
theorem Core.enterHandler_spec (k0 : Core) (r : TrapRec) (clock : Nat) :
    (∃ f : Frame, (k0.enterHandler r clock).handler = some ⟨r, f, none⟩ ∧ f.pc = ((k0.applyDue .cs clock).strm .cs).pc ∧
      f.blk = ((k0.applyDue .cs clock).strm .cs).blk ∧ f.mac = ((k0.applyDue .cs clock).strm .cs).mac ∧
      f.pending = ((k0.applyDue .cs clock).strm .cs).pending ∧ f.slots = ((k0.applyDue .cs clock).strm .cs).slots ∧
      f.armed = ((k0.applyDue .cs clock).strm .cs).armed ∧ f.idle = ((k0.applyDue .cs clock).strm .cs).idle) ∧
    ((k0.enterHandler r clock).strm .cs).pc = (k0.applyDue .cs clock).utvec ∧ ((k0.enterHandler r clock).strm .cs).blk = none ∧
    ((k0.enterHandler r clock).strm .cs).pending = [] ∧
    ((k0.enterHandler r clock).strm .cs).arriving = ((k0.applyDue .cs clock).strm .cs).arriving ∧
    ((k0.enterHandler r clock).strm .cs).s = ((k0.applyDue .cs clock).strm .cs).s ∧
    ((k0.enterHandler r clock).strm .cs).p = ((k0.applyDue .cs clock).strm .cs).p ∧
    (k0.enterHandler r clock).v = (k0.applyDue .cs clock).v ∧ (k0.enterHandler r clock).fflags = (k0.applyDue .cs clock).fflags ∧
    (k0.enterHandler r clock).utvec = (k0.applyDue .cs clock).utvec ∧ (k0.enterHandler r clock).utrec = (k0.applyDue .cs clock).utrec ∧
    ∀ i : StreamId, i ≠ .cs → (k0.enterHandler r clock).strm i = (k0.applyDue .cs clock).strm i := by
  unfold Core.enterHandler
  dsimp only
  generalize k0.applyDue .cs clock = k
  obtain ⟨q, l, sp, hu⟩ : ∃ q l sp, (if (settledWait (k.strm .cs).wait).isSome = true then k else k.undoWait (k.strm .cs).wait) =
      { k with queues := q, locked := l, spcfg := sp } := by
    split
    · exact ⟨_, _, _, rfl⟩
    · exact k.undoWait_frame _
  rw [hu]
  rw [Core.strm_setStrm]
  refine ⟨⟨_, rfl, rfl, rfl, rfl, rfl, rfl, rfl, rfl⟩, rfl, rfl, rfl, rfl, rfl, rfl, rfl, rfl, rfl, rfl, fun i hi => ?_⟩
  exact Core.strm_setStrm_of_ne _ _ _ _ (Ne.symm hi)

/-- Settles O38: the record is stored and the handler entered, in the cases that the premises name. -/
theorem userTrapEntry : Obligations.UserTrapEntry := by
  intro s s1 s3 c r ps h hv hr he hx ht k t
  have hcores : s3.cores = s.cores ∧ s3.clock = s.clock := by
    have hxc := s.xlate_cores (.strm c .cs) (s.core c).asid.toNat true .store (s.core c).utrec.toNat 128
    have hxk := s.xlate_clock (.strm c .cs) (s.core c).asid.toNat true .store (s.core c).utrec.toNat 128
    obtain ⟨htc, htk⟩ := State.target_cores (State.writePieces (s.core c).jobid (s1.mark (.strm c .cs) .store ps) ps r.bytes) c .cs (s.core c).utvec
    rw [hx] at hxc hxk
    rw [ht] at htc htk
    exact ⟨htc.trans ((State.writePieces_cores ..).trans ((s1.mark_cores ..).trans hxc)),
      htk.trans ((State.writePieces_clock ..).trans ((s1.mark_clock ..).trans hxk))⟩
  refine ⟨(s.core c).enterHandler r s.clock, ?_, Core.enterHandler_spec _ _ _⟩
  have hcore : s3.core c = s.core c := by rw [State.core, State.core, hcores.1]
  unfold State.userTrap
  dsimp only
  rw [he, if_neg Bool.false_ne_true, if_neg hv, if_neg hr, hx]
  dsimp only
  rw [ht]
  dsimp only
  rw [hcore, hcores.2]

/-! Who takes a trap. -/

theorem supervisorFirst_iff (cause : Nat) :
    supervisorFirst cause = true ↔ cause = 0x10 ∨ cause = 0x26 ∨ cause = 0x41 ∨ cause = 0x42 ∨ cause = 0x51 := by
  simp only [supervisorFirst, Bool.or_eq_true, beq_iff_eq, or_assoc]
  rfl

section
variable {s : State} {c : CoreId} {i : StreamId} {r : TrapRec}

theorem deliver_system (h : isSystem c = true) :
    s.deliver c i r = { s.setCore c { s.core c with stopped := some r, active := false } with mailbox := s.mailbox ++ [r] } := by
  unfold State.deliver
  dsimp only
  rw [if_pos h]

theorem deliver_stopped (h : isSystem c = false) (hs : (s.core c).stopped ≠ none) :
    s.deliver c i r = s.setCore c { s.core c with held := (s.core c).held ++ [r] } := by
  unfold State.deliver
  dsimp only
  rw [h, if_neg Bool.false_ne_true, if_pos (Option.isSome_iff_ne_none.2 hs)]

theorem deliver_supervisor (h : isSystem c = false) (hs : (s.core c).stopped = none) (hc : supervisorFirst r.cause = true) :
    s.deliver c i r = if r.cause = 0x10 ∧ i = .as then
        (s.setStrm c i { s.strm c i with halted := true }).postSupervisor (dieOf c) { r with nest := (s.core c).handler.isSome }
      else s.stopJob c { r with nest := (s.core c).handler.isSome } := by
  unfold State.deliver
  dsimp only
  rw [h, if_neg Bool.false_ne_true, hs, Option.isSome_none, if_neg Bool.false_ne_true, if_pos hc]
  simp only [Bool.and_eq_true, decide_eq_true_eq]
  rfl

theorem deliver_user (h : isSystem c = false) (hs : (s.core c).stopped = none) (hc : supervisorFirst r.cause = false)
    (hh : (s.core c).handler = none) :
    s.deliver c i r = if s.plimReached c then s.setCore c { s.core c with held := (s.core c).held ++ [r] } else s.userTrap c r := by
  unfold State.deliver
  dsimp only
  rw [h, if_neg Bool.false_ne_true, hs, Option.isSome_none, if_neg Bool.false_ne_true, hc, if_neg Bool.false_ne_true, hh]

theorem deliver_handler (h : isSystem c = false) (hs : (s.core c).stopped = none) (hc : supervisorFirst r.cause = false)
    (hh : (s.core c).handler ≠ none) :
    s.deliver c i r = if i = .cs ∧ r.eng = false then s.stopJob c { r with nest := true }
      else s.setCore c { s.core c with held := (s.core c).held ++ [r] } := by
  obtain ⟨x, hx⟩ := Option.ne_none_iff_exists'.1 hh
  unfold State.deliver
  dsimp only
  rw [h, if_neg Bool.false_ne_true, hs, Option.isSome_none, if_neg Bool.false_ne_true, hc, if_neg Bool.false_ne_true, hx]
  simp only [Bool.and_eq_true, decide_eq_true_eq, Bool.not_eq_true']

end

/-- Settles O39: the delivery branch by branch. -/
theorem trapDelivery : Obligations.TrapDelivery := by
  intro s c i r hold stop
  refine ⟨deliver_system, deliver_stopped, fun h hs => ⟨fun hc => deliver_supervisor h hs ((supervisorFirst_iff _).2 hc), ?_⟩⟩
  intro h1 h2 h3 h4 h5
  have hc : supervisorFirst r.cause = false := Bool.eq_false_iff.2 fun hc => by
    rcases (supervisorFirst_iff _).1 hc with h | h | h | h | h <;> contradiction
  exact ⟨deliver_user h hs hc, deliver_handler h hs hc⟩

/-! The trap instructions. -/

theorem exec_seth {s s1 : State} {g : RRR} {h : Handler} {w : BitVec 32} (hg : s.guard = true) (hh : s.me.handler = some h)
    (he : h.record.eng = false) (ht : s.target s.ctx.core s.ctx.strm (s.getS g.a) = (s1, .ok w)) :
    exec (.seth g) s =
      .next ((s1.setMe { s1.me with handler := some { h with seth := some (s.getS g.a) } }).putS 1 g.d (s.me.resumeAddr h)).retire := by
  dsimp only [exec, execSeth]
  refine issue_done hg ?_
  rw [hh]
  dsimp only
  rw [he, if_neg Bool.false_ne_true, ht]

/-- Settles O40: each instruction by its own case. -/
theorem trapInstructionsComplete : Obligations.TrapInstructionsComplete := by
  intro s f g hg
  refine ⟨?_, fun h hh => ⟨fun s1 w he ht => exec_seth hg hh he ht, ?_, ?_⟩⟩
  · dsimp only [exec, execTrap]
    exact issue_trap hg rfl
  · dsimp only [exec, execTret]
    exact issue_stay hg rfl
  · dsimp only [exec, execUdecl]
    refine issue_stay hg (t := s.stopJob s.ctx.core { h.record with esc := true }) ?_
    rw [hh]

/-! Returning from a handler. -/

/-- A trapped command that is free again stands in its queue; nothing else changes (R433). -/
theorem Core.untrap_frame (k : Core) (r : TrapRec) (seth : Bool) : ∃ q1 q2 q3 q4 q5 q6 q7 q8 q9, k.untrap r seth =
    { k with tileQ := q1, arrQ := q2, collQ := q3, linkQ := q4, copyQ := q5, outQ := q6, rngQ := q7, verQ := q8, tacaps := q9 } := by
  unfold Core.untrap
  dsimp only
  split
  · exact ⟨_, _, _, _, _, _, _, _, _, rfl⟩
  · split
    · exact ⟨_, _, _, _, _, _, _, _, _, rfl⟩
    · split <;> exact ⟨_, _, _, _, _, _, _, _, _, rfl⟩

theorem Core.strm_thaw (k : Core) (n : Nat) (i : StreamId) :
    (k.thaw n).strm i = { k.strm i with readyAt := max (k.strm i).readyAt n } := by
  rw [Core.strm, Core.thaw]
  exact Vector.getElem_map _ _

/-- The core before it is unfrozen: the frame restored, and the trapping stream at its resume point. -/
def Core.resumed (k : Core) (h : Handler) : Core :=
  if h.record.eng then { k with handler := none }.restoreFrame h.frame
  else ({ k with handler := none }.restoreFrame h.frame).setStrm h.record.strm
    ((({ k with handler := none }.restoreFrame h.frame).strm h.record.strm).resumeAt h.seth h.record.cause)

/-- Of two streams set, the later stands. -/
theorem Core.setStrm_written (k : Core) (i : StreamId) (t u : Strm) (v : Vector VWord 32) (fl : BitVec 5) :
    ({ k.setStrm i t with v := v, fflags := fl } : Core).setStrm i u = { k.setStrm i u with v := v, fflags := fl } :=
  congrArg (fun k' : Core => { k' with v := v, fflags := fl }) (Core.setStrm_setStrm k i t u)

/-- The frame restored changes the CS's stream, v and FFLAGS. -/
theorem Core.restoreFrame_frame (k : Core) (f : Frame) : ∃ (t : Strm) (v : Vector VWord 32) (fl : BitVec 5),
    k.restoreFrame f = { k.setStrm .cs t with v := v, fflags := fl } := by
  rw [Core.restoreFrame, Core.foldl_apply_eq]
  exact ⟨_, _, _, Core.setStrm_written ..⟩

theorem Core.resumed_keeps (k : Core) (h : Handler) : (k.resumed h).handler = none ∧ (k.resumed h).held = k.held ∧
    (k.resumed h).v = ({ k with handler := none }.restoreFrame h.frame).v := by
  obtain ⟨t, v, fl, hf⟩ := Core.restoreFrame_frame { k with handler := none } h.frame
  unfold Core.resumed
  rw [hf]
  split <;> exact ⟨rfl, rfl, rfl⟩

/-- With no trap held, the core after a handler is the resumed one, unfrozen in the next slot. -/
theorem core_leaveHandler {s : State} {c : CoreId} {h : Handler} (hh : (s.core c).handler = some h) (hheld : (s.core c).held = []) :
    ∃ k' : Core, (s.leaveHandler c).core c = k' ∧ k'.handler = none ∧ k'.held = [] ∧
      k'.v = ({ s.core c with handler := none }.restoreFrame h.frame).v ∧
      ∀ i, k'.strm i = { ((s.core c).resumed h).strm i with readyAt := max (((s.core c).resumed h).strm i).readyAt (s.clock + 1) } := by
  obtain ⟨hnone, hkeep, hv⟩ := (s.core c).resumed_keeps h
  obtain ⟨q1, q2, q3, q4, q5, q6, q7, q8, q9, hu⟩ := ((s.core c).resumed h).untrap_frame h.record h.seth.isSome
  have hl : (s.leaveHandler c) = (s.setCore c ((((s.core c).resumed h).untrap h.record h.seth.isSome).thaw (s.clock + 1))).raiseHeld c := by
    unfold State.leaveHandler
    rw [hh]
    rfl
  have hr : s.leaveHandler c = s.setCore c ((((s.core c).resumed h).untrap h.record h.seth.isSome).thaw (s.clock + 1)) := by
    have h0 : (((s.core c).resumed h).untrap h.record h.seth.isSome |>.thaw (s.clock + 1)).held = [] := by
      rw [hu]
      exact hkeep.trans hheld
    rw [hl, State.raiseHeld, State.core_setCore, h0]
  refine ⟨_, by rw [hr, State.core_setCore], ?_, ?_, ?_, fun i => ?_⟩
  · rw [hu]
    exact hnone
  · rw [hu]
    exact hkeep.trans hheld
  · rw [hu]
    exact hv
  · rw [Core.strm_thaw, hu]
    rfl

/-- Where a trapped stream resumes (R418, R433). -/
theorem Strm.resumeAt_spec (x : Strm) (seth : Option Word) (cause : Nat) :
    (x.resumeAt seth cause).s = x.s ∧ (x.resumeAt seth cause).p = x.p ∧
    (∀ a, seth = some a → (x.resumeAt seth cause).pc = a ∧ (x.resumeAt seth cause).blk = none ∧ (x.resumeAt seth cause).mac = none) ∧
    (seth = none → cause ≠ 0x50 → (x.resumeAt seth cause).pc = x.pc ∧ (x.resumeAt seth cause).blk = x.blk ∧ (x.resumeAt seth cause).mac = x.mac) ∧
    (seth = none → cause = 0x50 → x.mac = none → (x.resumeAt seth cause).pc = x.pc + 4 ∧ (x.resumeAt seth cause).blk = x.blk) ∧
    (∀ m, seth = none → cause = 0x50 → x.mac = some m → (x.resumeAt seth cause).blk = x.blk ∧
      if m.idx + 1 < m.ops.length then (x.resumeAt seth cause).pc = x.pc ∧ (x.resumeAt seth cause).mac = some { m with idx := m.idx + 1 }
      else (x.resumeAt seth cause).mac = none ∧ (x.resumeAt seth cause).pc = x.pc + BitVec.ofNat 64 (2 * m.len) ∧
        (x.resumeAt seth cause).idle = m.st) := by
  cases seth with
  | some a =>
    refine ⟨rfl, rfl, fun b hb => ?_, nofun, nofun, nofun⟩
    cases hb
    exact ⟨rfl, rfl, rfl⟩
  | none =>
    have htrap : cTRAPI = 0x50 := rfl
    rw [Strm.resumeAt, htrap]
    by_cases hc : cause = 0x50
    · rw [if_pos hc]
      cases hm : x.mac with
      | none => exact ⟨rfl, rfl, nofun, fun _ hn => absurd hc hn, fun _ _ _ => ⟨rfl, rfl⟩, nofun⟩
      | some m =>
        dsimp only
        by_cases hi : m.idx + 1 < m.ops.length
        · rw [if_pos hi]
          refine ⟨rfl, rfl, nofun, fun _ hn => absurd hc hn, nofun, fun m' _ _ hm' => ?_⟩
          cases hm'
          exact ⟨rfl, by rw [if_pos hi]; exact ⟨rfl, rfl⟩⟩
        · rw [if_neg hi]
          refine ⟨rfl, rfl, nofun, fun _ hn => absurd hc hn, nofun, fun m' _ _ hm' => ?_⟩
          cases hm'
          exact ⟨rfl, by rw [if_neg hi]; exact ⟨rfl, rfl, rfl⟩⟩
    · rw [if_neg hc]
      exact ⟨rfl, rfl, nofun, fun _ _ => ⟨rfl, rfl, rfl⟩, fun _ h => absurd h hc, fun _ _ h => absurd h hc⟩

/-- Settles O41: the frame restored over the handler's last writes, then the resume point of the trapping stream. -/
theorem trapReturn : Obligations.TrapReturn := by
  intro s c h hh hheld out k k' x x'
  obtain ⟨k'', hk', hnone, hempty, hv, hstrm⟩ := core_leaveHandler hh hheld
  have hk : k' = k'' := hk'
  have hcs : k.strm .cs = _ := Core.strm_setStrm ..
  refine ⟨⟨by rw [hcs], by rw [hcs], by rw [hcs], by rw [hcs], by rw [hcs], by rw [hcs], by rw [hcs], by rw [hcs]; rfl, by rw [hcs]; rfl,
    by rw [hcs]; rfl, rfl, fun i hi => Core.strm_setStrm_of_ne _ _ _ _ (Ne.symm hi)⟩, ?_⟩
  rw [hk]
  refine ⟨hnone, hempty, hv, fun i => ?_, fun i hi => ?_, fun he => ?_⟩
  · rw [hstrm]
    exact Nat.le_max_right _ _
  · have hr : ((s.core c).resumed h).strm i = k.strm i := by
      rw [Core.resumed]
      split
      · rfl
      · next he => exact Core.strm_setStrm_of_ne _ _ _ _ (Ne.symm (hi.resolve_right he))
    rw [hstrm, hr]
  · have hr : ((s.core c).resumed h).strm h.record.strm = x.resumeAt h.seth h.record.cause := by
      rw [Core.resumed, he, if_neg Bool.false_ne_true]
      exact Core.strm_setStrm ..
    have hx : x' = { x.resumeAt h.seth h.record.cause with readyAt := max (x.resumeAt h.seth h.record.cause).readyAt (s.clock + 1) } := by
      rw [← hr, ← hstrm, ← hk]
    rw [hx]
    exact x.resumeAt_spec h.seth h.record.cause

/-! The decode checks. -/

/-- Settles O42: the checks in their order. -/
theorem decodeChecks : Obligations.DecodeChecks := by
  intro s k b inHandler pc hs room hroom hne
  obtain ⟨h, t, rfl⟩ := List.exists_cons_of_ne_nil hne
  have hlong : ¬((h.getLsbD 0 && decide (room < 2)) = true) := by
    rw [decide_eq_false (Nat.not_lt.2 hroom), Bool.and_false]
    exact Bool.false_ne_true
  have hbad {w : Code} {n cause : Nat} (hd : Decode.rawDecode (h :: t) = .ok (w, n)) (hf : decodeFault s k b.lm inHandler (h :: t) w n = some cause) :
      decodeAt s k b inHandler pc (h :: t) none room = badWord cause pc := by
    unfold decodeAt
    dsimp only
    rw [if_neg hlong, hd]
    dsimp only
    rw [hf]
  refine ⟨fun w n hd hp => ?_, fun w n hd hp hc hh hpr hsys => ?_, fun hd => ?_⟩
  · refine hbad hd ?_
    rw [decodeFault, hp]
    rfl
  · refine hbad hd ?_
    rw [decodeFault, hp, hc, hh, hpr, State.sup, hsys]
    rfl
  · unfold decodeAt
    dsimp only
    rw [if_neg hlong, hd]
    rfl

end Sys2Proof.Machine
end

section
/-! PROOF. The supervisor's instructions (O43). -/
namespace Sys2Proof.Machine

/-- The low bits of a word are its remainder. -/
theorem extract_low_ne {v : Word} {n : Nat} : v.extractLsb' 0 n ≠ 0 ↔ v.toNat % 2 ^ n ≠ 0 := by
  rw [ne_eq, ← BitVec.toNat_inj, BitVec.extractLsb'_toNat, Nat.shiftRight_zero]
  rfl

section
variable {s : State} {f : RRR} (hg : s.guard = true)
include hg

/-! ASET and TLBI. -/

theorem exec_aset (hb : (s.getS f.b).toNat % 512 = 0) (hp : s.physOk (s.myDie.ptroot.toNat + 8 * ((s.getS f.a).setWidth 13 : BitVec 13).toNat) = true) :
    (s.str.wait = none → s.copiesOver s.clock (· == (s.getS f.a).setWidth 13) = true → exec (.aset f) s =
      .next (((s.pwrite8 (s.myDie.ptroot.toNat + 8 * ((s.getS f.a).setWidth 13 : BitVec 13).toNat)
        ((s.getS f.b &&& 0x0000FFFFFFFFFE00) ||| (if s.getS f.b = 0 then 0 else 1))).forget
          (fun t => t.asid == (s.getS f.a).setWidth 13 && !pteG t.pte)).arriveS f.d
            (s.pread8 (s.myDie.ptroot.toNat + 8 * ((s.getS f.a).setWidth 13 : BitVec 13).toNat))).retire) ∧
    (∀ w, s.str.wait = some w → s.copiesOver w.since (· == (s.getS f.a).setWidth 13) = true →
      exec (.aset f) s = .next (s.arriveS f.d (BitVec.ofNat 64 w.phys)).retire) := by
  have ha : ¬(s.getS f.b).extractLsb' 0 9 ≠ 0 := fun h => extract_low_ne.1 h hb
  refine ⟨fun hw hc => ?_, fun w hw hc => ?_⟩
  · dsimp only [exec, execAset]
    refine issue_done hg ?_
    rw [if_neg ha, hp, Bool.not_true, if_neg Bool.false_ne_true, State.invalidate, hw]
    dsimp only
    exact if_pos hc
  · dsimp only [exec, execAset]
    refine issue_done hg ?_
    rw [if_neg ha, hp, Bool.not_true, if_neg Bool.false_ne_true, State.invalidate, hw]
    dsimp only
    exact if_pos hc

/-- TLBI forgets the translations that its form names, once no copy uses them. -/
theorem exec_tlbi {drop : TlbEntry → Bool} {of : BitVec 13 → Bool}
    (hd : ∀ t : TlbEntry, (match ((s.getS f.b).extractLsb' 0 2).toNat with
      | 0 => true
      | 1 => t.of ((s.getS f.b).extractLsb' 16 13)
      | 2 => t.of ((s.getS f.b).extractLsb' 16 13) && t.covers ((s.getS f.b).extractLsb' 16 13).toNat (s.getS f.a).toNat
      | _ => pteG t.pte) = drop t)
    (ho : of = fun x : BitVec 13 => ((s.getS f.b).extractLsb' 0 2).toNat == 0 || ((s.getS f.b).extractLsb' 0 2).toNat == 3 ||
      x == (s.getS f.b).extractLsb' 16 13) :
    (s.str.wait = none → s.copiesOver s.clock of = true →
      exec (.tlbi f) s = .next (State.retire { s with tlb := s.tlb.filter fun t => !drop t })) ∧
    (∀ w, s.str.wait = some w → s.copiesOver w.since of = true → exec (.tlbi f) s = .next s.retire) := by
  have hx : exec (.tlbi f) s = s.issue fun s => s.invalidate
      (fun x => ((s.getS f.b).extractLsb' 0 2).toNat == 0 || ((s.getS f.b).extractLsb' 0 2).toNat == 3 || x == (s.getS f.b).extractLsb' 16 13) 0
      (fun s1 => s1.forget fun t => match ((s.getS f.b).extractLsb' 0 2).toNat with
        | 0 => true
        | 1 => t.of ((s.getS f.b).extractLsb' 16 13)
        | 2 => t.of ((s.getS f.b).extractLsb' 16 13) && t.covers ((s.getS f.b).extractLsb' 16 13).toNat (s.getS f.a).toNat
        | _ => pteG t.pte) fun s _ => s := rfl
  rw [hx]
  refine ⟨fun hw hc => issue_done hg ?_, fun w hw hc => issue_done hg ?_⟩
  · rw [State.invalidate, hw, ← ho]
    simp only [hd]
    exact if_pos hc
  · rw [State.invalidate, hw, ← ho]
    exact if_pos hc

/-! PRQ. -/

/-- A PRQ with a known act. -/
theorem exec_prq {s1 : State} {n op : Nat} {p : JobPlace} (hj : s.jobOn (dieOf s.ctx.core) (s.getS f.a) = p)
    (ho : ((s.getS f.b).extractLsb' 0 4).toNat = op)
    (h : s.prq p op ((s.getS f.b).extractLsb' 8 8).toNat = some (s1, n)) :
    exec (.prq f) s = .next (s1.arriveS f.d (BitVec.ofNat 64 n)).retire := by
  dsimp only [exec, execPrq]
  refine issue_done hg ?_
  rw [hj, ho, h]

theorem exec_prq_gone {op : Nat} (hj : s.jobOn (dieOf s.ctx.core) (s.getS f.a) = .gone) (ho : ((s.getS f.b).extractLsb' 0 4).toNat = op) (hop : op < 4) :
    exec (.prq f) s = .next (s.arriveS f.d 1).retire := by
  refine exec_prq hg hj ho (n := 1) ?_
  obtain rfl | rfl | rfl | rfl : op = 0 ∨ op = 1 ∨ op = 2 ∨ op = 3 := by omega
  all_goals rfl

theorem exec_prq_saved {n : Nat} (hj : s.jobOn (dieOf s.ctx.core) (s.getS f.a) = .saved n) :
    (((s.getS f.b).extractLsb' 0 4).toNat = 2 → exec (.prq f) s =
      .next ((s.endSaved n ((s.getS f.b).extractLsb' 8 8).toNat 3).arriveS f.d 0).retire) ∧
    (((s.getS f.b).extractLsb' 0 4).toNat = 0 ∨ ((s.getS f.b).extractLsb' 0 4).toNat = 1 ∨ ((s.getS f.b).extractLsb' 0 4).toNat = 3 →
      exec (.prq f) s = .next (s.arriveS f.d 2).retire) := by
  refine ⟨fun ho => exec_prq hg hj ho (n := 0) rfl, ?_⟩
  rintro (ho | ho | ho)
  · exact exec_prq hg hj ho (n := 2) rfl
  · exact exec_prq hg hj ho (n := 2) rfl
  · exact exec_prq hg hj ho (n := 2) rfl

theorem exec_prq_core {c : CoreId} (hj : s.jobOn (dieOf s.ctx.core) (s.getS f.a) = .core c) :
    (((s.getS f.b).extractLsb' 0 4).toNat = 0 → exec (.prq f) s = .next ((s.setCore c { s.core c with
      request := some ((s.core c).request.getD ⟨none, 0, 0, 0, false⟩) }).arriveS f.d 0).retire) ∧
    (((s.getS f.b).extractLsb' 0 4).toNat = 2 → exec (.prq f) s =
      .next ((s.endJob c ((s.getS f.b).extractLsb' 8 8).toNat 3).arriveS f.d 0).retire) ∧
    (((s.getS f.b).extractLsb' 0 4).toNat = 1 → (s.core c).stopped ≠ none → exec (.prq f) s = .next ((s.resumeJob c).arriveS f.d 0).retire) ∧
    (((s.getS f.b).extractLsb' 0 4).toNat = 1 → (s.core c).stopped = none → exec (.prq f) s = .next (s.arriveS f.d 2).retire) ∧
    (((s.getS f.b).extractLsb' 0 4).toNat = 3 → exec (.prq f) s =
      .next (if (s.arr (clusterOf c)).lease = some c ∧ (s.arr (clusterOf c)).frozen = false
        then (s.revoke c).arriveS f.d 0 else s.arriveS f.d 2).retire) := by
  refine ⟨fun ho => exec_prq hg hj ho (n := 0) rfl, fun ho => exec_prq hg hj ho (n := 0) rfl,
    fun ho hs => exec_prq hg hj ho (n := 0) (if_pos (Option.isSome_iff_ne_none.2 hs)), fun ho hs => exec_prq hg hj ho (n := 2) ?_, fun ho => ?_⟩
  · rw [State.prq, hs]
    rfl
  · by_cases hl : (s.arr (clusterOf c)).lease = some c ∧ (s.arr (clusterOf c)).frozen = false
    · rw [if_pos hl]
      exact exec_prq hg hj ho (n := 0) (if_pos (by rw [hl.1, hl.2]; simp))
    · rw [if_neg hl]
      exact exec_prq hg hj ho (n := 2) (if_neg fun h => hl (by simpa using h))

/-! ARES, CTXSV, CTXRS. -/

theorem exec_ares_core {c : CoreId} (hj : s.jobOn (dieOf s.ctx.core) (s.getS f.a) = .core c) :
    ((s.strm c .as).halted = true → exec (.ares f) s = .next ((s.setCore c
      { (s.core c).setStrm .as { s.strm c .as with halted := false, readyAt := max (s.strm c .as).readyAt (s.clock + 1) } with
        copyQ := (s.core c).copyQ.map (fun x => { x with trapped := false }), aresSlot := some s.clock }).arriveS f.d 0).retire) ∧
    ((s.strm c .as).halted = false → exec (.ares f) s = .next (s.arriveS f.d 1).retire) := by
  refine ⟨fun hh => ?_, fun hh => ?_⟩
  · dsimp only [exec, execAres]
    refine issue_done hg ?_
    rw [hj]
    dsimp only
    rw [if_pos hh]
    rfl
  · dsimp only [exec, execAres]
    refine issue_done hg ?_
    rw [hj]
    dsimp only
    rw [hh, if_neg Bool.false_ne_true]

theorem exec_ares_gone (hj : ∀ c, s.jobOn (dieOf s.ctx.core) (s.getS f.a) ≠ .core c) : exec (.ares f) s = .next (s.arriveS f.d 1).retire := by
  dsimp only [exec, execAres]
  refine issue_done hg ?_
  cases h : s.jobOn (dieOf s.ctx.core) (s.getS f.a) with
  | core c => exact absurd h (hj c)
  | saved n => rfl
  | gone => rfl

theorem exec_ctxsv_gone (hb : (s.getS f.b).toNat % 4096 = 0) (hp : s.physOk (s.getS f.b).toNat = true)
    (hj : ∀ c, s.jobOn (dieOf s.ctx.core) (s.getS f.a) = .core c → (s.core c).stopped = none) :
    exec (.ctxsv f) s = .next (s.arriveS f.d 0).retire := by
  dsimp only [exec, execCtxsv]
  refine issue_done hg ?_
  rw [if_neg (Classical.not_not.2 hb), hp, Bool.not_true, if_neg Bool.false_ne_true]
  cases h : s.jobOn (dieOf s.ctx.core) (s.getS f.a) with
  | core c =>
    dsimp only
    rw [hj c h]
    rfl
  | saved n => rfl
  | gone => rfl

theorem exec_ctxsv_drained {c : CoreId} (hb : (s.getS f.b).toNat % 4096 = 0) (hp : s.physOk (s.getS f.b).toNat = true)
    (hj : s.jobOn (dieOf s.ctx.core) (s.getS f.a) = .core c) (hs : (s.core c).stopped ≠ none) (hd : (s.startDrain c).drained c = true)
    (hend : (s.startDrain c).physOk ((s.getS f.b).toNat +
      imageSize (sectionSizes ((s.startDrain c).core c).padSize (s.startDrain c).draws) - 1) = true) :
    exec (.ctxsv f) s = .next ((State.saveTo { s.startDrain c with draws := (s.startDrain c).draws + 8 } c (s.getS f.b).toNat
      (sectionSizes ((s.startDrain c).core c).padSize (s.startDrain c).draws)
      (recordPlace (sectionSizes ((s.startDrain c).core c).padSize (s.startDrain c).draws) (s.startDrain c).draws)).arriveS f.d
        (BitVec.ofNat 64 (imageSize (sectionSizes ((s.startDrain c).core c).padSize (s.startDrain c).draws)))).retire := by
  have hnone : ¬ (s.core c).stopped.isNone = true := by rwa [Option.isNone_iff_eq_none]
  dsimp only [exec, execCtxsv]
  refine issue_done hg ?_
  rw [if_neg (Classical.not_not.2 hb), hp, Bool.not_true, if_neg Bool.false_ne_true, hj]
  dsimp only
  rw [if_neg hnone, hd, Bool.not_true, if_neg Bool.false_ne_true, hend, Bool.not_true, if_neg Bool.false_ne_true]
  rfl

theorem exec_ctxrs : (s.imageAt (s.getS f.b).toNat = none → exec (.ctxrs f) s = .next (s.arriveS f.d 1).retire) ∧
    (∀ m, s.imageAt (s.getS f.b).toNat = some m → exec (.ctxrs f) s =
      .next (if s.coreIdle (coreAt (dieOf s.ctx.core) ((s.getS f.a).toNat % 64)) then
        (s.restoreTo m (coreAt (dieOf s.ctx.core) ((s.getS f.a).toNat % 64))).arriveS f.d 0 else s.arriveS f.d 2).retire) := by
  refine ⟨fun hi => ?_, fun m hi => ?_⟩
  · dsimp only [exec, execCtxrs]
    refine issue_done hg ?_
    rw [hi]
  · have h6 : ((s.getS f.a).extractLsb' 0 6).toNat = (s.getS f.a).toNat % 64 := by rw [BitVec.extractLsb'_toNat, Nat.shiftRight_zero]
    dsimp only [exec, execCtxrs]
    refine issue_done hg ?_
    rw [hi]
    dsimp only
    rw [h6]
    cases s.coreIdle (coreAt (dieOf s.ctx.core) ((s.getS f.a).toNat % 64)) <;> rfl

/-! WFTSP, ERRLOG, MIGR. -/

theorem exec_wftsp (ha : (s.getS f.a).toNat % 32 = 0) (hb : (s.getS f.b).toNat % 32 = 0)
    (hu : s.tableUsed (dieOf s.ctx.core) - 4096 ≤ (s.getS f.b).toNat / 32) :
    exec (.wftsp f) s = .next ((s.setMyDie { s.myDie with spill := s.getS f.a &&& 0x0000FFFFFFFFFFE0, spillCap := (s.getS f.b).toNat / 32 }).arriveS f.d
      (BitVec.ofNat 64 ((s.getS f.b).toNat / 32))).retire := by
  dsimp only [exec, execWftsp]
  refine issue_done hg ?_
  rw [if_neg fun h => extract_low_ne.1 h ha, if_neg (Classical.not_not.2 hb), if_neg (Nat.not_lt.2 hu)]

theorem exec_migr (hb : (s.getS f.b).toNat % 65536 = 0) (hp : s.physOk (s.getS f.b).toNat = true) :
    (∀ e, s.walk s.myDie.ptroot.toNat ((s.getS f.a).extractLsb' 48 13).toNat ((s.getS f.a).toNat / 65536 % 2 ^ 32 * 65536) = .error e →
      exec (.migr f) s = .next (s.arriveS f.d 2).retire) ∧
    (∀ l, s.walk s.myDie.ptroot.toNat ((s.getS f.a).extractLsb' 48 13).toNat ((s.getS f.a).toNat / 65536 % 2 ^ 32 * 65536) = .ok l →
      (l.block = true → exec (.migr f) s = .next (s.arriveS f.d 1).retire) ∧
      (l.block = false → exec (.migr f) s = .next ((((s.movePage l.pa (s.getS f.b).toNat 65536).pwrite8 l.entry
        ((l.pte &&& ~~~(0x0000FFFFFFFF0000 : Word)) ||| s.getS f.b)).forget (fun t =>
          t.vpn == (s.getS f.a).toNat / 65536 % 2 ^ 32 * 65536 / 65536 && (t.asid == (s.getS f.a).extractLsb' 48 13 || pteG t.pte))).arriveS
            f.d 0).retire)) := by
  have hva : ((s.getS f.a).extractLsb' 16 32).toNat * 65536 = (s.getS f.a).toNat / 65536 % 2 ^ 32 * 65536 := by
    rw [BitVec.extractLsb'_toNat, Nat.shiftRight_eq_div_pow]
  have ha : ¬(s.getS f.b).extractLsb' 0 16 ≠ 0 := fun h => extract_low_ne.1 h hb
  refine ⟨fun e he => ?_, fun l hl => ⟨fun hbl => ?_, fun hbl => ?_⟩⟩
  · dsimp only [exec, execMigr]
    refine issue_done hg ?_
    rw [if_neg ha, hp, Bool.not_true, if_neg Bool.false_ne_true, hva, he]
  · dsimp only [exec, execMigr]
    refine issue_done hg ?_
    rw [if_neg ha, hp, Bool.not_true, if_neg Bool.false_ne_true, hva, hl]
    dsimp only
    rw [if_pos hbl]
  · dsimp only [exec, execMigr]
    refine issue_done hg ?_
    rw [if_neg ha, hp, Bool.not_true, if_neg Bool.false_ne_true, hva, hl]
    dsimp only
    rw [hbl, if_neg Bool.false_ne_true]

end

theorem exec_inj {s : State} {g : RX} (hg : s.guard = true) :
    (g.xf 0 4 = 0 → exec (.inj g) s = .next (State.retire { s with correctable := (s.getS g.a).toNat / 64 * 64 :: s.correctable })) ∧
    (g.xf 0 4 = 1 → exec (.inj g) s = .next (s.poisonLine (s.getS g.a).toNat).retire) ∧
    (g.xf 0 4 = 2 → exec (.inj g) s = .next (s.setCore ⟨(s.getS g.a).toNat % 128, by omega⟩
      { s.core ⟨(s.getS g.a).toNat % 128, by omega⟩ with mismatch := true }).retire) ∧
    (g.xf 0 4 = 3 → exec (.inj g) s = .next (s.laneFault ⟨(s.getS g.a).toNat % 128, by omega⟩ ((s.getS g.a).getLsbD 8)).retire) := by
  refine ⟨fun hn => ?_, fun hn => ?_, fun hn => ?_, fun hn => ?_⟩
  all_goals
    dsimp only [exec, execInj]
    refine issue_done hg ?_
    rw [hn]
    rfl

/-- Settles O43: the supervisor's instructions case by case. -/
theorem supervisorCompletes : Obligations.SupervisorCompletes := by
  intro s f g hg a b d asid at_ op va
  refine ⟨exec_aset hg, ?_, fun hj hop => exec_prq_gone hg hj rfl hop,
    fun n hj => exec_prq_saved hg hj, fun c hj => ?_, fun hj => ⟨exec_ares_gone hg hj, fun hb hp => exec_ctxsv_gone hg hb hp fun c h => absurd h (hj c)⟩,
    (exec_ctxrs hg).1, (exec_ctxrs hg).2, exec_wftsp hg, ?_, exec_inj hg, exec_migr hg⟩
  · intro drop of n asid hd ho
    refine exec_tlbi hg (fun t => ?_) ho
    rcases hd with ⟨hn, rfl⟩ | ⟨hn, rfl⟩ | ⟨hn, rfl⟩ | ⟨hn, rfl⟩ <;>
    · have hn' : ((s.getS f.b).extractLsb' 0 2).toNat = _ := hn
      rw [hn'] <;> rfl
  · obtain ⟨h0, h2, h1, h1', h3⟩ := exec_prq_core hg hj
    obtain ⟨hhalt, hgo⟩ := exec_ares_core hg hj
    refine ⟨h0, h2, h1, h1', h3, hhalt, hgo, fun hb hp => ⟨fun hs => exec_ctxsv_gone hg hb hp fun c' h => ?_, ?_⟩⟩
    · cases hj.symm.trans h
      exact hs
    · intro hs hdr t sizes hend
      exact exec_ctxsv_drained hg hb hp hj hs hdr hend
  · dsimp only [exec, execErrlog]
    exact issue_done hg rfl

end Sys2Proof.Machine
end

section
/-! PROOF. The tile commands (O44). -/
namespace Sys2Proof.Machine

/-! A tile command at the head of its queue. -/

theorem Core.setTile_setTile (k : Core) (t u : Tile) : (k.setTile t).setTile u = k.setTile u := rfl

/-- The tile as a tile command leaves it: its result, counted in the command window (R193). -/
theorem State.setTile_count (s : State) (t : Tile) (x : Cmd) :
    (s.setMe (s.me.setTile t)).setMe ((s.setMe (s.me.setTile t)).me.setTile ((s.setMe (s.me.setTile t)).me.tile.count x)) =
      s.setMe (s.me.setTile (t.count x)) := by
  rw [State.me_setMe, State.setMe_setMe]
  rfl

/-! Products. -/

/-- A product: of the integer class, or unchecked, it is written; else it may be found wrong twice (R192, R199). -/
theorem multiply_cases (f : E) (x : Cmd) (b : State) {cls : TileSum} (zeros : Word) (hp : tilePair (tfmtAF b.me.tile.tfmt) (tfmtBF b.me.tile.tfmt) = some cls)
    (he : cls = .fused f64 → f.a.toNat % 2 = 0 ∧ f.b.toNat % 2 = 0) :
    let t := b.me.tile.setAcc f.d.toNat (product cls (tfmtAF b.me.tile.tfmt) (tfmtBF b.me.tile.tfmt) (b.me.tile.image f.a.toNat (cls == .fused f64))
      (b.me.tile.image f.b.toNat (cls == .fused f64)) (b.me.tile.acc f.d.toNat) x.rows x.depth zeros)
    (b.me.tile.cke = false ∨ cls = .integer → b.multiply f x zeros = .tile b t) ∧
    (b.multiply f x zeros = .tile b t ∨ b.multiply f x zeros = .tile b.drawn t ∨
      b.multiply f x zeros = .cmd (.trap b.drawn { cause := 0x33, detail := [f.d.setWidth 64] })) := by
  intro t
  have hpair : ((cls == .fused f64) && (f.a.toNat % 2 == 1 || f.b.toNat % 2 == 1)) = false := by
    by_cases hc : cls = .fused f64
    · obtain ⟨ha, hb⟩ := he hc
      rw [ha, hb]
      exact Bool.and_false _
    · rw [beq_false_of_ne hc, Bool.false_and]
  unfold State.multiply
  dsimp only
  rw [hp]
  dsimp only
  rw [hpair, if_neg Bool.false_ne_true]
  generalize ho : (b.me.tile.cke && !sumsAgree _ _ _ _ _ _ _ _ _ _ _) = o
  cases o with
  | false =>
    rw [if_neg Bool.false_ne_true, Bool.false_and, Bool.false_and, if_neg Bool.false_ne_true]
    exact ⟨fun _ => rfl, .inl rfl⟩
  | true =>
    refine ⟨fun hoff => ?_, .inr ?_⟩
    · obtain ⟨hcke, hsum⟩ := Bool.and_eq_true_iff.1 ho
      rcases hoff with hoff | rfl
      · rw [hoff] at hcke
        cases hcke
      · cases hsum
    · rw [if_pos rfl, Bool.true_and]
      split
      · exact .inr rfl
      · exact .inl rfl

section
variable {s : State} {c : CoreId} {x : Cmd} (h : HeadRuns s c .tile x) (hbad : (s.core c).tile.bad = [])
include h hbad

/-- A tile command reads no uncorrectable register where the engine has none. -/
theorem tileCmd_body {i : Instr} {f : E} {more : State → List Word} {reads : State → List Nat} {body : State → Cmd → TileRes} {r : CmdRes}
    (hb : body (s.asCmd c .tile x) x = .cmd r) :
    s.tileCmd i f more reads body = .next ((match r with
      | .done s1 => CmdRes.done (s1.setMe (s1.me.setTile (s1.me.tile.count x)))
      | r => r).close s c .tile x) := by
  have hno : ((reads (s.asCmd c .tile x)).any fun r => (s.asCmd c .tile x).me.tile.bad.contains r) = false := by
    have : (s.asCmd c .tile x).me.tile.bad = [] := hbad
    rw [this]
    exact List.any_eq_false.2 fun _ _ => Bool.false_ne_true
  rw [State.tileCmd, command_head h]
  dsimp only
  rw [hno, if_neg Bool.false_ne_true, hb]
  cases r <;> rfl

theorem tileCmd_done {i : Instr} {f : E} {more : State → List Word} {reads : State → List Nat} {body : State → Cmd → TileRes} {t : State}
    (hb : body (s.asCmd c .tile x) x = .cmd (.done t)) :
    s.tileCmd i f more reads body = .next (completed (t.setMe (t.me.setTile (t.me.tile.count x))) c .tile x) := by
  rw [tileCmd_body h hbad hb]
  exact congrArg _ (CmdRes.close_done ..)

/-- A tile command that gives a tile state. -/
theorem tileCmd_tile {i : Instr} {f : E} {more : State → List Word} {reads : State → List Nat} {body : State → Cmd → TileRes} {u : State} {t : Tile}
    (hb : body (s.asCmd c .tile x) x = .tile u t) :
    s.tileCmd i f more reads body = .next (completed (u.setMe (u.me.setTile (t.count x))) c .tile x) := by
  rw [tileCmd_done h hbad (t := u.setMe (u.me.setTile t)) hb, State.setTile_count]

theorem tileCmd_trap {i : Instr} {f : E} {more : State → List Word} {reads : State → List Nat} {body : State → Cmd → TileRes} {u : State} {t : TrapSpec}
    (hb : body (s.asCmd c .tile x) x = .cmd (.trap u t)) :
    s.tileCmd i f more reads body = .next (u.raiseCmd c .tile false t) := by
  rw [tileCmd_body h hbad hb]
  rfl

/-! The registers of the tile. -/

theorem exec_tzero (f : E) : exec (.tzero f) s = .next (completed ((s.asCmd c .tile x).setMe ((s.asCmd c .tile x).me.setTile
    (((s.core c).tile.setAcc f.d.toNat (mapAcc ((s.core c).tile.acc f.d.toNat) x.rows x.rows fun _ _ _ => 0)).count x))) c .tile x) := by
  have hb (t : Tile) (ht : t.bad = []) (b : Bool) (n : Nat) : { t with bad := if b = true then t.bad.filter (· != n) else t.bad } = t := by
    rw [ht]
    cases b
    · rw [if_neg Bool.false_ne_true, ← ht]
    · rw [if_pos rfl, List.filter_nil, ← ht]
  dsimp only [exec, execTzero]
  exact tileCmd_tile h hbad (congrArg (TileRes.tile (s.asCmd c .tile x))
    (hb ((s.core c).tile.setAcc f.d.toNat (mapAcc ((s.core c).tile.acc f.d.toNat) x.rows x.rows fun _ _ _ => 0)) hbad _ _))

theorem exec_tmov (f : E) :
    (f.of 0 1 = 1 → exec (.tmov f) s = .next (completed ((s.asCmd c .tile x).setMe ((s.asCmd c .tile x).me.setTile
      (((s.core c).tile.setAcc f.d.toNat ((s.core c).tile.acc f.a.toNat)).count x))) c .tile x)) ∧
    (f.of 0 1 = 0 → exec (.tmov f) s = .next (completed ((s.asCmd c .tile x).setMe ((s.asCmd c .tile x).me.setTile
      (((s.core c).tile.setImage f.d.toNat false ((s.core c).tile.image f.a.toNat false)).count x))) c .tile x)) := by
  have hb (t : Tile) (ht : t.bad = []) (n : Nat) : { t with bad := t.bad.filter (· != n) } = t := by rw [ht, List.filter_nil, ← ht]
  refine ⟨fun h1 => ?_, fun h0 => ?_⟩
  · dsimp only [exec, execTmov]
    refine tileCmd_tile h hbad (u := s.asCmd c .tile x) ?_
    rw [h1]
    exact congrArg (TileRes.tile (s.asCmd c .tile x)) (hb ((s.core c).tile.setAcc f.d.toNat ((s.core c).tile.acc f.a.toNat)) hbad _)
  · dsimp only [exec, execTmov]
    refine tileCmd_tile h hbad (u := s.asCmd c .tile x) ?_
    rw [h0]
    rfl

theorem exec_ttrn (f : E) : exec (.ttrn f) s = .next (completed ((s.asCmd c .tile x).setMe ((s.asCmd c .tile x).me.setTile
    (((s.core c).tile.setImage f.d.toNat (f.of 0 2 == 2) (transpose (16 * 2 ^ f.of 0 2) ((s.core c).tile.image f.a.toNat (f.of 0 2 == 2)))).count x)))
      c .tile x) := by
  dsimp only [exec, execTtrn]
  exact tileCmd_tile h hbad rfl

theorem exec_tfmt (f : E) (h13 : x.sa.toNat < 2 ^ 13) (hrm : x.sa.toNat / 1024 ≤ 4)
    (hp : tilePair (x.sa.toNat % 32) (x.sa.toNat / 32 % 32) ≠ none) :
    exec (.tfmt f) s = .next (completed ((s.asCmd c .tile x).setMe ((s.asCmd c .tile x).me.setTile
      (Tile.count { (s.core c).tile with tfmt := x.sa.setWidth 13 } x))) c .tile x) := by
  have hw : (x.sa.setWidth 13 : BitVec 13).toNat = x.sa.toNat := by rw [BitVec.toNat_setWidth, Nat.mod_eq_of_lt h13]
  have ha : tfmtAF (x.sa.setWidth 13) = x.sa.toNat % 32 := by
    rw [tfmtAF, BitVec.extractLsb'_toNat, hw, Nat.shiftRight_zero]
  have hb : tfmtBF (x.sa.setWidth 13) = x.sa.toNat / 32 % 32 := by
    rw [tfmtBF, BitVec.extractLsb'_toNat, hw, Nat.shiftRight_eq_div_pow]
  have hr : ((x.sa.setWidth 13 : BitVec 13).extractLsb' 10 3).toNat = x.sa.toNat / 1024 % 8 := by
    rw [BitVec.extractLsb'_toNat, hw, Nat.shiftRight_eq_div_pow]
  have hc : ¬(2 ^ 13 ≤ x.sa.toNat ∨ 4 < ((x.sa.setWidth 13 : BitVec 13).extractLsb' 10 3).toNat ∨
      (tilePair (tfmtAF (x.sa.setWidth 13)) (tfmtBF (x.sa.setWidth 13))).isNone = true) := by
    rw [ha, hb, hr, Option.isNone_iff_eq_none]
    rintro (h1 | h1 | h1)
    · omega
    · omega
    · exact hp h1
  dsimp only [exec, execTfmt]
  exact tileCmd_tile h hbad (if_neg hc)

/-- TCKS (R202). -/
theorem exec_tcks :
    exec .tcksOff s = .next (completed ((s.asCmd c .tile x).setMe ((s.asCmd c .tile x).me.setTile
      (Tile.count { (s.core c).tile with cke := false } x))) c .tile x) ∧
    exec .tcksOn s = .next (completed ((s.asCmd c .tile x).setMe ((s.asCmd c .tile x).me.setTile
      (Tile.count { (s.core c).tile with cke := true } x))) c .tile x) := by
  refine ⟨?_, ?_⟩
  · dsimp only [exec, execTcksOff]
    exact tileCmd_tile h hbad rfl
  · dsimp only [exec, execTcksOn]
    exact tileCmd_tile h hbad rfl

theorem exec_tcvt (f : E) : exec (.tcvt f) s =
    let r := convertElems (accTy (s.core c).tile.tfmt) (tileNum (f.of 0 5))
      (if f.of 5 3 = 7 then tfmtRM (s.core c).tile.tfmt else RMode.ofCode (f.of 5 3)) ((s.core c).tile.acc f.a.toNat) (List.range 256)
      ((s.core c).strm .ts).seed
    let b := (s.asCmd c .tile x).setStrm c .ts { (s.asCmd c .tile x).strm c .ts with seed := r.2 }
    .next (completed (b.setMe (b.me.setTile (((s.core c).tile.setImage f.d.toNat (f.of 0 5 == 0)
      (r.1.zipIdx.foldl (fun n y => n + y.1 * 2 ^ (8 * tileLB (f.of 0 5) * (y.2 / 16) + (tileNum (f.of 0 5)).width * (y.2 % 16))) 0)).count x))) c .tile x) := by
  dsimp only [exec, execTcvt]
  exact tileCmd_tile h hbad rfl

theorem exec_product (f : E) {cls : TileSum} {zeros : Word} {i : Instr} (hp : tilePair (tfmtAF (s.core c).tile.tfmt) (tfmtBF (s.core c).tile.tfmt) = some cls)
    (he : cls = .fused f64 → f.a.toNat % 2 = 0 ∧ f.b.toNat % 2 = 0) (hi : i = .tmma f ∧ zeros = 0 ∨ i = .tmmas f ∧ zeros = x.zeros) :
    let b := s.asCmd c .tile x
    let fin (b : State) (t : Tile) : State := completed (b.setMe (b.me.setTile (t.count x))) c .tile x
    let tl := (s.core c).tile
    let t := tl.setAcc f.d.toNat (product cls (tfmtAF tl.tfmt) (tfmtBF tl.tfmt) (tl.image f.a.toNat (cls == .fused f64))
      (tl.image f.b.toNat (cls == .fused f64)) (tl.acc f.d.toNat) x.rows x.depth zeros)
    (tl.cke = false ∨ cls = .integer → exec i s = .next (fin b t)) ∧
    (tl.cke = true → exec i s = .next (fin b t) ∨ exec i s = .next (fin b.drawn t) ∨
      exec i s = .next (b.drawn.raiseCmd c .tile false { cause := 0x33, detail := [f.d.setWidth 64] })) := by
  intro b fin tl t
  obtain ⟨hw, hthree⟩ := multiply_cases f x b zeros hp he
  obtain ⟨j, more, reads, body, hx, hbody⟩ : ∃ j more reads body, exec i s = s.tileCmd j f more reads body ∧ body b x = b.multiply f x zeros := by
    rcases hi with ⟨rfl, rfl⟩ | ⟨rfl, rfl⟩
    · exact ⟨_, _, _, _, rfl, rfl⟩
    · exact ⟨_, _, _, _, rfl, rfl⟩
  rw [hx]
  refine ⟨fun hoff => tileCmd_tile h hbad (hbody.trans (hw hoff)), fun _ => ?_⟩
  rcases hthree with hm | hm | hm
  · exact .inl (tileCmd_tile h hbad (hbody.trans hm))
  · exact .inr (.inl (tileCmd_tile h hbad (hbody.trans hm)))
  · exact .inr (.inr (tileCmd_trap h hbad (hbody.trans hm)))

end

theorem exec_tstart {s : State} {c : CoreId} {x : Cmd} (h : HeadRuns s c .tile x) :
    exec .tstart s = .next (completed ((s.asCmd c .tile x).setMe ((s.asCmd c .tile x).me.setTile { (s.core c).tile with
      window := some ⟨(s.core c).tile.t, (s.core c).tile.a, (s.core c).tile.tfmt, ((s.core c).strm .ts).seed, 0, [], []⟩ })) c .tile x) := by
  dsimp only [exec, execTstart]
  exact command_done h rfl

end Sys2Proof.Machine
end

section
/-! PROOF. Tile loads and stores (O44). -/
namespace Sys2Proof.Machine

theorem Core.mapHead_frame (k : Core) (f : Cmd → Cmd) : ∃ q, k.mapHead .tile f = { k with tileQ := q } := by
  unfold Core.mapHead
  split
  · exact ⟨_, rfl⟩
  · exact ⟨_, rfl⟩

/-- A TLD whose scratchpad takes its ranges gives their image (R190, R194). -/
theorem tldRead_ok {s : State} {c : CoreId} {x : Cmd} {f : E} (go : Nat → TileRes)
    (ha : x.sa.toNat % tileAlign (f.of 0 5) = 0) (hp : pitch x.sb % tileAlign (f.of 0 5) = 0)
    (hmx : tileMX (f.of 0 5) = true → pitch x.sb % (if f.of 0 5 = 13 then 16 else 32) = 0)
    (hcfg : (s.core (tileTarget c (f.of 5 1) (f.of 6 3))).spcfg = none) (hpo : (s.core (tileTarget c (f.of 5 1) (f.of 6 3))).spadPoison = [])
    (hok : ∀ r ∈ tldRanges (f.of 0 5) x.sa.toNat ((x.more[1]?.getD 0).toNat) (pitch x.sb),
      s.padOk c (tileTarget c (f.of 5 1) (f.of 6 3)) r.1 r.2 = true) :
    s.tldRead c x f go = go (tldImage (f.of 0 5) ((tldRanges (f.of 0 5) x.sa.toNat ((x.more[1]?.getD 0).toNat) (pitch x.sb)).flatMap
      fun r => (s.core (tileTarget c (f.of 5 1) (f.of 6 3))).spad.readN r.1.toNat r.2)) := by
  have hal : ¬(x.sa.toNat % tileAlign (f.of 0 5) ≠ 0 ∨ pitch x.sb % tileAlign (f.of 0 5) ≠ 0 ∨
      tileMX (f.of 0 5) = true ∧ pitch x.sb % (if f.of 0 5 = 13 then 16 else 32) ≠ 0) := by
    rintro (h1 | h1 | ⟨h1, h2⟩)
    · exact h1 ha
    · exact h1 hp
    · exact h2 (hmx h1)
  have hbad (t : CoreId) (rs : List (Int × Nat)) :
      (rs.flatMap fun r => (s.core (tileTarget c (f.of 5 1) (f.of 6 3))).padBad t r.1.toNat r.2) = [] := by
    rw [List.flatMap_eq_nil_iff]
    intro r _
    rw [Core.padBad, hpo]
    simp
  unfold State.tldRead
  dsimp only
  rw [if_neg hal, padHeld_of_none hcfg, if_neg Bool.false_ne_true, List.find?_eq_none.2 fun r hr => by rw [hok r hr]; decide]
  dsimp only
  rw [hbad]
  exact congrArg go (congrArg (tldImage (f.of 0 5)) (congrArg (List.flatMap · _) (funext fun r => padRead_clean hpo _ _)))

theorem State.tile_setStrm (s : State) (c : CoreId) (i : StreamId) (t : Strm) (d : CoreId) : ((s.setStrm c i t).core d).tile = (s.core d).tile := by
  by_cases hd : c = d
  · subst hd
    exact (congrArg Core.tile (State.core_setCore s c ((s.core c).setStrm i t))).trans rfl
  · exact congrArg Core.tile (State.core_setCore_of_ne s c d _ hd)

section
variable {s : State} {c : CoreId} {x : Cmd} (h : HeadRuns s c .tile x) (hbad : (s.core c).tile.bad = [])
include h hbad

theorem exec_tld {f : E} (ha : x.sa.toNat % tileAlign (f.of 0 5) = 0) (hp : pitch x.sb % tileAlign (f.of 0 5) = 0)
    (hmx : tileMX (f.of 0 5) = true → pitch x.sb % (if f.of 0 5 = 13 then 16 else 32) = 0)
    (hcfg : (s.core (tileTarget c (f.of 5 1) (f.of 6 3))).spcfg = none) (hpo : (s.core (tileTarget c (f.of 5 1) (f.of 6 3))).spadPoison = [])
    (h0 : f.of 9 1 = 0)
    (hok : ∀ r ∈ tldRanges (f.of 0 5) x.sa.toNat ((x.more[1]?.getD 0).toNat) (pitch x.sb),
      (s.asCmd c .tile x).padOk c (tileTarget c (f.of 5 1) (f.of 6 3)) r.1 r.2 = true) :
    exec (.tld f) s = .next (completed ((s.asCmd c .tile x).setMe ((s.asCmd c .tile x).me.setTile (((s.core c).tile.setImage f.d.toNat (f.of 0 5 == 0)
      (tldImage (f.of 0 5) ((tldRanges (f.of 0 5) x.sa.toNat ((x.more[1]?.getD 0).toNat) (pitch x.sb)).flatMap
        fun r => (s.core (tileTarget c (f.of 5 1) (f.of 6 3))).spad.readN r.1.toNat r.2))).count x))) c .tile x) := by
  dsimp only [exec, execTld]
  refine tileCmd_tile h hbad (u := s.asCmd c .tile x) ?_
  rw [h0, if_neg Nat.zero_ne_one]
  exact tldRead_ok _ ha hp hmx hcfg hpo hok

theorem exec_tst {f : E} {s1 : State} {none_ : List Byte}
    (ha : x.sa.toNat % ((NumTy.ofCode (f.of 0 4)).width / 8) = 0) (hp : pitch x.sb % ((NumTy.ofCode (f.of 0 4)).width / 8 : Nat) = 0) :
    let ty := NumTy.ofCode (f.of 0 4)
    let eb := ty.width / 8
    let es := tstElems x.rows x.sa.toNat (pitch x.sb) eb
    let r := convertElems (accTy (s.core c).tile.tfmt) ty (tfmtRM (s.core c).tile.tfmt) ((s.core c).tile.acc f.d.toNat) (es.map (·.1)) ((s.core c).strm .ts).seed
    let rs := joinRanges (es.map fun e => (e.2, eb))
    (if f.of 4 2 = 2 then (s.asCmd c .tile x).storeRanges c .ts rs (r.1.flatMap fun v => leBytes v eb)
      else (s.asCmd c .tile x).storePad c (tileTarget c (f.of 4 2) (f.of 6 3)) (f.of 4 2) rs (r.1.flatMap fun v => leBytes v eb)) = .ok s1 none_ →
    exec (.tst f) s = .next (completed ((s1.setStrm c .ts { s1.strm c .ts with seed := r.2 }).setMe
      ((s1.setStrm c .ts { s1.strm c .ts with seed := r.2 }).me.setTile (s1.me.tile.count x))) c .tile x) := by
  intro ty eb es r rs hst
  have htile : (s1.setStrm c .ts { s1.strm c .ts with seed := r.2 }).me.tile = s1.me.tile := 
    State.tile_setStrm s1 c .ts _ _
  have hal : ¬(x.sa.toNat % eb ≠ 0 ∨ pitch x.sb % eb ≠ 0) := by
    rintro (h1 | h1)
    · exact h1 ha
    · exact h1 hp
  dsimp only [exec, execTst]
  rw [← htile]
  refine tileCmd_done h hbad (t := s1.setStrm c .ts { s1.strm c .ts with seed := r.2 }) ?_
  rw [if_neg hal]
  refine Eq.trans (congrArg (fun p : Accessed => match p with
    | .ok s1 _ => TileRes.cmd (.done (s1.setStrm c .ts { s1.strm c .ts with seed := r.2 }))
    | .trap s1 t => .cmd (.trap s1 t)
    | .hold _ => .cmd (.busy (s.asCmd c .tile x))) hst) rfl

end

/-! A multicast TLD. -/

theorem clusterOf_tileTarget (c : CoreId) (p : Nat) : clusterOf (tileTarget c 1 p) = clusterOf c := by
  have hc := c.isLt
  have hv : (tileTarget c 1 p).val = (8 * (c.val / 8) + p % 8) % 136 := rfl
  rw [clusterOf, hv, clusterOf]
  omega

theorem tileTarget_member {c d : CoreId} {set : Word} (hd : d ∈ mcastCores c set) (p : Nat) : tileTarget d 1 p = tileTarget c 1 p := by
  obtain ⟨n, -, rfl⟩ := List.mem_map.1 hd
  rw [tileTarget, if_neg Nat.one_ne_zero, tileTarget, if_neg Nat.one_ne_zero]
  exact Fin.ext (congrArg (fun k => (8 * k + p % 8) % 136) (clusterOf_tileTarget c n))

theorem mcastCores_lead {c : CoreId} {set : Word} (h : set.getLsbD (posOf c) = true) :
    (mcastCores c set).head?.getD c ∈ mcastCores c set := by
  have hm : tileTarget c 1 (posOf c) ∈ mcastCores c set :=
    List.mem_map.2 ⟨posOf c, List.mem_filter.2 ⟨List.mem_range.2 (Nat.mod_lt _ (by decide)), h⟩, rfl⟩
  cases hl : mcastCores c set with
  | nil =>
    rw [hl] at hm
    cases hm
  | cons d l => exact List.mem_cons_self

/-- Two TLDs that agree name the same format, scratchpad, addresses and set (R190). -/
theorem mcastKey_eq {x y : Cmd} {f g : E} (hx : x.code.instr = .tld f) (hy : y.code.instr = .tld g) (h : mcastKey y = mcastKey x) :
    g.of 0 5 = f.of 0 5 ∧ g.of 6 3 = f.of 6 3 ∧ y.sa = x.sa ∧ pitch y.sb = pitch x.sb ∧ y.more[0]?.getD 0 = x.more[0]?.getD 0 ∧
      tldRanges (g.of 0 5) y.sa.toNat ((y.more[1]?.getD 0).toNat) (pitch y.sb) = tldRanges (f.of 0 5) x.sa.toNat ((x.more[1]?.getD 0).toNat) (pitch x.sb) := by
  rw [mcastKey, mcastKey, hx, hy] at h
  simp only [Option.some.injEq, Prod.mk.injEq] at h
  obtain ⟨hf, hs, ha, hp, hm, hscale⟩ := h
  refine ⟨hf, hs, ha, hp, hm, ?_⟩
  rw [hf] at hscale ⊢
  rw [ha, hp, tldRanges, tldRanges]
  by_cases hmx : tileMX (f.of 0 5) = true
  · rw [if_pos hmx, if_pos hmx] at hscale
    rw [hscale]
  · dsimp only
    rw [if_neg hmx, if_neg hmx]

/-- The state in which a multicast TLD shows itself at the head of its queue (R190). -/
def State.mcastShown (b : State) (f : E) : State := b.setMe (b.me.mapHead .tile fun y => { y with stage := 16 + f.of 10 4 })

/-- A multicast TLD whose members have all come, and agree with the lead. -/
theorem mcast_ok {b u : State} {x y : Cmd} {f g : E} {t : Tile} (hset : (x.more[0]?.getD 0).getLsbD (posOf b.ctx.core) = true)
    (hnone : ((mcastCores b.ctx.core (x.more[0]?.getD 0)).any fun d => ((b.mcastShown f).mcastHead d (f.of 10 4)).isNone) = false)
    (hy : (b.mcastShown f).mcastHead ((mcastCores b.ctx.core (x.more[0]?.getD 0)).head?.getD b.ctx.core) (f.of 10 4) = some y)
    (hyi : y.code.instr = .tld g) (hmore : y.more[0]?.getD 0 = x.more[0]?.getD 0) (hkey : mcastKey y = mcastKey x)
    (hread : (b.mcastShown f).tldRead ((mcastCores b.ctx.core (x.more[0]?.getD 0)).head?.getD b.ctx.core) y g (fun img =>
      .tile (State.mcastOthers b.ctx.core (f.of 10 4) img (mcastKey x) (mcastCores b.ctx.core (x.more[0]?.getD 0)) (b.mcastShown f))
        ((State.mcastOthers b.ctx.core (f.of 10 4) img (mcastKey x) (mcastCores b.ctx.core (x.more[0]?.getD 0)) (b.mcastShown f)).me.tile.setImage
          f.d.toNat (f.of 0 5 == 0) img)) = .tile u t) :
    b.mcast x f = .tile u t := by
  unfold State.mcast
  dsimp only
  rw [hset, Bool.not_true, if_neg Bool.false_ne_true]
  change (if ((mcastCores b.ctx.core (x.more[0]?.getD 0)).any fun d => ((b.mcastShown f).mcastHead d (f.of 10 4)).isNone) = true then _ else _) = _
  rw [hnone, if_neg Bool.false_ne_true]
  change (match (b.mcastShown f).mcastHead ((mcastCores b.ctx.core (x.more[0]?.getD 0)).head?.getD b.ctx.core) (f.of 10 4) with
    | none => _
    | some y => _) = _
  rw [hy]
  dsimp only
  rw [hmore, hset, Bool.not_true, if_neg Bool.false_ne_true, hyi, hkey]
  dsimp only
  change (if ((mcastCores b.ctx.core (x.more[0]?.getD 0)).any fun d => ((b.mcastShown f).mcastHead d (f.of 10 4)).isNone) = true then _ else _) = _
  rw [hnone, if_neg Bool.false_ne_true]
  simp only [beq_self_eq_true, if_true]
  exact hread

section
variable {s : State} {c : CoreId} {x : Cmd} (h : HeadRuns s c .tile x) (hbad : (s.core c).tile.bad = [])
include h hbad

theorem exec_tld_mcast {f : E} (ha : x.sa.toNat % tileAlign (f.of 0 5) = 0) (hp : pitch x.sb % tileAlign (f.of 0 5) = 0)
    (hmx : tileMX (f.of 0 5) = true → pitch x.sb % (if f.of 0 5 = 13 then 16 else 32) = 0)
    (hcfg : (s.core (tileTarget c (f.of 5 1) (f.of 6 3))).spcfg = none) (hpo : (s.core (tileTarget c (f.of 5 1) (f.of 6 3))).spadPoison = []) :
    let t := tileTarget c (f.of 5 1) (f.of 6 3)
    let rs := tldRanges (f.of 0 5) x.sa.toNat ((x.more[1]?.getD 0).toNat) (pitch x.sb)
    let img := tldImage (f.of 0 5) (rs.flatMap fun r => (s.core t).spad.readN r.1.toNat r.2)
    let b := s.asCmd c .tile x
    let tag := f.of 10 4
    let set := x.more[0]?.getD 0
    let b1 := b.setMe (b.me.mapHead .tile fun y => { y with stage := 16 + tag })
    f.of 9 1 = 1 → f.of 5 1 = 1 → x.code.instr = .tld f → set.getLsbD (posOf c) = true →
    (∀ e ∈ mcastCores c set, ∃ y g, b1.mcastHead e tag = some y ∧ mcastKey y = mcastKey x ∧ y.code.instr = .tld g ∧ g.of 5 1 = 1) →
    (∀ r ∈ rs, b.padOk ((mcastCores c set).head?.getD c) t r.1 r.2 = true) →
    exec (.tld f) s = .next (completed
      ((State.mcastOthers c tag img (mcastKey x) (mcastCores c set) b1).setMe ((State.mcastOthers c tag img (mcastKey x) (mcastCores c set) b1).me.setTile
        (((State.mcastOthers c tag img (mcastKey x) (mcastCores c set) b1).me.tile.setImage f.d.toNat (f.of 0 5 == 0) img).count x))) c .tile x) := by
  intro t rs img b tag set b1 hm h5 hx hset hall hok
  have hlead := mcastCores_lead hset
  obtain ⟨y, g, hy, hkey, hyi, hg5⟩ := hall _ hlead
  obtain ⟨hfmt, hpos, hsa, hpitch, hmore, hranges⟩ := mcastKey_eq hx hyi hkey
  have hnone : ((mcastCores c set).any fun d => (b1.mcastHead d tag).isNone) = false :=
    List.any_eq_false.2 fun e he => by
      obtain ⟨z, _, hz, _⟩ := hall e he
      rw [hz]
      exact Bool.false_ne_true
  have htarget : tileTarget ((mcastCores c set).head?.getD c) (g.of 5 1) (g.of 6 3) = t := by
    rw [hg5, hpos, tileTarget_member hlead, ← h5]
  obtain ⟨q, hq⟩ := b.me.mapHead_frame fun y => { y with stage := 16 + tag }
  have hcore (d : CoreId) : ∃ q', b1.core d = { s.core d with tileQ := q' } := by
    by_cases hd : c = d
    · subst hd
      exact ⟨q, (State.core_setCore b c _).trans hq⟩
    · exact ⟨(s.core d).tileQ, State.core_setCore_of_ne b c d _ hd⟩
  have hread := tldRead_ok (s := b1) (c := (mcastCores c set).head?.getD c) (x := y) (f := g)
    (fun img => TileRes.tile (State.mcastOthers c tag img (mcastKey y) (mcastCores c set) b1)
      ((State.mcastOthers c tag img (mcastKey y) (mcastCores c set) b1).me.tile.setImage f.d.toNat (f.of 0 5 == 0) img))
    (by rw [hsa, hfmt]; exact ha) (by rw [hpitch, hfmt]; exact hp) (by rw [hpitch, hfmt]; exact hmx)
    (by rw [htarget]; obtain ⟨q', hq'⟩ := hcore t; rw [hq']; exact hcfg) (by rw [htarget]; obtain ⟨q', hq'⟩ := hcore t; rw [hq']; exact hpo)
    (by
      rw [hranges, htarget]
      intro r hr
      obtain ⟨q1, h1⟩ := hcore t
      obtain ⟨q2, h2⟩ := hcore ((mcastCores c set).head?.getD c)
      refine Eq.trans ?_ (hok r hr)
      unfold State.padOk
      rw [h1, h2]
      rfl)
  have himg : tldImage (g.of 0 5) ((tldRanges (g.of 0 5) y.sa.toNat ((y.more[1]?.getD 0).toNat) (pitch y.sb)).flatMap
      fun r => (b1.core (tileTarget ((mcastCores c set).head?.getD c) (g.of 5 1) (g.of 6 3))).spad.readN r.1.toNat r.2) = img := by
    obtain ⟨q', hq'⟩ := hcore t
    rw [hranges, hfmt, htarget, hq']
  rw [himg, hkey] at hread
  dsimp only [exec, execTld]
  refine tileCmd_tile h hbad ?_
  rw [if_pos hm]
  exact mcast_ok (b := b) hset hnone hy hyi hmore hkey hread

end

/-- Settles O44: each command by its body at the head, in an engine with no uncorrectable register. -/
theorem tileCommandsComplete : Obligations.TileCommandsComplete := by
  intro s c x f h hbad b tl fin acc
  obtain ⟨hoff, hon⟩ := exec_tcks h hbad
  refine ⟨exec_tzero h hbad f, (exec_tmov h hbad f).1, (exec_tmov h hbad f).2, exec_ttrn h hbad f, exec_tfmt h hbad f, hoff, hon, exec_tstart h,
    fun cls zeros i hp he hi => exec_product h hbad f hp he hi, exec_tcvt h hbad f, ?_, ?_⟩
  · intro fmt t rs img ha hp hmx hcfg hpo
    exact ⟨fun h0 hok => exec_tld h hbad ha hp hmx hcfg hpo h0 hok, exec_tld_mcast h hbad ha hp hmx hcfg hpo⟩
  · intro s1 none_ ty eb es r rs ha hp hst
    exact exec_tst h hbad ha hp hst

end Sys2Proof.Machine
end

section
/-! PROOF. The commands on leases, banks, regions and settings (O45). -/
namespace Sys2Proof.Machine

/-! Leases and regions. -/

/-- An array command of the lessee goes on, where its array is not frozen or the command runs in a frozen one (R245). -/
theorem withLease_ok {b : State} {too : Bool} (hl : b.myArr.lease = some b.ctx.core) (hf : (b.myArr.frozen && !too) = false)
    (hj : b.me.jobid ∉ b.myArr.forced) (go : State → CmdRes) : b.withLease too go = go b := by
  have hno : b.myArr.forced.contains b.me.jobid = false := by rwa [Bool.eq_false_iff, ne_eq, List.contains_iff_mem]
  unfold State.withLease
  dsimp only
  rw [hno, if_neg Bool.false_ne_true, if_pos hl, hf, if_neg Bool.false_ne_true]

/-- A command that names a region goes on where its bank is claimed (R237). -/
theorem withRegion_ok {b : State} {n : Nat} (hb : b.me.bank = some n) (hc : (b.myArr.bankAt n).claim = some (b.me.asid, b.me.handle))
    (r tag kind : Nat) (go : Nat → Region → CmdRes) : b.withRegion r tag kind go = go n (b.myArr.region n r) := by
  have hnone (l : List Word) : b.claimed n l = none := by
    rw [State.claimed, hc]
    exact if_pos (beq_self_eq_true _)
  rw [State.withRegion, hb]
  dsimp only
  rw [hnone]

/-- A command that names a bank of its job (R234). -/
theorem ownBank_ok {b : State} {x : Cmd} (hc : (b.myArr.bankAt (bankOf x)).claim = some (b.me.asid, handleOf x)) (go : Nat → CmdRes) :
    b.ownBank x go = go (bankOf x) := by
  unfold State.ownBank
  dsimp only
  rw [hc]
  exact if_pos (beq_self_eq_true _)

theorem WArray.has_false {a : WArray} {n r : Nat} (h : ∀ w ∈ a.fwd ++ a.bwd ++ a.flying, w.bank ≠ n ∨ w.region ≠ r) (p : Wave → Bool) :
    a.has n r p = false := by
  rw [WArray.has, List.any_eq_false]
  intro w hw hp
  obtain ⟨hbr, -⟩ := Bool.and_eq_true_iff.1 hp
  obtain ⟨hb, hr⟩ := Bool.and_eq_true_iff.1 hbr
  exact (h w hw).elim (· (eq_of_beq hb)) (· (eq_of_beq hr))

/-- The fields of the operand of WREGN (R237). -/
theorem Region.ofWord_eq (v : Word) : Region.ofWord v = { Region.undef with
    state := .defined, row0 := v.toNat % 256, col0 := v.toNat / 2 ^ 8 % 256, rows := v.toNat / 2 ^ 16 % 256 + 1, cols := v.toNat / 2 ^ 24 % 256 + 1 } := by
  have h (lo : Nat) : (v.extractLsb' lo 8).toNat = v.toNat / 2 ^ lo % 256 := by rw [BitVec.extractLsb'_toNat, Nat.shiftRight_eq_div_pow]
  rw [Region.ofWord, h, h, h, h, Nat.pow_zero, Nat.div_one]

section
variable {s : State} {c : CoreId} {x : Cmd} (h : HeadRuns s c .arr x)
include h

theorem exec_wlease :
    ((s.arr (clusterOf c)).lease = some c → exec .wlease s = .next (completed (s.asCmd c .arr x) c .arr x)) ∧
    ((s.arr (clusterOf c)).lease ≠ some c → (s.arr (clusterOf c)).unheld = true →
      exec .wlease s = .next (completed ((s.asCmd c .arr x).setMyArr ((s.arr (clusterOf c)).grant c s.clock)) c .arr x)) := by
  refine ⟨fun hl => ?_, fun hl hu => ?_⟩
  · dsimp only [exec, execWlease]
    exact command_done h (if_pos hl)
  · dsimp only [exec, execWlease]
    exact command_done h ((if_neg hl).trans (if_pos hu))

theorem exec_wrls :
    ((s.arr (clusterOf c)).lease ≠ some c → exec .wrls s = .next (completed (s.asCmd c .arr x) c .arr x)) ∧
    ((s.arr (clusterOf c)).lease = some c → (s.arr (clusterOf c)).frozen = false →
      (∀ w ∈ (s.arr (clusterOf c)).fwd ++ (s.arr (clusterOf c)).bwd, w.core ≠ c) →
      exec .wrls s = .next (completed ((s.asCmd c .arr x).setMyArr { s.arr (clusterOf c) with ending := 1 }) c .arr x)) := by
  refine ⟨fun hl => ?_, fun hl hf hw => ?_⟩
  · dsimp only [exec, execWrls]
    exact command_done h (if_pos hl)
  · have hno : ((s.arr (clusterOf c)).fwd ++ (s.arr (clusterOf c)).bwd).any (fun w => w.core == c) = false :=
      List.any_eq_false.2 fun w hm hc => hw w hm (eq_of_beq hc)
    dsimp only [exec, execWrls]
    refine command_done h ((if_neg (Classical.not_not.2 hl)).trans ((if_neg ?_).trans (if_neg ?_)))
    · exact Bool.eq_false_iff.1 hf
    · exact Bool.eq_false_iff.1 hno

theorem exec_wbank_own (f : E) (hc : ((s.arr (clusterOf c)).bankAt (x.sa.toNat % 4)).claim = some ((s.core c).asid, x.sa.extractLsb' 32 32)) :
    let b := s.asCmd c .arr x
    let a := s.arr (clusterOf c)
    let bank := x.sa.toNat % 4
    let shown (s : State) : State := s.setMe { s.me with bank := some bank, handle := x.sa.extractLsb' 32 32 }
    exec (.wbankSel f) s = .next (completed (shown b) c .arr x) ∧ exec (.wbankClaim f) s = .next (completed (shown b) c .arr x) ∧
    ((∀ w ∈ a.flying, w.open_ = true → w.bank ≠ bank) →
      let freed := b.setMyArr (a.setBank bank { a.bankAt bank with claim := none, regions := Vector.replicate 16 Region.undef })
      exec (.wbankRel f) s = .next (completed (if (s.core c).bank = some bank then freed.setMe { freed.me with bank := none } else freed) c .arr x)) := by
  intro b a bank shown
  have hown : (b.myArr.bankAt (bankOf x)).claim = some (b.me.asid, handleOf x) := hc
  refine ⟨?_, ?_, fun hw => ?_⟩
  · dsimp only [exec, execWbankSel]
    exact command_done h (ownBank_ok hown _)
  · dsimp only [exec, execWbankClaim]
    refine command_done h ?_
    rw [hown]
    exact if_pos (beq_self_eq_true _)
  · have hno : (a.flying.any fun w => w.bank == bank && w.open_) = false :=
      List.any_eq_false.2 fun w hm hp => by
        obtain ⟨hb, ho⟩ := Bool.and_eq_true_iff.1 hp
        exact hw w hm ho (eq_of_beq hb)
    dsimp only [exec, execWbankRel]
    refine command_done h ((ownBank_ok hown _).trans (if_neg ?_))
    exact Bool.eq_false_iff.1 hno

theorem exec_wbankClaim_free (f : E) (hc : ((s.arr (clusterOf c)).bankAt (x.sa.toNat % 4)).claim = none) :
    let a := s.arr (clusterOf c)
    let bank := x.sa.toNat % 4
    let handle : BitVec 32 := x.sa.extractLsb' 32 32
    let shown (s : State) : State := s.setMe { s.me with bank := some bank, handle := handle }
    exec (.wbankClaim f) s = .next (completed (shown ((s.asCmd c .arr x).setMyArr (a.setBank bank { a.bankAt bank with
      claim := some ((s.core c).asid, handle), steps := 0 }))) c .arr x) := by
  intro a bank handle shown
  have hnone : ((s.asCmd c .arr x).myArr.bankAt (bankOf x)).claim = none := hc
  dsimp only [exec, execWbankClaim]
  refine command_done h ?_
  rw [hnone]
  rfl

theorem exec_wregn (f : E) {n : Nat} (hl : (s.arr (clusterOf c)).lease = some c) (hf : (s.arr (clusterOf c)).frozen = false)
    (hj : (s.core c).jobid ∉ (s.arr (clusterOf c)).forced) (hb : (s.core c).bank = some n)
    (hc : ((s.arr (clusterOf c)).bankAt n).claim = some ((s.core c).asid, (s.core c).handle))
    (hw : ∀ w ∈ (s.arr (clusterOf c)).fwd ++ (s.arr (clusterOf c)).bwd ++ (s.arr (clusterOf c)).flying, w.bank ≠ n ∨ w.region ≠ f.of 0 4) :
    let b := s.asCmd c .arr x
    let a := s.arr (clusterOf c)
    let r := f.of 0 4
    let g : Region := { Region.undef with
      state := .defined, row0 := x.sa.toNat % 256, col0 := x.sa.toNat / 2 ^ 8 % 256, rows := x.sa.toNat / 2 ^ 16 % 256 + 1
      cols := x.sa.toNat / 2 ^ 24 % 256 + 1, fmt := (a.region n r).fmt }
    exec (.wregnRem f) s = .next (completed (b.setMyArr (a.setRegion n r Region.undef)) c .arr x) ∧
    (g.row0 + g.rows ≤ 256 → g.col0 + g.cols ≤ 256 → (∀ q < 16, q ≠ r → (a.region n q).state ≠ .undef → g.meets (a.region n q) = false) →
      exec (.wregnDef f) s = .next (completed (b.setMyArr (a.setRegion n r g)) c .arr x)) := by
  intro b a r g
  have hfz : (b.myArr.frozen && !false) = false := by rw [show b.myArr.frozen = false from hf]; rfl
  have hno : b.myArr.has n r (fun _ => true) = false := WArray.has_false hw _
  refine ⟨?_, fun hrow hcol hmeet => ?_⟩
  · dsimp only [exec, execWregnRem]
    refine command_done h ((withLease_ok (b := b) hl hfz hj _).trans ((withRegion_ok (b := b) hb hc _ _ _ _).trans ?_))
    rw [hno, if_neg Bool.false_ne_true]
    rfl
  · have hg : ({ Region.ofWord x.sa with fmt := (b.myArr.region n r).fmt } : Region) = g := by rw [Region.ofWord_eq]; rfl
    have hothers : (((List.range 16).filter fun q => q != r && (b.myArr.region n q).state != .undef).any fun q => g.meets (b.myArr.region n q)) = false :=
      List.any_eq_false.2 fun q hq => by
        obtain ⟨hlt, hp⟩ := List.mem_filter.1 hq
        obtain ⟨hne, hu⟩ := Bool.and_eq_true_iff.1 hp
        exact Bool.eq_false_iff.1 (hmeet q (List.mem_range.1 hlt) (bne_iff_ne.1 hne) (bne_iff_ne.1 hu))
    dsimp only [exec, execWregnDef]
    refine command_done h ((withLease_ok (b := b) hl hfz hj _).trans ((withRegion_ok (b := b) hb hc _ _ _ _).trans ?_))
    rw [hno, if_neg Bool.false_ne_true]
    refine (congrArg (fun g' : Region => if decide (256 < g'.row0 + g'.rows) || decide (256 < g'.col0 + g'.cols) ||
        (((List.range 16).filter fun q => q != r && (b.myArr.region n q).state != .undef).any fun q => g'.meets (b.myArr.region n q)) then
      CmdRes.trap b (regionTrap cWFAREGION n r 0 0) else .done (b.putRegion n r g')) hg).trans (if_neg ?_)
    rw [hothers, decide_eq_false (Nat.not_lt.2 hrow), decide_eq_false (Nat.not_lt.2 hcol)]
    exact Bool.false_ne_true

theorem exec_settings (f : E) {n : Nat} (hl : (s.arr (clusterOf c)).lease = some c) (hf : (s.arr (clusterOf c)).frozen = false)
    (hj : (s.core c).jobid ∉ (s.arr (clusterOf c)).forced) (hb : (s.core c).bank = some n)
    (hc : ((s.arr (clusterOf c)).bankAt n).claim = some ((s.core c).asid, (s.core c).handle))
    (hst : ((s.arr (clusterOf c)).region n (f.of 0 4)).state = .defined ∨ ((s.arr (clusterOf c)).region n (f.of 0 4)).state = .loaded) :
    let b := s.asCmd c .arr x
    let a := s.arr (clusterOf c)
    let r := f.of 0 4
    let old := a.region n r
    exec (.wopt f) s = .next (completed (b.setMyArr (a.setRegion n r { old with
      eta := x.sa.extractLsb' 0 32, gscale := x.sa.extractLsb' 32 32, sr := f.of 4 3 == 4, strict := f.of 7 1 == 1 })) c .arr x) ∧
    exec (.wcks f) s = .next (completed (b.setMyArr (a.setRegion n r { old with cks := f.of 4 1 == 1 })) c .arr x) := by
  intro b a r old
  have hfz : (b.myArr.frozen && !false) = false := by rw [show b.myArr.frozen = false from hf]; rfl
  have hok : ((b.myArr.region n r).state == .defined || (b.myArr.region n r).state == .loaded) = true := by
    rcases hst with hst | hst
    · rw [show (b.myArr.region n r).state = .defined from hst]
      rfl
    · rw [show (b.myArr.region n r).state = .loaded from hst]
      rfl
  have hset (change : Region → Region) : b.setting f change = .done (b.setMyArr (a.setRegion n r (change old))) :=
    (withLease_ok (b := b) hl hfz hj _).trans ((withRegion_ok (b := b) hb hc _ _ _ _).trans (if_pos hok))
  refine ⟨?_, ?_⟩
  · dsimp only [exec, execWopt]
    exact command_done h (hset _)
  · dsimp only [exec, execWcks]
    exact command_done h (hset _)

end

/-! Drains. -/

/-- A discarded array holds nothing (R255). -/
theorem discardArray_empty (s : State) (n : Nat) (back : Bool) :
    ((s.discardArray n back).arr n).fwd = [] ∧ ((s.discardArray n back).arr n).bwd = [] ∧ ((s.discardArray n back).arr n).recent = [] ∧
      ((s.discardArray n back).arr n).frozen = false := by
  unfold State.discardArray
  dsimp only
  generalize (if back = true then _ else _ : State) = t
  have harr (a : WArray) : (t.setArr n a).arr n = a ∨ (t.setArr n a).arr n = WArray.reset := by
    rw [State.arr, State.setArr, Vector.toList_setIfInBounds, List.getElem?_set]
    split
    · split
      · exact .inl rfl
      · exact .inr rfl
    · next hn => exact absurd rfl hn
  rcases harr { t.arr n with fwd := [], bwd := [], recent := [], frozen := false } with h | h
  · rw [h]
    exact ⟨rfl, rfl, rfl, rfl⟩
  · rw [h]
    exact ⟨rfl, rfl, rfl, rfl⟩

theorem exec_wdrainDiscard {s : State} {c : CoreId} {x : Cmd} (h : HeadRuns s c .arr x) (hl : (s.arr (clusterOf c)).lease = some c)
    (hf : (s.arr (clusterOf c)).frozen = true) (hj : (s.core c).jobid ∉ (s.arr (clusterOf c)).forced) :
    let u := ((s.asCmd c .arr x).popCmd c .arr).discardArray (clusterOf c) true
    exec .wdrainDiscard s = .next (((u.setCore c ((u.core c).setCmds .arr (x :: (u.core c).cmds .arr))).cmdSignal c x).popCmd c .arr) := by
  intro u
  have hfz : ((s.asCmd c .arr x).myArr.frozen && !true) = false := Bool.and_false _
  dsimp only [exec, execWdrainDiscard]
  refine command_leave h ?_
  rw [withLease_ok (b := s.asCmd c .arr x) hl hfz hj, show (s.asCmd c .arr x).myArr.frozen = true from hf, if_pos rfl]
  rfl

/-- Settles O45: each command by its body at the head, past the checks of lease and claim that its premises meet. -/
theorem wavefrontSettingsComplete : Obligations.WavefrontSettingsComplete := by
  intro s c x f h b a k put bank handle shown leased
  refine ⟨(exec_wlease h).1, (exec_wlease h).2, (exec_wrls h).1, (exec_wrls h).2, exec_wbank_own h f, exec_wbankClaim_free h f, ?_, fun hw => ?_, ?_⟩
  · intro n hleased hb hc r old g
    obtain ⟨hl, hf, hj⟩ := hleased
    exact ⟨exec_wregn h f hl hf hj hb hc, exec_settings h f hl hf hj hb hc⟩
  · dsimp only [exec, execWdrain]
    exact command_done h (if_pos hw)
  · intro hl hf hj u
    exact ⟨exec_wdrainDiscard h hl hf hj, discardArray_empty _ _ _⟩

end Sys2Proof.Machine
end

section
/-! PROOF. The commands that move weights, enter and collect (O46). -/
namespace Sys2Proof.Machine

theorem any_ord_false {l : List Cmd} {n : Nat} (h : ∀ y ∈ l, n ≤ y.ord) : (l.any fun y => decide (y.ord < n)) = false :=
  List.any_eq_false.2 fun y hy => by
    rw [decide_eq_true_eq]
    exact Nat.not_lt.2 (h y hy)

theorem weightSpace_eq_two (f : E) : weightSpace f = 2 ↔ f.of 12 2 = 1 := by
  unfold weightSpace
  split
  · next h => exact ⟨fun _ => h, fun _ => rfl⟩
  · next h => exact ⟨fun h2 => absurd h2 (by decide), fun h1 => absurd h1 h⟩

/-- A fold that keeps a state but for its TLBs at every step keeps it. -/
theorem TlbsOf_foldl {α β : Type} {f : State × α → β → State × α} (hf : ∀ p r, State.TlbsOf p.1 (f p r).1) (l : List β) (p : State × α) :
    State.TlbsOf p.1 (l.foldl f p).1 := by
  induction l generalizing p with
  | nil => exact .refl _
  | cons r l ih => exact (hf p r).trans (ih _)

/-- The translation of several ranges fills TLBs and draws what is free (R279, R288). -/
theorem State.xlateAll_frame (s : State) (c : CoreId) (i : StreamId) (acc : Acc) (rs : List (Int × Nat)) : s.TlbsOf (s.xlateAll c i acc rs).1 := by
  unfold State.xlateAll
  split
  · exact .refl s
  · refine TlbsOf_foldl (α := Except (Nat × Nat) (List Piece)) (fun p r => ?_) rs (s, .ok [])
    obtain ⟨t, q⟩ := p
    cases q with
    | error e => exact .refl t
    | ok ps =>
      have hx := State.xlate_frame t (.strm c i) (t.core c).asid.toNat (userOf c) acc r.1 r.2
      dsimp only
      generalize t.xlate (.strm c i) (t.core c).asid.toNat (userOf c) acc r.1 r.2 = y at hx
      obtain ⟨t1, z⟩ := y
      cases z with
      | error e => exact hx
      | ok qs => exact hx

/-- A bank with the cells of a region loaded (R249). -/
def loadedBank (k : Bank) (g : Region) (f : E) (x : Cmd) (rs : List (Int × Nat)) (bs : List Byte) : Bank :=
  ((loadCells g f (weightTy f) (x.sb.extractLsb' 32 16) (rowNumbers ((rs.head?.getD (0, 0)).2) rs.length bs)).foldl
    (fun (k : Bank) y => k.setCell y.1 y.2) { k with poison := k.poison.filter fun i => !g.covers i }).setRegion (f.of 0 4) g

/-! Entering an edge. -/

/-- The wavefront of an admission as it enters (R240). -/
def waveEntered (s : State) (f : E) (x : Cmd) (n : Nat) (g : Region) (inputs : List (BitVec 32)) : Wave :=
  { core := s.ctx.core, jobid := s.me.jobid, cmd := { x with stage := 0, acc := [] }, kind := f.of 8 3, bank := n, region := f.of 0 4
    tag := f.of 4 4, afmt := f.of 11 3, inputs := inputs, nb := (x.sb.extractLsb' 0 32).toNat, base := x.sb.getLsbD 33
    skip := x.sb.getLsbD 32, entered := s.clock, reg := g, draw := 0, cktol := 0, age := none, uc := 0, bu := false
    range := none, replays := 0, sums := [], runs := [], chk := posZero, mag := posZero, nf := false, failed := false
    restored := false, owed := false }

/-- An admission with room in its edge queue and for its output enters (R240). -/
theorem enterEdge_ok {s : State} {f : E} {x : Cmd} {n : Nat} {g : Region} {inputs : List (BitVec 32)} (hroom : f.of 8 3 ≠ 4 → s.me.outRoom ≠ 0)
    (hq : (if (f.of 8 3 == 0 || f.of 8 3 == 4) = true then s.myArr.fwd else s.myArr.bwd).length < 8) :
    let w := waveEntered s f x n g inputs
    let t := s.setMyArr (if (f.of 8 3 == 0 || f.of 8 3 == 4) = true then { s.myArr with fwd := s.myArr.fwd ++ [w] }
      else { s.myArr with bwd := s.myArr.bwd ++ [w] })
    s.enterEdge f x n g inputs = .leave (if f.of 8 3 = 4 then t else t.setMe { t.me with wroom := t.me.wroom + 1 }) := by
  intro w t
  have h1 : ¬(f.of 8 3 ≠ 4 ∧ s.me.outRoom = 0) := fun ⟨h4, h0⟩ => hroom h4 h0
  unfold State.enterEdge
  dsimp only
  rw [if_neg h1, if_neg (Nat.not_le.2 hq)]
  rfl

section
variable {s : State} {c : CoreId} {x : Cmd} (h : HeadRuns s c .arr x) {n : Nat} (hl : (s.arr (clusterOf c)).lease = some c)
  (hf : (s.arr (clusterOf c)).frozen = false) (hj : (s.core c).jobid ∉ (s.arr (clusterOf c)).forced) (hb : (s.core c).bank = some n)
  (hc : ((s.arr (clusterOf c)).bankAt n).claim = some ((s.core c).asid, (s.core c).handle))
include hl hf hj hb hc

/-- A command that names a region of the job's claimed bank, under its lease. -/
theorem leased_region (r tag kind : Nat) (go : State → Nat → Region → CmdRes) :
    ((s.asCmd c .arr x).withLease false fun s => s.withRegion r tag kind fun b g => go s b g) =
      go (s.asCmd c .arr x) n ((s.arr (clusterOf c)).region n r) := by
  have hfz : ((s.asCmd c .arr x).myArr.frozen && !false) = false := by rw [show (s.asCmd c .arr x).myArr.frozen = false from hf]; rfl
  exact (withLease_ok (b := s.asCmd c .arr x) hl hfz hj _).trans (withRegion_ok (b := s.asCmd c .arr x) hb hc _ _ _ _)

include h

theorem exec_wldw (f : E) (hdef : ((s.arr (clusterOf c)).region n (f.of 0 4)).state ≠ .undef)
    (hw : ∀ w ∈ (s.arr (clusterOf c)).fwd ++ (s.arr (clusterOf c)).bwd ++ (s.arr (clusterOf c)).flying, w.bank ≠ n ∨ w.region ≠ f.of 0 4)
    (ha : weightAlign (weightTy f) x = false) {s1 : State} {bs : List Byte} {g1 : Region} {rs : List (Int × Nat)}
    (hg : ((s.arr (clusterOf c)).region n (f.of 0 4)).load (f.of 4 3) = g1) (hrs : weightRows g1 f (weightTy f) x = rs)
    (hld : (if f.of 12 2 = 1 then (s.asCmd c .arr x).loadRanges c .ws false rs else (s.asCmd c .arr x).loadPad c .ws c 0 rs) = .ok s1 bs) :
    exec (.wldw f) s = .next (completed (s1.setMyArr (s1.myArr.setBank n (loadedBank (s1.myArr.bankAt n) g1 f x rs bs))) c .arr x) := by
  have hu : (((s.arr (clusterOf c)).region n (f.of 0 4)).state == RegState.undef) = false := beq_false_of_ne hdef
  have hno : (s.asCmd c .arr x).myArr.has n (f.of 0 4) (fun _ => true) = false := WArray.has_false hw _
  have hcore : (s.asCmd c .arr x).ctx.core = c := rfl
  simp only [← weightSpace_eq_two] at hld
  dsimp only [exec, execWldw]
  refine command_done h ((leased_region hl hf hj hb hc (f.of 0 4) 0 0 _).trans ?_)
  rw [hu, if_neg Bool.false_ne_true, hno, if_neg Bool.false_ne_true, ha, if_neg Bool.false_ne_true, hcore, hg, hrs, hld]
  refine congrArg (fun k => CmdRes.done (s1.setMyArr (s1.myArr.setBank n k))) ?_
  unfold loadedBank
  cases rs <;> rfl

theorem exec_wstw (f : E) (hload : ((s.arr (clusterOf c)).region n (f.of 0 4)).state = .loaded)
    (hgrad : f.of 4 1 = 1 → hasG ((s.arr (clusterOf c)).region n (f.of 0 4)).fmt = true)
    (hw : ∀ w ∈ (s.arr (clusterOf c)).fwd ++ (s.arr (clusterOf c)).bwd ++ (s.arr (clusterOf c)).flying, w.bank ≠ n ∨ w.region ≠ f.of 0 4)
    (ha : weightAlign (weightTy f) x = false) (hpo : ((s.arr (clusterOf c)).bankAt n).poison = []) :
    let g := (s.arr (clusterOf c)).region n (f.of 0 4)
    let rs := weightRows g f (weightTy f) x
    let stored (old : List Byte) : List Byte := storedRows g ((s.arr (clusterOf c)).bankAt n) f (weightTy f) (f.of 4 1 == 1) rs old
    (f.of 12 2 ≠ 1 → (s.core c).spcfg = none → (∀ q ∈ rs, (s.asCmd c .arr x).padOk c c q.1 q.2 = true) →
      exec (.wstw f) s = .next (completed ((s.asCmd c .arr x).setMe
      ((s.asCmd c .arr x).me.padWriteAll rs (stored (rs.flatMap fun q => (s.core c).spad.readN q.1.toNat q.2)))) c .arr x)) ∧
    (∀ s1 ps, f.of 12 2 = 1 → (s.asCmd c .arr x).xlateAll c .ws .store rs = (s1, .ok ps) →
      exec (.wstw f) s = .next (completed (State.writePieces s1.me.jobid (s1.mark (s.asCmd c .arr x).walker .store ps) ps (stored (s1.readPieces ps))) c .arr x)) := by
  intro g rs stored
  have hstate : (g.state != RegState.loaded || (f.of 4 1 == 1 && !hasG g.fmt)) = false := by
    rw [show g.state = .loaded from hload]
    by_cases h1 : f.of 4 1 = 1
    · rw [show hasG g.fmt = true from hgrad h1, Bool.not_true, Bool.and_false]
      rfl
    · rw [beq_false_of_ne h1]
      rfl
  have hno : (s.asCmd c .arr x).myArr.has n (f.of 0 4) (fun w => w.bFamily || w.isA) = false := WArray.has_false hw _
  have hany : (((s.asCmd c .arr x).myArr.bankAt n).poison.any g.covers) = false := by
    rw [show ((s.asCmd c .arr x).myArr.bankAt n).poison = [] from hpo]
    rfl
  have hcore : (s.asCmd c .arr x).ctx.core = c := rfl
  have hstrm : (s.asCmd c .arr x).ctx.strm = .ws := rfl
  refine ⟨fun hsp hcfg hok => ?_, fun s1 ps hsp hx => ?_⟩
  · have hheld : (s.asCmd c .arr x).me.padHeld rs = false := padHeld_of_none hcfg rs
    dsimp only [exec, execWstw]
    refine command_done h ((leased_region hl hf hj hb hc (f.of 0 4) 0 0 _).trans ?_)
    rw [hstate, if_neg Bool.false_ne_true, hno, if_neg Bool.false_ne_true, ha, if_neg Bool.false_ne_true,
      if_neg (fun h2 => hsp ((weightSpace_eq_two f).1 h2)), hheld, if_neg Bool.false_ne_true, hcore,
      List.find?_eq_none.2 fun q hq => by rw [hok q hq]; decide]
    dsimp only
    rw [hany, if_neg Bool.false_ne_true]
    rfl
  · have hjob : s1.me.jobid = (s.asCmd c .arr x).me.jobid := by
      have hfr := State.xlateAll_frame (s.asCmd c .arr x) c .ws .store rs
      rw [hx] at hfr
      obtain ⟨_, _, rfl⟩ := hfr
      rfl
    dsimp only [exec, execWstw]
    refine command_done h ((leased_region hl hf hj hb hc (f.of 0 4) 0 0 _).trans ?_)
    rw [hstate, if_neg Bool.false_ne_true, hno, if_neg Bool.false_ne_true, ha, if_neg Bool.false_ne_true,
      if_pos ((weightSpace_eq_two f).2 hsp), hcore, hstrm, hx]
    dsimp only
    rw [hany, if_neg Bool.false_ne_true, hjob]
    rfl

/-- WADMIT past its checks, its inputs read now or before, enters its edge (R240). -/
theorem exec_wadmit (f : E) {s1 : State} {bs : List Byte} {inputs : List (BitVec 32)} {len : Nat}
    (hlen : (if f.of 8 3 = 0 then ((s.arr (clusterOf c)).region n (f.of 0 4)).rows else if f.of 8 3 = 4 then 0
      else ((s.arr (clusterOf c)).region n (f.of 0 4)).width) = len)
    (hload : ((s.arr (clusterOf c)).region n (f.of 0 4)).state = .loaded)
    (hstash : f.of 8 3 = 2 ∨ f.of 8 3 = 3 → ((s.arr (clusterOf c)).region n (f.of 0 4)).stashValid (f.of 4 4) = true ∨
      ∃ y ∈ (s.arr (clusterOf c)).fwd, y.kind = 0 ∧ y.bank = n ∧ y.region = f.of 0 4 ∧ y.tag = f.of 4 4)
    (hgrad : f.of 8 3 = 3 ∨ f.of 8 3 = 4 → hasG ((s.arr (clusterOf c)).region n (f.of 0 4)).fmt = true)
    (ha : x.sa.toNat % ((activation (f.of 11 3)).width / 8) = 0)
    (hin : (x.stage ≠ 1 ∧ (s.asCmd c .arr x).loadPad c .ws c 0 (if f.of 8 3 = 4 then [] else [((x.sa.toNat : Int), len * ((activation (f.of 11 3)).width / 8))]) =
        .ok s1 bs ∧ inputs = widenInputs (activation (f.of 11 3)) len bs) ∨
      (x.stage = 1 ∧ x.acc.length = len ∧ s1 = s.asCmd c .arr x ∧ inputs = x.acc))
    (hroom : f.of 8 3 ≠ 4 → s1.me.outRoom ≠ 0)
    (hq : (if (f.of 8 3 == 0 || f.of 8 3 == 4) = true then s1.myArr.fwd else s1.myArr.bwd).length < 8) :
    let w := waveEntered s1 f x n ((s.arr (clusterOf c)).region n (f.of 0 4)) inputs
    let t := s1.setMyArr (if (f.of 8 3 == 0 || f.of 8 3 == 4) = true then { s1.myArr with fwd := s1.myArr.fwd ++ [w] }
      else { s1.myArr with bwd := s1.myArr.bwd ++ [w] })
    exec (.wadmit f) s = .next ((if f.of 8 3 = 4 then t else t.setMe { t.me with wroom := t.me.wroom + 1 }).popCmd c .arr) := by
  intro w t
  have henter := enterEdge_ok (x := x) (n := n) (g := (s.arr (clusterOf c)).region n (f.of 0 4)) (inputs := inputs) hroom hq
  have hchecks : (((s.arr (clusterOf c)).region n (f.of 0 4)).state != RegState.loaded ||
      ((f.of 8 3 == 2 || f.of 8 3 == 3) && !((s.arr (clusterOf c)).region n (f.of 0 4)).stashValid (f.of 4 4) &&
        !((s.asCmd c .arr x).myArr.fwd.any fun y => y.kind == 0 && y.bank == n && y.region == f.of 0 4 && y.tag == f.of 4 4)) ||
      ((f.of 8 3 == 3 || f.of 8 3 == 4) && !hasG ((s.arr (clusterOf c)).region n (f.of 0 4)).fmt)) = false := by
    rw [hload, Bool.or_eq_false_iff, Bool.or_eq_false_iff]
    refine ⟨⟨rfl, ?_⟩, ?_⟩
    · by_cases hk : f.of 8 3 = 2 ∨ f.of 8 3 = 3
      · rcases hstash hk with hv | ⟨y, hy, h0, h1, h2, h3⟩
        · rw [hv, Bool.not_true, Bool.and_false, Bool.false_and]
        · rw [List.any_eq_true.2 ⟨y, show y ∈ (s.asCmd c .arr x).myArr.fwd from hy, by rw [h0, h1, h2, h3]; simp⟩, Bool.not_true, Bool.and_false]
      · obtain ⟨h2, h3⟩ := not_or.1 hk
        rw [beq_false_of_ne h2, beq_false_of_ne h3]
        rfl
    · by_cases hk : f.of 8 3 = 3 ∨ f.of 8 3 = 4
      · rw [hgrad hk, Bool.not_true, Bool.and_false]
      · obtain ⟨h3, h4⟩ := not_or.1 hk
        rw [beq_false_of_ne h3, beq_false_of_ne h4]
        rfl
  have hcore : (s.asCmd c .arr x).ctx.core = c := rfl
  dsimp only [exec, execWadmit]
  refine command_leave h ((leased_region hl hf hj hb hc (f.of 0 4) (f.of 4 4) (f.of 8 3) _).trans ?_)
  rw [hchecks, if_neg Bool.false_ne_true, if_neg (Classical.not_not.2 ha), hlen, hcore]
  rcases hin with ⟨hs, hld, rfl⟩ | ⟨hs, hl', rfl, rfl⟩
  · rw [decide_eq_false hs, Bool.false_and, if_neg Bool.false_ne_true, hld]
    exact henter
  · rw [decide_eq_true hs, hl', beq_self_eq_true, Bool.true_and, if_pos rfl]
    exact henter

end

/-! Collection. -/

theorem exec_wcoll {s s1 : State} {c : CoreId} {x : Cmd} {f : E} {e : WOut} {rest : List WOut} {none_ : List Byte} (h : HeadRuns s c .out x)
    (hr : ∀ y ∈ (s.core c).rngQ, x.ord ≤ y.ord) (ht : takeOut (f.of 0 4) (f.of 4 1 == 1) (s.core c).wouts = some (e, rest))
    (he : e.failed = true ∧ s1 = s.asCmd c .out x ∨ e.failed = false ∧ x.sa.toNat % ((NumTy.ofCode (f.of 5 4)).width / 8) = 0 ∧
      (s.asCmd c .out x).storePad c c 0 [((x.sa.toNat : Int), e.vals.length * ((NumTy.ofCode (f.of 5 4)).width / 8))]
        (e.vals.flatMap fun v => leBytes ((NumTy.flt f32).convert (NumTy.ofCode (f.of 5 4)) .rne 0 v.toNat).1 ((NumTy.ofCode (f.of 5 4)).width / 8)) = .ok s1 none_) :
    exec (.wcoll f) s = .next (completed ((s1.setMe { s1.me with
      wouts := rest
      wranges := (f.of 0 4, f.of 4 1 == 1, e.range.1, e.range.2) ::
        s1.me.wranges.filter fun r => !(r.1 == f.of 0 4 && r.2.1 == (f.of 4 1 == 1)) }).arriveOwn x.slot x.lm f.d e.word) c .out x) := by
  have hno : ((s.asCmd c .out x).me.rngQ.any fun y => decide (y.ord < x.ord)) = false := any_ord_false hr
  have htake : takeOut (f.of 0 4) (f.of 4 1 == 1) (s.asCmd c .out x).me.wouts = some (e, rest) := ht
  have hcore : (s.asCmd c .out x).ctx.core = c := rfl
  dsimp only [exec, execWcoll]
  refine command_done h ?_
  rw [hno, if_neg Bool.false_ne_true, htake]
  dsimp only
  rcases he with ⟨hfail, rfl⟩ | ⟨hfail, ha, hst⟩
  · rw [if_pos hfail]
  · rw [hfail, if_neg Bool.false_ne_true, if_neg (Classical.not_not.2 ha), hcore, hst]

theorem exec_wver_range {s : State} {c : CoreId} {x : Cmd} {f : E} (hr : ∀ y ∈ (s.core c).outQ, x.ord ≤ y.ord) (h0 : f.of 5 2 = 0)
    (h : HeadRuns s c .rng x) : exec (.wver f) s =
      .next (completed ((s.asCmd c .rng x).arriveOwn x.slot x.lm f.d ((s.core c).verRange (f.of 0 4) (f.of 4 1 == 1))) c .rng x) := by
  have hno : ((s.asCmd c .rng x).me.outQ.any fun y => decide (y.ord < x.ord)) = false := any_ord_false hr
  have heng : verEng f = .rng := if_pos h0
  dsimp only [exec, execWver]
  rw [heng]
  refine command_done h ?_
  rw [hno, if_neg Bool.false_ne_true, if_pos h0]
  rfl

theorem exec_wver_state {s : State} {c : CoreId} {x : Cmd} {f : E} {n : Nat} (hr : ∀ y ∈ (s.core c).outQ, x.ord ≤ y.ord) (h0 : f.of 5 2 ≠ 0)
    (h : HeadRuns s c .ver x) (ha : ∀ y ∈ (s.core c).arrQ, x.ord ≤ y.ord)
    (hw : ∀ w ∈ (s.arr (clusterOf c)).fwd ++ (s.arr (clusterOf c)).bwd, w.core = c → x.ord ≤ w.cmd.ord)
    (hb : (s.core c).bank = some n) (hc : ((s.arr (clusterOf c)).bankAt n).claim = some ((s.core c).asid, (s.core c).handle)) :
    exec (.wver f) s = .next (completed ((if f.of 5 2 = 2 then (s.asCmd c .ver x).setMyArr ((s.arr (clusterOf c)).setRegion n (f.of 0 4)
      { (s.arr (clusterOf c)).region n (f.of 0 4) with nf := false }) else s.asCmd c .ver x).arriveOwn x.slot x.lm f.d
        ((s.arr (clusterOf c)).region n (f.of 0 4)).word) c .ver x) := by
  have hno : ((s.asCmd c .ver x).me.outQ.any fun y => decide (y.ord < x.ord)) = false := any_ord_false hr
  have hbusy : ((s.asCmd c .ver x).me.arrQ.any (fun y => decide (y.ord < x.ord)) ||
      ((s.asCmd c .ver x).myArr.fwd ++ (s.asCmd c .ver x).myArr.bwd).any (fun w => w.core == (s.asCmd c .ver x).ctx.core && decide (w.cmd.ord < x.ord))) = false := by
    rw [show ((s.asCmd c .ver x).me.arrQ.any fun y => decide (y.ord < x.ord)) = false from any_ord_false ha, Bool.false_or]
    refine List.any_eq_false.2 fun w hm hp => ?_
    obtain ⟨hcw, hlt⟩ := Bool.and_eq_true_iff.1 hp
    exact absurd (of_decide_eq_true hlt) (Nat.not_lt.2 (hw w hm (eq_of_beq hcw)))
  have heng : verEng f = .ver := if_neg h0
  dsimp only [exec, execWver]
  rw [heng]
  refine command_done h ?_
  rw [hno, if_neg Bool.false_ne_true, if_neg h0, hbusy, if_neg Bool.false_ne_true, withRegion_ok (b := s.asCmd c .ver x) hb hc]
  rfl

/-- Settles O46: each command by its body at the head, past the checks of lease, claim and order that its premises meet. -/
theorem wavefrontDataComplete : Obligations.WavefrontDataComplete := by
  intro s c x f n a k r g
  refine ⟨fun h hl hf hj hb hc => ⟨?_, ?_, ?_⟩, ?_, fun hr => ⟨exec_wver_range hr, exec_wver_state hr⟩⟩
  · intro s1 bs hdef hw ha ty g1 rs hld rows k0 k1
    exact exec_wldw h hl hf hj hb hc f hdef hw ha rfl rfl hld
  · intro hload hgrad hw ha hpo
    exact exec_wstw h hl hf hj hb hc f hload hgrad hw ha hpo
  · intro s1 bs inputs kind fmt eb len forward hk hload hstash hgrad ha hin hroom hq w t
    exact exec_wadmit h hl hf hj hb hc f rfl hload hstash hgrad ha hin hroom hq
  · intro h hr b e rest s1 none_ ht ty eb he
    exact exec_wcoll h hr ht he

end Sys2Proof.Machine
end

section
/-! PROOF. Array images and the events of an array (O47). -/
namespace Sys2Proof.Machine

/-! WSAVE and WREST. -/

section
variable {s s1 s2 s3 : State} {c : CoreId} {x : Cmd} (h : HeadRuns s c .arr x) (hl : (s.arr (clusterOf c)).lease = some c)
  (hj : (s.core c).jobid ∉ (s.arr (clusterOf c)).forced) (ha : x.sa.toNat % 64 = 0)
include h hl hj ha

theorem exec_wsave (f : E) {ps : List Piece} (hc : ∀ n ∈ maskBanks (f.of 0 4), ((s.arr (clusterOf c)).bankAt n).claim = some ((s.core c).asid, (s.core c).handle))
    (hw : (s.arr (clusterOf c)).frozen = true ∨ ∀ w ∈ (s.arr (clusterOf c)).flying, w.open_ = true → w.bank ∉ maskBanks (f.of 0 4)) {m : ArrImage}
    (hm : (⟨(s.asCmd c .arr x).seq, (maskBanks (f.of 0 4)).map fun n => (n, (s.asCmd c .arr x).myArr.bankAt n),
      (s.asCmd c .arr x).myArr.flying.filter fun w => (maskBanks (f.of 0 4)).contains w.bank && w.open_, (s.asCmd c .arr x).myArr.recent⟩ : ArrImage) = m)
    (hx : (s.asCmd c .arr x).xlate (s.asCmd c .arr x).walker (s.asCmd c .arr x).me.asid.toNat (userOf (s.asCmd c .arr x).ctx.core) .store x.sa.toNat
      (m.bytes (s.asCmd c .arr x).myArr.frozen (f.of 0 4)).length = (s1, .ok ps)) :
    let t := (s1.mark (s.asCmd c .arr x).walker .store ps).writeLong (s.core c).jobid ps (m.bytes (s.arr (clusterOf c)).frozen (f.of 0 4))
    exec (.wsave f) s = .next (completed { t with seq := t.seq + 1, arrImages := m :: t.arrImages } c .arr x) := by
  intro t
  have hnone : (maskBanks (f.of 0 4)).filterMap (fun n => (s.asCmd c .arr x).claimed n (waveDetail n 0 0 0)) = [] := by
    rw [List.filterMap_eq_nil_iff]
    intro n hn
    rw [State.claimed, show ((s.asCmd c .arr x).myArr.bankAt n).claim = _ from hc n hn]
    exact if_pos (beq_self_eq_true _)
  have hbusy : (!(s.asCmd c .arr x).myArr.frozen && (s.asCmd c .arr x).myArr.flying.any fun w =>
      (maskBanks (f.of 0 4)).contains w.bank && w.open_) = false := by
    rcases hw with hf | hw
    · rw [show (s.asCmd c .arr x).myArr.frozen = true from hf]
      rfl
    · rw [Bool.and_eq_false_iff]
      refine .inr (List.any_eq_false.2 fun w hm hp => ?_)
      obtain ⟨hb, ho⟩ := Bool.and_eq_true_iff.1 hp
      exact hw w hm ho (List.contains_iff_mem.1 hb)
  dsimp only [exec, execWsave]
  refine command_done h ((withLease_ok (b := s.asCmd c .arr x) hl (Bool.and_false _) hj _).trans ?_)
  rw [if_neg (Classical.not_not.2 ha), hnone, List.head?_nil]
  dsimp only
  rw [hbusy, if_neg Bool.false_ne_true]
  rw [hm, hx]
  rfl

theorem exec_wrest (f : E) {hd cnt bs : List Byte} (hwait : (s.asCmd c .arr x).restWaits x.sa.toNat = false)
    (h1 : (s.asCmd c .arr x).loadG c .ws false x.sa.toNat 64 = .ok s1 hd) (hfmt : fieldAt hd 0 4 = imgFmt) {banks : List Nat}
    (hbanks : maskBanks (fieldAt hd 4 4 / 2) = banks)
    (h2 : s1.loadG c .ws false (x.sa.toNat + 64 + 795152 * banks.length : Nat) 16 = .ok s2 cnt)
    (hlen : fieldAt hd 8 8 = imageLen banks.length (leNat cnt)) (h3 : s2.loadG c .ws false x.sa.toNat (imageLen banks.length (leNat cnt)) = .ok s3 bs)
    (hclaims : s3.restClaims bs banks = true) :
    (∀ m, s3.arrImages.find? (fun m => m.banks.map (·.1) == banks && m.agrees banks.length (leNat cnt) bs) = some m →
      exec (.wrest f) s = .next (completed (s3.restoreArray m bs) c .arr x)) ∧
    (s3.arrImages.find? (fun m => m.banks.map (·.1) == banks && m.agrees banks.length (leNat cnt) bs) = none →
      exec (.wrest f) s = .next (completed (State.restoreArray { s3 with seq := s3.seq + leNat cnt }
        (ArrImage.ofBytes bs banks (leNat cnt) s3.seq) bs) c .arr x)) := by
  have hcore : (s.asCmd c .arr x).ctx.core = c := rfl
  subst hbanks
  refine ⟨fun m hm => ?_, fun hm => ?_⟩
  · dsimp only [exec, execWrest]
    refine command_done h ((withLease_ok (b := s.asCmd c .arr x) hl (Bool.and_false _) hj _).trans ?_)
    rw [if_neg (Classical.not_not.2 ha), hwait, if_neg Bool.false_ne_true, hcore, h1]
    dsimp only
    rw [if_neg (Classical.not_not.2 hfmt), h2]
    dsimp only
    rw [if_neg (Classical.not_not.2 hlen), h3]
    dsimp only
    rw [hclaims, Bool.not_true, if_neg Bool.false_ne_true, hm]
  · dsimp only [exec, execWrest]
    refine command_done h ((withLease_ok (b := s.asCmd c .arr x) hl (Bool.and_false _) hj _).trans ?_)
    rw [if_neg (Classical.not_not.2 ha), hwait, if_neg Bool.false_ne_true, hcore, h1]
    dsimp only
    rw [if_neg (Classical.not_not.2 hfmt), h2]
    dsimp only
    rw [if_neg (Classical.not_not.2 hlen), h3]
    dsimp only
    rw [hclaims, Bool.not_true, if_neg Bool.false_ne_true, hm]

end

theorem arrayImages_rule : ArrayImagesCompleteRule := by
  intro s s1 s2 s3 c x f h a k b va hl hj ha
  refine ⟨?_, ?_⟩
  · intro ps hc hw m hx t
    exact exec_wsave h hl hj ha f hc hw rfl hx
  · intro hd cnt bs hwait h1 hfmt banks h2 hlen h3 hclaims made
    exact exec_wrest h hl hj ha f hwait h1 hfmt rfl h2 hlen h3 hclaims

end Sys2Proof.Machine
end

section
/-! PROOF. Cells, banks and arrays (O47). -/
namespace Sys2Proof.Machine

/-! Cells and banks. -/

theorem cellAt_cellPut_of_ne {l : List (Nat × WCell)} {i j : Nat} (h : i ≠ j) (x : WCell) : cellAt (cellPut l i x) j = cellAt l j := by
  induction l with
  | nil =>
    rw [cellPut]
    split
    · rfl
    · exact if_neg h
  | cons y t ih =>
    obtain ⟨k, z⟩ := y
    rw [cellPut]
    split
    · split
      · rfl
      · exact if_neg h
    · split
      · next hk =>
        subst hk
        split
        · exact (if_neg h).symm
        · rw [cellAt, cellAt, if_neg h, if_neg h]
      · rw [cellAt, cellAt, ih]

theorem Bank.cell_setCell_of_ne {k : Bank} {i j : Nat} (h : i ≠ j) (x : WCell) : (k.setCell i x).cell j = k.cell j := cellAt_cellPut_of_ne h x

/-- A wavefront at a cell writes that cell and its region's state alone (R212, R214). -/
theorem Wave.apply_keeps (w : Wave) (old k : Bank) (rc : Nat × Nat) :
    (w.apply old k rc).claim = k.claim ∧ (w.apply old k rc).steps = k.steps ∧ (w.apply old k rc).poison = k.poison ∧
      ∀ i, w.reg.place rc.1 rc.2 ≠ i → (w.apply old k rc).cell i = k.cell i := by
  obtain ⟨r, c⟩ := rc
  unfold Wave.apply
  dsimp only
  split
  · split
    · exact ⟨rfl, rfl, rfl, fun _ _ => rfl⟩
    · exact ⟨rfl, rfl, rfl, fun _ _ => rfl⟩
  · split
    · exact ⟨rfl, rfl, rfl, fun _ _ => rfl⟩
    · split
      · exact ⟨rfl, rfl, rfl, fun i hi => Bank.cell_setCell_of_ne hi _⟩
      · exact ⟨rfl, rfl, rfl, fun i hi => Bank.cell_setCell_of_ne hi _⟩

/-- What every step of a fold keeps, the fold keeps. -/
theorem foldl_keeps {α β γ : Type} {f : α → β → α} {φ : α → γ} {l : List β} (h : ∀ x, ∀ y ∈ l, φ (f x y) = φ x) (x : α) : φ (l.foldl f x) = φ x := by
  induction l generalizing x with
  | nil => rfl
  | cons y l ih =>
    obtain ⟨hy, hl⟩ : (∀ x, φ (f x y) = φ x) ∧ ∀ x, ∀ z ∈ l, φ (f x z) = φ x :=
      ⟨fun x => h x y List.mem_cons_self, fun x z hz => h x z (List.mem_cons_of_mem _ hz)⟩
    exact (ih hl _).trans (hy x)

/-! The banks of an array. -/

theorem WArray.bankAt_setBank {a : WArray} {b : Nat} (hb : b < 4) (k : Bank) : (a.setBank b k).bankAt b = k := by
  rw [WArray.bankAt, WArray.setBank, Vector.toList_setIfInBounds, List.getElem?_set_self (by rw [Vector.length_toList]; exact hb)]
  rfl

theorem WArray.bankAt_setBank_of_ne {a : WArray} {b q : Nat} (h : b ≠ q) (k : Bank) : (a.setBank b k).bankAt q = a.bankAt q := by
  rw [WArray.bankAt, WArray.setBank, Vector.toList_setIfInBounds, List.getElem?_set_ne h]
  rfl

theorem WArray.setBank_bankAt (a : WArray) (b : Nat) : a.setBank b (a.bankAt b) = a := by
  have hv : a.banks.setIfInBounds b (a.bankAt b) = a.banks := by
    rw [← Vector.toList_inj, Vector.toList_setIfInBounds, WArray.bankAt]
    refine List.ext_getElem? fun j => ?_
    rw [List.getElem?_set]
    split
    · next hj =>
      subst hj
      split
      · next hb => rw [List.getElem?_eq_getElem hb]; rfl
      · next hb => rw [List.getElem?_eq_none (Nat.not_lt.1 hb)]
    · rfl
  rw [WArray.setBank, hv]

theorem State.arr_setArr {s : State} {n : Nat} (hn : n < 16) (a : WArray) : (s.setArr n a).arr n = a := by
  rw [State.arr, State.setArr, Vector.toList_setIfInBounds, List.getElem?_set_self (by rw [Vector.length_toList]; exact hn)]
  rfl

theorem State.setArr_arr (s : State) (n : Nat) : s.setArr n (s.arr n) = s := by
  have hv : s.arrays.setIfInBounds n (s.arr n) = s.arrays := by
    rw [← Vector.toList_inj, Vector.toList_setIfInBounds, State.arr]
    refine List.ext_getElem? fun j => ?_
    rw [List.getElem?_set]
    split
    · next hj =>
      subst hj
      split
      · next hb => rw [List.getElem?_eq_getElem hb]; rfl
      · next hb => rw [List.getElem?_eq_none (Nat.not_lt.1 hb)]
    · rfl
  rw [State.setArr, hv]

theorem State.setArr_setArr (s : State) (n : Nat) (a b : WArray) : (s.setArr n a).setArr n b = s.setArr n b := by
  rw [State.setArr, State.setArr, State.setArr, Vector.setIfInBounds_setIfInBounds]

/-! The arrivals of a slot. -/

/-- The cells that a wavefront reaches in a slot (R212). -/
def Wave.cells (w : Wave) : List (Nat × Nat) :=
  match w.age with
  | none => []
  | some m => if w.last ≤ m then [] else w.reaches m

/-- A bank with the writes of a wavefront's cells, on the values of the slot's begin. -/
def Wave.writes (w : Wave) (old k : Bank) : Bank := w.cells.foldl (fun k rc => w.apply old k rc) k

/-- A wavefront with what it reads in a slot. -/
def Wave.moved (w : Wave) (a : WArray) : Wave :=
  match w.age with
  | none => w
  | some m => if w.last ≤ m then w else { w.cells.foldl (fun w rc => w.visit (a.bankAt w.bank) rc) w with age := some (m + 1) }

theorem WArray.arrivals_eq (a : WArray) : a.arrivals =
    { a.flying.foldl (fun x w => x.setBank w.bank (w.writes (a.bankAt w.bank) (x.bankAt w.bank))) a with flying := a.flying.map (·.moved a) } := by
  have hw (x : WArray) (w : Wave) : x.setBank w.bank (w.writes (a.bankAt w.bank) (x.bankAt w.bank)) = match w.age with
      | none => x
      | some n => if w.last ≤ n then x else
        x.setBank w.bank ((w.reaches n).foldl (fun k rc => w.apply (a.bankAt w.bank) k rc) (x.bankAt w.bank)) := by
    unfold Wave.writes Wave.cells
    cases w.age with
    | none => exact x.setBank_bankAt _
    | some n =>
      dsimp only
      split
      · exact x.setBank_bankAt _
      · rfl
  have hm (w : Wave) : w.moved a = match w.age with
      | none => w
      | some n => if w.last ≤ n then w else
        { (w.reaches n).foldl (fun w rc => w.visit (a.bankAt w.bank) rc) w with age := some (n + 1) } := by
    unfold Wave.moved Wave.cells
    cases w.age with
    | none => rfl
    | some n =>
      dsimp only
      split
      · rfl
      · rfl
  simp only [hw, hm]
  rfl

theorem foldl_setBank_frame {f : WArray → Wave → Bank} (l : List Wave) (x : WArray) :
    ∃ b, l.foldl (fun x w => x.setBank w.bank (f x w)) x = { x with banks := b } := by
  induction l generalizing x with
  | nil => exact ⟨x.banks, rfl⟩
  | cons w l ih =>
    obtain ⟨b, hb⟩ := ih (x.setBank w.bank (f x w))
    exact ⟨b, hb⟩

/-- A bank holds the writes of the wavefronts in it, in their order. -/
theorem foldl_writes_bankAt (a : WArray) {q : Nat} (hq : q < 4) (l : List Wave) (x : WArray) :
    (l.foldl (fun x w => x.setBank w.bank (w.writes (a.bankAt w.bank) (x.bankAt w.bank))) x).bankAt q =
      (l.filter fun w => w.bank == q).foldl (fun k w => w.writes (a.bankAt q) k) (x.bankAt q) := by
  induction l generalizing x with
  | nil => rfl
  | cons w l ih =>
    rw [List.foldl_cons, ih, List.filter_cons]
    by_cases hw : w.bank = q
    · subst hw
      rw [WArray.bankAt_setBank hq, if_pos (beq_self_eq_true _), List.foldl_cons]
    · rw [WArray.bankAt_setBank_of_ne hw, if_neg (by rw [beq_iff_eq]; exact hw)]

theorem Wave.writes_keeps (w : Wave) (old k : Bank) : (w.writes old k).claim = k.claim ∧ (w.writes old k).steps = k.steps ∧
    (w.writes old k).poison = k.poison ∧ ∀ i, (∀ rc ∈ w.cells, w.reg.place rc.1 rc.2 ≠ i) → (w.writes old k).cell i = k.cell i :=
  ⟨foldl_keeps (φ := Bank.claim) (fun x rc _ => (w.apply_keeps old x rc).1) k,
    foldl_keeps (φ := Bank.steps) (fun x rc _ => (w.apply_keeps old x rc).2.1) k,
    foldl_keeps (φ := Bank.poison) (fun x rc _ => (w.apply_keeps old x rc).2.2.1) k,
    fun i hi => foldl_keeps (φ := fun x : Bank => x.cell i) (fun x rc hrc => (w.apply_keeps old x rc).2.2.2 i (hi rc hrc)) k⟩

/-- The arrivals of a slot bank by bank (R212, R214). -/
theorem WArray.arrivals_spec (a : WArray) : a.arrivals = { a with flying := a.arrivals.flying, banks := a.arrivals.banks } ∧
    a.arrivals.flying = a.flying.map (·.moved a) ∧
    ∀ q < 4, a.arrivals.bankAt q = (a.flying.filter fun w => w.bank == q).foldl (fun k w => w.writes (a.bankAt q) k) (a.bankAt q) ∧
      (a.arrivals.bankAt q).claim = (a.bankAt q).claim ∧ (a.arrivals.bankAt q).steps = (a.bankAt q).steps ∧
      (a.arrivals.bankAt q).poison = (a.bankAt q).poison ∧
      ∀ i, (∀ w ∈ a.flying, w.bank = q → ∀ rc ∈ w.cells, w.reg.place rc.1 rc.2 ≠ i) → (a.arrivals.bankAt q).cell i = (a.bankAt q).cell i := by
  obtain ⟨b, hb⟩ := foldl_setBank_frame (f := fun x w => w.writes (a.bankAt w.bank) (x.bankAt w.bank)) a.flying a
  refine ⟨?_, ?_, fun q hq => ?_⟩
  · rw [a.arrivals_eq, hb]
  · rw [a.arrivals_eq]
  · have hbank : a.arrivals.bankAt q = (a.flying.filter fun w => w.bank == q).foldl (fun k w => w.writes (a.bankAt q) k) (a.bankAt q) := by
      rw [a.arrivals_eq]
      exact foldl_writes_bankAt a hq a.flying a
    rw [hbank]
    refine ⟨rfl, foldl_keeps (φ := Bank.claim) (fun x w _ => (w.writes_keeps _ x).1) _,
      foldl_keeps (φ := Bank.steps) (fun x w _ => (w.writes_keeps _ x).2.1) _,
      foldl_keeps (φ := Bank.poison) (fun x w _ => (w.writes_keeps _ x).2.2.1) _, fun i hi => ?_⟩
    refine foldl_keeps (φ := fun x : Bank => x.cell i) (fun x w hw => (w.writes_keeps _ x).2.2.2 i ?_) _
    obtain ⟨hm, hbq⟩ := List.mem_filter.1 hw
    exact hi w hm (eq_of_beq hbq)

end Sys2Proof.Machine
end

section
/-! PROOF. The events of an array (O47). -/
namespace Sys2Proof.Machine

/-! What a wavefront does at a cell. -/

/-- A wavefront adds the product of a cell to the sum of its column or row (R212). -/
theorem Wave.visit_sums (w : Wave) (bank : Bank) (r c : Nat) (hp : perCell w.reg.fmt = 1) :
    (w.kind = 0 → (w.visit bank (r, c)).sums = w.sums.set c (BitVec.ofNat 32 (accAdd f32 (at32 w.sums c).toNat
      (mulVal (weight w.reg.fmt (bank.cell (w.reg.place r c)).w 0) (val32 (at32 w.inputs r)))))) ∧
    ((w.kind = 1 ∨ w.kind = 2 ∨ w.kind = 3) → (w.visit bank (r, c)).sums = w.sums.set r (BitVec.ofNat 32 (accAdd f32 (at32 w.sums r).toNat
      (mulVal (weight w.reg.fmt (bank.cell (w.reg.place r c)).w 0) (val32 (at32 w.inputs c)))))) := by
  refine ⟨fun hk => ?_, fun hk => ?_⟩
  · have ha : w.isA = false := by rw [Wave.isA, hk]; rfl
    have hf : w.forward = true := by rw [Wave.forward, hk]; rfl
    unfold Wave.visit
    dsimp only
    rw [ha, if_neg Bool.false_ne_true, if_pos hf, hp, hf]
    simp only [List.range_one, List.map_cons, List.map_nil, List.zipIdx_cons, List.zipIdx_nil, List.foldl_cons, List.foldl_nil, Nat.one_mul, Nat.add_zero,
      if_true, Wave.sumAt, beq_self_eq_true]
    split <;> rfl
  · have hne : w.kind ≠ 0 ∧ w.kind ≠ 4 := by omega
    have ha : w.isA = false := beq_false_of_ne hne.2
    have hf : w.forward = false := by rw [Wave.forward, beq_false_of_ne hne.1, beq_false_of_ne hne.2]; rfl
    unfold Wave.visit
    dsimp only
    rw [ha, if_neg Bool.false_ne_true, hf, if_neg Bool.false_ne_true, hp]
    simp only [List.range_one, List.map_cons, List.map_nil, List.foldl_nil, Nat.one_mul, Nat.add_zero, Bool.false_eq_true, if_false, Wave.sumAt,
      beq_self_eq_true, if_true]
    split <;> rfl

/-- The cell that a wavefront leaves (R212, R214). -/
theorem Wave.newCell_kinds (w : Wave) (bank : Bank) (r c : Nat) (hp : perCell w.reg.fmt = 1) :
    (w.kind = 0 ∨ w.kind = 1 → w.newCell bank r c = bank.cell (w.reg.place r c)) ∧
    (w.kind = 3 → w.newCell bank r c = { bank.cell (w.reg.place r c) with g := BitVec.ofNat 32 (accAdd f32 (bank.cell (w.reg.place r c)).g.toNat
      (mulVal (val32 ((bank.region w.region).stash w.tag r)) (val32 (at32 w.inputs c)))) }) ∧
    (w.kind = 4 → w.skip = true → w.newCell bank r c = { bank.cell (w.reg.place r c) with g := 0 }) := by
  refine ⟨fun hk => ?_, fun hk => ?_, fun hk hs => ?_⟩
  · unfold Wave.newCell
    rcases hk with hk | hk
    · simp only [hk]
    · simp only [hk]
  · unfold Wave.newCell
    dsimp only
    simp only [hk, hp, Nat.one_mul, Nat.add_zero]
  · unfold Wave.newCell
    simp only [hk, hs, if_true]

/-! The events. -/

section
variable {s : State} {n : Nat} (hu : s.ctx.ev.unit = n) (hn : n < 16)
include hu hn

theorem exec_frozen (hf : (s.arr n).frozen = true) :
    (∀ i, i = .wavefrontCellArrival ∨ i = .wavefrontAdmission ∨ i = .applyCommit → exec i s = .next s) ∧
    ((s.arr n).lease ≠ none → exec .wavefrontDelivery s = .next (s.setArr n { s.arr n with flying := (s.arr n).flying.filter Wave.open_ })) := by
  refine ⟨fun i hi => ?_, fun hl => ?_⟩
  · rcases hi with rfl | rfl | rfl
    · dsimp only [exec, execWavefrontCellArrival]
      rw [hu, if_pos hn, if_pos hf]
    · dsimp only [exec, execWavefrontAdmission]
      rw [hu, if_pos hn, if_pos hf]
    · dsimp only [exec, execApplyCommit]
      rw [hu, if_pos hn, if_pos hf]
  · have hc : ((s.arr n).frozen && (s.arr n).lease.isSome) = true := by rw [hf, Option.isSome_iff_ne_none.2 hl]; rfl
    dsimp only [exec, execWavefrontDelivery]
    rw [hu, if_pos hn, if_pos hc, if_pos hf]

theorem exec_cellArrival (hf : (s.arr n).frozen = false) : exec .wavefrontCellArrival s = .next (s.setArr n (s.arr n).arrivals) := by
  dsimp only [exec, execWavefrontCellArrival]
  rw [hu, if_pos hn, hf, if_neg Bool.false_ne_true]

theorem exec_admission (hf : (s.arr n).frozen = false) {w : Wave}
    (hc : s.candidate n true = some w ∧ s.candidate n false = none ∨ s.candidate n false = some w ∧ s.candidate n true = none) :
    exec .wavefrontAdmission s = .next (if w.replays = 0 then s.enterArray n w else s.setArr n ((s.arr n).setWave { w with age := some 0 })) := by
  dsimp only [exec, execWavefrontAdmission]
  rw [hu, if_pos hn, hf, if_neg Bool.false_ne_true]
  rcases hc with ⟨h1, h2⟩ | ⟨h1, h2⟩
  · rw [h1, h2]
    rfl
  · rw [h1, h2]
    rfl

theorem exec_applyCommit (hf : (s.arr n).frozen = false) {w : Wave} (hw : (s.arr n).flying.filter (fun w => w.isA && w.age == some w.last) = [w]) :
    exec .applyCommit s = .next ((s.setArr n ((if w.skip then s.arr n else
      (s.arr n).setBank w.bank { (s.arr n).bankAt w.bank with steps := ((s.arr n).bankAt w.bank).steps + 1 }).setWave w.retired)).waveDone w) := by
  dsimp only [exec, execApplyCommit]
  rw [hu, if_pos hn, hf, if_neg Bool.false_ne_true, hw]
  rfl

/-- The delivery of the only wavefront, at its last age (R227). -/
theorem exec_delivery (hf : (s.arr n).frozen = false) {w : Wave} (ht : s.turnLease n = s) (hw : (s.arr n).flying = [w]) (ha : w.isA = false)
    (hage : w.age = some w.last) :
    ((w.failed = true ∨ w.passes = true) → exec .wavefrontDelivery s = .next (s.deliverWave n w)) ∧
    (w.failed = false → w.passes = false → (s.arr n).beyondRetry w = false →
      exec .wavefrontDelivery s = .next (s.setArr n { s.arr n with flying := [w.again] })) ∧
    (w.failed = false → w.passes = false → (s.arr n).beyondRetry w = true →
      exec .wavefrontDelivery s = .next ((s.setArr n ((s.arr n).setWave { w with failed := true })).arrayTrap n
        { cause := 0x33, pc := some w.cmd.pc, detail := waveDetail w.bank w.region w.tag w.kind })) := by
  have hopen : w.open_ = true := by rw [Wave.open_, hage]; exact decide_eq_true (Nat.le_refl _)
  have hsame : { s.arr n with flying := (s.arr n).flying.filter Wave.open_ } = s.arr n := by
    rw [hw, List.filter_cons, if_pos hopen, List.filter_nil, ← hw]
  have hdue : [w].filter (fun w => !w.isA && w.age == some w.last) = [w] := by
    rw [List.filter_cons, if_pos (by rw [ha, hage]; simp), List.filter_nil]
  have hx : exec .wavefrontDelivery s = .next (if ([w].filter fun w => !w.failed && !w.passes && (s.arr n).beyondRetry w).isEmpty then
      State.deliveries n [w] s else State.failedChecks n ([w].filter fun w => !w.failed && !w.passes && (s.arr n).beyondRetry w) s) := by
    dsimp only [exec, execWavefrontDelivery]
    rw [hu, if_pos hn, hf, Bool.false_and, if_neg Bool.false_ne_true, ht, hsame, State.setArr_arr, hf, if_neg Bool.false_ne_true, hw, hdue]
  rw [hx]
  refine ⟨fun hp => ?_, fun hfail hp hb => ?_, fun hfail hp hb => ?_⟩
  · have hno : (!w.failed && !w.passes && (s.arr n).beyondRetry w) = false := by
      rcases hp with hp | hp
      · rw [hp]
        rfl
      · rw [hp, Bool.not_true, Bool.and_false, Bool.false_and]
    have hgo : (w.failed || w.passes) = true := Bool.or_eq_true_iff.2 hp
    rw [List.filter_cons, hno, if_neg Bool.false_ne_true, List.filter_nil, List.isEmpty_nil, if_pos rfl, State.deliveries, if_pos hgo]
    rfl
  · have hno : (!w.failed && !w.passes && (s.arr n).beyondRetry w) = false := by rw [hb, Bool.and_false]
    have hself : [w].filter (fun x => !(x.cmd.ord == w.cmd.ord && x.core == w.core)) = [] := by
      rw [List.filter_cons, if_neg (by simp), List.filter_nil]
    rw [List.filter_cons, hno, if_neg Bool.false_ne_true, List.filter_nil, List.isEmpty_nil, if_pos rfl, State.deliveries, hfail, hp, Bool.or_self,
      if_neg Bool.false_ne_true]
    dsimp only
    rw [hw, hself]
    rfl
  · have hyes : (!w.failed && !w.passes && (s.arr n).beyondRetry w) = true := by rw [hb, hfail, hp]; rfl
    rw [List.filter_cons, if_pos hyes, List.filter_nil, List.isEmpty_cons, if_neg Bool.false_ne_true]
    rfl

end

theorem arrayEvents_rule : ArrayEventsCompleteRule := by
  intro s n hu hn a
  refine ⟨exec_frozen hu hn, fun hf => ⟨⟨_, exec_cellArrival hu hn hf, ?_⟩, fun w => exec_admission hu hn hf, fun w => exec_applyCommit hu hn hf,
    fun w ht hw ha hage => exec_delivery hu hn hf ht hw ha hage, ?_⟩⟩
  · intro at_
    obtain ⟨hframe, hfly, hbanks⟩ := (s.arr n).arrivals_spec
    exact ⟨hframe, hfly, hbanks⟩
  · intro w bank r c hp x
    obtain ⟨h0, h123⟩ := w.visit_sums bank r c hp
    obtain ⟨h01, h3, h4⟩ := w.newCell_kinds bank r c hp
    exact ⟨h0, h123, h01, h3, h4⟩

/-- Settles O47: an image by its checks, an arrival by the cells that each wavefront reaches, and the other events case by case. -/
theorem arrayImagesAndEventsComplete : Obligations.ArrayImagesAndEventsComplete := ⟨arrayImages_rule, arrayEvents_rule⟩

end Sys2Proof.Machine
end

section
/-! PROOF. The collective commands (O48). -/
namespace Sys2Proof.Machine

/-! What a collective command's steps leave of the context. -/

theorem State.consume_ctx (s : State) (c : CoreId) (i : StreamId) (pz : Bool) (space : Nat) (pc : Word) (bad : List (Word × Word)) :
    (s.consume c i pz space pc bad).1.ctx = s.ctx := by
  have hlog (es : List (Vector Word 4)) : (s.logPoison c es).ctx = s.ctx := by
    unfold State.logPoison
    dsimp only
    split <;> rfl
  unfold State.consume
  split
  · rfl
  · dsimp only
    split
    · exact hlog _
    · split
      · exact hlog _
      · exact hlog _

theorem State.loadPad_ctx {s s1 : State} {c : CoreId} {i : StreamId} {t : CoreId} {space : Nat} {rs : List (Int × Nat)} {bs : List Byte}
    (h : s.loadPad c i t space rs = .ok s1 bs) : s1.ctx = s.ctx := by
  unfold State.loadPad at h
  split at h
  · cases h
  · split at h
    · cases h
    · dsimp only at h
      have hc := s.consume_ctx c i false space (s.accPc c i) (rs.flatMap fun r => (s.core t).padBad t r.1.toNat r.2)
      split at h
      · cases h
      · next he =>
        rw [he] at hc
        cases h
        exact hc

theorem State.setCore_core (s : State) (c : CoreId) : s.setCore c (s.core c) = s := by
  rw [State.setCore, State.core]
  exact congrArg (fun v => { s with cores := v }) (Vector.set_getElem_self _)

/-- A command's timer starts in its queue; nothing else changes (R380). -/
theorem State.startTimer_frame (s : State) : ∃ (c : CoreId) (q : List Cmd), s.startTimer = s.setCore c { s.core c with collQ := q } := by
  have hsame : s = s.setCore 0 { s.core 0 with collQ := (s.core 0).collQ } := (State.setCore_core s 0).symm
  have hmap (k : Core) (f : Cmd → Cmd) : ∃ q, k.mapHead .coll f = { k with collQ := q } := by
    unfold Core.mapHead
    split
    · exact ⟨_, rfl⟩
    · exact ⟨_, rfl⟩
  unfold State.startTimer
  split
  · exact ⟨0, _, hsame⟩
  · split
    · next h =>
      obtain ⟨q, hq⟩ := hmap (s.core ⟨s.ctx.ev.unit, h⟩) fun x => if x.timer = 0 then { x with timer := 1, limit := (s.core ⟨s.ctx.ev.unit, h⟩).xtlim.toNat } else x
      exact ⟨⟨s.ctx.ev.unit, h⟩, q, congrArg (s.setCore ⟨s.ctx.ev.unit, h⟩) hq⟩
    · exact ⟨0, _, hsame⟩

/-- A core while a command's timer starts is as it was, but for its queue of collective commands. -/
theorem State.startTimer_core (s : State) (c : CoreId) : ∃ q, s.startTimer.core c = { s.core c with collQ := q } := by
  obtain ⟨d, q, h⟩ := s.startTimer_frame
  rw [h]
  by_cases hd : d = c
  · subst hd
    exact ⟨q, State.core_setCore ..⟩
  · exact ⟨(s.core c).collQ, State.core_setCore_of_ne _ _ _ _ hd⟩

theorem State.startTimer_keeps (s : State) (c : CoreId) : (∀ j, (s.startTimer.core c).treeAt j = (s.core c).treeAt j) ∧
    (s.startTimer.core c).asid = (s.core c).asid ∧ (s.startTimer.core c).spad = (s.core c).spad := by
  obtain ⟨q, hq⟩ := s.startTimer_core c
  rw [hq]
  exact ⟨fun _ => rfl, rfl, rfl⟩

theorem combine_ctx (c : CoreId) (t : Tree) (op ty : Nat) (l : List Nat) (s : State) (acc : List (BitVec 32)) :
    (State.combine c t op ty l s acc).1.ctx = s.ctx := by
  induction l generalizing s acc with
  | nil => rfl
  | cons k l ih =>
    rw [State.combine]
    dsimp only
    split
    · rfl
    · exact (ih _ _).trans rfl

theorem takeDown_ctx {s s1 : State} {t : Tree} {p : Down} (h : s.takeDown t = some (p, s1)) : s1.ctx = s.ctx := by
  obtain ⟨q, -, hq⟩ := Option.map_eq_some_iff.1 h
  cases hq
  rfl

/-! The parts of a collective command. -/

section
variable {b : State} {x : Cmd} {j : Nat}

theorem onEpoch_failing (hx : x.failing = true) (run : Tree → CmdRes) :
    b.onEpoch x j run = .done (if (b.me.treeAt j).loaded then b.countEpoch j else b) := by
  rw [State.onEpoch]
  exact if_pos hx

theorem onEpoch_run {t : Tree} (hx : x.failing = false) (ht : b.me.treeAt j = t) (hl : t.loaded = true) (hf : t.fails = []) (run : Tree → CmdRes) :
    b.onEpoch x j run = run t := by
  unfold State.onEpoch
  dsimp only
  rw [hx, if_neg Bool.false_ne_true, ht, hl, Bool.not_true, if_neg Bool.false_ne_true, hf]
  rfl

theorem agreeing_ok {t : Tree} (h : b.differing b.ctx.core t t.epoch = 0) (go : Unit → CmdRes) : b.agreeing t go = go () := by
  unfold State.agreeing
  exact if_pos h

theorem finishColl_ok {s1 kept : State} {dst : Word} {vals : List (BitVec 32)} {u : List Byte}
    (h : b.storePad b.ctx.core b.ctx.core 0 [((dst.toNat : Int), 4 * vals.length)] (bytesOf vals) = .ok s1 u) (after : State → State) :
    b.finishColl kept dst j vals after = .done (after (s1.countEpoch j)) := by
  rw [State.finishColl, h]

theorem receiveDown_ok {t : Tree} {p : Down} {s1 s2 : State} {sig : Nat} {u : List Byte} (h : b.takeDown t = some (p, s1))
    (hst : s1.storePad b.ctx.core b.ctx.core 0 [((x.sb.toNat : Int), 4 * p.vals.length)] (bytesOf p.vals) = .ok s2 u) :
    b.receiveDown x t j sig = .done ((s2.countEpoch j).sendDown s2.ctx.core t sig p.vals) := by
  rw [← takeDown_ctx h] at hst
  rw [State.receiveDown, h]
  exact finishColl_ok hst _

/-- The checks of a collective command's addresses pass (R387). -/
theorem collChecks_ok {al : Nat} {as : List (Word × Nat × Nat)}
    (h : ∀ a ∈ as, a.1.toNat % al = 0 ∧ b.padOk b.ctx.core b.ctx.core a.1.toNat a.2.1 = true) : b.collChecks al as = none := by
  have h1 : (as.find? fun a => a.1.toNat % al != 0) = none := List.find?_eq_none.2 fun a ha => by rw [(h a ha).1]; decide
  have h2 : (as.find? fun a => !b.padOk b.ctx.core b.ctx.core a.1.toNat a.2.1) = none :=
    List.find?_eq_none.2 fun a ha => by rw [(h a ha).2]; decide
  rw [State.collChecks, h1]
  dsimp only
  rw [h2]

/-! A reduction once its source has been read. -/

section
variable {t : Tree} {op ty sig next : Nat} {bc : Bool} {acc acc1 : List (BitVec 32)} {s2 : State} {left : List Nat}
  (hc : State.combine b.ctx.core t op ty ((memKids t.desc t.member).drop next) b acc = (s2, acc1, left))
include hc

/-- A member waits while a child's partial has yet to come. -/
theorem reduce_waits (hl : left ≠ []) : b.reduce x t j op ty sig bc acc next =
    collWait (s2.progress 1 acc1 ((memKids t.desc t.member).length - left.length)) := by
  unfold State.reduce
  dsimp only
  rw [hc]
  dsimp only
  rw [if_pos (by rw [Bool.not_eq_true', List.isEmpty_eq_false_iff]; exact hl)]

/-- The root writes its result. -/
theorem reduce_root {s4 : State} {u : List Byte} (hl : left = []) (hr : memParent t.desc t.member = 0xFF)
    (hst : (s2.progress 1 acc1 ((memKids t.desc t.member).length - left.length)).storePad b.ctx.core b.ctx.core 0
      [((x.sb.toNat : Int), 4 * acc1.length)] (bytesOf acc1) = .ok s4 u) :
    b.reduce x t j op ty sig bc acc next = .done (if bc then (s4.countEpoch j).sendDown b.ctx.core t sig acc1 else s4.countEpoch j) := by
  have hctx : b.ctx.core = (s2.progress 1 acc1 ((memKids t.desc t.member).length - left.length)).ctx.core := by
    have h := combine_ctx b.ctx.core t op ty ((memKids t.desc t.member).drop next) b acc
    rw [hc] at h
    change b.ctx.core = s2.ctx.core
    rw [show s2.ctx = b.ctx from h]
  have hst' := hst
  rw [hctx] at hst'
  unfold State.reduce
  dsimp only
  rw [hc]
  dsimp only
  rw [hl, List.isEmpty_nil, Bool.not_true, if_neg Bool.false_ne_true, if_pos hr]
  subst hl
  exact finishColl_ok hst' _

/-- A member's partial goes to its parent's router. -/
theorem reduce_member (hl : left = []) (hr : memParent t.desc t.member ≠ 0xFF)
    (hroom : (((s2.progress 1 acc1 ((memKids t.desc t.member).length - left.length)).die (dieOf b.ctx.core)).partials.filter fun q =>
      q.load == t.load && q.router == memParent t.desc t.member && q.child == t.member).length < 2) :
    let s3 := s2.progress 1 acc1 ((memKids t.desc t.member).length - left.length)
    let s4 := s3.setDie (dieOf b.ctx.core) { s3.die (dieOf b.ctx.core) with partials := (s3.die (dieOf b.ctx.core)).partials ++
      [⟨t.load, memParent t.desc t.member, t.member, t.epoch, sig, acc1⟩] }
    b.reduce x t j op ty sig bc acc next = if bc then collWait (s4.progress 2 acc1 0) else .done (s4.countEpoch j) := by
  intro s3 s4
  unfold State.reduce
  dsimp only
  rw [hc]
  dsimp only
  subst hl
  rw [List.isEmpty_nil, Bool.not_true, if_neg Bool.false_ne_true, if_neg hr, if_neg (Nat.not_le.2 hroom)]

end

end

/-! The commands. -/

section
variable {s : State} {f : E} {c : CoreId} {x : Cmd} (h : HeadRuns s.startTimer c .coll x)
include h

theorem collCmd_done {i : Instr} {body : State → Cmd → CmdRes} {t : State} (hb : body (s.startTimer.asCmd c .coll x) x = .done t) :
    s.collCmd i f body = .next (completed t c .coll x) := command_done h hb

theorem collCmd_wait {i : Instr} {body : State → Cmd → CmdRes} {t : State} (hb : body (s.startTimer.asCmd c .coll x) x = collWait t) :
    s.collCmd i f body = .next (t.cmdBlock s.startTimer c .coll .opn 0 0 0 true) := by
  rw [State.collCmd, command_head h, hb]
  rfl

/-- A command that has failed completes (R378). -/
theorem exec_coll_failing (hx : x.failing = true) :
    (exec (.xred f) s = .next (completed (if ((s.core c).treeAt (f.of 12 2)).loaded then (s.startTimer.asCmd c .coll x).countEpoch (f.of 12 2)
      else s.startTimer.asCmd c .coll x) c .coll x)) ∧
    (exec (.xbcast f) s = .next (completed (if ((s.core c).treeAt (f.of 12 2)).loaded then (s.startTimer.asCmd c .coll x).countEpoch (f.of 12 2)
      else s.startTimer.asCmd c .coll x) c .coll x)) ∧
    (x.acc = [] → exec (.xtree f) s = .next (completed (s.startTimer.asCmd c .coll x) c .coll x)) ∧
    (x.acc ≠ [] → exec (.xtree f) s = .next (completed ((s.startTimer.asCmd c .coll x).setDie (dieOf c)
      (((s.startTimer.asCmd c .coll x).die (dieOf c)).leaveBad (s.core c).asid (descTag (descOf x)) c)) c .coll x)) := by
  obtain ⟨htrees, hasid, -⟩ := s.startTimer_keeps c
  have htree : (s.startTimer.asCmd c .coll x).me.treeAt (f.of 12 2) = (s.core c).treeAt (f.of 12 2) := htrees _
  change (s.startTimer.asCmd c .coll x).me.asid = _ at hasid
  refine ⟨?_, ?_, fun ha => ?_, fun ha => ?_⟩
  · dsimp only [exec, execXred]
    rw [← htree]
    exact collCmd_done h (onEpoch_failing hx _)
  · dsimp only [exec, execXbcast]
    rw [← htree]
    exact collCmd_done h (onEpoch_failing hx _)
  · dsimp only [exec, execXtree]
    refine collCmd_done h ((if_pos hx).trans ?_)
    rw [ha]
    rfl
  · dsimp only [exec, execXtree]
    refine collCmd_done h ((if_pos hx).trans ?_)
    rw [if_neg (by rw [List.isEmpty_iff]; exact ha), hasid]
    rfl

variable (hx : x.failing = false) (hl : ((s.core c).treeAt (f.of 12 2)).loaded = true) (hf : ((s.core c).treeAt (f.of 12 2)).fails = [])
include hx hl hf

omit h in
/-- A command of an epoch runs on its tree where it has not failed. -/
theorem onEpoch_head (run : Tree → CmdRes) :
    (s.startTimer.asCmd c .coll x).onEpoch x (f.of 12 2) run = run ((s.core c).treeAt (f.of 12 2)) := by
  obtain ⟨htrees, -, -⟩ := s.startTimer_keeps c
  exact onEpoch_run (b := s.startTimer.asCmd c .coll x) hx (htrees (f.of 12 2)) hl hf run

/-- XRED once its source has been read, now or before, is its reduction. -/
theorem exec_xred_reduce {t : Tree} (ht : (s.core c).treeAt (f.of 12 2) = t) {s1 : State} {own : List (BitVec 32)} {next : Nat}
    (hin : x.stage = 1 ∧ s1 = s.startTimer.asCmd c .coll x ∧ own = x.acc ∧ next = x.next ∨
      x.stage = 0 ∧ x.sa.toNat % 4 = 0 ∧
      (memParent t.desc t.member = 0xFF ∨ f.of 6 1 = 1 → x.sb.toNat % 4 = 0 ∧
        (s.startTimer.asCmd c .coll x).padOk c c x.sb.toNat (4 * (f.of 0 6 + 1) : Nat) = true) ∧
      (s.startTimer.asCmd c .coll x).padOk c c x.sa.toNat (4 * (f.of 0 6 + 1) : Nat) = true ∧
      ∃ s0 bs, (s.startTimer.asCmd c .coll x).loadPad c .xs c 0 [((x.sa.toNat : Int), 4 * (f.of 0 6 + 1))] = .ok s0 bs ∧
        own = wordsOf (f.of 0 6 + 1) bs ∧ s1 = s0.progress 1 own 0 ∧ next = 0)
    (hd : s1.differing c t t.epoch = 0) :
    s1.ctx.core = c ∧ exec (.xred f) s =
      .next ((s1.reduce x t (f.of 12 2) (f.of 9 3) (f.of 7 2) (f.of 0 12) (f.of 6 1 == 1) own next).close s.startTimer c .coll x) := by
  have hcore : (s.startTimer.asCmd c .coll x).ctx.core = c := rfl
  have hrun := onEpoch_head hx hl hf (f := f) (x := x)
  rw [ht] at hrun
  dsimp only [exec, execXred]
  rw [State.collCmd, command_head h, hrun]
  rcases hin with ⟨hs, rfl, rfl, rfl⟩ | ⟨hs, hsa, hsb, hpa, s0, bs, hld, rfl, rfl, rfl⟩
  · refine ⟨rfl, ?_⟩
    rw [hs, if_neg (by decide), if_pos rfl, agreeing_ok hd]
  · have hc1 : s0.ctx.core = c := by rw [State.loadPad_ctx hld]; rfl
    have hchk : (s.startTimer.asCmd c .coll x).collChecks 4 ((x.sa, 4 * (f.of 0 6 + 1), 0) ::
        if (memParent t.desc t.member == 0xFF || f.of 6 1 == 1) = true then [(x.sb, 4 * (f.of 0 6 + 1), 1)] else []) = none := by
      refine collChecks_ok fun a ha => ?_
      rcases List.mem_cons.1 ha with rfl | ha
      · exact ⟨hsa, hpa⟩
      · split at ha
        · next hr =>
          cases List.mem_singleton.1 ha
          exact hsb ((Bool.or_eq_true_iff.1 hr).imp eq_of_beq eq_of_beq)
        · cases ha
    refine ⟨hc1, ?_⟩
    rw [hs, if_neg (by decide), if_neg (by decide), hchk]
    dsimp only
    rw [hcore, hld]
    dsimp only
    rw [agreeing_ok (b := s0.progress 1 (wordsOf (f.of 0 6 + 1) bs) 0) (by
      rw [show (s0.progress 1 (wordsOf (f.of 0 6 + 1) bs) 0).ctx.core = c from hc1]
      exact hd)]

end

end Sys2Proof.Machine
end

section
/-! PROOF. Epochs, loads and time-outs of trees (O48). -/
namespace Sys2Proof.Machine

section
variable {s : State} {f : E} {c : CoreId} {x : Cmd} (h : HeadRuns s.startTimer c .coll x) (hx : x.failing = false)
include h hx

section
variable (hl : ((s.core c).treeAt (f.of 12 2)).loaded = true) (hf : ((s.core c).treeAt (f.of 12 2)).fails = [])
include hl hf

/-- XRED once its children's partials have been combined: it waits, it is the root, or its partial goes on (R376). -/
theorem exec_xred_combined {t : Tree} (ht : (s.core c).treeAt (f.of 12 2) = t) {s1 s2 : State} {own acc : List (BitVec 32)} {next : Nat} {left : List Nat}
    (hin : x.stage = 1 ∧ s1 = s.startTimer.asCmd c .coll x ∧ own = x.acc ∧ next = x.next ∨
      x.stage = 0 ∧ x.sa.toNat % 4 = 0 ∧
      (memParent t.desc t.member = 0xFF ∨ f.of 6 1 = 1 → x.sb.toNat % 4 = 0 ∧
        (s.startTimer.asCmd c .coll x).padOk c c x.sb.toNat (4 * (f.of 0 6 + 1) : Nat) = true) ∧
      (s.startTimer.asCmd c .coll x).padOk c c x.sa.toNat (4 * (f.of 0 6 + 1) : Nat) = true ∧
      ∃ s0 bs, (s.startTimer.asCmd c .coll x).loadPad c .xs c 0 [((x.sa.toNat : Int), 4 * (f.of 0 6 + 1))] = .ok s0 bs ∧
        own = wordsOf (f.of 0 6 + 1) bs ∧ s1 = s0.progress 1 own 0 ∧ next = 0)
    (hd : s1.differing c t t.epoch = 0)
    (hcomb : State.combine c t (f.of 9 3) (f.of 7 2) ((memKids t.desc t.member).drop next) s1 own = (s2, acc, left)) :
    let s3 := s2.progress 1 acc ((memKids t.desc t.member).length - left.length)
    let waits (w : State) : Out := .next (w.cmdBlock s.startTimer c .coll .opn 0 0 0 true)
    (left ≠ [] → exec (.xred f) s = waits s3) ∧
    (∀ s4 u, left = [] → memParent t.desc t.member = 0xFF → s3.storePad c c 0 [((x.sb.toNat : Int), 4 * acc.length)] (bytesOf acc) = .ok s4 u →
      exec (.xred f) s = .next (completed
        (if f.of 6 1 = 1 then (s4.countEpoch (f.of 12 2)).sendDown c t (f.of 0 12) acc else s4.countEpoch (f.of 12 2)) c .coll x)) ∧
    (left = [] → ¬memParent t.desc t.member = 0xFF →
      ((s3.die (dieOf c)).partials.filter fun q =>
        q.load == t.load && q.router == memParent t.desc t.member && q.child == t.member).length < 2 →
      let s4 := s3.setDie (dieOf c) { s3.die (dieOf c) with partials := (s3.die (dieOf c)).partials ++
        [⟨t.load, memParent t.desc t.member, t.member, t.epoch, f.of 0 12, acc⟩] }
      exec (.xred f) s = if f.of 6 1 = 1 then waits (s4.progress 2 acc 0) else .next (completed (s4.countEpoch (f.of 12 2)) c .coll x)) := by
  intro s3 waits
  obtain ⟨hc1, hexec⟩ := exec_xred_reduce h hx hl hf ht hin hd
  rw [← hc1] at hcomb
  rw [hexec]
  refine ⟨fun hleft => ?_, fun s4 u hleft hr hst => ?_, fun hleft hr hroom => ?_⟩
  · rw [reduce_waits hcomb hleft]
    rfl
  · rw [reduce_root hcomb hleft hr (by rw [hc1]; exact hst), CmdRes.close_done, hc1]
    simp only [beq_iff_eq]
    rfl
  · intro s4
    rw [reduce_member hcomb hleft hr (by rw [hc1]; exact hroom), hc1]
    by_cases hbc : f.of 6 1 = 1
    · rw [if_pos (beq_iff_eq.2 hbc), if_pos hbc]
      rfl
    · rw [if_neg (by rw [beq_iff_eq]; exact hbc), if_neg hbc, CmdRes.close_done]
      rfl

/-- XRED of a member that a result has come down to (R376). -/
theorem exec_xred_down {p : Down} {s1 s2 : State} {u : List Byte} (hs : x.stage = 2)
    (hd : (s.startTimer.asCmd c .coll x).takeDown ((s.core c).treeAt (f.of 12 2)) = some (p, s1))
    (hst : s1.storePad c c 0 [((x.sb.toNat : Int), 4 * p.vals.length)] (bytesOf p.vals) = .ok s2 u) :
    exec (.xred f) s = .next (completed ((s2.countEpoch (f.of 12 2)).sendDown s2.ctx.core ((s.core c).treeAt (f.of 12 2)) (f.of 0 12) p.vals) c .coll x) := by
  dsimp only [exec, execXred]
  refine collCmd_done h ((onEpoch_head hx hl hf _).trans ((if_pos hs).trans ?_))
  exact receiveDown_ok hd hst

/-- XBCAST of the root, its source read now or before (R389). -/
theorem exec_xbcast_root {t : Tree} (ht : (s.core c).treeAt (f.of 12 2) = t) {s1 s2 : State} {ws : List (BitVec 32)} {u : List Byte}
    (hr : memParent t.desc t.member = 0xFF)
    (hin : x.stage = 1 ∧ s1 = s.startTimer.asCmd c .coll x ∧ ws = x.acc ∨
      x.stage = 0 ∧ x.sa.toNat % 4 = 0 ∧ x.sb.toNat % 4 = 0 ∧
      (s.startTimer.asCmd c .coll x).padOk c c x.sa.toNat (4 * (f.of 0 6 + 1) : Nat) = true ∧
      (s.startTimer.asCmd c .coll x).padOk c c x.sb.toNat (4 * (f.of 0 6 + 1) : Nat) = true ∧
      ∃ s0 bs, (s.startTimer.asCmd c .coll x).loadPad c .xs c 0 [((x.sa.toNat : Int), 4 * (f.of 0 6 + 1))] = .ok s0 bs ∧
        ws = wordsOf (f.of 0 6 + 1) bs ∧ s1 = s0.progress 1 ws 0)
    (hd : s1.differing c t t.epoch = 0)
    (hst : s1.storePad c c 0 [((x.sb.toNat : Int), 4 * ws.length)] (bytesOf ws) = .ok s2 u) :
    exec (.xbcast f) s = .next (completed ((s2.countEpoch (f.of 12 2)).sendDown s2.ctx.core t (4096 + f.of 0 6) ws) c .coll x) := by
  have hcore : (s.startTimer.asCmd c .coll x).ctx.core = c := rfl
  have hrun := onEpoch_head hx hl hf (f := f) (x := x)
  rw [ht] at hrun
  have hroot : (memParent t.desc t.member == 0xFF) = true := beq_iff_eq.2 hr
  have hsend (hc : s1.ctx.core = c) : (s1.agreeing t fun _ => s1.finishColl s1 x.sb (f.of 12 2) ws fun s3 => s3.sendDown s3.ctx.core t (4096 + f.of 0 6) ws) =
      .done ((s2.countEpoch (f.of 12 2)).sendDown s2.ctx.core t (4096 + f.of 0 6) ws) := by
    rw [agreeing_ok (by rw [hc]; exact hd)]
    exact finishColl_ok (by rw [hc]; exact hst) _
  dsimp only [exec, execXbcast]
  refine collCmd_done h ((hrun _).trans ?_)
  rcases hin with ⟨hs, rfl, rfl⟩ | ⟨hs, hsa, hsb, hpa, hpb, s0, bs, hld, rfl, rfl⟩
  · rw [hs, if_pos rfl, if_pos hroot]
    exact hsend rfl
  · have hc1 : s0.ctx.core = c := by rw [State.loadPad_ctx hld]; rfl
    have hchk : (s.startTimer.asCmd c .coll x).collChecks 4 ((if (memParent t.desc t.member == 0xFF) = true then [(x.sa, 4 * (f.of 0 6 + 1), 0)] else []) ++
        [(x.sb, 4 * (f.of 0 6 + 1), 1)]) = none := by
      rw [if_pos hroot]
      refine collChecks_ok fun a ha => ?_
      rcases List.mem_cons.1 ha with rfl | ha
      · exact ⟨hsa, hpa⟩
      · cases List.mem_singleton.1 ha
        exact ⟨hsb, hpb⟩
    rw [hs, if_neg (by decide), hchk]
    dsimp only
    rw [hroot, Bool.not_true, if_neg Bool.false_ne_true, hcore, hld]
    exact hsend hc1

/-- XBCAST of a member that a result has come down to (R389). -/
theorem exec_xbcast_member {t : Tree} (ht : (s.core c).treeAt (f.of 12 2) = t) {s1 s2 s3 : State} {p : Down} {u : List Byte}
    (hr : memParent t.desc t.member ≠ 0xFF)
    (hin : x.stage = 1 ∧ s1 = s.startTimer.asCmd c .coll x ∨
      x.stage = 0 ∧ x.sb.toNat % 4 = 0 ∧ (s.startTimer.asCmd c .coll x).padOk c c x.sb.toNat (4 * (f.of 0 6 + 1) : Nat) = true ∧
        s1 = (s.startTimer.asCmd c .coll x).progress 1 [] 0)
    (hd : s1.differing c t t.epoch = 0) (htake : s1.takeDown t = some (p, s2))
    (hst : s2.storePad c c 0 [((x.sb.toNat : Int), 4 * p.vals.length)] (bytesOf p.vals) = .ok s3 u) :
    exec (.xbcast f) s = .next (completed ((s3.countEpoch (f.of 12 2)).sendDown s3.ctx.core t (4096 + f.of 0 6) p.vals) c .coll x) := by
  have hrun := onEpoch_head hx hl hf (f := f) (x := x)
  rw [ht] at hrun
  have hroot : (memParent t.desc t.member == 0xFF) = false := beq_false_of_ne hr
  have hsend (hc : s1.ctx.core = c) : (s1.agreeing t fun _ => s1.receiveDown x t (f.of 12 2) (4096 + f.of 0 6)) =
      .done ((s3.countEpoch (f.of 12 2)).sendDown s3.ctx.core t (4096 + f.of 0 6) p.vals) := by
    rw [agreeing_ok (by rw [hc]; exact hd)]
    exact receiveDown_ok htake (by rw [hc]; exact hst)
  dsimp only [exec, execXbcast]
  refine collCmd_done h ((hrun _).trans ?_)
  rcases hin with ⟨hs, rfl⟩ | ⟨hs, hsb, hpb, rfl⟩
  · rw [hs, if_pos rfl, hroot, if_neg Bool.false_ne_true]
    exact hsend rfl
  · have hchk : (s.startTimer.asCmd c .coll x).collChecks 4 ((if (memParent t.desc t.member == 0xFF) = true then [(x.sa, 4 * (f.of 0 6 + 1), 0)] else []) ++
        [(x.sb, 4 * (f.of 0 6 + 1), 1)]) = none := by
      rw [hroot, if_neg Bool.false_ne_true, List.nil_append]
      refine collChecks_ok fun a ha => ?_
      cases List.mem_singleton.1 ha
      exact ⟨hsb, hpb⟩
    rw [hs, if_neg (by decide), hchk]
    dsimp only
    rw [hroot, Bool.not_false, if_pos rfl]
    exact hsend rfl

end

/-! XTREE. -/

omit h hx in
/-- A load whose members have all come with the same bytes (R374). -/
theorem handshake_ok {b : State} {j : Nat} {d : List Byte} (hms : ∀ m ∈ memberCores d b.ctx.core, b.loading m b.me.asid (descTag d) ≠ none)
    (ho : b.otherBytes b.ctx.core d = 0) (hh : b.tagHeld b.ctx.core b.me.asid (descTag d) (memberCores d b.ctx.core) = false) :
    b.handshake j d = .done (({ State.loadOthers (descTag d) b.seq (memberCores d b.ctx.core) b with seq := b.seq + 1 }).loadTree b.ctx.core j d b.seq) := by
  have hno : ((memberCores d b.ctx.core).any fun m => (b.loading m b.me.asid (descTag d)).isNone) = false :=
    List.any_eq_false.2 fun m hm => by
      rw [Option.isNone_iff_eq_none]
      exact hms m hm
  unfold State.handshake
  dsimp only
  rw [hno, if_neg Bool.false_ne_true, if_neg (Classical.not_not.2 ho), hh, if_neg Bool.false_ne_true]

theorem exec_xtree {s2 : State} {desc : List Byte}
    (hin : x.stage = 1 ∧ s2 = s.startTimer.asCmd c .coll x ∧ desc = descOf x ∨
      x.stage = 0 ∧ x.sa.toNat % 8 = 0 ∧ (s.startTimer.asCmd c .coll x).padOk c c x.sa.toNat 8 = true ∧
      ((s.startTimer.asCmd c .coll x).padOk c c x.sa.toNat (8 + 16 * ((s.core c).spad.read x.sa.toNat).toNat : Nat) = true ∧
        ∃ s1, (s.startTimer.asCmd c .coll x).loadPad c .xs c 0 [((x.sa.toNat : Int), 8 + 16 * ((s.core c).spad.read x.sa.toNat).toNat)] = .ok s1 desc ∧
          s2 = s1.progress 1 (wordsOf ((8 + 16 * ((s.core c).spad.read x.sa.toNat).toNat) / 4) desc) 0) ∧
      descOk desc (localOf c) = true ∧
      (∀ i, i < 4 → i ≠ f.of 12 2 → ((s.core c).treeAt i).loaded = true → descTag ((s.core c).treeAt i).desc ≠ descTag desc) ∧
      (s.die (dieOf c)).badTree (s.core c).asid (descTag desc) c = none)
    (hms : ∀ m ∈ memberCores desc c, s2.loading m s2.me.asid (descTag desc) ≠ none) (ho : s2.otherBytes c desc = 0)
    (hh : s2.tagHeld c s2.me.asid (descTag desc) (memberCores desc c) = false) :
    exec (.xtree f) s = .next (completed (({ State.loadOthers (descTag desc) s2.seq (memberCores desc c) s2 with seq := s2.seq + 1 }).loadTree c
      (f.of 12 2) desc s2.seq) c .coll x) := by
  obtain ⟨htrees, hasid, hspad⟩ := s.startTimer_keeps c
  have hcore : (s.startTimer.asCmd c .coll x).ctx.core = c := rfl
  have hhand (hc : s2.ctx.core = c) : s2.handshake (f.of 12 2) desc =
      .done (({ State.loadOthers (descTag desc) s2.seq (memberCores desc c) s2 with seq := s2.seq + 1 }).loadTree c (f.of 12 2) desc s2.seq) := by
    subst hc
    exact handshake_ok hms ho hh
  dsimp only [exec, execXtree]
  refine collCmd_done h ?_
  rw [hx, if_neg Bool.false_ne_true]
  rcases hin with ⟨hs, rfl, rfl⟩ | ⟨hs, ha, hp8, ⟨hplen, s1, hld, rfl⟩, hdesc, hsecond, hbad⟩
  · rw [hs, if_pos rfl]
    exact hhand rfl
  · have hc1 : s1.ctx.core = c := by rw [State.loadPad_ctx hld]; rfl
    have hread : (s.startTimer.asCmd c .coll x).me.spad = (s.core c).spad := hspad
    have hme : (s.startTimer.asCmd c .coll x).me.asid = (s.core c).asid := hasid
    have hdie : (s.startTimer.asCmd c .coll x).die (dieOf c) = s.die (dieOf c) := by
      obtain ⟨_, _, hq⟩ := s.startTimer_frame
      change s.startTimer.die (dieOf c) = _
      rw [hq]
      rfl
    have hno : ((List.range 4).any fun i => i != f.of 12 2 && ((s.startTimer.asCmd c .coll x).me.treeAt i).loaded &&
        descTag ((s.startTimer.asCmd c .coll x).me.treeAt i).desc == descTag desc) = false := by
      refine List.any_eq_false.2 fun i hi hp => ?_
      obtain ⟨hp, htag⟩ := Bool.and_eq_true_iff.1 hp
      obtain ⟨hne, hload⟩ := Bool.and_eq_true_iff.1 hp
      rw [show (s.startTimer.asCmd c .coll x).me.treeAt i = _ from htrees i] at hload htag
      exact hsecond i (List.mem_range.1 hi) (bne_iff_ne.1 hne) hload (eq_of_beq htag)
    have hchk (n : Nat) (hp : (s.startTimer.asCmd c .coll x).padOk c c x.sa.toNat n = true) :
        (s.startTimer.asCmd c .coll x).collChecks 8 [(x.sa, n, 0)] = none := collChecks_ok fun a hm => by
      cases List.mem_singleton.1 hm
      exact ⟨ha, hp⟩
    rw [hs, if_neg (by decide), hchk 8 hp8]
    dsimp only
    rw [hread, hchk _ hplen, hcore]
    dsimp only
    rw [hld]
    dsimp only
    rw [hdesc, Bool.not_true, if_neg Bool.false_ne_true, hno, if_neg Bool.false_ne_true, hdie, hme, hbad]
    exact hhand hc1

end

theorem exec_xrstat {s : State} {f : E} (hg : s.guard = true) (hq : s.me.collQ = []) :
    exec (.xrstat f) s = .next (s.arriveS f.d (if f.of 0 1 = 1 then
      (if (s.me.treeAt (f.of 12 2)).loaded then (match (s.me.treeAt (f.of 12 2)).fails with | [] => 0 | e :: _ => e.2.2) else 0)
        else (s.me.treeAt (f.of 12 2)).status)).retire := by
  dsimp only [exec, execXrstat]
  refine issue_done hg ?_
  rw [hq, List.isEmpty_nil, Bool.not_true, if_neg Bool.false_ne_true]
  refine congrArg (fun v => Res.done (s.arriveS f.d v)) ?_
  split
  · cases (s.me.treeAt (f.of 12 2)).fails with
    | nil => exact (ite_self _).symm
    | cons e l => rfl
  · rfl

/-- A head whose timer has passed its limit (R380 to R382). -/
theorem exec_redTimeout {s : State} {c : CoreId} {x : Cmd} {rest : List Cmd} (hu : s.ctx.ev.unit = c.val) (hq : (s.core c).collQ = x :: rest)
    (hlim : x.limit ≠ 0) (ht : x.limit + 1 < x.timer) (htr : x.trapped = false) (hx : x.failing = false) :
    exec .redTimeout s = .next (s.collExpires c x none) := by
  obtain ⟨hlt, hc⟩ := event_core hu
  have hout : (x.timedOut && !x.trapped && !x.failing) = true := by
    rw [Cmd.timedOut, htr, hx, bne_iff_ne.2 hlim, decide_eq_true ht]
    rfl
  dsimp only [exec, execRedTimeout]
  rw [dif_pos hlt, hc, hq]
  exact if_pos hout

theorem collExpires_epoch {s : State} {c : CoreId} {x : Cmd} {j r : Nat} (hr : redOf x = some (j, r)) (hl : ((s.core c).treeAt j).loaded = true) :
    s.collExpires c x none = s.failEpoch c ((s.core c).treeAt j) ((s.core c).treeAt j).epoch 0x24
      (s.missingMembers c ((s.core c).treeAt j) ((s.core c).treeAt j).epoch) (c, none) := by
  rw [State.collExpires, hr]
  dsimp only
  rw [hl, Bool.not_true, if_neg Bool.false_ne_true]
  rfl

theorem collExpires_load {s : State} {c : CoreId} {x : Cmd} (hr : redOf x = none) (hd : descOk ((s.core c).treeDesc x) (localOf c) = true) :
    s.collExpires c x none = s.timeoutLoad c ((s.core c).treeDesc x) (c, none) := by
  rw [State.collExpires, hr]
  exact if_pos hd

/-- Settles O48: each command by its body at the head, with the member's tree and the checks that its premises meet. -/
theorem collectivesComplete : Obligations.CollectivesComplete := by
  intro s f c x j n t d kids root b src waits
  refine ⟨fun h hx => exec_coll_failing h hx, fun h hx hl hf => ⟨?_, ?_, ?_, ?_⟩, ?_, fun hg hq => exec_xrstat hg hq, ?_⟩
  · intro s1 own next s2 acc left hin hd hcomb s3
    exact exec_xred_combined h hx hl hf rfl hin hd hcomb
  · intro s1 ws s2 u hr hin hd hst
    exact exec_xbcast_root h hx hl hf rfl hr hin hd hst
  · intro s1 p s2 s3 u hr hin hd htake hst
    exact exec_xbcast_member h hx hl hf rfl hr hin hd htake hst
  · intro p s1 s2 u hs hd hst
    exact exec_xred_down h hx hl hf hs hd hst
  · intro s2 desc h hx hin ms hms ho hh
    exact exec_xtree h hx hin hms ho hh
  · intro rest hu hq hlim ht htr hx
    rw [exec_redTimeout hu hq hlim ht htr hx]
    exact ⟨fun r hr hl => congrArg _ (collExpires_epoch hr hl), fun hr hd => congrArg _ (collExpires_load hr hd)⟩

end Sys2Proof.Machine
end

section
/-! PROOF. Link commands and sends (O49). -/
namespace Sys2Proof.Machine

section
variable {s b : State} {f : E} {c : CoreId} {x : Cmd} (h : HeadRuns s c .link x) (hf : (s.strm c .xs).faults.filter linkFault = [])
  (hb : (s.asCmd c .link x).drainStream c .xs = b)
include h hf hb

omit h hf in
theorem linkCmd_ctx : b.ctx.core = c ∧ b.walker = .strm c .xs := by
  have hctx : b.ctx = (s.asCmd c .link x).ctx := by rw [← hb, State.drainStream_ctx]
  refine ⟨by rw [hctx]; rfl, ?_⟩
  rw [State.walker, hctx]
  rfl

/-- A link command runs with no fault of the XS pending, behind the stream's host stores (R403). -/
theorem linkCmd_body {i : Instr} {more : State → List Word} {body : State → Cmd → CmdRes} :
    s.linkCmd i f more body = .next ((body b x).close s c .link x) := by
  have hnone : ((s.asCmd c .link x).strm c .xs).faults.filter linkFault = [] := hf
  have hcore : (s.asCmd c .link x).ctx.core = c := rfl
  rw [State.linkCmd, command_head h]
  dsimp only
  rw [hcore, hnone, oldestFault, hb]

theorem linkCmd_done {i : Instr} {more : State → List Word} {body : State → Cmd → CmdRes} {t : State} (hbody : body b x = .done t) :
    s.linkCmd i f more body = .next (completed t c .link x) := by
  rw [linkCmd_body h hf hb, hbody, CmdRes.close_done]
  rfl

theorem linkCmd_leave {i : Instr} {more : State → List Word} {body : State → Cmd → CmdRes} {t : State} (hbody : body b x = .leave t) :
    s.linkCmd i f more body = .next (t.popCmd c .link) := by
  rw [linkCmd_body h hf hb, hbody, CmdRes.close_leave]

/-! LSEND. -/

theorem exec_lsend_mem {p : Peer} {s1 : State} {ps : List Piece} (hz : f.of 6 1 = 0) (hpad : f.of 7 1 = 0) (hp : b.peerOf x (f.of 0 6) false = .ok p)
    (ha : x.sa.toNat % 8 = 0 ∧ (x.sb.extractLsb' 0 32).toNat % 8 = 0 ∧ (x.sb.extractLsb' 32 32).toNat % 8 = 0)
    (hs : b.sourceCheck false x.sa.toNat (x.sb.extractLsb' 0 32).toNat = (s1, .ok ps)) :
    exec (.lsend f) s = .next ((s1.sendNow x p (f.of 0 6) false none (x.sb.extractLsb' 0 32).toNat).popCmd c .link) := by
  have hal : ¬(x.sa.toNat % 8 ≠ 0 ∨ (x.sb.extractLsb' 0 32).toNat % 8 ≠ 0 ∨ (x.sb.extractLsb' 32 32).toNat % 8 ≠ 0) := by omega
  dsimp only [exec, execLsend]
  refine linkCmd_leave h hf hb ?_
  rw [hp]
  dsimp only
  rw [hz, if_neg (by decide), if_neg hal, hpad, if_neg (by decide), hs]

theorem exec_lsend_pad {p : Peer} (hz : f.of 6 1 = 0) (hpad : f.of 7 1 = 1) (hp : b.peerOf x (f.of 0 6) false = .ok p)
    (ha : x.sa.toNat % 8 = 0 ∧ (x.sb.extractLsb' 0 32).toNat % 8 = 0 ∧ (x.sb.extractLsb' 32 32).toNat % 8 = 0)
    (hheld : b.me.padHeld [((x.sa.toNat : Int), (x.sb.extractLsb' 0 32).toNat)] = false)
    (hok : (x.sb.extractLsb' 0 32).toNat = 0 ∨ b.padOk c c x.sa.toNat (x.sb.extractLsb' 0 32).toNat = true) :
    exec (.lsend f) s = .next ((b.sendNow x p (f.of 0 6) true none (x.sb.extractLsb' 0 32).toNat).popCmd c .link) := by
  have hal : ¬(x.sa.toNat % 8 ≠ 0 ∨ (x.sb.extractLsb' 0 32).toNat % 8 ≠ 0 ∨ (x.sb.extractLsb' 32 32).toNat % 8 ≠ 0) := by omega
  obtain ⟨hcore, -⟩ := linkCmd_ctx hb
  have hs : b.sourceCheck true x.sa.toNat (x.sb.extractLsb' 0 32).toNat = (b, .ok []) := by
    unfold State.sourceCheck
    dsimp only
    rw [Bool.not_true, if_neg Bool.false_ne_true, hcore]
    refine if_pos (Bool.or_eq_true_iff.2 (hok.imp_left fun h0 => decide_eq_true h0))
  dsimp only [exec, execLsend]
  refine linkCmd_leave h hf hb ?_
  rw [hp]
  dsimp only
  rw [hz, if_neg (by decide), if_neg hal, hpad, if_pos (beq_self_eq_true 1), hheld, if_neg Bool.false_ne_true, hs]

end

/-- A compressed send whose ranges are translated, and whose words may be read (R409). -/
theorem sendCompressed_ok {b s0 s1 m s3 s4 : State} {x : Cmd} {c : CoreId} {p : Peer} {post len : Nat} {pad : Bool} {res : Word} {ps rs : List Piece}
    {bs : List Byte} (hcore : b.ctx.core = c) (hlen : (x.sb.extractLsb' 0 32).toNat = len) (hres : x.more[0]?.getD 0 = res)
    (hheld : pad = true → b.me.padHeld [((x.sa.toNat : Int), len)] = false) (hs : b.sourceCheck pad x.sa.toNat len = (s0, .ok ps))
    (hr : s0.spanOk .atomic res.toNat len = (s1, .ok rs))
    (hread : (if pad then ((s1.mark b.walker .load ps).mark b.walker .atomic rs, b.me.padRead x.sa.toNat len)
      else State.readSeen b.me.jobid ps ((s1.mark b.walker .load ps).mark b.walker .atomic rs)) = (m, bs))
    (h3 : m.consume c .xs false (if pad then 0 else 2) x.pc (if pad then b.me.padBad c x.sa.toNat len
      else ((s1.mark b.walker .load ps).mark b.walker .atomic rs).badLines ps) = (s3, none))
    (h4 : s3.consume c .xs false 2 x.pc (((s1.mark b.walker .load ps).mark b.walker .atomic rs).badLines rs) = (s4, none)) :
    let out := compressAll (wordsAt (if pad then List.replicate (len / 4) none else wordPlaces ps) bs)
      (wordsAt (wordPlaces rs) (((s1.mark b.walker .load ps).mark b.walker .atomic rs).readClean rs)) []
    b.sendCompressed x p post pad = .leave ((State.writePieces b.me.jobid s4 rs out.2).sendNow x p post pad (some out.1) (len / 2)) := by
  have hno : (pad && b.me.padHeld [((x.sa.toNat : Int), len)]) = false := by
    cases pad with
    | false => rfl
    | true => exact hheld rfl
  intro out
  unfold State.sendCompressed
  dsimp only
  rw [hlen, hres, hno, if_neg Bool.false_ne_true, hs]
  dsimp only
  rw [hr]
  dsimp only
  rw [hread]
  dsimp only
  rw [hcore, h3]
  dsimp only
  rw [h4]

section
variable {s b : State} {f : E} {c : CoreId} {x : Cmd} (h : HeadRuns s c .link x) (hf : (s.strm c .xs).faults.filter linkFault = [])
  (hb : (s.asCmd c .link x).drainStream c .xs = b)
include h hf hb

theorem exec_lsend_compressed {p : Peer} {t : State} (hz : f.of 6 1 = 1) (hp : b.peerOf x (f.of 0 6) false = .ok p) (h1 : x.sa.toNat % 4 = 0)
    (h2 : (x.more[0]?.getD 0).toNat % 4 = 0) (h3 : (x.sb.extractLsb' 0 32).toNat % 8 = 0) (h4 : (x.sb.extractLsb' 32 32).toNat % 4 = 0)
    (hr : b.sendCompressed x p (f.of 0 6) (f.of 7 1 == 1) = .leave t) : exec (.lsend f) s = .next (t.popCmd c .link) := by
  have hal : ¬((x.sb.extractLsb' 0 32).toNat % 8 ≠ 0 ∨ (x.sb.extractLsb' 32 32).toNat % 4 ≠ 0) := by omega
  dsimp only [exec, execLsend]
  refine linkCmd_leave h hf hb ?_
  rw [hp]
  dsimp only
  rw [hz, if_pos rfl, if_neg (Classical.not_not.2 h1), if_neg (Classical.not_not.2 h2), if_neg hal]
  exact hr

/-! LARM and LRECV. -/

theorem exec_larm {p : Peer} {s1 : State} {ps : List Piece} (hp : b.peerOf x (f.of 0 6) true = .ok p)
    (ha : x.sa.toNat % 8 = 0 ∧ (x.sb.extractLsb' 0 32).toNat % 8 = 0 ∧ (x.sb.extractLsb' 32 32).toNat % 8 = 0)
    (hs : b.sourceOk x.sa.toNat (x.sb.extractLsb' 0 32).toNat = (s1, .ok ps))
    (hctr : (x.sd.extractLsb' 8 8).toNat < ((s1.die (dieOf c)).grant b.me.asid).nctr) (hroom : (s1.die (dieOf c)).triggers.length < 1024)
    (hquota : ((s1.die (dieOf c)).triggers.filter fun t => t.asid == b.me.asid).length < ((s1.die (dieOf c)).grant b.me.asid).trigq) :
    let armed := State.setDie { s1 with seq := s1.seq + 1 } (dieOf c) { s1.die (dieOf c) with
      triggers := (s1.die (dieOf c)).triggers ++ [⟨b.me.asid, (x.sd.extractLsb' 8 8).toNat, (x.sd.extractLsb' 32 32).toNat, x, b.me.jobid, c, s1.seq⟩] }
    exec (.larm f) s = .next ((armed.counterEvent (dieOf c) b.me.asid (x.sd.extractLsb' 8 8).toNat
      ((s1.die (dieOf c)).ctr b.me.asid (x.sd.extractLsb' 8 8).toNat)).popCmd c .link) := by
  intro armed
  have hal : ¬(x.sa.toNat % 8 ≠ 0 ∨ (x.sb.extractLsb' 0 32).toNat % 8 ≠ 0 ∨ (x.sb.extractLsb' 32 32).toNat % 8 ≠ 0) := by omega
  have hfull : ¬(1024 ≤ (s1.die (dieOf c)).triggers.length ∨
      ((s1.die (dieOf c)).grant b.me.asid).trigq ≤ ((s1.die (dieOf c)).triggers.filter fun t => t.asid == b.me.asid).length) := by omega
  obtain ⟨hcore, -⟩ := linkCmd_ctx hb
  dsimp only [exec, execLarm]
  refine linkCmd_leave h hf hb ?_
  rw [hp]
  dsimp only
  rw [if_neg hal, hs]
  dsimp only
  rw [hcore, if_neg (Nat.not_le.2 hctr), if_neg hfull]

theorem exec_larmDis (hctr : (x.sd.extractLsb' 8 8).toNat < ((b.die (dieOf c)).grant b.me.asid).nctr) :
    exec (.larmDis f) s = .next (completed (b.setDie (dieOf c) { b.die (dieOf c) with
      triggers := (b.die (dieOf c)).triggers.filter fun t => !(t.asid == b.me.asid && t.ctr == (x.sd.extractLsb' 8 8).toNat) }) c .link x) := by
  obtain ⟨hcore, -⟩ := linkCmd_ctx hb
  dsimp only [exec, execLarmDis]
  refine linkCmd_done h hf hb ?_
  rw [hcore, if_neg (Nat.not_le.2 hctr)]

theorem exec_lrecv_close (hlen : (x.sb.extractLsb' 0 32).toNat = 0) :
    exec (.lrecv f) s = .next (completed (b.setDie (dieOf c) ((b.die (dieOf c)).dropPost b.me.asid (f.of 0 6))) c .link x) := by
  obtain ⟨hcore, -⟩ := linkCmd_ctx hb
  dsimp only [exec, execLrecv]
  refine linkCmd_done h hf hb ((if_pos hlen).trans ?_)
  rw [hcore]

theorem exec_lrecv_open {s1 : State} {ps : List Piece} (hlen : (x.sb.extractLsb' 0 32).toNat ≠ 0) (hpost : (b.die (dieOf c)).post b.me.asid (f.of 0 6) = none)
    (hcode : (x.sb.extractLsb' 40 4).toNat ≤ 9) (ha : x.sa.toNat % 128 = 0)
    (hchunk : (x.sb.extractLsb' 0 32).toNat % (128 * 2 ^ (x.sb.extractLsb' 40 4).toNat) = 0)
    (hctr : (x.sb.extractLsb' 32 8).toNat < ((b.die (dieOf c)).grant b.me.asid).nctr)
    (hx : b.xlate (.strm c .xs) b.me.asid.toNat (userOf c) .store x.sa.toNat (x.sb.extractLsb' 0 32).toNat = (s1, .ok ps)) :
    let m := s1.mark (.strm c .xs) .store ps
    exec (.lrecv f) s = .next (completed ((m.setDie (dieOf c) { m.die (dieOf c) with
      posts := ⟨b.me.asid, f.of 0 6, x.sa.toNat, (x.sb.extractLsb' 0 32).toNat, 128 * 2 ^ (x.sb.extractLsb' 40 4).toNat, (x.sb.extractLsb' 32 8).toNat, []⟩ ::
        (m.die (dieOf c)).posts }).drainPorts) c .link x) := by
  intro m
  obtain ⟨hcore, hwalk⟩ := linkCmd_ctx hb
  have hal : ¬(x.sa.toNat % 128 ≠ 0 ∨ (x.sb.extractLsb' 0 32).toNat % (128 * 2 ^ (x.sb.extractLsb' 40 4).toNat) ≠ 0) := by
    rintro (h1 | h1)
    · exact h1 ha
    · exact h1 hchunk
  dsimp only [exec, execLrecv]
  refine linkCmd_done h hf hb ((if_neg hlen).trans ?_)
  rw [hcore, hpost, Option.isSome_none, if_neg Bool.false_ne_true, if_neg (Nat.not_lt.2 hcode), if_neg hal, if_neg (Nat.not_le.2 hctr), hwalk, hx]

end

theorem linkCommands_rule : LinkCommandsCompleteRule := by
  intro s f c x h hf b d asid post len roff ctr even
  have hb : (s.asCmd c .link x).drainStream c .xs = b := rfl
  refine ⟨fun p s1 ps hz hpad hp ha hs => exec_lsend_mem h hf hb hz hpad hp ha hs, fun p hz hpad hp ha hheld hok => exec_lsend_pad h hf hb hz hpad hp ha hheld hok,
    ?_, ⟨?_, fun hctr => exec_larmDis h hf hb hctr⟩, fun hlen => exec_lrecv_close h hf hb hlen, ?_⟩
  · intro p s0 s1 ps rs m bs s3 s4 hz hp h1 pad w res h2 h3 h4 hheld hs hr s2 hread hc3 hc4 out
    obtain ⟨hcore, hwalk⟩ := linkCmd_ctx hb
    have hsent := sendCompressed_ok (p := p) (post := post) (pad := pad) (s3 := s3) (s4 := s4) (m := m) (bs := bs) (ps := ps) (rs := rs) hcore rfl rfl hheld hs hr
      (by rw [hwalk]; exact hread) (by rw [hwalk]; exact hc3) (by rw [hwalk]; exact hc4)
    rw [hwalk] at hsent
    exact exec_lsend_compressed h hf hb hz hp h1 h2 h3 h4 hsent
  · intro p s1 ps hp ha hs hctr hroom hquota armed
    exact exec_larm h hf hb hp ha hs hctr hroom hquota
  · intro s1 ps ctr code chunk hlen hpost hcode ha hchunk hctr hx m
    exact exec_lrecv_open h hf hb hlen hpost hcode ha hchunk hctr hx

theorem sendEnters_rule : SendEntersRule := by
  intro s x
  refine ⟨fun hlen hup => ?_, fun hlen => ?_, fun hlen hup => ?_⟩
  · rw [State.enterSend, if_neg hlen, hup, Bool.not_true, if_neg Bool.false_ne_true]
  · have hjob (k : Core → Core) : (s.onJob x.jobid k).sends = s.sends := by
      unfold State.onJob
      split <;> rfl
    rw [State.enterSend, if_pos hlen, State.endSend]
    cases x.sem with
    | none => rfl
    | some n => exact hjob _
  · rw [State.enterSend, if_neg hlen, hup, Bool.not_false, if_pos rfl]
    rfl

/-- Settles O49: each command by its body at the head, past the checks that its premises meet; and the entry of a send. -/
theorem linkCommandsAndSends : Obligations.LinkCommandsAndSends := ⟨linkCommands_rule, sendEnters_rule⟩

end Sys2Proof.Machine
end

section
/-! PROOF. The link instructions of the XS (O50). -/
namespace Sys2Proof.Machine

section
variable {s : State} {f : E} (hg : s.guard = true) (hq : s.me.linkQ = []) (hf : s.str.faults.filter linkFault = [])
include hg hq hf

/-- A link instruction of the XS runs with no link command before it and no fault pending (log entry 46). -/
theorem linkOwn_eq (body : State → Res) : s.linkOwn body = (body s).finish s := by
  have hp : s.raisePending linkFault body = body s := State.raisePending_none (fun x hx => Bool.eq_false_iff.2 (List.filter_eq_nil_iff.1 hf x hx)) body
  rw [State.linkOwn, State.issue_true hg, hq, List.isEmpty_nil, Bool.not_true, if_neg Bool.false_ne_true, hp]

theorem linkOwn_done {body : State → Res} {t : State} (hb : body s = .done t) : s.linkOwn body = .next t.retire := by
  rw [linkOwn_eq hg hq hf, hb, Res.finish_done]

section
variable (hn : (s.getS f.b).toNat % 256 < ((s.die (dieOf s.ctx.core)).grant s.me.asid).nctr)
include hn

omit hg hq hf in
/-- An LCTR of a counter that the job is granted. -/
theorem counter_ok (go : Nat → Nat → Res) :
    s.counter f go = go ((s.getS f.b).toNat % 256) ((s.die (dieOf s.ctx.core)).ctr s.me.asid ((s.getS f.b).toNat % 256)) := by
  rw [State.counter]
  exact if_neg (Nat.not_le.2 hn)

theorem exec_lctrRd : exec (.lctrRd f) s =
    .next (s.arriveS f.d (BitVec.ofNat 64 ((s.die (dieOf s.ctx.core)).ctr s.me.asid ((s.getS f.b).toNat % 256)))).retire := by
  dsimp only [exec, execLctrRd]
  exact linkOwn_done hg hq hf (counter_ok hn _)

theorem exec_lctrWait (hw : s.granted .link = none) (hv : (s.getS f.a).toNat % 2 ^ 32 ≤ (s.die (dieOf s.ctx.core)).ctr s.me.asid ((s.getS f.b).toNat % 256)) :
    exec (.lctrWait f) s = .next (s.arriveS f.d (BitVec.ofNat 64 ((s.die (dieOf s.ctx.core)).ctr s.me.asid ((s.getS f.b).toNat % 256)))).retire := by
  dsimp only [exec, execLctrWait]
  refine linkOwn_done hg hq hf ((counter_ok hn _).trans ?_)
  rw [hw]
  exact if_pos hv

theorem exec_lctrWait_granted {w : Word} (hw : s.granted .link = some w) : exec (.lctrWait f) s = .next (s.arriveS f.d w).retire := by
  dsimp only [exec, execLctrWait]
  refine linkOwn_done hg hq hf ((counter_ok hn _).trans ?_)
  rw [hw]

theorem counterWrite_ok (new : Nat → Nat → Nat) : s.counterWrite f new =
    .next ((((s.drainStream s.ctx.core s.ctx.strm).counterEvent (dieOf s.ctx.core) s.me.asid ((s.getS f.b).toNat % 256)
      (new ((s.die (dieOf s.ctx.core)).ctr s.me.asid ((s.getS f.b).toNat % 256)) ((s.getS f.a).toNat % 2 ^ 32))).arriveS f.d
        (BitVec.ofNat 64 ((s.die (dieOf s.ctx.core)).ctr s.me.asid ((s.getS f.b).toNat % 256)))).retire) :=
  linkOwn_done hg hq hf (counter_ok hn _)

end

theorem exec_lctrRd_refused (hn : ((s.die (dieOf s.ctx.core)).grant s.me.asid).nctr ≤ (s.getS f.b).toNat % 256) :
    exec (.lctrRd f) s = .next (s.raiseOwn s.ctx.core s.ctx.strm { cause := 0x11 }) := by
  dsimp only [exec, execLctrRd]
  rw [linkOwn_eq hg hq hf, State.counter, if_pos hn]
  rfl

theorem exec_lstep (hv : (s.getS f.a).toNat ≤ s.gsc.toNat) : exec (.lstep f) s = .next (s.arriveS f.d s.gsc).retire := by
  dsimp only [exec, execLstep]
  exact linkOwn_done hg hq hf (if_pos hv)

theorem exec_lstat_link (h0 : f.of 0 2 = 0) (hv : (s.getS f.a).toNat ≤ 11) :
    exec (.lstat f) s = .next (s.arriveS f.d (s.link (s.getS f.a).toNat).word).retire := by
  dsimp only [exec, execLstat]
  refine linkOwn_done hg hq hf ?_
  rw [h0]
  exact if_neg (Nat.not_lt.2 hv)

theorem exec_lstat_post (h1 : f.of 0 2 = 1) (hv : (s.getS f.a).toNat ≤ 63) :
    exec (.lstat f) s = .next (s.arriveS f.d
      (match (s.die (dieOf s.ctx.core)).post s.me.asid (s.getS f.a).toNat with | some p => p.word | none => 0)).retire := by
  dsimp only [exec, execLstat]
  refine linkOwn_done hg hq hf ?_
  rw [h1]
  exact if_neg (Nat.not_lt.2 hv)

theorem exec_lstat_triggers (h2 : f.of 0 2 = 2) : exec (.lstat f) s = .next (s.arriveS f.d ((s.die (dieOf s.ctx.core)).trigWord s.me.asid)).retire := by
  dsimp only [exec, execLstat]
  refine linkOwn_done hg hq hf ?_
  rw [h2]
  rfl

end

/-- Settles O50: each instruction by its own case, with nothing before it. -/
theorem linkInstructionsComplete : Obligations.LinkInstructionsComplete := by
  intro s f hg hq hf d n v a out
  refine ⟨fun hn => ⟨exec_lctrRd hg hq hf hn, exec_lctrWait hg hq hf hn, fun w => exec_lctrWait_granted hg hq hf hn,
    counterWrite_ok hg hq hf hn fun _ v => v,
    counterWrite_ok hg hq hf hn fun old v => min (old + v) 0xFFFFFFFF⟩, exec_lctrRd_refused hg hq hf, exec_lstep hg hq hf, exec_lstat_link hg hq hf,
    exec_lstat_post hg hq hf, exec_lstat_triggers hg hq hf⟩

end Sys2Proof.Machine
end

section
/-! PROOF. The events of the links. -/
namespace Sys2Proof.Machine
open Sys2Proof

theorem State.link_setLink {s : State} {l : Nat} (hl : l < 12) (k : Link) : (s.setLink l k).link l = k := by
  have hs : l < (s.links.setIfInBounds l k).toList.length := by simpa using hl
  rw [State.link, State.setLink, List.getElem?_eq_getElem hs]
  simp

section
variable {s : State} {l : Nat} (hu : s.ctx.ev.unit = l) (hl : l < 12)
include hu hl

/-! An arriving message (R397). -/

section
variable {m : LinkMsg} (hd : s.ctx.ev.data = .msg m) (hk : (s.link l).arrived = [])
include hd hk

/-- A message that arrives at a port with none waiting is looked at, alone. -/
theorem exec_linkMessageArrival :
    exec .linkMessageArrival s = .next (State.drainPort l 1 (s.setLink l { s.link l with arrived := [m] })) := by
  dsimp only [exec, execLinkMessageArrival]
  rw [hu, if_pos hl, hd]
  dsimp only
  rw [hk]
  rfl

theorem exec_linkMessageArrival_refusedSend (hr : (s.link l).refused.any (fun x => sameSend x m) = true) :
    exec .linkMessageArrival s =
      .next ((s.setLink l { s.link l with arrived := [m] }).setLink l { s.link l with arrived := [], waited := 0 }) := by
  rw [exec_linkMessageArrival hu hl hd hk, State.drainPort]
  simp only [State.link_setLink hl, hr, if_true, State.drainPort]

section
variable (hr : (s.link l).refused.any (fun x => sameSend x m) = false)
include hr

theorem exec_linkMessageArrival_waits (hp : (s.setLink l { s.link l with arrived := [m] }).perform l m = none) :
    exec .linkMessageArrival s = .next (s.setLink l { s.link l with arrived := [m] }) := by
  rw [exec_linkMessageArrival hu hl hd hk, State.drainPort]
  simp only [State.link_setLink hl, hr, Bool.false_eq_true, if_false, hp]

theorem exec_linkMessageArrival_performed {t : State} {code : Nat} (hp : (s.setLink l { s.link l with arrived := [m] }).perform l m = some (t, code)) :
    exec .linkMessageArrival s =
      .next (if code = 0 then (t.setLink l { t.link l with arrived := [], waited := 0, refused := none }).answer (.performed l)
        else (t.setLink l { t.link l with arrived := [], waited := 0, refused := some m }).answer (.refused l code)) := by
  rw [exec_linkMessageArrival hu hl hd hk, State.drainPort]
  simp only [State.link_setLink hl, hr, Bool.false_eq_true, if_false, hp]
  cases code with
  | zero => rfl
  | succ n => rfl

end

end

theorem exec_postWaitTimeout {m : LinkMsg} (hk : (s.link l).arrived = [m]) : exec .postWaitTimeout s =
    .next ((s.setLink l { s.link l with arrived := [], waited := 0, refused := some m }).answer (.refused l 1)) := by
  dsimp only [exec, execPostWaitTimeout]
  rw [hu, if_pos hl, hk]
  rfl

/-! A peer's access (R320, R321). -/

section
variable {p : PeerAcc} (hd : s.ctx.ev.data = .peer p)
include hd

theorem exec_peerAccess_refused (ha : (s.die ⟨p.rdie % 2, Nat.mod_lt _ (by decide)⟩).accepts l p.chip p.sasid p.asid = false) :
    exec .peerAccessArrival s = .next (s.answer (.refused l 3)) := by
  dsimp only [exec, execPeerAccessArrival]
  rw [hu, if_pos hl, hd]
  dsimp only
  rw [ha]
  rfl

section
variable (ha : (s.die ⟨p.rdie % 2, Nat.mod_lt _ (by decide)⟩).accepts l p.chip p.sasid p.asid = true) {t : State} {ps : List Piece}
include ha

theorem exec_peerLoad (hw : p.write = none) (hat : p.atomic = none)
    (hx : s.xlate (.die ⟨p.rdie % 2, Nat.mod_lt _ (by decide)⟩) p.asid true .load p.va p.size = (t, .ok ps)) :
    exec .peerAccessArrival s =
      let m := t.mark (.die ⟨p.rdie % 2, Nat.mod_lt _ (by decide)⟩) .load ps
      .next ((if m.badLines ps = [] then m else m.answer (.poisoned l)).answer (.data (m.readClean ps))) := by
  dsimp only [exec, execPeerAccessArrival]
  rw [hu, if_pos hl, hd]
  dsimp only
  rw [ha, hw, hat]
  dsimp only [Option.isSome]
  rw [if_neg (by decide), if_neg Bool.false_ne_true, if_neg Bool.false_ne_true, hx]
  simp only [List.isEmpty_iff]

theorem exec_peerStore {bs : List Byte} (hw : p.write = some bs) (hat : p.atomic = none)
    (hx : s.xlate (.die ⟨p.rdie % 2, Nat.mod_lt _ (by decide)⟩) p.asid true .store p.va bs.length = (t, .ok ps)) :
    exec .peerAccessArrival s =
      .next ((State.writePieces 0 (t.mark (.die ⟨p.rdie % 2, Nat.mod_lt _ (by decide)⟩) .store ps) ps bs).answer (.performed l)) := by
  dsimp only [exec, execPeerAccessArrival]
  rw [hu, if_pos hl, hd]
  dsimp only
  rw [ha, hw, hat]
  dsimp only [Option.isSome]
  rw [if_neg (by decide), if_neg Bool.false_ne_true, if_pos rfl, hx]

section
variable {op ty v e : Nat} (hw : p.write = none) (hat : p.atomic = some (op, ty, v, e))
  (hx : s.xlate (.die ⟨p.rdie % 2, Nat.mod_lt _ (by decide)⟩) p.asid true .atomic p.va p.size = (t, .ok ps))
include hw hat hx

theorem exec_peerAtomic_poisoned (hb : t.badLines ps ≠ []) : exec .peerAccessArrival s = .next (t.answer (.poisoned l)) := by
  dsimp only [exec, execPeerAccessArrival]
  rw [hu, if_pos hl, hd]
  dsimp only
  rw [ha, hw, hat]
  dsimp only [Option.isSome]
  rw [if_neg (by decide), if_pos rfl, hx]
  exact if_pos (by simpa using hb)

theorem exec_peerAtomic (hb : t.badLines ps = []) : exec .peerAccessArrival s =
    .next (match peerAtomic op ty (8 * p.size) (leNat (t.readPieces ps)) v e with
      | some y => (State.writePieces 0 (t.mark (.die ⟨p.rdie % 2, Nat.mod_lt _ (by decide)⟩) .atomic ps) ps (leBytes y p.size)).answer
          (.data (t.readPieces ps))
      | none => (t.mark (.die ⟨p.rdie % 2, Nat.mod_lt _ (by decide)⟩) .load ps).answer (.data (t.readPieces ps))) := by
  dsimp only [exec, execPeerAccessArrival]
  rw [hu, if_pos hl, hd]
  dsimp only
  rw [ha, hw, hat]
  dsimp only [Option.isSome]
  rw [if_neg (by decide), if_pos rfl, hx]
  dsimp only
  rw [hb]
  cases peerAtomic op ty (8 * p.size) (leNat (t.readPieces ps)) v e <;> rfl

end

end

end

/-! Acknowledgements, replays, and a link that goes down or comes up (R398, R399). -/

theorem exec_sendAcknowledged_group (hf : s.ctx.ev.flag = true) :
    exec .sendAcknowledged s = .next (s.setLink l ((s.link l).ackFlits s.ctx.ev.val2)) := by
  dsimp only [exec, execSendAcknowledged]
  rw [hu, if_pos hl, hf, if_pos rfl]

section
variable (hf : s.ctx.ev.flag = false) {x : Send} (hx : s.sends.find? (fun y => y.link == l) = some x) (ho : s.sendOf x.ord = some x)
include hf hx ho

/-- The send's last message, acknowledged, is the last of the retransmit buffer. -/
theorem exec_sendAcknowledged_last {m : LinkMsg} (h0 : s.ctx.ev.val = 0) (h1 : s.ctx.ev.val2 = 1) (hs : x.sent = x.len)
    (hw : (s.link l).wire = [m]) (hlt : x.acked < x.len) (hend : x.acked + m.bytes.length = x.len) :
    exec .sendAcknowledged s = .next (((s.setLink l { s.link l with wire := [], unacked := 0, idle := 0 }).dropSend x).endSend
      { x with acked := x.acked + m.bytes.length }) := by
  have hxl : x.link = l := by simpa using List.find?_some hx
  have hdrop : (s.link l).dropWire 1 = { s.link l with wire := [], unacked := 0, idle := 0 } := by simp [Link.dropWire, hw]
  have hone : s.ackOne x = ((s.setLink l { s.link l with wire := [], unacked := 0, idle := 0 }).dropSend x).endSend
      { x with acked := x.acked + m.bytes.length } := by
    rw [State.ackOne, hxl, hw]
    dsimp only
    rw [hdrop]
    exact if_neg (by omega)
  dsimp only [exec, execSendAcknowledged]
  rw [hu, if_pos hl, hf, if_neg Bool.false_ne_true, hx]
  dsimp only
  rw [h0, h1]
  dsimp only [ne_eq, not_true_eq_false, if_false]
  rw [if_neg (by decide), if_neg (by decide), State.ackMany, ho]
  dsimp only
  rw [if_neg (by omega), ho]
  dsimp only [State.ackMany]
  rw [hone]

theorem exec_sendAcknowledged_refused (h0 : s.ctx.ev.val ≠ 0) (hs : x.sent ≠ 0) : exec .sendAcknowledged s =
    .next (((s.setLink l ((s.link l).dropWire (x.flights (s.link l).wire))).dropSend x).failSend x 0x14 0 s.ctx.ev.val) := by
  dsimp only [exec, execSendAcknowledged]
  rw [hu, if_pos hl, hf, if_neg Bool.false_ne_true, hx]
  dsimp only
  rw [if_pos h0, if_neg hs, ho]
  rfl

end

theorem exec_goBackReplay :
    exec .goBackReplay s = .next (s.setLink l { s.link l with replays := min ((s.link l).replays + 1) 0xFFFFFFFF }) := by
  dsimp only [exec, execGoBackReplay]
  rw [hu, if_pos hl]

theorem exec_linkDown : exec .linkDown s = .next (State.failSends (s.sends.filter fun x => x.link == l)
    { s.setLink l { s.link l with up := false, aligned := false, wire := [], unacked := 0, idle := 0, held := 0 } with
      cores := s.cores.map (fun k => { k with streams := k.streams.map (fun t => t.linkFails l s.clock) })
      saved := s.saved.map (fun x => { x with core := { x.core with streams := x.core.streams.map (fun t => t.linkFails l s.clock) } }) }) := by
  dsimp only [exec, execLinkDown]
  rw [hu, if_pos hl]
  rfl

theorem exec_linkTraining : exec .linkTraining s = .next (s.setLink l
    { s.link l with up := true, chip := BitVec.ofNat 16 s.ctx.ev.val, aligned := s.ctx.ev.flag && s.summer, idle := 0, held := 0 }) := by
  dsimp only [exec, execLinkTraining]
  rw [hu, if_pos hl]

end

/-! The step counter (R405). -/

section
variable {s : State}

theorem exec_gscJoin_outside (h : s.inDomain = false) : exec .gscJoin s = .next s := by
  dsimp only [exec, execGscJoin]
  rw [h]
  rfl

theorem exec_gscJoin (h : s.inDomain = true) :
    let j := { s with gsc := BitVec.ofNat 64 (max s.gsc.toNat s.ctx.ev.val) }
    exec .gscJoin s = .next (if s.ctx.ev.flag = true then { j with
      phase := s.ctx.ev.val2 % s.steplen, links := s.links.map (fun l => { l with aligned := l.up }) } else j) := by
  have hmax : (if s.gsc.toNat < s.ctx.ev.val then BitVec.ofNat 64 s.ctx.ev.val else s.gsc) =
      BitVec.ofNat 64 (max s.gsc.toNat s.ctx.ev.val) := by
    split
    next hlt => rw [Nat.max_eq_right (Nat.le_of_lt hlt)]
    next hge => rw [Nat.max_eq_left (Nat.not_lt.1 hge), BitVec.ofNat_toNat, BitVec.setWidth_eq]
  dsimp only [exec, execGscJoin]
  rw [h, hmax]
  rfl

end

/-- Settles O51: each event of a link by its own case. -/
theorem linkEventsComplete : Obligations.LinkEventsComplete := by
  intro s l hu hl k
  refine ⟨?_, ?_, exec_sendAcknowledged_group hu hl,
    fun x hf hx ho => ⟨fun m => exec_sendAcknowledged_last hu hl hf hx ho, exec_sendAcknowledged_refused hu hl hf hx ho⟩,
    exec_goBackReplay hu hl, exec_linkDown hu hl, exec_linkTraining hu hl, fun m => exec_postWaitTimeout hu hl, rfl,
    exec_gscJoin_outside, exec_gscJoin⟩
  · intro m hd hk here
    exact ⟨exec_linkMessageArrival_refusedSend hu hl hd hk, fun hr => ⟨exec_linkMessageArrival_waits hu hl hd hk hr,
      fun s1 code => exec_linkMessageArrival_performed hu hl hd hk hr⟩⟩
  · intro p hd d w
    refine ⟨exec_peerAccess_refused hu hl hd, fun ha => ⟨fun s1 ps => exec_peerLoad hu hl hd ha, fun s1 ps bs => exec_peerStore hu hl hd ha, ?_⟩⟩
    intro s1 ps op ty v e hw hat hx old
    exact ⟨exec_peerAtomic_poisoned hu hl hd ha hw hat hx, exec_peerAtomic hu hl hd ha hw hat hx⟩

end Sys2Proof.Machine
end

section
/-! PROOF. The writes of the register window, and the host die's accesses. -/
namespace Sys2Proof.Machine
open Sys2Proof

/-! What the fields of a queue's descriptor take (R75). -/

section
variable {q : CQueue} {v : Nat}

theorem CQueue.writeTail_ok (hs : q.src = true) (hv : v < 2 ^ 32) (hc : (BitVec.ofNat 32 v - q.head).toNat ≤ 2 ^ q.log2cap.toNat) :
    q.writeTail v = some { q with tail := BitVec.ofNat 32 v } := by
  rw [CQueue.writeTail, hs, if_neg (by decide), if_pos (by simp only [hv, hc, decide_true, Bool.and_true])]

theorem CQueue.writeTail_none (hs : q.src = true) (hv : 2 ^ 32 ≤ v ∨ 2 ^ q.log2cap.toNat < (BitVec.ofNat 32 v - q.head).toNat) :
    q.writeTail v = none := by
  rw [CQueue.writeTail, hs, if_neg (by decide), if_neg]
  intro h
  rw [Bool.and_eq_true, decide_eq_true_iff, decide_eq_true_iff] at h
  omega

section
variable (he : q.en = false)
include he

theorem CQueue.writeField_asid (hv : v < 2 ^ 13) : q.writeField 8 v = some { q with asid := BitVec.ofNat 13 v } := by
  simpa [CQueue.writeField, he] using hv

theorem CQueue.writeField_base (hv : v < 2 ^ 48) (ha : v % 32 = 0) : q.writeField 16 v = some { q with base := BitVec.ofNat 48 v } := by
  simpa [CQueue.writeField, he, ha] using hv

theorem CQueue.writeField_base_none (ha : v % 32 ≠ 0) : q.writeField 16 v = none := by
  simp [CQueue.writeField, he, ha]

theorem CQueue.writeField_sbase (hv : v < 2 ^ 48) (ha : v % 8 = 0) : q.writeField 24 v = some { q with sbase := BitVec.ofNat 48 v } := by
  simpa [CQueue.writeField, he, ha] using hv

theorem CQueue.writeField_aff : q.writeField 48 v = some { q with aff := BitVec.ofNat 64 v } := by
  simp [CQueue.writeField, he]

end

theorem CQueue.writeField_enabled (he : q.en = true) {off : Nat} (ho : off = 8 ∨ off = 16 ∨ off = 24 ∨ off = 48) : q.writeField off v = none := by
  rcases ho with rfl | rfl | rfl | rfl <;> simp [CQueue.writeField, he]

/-- The control word of a disabled queue gives its fields back. -/
theorem CQueue.ctl_disabled (q : CQueue) : (CQueue.ctl { q with en := false }).toNat = (if q.src then 2 else 0) + q.qprio.toNat * 16 + q.log2cap.toNat * 256 := by
  have hp := q.qprio.isLt
  have hl := q.log2cap.isLt
  rw [CQueue.ctl, BitVec.toNat_ofNat]
  cases q.src <;> simp <;> omega

theorem CQueue.writeField_disable (he : q.en = true) (hv : v = (CQueue.ctl { q with en := false }).toNat) :
    q.writeField 0 v = some { q with en := false } := by
  have hp := q.qprio.isLt
  have hl := q.log2cap.isLt
  rw [CQueue.ctl_disabled] at hv
  have hen : v.testBit 0 = false := by rw [Nat.testBit_zero, decide_eq_false_iff_not]; cases hs : q.src <;> simp [hs] at hv <;> omega
  have hsrc : v.testBit 1 = q.src := by
    rw [Nat.testBit_eq_decide_div_mod_eq]
    cases hs : q.src <;> simp [hs] at hv ⊢ <;> omega
  have hprio : BitVec.ofNat 3 (v / 16) = q.qprio := by
    apply BitVec.eq_of_toNat_eq
    rw [BitVec.toNat_ofNat]
    cases hs : q.src <;> simp [hs] at hv <;> omega
  have hcap : BitVec.ofNat 5 (v / 256) = q.log2cap := by
    apply BitVec.eq_of_toNat_eq
    rw [BitVec.toNat_ofNat]
    cases hs : q.src <;> simp [hs] at hv <;> omega
  rw [CQueue.writeField, if_pos rfl, CQueue.writeCtl, hen, hsrc, hprio, hcap]
  dsimp only
  rw [CQueue.ctl_disabled, ← hv, he]
  simp

end

/-! The window's registers. -/

section
variable {x : Die} {w : Word}

theorem Die.peerdataWrite_ok (hv : w.toNat < 2 ^ 35) (hl : w.toNat / 2 % 16 ≤ 11) : x.peerdataWrite w = { x with
    peers := ⟨x.asidsel, x.peersel.toNat, w.getLsbD 0, w.toNat / 2 % 16, w.extractLsb' 5 16, w.getLsbD 21, w.extractLsb' 22 13⟩ ::
      x.peers.filter fun p => !(p.asid == x.asidsel && p.n == x.peersel.toNat) } := by
  have hlink : (w.extractLsb' 1 4).toNat = w.toNat / 2 % 16 := by rw [BitVec.extractLsb'_toNat, Nat.shiftRight_eq_div_pow]
  rw [Die.peerdataWrite, Die.setPeer, Peer.ofData, hlink, if_neg]
  simp only [Bool.or_eq_true, decide_eq_true_iff]
  omega

theorem Die.peerdataWrite_refused (h : 2 ^ 35 ≤ w.toNat ∨ 11 < w.toNat / 2 % 16) : x.peerdataWrite w = x.logErr #v[0x62, 0, 0, 0] := by
  have hlink : (w.extractLsb' 1 4).toNat = w.toNat / 2 % 16 := by rw [BitVec.extractLsb'_toNat, Nat.shiftRight_eq_div_pow]
  rw [Die.peerdataWrite, hlink, if_pos]
  simpa only [Bool.or_eq_true, decide_eq_true_iff] using h

/-- The two fields of a counter window's word. -/
theorem nctr_fields (w : Word) : (w.extractLsb' 0 9).toNat = w.toNat % 512 ∧ (w.extractLsb' 16 9).toNat = w.toNat / 65536 % 512 := by
  constructor
  · rw [BitVec.extractLsb'_toNat, Nat.shiftRight_zero]
  · rw [BitVec.extractLsb'_toNat, Nat.shiftRight_eq_div_pow]

theorem Die.nctrWrite_ok (hw : w.toNat = w.toNat % 512 + w.toNat / 65536 % 512 * 65536) (hn : w.toNat % 512 ≤ 256)
    (ht : w.toNat / 65536 % 512 ≤ 256) : x.nctrWrite w = x.setNctr x.asidsel (w.toNat % 512) (w.toNat / 65536 % 512) := by
  obtain ⟨h0, h1⟩ := nctr_fields w
  rw [Die.nctrWrite, h0, h1, if_neg]
  simp only [Bool.or_eq_true, bne_iff_ne, decide_eq_true_iff]
  omega

theorem Die.nctrWrite_refused (h : w.toNat ≠ w.toNat % 512 + w.toNat / 65536 % 512 * 65536 ∨ 256 < w.toNat % 512 ∨ 256 < w.toNat / 65536 % 512) :
    x.nctrWrite w = x.logErr #v[0x62, 0, 0, 0] := by
  obtain ⟨h0, h1⟩ := nctr_fields w
  rw [Die.nctrWrite, h0, h1, if_pos]
  simp only [Bool.or_eq_true, bne_iff_ne, decide_eq_true_iff]
  omega

end

section
variable {s : State} {d : Fin 2} (hu : s.ctx.ev.unit = d.val)
include hu

theorem onDie_eq (go : Fin 2 → State) : s.onDie go = .next (go d) := by
  obtain ⟨hlt, hd⟩ := event_die hu
  rw [State.onDie, dif_pos hlt, hd]

theorem atDie_eq (f : Die → Die) : s.atDie f = .next ((s.setDie d (f (s.die d))).answer .written) := onDie_eq hu _

section
variable (hn : s.ctx.ev.sub < 64) (hv : s.ctx.ev.val < 2 ^ 64)
include hn hv

theorem exec_hostTailWrite : exec .hostTailWrite s =
    .next ((s.setDie d ((s.die d).tailWrite s.ctx.ev.sub s.ctx.ev.val)).answer .written) := by
  dsimp only [exec, execHostTailWrite]
  rw [atDie_eq hu, Nat.mod_eq_of_lt hn, State.evWord, BitVec.toNat_ofNat, Nat.mod_eq_of_lt hv]

theorem exec_hostTailWrite_ok {q : CQueue} (hq : ((s.die d).queue s.ctx.ev.sub).writeTail s.ctx.ev.val = some q) :
    exec .hostTailWrite s = .next ((s.setDie d ((s.die d).setQueue s.ctx.ev.sub q)).answer .written) := by
  rw [exec_hostTailWrite hu hn hv, Die.tailWrite, hq]

theorem exec_hostTailWrite_refused (hq : ((s.die d).queue s.ctx.ev.sub).writeTail s.ctx.ev.val = none) : exec .hostTailWrite s =
    .next ((s.setDie d ((s.die d).logErr #v[0x61, BitVec.ofNat 64 s.ctx.ev.sub, 0, 0])).answer .written) := by
  rw [exec_hostTailWrite hu hn hv, Die.tailWrite, hq]

/-- A descriptor's field but TAIL. -/
theorem exec_queueDescriptorWrite (h8 : s.ctx.ev.val2 % 8 = 0) (h64 : s.ctx.ev.val2 < 64) (h40 : s.ctx.ev.val2 ≠ 40) :
    exec .queueDescriptorWrite s =
      .next ((s.setDie d ((s.die d).descWrite s.ctx.ev.sub s.ctx.ev.val2 s.ctx.ev.val)).answer .written) := by
  dsimp only [exec, execQueueDescriptorWrite]
  rw [if_pos h8, atDie_eq hu, Nat.mod_eq_of_lt hn, Nat.mod_eq_of_lt h64, State.evWord, BitVec.toNat_ofNat, Nat.mod_eq_of_lt hv, Die.fieldWrite,
    if_neg h40]

theorem exec_queueDescriptorWrite_ok {off : Nat} {q : CQueue} (ho : s.ctx.ev.val2 = off) (h8 : off % 8 = 0) (h64 : off < 64) (h40 : off ≠ 40)
    (hq : ((s.die d).queue s.ctx.ev.sub).writeField off s.ctx.ev.val = some q) :
    exec .queueDescriptorWrite s = .next ((s.setDie d ((s.die d).setQueue s.ctx.ev.sub q)).answer .written) := by
  subst ho
  rw [exec_queueDescriptorWrite hu hn hv h8 h64 h40, Die.descWrite, hq]

theorem exec_queueDescriptorWrite_refused {off : Nat} (ho : s.ctx.ev.val2 = off) (h8 : off % 8 = 0) (h64 : off < 64) (h40 : off ≠ 40)
    (hq : ((s.die d).queue s.ctx.ev.sub).writeField off s.ctx.ev.val = none) : exec .queueDescriptorWrite s =
      .next ((s.setDie d ((s.die d).logErr #v[0x62, BitVec.ofNat 64 s.ctx.ev.sub, 0, 0])).answer .written) := by
  subst ho
  rw [exec_queueDescriptorWrite hu hn hv h8 h64 h40, Die.descWrite, hq]

theorem exec_queueDescriptorWrite_tail (ho : s.ctx.ev.val2 = 40) : exec .queueDescriptorWrite s = exec .hostTailWrite s := by
  rw [exec_hostTailWrite hu hn hv]
  dsimp only [exec, execQueueDescriptorWrite]
  rw [ho, if_pos rfl, atDie_eq hu, Nat.mod_eq_of_lt hn, State.evWord, BitVec.toNat_ofNat, Nat.mod_eq_of_lt hv]
  rfl

theorem exec_queueDisableWrite {q : CQueue} (hq : ((s.die d).queue s.ctx.ev.sub).writeField 0 s.ctx.ev.val = some q) :
    exec .queueDisableWrite s = .next ((s.setDie d ((s.die d).setQueue s.ctx.ev.sub q)).answer .written) := by
  dsimp only [exec, execQueueDisableWrite]
  rw [atDie_eq hu, Nat.mod_eq_of_lt hn, State.evWord, BitVec.toNat_ofNat, Nat.mod_eq_of_lt hv, Die.descWrite, hq]

end

theorem exec_queueDescriptorWrite_misaligned (h8 : s.ctx.ev.val2 % 8 ≠ 0) : exec .queueDescriptorWrite s = .next (s.answer .error) := by
  dsimp only [exec, execQueueDescriptorWrite]
  rw [if_neg h8, onDie_eq hu]

theorem exec_peerdataWrite {x : Die} (hx : (s.die d).peerdataWrite (BitVec.ofNat 64 s.ctx.ev.val) = x) :
    exec .peerdataWrite s = .next ((s.setDie d x).answer .written) := by
  dsimp only [exec, execPeerdataWrite]
  rw [atDie_eq hu, ← hx]
  rfl

theorem exec_nctrWrite {x : Die} (hx : (s.die d).nctrWrite (BitVec.ofNat 64 s.ctx.ev.val) = x) :
    exec .nctrWrite s = .next ((s.setDie d x).answer .written) := by
  dsimp only [exec, execNctrWrite]
  rw [atDie_eq hu, ← hx]
  rfl

/-- 8 aligned bytes of the window are written. -/
theorem exec_windowWrite {n : Nat} (h8 : s.ctx.ev.val2 = 8) (hn : s.ctx.ev.sub = n) (ha : n % 8 = 0) (hlt : n < 65536) :
    exec .windowWrite s = .next ((s.setDie d ((s.die d).windowWrite n (BitVec.ofNat 64 s.ctx.ev.val))).answer .written) := by
  subst hn
  dsimp only [exec, execWindowWrite]
  rw [if_pos (by rw [windowFits, h8, ha]; rfl), atDie_eq hu, Nat.mod_eq_of_lt hlt, State.evWord]

theorem exec_windowWrite_refused (h : s.ctx.ev.val2 ≠ 8 ∨ s.ctx.ev.sub % 8 ≠ 0) : exec .windowWrite s = .next (s.answer .error) := by
  dsimp only [exec, execWindowWrite]
  rw [if_neg, onDie_eq hu]
  rw [windowFits, Bool.and_eq_true, beq_iff_eq, beq_iff_eq]
  omega

end

/-- Settles O52: each write by what its register takes. -/
theorem windowWritesComplete : Obligations.WindowWritesComplete := by
  intro s d hu x n q v w put
  have hw : w.toNat = v % 2 ^ 64 := BitVec.toNat_ofNat ..
  refine ⟨fun hn hv => ⟨fun hs hv32 hc => exec_hostTailWrite_ok hu hn hv (CQueue.writeTail_ok hs hv32 hc),
      fun hs hc => exec_hostTailWrite_refused hu hn hv (CQueue.writeTail_none hs hc), fun he => ⟨?_, ?_, ?_, ?_, ?_⟩,
      exec_queueDescriptorWrite_misaligned hu, exec_queueDescriptorWrite_tail hu hn hv, ?_,
      fun he hd => exec_queueDisableWrite hu hn hv (CQueue.writeField_disable he hd)⟩,
    atDie_eq hu fun y => y.windowWrite 0x18 w, atDie_eq hu fun y => y.windowWrite 0x10 w, ?_, ?_, ?_, ?_, fun h8 => ⟨fun h => ?_, fun h => ?_, fun h => ?_, fun h => ?_, fun h => ?_⟩, exec_windowWrite_refused hu⟩
  · exact fun ho hv => exec_queueDescriptorWrite_ok hu hn ‹_› ho rfl (by decide) (by decide) (CQueue.writeField_asid he hv)
  · exact fun ho hv ha => exec_queueDescriptorWrite_ok hu hn ‹_› ho rfl (by decide) (by decide) (CQueue.writeField_base he hv ha)
  · exact fun ho hv ha => exec_queueDescriptorWrite_ok hu hn ‹_› ho rfl (by decide) (by decide) (CQueue.writeField_sbase he hv ha)
  · exact fun ho => exec_queueDescriptorWrite_ok hu hn hv ho rfl (by decide) (by decide) (CQueue.writeField_aff he)
  · exact fun ho ha => exec_queueDescriptorWrite_refused hu hn hv ho rfl (by decide) (by decide) (CQueue.writeField_base_none he ha)
  · intro he ho
    have hq := CQueue.writeField_enabled (v := v) he ho
    rcases ho with h | h | h | h <;> exact exec_queueDescriptorWrite_refused hu hn hv rfl (by omega) (by omega) (by omega) hq
  · intro hv hl
    have hwv : w.toNat = v := hw.trans (Nat.mod_eq_of_lt (by omega))
    refine exec_peerdataWrite hu ((Die.peerdataWrite_ok (w := w) (hwv.symm ▸ hv) (hwv.symm ▸ hl)).trans ?_)
    rw [hwv]
  · intro hv h
    have hwv : w.toNat = v := hw.trans (Nat.mod_eq_of_lt hv)
    exact exec_peerdataWrite hu (Die.peerdataWrite_refused (w := w) (hwv.symm ▸ h))
  · intro hv h
    have hwv : w.toNat = v := hw.trans (Nat.mod_eq_of_lt hv)
    exact exec_nctrWrite hu (Die.nctrWrite_refused (w := w) (hwv.symm ▸ h))
  · intro h hn ht
    have hlow : w.toNat % 512 = v % 512 := by omega
    have hhigh : w.toNat / 65536 % 512 = v / 65536 % 512 := by omega
    refine exec_nctrWrite hu ((Die.nctrWrite_ok (w := w) (by omega) (by omega) (by omega)).trans ?_)
    rw [hlow, hhigh]
  · exact exec_windowWrite hu h8 h rfl (by decide)
  · exact exec_windowWrite hu h8 h rfl (by decide)
  · exact exec_windowWrite hu h8 h rfl (by decide)
  · exact exec_windowWrite hu h8 h rfl (by decide)
  · rcases h with h | h | h <;> exact exec_windowWrite hu h8 h rfl (by decide)

/-! The host die's accesses (R443 to R445). -/

section
variable {s : State} {bs : List Byte}

section
variable (hf : s.ctx.ev.flag = false)
include hf

theorem exec_hostCoherentAccess_memory : exec .hostCoherentAccess s = .next s.hostAccess := by
  dsimp only [exec, execHostCoherentAccess]
  rw [hf, if_neg Bool.false_ne_true]

theorem exec_hostWrite (hd : s.ctx.ev.data = .bytes bs) (h0 : s.physOk s.ctx.ev.val = true) (h1 : s.physOk (s.ctx.ev.val + bs.length - 1) = true)
    (h2 : sameRange s.ctx.ev.val (s.ctx.ev.val + bs.length - 1) = true) :
    exec .hostCoherentAccess s = .next ((s.pwriteN 0 s.ctx.ev.val bs).answer .written) := by
  rw [exec_hostCoherentAccess_memory hf, State.hostAccess, hd]
  exact congrArg Host.Outcome.next (if_pos (by simp [h0, h1, h2]))

theorem exec_hostWrite_outside (hd : s.ctx.ev.data = .bytes bs) (hb : bs ≠ []) (h0 : s.physOk s.ctx.ev.val = false) :
    exec .hostCoherentAccess s = .next (s.answer .error) := by
  rw [exec_hostCoherentAccess_memory hf, State.hostAccess, hd]
  exact congrArg Host.Outcome.next (if_neg (by simp [h0, hb]))

theorem exec_hostRead (hd : s.ctx.ev.data = .none) (h0 : s.physOk s.ctx.ev.val = true) (h1 : s.physOk (s.ctx.ev.val + s.ctx.ev.val2 - 1) = true)
    (h2 : sameRange s.ctx.ev.val (s.ctx.ev.val + s.ctx.ev.val2 - 1) = true)
    (hp : ∀ l ∈ linesOf s.ctx.ev.val s.ctx.ev.val2, s.poison.contains l = false) :
    exec .hostCoherentAccess s = .next (s.answer (.data (s.mem.readN s.ctx.ev.val s.ctx.ev.val2))) := by
  have hclean : ((linesOf s.ctx.ev.val s.ctx.ev.val2).any fun l => s.poison.contains l) = false := List.any_eq_false.2 fun l hl => by rw [hp l hl]; exact Bool.false_ne_true
  rw [exec_hostCoherentAccess_memory hf, State.hostAccess, hd]
  exact congrArg Host.Outcome.next (if_pos (by simp only [h0, h1, h2, hclean, Bool.and_self, Bool.or_true, Bool.not_false]))

end

section
variable {d : Fin 2} (hf : s.ctx.ev.flag = true) (hu : s.ctx.ev.unit = d.val)
include hf hu

theorem exec_hostCoherentAccess_window : exec .hostCoherentAccess s = .next (s.hostWindow d) := by
  dsimp only [exec, execHostCoherentAccess]
  rw [hf, if_pos rfl]
  exact onDie_eq hu _

theorem exec_hostWindowWrite (hd : s.ctx.ev.data = .bytes bs) : exec .hostCoherentAccess s =
    .next (if bs.length = 8 ∧ s.ctx.ev.sub % 8 = 0 then
      (s.setDie d ((s.die d).windowWrite (s.ctx.ev.sub % 65536) (BitVec.ofNat 64 (leNat bs)))).answer .written else s.answer .error) := by
  rw [exec_hostCoherentAccess_window hf hu, State.hostWindow, hd]
  simp only [windowFits, Bool.and_eq_true, beq_iff_eq]

theorem exec_hostWindowRead (hd : s.ctx.ev.data = .none) : exec .hostCoherentAccess s =
    .next (s.answer (if s.ctx.ev.val2 = 8 ∧ s.ctx.ev.sub % 8 = 0 then
      .data (leBytes (s.windowRead d (s.ctx.ev.sub % 65536)).toNat 8) else .error)) := by
  rw [exec_hostCoherentAccess_window hf hu, State.hostWindow, hd]
  simp only [windowFits, Bool.and_eq_true, beq_iff_eq]
  rw [apply_ite (s.answer ·)]

end

end

/-- Settles O53: memory and the window by the event's flag; the bytes stored by the law of memory. -/
theorem hostAccessCompletes : Obligations.HostAccessCompletes := by
  intro s bs a n off
  refine ⟨fun hf hd hb => ⟨exec_hostWrite hf hd, exec_hostWrite_outside hf hd hb⟩,
    fun hf hd _ => exec_hostRead hf hd,
    fun d hf hu => ⟨exec_hostWindowWrite hf hu, exec_hostWindowRead hf hu⟩, fun hwf i hi => ?_⟩
  rw [State.pwriteN_mem, Memory.read_writeN_in hwf a bs i hi]
  simp [List.getD_eq_getElem?_getD, hi]

end Sys2Proof.Machine
end

section
/-! PROOF. A reset of a die does not keep every TAIL: the job that it ends has stores under way to the register window. -/
namespace Sys2Proof.Machine
open Sys2Proof

/-- A store of 1 to the TAIL of queue 0 (offset 0x1000 + 40 of a register window at 0), buffered and not yet delivered. -/
def tailStore : HostStore := { addr := 0x1028, bytes := [1, 0, 0, 0, 0, 0, 0, 0], strm := .cs, pc := 0x40000, ord := 1 }

/-- Die 0 in Summer, with its register window at 0 of the host's space and its queue 0 host-fed with 16 places; core 0 runs a job
that has the store to that queue's TAIL buffered. The event names die 0. -/
def tailStoreBuffered : State :=
  let x : Die := { State.reset.die 0 with state := 2, ready := true, window := some 0 }
  let q : CQueue := { x.queue 0 with src := true, log2cap := 4 }
  (State.reset.setDie 0 (x.setQueue 0 q)).setCore 0 { State.reset.core 0 with active := true, jobid := 5, hostBuf := [tailStore] }

/-- TAIL of queue 0 of die 0 in the next state. -/
def Out.tail0 : Out → Option (BitVec 32)
  | .next t => some ((t.die 0).queue 0).tail
  | _ => none

theorem tailStoreBuffered_tail : ((tailStoreBuffered.die 0).queue 0).tail = 0 := by decide

/-- The end of the job delivers the store (R66), and so moves TAIL, before the die takes its counts to Winter. -/
theorem tail_after_dieReset : Out.tail0 (exec .dieReset tailStoreBuffered) = some 1 := by decide +kernel

/-- Refutes O54: a die's reset ends the jobs on its cores, the end of a job delivers its buffered host stores, and one of them may go to
the die's own register window: the queue's TAIL is then 1 where it was 0. -/
theorem not_bringUpCompletes : ¬ Obligations.BringUpCompletes := by
  unfold Obligations.BringUpCompletes
  intro h
  obtain ⟨hunit, -⟩ := h tailStoreBuffered 0
  obtain ⟨-, -, -, -, -, -, -, ⟨t, ht, -, -, hqueues, -⟩, -⟩ := hunit rfl
  obtain ⟨-, -, htail⟩ := hqueues 0 (by decide)
  have hkept : Out.tail0 (exec .dieReset tailStoreBuffered) = some 0 := by
    rw [ht, ← tailStoreBuffered_tail, ← htail]
    rfl
  exact absurd (tail_after_dieReset.symm.trans hkept) (by decide)

end Sys2Proof.Machine
end

section
/-! PROOF. Attestation, the loader and Hazel. -/
namespace Sys2Proof.Machine
open Sys2Proof

/-! What Hazel answers for a section (R453 to R455). -/

section
variable {s : State} {d : Fin 2} {tenant : Word} {tnf : List Byte}

theorem hazelOutput_refused {code : Nat} (h : tnfCheck tnf = some code) : s.hazelOutput d tenant tnf = (s, .error code) := by
  rw [State.hazelOutput, h]

section
variable (h : tnfCheck tnf = none)
include h

section
variable (hn : (s.hazelCache.find? fun e => e.key == s.hazelKey tnf tenant && (s.hazelRegion tenant).any e.within) = none)
include hn

theorem hazelOutput_untranslatable (hc : hazelCode tnf = none) : s.hazelOutput d tenant tnf = (s, .error 5) := by
  rw [State.hazelOutput, h]
  dsimp only
  rw [hn]
  dsimp only
  rw [State.hazelMake, hc]

theorem hazelOutput_new {g : List Byte} (hc : hazelCode tnf = some g) :
    s.hazelOutput d tenant tnf = (s.hazelKeep d tenant (s.hazelKey tnf tenant) g, .ok g) := by
  rw [State.hazelOutput, h]
  dsimp only
  rw [hn]
  dsimp only
  rw [State.hazelMake, hc]

end

section
variable {e : HazelEntry} (he : (s.hazelCache.find? fun e => e.key == s.hazelKey tnf tenant && (s.hazelRegion tenant).any e.within) = some e)
include he

theorem hazelOutput_kept (ht : s.hazelTrue e = true) :
    s.hazelOutput d tenant tnf = ({ s with hazelCache := e :: s.hazelCache.erase e }, .ok (s.mem.readN (e.addr + 48) e.len)) := by
  rw [State.hazelOutput, h]
  dsimp only
  rw [he]
  exact if_pos ht

theorem hazelOutput_false {g : List Byte} (ht : s.hazelTrue e = false) (hc : hazelCode tnf = some g) :
    s.hazelOutput d tenant tnf =
      ((State.dieLog { s with hazelCache := s.hazelCache.erase e } d 0x64 (BitVec.ofNat 64 e.addr) 0 0).hazelKeep d tenant
        (s.hazelKey tnf tenant) g, .ok g) := by
  rw [State.hazelOutput, h]
  dsimp only
  rw [he]
  dsimp only
  rw [ht, if_neg Bool.false_ne_true, State.hazelMake, hc]

end

end

end

section
variable {s : State} {d : Fin 2} (hu : s.ctx.ev.unit = d.val)
include hu

/-! Attestation (R460). -/

theorem exec_attestation_winter {n : BitVec 384} (hd : s.ctx.ev.data = .nonce n) (h0 : (s.die d).state = 0) :
    exec .attestationRequest s = .next (s.answer .error) := by
  dsimp only [exec, execAttestationRequest]
  rw [onDie_eq hu, hd, h0]
  rfl

theorem exec_attestation {n : BitVec 384} (hd : s.ctx.ev.data = .nonce n) (h0 : (s.die d).state ≠ 0) :
    exec .attestationRequest s = .next (s.answer (.report (s.report d n ++
      (List.range 16608).map fun i => Config.signature (s.die d).identity (s.report d n) i))) := by
  dsimp only [exec, execAttestationRequest]
  rw [onDie_eq hu, hd]
  exact congrArg Host.Outcome.next (if_neg (by simpa using h0))

/-! Hazel and the loader on a die in operation. -/

section
variable (h0 : (s.die d).state ≠ 0)
include h0

theorem exec_hazelAssign (hf : s.ctx.ev.flag = true) {t : State}
    (ht : s.hazelAssign ((s.die d).grant (BitVec.ofNat 13 (s.ctx.ev.sub % 8192))).tenant s.ctx.ev.val s.ctx.ev.val2 = some t) :
    exec .hazelTranslation s = .next (t.answer .written) := by
  dsimp only [exec, execHazelTranslation]
  rw [onDie_eq hu, if_neg (by simpa using h0), if_pos hf, ht]

section
variable (hf : s.ctx.ev.flag = false)
include hf

section
variable {o : List Byte} {code data : Nat} (hd : s.ctx.ev.data = .object o code data)
include hd

theorem exec_hazelTranslation_object : exec .hazelTranslation s = .next (s.loadObject d (s.ctx.ev.sub % 8192) o code data) := by
  dsimp only [exec, execHazelTranslation]
  rw [onDie_eq hu, if_neg (by simpa using h0), if_neg (by rw [hf]; exact Bool.false_ne_true), hd]

theorem exec_load_refused {c : Nat} (hp : s.loadPlan o = .refuse c) : exec .hazelTranslation s = .next (s.answer (.loader c [])) := by
  rw [exec_hazelTranslation_object hu h0 hf hd]
  unfold State.loadObject
  rw [hp]

theorem exec_load_unplaceable {v : Variant} {c : Nat} (hp : s.loadPlan o = .native v) (hs : placeSection o v code data = .error c) :
    exec .hazelTranslation s = .next (s.answer (.loader c [])) := by
  rw [exec_hazelTranslation_object hu h0 hf hd]
  unfold State.loadObject
  rw [hp]
  dsimp only
  rw [hs]

theorem exec_load_native {v : Variant} {sd : List Byte × List Byte} {t : State} (hp : s.loadPlan o = .native v)
    (hs : placeSection o v code data = .ok sd) (ht : s.placeObject d (s.ctx.ev.sub % 8192) code data sd = some t) :
    exec .hazelTranslation s = .next (t.answer (.loader 0 sd.1)) := by
  rw [exec_hazelTranslation_object hu h0 hf hd]
  unfold State.loadObject
  rw [hp]
  dsimp only
  rw [hs]
  dsimp only
  rw [ht]

theorem exec_load_portable {tnf h : List Byte} {m t : State} {sd : List Byte × List Byte} (hp : s.loadPlan o = .portable tnf)
    (hh : s.hazelOutput d ((s.die d).grant (BitVec.ofNat 13 (s.ctx.ev.sub % 8192))).tenant tnf = (m, .ok h))
    (hs : placePortable o h code data = .ok sd) (ht : m.placeObject d (s.ctx.ev.sub % 8192) code data sd = some t) :
    exec .hazelTranslation s = .next (t.answer (.loader 0 sd.1)) := by
  rw [exec_hazelTranslation_object hu h0 hf hd]
  unfold State.loadObject
  rw [hp]
  dsimp only
  rw [hh]
  dsimp only
  rw [hs]
  dsimp only
  rw [ht]

end

section
variable {tnf : List Byte} (hd : s.ctx.ev.data = .bytes tnf)
include hd

theorem exec_hazelTranslation_refused {m : State} {code : Nat}
    (hh : s.hazelOutput d ((s.die d).grant (BitVec.ofNat 13 (s.ctx.ev.sub % 8192))).tenant tnf = (m, .error code)) :
    exec .hazelTranslation s = .next (m.answer (.loader code [])) := by
  dsimp only [exec, execHazelTranslation]
  rw [onDie_eq hu, if_neg (by simpa using h0), if_neg (by rw [hf]; exact Bool.false_ne_true), hd]
  dsimp only
  rw [hh]

theorem exec_hazelTranslation {m : State} {h : List Byte}
    (hh : s.hazelOutput d ((s.die d).grant (BitVec.ofNat 13 (s.ctx.ev.sub % 8192))).tenant tnf = (m, .ok h)) :
    exec .hazelTranslation s = .next (m.answer (.loader 0 h)) := by
  dsimp only [exec, execHazelTranslation]
  rw [onDie_eq hu, if_neg (by simpa using h0), if_neg (by rw [hf]; exact Bool.false_ne_true), hd]
  dsimp only
  rw [hh]

end

end

end

end

/-- Settles O55: the loader by its plan, Hazel by what its cache holds. -/
theorem attestationAndHazelComplete : Obligations.AttestationAndHazelComplete := by
  intro s d hu
  refine ⟨fun n hd => ⟨exec_attestation_winter hu hd, exec_attestation hu hd⟩, ?_⟩
  intro h0 asid tenant
  refine ⟨fun hf t => exec_hazelAssign hu h0 hf, fun hf => ⟨fun o code data hd => ?_, fun tnf hd => ⟨fun code hc => ?_, ?_⟩⟩⟩
  · exact ⟨fun c => exec_load_refused hu h0 hf hd, fun v c => exec_load_unplaceable hu h0 hf hd, fun v sd t => exec_load_native hu h0 hf hd,
      fun tnf m h sd t => exec_load_portable hu h0 hf hd⟩
  · exact exec_hazelTranslation_refused hu h0 hf hd (hazelOutput_refused hc)
  · intro hok key found
    refine ⟨fun hn hc => exec_hazelTranslation_refused hu h0 hf hd (hazelOutput_untranslatable hok hn hc),
      fun h hn hc => exec_hazelTranslation hu h0 hf hd (hazelOutput_new hok hn hc),
      fun e he ht => exec_hazelTranslation hu h0 hf hd (hazelOutput_kept hok he ht), ?_⟩
    intro e h he ht hc m
    exact exec_hazelTranslation hu h0 hf hd (hazelOutput_false hok he ht hc)

end Sys2Proof.Machine
end

section
/-! PROOF. The events of pre-emption, the checker and faults. -/
namespace Sys2Proof.Machine
open Sys2Proof

/-! Pre-emption (R423) and the checker (R424, R425). -/

section
variable {s : State} {c : CoreId} (hu : s.ctx.ev.unit = c.val)
include hu

section
variable {q : Request} (hp : s.plimReached c = true) (hq : (s.core c).request = some q)
include hp hq

theorem exec_preempt_withdrawn (ho : s.requestOver c q = true) :
    exec .preempt s = .next (s.setCore c { s.core c with request := none }) := by
  obtain ⟨hlt, hc⟩ := event_core hu
  dsimp only [exec, execPreempt]
  rw [dif_pos hlt, hc, hp, if_neg (by decide), hq]
  exact if_pos ho

theorem exec_preempt_raised (ho : s.requestOver c q = false) : exec .preempt s =
    .next ((s.setCore c { s.core c with request := some { q with spent := true } }).deliver c .cs (s.mkRecord c .cs
      { cause := 0x51, precise := false, detail := [BitVec.ofNat 64 q.count, BitVec.ofNat 64 (q.queue.getD 0xFF)] })) := by
  obtain ⟨hlt, hc⟩ := event_core hu
  dsimp only [exec, execPreempt]
  rw [dif_pos hlt, hc, hp, if_neg (by decide), hq]
  exact if_neg (by rw [ho]; exact Bool.false_ne_true)

end

theorem exec_checkerCompare_mismatch (hf : s.ctx.ev.flag = true) :
    exec .checkerCompare s = .next (s.setCore c { s.core c with mismatch := true }) := by
  obtain ⟨hlt, hc⟩ := event_core hu
  dsimp only [exec, execCheckerCompare]
  rw [dif_pos hlt, hc, if_pos hf]

section
variable (hf : s.ctx.ev.flag = false)
include hf

section
variable {e : Eng} {x : Cmd} (he : s.ctx.ev.sub = e.num + 1) (hx : ((s.core c).cmds e).find? (fun y => y.ord == s.ctx.ev.val) = some x)
include he

theorem exec_checkerCompare : exec .checkerCompare s = .next (s.compare c e s.ctx.ev.val) := by
  obtain ⟨hlt, hc⟩ := event_core hu
  dsimp only [exec, execCheckerCompare]
  rw [dif_pos hlt, hc, hf, if_neg Bool.false_ne_true, he, if_pos (Nat.succ_ne_zero _), Nat.add_sub_cancel, Eng.ofNum_num]

include hx

theorem exec_checkerCompare_agrees (hm : (s.core c).mismatch = false) : exec .checkerCompare s =
    .next (s.setCore c ((s.core c).setCmds e (((s.core c).cmds e).map fun y =>
      if y.ord = s.ctx.ev.val then { y with checked := true } else y))) := by
  rw [exec_checkerCompare hu hf he, State.compare]
  dsimp only
  rw [hx]
  dsimp only
  rw [hm, if_neg Bool.false_ne_true]

theorem exec_checkerCompare_differs (hm : (s.core c).mismatch = true) :
    let held := State.setCore { s with draws := s.draws + 2 } c
      { (s.core c).setCmds e (((s.core c).cmds e).filter fun y => y.ord != s.ctx.ev.val) with mismatch := false }
    exec .checkerCompare s = .next (held.deliver c e.strm (held.mkRecord c e.strm
      { cause := 0x41, eng := true, pc := some x.pc, midx := x.midx, inmac := x.inmac
        detail := checkWords x.code ++ [Config.freeWord s.draws, Config.freeWord (s.draws + 1)] })) := by
  rw [exec_checkerCompare hu hf he, State.compare]
  dsimp only
  rw [hx]
  dsimp only
  rw [hm, if_pos rfl]
  rfl

end

section
variable (h0 : s.ctx.ev.sub = 0) (hm : (s.core c).mismatchStop = true)
include h0 hm

theorem exec_checkerCompare_ends (h : (s.die (dieOf c)).errcfg.getLsbD 8 = false ∨ (s.core c).checkpoint.used = true) :
    exec .checkerCompare s = .next (s.endJob c 0x41 3) := by
  obtain ⟨hlt, hc⟩ := event_core hu
  dsimp only [exec, execCheckerCompare]
  rw [dif_pos hlt, hc, hf, if_neg Bool.false_ne_true, if_neg (Classical.not_not.2 h0), hm, if_neg (by decide), if_pos]
  · rfl
  · rw [Bool.or_eq_true, Bool.not_eq_true']
    exact h

theorem exec_checkerCompare_restarts (hr : (s.die (dieOf c)).errcfg.getLsbD 8 = true) (hn : (s.core c).checkpoint.used = false)
    (he : s.enginesRest c = true) : exec .checkerCompare s = .next (s.restartNode c) := by
  obtain ⟨hlt, hc⟩ := event_core hu
  dsimp only [exec, execCheckerCompare]
  rw [dif_pos hlt, hc, hf, if_neg Bool.false_ne_true, if_neg (Classical.not_not.2 h0), hm, if_neg (by decide), hr, hn, if_neg (by decide), if_pos he]

end

end

/-! Lane faults (R429). -/

section
variable (hc : c.val < 128)
include hc

theorem exec_vbusLaneFault : exec .vbusLaneFault s = .next (s.laneFault c s.ctx.ev.flag) := by
  have hlt : s.ctx.ev.unit < 128 := hu.symm ▸ hc
  have hunit : (⟨s.ctx.ev.unit, Nat.lt_trans hlt (by decide)⟩ : CoreId) = c := Fin.ext hu
  dsimp only [exec, execVbusLaneFault]
  rw [dif_pos hlt, hunit]

theorem exec_vbusLaneFault_freezes (hf : s.ctx.ev.flag = false) : ∃ m, m ≤ 512 ∧
    exec .vbusLaneFault s = .next (s.drawn.setCore c { s.core c with freeze := max (s.core c).freeze m }) := by
  refine ⟨Config.freeChoice s.draws % 513, Nat.le_of_lt_succ (Nat.mod_lt _ (by decide)), ?_⟩
  rw [exec_vbusLaneFault hu hc, hf]
  rfl

theorem exec_vbusLaneFault_loses (hf : s.ctx.ev.flag = true) : ∃ t, exec .vbusLaneFault s = .next t ∧ (t.core c).lost = true := by
  refine ⟨_, exec_vbusLaneFault hu hc, ?_⟩
  rw [hf, State.laneFault]
  dsimp only
  rw [if_neg (by decide), State.core_setCore]

end

/-! Host errors (R428). -/

theorem exec_hostErrorOnStore_empty (hb : (s.core c).hostBuf = []) : exec .hostErrorOnStore s = .next { s with
    hostErr := if s.ctx.ev.flag then s.ctx.ev.val / 64 * 64 :: s.hostErr.filter (· != s.ctx.ev.val / 64 * 64)
      else s.hostErr.filter (· != s.ctx.ev.val / 64 * 64) } := by
  obtain ⟨hlt, hc⟩ := event_core hu
  have hdrain (t : State) (ht : (t.core c).hostBuf = []) (sel : HostStore → Bool) : t.drainHost c sel = t := by
    rw [State.drainHost, ht]
    have hk : { t.core c with hostBuf := [] } = t.core c := by rw [← ht]
    exact (congrArg (t.setCore c) hk).trans (State.setCore_core t c)
  dsimp only [exec, execHostErrorOnStore]
  rw [dif_pos hlt, hc,
    hdrain { s with hostErr := s.ctx.ev.val / 64 * 64 :: s.hostErr.filter (· != s.ctx.ev.val / 64 * 64) } hb]

end

/-- The one line of a store that crosses none. -/
theorem lineParts_one {a n : Nat} {bs : List Byte} (h0 : bs.length ≠ 0) (h : a % 64 + bs.length ≤ 64) : lineParts (n + 1) a bs = [(a, bs)] := by
  have hne : bs.isEmpty = false := by simpa [List.isEmpty_iff] using h0
  have hlen : bs.length ≤ 64 - a % 64 := by omega
  have hrest (b : Nat) : lineParts n b [] = [] := by cases n <;> rfl
  rw [lineParts, hne, if_neg Bool.false_ne_true]
  dsimp only
  rw [List.take_of_length_le hlen, List.drop_of_length_le hlen, hrest]

/-- A store to a line with a host error, outside the windows, is refused (R297). -/
theorem hostWrite_error {s : State} {a : Nat} {bs : List Byte} (h0 : bs.length ≠ 0) (hw : s.windowAt a = none)
    (he : s.hostErr.contains (a / 64 * 64) = true) : s.hostWrite a bs = none := by
  have hline : a / 64 * 64 ∈ linesOf a bs.length := by
    rw [linesOf, if_neg h0, List.mem_map]
    exact ⟨0, List.mem_range.2 (Nat.succ_pos _), by rw [Nat.add_zero]⟩
  rw [State.hostWrite, hw]
  split
  · rfl
  · exact if_pos (List.any_eq_true.2 ⟨_, hline, he⟩)

/-- Such a store leaves HOST_ERR pending for its stream. -/
theorem deliverStore_error {s : State} {c : CoreId} {h : HostStore} (h0 : h.bytes.length ≠ 0) (h1 : h.addr % 64 + h.bytes.length ≤ 64)
    (hw : s.windowAt h.addr = none) (he : s.hostErr.contains (h.addr / 64 * 64) = true) :
    s.deliverStore c h = s.setStrm c h.strm { s.strm c h.strm with
      faults := (s.strm c h.strm).faults ++ [⟨0x13, h.pc, BitVec.ofNat 64 (h.addr / 64 * 64), 1, 4, [], h.ord⟩] } := by
  have hnone : (if s.offWindow h.addr h.bytes.length = true then none else s.hostWrite h.addr h.bytes) = none := by
    rw [hostWrite_error h0 hw he, ite_self]
  rw [State.deliverStore, lineParts_one h0 h1, List.foldl_cons, List.foldl_nil, hnone]
  rfl

/-- One buffered store that is picked reaches the host. -/
theorem drainHost_one {s : State} {c : CoreId} {h : HostStore} (hb : (s.core c).hostBuf = [h]) {sel : HostStore → Bool} (hsel : sel h = true) :
    s.drainHost c sel = (s.setCore c { s.core c with hostBuf := [] }).deliverStore c h := by
  have hout : outgoing sel [h] = [(h, true)] := by simp [outgoing, hsel]
  rw [State.drainHost, hb, hout]
  rfl

/-- What such a store leaves, when it is the only one buffered and is picked. -/
theorem drainHost_error {s : State} {c : CoreId} {h : HostStore} (hb : (s.core c).hostBuf = [h]) {sel : HostStore → Bool} (hsel : sel h = true)
    (h0 : h.bytes.length ≠ 0) (h1 : h.addr % 64 + h.bytes.length ≤ 64) (hw : s.windowAt h.addr = none)
    (he : s.hostErr.contains (h.addr / 64 * 64) = true) :
    (s.drainHost c sel).host = s.host ∧ ((s.drainHost c sel).core c).hostBuf = [] ∧
      ((s.drainHost c sel).strm c h.strm).faults = ((s.core c).strm h.strm).faults ++
        [⟨0x13, h.pc, BitVec.ofNat 64 (h.addr / 64 * 64), 1, 4, [], h.ord⟩] := by
  have hcore : (s.setCore c { s.core c with hostBuf := [] }).core c = { s.core c with hostBuf := [] } := State.core_setCore ..
  rw [drainHost_one hb hsel, deliverStore_error (s := s.setCore c { s.core c with hostBuf := [] }) h0 h1 hw he]
  refine ⟨rfl, ?_, ?_⟩
  · rw [State.setStrm, State.core_setCore, hcore]
    rfl
  · rw [State.strm, State.setStrm, State.core_setCore, Core.strm_setStrm, State.strm, hcore]
    rfl

theorem exec_hostErrorOnStore_pending {s : State} {c : CoreId} {h : HostStore} (hu : s.ctx.ev.unit = c.val) (hb : (s.core c).hostBuf = [h])
    (h0 : h.bytes.length ≠ 0) (h1 : h.addr % 64 + h.bytes.length ≤ 64) (hw : s.windowAt h.addr = none)
    (hl : h.addr / 64 * 64 = s.ctx.ev.val / 64 * 64) : ∃ t, exec .hostErrorOnStore s = .next t ∧ t.host = s.host ∧
      (t.core c).hostBuf = [] ∧ (t.strm c h.strm).faults = ((s.core c).strm h.strm).faults ++
        [⟨0x13, h.pc, BitVec.ofNat 64 (h.addr / 64 * 64), 1, 4, [], h.ord⟩] := by
  obtain ⟨hlt, hc⟩ := event_core hu
  dsimp only [exec, execHostErrorOnStore]
  rw [dif_pos hlt, hc]
  refine ⟨_, rfl, drainHost_error
    (s := { s with hostErr := s.ctx.ev.val / 64 * 64 :: s.hostErr.filter (· != s.ctx.ev.val / 64 * 64) }) hb ?_ h0 h1 hw ?_⟩
  · exact beq_iff_eq.2 hl
  · rw [hl]
    exact List.elem_cons_self

/-! Uncorrectable errors (R426). -/

section
variable {s : State} {c : CoreId}

theorem exec_upset_line {pa : Nat} (hd : s.ctx.ev.data = .upset (.line pa)) (hp : s.physOk (pa / 64 * 64) = true) :
    ∃ t, exec .uncorrectableError s = .next t ∧ t.poison.contains (pa / 64 * 64) = true ∧ t.mem = s.mem := by
  refine ⟨s.poisonLine pa, ?_, ?_⟩
  · dsimp only [exec, execUncorrectableError]
    rw [hd]
  · rw [State.poisonLine, hp]
    cases hq : s.poison.contains (pa / 64 * 64)
    · exact ⟨List.elem_cons_self, rfl⟩
    · exact ⟨hq, rfl⟩

theorem exec_upset_spad {off : Nat} (hd : s.ctx.ev.data = .upset (.spad c.val off)) (hl : off / 64 * 64 < (s.core c).padSize)
    (hp : (s.core c).spadPoison.contains (off / 64 * 64) = false) :
    exec .uncorrectableError s = .next (s.setCore c { s.core c with spadPoison := off / 64 * 64 :: (s.core c).spadPoison }) := by
  dsimp only [exec, execUncorrectableError]
  rw [hd]
  dsimp only
  rw [dif_pos c.isLt]
  refine congrArg Host.Outcome.next (if_neg ?_)
  rw [Bool.or_eq_true, decide_eq_true_iff, hp]
  exact fun h => h.elim (Nat.not_le.2 hl) Bool.false_ne_true

theorem exec_upset_tile {r : Nat} (hd : s.ctx.ev.data = .upset (.tile c.val r)) (hr : r ≤ 24) (hb : (s.core c).tile.bad.contains r = false) :
    exec .uncorrectableError s = .next (s.setCore c { s.core c with tile := { (s.core c).tile with bad := r :: (s.core c).tile.bad } }) := by
  dsimp only [exec, execUncorrectableError]
  rw [hd]
  dsimp only
  rw [dif_pos c.isLt]
  refine congrArg Host.Outcome.next (if_neg ?_)
  rw [Bool.or_eq_true, decide_eq_true_iff, hb]
  exact fun h => h.elim (Nat.not_lt.2 hr) Bool.false_ne_true

theorem exec_upset_cell {a b r l : Nat} (hd : s.ctx.ev.data = .upset (.cell a b r l)) (ha : a < 16) (hb : b < 4) (hr : r < 256) (hl : l < 256) :
    exec .uncorrectableError s = .next (s.cellUpset a b (256 * r + l)) := by
  dsimp only [exec, execUncorrectableError]
  rw [hd]
  exact if_pos ⟨ha, hb, hr, hl⟩

theorem exec_upset_delay {p g : Nat} (hd : s.ctx.ev.data = .upset (.delay c.val p g)) : exec .uncorrectableError s =
    .next (s.setCore c ((s.core c).setPlane p { (s.core c).planeAt p with marks := ((s.core c).planeAt p).marks ||| (1 : BitVec 16) <<< g })) := by
  dsimp only [exec, execUncorrectableError]
  rw [hd]
  dsimp only
  rw [dif_pos c.isLt]

end

/-! The supervisor's debug stop (log entry 44). -/

theorem exec_supervisorDebugStop {s : State} (hn : s.ctx.ev.unit < 16) :
    ∃ cause, supervisorFirst cause = false ∧ exec .supervisorDebugStop s = .next (s.drawn.arrayTrap s.ctx.ev.unit { cause := cause }) := by
  refine ⟨debugCauses[Config.freeChoice s.draws % debugCauses.length]?.getD 0, ?_, ?_⟩
  · cases hc : debugCauses[Config.freeChoice s.draws % debugCauses.length]? with
    | none => rfl
    | some n => simpa using (List.mem_filter.1 (List.mem_of_getElem? hc)).2
  · dsimp only [exec, execSupervisorDebugStop]
    rw [if_pos hn]

/-- Settles O56: each event by its own case. -/
theorem systemEventsComplete : Obligations.SystemEventsComplete := by
  intro s c k
  refine ⟨fun hu => ⟨fun q => exec_preempt_withdrawn hu, fun q => exec_preempt_raised hu, exec_checkerCompare_mismatch hu, ?_,
      fun hf h0 hm => ⟨exec_checkerCompare_ends hu hf h0 hm, exec_checkerCompare_restarts hu hf h0 hm⟩,
      exec_vbusLaneFault_freezes hu, exec_vbusLaneFault_loses hu, exec_hostErrorOnStore_empty hu, fun h => exec_hostErrorOnStore_pending hu⟩,
    fun pa => exec_upset_line, fun off => exec_upset_spad, fun r => exec_upset_tile, fun a b r l => exec_upset_cell,
    fun p g => exec_upset_delay, exec_supervisorDebugStop⟩
  intro e x hf he hx
  exact ⟨exec_checkerCompare_agrees hu hf he hx, exec_checkerCompare_differs hu hf he hx⟩

end Sys2Proof.Machine
end
